-- ==== Sys2Proof/Word.lean ====
section
/-! DEFINITION. The word types of the part (R4, R143): bytes, halfwords, 32-bit words, 64-bit words and 512-bit vectors. -/

namespace Sys2Proof

abbrev Byte := BitVec 8
abbrev Half := BitVec 16
abbrev Word32 := BitVec 32
abbrev Word := BitVec 64
abbrev Vec := BitVec 512

end Sys2Proof
end

