-- ==== Sys2Proof/Syntax.lean ====
section
/-! DEFINITION. The instruction set as data: operand codes (R142, R143), the type, width, format and scope selectors
(R141, R149, Table 10.5), and one constructor per row of spec/opcode_table.json. The rows that have an encoding come
first, in the table's order; the rows without bits, which are the device's own steps (95_what_each_step_holds.md), follow. -/

namespace Sys2Proof

/-- An operand code of Table 10.7: a register number, one of the 24 constants (codes 32 to 55), or a literal. -/
inductive Opnd where
  | reg (n : Fin 32)
  | const (c : Fin 24)
  | lit32 (w : BitVec 32)
  | lit64 (w : BitVec 64)
  deriving DecidableEq, Repr

/-- The five floating-point lane types (LT 0 to 4, R149). -/
inductive FType where
  | f32 | bf16 | f16 | fp8a | fp8b
  deriving DecidableEq, Repr

/-- All eight lane types (LT 0 to 7, R149). -/
inductive LType where
  | f32 | bf16 | f16 | fp8a | fp8b | i32 | i16 | i8
  deriving DecidableEq, Repr

/-- A lane or element width: 4, 2 or 1 bytes (W of R149, element width of Table 13.11). -/
inductive Width where
  | w4 | w2 | w1
  deriving DecidableEq, Repr

/-- A packed format (PK of R149). -/
inductive Pack where
  | e4m3 | e5m2 | int8 | int4 | o4
  deriving DecidableEq, Repr

/-- A matrix format (MF of R149). -/
inductive MFmt where
  | bf16 | f16 | fp8a | fp8b | i8 | i4 | o4
  deriving DecidableEq, Repr

/-- A scope (Table 10.5, R106). -/
inductive Scope where
  | th | core | cl | dev | sys
  deriving DecidableEq, Repr

/-- The ordering of an atomic (ORD of Table 10.12). -/
inductive Ord where
  | none | cl | dev | sys
  deriving DecidableEq, Repr

/-- The operation of VRED and VSCAN (R215). -/
inductive RedOp where
  | sum | max | min
  deriving DecidableEq, Repr

/-- The size and extension of an ordered load (SIZE and SIGN of Table 10.5). -/
inductive LdKind where
  | b | bu | h | hu | w | wu | d
  deriving DecidableEq, Repr

/-- The size of an ordered store. -/
inductive StKind where
  | b | h | w | d
  deriving DecidableEq, Repr

/-- What an SPDM request carries that the responder's answer depends on (R392, R393): the version it names, whether every
field and length is well formed, the asymmetric and hash algorithms and the measurement specifications that it offers (log 71), the slot or
measurement index, a nonce, and the request code where the row is for any code. -/
structure Spdm.Fields where
  version : Nat
  wellFormed : Bool
  asym : Nat
  hash : Nat
  spec : Nat
  slot : Nat
  nonce : BitVec 256
  code : Nat
  busy : Bool
  deriving DecidableEq, Repr

/-- A Flofer flit (Table 28.3), its payload taken as one value. -/
structure Flit where
  vc : Nat
  type : Nat
  dest : Nat
  owner : Nat
  free : Nat
  seq : Nat
  payload : BitVec 1792
  deriving DecidableEq, Repr

/-- R407, Table 28.5: the configuration record: its header, the core map of each cluster that it does not give the sixteen first physical cores, the
row map of each core that it does not give the 32 first rows, the failed banks as core and bank, the weight in pJ of each instruction class and,
after them, of an engine pass (R382), and the block maxima. -/
structure ConfigRecord where
  magic : Nat
  format : Nat
  length : Nat
  cores : List (Nat × BitVec 17)
  rows : List (Nat × BitVec 34)
  banks : List (Nat × Nat)
  weights : List Nat
  maxima : List Nat
  deriving DecidableEq, Repr

/-- What bring-up finds (R408): whether each verification of its steps succeeds, of the security firmware, the configuration record, and the
monitor, scheduler and management firmware; the record (R407); whether the tag of the field-repair list is good, and the entries that the
management firmware has put into the list beside those that the model's own steps append (R409). -/
structure BringUp where
  firmwareOk : Bool
  recordOk : Bool
  monitorOk : Bool
  schedulerOk : Bool
  managementOk : Bool
  record : ConfigRecord
  listOk : Bool
  repairs : List (BitVec 32)
  deriving DecidableEq, Repr

/-- R395, R396: the log buffers that an ARM names, as device virtual addresses of the context: a ring of `entries` 16-bit entries for each of the
context's cores, in the order of their numbers, and rings of `records` imbalance records for its domains, in the order in which they first record. -/
structure LogBuffers where
  cores : Nat
  entries : Nat
  domain : Nat
  records : Nat
  deriving DecidableEq, Repr

/-- R395, R396, Table 27.5: what an ARM holds beside its context: the period of its checkpoints and the log buffers. -/
structure ArmTerms where
  period : Nat
  logs : LogBuffers
  deriving DecidableEq, Repr

/-- The instructions and steps of spec/opcode_table.json. In an encoded instruction, `k` is the address-stream marker (R27,
R152), `d`, `a`, `b` are the operand fields of Table 10.3, and `off` is the raw offset field. -/
inductive Instr where
  /-- R155: Integer add: d := a + b modulo 2^64. -/
  | add (k : Bool) (d : Fin 32) (a : Opnd) (b : Opnd)
  /-- R155: Integer subtract: d := a - b. -/
  | sub (k : Bool) (d : Fin 32) (a : Opnd) (b : Opnd)
  /-- R155: Bitwise AND of a and b. -/
  | and (k : Bool) (d : Fin 32) (a : Opnd) (b : Opnd)
  /-- R155: Bitwise OR of a and b. -/
  | or (k : Bool) (d : Fin 32) (a : Opnd) (b : Opnd)
  /-- R155: Bitwise XOR of a and b. -/
  | xor (k : Bool) (d : Fin 32) (a : Opnd) (b : Opnd)
  /-- R155: d := a AND NOT b. -/
  | andn (k : Bool) (d : Fin 32) (a : Opnd) (b : Opnd)
  /-- R155: Signed minimum of a and b. -/
  | min (k : Bool) (d : Fin 32) (a : Opnd) (b : Opnd)
  /-- R155: Signed maximum of a and b. -/
  | max (k : Bool) (d : Fin 32) (a : Opnd) (b : Opnd)
  /-- R155: Unsigned minimum of a and b. -/
  | minu (k : Bool) (d : Fin 32) (a : Opnd) (b : Opnd)
  /-- R155: Unsigned maximum of a and b. -/
  | maxu (k : Bool) (d : Fin 32) (a : Opnd) (b : Opnd)
  /-- R155: Load immediate or move: d := b. -/
  | li (k : Bool) (d : Fin 32) (b : Opnd)
  /-- R156: Low 64 bits of a times b. -/
  | mul (k : Bool) (d : Fin 32) (a : Opnd) (b : Opnd)
  /-- R156: High 64 bits of the signed product. -/
  | mulh (k : Bool) (d : Fin 32) (a : Opnd) (b : Opnd)
  /-- R156: High 64 bits of the unsigned product. -/
  | mulhu (k : Bool) (d : Fin 32) (a : Opnd) (b : Opnd)
  /-- R156: Signed quotient, with fixed results for zero divisor and overflow. -/
  | div (k : Bool) (d : Fin 32) (a : Opnd) (b : Opnd)
  /-- R156: Unsigned quotient. -/
  | divu (k : Bool) (d : Fin 32) (a : Opnd) (b : Opnd)
  /-- R156: Signed remainder. -/
  | rem (k : Bool) (d : Fin 32) (a : Opnd) (b : Opnd)
  /-- R156: Unsigned remainder. -/
  | remu (k : Bool) (d : Fin 32) (a : Opnd) (b : Opnd)
  /-- R157: Shift left logical by b[5:0]. -/
  | sll (k : Bool) (d : Fin 32) (a : Opnd) (b : Opnd)
  /-- R157: Shift right logical by b[5:0]. -/
  | srl (k : Bool) (d : Fin 32) (a : Opnd) (b : Opnd)
  /-- R157: Shift right arithmetic by b[5:0]. -/
  | sra (k : Bool) (d : Fin 32) (a : Opnd) (b : Opnd)
  /-- R157: Count leading zero bits of a. -/
  | clz (k : Bool) (d : Fin 32) (a : Opnd)
  /-- R157: Count trailing zero bits of a. -/
  | ctz (k : Bool) (d : Fin 32) (a : Opnd)
  /-- R157: Count one bits of a. -/
  | popc (k : Bool) (d : Fin 32) (a : Opnd)
  /-- R157: Sign-extend the low n bits of a. -/
  | exts (k : Bool) (d : Fin 32) (a : Opnd) (b : Opnd)
  /-- R157: Zero-extend the low n bits of a. -/
  | extz (k : Bool) (d : Fin 32) (a : Opnd) (b : Opnd)
  /-- R158: Extract the bit field that b specifies from a. -/
  | bfext (k : Bool) (d : Fin 32) (a : Opnd) (b : Opnd)
  /-- R158: Insert a into the bit field of d that b specifies. -/
  | bfins (k : Bool) (d : Fin 32) (a : Opnd) (b : Opnd)
  /-- R159: d := 1 if a = b, else 0. -/
  | seq (k : Bool) (d : Fin 32) (a : Opnd) (b : Opnd)
  /-- R159: d := 1 if a < b, signed. -/
  | slt (k : Bool) (d : Fin 32) (a : Opnd) (b : Opnd)
  /-- R159: d := 1 if a < b, unsigned. -/
  | sltu (k : Bool) (d : Fin 32) (a : Opnd) (b : Opnd)
  /-- R159: d := a if d is non-zero, else b. -/
  | sel (k : Bool) (d : Fin 32) (a : Opnd) (b : Opnd)
  /-- R160: d := pc + b. -/
  | lea (k : Bool) (d : Fin 32) (b : Opnd)
  /-- R161: Convert a generic address between own-core and any-core forms. -/
  | apcvt (k : Bool) (d : Fin 32) (a : Opnd) (b : Opnd)
  /-- R162: Classify an address without accessing it. -/
  | aptest (k : Bool) (d : Fin 32) (a : Opnd)
  /-- R163: Branch when a = b. -/
  | beq (k : Bool) (a : Opnd) (b : Opnd) (off : BitVec 9)
  /-- R163: Branch when a differs from b. -/
  | bne (k : Bool) (a : Opnd) (b : Opnd) (off : BitVec 9)
  /-- R163: Branch when a < b, signed. -/
  | blt (k : Bool) (a : Opnd) (b : Opnd) (off : BitVec 9)
  /-- R163: Branch when a >= b, signed. -/
  | bge (k : Bool) (a : Opnd) (b : Opnd) (off : BitVec 9)
  /-- R163: Branch when a < b, unsigned. -/
  | bltu (k : Bool) (a : Opnd) (b : Opnd) (off : BitVec 9)
  /-- R163: Branch when a >= b, unsigned. -/
  | bgeu (k : Bool) (a : Opnd) (b : Opnd) (off : BitVec 9)
  /-- R146: Jump to pc + b + 2*off9 and write the link to a. -/
  | jal (k : Bool) (a : Fin 32) (b : Opnd) (off : BitVec 9)
  /-- R146: Jump to b + 2*off9 and write the link to a. -/
  | jalr (k : Bool) (a : Fin 32) (b : Opnd) (off : BitVec 9)
  /-- R164: Jump to pc + 2*off24. -/
  | j (k : Bool) (off : BitVec 24)
  /-- R166: Read a CSR into d. -/
  | csrr (k : Bool) (d : Fin 32) (csr : BitVec 12)
  /-- R166: Write the source to a CSR. -/
  | csrw (k : Bool) (d : Opnd) (csr : BitVec 12)
  /-- R166: Set CSR bits: CSR := CSR OR s. -/
  | csrs (k : Bool) (d : Opnd) (csr : BitVec 12)
  /-- R166: Clear CSR bits: CSR := CSR AND NOT s. -/
  | csrc (k : Bool) (d : Opnd) (csr : BitVec 12)
  /-- R176: Load a byte, sign-extended. -/
  | lb (k : Bool) (d : Fin 32) (base : Opnd) (off : BitVec 9)
  /-- R176: Load a byte, zero-extended. -/
  | lbu (k : Bool) (d : Fin 32) (base : Opnd) (off : BitVec 9)
  /-- R176: Load a halfword, sign-extended. -/
  | lh (k : Bool) (d : Fin 32) (base : Opnd) (off : BitVec 9)
  /-- R176: Load a halfword, zero-extended. -/
  | lhu (k : Bool) (d : Fin 32) (base : Opnd) (off : BitVec 9)
  /-- R176: Load a word, sign-extended. -/
  | lw (k : Bool) (d : Fin 32) (base : Opnd) (off : BitVec 9)
  /-- R176: Load a word, zero-extended. -/
  | lwu (k : Bool) (d : Fin 32) (base : Opnd) (off : BitVec 9)
  /-- R176: Load a doubleword. -/
  | ld (k : Bool) (d : Fin 32) (base : Opnd) (off : BitVec 9)
  /-- R177: Store a byte. -/
  | sb (k : Bool) (d : Opnd) (base : Opnd) (off : BitVec 9)
  /-- R177: Store a halfword. -/
  | sh (k : Bool) (d : Opnd) (base : Opnd) (off : BitVec 9)
  /-- R177: Store a word. -/
  | sw (k : Bool) (d : Opnd) (base : Opnd) (off : BitVec 9)
  /-- R177: Store a doubleword. -/
  | sd (k : Bool) (d : Opnd) (base : Opnd) (off : BitVec 9)
  /-- R179: Ordered load with acquire at the named scope, address in a. -/
  | loadAcquire (k : Bool) (d : Fin 32) (a : Opnd) (scope : Scope) (kind : LdKind)
  /-- R179: Ordered store with release at the named scope, address in a. -/
  | storeRelease (k : Bool) (d : Opnd) (a : Opnd) (scope : Scope) (kind : StKind)
  /-- R180: Orders po-earlier events within the scope before po-later events. -/
  | fence (k : Bool) (scope : Scope)
  /-- R181: Waits for the thread's matrix, attention and comet commands to complete. -/
  | fenceX (k : Bool)
  /-- R183: Atomic add at the home. -/
  | amoadd (k : Bool) (d : Fin 32) (a : Opnd) (b : Opnd) (ord : Ord)
  /-- R183: Atomic AND at the home. -/
  | amoand (k : Bool) (d : Fin 32) (a : Opnd) (b : Opnd) (ord : Ord)
  /-- R183: Atomic OR at the home. -/
  | amoor (k : Bool) (d : Fin 32) (a : Opnd) (b : Opnd) (ord : Ord)
  /-- R183: Atomic XOR at the home. -/
  | amoxor (k : Bool) (d : Fin 32) (a : Opnd) (b : Opnd) (ord : Ord)
  /-- R183: Atomic signed minimum. -/
  | amomin (k : Bool) (d : Fin 32) (a : Opnd) (b : Opnd) (ord : Ord)
  /-- R183: Atomic signed maximum. -/
  | amomax (k : Bool) (d : Fin 32) (a : Opnd) (b : Opnd) (ord : Ord)
  /-- R183: Atomic unsigned minimum. -/
  | amominu (k : Bool) (d : Fin 32) (a : Opnd) (b : Opnd) (ord : Ord)
  /-- R183: Atomic unsigned maximum. -/
  | amomaxu (k : Bool) (d : Fin 32) (a : Opnd) (b : Opnd) (ord : Ord)
  /-- R183: Atomic swap. -/
  | amoswap (k : Bool) (d : Fin 32) (a : Opnd) (b : Opnd) (ord : Ord)
  /-- R183: Atomic compare-and-swap against d. -/
  | amocas (k : Bool) (d : Fin 32) (a : Opnd) (b : Opnd) (ord : Ord)
  /-- R184: Atomic two-lane FP32 add at the home, RNE. -/
  | amofadd (k : Bool) (d : Fin 32) (a : Opnd) (b : Opnd) (ord : Ord)
  /-- R185: Read the tag of the word at a. -/
  | tld (k : Bool) (d : Fin 32) (a : Opnd)
  /-- R185: Write the tag of the word at a, waking waiters on change. -/
  | tst (k : Bool) (a : Opnd) (b : Opnd)
  /-- R185: Compare-and-swap the tag of the word at a. -/
  | tcas (k : Bool) (d : Fin 32) (a : Opnd) (b : Opnd)
  /-- R187: Write one entry or redirect base into the shadow copy of a table set. -/
  | ttabWr (k : Bool) (a : Opnd) (b : Opnd)
  /-- R187: Read one item of the active or shadow copy of a table set. -/
  | ttabRd (k : Bool) (d : Fin 32) (a : Opnd)
  /-- R188: Exchange active and shadow copies of a table set and wake its waiters. -/
  | ttabSwap (k : Bool) (a : Opnd)
  /-- R190: Send a 64-byte user message to a thread of a core. -/
  | msend (k : Bool) (a : Opnd) (b : Opnd)
  /-- R191: Wait for and dequeue the first seen inbox entry. -/
  | mrecv (k : Bool) (d : Fin 32)
  /-- R191: Return the first seen entry's header without dequeuing. -/
  | mpoll (k : Bool) (d : Fin 32)
  /-- R194: Spill thread replays an entry into the inbox. -/
  | mloop (k : Bool) (d : Fin 32) (a : Opnd)
  /-- R191: Return the number of seen or held inbox entries. -/
  | mcount (k : Bool) (d : Fin 32)
  /-- R271: Emit a signal with a value to the mortar. -/
  | sigEmit (k : Bool) (a : Opnd) (b : Opnd)
  /-- R271: Promise not to emit a signal this instant. -/
  | sigSkip (k : Bool) (a : Opnd)
  /-- R272: Return a signal's status and previous-instant bit without blocking. -/
  | sigTest (k : Bool) (d : Fin 32) (a : Opnd)
  /-- R272: Wait until a signal settles and return its value. -/
  | sigVal (k : Bool) (d : Fin 32) (a : Opnd)
  /-- R272: Block while unknown, branch when present. -/
  | bpres (k : Bool) (a : Opnd) (b : Opnd)
  /-- R272: Block while unknown, branch when absent. -/
  | babs (k : Bool) (a : Opnd) (b : Opnd)
  /-- R274: End the member's react half after its earlier memory events perform. -/
  | pause (k : Bool)
  /-- R275: Write the next half of a delay register. -/
  | dset (k : Bool) (d : Fin 16) (b : Opnd)
  /-- R275: Read the current half of a delay register. -/
  | dget (k : Bool) (d : Fin 32) (a : Fin 16)
  /-- R276: Read a doubleword of the latest imbalance record. -/
  | irec (k : Bool) (d : Fin 32) (b : Opnd)
  /-- R278: Check and send this member's plan entry at its slot. -/
  | xsendAt (k : Bool) (a : Opnd) (b : Opnd)
  /-- R279: End the member's exchange half; completes after the latch. -/
  | xend (k : Bool)
  /-- R280: Read the exchange slot counter. -/
  | xslot (k : Bool) (d : Fin 32)
  /-- R203: Lane-wise FP add. -/
  | vfadd (k : Bool) (d : Fin 32) (a : Opnd) (b : Opnd) (lt : FType)
  /-- R203: Lane-wise FP subtract. -/
  | vfsub (k : Bool) (d : Fin 32) (a : Opnd) (b : Opnd) (lt : FType)
  /-- R203: Lane-wise FP multiply. -/
  | vfmul (k : Bool) (d : Fin 32) (a : Opnd) (b : Opnd) (lt : FType)
  /-- R203: Lane-wise fused multiply-add into d. -/
  | vfma (k : Bool) (d : Fin 32) (a : Opnd) (b : Opnd) (lt : FType)
  /-- R203: Lane-wise FP maximum. -/
  | vfmax (k : Bool) (d : Fin 32) (a : Opnd) (b : Opnd) (lt : FType)
  /-- R203: Lane-wise FP minimum. -/
  | vfmin (k : Bool) (d : Fin 32) (a : Opnd) (b : Opnd) (lt : FType)
  /-- R203: Lane-wise FP equality into a mask. -/
  | vfcmpEq (k : Bool) (d : Fin 8) (a : Opnd) (b : Opnd) (lt : FType)
  /-- R203: Lane-wise FP less-than into a mask. -/
  | vfcmpLt (k : Bool) (d : Fin 8) (a : Opnd) (b : Opnd) (lt : FType)
  /-- R205: Lane-wise integer add. -/
  | vadd (k : Bool) (d : Fin 32) (a : Opnd) (b : Opnd) (w : Width)
  /-- R205: Lane-wise integer subtract. -/
  | vsub (k : Bool) (d : Fin 32) (a : Opnd) (b : Opnd) (w : Width)
  /-- R205: Lane-wise integer multiply, low bits. -/
  | vmul (k : Bool) (d : Fin 32) (a : Opnd) (b : Opnd) (w : Width)
  /-- R205: Lane-wise signed minimum. -/
  | vmin (k : Bool) (d : Fin 32) (a : Opnd) (b : Opnd) (w : Width)
  /-- R205: Lane-wise signed maximum. -/
  | vmax (k : Bool) (d : Fin 32) (a : Opnd) (b : Opnd) (w : Width)
  /-- R205: Lane-wise bitwise AND. -/
  | vand (k : Bool) (d : Fin 32) (a : Opnd) (b : Opnd) (w : Width)
  /-- R205: Lane-wise bitwise OR. -/
  | vor (k : Bool) (d : Fin 32) (a : Opnd) (b : Opnd) (w : Width)
  /-- R205: Lane-wise bitwise XOR. -/
  | vxor (k : Bool) (d : Fin 32) (a : Opnd) (b : Opnd) (w : Width)
  /-- R205: Lane-wise shift left. -/
  | vshl (k : Bool) (d : Fin 32) (a : Opnd) (b : Opnd) (w : Width)
  /-- R205: Lane-wise logical shift right. -/
  | vshr (k : Bool) (d : Fin 32) (a : Opnd) (b : Opnd) (w : Width)
  /-- R205: Lane-wise arithmetic shift right. -/
  | vshra (k : Bool) (d : Fin 32) (a : Opnd) (b : Opnd) (w : Width)
  /-- R205: Lane-wise integer equality into a mask. -/
  | vcmpEq (k : Bool) (d : Fin 8) (a : Opnd) (b : Opnd) (w : Width)
  /-- R205: Lane-wise signed less-than into a mask. -/
  | vcmpLt (k : Bool) (d : Fin 8) (a : Opnd) (b : Opnd) (w : Width)
  /-- R205: Lane-wise select by lanes of d. -/
  | vsel (k : Bool) (d : Fin 32) (a : Opnd) (b : Opnd) (w : Width)
  /-- R205: Lane-wise copy of b. -/
  | vmov (k : Bool) (d : Fin 32) (b : Opnd) (w : Width)
  /-- R205: Broadcast the low bits of a scalar into every active lane. -/
  | vbcast (k : Bool) (d : Fin 32) (b : Opnd) (w : Width)
  /-- R140: 16-bit form of VFADD.f32 with d = a. -/
  | vfadd16 (k : Bool) (d s : Fin 32)
  /-- R140: 16-bit form of VFSUB.f32. -/
  | vfsub16 (k : Bool) (d s : Fin 32)
  /-- R140: 16-bit form of VFMUL.f32. -/
  | vfmul16 (k : Bool) (d s : Fin 32)
  /-- R140: 16-bit form of VFMAX.f32. -/
  | vfmax16 (k : Bool) (d s : Fin 32)
  /-- R140: 16-bit form of VFMIN.f32. -/
  | vfmin16 (k : Bool) (d s : Fin 32)
  /-- R140: 16-bit form of VADD.i32. -/
  | vadd16 (k : Bool) (d s : Fin 32)
  /-- R140: 16-bit form of VSUB.i32. -/
  | vsub16 (k : Bool) (d s : Fin 32)
  /-- R140: 16-bit form of VMUL.i32. -/
  | vmul16 (k : Bool) (d s : Fin 32)
  /-- R140: 16-bit form of VAND.i32. -/
  | vand16 (k : Bool) (d s : Fin 32)
  /-- R140: 16-bit form of VOR.i32. -/
  | vor16 (k : Bool) (d s : Fin 32)
  /-- R140: 16-bit form of VXOR.i32. -/
  | vxor16 (k : Bool) (d s : Fin 32)
  /-- R140: 16-bit form of VSHL.i32. -/
  | vshl16 (k : Bool) (d s : Fin 32)
  /-- R140: 16-bit form of VSHR.i32. -/
  | vshr16 (k : Bool) (d s : Fin 32)
  /-- R140: 16-bit form of VSHRA.i32. -/
  | vshra16 (k : Bool) (d s : Fin 32)
  /-- R140: 16-bit form of VMAX.i32. -/
  | vmax16 (k : Bool) (d s : Fin 32)
  /-- R140: 16-bit form of VMOV.i32. -/
  | vmov16 (k : Bool) (d s : Fin 32)
  /-- R207: Convert lanes between lane types. -/
  | vcvt (k : Bool) (d : Fin 32) (a : Opnd) (src : LType) (t : LType)
  /-- R210: Quantise 64 FP32 values to one group of a packed format. -/
  | vquant (k : Bool) (d : Fin 32) (a : Fin 32) (b : Fin 32) (pk : Pack)
  /-- R212: Decode one packed group into 64 FP32 values. -/
  | vdeq (k : Bool) (d : Fin 32) (a : Opnd) (b : Fin 32) (pk : Pack)
  /-- R208: Narrow two vectors into one. -/
  | vpack (k : Bool) (d : Fin 32) (a : Opnd) (b : Opnd) (t : LType)
  /-- R209: Unpack INT4 elements into lanes. -/
  | vunpack (k : Bool) (d : Fin 32) (a : Opnd) (part : Fin 8) (t : LType)
  /-- R214: Permute lanes by index. -/
  | vperm (k : Bool) (d : Fin 32) (a : Opnd) (b : Opnd) (lt : LType)
  /-- R214: Interleave lanes of two vectors. -/
  | vshuf (k : Bool) (d : Fin 32) (a : Opnd) (b : Opnd) (lt : LType)
  /-- R215: Tree reduction of lanes. -/
  | vred (k : Bool) (d : Fin 32) (a : Opnd) (red : RedOp) (lt : LType)
  /-- R215: Sequential inclusive scan of lanes. -/
  | vscan (k : Bool) (d : Fin 32) (a : Opnd) (red : RedOp) (lt : LType)
  /-- R214: Extract one lane into a scalar register. -/
  | vextr (k : Bool) (d : Fin 32) (a : Opnd) (b : Opnd) (lt : LType)
  /-- R214: Insert a scalar into every active lane. -/
  | vins (k : Bool) (d : Fin 32) (a : Opnd) (b : Opnd) (lt : LType)
  /-- R216: Vector load by row or column. -/
  | vld (k : Bool) (d : Fin 32) (a : Opnd) (b : Opnd) (e : Width) (col : Bool)
  /-- R216: Vector store by row or column. -/
  | vst (k : Bool) (d : Opnd) (a : Opnd) (b : Opnd) (e : Width) (col : Bool)
  /-- R216: Strided vector load. -/
  | vlds (k : Bool) (d : Fin 32) (a : Opnd) (b : Opnd) (e : Width)
  /-- R216: Strided vector store. -/
  | vsts (k : Bool) (d : Opnd) (a : Opnd) (b : Opnd) (e : Width)
  /-- R216: Indexed vector load. -/
  | vldx (k : Bool) (d : Fin 32) (a : Opnd) (b : Opnd) (e : Width)
  /-- R216: Indexed vector store. -/
  | vstx (k : Bool) (d : Opnd) (a : Opnd) (b : Opnd) (e : Width)
  /-- R222: Load and bind a stream generator from a descriptor. -/
  | sgCfg (k : Bool) (d : Fin 4) (a : Opnd) (b : Opnd)
  /-- R222: Read the number of elements a generator has moved. -/
  | sgIdx (k : Bool) (d : Fin 32) (a : Fin 4)
  /-- R222: Stop and unbind a generator. -/
  | sgStop (k : Bool) (a : Fin 4)
  /-- R223: Read the next elements of a stream into a vector. -/
  | sread (k : Bool) (d : Fin 32) (a : Fin 4)
  /-- R223: Write a vector to the next elements of a stream. -/
  | swrite (k : Bool) (d : Fin 4) (a : Opnd)
  /-- R225: Repeat the following L instructions N times. -/
  | rep (k : Bool) (a : Opnd) (b : Opnd)
  /-- R204: Lane-wise exp2 in FP32. -/
  | vfexp2 (k : Bool) (d : Fin 32) (a : Opnd)
  /-- R204: Lane-wise reciprocal in FP32. -/
  | vfrcp (k : Bool) (d : Fin 32) (a : Opnd)
  /-- R204: Lane-wise reciprocal square root in FP32. -/
  | vfrsq (k : Bool) (d : Fin 32) (a : Opnd)
  /-- R204: Lane-wise log2 in FP32. -/
  | vflog2 (k : Bool) (d : Fin 32) (a : Opnd)
  /-- R204: Clear each lane's sign bit. -/
  | vfabs (k : Bool) (d : Fin 32) (a : Opnd) (lt : FType)
  /-- R204: Invert each lane's sign bit. -/
  | vfneg (k : Bool) (d : Fin 32) (a : Opnd) (lt : FType)
  /-- R204: Lane-wise FP less-or-equal into a mask. -/
  | vfcmpLe (k : Bool) (d : Fin 8) (a : Opnd) (b : Opnd) (lt : FType)
  /-- R204: Lane-wise unordered test into a mask. -/
  | vfcmpUn (k : Bool) (d : Fin 8) (a : Opnd) (b : Opnd) (lt : FType)
  /-- R220: Set a mask from a scalar. -/
  | mset (k : Bool) (d : Fin 8) (b : Opnd)
  /-- R220: AND of two masks. -/
  | mand (k : Bool) (d : Fin 8) (a : Opnd) (b : Opnd)
  /-- R220: OR of two masks. -/
  | mor (k : Bool) (d : Fin 8) (a : Opnd) (b : Opnd)
  /-- R220: NOT of a mask. -/
  | mnot (k : Bool) (d : Fin 8) (a : Opnd)
  /-- R220: Count set bits of a mask. -/
  | mpopc (k : Bool) (d : Fin 32) (a : Opnd)
  /-- R220: Index of the lowest set bit of a mask. -/
  | mfirst (k : Bool) (d : Fin 32) (a : Opnd)
  /-- R231: Queue a matrix configuration and drain entry point. -/
  | mxCfg (k : Bool) (a : Opnd) (b : Opnd) (mf : MFmt)
  /-- R233: Queue a load of one weight tile into the shadow plane. -/
  | mxLdw (k : Bool) (a : Opnd) (b : Opnd)
  /-- R235: Queue an exchange of active and shadow planes. -/
  | mxSwap (k : Bool)
  /-- R236: Queue a load of the duplication map. -/
  | mxDup (k : Bool) (a : Opnd)
  /-- R238: Queue accumulation of activation rows into a tile. -/
  | mxStream (k : Bool) (d : Fin 4) (a : Opnd) (b : Opnd)
  /-- R237: Queue zeroing of a tile and its scale record. -/
  | mxZero (k : Bool) (d : Fin 4)
  /-- R240: Queue draining of a tile's rows towards a destination. -/
  | mxDrain (k : Bool) (d : Fin 4) (a : Opnd) (b : Opnd)
  /-- R242: Drain thread releases its row to the destination. -/
  | dret (k : Bool)
  /-- R244: Wait for the thread's engine commands and drained rows to complete. -/
  | mxWait (k : Bool)
  /-- R258: Queue a load of the query tile and row map; reset attention state. -/
  | attnQld (k : Bool) (a : Opnd) (b : Opnd)
  /-- R259: Run attention over a position range, block by block, held until done. -/
  | attnRun (k : Bool) (a : Opnd) (b : Opnd)
  /-- R260: Queue a merge of a saved state into the current state. -/
  | attnMerge (k : Bool) (a : Opnd)
  /-- R261: Queue writing O/l for every row. -/
  | attnFin (k : Bool) (a : Opnd) (b : Opnd)
  /-- R261: Queue writing the current attention state. -/
  | attnSt (k : Bool) (a : Opnd)
  /-- R264: Append key and value rows for a batch of sequences. -/
  | cmAppend (k : Bool) (a : Opnd)
  /-- R265: Push free pages onto the free list. -/
  | cmFill (k : Bool) (d : Fin 32) (a : Opnd) (b : Opnd)
  /-- R266: Unlink a comet page and optionally push it. -/
  | cmFree (k : Bool) (d : Fin 32) (a : Opnd) (b : Opnd)
  /-- R267: Probe the prefix index for candidates. -/
  | cmLookup (k : Bool) (d : Fin 32) (a : Opnd) (b : Opnd)
  /-- R268: Link a donor's full pages into a requester sequence. -/
  | cmShare (k : Bool) (d : Fin 32) (a : Opnd)
  /-- R269: Discard the own core's comet buffer. -/
  | cmInval (k : Bool)
  /-- R248: Snapshot the transfer registers and launch a block transfer. -/
  | xfGo (k : Bool) (d : Fin 32)
  /-- R253: Cancel a transfer of this thread at the engine. -/
  | xfCancel (k : Bool) (d : Fin 32) (a : Opnd)
  /-- R195: Make the user thread briefly unready. -/
  | yield (k : Bool)
  /-- R196: End the node of the user thread. -/
  | nexit (k : Bool)
  /-- R197: Record a liveness hint and halt there if a halt is pending. -/
  | phint (k : Bool) (a : Opnd) (b : Opnd)
  /-- R198: Return from a user-level handler. -/
  | uiret (k : Bool)
  /-- R172: Scalar FP add. -/
  | fadd (k : Bool) (d : Fin 32) (a : Opnd) (b : Opnd) (p : Bool)
  /-- R172: Scalar FP subtract. -/
  | fsub (k : Bool) (d : Fin 32) (a : Opnd) (b : Opnd) (p : Bool)
  /-- R172: Scalar FP multiply. -/
  | fmul (k : Bool) (d : Fin 32) (a : Opnd) (b : Opnd) (p : Bool)
  /-- R172: Scalar fused multiply-add into d. -/
  | ffma (k : Bool) (d : Fin 32) (a : Opnd) (b : Opnd) (p : Bool)
  /-- R172: Scalar FP divide. -/
  | fdiv (k : Bool) (d : Fin 32) (a : Opnd) (b : Opnd) (p : Bool)
  /-- R172: Scalar FP square root. -/
  | fsqrt (k : Bool) (d : Fin 32) (a : Opnd) (p : Bool)
  /-- R172: Scalar FP minimum. -/
  | fmin (k : Bool) (d : Fin 32) (a : Opnd) (b : Opnd) (p : Bool)
  /-- R172: Scalar FP maximum. -/
  | fmax (k : Bool) (d : Fin 32) (a : Opnd) (b : Opnd) (p : Bool)
  /-- R173: Scalar FP equality compare. -/
  | fcmpEq (k : Bool) (d : Fin 32) (a : Opnd) (b : Opnd) (p : Bool)
  /-- R173: Scalar FP less-than compare. -/
  | fcmpLt (k : Bool) (d : Fin 32) (a : Opnd) (b : Opnd) (p : Bool)
  /-- R173: Scalar FP less-or-equal compare. -/
  | fcmpLe (k : Bool) (d : Fin 32) (a : Opnd) (b : Opnd) (p : Bool)
  /-- R174: Convert between FP32 and FP64. -/
  | fcvtPrecision (k : Bool) (d : Fin 32) (a : Opnd) (p : Bool)
  /-- R174: Convert FP to signed 64-bit integer. -/
  | fcvtToInt (k : Bool) (d : Fin 32) (a : Opnd) (p : Bool)
  /-- R174: Convert signed 64-bit integer to FP. -/
  | fcvtFromInt (k : Bool) (d : Fin 32) (a : Opnd) (p : Bool)
  /-- R325: Environment call, taken at M and handled by the monitor. -/
  | ecall (k : Bool)
  /-- R326: Breakpoint trap, cause 3. -/
  | ebreak (k : Bool)
  /-- R327: Return from an M-level trap. -/
  | mret (k : Bool)
  /-- R327: Return from an S-level trap, ending a report's handling. -/
  | sret (k : Bool)
  /-- R328: Wait until an enabled interrupt is pending. -/
  | wfi (k : Bool)
  /-- R329: Install a TLB entry on a compute core of the cluster. -/
  | tlbWr (k : Bool) (d : Fin 32) (a : Opnd) (b : Opnd)
  /-- R330: Discard selected TLB entries on named cores. -/
  | tlbInv (k : Bool) (d : Fin 32) (a : Opnd) (b : Opnd)
  /-- R331: Wait for accesses translated under older generations of an ASID. -/
  | xlateDrain (k : Bool) (a : Opnd) (b : Opnd)
  /-- R332: Write the engine and attention state image. -/
  | mxSave (k : Bool) (a : Opnd)
  /-- R333: Restore the engine and attention state from an image. -/
  | mxLoad (k : Bool) (d : Fin 32) (a : Opnd)
  /-- R334: Request, force or cancel the halt of a context. -/
  | ctxHalt (k : Bool) (d : Fin 32) (a : Opnd) (b : Opnd)
  /-- R335: Start writing the image of a halted context. -/
  | ctxSave (k : Bool) (d : Fin 32) (a : Opnd) (b : Opnd)
  /-- R6: Write to a register that has no row of its own, under its access types. -/
  | registerWrite (core th : Nat) (csr : BitVec 12) (v : BitVec 64)
  /-- R84: Write of a local region map SET field, switching sets and waking parked accesses. -/
  | tagmapWrite (core : Nat) (reg : Fin 8) (v : BitVec 64)
  /-- R62: Write of a bank format register, ignored whole when malformed. -/
  | bankfmtWrite (core : Nat) (bank : Fin 16) (v : BitVec 64)
  /-- R75: A remote access message is checked and performed at its home in one bank operation. -/
  | remoteAccessArrival (id : Nat)
  /-- R178: A home's acknowledgement or error for a cleared store returns to the issuer. -/
  | storeAcknowledge (id : Nat) (refused : Bool)
  /-- R81: A woken parked access is re-checked in its own bank operation. -/
  | parkRecheck (place bank : Nat)
  /-- R82: An access held behind a full park list is checked afresh when an entry frees. -/
  | heldAccessRecheck (id : Nat)
  /-- R189: A user message or completion record is appended to a core's inbox. -/
  | inboxArrival (id : Nat)
  /-- R193: The idle spill thread is woken with a wake reason. -/
  | spillWake (core : Nat)
  /-- R30: A pending user interrupt is taken at an instruction boundary. -/
  | userInterruptEntry (core th : Nat)
  /-- R317: An M- or S-level interrupt is taken at an instruction boundary. -/
  | interruptTake (core th : Nat)
  /-- R315: A hub core takes the oldest trap report as an S-level trap. -/
  | trapReportDelivery (hub : Nat)
  /-- R316: SRESOLVE action 0: the trapped thread resumes at EPC. -/
  | resolveRetry (hub : Nat)
  /-- R316: SRESOLVE action 1: the thread resumes past the instruction. -/
  | resolveSkip (hub : Nat)
  /-- R316: SRESOLVE action 2: the grid is aborted. -/
  | resolveAbort (hub : Nat)
  /-- R42: The mortar declares a causality cycle and blocked members trap with cause 29. -/
  | causalityCycle (dom : Nat)
  /-- R45: The react half ends and the imbalance record is written. -/
  | reactHalfEnd (dom : Nat)
  /-- R46: The exchange half begins after the mortar delay; pauses complete. -/
  | exchangeHalfStart (dom : Nat)
  /-- R48: A beat of a waiting XSEND.AT leaves at its owned slot. -/
  | exchangeBeatSend (dom : Nat)
  /-- R49: A beat is written at its destination one orbit after its slot, setting tags. -/
  | exchangeArrival (dom : Nat)
  /-- R51: Delay registers and signals latch, INSTANT advances and XENDs complete. -/
  | latch (dom : Nat)
  /-- R227: The matrix engine starts executing the next queued command. -/
  | matrixCommandStart (core : Nat)
  /-- R241: The engine dispatches the drain thread for a row, or writes it directly. -/
  | drainDispatch (core : Nat)
  /-- R249: The block-transfer engine receives a layout record, checks it and begins moving bytes. -/
  | transferStart (cluster : Nat)
  /-- R251: A transfer ends and its completion record is appended to the issuer's inbox. -/
  | transferCompletion (cluster : Nat) (id : BitVec 64)
  /-- R342: A missing translation sends a miss message to the translation core. -/
  | tlbMissMessage (core : Nat)
  /-- R345: A write through a clean entry sends a dirty notice and waits. -/
  | dirtyNotice (core : Nat)
  /-- R34: The grid-deadlock watchdog expires: cause 38 and abort. -/
  | gridDeadlock (gid : Nat)
  /-- R373: The halt watchdog expires and remaining threads halt in full. -/
  | haltWatchdog (ctx : Nat)
  /-- R363: A grid's LIMIT expires and it is aborted with code 6. -/
  | runTimeLimit (gid : Nat)
  /-- R356: Interrupt 67 from a NOTIFY store makes the command processor scan the queue. -/
  | notifyScan (q : Nat)
  /-- R356: Every 100 us a queue with HINT above READ is scanned. -/
  | periodicQueueScan (q : Nat)
  /-- R360: Dispatch step of a LAUNCH packet: validate, accept and consume. -/
  | packetLaunch (q : Nat)
  /-- R357: A NOP packet is consumed and its signal decremented. -/
  | packetNop (q : Nat)
  /-- R357: A MARK packet is consumed; its signal falls when earlier grids complete. -/
  | packetMark (q : Nat)
  /-- R365: Admin QUEUE packet creating a queue. -/
  | packetQueueCreate (q : Nat)
  /-- R365: Admin QUEUE packet destroying a queue and cancelling its grids. -/
  | packetQueueDestroy (q : Nat)
  /-- R361: Freed cores take a waiting group, applying its images. -/
  | groupDispatch (gid : Nat)
  /-- R32: A complete grid's completion signal is decremented. -/
  | gridCompletion (gid : Nat)
  /-- R362: An aborted grid's signal receives its error code. -/
  | errorEvent (gid : Nat)
  /-- R335: The save engine writes a halted context's image and status. -/
  | saveEngine (ctx : Nat)
  /-- R378: A restore request DOE object restores an image onto free clusters. -/
  | restoreRequest (fn : Nat) (image : BitVec 64) (part : Nat)
  /-- R387: The scrubber reads and repairs one word or line: of the local SRAM of core `unit` (memory 0), of the shared SRAM of cluster `unit`
  (memory 1), or of DRAM. -/
  | scrubRead (memory unit off : Nat)
  /-- R389: A bank's corrected-error count reaches 256 and it is declared failed. -/
  | bankFailed (core bank : Nat) (selfTest : Bool)
  /-- R406: A block over its current maximum for 1 us stretches its clock. -/
  | clockStretch (block : Nat)
  /-- R390: A key-load object loads an owner's key slot. -/
  | keyLoad (fn owner : Nat) (wrapped debugKey : BitVec 576)
  /-- R390: A key slot is cleared when no context of the owner exists. -/
  | keyClear (owner : Nat)
  /-- R392: SPDM GET_VERSION; resets the connection. -/
  | getVersion (fn : Nat) (r : Spdm.Fields)
  /-- R392: SPDM GET_CAPABILITIES request. -/
  | getCapabilities (fn : Nat) (r : Spdm.Fields)
  /-- R392: SPDM NEGOTIATE_ALGORITHMS request. -/
  | negotiateAlgorithms (fn : Nat) (r : Spdm.Fields)
  /-- R392: SPDM GET_DIGESTS for slot 0. -/
  | getDigests (fn : Nat) (r : Spdm.Fields)
  /-- R392: SPDM GET_CERTIFICATE for slot 0. -/
  | getCertificate (fn : Nat) (r : Spdm.Fields)
  /-- R392: SPDM CHALLENGE signed over the transcript. -/
  | challenge (fn : Nat) (r : Spdm.Fields)
  /-- R394: SPDM GET_MEASUREMENTS reading registers in one step. -/
  | getMeasurements (fn : Nat) (r : Spdm.Fields)
  /-- R393: An SPDM request outside the supported set gets an error response. -/
  | spdmUnsupportedRequest (fn : Nat) (r : Spdm.Fields)
  /-- R395: Debug object returning a fresh nonce. -/
  | debugNonce
  /-- R395: Debug object unlocking an owner and extending MEAS7. -/
  | debugUnlock (owner : Nat) (nonce : BitVec 256) (signature : BitVec 912)
  /-- R396: Debug object starting checkpoints and logs. -/
  | debugArm (ctx : Nat) (terms : ArmTerms)
  /-- R397: Debug object replaying to a precise stop. -/
  | debugStop (ctx interval thread count : Nat)
  /-- R397: The named thread's RETIRED count is reached and the context halts. -/
  | debugStopReached (ctx : Nat)
  /-- R395: Debug object returning a section of the stopped state. -/
  | debugRead (ctx type key : Nat)
  /-- R395: Debug object ending a stop. -/
  | debugResume (ctx : Nat)
  /-- R395: Debug object ending checkpoints and logs. -/
  | debugDisarm (ctx : Nat)
  /-- R396: The issue scheduler appends a run-length log entry for an armed context. -/
  | runLengthLogAppend (core thread run : Nat)
  /-- R401: FLR of a function destroys its non-admin queues and resets the admin queue. -/
  | functionLevelReset (fn : Nat)
  /-- R400: Host access through BAR2 under the partition's owner. -/
  | bar2Access (fn addr : Nat) (size : Fin 65) (write : Option (BitVec 512))
  /-- R402: Write of DEVID setting or locking the device identifier. -/
  | devidWrite (v : BitVec 64)
  /-- R403: A Flofer port sends a flit when it holds credit. -/
  | flitSend (port vc : Nat) (f : Flit)
  /-- R403: A received flit is authenticated, or dropped and resent. -/
  | flitReceive (port : Nat) (f : Flit) (tagOk : Bool)
  /-- R404: An audit flit is compared and a mismatched channel retrains. -/
  | auditFlit (port vc : Nat) (free seq : Nat)
  /-- R352: Write of a partition's cluster set, ignored whole when illegal. -/
  | partclWrite (n : Fin 64) (j : Fin 4) (v : BitVec 64)
  /-- R352: Write of an orbit slot's owner, pending until the next orbit boundary. -/
  | orbitWrite (slot : Fin 64) (v : BitVec 64)
  /-- R352: A pending orbit write takes effect at the orbit boundary. -/
  | orbitUpdateApply
  /-- R34: Write of a partition's grid-deadlock period, ignored when out of range. -/
  | gdwdWrite (n : Fin 64) (v : BitVec 64)
  /-- R352: Write of a partition's owner identifier. -/
  | partownWrite (n : Fin 64) (v : BitVec 64)
  /-- R373: Write of a partition's halt watchdog period. -/
  | haltwdWrite (n : Fin 64) (v : BitVec 64)
  /-- R408: Reset runs the bring-up sequence to the reset state. -/
  | bringUp (cfg : BringUp)
  /-- R79: The reply of a home (a load's value, an atomic's old value, or a store's acknowledgement or error) returns to the issuer of an access that was not yet cleared, writing its register or raising its precise trap and clearing it. -/
  | remoteAccessReply (id : Nat) (peer : Option (BitVec 512))
  /-- R227: A matrix, attention or comet command finishes in the engine, commits its tile or state in one step, frees its queue entry and releases any MX.WAIT, FENCE.X or held thread waiting on it. -/
  | matrixCommandCompletion (core : Nat)
  /-- R317: The monitor timer runs out and makes interrupt 66 pending at M, which also ends a WFI. -/
  | monitorTimerExpiry (core : Nat)
  /-- R317: The scheduler timer of a hub or translation core runs out and makes interrupt 70 pending at S. -/
  | schedulerTimerExpiry (core : Nat)
  /-- R150: The halfword or word at pc matches no instruction (halfword 0x0000, majors 0x20-0x3F, or other illegal patterns) and raises cause 2 with UVAL set to the pattern. -/
  | illegalInstruction (pattern : BitVec 32)
  /-- R151: The first word or the literal at pc cannot be fetched, raising cause 1 or 12 with the address of the first unfetchable halfword. -/
  | instructionFetchFault (page : Bool) (value : BitVec 64)
  deriving DecidableEq, Repr

end Sys2Proof
end

