-- ==== Sys2Proof/Machine/Float.lean ====
section
/-! DEFINITION. Number formats and exact arithmetic (R86 to R104): a value is an exact dyadic number, an infinity or a NaN;
every operation is computed exactly and rounded once. -/

namespace Sys2Proof.Machine

/-! ## Exact values -/

/-- A value of Table 7.1: a NaN (signalling or not), an infinity, or (−1)^neg · m · 2^e. -/
inductive Num where
  | nan (signalling : Bool)
  | inf (neg : Bool)
  | fin (neg : Bool) (m : Nat) (e : Int)
  deriving DecidableEq, Repr

/-- A floating-point format (Table 7.1): exponent and mantissa bits, bias, whether it has infinities, and its largest
finite pattern and canonical NaN. -/
structure Fmt where
  eb : Nat
  mb : Nat
  bias : Nat
  hasInf : Bool
  maxFin : Nat
  canon : Nat
  deriving DecidableEq, Repr

def Fmt.f64 : Fmt := ⟨11, 52, 1023, true, 0x7FEFFFFFFFFFFFFF, 0x7FF8000000000000⟩
def Fmt.f32 : Fmt := ⟨8, 23, 127, true, 0x7F7FFFFF, 0x7FC00000⟩
def Fmt.f16 : Fmt := ⟨5, 10, 15, true, 0x7BFF, 0x7E00⟩
def Fmt.bf16 : Fmt := ⟨8, 7, 127, true, 0x7F7F, 0x7FC0⟩
def Fmt.e4m3 : Fmt := ⟨4, 3, 7, false, 0x7E, 0x7F⟩
def Fmt.e5m2 : Fmt := ⟨5, 2, 15, true, 0x7B, 0x7E⟩

/-- The format of a floating lane type. -/
def ftFmt : FType → Fmt
  | .f32 => .f32 | .bf16 => .bf16 | .f16 => .f16 | .fp8a => .e4m3 | .fp8b => .e5m2

/-- The width of a format in bits. -/
def Fmt.width (f : Fmt) : Nat := 1 + f.eb + f.mb

/-- The sign bit's weight. -/
def Fmt.signBit (f : Fmt) : Nat := 2 ^ (f.eb + f.mb)

/-- The exponent of the least subnormal. -/
def Fmt.qmin (f : Fmt) : Int := 1 - (f.bias : Int) - f.mb

/-- The value of a bit pattern (R86, R87). -/
def Fmt.decode (f : Fmt) (b : Nat) : Num :=
  let neg := decide (b / f.signBit % 2 = 1)
  let ex := b / 2 ^ f.mb % 2 ^ f.eb
  let man := b % 2 ^ f.mb
  if f.hasInf && decide (ex = 2 ^ f.eb - 1) then
    (if man = 0 then .inf neg else .nan (decide (man < 2 ^ (f.mb - 1))))
  else if !f.hasInf && decide (ex = 2 ^ f.eb - 1) && decide (man = 2 ^ f.mb - 1) then .nan false
  else if ex = 0 then .fin neg man f.qmin
  else .fin neg (2 ^ f.mb + man) ((ex : Int) - 1 + f.qmin)

/-- A rounding mode (Table 7.4). -/
inductive Rm where
  | rne | rtz | rup | rdn
  deriving DecidableEq, Repr

def rmOf (m : BitVec 2) : Rm := if m = 0 then .rne else if m = 1 then .rtz else if m = 2 then .rup else .rdn

/-- Flags of Table 7.6. -/
abbrev Flags := BitVec 5
def flNV : Flags := 16
def flDZ : Flags := 8
def flOF : Flags := 4
def flUF : Flags := 2
def flNX : Flags := 1

/-- A bit pattern and the flags that its computation raises. -/
structure FRes where
  bits : Nat
  fl : Flags
  deriving DecidableEq, Repr

/-- A pattern with a sign. -/
def Fmt.signed (f : Fmt) (neg : Bool) (b : Nat) : Nat := if neg then f.signBit + b else b

/-- The bits of m · 2^e kept at exponent q, with the remainder resolved by the mode: the rounded multiple of 2^q, and whether
it is inexact. -/
def roundAt (rm : Rm) (neg : Bool) (m : Nat) (e q : Int) : Nat × Bool :=
  if q ≤ e then (m * 2 ^ (e - q).toNat, false)
  else
    let sh := (q - e).toNat
    let k := m / 2 ^ sh
    let r := m % 2 ^ sh
    let half := 2 ^ (sh - 1)
    let up : Bool := match rm with
      | .rne => decide (half < r) || (decide (r = half) && decide (k % 2 = 1))
      | .rtz => false
      | .rup => !neg && decide (r ≠ 0)
      | .rdn => neg && decide (r ≠ 0)
    (if up then k + 1 else k, decide (r ≠ 0))

/-- The place of the top bit of a number. -/
def topBit (m : Nat) : Nat := Nat.log2 m

/-- R98, R104: cvt of a finite value to a floating format. -/
def Fmt.packFin (f : Fmt) (rm : Rm) (sat neg : Bool) (m : Nat) (e : Int) : FRes :=
  if m = 0 then ⟨f.signed neg 0, 0⟩
  else
    let top : Int := e + topBit m
    let q := max (top - f.mb) f.qmin
    let (k, nx) := roundAt rm neg m e q
    let b := (q - f.qmin).toNat * 2 ^ f.mb + k
    if f.maxFin < b then
      let toInf : Bool := f.hasInf && !sat && (match rm with
        | .rne => true
        | .rtz => false
        | .rup => !neg
        | .rdn => neg)
      ⟨f.signed neg (if toInf then f.maxFin + 1 else f.maxFin), flOF ||| flNX⟩
    else
      let (k', _) := roundAt rm neg m e (top - f.mb)
      let tiny : Bool := decide (top < f.qmin + f.mb) &&
        !(decide (top = f.qmin + f.mb - 1) && decide (2 ^ (f.mb + 1) ≤ k'))
      ⟨f.signed neg b, if nx then (if tiny then flUF ||| flNX else flNX) else 0⟩

/-- R98: cvt to a floating format. -/
def Fmt.pack (f : Fmt) (rm : Rm) (sat : Bool) : Num → FRes
  | .nan _ => ⟨f.canon, 0⟩
  | .inf neg => ⟨f.signed neg (if f.hasInf then f.maxFin + 1 else f.maxFin), 0⟩
  | .fin neg m e => f.packFin rm sat neg m e

/-- The canonical NaN of a format, with flags. -/
def Fmt.nan (f : Fmt) (fl : Flags) : FRes := ⟨f.canon, fl⟩

def Num.isNan : Num → Bool
  | .nan _ => true
  | _ => false

def Num.isSig : Num → Bool
  | .nan s => s
  | _ => false

def Num.isZero : Num → Bool
  | .fin _ m _ => decide (m = 0)
  | _ => false

def Num.isInf : Num → Bool
  | .inf _ => true
  | _ => false

def Num.neg : Num → Bool
  | .inf n => n
  | .fin n _ _ => n
  | _ => false

/-- The value with its sign inverted. -/
def Num.negate : Num → Num
  | .nan s => .nan s
  | .inf n => .inf (!n)
  | .fin n m e => .fin (!n) m e

/-- The value with sign 0. -/
def Num.abs : Num → Num
  | .nan s => .nan s
  | .inf _ => .inf false
  | .fin _ m e => .fin false m e

/-- A finite value times 2^k, and the others unchanged. -/
def Num.scale (k : Int) : Num → Num
  | .fin n m e => .fin n m (e + k)
  | x => x

/-- The signed integer s · m · 2^(e − q), for q ≤ e. -/
def signedAt (neg : Bool) (m : Nat) (e q : Int) : Int :=
  let v : Int := (m * 2 ^ (e - q).toNat : Nat)
  if neg then -v else v

/-- An integer times 2^e as a value; an exact zero has the sign given. -/
def numOfInt (v : Int) (e : Int) (zeroNeg : Bool) : Num :=
  if v = 0 then .fin zeroNeg 0 e else .fin (decide (v < 0)) v.natAbs e

/-- R102: the exact sum of two values, with the sign of an exact zero by the mode; ∞ − ∞ is a NaN. -/
def Num.add (rm : Rm) (x y : Num) : Num :=
  match x, y with
  | .nan s, _ => .nan s
  | _, .nan s => .nan s
  | .inf a, .inf b => if a = b then .inf a else .nan false
  | .inf a, _ => .inf a
  | _, .inf b => .inf b
  | .fin a m e, .fin b n g =>
    if m = 0 ∧ n = 0 ∧ a = b then .fin a 0 e
    else
      let q := min e g
      numOfInt (signedAt a m e q + signedAt b n g q) q (decide (rm = .rdn))

/-- The exact product; 0 × ∞ is a NaN. -/
def Num.mul (x y : Num) : Num :=
  match x, y with
  | .nan s, _ => .nan s
  | _, .nan s => .nan s
  | .inf a, .inf b => .inf (a != b)
  | .inf a, .fin b n _ => if n = 0 then .nan false else .inf (a != b)
  | .fin a m _, .inf b => if m = 0 then .nan false else .inf (a != b)
  | .fin a m e, .fin b n g => .fin (a != b) (m * n) (e + g)

/-- Whether a sum is an invalid operation (R87). -/
def invalidAdd (x y : Num) : Bool := x.isInf && y.isInf && (x.neg != y.neg)

/-- Whether a product is an invalid operation (R87). -/
def invalidMul (x y : Num) : Bool := (x.isInf && y.isZero) || (x.isZero && y.isInf)

/-- NV for a signalling operand or an invalid operation. -/
def nvIf (b : Bool) : Flags := if b then flNV else 0

/-- R172, R203: round_to(a + b). -/
def Fmt.addR (f : Fmt) (rm : Rm) (x y : Num) : FRes :=
  let fl := nvIf (x.isSig || y.isSig || invalidAdd x y)
  let r := f.pack rm false (x.add rm y)
  ⟨r.bits, r.fl ||| fl⟩

/-- R102: a − b is a + (−b). -/
def Fmt.subR (f : Fmt) (rm : Rm) (x y : Num) : FRes := f.addR rm x y.negate

/-- round_to(a × b). -/
def Fmt.mulR (f : Fmt) (rm : Rm) (x y : Num) : FRes :=
  let fl := nvIf (x.isSig || y.isSig || invalidMul x y)
  let r := f.pack rm false (x.mul y)
  ⟨r.bits, r.fl ||| fl⟩

/-- R87, R104: fma_r(a, b, c). -/
def Fmt.fmaR (f : Fmt) (rm : Rm) (x y z : Num) : FRes :=
  let p := x.mul y
  let fl := nvIf (x.isSig || y.isSig || z.isSig || invalidMul x y || invalidAdd p z)
  let r := f.pack rm false (p.add rm z)
  ⟨r.bits, r.fl ||| fl⟩

/-- The quotient m / n of two positive numbers to at least 70 bits, its last bit standing for any remainder. -/
def quotient (m n : Nat) : Nat × Int :=
  let k := 72 + topBit n
  let q := m * 2 ^ k / n
  (2 * q + (if m * 2 ^ k % n = 0 then 0 else 1), -(k : Int) - 1)

/-- R172: round_to(a / b). -/
def Fmt.divR (f : Fmt) (rm : Rm) (x y : Num) : FRes :=
  match x, y with
  | .nan s, y => f.nan (nvIf (s || y.isSig))
  | _, .nan s => f.nan (nvIf s)
  | .inf _, .inf _ => f.nan flNV
  | .inf a, .fin b _ _ => f.pack rm false (.inf (a != b))
  | .fin a _ _, .inf b => f.pack rm false (.fin (a != b) 0 0)
  | .fin a m e, .fin b n g =>
    if n = 0 then
      if m = 0 then f.nan flNV
      else ⟨(f.pack rm false (.inf (a != b))).bits, flDZ⟩
    else if m = 0 then f.pack rm false (.fin (a != b) 0 0)
    else
      let (q, k) := quotient m n
      f.packFin rm false (a != b) q (e - g + k)

/-- The integer square root of m, by the bits below n. -/
def isqrt (m : Nat) : Nat → Nat → Nat
  | 0, r => r
  | n + 1, r => if (r + 2 ^ n) * (r + 2 ^ n) ≤ m then isqrt m n (r + 2 ^ n) else isqrt m n r

/-- The square root of m · 2^e for even e, to at least 70 bits, its last bit standing for any remainder. -/
def rootOf (m : Nat) (e : Int) : Nat × Int :=
  let w := m * 2 ^ 144
  let s := isqrt w (topBit w / 2 + 1) 0
  (2 * s + (if s * s = w then 0 else 1), e / 2 - 73)

/-- R172: round_to(√a). -/
def Fmt.sqrtR (f : Fmt) (rm : Rm) (x : Num) : FRes :=
  match x with
  | .nan s => f.nan (nvIf s)
  | .inf neg => if neg then f.nan flNV else f.pack rm false (.inf false)
  | .fin neg m e =>
    if m = 0 then f.pack rm false (.fin neg 0 0)
    else if neg then f.nan flNV
    else
      let (m', e') := if e % 2 = 0 then (m, e) else (2 * m, e - 1)
      let (r, k) := rootOf m' e'
      f.packFin rm false false r k

/-- Order of two values that are no NaNs: −1, 0 or 1, the zeros equal. -/
def Num.cmp (x y : Num) : Int :=
  match x, y with
  | .inf a, .inf b => if a = b then 0 else if a then -1 else 1
  | .inf a, _ => if a then -1 else 1
  | _, .inf b => if b then 1 else -1
  | .fin a m e, .fin b n g =>
    let q := min e g
    let u := signedAt a m e q
    let v := signedAt b n g q
    if u < v then -1 else if u = v then 0 else 1
  | _, _ => 0

def Num.lt (x y : Num) : Bool := !x.isNan && !y.isNan && decide (x.cmp y = -1)
def Num.le (x y : Num) : Bool := !x.isNan && !y.isNan && decide (x.cmp y ≤ 0)
def Num.eq (x y : Num) : Bool := !x.isNan && !y.isNan && decide (x.cmp y = 0)

/-- R87: the larger (or smaller) of two patterns; one NaN gives the other operand, −0 orders below +0, and only a signalling
NaN raises a flag. -/
def Fmt.minMax (f : Fmt) (wantMax : Bool) (a b : Nat) : FRes :=
  let x := f.decode a
  let y := f.decode b
  let fl := nvIf (x.isSig || y.isSig)
  if x.isNan && y.isNan then ⟨f.canon, fl⟩
  else if x.isNan then ⟨b, fl⟩
  else if y.isNan then ⟨a, fl⟩
  else
    let aLess : Bool := if x.cmp y = 0 then x.neg && !y.neg else decide (x.cmp y = -1)
    ⟨if aLess = wantMax then b else a, fl⟩

/-- R104: round_int of a finite value. -/
def roundInt (rm : Rm) (neg : Bool) (m : Nat) (e : Int) : Int :=
  let (k, _) := roundAt rm neg m e 0
  if neg then -(k : Int) else k

/-- R104: clamp. -/
def clampInt (v lo hi : Int) : Int := if v < lo then lo else if hi < v then hi else v

/-- R98: cvt to an integer range. -/
def cvtInt (rm : Rm) (lo hi : Int) : Num → Int × Flags
  | .nan _ => (0, flNV)
  | .inf neg => (if neg then lo else hi, flNV)
  | .fin neg m e =>
    let v := roundInt rm neg m e
    (clampInt v lo hi, nvIf (decide (v < lo) || decide (hi < v)))

/-- The value of an integer. -/
def Num.ofInt (v : Int) : Num := .fin (decide (v < 0)) v.natAbs 0

/-! ## Special functions (R103) -/

/-- Bits of the fixed point in which the special functions are computed. -/
def fixBits : Nat := 320

/-- The sum of 1 / (k · 2^k) for the n values of k from the last down, at fixBits: the natural logarithm of 2. -/
def ln2Sum : Nat → Nat
  | 0 => 0
  | n + 1 => 2 ^ fixBits / ((n + 1) * 2 ^ (n + 1)) + ln2Sum n

/-- The terms of the exponential series of y (at fixBits), from term k on. -/
def expSum (y : Nat) : Nat → Nat → Nat → Nat
  | 0, _, _ => 0
  | n + 1, k, term => term + expSum y n (k + 1) (term * y / 2 ^ fixBits / (k + 1))

/-- 2^f for a fraction f given at fixBits, at fixBits. -/
def exp2Fix (f : Nat) : Nat := expSum (f * ln2Sum fixBits / 2 ^ fixBits) 80 0 (2 ^ fixBits)

/-- R103: exp2_r. A finite argument of magnitude 2^8 or more lies beyond FP32 on its side. -/
def exp2R (x : Num) : FRes :=
  match x with
  | .nan s => Fmt.f32.nan (nvIf s)
  | .inf neg => if neg then ⟨0, 0⟩ else ⟨0x7F800000, 0⟩
  | .fin neg m e =>
    if m = 0 then ⟨0x3F800000, 0⟩
    else if 8 ≤ e + topBit m then
      if neg then ⟨0, flUF ||| flNX⟩ else ⟨0x7F800000, flOF ||| flNX⟩
    else
      let v : Int := signedAt neg m (e + fixBits) 0
      let n : Int := v / (2 ^ fixBits : Nat)
      let fr : Nat := (v % (2 ^ fixBits : Nat)).toNat
      if fr = 0 then Fmt.f32.packFin .rne false false 1 n
      else Fmt.f32.packFin .rne false false (2 * exp2Fix fr + 1) (n - fixBits - 1)

/-- The first n bits of log2 of t (at fixBits, between 1 and 2), by repeated squaring. -/
def log2Bits : Nat → Nat → Nat → Nat
  | 0, _, acc => acc
  | n + 1, t, acc =>
    let t2 := t * t / 2 ^ fixBits
    if 2 ^ (fixBits + 1) ≤ t2 then log2Bits n (t2 / 2) (2 * acc + 1) else log2Bits n t2 (2 * acc)

/-- R103: log2_r. -/
def log2R (x : Num) : FRes :=
  match x with
  | .nan s => Fmt.f32.nan (nvIf s)
  | .inf neg => if neg then Fmt.f32.nan flNV else ⟨0x7F800000, 0⟩
  | .fin neg m e =>
    if m = 0 then ⟨0xFF800000, flDZ⟩
    else if neg then Fmt.f32.nan flNV
    else
      let k : Int := e + topBit m
      if m = 2 ^ topBit m then Fmt.f32.pack .rne false (Num.ofInt k)
      else
        let v : Int := k * (2 ^ 140 : Nat) + log2Bits 140 (m * 2 ^ (fixBits - topBit m)) 0
        if 0 ≤ v then Fmt.f32.packFin .rne false false (2 * v.toNat + 1) (-141)
        else Fmt.f32.packFin .rne false true (2 * (-v - 1).toNat + 1) (-141)

/-- R103: rcp_r. -/
def rcpR (x : Num) : FRes :=
  match x with
  | .nan s => Fmt.f32.nan (nvIf s)
  | x => Fmt.f32.divR .rne (.fin false 1 0) x

/-- R103: rsq_r. -/
def rsqR (x : Num) : FRes :=
  match x with
  | .nan s => Fmt.f32.nan (nvIf s)
  | .inf neg => if neg then Fmt.f32.nan flNV else ⟨0, 0⟩
  | .fin neg m e =>
    if m = 0 then ⟨if neg then 0xFF800000 else 0x7F800000, flDZ⟩
    else if neg then Fmt.f32.nan flNV
    else
      let (m', e') := if e % 2 = 0 then (m, e) else (2 * m, e - 1)
      let s := isqrt (2 ^ 220 / m') 111 0
      Fmt.f32.packFin .rne false false (2 * s + (if s * s * m' = 2 ^ 220 then 0 else 1)) (-(e' / 2) - 111)

/-! ## Block scales, packed formats and the chunk sum -/

/-- R89: an E8M0 scale; code 0xFF is a NaN. -/
def e8m0 (c : Nat) : Num := if c = 255 then .nan false else .fin false 1 ((c : Int) - 127)

/-- The signed value of an n-bit field. -/
def sext (n v : Nat) : Int := if 2 ^ (n - 1) ≤ v % 2 ^ n then ((v % 2 ^ n : Nat) : Int) - (2 ^ n : Nat) else ((v % 2 ^ n : Nat) : Int)

/-- The n-bit two's-complement pattern of an integer. -/
def ofSigned (n : Nat) (v : Int) : Nat := (v % (2 ^ n : Nat)).toNat

/-- R88: nibble i of a list of bytes held as a number. -/
def nibble (g i : Nat) : Nat := g / 16 ^ i % 16

/-- R91: the number of marked codes among the first n of a group's codes. -/
def o4Marks (g : Nat) : Nat → Nat
  | 0 => 0
  | n + 1 => o4Marks g n + (if nibble g n = 8 then 1 else 0)

/-- R91: element i of an O4 group: its codes, its outlier bytes, before the scale. -/
def o4Elem (codes outliers i : Nat) : Num :=
  if nibble codes i = 8 then Fmt.e4m3.decode (outliers / 256 ^ o4Marks codes i % 256)
  else Num.ofInt (sext 4 (nibble codes i))

/-- R93: an element's quotient as a candidate for an outlier. -/
def o4Cand : Num → Bool
  | .fin neg m e => decide (8 ≤ (roundInt .rne neg m e).natAbs)
  | _ => true

/-- R93: whether x ranks before y among candidates, the index of x being lower. -/
def o4Before (x y : Num) : Bool :=
  if x.isNan then true else if y.isNan then false else y.abs.le x.abs

/-- R93: how many candidates rank before element i, the candidates given with their indexes. -/
def o4Rank (qs : List (Nat × Num)) (i : Nat) (q : Num) : Nat :=
  (qs.filter (fun p => o4Cand p.2 &&
    (if p.1 < i then o4Before p.2 q else if i < p.1 then !o4Before q p.2 else false))).length

/-- R93: which elements become outliers. -/
def o4Chosen (qs : List (Nat × Num)) (p : Nat × Num) : Bool := o4Cand p.2 && decide (o4Rank qs p.1 p.2 < 8)

/-- R100: acc_chunk on the products of one chunk. -/
def accChunk (acc : Nat) (ps : List Num) : Nat :=
  let a := Fmt.f32.decode acc
  if a.isNan || ps.any Num.isNan || (ps.any (fun p => decide (p = .inf false)) && ps.any (fun p => decide (p = .inf true)))
  then Fmt.f32.canon
  else if ps.any (fun p => decide (p = .inf false)) then
    (if a = .inf true then Fmt.f32.canon else 0x7F800000)
  else if ps.any (fun p => decide (p = .inf true)) then
    (if a = .inf false then Fmt.f32.canon else 0xFF800000)
  else
    let s := ps.foldl (Num.add .rne) (.fin false 0 0)
    if s.isZero then acc else (Fmt.f32.addR .rne a s).bits

end Sys2Proof.Machine
end

