-- ==== Sys2Proof/Machine/Aes.lean ====
section
/-! DEFINITION. AES with 256-bit keys and its XTS mode over 64-byte lines (R349: XTS-AES-256), on numbers whose byte i is
bits [8i + 7 : 8i]. The block cipher is that of FIPS 197 and the mode that of IEEE 1619, which the name stands for (log 10). -/

namespace Sys2Proof.Machine.Aes

/-- The substitution box: the value of byte i is byte i. -/
def sboxTable : Nat :=
  0xc072a49cafa2d4adf04759fa7dc982ca76abd7fe2b670130c56f6bf27b777c63 * 2 ^ 0 +
  0x75b227ebe28012079a059618c323c7041531d871f1e5a534ccf73f362693fdb7 * 2 ^ 256 +
  0xcf584c4a39becb6a5bb1fc20ed00d153842fe329b3d63b52a05a6e1b1a2c8309 * 2 ^ 512 +
  0xd2f3ff1021dab6bcf5389d928f40a351a89f3c507f02f94585334d43fbaaefd0 * 2 ^ 768 +
  0xdb0b5ede14b8ee4688902a22dc4f816073195d643d7ea7c41744975fec130ccd * 2 ^ 1024 +
  0x08ae7a65eaf4566ca94ed58d6d37c8e779e4959162acd3c25c2406490a3a32e0 * 2 ^ 1280 +
  0x9e1dc186b95735610ef6034866b53e708a8bbd4b1f74dde8c6b4a61c2e2578ba * 2 ^ 1536 +
  0x16bb54b00f2d99416842e6bf0d89a18cdf2855cee9871e9b948ed9691198f8e1 * 2 ^ 1792

/-- The inverse of the substitution box. -/
def sboxInverse : Nat :=
  0xcbe9dec444438e3487ff2f9b8239e37cfbd7f3819ea340bf38a53630d56a0952 * 2 ^ 0 +
  0x25d18b6d49a25b76b224d92866a12e084ec3fa420b954cee3d23c2a632947b54 * 2 ^ 256 +
  0x849d8da75746155edab9edfd5048706c92b6655dcc5ca4d41698688664f6f872 * 2 ^ 512 +
  0x6b8a130103bdafc1020f3fca8f1e2cd00645b3b80558e4f70ad3bc8c00abd890 * 2 ^ 768 +
  0x6edf751ce837f9e28535ade72274ac9673e6b4f0cecff297eadc674f4111913a * 2 ^ 1024 +
  0xf45acd78fec0db9a2079d2c64b3e56fc1bbe18aa0e62b76f89c5291d711af147 * 2 ^ 1280 +
  0xef9cc9939f7ae52d0d4ab519a97f51605fec8027591012b131c7078833a8dd1f * 2 ^ 1536 +
  0x7d0c2155631469e126d677ba7e042b17619953833cbbebc8b0f52aae4d3be0a0 * 2 ^ 1792

/-- Byte i of a number. -/
def byteAt (v i : Nat) : Nat := v / 256 ^ i % 256

def sub (b : Nat) : Nat := byteAt sboxTable b
def subInv (b : Nat) : Nat := byteAt sboxInverse b

/-- A product by x in the field of 256 elements. -/
def xtime (b : Nat) : Nat := if b < 128 then 2 * b else (2 * b) ^^^ 0x11B

/-- A product in the field of 256 elements by a factor of n bits. -/
def gmul (b c : Nat) : Nat → Nat
  | 0 => 0
  | n + 1 => (if c % 2 = 1 then b else 0) ^^^ gmul (xtime b) (c / 2) n

/-- 16 bytes from a function of their places. -/
def block (f : Nat → Nat) : List Nat := (List.range 16).map f

def nth (l : List Nat) (i : Nat) : Nat := l.getD i 0

/-- Byte i of a block stands in row i mod 4 of column i / 4; row r is moved r columns to the left. -/
def shiftRows (s : List Nat) : List Nat := block (fun i => nth s ((i + 4 * (i % 4)) % 16))
def shiftRowsInv (s : List Nat) : List Nat := block (fun i => nth s ((i + 12 * (i % 4)) % 16))

/-- Each column times the matrix whose first row is a, b, c, d. -/
def mix (a b c d : Nat) (s : List Nat) : List Nat :=
  block (fun i =>
    let at_ (k : Nat) : Nat := nth s (i / 4 * 4 + (i + k) % 4)
    gmul (at_ 0) a 4 ^^^ gmul (at_ 1) b 4 ^^^ gmul (at_ 2) c 4 ^^^ gmul (at_ 3) d 4)

def addKey (keys : List Nat) (round : Nat) (s : List Nat) : List Nat := block (fun i => nth s i ^^^ nth keys (16 * round + i))

/-- The next four bytes of the key schedule, n of them done, from the last 32. -/
def nextWord (keys : List Nat) (n : Nat) : List Nat :=
  let last (i : Nat) : Nat := nth keys (4 * n - 4 + i)
  let g (i : Nat) : Nat :=
    if n % 8 = 0 then sub (last ((i + 1) % 4)) ^^^ (if i = 0 then 2 ^ (n / 8 - 1) else 0)
    else if n % 8 = 4 then sub (last i)
    else last i
  (List.range 4).map (fun i => nth keys (4 * n - 32 + i) ^^^ g i)

/-- The key schedule extended by n words. -/
def extend : Nat → List Nat → List Nat
  | 0, keys => keys
  | n + 1, keys => extend n (keys ++ nextWord keys (keys.length / 4))

/-- The 15 round keys of a 256-bit key. -/
def schedule (key : Nat) : List Nat := extend 52 ((List.range 32).map (byteAt key))

/-- Rounds 1 to n of encryption. -/
def rounds (keys : List Nat) : Nat → List Nat → List Nat
  | 0, s => s
  | n + 1, s => addKey keys (n + 1) (mix 2 3 1 1 (shiftRows ((rounds keys n s).map sub)))

/-- Rounds n down to 1 of decryption. -/
def roundsInv (keys : List Nat) : Nat → List Nat → List Nat
  | 0, s => s
  | n + 1, s => roundsInv keys n (mix 14 11 13 9 (addKey keys (n + 1) ((shiftRowsInv s).map subInv)))

def toNat_ : List Nat → Nat
  | [] => 0
  | b :: t => b + 256 * toNat_ t

/-- AES-256 encryption of a block under round keys. -/
def encrypt (keys : List Nat) (v : Nat) : Nat :=
  toNat_ (addKey keys 14 (shiftRows ((rounds keys 13 (addKey keys 0 (block (byteAt v)))).map sub)))

/-- AES-256 decryption of a block under round keys. -/
def decrypt (keys : List Nat) (v : Nat) : Nat :=
  toNat_ (addKey keys 0 ((shiftRowsInv (roundsInv keys 13 (addKey keys 14 (block (byteAt v))))).map subInv))

/-- The tweak of the next block: a product by x in the field of 2 ^ 128 elements. -/
def nextTweak (t : Nat) : Nat := (2 * t % 2 ^ 128) ^^^ (if t < 2 ^ 127 then 0 else 0x87)

/-- The n blocks of a line, from one on, each whitened before and after f. -/
def xtsBlocks (f : Nat → Nat) (v : Nat) : Nat → Nat → Nat
  | 0, _ => 0
  | n + 1, t => (f (v % 2 ^ 128 ^^^ t) ^^^ t) + 2 ^ 128 * xtsBlocks f (v / 2 ^ 128) n (nextTweak t)

/-- R349: a 64-byte line encrypted under a 512-bit key: its first half keys the data and its second half the tweak. -/
def xtsEncrypt (key : BitVec 512) (line : Nat) (v : BitVec 512) : BitVec 512 :=
  let t := encrypt (schedule (key.toNat / 2 ^ 256)) (line % 2 ^ 50)
  BitVec.ofNat 512 (xtsBlocks (encrypt (schedule (key.toNat % 2 ^ 256))) v.toNat 4 t)

/-- R349: a 64-byte line decrypted under a 512-bit key. -/
def xtsDecrypt (key : BitVec 512) (line : Nat) (v : BitVec 512) : BitVec 512 :=
  let t := encrypt (schedule (key.toNat / 2 ^ 256)) (line % 2 ^ 50)
  BitVec.ofNat 512 (xtsBlocks (decrypt (schedule (key.toNat % 2 ^ 256))) v.toNat 4 t)

/-- The eight bytes of a number in the other order. -/
def swap8 (v : Nat) : Nat := toNat_ ((List.range 8).map (fun i => byteAt v (7 - i)))

/-- AES-KWP unwrapping backwards through n of the 48 steps: the first semiblock and the eight others. A step's number stands in the last
bytes of the first semiblock. -/
def kwpSteps (keys : List Nat) : Nat → Nat → List Nat → Nat × List Nat
  | 0, a, r => (a, r)
  | n + 1, a, r =>
    let i := n % 8
    let b := decrypt keys ((a ^^^ swap8 (n + 1)) + 2 ^ 64 * nth r i)
    kwpSteps keys n (b % 2 ^ 64) (r.set i (b / 2 ^ 64))

/-- R390: AES-KWP unwrapping of a 64-byte key under a 256-bit key (that of RFC 5649, which the name stands for, log 12): none where the first
semiblock is not its constant and a length of 64. Byte i of an object is bits [8i + 7 : 8i]. -/
def kwpUnwrap (key : BitVec 256) (v : BitVec 576) : Option (BitVec 512) :=
  let r := kwpSteps (schedule key.toNat) 48 (v.toNat % 2 ^ 64) ((List.range 8).map (fun i => v.toNat / 2 ^ (64 * (i + 1)) % 2 ^ 64))
  if r.1 = swap8 0xA65959A600000040 then some (BitVec.ofNat 512 (r.2.foldr (fun x acc => x + 2 ^ 64 * acc) 0)) else none

end Sys2Proof.Machine.Aes
end

