-- ==== Sys2Proof/Config.lean ====
section
/-! DEFINITION. The values that the spec leaves open, as constants without a body: nothing in Lean can evaluate them or prove
a value of them, so a theorem about one holds whatever it is. Each is named in a row of notes/assumptions. -/

namespace Sys2Proof.Config

/-- R170: the cycles that the block clocks of a core make in one tick of the model, by core and tick (log 7). -/
opaque cyclesOf : Nat → Nat → Nat

/-- R382: the static share of a cluster, in pJ for each cycle, which the spec does not give (log 8). -/
opaque staticShare : Nat → Nat

/-- R139: which moment, of those since the thread's last FENCE.sys, the fetch of a halfword sees (log 9). -/
opaque fetchMoment : Nat → Nat → Nat

/-- R58, R178: a byte of another device's memory as instruction fetch reads it, by tick and address (log 9). -/
opaque peerCode : Nat → Nat → Byte

/-- R226, R231: the occupancy mask of a sparse group of a cleared plane (log 19). -/
opaque clearedMask : Word

/-- R349: the firmware key, in slot 0 of the key table, which the spec does not give (log 10). -/
opaque firmwareKey : BitVec 512

/-- A fresh value for a register or field that the spec leaves open, by the model's counter (log 11). -/
opaque freeWord : Nat → Word

/-- R383: whether the job of a context is recoverable; no structure of the spec says so (log 64). -/
opaque recoverable : Nat → Bool

/-- R391, R408: the SHAKE256 digest of a component of the firmware or of the configuration record, whose bytes the spec does not give, by its
register (log 12). -/
opaque component : Nat → BitVec 512

/-- R390: the 256-bit wrapping key that the security processor creates at a bring-up, by its number (log 12). -/
opaque wrapKey : Nat → BitVec 256

/-- R395: whether a signature over an owner and a nonce is the debug key's (log 12). -/
opaque signatureOk : BitVec 576 → Nat → BitVec 256 → BitVec 912 → Bool

/-- R392: the transcript hash that a signed response covers, by the model's counter and the request's nonce (log 12). -/
opaque transcript : Nat → BitVec 256 → BitVec 512

/-- R392 to R394: the Ed448 signature that the identity key makes over a transcript (log 12). -/
opaque sign : Nat → BitVec 512 → BitVec 912

/-- R392: the certificate chain of slot 0, as its digest (log 12). -/
opaque certificate : BitVec 512

/-- R390: the wrapping key of a bring-up as the security processor releases it, encrypted to the certificate of slot 0 (log 12). -/
opaque sealedKey : Nat → BitVec 512

/-- R388: the records that the management error ring holds, one at least (log 13). -/
opaque errorRingRest : Nat
def errorRing : Nat := errorRingRest + 1

/-- R400: the first physical address of the DRAM range that the management firmware has given a function, and its bytes (log 13). -/
opaque bar2Base : Nat → Nat
opaque bar2Size : Nat → Nat

/-- R405: where the routing table of the device identifiers begins in the local SRAM of hub core 6 (log 13). -/
opaque routeBase : Nat

/-- R338, R353: the address of the queue table and of firmware memory in DRAM, which bring-up fixes (log 13). -/
opaque firmwareBase : Nat → Nat

end Sys2Proof.Config
end

