-- ==== Sys2Proof/WellFormed.lean ====
section
/-! DEFINITION. Well-formed instructions: the checks of Table 10.14 that concern operands (R142, R143), written on the syntax.
A refusal names the check that failed. -/

namespace Sys2Proof

/-- The class in which a source field is read (Table 10.8). -/
inductive OpClass where
  | x | fp32 | fp64 | v | k
  deriving DecidableEq, Repr

/-- R143: whether a source operand is legal in its class. -/
def Opnd.okFor (c : OpClass) : Opnd → Bool
  | .reg n => match c with
    | .k => decide (n.val < 8)
    | _ => true
  | .const _ => true
  | .lit32 _ => true
  | .lit64 _ => match c with
    | .x => true
    | .fp64 => true
    | _ => false

/-- Whether an operand is a literal. -/
def Opnd.isLit : Opnd → Bool
  | .lit32 _ => true
  | .lit64 _ => true
  | _ => false

/-- R142: at most one of two source fields holds a literal. -/
def oneLit (a b : Opnd) : Bool := !(a.isLit && b.isLit)

/-- R142: at most one of three source fields holds a literal. -/
def oneLit3 (d a b : Opnd) : Bool := oneLit d a && oneLit d b && oneLit a b

/-- The class of a floating-point source at precision P (Table 10.11). -/
def fpClass (p : Bool) : OpClass := if p then .fp64 else .fp32

/-- The lane size in bytes of a lane type. -/
def LType.bytes : LType → Nat
  | .f32 => 4 | .bf16 => 2 | .f16 => 2 | .fp8a => 1 | .fp8b => 1 | .i32 => 4 | .i16 => 2 | .i8 => 1

/-- The checks of Table 10.14 that are made on operands; each is named in WellFormed.check's answer. -/
inductive IllFormed where
  /-- a constant, literal or register code that the field's class does not allow (R143) -/
  | operandClass
  /-- two operand fields hold a literal (R142) -/
  | twoLiterals
  /-- a register group that does not start at a multiple of four (R210, R212) -/
  | groupAlignment
  /-- a target that Table 13.7 does not list (R208, R213) -/
  | packTarget
  /-- a part number that R209 does not allow -/
  | unpackPart
  /-- column mode with one-byte elements (R216) -/
  | columnByte
  /-- the halfword 0x0000 (R140) -/
  | zeroHalfword
  /-- a row of the table without bits: a step of the device, which no word encodes -/
  | event
  deriving DecidableEq, Repr

/-- Table 10.14 on the syntax: the first operand check that an instruction fails, or none. The rows without bits are no
instructions of a program and are named so. -/
def Instr.check (i : Instr) : Option IllFormed :=
  match i with
  | .add _ _ a b => if a.okFor .x && b.okFor .x then if oneLit a b then none else some .twoLiterals else some .operandClass
  | .sub _ _ a b => if a.okFor .x && b.okFor .x then if oneLit a b then none else some .twoLiterals else some .operandClass
  | .and _ _ a b => if a.okFor .x && b.okFor .x then if oneLit a b then none else some .twoLiterals else some .operandClass
  | .or _ _ a b => if a.okFor .x && b.okFor .x then if oneLit a b then none else some .twoLiterals else some .operandClass
  | .xor _ _ a b => if a.okFor .x && b.okFor .x then if oneLit a b then none else some .twoLiterals else some .operandClass
  | .andn _ _ a b => if a.okFor .x && b.okFor .x then if oneLit a b then none else some .twoLiterals else some .operandClass
  | .min _ _ a b => if a.okFor .x && b.okFor .x then if oneLit a b then none else some .twoLiterals else some .operandClass
  | .max _ _ a b => if a.okFor .x && b.okFor .x then if oneLit a b then none else some .twoLiterals else some .operandClass
  | .minu _ _ a b => if a.okFor .x && b.okFor .x then if oneLit a b then none else some .twoLiterals else some .operandClass
  | .maxu _ _ a b => if a.okFor .x && b.okFor .x then if oneLit a b then none else some .twoLiterals else some .operandClass
  | .li _ _ b => if b.okFor .x then none else some .operandClass
  | .mul _ _ a b => if a.okFor .x && b.okFor .x then if oneLit a b then none else some .twoLiterals else some .operandClass
  | .mulh _ _ a b => if a.okFor .x && b.okFor .x then if oneLit a b then none else some .twoLiterals else some .operandClass
  | .mulhu _ _ a b => if a.okFor .x && b.okFor .x then if oneLit a b then none else some .twoLiterals else some .operandClass
  | .div _ _ a b => if a.okFor .x && b.okFor .x then if oneLit a b then none else some .twoLiterals else some .operandClass
  | .divu _ _ a b => if a.okFor .x && b.okFor .x then if oneLit a b then none else some .twoLiterals else some .operandClass
  | .rem _ _ a b => if a.okFor .x && b.okFor .x then if oneLit a b then none else some .twoLiterals else some .operandClass
  | .remu _ _ a b => if a.okFor .x && b.okFor .x then if oneLit a b then none else some .twoLiterals else some .operandClass
  | .sll _ _ a b => if a.okFor .x && b.okFor .x then if oneLit a b then none else some .twoLiterals else some .operandClass
  | .srl _ _ a b => if a.okFor .x && b.okFor .x then if oneLit a b then none else some .twoLiterals else some .operandClass
  | .sra _ _ a b => if a.okFor .x && b.okFor .x then if oneLit a b then none else some .twoLiterals else some .operandClass
  | .clz _ _ a => if a.okFor .x then none else some .operandClass
  | .ctz _ _ a => if a.okFor .x then none else some .operandClass
  | .popc _ _ a => if a.okFor .x then none else some .operandClass
  | .exts _ _ a b => if a.okFor .x && b.okFor .x then if oneLit a b then none else some .twoLiterals else some .operandClass
  | .extz _ _ a b => if a.okFor .x && b.okFor .x then if oneLit a b then none else some .twoLiterals else some .operandClass
  | .bfext _ _ a b => if a.okFor .x && b.okFor .x then if oneLit a b then none else some .twoLiterals else some .operandClass
  | .bfins _ _ a b => if a.okFor .x && b.okFor .x then if oneLit a b then none else some .twoLiterals else some .operandClass
  | .seq _ _ a b => if a.okFor .x && b.okFor .x then if oneLit a b then none else some .twoLiterals else some .operandClass
  | .slt _ _ a b => if a.okFor .x && b.okFor .x then if oneLit a b then none else some .twoLiterals else some .operandClass
  | .sltu _ _ a b => if a.okFor .x && b.okFor .x then if oneLit a b then none else some .twoLiterals else some .operandClass
  | .sel _ _ a b => if a.okFor .x && b.okFor .x then if oneLit a b then none else some .twoLiterals else some .operandClass
  | .lea _ _ b => if b.okFor .x then none else some .operandClass
  | .apcvt _ _ a b => if a.okFor .x && b.okFor .x then if oneLit a b then none else some .twoLiterals else some .operandClass
  | .aptest _ _ a => if a.okFor .x then none else some .operandClass
  | .beq _ a b _ => if a.okFor .x && b.okFor .x then if oneLit a b then none else some .twoLiterals else some .operandClass
  | .bne _ a b _ => if a.okFor .x && b.okFor .x then if oneLit a b then none else some .twoLiterals else some .operandClass
  | .blt _ a b _ => if a.okFor .x && b.okFor .x then if oneLit a b then none else some .twoLiterals else some .operandClass
  | .bge _ a b _ => if a.okFor .x && b.okFor .x then if oneLit a b then none else some .twoLiterals else some .operandClass
  | .bltu _ a b _ => if a.okFor .x && b.okFor .x then if oneLit a b then none else some .twoLiterals else some .operandClass
  | .bgeu _ a b _ => if a.okFor .x && b.okFor .x then if oneLit a b then none else some .twoLiterals else some .operandClass
  | .jal _ _ b _ => if b.okFor .x then none else some .operandClass
  | .jalr _ _ b _ => if b.okFor .x then none else some .operandClass
  | .j _ _ => none
  | .csrr _ _ _ => none
  | .csrw _ d _ => if d.okFor .x then none else some .operandClass
  | .csrs _ d _ => if d.okFor .x then none else some .operandClass
  | .csrc _ d _ => if d.okFor .x then none else some .operandClass
  | .lb _ _ base _ => if base.okFor .x then none else some .operandClass
  | .lbu _ _ base _ => if base.okFor .x then none else some .operandClass
  | .lh _ _ base _ => if base.okFor .x then none else some .operandClass
  | .lhu _ _ base _ => if base.okFor .x then none else some .operandClass
  | .lw _ _ base _ => if base.okFor .x then none else some .operandClass
  | .lwu _ _ base _ => if base.okFor .x then none else some .operandClass
  | .ld _ _ base _ => if base.okFor .x then none else some .operandClass
  | .sb _ d base _ => if d.okFor .x && base.okFor .x then if oneLit d base then none else some .twoLiterals else some .operandClass
  | .sh _ d base _ => if d.okFor .x && base.okFor .x then if oneLit d base then none else some .twoLiterals else some .operandClass
  | .sw _ d base _ => if d.okFor .x && base.okFor .x then if oneLit d base then none else some .twoLiterals else some .operandClass
  | .sd _ d base _ => if d.okFor .x && base.okFor .x then if oneLit d base then none else some .twoLiterals else some .operandClass
  | .loadAcquire _ _ a _ _ => if a.okFor .x then none else some .operandClass
  | .storeRelease _ d a _ _ => if d.okFor .x && a.okFor .x then if oneLit d a then none else some .twoLiterals else some .operandClass
  | .fence _ _ => none
  | .fenceX _ => none
  | .amoadd _ _ a b _ => if a.okFor .x && b.okFor .x then if oneLit a b then none else some .twoLiterals else some .operandClass
  | .amoand _ _ a b _ => if a.okFor .x && b.okFor .x then if oneLit a b then none else some .twoLiterals else some .operandClass
  | .amoor _ _ a b _ => if a.okFor .x && b.okFor .x then if oneLit a b then none else some .twoLiterals else some .operandClass
  | .amoxor _ _ a b _ => if a.okFor .x && b.okFor .x then if oneLit a b then none else some .twoLiterals else some .operandClass
  | .amomin _ _ a b _ => if a.okFor .x && b.okFor .x then if oneLit a b then none else some .twoLiterals else some .operandClass
  | .amomax _ _ a b _ => if a.okFor .x && b.okFor .x then if oneLit a b then none else some .twoLiterals else some .operandClass
  | .amominu _ _ a b _ => if a.okFor .x && b.okFor .x then if oneLit a b then none else some .twoLiterals else some .operandClass
  | .amomaxu _ _ a b _ => if a.okFor .x && b.okFor .x then if oneLit a b then none else some .twoLiterals else some .operandClass
  | .amoswap _ _ a b _ => if a.okFor .x && b.okFor .x then if oneLit a b then none else some .twoLiterals else some .operandClass
  | .amocas _ _ a b _ => if a.okFor .x && b.okFor .x then if oneLit a b then none else some .twoLiterals else some .operandClass
  | .amofadd _ _ a b _ => if a.okFor .x && b.okFor .x then if oneLit a b then none else some .twoLiterals else some .operandClass
  | .tld _ _ a => if a.okFor .x then none else some .operandClass
  | .tst _ a b => if a.okFor .x && b.okFor .x then if oneLit a b then none else some .twoLiterals else some .operandClass
  | .tcas _ _ a b => if a.okFor .x && b.okFor .x then if oneLit a b then none else some .twoLiterals else some .operandClass
  | .ttabWr _ a b => if a.okFor .x && b.okFor .x then if oneLit a b then none else some .twoLiterals else some .operandClass
  | .ttabRd _ _ a => if a.okFor .x then none else some .operandClass
  | .ttabSwap _ a => if a.okFor .x then none else some .operandClass
  | .msend _ a b => if a.okFor .x && b.okFor .v then if oneLit a b then none else some .twoLiterals else some .operandClass
  | .mrecv _ _ => none
  | .mpoll _ _ => none
  | .mloop _ _ a => if a.okFor .v then none else some .operandClass
  | .mcount _ _ => none
  | .sigEmit _ a b => if a.okFor .x && b.okFor .x then if oneLit a b then none else some .twoLiterals else some .operandClass
  | .sigSkip _ a => if a.okFor .x then none else some .operandClass
  | .sigTest _ _ a => if a.okFor .x then none else some .operandClass
  | .sigVal _ _ a => if a.okFor .x then none else some .operandClass
  | .bpres _ a b => if a.okFor .x && b.okFor .x then if oneLit a b then none else some .twoLiterals else some .operandClass
  | .babs _ a b => if a.okFor .x && b.okFor .x then if oneLit a b then none else some .twoLiterals else some .operandClass
  | .pause _ => none
  | .dset _ _ b => if b.okFor .x then none else some .operandClass
  | .dget _ _ _ => none
  | .irec _ _ b => if b.okFor .x then none else some .operandClass
  | .xsendAt _ a b => if a.okFor .x && b.okFor .x then if oneLit a b then none else some .twoLiterals else some .operandClass
  | .xend _ => none
  | .xslot _ _ => none
  | .vfadd _ _ a b _ => if a.okFor .v && b.okFor .v then if oneLit a b then none else some .twoLiterals else some .operandClass
  | .vfsub _ _ a b _ => if a.okFor .v && b.okFor .v then if oneLit a b then none else some .twoLiterals else some .operandClass
  | .vfmul _ _ a b _ => if a.okFor .v && b.okFor .v then if oneLit a b then none else some .twoLiterals else some .operandClass
  | .vfma _ _ a b _ => if a.okFor .v && b.okFor .v then if oneLit a b then none else some .twoLiterals else some .operandClass
  | .vfmax _ _ a b _ => if a.okFor .v && b.okFor .v then if oneLit a b then none else some .twoLiterals else some .operandClass
  | .vfmin _ _ a b _ => if a.okFor .v && b.okFor .v then if oneLit a b then none else some .twoLiterals else some .operandClass
  | .vfcmpEq _ _ a b _ => if a.okFor .v && b.okFor .v then if oneLit a b then none else some .twoLiterals else some .operandClass
  | .vfcmpLt _ _ a b _ => if a.okFor .v && b.okFor .v then if oneLit a b then none else some .twoLiterals else some .operandClass
  | .vadd _ _ a b _ => if a.okFor .v && b.okFor .v then if oneLit a b then none else some .twoLiterals else some .operandClass
  | .vsub _ _ a b _ => if a.okFor .v && b.okFor .v then if oneLit a b then none else some .twoLiterals else some .operandClass
  | .vmul _ _ a b _ => if a.okFor .v && b.okFor .v then if oneLit a b then none else some .twoLiterals else some .operandClass
  | .vmin _ _ a b _ => if a.okFor .v && b.okFor .v then if oneLit a b then none else some .twoLiterals else some .operandClass
  | .vmax _ _ a b _ => if a.okFor .v && b.okFor .v then if oneLit a b then none else some .twoLiterals else some .operandClass
  | .vand _ _ a b _ => if a.okFor .v && b.okFor .v then if oneLit a b then none else some .twoLiterals else some .operandClass
  | .vor _ _ a b _ => if a.okFor .v && b.okFor .v then if oneLit a b then none else some .twoLiterals else some .operandClass
  | .vxor _ _ a b _ => if a.okFor .v && b.okFor .v then if oneLit a b then none else some .twoLiterals else some .operandClass
  | .vshl _ _ a b _ => if a.okFor .v && b.okFor .v then if oneLit a b then none else some .twoLiterals else some .operandClass
  | .vshr _ _ a b _ => if a.okFor .v && b.okFor .v then if oneLit a b then none else some .twoLiterals else some .operandClass
  | .vshra _ _ a b _ => if a.okFor .v && b.okFor .v then if oneLit a b then none else some .twoLiterals else some .operandClass
  | .vcmpEq _ _ a b _ => if a.okFor .v && b.okFor .v then if oneLit a b then none else some .twoLiterals else some .operandClass
  | .vcmpLt _ _ a b _ => if a.okFor .v && b.okFor .v then if oneLit a b then none else some .twoLiterals else some .operandClass
  | .vsel _ _ a b _ => if a.okFor .v && b.okFor .v then if oneLit a b then none else some .twoLiterals else some .operandClass
  | .vmov _ _ b _ => if b.okFor .v then none else some .operandClass
  | .vbcast _ _ b _ => if b.okFor .x then none else some .operandClass
  | .vfadd16 k d s => if k || decide (d.val ≠ 0) || decide (s.val ≠ 0) then none else some .zeroHalfword
  | .vfsub16 _ _ _ => none
  | .vfmul16 _ _ _ => none
  | .vfmax16 _ _ _ => none
  | .vfmin16 _ _ _ => none
  | .vadd16 _ _ _ => none
  | .vsub16 _ _ _ => none
  | .vmul16 _ _ _ => none
  | .vand16 _ _ _ => none
  | .vor16 _ _ _ => none
  | .vxor16 _ _ _ => none
  | .vshl16 _ _ _ => none
  | .vshr16 _ _ _ => none
  | .vshra16 _ _ _ => none
  | .vmax16 _ _ _ => none
  | .vmov16 _ _ _ => none
  | .vcvt _ _ a _ _ => if a.okFor .v then none else some .operandClass
  | .vquant _ _ a _ _ => if decide (a.val % 4 = 0) then none else some .groupAlignment
  | .vdeq _ d a _ _ => if a.okFor .v then if decide (d.val % 4 = 0) then none else some .groupAlignment else some .operandClass
  | .vpack _ _ a b t => if a.okFor .v && b.okFor .v then if oneLit a b then if decide (t ≠ .f32) && decide (t ≠ .i32) then none else some .packTarget else some .twoLiterals else some .operandClass
  | .vunpack _ _ a part t => if a.okFor .v then if decide (part.val < 2 * t.bytes) then none else some .unpackPart else some .operandClass
  | .vperm _ _ a b _ => if a.okFor .v && b.okFor .v then if oneLit a b then none else some .twoLiterals else some .operandClass
  | .vshuf _ _ a b _ => if a.okFor .v && b.okFor .v then if oneLit a b then none else some .twoLiterals else some .operandClass
  | .vred _ _ a _ _ => if a.okFor .v then none else some .operandClass
  | .vscan _ _ a _ _ => if a.okFor .v then none else some .operandClass
  | .vextr _ _ a b _ => if a.okFor .v && b.okFor .x then if oneLit a b then none else some .twoLiterals else some .operandClass
  | .vins _ _ a b _ => if a.okFor .v && b.okFor .x then if oneLit a b then none else some .twoLiterals else some .operandClass
  | .vld _ _ a b e col => if a.okFor .x && b.okFor .x then if oneLit a b then if !(col && decide (e = .w1)) then none else some .columnByte else some .twoLiterals else some .operandClass
  | .vst _ d a b e col => if d.okFor .v && a.okFor .x && b.okFor .x then if oneLit3 d a b then if !(col && decide (e = .w1)) then none else some .columnByte else some .twoLiterals else some .operandClass
  | .vlds _ _ a b _ => if a.okFor .x && b.okFor .x then if oneLit a b then none else some .twoLiterals else some .operandClass
  | .vsts _ d a b _ => if d.okFor .v && a.okFor .x && b.okFor .x then if oneLit3 d a b then none else some .twoLiterals else some .operandClass
  | .vldx _ _ a b _ => if a.okFor .x && b.okFor .v then if oneLit a b then none else some .twoLiterals else some .operandClass
  | .vstx _ d a b _ => if d.okFor .v && a.okFor .x && b.okFor .v then if oneLit3 d a b then none else some .twoLiterals else some .operandClass
  | .sgCfg _ _ a b => if a.okFor .x && b.okFor .x then if oneLit a b then none else some .twoLiterals else some .operandClass
  | .sgIdx _ _ _ => none
  | .sgStop _ _ => none
  | .sread _ _ _ => none
  | .swrite _ _ a => if a.okFor .v then none else some .operandClass
  | .rep _ a b => if a.okFor .x && b.okFor .x then if oneLit a b then none else some .twoLiterals else some .operandClass
  | .vfexp2 _ _ a => if a.okFor .v then none else some .operandClass
  | .vfrcp _ _ a => if a.okFor .v then none else some .operandClass
  | .vfrsq _ _ a => if a.okFor .v then none else some .operandClass
  | .vflog2 _ _ a => if a.okFor .v then none else some .operandClass
  | .vfabs _ _ a _ => if a.okFor .v then none else some .operandClass
  | .vfneg _ _ a _ => if a.okFor .v then none else some .operandClass
  | .vfcmpLe _ _ a b _ => if a.okFor .v && b.okFor .v then if oneLit a b then none else some .twoLiterals else some .operandClass
  | .vfcmpUn _ _ a b _ => if a.okFor .v && b.okFor .v then if oneLit a b then none else some .twoLiterals else some .operandClass
  | .mset _ _ b => if b.okFor .x then none else some .operandClass
  | .mand _ _ a b => if a.okFor .k && b.okFor .k then if oneLit a b then none else some .twoLiterals else some .operandClass
  | .mor _ _ a b => if a.okFor .k && b.okFor .k then if oneLit a b then none else some .twoLiterals else some .operandClass
  | .mnot _ _ a => if a.okFor .k then none else some .operandClass
  | .mpopc _ _ a => if a.okFor .k then none else some .operandClass
  | .mfirst _ _ a => if a.okFor .k then none else some .operandClass
  | .mxCfg _ a b _ => if a.okFor .x && b.okFor .x then if oneLit a b then none else some .twoLiterals else some .operandClass
  | .mxLdw _ a b => if a.okFor .x && b.okFor .x then if oneLit a b then none else some .twoLiterals else some .operandClass
  | .mxSwap _ => none
  | .mxDup _ a => if a.okFor .x then none else some .operandClass
  | .mxStream _ _ a b => if a.okFor .x && b.okFor .x then if oneLit a b then none else some .twoLiterals else some .operandClass
  | .mxZero _ _ => none
  | .mxDrain _ _ a b => if a.okFor .x && b.okFor .x then if oneLit a b then none else some .twoLiterals else some .operandClass
  | .dret _ => none
  | .mxWait _ => none
  | .attnQld _ a b => if a.okFor .x && b.okFor .x then if oneLit a b then none else some .twoLiterals else some .operandClass
  | .attnRun _ a b => if a.okFor .x && b.okFor .x then if oneLit a b then none else some .twoLiterals else some .operandClass
  | .attnMerge _ a => if a.okFor .x then none else some .operandClass
  | .attnFin _ a b => if a.okFor .x && b.okFor .x then if oneLit a b then none else some .twoLiterals else some .operandClass
  | .attnSt _ a => if a.okFor .x then none else some .operandClass
  | .cmAppend _ a => if a.okFor .x then none else some .operandClass
  | .cmFill _ _ a b => if a.okFor .x && b.okFor .x then if oneLit a b then none else some .twoLiterals else some .operandClass
  | .cmFree _ _ a b => if a.okFor .x && b.okFor .x then if oneLit a b then none else some .twoLiterals else some .operandClass
  | .cmLookup _ _ a b => if a.okFor .x && b.okFor .x then if oneLit a b then none else some .twoLiterals else some .operandClass
  | .cmShare _ _ a => if a.okFor .x then none else some .operandClass
  | .cmInval _ => none
  | .xfGo _ _ => none
  | .xfCancel _ _ a => if a.okFor .x then none else some .operandClass
  | .yield _ => none
  | .nexit _ => none
  | .phint _ a b => if a.okFor .x && b.okFor .x then if oneLit a b then none else some .twoLiterals else some .operandClass
  | .uiret _ => none
  | .fadd _ _ a b p => if a.okFor (fpClass p) && b.okFor (fpClass p) then if oneLit a b then none else some .twoLiterals else some .operandClass
  | .fsub _ _ a b p => if a.okFor (fpClass p) && b.okFor (fpClass p) then if oneLit a b then none else some .twoLiterals else some .operandClass
  | .fmul _ _ a b p => if a.okFor (fpClass p) && b.okFor (fpClass p) then if oneLit a b then none else some .twoLiterals else some .operandClass
  | .ffma _ _ a b p => if a.okFor (fpClass p) && b.okFor (fpClass p) then if oneLit a b then none else some .twoLiterals else some .operandClass
  | .fdiv _ _ a b p => if a.okFor (fpClass p) && b.okFor (fpClass p) then if oneLit a b then none else some .twoLiterals else some .operandClass
  | .fsqrt _ _ a p => if a.okFor (fpClass p) then none else some .operandClass
  | .fmin _ _ a b p => if a.okFor (fpClass p) && b.okFor (fpClass p) then if oneLit a b then none else some .twoLiterals else some .operandClass
  | .fmax _ _ a b p => if a.okFor (fpClass p) && b.okFor (fpClass p) then if oneLit a b then none else some .twoLiterals else some .operandClass
  | .fcmpEq _ _ a b p => if a.okFor (fpClass p) && b.okFor (fpClass p) then if oneLit a b then none else some .twoLiterals else some .operandClass
  | .fcmpLt _ _ a b p => if a.okFor (fpClass p) && b.okFor (fpClass p) then if oneLit a b then none else some .twoLiterals else some .operandClass
  | .fcmpLe _ _ a b p => if a.okFor (fpClass p) && b.okFor (fpClass p) then if oneLit a b then none else some .twoLiterals else some .operandClass
  | .fcvtPrecision _ _ a p => if a.okFor (fpClass p) then none else some .operandClass
  | .fcvtToInt _ _ a p => if a.okFor (fpClass p) then none else some .operandClass
  | .fcvtFromInt _ _ a _ => if a.okFor .x then none else some .operandClass
  | .ecall _ => none
  | .ebreak _ => none
  | .mret _ => none
  | .sret _ => none
  | .wfi _ => none
  | .tlbWr _ _ a b => if a.okFor .x && b.okFor .x then if oneLit a b then none else some .twoLiterals else some .operandClass
  | .tlbInv _ _ a b => if a.okFor .x && b.okFor .x then if oneLit a b then none else some .twoLiterals else some .operandClass
  | .xlateDrain _ a b => if a.okFor .x && b.okFor .x then if oneLit a b then none else some .twoLiterals else some .operandClass
  | .mxSave _ a => if a.okFor .x then none else some .operandClass
  | .mxLoad _ _ a => if a.okFor .x then none else some .operandClass
  | .ctxHalt _ _ a b => if a.okFor .x && b.okFor .x then if oneLit a b then none else some .twoLiterals else some .operandClass
  | .ctxSave _ _ a b => if a.okFor .x && b.okFor .x then if oneLit a b then none else some .twoLiterals else some .operandClass
  | .registerWrite _ _ _ _ => some .event
  | .tagmapWrite _ _ _ => some .event
  | .bankfmtWrite _ _ _ => some .event
  | .remoteAccessArrival _ => some .event
  | .storeAcknowledge _ _ => some .event
  | .parkRecheck _ _ => some .event
  | .heldAccessRecheck _ => some .event
  | .inboxArrival _ => some .event
  | .spillWake _ => some .event
  | .userInterruptEntry _ _ => some .event
  | .interruptTake _ _ => some .event
  | .trapReportDelivery _ => some .event
  | .resolveRetry _ => some .event
  | .resolveSkip _ => some .event
  | .resolveAbort _ => some .event
  | .causalityCycle _ => some .event
  | .reactHalfEnd _ => some .event
  | .exchangeHalfStart _ => some .event
  | .exchangeBeatSend _ => some .event
  | .exchangeArrival _ => some .event
  | .latch _ => some .event
  | .matrixCommandStart _ => some .event
  | .drainDispatch _ => some .event
  | .transferStart _ => some .event
  | .transferCompletion _ _ => some .event
  | .tlbMissMessage _ => some .event
  | .dirtyNotice _ => some .event
  | .gridDeadlock _ => some .event
  | .haltWatchdog _ => some .event
  | .runTimeLimit _ => some .event
  | .notifyScan _ => some .event
  | .periodicQueueScan _ => some .event
  | .packetLaunch _ => some .event
  | .packetNop _ => some .event
  | .packetMark _ => some .event
  | .packetQueueCreate _ => some .event
  | .packetQueueDestroy _ => some .event
  | .groupDispatch _ => some .event
  | .gridCompletion _ => some .event
  | .errorEvent _ => some .event
  | .saveEngine _ => some .event
  | .restoreRequest _ _ _ => some .event
  | .scrubRead _ _ _ => some .event
  | .bankFailed _ _ _ => some .event
  | .clockStretch _ => some .event
  | .keyLoad _ _ _ _ => some .event
  | .keyClear _ => some .event
  | .getVersion _ _ => some .event
  | .getCapabilities _ _ => some .event
  | .negotiateAlgorithms _ _ => some .event
  | .getDigests _ _ => some .event
  | .getCertificate _ _ => some .event
  | .challenge _ _ => some .event
  | .getMeasurements _ _ => some .event
  | .spdmUnsupportedRequest _ _ => some .event
  | .debugNonce => some .event
  | .debugUnlock _ _ _ => some .event
  | .debugArm _ _ => some .event
  | .debugStop _ _ _ _ => some .event
  | .debugStopReached _ => some .event
  | .debugRead _ _ _ => some .event
  | .debugResume _ => some .event
  | .debugDisarm _ => some .event
  | .runLengthLogAppend _ _ _ => some .event
  | .functionLevelReset _ => some .event
  | .bar2Access _ _ _ _ => some .event
  | .devidWrite _ => some .event
  | .flitSend _ _ _ => some .event
  | .flitReceive _ _ _ => some .event
  | .auditFlit _ _ _ _ => some .event
  | .partclWrite _ _ _ => some .event
  | .orbitWrite _ _ => some .event
  | .orbitUpdateApply => some .event
  | .gdwdWrite _ _ => some .event
  | .partownWrite _ _ => some .event
  | .haltwdWrite _ _ => some .event
  | .bringUp _ => some .event
  | .remoteAccessReply _ _ => some .event
  | .matrixCommandCompletion _ => some .event
  | .monitorTimerExpiry _ => some .event
  | .schedulerTimerExpiry _ => some .event
  | .illegalInstruction _ => some .event
  | .instructionFetchFault _ _ => some .event

/-- R150: no operand check of Table 10.14 fails. -/
def Instr.wellFormed (i : Instr) : Bool := i.check.isNone

end Sys2Proof
end

