-- ==== Sys2Proof/Decode.lean ====
section
/-! DEFINITION. Decoding and encoding (chapter "Instruction Formats and Opcode Map", R138 to R152): the fields of Tables
10.1 to 10.5, the assignments of Tables 10.11 to 10.13, operand codes of Table 10.7, and the encoder written from the same
tables. Decoding is total on any bytes and rejects by name. -/

namespace Sys2Proof

/-- Why bytes are not an instruction. -/
inductive DecodeError where
  /-- R150: a 16-bit pattern that is no instruction -/
  | illegalHalf (h : BitVec 16)
  /-- R150: a 32-bit pattern that is no instruction -/
  | illegalWord (w : BitVec 32)
  /-- R151: fewer bytes than the instruction needs -/
  | truncated
  deriving DecidableEq, Repr

/-- Table 10.7: the operand that a 6-bit code names, with the literal that follows the word. -/
def opnd (c : BitVec 6) (lit : BitVec 64) : Option Opnd :=
  if h : c.toNat < 32 then some (.reg ⟨c.toNat, h⟩)
  else if h : c.toNat - 32 < 24 then some (.const ⟨c.toNat - 32, h⟩)
  else if c.toNat = 62 then some (.lit32 (lit.setWidth 32))
  else if c.toNat = 63 then some (.lit64 lit)
  else none

/-- A destination field, or a source that must be a register, of a class with n registers (R142, Table 10.8). -/
def regField (n : Nat) (c : BitVec 6) : Option (Fin n) :=
  if h : c.toNat < n then some ⟨c.toNat, h⟩ else none

/-- R142: an unused field holds code 0. -/
def unusedField (c : BitVec 6) : Option Unit := if c.toNat = 0 then some () else none

/-- The LT codes 0 to 4 (R149). -/
def ftypeOf (n : Nat) : Option FType :=
  if n = 0 then some .f32 else if n = 1 then some .bf16 else if n = 2 then some .f16
  else if n = 3 then some .fp8a else if n = 4 then some .fp8b else none

/-- The LT codes 0 to 7 (R149). -/
def ltypeOf (n : Nat) : Option LType :=
  if n = 0 then some .f32 else if n = 1 then some .bf16 else if n = 2 then some .f16
  else if n = 3 then some .fp8a else if n = 4 then some .fp8b else if n = 5 then some .i32
  else if n = 6 then some .i16 else if n = 7 then some .i8 else none

/-- The W codes and element widths (R149, Table 13.11). -/
def widthOf (n : Nat) : Option Width :=
  if n = 0 then some .w4 else if n = 1 then some .w2 else if n = 2 then some .w1 else none

/-- The PK codes (R149). -/
def packOf (n : Nat) : Option Pack :=
  if n = 0 then some .e4m3 else if n = 1 then some .e5m2 else if n = 2 then some .int8
  else if n = 3 then some .int4 else if n = 4 then some .o4 else none

/-- The MF codes (R149). -/
def mfmtOf (n : Nat) : Option MFmt :=
  if n = 0 then some .bf16 else if n = 1 then some .f16 else if n = 2 then some .fp8a else if n = 3 then some .fp8b
  else if n = 4 then some .i8 else if n = 5 then some .i4 else if n = 6 then some .o4 else none

/-- The SCOPE codes (Table 10.5). -/
def scopeOf (n : Nat) : Option Scope :=
  if n = 0 then some .th else if n = 1 then some .core else if n = 2 then some .cl
  else if n = 3 then some .dev else if n = 4 then some .sys else none

/-- The ORD codes (Table 10.12). -/
def ordOf (n : Nat) : Option Ord :=
  if n = 0 then some .none else if n = 1 then some .cl else if n = 2 then some .dev
  else if n = 3 then some .sys else none

/-- The constant codes of VRED and VSCAN (R215). -/
def redOf (n : Nat) : Option RedOp :=
  if n = 32 then some .sum else if n = 33 then some .max else if n = 34 then some .min else none

/-- SIZE and SIGN of an ordered load (Table 10.5). -/
def ldKindOf (size sign : Nat) : Option LdKind :=
  if size = 0 then some (if sign = 1 then .b else .bu)
  else if size = 1 then some (if sign = 1 then .h else .hu)
  else if size = 2 then some (if sign = 1 then .w else .wu)
  else if sign = 0 then some .d else none

/-- SIZE and SIGN of an ordered store (Table 10.5). -/
def stKindOf (size sign : Nat) : Option StKind :=
  if sign = 1 then none
  else if size = 0 then some .b else if size = 1 then some .h else if size = 2 then some .w else some .d

/-- A constant code 32 + n of a selector below bound (R207, R209). -/
def selField (n : Nat) (c : BitVec 6) : Option (Fin n) :=
  if 32 ≤ c.toNat then (if h : c.toNat - 32 < n then some ⟨c.toNat - 32, h⟩ else none) else none

/-- The fields of a G or E word (Table 10.3). -/
structure GFields where
  k : Bool
  f : Nat
  d : BitVec 6
  a : BitVec 6
  b : BitVec 6
  lit : BitVec 64
  deriving DecidableEq, Repr

/-- Major 0x00 (Tables 10.11 to 10.13). -/
def decodeAlu (g : GFields) : Option Instr :=
  if g.f = 0 then (do
      let d ← regField 32 g.d
      let a ← opnd g.a g.lit
      let b ← opnd g.b g.lit
      pure (.add g.k d a b))
  else if g.f = 1 then (do
      let d ← regField 32 g.d
      let a ← opnd g.a g.lit
      let b ← opnd g.b g.lit
      pure (.sub g.k d a b))
  else if g.f = 2 then (do
      let d ← regField 32 g.d
      let a ← opnd g.a g.lit
      let b ← opnd g.b g.lit
      pure (.and g.k d a b))
  else if g.f = 3 then (do
      let d ← regField 32 g.d
      let a ← opnd g.a g.lit
      let b ← opnd g.b g.lit
      pure (.or g.k d a b))
  else if g.f = 4 then (do
      let d ← regField 32 g.d
      let a ← opnd g.a g.lit
      let b ← opnd g.b g.lit
      pure (.xor g.k d a b))
  else if g.f = 5 then (do
      let d ← regField 32 g.d
      let a ← opnd g.a g.lit
      let b ← opnd g.b g.lit
      pure (.andn g.k d a b))
  else if g.f = 6 then (do
      let d ← regField 32 g.d
      let a ← opnd g.a g.lit
      let b ← opnd g.b g.lit
      pure (.min g.k d a b))
  else if g.f = 7 then (do
      let d ← regField 32 g.d
      let a ← opnd g.a g.lit
      let b ← opnd g.b g.lit
      pure (.max g.k d a b))
  else if g.f = 8 then (do
      let d ← regField 32 g.d
      let a ← opnd g.a g.lit
      let b ← opnd g.b g.lit
      pure (.minu g.k d a b))
  else if g.f = 9 then (do
      let d ← regField 32 g.d
      let a ← opnd g.a g.lit
      let b ← opnd g.b g.lit
      pure (.maxu g.k d a b))
  else if g.f = 10 then (do
      let d ← regField 32 g.d
      let b ← opnd g.b g.lit
      unusedField g.a
      pure (.li g.k d b))
  else none

/-- Major 0x01 (Tables 10.11 to 10.13). -/
def decodeMulDiv (g : GFields) : Option Instr :=
  if g.f = 0 then (do
      let d ← regField 32 g.d
      let a ← opnd g.a g.lit
      let b ← opnd g.b g.lit
      pure (.mul g.k d a b))
  else if g.f = 1 then (do
      let d ← regField 32 g.d
      let a ← opnd g.a g.lit
      let b ← opnd g.b g.lit
      pure (.mulh g.k d a b))
  else if g.f = 2 then (do
      let d ← regField 32 g.d
      let a ← opnd g.a g.lit
      let b ← opnd g.b g.lit
      pure (.mulhu g.k d a b))
  else if g.f = 3 then (do
      let d ← regField 32 g.d
      let a ← opnd g.a g.lit
      let b ← opnd g.b g.lit
      pure (.div g.k d a b))
  else if g.f = 4 then (do
      let d ← regField 32 g.d
      let a ← opnd g.a g.lit
      let b ← opnd g.b g.lit
      pure (.divu g.k d a b))
  else if g.f = 5 then (do
      let d ← regField 32 g.d
      let a ← opnd g.a g.lit
      let b ← opnd g.b g.lit
      pure (.rem g.k d a b))
  else if g.f = 6 then (do
      let d ← regField 32 g.d
      let a ← opnd g.a g.lit
      let b ← opnd g.b g.lit
      pure (.remu g.k d a b))
  else none

/-- Major 0x02 (Tables 10.11 to 10.13). -/
def decodeShift (g : GFields) : Option Instr :=
  if g.f = 0 then (do
      let d ← regField 32 g.d
      let a ← opnd g.a g.lit
      let b ← opnd g.b g.lit
      pure (.sll g.k d a b))
  else if g.f = 1 then (do
      let d ← regField 32 g.d
      let a ← opnd g.a g.lit
      let b ← opnd g.b g.lit
      pure (.srl g.k d a b))
  else if g.f = 2 then (do
      let d ← regField 32 g.d
      let a ← opnd g.a g.lit
      let b ← opnd g.b g.lit
      pure (.sra g.k d a b))
  else if g.f = 3 then (do
      let d ← regField 32 g.d
      let a ← opnd g.a g.lit
      unusedField g.b
      pure (.clz g.k d a))
  else if g.f = 4 then (do
      let d ← regField 32 g.d
      let a ← opnd g.a g.lit
      unusedField g.b
      pure (.ctz g.k d a))
  else if g.f = 5 then (do
      let d ← regField 32 g.d
      let a ← opnd g.a g.lit
      unusedField g.b
      pure (.popc g.k d a))
  else if g.f = 6 then (do
      let d ← regField 32 g.d
      let a ← opnd g.a g.lit
      let b ← opnd g.b g.lit
      pure (.exts g.k d a b))
  else if g.f = 7 then (do
      let d ← regField 32 g.d
      let a ← opnd g.a g.lit
      let b ← opnd g.b g.lit
      pure (.extz g.k d a b))
  else if g.f = 8 then (do
      let d ← regField 32 g.d
      let a ← opnd g.a g.lit
      let b ← opnd g.b g.lit
      pure (.bfext g.k d a b))
  else if g.f = 9 then (do
      let d ← regField 32 g.d
      let a ← opnd g.a g.lit
      let b ← opnd g.b g.lit
      pure (.bfins g.k d a b))
  else none

/-- Major 0x03 (Tables 10.11 to 10.13). -/
def decodeCompare (g : GFields) : Option Instr :=
  if g.f = 0 then (do
      let d ← regField 32 g.d
      let a ← opnd g.a g.lit
      let b ← opnd g.b g.lit
      pure (.seq g.k d a b))
  else if g.f = 1 then (do
      let d ← regField 32 g.d
      let a ← opnd g.a g.lit
      let b ← opnd g.b g.lit
      pure (.slt g.k d a b))
  else if g.f = 2 then (do
      let d ← regField 32 g.d
      let a ← opnd g.a g.lit
      let b ← opnd g.b g.lit
      pure (.sltu g.k d a b))
  else if g.f = 3 then (do
      let d ← regField 32 g.d
      let a ← opnd g.a g.lit
      let b ← opnd g.b g.lit
      pure (.sel g.k d a b))
  else none

/-- Major 0x04 (Tables 10.11 to 10.13). -/
def decodeAddress (g : GFields) : Option Instr :=
  if g.f = 0 then (do
      let d ← regField 32 g.d
      let b ← opnd g.b g.lit
      unusedField g.a
      pure (.lea g.k d b))
  else if g.f = 1 then (do
      let d ← regField 32 g.d
      let a ← opnd g.a g.lit
      let b ← opnd g.b g.lit
      pure (.apcvt g.k d a b))
  else if g.f = 2 then (do
      let d ← regField 32 g.d
      let a ← opnd g.a g.lit
      unusedField g.b
      pure (.aptest g.k d a))
  else none

/-- Major 0x0A (Tables 10.11 to 10.13). -/
def decodeAtomic (g : GFields) : Option Instr :=
  if g.f / 4 = 0 then (do
      let d ← regField 32 g.d
      let a ← opnd g.a g.lit
      let b ← opnd g.b g.lit
      let ord ← ordOf (g.f % 4)
      pure (.amoadd g.k d a b ord))
  else if g.f / 4 = 1 then (do
      let d ← regField 32 g.d
      let a ← opnd g.a g.lit
      let b ← opnd g.b g.lit
      let ord ← ordOf (g.f % 4)
      pure (.amoand g.k d a b ord))
  else if g.f / 4 = 2 then (do
      let d ← regField 32 g.d
      let a ← opnd g.a g.lit
      let b ← opnd g.b g.lit
      let ord ← ordOf (g.f % 4)
      pure (.amoor g.k d a b ord))
  else if g.f / 4 = 3 then (do
      let d ← regField 32 g.d
      let a ← opnd g.a g.lit
      let b ← opnd g.b g.lit
      let ord ← ordOf (g.f % 4)
      pure (.amoxor g.k d a b ord))
  else if g.f / 4 = 4 then (do
      let d ← regField 32 g.d
      let a ← opnd g.a g.lit
      let b ← opnd g.b g.lit
      let ord ← ordOf (g.f % 4)
      pure (.amomin g.k d a b ord))
  else if g.f / 4 = 5 then (do
      let d ← regField 32 g.d
      let a ← opnd g.a g.lit
      let b ← opnd g.b g.lit
      let ord ← ordOf (g.f % 4)
      pure (.amomax g.k d a b ord))
  else if g.f / 4 = 6 then (do
      let d ← regField 32 g.d
      let a ← opnd g.a g.lit
      let b ← opnd g.b g.lit
      let ord ← ordOf (g.f % 4)
      pure (.amominu g.k d a b ord))
  else if g.f / 4 = 7 then (do
      let d ← regField 32 g.d
      let a ← opnd g.a g.lit
      let b ← opnd g.b g.lit
      let ord ← ordOf (g.f % 4)
      pure (.amomaxu g.k d a b ord))
  else if g.f / 4 = 8 then (do
      let d ← regField 32 g.d
      let a ← opnd g.a g.lit
      let b ← opnd g.b g.lit
      let ord ← ordOf (g.f % 4)
      pure (.amoswap g.k d a b ord))
  else if g.f / 4 = 9 then (do
      let d ← regField 32 g.d
      let a ← opnd g.a g.lit
      let b ← opnd g.b g.lit
      let ord ← ordOf (g.f % 4)
      pure (.amocas g.k d a b ord))
  else if g.f / 4 = 10 then (do
      let d ← regField 32 g.d
      let a ← opnd g.a g.lit
      let b ← opnd g.b g.lit
      let ord ← ordOf (g.f % 4)
      pure (.amofadd g.k d a b ord))
  else none

/-- Major 0x0C (Tables 10.11 to 10.13). -/
def decodeTag (g : GFields) : Option Instr :=
  if g.f = 0 then (do
      let d ← regField 32 g.d
      let a ← opnd g.a g.lit
      unusedField g.b
      pure (.tld g.k d a))
  else if g.f = 1 then (do
      let a ← opnd g.a g.lit
      let b ← opnd g.b g.lit
      unusedField g.d
      pure (.tst g.k a b))
  else if g.f = 2 then (do
      let d ← regField 32 g.d
      let a ← opnd g.a g.lit
      let b ← opnd g.b g.lit
      pure (.tcas g.k d a b))
  else if g.f = 3 then (do
      let a ← opnd g.a g.lit
      let b ← opnd g.b g.lit
      unusedField g.d
      pure (.ttabWr g.k a b))
  else if g.f = 4 then (do
      let d ← regField 32 g.d
      let a ← opnd g.a g.lit
      unusedField g.b
      pure (.ttabRd g.k d a))
  else if g.f = 5 then (do
      let a ← opnd g.a g.lit
      unusedField g.d
      unusedField g.b
      pure (.ttabSwap g.k a))
  else none

/-- Major 0x0D (Tables 10.11 to 10.13). -/
def decodeMessage (g : GFields) : Option Instr :=
  if g.f = 0 then (do
      let a ← opnd g.a g.lit
      let b ← opnd g.b g.lit
      unusedField g.d
      pure (.msend g.k a b))
  else if g.f = 1 then (do
      let d ← regField 32 g.d
      unusedField g.a
      unusedField g.b
      pure (.mrecv g.k d))
  else if g.f = 2 then (do
      let d ← regField 32 g.d
      unusedField g.a
      unusedField g.b
      pure (.mpoll g.k d))
  else if g.f = 3 then (do
      let d ← regField 32 g.d
      let a ← opnd g.a g.lit
      unusedField g.b
      pure (.mloop g.k d a))
  else if g.f = 4 then (do
      let d ← regField 32 g.d
      unusedField g.a
      unusedField g.b
      pure (.mcount g.k d))
  else none

/-- Major 0x0E (Tables 10.11 to 10.13). -/
def decodeSignal (g : GFields) : Option Instr :=
  if g.f = 0 then (do
      let a ← opnd g.a g.lit
      let b ← opnd g.b g.lit
      unusedField g.d
      pure (.sigEmit g.k a b))
  else if g.f = 1 then (do
      let a ← opnd g.a g.lit
      unusedField g.d
      unusedField g.b
      pure (.sigSkip g.k a))
  else if g.f = 2 then (do
      let d ← regField 32 g.d
      let a ← opnd g.a g.lit
      unusedField g.b
      pure (.sigTest g.k d a))
  else if g.f = 3 then (do
      let d ← regField 32 g.d
      let a ← opnd g.a g.lit
      unusedField g.b
      pure (.sigVal g.k d a))
  else if g.f = 4 then (do
      let a ← opnd g.a g.lit
      let b ← opnd g.b g.lit
      unusedField g.d
      pure (.bpres g.k a b))
  else if g.f = 5 then (do
      let a ← opnd g.a g.lit
      let b ← opnd g.b g.lit
      unusedField g.d
      pure (.babs g.k a b))
  else if g.f = 6 then (do
      unusedField g.d
      unusedField g.a
      unusedField g.b
      pure (.pause g.k))
  else if g.f = 7 then (do
      let d ← regField 16 g.d
      let b ← opnd g.b g.lit
      unusedField g.a
      pure (.dset g.k d b))
  else if g.f = 8 then (do
      let d ← regField 32 g.d
      let a ← regField 16 g.a
      unusedField g.b
      pure (.dget g.k d a))
  else if g.f = 9 then (do
      let d ← regField 32 g.d
      let b ← opnd g.b g.lit
      unusedField g.a
      pure (.irec g.k d b))
  else none

/-- Major 0x0F (Tables 10.11 to 10.13). -/
def decodeExchange (g : GFields) : Option Instr :=
  if g.f = 0 then (do
      let a ← opnd g.a g.lit
      let b ← opnd g.b g.lit
      unusedField g.d
      pure (.xsendAt g.k a b))
  else if g.f = 1 then (do
      unusedField g.d
      unusedField g.a
      unusedField g.b
      pure (.xend g.k))
  else if g.f = 2 then (do
      let d ← regField 32 g.d
      unusedField g.a
      unusedField g.b
      pure (.xslot g.k d))
  else none

/-- Major 0x10 (Tables 10.11 to 10.13). -/
def decodeVecFp (g : GFields) : Option Instr :=
  if g.f % 8 = 0 then (do
      let d ← regField 32 g.d
      let a ← opnd g.a g.lit
      let b ← opnd g.b g.lit
      let lt ← ftypeOf (g.f / 8)
      pure (.vfadd g.k d a b lt))
  else if g.f % 8 = 1 then (do
      let d ← regField 32 g.d
      let a ← opnd g.a g.lit
      let b ← opnd g.b g.lit
      let lt ← ftypeOf (g.f / 8)
      pure (.vfsub g.k d a b lt))
  else if g.f % 8 = 2 then (do
      let d ← regField 32 g.d
      let a ← opnd g.a g.lit
      let b ← opnd g.b g.lit
      let lt ← ftypeOf (g.f / 8)
      pure (.vfmul g.k d a b lt))
  else if g.f % 8 = 3 then (do
      let d ← regField 32 g.d
      let a ← opnd g.a g.lit
      let b ← opnd g.b g.lit
      let lt ← ftypeOf (g.f / 8)
      pure (.vfma g.k d a b lt))
  else if g.f % 8 = 4 then (do
      let d ← regField 32 g.d
      let a ← opnd g.a g.lit
      let b ← opnd g.b g.lit
      let lt ← ftypeOf (g.f / 8)
      pure (.vfmax g.k d a b lt))
  else if g.f % 8 = 5 then (do
      let d ← regField 32 g.d
      let a ← opnd g.a g.lit
      let b ← opnd g.b g.lit
      let lt ← ftypeOf (g.f / 8)
      pure (.vfmin g.k d a b lt))
  else if g.f % 8 = 6 then (do
      let d ← regField 8 g.d
      let a ← opnd g.a g.lit
      let b ← opnd g.b g.lit
      let lt ← ftypeOf (g.f / 8)
      pure (.vfcmpEq g.k d a b lt))
  else if g.f % 8 = 7 then (do
      let d ← regField 8 g.d
      let a ← opnd g.a g.lit
      let b ← opnd g.b g.lit
      let lt ← ftypeOf (g.f / 8)
      pure (.vfcmpLt g.k d a b lt))
  else none

/-- Major 0x11 (Tables 10.11 to 10.13). -/
def decodeVecInt (g : GFields) : Option Instr :=
  if g.f % 16 = 0 then (do
      let d ← regField 32 g.d
      let a ← opnd g.a g.lit
      let b ← opnd g.b g.lit
      let w ← widthOf (g.f / 16)
      pure (.vadd g.k d a b w))
  else if g.f % 16 = 1 then (do
      let d ← regField 32 g.d
      let a ← opnd g.a g.lit
      let b ← opnd g.b g.lit
      let w ← widthOf (g.f / 16)
      pure (.vsub g.k d a b w))
  else if g.f % 16 = 2 then (do
      let d ← regField 32 g.d
      let a ← opnd g.a g.lit
      let b ← opnd g.b g.lit
      let w ← widthOf (g.f / 16)
      pure (.vmul g.k d a b w))
  else if g.f % 16 = 3 then (do
      let d ← regField 32 g.d
      let a ← opnd g.a g.lit
      let b ← opnd g.b g.lit
      let w ← widthOf (g.f / 16)
      pure (.vmin g.k d a b w))
  else if g.f % 16 = 4 then (do
      let d ← regField 32 g.d
      let a ← opnd g.a g.lit
      let b ← opnd g.b g.lit
      let w ← widthOf (g.f / 16)
      pure (.vmax g.k d a b w))
  else if g.f % 16 = 5 then (do
      let d ← regField 32 g.d
      let a ← opnd g.a g.lit
      let b ← opnd g.b g.lit
      let w ← widthOf (g.f / 16)
      pure (.vand g.k d a b w))
  else if g.f % 16 = 6 then (do
      let d ← regField 32 g.d
      let a ← opnd g.a g.lit
      let b ← opnd g.b g.lit
      let w ← widthOf (g.f / 16)
      pure (.vor g.k d a b w))
  else if g.f % 16 = 7 then (do
      let d ← regField 32 g.d
      let a ← opnd g.a g.lit
      let b ← opnd g.b g.lit
      let w ← widthOf (g.f / 16)
      pure (.vxor g.k d a b w))
  else if g.f % 16 = 8 then (do
      let d ← regField 32 g.d
      let a ← opnd g.a g.lit
      let b ← opnd g.b g.lit
      let w ← widthOf (g.f / 16)
      pure (.vshl g.k d a b w))
  else if g.f % 16 = 9 then (do
      let d ← regField 32 g.d
      let a ← opnd g.a g.lit
      let b ← opnd g.b g.lit
      let w ← widthOf (g.f / 16)
      pure (.vshr g.k d a b w))
  else if g.f % 16 = 10 then (do
      let d ← regField 32 g.d
      let a ← opnd g.a g.lit
      let b ← opnd g.b g.lit
      let w ← widthOf (g.f / 16)
      pure (.vshra g.k d a b w))
  else if g.f % 16 = 11 then (do
      let d ← regField 8 g.d
      let a ← opnd g.a g.lit
      let b ← opnd g.b g.lit
      let w ← widthOf (g.f / 16)
      pure (.vcmpEq g.k d a b w))
  else if g.f % 16 = 12 then (do
      let d ← regField 8 g.d
      let a ← opnd g.a g.lit
      let b ← opnd g.b g.lit
      let w ← widthOf (g.f / 16)
      pure (.vcmpLt g.k d a b w))
  else if g.f % 16 = 13 then (do
      let d ← regField 32 g.d
      let a ← opnd g.a g.lit
      let b ← opnd g.b g.lit
      let w ← widthOf (g.f / 16)
      pure (.vsel g.k d a b w))
  else if g.f % 16 = 14 then (do
      let d ← regField 32 g.d
      let b ← opnd g.b g.lit
      unusedField g.a
      let w ← widthOf (g.f / 16)
      pure (.vmov g.k d b w))
  else if g.f % 16 = 15 then (do
      let d ← regField 32 g.d
      let b ← opnd g.b g.lit
      unusedField g.a
      let w ← widthOf (g.f / 16)
      pure (.vbcast g.k d b w))
  else none

/-- Major 0x12 (Tables 10.11 to 10.13). R210 wants a register that is a multiple of 4 as VQUANT's source; a constant or literal there is illegal (log 36,
DEDUCED). -/
def decodeVecConv (g : GFields) : Option Instr :=
  if g.f / 8 = 0 then (do
      let d ← regField 32 g.d
      let a ← opnd g.a g.lit
      let cb ← selField 8 g.b
      let src ← ltypeOf cb.val
      let t ← ltypeOf (g.f % 8)
      pure (.vcvt g.k d a src t))
  else if g.f / 8 = 1 then (do
      let d ← regField 32 g.d
      let a ← regField 32 g.a
      let b ← regField 32 g.b
      let pk ← packOf (g.f % 8)
      pure (.vquant g.k d a b pk))
  else if g.f / 8 = 2 then (do
      let d ← regField 32 g.d
      let a ← opnd g.a g.lit
      let b ← regField 32 g.b
      let pk ← packOf (g.f % 8)
      pure (.vdeq g.k d a b pk))
  else if g.f / 8 = 3 then (do
      let d ← regField 32 g.d
      let a ← opnd g.a g.lit
      let b ← opnd g.b g.lit
      let t ← ltypeOf (g.f % 8)
      pure (.vpack g.k d a b t))
  else if g.f / 8 = 4 then (do
      let d ← regField 32 g.d
      let a ← opnd g.a g.lit
      let part ← selField 8 g.b
      let t ← ltypeOf (g.f % 8)
      pure (.vunpack g.k d a part t))
  else none

/-- Major 0x13 (Tables 10.11 to 10.13). -/
def decodeVecPerm (g : GFields) : Option Instr :=
  if g.f % 8 = 0 then (do
      let d ← regField 32 g.d
      let a ← opnd g.a g.lit
      let b ← opnd g.b g.lit
      let lt ← ltypeOf (g.f / 8)
      pure (.vperm g.k d a b lt))
  else if g.f % 8 = 1 then (do
      let d ← regField 32 g.d
      let a ← opnd g.a g.lit
      let b ← opnd g.b g.lit
      let lt ← ltypeOf (g.f / 8)
      pure (.vshuf g.k d a b lt))
  else if g.f % 8 = 2 then (do
      let d ← regField 32 g.d
      let a ← opnd g.a g.lit
      let red ← redOf g.b.toNat
      let lt ← ltypeOf (g.f / 8)
      pure (.vred g.k d a red lt))
  else if g.f % 8 = 3 then (do
      let d ← regField 32 g.d
      let a ← opnd g.a g.lit
      let red ← redOf g.b.toNat
      let lt ← ltypeOf (g.f / 8)
      pure (.vscan g.k d a red lt))
  else if g.f % 8 = 4 then (do
      let d ← regField 32 g.d
      let a ← opnd g.a g.lit
      let b ← opnd g.b g.lit
      let lt ← ltypeOf (g.f / 8)
      pure (.vextr g.k d a b lt))
  else if g.f % 8 = 5 then (do
      let d ← regField 32 g.d
      let a ← opnd g.a g.lit
      let b ← opnd g.b g.lit
      let lt ← ltypeOf (g.f / 8)
      pure (.vins g.k d a b lt))
  else none

/-- Major 0x14 (Tables 10.11 to 10.13). -/
def decodeVecMem (g : GFields) : Option Instr :=
  if g.f / 8 = 0 then (do
      let d ← regField 32 g.d
      let a ← opnd g.a g.lit
      let b ← opnd g.b g.lit
      let e ← widthOf (g.f % 4)
      let col := decide (g.f / 4 % 2 = 1)
      pure (.vld g.k d a b e col))
  else if g.f / 8 = 1 then (do
      let d ← opnd g.d g.lit
      let a ← opnd g.a g.lit
      let b ← opnd g.b g.lit
      let e ← widthOf (g.f % 4)
      let col := decide (g.f / 4 % 2 = 1)
      pure (.vst g.k d a b e col))
  else if g.f / 8 = 2 ∧ g.f / 4 % 2 = 0 then (do
      let d ← regField 32 g.d
      let a ← opnd g.a g.lit
      let b ← opnd g.b g.lit
      let e ← widthOf (g.f % 4)
      pure (.vlds g.k d a b e))
  else if g.f / 8 = 3 ∧ g.f / 4 % 2 = 0 then (do
      let d ← opnd g.d g.lit
      let a ← opnd g.a g.lit
      let b ← opnd g.b g.lit
      let e ← widthOf (g.f % 4)
      pure (.vsts g.k d a b e))
  else if g.f / 8 = 4 ∧ g.f / 4 % 2 = 0 then (do
      let d ← regField 32 g.d
      let a ← opnd g.a g.lit
      let b ← opnd g.b g.lit
      let e ← widthOf (g.f % 4)
      pure (.vldx g.k d a b e))
  else if g.f / 8 = 5 ∧ g.f / 4 % 2 = 0 then (do
      let d ← opnd g.d g.lit
      let a ← opnd g.a g.lit
      let b ← opnd g.b g.lit
      let e ← widthOf (g.f % 4)
      pure (.vstx g.k d a b e))
  else none

/-- Major 0x15 (Tables 10.11 to 10.13). -/
def decodeStream (g : GFields) : Option Instr :=
  if g.f = 0 then (do
      let d ← regField 4 g.d
      let a ← opnd g.a g.lit
      let b ← opnd g.b g.lit
      pure (.sgCfg g.k d a b))
  else if g.f = 1 then (do
      let d ← regField 32 g.d
      let a ← regField 4 g.a
      unusedField g.b
      pure (.sgIdx g.k d a))
  else if g.f = 2 then (do
      let a ← regField 4 g.a
      unusedField g.d
      unusedField g.b
      pure (.sgStop g.k a))
  else if g.f = 3 then (do
      let d ← regField 32 g.d
      let a ← regField 4 g.a
      unusedField g.b
      pure (.sread g.k d a))
  else if g.f = 4 then (do
      let d ← regField 4 g.d
      let a ← opnd g.a g.lit
      unusedField g.b
      pure (.swrite g.k d a))
  else if g.f = 5 then (do
      let a ← opnd g.a g.lit
      let b ← opnd g.b g.lit
      unusedField g.d
      pure (.rep g.k a b))
  else none

/-- Major 0x16 (Tables 10.11 to 10.13). -/
def decodeVecSpecial (g : GFields) : Option Instr :=
  if g.f % 8 = 0 ∧ g.f / 8 = 0 then (do
      let d ← regField 32 g.d
      let a ← opnd g.a g.lit
      unusedField g.b
      pure (.vfexp2 g.k d a))
  else if g.f % 8 = 1 ∧ g.f / 8 = 0 then (do
      let d ← regField 32 g.d
      let a ← opnd g.a g.lit
      unusedField g.b
      pure (.vfrcp g.k d a))
  else if g.f % 8 = 2 ∧ g.f / 8 = 0 then (do
      let d ← regField 32 g.d
      let a ← opnd g.a g.lit
      unusedField g.b
      pure (.vfrsq g.k d a))
  else if g.f % 8 = 3 ∧ g.f / 8 = 0 then (do
      let d ← regField 32 g.d
      let a ← opnd g.a g.lit
      unusedField g.b
      pure (.vflog2 g.k d a))
  else if g.f % 8 = 4 then (do
      let d ← regField 32 g.d
      let a ← opnd g.a g.lit
      unusedField g.b
      let lt ← ftypeOf (g.f / 8)
      pure (.vfabs g.k d a lt))
  else if g.f % 8 = 5 then (do
      let d ← regField 32 g.d
      let a ← opnd g.a g.lit
      unusedField g.b
      let lt ← ftypeOf (g.f / 8)
      pure (.vfneg g.k d a lt))
  else if g.f % 8 = 6 then (do
      let d ← regField 8 g.d
      let a ← opnd g.a g.lit
      let b ← opnd g.b g.lit
      let lt ← ftypeOf (g.f / 8)
      pure (.vfcmpLe g.k d a b lt))
  else if g.f % 8 = 7 then (do
      let d ← regField 8 g.d
      let a ← opnd g.a g.lit
      let b ← opnd g.b g.lit
      let lt ← ftypeOf (g.f / 8)
      pure (.vfcmpUn g.k d a b lt))
  else none

/-- Major 0x17 (Tables 10.11 to 10.13). -/
def decodeMask (g : GFields) : Option Instr :=
  if g.f = 0 then (do
      let d ← regField 8 g.d
      let b ← opnd g.b g.lit
      unusedField g.a
      pure (.mset g.k d b))
  else if g.f = 1 then (do
      let d ← regField 8 g.d
      let a ← opnd g.a g.lit
      let b ← opnd g.b g.lit
      pure (.mand g.k d a b))
  else if g.f = 2 then (do
      let d ← regField 8 g.d
      let a ← opnd g.a g.lit
      let b ← opnd g.b g.lit
      pure (.mor g.k d a b))
  else if g.f = 3 then (do
      let d ← regField 8 g.d
      let a ← opnd g.a g.lit
      unusedField g.b
      pure (.mnot g.k d a))
  else if g.f = 4 then (do
      let d ← regField 32 g.d
      let a ← opnd g.a g.lit
      unusedField g.b
      pure (.mpopc g.k d a))
  else if g.f = 5 then (do
      let d ← regField 32 g.d
      let a ← opnd g.a g.lit
      unusedField g.b
      pure (.mfirst g.k d a))
  else none

/-- Major 0x18 (Tables 10.11 to 10.13). -/
def decodeMatrix (g : GFields) : Option Instr :=
  if g.f / 8 = 0 then (do
      let a ← opnd g.a g.lit
      let b ← opnd g.b g.lit
      unusedField g.d
      let mf ← mfmtOf (g.f % 8)
      pure (.mxCfg g.k a b mf))
  else if g.f / 8 = 1 ∧ g.f % 8 = 0 then (do
      let a ← opnd g.a g.lit
      let b ← opnd g.b g.lit
      unusedField g.d
      pure (.mxLdw g.k a b))
  else if g.f / 8 = 2 ∧ g.f % 8 = 0 then (do
      unusedField g.d
      unusedField g.a
      unusedField g.b
      pure (.mxSwap g.k))
  else if g.f / 8 = 3 ∧ g.f % 8 = 0 then (do
      let a ← opnd g.a g.lit
      unusedField g.d
      unusedField g.b
      pure (.mxDup g.k a))
  else if g.f / 8 = 4 ∧ g.f % 8 = 0 then (do
      let d ← regField 4 g.d
      let a ← opnd g.a g.lit
      let b ← opnd g.b g.lit
      pure (.mxStream g.k d a b))
  else if g.f / 8 = 5 ∧ g.f % 8 = 0 then (do
      let d ← regField 4 g.d
      unusedField g.a
      unusedField g.b
      pure (.mxZero g.k d))
  else if g.f / 8 = 6 ∧ g.f % 8 = 0 then (do
      let d ← regField 4 g.d
      let a ← opnd g.a g.lit
      let b ← opnd g.b g.lit
      pure (.mxDrain g.k d a b))
  else none

/-- Major 0x19 (Tables 10.11 to 10.13). -/
def decodeDrain (g : GFields) : Option Instr :=
  if g.f = 0 then (do
      unusedField g.d
      unusedField g.a
      unusedField g.b
      pure (.dret g.k))
  else if g.f = 1 then (do
      unusedField g.d
      unusedField g.a
      unusedField g.b
      pure (.mxWait g.k))
  else none

/-- Major 0x1A (Tables 10.11 to 10.13). -/
def decodeAttention (g : GFields) : Option Instr :=
  if g.f = 0 then (do
      let a ← opnd g.a g.lit
      let b ← opnd g.b g.lit
      unusedField g.d
      pure (.attnQld g.k a b))
  else if g.f = 1 then (do
      let a ← opnd g.a g.lit
      let b ← opnd g.b g.lit
      unusedField g.d
      pure (.attnRun g.k a b))
  else if g.f = 2 then (do
      let a ← opnd g.a g.lit
      unusedField g.d
      unusedField g.b
      pure (.attnMerge g.k a))
  else if g.f = 3 then (do
      let a ← opnd g.a g.lit
      let b ← opnd g.b g.lit
      unusedField g.d
      pure (.attnFin g.k a b))
  else if g.f = 4 then (do
      let a ← opnd g.a g.lit
      unusedField g.d
      unusedField g.b
      pure (.attnSt g.k a))
  else none

/-- Major 0x1B (Tables 10.11 to 10.13). -/
def decodeComet (g : GFields) : Option Instr :=
  if g.f = 0 then (do
      let a ← opnd g.a g.lit
      unusedField g.d
      unusedField g.b
      pure (.cmAppend g.k a))
  else if g.f = 1 then (do
      let d ← regField 32 g.d
      let a ← opnd g.a g.lit
      let b ← opnd g.b g.lit
      pure (.cmFill g.k d a b))
  else if g.f = 2 then (do
      let d ← regField 32 g.d
      let a ← opnd g.a g.lit
      let b ← opnd g.b g.lit
      pure (.cmFree g.k d a b))
  else if g.f = 3 then (do
      let d ← regField 32 g.d
      let a ← opnd g.a g.lit
      let b ← opnd g.b g.lit
      pure (.cmLookup g.k d a b))
  else if g.f = 4 then (do
      let d ← regField 32 g.d
      let a ← opnd g.a g.lit
      unusedField g.b
      pure (.cmShare g.k d a))
  else if g.f = 5 then (do
      unusedField g.d
      unusedField g.a
      unusedField g.b
      pure (.cmInval g.k))
  else none

/-- Major 0x1C (Tables 10.11 to 10.13). -/
def decodeTransfer (g : GFields) : Option Instr :=
  if g.f = 0 then (do
      let d ← regField 32 g.d
      unusedField g.a
      unusedField g.b
      pure (.xfGo g.k d))
  else if g.f = 1 then (do
      let d ← regField 32 g.d
      let a ← opnd g.a g.lit
      unusedField g.b
      pure (.xfCancel g.k d a))
  else none

/-- Major 0x1D (Tables 10.11 to 10.13). -/
def decodeThread (g : GFields) : Option Instr :=
  if g.f = 0 then (do
      unusedField g.d
      unusedField g.a
      unusedField g.b
      pure (.yield g.k))
  else if g.f = 1 then (do
      unusedField g.d
      unusedField g.a
      unusedField g.b
      pure (.nexit g.k))
  else if g.f = 2 then (do
      let a ← opnd g.a g.lit
      let b ← opnd g.b g.lit
      unusedField g.d
      pure (.phint g.k a b))
  else if g.f = 3 then (do
      unusedField g.d
      unusedField g.a
      unusedField g.b
      pure (.uiret g.k))
  else none

/-- Major 0x1E (Tables 10.11 to 10.13). -/
def decodeScalarFp (g : GFields) : Option Instr :=
  if g.f % 32 = 0 then (do
      let d ← regField 32 g.d
      let a ← opnd g.a g.lit
      let b ← opnd g.b g.lit
      let p := decide (g.f / 32 = 1)
      pure (.fadd g.k d a b p))
  else if g.f % 32 = 1 then (do
      let d ← regField 32 g.d
      let a ← opnd g.a g.lit
      let b ← opnd g.b g.lit
      let p := decide (g.f / 32 = 1)
      pure (.fsub g.k d a b p))
  else if g.f % 32 = 2 then (do
      let d ← regField 32 g.d
      let a ← opnd g.a g.lit
      let b ← opnd g.b g.lit
      let p := decide (g.f / 32 = 1)
      pure (.fmul g.k d a b p))
  else if g.f % 32 = 3 then (do
      let d ← regField 32 g.d
      let a ← opnd g.a g.lit
      let b ← opnd g.b g.lit
      let p := decide (g.f / 32 = 1)
      pure (.ffma g.k d a b p))
  else if g.f % 32 = 4 then (do
      let d ← regField 32 g.d
      let a ← opnd g.a g.lit
      let b ← opnd g.b g.lit
      let p := decide (g.f / 32 = 1)
      pure (.fdiv g.k d a b p))
  else if g.f % 32 = 5 then (do
      let d ← regField 32 g.d
      let a ← opnd g.a g.lit
      unusedField g.b
      let p := decide (g.f / 32 = 1)
      pure (.fsqrt g.k d a p))
  else if g.f % 32 = 6 then (do
      let d ← regField 32 g.d
      let a ← opnd g.a g.lit
      let b ← opnd g.b g.lit
      let p := decide (g.f / 32 = 1)
      pure (.fmin g.k d a b p))
  else if g.f % 32 = 7 then (do
      let d ← regField 32 g.d
      let a ← opnd g.a g.lit
      let b ← opnd g.b g.lit
      let p := decide (g.f / 32 = 1)
      pure (.fmax g.k d a b p))
  else if g.f % 32 = 8 then (do
      let d ← regField 32 g.d
      let a ← opnd g.a g.lit
      let b ← opnd g.b g.lit
      let p := decide (g.f / 32 = 1)
      pure (.fcmpEq g.k d a b p))
  else if g.f % 32 = 9 then (do
      let d ← regField 32 g.d
      let a ← opnd g.a g.lit
      let b ← opnd g.b g.lit
      let p := decide (g.f / 32 = 1)
      pure (.fcmpLt g.k d a b p))
  else if g.f % 32 = 10 then (do
      let d ← regField 32 g.d
      let a ← opnd g.a g.lit
      let b ← opnd g.b g.lit
      let p := decide (g.f / 32 = 1)
      pure (.fcmpLe g.k d a b p))
  else if g.f % 32 = 11 then (do
      let d ← regField 32 g.d
      let a ← opnd g.a g.lit
      unusedField g.b
      let p := decide (g.f / 32 = 1)
      pure (.fcvtPrecision g.k d a p))
  else if g.f % 32 = 12 then (do
      let d ← regField 32 g.d
      let a ← opnd g.a g.lit
      unusedField g.b
      let p := decide (g.f / 32 = 1)
      pure (.fcvtToInt g.k d a p))
  else if g.f % 32 = 13 then (do
      let d ← regField 32 g.d
      let a ← opnd g.a g.lit
      unusedField g.b
      let p := decide (g.f / 32 = 1)
      pure (.fcvtFromInt g.k d a p))
  else none

/-- Major 0x1F (Tables 10.11 to 10.13). -/
def decodePrivileged (g : GFields) : Option Instr :=
  if g.f = 0 then (do
      unusedField g.d
      unusedField g.a
      unusedField g.b
      pure (.ecall g.k))
  else if g.f = 1 then (do
      unusedField g.d
      unusedField g.a
      unusedField g.b
      pure (.ebreak g.k))
  else if g.f = 2 then (do
      unusedField g.d
      unusedField g.a
      unusedField g.b
      pure (.mret g.k))
  else if g.f = 3 then (do
      unusedField g.d
      unusedField g.a
      unusedField g.b
      pure (.sret g.k))
  else if g.f = 4 then (do
      unusedField g.d
      unusedField g.a
      unusedField g.b
      pure (.wfi g.k))
  else if g.f = 5 then (do
      let d ← regField 32 g.d
      let a ← opnd g.a g.lit
      let b ← opnd g.b g.lit
      pure (.tlbWr g.k d a b))
  else if g.f = 6 then (do
      let d ← regField 32 g.d
      let a ← opnd g.a g.lit
      let b ← opnd g.b g.lit
      pure (.tlbInv g.k d a b))
  else if g.f = 7 then (do
      let a ← opnd g.a g.lit
      let b ← opnd g.b g.lit
      unusedField g.d
      pure (.xlateDrain g.k a b))
  else if g.f = 8 then (do
      let a ← opnd g.a g.lit
      unusedField g.d
      unusedField g.b
      pure (.mxSave g.k a))
  else if g.f = 9 then (do
      let d ← regField 32 g.d
      let a ← opnd g.a g.lit
      unusedField g.b
      pure (.mxLoad g.k d a))
  else if g.f = 10 then (do
      let d ← regField 32 g.d
      let a ← opnd g.a g.lit
      let b ← opnd g.b g.lit
      pure (.ctxHalt g.k d a b))
  else if g.f = 11 then (do
      let d ← regField 32 g.d
      let a ← opnd g.a g.lit
      let b ← opnd g.b g.lit
      pure (.ctxSave g.k d a b))
  else none

/-- Majors in formats G and E (Table 10.10). -/
def decodeG (major : Nat) (g : GFields) : Option Instr :=
  if major = 0 then decodeAlu g
  else if major = 1 then decodeMulDiv g
  else if major = 2 then decodeShift g
  else if major = 3 then decodeCompare g
  else if major = 4 then decodeAddress g
  else if major = 10 then decodeAtomic g
  else if major = 12 then decodeTag g
  else if major = 13 then decodeMessage g
  else if major = 14 then decodeSignal g
  else if major = 15 then decodeExchange g
  else if major = 16 then decodeVecFp g
  else if major = 17 then decodeVecInt g
  else if major = 18 then decodeVecConv g
  else if major = 19 then decodeVecPerm g
  else if major = 20 then decodeVecMem g
  else if major = 21 then decodeStream g
  else if major = 22 then decodeVecSpecial g
  else if major = 23 then decodeMask g
  else if major = 24 then decodeMatrix g
  else if major = 25 then decodeDrain g
  else if major = 26 then decodeAttention g
  else if major = 27 then decodeComet g
  else if major = 28 then decodeTransfer g
  else if major = 29 then decodeThread g
  else if major = 30 then decodeScalarFp g
  else if major = 31 then decodePrivileged g
  else none

/-- Major 0x05 (Table 10.11), from the cond, b, a and off9 fields. -/
def decodeBranch (k : Bool) (f : Nat) (ca cb : BitVec 6) (off : BitVec 9) (lit : BitVec 64) : Option Instr :=
  if f = 0 then (do
      let a ← opnd ca lit
      let b ← opnd cb lit
      pure (.beq k a b off))
  else if f = 1 then (do
      let a ← opnd ca lit
      let b ← opnd cb lit
      pure (.bne k a b off))
  else if f = 2 then (do
      let a ← opnd ca lit
      let b ← opnd cb lit
      pure (.blt k a b off))
  else if f = 3 then (do
      let a ← opnd ca lit
      let b ← opnd cb lit
      pure (.bge k a b off))
  else if f = 4 then (do
      let a ← opnd ca lit
      let b ← opnd cb lit
      pure (.bltu k a b off))
  else if f = 5 then (do
      let a ← opnd ca lit
      let b ← opnd cb lit
      pure (.bgeu k a b off))
  else if f = 6 then (do
      let a ← regField 32 ca
      let b ← opnd cb lit
      pure (.jal k a b off))
  else if f = 7 then (do
      let a ← regField 32 ca
      let b ← opnd cb lit
      pure (.jalr k a b off))
  else none

/-- Major 0x08 (Table 10.12). -/
def decodeLoad (k : Bool) (f : Nat) (cd cbase : BitVec 6) (off : BitVec 9) (lit : BitVec 64) : Option Instr :=
  if f = 0 then (do
      let d ← regField 32 cd
      let base ← opnd cbase lit
      pure (.lb k d base off))
  else if f = 1 then (do
      let d ← regField 32 cd
      let base ← opnd cbase lit
      pure (.lbu k d base off))
  else if f = 2 then (do
      let d ← regField 32 cd
      let base ← opnd cbase lit
      pure (.lh k d base off))
  else if f = 3 then (do
      let d ← regField 32 cd
      let base ← opnd cbase lit
      pure (.lhu k d base off))
  else if f = 4 then (do
      let d ← regField 32 cd
      let base ← opnd cbase lit
      pure (.lw k d base off))
  else if f = 5 then (do
      let d ← regField 32 cd
      let base ← opnd cbase lit
      pure (.lwu k d base off))
  else if f = 6 then (do
      let d ← regField 32 cd
      let base ← opnd cbase lit
      pure (.ld k d base off))
  else none

/-- Major 0x09 (Table 10.12). -/
def decodeStore (k : Bool) (f : Nat) (cd cbase : BitVec 6) (off : BitVec 9) (lit : BitVec 64) : Option Instr :=
  if f = 0 then (do
      let d ← opnd cd lit
      let base ← opnd cbase lit
      pure (.sb k d base off))
  else if f = 1 then (do
      let d ← opnd cd lit
      let base ← opnd cbase lit
      pure (.sh k d base off))
  else if f = 2 then (do
      let d ← opnd cd lit
      let base ← opnd cbase lit
      pure (.sw k d base off))
  else if f = 3 then (do
      let d ← opnd cd lit
      let base ← opnd cbase lit
      pure (.sd k d base off))
  else none

/-- Major 0x07 (Tables 10.4, 10.11). The legality of the CSR number and of its level depends on the thread and is checked by
the machine (R150, R168). -/
def decodeCsr (k : Bool) (f : Nat) (res : Nat) (csr : BitVec 12) (cd : BitVec 6) (lit : BitVec 64) : Option Instr :=
  if res ≠ 0 then none
  else if f = 0 then (do
      let d ← regField 32 cd
      pure (.csrr k d csr))
  else if f = 1 then (do
      let d ← opnd cd lit
      pure (.csrw k d csr))
  else if f = 2 then (do
      let d ← opnd cd lit
      pure (.csrs k d csr))
  else if f = 3 then (do
      let d ← opnd cd lit
      pure (.csrc k d csr))
  else none

/-- Major 0x0B (Tables 10.5, 10.12): the imm9 field split into scope, direction, size, sign and the two RES0 bits. -/
def decodeOrdered (k : Bool) (f scope dir size sign res : Nat) (ca cd : BitVec 6) (lit : BitVec 64) : Option Instr :=
  if res ≠ 0 then none
  else if f = 0 then (do
      let sc ← scopeOf scope
      unusedField ca
      unusedField cd
      if dir = 0 ∧ size = 0 ∧ sign = 0 then pure (.fence k sc) else none)
  else if f = 1 then (do
      unusedField ca
      unusedField cd
      if scope = 0 ∧ dir = 0 ∧ size = 0 ∧ sign = 0 then pure (.fenceX k) else none)
  else if f = 2 then (do
      let sc ← scopeOf scope
      if dir = 0 then (do
        let kd ← ldKindOf size sign
        let d ← regField 32 cd
        let a ← opnd ca lit
        pure (.loadAcquire k d a sc kd))
      else (do
        let kd ← stKindOf size sign
        let d ← opnd cd lit
        let a ← opnd ca lit
        pure (.storeRelease k d a sc kd)))
  else none

/-- The major opcode of a 32-bit word (Table 10.3). -/
def majorOf (w : BitVec 32) : Nat := (w.extractLsb' 2 6).toNat

/-- Table 10.3 and R144: a 32-bit word with its literal, before the operand checks. -/
def decodeRaw (w : BitVec 32) (lit : BitVec 64) : Option Instr :=
  let k := w.getLsbD 1
  let f3 := (w.extractLsb' 8 3).toNat
  let c1 := w.extractLsb' 11 6
  let c2 := w.extractLsb' 17 6
  let off := w.extractLsb' 23 9
  if majorOf w = 5 then decodeBranch k f3 c1 c2 off lit
  else if majorOf w = 6 then some (.j k (w.extractLsb' 8 24))
  else if majorOf w = 7 then decodeCsr k f3 (w.extractLsb' 29 3).toNat (w.extractLsb' 17 12) c1 lit
  else if majorOf w = 8 then decodeLoad k f3 c1 c2 off lit
  else if majorOf w = 9 then decodeStore k f3 c1 c2 off lit
  else if majorOf w = 11 then
    decodeOrdered k f3 (w.extractLsb' 29 3).toNat (w.extractLsb' 28 1).toNat (w.extractLsb' 26 2).toNat
      (w.extractLsb' 25 1).toNat (w.extractLsb' 23 2).toNat c2 c1 lit
  else decodeG (majorOf w)
    ⟨k, (w.extractLsb' 8 6).toNat, w.extractLsb' 14 6, w.extractLsb' 20 6, w.extractLsb' 26 6, lit⟩

/-- R150: an instruction that passes the operand checks. -/
def Instr.checked (i : Instr) : Option Instr := if i.wellFormed then some i else none

/-- A 32-bit word and its literal as an instruction; none where Table 10.14 makes the word illegal. The fate of a word does
not depend on the literal (R150). -/
def decodeWord (w : BitVec 32) (lit : BitVec 64) : Option Instr :=
  if w.getLsbD 0 then (decodeRaw w lit).bind Instr.checked else none

/-- Tables 10.1 and 10.2: a halfword with bit 0 clear. -/
def decodeHalfRaw (h : BitVec 16) : Instr :=
  let k := h.getLsbD 1
  let op := (h.extractLsb' 2 4).toNat
  let d : Fin 32 := (h.extractLsb' 6 5).toFin
  let s : Fin 32 := (h.extractLsb' 11 5).toFin
  if op = 0 then .vfadd16 k d s
  else if op = 1 then .vfsub16 k d s
  else if op = 2 then .vfmul16 k d s
  else if op = 3 then .vfmax16 k d s
  else if op = 4 then .vfmin16 k d s
  else if op = 5 then .vadd16 k d s
  else if op = 6 then .vsub16 k d s
  else if op = 7 then .vmul16 k d s
  else if op = 8 then .vand16 k d s
  else if op = 9 then .vor16 k d s
  else if op = 10 then .vxor16 k d s
  else if op = 11 then .vshl16 k d s
  else if op = 12 then .vshr16 k d s
  else if op = 13 then .vshra16 k d s
  else if op = 14 then .vmax16 k d s
  else .vmov16 k d s

/-- R140: a 16-bit instruction; the halfword 0x0000 is none. -/
def decodeHalf (h : BitVec 16) : Option Instr :=
  if h.getLsbD 0 then none else (decodeHalfRaw h).checked

/-- The literal bytes that an operand code asks for (R138). -/
def codeLitBytes (c : BitVec 6) : Nat := if c.toNat = 62 then 4 else if c.toNat = 63 then 8 else 0

/-- The literal bytes after a legal word: those of the one operand field that holds code 62 or 63 (Table 10.6, R138). -/
def wordLitBytes (w : BitVec 32) : Nat :=
  let c1 := w.extractLsb' 11 6
  let c2 := w.extractLsb' 17 6
  if majorOf w = 6 then 0
  else if majorOf w = 7 then codeLitBytes c1
  else if majorOf w = 5 ∨ majorOf w = 8 ∨ majorOf w = 9 ∨ majorOf w = 11 then max (codeLitBytes c1) (codeLitBytes c2)
  else max (codeLitBytes (w.extractLsb' 14 6)) (max (codeLitBytes (w.extractLsb' 20 6)) (codeLitBytes (w.extractLsb' 26 6)))

/-- A little-endian value of bytes (R4). -/
def leValue : List Byte → Nat
  | [] => 0
  | b :: bs => b.toNat + 256 * leValue bs

/-- The n bytes of a value, least significant first (R4). -/
def leBytes : Nat → Nat → List Byte
  | 0, _ => []
  | n + 1, v => BitVec.ofNat 8 v :: leBytes n (v / 256)

/-- R138: the instruction at the head of a list of bytes, and the bytes that follow it. -/
def decodeBytes (bs : List Byte) : Except DecodeError (Instr × List Byte) :=
  match bs with
  | b0 :: b1 :: r =>
    let h : BitVec 16 := b1 ++ b0
    if h.getLsbD 0 = false then
      match decodeHalf h with
      | some i => .ok (i, r)
      | none => .error (.illegalHalf h)
    else match r with
      | b2 :: b3 :: r' =>
        let w : BitVec 32 := b3 ++ b2 ++ h
        match decodeWord w 0 with
        | none => .error (.illegalWord w)
        | some _ =>
          let n := wordLitBytes w
          if r'.length < n then .error .truncated
          else match decodeWord w (BitVec.ofNat 64 (leValue (r'.take n))) with
            | some i => .ok (i, r'.drop n)
            | none => .error (.illegalWord w)
      | _ => .error .truncated
  | _ => .error .truncated

/-- The instruction that an opcode-table word of nbits bits stands for, all later bits 0. -/
def decodeTableWord (nbits w : Nat) : Option Instr :=
  match decodeBytes (leBytes 12 (w % 2 ^ nbits)) with
  | .ok (i, _) => some i
  | .error _ => none

/-! ## The encoder -/

/-- Table 10.7: the code of an operand. -/
def Opnd.code : Opnd → Nat
  | .reg n => n.val
  | .const c => 32 + c.val
  | .lit32 _ => 62
  | .lit64 _ => 63

/-- The literal bytes of an operand. -/
def Opnd.litBytes : Opnd → Nat
  | .lit32 _ => 4
  | .lit64 _ => 8
  | _ => 0

/-- The literal value of an operand. -/
def Opnd.lit : Opnd → BitVec 64
  | .lit32 w => w.setWidth 64
  | .lit64 w => w
  | _ => 0

def FType.code : FType → Nat
  | .f32 => 0 | .bf16 => 1 | .f16 => 2 | .fp8a => 3 | .fp8b => 4
def LType.code : LType → Nat
  | .f32 => 0 | .bf16 => 1 | .f16 => 2 | .fp8a => 3 | .fp8b => 4 | .i32 => 5 | .i16 => 6 | .i8 => 7
def Width.code : Width → Nat
  | .w4 => 0 | .w2 => 1 | .w1 => 2
def Pack.code : Pack → Nat
  | .e4m3 => 0 | .e5m2 => 1 | .int8 => 2 | .int4 => 3 | .o4 => 4
def MFmt.code : MFmt → Nat
  | .bf16 => 0 | .f16 => 1 | .fp8a => 2 | .fp8b => 3 | .i8 => 4 | .i4 => 5 | .o4 => 6
def Scope.code : Scope → Nat
  | .th => 0 | .core => 1 | .cl => 2 | .dev => 3 | .sys => 4
def Ord.code : Ord → Nat
  | .none => 0 | .cl => 1 | .dev => 2 | .sys => 3
def RedOp.code : RedOp → Nat
  | .sum => 32 | .max => 33 | .min => 34
/-- SIZE of Table 10.5. -/
def LdKind.size : LdKind → Nat
  | .b => 0 | .bu => 0 | .h => 1 | .hu => 1 | .w => 2 | .wu => 2 | .d => 3
/-- SIGN of Table 10.5. -/
def LdKind.sign : LdKind → Nat
  | .b => 1 | .h => 1 | .w => 1 | _ => 0
def StKind.size : StKind → Nat
  | .b => 0 | .h => 1 | .w => 2 | .d => 3

/-- A 6-bit field. -/
def fld6 (n : Nat) : BitVec 6 := BitVec.ofNat 6 n

/-- The low eight bits of a 32-bit word: major, A and the length bit (R141). -/
def lowByte (major : Nat) (k : Bool) : BitVec 8 := fld6 major ++ (BitVec.ofBool k ++ (1#1))

/-- A word in format G or E (Table 10.3). -/
def gWord (k : Bool) (major funct d a b : Nat) : BitVec 32 :=
  fld6 b ++ (fld6 a ++ (fld6 d ++ (fld6 funct ++ lowByte major k)))

/-- A word in format I, M or B (Table 10.3). -/
def mWord (k : Bool) (major f3 c1 c2 : Nat) (off : BitVec 9) : BitVec 32 :=
  off ++ (fld6 c2 ++ (fld6 c1 ++ (BitVec.ofNat 3 f3 ++ lowByte major k)))

/-- A word of major 0x07 (Table 10.4). -/
def csrWord (k : Bool) (f3 c1 : Nat) (csr : BitVec 12) : BitVec 32 :=
  (0#3) ++ (csr ++ (fld6 c1 ++ (BitVec.ofNat 3 f3 ++ lowByte 7 k)))

/-- imm9 of major 0x0B (Table 10.5). -/
def imm9 (scope dir size sign : Nat) : BitVec 9 :=
  BitVec.ofNat 3 scope ++ (BitVec.ofNat 1 dir ++ (BitVec.ofNat 2 size ++ (BitVec.ofNat 1 sign ++ (0#2))))

/-- A word of the J format (Table 10.3). -/
def jWord (k : Bool) (off : BitVec 24) : BitVec 32 := off ++ lowByte 6 k

/-- A halfword of the 16-bit form (Table 10.1). -/
def halfWord (k : Bool) (op : Nat) (d s : Fin 32) : BitVec 16 :=
  BitVec.ofFin (w := 5) s ++ (BitVec.ofFin (w := 5) d ++ (BitVec.ofNat 4 op ++ (BitVec.ofBool k ++ (0#1))))

/-- The first word of a 32-bit instruction (Tables 10.3 to 10.5, 10.11 to 10.13); the 16-bit forms and the rows without bits
have none and answer 0. -/
def encodeWord (i : Instr) : BitVec 32 :=
  match i with
  | .add k d a b => gWord k 0 0 d.val a.code b.code
  | .sub k d a b => gWord k 0 1 d.val a.code b.code
  | .and k d a b => gWord k 0 2 d.val a.code b.code
  | .or k d a b => gWord k 0 3 d.val a.code b.code
  | .xor k d a b => gWord k 0 4 d.val a.code b.code
  | .andn k d a b => gWord k 0 5 d.val a.code b.code
  | .min k d a b => gWord k 0 6 d.val a.code b.code
  | .max k d a b => gWord k 0 7 d.val a.code b.code
  | .minu k d a b => gWord k 0 8 d.val a.code b.code
  | .maxu k d a b => gWord k 0 9 d.val a.code b.code
  | .li k d b => gWord k 0 10 d.val 0 b.code
  | .mul k d a b => gWord k 1 0 d.val a.code b.code
  | .mulh k d a b => gWord k 1 1 d.val a.code b.code
  | .mulhu k d a b => gWord k 1 2 d.val a.code b.code
  | .div k d a b => gWord k 1 3 d.val a.code b.code
  | .divu k d a b => gWord k 1 4 d.val a.code b.code
  | .rem k d a b => gWord k 1 5 d.val a.code b.code
  | .remu k d a b => gWord k 1 6 d.val a.code b.code
  | .sll k d a b => gWord k 2 0 d.val a.code b.code
  | .srl k d a b => gWord k 2 1 d.val a.code b.code
  | .sra k d a b => gWord k 2 2 d.val a.code b.code
  | .clz k d a => gWord k 2 3 d.val a.code 0
  | .ctz k d a => gWord k 2 4 d.val a.code 0
  | .popc k d a => gWord k 2 5 d.val a.code 0
  | .exts k d a b => gWord k 2 6 d.val a.code b.code
  | .extz k d a b => gWord k 2 7 d.val a.code b.code
  | .bfext k d a b => gWord k 2 8 d.val a.code b.code
  | .bfins k d a b => gWord k 2 9 d.val a.code b.code
  | .seq k d a b => gWord k 3 0 d.val a.code b.code
  | .slt k d a b => gWord k 3 1 d.val a.code b.code
  | .sltu k d a b => gWord k 3 2 d.val a.code b.code
  | .sel k d a b => gWord k 3 3 d.val a.code b.code
  | .lea k d b => gWord k 4 0 d.val 0 b.code
  | .apcvt k d a b => gWord k 4 1 d.val a.code b.code
  | .aptest k d a => gWord k 4 2 d.val a.code 0
  | .beq k a b off => mWord k 5 0 a.code b.code off
  | .bne k a b off => mWord k 5 1 a.code b.code off
  | .blt k a b off => mWord k 5 2 a.code b.code off
  | .bge k a b off => mWord k 5 3 a.code b.code off
  | .bltu k a b off => mWord k 5 4 a.code b.code off
  | .bgeu k a b off => mWord k 5 5 a.code b.code off
  | .jal k a b off => mWord k 5 6 a.val b.code off
  | .jalr k a b off => mWord k 5 7 a.val b.code off
  | .j k off => jWord k off
  | .csrr k d csr => csrWord k 0 d.val csr
  | .csrw k d csr => csrWord k 1 d.code csr
  | .csrs k d csr => csrWord k 2 d.code csr
  | .csrc k d csr => csrWord k 3 d.code csr
  | .lb k d base off => mWord k 8 0 d.val base.code off
  | .lbu k d base off => mWord k 8 1 d.val base.code off
  | .lh k d base off => mWord k 8 2 d.val base.code off
  | .lhu k d base off => mWord k 8 3 d.val base.code off
  | .lw k d base off => mWord k 8 4 d.val base.code off
  | .lwu k d base off => mWord k 8 5 d.val base.code off
  | .ld k d base off => mWord k 8 6 d.val base.code off
  | .sb k d base off => mWord k 9 0 d.code base.code off
  | .sh k d base off => mWord k 9 1 d.code base.code off
  | .sw k d base off => mWord k 9 2 d.code base.code off
  | .sd k d base off => mWord k 9 3 d.code base.code off
  | .loadAcquire k d a scope kind => mWord k 11 2 d.val a.code (imm9 scope.code 0 kind.size kind.sign)
  | .storeRelease k d a scope kind => mWord k 11 2 d.code a.code (imm9 scope.code 1 kind.size 0)
  | .fence k scope => mWord k 11 0 0 0 (imm9 scope.code 0 0 0)
  | .fenceX k => mWord k 11 1 0 0 (imm9 0 0 0 0)
  | .amoadd k d a b ord => gWord k 10 (0 + 1 * ord.code) d.val a.code b.code
  | .amoand k d a b ord => gWord k 10 (4 + 1 * ord.code) d.val a.code b.code
  | .amoor k d a b ord => gWord k 10 (8 + 1 * ord.code) d.val a.code b.code
  | .amoxor k d a b ord => gWord k 10 (12 + 1 * ord.code) d.val a.code b.code
  | .amomin k d a b ord => gWord k 10 (16 + 1 * ord.code) d.val a.code b.code
  | .amomax k d a b ord => gWord k 10 (20 + 1 * ord.code) d.val a.code b.code
  | .amominu k d a b ord => gWord k 10 (24 + 1 * ord.code) d.val a.code b.code
  | .amomaxu k d a b ord => gWord k 10 (28 + 1 * ord.code) d.val a.code b.code
  | .amoswap k d a b ord => gWord k 10 (32 + 1 * ord.code) d.val a.code b.code
  | .amocas k d a b ord => gWord k 10 (36 + 1 * ord.code) d.val a.code b.code
  | .amofadd k d a b ord => gWord k 10 (40 + 1 * ord.code) d.val a.code b.code
  | .tld k d a => gWord k 12 0 d.val a.code 0
  | .tst k a b => gWord k 12 1 0 a.code b.code
  | .tcas k d a b => gWord k 12 2 d.val a.code b.code
  | .ttabWr k a b => gWord k 12 3 0 a.code b.code
  | .ttabRd k d a => gWord k 12 4 d.val a.code 0
  | .ttabSwap k a => gWord k 12 5 0 a.code 0
  | .msend k a b => gWord k 13 0 0 a.code b.code
  | .mrecv k d => gWord k 13 1 d.val 0 0
  | .mpoll k d => gWord k 13 2 d.val 0 0
  | .mloop k d a => gWord k 13 3 d.val a.code 0
  | .mcount k d => gWord k 13 4 d.val 0 0
  | .sigEmit k a b => gWord k 14 0 0 a.code b.code
  | .sigSkip k a => gWord k 14 1 0 a.code 0
  | .sigTest k d a => gWord k 14 2 d.val a.code 0
  | .sigVal k d a => gWord k 14 3 d.val a.code 0
  | .bpres k a b => gWord k 14 4 0 a.code b.code
  | .babs k a b => gWord k 14 5 0 a.code b.code
  | .pause k => gWord k 14 6 0 0 0
  | .dset k d b => gWord k 14 7 d.val 0 b.code
  | .dget k d a => gWord k 14 8 d.val a.val 0
  | .irec k d b => gWord k 14 9 d.val 0 b.code
  | .xsendAt k a b => gWord k 15 0 0 a.code b.code
  | .xend k => gWord k 15 1 0 0 0
  | .xslot k d => gWord k 15 2 d.val 0 0
  | .vfadd k d a b lt => gWord k 16 (0 + 8 * lt.code) d.val a.code b.code
  | .vfsub k d a b lt => gWord k 16 (1 + 8 * lt.code) d.val a.code b.code
  | .vfmul k d a b lt => gWord k 16 (2 + 8 * lt.code) d.val a.code b.code
  | .vfma k d a b lt => gWord k 16 (3 + 8 * lt.code) d.val a.code b.code
  | .vfmax k d a b lt => gWord k 16 (4 + 8 * lt.code) d.val a.code b.code
  | .vfmin k d a b lt => gWord k 16 (5 + 8 * lt.code) d.val a.code b.code
  | .vfcmpEq k d a b lt => gWord k 16 (6 + 8 * lt.code) d.val a.code b.code
  | .vfcmpLt k d a b lt => gWord k 16 (7 + 8 * lt.code) d.val a.code b.code
  | .vadd k d a b w => gWord k 17 (0 + 16 * w.code) d.val a.code b.code
  | .vsub k d a b w => gWord k 17 (1 + 16 * w.code) d.val a.code b.code
  | .vmul k d a b w => gWord k 17 (2 + 16 * w.code) d.val a.code b.code
  | .vmin k d a b w => gWord k 17 (3 + 16 * w.code) d.val a.code b.code
  | .vmax k d a b w => gWord k 17 (4 + 16 * w.code) d.val a.code b.code
  | .vand k d a b w => gWord k 17 (5 + 16 * w.code) d.val a.code b.code
  | .vor k d a b w => gWord k 17 (6 + 16 * w.code) d.val a.code b.code
  | .vxor k d a b w => gWord k 17 (7 + 16 * w.code) d.val a.code b.code
  | .vshl k d a b w => gWord k 17 (8 + 16 * w.code) d.val a.code b.code
  | .vshr k d a b w => gWord k 17 (9 + 16 * w.code) d.val a.code b.code
  | .vshra k d a b w => gWord k 17 (10 + 16 * w.code) d.val a.code b.code
  | .vcmpEq k d a b w => gWord k 17 (11 + 16 * w.code) d.val a.code b.code
  | .vcmpLt k d a b w => gWord k 17 (12 + 16 * w.code) d.val a.code b.code
  | .vsel k d a b w => gWord k 17 (13 + 16 * w.code) d.val a.code b.code
  | .vmov k d b w => gWord k 17 (14 + 16 * w.code) d.val 0 b.code
  | .vbcast k d b w => gWord k 17 (15 + 16 * w.code) d.val 0 b.code
  | .vfadd16 _ _ _ => 0
  | .vfsub16 _ _ _ => 0
  | .vfmul16 _ _ _ => 0
  | .vfmax16 _ _ _ => 0
  | .vfmin16 _ _ _ => 0
  | .vadd16 _ _ _ => 0
  | .vsub16 _ _ _ => 0
  | .vmul16 _ _ _ => 0
  | .vand16 _ _ _ => 0
  | .vor16 _ _ _ => 0
  | .vxor16 _ _ _ => 0
  | .vshl16 _ _ _ => 0
  | .vshr16 _ _ _ => 0
  | .vshra16 _ _ _ => 0
  | .vmax16 _ _ _ => 0
  | .vmov16 _ _ _ => 0
  | .vcvt k d a src t => gWord k 18 (0 + 1 * t.code) d.val a.code (32 + src.code)
  | .vquant k d a b pk => gWord k 18 (8 + 1 * pk.code) d.val a.val b.val
  | .vdeq k d a b pk => gWord k 18 (16 + 1 * pk.code) d.val a.code b.val
  | .vpack k d a b t => gWord k 18 (24 + 1 * t.code) d.val a.code b.code
  | .vunpack k d a part t => gWord k 18 (32 + 1 * t.code) d.val a.code (32 + part.val)
  | .vperm k d a b lt => gWord k 19 (0 + 8 * lt.code) d.val a.code b.code
  | .vshuf k d a b lt => gWord k 19 (1 + 8 * lt.code) d.val a.code b.code
  | .vred k d a red lt => gWord k 19 (2 + 8 * lt.code) d.val a.code red.code
  | .vscan k d a red lt => gWord k 19 (3 + 8 * lt.code) d.val a.code red.code
  | .vextr k d a b lt => gWord k 19 (4 + 8 * lt.code) d.val a.code b.code
  | .vins k d a b lt => gWord k 19 (5 + 8 * lt.code) d.val a.code b.code
  | .vld k d a b e col => gWord k 20 (0 + 4 * col.toNat + e.code) d.val a.code b.code
  | .vst k d a b e col => gWord k 20 (8 + 4 * col.toNat + e.code) d.code a.code b.code
  | .vlds k d a b e => gWord k 20 (16 + 1 * e.code) d.val a.code b.code
  | .vsts k d a b e => gWord k 20 (24 + 1 * e.code) d.code a.code b.code
  | .vldx k d a b e => gWord k 20 (32 + 1 * e.code) d.val a.code b.code
  | .vstx k d a b e => gWord k 20 (40 + 1 * e.code) d.code a.code b.code
  | .sgCfg k d a b => gWord k 21 0 d.val a.code b.code
  | .sgIdx k d a => gWord k 21 1 d.val a.val 0
  | .sgStop k a => gWord k 21 2 0 a.val 0
  | .sread k d a => gWord k 21 3 d.val a.val 0
  | .swrite k d a => gWord k 21 4 d.val a.code 0
  | .rep k a b => gWord k 21 5 0 a.code b.code
  | .vfexp2 k d a => gWord k 22 0 d.val a.code 0
  | .vfrcp k d a => gWord k 22 1 d.val a.code 0
  | .vfrsq k d a => gWord k 22 2 d.val a.code 0
  | .vflog2 k d a => gWord k 22 3 d.val a.code 0
  | .vfabs k d a lt => gWord k 22 (4 + 8 * lt.code) d.val a.code 0
  | .vfneg k d a lt => gWord k 22 (5 + 8 * lt.code) d.val a.code 0
  | .vfcmpLe k d a b lt => gWord k 22 (6 + 8 * lt.code) d.val a.code b.code
  | .vfcmpUn k d a b lt => gWord k 22 (7 + 8 * lt.code) d.val a.code b.code
  | .mset k d b => gWord k 23 0 d.val 0 b.code
  | .mand k d a b => gWord k 23 1 d.val a.code b.code
  | .mor k d a b => gWord k 23 2 d.val a.code b.code
  | .mnot k d a => gWord k 23 3 d.val a.code 0
  | .mpopc k d a => gWord k 23 4 d.val a.code 0
  | .mfirst k d a => gWord k 23 5 d.val a.code 0
  | .mxCfg k a b mf => gWord k 24 (0 + 1 * mf.code) 0 a.code b.code
  | .mxLdw k a b => gWord k 24 8 0 a.code b.code
  | .mxSwap k => gWord k 24 16 0 0 0
  | .mxDup k a => gWord k 24 24 0 a.code 0
  | .mxStream k d a b => gWord k 24 32 d.val a.code b.code
  | .mxZero k d => gWord k 24 40 d.val 0 0
  | .mxDrain k d a b => gWord k 24 48 d.val a.code b.code
  | .dret k => gWord k 25 0 0 0 0
  | .mxWait k => gWord k 25 1 0 0 0
  | .attnQld k a b => gWord k 26 0 0 a.code b.code
  | .attnRun k a b => gWord k 26 1 0 a.code b.code
  | .attnMerge k a => gWord k 26 2 0 a.code 0
  | .attnFin k a b => gWord k 26 3 0 a.code b.code
  | .attnSt k a => gWord k 26 4 0 a.code 0
  | .cmAppend k a => gWord k 27 0 0 a.code 0
  | .cmFill k d a b => gWord k 27 1 d.val a.code b.code
  | .cmFree k d a b => gWord k 27 2 d.val a.code b.code
  | .cmLookup k d a b => gWord k 27 3 d.val a.code b.code
  | .cmShare k d a => gWord k 27 4 d.val a.code 0
  | .cmInval k => gWord k 27 5 0 0 0
  | .xfGo k d => gWord k 28 0 d.val 0 0
  | .xfCancel k d a => gWord k 28 1 d.val a.code 0
  | .yield k => gWord k 29 0 0 0 0
  | .nexit k => gWord k 29 1 0 0 0
  | .phint k a b => gWord k 29 2 0 a.code b.code
  | .uiret k => gWord k 29 3 0 0 0
  | .fadd k d a b p => gWord k 30 (0 + 32 * p.toNat) d.val a.code b.code
  | .fsub k d a b p => gWord k 30 (1 + 32 * p.toNat) d.val a.code b.code
  | .fmul k d a b p => gWord k 30 (2 + 32 * p.toNat) d.val a.code b.code
  | .ffma k d a b p => gWord k 30 (3 + 32 * p.toNat) d.val a.code b.code
  | .fdiv k d a b p => gWord k 30 (4 + 32 * p.toNat) d.val a.code b.code
  | .fsqrt k d a p => gWord k 30 (5 + 32 * p.toNat) d.val a.code 0
  | .fmin k d a b p => gWord k 30 (6 + 32 * p.toNat) d.val a.code b.code
  | .fmax k d a b p => gWord k 30 (7 + 32 * p.toNat) d.val a.code b.code
  | .fcmpEq k d a b p => gWord k 30 (8 + 32 * p.toNat) d.val a.code b.code
  | .fcmpLt k d a b p => gWord k 30 (9 + 32 * p.toNat) d.val a.code b.code
  | .fcmpLe k d a b p => gWord k 30 (10 + 32 * p.toNat) d.val a.code b.code
  | .fcvtPrecision k d a p => gWord k 30 (11 + 32 * p.toNat) d.val a.code 0
  | .fcvtToInt k d a p => gWord k 30 (12 + 32 * p.toNat) d.val a.code 0
  | .fcvtFromInt k d a p => gWord k 30 (13 + 32 * p.toNat) d.val a.code 0
  | .ecall k => gWord k 31 0 0 0 0
  | .ebreak k => gWord k 31 1 0 0 0
  | .mret k => gWord k 31 2 0 0 0
  | .sret k => gWord k 31 3 0 0 0
  | .wfi k => gWord k 31 4 0 0 0
  | .tlbWr k d a b => gWord k 31 5 d.val a.code b.code
  | .tlbInv k d a b => gWord k 31 6 d.val a.code b.code
  | .xlateDrain k a b => gWord k 31 7 0 a.code b.code
  | .mxSave k a => gWord k 31 8 0 a.code 0
  | .mxLoad k d a => gWord k 31 9 d.val a.code 0
  | .ctxHalt k d a b => gWord k 31 10 d.val a.code b.code
  | .ctxSave k d a b => gWord k 31 11 d.val a.code b.code
  | .registerWrite _ _ _ _ => 0
  | .tagmapWrite _ _ _ => 0
  | .bankfmtWrite _ _ _ => 0
  | .remoteAccessArrival _ => 0
  | .storeAcknowledge _ _ => 0
  | .parkRecheck _ _ => 0
  | .heldAccessRecheck _ => 0
  | .inboxArrival _ => 0
  | .spillWake _ => 0
  | .userInterruptEntry _ _ => 0
  | .interruptTake _ _ => 0
  | .trapReportDelivery _ => 0
  | .resolveRetry _ => 0
  | .resolveSkip _ => 0
  | .resolveAbort _ => 0
  | .causalityCycle _ => 0
  | .reactHalfEnd _ => 0
  | .exchangeHalfStart _ => 0
  | .exchangeBeatSend _ => 0
  | .exchangeArrival _ => 0
  | .latch _ => 0
  | .matrixCommandStart _ => 0
  | .drainDispatch _ => 0
  | .transferStart _ => 0
  | .transferCompletion _ _ => 0
  | .tlbMissMessage _ => 0
  | .dirtyNotice _ => 0
  | .gridDeadlock _ => 0
  | .haltWatchdog _ => 0
  | .runTimeLimit _ => 0
  | .notifyScan _ => 0
  | .periodicQueueScan _ => 0
  | .packetLaunch _ => 0
  | .packetNop _ => 0
  | .packetMark _ => 0
  | .packetQueueCreate _ => 0
  | .packetQueueDestroy _ => 0
  | .groupDispatch _ => 0
  | .gridCompletion _ => 0
  | .errorEvent _ => 0
  | .saveEngine _ => 0
  | .restoreRequest _ _ _ => 0
  | .scrubRead _ _ _ => 0
  | .bankFailed _ _ _ => 0
  | .clockStretch _ => 0
  | .keyLoad _ _ _ _ => 0
  | .keyClear _ => 0
  | .getVersion _ _ => 0
  | .getCapabilities _ _ => 0
  | .negotiateAlgorithms _ _ => 0
  | .getDigests _ _ => 0
  | .getCertificate _ _ => 0
  | .challenge _ _ => 0
  | .getMeasurements _ _ => 0
  | .spdmUnsupportedRequest _ _ => 0
  | .debugNonce => 0
  | .debugUnlock _ _ _ => 0
  | .debugArm _ _ => 0
  | .debugStop _ _ _ _ => 0
  | .debugStopReached _ => 0
  | .debugRead _ _ _ => 0
  | .debugResume _ => 0
  | .debugDisarm _ => 0
  | .runLengthLogAppend _ _ _ => 0
  | .functionLevelReset _ => 0
  | .bar2Access _ _ _ _ => 0
  | .devidWrite _ => 0
  | .flitSend _ _ _ => 0
  | .flitReceive _ _ _ => 0
  | .auditFlit _ _ _ _ => 0
  | .partclWrite _ _ _ => 0
  | .orbitWrite _ _ => 0
  | .orbitUpdateApply => 0
  | .gdwdWrite _ _ => 0
  | .partownWrite _ _ => 0
  | .haltwdWrite _ _ => 0
  | .bringUp _ => 0
  | .remoteAccessReply _ _ => 0
  | .matrixCommandCompletion _ => 0
  | .monitorTimerExpiry _ => 0
  | .schedulerTimerExpiry _ => 0
  | .illegalInstruction _ => 0
  | .instructionFetchFault _ _ => 0

/-- The halfword of a 16-bit instruction (Table 10.2). -/
def encodeHalf (i : Instr) : BitVec 16 :=
  match i with
  | .vfadd16 k d s => halfWord k 0 d s
  | .vfsub16 k d s => halfWord k 1 d s
  | .vfmul16 k d s => halfWord k 2 d s
  | .vfmax16 k d s => halfWord k 3 d s
  | .vfmin16 k d s => halfWord k 4 d s
  | .vadd16 k d s => halfWord k 5 d s
  | .vsub16 k d s => halfWord k 6 d s
  | .vmul16 k d s => halfWord k 7 d s
  | .vand16 k d s => halfWord k 8 d s
  | .vor16 k d s => halfWord k 9 d s
  | .vxor16 k d s => halfWord k 10 d s
  | .vshl16 k d s => halfWord k 11 d s
  | .vshr16 k d s => halfWord k 12 d s
  | .vshra16 k d s => halfWord k 13 d s
  | .vmax16 k d s => halfWord k 14 d s
  | .vmov16 k d s => halfWord k 15 d s
  | _ => 0

/-- Whether an instruction has the 16-bit form (R140). -/
def Instr.isHalf (i : Instr) : Bool :=
  match i with
  | .vfadd16 _ _ _ => true
  | .vfsub16 _ _ _ => true
  | .vfmul16 _ _ _ => true
  | .vfmax16 _ _ _ => true
  | .vfmin16 _ _ _ => true
  | .vadd16 _ _ _ => true
  | .vsub16 _ _ _ => true
  | .vmul16 _ _ _ => true
  | .vand16 _ _ _ => true
  | .vor16 _ _ _ => true
  | .vxor16 _ _ _ => true
  | .vshl16 _ _ _ => true
  | .vshr16 _ _ _ => true
  | .vshra16 _ _ _ => true
  | .vmax16 _ _ _ => true
  | .vmov16 _ _ _ => true
  | _ => false

/-- The operands of an instruction that may hold a literal. -/
def Instr.sources (i : Instr) : List Opnd :=
  match i with
  | .add _ _ a b => [a, b]
  | .sub _ _ a b => [a, b]
  | .and _ _ a b => [a, b]
  | .or _ _ a b => [a, b]
  | .xor _ _ a b => [a, b]
  | .andn _ _ a b => [a, b]
  | .min _ _ a b => [a, b]
  | .max _ _ a b => [a, b]
  | .minu _ _ a b => [a, b]
  | .maxu _ _ a b => [a, b]
  | .li _ _ b => [b]
  | .mul _ _ a b => [a, b]
  | .mulh _ _ a b => [a, b]
  | .mulhu _ _ a b => [a, b]
  | .div _ _ a b => [a, b]
  | .divu _ _ a b => [a, b]
  | .rem _ _ a b => [a, b]
  | .remu _ _ a b => [a, b]
  | .sll _ _ a b => [a, b]
  | .srl _ _ a b => [a, b]
  | .sra _ _ a b => [a, b]
  | .clz _ _ a => [a]
  | .ctz _ _ a => [a]
  | .popc _ _ a => [a]
  | .exts _ _ a b => [a, b]
  | .extz _ _ a b => [a, b]
  | .bfext _ _ a b => [a, b]
  | .bfins _ _ a b => [a, b]
  | .seq _ _ a b => [a, b]
  | .slt _ _ a b => [a, b]
  | .sltu _ _ a b => [a, b]
  | .sel _ _ a b => [a, b]
  | .lea _ _ b => [b]
  | .apcvt _ _ a b => [a, b]
  | .aptest _ _ a => [a]
  | .beq _ a b _ => [a, b]
  | .bne _ a b _ => [a, b]
  | .blt _ a b _ => [a, b]
  | .bge _ a b _ => [a, b]
  | .bltu _ a b _ => [a, b]
  | .bgeu _ a b _ => [a, b]
  | .jal _ _ b _ => [b]
  | .jalr _ _ b _ => [b]
  | .j _ _ => []
  | .csrr _ _ _ => []
  | .csrw _ d _ => [d]
  | .csrs _ d _ => [d]
  | .csrc _ d _ => [d]
  | .lb _ _ base _ => [base]
  | .lbu _ _ base _ => [base]
  | .lh _ _ base _ => [base]
  | .lhu _ _ base _ => [base]
  | .lw _ _ base _ => [base]
  | .lwu _ _ base _ => [base]
  | .ld _ _ base _ => [base]
  | .sb _ d base _ => [d, base]
  | .sh _ d base _ => [d, base]
  | .sw _ d base _ => [d, base]
  | .sd _ d base _ => [d, base]
  | .loadAcquire _ _ a _ _ => [a]
  | .storeRelease _ d a _ _ => [d, a]
  | .fence _ _ => []
  | .fenceX _ => []
  | .amoadd _ _ a b _ => [a, b]
  | .amoand _ _ a b _ => [a, b]
  | .amoor _ _ a b _ => [a, b]
  | .amoxor _ _ a b _ => [a, b]
  | .amomin _ _ a b _ => [a, b]
  | .amomax _ _ a b _ => [a, b]
  | .amominu _ _ a b _ => [a, b]
  | .amomaxu _ _ a b _ => [a, b]
  | .amoswap _ _ a b _ => [a, b]
  | .amocas _ _ a b _ => [a, b]
  | .amofadd _ _ a b _ => [a, b]
  | .tld _ _ a => [a]
  | .tst _ a b => [a, b]
  | .tcas _ _ a b => [a, b]
  | .ttabWr _ a b => [a, b]
  | .ttabRd _ _ a => [a]
  | .ttabSwap _ a => [a]
  | .msend _ a b => [a, b]
  | .mrecv _ _ => []
  | .mpoll _ _ => []
  | .mloop _ _ a => [a]
  | .mcount _ _ => []
  | .sigEmit _ a b => [a, b]
  | .sigSkip _ a => [a]
  | .sigTest _ _ a => [a]
  | .sigVal _ _ a => [a]
  | .bpres _ a b => [a, b]
  | .babs _ a b => [a, b]
  | .pause _ => []
  | .dset _ _ b => [b]
  | .dget _ _ _ => []
  | .irec _ _ b => [b]
  | .xsendAt _ a b => [a, b]
  | .xend _ => []
  | .xslot _ _ => []
  | .vfadd _ _ a b _ => [a, b]
  | .vfsub _ _ a b _ => [a, b]
  | .vfmul _ _ a b _ => [a, b]
  | .vfma _ _ a b _ => [a, b]
  | .vfmax _ _ a b _ => [a, b]
  | .vfmin _ _ a b _ => [a, b]
  | .vfcmpEq _ _ a b _ => [a, b]
  | .vfcmpLt _ _ a b _ => [a, b]
  | .vadd _ _ a b _ => [a, b]
  | .vsub _ _ a b _ => [a, b]
  | .vmul _ _ a b _ => [a, b]
  | .vmin _ _ a b _ => [a, b]
  | .vmax _ _ a b _ => [a, b]
  | .vand _ _ a b _ => [a, b]
  | .vor _ _ a b _ => [a, b]
  | .vxor _ _ a b _ => [a, b]
  | .vshl _ _ a b _ => [a, b]
  | .vshr _ _ a b _ => [a, b]
  | .vshra _ _ a b _ => [a, b]
  | .vcmpEq _ _ a b _ => [a, b]
  | .vcmpLt _ _ a b _ => [a, b]
  | .vsel _ _ a b _ => [a, b]
  | .vmov _ _ b _ => [b]
  | .vbcast _ _ b _ => [b]
  | .vfadd16 _ _ _ => []
  | .vfsub16 _ _ _ => []
  | .vfmul16 _ _ _ => []
  | .vfmax16 _ _ _ => []
  | .vfmin16 _ _ _ => []
  | .vadd16 _ _ _ => []
  | .vsub16 _ _ _ => []
  | .vmul16 _ _ _ => []
  | .vand16 _ _ _ => []
  | .vor16 _ _ _ => []
  | .vxor16 _ _ _ => []
  | .vshl16 _ _ _ => []
  | .vshr16 _ _ _ => []
  | .vshra16 _ _ _ => []
  | .vmax16 _ _ _ => []
  | .vmov16 _ _ _ => []
  | .vcvt _ _ a _ _ => [a]
  | .vquant _ _ _ _ _ => []
  | .vdeq _ _ a _ _ => [a]
  | .vpack _ _ a b _ => [a, b]
  | .vunpack _ _ a _ _ => [a]
  | .vperm _ _ a b _ => [a, b]
  | .vshuf _ _ a b _ => [a, b]
  | .vred _ _ a _ _ => [a]
  | .vscan _ _ a _ _ => [a]
  | .vextr _ _ a b _ => [a, b]
  | .vins _ _ a b _ => [a, b]
  | .vld _ _ a b _ _ => [a, b]
  | .vst _ d a b _ _ => [d, a, b]
  | .vlds _ _ a b _ => [a, b]
  | .vsts _ d a b _ => [d, a, b]
  | .vldx _ _ a b _ => [a, b]
  | .vstx _ d a b _ => [d, a, b]
  | .sgCfg _ _ a b => [a, b]
  | .sgIdx _ _ _ => []
  | .sgStop _ _ => []
  | .sread _ _ _ => []
  | .swrite _ _ a => [a]
  | .rep _ a b => [a, b]
  | .vfexp2 _ _ a => [a]
  | .vfrcp _ _ a => [a]
  | .vfrsq _ _ a => [a]
  | .vflog2 _ _ a => [a]
  | .vfabs _ _ a _ => [a]
  | .vfneg _ _ a _ => [a]
  | .vfcmpLe _ _ a b _ => [a, b]
  | .vfcmpUn _ _ a b _ => [a, b]
  | .mset _ _ b => [b]
  | .mand _ _ a b => [a, b]
  | .mor _ _ a b => [a, b]
  | .mnot _ _ a => [a]
  | .mpopc _ _ a => [a]
  | .mfirst _ _ a => [a]
  | .mxCfg _ a b _ => [a, b]
  | .mxLdw _ a b => [a, b]
  | .mxSwap _ => []
  | .mxDup _ a => [a]
  | .mxStream _ _ a b => [a, b]
  | .mxZero _ _ => []
  | .mxDrain _ _ a b => [a, b]
  | .dret _ => []
  | .mxWait _ => []
  | .attnQld _ a b => [a, b]
  | .attnRun _ a b => [a, b]
  | .attnMerge _ a => [a]
  | .attnFin _ a b => [a, b]
  | .attnSt _ a => [a]
  | .cmAppend _ a => [a]
  | .cmFill _ _ a b => [a, b]
  | .cmFree _ _ a b => [a, b]
  | .cmLookup _ _ a b => [a, b]
  | .cmShare _ _ a => [a]
  | .cmInval _ => []
  | .xfGo _ _ => []
  | .xfCancel _ _ a => [a]
  | .yield _ => []
  | .nexit _ => []
  | .phint _ a b => [a, b]
  | .uiret _ => []
  | .fadd _ _ a b _ => [a, b]
  | .fsub _ _ a b _ => [a, b]
  | .fmul _ _ a b _ => [a, b]
  | .ffma _ _ a b _ => [a, b]
  | .fdiv _ _ a b _ => [a, b]
  | .fsqrt _ _ a _ => [a]
  | .fmin _ _ a b _ => [a, b]
  | .fmax _ _ a b _ => [a, b]
  | .fcmpEq _ _ a b _ => [a, b]
  | .fcmpLt _ _ a b _ => [a, b]
  | .fcmpLe _ _ a b _ => [a, b]
  | .fcvtPrecision _ _ a _ => [a]
  | .fcvtToInt _ _ a _ => [a]
  | .fcvtFromInt _ _ a _ => [a]
  | .ecall _ => []
  | .ebreak _ => []
  | .mret _ => []
  | .sret _ => []
  | .wfi _ => []
  | .tlbWr _ _ a b => [a, b]
  | .tlbInv _ _ a b => [a, b]
  | .xlateDrain _ a b => [a, b]
  | .mxSave _ a => [a]
  | .mxLoad _ _ a => [a]
  | .ctxHalt _ _ a b => [a, b]
  | .ctxSave _ _ a b => [a, b]
  | .registerWrite _ _ _ _ => []
  | .tagmapWrite _ _ _ => []
  | .bankfmtWrite _ _ _ => []
  | .remoteAccessArrival _ => []
  | .storeAcknowledge _ _ => []
  | .parkRecheck _ _ => []
  | .heldAccessRecheck _ => []
  | .inboxArrival _ => []
  | .spillWake _ => []
  | .userInterruptEntry _ _ => []
  | .interruptTake _ _ => []
  | .trapReportDelivery _ => []
  | .resolveRetry _ => []
  | .resolveSkip _ => []
  | .resolveAbort _ => []
  | .causalityCycle _ => []
  | .reactHalfEnd _ => []
  | .exchangeHalfStart _ => []
  | .exchangeBeatSend _ => []
  | .exchangeArrival _ => []
  | .latch _ => []
  | .matrixCommandStart _ => []
  | .drainDispatch _ => []
  | .transferStart _ => []
  | .transferCompletion _ _ => []
  | .tlbMissMessage _ => []
  | .dirtyNotice _ => []
  | .gridDeadlock _ => []
  | .haltWatchdog _ => []
  | .runTimeLimit _ => []
  | .notifyScan _ => []
  | .periodicQueueScan _ => []
  | .packetLaunch _ => []
  | .packetNop _ => []
  | .packetMark _ => []
  | .packetQueueCreate _ => []
  | .packetQueueDestroy _ => []
  | .groupDispatch _ => []
  | .gridCompletion _ => []
  | .errorEvent _ => []
  | .saveEngine _ => []
  | .restoreRequest _ _ _ => []
  | .scrubRead _ _ _ => []
  | .bankFailed _ _ _ => []
  | .clockStretch _ => []
  | .keyLoad _ _ _ _ => []
  | .keyClear _ => []
  | .getVersion _ _ => []
  | .getCapabilities _ _ => []
  | .negotiateAlgorithms _ _ => []
  | .getDigests _ _ => []
  | .getCertificate _ _ => []
  | .challenge _ _ => []
  | .getMeasurements _ _ => []
  | .spdmUnsupportedRequest _ _ => []
  | .debugNonce => []
  | .debugUnlock _ _ _ => []
  | .debugArm _ _ => []
  | .debugStop _ _ _ _ => []
  | .debugStopReached _ => []
  | .debugRead _ _ _ => []
  | .debugResume _ => []
  | .debugDisarm _ => []
  | .runLengthLogAppend _ _ _ => []
  | .functionLevelReset _ => []
  | .bar2Access _ _ _ _ => []
  | .devidWrite _ => []
  | .flitSend _ _ _ => []
  | .flitReceive _ _ _ => []
  | .auditFlit _ _ _ _ => []
  | .partclWrite _ _ _ => []
  | .orbitWrite _ _ => []
  | .orbitUpdateApply => []
  | .gdwdWrite _ _ => []
  | .partownWrite _ _ => []
  | .haltwdWrite _ _ => []
  | .bringUp _ => []
  | .remoteAccessReply _ _ => []
  | .matrixCommandCompletion _ => []
  | .monitorTimerExpiry _ => []
  | .schedulerTimerExpiry _ => []
  | .illegalInstruction _ => []
  | .instructionFetchFault _ _ => []

/-- The literal bytes of an instruction (R138). -/
def Instr.litBytes (i : Instr) : Nat := (i.sources.map Opnd.litBytes).foldl (· + ·) 0

/-- The literal of an instruction, 0 where it has none. -/
def Instr.literal (i : Instr) : BitVec 64 := (i.sources.map Opnd.lit).foldl (· ||| ·) 0

/-- R138: the length of an instruction in bytes. -/
def Instr.length (i : Instr) : Nat := if i.isHalf then 2 else 4 + i.litBytes

/-- The bytes of an instruction, in memory order (R4, R138). -/
def encode (i : Instr) : List Byte :=
  if i.isHalf then leBytes 2 (encodeHalf i).toNat
  else leBytes 4 (encodeWord i).toNat ++ leBytes i.litBytes i.literal.toNat

end Sys2Proof
end

