-- ==== Sys2Proof/Machine/Keccak.lean ====
section
/-! DEFINITION. SHAKE256, by which the measurement registers are extended (R391). The function is that of FIPS 202, which the name stands
for (log 12). Lane x + 5 y of the state stands at place x + 5 y of a list. -/

namespace Sys2Proof.Machine.Keccak

/-- The rotations of the lanes. -/
def turns : List Nat := [0, 1, 62, 28, 27, 36, 44, 6, 55, 20, 3, 10, 43, 25, 39, 41, 45, 15, 21, 8, 18, 2, 61, 56, 14]

/-- The constants of the 24 rounds. -/
def constants : List Word := [
  0x0000000000000001#64, 0x0000000000008082#64, 0x800000000000808A#64, 0x8000000080008000#64, 0x000000000000808B#64, 0x0000000080000001#64,
  0x8000000080008081#64, 0x8000000000008009#64, 0x000000000000008A#64, 0x0000000000000088#64, 0x0000000080008009#64, 0x000000008000000A#64,
  0x000000008000808B#64, 0x800000000000008B#64, 0x8000000000008089#64, 0x8000000000008003#64, 0x8000000000008002#64, 0x8000000000000080#64,
  0x000000000000800A#64, 0x800000008000000A#64, 0x8000000080008081#64, 0x8000000000008080#64, 0x0000000080000001#64, 0x8000000080008008#64]

def lane (a : List Word) (i : Nat) : Word := a.getD i 0

/-- A state from a function of the places. -/
def lanes (f : Nat → Word) : List Word := (List.range 25).map f

/-- One round. -/
def round (a : List Word) (rc : Word) : List Word :=
  let c := (List.range 5).map (fun x => lane a x ^^^ lane a (x + 5) ^^^ lane a (x + 10) ^^^ lane a (x + 15) ^^^ lane a (x + 20))
  let t := lanes (fun i => lane a i ^^^ lane c ((i + 4) % 5) ^^^ (lane c ((i + 1) % 5)).rotateLeft 1)
  let b := lanes (fun i =>
    let j := (i % 5 + 3 * (i / 5)) % 5 + 5 * (i % 5)
    (lane t j).rotateLeft (turns.getD j 0))
  let at_ (i k : Nat) : Word := lane b ((i + k) % 5 + 5 * (i / 5))
  lanes (fun i => lane b i ^^^ (~~~(at_ i 1) &&& at_ i 2) ^^^ (if i = 0 then rc else 0))

/-- The permutation of 1,600 bits. -/
def permute (a : List Word) : List Word := constants.foldl round a

/-- The lane of eight bytes, the first one lowest. -/
def laneOf (bs : List Byte) (i : Nat) : Word :=
  BitVec.ofNat 64 (((bs.drop (8 * i)).take 8).foldr (fun b v => b.toNat + 256 * v) 0)

/-- Takes in the blocks of 136 bytes of a padded message. -/
def absorb : Nat → List Byte → List Word → List Word
  | 0, _, a => a
  | n + 1, bs, a => absorb n (bs.drop 136) (permute (lanes (fun i => lane a i ^^^ (if i < 17 then laneOf bs i else 0))))

/-- A message with its padding to whole blocks of 136 bytes. -/
def padded (bs : List Byte) : List Byte :=
  let n := 135 - bs.length % 136
  if n = 0 then bs ++ [0x9F#8] else bs ++ [0x1F#8] ++ List.replicate (n - 1) 0 ++ [0x80#8]

/-- SHAKE256 of a message, with 512 bits of output; byte i of the output is bits [8i + 7 : 8i]. -/
def shake256 (bs : List Byte) : BitVec 512 :=
  let a := absorb (bs.length / 136 + 1) (padded bs) (List.replicate 25 0)
  BitVec.ofNat 512 ((List.range 8).foldr (fun i v => (lane a i).toNat + 2 ^ 64 * v) 0)

end Sys2Proof.Machine.Keccak
end

