-- ==== Sys2Proof/Machine/State.lean ====
section
/-! DEFINITION. The machine's state as plain data: every register, memory, queue and record that the spec gives the part, and
State.reset, the machine as bring-up leaves it (R408). Tables are lists of pairs of a key and a value; an absent key has the
table's default. Operations on them stand in Ops.lean. -/

namespace Sys2Proof.Machine

/-- A table by key: keys ascend, and an absent key has the table's default. -/
abbrev Tab (α : Type) := List (Nat × α)

/-- A hardware thread of a core. Compute core c of cluster l has number 16 l + c, the translation core of cluster l has
4096 + l and hub core n has 4352 + n. -/
structure Hart where
  core : Nat
  th : Nat
  deriving DecidableEq, Repr

/-- A privilege level (R312): U is 0, S is 1, M is 3. -/
inductive Level where
  | u | s | m
  deriving DecidableEq, Repr

/-- Where a tagged memory stands: a core's local SRAM or a cluster's shared SRAM. -/
inductive Place where
  | core (n : Nat)
  | cluster (n : Nat)
  deriving DecidableEq, Repr

/-- The home of an access (R59): a tagged memory, a memory-controller slice of a die (R337) or a peer device; `virt` is that of a
redirected access whose target is not yet translated (R77). -/
inductive Home where
  | sram (p : Place)
  | virt
  | dram (slice : Nat)
  | peer (dev : Nat)
  deriving DecidableEq, Repr

/-- The class of an access (Table 6.1 less its local or remote half). -/
inductive Class where
  | load | store | atomic | engRead | engWrite
  deriving DecidableEq, Repr

/-- The operation of an atomic (Table 12.5). -/
inductive Amo where
  | add | and | or | xor | min | max | minu | maxu | swap | cas | fadd
  deriving DecidableEq, Repr

/-- What an access does at its home; `look` is checked as its class says and has no effect (R228). -/
inductive AccOp where
  | load | store
  | amo (op : Amo)
  | tld | tst | tcas
  | look
  | ttabWr (sel : Word) | ttabRd (sel : Word) | ttabSwap (sel : Word)
  deriving DecidableEq, Repr

/-- What is done with the value that an access returns. -/
inductive Finish where
  | drop
  | writeX (d : Fin 32) (kind : LdKind)
  | writeV (d : Fin 32) (w : Nat) (zeroAbove : Option Nat)
  | stream (d : Fin 32) (g : Fin 4) (count : Nat) (idx : Option (Fin 4))
  | streamOut (g : Fin 4) (count : Nat)
  | indices (n size : Nat)
  | cfg (g : Fin 4) (addr : Word)
  deriving DecidableEq, Repr

/-- What made an access (R105): an instruction of a thread, the engine that runs the commands of its core's queue, or a transfer. -/
inductive Issuer where
  | thread
  | engine
  | transfer (id : Word)
  deriving DecidableEq, Repr

/-- One access on its way, parked or held: its issuer, the instruction that made it, the address that the instruction named and the one
at which it is issued (R77), the level at which its instruction was issued, and its elements, each a byte offset at the home and a lane of
the data; `notified` says that an access not yet translated has sent its dirty notice (R345), `bank` names the full park list behind which
it is held (R82), `full` says that its instruction writes all 64 bytes of the line (R386), and `port` is the port by which one to a peer
leaves (R405). -/
structure Access where
  id : Nat
  grp : Nat
  hart : Hart
  issuer : Issuer
  level : Level
  owner : BitVec 12
  named : Word
  at_ : Word
  cls : Class
  op : AccOp
  home : Home
  esize : Nat
  elems : List (Nat × Nat)
  data : BitVec 512
  cmp : Word
  vec : Bool
  redir : Bool
  notified : Bool
  cleared : Bool
  full : Bool
  bank : Nat
  port : Nat
  asid : Nat
  gen : Nat
  deriving DecidableEq, Repr

/-- What a home answers. -/
inductive Reply where
  | value (v : BitVec 512) (acq : Bool)
  | trap (cause : Nat) (value : Word) (utag : BitVec 14)
  deriving DecidableEq, Repr

/-- A message in the network. -/
inductive Msg where
  | access (a : Access)
  | group (id : Nat) (as : List Access)
  | reply (a : Access) (r : Reply)
  | user (id : Nat) (src : Hart) (dst : Nat) (entry : BitVec 512)
  | record (id : Nat) (dst : Nat) (entry : BitVec 512) (irq : Bool)
  deriving DecidableEq, Repr

/-- The accesses that an instruction of a thread waits for; `loose` says whether younger events may be performed before them
(R109). -/
structure Pend where
  ids : List Nat
  gathered : BitVec 512
  finish : Finish
  len : Nat
  loose : Bool
  deriving DecidableEq, Repr

/-- A load or atomic that its thread has left behind, still to be performed (R109): its accesses, and its instruction. -/
structure Late where
  ids : List Nat
  gathered : BitVec 512
  finish : Finish
  pc : Word
  deriving DecidableEq, Repr

/-- Where an engine or a transfer waits for an access that is parked or on its way, for a dirty page or for the miss of a 512 KiB page
(R81, R345, R342), and the answer that it has not yet taken. -/
structure Port where
  wait : Option Nat
  dirty : Option Nat
  miss : Option Nat
  answer : Option Reply
  deriving DecidableEq, Repr

/-- Why a thread is not ready (R21, R34), or that it is. -/
inductive Status where
  /-- hosts no node -/
  | idle
  /-- may issue -/
  | run
  /-- may issue, and goes on with the instruction that it waited in, before which it takes no user interrupt (R30) -/
  | again
  /-- an access of it is in the network, parked or held (R79, R81, R82) -/
  | access
  /-- has left loads behind, which are still to be performed (R109) -/
  | late
  /-- waits on a TLB miss of a 512 KiB page (R342); its fetch or its access -/
  | miss (page : Nat) (fetch : Bool)
  /-- waits until an entry with D = 1 covers an address (R345) -/
  | dirty (va : Nat)
  /-- waits in MRECV (R191) -/
  | mrecv
  /-- blocked on an unknown or unsettled signal (R41) -/
  | signal (n : Nat) (val : Bool)
  /-- waits on the matrix queue, MX.WAIT, FENCE.X or NEXIT (R34) -/
  | engine
  /-- held until its attention or comet instruction completes in the engine (R256) -/
  | held
  /-- waits in XF.GO for a transfer place (R248) -/
  | place
  /-- waits on its earlier accesses in a fence or release (R179, R180) -/
  | fence
  /-- its PAUSE counts as its pause (R274) -/
  | pause
  /-- waits in XSEND.AT for its slot, or for its later beats (R278) -/
  | xsend
  /-- waits in XEND for the latch (R279) -/
  | xend
  /-- a report of it awaits S level (R315) -/
  | report
  /-- waits in WFI (R328) -/
  | wfi
  /-- halted, at a hint or in full (R372) -/
  | halted (full : Bool)
  deriving DecidableEq, Repr

/-- The U-level trap registers, CSRs 0x000 to 0x005 (R169, R29, R78). -/
structure UserCsrs where
  ucause : BitVec 7
  uval : Word
  uepc : Word
  utvec : Word
  pend : Bool
  uie : Bool
  h : Bool
  utag : BitVec 14
  deriving DecidableEq, Repr

/-- The S-level and M-level registers of a thread (R319 to R322). -/
structure PrivCsrs where
  mstatus : Word
  mtvec : Word
  msdeleg : Word
  mie : Word
  mip : Word
  mepc : Word
  mcause : Word
  mval : Word
  mscratch : Word
  stvec : Word
  sudeleg : Word
  sie : Word
  sip : Word
  sepc : Word
  scause : Word
  sval : Word
  sscratch : Word
  sreport : Word
  deriving DecidableEq, Repr

/-- The transfer shadow registers (Table 14.12) and XF.PARAM (Table 14.13). -/
structure XferRegs where
  src : Word
  dst : Word
  shape : Vector (BitVec 32) 4
  sstride : Vector Word 3
  dstride : Vector Word 3
  irq : Bool
  user : BitVec 8
  deriving DecidableEq, Repr

/-- A repeat in progress (R225): the body's address, its captured bytes, its count of instructions, the
passes left, the level that runs it, and the body instruction at which a trap left it. -/
structure Repeat where
  start : Word
  bytes : List Byte
  count : Nat
  left : Nat
  level : Level
  trapped : Word
  deriving DecidableEq, Repr

/-- A recorded hint (R197). -/
structure Hint where
  livex : BitVec 32
  livev : BitVec 32
  ranges : List (Nat × Nat)
  deriving DecidableEq, Repr

/-- A deferred fault (R228). -/
structure Deferred where
  cause : Nat
  value : Word
  utag : BitVec 14
  deriving DecidableEq, Repr

/-- A hardware thread (R20, R143). `bill` is the class of the instruction that it last began, with RETIRED before it: once that has changed, the
weight of the class is due (R382). -/
structure Thread where
  x : Vector Word 32
  h : Vector Word 8
  v : Vector Vec 32
  m : Vector Word32 8
  dcur : Vector Word 16
  dnext : Vector Word 16
  pc : Word
  level : Level
  status : Status
  user : UserCsrs
  priv : PrivCsrs
  fmode : BitVec 2
  fflags : BitVec 5
  nodeid : Word
  griddim : Word
  xdone : Word
  xf : XferRegs
  seq : BitVec 32
  apos : BitVec 26
  ascale : BitVec 32
  cmfree : Word
  cmprog : BitVec 20
  retired : Word
  rep : Option Repeat
  hint : Option Hint
  deferred : Option Deferred
  pend : Option Pend
  gathered : List Word
  late : List Late
  drain : Option (List Nat)
  fenceSeq : Nat
  grid : Nat
  member : Option (Nat × Nat)
  bill : Option (Nat × Word)
  deriving DecidableEq, Repr

/-- One copy of a table set (R73): the 64 entries and the four redirect bases. -/
structure TableCopy where
  entries : Tab (BitVec 16)
  rbase : Tab Word
  deriving DecidableEq, Repr

/-- A table set with its shadow (R73). -/
structure TableSet where
  active : TableCopy
  shadow : TableCopy
  deriving DecidableEq, Repr

/-- An access parked on a word, or woken and not yet re-checked (R81). -/
structure Parked where
  access : Access
  bank : Nat
  word : Nat
  woken : Bool
  deriving DecidableEq, Repr

/-- A tagged memory (R61, R70, R71, R73, R81): its bytes, tags by word, owners by line, the set of each 16 KiB region, the
table sets, the park lists of its banks, the accesses held behind full ones, the words and lines whose code cannot repair
them (R386), and the words with an error that a code corrects: 0 SEC-DED, 1 the stripe (R385, R388). -/
structure Sram where
  cells : List Host.Cell
  tags : Tab (BitVec 3)
  owners : Tab (BitVec 12)
  regions : Tab (BitVec 2)
  sets : Tab TableSet
  parks : List Parked
  held : List Access
  errs : List Nat
  ownerErrs : List Nat
  soft : Tab Nat
  deriving DecidableEq, Repr

/-- A stream generator (R67, R68, R221). -/
structure Gen where
  bound : Option Nat
  descr : List Byte
  n : Nat
  exhausted : Bool
  deriving DecidableEq, Repr

/-- A user-visible inbox entry (R189): its 64 bytes and whether MLOOP placed it. -/
structure Entry where
  bytes : BitVec 512
  loop : Bool
  deriving DecidableEq, Repr

/-- A weight plane (R226, R232 to R234): decoded values as FP32 patterns, element (k, n) under 256 n + k; the occupancy mask
of group g of column n under 4 n + g; the scale of each column; and the scale offset that the load named (R239). -/
structure Plane where
  vals : Tab Word32
  masks : Tab Word
  scales : Tab Byte
  soff : BitVec 21
  deriving DecidableEq, Repr

/-- The scale record of a tile (R239). -/
structure ScaleRec where
  set : Bool
  woff : BitVec 21
  aoff : BitVec 21
  deriving DecidableEq, Repr

/-- The registers of the matrix engine and of the attention unit (R226, R257): element (i, j) of tile z under
1024 z + 32 i + j, and the two doublewords of each row-map entry in `rowHead` and `rowLimit`. -/
structure Engine where
  cfg : BitVec 6
  mf : Nat
  drainEntry : Word
  active : Plane
  shadow : Plane
  tiles : Tab Word32
  scaleRecs : Tab ScaleRec
  dupBase : Word32
  dupCount : Nat
  dupMap : Tab Word32
  query : Tab (BitVec 16)
  rowHead : Tab Word
  rowLimit : Tab Word
  amax : Tab Word32
  asum : Tab Word32
  deriving DecidableEq, Repr

/-- A command in the matrix queue (R227): its issuer and the level at which it was issued, the operands and bank formats captured at issue (R167), and the number of the
first message of its thread that comes after it. -/
structure Cmd where
  hart : Hart
  level : Level
  instr : Instr
  opA : Word
  opB : Word
  cfg : BitVec 6
  mf : Nat
  drainEntry : Word
  scale : Word32
  len : Nat
  fmts : Vector (BitVec 4) 16
  seq : Nat
  deriving DecidableEq, Repr

/-- A piece of an engine write: its address, its size and its bytes as a number. -/
structure Piece where
  addr : Word
  size : Nat
  value : Nat
  deriving DecidableEq, Repr

/-- The command that the engine executes: the operand words that it has read, the answers to the accesses that a sequence or block
in progress has made, where it waits for one, whether a halt may stop it there (R137), the pieces that it has yet to write, the rows
dispatched and whether the drain thread holds one, the fault of a row that DRET has released, which waits for the rows before it (R242), and for
ATTN.RUN the next position and the unstable reads of its block; `tries` is 1 while a command that commits as a whole waits to look again. -/
structure Running where
  cmd : Cmd
  words : Tab Word
  got : List (List Nat)
  port : Port
  calm : Bool
  out : List Piece
  row : Nat
  draining : Bool
  failed : Option Deferred
  pos : Nat
  tries : Nat
  deriving DecidableEq, Repr

/-- A TLB entry (Table 22.3). -/
structure TlbEntry where
  va : Nat
  size : Nat
  asid : Nat
  frame : Nat
  gen : Nat
  d : Bool
  x : Bool
  w : Bool
  r : Bool
  owner : BitVec 12
  deriving DecidableEq, Repr

/-- A miss message or dirty notice (Table 23.1). -/
structure Miss where
  va : Nat
  th : Nat
  access : Nat
  dirty : Bool
  asid : Nat
  gen : Nat
  deriving DecidableEq, Repr

/-- A leaf held in the comet buffer (R123): its coordinate, its address and its doubleword 0. -/
structure CometLine where
  q : Nat
  y : Nat
  hd : Nat
  ph : Nat
  addr : Nat
  leaf : Word
  deriving DecidableEq, Repr

/-- A trap report (Table 21.4). -/
structure Report where
  hart : Hart
  cause : Word
  value : Word
  epc : Word
  node : Word
  utag : BitVec 14
  ctx : Nat
  owner : BitVec 12
  cycle : Word
  grid : Nat
  deriving DecidableEq, Repr

/-- A core of any kind. Only the parts that its kind has are used (R312). `loading` is an MX.LDW that starts while the MX.STREAM ahead
of it still executes (R227); `misses` are the 512 KiB pages with an outstanding miss (R342), and `notes` the miss messages and dirty
notices that have not reached the translation core (R343). `runlog` is the log ring of an armed context (R396), `logged` how many entries it has
taken, `trace` the threads that have issued since the last of them, and `replay` the log that a replay still has to follow (R397). -/
structure Core where
  threads : Tab Thread
  sram : Sram
  skew : Tab Bool
  fmts : Vector (BitVec 4) 16
  gens : Vector Gen 4
  inbox : List Entry
  spillcnt : Vector Nat 4
  spillStore : List Entry
  spillMonitor : Bool
  spillPc : Word
  spillAsk : Bool
  drainFor : Nat
  engine : Engine
  queue : List Cmd
  running : Option Running
  loading : Option Running
  comet : List CometLine
  tlb : List TlbEntry
  misses : List Nat
  notes : List Miss
  mudeleg : Word
  mowner : BitVec 12
  mcontext : BitVec 32
  cmroot : Word
  pmpcfg : Vector (BitVec 8) 16
  pmpaddr : Vector (BitVec 54) 16
  reports : List (Nat × Report)
  reportSeq : Nat
  reportsHeld : List Report
  report : Option (Nat × Report)
  handling : Bool
  corrected : Tab Nat
  failed : List Nat
  runlog : List (BitVec 16)
  logged : Nat
  trace : List Nat
  replay : Option (List (BitVec 16))
  deriving DecidableEq, Repr

/-- A transfer (R248, R249): the launch record, the level at which it was launched and how far it has come: the source elements written, and those read and not yet
written; where it waits for an access; its status once it ends; and whether its thread has exited (R251). -/
structure Transfer where
  id : Word
  hart : Hart
  level : Level
  owner : BitVec 12
  ctx : BitVec 32
  regs : XferRegs
  fmts : Vector (BitVec 4) 16
  seq : Nat
  started : Bool
  convert : Option (Nat × Nat)
  done : Nat
  buf : List Nat
  port : Port
  status : Option (Nat × Word × BitVec 14)
  gone : Bool
  deriving DecidableEq, Repr

/-- A cluster: its shared SRAM and its block-transfer engine, oldest transfer first. -/
structure Cluster where
  sram : Sram
  transfers : List Transfer
  deriving DecidableEq, Repr

/-- DRAM (R349, R386): the plaintext bytes written, the key that each written line is encrypted under, and the poisoned
lines, each with the bytes that full-line writes have written since, the lines with an error that the code corrects, and those with one
that it cannot, which nothing has met yet. -/
structure Dram where
  cells : List Host.Cell
  keys : Tab Nat
  poison : Tab (BitVec 64)
  soft : List Nat
  bad : List Nat
  deriving DecidableEq, Repr

/-- One store as instruction fetch may still miss it (R139): when and by which thread, whether anything since may have ordered it before
events of other threads, and the 64-byte line before it, with the owner or the key number under which it stood (none: a DRAM line that
nothing had written). -/
structure StoreRec where
  seq : Nat
  hart : Hart
  tied : Bool
  place : Option Place
  line : Nat
  old : BitVec 512
  key : Option Nat
  deriving DecidableEq, Repr

/-- The status of a signal (R40). -/
inductive SigStatus where
  | unknown | present | absent
  deriving DecidableEq, Repr

/-- A signal of a domain (R38 to R40). -/
structure Sig where
  combine : Nat
  emitters : List Nat
  status : SigStatus
  value : Word
  out : List Nat
  skipped : List Nat
  prev : Bool
  deriving DecidableEq, Repr

/-- A member of a domain (R37) and what it has done in the instant; `left` is the number of the first message that comes after its
exit. -/
structure Member where
  hart : Hart
  node : Word
  paused : Option Nat
  ended : Bool
  exited : Bool
  left : Nat
  sent : List Nat
  deriving DecidableEq, Repr

/-- An entry of the exchange plan (Table 4.8). -/
structure PlanEntry where
  sender : Nat
  slot : Nat
  beats : Nat
  tag : BitVec 3
  tagset : Bool
  dest : Word
  deriving DecidableEq, Repr

/-- A send in progress, or a beat on its way (R48, R49). -/
structure Beat where
  entry : PlanEntry
  src : Nat
  hart : Hart
  next : Nat
  len : Nat
  deriving DecidableEq, Repr

/-- A beat that has left and not yet been written (R49), with its sender. -/
structure Flying where
  hart : Hart
  slot : Nat
  dest : Word
  data : BitVec 512
  tag : BitVec 3
  tagset : Bool
  deriving DecidableEq, Repr

/-- An instant domain (R36, R37, R40, R45 to R51). -/
structure Domain where
  gid : Nat
  strict : Bool
  exch : Bool
  members : List Member
  sigs : List Sig
  plan : List PlanEntry
  instant : Word
  slot : Nat
  started : Nat
  reactEnded : Bool
  record : List Word
  sends : List Beat
  flying : List Flying
  declared : Bool
  stopped : Bool
  deriving DecidableEq, Repr

/-- A group of a grid (R18, R23): its state is 0 undispatched, 1 resident, 2 finished, and 3 resident in the image of a context whose clusters
the scheduler has released (R25). -/
structure Group where
  stage : Nat
  index : Nat
  cluster : Nat
  nodes : Nat
  cores : List Nat
  state : Nat
  deriving DecidableEq, Repr

/-- A stage of a grid (R18). -/
structure Stage where
  entry : Word
  args : Word
  groups : Nat
  deriving DecidableEq, Repr

/-- A record of a launch image (Table 20.7). -/
structure ImageRec where
  kind : Nat
  addr : Nat
  bytes : List Byte
  deriving DecidableEq, Repr

/-- A grid (R18, R32, R359, R360). -/
structure Grid where
  ctx : Nat
  queue : Nat
  parent : Nat
  depth : Nat
  signal : Word
  stages : List Stage
  groups : List Group
  children : List Nat
  childq : List Nat
  gang : Bool
  domain : Bool
  dom : Nat
  packet : List Word
  cmroot : Word
  deleg : Word
  limit : Nat
  used : Nat
  order : Nat
  recs : List ImageRec
  applied : List Nat
  spill : Option Word
  aborting : Option Nat
  complete : Bool
  deriving DecidableEq, Repr

/-- A save request (R335): the hub thread that made it, the address of its block, and the block's DEST and LIMIT. -/
structure SaveReq where
  hart : Hart
  level : Level
  block : Word
  dest : Word
  limit : Nat
  deriving DecidableEq, Repr

/-- A mirror of a context (R383): the number of the first store after it, the instant that it begins, its image, and the 512 KiB pages that were
written since the mirror before it, as they are streamed to the buddy device. -/
structure Mirror where
  seq : Nat
  instant : Word
  image : List Byte
  pages : List Nat
  deriving DecidableEq, Repr

/-- A debug checkpoint (R396): its number, the instant that it begins and its image. -/
structure Checkpoint where
  number : Nat
  instant : Word
  image : List Byte
  deriving DecidableEq, Repr

/-- The debug state of a context (R395 to R399): the period while armed, and the log buffers of the ARM; the interval in which the context runs; the latch that waits for its checkpoint; the checkpoints
held; the records of the rings, each with its domain, and how many each domain's has taken; the stop that an object asks for, as an interval, a thread and a count; where a replay is to stop; whether the context is stopped, with what status; a scheduler's halt request that
waits for RESUME, with its FORCE; the broken intervals; and the stop events of breakpoints. -/
structure Debug where
  armed : Option Nat
  logs : LogBuffers
  interval : Nat
  mark : Option Word
  taken : Nat
  checkpoints : List Checkpoint
  records : List (Nat × List Word)
  recorded : List (Nat × Nat)
  asked : Option (Nat × Hart × Nat)
  target : Option (Hart × Word)
  stopped : Option Nat
  waiting : Option Bool
  broken : List Nat
  events : List (Nat × Nat × Word)
  deriving DecidableEq, Repr

/-- A context (R351, R334, R382): its halt is 0 without a request, 1 with one and 2 when the halt is complete; whether a complete image of it
has been written since (R335), the instant of a mirror that its halt waits for and the last mirror (R383), and whether the scheduler has released its clusters, so that it lives in that image (R25). -/
structure Ctx where
  part : Nat
  owner : BitVec 12
  serial : Nat
  energy : Nat
  energyFrom : Option Nat
  halt : Nat
  force : Bool
  saving : Option SaveReq
  saved : Bool
  away : Bool
  mirroring : Option Word
  mirror : Option Mirror
  dbg : Debug
  deriving DecidableEq, Repr

/-- A queue: the fields of its QCB (Table 24.2) as the entry cache holds them (R353), whether a NOTIFY waits for its scan and whether the
command processor scans it (R356), the signals of its MARKs that wait, with the grids that they wait for (R357), and what a dispatch step that
has begun holds of the packet at READ: the serial of a gang-admitted LAUNCH that waits (R360), or the grids whose ends a destroy waits for
(R365). -/
structure Queue where
  ring : Nat
  log2 : Nat
  prio : Nat
  live : Bool
  hdr : Nat
  ctx : Nat
  hint : Word
  read : Word
  notified : Bool
  scanning : Bool
  marks : List (Word × List Nat)
  step : Option (List Nat)
  deriving DecidableEq, Repr

/-- The partition registers (Tables 24.1, 3.9, 26.2). -/
structure Part where
  clusters : List Nat
  owner : BitVec 12
  gdwd : Nat
  haltwd : Nat
  deriving DecidableEq, Repr

/-- The connection state of a function's DOE mailbox (R392, R395). -/
structure Conn where
  stage : Nat
  version : Nat
  challenged : Bool
  response : List Nat
  signature : BitVec 912
  payload : List (BitVec 512)
  nonces : List (BitVec 256)
  unlocked : List Nat
  deriving DecidableEq, Repr

/-- One virtual channel of a Flofer port (R403, R404): the free slots that it counts at the far side, the numbers of the next flit to
send and to receive, the receive slots that it has freed and not yet returned, the flits not yet acknowledged, the flits received and not yet
taken, the data flits sent since the last audit, the flits put on the wire, the accesses whose data flits these were, whether an audit has
stopped the channel, the unacknowledged flits still to be sent again, and how many flits of the far side will come again that have been taken
already. -/
structure Chan where
  credit : Nat
  sendSeq : Nat
  recvSeq : Nat
  owed : Nat
  unacked : List Flit
  received : List Flit
  sentData : Nat
  wire : List Flit
  carried : List Nat
  stopped : Bool
  again : List Flit
  dups : Nat
  deriving DecidableEq, Repr

/-- An error record (Table 27.2), as its four doublewords. -/
structure ErrorRec where
  words : List Word
  deriving DecidableEq, Repr

/-- The device's own registers and records: security, link, power, reliability and bring-up. -/
structure Device where
  keys : Tab (BitVec 512)
  debugKeys : Tab (BitVec 576)
  meas : Vector (BitVec 512) 8
  conns : Tab Conn
  devid : BitVec 19
  devLock : Bool
  withheld : List Nat
  spareUsed : List Nat
  repairs : List (BitVec 32)
  record : ConfigRecord
  wrapReleased : Bool
  chans : Tab Chan
  errors : List ErrorRec
  errorSeq : Nat
  scrubbed : Tab (List Nat)
  restores : List (Word × Nat)
  lost : Nat
  boots : Nat
  bootStep : Nat
  bootOk : Bool
  bar2Data : Option (BitVec 512)
  deriving DecidableEq, Repr

/-- One turn of the machine: a thread issues its next instruction, or one of the device's own steps is taken. In `issueApart` the elements
of a stream instruction at its own core are performed one by one later, and not within the step (R224). `flip` lets an error arise in a word of
SRAM or a line of DRAM (R385, R386), `drain` lets the management firmware take records of its error ring (R388), `release` has the security
processor release its wrapping key (R390), `walker` and `plugin` load a walker image or a policy plug-in of a digest (R391), and `restore` tries a
restore again that waits for what it rests on (R378). -/
inductive Turn where
  | issue (h : Hart)
  | issueApart (h : Hart)
  | flip (place word kind : Nat)
  | drain (n : Nat)
  | release
  | walker (digest : BitVec 512)
  | plugin (digest : BitVec 512)
  | restore
  | event (i : Instr)
  deriving DecidableEq, Repr

/-- The machine. `agenda`, `cur`, `trapped`, `ticks`, `free` and the message numbers are the model's own: the agenda lists the
turns that an execution takes, because the spec leaves the interleaving of threads and engines open, `trapped` says whether
the current thread has trapped in the step, `ahead` whether its instruction belongs to the address stream (R27), and `split` whether the
elements of a stream instruction at its own core are performed apart (R224). `qcache` lists the queues
whose block is in the entry cache, least recently used first (R353), and `walk` the entries that each cluster's walker has installed (R366). -/
structure State where
  cur : Hart
  trapped : Bool
  ahead : Bool
  split : Bool
  agenda : List Turn
  ticks : Nat
  free : Nat
  nextId : Nat
  cores : Tab Core
  clusters : Tab Cluster
  net : List Msg
  log : List StoreRec
  logSeq : Nat
  dram : Dram
  domains : Tab Domain
  grids : Tab Grid
  ctxs : Tab Ctx
  queues : Tab Queue
  qcache : List Nat
  parts : Tab Part
  orbit : Tab (BitVec 7)
  orbitNext : Tab (BitVec 7)
  served : Tab Nat
  walk : List (Nat × TlbEntry)
  dev : Device
  deriving DecidableEq, Repr

/-- The reasons for which a step stops. -/
inductive Fault where
  /-- An untranslated access of a hub or translation core names a physical address at which the spec places neither DRAM nor a
  register (R337, R338, R352). Safe: the machine stops where the spec describes nothing. -/
  | physicalHole (pa : Nat)
  deriving DecidableEq, Repr

/-- The reasons for which a step has no meaning. -/
inductive Refusal where
  /-- An instruction that has no meaning in this model. Safe: no step is claimed for it. -/
  | notModelled (mnemonic : String)
  deriving DecidableEq, Repr

/-- The three outcomes of a step of this machine. -/
abbrev Result := Host.Outcome State Fault Refusal

/-! ## The state that bring-up leaves (R408) -/

def UserCsrs.init : UserCsrs := ⟨0, 0, 0, 0, false, false, false, 0⟩

def PrivCsrs.init : PrivCsrs := ⟨0, 0, 0, 0, 0, 0, 0, 0, 0, 0, 0, 0, 0, 0, 0, 0, 0, 0⟩

/-- Table 14.12: every extent 1, everything else 0. -/
def XferRegs.init : XferRegs :=
  ⟨0, 0, Vector.replicate 4 1, Vector.replicate 3 0, Vector.replicate 3 0, false, 0⟩

/-- A thread after bring-up: it hosts no node; general registers 0 (log 1). -/
def Thread.init (level : Level) : Thread where
  x := Vector.replicate 32 0
  h := Vector.replicate 8 0
  v := Vector.replicate 32 0
  m := Vector.replicate 8 0
  dcur := Vector.replicate 16 0
  dnext := Vector.replicate 16 0
  pc := 0
  level := level
  status := .idle
  user := UserCsrs.init
  priv := PrivCsrs.init
  fmode := 0
  fflags := 0
  nodeid := 0
  griddim := 0
  xdone := 0
  xf := XferRegs.init
  seq := 0
  apos := 0
  ascale := 0
  cmfree := 0
  cmprog := 0
  retired := 0
  rep := none
  hint := none
  deferred := none
  pend := none
  gathered := []
  late := []
  drain := none
  fenceSeq := 0
  grid := 0
  member := none
  bill := none

def Port.init : Port := ⟨none, none, none, none⟩

def TableCopy.init : TableCopy := ⟨[], []⟩
def TableSet.init : TableSet := ⟨TableCopy.init, TableCopy.init⟩

/-- R70, R408: every line zero, with tags 0 and OWNER 0. -/
def Sram.init : Sram := ⟨[], [], [], [], [], [], [], [], [], []⟩

/-- An unbound generator that has run out. -/
def Gen.init : Gen := ⟨none, [], 0, true⟩

def Plane.init : Plane := ⟨[], [], [], 0⟩

/-- R226, R257: the engine at the start of a context; KBASE of the empty map is the least that R236 admits (log 18). -/
def Engine.init : Engine where
  cfg := 0
  mf := 0
  drainEntry := 0
  active := Plane.init
  shadow := Plane.init
  tiles := []
  scaleRecs := []
  dupBase := 64
  dupCount := 0
  dupMap := []
  query := []
  rowHead := []
  rowLimit := []
  amax := []
  asum := []

/-- A core after bring-up. -/
def Core.init : Core where
  threads := []
  sram := Sram.init
  skew := []
  fmts := Vector.replicate 16 0
  gens := Vector.replicate 4 Gen.init
  inbox := []
  spillcnt := Vector.replicate 4 0
  spillStore := []
  spillMonitor := false
  spillPc := 0
  spillAsk := false
  drainFor := 0
  engine := Engine.init
  queue := []
  running := none
  loading := none
  comet := []
  tlb := []
  misses := []
  notes := []
  mudeleg := 0
  mowner := 0
  mcontext := 0
  cmroot := 0
  pmpcfg := Vector.replicate 16 0
  pmpaddr := Vector.replicate 16 0
  reports := []
  reportSeq := 0
  reportsHeld := []
  report := none
  handling := false
  corrected := []
  failed := []
  runlog := []
  logged := 0
  trace := []
  replay := none

def Cluster.init : Cluster := ⟨Sram.init, []⟩

/-- Tables 24.1, 3.9 and 26.2. -/
def Part.init : Part := ⟨[], 0, 2000, 100⟩

def Conn.init : Conn := ⟨0, 0, false, [], 0, [], [], []⟩

/-- R404: 64 free slots each way; a port is untrained until DEVID is locked (R402). -/
def Chan.init : Chan := ⟨64, 0, 0, 0, [], [], 0, [], [], false, [], 0⟩

/-- R391: a measurement register extended with a component's digest. -/
def extendMeas (m digest : BitVec 512) : BitVec 512 := Keccak.shake256 (leBytes 64 m.toNat ++ leBytes 64 digest.toNat)

/-- R391, R409: the digest of a field-repair list: that of its entries in order (log 12). -/
def repairDigest (list : List (BitVec 32)) : BitVec 512 := Keccak.shake256 (list.flatMap (fun e => leBytes 4 e.toNat))

/-- R408, Table 27.3: the measurements of a bring-up that verifies everything: security firmware, monitor, scheduler, configuration record
and repair list, and management firmware (log 12). -/
def bootMeas (list : List (BitVec 32)) : Vector (BitVec 512) 8 :=
  (((((Vector.replicate 8 (0 : BitVec 512)).set 0 (extendMeas 0 (Config.component 0))).set 1 (extendMeas 0 (Config.component 1))).set 2
    (extendMeas 0 (Config.component 2))).set 3 (extendMeas (extendMeas 0 (Config.component 3)) (repairDigest list))).set 4
    (extendMeas 0 (Config.component 4))

/-- Table 28.5: a record that enables the first sixteen cores of every cluster and the first 32 rows of every core (log 13). -/
def recordInit : ConfigRecord := ⟨0x47434658, 1, 0, [], [], [], [], []⟩

def Device.init : Device where
  keys := []
  debugKeys := []
  meas := bootMeas []
  conns := []
  devid := 0
  devLock := false
  withheld := []
  spareUsed := []
  repairs := []
  record := recordInit
  wrapReleased := false
  chans := []
  errors := []
  errorSeq := 0
  scrubbed := []
  restores := []
  lost := 0
  boots := 0
  bootStep := 7
  bootOk := true
  bar2Data := none

/-- A context's debug state before any ARM. -/
def Debug.init : Debug := ⟨none, ⟨0, 0, 0, 0⟩, 0, none, 0, [], [], [], none, none, none, none, [], []⟩

/-- A context as it is created (R351, R359). -/
def Ctx.new (part : Nat) (owner : BitVec 12) : Ctx := ⟨part, owner, 0, 0, none, 0, false, none, false, false, none, none, Debug.init⟩

/-- The context of an admin queue, one for each function (log 62). -/
def adminCtx (fn : Nat) : Nat := 2 ^ 32 - 64 + fn

/-- The admin queue of a function as bring-up creates it (R365, R408). -/
def Queue.admin (fn : Nat) : Queue := ⟨0, 1, 0, true, 0, adminCtx fn, 0, 0, false, false, [], none⟩

/-- The admin queues 0 to 63. -/
def adminQueues : Nat → Tab Queue
  | 0 => []
  | n + 1 => adminQueues n ++ [(n, Queue.admin n)]

/-- The machine right after reset (R408). -/
def State.reset : State where
  cur := ⟨0, 0⟩
  trapped := false
  ahead := false
  split := false
  agenda := []
  ticks := 0
  free := 0
  nextId := 0
  cores := []
  clusters := []
  net := []
  log := []
  logSeq := 0
  dram := ⟨[], [], [], [], []⟩
  domains := []
  grids := []
  ctxs := []
  queues := adminQueues 64
  qcache := List.range 64
  parts := []
  orbit := []
  orbitNext := []
  served := []
  walk := []
  dev := Device.init

end Sys2Proof.Machine
end

