-- ==== Sys2Proof/Machine/Ops.lean ====
section
/-! DEFINITION. The named operations over tables, memories, registers and threads, and the one way in which a trap is taken
(R29, R314, R315) with the returns from it (R198, R327). -/

namespace Sys2Proof.Machine

/-! ## Tables -/

/-- The value of a key, or the default. -/
def Tab.get {α : Type} (d : α) : Tab α → Nat → α
  | [], _ => d
  | (k', v) :: t, k => if k = k' then v else Tab.get d t k

/-- The value of a key, if the table lists it. -/
def Tab.find? {α : Type} : Tab α → Nat → Option α
  | [], _ => none
  | (k', v) :: t, k => if k = k' then some v else Tab.find? t k

/-- Lists a value under a key, in ascending order of keys. -/
def Tab.set {α : Type} (k : Nat) (v : α) : Tab α → Tab α
  | [] => [(k, v)]
  | (k', v') :: t => if k < k' then (k, v) :: (k', v') :: t else if k = k' then (k, v) :: t else (k', v') :: Tab.set k v t

/-- Unlists a key. -/
def Tab.del {α : Type} (k : Nat) (t : Tab α) : Tab α := t.filter (fun p => decide (p.1 ≠ k))

/-- Writes a value under a key, unlisting the key when the value is the default: the canonical form of a table. -/
def Tab.put {α : Type} [DecidableEq α] (d : α) (k : Nat) (v : α) (t : Tab α) : Tab α :=
  if v = d then t.del k else t.set k v

/-- Keys ascend strictly. -/
def Tab.ascending {α : Type} : Tab α → Bool
  | [] => true
  | (k, _) :: t => (match t with
    | [] => true
    | (k', _) :: _ => decide (k < k')) && Tab.ascending t

/-- The canonical form of a table: keys ascend and no entry holds the default. -/
def Tab.wf {α : Type} [DecidableEq α] (d : α) (t : Tab α) : Bool := t.ascending && t.all (fun p => decide (p.2 ≠ d))

/-! ## Bytes -/

/-- The n bytes from an address of a byte table, as a number, least significant first (R4). -/
def readLe (t : List Host.Cell) (a : Nat) : Nat → Nat
  | 0 => 0
  | n + 1 => (Tab.get 0 t a).toNat + 256 * readLe t (a + 1) n

/-- Writes the n low bytes of a number from an address of a byte table whose unlisted bytes read 0. -/
def writeLe (t : List Host.Cell) (a : Nat) : Nat → Nat → List Host.Cell
  | 0, _ => t
  | n + 1, v => writeLe (Tab.put 0 a (BitVec.ofNat 8 v) t) (a + 1) n (v / 256)

/-- The canonical form of a memory whose unlisted bytes read 0. -/
def Memory.wf (t : List Host.Cell) : Bool := Tab.wf (0 : Byte) t

/-- The field of bits [lo + n − 1 : lo] of a value, as a number. -/
def bits {w : Nat} (v : BitVec w) (lo n : Nat) : Nat := (v.extractLsb' lo n).toNat

/-- A value with the field of n bits at lo replaced. -/
def setBits {w : Nat} (v : BitVec w) (lo n f : Nat) : BitVec w :=
  let mask : BitVec w := BitVec.ofNat w (2 ^ n - 1) <<< lo
  (v &&& ~~~ mask) ||| ((BitVec.ofNat w f <<< lo) &&& mask)

/-- A one-bit field of a value. -/
def bit {w : Nat} (v : BitVec w) (i : Nat) : Bool := v.getLsbD i

/-- Whether every bit of a value from lo up, n of them, is 0. -/
def zeroBits {w : Nat} (v : BitVec w) (lo n : Nat) : Bool := decide (bits v lo n = 0)

/-! ## Cores and threads -/

/-- The kind of a core (R312). -/
inductive Kind where
  | compute | translation | hub
  deriving DecidableEq, Repr

/-- The kind of a core number (R10, R312). -/
def kindOf (core : Nat) : Kind := if core < 4096 then .compute else if core < 4352 then .translation else .hub

/-- The cluster of a compute or translation core. DEDUCED (log 51): a hub core, which lies in no cluster, is given the number 256 + n, so
that what one of its instructions asks of a cluster's block-transfer engine is done by an engine of its own. -/
def clusterOf (core : Nat) : Nat := if core < 4096 then core / 16 else core - 4096

/-- The translation core of a cluster. -/
def walkerOf (cluster : Nat) : Nat := 4096 + cluster

/-- Hub core n. -/
def hubCore (n : Nat) : Nat := 4352 + n

/-- The level at which the threads of a core stand after bring-up (log 2). -/
def startLevel (core : Nat) : Level :=
  match kindOf core with
  | .compute => .u
  | _ => .m

def State.core (s : State) (n : Nat) : Core := (Tab.find? s.cores n).getD Core.init
def State.setCore (s : State) (n : Nat) (c : Core) : State := { s with cores := Tab.set n c s.cores }
def State.cluster (s : State) (n : Nat) : Cluster := (Tab.find? s.clusters n).getD Cluster.init
def State.setCluster (s : State) (n : Nat) (c : Cluster) : State := { s with clusters := Tab.set n c s.clusters }

def State.thread (s : State) (h : Hart) : Thread :=
  (Tab.find? (s.core h.core).threads h.th).getD (Thread.init (startLevel h.core))

def State.setThread (s : State) (h : Hart) (t : Thread) : State :=
  s.setCore h.core { s.core h.core with threads := Tab.set h.th t (s.core h.core).threads }

/-- The thread whose instruction the machine is executing. -/
def State.me (s : State) : Thread := s.thread s.cur

def State.setMe (s : State) (t : Thread) : State := s.setThread s.cur t

/-- The core of that thread. -/
def State.myCore (s : State) : Core := s.core s.cur.core

def State.setMyCore (s : State) (c : Core) : State := s.setCore s.cur.core c

def State.sram (s : State) (p : Place) : Sram :=
  match p with
  | .core n => (s.core n).sram
  | .cluster n => (s.cluster n).sram

def State.setSram (s : State) (p : Place) (m : Sram) : State :=
  match p with
  | .core n => s.setCore n { s.core n with sram := m }
  | .cluster n => s.setCluster n { s.cluster n with sram := m }

def State.part (s : State) (n : Nat) : Part := (Tab.find? s.parts n).getD Part.init

/-- The commands that have entered, in queue order. -/
def Core.cmds (c : Core) : List Cmd := (c.running.toList ++ c.loading.toList).map Running.cmd ++ c.queue

/-- The context that a core runs: none while its owner is the firmware (R344, R351). -/
def Core.ctx? (c : Core) : Option Nat := if c.mowner = 0 then none else some c.mcontext.toNat

/-- The context that a core runs, as it stands. -/
def State.ctxOf (s : State) (core : Nat) : Option Ctx := (s.core core).ctx?.bind (Tab.find? s.ctxs)

/-- The partition of the context that a core runs, if the context exists. -/
def State.partOf (s : State) (core : Nat) : Option Nat := (s.ctxOf core).map Ctx.part

/-- R170: the cycles that a core's block clocks have made at a tick. -/
def cycleAt (core : Nat) : Nat → Nat
  | 0 => 0
  | n + 1 => cycleAt core n + Config.cyclesOf core n

/-- R170: CYCLE of a core. -/
def State.cycle (s : State) (core : Nat) : Word := BitVec.ofNat 64 (cycleAt core s.ticks)

/-- The clusters on which a context has a group. -/
def State.clustersOf (s : State) (ctx : Nat) : List Nat :=
  ((s.grids.filter (fun g => decide (g.2.ctx = ctx))).flatMap (fun g => (g.2.groups.filter (fun r => decide (r.state = 1))).map Group.cluster)).foldr
    (fun n l => if n ∈ l then l else n :: l) []

/-- R382: the class of the instruction that a thread last began, if that has retired since. -/
def Thread.due (t : Thread) : Option Nat := (t.bill.filter (fun q => decide (q.2 ≠ t.retired))).map Prod.fst

/-- R382: the weight of a class in the configuration record (log 8). -/
def Device.weight (d : Device) (cls : Nat) : Nat := d.record.weights.getD cls 0

/-- R382: the weights of the instructions of a context that have retired and are not yet in its account. -/
def State.billed (s : State) (ctx : Nat) : Nat :=
  (s.cores.map (fun q => if q.2.ctx? = some ctx then (q.2.threads.map (fun r => (r.2.due.map s.dev.weight).getD 0)).sum else 0)).sum

/-- R382: the COUNT of a context, which stops at 2^48 − 1: what it has been charged, and since `energyFrom`, unless it is pre-empted, the static
share of each cluster on which it is resident, by the cycles of that cluster's first core (log 8). -/
def State.energyCount (s : State) (ctx : Nat) (c : Ctx) : Nat :=
  min (c.energy + s.billed ctx + (match c.energyFrom with
    | some t => ((s.clustersOf ctx).map (fun n => Config.staticShare n * (cycleAt (16 * n) s.ticks - cycleAt (16 * n) t))).sum
    | none => 0)) (2 ^ 48 - 1)

/-- An instruction that has been put to account is not put to it again. -/
def Thread.paid (t : Thread) : Thread := if t.due.isSome then { t with bill := none } else t

/-- R382: a context's account is brought up to date, before the clusters change on which it is resident. -/
def State.settleEnergy (s : State) (ctx : Nat) : State :=
  match Tab.find? s.ctxs ctx with
  | none => s
  | some c => { s with
    ctxs := Tab.set ctx { c with energy := s.energyCount ctx c, energyFrom := c.energyFrom.map (fun _ => s.ticks) } s.ctxs
    cores := s.cores.map (fun q => if q.2.ctx? = some ctx then (q.1, { q.2 with threads := q.2.threads.map (fun r => (r.1, r.2.paid)) }) else q) }

/-- R382: a context is charged the weight of a class of the configuration record. -/
def State.charge (s : State) (ctx cls : Nat) : State :=
  match Tab.find? s.ctxs ctx with
  | none => s
  | some c =>
    { s with ctxs := Tab.set ctx { c with energy := min (c.energy + s.dev.weight cls) (2 ^ 48 - 1) } s.ctxs }

/-- R382, log 8: the class of an instruction in the configuration record: its major, and 33 for a halfword form. -/
def energyClass (i : Instr) : Nat := if i.isHalf then 33 else bits (encodeWord i) 2 6

/-- R382: a thread begins an instruction; the weight of its last one, if that has retired, is put to account. -/
def State.bill (s : State) (h : Hart) (i : Instr) : State :=
  let t := s.thread h
  let s1 := match t.due, (s.core h.core).ctx? with
    | some k, some n => s.charge n k
    | _, _ => s
  s1.setThread h { t with bill := some (energyClass i, t.retired) }

/-- Table 26.6: ENERGY. -/
def State.energyWord (s : State) (ctx : Nat) : Word :=
  match Tab.find? s.ctxs ctx with
  | none => 0
  | some c =>
    let n := s.energyCount ctx c
    BitVec.ofNat 64 (n + (if n = 2 ^ 48 - 1 then 2 ^ 63 else 0))

/-! ## DRAM (R349) -/

/-- The key that stands under a number: 0 is the firmware key, and n + 1 the key whose value is n. -/
def keyValue (k : Nat) : BitVec 512 := if k = 0 then Config.firmwareKey else BitVec.ofNat 512 (k - 1)

/-- A line that nothing has written, as read under a key: 64 zero bytes decrypted. -/
def freshLine (key line : Nat) : BitVec 512 := Aes.xtsDecrypt (keyValue key) line 0

/-- A line that one key encrypted, as read under another. -/
def foreignLine (key writer line : Nat) (plain : BitVec 512) : BitVec 512 :=
  Aes.xtsDecrypt (keyValue key) line (Aes.xtsEncrypt (keyValue writer) line plain)

/-- Byte i of a line. -/
def lineByte (v : BitVec 512) (i : Nat) : Byte := v.extractLsb' (8 * (i % 64)) 8

/-- A byte of a line under the key that it stands under. -/
def Dram.own (d : Dram) (key pa : Nat) : Byte := (Tab.find? d.cells pa).getD (lineByte (freshLine key (pa / 64)) pa)

/-- The plaintext of n bytes of a line from one on, under the key that it stands under. -/
def Dram.ownNat (d : Dram) (key pa : Nat) : Nat → Nat
  | 0 => 0
  | n + 1 => (d.own key pa).toNat + 256 * d.ownNat key (pa + 1) n

/-- The plaintext of a line under the key that it stands under. -/
def Dram.plain (d : Dram) (key line : Nat) : BitVec 512 := BitVec.ofNat 512 (d.ownNat key (64 * line) 64)

/-- R349: the byte at a physical address as read under a key. -/
def Dram.byte (d : Dram) (key pa : Nat) : Byte :=
  match Tab.find? d.keys (pa / 64) with
  | none => lineByte (freshLine key (pa / 64)) pa
  | some k =>
    if k = key then d.own key pa
    else lineByte (foreignLine key k (pa / 64) (d.plain k (pa / 64))) pa

/-- The n bytes from a physical address under a key, as a number. -/
def Dram.read (d : Dram) (key pa : Nat) : Nat → Nat
  | 0 => 0
  | n + 1 => (d.byte key pa).toNat + 256 * d.read key (pa + 1) n

/-- The first n bytes of a line are listed. -/
def listBytes (line : Nat) (v : BitVec 512) (n : Nat) (c : List Host.Cell) : List Host.Cell :=
  (List.range n).foldl (fun c i => Tab.set (64 * line + i) (lineByte v i) c) c

/-- A line stands under a key with a plaintext: all its 64 bytes are listed. -/
def Dram.setLine (d : Dram) (key line : Nat) (v : BitVec 512) : Dram :=
  { d with keys := Tab.set line key d.keys, cells := listBytes line v 64 d.cells }

/-- R349: a line comes under the key of a write: its bytes are those that it reads as under that key. -/
def Dram.claim (d : Dram) (key line : Nat) : Dram :=
  match Tab.find? d.keys line with
  | none => d.setLine key line (freshLine key line)
  | some k => if k = key then d else d.setLine key line (foreignLine key k line (d.plain k line))

/-- The canonical form of DRAM: bytes and lines ascend, and the bytes listed are all those of the lines that have been written. -/
def Dram.wf (d : Dram) : Bool :=
  Tab.ascending d.cells && Tab.ascending d.keys && d.cells.all (fun c => (Tab.find? d.keys (c.1 / 64)).isSome) &&
    d.keys.all (fun l => (List.range 64).all (fun i => (Tab.find? d.cells (64 * l.1 + i)).isSome))

/-- One byte written under a key. -/
def Dram.writeByte (d : Dram) (key pa : Nat) (b : Byte) : Dram :=
  let d' := d.claim key (pa / 64)
  { d' with cells := Tab.set pa b d'.cells }

/-- The n low bytes of a number written from a physical address under a key. -/
def Dram.write (d : Dram) (key pa : Nat) : Nat → Nat → Dram
  | 0, _ => d
  | n + 1, v => (d.writeByte key pa (BitVec.ofNat 8 v)).write key (pa + 1) n (v / 256)

/-- R337: the home of a physical address: the die and its memory-controller slice. -/
def dramHome (pa : Nat) : Home := .dram (16 * (pa / 2 ^ 36 % 8) + pa / 2 ^ 19 % 16)

def Home.isDram : Home → Bool
  | .dram _ => true
  | _ => false

/-! ## Registers -/

/-- R143: register n of class X; x0 reads 0, and x24 to x31 name h0 to h7 in a handler (R29). -/
def Thread.getX (t : Thread) (n : Fin 32) : Word :=
  if n.val = 0 then 0
  else if t.user.h && decide (24 ≤ n.val) then t.h[n.val - 24]'(by omega)
  else t.x[n.val]

/-- R143: a write of register n of class X; a write of x0 is discarded. -/
def Thread.setX (t : Thread) (n : Fin 32) (v : Word) : Thread :=
  if n.val = 0 then t
  else if t.user.h && decide (24 ≤ n.val) then { t with h := t.h.set (n.val - 24) v (by omega) }
  else { t with x := t.x.set n.val v }

def Thread.getV (t : Thread) (n : Fin 32) : Vec := t.v[n.val]
def Thread.setV (t : Thread) (n : Fin 32) (v : Vec) : Thread := { t with v := t.v.set n.val v }
def Thread.getM (t : Thread) (n : Fin 8) : Word32 := t.m[n.val]
def Thread.setM (t : Thread) (n : Fin 8) (v : Word32) : Thread := { t with m := t.m.set n.val v }

/-- R97: flags accrue into FFLAGS. -/
def Thread.accrue (t : Thread) (f : BitVec 5) : Thread := { t with fflags := t.fflags ||| f }

/-- R225: the repeat that the thread's next instruction belongs to: none in a handler of the level or at another level. -/
def Thread.repeat? (t : Thread) : Option Repeat :=
  match t.rep with
  | none => none
  | some r => if !t.user.h && decide (t.level = r.level) then some r else none

/-- R225: where a thread goes from the last instruction of a repeated body: back to its start while passes are left, and past
it with the repeat ended after the last. A handler's own instructions leave the repeat alone. -/
def Thread.goto (t : Thread) (next : Word) : Thread :=
  match t.repeat? with
  | none => { t with pc := next }
  | some r =>
    if next = r.start + BitVec.ofNat 64 r.bytes.length then
      if r.left ≤ 1 then { t with pc := next, rep := none }
      else { t with pc := r.start, rep := some { r with left := r.left - 1 } }
    else { t with pc := next }

/-- R225: a trap leaves the repeat at an instruction of its body. -/
def Thread.leaveRepeat (t : Thread) (epc : Word) : Option Repeat :=
  match t.repeat? with
  | none => t.rep
  | some r => some { r with trapped := epc }

/-- R225: a return to the instruction at which the repeat was left resumes it; a return to any other address ends it. -/
def Thread.returnTo (t : Thread) (target : Word) : Thread :=
  let t' := { t with pc := target }
  match t'.repeat? with
  | none => t'
  | some r => if target = r.trapped then t' else { t' with rep := none }

/-- R138, R170: the thread has completed an instruction of len bytes and goes to the next. -/
def Thread.advance (t : Thread) (len : Nat) : Thread :=
  ({ t with retired := t.retired + 1 }).goto (t.pc + BitVec.ofNat 64 len)

/-- The thread has completed an instruction that goes to a target. -/
def Thread.jump (t : Thread) (target : Word) : Thread := { t with retired := t.retired + 1, pc := target }

/-- The machine after an instruction of len bytes whose thread becomes t. -/
def State.retire (s : State) (t : Thread) (len : Nat) : State := s.setMe (t.advance len)

/-- A fresh free value (log 11) and the machine that has drawn it. -/
def State.draw (s : State) : Word × State := (Config.freeWord s.free, { s with free := s.free + 1 })

/-! ## Privilege -/

/-- Whether a core has level S (R312). -/
def hasS (core : Nat) : Bool := decide (kindOf core ≠ .compute)

/-- The code of a level (R312). -/
def Level.code : Level → Nat
  | .u => 0 | .s => 1 | .m => 3

/-- The level of a code, where the core has it. -/
def levelOf (n : Nat) : Level := if n = 0 then .u else if n = 1 then .s else .m

/-- The lowest level of a core (Table 21.1). -/
def lowestLevel (core : Nat) : Level :=
  match kindOf core with
  | .translation => .s
  | _ => .u

/-- R322: the causes that may be delegated to U (Table 21.2): cause 1 on compute cores only. -/
def delegMask (k : Kind) : Word :=
  match k with
  | .compute => 0x19FFF00B05F#64
  | _ => 0x19FFF00B05D#64

/-- R314: whether cause c is delegated to U for a thread. -/
def delegated (s : State) (h : Hart) (c : Nat) : Bool :=
  match kindOf h.core with
  | .compute => (s.core h.core).mudeleg.getLsbD c
  | .hub => (s.thread h).priv.sudeleg.getLsbD c
  | .translation => false

/-- Whether a thread is a user thread (R20). -/
def isUserThread (h : Hart) : Bool := decide (kindOf h.core ≠ .compute) || decide (h.th < 4)

/-- R314: the traps that are never taken at U: an action-table refusal (R78) and any trap of a drain or spill thread. The third, a
refused peer store (R178), is met after its store is cleared and is reported as it is found (`State.lateFault`). -/
def forced (h : Hart) (c : Nat) (utag : BitVec 14) : Bool := (decide (c = 24) && decide (bits utag 6 3 = 4)) || !isUserThread h

/-- What a trap or an interrupt leaves of the accesses that the thread waited for. -/
def Thread.calmed (t : Thread) : Thread := { t with pend := none, gathered := [], late := [], drain := none }

/-- R29: entry of a user-level handler, with pc saved as epc. -/
def Thread.enterUser (t : Thread) (epc : Word) (cause : Nat) (value : Word) : Thread :=
  { t.calmed with
    user := { t.user with uepc := epc &&& ~~~ 1#64, ucause := BitVec.ofNat 7 cause, uval := value, h := true }
    rep := t.leaveRepeat epc
    pc := t.user.utvec
    status := .run }

/-- Table 21.7: a cause register's value. -/
def causeWord (int nest fwd : Bool) (code : Nat) : Word :=
  (if int then 1#64 <<< 63 else 0) ||| (if nest then 1#64 <<< 62 else 0) ||| (if fwd then 1#64 <<< 61 else 0) |||
    BitVec.ofNat 64 (code % 128)

/-- R314: entry at S: pc, cause and value saved, SPP and SPIE from the level and SIE, SIE cleared. -/
def Thread.enterS (t : Thread) (cause value : Word) : Thread :=
  let ms := t.priv.mstatus
  let ms := setBits ms 8 1 (if t.level = .u then 0 else 1)
  let ms := setBits ms 5 1 (bits ms 1 1)
  let ms := setBits ms 1 1 0
  { t.calmed with
    priv := { t.priv with sepc := t.pc, scause := cause, sval := value, mstatus := ms }
    rep := t.leaveRepeat t.pc
    level := .s
    pc := t.priv.stvec
    status := .run }

/-- R314: the M-level registers that a trap saves into. -/
def Thread.saveM (t : Thread) (cause value : Word) : Thread :=
  let ms := t.priv.mstatus
  let ms := setBits ms 11 2 t.level.code
  let ms := setBits ms 7 1 (bits ms 3 1)
  let ms := setBits ms 3 1 0
  { t with
    priv := { t.priv with mepc := t.pc, mcause := cause, mval := value, mstatus := ms }
    rep := t.leaveRepeat t.pc }

/-- R314: entry at M. -/
def Thread.enterM (t : Thread) (cause value : Word) : Thread :=
  { (t.saveM cause value).calmed with level := .m, pc := t.priv.mtvec, status := .run }

/-- R327: MRET. -/
def Thread.leaveM (t : Thread) (lowest : Level) : Thread :=
  let ms := t.priv.mstatus
  let lvl := levelOf (bits ms 11 2)
  let ms := setBits ms 3 1 (bits ms 7 1)
  let ms := setBits ms 7 1 1
  let ms := setBits ms 11 2 lowest.code
  ({ t with priv := { t.priv with mstatus := ms }, level := lvl }).returnTo t.priv.mepc

/-- R327: SRET. -/
def Thread.leaveS (t : Thread) : Thread :=
  let ms := t.priv.mstatus
  let lvl := levelOf (bits ms 8 1)
  let ms := setBits ms 1 1 (bits ms 5 1)
  let ms := setBits ms 5 1 1
  let ms := setBits ms 8 1 0
  ({ t with priv := { t.priv with mstatus := ms }, level := lvl }).returnTo t.priv.sepc

/-! ## Interrupt bits -/

def Status.isWfi : Status → Bool
  | .wfi => true
  | _ => false

/-- R328: a thread in WFI looks again once an interrupt that MIE or SIE enables is pending. -/
def Thread.wakeWfi (t : Thread) : Thread :=
  if t.status.isWfi && decide ((t.priv.mip &&& t.priv.mie) ||| (t.priv.sip &&& t.priv.sie) ≠ 0) then { t with status := .again }
  else t

/-- R317: a source drives the M-level bit of a code. -/
def Thread.driveM (t : Thread) (code : Nat) (on : Bool) : Thread :=
  ({ t with priv := { t.priv with mip := setBits t.priv.mip (code - 64) 1 on.toNat } }).wakeWfi

/-- R317: a source drives the S-level bit of a code. -/
def Thread.driveS (t : Thread) (code : Nat) (on : Bool) : Thread :=
  ({ t with priv := { t.priv with sip := setBits t.priv.sip (code - 64) 1 on.toNat } }).wakeWfi

def State.driveM (s : State) (h : Hart) (code : Nat) (on : Bool) : State := s.setThread h ((s.thread h).driveM code on)
def State.driveS (s : State) (h : Hart) (code : Nat) (on : Bool) : State := s.setThread h ((s.thread h).driveS code on)

/-- The hub core that serves the queue of a grid (R315, R353). -/
def State.hubOf (s : State) (gid : Nat) : Nat :=
  hubCore (((Tab.find? s.grids gid).map Grid.queue).getD 0 % 4)

/-- R315: the trap report of a thread (Table 21.4). -/
def State.reportOf (s : State) (h : Hart) (cause : Nat) (value : Word) (utag : BitVec 14) (nest : Bool) : Report :=
  let t := s.thread h
  let c := s.core h.core
  { hart := h, cause := causeWord false nest true cause, value := value, epc := t.pc, node := t.nodeid,
    utag := if cause = 24 then utag else 0, ctx := c.mcontext.toNat, owner := c.mowner, cycle := s.cycle h.core, grid := t.grid }

/-- Table 21.4: the 64 bytes of a report. -/
def Report.nat (r : Report) : Nat :=
  r.cause.toNat + 2 ^ 64 * r.value.toNat + 2 ^ 128 * r.epc.toNat + 2 ^ 192 * r.node.toNat + 2 ^ 256 * r.utag.toNat +
    2 ^ 320 * (r.ctx % 2 ^ 32 + 2 ^ 32 * r.owner.toNat) + 2 ^ 384 * r.cycle.toNat

/-- R315: where the report of a number lies: a hub core's queue is a ring in DRAM of one place more than the 256 reports that it holds,
because the report that the hub core handles keeps its place (log 21). -/
def reportAt (core n : Nat) : Nat := 64 * (Config.firmwareBase (64 + core) % (2 ^ 32 - 257) + n % 257)

/-- R315: a report enters the queue of a hub core, which holds 256; while it is full, the monitor that has a report waits. -/
def State.post (s : State) (hub : Nat) (r : Report) : State :=
  let c := s.core hub
  if c.reports.length < 256 then
    let n := c.reportSeq
    ({ s with dram := s.dram.write 0 (reportAt hub n) 64 r.nat }).setCore hub
      { c with reports := c.reports ++ [(n, r)], reportSeq := n + 1 }
  else s.setCore hub { c with reportsHeld := c.reportsHeld ++ [r] }

/-- R399: while a context is armed, the report of a breakpoint is also a stop event: the interval, the thread's key and RETIRED. -/
def State.stopEvent (s : State) (r : Report) : State :=
  match Tab.find? s.ctxs r.ctx with
  | none => s
  | some c =>
    if bits r.cause 0 7 = 3 ∧ c.dbg.armed.isSome then
      let e := (c.dbg.interval, 8 * r.hart.core + r.hart.th, (s.thread r.hart).retired)
      { s with ctxs := Tab.set r.ctx { c with dbg := { c.dbg with events := c.dbg.events ++ [e] } } s.ctxs }
    else s

/-- R315: a report goes to the hub core that serves the context's command queue. -/
def State.report (s : State) (r : Report) : State := (s.stopEvent r).post (s.hubOf r.grid) r

/-- R315: forwards a trap of a compute core's thread, which stays not ready with its registers and pc as they stood. -/
def State.forward (s : State) (h : Hart) (cause : Nat) (value : Word) (utag : BitVec 14) (nest : Bool) : State :=
  let s' := s.report (s.reportOf h cause value utag nest)
  s'.setThread h { (s'.thread h).calmed with status := .report }

/-- R314, R29: a synchronous trap of a thread is taken at the first level that the procedure selects. A trap at U that is forced, or a delegated
one that meets an active handler or no vector, carries the nesting bit. On a compute core the M level is the resident monitor's, which forwards the trap
(R315). -/
def State.takeTrap (s : State) (h : Hart) (cause : Nat) (value : Word) (utag : BitVec 14) : State :=
  let t := s.thread h
  let s1 := if cause = 24 then s.setThread h { t with user := { t.user with utag := utag } } else s
  let t1 := s1.thread h
  let nest := decide (t.level = .u) && forced h cause utag
  let up : State :=
    if hasS h.core ∧ t.level ≠ .m ∧ bit t.priv.msdeleg cause then s1.setThread h (t1.enterS (causeWord false nest false cause) value)
    else match kindOf h.core with
      | .compute => (s1.setThread h (t1.saveM (causeWord false false false cause) value)).forward h cause value utag nest
      | _ => s1.setThread h (t1.enterM (causeWord false nest false cause) value)
  if t.level = .u ∧ delegated s h cause ∧ forced h cause utag = false then
    if t.user.h = false ∧ t.user.utvec ≠ 0 then s1.setThread h (t1.enterUser t.pc cause value)
    else match kindOf h.core with
      | .compute => s1.forward h cause value utag true
      | _ =>
        if bit t.priv.msdeleg cause then s1.setThread h (t1.enterS (causeWord false true false cause) value)
        else s1.setThread h (t1.enterM (causeWord false true false cause) value)
  else up

/-- A trap of a thread; `trapped` notes one of the current thread, which comes before any interrupt (R318). -/
def State.trap (s : State) (h : Hart) (cause : Nat) (value : Word) (utag : BitVec 14 := 0) : State :=
  ({ s with trapped := s.trapped || decide (h = s.cur) }).takeTrap h cause value utag

/-- The next turn is a thread's. -/
def State.turnTo (s : State) (h : Hart) : State := { s with agenda := .issue h :: s.agenda }

/-- A trap of the thread whose instruction is executed. -/
def State.trapMe (s : State) (cause : Nat) (value : Word) : Result := .next (s.trap s.cur cause value)

/-- R150, R324: the pattern that an instruction's first halfword or word holds. -/
def patternOf (i : Instr) : Word :=
  if i.isHalf then (encodeHalf i).setWidth 64 else (encodeWord i).setWidth 64

/-- R150: cause 2 with the pattern as value. -/
def State.illegal (s : State) (i : Instr) : Result := s.trapMe 2 (patternOf i)

/-- Blocks the thread: its pc stays, and the instruction is executed again when the thread is ready. -/
def State.block (s : State) (w : Status) : Result := .next (s.setMe { s.me with status := w })

/-- Wakes the threads of a core that wait for a reason. -/
def wakeThreads (p : Status → Bool) (ts : Tab Thread) : Tab Thread :=
  ts.map (fun q => (q.1, if p q.2.status then { q.2 with status := .again } else q.2))

def Core.wake (c : Core) (p : Status → Bool) : Core := { c with threads := wakeThreads p c.threads }

def Status.isEngine : Status → Bool
  | .engine => true
  | _ => false

def Status.isMrecv : Status → Bool
  | .mrecv => true
  | _ => false

/-- The next number for a message or access. -/
def State.fresh (s : State) : Nat × State := (s.nextId, { s with nextId := s.nextId + 1 })

/-- Sends a message. -/
def State.send (s : State) (m : Msg) : State := { s with net := s.net ++ [m] }

def Msg.id : Msg → Nat
  | .access a => a.id
  | .group n _ => n
  | .reply a _ => a.id
  | .user n _ _ _ => n
  | .record n _ _ _ => n

/-- The message with a number, if it is in the network. -/
def State.msg? (s : State) (n : Nat) : Option Msg := s.net.find? (fun m => decide (m.id = n))

/-- The accesses of a message of accesses. -/
def Msg.accesses : Msg → List Access
  | .access a => [a]
  | .group _ as => as
  | _ => []

/-- Takes accesses of an instruction out of the network, the park lists and the places behind them. -/
def Sram.withdraw (m : Sram) (ids : List Nat) : Sram :=
  { m with
    parks := m.parks.filter (fun p => decide (p.access.id ∉ ids))
    held := m.held.filter (fun a => decide (a.id ∉ ids)) }

def Msg.withdraw (ids : List Nat) : Msg → Option Msg
  | .access a => if a.id ∈ ids then none else some (.access a)
  | .reply a r => if a.id ∈ ids then none else some (.reply a r)
  | .group n as => match as.filter (fun a => decide (a.id ∉ ids)) with
    | [] => none
    | as' => some (.group n as')
  | m => some m

def State.withdraw (s : State) (ids : List Nat) : State :=
  { s with
    net := s.net.filterMap (Msg.withdraw ids)
    cores := s.cores.map (fun q => (q.1, { q.2 with sram := q.2.sram.withdraw ids }))
    clusters := s.clusters.map (fun q => (q.1, { q.2 with sram := q.2.sram.withdraw ids })) }

/-- Whether a thread may issue (R21). -/
def Status.ready : Status → Bool
  | .run => true
  | .again => true
  | _ => false

/-- Takes a message out of the network. -/
def State.unsend (s : State) (n : Nat) : State := { s with net := s.net.filter (fun m => decide (m.id ≠ n)) }

end Sys2Proof.Machine
end

