-- ==== Sys2Proof/Machine/Operands.lean ====
section
/-! DEFINITION. How source operands are read (Table 10.8), and vectors as lanes (R200). -/

namespace Sys2Proof.Machine

/-- Table 10.7: the integer of a constant code: codes 32 to 47 are 0 to 15, codes 48 to 55 are −8 to −1. -/
def constVal (c : Fin 24) : Int := if c.val < 16 then (c.val : Int) else (c.val : Int) - 24

/-- R17: sign extension of a 32-bit literal. -/
def sext32 (w : BitVec 32) : Word := w.signExtend 64

/-- R143: a source of class X in integer use. -/
def Thread.opX (t : Thread) : Opnd → Word
  | .reg n => t.getX n
  | .const c => BitVec.ofInt 64 (constVal c)
  | .lit32 w => sext32 w
  | .lit64 w => w

/-- R143, R171: a source of class X in FP32 use, as a 32-bit pattern. -/
def Thread.opF32 (t : Thread) : Opnd → Nat
  | .reg n => bits (t.getX n) 0 32
  | .const c => (Fmt.f32.pack .rne false (Num.ofInt (constVal c))).bits
  | .lit32 w => w.toNat
  | .lit64 w => bits w 0 32

/-- R143, R171: a source of class X in FP64 use, as a 64-bit pattern; a 32-bit literal is widened exactly, a NaN
with its sign and its mantissa bits. -/
def Thread.opF64 (t : Thread) : Opnd → Nat
  | .reg n => (t.getX n).toNat
  | .const c => (Fmt.f64.pack .rne false (Num.ofInt (constVal c))).bits
  | .lit32 w =>
    if (Fmt.f32.decode w.toNat).isNan then Fmt.f64.signed (bit w 31) (0x7FF * 2 ^ 52 + bits w 0 23 * 2 ^ 29)
    else (Fmt.f64.pack .rne false (Fmt.f32.decode w.toNat)).bits
  | .lit64 w => w.toNat

/-- The scalar format that P selects (R171). -/
def fmtP (p : Bool) : Fmt := if p then .f64 else .f32

/-- A scalar FP source at precision P, as a pattern. -/
def Thread.opF (t : Thread) (p : Bool) (o : Opnd) : Nat := if p then t.opF64 o else t.opF32 o

/-- R143: a source of class K. -/
def Thread.opK (t : Thread) : Opnd → Word32
  | .reg n => t.m[n.val % 8]'(by omega)
  | .const c => BitVec.ofInt 32 (constVal c)
  | .lit32 w => w
  | .lit64 w => w.setWidth 32

/-! ## Lanes -/

/-- R200: lane i of w bytes, as a pattern. -/
def lane (v : Vec) (w i : Nat) : Nat := (v.extractLsb' (8 * w * i) (8 * w)).toNat

/-- The n lanes of w bytes that f gives, as a number. -/
def lanesNat (w : Nat) (f : Nat → Nat) : Nat → Nat
  | 0 => 0
  | n + 1 => lanesNat w f n + (f n % 2 ^ (8 * w)) * 2 ^ (8 * w * n)

/-- The vector whose lanes of w bytes f gives. -/
def vecOf (w : Nat) (f : Nat → Nat) : Vec := BitVec.ofNat 512 (lanesNat w f (64 / w))

/-- R201: whether lane i of w bytes is active under a mask. -/
def active (m0 : Word32) (w i : Nat) : Bool := m0.getLsbD (i * w / 2)

/-- The bytes of a lane width. -/
def widthBytes : Width → Nat
  | .w4 => 4 | .w2 => 2 | .w1 => 1

/-- The bytes of a floating lane type. -/
def ftBytes : FType → Nat
  | .f32 => 4 | .bf16 => 2 | .f16 => 2 | .fp8a => 1 | .fp8b => 1

/-- The lane type of a floating lane type. -/
def ftLt : FType → LType
  | .f32 => .f32 | .bf16 => .bf16 | .f16 => .f16 | .fp8a => .fp8a | .fp8b => .fp8b

/-- The integer lane type of a width. -/
def widthLt : Width → LType
  | .w4 => .i32 | .w2 => .i16 | .w1 => .i8

/-- The format of a lane type, none for an integer type. -/
def ltFmt? : LType → Option Fmt
  | .f32 => some .f32 | .bf16 => some .bf16 | .f16 => some .f16 | .fp8a => some .e4m3 | .fp8b => some .e5m2
  | _ => none

/-- The value of a lane of a type. -/
def ltValue (lt : LType) (b : Nat) : Num :=
  match ltFmt? lt with
  | some f => f.decode b
  | none => Num.ofInt (sext (8 * lt.bytes) b)

/-- R98: cvt to a lane type, as a pattern with flags; a signalling NaN raises NV (R87). -/
def ltCvt (lt : LType) (rm : Rm) (sat : Bool) (x : Num) : FRes :=
  match ltFmt? lt with
  | some f => let r := f.pack rm sat x; ⟨r.bits, r.fl ||| nvIf x.isSig⟩
  | none =>
    let n := 8 * lt.bytes
    let (v, fl) := cvtInt rm (-(2 ^ (n - 1) : Nat)) ((2 ^ (n - 1) : Nat) - 1) x
    ⟨ofSigned n v, fl⟩

/-- R143: a source of class V for lanes of a type. -/
def Thread.opV (t : Thread) (lt : LType) : Opnd → Vec
  | .reg n => t.getV n
  | .const c => vecOf lt.bytes (fun _ => (ltCvt lt .rne true (Num.ofInt (constVal c))).bits)
  | .lit32 w => vecOf lt.bytes (fun _ => w.toNat)
  | .lit64 w => vecOf lt.bytes (fun _ => w.toNat)

/-- R138: the length of a 32-bit instruction with source operands a and b. -/
def len2 (a b : Opnd) : Nat := 4 + a.litBytes + b.litBytes

/-- R138: the length of a 32-bit instruction with one source operand. -/
def len1 (a : Opnd) : Nat := 4 + a.litBytes

end Sys2Proof.Machine
end

