-- ==== Sys2Proof/Machine/Abort.lean ====
section
/-! DEFINITION. Stopping a grid (R363): its nodes and its children's stop, their parked and held accesses are discarded, and
the error code waits for the grid's error event. -/

namespace Sys2Proof.Machine

/-- The grids of a list with their children, and theirs, n levels down (R31, R363). -/
def withChildren (s : State) : Nat → List Nat → List Nat
  | 0, gs => gs
  | n + 1, gs =>
    let kids := gs.flatMap (fun g => ((Tab.find? s.grids g).map Grid.children).getD [])
    gs ++ withChildren s n (kids.filter (fun g => decide (g ∉ gs)))

/-- A stopped thread hosts no node and waits for nothing. -/
def Thread.stop (t : Thread) : Thread := { t.calmed with status := .idle, rep := none, member := none, deferred := none }

/-- The harts of a core that run a grid of a list, or whose nodes of it have ended with accesses on their way. -/
def hartsOf (core : Nat) (c : Core) (gs : List Nat) : List Hart :=
  (c.threads.filter (fun q => decide (q.2.grid ∈ gs))).map (fun q => ⟨core, q.1⟩)

def Sram.discard (m : Sram) (hs : List Hart) : Sram :=
  { m with
    parks := m.parks.filter (fun p => decide (p.access.hart ∉ hs))
    held := m.held.filter (fun a => decide (a.hart ∉ hs)) }

/-- A grid takes an error code, unless it is complete or has one. -/
def Grid.abort (g : Grid) (code : Nat) : Grid :=
  if g.complete ∨ g.aborting.isSome then g
  else { g with aborting := some code, groups := g.groups.map (fun r => { r with state := 2 }) }

/-- R50, R54: every member of a domain has exited; the domain is no longer open, and only its beats on their way remain. -/
def Domain.closing (d : Domain) : Bool := d.members.all Member.exited

/-- R50: a closing domain has nothing on its way. -/
def Domain.closed (d : Domain) : Bool := d.closing && d.flying.isEmpty && d.sends.isEmpty

/-- R363: the domain of a stopped grid: its sends that have not begun are dropped; a send that is part-way and the beats on their way
are performed. -/
def Domain.abort (d : Domain) : Option Domain :=
  let d1 := { d with members := d.members.map (fun m => { m with exited := true }), sends := d.sends.filter (fun b => decide (0 < b.next)) }
  if d1.closed then none else some d1

/-- A matrix command that only changes its engine: what a stopped grid's threads have issued of these is still done (log 29). -/
def staysInEngine : Instr → Bool
  | .mxCfg _ _ _ _ => true
  | .mxLdw _ _ _ => true
  | .mxSwap _ => true
  | .mxDup _ _ => true
  | .mxStream _ _ _ _ => true
  | .mxZero _ _ => true
  | .attnQld _ _ _ => true
  | .attnMerge _ _ => true
  | _ => false

/-- R363: the commands of stopped threads leave a core's engine and its queue, but for those that only change the engine. -/
def Core.stopCmds (c : Core) (hs : List Hart) : Core :=
  let stays (q : Cmd) : Bool := decide (q.hart ∉ hs) || staysInEngine q.instr
  let run := c.running.filter (fun r => stays r.cmd)
  let load := c.loading.filter (fun r => stays r.cmd)
  { c with
    queue := c.queue.filter stays
    running := if run.isSome then run else load
    loading := if run.isSome then load else none }

/-- R363: the grids of a list and their children are stopped with an error code. The number of a domain of theirs is free; its beats land under a key
of its own, as after a last exit (log 73). -/
def State.abortGrids (s : State) (gs : List Nat) (code : Nat) : State :=
  let live (g : Nat) : Bool := match Tab.find? s.grids g with
    | some r => !r.complete && r.aborting.isNone
    | none => false
  let all := (withChildren s 9 gs).filter live
  let s := (all.filterMap (fun g => (Tab.find? s.grids g).map Grid.ctx)).foldl State.settleEnergy s
  let hs := s.cores.flatMap (fun q => hartsOf q.1 q.2 all)
  { s with
    grids := s.grids.map (fun q => (q.1, if q.1 ∈ all then q.2.abort code else q.2))
    cores := s.cores.map (fun q => (q.1, { q.2.stopCmds hs with
      threads := q.2.threads.map (fun r => (r.1, if decide (r.2.grid ∈ all) then r.2.stop else r.2))
      sram := q.2.sram.discard hs }))
    clusters := s.clusters.map (fun q => (q.1, { q.2 with
      sram := q.2.sram.discard hs }))
    domains := s.domains.foldl (fun t q => if q.2.gid ∉ all then t
      else match q.2.abort with
        | none => Tab.del q.1 t
        | some d => Tab.set (16 + d.gid) d (Tab.del q.1 t)) s.domains }

/-- The grids of the contexts that a predicate names. -/
def State.gridsOf (s : State) (p : Nat → Ctx → Bool) : List Nat :=
  (s.grids.filter (fun q => match Tab.find? s.ctxs q.2.ctx with
    | some c => p q.2.ctx c
    | none => false)).map Prod.fst

/-- Table 27.1: the contexts of an owner in the partition of a cluster are aborted with code 8. -/
def State.abortOwner (s : State) (cluster : Nat) (o : BitVec 12) : State :=
  let inPart (n : Nat) : Bool := decide (cluster ∈ (s.part n).clusters)
  s.abortGrids (s.gridsOf (fun _ c => decide (c.owner = o) && inPart c.part)) 8

/-- Table 27.1, R389: every context resident in a cluster is aborted with code 8: all its grids, wherever they run. -/
def State.abortCluster (s : State) (cluster : Nat) : State :=
  let here := (s.grids.filter (fun q => q.2.groups.any (fun r => decide (r.cluster = cluster) && decide (r.state = 1)))).map (fun q => q.2.ctx)
  s.abortGrids (s.gridsOf (fun n _ => decide (n ∈ here))) 8

end Sys2Proof.Machine
end

