-- ==== Sys2Proof/Machine/Partition.lean ====
section
/-! DEFINITION. The partition, orbit and watchdog registers at physical addresses from 0xF0_0000_0000 (R352, Tables 24.1, 3.9
and 26.2): their writes as device steps, and their reads. -/

namespace Sys2Proof.Machine

def State.setPart (s : State) (n : Nat) (p : Part) : State := { s with parts := Tab.set n p s.parts }

/-- Whether some context of a partition exists. -/
def State.partBusy (s : State) (n : Nat) : Bool := s.ctxs.any (fun q => decide (q.2.part = n))

/-- Whether a grid of a partition is admitted and not yet complete. -/
def State.partHasGrid (s : State) (n : Nat) : Bool :=
  s.grids.any (fun q => !q.2.complete && (match Tab.find? s.ctxs q.2.ctx with
    | some c => decide (c.part = n)
    | none => false))

/-- Whether a context of a partition is resident on a cluster. -/
def State.residentOn (s : State) (n cl : Nat) : Bool :=
  s.grids.any (fun q => !q.2.complete && q.2.groups.any (fun r => decide (r.cluster = cl) && decide (r.state = 1)) &&
    (match Tab.find? s.ctxs q.2.ctx with
    | some c => decide (c.part = n)
    | none => false))

/-- The clusters that 64 bits name from cluster 64 j on. -/
def clusterBits (j : Nat) (v : Word) : List Nat := ((List.range 64).filter (fun i => bit v i)).map (fun i => 64 * j + i)

/-- R352: a write of PARTCLn, ignored as a whole in the three cases named there. -/
def State.writePartcl (s : State) (n j : Nat) (v : Word) : State :=
  let p := s.part n
  let new := clusterBits j v
  let taken := new.any (fun c => s.parts.any (fun q => decide (q.1 ≠ n) && decide (c ∈ q.2.clusters)))
  let removed := p.clusters.filter (fun c => decide (c / 64 = j) && decide (c ∉ new))
  if taken || removed.any (fun c => s.residentOn n c) || new.any (fun c => decide (c ∈ s.dev.withheld)) then s
  else s.setPart n { p with clusters := p.clusters.filter (fun c => decide (c / 64 ≠ j)) ++ new }

/-- The number of orbit slots that a partition owns in an orbit table. -/
def slotsOf (o : Tab (BitVec 7)) (n : Nat) : Nat :=
  ((List.range 64).filter (fun k => decide (bits (Tab.get 0 o k) 0 6 = n) && bit (Tab.get 0 o k) 6)).length

/-- The orbit table with the writes that the next boundary will apply. -/
def State.orbitPending (s : State) : Tab (BitVec 7) := s.orbitNext.foldl (fun o q => Tab.put 0 q.1 q.2 o) s.orbit

/-- R352: whether an orbit table leaves a partition without a slot that had one before, while it has a grid that is admitted and not
yet complete. -/
def State.orbitBad (s : State) (old new : Tab (BitVec 7)) : Bool :=
  (List.range 64).any (fun n => decide (slotsOf new n = 0) && decide (0 < slotsOf old n) && s.partHasGrid n)

/-- R352, R46: a write of ORBITk waits for the next orbit boundary; it is ignored when it would leave a partition with an
incomplete grid without a slot. -/
def State.writeOrbit (s : State) (k : Nat) (v : Word) : State :=
  let now := s.orbitPending
  if s.orbitBad now (Tab.put 0 k (v.setWidth 7) now) then s else { s with orbitNext := Tab.set k (v.setWidth 7) s.orbitNext }

/-- R352, log 99: the orbit table after the boundary: every pending write, or, where a grid admitted since a write would lose the last slot
of its partition, the pending writes one by one, without those that would take it. -/
def State.orbitApplied (s : State) : Tab (BitVec 7) :=
  if s.orbitBad s.orbit s.orbitPending then
    s.orbitNext.foldl (fun o q => if s.orbitBad o (Tab.put 0 q.1 q.2 o) then o else Tab.put 0 q.1 q.2 o) s.orbit
  else s.orbitPending

/-- R34: a write of GDWDn, ignored as a whole outside its range. -/
def State.writeGdwd (s : State) (n : Nat) (v : Word) : State :=
  if zeroBits v 17 47 && decide (100 ≤ v.toNat) && decide (v.toNat ≤ 100000) then
    s.setPart n { s.part n with gdwd := v.toNat } else s

/-- R373: a write of HALTWDn, ignored as a whole outside its range. -/
def State.writeHaltwd (s : State) (n : Nat) (v : Word) : State :=
  if zeroBits v 14 50 && decide (10 ≤ v.toNat) && decide (v.toNat ≤ 10000) then
    s.setPart n { s.part n with haltwd := v.toNat } else s

/-- R352: a write of PARTOWNn, ignored as a whole while a context of the partition exists and when it names owner 0. -/
def State.writePartown (s : State) (n : Nat) (v : Word) : State :=
  if s.partBusy n || zeroBits v 0 12 then s else s.setPart n { s.part n with owner := v.setWidth 12 }

/-- A register of Table 24.1 or 26.2. -/
inductive DevReg where
  | partcl (n j : Nat) | orbit (k : Nat) | haltwd (n : Nat) | gdwd (n : Nat) | partown (n : Nat)
  deriving DecidableEq, Repr

/-- The register whose 8 bytes hold a physical address (Tables 24.1, 3.9, 26.2). -/
def devReg (pa : Nat) : Option DevReg :=
  let o := pa - 0xF000000000
  if pa < 0xF000000000 then none
  else if o < 32 * 64 then some (.partcl (o / 32) (o / 8 % 4))
  else if 0x10000 ≤ o ∧ o < 0x10000 + 8 * 64 then some (.orbit ((o - 0x10000) / 8))
  else if 0x20000 ≤ o ∧ o < 0x20000 + 8 * 64 then some (.haltwd ((o - 0x20000) / 8))
  else if 0x20200 ≤ o ∧ o < 0x20200 + 8 * 64 then some (.gdwd ((o - 0x20200) / 8))
  else if 0x20400 ≤ o ∧ o < 0x20400 + 8 * 64 then some (.partown ((o - 0x20400) / 8))
  else none

def State.readDev (s : State) (r : DevReg) : Word :=
  match r with
  | .partcl n j => BitVec.ofNat 64 (((s.part n).clusters.filter (fun c => decide (c / 64 = j))).foldl (fun v c => v + 2 ^ (c % 64)) 0)
  | .orbit k => (Tab.get 0 s.orbit k).setWidth 64
  | .haltwd n => BitVec.ofNat 64 (s.part n).haltwd
  | .gdwd n => BitVec.ofNat 64 (s.part n).gdwd
  | .partown n => (s.part n).owner.setWidth 64

def State.writeDev (s : State) (r : DevReg) (v : Word) : State :=
  match r with
  | .partcl n j => s.writePartcl n j v
  | .orbit k => s.writeOrbit k v
  | .haltwd n => s.writeHaltwd n v
  | .gdwd n => s.writeGdwd n v
  | .partown n => s.writePartown n v

/-- R352: whether an access of a core at a level reaches a partition register at a physical address: those of hub cores at S or M do. -/
def devAt (core : Nat) (l : Level) (pa : Nat) : Bool :=
  decide (kindOf core = .hub) && decide (l ≠ .u) && (devReg pa).isSome

/-- R352: write of a partition's cluster set. -/
def execPartclWrite (n : Fin 64) (j : Fin 4) (v : Word) (s : State) : Result := .next (s.writePartcl n.val j.val v)

/-- R352: write of an orbit slot's owner. -/
def execOrbitWrite (slot : Fin 64) (v : Word) (s : State) : Result := .next (s.writeOrbit slot.val v)

/-- R352: the pending orbit writes take effect at the orbit boundary; each is still ignored where a grid has been admitted meanwhile
that it would leave without a slot (log 99). -/
def execOrbitUpdateApply (s : State) : Result := .next { s with orbit := s.orbitApplied, orbitNext := [] }

/-- R34: write of a partition's grid-deadlock period. -/
def execGdwdWrite (n : Fin 64) (v : Word) (s : State) : Result := .next (s.writeGdwd n.val v)

/-- R352: write of a partition's owner identifier. -/
def execPartownWrite (n : Fin 64) (v : Word) (s : State) : Result := .next (s.writePartown n.val v)

/-- R373: write of a partition's halt watchdog period. -/
def execHaltwdWrite (n : Fin 64) (v : Word) (s : State) : Result := .next (s.writeHaltwd n.val v)

end Sys2Proof.Machine
end

