-- ==== Sys2Proof/Machine/Access.lean ====
section
/-! DEFINITION. Accesses to memory: where an address leads (R58, R59), translation (R339 to R345), the bank operation over tagged
words (R70 to R78), DRAM (R349), and how an access is issued, parked, answered and finished (R79 to R82, R178). -/

namespace Sys2Proof.Machine

/-! ## Windows and homes -/

/-- What an address names. -/
inductive Target where
  | sram (p : Place) (off : Nat)
  | virt (va : Nat)
  | phys (pa : Nat)
  | peer (dev off : Nat)
  deriving DecidableEq, Repr

/-- The target n bytes on. -/
def Target.plus (n : Nat) : Target → Target
  | .sram p o => .sram p (o + n)
  | .virt v => .virt ((v + n) % 2 ^ 56)
  | .phys v => .phys (v + n)
  | .peer d o => .peer d (o + n)

/-- R12, Table 5.1: the end of the local range at a level. DESIGN CHOICE, log 105: the table gives it at U and M only; a hub or translation
core at S reaches what M reaches. -/
def localEnd (l : Level) : Nat := if l = .u then 0x1B0000 else 0x1C0000

/-- Table 5.1: whether a cluster may be named by an access of a core. -/
def State.clusterOk (s : State) (core cl : Nat) : Bool :=
  match kindOf core with
  | .compute => match s.partOf core with
    | some n => decide (cl ∈ (s.part n).clusters)
    | none => false
  | _ => decide (cl ∉ s.dev.withheld)

/-- R405: where the routing table begins in the hub SRAM that hub cores 6 and 7 share: 2^19 entries of 2 bytes below the monitor range
(log 13). -/
def routeBase : Nat := 64 * (Config.routeBase % 0x2C00)

/-- R405: the routing entry of a device identifier. -/
def State.routeEntry (s : State) (d : Nat) : Nat := readLe (s.core (hubCore 6)).sram.cells (routeBase + 2 * d) 2

/-- R405: whether an offset in the local range of a core lies in the routing table, which only hub cores 6 and 7 reach, at M. -/
def inRoutes (core off : Nat) : Bool :=
  (decide (core = hubCore 6) || decide (core = hubCore 7)) && decide (routeBase ≤ off) && decide (off < routeBase + 2 ^ 20)

/-- R405, R7: the port of a device identifier, if its entry is valid; one with a non-zero RES0 bit is malformed, and not valid. -/
def State.routePort (s : State) (d : Nat) : Option Nat :=
  let e := s.routeEntry d
  if e / 2 ^ 15 % 2 = 1 ∧ e / 16 % 2 ^ 11 = 0 then some (e % 16) else none

/-- R58, R59, R338: what the byte at a generic address names for a thread at a level, if it is legal. -/
def State.resolveAt (s : State) (h : Hart) (l : Level) (a : Nat) : Option Target :=
  let sel := a / 2 ^ 56 % 256
  let lim := localEnd l
  if sel = 0 then
    let off := a % 2 ^ 56
    if inRoutes h.core off then (if l = .m then some (.sram (.core (hubCore 6)) off) else none)
    else if off < lim then some (.sram (.core h.core) off) else none
  else if sel = 1 then
    let off := a % 2 ^ 56
    if off < 2 ^ 22 ∧ kindOf h.core ≠ .hub then some (.sram (.cluster (clusterOf h.core)) off) else none
  else if sel = 2 then
    let cl := a / 2 ^ 25 % 256
    let off := a % 2 ^ 21
    if a % 2 ^ 56 < 2 ^ 33 ∧ off < lim ∧ s.clusterOk h.core cl then
      some (.sram (.core (16 * cl + a / 2 ^ 21 % 16)) off) else none
  else if sel = 3 then
    let cl := a / 2 ^ 22 % 256
    if a % 2 ^ 56 < 2 ^ 30 ∧ s.clusterOk h.core cl then some (.sram (.cluster cl) (a % 2 ^ 22)) else none
  else if sel < 16 then none
  else if sel < 128 then
    (match kindOf h.core with
    | .compute => some (.virt (a % 2 ^ 56))
    | _ => some (.phys (a % 2 ^ 56)))
  else
    let d := a / 2 ^ 44 % 2 ^ 19
    let off := a % 2 ^ 44
    if d = s.dev.devid.toNat then
      (match kindOf h.core with
      | .compute => some (.virt off)
      | _ => some (.phys off))
    else if (s.routePort d).isSome then some (.peer d off)
    else none

/-- R58: what the byte at a generic address names for a thread as it stands. -/
def State.resolve (s : State) (h : Hart) (a : Nat) : Option Target := s.resolveAt h (s.thread h).level a

/-- R58: an access is legal when every byte lies in a valid range of one window. Bytes of two clusters of window 0x03, or of two peers, do
not lie in one range, so that an access across them is cause 34 before its alignment is looked at (log 86). -/
def State.rangeAt (s : State) (h : Hart) (l : Level) (a n : Nat) : Option Target :=
  match s.resolveAt h l a with
  | none => none
  | some t =>
    if a / 2 ^ 63 = (a + (n - 1)) / 2 ^ 63 ∧ s.resolveAt h l (a + (n - 1)) = some (t.plus (n - 1)) then some t else none

/-- R58: the range that an access of a thread as it stands names, if it is legal. -/
def State.resolveRange (s : State) (h : Hart) (a n : Nat) : Option Target := s.rangeAt h (s.thread h).level a n

/-! ## Translation -/

/-- Table 22.3: the bits of a page's offset. -/
def TlbEntry.pageBits (e : TlbEntry) : Nat := 19 + 6 * e.size

def TlbEntry.covers (e : TlbEntry) (va : Nat) : Bool := decide (va / 2 ^ e.pageBits = e.va / 2 ^ e.pageBits)

/-- R340: the generation file's value for an address space, in the local SRAM of the cluster's translation core. -/
def State.genOf (s : State) (cluster asid : Nat) : Nat :=
  readLe (s.core (walkerOf cluster)).sram.cells (2 * asid) 2

/-- R339: the address space of a core. -/
def Core.asid (c : Core) : Nat := c.mcontext.toNat % 4096

/-- R340: the entry that matches an access; of several, that of the smallest page. -/
def State.tlbMatch (s : State) (core va : Nat) : Option TlbEntry :=
  let c := s.core core
  let g := s.genOf (clusterOf core) c.asid
  let ok (z : Nat) (e : TlbEntry) : Bool :=
    decide (e.asid = c.asid) && decide (e.gen = g) && decide (e.size = z) && e.covers va
  match c.tlb.find? (ok 0) with
  | some e => some e
  | none => match c.tlb.find? (ok 1) with
    | some e => some e
    | none => c.tlb.find? (ok 2)

/-- The kinds of access that translation tells apart (R341). -/
inductive Need where
  | read | write | atomic | fetch
  deriving DecidableEq, Repr

/-- The permission that an access class needs (R341). -/
def Class.need : Class → Need
  | .load => .read | .engRead => .read | .store => .write | .engWrite => .write | .atomic => .atomic

/-- The page-fault cause of an access class (Table 23.2). -/
def Class.pageFault : Class → Nat
  | .load => 13 | .engRead => 13 | _ => 15

/-- Table 12.1, step 2: the alignment cause of an access class. -/
def Class.misaligned : Class → Nat
  | .load => 4 | .engRead => 4 | _ => 6

/-- R323: the PMP cause of an access class. -/
def Class.denied (c : Class) : Nat := if c.need = .read then 5 else 7

/-- R341: whether an entry's bits permit a kind of access. -/
def TlbEntry.permits (e : TlbEntry) (need : Need) : Bool :=
  match need with
  | .read => e.r
  | .write => e.w
  | .atomic => e.r && e.w
  | .fetch => e.x

/-- The outcome of a lookup. -/
inductive Xlate where
  | hit (pa : Nat) (e : TlbEntry)
  | miss
  | dirty
  | fault
  deriving DecidableEq, Repr

/-- R349, R347: the number that stands for the key of an owner's slot, if the slot holds one; slot 0 holds the firmware key. -/
def State.keyOf (s : State) (o : BitVec 12) : Option Nat :=
  if o = 0 then some 0 else (Tab.find? s.dev.keys o.toNat).map (fun k => k.toNat + 1)

/-- R344: whether an owner's key slot holds a key. -/
def State.hasKey (s : State) (o : BitVec 12) : Bool := (s.keyOf o).isSome

/-- R340, R341, R345: a lookup by a compute core. -/
def State.translate (s : State) (core va : Nat) (need : Need) : Xlate :=
  match s.tlbMatch core va with
  | none => .miss
  | some e =>
    let pa := e.frame + va % 2 ^ e.pageBits
    if !e.permits need || decide (2 ^ 39 ≤ pa) || !s.hasKey e.owner then .fault
    else if (decide (need = .write) || decide (need = .atomic)) && !e.d then .dirty
    else .hit pa e

/-- R340: a hit makes its entry the most recently used. -/
def State.touch (s : State) (core : Nat) (e : TlbEntry) : State :=
  let c := s.core core
  s.setCore core { c with tlb := c.tlb.filter (fun x => decide (x ≠ e)) ++ [e] }

/-- Table 23.1: the ACCESS code of a kind of access. -/
def Need.code : Need → Nat
  | .read => 0 | .write => 1 | .atomic => 1 | .fetch => 2

/-- R342, R345: a miss message or dirty notice of an access of a thread, with the generation that its lookup found. -/
def State.note (s : State) (h : Hart) (va : Nat) (need : Need) (dirty : Bool) : Miss :=
  let a := (s.core h.core).asid
  ⟨va, h.th, need.code, dirty, a, s.genOf (clusterOf h.core) a⟩

/-- R342: an access misses. Its core sends a message unless a miss of the page is outstanding; true when the access waits on the page's
miss, false when it would be the ninth and stalls at issue. -/
def State.miss (s : State) (h : Hart) (va : Nat) (need : Need) : Bool × State :=
  let c := s.core h.core
  let page := va / 2 ^ 19
  if page ∈ c.misses then (true, s)
  else if 8 ≤ c.misses.length then (false, s)
  else (true, s.setCore h.core { c with misses := c.misses ++ [page], notes := c.notes ++ [s.note h va need false] })

/-- R345: an access finds D = 0: a notice is sent for it. -/
def State.sendNotice (s : State) (h : Hart) (va : Nat) (need : Need) : State :=
  let c := s.core h.core
  s.setCore h.core { c with notes := c.notes ++ [s.note h va need true] }

/-- R342: an access or fetch of a thread misses, and the thread waits. -/
def State.noteMiss (s : State) (h : Hart) (va : Nat) (need : Need) : State :=
  match s.miss h va need with
  | (true, s1) => s1.setThread h { s1.thread h with status := .miss (va / 2 ^ 19) (decide (need = .fetch)) }
  | (false, s1) => s1

/-- R345: an access of a thread finds D = 0, and the thread waits. -/
def State.noteDirty (s : State) (h : Hart) (va : Nat) (need : Need) : State :=
  let s1 := s.sendNotice h va need
  s1.setThread h { s1.thread h with status := .dirty va }

/-! ## Tagged memory -/

/-- A number inserted into an ascending list without repeats. -/
def insertAsc (n : Nat) : List Nat → List Nat
  | [] => [n]
  | k :: t => if n < k then n :: k :: t else if n = k then k :: t else k :: insertAsc n t

/-- The words that a list of elements of n bytes touches, ascending. -/
def wordsOf (n : Nat) (elems : List (Nat × Nat)) : List Nat :=
  (elems.flatMap (fun e => (List.range ((e.1 + n - 1) / 8 - e.1 / 8 + 1)).map (fun i => e.1 / 8 + i))).foldr insertAsc []

/-- R61: the bank that holds a byte offset. -/
def bankOf (p : Place) (off : Nat) : Nat :=
  match p with
  | .core _ => off / 0x1C000
  | .cluster _ => off / 0x20000

/-- Table 6.1: the kind of an access at a place. -/
def kindAt (p : Place) (a : Access) : Nat :=
  let here := decide (p = .core a.hart.core)
  match a.cls with
  | .load => if here then 0 else 3
  | .store => if here then 1 else 4
  | .atomic => if here then 2 else 5
  | .engRead => 6
  | .engWrite => 7

def Sram.ownerOf (m : Sram) (off : Nat) : BitVec 12 := Tab.get 0 m.owners (off / 64)

/-- R70, R75: the tag that an access of owner o finds at a word. -/
def Sram.tagFor (m : Sram) (o : BitVec 12) (w : Nat) : BitVec 3 :=
  if m.ownerOf (8 * w) = o then Tab.get 0 m.tags w else 0

/-- R73: the set of the region that holds a word. -/
def Sram.setOf (m : Sram) (w : Nat) : Nat := (Tab.get 0 m.regions (w / 0x800)).toNat

/-- R73, R75: the active entry that governs kind k at a word with tag t. -/
def Sram.entry (m : Sram) (w k : Nat) (t : BitVec 3) : BitVec 16 :=
  Tab.get 0 ((Tab.find? m.sets (m.setOf w)).getD TableSet.init).active.entries (8 * k + t.toNat)

/-- R75: the action of an entry; codes 5 to 7 act as TRAP. -/
def actionOf (e : BitVec 16) : Nat := if 5 ≤ bits e 0 3 then 3 else bits e 0 3

/-- R81: wakes the accesses parked on a word. -/
def Sram.wakeWord (m : Sram) (w : Nat) : Sram :=
  { m with parks := m.parks.map (fun p => if p.word = w then { p with woken := true } else p) }

/-- R81, R85: a tag write; a change wakes the word's parked accesses. -/
def Sram.setTag (m : Sram) (w : Nat) (t : BitVec 3) : Sram :=
  if Tab.get 0 m.tags w = t then m else { m with tags := Tab.put 0 w t m.tags }.wakeWord w

/-- R70: a line reset for a new owner: zero bytes, tags 0. -/
def Sram.resetLine (m : Sram) (line : Nat) (o : BitVec 12) : Sram :=
  let m1 := { m with cells := writeLe m.cells (64 * line) 64 0, owners := Tab.put 0 line o m.owners }
  (List.range 8).foldl (fun r i => r.setTag (8 * line + i) 0) m1

/-- R70: a line is reset when its owner differs from the access's. -/
def Sram.claim (m : Sram) (off : Nat) (o : BitVec 12) : Sram :=
  if m.ownerOf off = o then m else m.resetLine (off / 64) o

/-- R70: bytes as an owner reads them. -/
def Sram.readFor (m : Sram) (o : BitVec 12) (off n : Nat) : Nat :=
  if m.ownerOf off = o then readLe m.cells off n else 0

/-- R183, R184: the new value of an atomic. -/
def amoNew (op : Amo) (old b cmp : Word) : Word :=
  match op with
  | .add => old + b
  | .and => old &&& b
  | .or => old ||| b
  | .xor => old ^^^ b
  | .min => if b.slt old then b else old
  | .max => if old.slt b then b else old
  | .minu => if b.ult old then b else old
  | .maxu => if old.ult b then b else old
  | .swap => b
  | .cas => if old = cmp then b else old
  | .fadd =>
    let f (i : Nat) : Nat := (Fmt.f32.addR .rne (Fmt.f32.decode (bits old (32 * i) 32)) (Fmt.f32.decode (bits b (32 * i) 32))).bits
    BitVec.ofNat 64 (f 0 + 2 ^ 32 * f 1)

/-- Lane i of an access's data, as a number. -/
def Access.laneOf (a : Access) (i : Nat) : Nat := (a.data.extractLsb' (8 * a.esize * i) (8 * a.esize)).toNat

/-- What a load returns from a tagged memory: each element in its lane. -/
def Sram.loadLanes (m : Sram) (a : Access) : BitVec 512 :=
  a.elems.foldl (fun v e => v ||| (BitVec.ofNat 512 (m.readFor a.owner e.1 a.esize) <<< (8 * a.esize * e.2))) 0

/-- R218: the stores of an access, the higher lanes last. -/
def Sram.storeLanes (m : Sram) (a : Access) : Sram :=
  a.elems.foldl (fun r e =>
    let r := r.claim e.1 a.owner
    { r with cells := writeLe r.cells e.1 a.esize (a.laneOf e.2) }) m

/-- R75: the data access at the words themselves. -/
def Sram.perform (m : Sram) (a : Access) : BitVec 512 × Sram :=
  match a.op with
  | .amo op =>
    let off := (a.elems.headD (0, 0)).1
    let old : Word := BitVec.ofNat 64 (m.readFor a.owner off 8)
    let m' := m.claim off a.owner
    (old.setWidth 512, { m' with cells := writeLe m'.cells off 8 (amoNew op old (a.data.setWidth 64) a.cmp).toNat })
  | .store => (0, m.storeLanes a)
  | _ => (m.loadLanes a, m)

/-- Whether an access writes (R70). -/
def Access.writes (a : Access) : Bool :=
  match a.op with
  | .store => true
  | .amo _ => true
  | _ => false

/-- Table 6.4: the UTAG image of a report. -/
def utagOf (p : Place) (a : Access) (set action : Nat) (t : BitVec 3) : BitVec 14 :=
  let sh := match p with
    | .cluster _ => 1
    | .core _ => 0
  BitVec.ofNat 14 (kindAt p a + 8 * t.toNat + 64 * (action % 8) + 512 * (set % 4) + 2048 * sh +
    4096 * (if p = .core a.hart.core then 0 else 1) + 8192 * a.redir.toNat)

/-- The outcome of a bank operation. -/
inductive BankRes where
  | done (v : BitVec 512) (acq : Bool)
  | park (bank word : Nat)
  | busy
  | trap (cause : Nat) (value : Word) (utag : BitVec 14)
  | redirect (target : Word)
  deriving DecidableEq, Repr

/-- R76, R78: the address of a word that an access touches: for a vector by its distance from the first element, for an engine the word's,
otherwise the address that the instruction named. -/
def Access.wordAddr (a : Access) (w : Nat) : Word :=
  if a.vec then a.named + BitVec.ofInt 64 ((8 * w : Nat) - ((a.elems.headD (0, 0)).1 : Int))
  else if a.issuer = .thread then a.named else a.named &&& ~~~ 7#64

/-- R75: the tag update of an entry at a word, where the line is the access's own. -/
def Sram.update (m : Sram) (o : BitVec 12) (w : Nat) (e : BitVec 16) : Sram :=
  if bit e 3 && decide (m.ownerOf (8 * w) = o) then m.setTag w (BitVec.ofNat 3 (bits e 4 3)) else m

/-- R185: TLD, TST and TCAS on the word that holds the address. -/
def Sram.tagOp (m : Sram) (a : Access) : BitVec 512 × Sram :=
  let w := (a.elems.headD (0, 0)).1 / 8
  let t := m.tagFor a.owner w
  match a.op with
  | .tst => (0, (m.claim (8 * w) a.owner).setTag w (a.data.setWidth 3))
  | .tcas =>
    let m' := m.claim (8 * w) a.owner
    (t.setWidth 512, if t = a.cmp.setWidth 3 then m'.setTag w (a.data.setWidth 3) else m')
  | _ => (t.setWidth 512, m)

/-- Table 12.8: the set and item that a selector names. -/
def selSet (sel : Word) : Nat := bits sel 6 2
def selIndex (sel : Word) : Nat := bits sel 0 6

/-- R186: whether a selector keeps the musts of Table 12.8 for an instruction. -/
def selOk (op : AccOp) (sel : Word) : Bool :=
  zeroBits sel 11 53 && (!bit sel 9 || zeroBits sel 2 4) &&
  (match op with
  | .ttabRd _ => true
  | .ttabSwap _ => !bit sel 10 && !bit sel 9 && zeroBits sel 0 6
  | _ => !bit sel 10)

/-- R187: one item of a copy. -/
def TableCopy.item (c : TableCopy) (sel : Word) : Word :=
  if bit sel 9 then Tab.get 0 c.rbase (selIndex sel) else (Tab.get 0 c.entries (selIndex sel)).setWidth 64

/-- R187: a write of one item; an entry with non-zero RES0 bits is ignored (R83). -/
def TableCopy.write (c : TableCopy) (sel v : Word) : TableCopy :=
  if bit sel 9 then { c with rbase := Tab.put 0 (selIndex sel) v c.rbase }
  else if zeroBits v 11 53 then { c with entries := Tab.put 0 (selIndex sel) (v.setWidth 16) c.entries }
  else c

/-- R83, R187, R188: TTAB.WR, TTAB.RD and TTAB.SWAP on the sets of a memory. -/
def Sram.tableOp (m : Sram) (op : AccOp) (v : Word) : BitVec 512 × Sram :=
  let get (sel : Word) : TableSet := (Tab.find? m.sets (selSet sel)).getD TableSet.init
  match op with
  | .ttabWr sel =>
    if selOk op sel then
      let t := get sel
      (0, { m with sets := Tab.set (selSet sel) { t with shadow := t.shadow.write sel v } m.sets })
    else (0, m)
  | .ttabRd sel =>
    if selOk op sel then (((if bit sel 10 then (get sel).shadow else (get sel).active).item sel).setWidth 512, m) else (0, m)
  | .ttabSwap sel =>
    if selOk op sel then
      let t := get sel
      let m' : Sram := { m with sets := Tab.set (selSet sel) ⟨t.shadow, t.active⟩ m.sets }
      (0, { m' with parks := m'.parks.map (fun p => if m'.setOf p.word = selSet sel then { p with woken := true } else p) })
    else (0, m)
  | _ => (0, m)

/-- R75, R76: the checked bank operation of a load, store or atomic. `again` marks the re-check of a parked access, which no
other woken access holds back (R81). -/
def Sram.checked (m : Sram) (p : Place) (a : Access) (again : Bool) : BankRes × Sram :=
  let k := kindAt p a
  let ws := wordsOf a.esize a.elems
  let tagAt (w : Nat) : BitVec 3 := m.tagFor a.owner w
  let entAt (w : Nat) : BitVec 16 := m.entry w k (tagAt w)
  let actAt (w : Nat) : Nat := actionOf (entAt w)
  if !again && m.parks.any (fun q => q.woken && decide (q.word ∈ ws)) then (.busy, m)
  else
    let stops (w : Nat) : Bool := decide (3 ≤ actAt w) || (decide (actAt w = 2) && (a.vec || a.redir))
    match ws.find? stops with
    | some w =>
      let act := if actAt w = 2 then 3 else bits (entAt w) 0 3
      (.trap 24 (a.wordAddr w) (utagOf p a (m.setOf w) act (tagAt w)), m)
    | none => match ws.find? (fun w => decide (actAt w = 1)) with
      | some w => (.park (bankOf p (8 * w)) w, m)
      | none => match ws.find? (fun w => decide (actAt w = 2)) with
        | some w =>
          let e := entAt w
          let m' := if a.writes && bit e 3 then m.claim (8 * w) a.owner else m
          let base := Tab.get 0 ((Tab.find? m.sets (m.setOf w)).getD TableSet.init).active.rbase (bits e 9 2)
          (.redirect (base + BitVec.ofNat 64 ((a.elems.headD (0, 0)).1 % 0x4000)), if a.op = .look then m else m'.update a.owner w e)
        | none =>
         if a.op = .look then (.done 0 false, m) else
          let (v, m') := m.perform a
          (.done v (ws.any (fun w => bit (entAt w) 7)), ws.foldl (fun r w => r.update a.owner w (entAt w)) m')

/-- Whether an operation consults no table (R72). -/
def AccOp.direct : AccOp → Bool
  | .tld => true | .tst => true | .tcas => true
  | .ttabWr _ => true | .ttabRd _ => true | .ttabSwap _ => true
  | _ => false

/-- The lines before a store, for R139: its sender, and whether it may be ordered before events of others already. A store of an engine counts as ordered before others' events at once (log 106). -/
def storeRecs (seq : Nat) (h : Hart) (tied : Bool) (p : Option Place) (old : Nat → BitVec 512 × Option Nat) (lines : List Nat) : List StoreRec :=
  lines.map (fun l => ⟨seq, h, tied, p, l, (old l).1, (old l).2⟩)

/-- R139: what a thread has stored may be ordered before events of other threads (log 106). -/
def State.tie (s : State) (h : Hart) : State :=
  { s with log := s.log.map (fun r => if r.hart = h then { r with tied := true } else r) }

/-- R112, R139: every store at a place may be ordered before events of other threads. -/
def State.tieAt (s : State) (p : Place) : State :=
  { s with log := s.log.map (fun r => if r.place = some p then { r with tied := true } else r) }

/-- The 64-byte lines that a list of elements of n bytes touches, ascending. -/
def linesOf (n : Nat) (elems : List (Nat × Nat)) : List Nat := (wordsOf n elems).foldr (fun w l => insertAsc (w / 8) l) []

/-- The records of a store to a tagged memory. -/
def Sram.storeRecs (m : Sram) (seq : Nat) (a : Access) (p : Place) (lines : List Nat) : List StoreRec :=
  Machine.storeRecs seq a.hart (decide (a.issuer ≠ Issuer.thread)) (some p) (fun l => (BitVec.ofNat 512 (readLe m.cells (64 * l) 64), some (m.ownerOf (64 * l)).toNat)) lines

/-- The cluster of a place. -/
def Place.cluster_ : Place → Nat
  | .core n => clusterOf n
  | .cluster n => n

/-- R388: where a record of the management error ring lies in firmware memory (log 13). -/
def errorAt (n : Nat) : Nat := 32 * (Config.firmwareBase 5 % 2 ^ 32 + n % Config.errorRing)

/-- R388, Table 27.2: an error record is appended to the management error ring in firmware memory, or counted as lost when the ring is full;
interrupt 68 is raised at hub cores 6 and 7. A place of none is DRAM. CYCLE is that of the core, of the cluster's first core, or of hub core 6
(log 79). -/
def State.noteError (s : State) (kind : Nat) (p : Option Place) (owner : BitVec 12) (addr : Nat) : State :=
  let at_ : Nat := match p with
    | some (.core n) => 2 ^ 8 * (clusterOf n % 256) + 2 ^ 16 * (n % 16) + 2 ^ 21 * (bankOf (.core n) addr % 32)
    | some (.cluster n) => 2 ^ 8 * (n % 256) + 2 ^ 20 + 2 ^ 21 * (bankOf (.cluster n) addr % 32)
    | none => 0
  let clock : Nat := match p with
    | some (.core n) => n
    | some (.cluster n) => 16 * n
    | none => hubCore 6
  let r : ErrorRec := ⟨[s.cycle clock, BitVec.ofNat 64 (kind + at_ + 2 ^ 26 * owner.toNat), BitVec.ofNat 64 addr, 0]⟩
  let s1 : State := if s.dev.errors.length < Config.errorRing then
      { s with
        dev := { s.dev with errors := s.dev.errors ++ [r], errorSeq := s.dev.errorSeq + 1 }
        dram := s.dram.write 0 (errorAt s.dev.errorSeq) 32 (r.words.foldr (fun w n => w.toNat + 2 ^ 64 * n) 0) }
    else { s with dev := { s.dev with lost := min (s.dev.lost + 1) (2 ^ 32 - 1) } }
  [6, 7].foldl (fun x n =>
    let t := x.thread ⟨hubCore n, 0⟩
    x.setThread ⟨hubCore n, 0⟩ (t.driveS 68 true)) s1

/-- R386: an uncorrectable word or OWNER field met at a place: the contexts that Table 27.1 names are aborted and the line is
reset. -/
def State.sramError (s : State) (p : Place) (line : Nat) : State :=
  let m := s.sram p
  let o := m.ownerOf (64 * line)
  let bad := decide (line ∈ m.ownerErrs)
  let s0 := s.noteError (if bad then 3 else 2) (some p) (if bad then 0 else o) (64 * line)
  let s1 := if bad then s0.abortCluster p.cluster_ else s0.abortOwner p.cluster_ o
  let m1 := (s1.sram p).resetLine line 0
  s1.setSram p { m1 with
    errs := m1.errs.filter (fun w => decide (w / 8 ≠ line))
    soft := m1.soft.filter (fun q => decide (q.1 / 8 ≠ line))
    ownerErrs := m1.ownerErrs.filter (fun l => decide (l ≠ line)) }

/-- R386: whether the stripe of a core rebuilds a word at a byte offset: no other bank of the core has failed. -/
def State.stripeRebuilds (s : State) (p : Place) (off : Nat) : Bool :=
  match p with
  | .core n => decide (n < 4096) && (s.core n).failed.all (fun b => decide (b = bankOf p off))
  | .cluster _ => false

/-- R386: the lines of words that the codes cannot repair. -/
def State.badLines (s : State) (p : Place) (ws : List Nat) : List Nat :=
  let m := s.sram p
  let bad (w : Nat) : Bool := decide (w ∈ m.errs) || decide (w / 8 ∈ m.ownerErrs) ||
    (decide (Tab.find? m.soft w = some 1) && !s.stripeRebuilds p (8 * w))
  ((ws.filter bad).map (· / 8)).foldr insertAsc []

/-- R385, R388, R389: an error in words that an access reads and a code corrects: it is written back, recorded, and counted in its bank. -/
def State.correct (s : State) (p : Place) (ws : List Nat) : State :=
  ws.foldl (fun r w => match Tab.find? (r.sram p).soft w with
    | none => r
    | some k =>
      let m := r.sram p
      let r1 := (r.setSram p { m with soft := Tab.del w m.soft }).noteError k (some p) (m.ownerOf (8 * w)) (8 * w)
      match p with
      | .core n =>
        let c := r1.core n
        let b := bankOf p (8 * w)
        r1.setCore n { c with corrected := Tab.set b (Tab.get 0 c.corrected b + 1) c.corrected }
      | .cluster _ => r1) s

/-- R386: the lines that an access meets and the codes cannot repair: those of other owners are reset, and the access goes on; one of its own,
or one whose OWNER field is lost, ends it (true). -/
def State.mend (s : State) (p : Place) (o : BitVec 12) : List Nat → Bool × State
  | [] => (false, s)
  | line :: t =>
    let m := s.sram p
    let s' := s.sramError p line
    if decide (line ∈ m.ownerErrs) || decide (m.ownerOf (64 * line) = o) then (true, s') else s'.mend p o t

/-- R112: whether an access of a thread is performed under an entry with REL = 1. -/
def Sram.releases (m : Sram) (p : Place) (a : Access) : Bool :=
  decide (a.cls ≠ .engRead) && decide (a.cls ≠ .engWrite) &&
    (wordsOf a.esize a.elems).any (fun w => bit (m.entry w (kindAt p a) (m.tagFor a.owner w)) 8)

/-- R75, R76, R185, R386: one bank operation of an access at a place. -/
def State.bankOp (s0 : State) (p : Place) (a : Access) (again : Bool) : BankRes × State :=
  let ws := wordsOf a.esize a.elems
  match s0.mend p a.owner (s0.badLines p ws) with
  | (true, s) => (.trap 37 a.at_ 0, s)
  | (false, s1) =>
    let s := s1.correct p ws
    let m := s.sram p
    if a.op.direct then
      let (v, m') := match a.op with
        | .tld | .tst | .tcas => m.tagOp a
        | op => m.tableOp op (a.data.setWidth 64)
      (.done v false, s.setSram p m')
    else
      let (r, m') := m.checked p a again
      let s' := s.setSram p m'
      match r with
      | .done _ _ =>
        let s1 := if m.releases p a then s'.tieAt p else s'
        if a.writes then
          (r, { s1 with log := s1.log ++ m.storeRecs s1.logSeq a p (linesOf a.esize a.elems), logSeq := s1.logSeq + 1 })
        else (r, s1)
      | _ => (r, s')

/-! ## DRAM -/

/-- R366: where an address of a context leads the command processor, for a kind of access: through an entry that a walker has installed, whose
GEN its generation file still holds (R340) and whose bits permit the access (R341) (log 14). -/
def State.cpWalk (s : State) (ctx va : Nat) (need : Need) : Option Nat :=
  let ok (q : Nat × TlbEntry) : Bool := decide (q.2.asid = ctx % 4096) && q.2.covers va && decide (q.2.gen = s.genOf q.1 q.2.asid)
  match s.walk.find? ok with
  | some (_, e) =>
    let pa := e.frame + va % 2 ^ e.pageBits
    if e.permits need ∧ pa < 2 ^ 39 then some pa else none
  | none => none

/-- R396: a log ring's entry is written in the memory of a context, under its owner; one whose page has no mapping is not. -/
def State.ringWrite (s : State) (o : BitVec 12) (ctx va n v : Nat) : State :=
  match s.cpWalk ctx va .write, s.keyOf o with
  | some pa, some key => { s with dram := s.dram.write key pa n v }
  | _, _ => s

/-- R353: the address of a queue's block in DRAM; QTBASE is set at bring-up (log 13). -/
def qcbAt (q : Nat) : Nat := 2 ^ 38 + 2 ^ 12 * (Config.firmwareBase 4 % 2 ^ 25) + 128 * q

/-- Table 24.2: the block of a queue, as a number; its firmware state is written as 0 (log 93). -/
def Queue.nat (r : Queue) : Nat :=
  r.ring + 2 ^ 64 * (r.log2 + 2 ^ 8 * r.prio + 2 ^ 12 * r.live.toNat) + 2 ^ 128 * r.hdr + 2 ^ 192 * r.ctx + 2 ^ 256 * r.hint.toNat + 2 ^ 320 * r.read.toNat

/-- Table 24.2: the fields of a block, with the firmware state of the queue; none when a RES0 field of it is not 0, so that it is malformed (R7). -/
def Queue.ofNat (r : Queue) (v : Nat) : Option Queue :=
  let f (lo n : Nat) : Nat := v / 2 ^ lo % 2 ^ n
  if f 0 7 ≠ 0 ∨ f 56 8 ≠ 0 ∨ f 69 3 ≠ 0 ∨ f 77 51 ≠ 0 ∨ f 128 6 ≠ 0 ∨ f 184 8 ≠ 0 ∨ f 224 32 ≠ 0 then none
  else some { r with
    ring := f 7 49 * 2 ^ 7
    log2 := f 64 5
    prio := f 72 4
    live := decide (f 76 1 = 1)
    hdr := f 134 50 * 2 ^ 6
    ctx := f 192 32
    hint := BitVec.ofNat 64 (f 256 64)
    read := BitVec.ofNat 64 (f 320 64) }

/-- R353: the block of a queue: the copy in the entry cache where it is cached, and else the one in DRAM. A block that nothing has written since
bring-up, or that is malformed (R7), is that of no queue (log 93). -/
def State.qcb (s : State) (q : Nat) : Option Queue :=
  if q ∈ s.qcache then Tab.find? s.queues q
  else if (Tab.find? s.dram.keys (qcbAt q / 64)).isNone then none
  else ((Tab.find? s.queues q).getD (Queue.admin 0)).ofNat (s.dram.read 0 (qcbAt q) 128)

/-- The queues that the model lists, each with its block. -/
def State.blocks (s : State) : List (Nat × Queue) := s.queues.filterMap (fun q => (s.qcb q.1).map (fun r => (q.1, r)))

/-- R353: a block leaves the entry cache and is written back. -/
def State.writeBack (s : State) (q : Nat) : State :=
  { s with
    qcache := s.qcache.filter (fun x => decide (x ≠ q))
    dram := match Tab.find? s.queues q with
      | some r => s.dram.write 0 (qcbAt q) 128 r.nat
      | none => s.dram }

/-- R353: the entry cache, 8 ways of 512 sets, comes to hold a block as the most recently used; of a full set the least recently used one is
written back. -/
def State.cacheQueue (s : State) (q : Nat) : State :=
  if q ∈ s.qcache then { s with qcache := s.qcache.filter (fun x => decide (x ≠ q)) ++ [q] }
  else
    let ways := s.qcache.filter (fun x => decide (x % 512 = q % 512))
    let s1 : State := match s.qcb q with
      | some r => { s with queues := Tab.set q r s.queues }
      | none => { s with queues := Tab.del q s.queues }
    let s2 : State := match ways with
      | old :: _ => if 8 ≤ ways.length then s1.writeBack old else s1
      | [] => s1
    { s2 with qcache := s2.qcache ++ [q] }

/-- The command processor changes a queue's block, which is then in the entry cache. -/
def State.setQueue (s : State) (q : Nat) (r : Queue) : State :=
  let s1 := s.cacheQueue q
  { s1 with queues := Tab.set q r s1.queues }

/-- R356: a store or atomic of bytes at the NOTIFY word of a live queue raises HINT and interrupt 67; the value written is the 64-bit word as
the access leaves it. -/
def State.notifyHook (s : State) (offs : List Nat) (word : Nat → Word) : State :=
  let place (q : Queue) : Option Nat := if q.live then s.cpWalk q.ctx (q.hdr + 16) .write else none
  let hits (w : Nat) : Bool := offs.any (fun o => decide (w ≤ o) && decide (o < w + 8))
  s.blocks.foldl (fun r q => match place q.2 with
    | some w =>
      if hits w then
        let r := r.setQueue q.1 { q.2 with hint := if q.2.hint.ult (word w) then word w else q.2.hint, notified := true }
        let hub : Hart := ⟨hubCore (q.1 % 4), 0⟩
        r.setThread hub ((r.thread hub).driveS 67 true)
      else r
    | none => r) s

/-- R386: whether a line of DRAM is poisoned. -/
def Dram.poisoned (d : Dram) (line : Nat) : Bool := (Tab.find? d.poison line).isSome

/-- The bytes that an access touches. -/
def Access.offs (a : Access) : List Nat := a.elems.flatMap (fun e => (List.range a.esize).map (fun i => e.1 + i))

/-- Whether a line stands against an access (R386): it is poisoned, or its error has not been met, and the access is no event of a full 64-byte
write. -/
def Dram.poisonedFor (d : Dram) (a : Access) : Bool :=
  a.offs.any (fun o => d.poisoned (o / 64) || decide (o / 64 ∈ d.bad)) && !a.full

/-- R385, R386, R388: an access meets lines of DRAM: those with an error that no code corrects are poisoned and recorded, and one that the code
corrects is recorded. -/
def State.meetLines (s : State) (lines : List Nat) : State :=
  lines.foldl (fun r l =>
    let d := r.dram
    if l ∈ d.bad then
      { r with dram := { d with bad := d.bad.filter (fun k => decide (k ≠ l)), poison := Tab.set l 0 d.poison } }.noteError 5 none 0 (64 * l)
    else if l ∈ d.soft then { r with dram := { d with soft := d.soft.filter (fun k => decide (k ≠ l)) } }.noteError 4 none 0 (64 * l)
    else r) s

/-- R386: a full 64-byte write clears the mark of its line once its events have written every byte. -/
def Dram.mend (d : Dram) (a : Access) : Dram :=
  { d with poison := d.poison.filterMap (fun p =>
      let v := (a.offs.filter (fun o => decide (o / 64 = p.1))).foldl (fun (v : BitVec 64) o => v ||| (1#64 <<< (o % 64))) p.2
      if v = BitVec.allOnes 64 then none else some (p.1, v)) }

/-- An access performed at its memory-controller slice, under the key of its owner; an owner without a key has no access (R344). -/
def State.dramOp (s0 : State) (a : Access) : Reply × State :=
  match s0.keyOf a.owner with
  | none => (.trap a.cls.pageFault a.at_ 0, s0)
  | some key =>
    let s := s0.meetLines (linesOf a.esize a.elems)
    let d := s.dram
    if s0.dram.poisonedFor a then (.trap 37 a.at_ 0, s)
    else
      let put (d' : Dram) : State :=
        let s1 := { s with
          dram := d'.mend a
          log := s.log ++ storeRecs s.logSeq a.hart (decide (a.issuer ≠ Issuer.thread)) none (fun l => (d.plain ((Tab.find? d.keys l).getD key) l, Tab.find? d.keys l)) (linesOf a.esize a.elems)
          logSeq := s.logSeq + 1 }
        s1.notifyHook a.offs (fun w => BitVec.ofNat 64 (d'.read key w 8))
      match a.op with
      | .store =>
        (.value 0 false, put (a.elems.foldl (fun r e => r.write key e.1 a.esize (a.laneOf e.2)) d))
      | .amo op =>
        let pa := (a.elems.headD (0, 0)).1
        let old : Word := BitVec.ofNat 64 (d.read key pa 8)
        let new := amoNew op old (a.data.setWidth 64) a.cmp
        (.value (old.setWidth 512) false, put (d.write key pa 8 new.toNat))
      | _ =>
        (.value (a.elems.foldl (fun v e => v ||| (BitVec.ofNat 512 (d.read key e.1 a.esize) <<< (8 * a.esize * e.2))) 0) false, s)

/-- An access of one element at a physical address: DRAM, or a partition register. An access narrower than the register reads or replaces its
bytes alone (log 15). -/
def State.physOp (s : State) (a : Access) : Reply × State :=
  let e := a.elems.headD (0, 0)
  if e.1 < 2 ^ 39 then s.dramOp a
  else match devReg e.1 with
  | none => s.dramOp a
  | some r =>
    let old := s.readDev r
    let lo := 8 * (e.1 % 8)
    match a.op with
    | .store => (.value 0 false, s.writeDev r (setBits old lo (8 * a.esize) (a.laneOf e.2)))
    | .amo op => (.value (old.setWidth 512) false, s.writeDev r (amoNew op old (a.data.setWidth 64) a.cmp))
    | _ => (.value (BitVec.ofNat 512 (bits old lo (8 * a.esize)) <<< (8 * a.esize * e.2)) false, s)

/-! ## Finishing an access -/

/-- R176: a loaded value, extended. -/
def extend (k : LdKind) (v : Word) : Word :=
  match k with
  | .b => (v.setWidth 8).signExtend 64
  | .bu => (v.setWidth 8).setWidth 64
  | .h => (v.setWidth 16).signExtend 64
  | .hu => (v.setWidth 16).setWidth 64
  | .w => (v.setWidth 32).signExtend 64
  | .wu => (v.setWidth 32).setWidth 64
  | .d => v

/-- The size in bytes of a load. -/
def ldBytes : LdKind → Nat
  | .b => 1 | .bu => 1 | .h => 2 | .hu => 2 | .w => 4 | .wu => 4 | .d => 8

def stBytes : StKind → Nat
  | .b => 1 | .h => 2 | .w => 4 | .d => 8

/-- R68: the elements of a generator's walk, from its descriptor (Table 5.7). -/
def Gen.extent (g : Gen) (i : Nat) : Nat := leValue ((g.descr.drop (8 + 4 * i)).take 4)
def Gen.total (g : Gen) : Nat := g.extent 0 * g.extent 1 * g.extent 2 * g.extent 3

/-- R68: the generator after it has moved count elements. -/
def Gen.move (g : Gen) (count : Nat) : Gen :=
  { g with n := g.n + count, exhausted := g.exhausted || decide (g.total ≤ g.n + count) }

def Core.moveGen (c : Core) (g : Fin 4) (count : Nat) : Core := { c with gens := c.gens.set g.val (c.gens[g.val].move count) }

/-- What an instruction does with the value of its accesses (R176, R216, R217, R223), in the thread. -/
def Thread.finish (t : Thread) (f : Finish) (v : BitVec 512) : Thread :=
  match f with
  | .drop => t
  | .writeX d k => t.setX d (extend k (v.setWidth 64))
  | .writeV d w z =>
    t.setV d (vecOf w (fun i =>
      if active (t.getM 0) w i then (match z with
        | some n => if i < n then lane v w i else 0
        | none => lane v w i)
      else lane (t.getV d) w i))
  | .stream d _ _ _ => t.setV d v
  | _ => t

/-- What an instruction does with the value of its accesses, in the generators of the core (R68). -/
def Core.finish (c : Core) (f : Finish) : Core :=
  match f with
  | .stream _ g n idx => match idx with
    | some i => (c.moveGen g n).moveGen i n
    | none => c.moveGen g n
  | .streamOut g n => c.moveGen g n
  | _ => c

/-- Table 5.7: the fields of a generator's descriptor. -/
def Gen.base (g : Gen) : Word := BitVec.ofNat 64 (leValue (g.descr.take 8))
def Gen.stride (g : Gen) (i : Nat) : Word := BitVec.ofNat 64 (leValue ((g.descr.drop (24 + 8 * i)).take 8))
def Gen.control (g : Gen) : Nat := (g.descr.getD 56 0).toNat
def Gen.esize (g : Gen) : Nat := 2 ^ (g.control % 4)
def Gen.indirect (g : Gen) : Bool := decide (g.control / 4 % 2 = 1)
def Gen.idxGen (g : Gen) : Fin 4 := ⟨g.control / 8 % 4, Nat.mod_lt _ (by decide)⟩

/-- R67, R222: whether a descriptor for generator d is well formed. -/
def Core.descrOk (c : Core) (th : Nat) (d : Fin 4) (g : Gen) : Bool :=
  let i := c.gens[g.idxGen.val]
  (List.range 4).all (fun k => decide (g.extent k ≠ 0)) && decide (g.control < 32) &&
    (g.descr.drop 57).all (fun b => decide (b = 0)) &&
    (!g.indirect || (decide (g.stride 1 = 0) && decide (g.stride 2 = 0) && decide (g.stride 3 = 0) && decide (g.idxGen ≠ d) &&
      decide (i.bound = some th) && !i.indirect && decide (4 ≤ i.esize)))

/-- How a thread stands that waits for nothing of its current instruction. -/
def Thread.settled (t : Thread) : Status :=
  match t.status with
  | .halted b => .halted b
  | _ => if t.late = [] then .run else .late

/-- A thread's instruction completes: it goes on after it. -/
def State.finishThread (s : State) (h : Hart) (f : Finish) (v : BitVec 512) (len : Nat) : State :=
  let s1 := s.setCore h.core ((s.core h.core).finish f)
  let t := s1.thread h
  s1.setThread h { (t.finish f v).advance len with status := t.settled, pend := none, gathered := [] }

/-- A generator that another thread holds, neither stopped nor run out (R221). -/
def Gen.heldFrom (g : Gen) (th : Nat) : Bool := g.bound.isSome && decide (g.bound ≠ some th) && !g.exhausted

/-- R221: the value of cause 36 with a reason and a generator. -/
def streamValue (reason : Nat) (g : Fin 4) : Word := BitVec.ofNat 64 (2 ^ 63 + 4 * reason + g.val)

/-- A thread's instruction has the value of its accesses: it completes, or an indirect read goes on with its indices (R68), or
SG.CFG checks its generator and its descriptor and binds the generator (R67, R221, R222). -/
def State.finishAccess (s : State) (h : Hart) (f : Finish) (v : BitVec 512) (len : Nat) : State :=
  match f with
  | .indices n size =>
    let t := s.thread h
    s.setThread h { t with
      gathered := t.gathered ++ (List.range n).map (fun k => BitVec.ofInt 64 (sext (8 * size) (lane v size k)))
      status := .again
      pend := none }
  | .cfg d addr =>
    let c := s.core h.core
    let g : Gen := ⟨some h.th, leBytes 64 v.toNat, 0, false⟩
    let fail (value : Word) : State := (s.setThread h { s.thread h with pend := none, status := .run }).trap h 36 value
    if (c.gens[d.val]).heldFrom h.th then fail (streamValue 3 d)
    else if c.descrOk h.th d g then
      (s.setCore h.core { c with gens := c.gens.set d.val g }).finishThread h f v len
    else fail addr
  | _ => s.finishThread h f v len

/-- R178: a fault that a cleared store meets is forwarded with NEST 1 as a report of the issuing thread. -/
def State.lateFault (s : State) (h : Hart) (cause : Nat) (value : Word) (utag : BitVec 14) : State :=
  s.report (s.reportOf h cause value utag true)

/-- A port takes the answer that it waits for. -/
def Port.take (p : Port) (id : Nat) (r : Reply) : Port := if p.wait = some id then { p with wait := none, answer := some r } else p

/-- The answer to an access of an engine or transfer reaches it. -/
def State.toPort (s : State) (a : Access) (r : Reply) : State :=
  match a.issuer with
  | .thread => s
  | .engine =>
    let c := s.core a.hart.core
    let f (x : Running) : Running := { x with port := x.port.take a.id r }
    s.setCore a.hart.core { c with running := c.running.map f, loading := c.loading.map f }
  | .transfer id =>
    let k := clusterOf a.hart.core
    let c := s.cluster k
    s.setCluster k { c with transfers := c.transfers.map (fun x => if x.id = id then { x with port := x.port.take a.id r } else x) }

/-- R27: whether an access that its thread has left behind is on its way and has a property. -/
def State.lateMeets (s : State) (p : Access → Bool) : Bool :=
  let ids := s.cores.flatMap (fun q => q.2.threads.flatMap (fun r => r.2.late.flatMap Late.ids))
  s.net.any (fun m => m.accesses.any (fun a => decide (a.id ∈ ids) && p a))

/-- R109: the answer to an access that its thread has left behind: its value is written. It meets no fault, because the thread leaves behind
only accesses that cannot (`State.mayLeave`, log 87); the arm for one is never reached. -/
def State.deliverLate (s : State) (h : Hart) (l : Late) (id : Nat) (r : Reply) : State :=
  let t := s.thread h
  match r with
  | .value v _ =>
    let l' : Late := { l with ids := l.ids.filter (fun i => decide (i ≠ id)), gathered := l.gathered ||| v }
    if l'.ids = [] then
      let t1 := { t.finish l.finish l'.gathered with late := t.late.filter (fun x => decide (x ≠ l)) }
      (s.setCore h.core ((s.core h.core).finish l.finish)).setThread h
        { t1 with status := if t1.status = .late then t1.settled else t1.status }
    else s.setThread h { t with late := t.late.map (fun x => if x = l then l' else x) }
  | .trap c v u =>
    let s1 := s.withdraw (t.late.flatMap Late.ids ++ ((t.pend.map Pend.ids).getD []))
    (s1.setThread h { (s1.thread h).calmed with status := .run, pc := l.pc }).trap h c v u

/-- R386: a fault of an access of a thread. The uncorrectable error of its own line has ended the thread's context already, and its trap 37 is
reported. -/
def State.faultOf (s : State) (h : Hart) (cause : Nat) (value : Word) (utag : BitVec 14) : State :=
  if cause = 37 ∧ (s.thread h).status = .idle then { s.report (s.reportOf h 37 value utag false) with trapped := true }
  else s.trap h cause value utag

/-- A home's answer reaches the issuer. A fault of an access waits until those that its thread has left behind are performed; a trap 37 whose
error has ended the thread's context (R386) is reported. -/
def State.deliver (s : State) (a : Access) (r : Reply) : State :=
  if a.issuer ≠ .thread then s.toPort a r
  else if a.cleared then match r with
    | .value _ _ => s
    | .trap c v u => s.lateFault a.hart c v u
  else
    let t := s.thread a.hart
    match t.late.find? (fun l => decide (a.id ∈ l.ids)) with
    | some l => s.deliverLate a.hart l a.id r
    | none => match t.pend with
      | none => match r with
        | .trap 37 v u => if t.status = .idle then s.report (s.reportOf a.hart 37 v u false) else s
        | _ => s
      | some p =>
        if a.id ∈ p.ids then match r with
          | .value v _ =>
            let p' : Pend := { p with ids := p.ids.filter (fun i => decide (i ≠ a.id)), gathered := p.gathered ||| v }
            if p'.ids = [] then s.finishAccess a.hart p.finish p'.gathered p.len
            else s.setThread a.hart { t with pend := some p' }
          | .trap c v u =>
            if t.late = [] then
              let s' := s.withdraw p.ids
              (s'.setThread a.hart { s'.thread a.hart with pend := none, status := .run }).trap a.hart c v u
            else s.send (.reply a r)
        else s

/-! ## Issuing, parking and redirecting -/

/-- R363: whether the grid of a thread has been stopped. -/
def State.stoppedHart (s : State) (h : Hart) : Bool :=
  match Tab.find? s.grids (s.thread h).grid with
  | some g => g.aborting.isSome
  | none => false

/-- R81: whether a bank's park list has an entry free. -/
def Sram.parkFree (m : Sram) (bank : Nat) : Bool := decide ((m.parks.filter (fun q => decide (q.bank = bank))).length < 8)

/-- R81, R82: an access that meets WAIT takes a place of its bank's list of eight, and past them it is held. One of a stopped node is
discarded (R363). -/
def State.parkAccess (s : State) (p : Place) (a : Access) (bank word : Nat) : State :=
  let m := s.sram p
  if s.stoppedHart a.hart then s
  else if m.parkFree bank then s.setSram p { m with parks := m.parks ++ [⟨a, bank, word, false⟩] }
  else s.setSram p { m with held := m.held ++ [{ a with bank := bank }] }

/-- R52: whether a thread stands in the react half of a strict domain. -/
def State.strictReact (s : State) (h : Hart) : Bool :=
  match (s.thread h).member with
  | some (d, _) => match Tab.find? s.domains d with
    | some r => r.strict && !r.exch
    | none => false
  | none => false

/-- R323: whether a hub core's PMP permits an access of n bytes at a generic address, of which bits [55:0] are compared (log 26), at a level.
An entry matches an access that shares a byte with its region. -/
def State.pmpAt (s : State) (h : Hart) (lvl : Level) (addr n : Nat) (need : Need) : Bool :=
  if kindOf h.core ≠ .hub then true
  else
    let pa := addr % 2 ^ 56
    let c := s.core h.core
    let base (i : Nat) : Nat := if i = 0 then 0 else 4 * (c.pmpaddr[(i - 1) % 16]'(by omega)).toNat
    let addr (i : Nat) : Nat := (c.pmpaddr[i % 16]'(by omega)).toNat
    let trail (v : Nat) : Nat := ((List.range 54).takeWhile (fun j => decide (v / 2 ^ j % 2 = 1))).length
    let range (i : Nat) : Nat × Nat :=
      match bits (c.pmpcfg[i % 16]'(by omega)) 3 2 with
      | 1 => (base i, 4 * addr i)
      | 3 => let k := trail (addr i); (4 * (addr i / 2 ^ (k + 1) * 2 ^ (k + 1)), 4 * (addr i / 2 ^ (k + 1) * 2 ^ (k + 1)) + 2 ^ (k + 3))
      | _ => (0, 0)
    match (List.range 16).find? (fun i => decide (max pa (range i).1 < min (pa + n) (range i).2)) with
    | none => decide (lvl ≠ .u)
    | some i =>
      let cfg := c.pmpcfg[i % 16]'(by omega)
      if decide (lvl ≠ .u) && !bit cfg 7 then true
      else
        decide ((range i).1 ≤ pa) && decide (pa + n ≤ (range i).2) &&
        (match need with
        | .read => bit cfg 0
        | .write => bit cfg 1
        | .atomic => bit cfg 1
        | .fetch => bit cfg 2)

/-- R323: whether PMP permits an access of a thread as it stands. -/
def State.pmpOk (s : State) (h : Hart) (addr n : Nat) (need : Need) : Bool := s.pmpAt h (s.thread h).level addr n need

/-- R405: the port by which an access to a home leaves the device. -/
def State.portFor (s : State) (home : Home) : Nat :=
  match home with
  | .peer d => (s.routePort d).getD 0
  | _ => 0

/-- What becomes of a redirected access: an answer, an access of the own SRAM to be performed, or a message on its way. -/
inductive Redirected where
  | answer (r : Reply) (s : State)
  | here (p : Place) (a : Access) (s : State)
  | sent (s : State)

/-- R77: where a redirected access goes, as if its issuer had named the target: R58, alignment, R52 and PMP are checked for it (Table 12.1),
and it is performed at the issuer's own SRAM or at a register, or travels to another home. R52 does not meet a transfer in flight. -/
def State.redirected (s : State) (a : Access) (target : Word) : Redirected :=
  match s.rangeAt a.hart a.level target.toNat a.esize with
  | none => .answer (.trap 34 target 0) s
  | some t =>
    let mk (h : Home) (off : Nat) : Access :=
      { a with home := h, redir := true, port := s.portFor h, at_ := target, elems := [(off, (a.elems.headD (0, 0)).2)] }
    let crooked : Bool := if a.issuer = .thread then decide (target.toNat % a.esize ≠ 0) else decide (8 < target.toNat % 8 + a.esize)
    let own : Bool := match t with
      | .sram p _ => decide (p = .core a.hart.core)
      | _ => false
    let strict : Bool := s.strictReact a.hart && (match a.issuer with
      | .transfer _ => false
      | _ => true)
    if crooked then .answer (.trap a.cls.misaligned target 0) s
    else if strict && !own then .answer (.trap 32 target 0) s
    else if !s.pmpAt a.hart a.level target.toNat a.esize a.cls.need then .answer (.trap a.cls.denied target 0) s
    else match t with
      | .sram p off => if own then .here p (mk (.sram p) off) s else .sent (s.send (.access (mk (.sram p) off)))
      | .virt va => .sent (s.send (.access (mk .virt va)))
      | .phys pa =>
        let a' := { mk (dramHome pa) pa with owner := 0 }
        if devAt a.hart.core a.level pa then
          let r := s.physOp a'
          .answer r.1 r.2
        else .sent (s.send (.access a'))
      | .peer d off => .sent (s.send (.access (mk (.peer d) off)))

/-- A bank operation at an SRAM home, with what follows it: an answer; or it waits, parked, held or on its way (true); or it has not been
made (false). -/
def State.serve (s : State) (p : Place) (a : Access) (again : Bool) : Option Reply × Bool × State :=
  match s.bankOp p a again with
  | (.done v q, s') => (some (.value v q), true, s')
  | (.trap c v u, s') => (some (.trap c v u), true, s')
  | (.busy, s') => (none, false, s')
  | (.park b w, s') => (none, true, s'.parkAccess p a b w)
  | (.redirect tgt, s') => match s'.redirected a tgt with
    | .answer r s'' => (some r, true, s'')
    | .sent s'' => (none, true, s'')
    | .here p' a' s'' => match s''.bankOp p' a' false with
      | (.done v q, s3) => (some (.value v q), true, s3)
      | (.trap c v u, s3) => (some (.trap c v u), true, s3)
      | (.park b w, s3) => (none, true, s3.parkAccess p' a' b w)
      | (_, s3) => (none, true, s3.send (.access a'))

/-- The owner under which a thread's access goes (R70, R338). -/
def State.ownerOfHart (s : State) (h : Hart) : BitVec 12 :=
  match kindOf h.core with
  | .compute => (s.core h.core).mowner
  | _ => 0

/-- An access of one element of a thread. -/
def mkAccess (s : State) (h : Hart) (named : Word) (cls : Class) (op : AccOp) (home : Home) (esize : Nat)
    (elems : List (Nat × Nat)) (data : BitVec 512) (cmp : Word) (vec : Bool) : Access where
  id := s.nextId
  grp := s.nextId
  hart := h
  issuer := .thread
  level := (s.thread h).level
  owner := s.ownerOfHart h
  named := named
  at_ := named
  cls := cls
  op := op
  home := home
  esize := esize
  elems := elems
  data := data
  cmp := cmp
  vec := vec
  redir := false
  notified := false
  cleared := false
  full := false
  bank := 0
  port := s.portFor home
  asid := (s.core h.core).asid
  gen := 0

/-- R109, R27: whether younger events of a thread may be performed before an access that goes to a home: the access is one to device memory
and its instruction belongs to the address stream and has no effect beyond its registers and generators that its accesses do not have. -/
def State.looseAt (s : State) (home : Home) (f : Finish) : Bool :=
  s.ahead && home.isDram && (match f with
    | .writeX _ _ => true
    | .writeV _ _ _ => true
    | .stream _ _ _ _ => true
    | .streamOut _ _ => true
    | _ => false)

/-- R178: threads that a fence or release holds look again. -/
def State.wakeFences (s : State) (h : Hart) : State :=
  let t := s.thread h
  if t.status = .fence then s.setThread h { t with status := .again } else s

/-- A virtual channel of a port. -/
def State.chan (s : State) (port vc : Nat) : Chan := (Tab.find? s.dev.chans (4 * port + vc)).getD Chan.init
def State.setChan (s : State) (port vc : Nat) (c : Chan) : State := { s with dev := { s.dev with chans := Tab.set (4 * port + vc) c s.dev.chans } }

/-- R402, R403: whether an access of a peer can have its answer: a flit of the request channel of its port has carried it, which a port sends
only once DEVID is locked. -/
def State.portUp (s : State) (a : Access) : Bool := s.dev.devLock && decide (a.id ∈ (s.chan a.port 0).carried)

/-- The thread waits for an access that has been sent, parked or held. -/
def State.await (s : State) (h : Hart) (ids : List Nat) (f : Finish) (got : BitVec 512) (len : Nat) (loose : Bool := false) : State :=
  let t := s.thread h
  s.setThread h { t with status := .access, pend := some ⟨ids, got, f, len, loose⟩ }

/-- An access at an SRAM home, from its thread: local ones run at once, others travel (R59, R79). -/
def State.sramAccess (s : State) (p : Place) (a : Access) (f : Finish) (len : Nat) : Result :=
  let s1 := { s with nextId := s.nextId + 1 }
  if p = .core a.hart.core then
    match s1.serve p a false with
    | (some (.value v _), _, s2) => .next (s2.finishAccess a.hart f v len)
    | (some (.trap c v u), _, s2) => .next (s2.faultOf a.hart c v u)
    | (none, true, s2) => .next (s2.await a.hart [a.id] f 0 len)
    | (none, false, s2) => .next s2
  else .next ((s1.send (.access a)).await a.hart [a.id] f 0 len)

/-- R178: a store that is fire-and-forget is on its way and its thread goes on; any other access holds its thread until it is answered. -/
def State.travel (s : State) (a : Access) (forgets : Bool) (f : Finish) (len : Nat) : State :=
  let s1 := { s with nextId := s.nextId + 1 }
  if forgets then (s1.send (.access { a with cleared := true })).retire s1.me len
  else (s1.send (.access a)).await a.hart [a.id] f 0 len (s.looseAt a.home f)

/-- R352: an access of a hub core to a register. -/
def State.devAccess (s : State) (a : Access) (f : Finish) (len : Nat) : State :=
  match s.physOp a with
  | (.value v _, s') => s'.finishAccess a.hart f v len
  | (.trap c v u, s') => s'.trap a.hart c v u

end Sys2Proof.Machine
end

