-- ==== Sys2Proof/Machine/Flags.lean ====
section
/-! DEFINITION. Flags and masks: the lanes of a predicated instruction with the flags that its active lanes accrue (R97,
R202), and the mask that a lane result makes (R201). -/

namespace Sys2Proof.Machine

/-- The flags of the n lanes that f gives, from the lanes that p names. -/
def laneFlags (p : Nat → Bool) (f : Nat → FRes) : Nat → Flags
  | 0 => 0
  | n + 1 => laneFlags p f n ||| (if p n then (f n).fl else 0)

/-- R202: the destination of a predicated instruction: active lanes take f's patterns, inactive lanes keep their own. -/
def predLanes (m0 : Word32) (w : Nat) (old : Vec) (f : Nat → Nat) : Vec :=
  vecOf w (fun i => if active m0 w i then f i else lane old w i)

/-- R202: a predicated lane operation on a thread: register d and FFLAGS. -/
def Thread.lanesR (t : Thread) (d : Fin 32) (w : Nat) (f : Nat → FRes) : Thread :=
  let m0 := t.getM 0
  (t.setV d (predLanes m0 w (t.getV d) (fun i => (f i).bits))).accrue (laneFlags (active m0 w) f (64 / w))

/-- R202: a predicated lane operation that raises no flags. -/
def Thread.lanesI (t : Thread) (d : Fin 32) (w : Nat) (f : Nat → Nat) : Thread :=
  t.setV d (predLanes (t.getM 0) w (t.getV d) f)

/-- The mask bits of the n lanes of a lane result, by R201's geometry for 4-byte and 2-byte lanes. -/
def maskBits (w : Nat) (r : Nat → Bool) : Nat → Nat
  | 0 => 0
  | n + 1 => maskBits w r n + (if r n then (if w = 4 then 3 * 2 ^ (2 * n) else 2 ^ n) else 0)

/-- R201: the mask of a lane result; inactive lanes count as false, and a bit of one-byte lanes needs both of its lanes. -/
def maskOf (m0 : Word32) (w : Nat) (r : Nat → Bool) : Word32 :=
  let act (i : Nat) : Bool := active m0 w i && r i
  if w = 1 then BitVec.ofNat 32 (maskBits 2 (fun j => act (2 * j) && act (2 * j + 1)) 32)
  else BitVec.ofNat 32 (maskBits w act (64 / w))

/-- A compare of lanes into mask d, with the flags of its active lanes. -/
def Thread.compareR (t : Thread) (d : Fin 8) (w : Nat) (r : Nat → Bool) (fl : Nat → Flags) : Thread :=
  let m0 := t.getM 0
  (t.setM d (maskOf m0 w r)).accrue (laneFlags (active m0 w) (fun i => ⟨0, fl i⟩) (64 / w))

/-- R173, Table 13.5: the flags of a compare: NV for a signalling NaN, or for any NaN in an ordered one. -/
def cmpFlags (ordered : Bool) (x y : Num) : Flags :=
  nvIf (x.isSig || y.isSig || (ordered && (x.isNan || y.isNan)))

end Sys2Proof.Machine
end

