-- ==== Sys2Proof/Machine/Memory.lean ====
section
/-! DEFINITION. Scalar loads and stores, ordered accesses, fences, atomics, tags and action tables (chapter "Instructions: Memory,
Atomics, Tags, Messages and Threads", sections 1 to 4). -/

namespace Sys2Proof.Machine

/-- What a scalar access asks for. -/
structure Scalar where
  addr : Word
  size : Nat
  cls : Class
  op : AccOp
  data : Word
  cmp : Word
  fin : Finish
  len : Nat
  deriving DecidableEq, Repr

/-- R178: whether the access is a store that is fire-and-forget once cleared. -/
def Scalar.forgets (q : Scalar) : Bool :=
  match q.op with
  | .store => true
  | _ => false

/-- Steps 3 to 6 of Table 12.1 for an access whose address is legal and aligned, and the access itself. -/
def State.scalarAt (s : State) (q : Scalar) (t : Target) : Result :=
  let h := s.cur
  let mk (home : Home) (off : Nat) : Access :=
    mkAccess s h q.addr q.cls q.op home q.size [(off, 0)] (q.data.setWidth 512) q.cmp false
  let first := if q.op.direct then q.addr.toNat / 8 * 8 else q.addr.toNat
  match t with
  | .sram p off =>
    if p ≠ .core h.core ∧ s.strictReact h then s.trapMe 32 q.addr
    else if !s.pmpOk h first q.size q.cls.need then s.trapMe q.cls.denied q.addr
    else s.sramAccess p (mk (.sram p) off) q.fin q.len
  | .virt va =>
    if q.op.direct then s.trapMe 34 q.addr
    else if s.strictReact h then s.trapMe 32 q.addr
    else match s.translate h.core va q.cls.need with
      | .fault => s.trapMe q.cls.pageFault q.addr
      | .miss => .next (s.noteMiss h va q.cls.need)
      | .dirty => .next (s.noteDirty h va q.cls.need)
      | .hit pa e => .next ((s.touch h.core e).travel { mk (dramHome pa) pa with owner := e.owner, gen := e.gen } q.forgets q.fin q.len)
  | .phys pa =>
    if q.op.direct then s.trapMe 34 q.addr
    else if !s.pmpOk h q.addr.toNat q.size q.cls.need then s.trapMe q.cls.denied q.addr
    else if devAt h.core (s.thread h).level pa then .next (({ s with nextId := s.nextId + 1 }).devAccess (mk (dramHome pa) pa) q.fin q.len)
    else if pa + q.size ≤ 2 ^ 39 then .next (s.travel (mk (dramHome pa) pa) q.forgets q.fin q.len)
    else .fault (.physicalHole pa)
  | .peer d off =>
    if q.op.direct then s.trapMe 34 q.addr
    else if s.strictReact h then s.trapMe 32 q.addr
    else if !s.pmpOk h q.addr.toNat q.size q.cls.need then s.trapMe q.cls.denied q.addr
    else .next (s.travel (mk (.peer d) off) q.forgets q.fin q.len)

/-- Table 12.1: a scalar access; `stays` says that nothing of the thread passes it (R108). -/
def State.scalar (s : State) (q : Scalar) (stays : Bool := false) : Result :=
  match s.resolveRange s.cur q.addr.toNat q.size with
  | none => s.trapMe 34 q.addr
  | some t =>
    if q.addr.toNat % q.size ≠ 0 then s.trapMe q.cls.misaligned q.addr
    else (if stays then { s with ahead := false } else s).scalarAt q t

/-- R176: base + sext(off9) × size, modulo 2^64. -/
def effAddr (base : Word) (off : BitVec 9) (size : Nat) : Word := base + off.signExtend 64 * BitVec.ofNat 64 size

/-- R176: a scalar load. -/
def State.load (s : State) (k : LdKind) (d : Fin 32) (base : Opnd) (off : BitVec 9) : Result :=
  s.scalar ⟨effAddr (s.me.opX base) off (ldBytes k), ldBytes k, .load, .load, 0, 0, .writeX d k, len1 base⟩

/-- R177: a scalar store. -/
def State.store (s : State) (k : StKind) (d base : Opnd) (off : BitVec 9) : Result :=
  s.scalar ⟨effAddr (s.me.opX base) off (stBytes k), stBytes k, .store, .store, s.me.opX d, 0, .drop, len2 d base⟩

def execLb (d : Fin 32) (base : Opnd) (off : BitVec 9) (s : State) : Result := s.load .b d base off
def execLbu (d : Fin 32) (base : Opnd) (off : BitVec 9) (s : State) : Result := s.load .bu d base off
def execLh (d : Fin 32) (base : Opnd) (off : BitVec 9) (s : State) : Result := s.load .h d base off
def execLhu (d : Fin 32) (base : Opnd) (off : BitVec 9) (s : State) : Result := s.load .hu d base off
def execLw (d : Fin 32) (base : Opnd) (off : BitVec 9) (s : State) : Result := s.load .w d base off
def execLwu (d : Fin 32) (base : Opnd) (off : BitVec 9) (s : State) : Result := s.load .wu d base off
def execLd (d : Fin 32) (base : Opnd) (off : BitVec 9) (s : State) : Result := s.load .d d base off
def execSb (d base : Opnd) (off : BitVec 9) (s : State) : Result := s.store .b d base off
def execSh (d base : Opnd) (off : BitVec 9) (s : State) : Result := s.store .h d base off
def execSw (d base : Opnd) (off : BitVec 9) (s : State) : Result := s.store .w d base off
def execSd (d base : Opnd) (off : BitVec 9) (s : State) : Result := s.store .d d base off

/-! ## Ordered accesses and fences -/

/-- Whether a home lies within a scope of a core (R106): the core itself, its cluster, the device, everything. -/
def Home.within (h : Home) (core : Nat) (sc : Scope) : Bool :=
  match sc, h with
  | .th, _ => false
  | .core, .sram p => decide (p = .core core)
  | .core, _ => false
  | .cl, .sram p => decide (p.cluster_ = clusterOf core)
  | .cl, _ => false
  | .dev, .peer _ => false
  | .dev, _ => true
  | .sys, _ => true

/-- Whether a message is an access or a message of a thread, not of an engine, whose home lies within a scope of it. -/
def Msg.outstands (m : Msg) (h : Hart) (sc : Scope) : Bool :=
  let mine (a : Access) : Bool := decide (a.hart = h) && decide (a.issuer = .thread) && a.home.within h.core sc
  match m with
  | .reply a _ => mine a
  | .user _ src dst _ => decide (src = h) && (Home.sram (.core dst)).within h.core sc
  | m => m.accesses.any mine

/-- R179, R180, R192: an earlier access or message of the thread that a fence or release at a scope waits for. -/
def State.outstandingIn (s : State) (h : Hart) (sc : Scope) : Bool := s.net.any (fun m => m.outstands h sc)

/-- R179: a load with acquire: every later event of the thread follows it, whatever its scope (R108), so that none passes it. -/
def execLoadAcquire (d : Fin 32) (a : Opnd) (_scope : Scope) (kind : LdKind) (s : State) : Result :=
  s.scalar ⟨s.me.opX a, ldBytes kind, .load, .load, 0, 0, .writeX d kind, len1 a⟩ true

/-- R179: a store with release waits until every earlier event in its scope has been performed. -/
def execStoreRelease (d a : Opnd) (scope : Scope) (kind : StKind) (s : State) : Result :=
  let q : Scalar := ⟨s.me.opX a, stBytes kind, .store, .store, s.me.opX d, 0, .drop, len2 d a⟩
  match s.resolveRange s.cur q.addr.toNat q.size with
  | none => s.trapMe 34 q.addr
  | some t =>
    if q.addr.toNat % q.size ≠ 0 then s.trapMe 6 q.addr
    else if s.outstandingIn s.cur scope then s.block .fence
    else s.scalarAt q t

/-- R180, R139: FENCE waits for the thread's earlier events in its scope; FENCE.sys also brings earlier stores to fetch. -/
def execFence (scope : Scope) (s : State) : Result :=
  if s.outstandingIn s.cur scope then s.block .fence
  else
    let t := if scope = .sys then { s.me with fenceSeq := s.logSeq } else s.me
    .next (s.retire t 4)

/-! ## Atomics -/

/-- The scope of an atomic's ORD (Table 10.12). -/
def ordScope : Ord → Scope
  | .none => .th | .cl => .cl | .dev => .dev | .sys => .sys

/-- R182, R148: an atomic on the 8-byte word at a; with an ordering it is an acquire and a release at its scope. -/
def State.atomic (s : State) (op : Amo) (d : Fin 32) (a b : Opnd) (ord : Ord) : Result :=
  let q : Scalar := ⟨s.me.opX a, 8, .atomic, .amo op, s.me.opX b, s.me.getX d, .writeX d .d, len2 a b⟩
  match s.resolveRange s.cur q.addr.toNat 8 with
  | none => s.trapMe 34 q.addr
  | some t =>
    if q.addr.toNat % 8 ≠ 0 then s.trapMe 6 q.addr
    else if ord = .none then s.scalarAt q t
    else if s.outstandingIn s.cur (ordScope ord) then s.block .fence
    else ({ s with ahead := false }).scalarAt q t

def execAmoadd (d : Fin 32) (a b : Opnd) (ord : Ord) (s : State) : Result := s.atomic .add d a b ord
def execAmoand (d : Fin 32) (a b : Opnd) (ord : Ord) (s : State) : Result := s.atomic .and d a b ord
def execAmoor (d : Fin 32) (a b : Opnd) (ord : Ord) (s : State) : Result := s.atomic .or d a b ord
def execAmoxor (d : Fin 32) (a b : Opnd) (ord : Ord) (s : State) : Result := s.atomic .xor d a b ord
def execAmomin (d : Fin 32) (a b : Opnd) (ord : Ord) (s : State) : Result := s.atomic .min d a b ord
def execAmomax (d : Fin 32) (a b : Opnd) (ord : Ord) (s : State) : Result := s.atomic .max d a b ord
def execAmominu (d : Fin 32) (a b : Opnd) (ord : Ord) (s : State) : Result := s.atomic .minu d a b ord
def execAmomaxu (d : Fin 32) (a b : Opnd) (ord : Ord) (s : State) : Result := s.atomic .maxu d a b ord
def execAmoswap (d : Fin 32) (a b : Opnd) (ord : Ord) (s : State) : Result := s.atomic .swap d a b ord
def execAmocas (d : Fin 32) (a b : Opnd) (ord : Ord) (s : State) : Result := s.atomic .cas d a b ord
def execAmofadd (d : Fin 32) (a b : Opnd) (ord : Ord) (s : State) : Result := s.atomic .fadd d a b ord

/-! ## Tags and action tables -/

/-- R185: a tag access to the word that holds the address; no alignment check. -/
def State.tagAccess (s : State) (op : AccOp) (cls : Class) (a : Opnd) (data cmp : Word) (fin : Finish) (len : Nat) : Result :=
  let addr := s.me.opX a
  let q : Scalar := ⟨addr, 8, cls, op, data, cmp, fin, len⟩
  match s.resolve s.cur (addr.toNat / 8 * 8) with
  | none => s.trapMe 34 addr
  | some t => s.scalarAt q t

/-- R185: TLD. -/
def execTld (d : Fin 32) (a : Opnd) (s : State) : Result := s.tagAccess .tld .load a 0 0 (.writeX d .d) (len1 a)

/-- R185: TST. -/
def execTst (a b : Opnd) (s : State) : Result := s.tagAccess .tst .store a (s.me.opX b) 0 .drop (len2 a b)

/-- R185: TCAS. -/
def execTcas (d : Fin 32) (a b : Opnd) (s : State) : Result :=
  s.tagAccess .tcas .atomic a (s.me.opX b) (s.me.getX d) (.writeX d .d) (len2 a b)

/-- R186: a table instruction on a set of the issuing core, or by message on one of its cluster. -/
def State.tableAccess (s : State) (op : AccOp) (sel data : Word) (fin : Finish) (len : Nat) : Result :=
  let p : Place := if bit sel 8 && selOk op sel then .cluster (clusterOf s.cur.core) else .core s.cur.core
  if p ≠ .core s.cur.core ∧ s.strictReact s.cur then s.trapMe 32 sel
  else s.sramAccess p (mkAccess s s.cur sel .store op (.sram p) 8 [] (data.setWidth 512) 0 false) fin len

/-- R187: TTAB.WR. -/
def execTtabWr (a b : Opnd) (s : State) : Result :=
  s.tableAccess (.ttabWr (s.me.opX a)) (s.me.opX a) (s.me.opX b) .drop (len2 a b)

/-- R187: TTAB.RD. -/
def execTtabRd (d : Fin 32) (a : Opnd) (s : State) : Result :=
  s.tableAccess (.ttabRd (s.me.opX a)) (s.me.opX a) 0 (.writeX d .d) (len1 a)

/-- R188: TTAB.SWAP. -/
def execTtabSwap (a : Opnd) (s : State) : Result :=
  s.tableAccess (.ttabSwap (s.me.opX a)) (s.me.opX a) 0 .drop (len1 a)

/-! ## Messages of accesses (device steps) -/

/-- R82: whether an access of a source core is held behind a full park list of a home, with that core's later messages behind it. -/
def State.heldAt (s : State) (p : Place) (src : Nat) : Bool :=
  decide (p ≠ .core src) && (s.sram p).held.any (fun b => decide (b.hart.core = src))

/-- R107: whether a message of a thread's earlier instruction travels to a home. -/
def Msg.goesTo (m : Msg) (h : Hart) (home : Home) (grp : Nat) : Bool :=
  match m with
  | .user _ src dst _ => decide (src = h) && decide (home = .sram (.core dst))
  | m => m.accesses.any (fun b => decide (b.hart = h) && decide (b.issuer = .thread) && decide (b.home = home) && decide (b.grp ≠ grp))

/-- R82, R189: whether a home takes no message of a source core: one of that core is held there, or 16 held remote-access messages fill
their part of its inbox. -/
def State.shutTo (s : State) (home : Home) (src : Nat) : Bool :=
  match home with
  | .sram p => s.heldAt p src || (match p with
    | .core n => decide (n ≠ src) && decide (16 ≤ ((s.sram p).held.filter (fun b => decide (p ≠ .core b.hart.core))).length)
    | .cluster _ => false)
  | _ => false

/-- R107, R189, R82: whether an access waits at its home, or behind one of an earlier instruction of its thread on its way there. -/
def State.behind (s : State) (a : Access) : Bool :=
  s.shutTo a.home a.hart.core || (decide (a.issuer = .thread) &&
    (s.net.takeWhile (fun m => decide (a.id ∉ m.accesses.map Access.id))).any (fun m => m.goesTo a.hart a.home a.grp))

/-- A home's answer to an access that travelled: a reply message. -/
def State.answer (s : State) (a : Access) (r : Reply) : State := s.send (.reply a r)

/-- An access message in its place in the network, with the access as it stands now. -/
def State.resend (s : State) (a : Access) : State :=
  { s with net := s.net.map (fun m => match m with
    | .access b => if b.id = a.id then .access a else .access b
    | m => m) }

/-- An access that travelled alone is checked and performed at its home. -/
def State.arrive (s : State) (a : Access) : State :=
  let va := (a.elems.headD (0, 0)).1
  match a.home with
  | .sram p => match s.serve p a false with
    | (some r, _, s1) => (s1.unsend a.id).answer a r
    | (none, false, s1) => s1
    | (none, true, s1) => { s1 with net := s1.net.filter (fun m => decide (m ≠ .access a)) }
  | .dram _ =>
    let (r, s1) := s.dramOp a
    (s1.unsend a.id).answer a r
  | .virt => match s.translate a.hart.core va a.cls.need with
    | .hit pa e =>
      ((s.touch a.hart.core e).unsend a.id).send
        (.access { a with home := dramHome pa, elems := [(pa, (a.elems.headD (0, 0)).2)], owner := e.owner, gen := e.gen })
    | .fault => (s.unsend a.id).answer a (.trap a.cls.pageFault a.at_ 0)
    | .miss => ((s.miss a.hart va a.cls.need).2).resend { a with notified := false }
    | .dirty => if a.notified then s else (s.sendNotice a.hart va a.cls.need).resend { a with notified := true }
  | .peer _ => s

/-- R69, R81: whether no lane of a line meets a word whose woken accesses are still to be re-checked. -/
def State.lineFree (s : State) (as : List Access) : Bool :=
  as.all (fun a => match a.home with
    | .sram p => !(s.sram p).parks.any (fun q => q.woken && decide (q.word ∈ wordsOf a.esize a.elems))
    | _ => true)

/-- R69: one lane of a line that the gather unit reads: its answer, if it does not wait, in the bank operation of the line. -/
def State.gatherLane (s : State) (a : Access) : Option Reply × State :=
  match a.home with
  | .sram p => match s.serve p a true with
    | (none, false, s1) =>
      let r := s1.serve p a true
      (r.1, r.2.2)
    | (r, _, s1) => (r, s1)
  | _ =>
    let r := s.dramOp a
    (some r.1, r.2)

/-- R69: the elements of one line that the gather unit reads in one bank operation, in lane order; one that traps ends it. -/
def State.gatherLine (s : State) : List Access → State
  | [] => s
  | a :: t => match s.gatherLane a with
    | (some (.trap c v u), s1) => s1.answer a (.trap c v u)
    | (some r, s1) => (s1.answer a r).gatherLine t
    | (none, s1) => s1.gatherLine t

/-- Whether a peer holds an access. -/
def Access.isPeer (a : Access) : Bool :=
  match a.home with
  | .peer _ => true
  | _ => false

/-- R75, R77, R178, R349: an access message is checked and performed at its home, where that is on this device. -/
def execRemoteAccessArrival (id : Nat) (s : State) : Result :=
  match s.msg? id with
  | some (.access a) => .next (if s.behind a then s else s.arrive a)
  | some (.group n as) => match as with
    | [] => .next (s.unsend n)
    | a :: _ => .next (if a.isPeer || s.behind a || !s.lineFree as then s else (s.unsend n).gatherLine as)
  | _ => .next s

/-- R178: the acknowledgement or error of a home for a cleared store; a peer's refusal is cause 40. -/
def execStoreAcknowledge (id : Nat) (refused : Bool) (s : State) : Result :=
  match s.msg? id with
  | some (.reply a r) =>
    if a.cleared then .next (((s.unsend id).deliver a r).wakeFences a.hart) else .next s
  | some (.access a) => match a.home with
    | .peer _ =>
      if a.cleared ∧ s.portUp a then
        .next (((s.unsend id).deliver a (if refused then .trap 40 a.at_ 0 else .value 0 false)).wakeFences a.hart)
      else .next s
    | _ => .next s
  | _ => .next s

/-- The lanes of an access, from the 64-byte line of a peer that holds its elements. -/
def Access.spreadLine (a : Access) (v : BitVec 512) : BitVec 512 :=
  a.elems.foldl (fun acc e => acc ||| (BitVec.ofNat 512 (v.toNat / 256 ^ (e.1 % 64) % 256 ^ a.esize) <<< (8 * a.esize * e.2))) 0

/-- R178: what a peer answers to an access: its lanes of the line, or a refusal. -/
def Access.peerReply (a : Access) (peer : Option (BitVec 512)) : Reply :=
  match peer with
  | some v => .value (a.spreadLine v) false
  | none => .trap 40 a.at_ 0

/-- R79, R178: the answer to an access that was not yet cleared; the line of a peer that holds it, or the peer's refusal, stands in the
step. All lanes of one line that the gather unit reads at a peer have their values from one line (R69). -/
def execRemoteAccessReply (id : Nat) (peer : Option (BitVec 512)) (s : State) : Result :=
  match s.msg? id with
  | some (.reply a r) =>
    if a.cleared then .next s else .next (((s.unsend id).deliver a r).wakeFences a.hart)
  | some (.access a) => match a.home with
    | .peer _ =>
      if a.cleared ∨ !s.portUp a then .next s else .next (((s.unsend id).deliver a (a.peerReply peer)).wakeFences a.hart)
    | _ => .next s
  | some (.group n as) => match as with
    | [] => .next s
    | a :: _ =>
      if a.isPeer && s.portUp a then
        .next ((as.foldl (fun (x : State) b => x.deliver b (b.peerReply peer)) (s.unsend n)).wakeFences a.hart)
      else .next s
  | _ => .next s

/-- The place that a device step's number names: a core below 8192, otherwise a cluster. -/
def placeOf (n : Nat) : Place := if n < 8192 then .core n else .cluster (n - 8192)

/-- The answer of a parked or held access goes to a local issuer at once and to a remote one by message. -/
def State.answerParked (s : State) (p : Place) (a : Access) (r : Reply) : State :=
  if p = .core a.hart.core then s.deliver a r else s.answer a r

/-- R81: the first woken access of a bank is re-checked in a bank operation of its own; one that meets WAIT again keeps its
place in that bank's list, also where a vector access now waits on a word of another bank (DESIGN CHOICE, log 107). -/
def execParkRecheck (place bank : Nat) (s : State) : Result :=
  let p := placeOf place
  let m := s.sram p
  match m.parks.find? (fun q => q.woken && decide (q.bank = bank)) with
  | none => .next s
  | some q =>
    let calm : State := s.setSram p { m with parks := m.parks.map (fun r => if r.access.id = q.access.id then { r with woken := false } else r) }
    let gone (t : State) : State :=
      let m' := t.sram p
      t.setSram p { m' with parks := m'.parks.filter (fun r => decide (r.access.id ≠ q.access.id)) }
    match calm.bankOp p q.access true with
    | (.park _ w, s1) =>
      let m' := s1.sram p
      .next (s1.setSram p { m' with parks := m'.parks.map (fun r => if r.access.id = q.access.id then { r with word := w } else r) })
    | (.busy, _) => .next s
    | (.done v c, s1) => .next ((gone s1).answerParked p q.access (.value v c))
    | (.trap c v u, s1) => .next ((gone s1).answerParked p q.access (.trap c v u))
    | (.redirect tgt, s1) => match (gone s1).redirected q.access tgt with
      | .answer r s2 => .next (s2.answerParked p q.access r)
      | .sent s2 => .next s2
      | .here _ a' s2 => .next (s2.send (.access a'))

/-- R82: a held access is checked afresh when an entry of the park list that it met full is free. -/
def execHeldAccessRecheck (id : Nat) (s : State) : Result :=
  let has (m : Sram) : Bool := m.held.any (fun a => decide (a.id = id))
  let spots : List (Place × Sram) := s.cores.map (fun q => (.core q.1, q.2.sram)) ++ s.clusters.map (fun q => (.cluster q.1, q.2.sram))
  match spots.find? (fun c => has c.2) with
  | none => .next s
  | some (p, m) => match m.held.find? (fun a => decide (a.id = id)) with
    | none => .next s
    | some a =>
      if !m.parkFree a.bank then .next s
      else
        let s0 := s.setSram p { m with held := m.held.filter (fun b => decide (b.id ≠ id)) }
        match s0.serve p a false with
        | (some r, _, s1) => .next (s1.answerParked p a r)
        | (none, true, s1) => .next s1
        | (none, false, _) => .next s

end Sys2Proof.Machine
end

