-- ==== Sys2Proof/Machine/Csr.lean ====
section
/-! DEFINITION. Control and status registers: which exist at which core and level (R150, R168, R319), how each reads and what a
write leaves in it (R6, R62, R65, R84, R96, R169, R170, R320 to R323), the four instructions of major 0x07 (R166, R167) and
the writes that stand in the opcode table as steps of their own. -/

namespace Sys2Proof.Machine

/-- R168: the numbers of Table 11.12. -/
def userCsr (n : Nat) : Bool :=
  decide (n ≤ 5) || n == 0x10 || n == 0x11 || (decide (0x20 ≤ n) && decide (n ≤ 0x23)) || n == 0x30 ||
    (decide (0x40 ≤ n) && decide (n ≤ 0x51)) || (decide (0x60 ≤ n) && decide (n ≤ 0x62)) ||
    (decide (0x70 ≤ n) && decide (n ≤ 0x87)) || (decide (0xC00 ≤ n) && decide (n ≤ 0xC02))

/-- R319: the S-level numbers of Table 21.5 on a kind of core. -/
def superCsr (k : Kind) (n : Nat) : Bool :=
  decide (k ≠ .compute) &&
    (n == 0x300 || n == 0x301 || n == 0x304 || n == 0x305 || (decide (0x341 ≤ n) && decide (n ≤ 0x344)) ||
      (decide (k = .hub) && (n == 0x302 || n == 0x345 || n == 0x346)))

/-- R319: the M-level numbers of Table 21.5 on a kind of core. -/
def machineCsr (k : Kind) (n : Nat) : Bool :=
  n == 0x700 || n == 0x701 || n == 0x704 || n == 0x705 || (decide (0x741 ≤ n) && decide (n ≤ 0x744)) ||
    (decide (k = .compute) && (n == 0x702 || n == 0x780 || n == 0x781)) ||
    (decide (k ≠ .compute) && n == 0x703) ||
    (decide (k = .hub) && (n == 0x750 || n == 0x751 || (decide (0x760 ≤ n) && decide (n ≤ 0x76F))))

/-- R150: whether a number names a CSR at or below a level of a core. -/
def csrOk (core : Nat) (l : Level) (n : Nat) : Bool :=
  userCsr n || (decide (l ≠ .u) && superCsr (kindOf core) n) || (decide (l = .m) && machineCsr (kindOf core) n)

/-- R320: the bits of MSTATUS that are fields on a core: MPP and the M bits, and the S bits where S exists. -/
def mstatusMask (core : Nat) : Word := if hasS core then 0x19AA#64 else 0x1888#64

/-- R320: the S fields of MSTATUS. -/
def sstatusMask : Word := 0x122#64

/-- R317, R319: the bits of MIE, and of SIE, that stand for an interrupt. -/
def mieMask : Word := 0x1FE#64
def sieMask : Word := 0x1D8#64

/-- R319: bits 8, 9 and 11 of MSDELEG stay 0. -/
def msdelegMask : Word := ~~~ 0xB00#64

/-- The open domain of a grid, with its number. -/
def State.domainOf (s : State) (gid : Nat) : Option (Nat × Domain) := List.find? (fun q => decide (q.2.gid = gid) && !q.2.closing) s.domains

/-- Table 4.1: DOMAIN as a thread reads it: 0 in a spill thread and where the grid has no open domain (log 17). -/
def State.domainWord (s : State) (h : Hart) : Word :=
  let t := s.thread h
  match s.domainOf t.grid with
  | none => 0
  | some (n, d) =>
    let mem : Option Nat := match t.member with
      | some (m, i) => if m = n then some i else none
      | none => none
    if kindOf h.core ≠ .compute ∨ h.th = 5 then 0
    else BitVec.ofNat 64 (2 ^ 53 + 2 ^ 52 * d.strict.toNat + 2 ^ 51 * d.exch.toNat + 2 ^ 50 * mem.isSome.toNat +
      2 ^ 35 * d.members.length + 2 ^ 21 * mem.getD 0 + 2 ^ 12 * d.sigs.length + n % 16)

/-- The domain of which a thread is a member, or for a drain thread its user thread, with the member's index. -/
def State.myDomain (s : State) (h : Hart) : Option (Nat × Nat × Domain) :=
  match (s.thread h).member with
  | none => none
  | some (n, i) => match Tab.find? s.domains n with
    | none => none
    | some d => some (n, i, d)

/-- Table 4.2: INSTANT as a member reads it; 0 elsewhere. -/
def State.instantWord (s : State) (h : Hart) : Word :=
  match s.myDomain h with
  | none => 0
  | some (_, _, d) => d.instant

/-- The number of regions of a TAGMAP register that a level reaches (R65). DEDUCED, log 100: the writes of the monitor range's fields that
the rule ignores are those at U, where the fields read 0; at S and M the fields are read and written. -/
def regionsSeen (l : Level) (k : Nat) : Nat :=
  if k = 7 then (if l = .u then 0 else 16) else if k = 6 ∧ l = .u then 12 else 16

/-- Table 5.5: TAGMAPk as a level reads it. -/
def Core.tagmap (c : Core) (l : Level) (k : Nat) : Word :=
  BitVec.ofNat 64 ((List.range (regionsSeen l k)).foldl (fun v m =>
    v + 2 ^ (4 * m) * ((Tab.get 0 c.sram.regions (16 * k + m)).toNat + 4 * (Tab.get false c.skew (16 * k + m)).toNat)) 0)

/-- R84: a write of one SET field; a change of set is like a swap, and every parked access of the region wakes. -/
def Sram.setRegion (m : Sram) (r v : Nat) : Sram :=
  { m with
    regions := Tab.put 0 r (BitVec.ofNat 2 v) m.regions
    parks := m.parks.map (fun p => if p.word / 0x800 = r then { p with woken := true } else p) }

/-- R65, R84: a write of TAGMAPk at a level. -/
def Core.writeTagmap (c : Core) (l : Level) (k : Nat) (v : Word) : Core :=
  { c with sram := (List.range (regionsSeen l k)).foldl (fun m i => m.setRegion (16 * k + i) (bits v (4 * i) 2)) c.sram }

/-- R62: a write of BANKFMTb. -/
def Core.writeBankfmt (c : Core) (b : Fin 16) (v : Word) : Core :=
  if zeroBits v 4 60 && decide (bits v 0 4 ≤ 10) then { c with fmts := c.fmts.set b.val (v.setWidth 4) } else c

/-- Table 21.9: PMPCFG0 and PMPCFG1. -/
def Core.pmpcfgWord (c : Core) (j : Nat) : Word :=
  BitVec.ofNat 64 ((List.range 8).foldl (fun v i => v + 2 ^ (8 * i) * (c.pmpcfg[(8 * j + i) % 16]'(by omega)).toNat) 0)

/-- R323: a write of one region's configuration: a locked one stays, and a write of A = 2 leaves A unchanged. -/
def pmpWrite (old : BitVec 8) (v : Nat) : BitVec 8 :=
  if bit old 7 then old
  else
    let new : BitVec 8 := BitVec.ofNat 8 v &&& 0x9F#8
    if bits new 3 2 = 2 then setBits new 3 2 (bits old 3 2) else new

def Core.writePmpcfg (c : Core) (j : Nat) (v : Word) : Core :=
  { c with pmpcfg := Vector.ofFn (fun i : Fin 16 =>
      if i.val / 8 = j then pmpWrite c.pmpcfg[i.val] (bits v (8 * (i.val % 8)) 8) else c.pmpcfg[i.val]) }

/-- R323: a write of PMPADDRn. -/
def Core.writePmpaddr (c : Core) (n : Fin 16) (v : Word) : Core :=
  if bit c.pmpcfg[n.val] 7 then c else { c with pmpaddr := c.pmpaddr.set n.val (v.setWidth 54) }

/-- R316: a resolution of the report that a hub core handles sends the action to the trapped thread's monitor; the action
itself is the step RESOLVE_RETRY, RESOLVE_SKIP or RESOLVE_ABORT of the core. -/
def resolveTurn (core action : Nat) : Turn :=
  .event (if action = 0 then .resolveRetry (core - 4352) else if action = 1 then .resolveSkip (core - 4352) else .resolveAbort (core - 4352))

/-- Reads a CSR for a thread; 0 for a number that names none. -/
def State.readCsr (s : State) (h : Hart) (n : Nat) : Word :=
  let t := s.thread h
  let c := s.core h.core
  if n = 0x000 then t.user.ucause.setWidth 64
  else if n = 0x001 then t.user.uval
  else if n = 0x002 then t.user.uepc
  else if n = 0x003 then t.user.utvec
  else if n = 0x004 then BitVec.ofNat 64 (4 * t.user.pend.toNat + 2 * t.user.uie.toNat + t.user.h.toNat)
  else if n = 0x005 then t.user.utag.setWidth 64
  else if n = 0x010 then t.fmode.setWidth 64
  else if n = 0x011 then t.fflags.setWidth 64
  else if n = 0x020 then t.nodeid
  else if n = 0x021 then t.griddim
  else if n = 0x022 then s.instantWord h
  else if n = 0x023 then s.domainWord h
  else if n = 0x030 then t.xdone
  else if n = 0x040 then t.xf.src
  else if n = 0x041 then t.xf.dst
  else if 0x042 ≤ n ∧ n ≤ 0x045 then (t.xf.shape[(n - 0x042) % 4]'(by omega)).setWidth 64
  else if 0x047 ≤ n ∧ n ≤ 0x049 then t.xf.sstride[(n - 0x047) % 3]'(by omega)
  else if 0x04B ≤ n ∧ n ≤ 0x04D then t.xf.dstride[(n - 0x04B) % 3]'(by omega)
  else if n = 0x04E then BitVec.ofNat 64 (256 * t.xf.user.toNat + t.xf.irq.toNat)
  else if n = 0x050 then t.apos.setWidth 64
  else if n = 0x051 then t.ascale.setWidth 64
  else if n = 0x060 then c.cmroot
  else if n = 0x061 then t.cmfree
  else if n = 0x062 then t.cmprog.setWidth 64
  else if 0x070 ≤ n ∧ n ≤ 0x07F then (c.fmts[(n - 0x070) % 16]'(by omega)).setWidth 64
  else if 0x080 ≤ n ∧ n ≤ 0x087 then c.tagmap t.level (n - 0x080)
  else if n = 0xC00 then s.cycle h.core
  else if n = 0xC01 then t.retired
  else if n = 0xC02 then s.energyWord c.mcontext.toNat
  else if n = 0x300 then t.priv.mstatus &&& sstatusMask
  else if n = 0x301 then t.priv.stvec
  else if n = 0x302 then t.priv.sudeleg
  else if n = 0x304 then t.priv.sie
  else if n = 0x305 then t.priv.sip
  else if n = 0x341 then t.priv.sepc
  else if n = 0x342 then t.priv.scause
  else if n = 0x343 then t.priv.sval
  else if n = 0x344 then t.priv.sscratch
  else if n = 0x345 then t.priv.sreport
  else if n = 0x700 then t.priv.mstatus
  else if n = 0x701 then t.priv.mtvec
  else if n = 0x702 then c.mudeleg
  else if n = 0x703 then t.priv.msdeleg
  else if n = 0x704 then t.priv.mie
  else if n = 0x705 then t.priv.mip
  else if n = 0x741 then t.priv.mepc
  else if n = 0x742 then t.priv.mcause
  else if n = 0x743 then t.priv.mval
  else if n = 0x744 then t.priv.mscratch
  else if n = 0x750 then c.pmpcfgWord 0
  else if n = 0x751 then c.pmpcfgWord 1
  else if 0x760 ≤ n ∧ n ≤ 0x76F then (c.pmpaddr[(n - 0x760) % 16]'(by omega)).setWidth 64
  else if n = 0x780 then c.mowner.setWidth 64
  else if n = 0x781 then c.mcontext.setWidth 64
  else 0

/-- The writes of U-level CSRs that touch the thread alone; none for any other number. -/
def Thread.writeUser (t : Thread) (n : Nat) (v : Word) : Option Thread :=
  let user (u : UserCsrs) : Option Thread := some { t with user := u }
  let xf (x : XferRegs) : Option Thread := some { t with xf := x }
  if n = 0x000 then user { t.user with ucause := v.setWidth 7 }
  else if n = 0x001 then user { t.user with uval := v }
  else if n = 0x002 then user { t.user with uepc := v &&& ~~~ 1#64 }
  else if n = 0x003 then user { t.user with utvec := v &&& ~~~ 1#64 }
  else if n = 0x004 then user { t.user with uie := bit v 1 }
  else if n = 0x010 then some (if zeroBits v 2 62 then { t with fmode := v.setWidth 2 } else t)
  else if n = 0x011 then some (if zeroBits v 5 59 then { t with fflags := v.setWidth 5 } else t)
  else if n = 0x040 then xf { t.xf with src := v }
  else if n = 0x041 then xf { t.xf with dst := v }
  else if 0x042 ≤ n ∧ n ≤ 0x045 then xf { t.xf with shape := t.xf.shape.set ((n - 0x042) % 4) (v.setWidth 32) (by omega) }
  else if 0x047 ≤ n ∧ n ≤ 0x049 then xf { t.xf with sstride := t.xf.sstride.set ((n - 0x047) % 3) v (by omega) }
  else if 0x04B ≤ n ∧ n ≤ 0x04D then xf { t.xf with dstride := t.xf.dstride.set ((n - 0x04B) % 3) v (by omega) }
  else if n = 0x04E then xf { t.xf with irq := bit v 0, user := BitVec.ofNat 8 (bits v 8 8) }
  else if n = 0x050 then some { t with apos := v.setWidth 26 }
  else if n = 0x051 then some (if zeroBits v 32 32 then { t with ascale := v.setWidth 32 } else t)
  else if n = 0x061 then some (if zeroBits v 56 8 && zeroBits v 0 5 then { t with cmfree := v } else t)
  else if n = 0x062 then some { t with cmprog := v.setWidth 20 }
  else none

/-- R320: MSTATUS after a write; a level that the core lacks leaves MPP unchanged. -/
def mstatusWrite (core : Nat) (old v : Word) : Word :=
  let new := v &&& mstatusMask core
  let code := bits new 11 2
  let ok : Bool := match kindOf core with
    | .compute => code == 0 || code == 3
    | .translation => code == 1 || code == 3
    | .hub => code == 0 || code == 1 || code == 3
  if ok then new else setBits new 11 2 (bits old 11 2)

/-- R321: a cause register after a write. -/
def causeWrite (old v : Word) : Word := if zeroBits v 7 54 then v else old

/-- The writes of S-level and M-level CSRs that touch the thread alone; none for any other number. -/
def PrivCsrs.write (p : PrivCsrs) (core n : Nat) (v : Word) : Option PrivCsrs :=
  if n = 0x300 then some { p with mstatus := (p.mstatus &&& ~~~ sstatusMask) ||| (v &&& sstatusMask) }
  else if n = 0x301 then some { p with stvec := v &&& ~~~ 1#64 }
  else if n = 0x302 then some { p with sudeleg := v &&& delegMask .hub }
  else if n = 0x304 then some { p with sie := v &&& sieMask }
  else if n = 0x341 then some { p with sepc := v &&& ~~~ 1#64 }
  else if n = 0x342 then some { p with scause := causeWrite p.scause v }
  else if n = 0x343 then some { p with sval := v }
  else if n = 0x344 then some { p with sscratch := v }
  else if n = 0x700 then some { p with mstatus := mstatusWrite core p.mstatus v }
  else if n = 0x701 then some { p with mtvec := v &&& ~~~ 1#64 }
  else if n = 0x703 then some { p with msdeleg := v &&& msdelegMask }
  else if n = 0x704 then some { p with mie := v &&& mieMask }
  else if n = 0x741 then some { p with mepc := v &&& ~~~ 1#64 }
  else if n = 0x742 then some { p with mcause := causeWrite p.mcause v }
  else if n = 0x743 then some { p with mval := v }
  else if n = 0x744 then some { p with mscratch := v }
  else none

/-- The writes of CSRs of the core; none for any other number. -/
def Core.writeCsr (c : Core) (l : Level) (n : Nat) (v : Word) : Option Core :=
  if 0x070 ≤ n ∧ n ≤ 0x07F then some (c.writeBankfmt ⟨(n - 0x070) % 16, by omega⟩ v)
  else if 0x080 ≤ n ∧ n ≤ 0x087 then some (c.writeTagmap l (n - 0x080) v)
  else if n = 0x702 then some { c with mudeleg := v &&& delegMask .compute }
  else if n = 0x750 then some (c.writePmpcfg 0 v)
  else if n = 0x751 then some (c.writePmpcfg 1 v)
  else if 0x760 ≤ n ∧ n ≤ 0x76F then some (c.writePmpaddr ⟨(n - 0x760) % 16, by omega⟩ v)
  else if n = 0x780 then some { c with mowner := v.setWidth 12 }
  else if n = 0x781 then some { c with mcontext := v.setWidth 32 }
  else none

/-- R6: a value written to a CSR by a thread takes effect under the access type of each field; a number that is read-only or
names no CSR leaves the machine as it is. -/
def State.writeCsr (s : State) (h : Hart) (n : Nat) (v : Word) : State :=
  let t := s.thread h
  match t.writeUser n v with
  | some t' => s.setThread h t'
  | none => match t.priv.write h.core n v with
    | some p => s.setThread h { t with priv := p }
    | none => match (s.core h.core).writeCsr t.level n v with
      | some c => s.setCore h.core c
      | none =>
        if n = 0x346 ∧ zeroBits v 2 62 ∧ bits v 0 2 ≠ 3 ∧ (s.core h.core).report.isSome then
          { s with agenda := resolveTurn h.core (bits v 0 2) :: s.agenda }
        else s

/-! ## The instructions -/

/-- R150, R324: a CSR instruction whose number names no CSR at the level is illegal. -/
def State.csrInstr (s : State) (csr : BitVec 12) (i : Instr) (r : Result) : Result :=
  if csrOk s.cur.core s.me.level csr.toNat then r else s.illegal i

/-- Writes a CSR and completes; d is the source operand. -/
def State.csrPut (s : State) (csr : BitVec 12) (d : Opnd) (f : Word → Word → Word) : Result :=
  let v := f (s.readCsr s.cur csr.toNat) (s.me.opX d)
  let s' := s.writeCsr s.cur csr.toNat v
  .next (s'.retire s'.me (len1 d))

/-- R166: CSRR. -/
def execCsrr (k : Bool) (d : Fin 32) (csr : BitVec 12) (s : State) : Result :=
  s.csrInstr csr (.csrr k d csr) (.next (s.retire (s.me.setX d (s.readCsr s.cur csr.toNat)) 4))

/-- R166: CSRW. -/
def execCsrw (k : Bool) (d : Opnd) (csr : BitVec 12) (s : State) : Result :=
  s.csrInstr csr (.csrw k d csr) (s.csrPut csr d (fun _ x => x))

/-- R166: CSRS. -/
def execCsrs (k : Bool) (d : Opnd) (csr : BitVec 12) (s : State) : Result :=
  s.csrInstr csr (.csrs k d csr) (s.csrPut csr d (fun o x => o ||| x))

/-- R166: CSRC. -/
def execCsrc (k : Bool) (d : Opnd) (csr : BitVec 12) (s : State) : Result :=
  s.csrInstr csr (.csrc k d csr) (s.csrPut csr d (fun o x => o &&& ~~~ x))

/-! ## Writes as steps -/

/-- R6: a write of a register that has no row of its own. -/
def execRegisterWrite (core th : Nat) (csr : BitVec 12) (v : Word) (s : State) : Result :=
  .next (if csrOk core (s.thread ⟨core, th⟩).level csr.toNat then s.writeCsr ⟨core, th⟩ csr.toNat v else s)

/-- R84: a write of a register of the local region map. -/
def execTagmapWrite (core : Nat) (reg : Fin 8) (v : Word) (s : State) : Result :=
  .next (s.setCore core ((s.core core).writeTagmap .u reg.val v))

/-- R62: a write of a bank format register. -/
def execBankfmtWrite (core : Nat) (bank : Fin 16) (v : Word) (s : State) : Result :=
  .next (s.setCore core ((s.core core).writeBankfmt bank v))

end Sys2Proof.Machine
end

