-- ==== Sys2Proof/Machine/Fetch.lean ====
section
/-! DEFINITION. Instruction fetch: the halfwords of an instruction as its thread reads them (R138, R139, R58, R323, R341), the
checks on its first word (R150) and the order of its faults (R151). -/

namespace Sys2Proof.Machine

/-- R324, Table 22.1: whether a privileged instruction may run on a core at a level; true of every other instruction. -/
def privOk (core : Nat) (l : Level) (i : Instr) : Bool :=
  let m : Bool := decide (l = .m)
  let sm : Bool := decide (l ≠ .u)
  let compute : Bool := decide (kindOf core = .compute)
  let walker : Bool := decide (kindOf core = .translation)
  let hub : Bool := decide (kindOf core = .hub)
  match i with
  | .mret _ => m
  | .sret _ => sm && !compute
  | .wfi _ => if compute then m else sm
  | .tlbWr _ _ _ _ => walker && sm
  | .tlbInv _ _ _ _ => walker && sm
  | .xlateDrain _ _ _ => !compute && sm
  | .mxSave _ _ => compute && m
  | .mxLoad _ _ _ => compute && m
  | .ctxHalt _ _ _ _ => hub && sm
  | .ctxSave _ _ _ _ => hub && sm
  | _ => true

/-- R150: the CSR number that an instruction names. -/
def csrOf : Instr → Option (BitVec 12)
  | .csrr _ _ n => some n
  | .csrw _ _ n => some n
  | .csrs _ _ n => some n
  | .csrc _ _ n => some n
  | _ => none

/-- R150: whether a core may run an instruction at a level. -/
def levelOk (core : Nat) (l : Level) (i : Instr) : Bool :=
  privOk core l i && (match csrOf i with
    | none => true
    | some n => csrOk core l n.toNat)

/-- R70, R349: a byte of a line that stood under an owner or key, as it is read under another: nothing of a tagged memory, and of DRAM
what its ciphertext decrypts to. -/
def StoreRec.byteFor (r : StoreRec) (key addr : Nat) : Byte :=
  if r.key = some key then lineByte r.old addr
  else match r.place, r.key with
    | some _, _ => 0
    | none, some k => lineByte (foreignLine key k r.line r.old) addr
    | none, none => lineByte (freshLine key r.line) addr

/-- R139: whether a store is surely in hb before a thread's last FENCE.sys: one performed before it, of the thread itself or one that its
thread or its home has since ordered before events of others (log 106). -/
def StoreRec.sure (r : StoreRec) (h : Hart) (fence : Nat) : Bool := decide (r.seq < fence) && (r.tied || decide (r.hart = h))

/-- R139: the byte that fetch sees at a place under an owner or key: the stored one, or one that a store which is not surely in hb before the
thread's last FENCE.sys has replaced. The moment that decides is one for both bytes of a halfword. -/
def State.fetched (s : State) (h : Hart) (p : Option Place) (key addr : Nat) (now : Byte) : Byte :=
  let fence := (s.thread h).fenceSeq
  let line := s.log.filter (fun r => decide (r.place = p) && decide (r.line = addr / 64))
  match (line.reverse.takeWhile (fun r => !r.sure h fence)).reverse with
  | [] => now
  | r0 :: rs =>
    let k := r0.seq + Config.fetchMoment s.ticks (addr / 2) % (s.logSeq - r0.seq + 1)
    match (r0 :: rs).find? (fun r => decide (k ≤ r.seq)) with
    | some r => r.byteFor key addr
    | none => now

/-- R150: cause 2 with the pattern as value. -/
def execIllegalInstruction (pattern : BitVec 32) (s : State) : Result := s.trapMe 2 (pattern.setWidth 64)

/-- R151: cause 1, or cause 12 for a page, with the first halfword that could not be fetched as value. -/
def execInstructionFetchFault (page : Bool) (value : Word) (s : State) : Result := s.trapMe (if page then 12 else 1) value

/-- What fetching one halfword comes to. -/
inductive FetchRes where
  | half (v : Half) (s : State)
  | fault (cause : Nat) (value : Word)
  | wait (s : State)
  | lost (value : Word) (s : State)
  | hole (pa : Nat)
  deriving DecidableEq, Repr

/-- A halfword from its two bytes. -/
def halfOf (f : Nat → Byte) : Half := BitVec.ofNat 16 ((f 0).toNat + 256 * (f 1).toNat)

/-- R138, R58, R341: the halfword at an address as a thread fetches it. -/
def State.fetchHalf (s : State) (h : Hart) (a : Word) : FetchRes :=
  let dram (s' : State) (key pa : Nat) : FetchRes :=
    let s1 := s'.meetLines [pa / 64]
    if s1.dram.poisoned (pa / 64) then .lost a s1
    else .half (halfOf (fun i => s.fetched h none key (pa + i) (s.dram.byte key (pa + i)))) s1
  match s.resolveRange h a.toNat 2 with
  | none => .fault 1 a
  | some (.sram p off) =>
    let o := s.ownerOfHart h
    if !s.pmpOk h a.toNat 2 .fetch then .fault 1 a
    else match s.mend p o (s.badLines p [off / 8]) with
      | (true, s1) => .lost a s1
      | (false, s1) =>
        let s2 := s1.correct p [off / 8]
        .half (halfOf (fun i => s2.fetched h (some p) o.toNat (off + i) (BitVec.ofNat 8 ((s2.sram p).readFor o (off + i) 1)))) s2
  | some (.virt va) => match s.translate h.core va .fetch with
    | .hit pa e => (match s.keyOf e.owner with
      | some key => dram (s.touch h.core e) key pa
      | none => .fault 12 a)
    | .miss => .wait (s.noteMiss h va .fetch)
    | .dirty => .wait s
    | .fault => .fault 12 a
  | some (.phys pa) =>
    if !s.pmpOk h a.toNat 2 .fetch then .fault 1 a
    else if pa + 2 ≤ 2 ^ 39 then dram s 0 pa
    else .hole pa
  | some (.peer _ off) =>
    if !s.pmpOk h a.toNat 2 .fetch then .fault 1 a
    else .half (halfOf (fun i => Config.peerCode s.ticks (off + i))) s

/-- The halfwords from an address on, n of them; the first that cannot be fetched decides. -/
def State.fetchHalves (s : State) (h : Hart) (a : Word) : Nat → List Half → FetchRes ⊕ (List Half × State)
  | 0, acc => .inr (acc.reverse, s)
  | n + 1, acc => match s.fetchHalf h a with
    | .half v s' => s'.fetchHalves h (a + 2) n (v :: acc)
    | r => .inl r

/-- The value of halfwords, the first lowest. -/
def halvesNat : List Half → Nat
  | [] => 0
  | v :: t => v.toNat + 65536 * halvesNat t

/-- What a fetch ends in: an instruction to execute, or the outcome of the step. -/
inductive Fetched where
  | run (i : Instr) (s : State)
  | stop (r : Result)

/-- R151: what an unfetchable halfword comes to. -/
def stopFetch (s : State) (r : FetchRes) : Result :=
  match r with
  | .fault 1 v => execInstructionFetchFault false v s
  | .fault 12 v => execInstructionFetchFault true v s
  | .fault c v => s.trapMe c v
  | .lost v s' => .next (s'.faultOf s.cur 37 v 0)
  | .wait s' => .next s'
  | .hole pa => .fault (.physicalHole pa)
  | .half _ s' => .next s'

/-- R225: the bytes of a repeated body from the thread's pc on. -/
def Thread.bodyBytes (t : Thread) : Option (List Byte) :=
  match t.repeat? with
  | none => none
  | some r =>
    let off := (t.pc - r.start).toNat
    if off < r.bytes.length then some (r.bytes.drop off) else none

/-- R27: the machine as it executes an instruction whose first halfword has a marker. -/
def State.marked (s : State) (lo : Nat) : State := { s with ahead := decide (lo / 2 % 2 = 1) }

/-- R150: decodes the bytes of a repeated body; an instruction that the core may not run at its level is illegal. -/
def decodeBody (core : Nat) (l : Level) (bs : List Byte) (s : State) : Fetched :=
  let w := leValue (bs.take 4)
  let bad : Fetched := .stop (execIllegalInstruction (BitVec.ofNat 32 (if w % 2 = 0 then w % 65536 else w)) s)
  match decodeBytes bs with
  | .ok (i, _) => if levelOk core l i then .run i (s.marked w) else bad
  | .error _ => bad

/-- R138, R150, R151: the instruction at the thread's pc. -/
def State.fetch (s : State) : Fetched :=
  let h := s.cur
  let t := s.me
  match t.bodyBytes with
  | some bs => decodeBody h.core t.level bs s
  | none => match s.fetchHalves h t.pc 1 [] with
    | .inl r => .stop (stopFetch s r)
    | .inr (first, s1) =>
      let lo := halvesNat first
      if lo % 2 = 0 then
        match decodeHalf (BitVec.ofNat 16 lo) with
        | some i => .run i (s1.marked lo)
        | none => .stop (execIllegalInstruction (BitVec.ofNat 32 lo) s1)
      else match s1.fetchHalves h (t.pc + 2) 1 [] with
        | .inl r => .stop (stopFetch s1 r)
        | .inr (second, s2) =>
          let w : Word32 := BitVec.ofNat 32 (lo + 65536 * halvesNat second)
          match decodeWord w 0 with
          | none => .stop (execIllegalInstruction w s2)
          | some i0 =>
            if !levelOk h.core t.level i0 then .stop (execIllegalInstruction w s2)
            else match s2.fetchHalves h (t.pc + 4) (wordLitBytes w / 2) [] with
              | .inl r => .stop (stopFetch s2 r)
              | .inr (lit, s3) =>
                match decodeWord w (BitVec.ofNat 64 (halvesNat lit)) with
                | some i => .run i (s3.marked lo)
                | none => .stop (execIllegalInstruction w s3)

/-- The bytes of an instruction written where the thread fetches next: at offset 0 of its own core's local SRAM, whose lines
become the core's own. -/
def State.plant (s : State) (h : Hart) (n v : Nat) : State :=
  let c := s.core h.core
  let m := (List.range 2).foldl (fun r i => r.claim (64 * i) c.mowner) c.sram
  let s1 := s.setCore h.core { c with sram := { m with cells := writeLe m.cells 0 n v } }
  let t := s1.thread h
  s1.setThread h { t with pc := 0, status := .run, rep := none }

end Sys2Proof.Machine
end

