-- ==== Sys2Proof/Machine/Message.lean ====
section
/-! DEFINITION. The inbox, messages and the spill thread (R189 to R194), FENCE.X (R181), YIELD and UIRET (R195, R198), and the
user interrupt (R29, R30, R252). -/

namespace Sys2Proof.Machine

/-- Table 3.3: the drain and spill threads of a compute core. -/
def isDrain (h : Hart) : Bool := decide (kindOf h.core = .compute) && decide (h.th = 4)
def isSpill (h : Hart) : Bool := decide (kindOf h.core = .compute) && decide (h.th = 5)

/-- R199: cause 39 with a reason. -/
def State.misuse (s : State) (reason : Nat) : Result := s.trapMe 39 (BitVec.ofNat 64 reason)

/-! ## Interrupt bits -/

/-- R343: on a translation core, interrupt 71 is pending while an entry is held. -/
def State.syncInbox (s : State) (core : Nat) : State :=
  match kindOf core with
  | .translation => s.driveS ⟨core, 0⟩ 71 (!(s.core core).inbox.isEmpty)
  | _ => s

/-! ## The inbox -/

/-- Doubleword 0 of an entry (Table 12.9). -/
def Entry.header (e : Entry) : Word := e.bytes.setWidth 64
def headerType (h : Word) : Nat := bits h 62 2
def headerDst (h : Word) : Fin 4 := ⟨bits h 32 2 % 4, Nat.mod_lt _ (by decide)⟩
def Entry.dst (e : Entry) : Fin 4 := headerDst e.header

/-- R191: the user thread whose entries a thread sees: its own, or for the drain thread that of its identity. -/
def Core.receiver (c : Core) (th : Nat) : Fin 4 :=
  if th = 4 then ⟨c.drainFor % 4, Nat.mod_lt _ (by decide)⟩ else ⟨th % 4, Nat.mod_lt _ (by decide)⟩

/-- R191, R343: whether a thread sees an entry. The spill thread and a translation or hub core's thread see every one. -/
def Core.sees (c : Core) (h : Hart) (e : Entry) : Bool :=
  if isSpill h || decide (kindOf h.core ≠ .compute) then true
  else
    let t := c.receiver h.th
    decide (e.dst = t) && (decide (c.spillcnt[t.val] = 0) || e.loop)

def Core.seen (c : Core) (h : Hart) : List Entry := c.inbox.filter (c.sees h)

/-- The inbox without the first entry that a thread sees. -/
def dropFirst (p : Entry → Bool) : List Entry → List Entry
  | [] => []
  | e :: t => if p e then t else e :: dropFirst p t

/-- R193: a user thread with spilled entries that finds none asks for the spill thread, if that is idle. -/
def State.askSpill (s : State) (h : Hart) : State :=
  let c := s.core h.core
  if !isSpill h && decide (kindOf h.core = .compute) && decide (c.spillcnt[(c.receiver h.th).val] ≠ 0) &&
      decide ((s.thread ⟨h.core, 5⟩).status = .idle) then s.setCore h.core { c with spillAsk := true }
  else s

/-- R191: MRECV. -/
def execMrecv (d : Fin 32) (s : State) : Result :=
  let h := s.cur
  let c := s.myCore
  if isDrain h then s.misuse 1
  else match c.seen h with
    | [] => if isSpill h then s.misuse 5 else .next (s.askSpill h |>.setMe { (s.askSpill h).me with status := .mrecv })
    | e :: _ =>
      if isSpill h && decide (65535 ≤ c.spillcnt[e.dst.val]) then s.misuse 5
      else
        let c1 : Core := { c with inbox := dropFirst (c.sees h) c.inbox }
        let c2 : Core := if isSpill h then
            ({ c1 with spillcnt := c1.spillcnt.set e.dst.val (c1.spillcnt[e.dst.val] + 1) }).wake Status.isMrecv
          else c1
        let s1 := (s.setMyCore c2).syncInbox h.core
        .next (s1.retire (s1.me.setV d e.bytes) 4)

/-- R191: MPOLL. -/
def execMpoll (d : Fin 32) (s : State) : Result :=
  match s.myCore.seen s.cur with
  | [] => let s1 := s.askSpill s.cur; .next (s1.retire (s1.me.setX d 0) 4)
  | e :: _ => .next (s.retire (s.me.setX d (setBits e.header 61 1 1)) 4)

/-- R191: MCOUNT. -/
def execMcount (d : Fin 32) (s : State) : Result :=
  let n := (s.myCore.seen s.cur).length
  if isSpill s.cur then .next (s.retire (s.me.setX d (BitVec.ofNat 64 (n + 256 * (48 - n)))) 4)
  else
    let s1 := if n = 0 then s.askSpill s.cur else s
    .next (s1.retire (s1.me.setX d (BitVec.ofNat 64 n)) 4)

/-- R194: where MLOOP puts an entry of a thread: behind earlier replays, ahead of every other entry of the thread. -/
def placeLoop (e : Entry) : List Entry → List Entry
  | [] => [e]
  | x :: t => if !x.loop && decide (x.dst = e.dst) then e :: x :: t else x :: placeLoop e t

/-- R194: a replay reaches the inbox of a core, or is discarded when the thread hosts no node; SPILLCNT falls. -/
def State.replay (s : State) (core : Nat) (v : BitVec 512) : State :=
  let c := s.core core
  let e : Entry := ⟨v, true⟩
  let c1 : Core := { c with spillcnt := c.spillcnt.set e.dst.val (c.spillcnt[e.dst.val] - 1) }
  let c2 : Core := if (s.thread ⟨core, e.dst.val⟩).status = .idle then c1 else { c1 with inbox := placeLoop e c1.inbox }
  s.setCore core (c2.wake Status.isMrecv)

/-- R194: MLOOP. -/
def execMloop (d : Fin 32) (a : Opnd) (s : State) : Result :=
  let c := s.myCore
  let v := s.me.opV .i32 a
  let hd : Word := v.setWidth 64
  if !isSpill s.cur then s.misuse 3
  else if headerType hd = 1 ∨ headerType hd = 3 ∨ c.spillcnt[(headerDst hd).val] = 0 then s.misuse 4
  else if 48 ≤ c.inbox.length then .next (s.retire (s.me.setX d 0) (len1 a))
  else
    let s1 := s.replay s.cur.core v
    .next (s1.retire (s1.me.setX d 1) (len1 a))

/-- Table 12.9: the 64 bytes of a user message. -/
def userEntry (src : Hart) (th : Nat) (dst : Nat) (v : BitVec 512) : BitVec 512 :=
  setBits v 32 32 (dst % 4 + 4 * (th % 4) + 16 * (src.core % 4096))

/-- R190, R192: MSEND is a release at .dev, then sends the message. A constant or literal as the payload is read in i32 lanes (log 36). -/
def execMsend (a b : Opnd) (s : State) : Result :=
  let h := s.cur
  let t := s.me
  let x := t.opX a
  let core := bits x 0 12
  if !zeroBits x 14 50 || !s.clusterOk h.core (core / 16) then s.trapMe 34 x
  else if core ≠ h.core ∧ s.strictReact h then s.trapMe 32 x
  else if s.outstandingIn h .dev then s.block .fence
  else
    let (w, s1) := if isSpill h then s.draw else (BitVec.ofNat 64 (s.myCore.receiver h.th).val, s)
    let (n, s2) := s1.fresh
    let s3 := s2.send (.user n h core (userEntry h (bits w 0 2) (bits x 12 2) (t.opV .i32 b)))
    .next (s3.retire s3.me (len2 a b))

/-- R252: a record with IRQ = 1 raises the user interrupt of its thread. -/
def Thread.raiseUser (t : Thread) (id : Word) : Thread :=
  if t.user.pend then t else { t with xdone := id, user := { t.user with pend := true } }

/-- R248: a thread that waits for a transfer place looks again. -/
def Status.isPlace : Status → Bool
  | .place => true
  | _ => false

/-- An entry is appended to an inbox, unless its thread hosts no node. -/
def State.append (s : State) (core : Nat) (e : BitVec 512) (irq : Bool) : State :=
  let entry : Entry := ⟨e, false⟩
  let h : Hart := ⟨core, entry.dst.val⟩
  let t := s.thread h
  if t.status = .idle then s
  else
    let s1 := if irq then s.setThread h (t.raiseUser entry.header) else s
    let c := s1.core core
    s1.setCore core ((({ c with inbox := c.inbox ++ [entry] }).wake Status.isMrecv).wake Status.isPlace)

/-- Messages of one thread to one core arrive in order (pn), and those of one core behind its held access (R82): whether an earlier one is
still on its way or held. -/
def State.earlierTo (s : State) (id : Nat) (src : Hart) (dst : Nat) : Bool :=
  (s.net.takeWhile (fun m => decide (m.id ≠ id))).any (fun m => m.goesTo src (.sram (.core dst)) id) || s.heldAt (.core dst) src.core

/-- R189: a user message or completion record is appended to its core's inbox; it waits while 48 entries are held. -/
def execInboxArrival (id : Nat) (s : State) : Result :=
  match s.msg? id with
  | some (.user n src dst e) =>
    if 48 ≤ (s.core dst).inbox.length ∨ s.earlierTo n src dst then .next s
    else .next (((s.unsend n).append dst e false).wakeFences src)
  | some (.record n dst e irq) =>
    if 48 ≤ (s.core dst).inbox.length then .next s else .next ((s.unsend n).append dst e irq)
  | _ => .next s

/-! ## The spill thread -/

/-- R193: whether a user-visible entry waits for a core because 48 are held. -/
def State.entryWaits (s : State) (core : Nat) : Bool :=
  decide (48 ≤ (s.core core).inbox.length) && s.net.any (fun m => match m with
    | .user _ _ dst _ => decide (dst = core)
    | .record _ dst _ _ => decide (dst = core)
    | _ => false)

/-- R193: whether a user thread with spilled entries has found no seen entry. -/
def State.spillWanted (s : State) (core : Nat) : Bool :=
  let c := s.core core
  c.spillAsk || (List.finRange 4).any (fun t => decide ((s.thread ⟨core, t.val⟩).status = .mrecv) &&
    decide (c.spillcnt[t.val] ≠ 0) && (c.seen ⟨core, t.val⟩).isEmpty)

/-- The last replayed entry of an inbox, and the inbox without it. -/
def takeLastLoop (l : List Entry) : Option (Entry × List Entry) :=
  match l.reverse with
  | [] => none
  | e :: t => some (e, t.reverse)

/-- R357: the monitor's default routine takes one entry out of a full inbox: the oldest that it has not replayed, or else the
youngest, which it puts back before the others it holds (log 16). -/
def State.spillOne (s : State) (core : Nat) : State :=
  let c := s.core core
  let fresh (e : Entry) : Bool := !e.loop
  let put (e : Entry) (rest store : List Entry) : State :=
    if 256 ≤ c.spillStore.length ∨ 65535 ≤ c.spillcnt[e.dst.val] then
      s.forward ⟨core, 5⟩ 39 5 0 true
    else s.setCore core { c with inbox := rest, spillStore := store, spillcnt := c.spillcnt.set e.dst.val (c.spillcnt[e.dst.val] + 1) }
  match c.inbox.find? fresh with
  | some e => put e (dropFirst fresh c.inbox) (c.spillStore ++ [e])
  | none => match takeLastLoop c.inbox with
    | some (e, rest) => put e rest (e :: c.spillStore)
    | none => s

/-- R357: the default routine replays what it holds, in order, while an entry is free. -/
def State.replayAll (s : State) (core : Nat) : Nat → State
  | 0 => s
  | n + 1 =>
    let c := s.core core
    match c.spillStore with
    | [] => s
    | e :: rest =>
      if 48 ≤ c.inbox.length then s
      else ((s.setCore core { c with spillStore := rest }).replay core e.bytes).replayAll core n

/-- R193, R357: the idle spill thread is woken; reason 0 comes before reason 1. -/
def execSpillWake (core : Nat) (s : State) : Result :=
  let h : Hart := ⟨core, 5⟩
  let t := s.thread h
  let waits := s.entryWaits core
  if t.status ≠ .idle ∨ !(waits || s.spillWanted core) then .next s
  else
    let c := s.core core
    let s1 := s.setCore core { c with spillAsk := false }
    if c.spillMonitor then .next (if waits then s1.spillOne core else s1.replayAll core 256)
    else
      let t1 := { s1.thread h with pc := c.spillPc, status := .run, level := .u }
      .next (s1.setThread h (t1.setX 10 (if waits then 0 else 1)))

/-! ## Threads -/

/-- R228: the deferred fault of the current thread is taken, if it has one. -/
def State.takeDeferred (s : State) : Option Result :=
  let t := s.me
  match t.deferred with
  | none => none
  | some f => some (.next ((s.setMe { t with deferred := none }).trap s.cur f.cause f.value f.utag))

/-- R181, R244: whether a command that a thread issued is queued, executing, or has rows to drain. -/
def Core.busyFor (c : Core) (h : Hart) : Bool :=
  c.cmds.any (fun q => decide (q.hart = h))

/-- R181: FENCE.X. -/
def execFenceX (s : State) : Result :=
  if isDrain s.cur then s.misuse 1
  else match s.takeDeferred with
    | some r => r
    | none => if s.myCore.busyFor s.cur then s.block .engine else .next (s.retire s.me 4)

/-- R195: YIELD changes no architectural state. -/
def execYield (s : State) : Result := .next (s.retire s.me 4)

/-- R30: whether a thread's pending user interrupt is taken at its next boundary. -/
def userInterruptDue (h : Hart) (t : Thread) : Bool :=
  isUserThread h && t.user.pend && t.user.uie && !t.user.h && decide (t.user.utvec ≠ 0) && decide (t.status = .run) &&
    decide (t.level = .u)

/-- R29: entry of the user interrupt. -/
def Thread.takeUserInterrupt (t : Thread) : Thread :=
  let t' := t.enterUser t.pc 64 0
  { t' with user := { t'.user with pend := false } }

/-- R30, R318: a user interrupt that is due is taken at the thread's instruction boundary, which comes next, unless its instruction
traps. -/
def execUserInterruptEntry (core th : Nat) (s : State) : Result :=
  let h : Hart := ⟨core, th⟩
  .next (if userInterruptDue h (s.thread h) then s.turnTo h else s)

/-- R198, R193, R225: UIRET. -/
def execUiret (s : State) : Result :=
  let h := s.cur
  let t := s.me
  if isSpill h then .next (s.setMe { t with retired := t.retired + 1, status := .idle })
  else if isDrain h then s.misuse 1
  else if !t.user.h then s.misuse 0
  else
    .next (s.setMe (({ t with retired := t.retired + 1, user := { t.user with h := false } }).returnTo t.user.uepc))

end Sys2Proof.Machine
end

