-- ==== Sys2Proof/Machine/Engine.lean ====
section
/-! DEFINITION. What the matrix queue, the engines and the block-transfer engine share: the accesses of an engine to memory (R72, R77,
R82, R105, R250), deferred faults (R228), the entry of a command into the queue (R227, R228) and its end. -/

namespace Sys2Proof.Machine

/-! ## Accesses of an engine

A command, a sequence of CM.APPEND or a block of ATTN.RUN is worked on in turns, between which anything else may happen. It is written as one
function of the answers to its accesses: each turn runs it from its start, takes the answers of earlier turns in place of accesses, and
goes on until it stalls, faults or ends. -/

/-- A turn of an engine: the machine, the thread and the maker of its accesses, the level at which their instruction was issued, the number that its command took when it entered
(R107), the answers of earlier turns still to be taken and those taken so far (newest first), how many accesses it may still perform, where
it waits, whether a halt may stop it at the place where it stalls (R127, R266), and whether a halt of its context is requested. -/
structure EngRun where
  s : State
  hart : Hart
  level : Level
  issuer : Issuer
  seq : Nat
  todo : List (List Nat)
  made : List (List Nat)
  fuel : Nat
  port : Port
  calm : Bool
  halting : Bool
  deriving DecidableEq, Repr

/-- What a sequence of engine accesses comes to: a value, a stall, or a fault. -/
inductive Eng (α : Type) where
  | ok (v : α) (e : EngRun)
  | stall (e : EngRun)
  | fault (cause : Nat) (value : Word) (utag : BitVec 14) (e : EngRun)

/-- One sequence of engine accesses after another. -/
def Eng.andThen {α β : Type} (x : Eng α) (f : α → EngRun → Eng β) : Eng β :=
  match x with
  | .ok v e => f v e
  | .stall e => .stall e
  | .fault c v u e => .fault c v u e

def Port.idle : Port := ⟨none, none, none, none⟩

/-- The most accesses that a turn may perform: any number, by a free draw. -/
def State.turnFuel (s : State) : Nat × State :=
  let (w, s1) := s.draw
  (2 ^ 64 - 1 - w.toNat, s1)

/-- An access has been performed with an answer. A notice of a page that stays unwritten stands (R345). -/
def EngRun.did (e : EngRun) (vs : List Nat) (s : State) : EngRun :=
  { e with s := s, made := vs :: e.made, fuel := e.fuel - 1, port := { Port.idle with dirty := e.port.dirty } }

/-- R107: whether a message of the engine's thread that stands earlier in program order is on its way to the home of an access. -/
def EngRun.behind (e : EngRun) (a : Access) : Bool :=
  e.s.shutTo a.home e.hart.core || e.s.net.any (fun m => decide (m.id < e.seq) && m.goesTo e.hart a.home a.grp)

/-- A free choice that a turn makes, which later turns keep. -/
def EngRun.choose (e : EngRun) : Eng Nat :=
  match e.todo with
  | vs :: t => .ok (vs.headD 0) { e with todo := t, made := vs :: e.made }
  | [] =>
    let (w, s1) := e.s.draw
    .ok w.toNat { e with s := s1, made := [w.toNat] :: e.made }

/-- Any order of a list: the permutation that a number picks. -/
def permute {α : Type} (w : Nat) : Nat → List α → List α
  | 0, _ => []
  | n + 1, l =>
    match l[w % l.length]? with
    | some x => x :: permute (w / l.length) n (l.eraseIdx (w % l.length))
    | none => []

/-- What a home's reply to an access of a turn means for it. -/
def EngRun.replied (e : EngRun) (r : Reply) (s : State) : Eng Nat :=
  match r with
  | .value v _ => .ok v.toNat (e.did [v.toNat] s)
  | .trap c v u => .fault c v u { e with s := s, port := .idle }

/-- The turn waits for an access that is parked, held or on its way. -/
def EngRun.waitFor (e : EngRun) (a : Access) (s : State) : Eng Nat := .stall { e with s := s, port := ⟨some a.id, none, none, none⟩ }

/-- An access at a tagged memory. -/
def EngRun.serve (e : EngRun) (p : Place) (a : Access) : Eng Nat :=
  match ({ e.s with nextId := e.s.nextId + 1 } : State).serve p a false with
  | (some r, _, s1) => e.replied r s1
  | (none, true, s1) => e.waitFor a s1
  | (none, false, s1) => .stall { e with s := s1 }

/-- R59: an access to another home: performed there at once, or sent as a message; a peer's answer always comes by message. -/
def EngRun.travel (e : EngRun) (a : Access) : Eng Nat :=
  let sent : State := ({ e.s with nextId := e.s.nextId + 1 } : State).send (.access a)
  if e.behind a then .stall e
  else match a.home with
    | .peer _ => e.waitFor a sent
    | .sram p => if e.fuel = 0 then e.waitFor a sent else e.serve p a
    | _ =>
      if e.fuel = 0 then e.waitFor a sent
      else
        let r := e.s.dramOp a
        e.replied r.1 r.2

/-- R342, R345: an access of an engine meets no translation, or a clean page: its core sends a message, and the access is tried again on a
later turn. -/
def EngRun.missed (e : EngRun) (va : Nat) (need : Need) : Eng Nat :=
  let m := e.s.miss e.hart va need
  .stall { e with s := m.2, port := { e.port with miss := if m.1 then some (va / 2 ^ 19) else none } }
def EngRun.soiled (e : EngRun) (va : Nat) (need : Need) : Eng Nat :=
  if e.port.dirty = some va then .stall e
  else .stall { e with s := e.s.sendNotice e.hart va need, port := { e.port with dirty := some va } }

/-- R59, R340, R349, R352: an access of at most 8 bytes of one word at a target. -/
def EngRun.at_ (e : EngRun) (cls : Class) (op : AccOp) (addr : Word) (n value : Nat) (t : Target) : Eng Nat :=
  let mk (home : Home) (off : Nat) : Access :=
    { mkAccess e.s e.hart addr cls op home n [(off, 0)] (BitVec.ofNat 512 value) 0 false with issuer := e.issuer, level := e.level }
  match t with
  | .sram p off =>
    if p ≠ .core e.hart.core then e.travel (mk (.sram p) off)
    else if e.fuel = 0 then .stall e
    else e.serve p (mk (.sram p) off)
  | .virt va => match e.s.translate e.hart.core va cls.need with
    | .hit pa x =>
      { e with s := e.s.touch e.hart.core x, port := { e.port with dirty := e.port.dirty.filter (fun d => decide (d ≠ va)) } }.travel
        { mk (dramHome pa) pa with owner := x.owner, gen := x.gen }
    | .miss => e.missed va cls.need
    | .dirty => e.soiled va cls.need
    | .fault => .fault cls.pageFault addr 0 e
  | .phys pa =>
    if devAt e.hart.core e.level pa then
      (if e.fuel = 0 then .stall e
      else
        let r := e.s.physOp (mk (dramHome pa) pa)
        e.replied r.1 r.2)
    else e.travel (mk (dramHome pa) pa)
  | .peer d off => e.travel (mk (.peer d) off)

/-- An engine's access of at most 8 bytes of one word at a generic address, checked under R58 and R323: an answer of an earlier turn, the
answer for which the turn waits, or an access. -/
def EngRun.word (e : EngRun) (cls : Class) (op : AccOp) (addr : Word) (n value : Nat) : Eng Nat :=
  match e.todo with
  | vs :: t => .ok (vs.headD 0) { e with todo := t, made := vs :: e.made }
  | [] => match e.port.answer with
    | some r => e.replied r e.s
    | none =>
      if e.port.wait.isSome then .stall e
      else match e.s.rangeAt e.hart e.level addr.toNat n with
        | none => .fault 34 addr 0 e
        | some t => if e.s.pmpAt e.hart e.level addr.toNat n cls.need then e.at_ cls op addr n value t else .fault cls.denied addr 0 e

/-- The pieces of words that n bytes from an address cover, each an offset from the address and a size. -/
def wordPieces (addr off : Nat) : Nat → Nat → List (Nat × Nat)
  | 0, _ => []
  | fuel + 1, n =>
    if n = 0 then []
    else
      let k := min n (8 - (addr + off) % 8)
      (off, k) :: wordPieces addr (off + k) fuel (n - k)

/-- Reads of an engine, word by word, from low addresses up; the value is little-endian. -/
def EngRun.reads (e : EngRun) (cls : Class) (addr : Word) : List (Nat × Nat) → Nat → Eng Nat
  | [], acc => .ok acc e
  | (o, k) :: t, acc =>
    (e.word cls .load (addr + BitVec.ofNat 64 o) k 0).andThen (fun v e1 => e1.reads cls addr t (acc + v % 256 ^ k * 256 ^ o))

/-- An engine's read of n bytes. -/
def EngRun.read (e : EngRun) (cls : Class) (addr : Word) (n : Nat) : Eng Nat := e.reads cls addr (wordPieces addr.toNat 0 n n) 0

/-- Writes of an engine, word by word. -/
def EngRun.writes (e : EngRun) (cls : Class) (addr : Word) (value : Nat) : List (Nat × Nat) → Eng Unit
  | [] => .ok () e
  | (o, k) :: t =>
    (e.word cls .store (addr + BitVec.ofNat 64 o) k (value / 256 ^ o % 256 ^ k)).andThen (fun _ e1 => e1.writes cls addr value t)

/-- An engine's write of n bytes. -/
def EngRun.write (e : EngRun) (cls : Class) (addr : Word) (n value : Nat) : Eng Unit :=
  e.writes cls addr value (wordPieces addr.toNat 0 n n)

/-- The misses that another machine has noted for a core, and their messages. -/
def State.keepMisses (s s1 : State) (core : Nat) : State :=
  s.setCore core { s.core core with misses := (s1.core core).misses, notes := (s1.core core).notes }

/-- One indivisible event over several words of translated memory (R125, R127, R129): its answer, or nothing when it must wait for a store
of another, where a halt may stop the command. One that stalls or faults has done nothing, but for the misses that it noted and the
uncorrectable error that it met. -/
def EngRun.atomic (e : EngRun) (f : EngRun → Eng (Option (List Nat))) : Eng (List Nat) :=
  match e.todo with
  | vs :: t => .ok vs { e with todo := t, made := vs :: e.made }
  | [] =>
    if e.fuel = 0 then .stall e
    else match f { e with made := [], fuel := 2 ^ 64, port := { e.port with wait := none, answer := none } } with
      | .ok (some vs) e1 => .ok vs (e.did vs e1.s)
      | .ok none _ => .stall { e with calm := true }
      | .stall e1 => .stall { e with s := e.s.keepMisses e1.s e.hart.core, port := { e.port with dirty := e1.port.dirty, miss := e1.port.miss } }
      | .fault c v u e1 => .fault c v u { e with s := if c = 37 then e1.s else e.s }

/-- The pieces that writing n bytes at an address takes. -/
def piecesOf (addr : Word) (n value : Nat) : List Piece :=
  (wordPieces addr.toNat 0 n n).map (fun p => ⟨addr + BitVec.ofNat 64 p.1, p.2, value / 256 ^ p.1 % 256 ^ p.2⟩)

/-! ## Checks at issue (R228) -/

/-- The end of the user range of a local SRAM (R12). -/
def userEnd : Nat := 0x1B0000

/-- R228, step 1: the own-core offset of an address of the user range, through window 0x00 or 0x02 of the own core. -/
def State.ownOff (s : State) (h : Hart) (a : Word) : Option Nat :=
  match s.resolve h a.toNat with
  | some (.sram (.core c) off) => if c = h.core ∧ off < userEnd then some off else none
  | _ => none

/-- R228, step 1: the first failing address of n bytes, if one fails. -/
def State.ownFail (s : State) (h : Hart) (a : Word) (n : Nat) : Option Word :=
  if n = 0 then none
  else match s.ownOff h a with
    | none => some a
    | some off => if off + n ≤ userEnd then none else some (a + BitVec.ofNat 64 (userEnd - off))

/-- R58: the first failing address of n bytes. -/
def State.rangeFail (s : State) (h : Hart) (a : Word) (n : Nat) : Option Word :=
  match s.resolve h a.toNat with
  | none => some a
  | some t =>
    ((List.range n).find? (fun i => decide (2 ^ 64 ≤ a.toNat + i) || decide (s.resolve h (a.toNat + i) ≠ some (t.plus i)))).map
      (fun i => a + BitVec.ofNat 64 i)

/-- The value of cause 35: a reason and an address (R229). -/
def formatFault (reason : Nat) (addr : Word) : Word := BitVec.ofNat 64 (2 ^ 56 * reason + bits addr 0 56)

/-- R62, R64: the first byte of n bytes at an own-core offset whose bank has another format than the one expected. -/
def bankMismatch (fmts : Vector (BitVec 4) 16) (want : Nat) (off n : Nat) : Option Nat :=
  ((List.range 16).find? (fun b => decide (0x1C000 * b < off + n) && decide (off < 0x1C000 * (b + 1)) &&
    decide (((fmts[b % 16]'(by omega)).toNat) ≠ want))).map (fun b => 0x1C000 * b - off)

/-- R228, step 4, for a range at an address, under the bank formats that the command captured. -/
def State.formatFail (s : State) (h : Hart) (fmts : Vector (BitVec 4) 16) (want : Nat) (a : Word) (n : Nat) : Option Word :=
  match s.ownOff h a with
  | none => none
  | some off => (bankMismatch fmts want off n).map (fun i => a + BitVec.ofNat 64 i)

/-- The first answer of a list of checks. -/
def firstSome {α : Type} (l : List (Option α)) : Option α := l.findSome? id

/-! ## The queue -/

/-- R239: the scale record of a tile, if it is set. -/
def Engine.scaleRec (e : Engine) (z : Nat) : Option ScaleRec := (Tab.find? e.scaleRecs z).filter ScaleRec.set

/-- R239, R228: the engine's registers as a command leaves those that later checks at issue read. -/
def Engine.foresee (e : Engine) (c : Cmd) : Engine :=
  match c.instr with
  | .mxCfg _ _ _ _ =>
    { e with cfg := c.cfg, mf := c.mf, active := { e.active with soff := 0 }, shadow := { e.shadow with soff := 0 } }
  | .mxLdw _ _ _ => { e with shadow := { e.shadow with soff := c.opB.setWidth 21 } }
  | .mxSwap _ => { e with active := e.shadow, shadow := e.active }
  | .mxZero _ z => { e with scaleRecs := Tab.del z.val e.scaleRecs }
  | .mxStream _ z _ _ =>
    (match e.scaleRec z.val with
    | some _ => e
    | none => { e with scaleRecs := Tab.set z.val ⟨true, e.active.soff, BitVec.ofNat 21 (bits c.opB 32 21)⟩ e.scaleRecs })
  | _ => e

/-- The engine as the commands that have entered will leave it, for the checks at issue. -/
def Core.foreseen (c : Core) : Engine := c.cmds.foldl Engine.foresee c.engine

/-- R243, R228: an instruction of an engine's major: misuse in a drain or spill thread, then a deferred fault, then the
instruction. -/
def State.engineGate (s : State) (f : Result) : Result :=
  if isDrain s.cur || isSpill s.cur then s.misuse 7
  else match s.takeDeferred with
    | some r => r
    | none => f

/-- R227: a command issues once the queue, which holds two, has a place. -/
def State.whenRoom (s : State) (f : Result) : Result := if 2 ≤ s.myCore.queue.length then s.block .engine else f

/-- The command of the current thread for an instruction, with what it captures when it enters (R167, R231, R257). -/
def State.mkCmd (s : State) (i : Instr) (a b : Word) (len : Nat) : Cmd :=
  let e := s.myCore.foreseen
  ⟨s.cur, s.me.level, i, a, b, e.cfg, e.mf, e.drainEntry, s.me.ascale, len, s.myCore.fmts, s.nextId⟩

/-- A command enters the queue. -/
def State.entered (s : State) (c : Cmd) : State := s.setMyCore { s.myCore with queue := s.myCore.queue ++ [c] }

/-- R227: a command enters the queue when its checks find no failure, and its thread goes on. -/
def State.issueCmd (s : State) (fail : Option (Nat × Word)) (c : Cmd) : Result :=
  s.whenRoom (match fail with
    | some (cause, v) => s.trapMe cause v
    | none =>
      let s1 := s.entered c
      .next (s1.retire s1.me c.len))

/-- R256: a held command enters in the same way, and its thread is held. -/
def State.issueHeld (s : State) (fail : Option (Nat × Word)) (c : Cmd) : Result :=
  s.whenRoom (match fail with
    | some (cause, v) => s.trapMe cause v
    | none =>
      let s1 := s.entered c
      .next (s1.setMe { s1.me with status := .held }))

/-- Threads of a core that wait on its engine look again. -/
def State.wakeEngine (s : State) (core : Nat) : State := s.setCore core ((s.core core).wake Status.isEngine)

/-- Whether an instruction holds its thread while it is in the engine (R256). -/
def isHeld : Instr → Bool
  | .attnRun _ _ _ => true
  | .cmAppend _ _ => true
  | .cmFill _ _ _ _ => true
  | .cmFree _ _ _ _ => true
  | .cmLookup _ _ _ _ => true
  | .cmShare _ _ _ => true
  | .cmInval _ => true
  | _ => false

def isAttnRun : Instr → Bool
  | .attnRun _ _ _ => true
  | _ => false

/-- R227: the engine when its executing command is over: an MX.LDW that has started goes on as the executing one. -/
def Core.freed (c : Core) : Core := { c with running := c.loading, loading := none }

/-- The commands of a thread leave the queue, an MX.LDW that has started among them. -/
def Core.dropCmds (c : Core) (h : Hart) : Core :=
  { c with queue := c.queue.filter (fun q => decide (q.hart ≠ h)), loading := c.loading.filter (fun r => decide (r.cmd.hart ≠ h)) }

/-- R135: APOS as a fault or a halt leaves it: active, at the first position of the block. -/
def Running.apos (r : Running) : BitVec 26 := BitVec.ofNat 26 (2 ^ 25 + r.pos / 32 * 32)

/-- R228: a deferred fault of a thread: the first one is kept. A thread held by a later command, which is discarded, meets the fault at that
instruction. -/
def Thread.defer (t : Thread) (f : Deferred) : Thread :=
  if t.status = .idle then t
  else { t with
    deferred := some (t.deferred.getD f)
    status := if t.status = .held then .again else t.status }

/-- R228: a fault of the executing command: deferred to its thread, whose later commands are discarded, or for a held thread a
trap at its own pc, with APOS set for ATTN.RUN (R259). -/
def State.engineFault (s : State) (core : Nat) (r : Running) (cause : Nat) (value : Word) (utag : BitVec 14) : State :=
  let h := r.cmd.hart
  let s1 := (s.setCore core ((s.core core).dropCmds h).freed).wakeEngine core
  let t := s1.thread h
  if isHeld r.cmd.instr then
    (s1.setThread h { t with status := .run, apos := if isAttnRun r.cmd.instr then r.apos else t.apos }).trap h cause value utag
  else s1.setThread h (t.defer ⟨cause, value, utag⟩)

/-- R382: the class under which an engine pass is charged: the one after the 32 of the major opcodes (log 8). -/
def passClass : Nat := 32

/-- R227: the executing command is done: the engine is free, a held thread goes on, and threads that wait look again. Its context is charged for
the pass (R382). -/
def State.engineDone (s0 : State) (core : Nat) (r : Running) (f : Thread → Thread) : State :=
  let s := match (s0.core core).ctx? with
    | some n => s0.charge n passClass
    | none => s0
  let s1 := (s.setCore core (s.core core).freed).wakeEngine core
  if isHeld r.cmd.instr then
    let h := r.cmd.hart
    s1.setThread h { (f (s1.thread h)).advance r.cmd.len with status := .run }
  else s1

def State.setRunning (s : State) (core : Nat) (r : Running) : State :=
  s.setCore core { s.core core with running := some r }

def State.setEngine (s : State) (core : Nat) (e : Engine) : State := s.setCore core { s.core core with engine := e }

/-- Whether a halt of the context that a core runs is requested and not complete. -/
def State.halting (s : State) (core : Nat) : Bool :=
  match s.ctxOf core with
  | some c => decide (c.halt ≠ 0)
  | none => false

/-! ## Turns -/

/-- A turn of the executing command of a core. -/
def State.engTurn (s : State) (r : Running) : EngRun :=
  let (n, s1) := s.turnFuel
  ⟨s1, r.cmd.hart, r.cmd.level, .engine, r.cmd.seq, r.got, [], n, r.port, false, s.halting r.cmd.hart.core⟩

/-- Whether a command is the executing one of a core: an error that a turn met may have stopped its grid (R386). -/
def State.executes (s : State) (core : Nat) (r : Running) : Bool := decide ((s.core core).running.map Running.cmd = some r.cmd)

/-- A turn that stalls: its answers and where it waits stand over, and the comet buffer is as it was when the sequence began. -/
def State.engPaused (s : State) (core : Nat) (r : Running) (e : EngRun) : State :=
  if e.s.executes core r then
    (e.s.setCore core { e.s.core core with comet := (s.core core).comet }).setRunning core
      { r with got := e.made.reverse, port := e.port, calm := e.calm }
  else e.s

/-- Whether an access of a list is parked. -/
def State.isParked (s : State) (ids : List Nat) : Bool :=
  s.cores.any (fun q => q.2.sram.parks.any (fun p => decide (p.access.id ∈ ids))) ||
    s.clusters.any (fun q => q.2.sram.parks.any (fun p => decide (p.access.id ∈ ids)))

/-- Whether an access of a list is held before its check behind a full park list. -/
def State.isHeldBack (s : State) (ids : List Nat) : Bool :=
  s.cores.any (fun q => q.2.sram.held.any (fun a => decide (a.id ∈ ids))) ||
    s.clusters.any (fun q => q.2.sram.held.any (fun a => decide (a.id ∈ ids)))

/-- R363: whether the access that a port waits for has been discarded, so that no answer to it will come. -/
def State.forsaken (s : State) (p : Port) : Bool :=
  match p.wait with
  | none => false
  | some id => !s.net.any (fun m => match m with
      | .reply a _ => decide (a.id = id)
      | m => m.accesses.any (fun a => decide (a.id = id))) && !s.isParked [id] && !s.isHeldBack [id]

/-- A turn that ends in a fault. -/
def EngRun.failed (e : EngRun) (core : Nat) (r : Running) (cause : Nat) (value : Word) (utag : BitVec 14) : State :=
  if e.s.executes core r then e.s.engineFault core r cause value utag else e.s

/-- A turn that ends its command or its sequence. -/
def EngRun.over (e : EngRun) (core : Nat) (r : Running) (f : State → State) : State := if e.s.executes core r then f e.s else e.s

/-- The command with nothing answered: what it does next begins afresh. -/
def Running.fresh (r : Running) : Running := { r with got := [], port := .idle, calm := false }

/-- Whether a command stands at a block or sequence boundary, or in a wait that counts as one (R137, R127, R266). -/
def Running.atBoundary (r : Running) : Bool := r.calm || (r.got.isEmpty && decide (r.port = .idle))

/-- R229, R242: the checks of one engine write of a row: R58 and R52. -/
def State.rowCheck (s : State) (h : Hart) (l : Level) (p : Piece) : Option (Nat × Word) :=
  match s.rangeAt h l p.addr.toNat p.size with
  | none => some (34, p.addr)
  | some t => if s.strictReact h && decide (t ≠ .sram (.core h.core) (p.addr.toNat % 2 ^ 21)) then some (32, p.addr) else none

/-- R72, R105: one piece of a row is written, or is only looked at. -/
def EngRun.piece (e : EngRun) (p : Piece) (op : AccOp := .store) : Eng Nat :=
  match e.s.rowCheck e.hart e.level p with
  | some (c, v) => .fault c v 0 e
  | none => e.word .engWrite op p.addr p.size p.value

/-- The pieces that a command has yet to write are written, in order, until one stalls or faults; with those that are left. -/
def EngRun.pieces (e : EngRun) : List Piece → List Piece × Eng Unit
  | [] => ([], .ok () e)
  | p :: t =>
    match e.piece p with
    | .ok _ e1 => e1.pieces t
    | .stall e1 => (p :: t, .stall e1)
    | .fault c v u e1 => (p :: t, .fault c v u e1)

/-- What writing all of a list of pieces at once would come to: a fault, a piece that would stall, or the machine after it. -/
inductive Whole where
  | fault (cause : Nat) (value : Word) (utag : BitVec 14)
  | stalls (p : Piece)
  | ok (e : EngRun)

/-- R228: the pieces of a command that commits as a whole, tried in order on the machine as it stands: the first that would fault decides, then
the first that would stall. -/
def EngRun.tryAll (e : EngRun) : List Piece → Option Piece → Whole
  | [], none => .ok e
  | [], some p => .stalls p
  | p :: t, st =>
    match { e with port := { Port.idle with dirty := e.port.dirty }, todo := [], fuel := 2 ^ 64 }.piece p with
    | .ok _ e1 => e1.tryAll t st
    | .stall _ => e.tryAll t (st.or (some p))
    | .fault c v u _ => .fault c v u

/-- Whether a peer holds the place of a piece. -/
def EngRun.peerPiece (e : EngRun) (p : Piece) : Bool :=
  match e.s.rangeAt e.hart e.level p.addr.toNat p.size with
  | some (.peer _ _) => true
  | _ => false

end Sys2Proof.Machine
end

