-- ==== Sys2Proof/Machine/Matrix.lean ====
section
/-! DEFINITION. The matrix engine, majors 0x18 and 0x19 (R226 to R244): the commands at issue, and their execution in the engine. -/

namespace Sys2Proof.Machine

/-! ## Formats (R62, R99, R232, Table 14.5) -/

/-- The code of a matrix format. -/
def MFmt.code : MFmt → Nat
  | .bf16 => 0 | .f16 => 1 | .fp8a => 2 | .fp8b => 3 | .i8 => 4 | .i4 => 5 | .o4 => 6

/-- R99: the chunk of a format. -/
def chunkOf (f : Nat) : Nat := if f ≤ 1 then 32 else if f ≤ 3 then 64 else 128

/-- R62: the bank format of a format. -/
def bankFmtOf (f : Nat) : Nat :=
  if f = 0 then 2 else if f = 1 then 3 else if f = 2 then 4 else if f = 3 then 5 else if f = 4 then 8 else if f = 5 then 9 else 10

/-- The bits of an element's code. -/
def codeBits (f : Nat) : Nat := if f ≤ 1 then 16 else if f ≤ 4 then 8 else 4

/-- The bytes of n consecutive elements, n a multiple of 64 for O4. -/
def elemBytes (f n : Nat) : Nat := if f = 6 then n / 64 * 40 else n * codeBits f / 8

/-- Table 7.3: the bytes of a sparse group that stores n values. -/
def sparseBytes (f n : Nat) : Nat := 8 + n * codeBits f / 8 + (if f = 6 then 8 else 0)

/-- Table 14.4: the fields of a configuration. -/
def sparseOf (cfg : BitVec 6) : Nat := bits cfg 4 2
def actFmt (mf : Nat) (cfg : BitVec 6) : Nat := if bit cfg 3 then bits cfg 0 3 else mf

/-- Table 14.5: the pairs that exist. -/
def pairOk (mf af : Nat) : Bool :=
  (decide (mf ≤ 1) && decide (af = mf)) || ((mf == 2 || mf == 3) && (af == 2 || af == 3)) || (mf == 4 && af == 4) ||
    (mf == 5 && (af == 5 || af == 4)) || (mf == 6 && (af == 6 || af == 4))

/-- R231: whether a configuration is well formed. -/
def cfgOk (mf : Nat) (cfg : BitVec 6) (entry : Word) : Bool :=
  !bit entry 0 && decide (sparseOf cfg ≠ 3) && (decide (sparseOf cfg = 0) || decide (2 ≤ mf)) && pairOk mf (actFmt mf cfg)

/-- The stored values of a sparse group: 16 or 32. -/
def sparseN (cfg : BitVec 6) : Nat := 16 * sparseOf cfg

/-- R232: the chunks that a plane column holds, and its positions. -/
def chunksOf (cfg : BitVec 6) : Nat := if sparseOf cfg = 0 then 1 else 2

/-- R232: the bytes of a weight column. -/
def columnBytes (mf : Nat) (cfg : BitVec 6) : Nat :=
  if sparseOf cfg = 0 then elemBytes mf (chunkOf mf) else 2 * chunkOf mf / 64 * sparseBytes mf (sparseN cfg)

/-- R232: the bytes of an activation row. -/
def rowBytes (mf : Nat) (cfg : BitVec 6) : Nat := elemBytes (actFmt mf cfg) (chunkOf mf * chunksOf cfg)

/-- Element i of n consecutive elements given as a number. -/
def elemOf (f bytes i : Nat) : Num :=
  if f = 0 then Fmt.bf16.decode (bytes / 2 ^ (16 * i) % 2 ^ 16)
  else if f = 1 then Fmt.f16.decode (bytes / 2 ^ (16 * i) % 2 ^ 16)
  else if f = 2 then Fmt.e4m3.decode (bytes / 2 ^ (8 * i) % 256)
  else if f = 3 then Fmt.e5m2.decode (bytes / 2 ^ (8 * i) % 256)
  else if f = 4 then Num.ofInt (sext 8 (bytes / 2 ^ (8 * i)))
  else if f = 5 then Num.ofInt (sext 4 (nibble bytes i))
  else
    let g := bytes / 2 ^ (320 * (i / 64)) % 2 ^ 320
    o4Elem (g % 2 ^ 256) (g / 2 ^ 256) (i % 64)

/-- R92: the first malformed O4 group among n elements, as its byte offset. -/
def o4Bad (f bytes n : Nat) : Option Nat :=
  if f = 6 then
    ((List.range (n / 64)).find? (fun g => decide (8 < o4Marks (bytes / 2 ^ (320 * g) % 2 ^ 256) 64))).map (fun g => 40 * g)
  else none

/-- The number of ones among the low n bits. -/
def ones (m : Nat) : Nat → Nat
  | 0 => 0
  | n + 1 => ones m n + m / 2 ^ n % 2

/-- R95: position p of a sparse group given as a number, which its mask occupies. -/
def sparseElem (f n g p : Nat) : Num :=
  let i := ones (g % 2 ^ 64) p
  let body := g / 2 ^ 64
  if f = 6 then o4Elem (body % 2 ^ (4 * n)) (body / 2 ^ (4 * n)) i else elemOf f body i

/-- R95: why a sparse group is malformed: reason 4 for its mask, 3 for its codes. -/
def sparseBad (f n g : Nat) : Option Nat :=
  if ones (g % 2 ^ 64) 64 ≠ n then some 4
  else if f = 6 ∧ 8 < o4Marks (g / 2 ^ 64 % 2 ^ (4 * n)) n then some 3
  else none

/-- A canonical table of the non-default values of f below n. -/
def tabOf {α : Type} [DecidableEq α] (d : α) (n : Nat) (f : Nat → α) : Tab α :=
  ((List.range n).map (fun i => (i, f i))).filter (fun p => decide (p.2 ≠ d))

/-- The FP32 pattern of a value that FP32 holds exactly. -/
def f32Of (x : Num) : Word32 := BitVec.ofNat 32 (Fmt.f32.pack .rne false x).bits

/-! ## Tiles -/

def Engine.tileAt (e : Engine) (z i j : Nat) : Word32 := Tab.get 0 e.tiles (1024 * z + 32 * i + j)

/-- The engine with tile z given by f. -/
def Engine.setTile (e : Engine) (z : Nat) (f : Nat → Nat → Word32) : Engine :=
  { e with tiles := e.tiles.filter (fun p => decide (p.1 < 1024 * z)) ++
      (tabOf 0 1024 (fun k => f (k / 32) (k % 32))).map (fun p => (1024 * z + p.1, p.2)) ++
      e.tiles.filter (fun p => decide (1024 * (z + 1) ≤ p.1)) }

/-- R237: a tile is +0 and its scale record clear. -/
def Engine.zeroTile (e : Engine) (z : Nat) : Engine :=
  { e with
    tiles := e.tiles.filter (fun p => decide (p.1 / 1024 ≠ z))
    scaleRecs := Tab.del z e.scaleRecs }

/-! ## The commands at issue -/

/-- R231: MX.CFG. -/
def execMxCfg (a b : Opnd) (mf : MFmt) (s : State) : Result :=
  s.engineGate (
    let entry := s.me.opX a
    let w := s.me.opX b
    let cfg : BitVec 6 := w.setWidth 6
    let ok := zeroBits w 6 58 && cfgOk mf.code cfg entry
    s.issueCmd (if ok then none else some (35, formatFault 2 0))
      { s.mkCmd (.mxCfg false a b mf) entry w (len2 a b) with cfg := cfg, mf := mf.code, drainEntry := entry })

/-- R233, R234: the start of column n; only columns that are not of a tail are packed where CSTRIDE is 0. -/
def columnAt (mf : Nat) (cfg : BitVec 6) (a b : Word) (n : Nat) : Word :=
  let cs := bits b 32 32
  a + BitVec.ofNat 64 (n * (if decide (cs = 0) && !bit b 21 then columnBytes mf cfg else cs))

/-- R228, R233, R234: the first check that MX.LDW fails at issue. -/
def State.ldwFail (s : State) (c : Cmd) : Option (Nat × Word) :=
  let (h, mf, cfg, a, b) := (c.hart, c.mf, c.cfg, c.opA, c.opB)
  let tail := bit b 21
  let soff := bits b 0 21
  let n := if tail then 1 else columnBytes mf cfg
  let cols := (List.range 32).map (columnAt mf cfg a b)
  let scale : Word := BitVec.ofNat 64 soff
  firstSome [
    (firstSome (cols.map (fun c => s.ownFail h c n) ++ [if soff = 0 then none else s.ownFail h scale 32])).map (fun v => (34, v)),
    (cols.find? (fun c => decide (c.toNat % 8 ≠ 0))).map (fun v => (4, v)),
    if !zeroBits b 24 8 || (decide (soff ≠ 0) && decide (mf ≤ 1)) ||
        (tail && (decide (bits b 32 32 = 0) || decide (sparseOf cfg ≠ 0)))
      then some (35, formatFault 2 0) else none,
    (firstSome (cols.map (fun x => s.formatFail h c.fmts (bankFmtOf mf) x n))).map (fun v => (35, formatFault 1 v))]

/-- R233: MX.LDW. -/
def execMxLdw (a b : Opnd) (s : State) : Result :=
  s.engineGate (
    let c := s.mkCmd (.mxLdw false a b) (s.me.opX a) (s.me.opX b) (len2 a b)
    s.issueCmd (s.ldwFail c) c)

/-- R235: MX.SWAP. -/
def execMxSwap (s : State) : Result := s.engineGate (s.issueCmd none (s.mkCmd (.mxSwap false) 0 0 4))

/-- R236: MX.DUP. -/
def execMxDup (a : Opnd) (s : State) : Result :=
  s.engineGate (
    let x := s.me.opX a
    s.issueCmd (firstSome [(s.ownFail s.cur x 264).map (fun v => (34, v)), if x.toNat % 64 ≠ 0 then some (4, x) else none])
      (s.mkCmd (.mxDup false a) x 0 (len1 a)))

/-- Table 14.8: the fields of a stream control word. -/
def streamRows (b : Word) : Nat := bits b 0 6
def streamRow0 (b : Word) : Nat := bits b 6 5

/-- R238: the start of activation row r. -/
def streamRowAt (mf : Nat) (cfg : BitVec 6) (a b : Word) (r : Nat) : Word :=
  let rs := bits b 16 16
  a + BitVec.ofNat 64 (r * (if rs = 0 then rowBytes mf cfg else rs))

/-- R228, R238, R239: the first check that MX.STREAM fails at issue; e is the engine as the queue will leave it. -/
def State.streamFail (s : State) (e : Engine) (z : Nat) (c : Cmd) : Option (Nat × Word) :=
  let (h, a, b) := (c.hart, c.opA, c.opB)
  let rows := (List.range (streamRows b)).map (streamRowAt e.mf e.cfg a b)
  let n := rowBytes e.mf e.cfg
  let soff := bits b 32 21
  let af := actFmt e.mf e.cfg
  firstSome [
    (firstSome (rows.map (fun c => s.ownFail h c n) ++
      [if soff = 0 then none else s.ownFail h (BitVec.ofNat 64 (soff + streamRow0 b)) (streamRows b)])).map (fun v => (34, v)),
    (rows.find? (fun c => decide (c.toNat % 8 ≠ 0))).map (fun v => (4, v)),
    if !zeroBits b 53 11 || !zeroBits b 11 5 || decide (streamRows b = 0) || decide (32 < streamRow0 b + streamRows b) ||
        (decide (soff ≠ 0) && decide (af ≤ 1))
      then some (35, formatFault 2 0) else none,
    (firstSome (rows.map (fun x => s.formatFail h c.fmts (bankFmtOf af) x n))).map (fun v => (35, formatFault 1 v)),
    match e.scaleRec z with
    | some r =>
      if r.woff ≠ e.active.soff then some (35, formatFault 5 (e.active.soff.setWidth 64))
      else if r.aoff.toNat ≠ soff then some (35, formatFault 5 (BitVec.ofNat 64 soff))
      else none
    | none => none]

/-- R238: MX.STREAM. -/
def execMxStream (d : Fin 4) (a b : Opnd) (s : State) : Result :=
  s.engineGate (
    let c := s.mkCmd (.mxStream false d a b) (s.me.opX a) (s.me.opX b) (len2 a b)
    s.issueCmd (s.streamFail s.myCore.foreseen d.val c) c)

/-- R237: MX.ZERO. -/
def execMxZero (d : Fin 4) (s : State) : Result := s.engineGate (s.issueCmd none (s.mkCmd (.mxZero false d) 0 0 4))

/-- R240: where row i of a drain goes. -/
def drainRowAt (a b : Word) (i : Nat) : Word := a + BitVec.ofNat 64 i * (if b = 0 then 128 else b)

/-- R240: MX.DRAIN. -/
def execMxDrain (d : Fin 4) (a b : Opnd) (s : State) : Result :=
  s.engineGate (
    let x := s.me.opX a
    let w := s.me.opX b
    let rows := (List.range 32).map (drainRowAt x w)
    s.issueCmd (firstSome [
      (firstSome (rows.map (fun c => s.rangeFail s.cur c 128))).map (fun v => (34, v)),
      (rows.find? (fun c => decide (c.toNat % 8 ≠ 0))).map (fun v => (4, v)),
      if zeroBits w 32 32 then none else some (35, formatFault 2 0)])
      (s.mkCmd (.mxDrain false d a b) x w (len2 a b)))

/-- R244: MX.WAIT has the effect of FENCE.X; it is a misuse in a drain or spill thread. -/
def execMxWait (s : State) : Result :=
  s.engineGate (if s.myCore.busyFor s.cur then s.block .engine else .next (s.retire s.me 4))

/-! ## Reading operands -/

/-- The own-core offset that an address checked at issue names. -/
def offOf (a : Word) : Nat := a.toNat % 2 ^ 21

/-- The words that a list of ranges covers, range by range. -/
def rangeWords (rs : List (Nat × Nat)) : List Nat :=
  rs.flatMap (fun r => if r.2 = 0 then [] else (List.range ((r.1 + r.2 - 1) / 8 - r.1 / 8 + 1)).map (fun i => 8 * (r.1 / 8 + i)))

/-- R105: one word of the own core's SRAM that a command reads. -/
def EngRun.operand (e : EngRun) (off : Nat) : Eng Nat :=
  match e.port.answer with
  | some r => e.replied r e.s
  | none =>
    if e.port.wait.isSome then .stall e
    else e.at_ .engRead .load (BitVec.ofNat 64 off) 8 0 (.sram (.core e.hart.core) off)

/-- Reads the numbered words of a list until one stalls or faults: those read, and the number of the one that stopped it. -/
def EngRun.operands (e : EngRun) : List (Nat × Nat) → Tab Word → Tab Word × Nat × Eng Unit
  | [], ws => (ws, 0, .ok () e)
  | (i, off) :: t, ws =>
    match e.operand off with
    | .ok v e1 => e1.operands t (Tab.set i (BitVec.ofNat 64 v) ws)
    | .stall e1 => (ws, i, .stall e1)
    | .fault c v u e1 => (ws, i, .fault c v u e1)

/-- The order in which a turn reads the words that are left: first the one for which the command waits, otherwise any first. The words of a
command are events of their own, which nothing orders (R105, R109). -/
def Running.toRead (r : Running) (rot : Nat) (offs : List Nat) : List (Nat × Nat) :=
  let left := ((List.range offs.length).zip offs).filter (fun q => (Tab.find? r.words q.1).isNone)
  if r.port.wait.isSome || r.port.answer.isSome then
    left.filter (fun q => decide (q.1 = r.pos)) ++ left.filter (fun q => decide (q.1 ≠ r.pos))
  else left.rotateLeft rot

/-- A list of words as a number, the first lowest. -/
def wordsNat : List Word → Nat
  | [] => 0
  | w :: t => w.toNat + 2 ^ 64 * wordsNat t

/-- The values of ranges, from the words that were read for them. -/
def rangeValues : List (Nat × Nat) → List Word → List Nat
  | [], _ => []
  | r :: t, ws =>
    let k := if r.2 = 0 then 0 else (r.1 + r.2 - 1) / 8 - r.1 / 8 + 1
    wordsNat (ws.take k) / 256 ^ (r.1 % 8) % 256 ^ r.2 :: rangeValues t (ws.drop k)

/-- R234: the ranges that a tail reads: for each map entry of the chunk and each column, the element, or the O4 group that holds it. -/
def tailRanges (e : Engine) (c : Cmd) : List (Nat × Nat × Nat × Nat) :=
  let mf := e.mf
  let base := bits c.opB 22 2 * chunkOf mf
  ((List.range (chunkOf mf)).filter (fun k => decide (base + k < e.dupCount))).flatMap (fun k =>
    let src := (Tab.get 0 e.dupMap (base + k)).toNat
    (List.range 32).map (fun n =>
      let col := c.opA.toNat + n * bits c.opB 32 32
      if mf = 6 then (k, n, col + src / 64 * 40, 40)
      else (k, n, col + src * codeBits mf / 8, if codeBits mf = 16 then 2 else 1)))

/-- R233, R234, R236, R238, R258, R260: the ranges of own-core bytes that a command reads, in order. -/
def cmdRanges (e : Engine) (root : Word) (c : Cmd) : List (Nat × Nat) :=
  let hdim := 64 * 2 ^ bits root 10 2
  let rows := if hdim = 256 then 16 else 32
  match c.instr with
  | .mxLdw _ _ _ =>
    let cols := if bit c.opB 21 then (tailRanges e c).map (fun q => (q.2.2.1 % 2 ^ 21, q.2.2.2))
      else (List.range 32).map (fun n => (offOf (columnAt e.mf e.cfg c.opA c.opB n), columnBytes e.mf e.cfg))
    cols ++ (if bits c.opB 0 21 = 0 then [] else [(bits c.opB 0 21, 32)])
  | .mxDup _ _ => [(offOf c.opA, 264)]
  | .mxStream _ _ _ _ =>
    let n := streamRows c.opB
    (List.range n).map (fun r => (offOf (streamRowAt e.mf e.cfg c.opA c.opB r), rowBytes e.mf e.cfg)) ++
      (if bits c.opB 32 21 = 0 then [] else [(bits c.opB 32 21 + streamRow0 c.opB, n)])
  | .attnQld _ _ _ => [(offOf c.opA, 2 * rows * hdim), (offOf c.opB, 16 * rows)]
  | .attnMerge _ _ => [(offOf c.opA, 320 + 4 * rows * hdim)]
  | _ => []

/-! ## The effects of commands on the engine -/

/-- A fault that a command finds, or the engine after it. -/
abbrev EngineRes := (Nat × Word) ⊕ Engine

/-- R231: MX.CFG. -/
def Engine.doCfg (e : Engine) (c : Cmd) : Engine :=
  { e with cfg := c.cfg, mf := c.mf, drainEntry := c.drainEntry, active := Plane.init, shadow := Plane.init }

/-- The column scales of a plane from the 32 scale bytes of a load; code 127 is 1. -/
def scalesOf (soff v : Nat) : Tab Byte :=
  if soff = 0 then [] else tabOf 127 32 (fun n => BitVec.ofNat 8 (v / 256 ^ n))

/-- R233: a tile from its columns. -/
def Engine.doLdw (e : Engine) (c : Cmd) (vs : List Nat) : EngineRes :=
  let soff := bits c.opB 0 21
  let n := sparseN e.cfg
  let gb := sparseBytes e.mf n
  let groups := 2 * chunkOf e.mf / 64
  let off (j : Nat) : Nat := offOf (columnAt e.mf e.cfg c.opA c.opB j)
  let group (j g : Nat) : Nat := vs.getD j 0 / 256 ^ (gb * g) % 256 ^ gb
  let done (vals : Tab Word32) (masks : Tab Word) : EngineRes :=
    .inr { e with shadow := ⟨vals, masks, scalesOf soff (vs.getD 32 0), BitVec.ofNat 21 soff⟩ }
  if n = 0 then
    match (List.range 32).findSome? (fun j => (o4Bad e.mf (vs.getD j 0) (chunkOf e.mf)).map (fun o => off j + o)) with
    | some o => .inl (35, formatFault 3 (BitVec.ofNat 64 o))
    | none =>
      done (tabOf 0 8192 (fun k => if k % 256 < chunkOf e.mf then f32Of (elemOf e.mf (vs.getD (k / 256) 0) (k % 256)) else 0)) []
  else
    match (List.range (32 * groups)).findSome? (fun i =>
      (sparseBad e.mf n (group (i / groups) (i % groups))).map (fun r => (r, off (i / groups) + gb * (i % groups)))) with
    | some (r, o) => .inl (35, formatFault r (BitVec.ofNat 64 o))
    | none =>
      done (tabOf 0 8192 (fun k =>
          let g := group (k / 256) (k % 256 / 64)
          if k % 256 < 64 * groups ∧ g / 2 ^ (k % 64) % 2 = 1 then f32Of (sparseElem e.mf n g (k % 64)) else 0))
        ((List.range (32 * groups)).map (fun i => (4 * (i / groups) + i % groups, BitVec.ofNat 64 (group (i / groups) (i % groups)))))

/-- R234: a tail tile from the groups that the map names. -/
def Engine.doTail (e : Engine) (c : Cmd) (vs : List Nat) : EngineRes :=
  let soff := bits c.opB 0 21
  let rs := tailRanges e c
  let src (k : Nat) : Nat := (Tab.get 0 e.dupMap (bits c.opB 22 2 * chunkOf e.mf + k)).toNat
  match ((rs.zip vs).find? (fun p => (o4Bad e.mf p.2 64).isSome)) with
  | some (q, _) => .inl (35, formatFault 3 (BitVec.ofNat 64 (q.2.2.1 % 2 ^ 21)))
  | none =>
    let at? (k n : Nat) : Option Nat := ((rs.zip vs).find? (fun p => decide (p.1.1 = k) && decide (p.1.2.1 = n))).map Prod.snd
    .inr { e with shadow := ⟨tabOf 0 8192 (fun i => match at? (i % 256) (i / 256) with
        | some v => f32Of (if e.mf = 6 then elemOf 6 v (src (i % 256) % 64)
            else if codeBits e.mf = 4 then elemOf 5 v (src (i % 256) % 2) else elemOf e.mf v 0)
        | none => 0), [], scalesOf soff (vs.getD rs.length 0), BitVec.ofNat 21 soff⟩ }

/-- R234: the checks that a tail makes when it runs. -/
def State.tailFail (s : State) (h : Hart) (e : Engine) (c : Cmd) : Option (Nat × Word) :=
  (tailRanges e c).findSome? (fun q =>
    let a : Word := BitVec.ofNat 64 q.2.2.1
    firstSome [
      (s.ownFail h a q.2.2.2).map (fun v => (34, v)),
      if e.mf = 6 ∧ q.2.2.1 % 8 ≠ 0 then some (4, a) else none,
      (s.formatFail h c.fmts (bankFmtOf e.mf) a q.2.2.2).map (fun v => (35, formatFault 1 v))])

/-- R236: the duplication map. -/
def Engine.doDup (e : Engine) (c : Cmd) (v : Nat) : EngineRes :=
  let head := v % 2 ^ 64
  let count := head % 128
  let kbase := head / 2 ^ 32
  let src (j : Nat) : Nat := v / 256 ^ (8 + 4 * j) % 2 ^ 32
  let named := List.range count
  if 64 < count ∨ head / 128 % 2 ^ 25 ≠ 0 ∨ kbase = 0 ∨ kbase % 64 ≠ 0 ∨
      named.any (fun j => decide (kbase ≤ src j)) ∨ ¬ (named.map src).Nodup ∨
      (List.range 64).any (fun j => decide (count ≤ j) && decide (src j ≠ 0))
    then .inl (35, formatFault 6 c.opA)
  else .inr { e with dupBase := BitVec.ofNat 32 kbase, dupCount := count, dupMap := tabOf 0 64 (fun j => BitVec.ofNat 32 (src j)) }

/-- R95: whether position k of column n of a plane takes part. -/
def Plane.present (p : Plane) (cfg : BitVec 6) (n k : Nat) : Bool :=
  decide (sparseOf cfg = 0) || bit ((Tab.find? p.masks (4 * n + k / 64)).getD Config.clearedMask) (k % 64)

/-- R90, R100, R238: the products of chunk q for column n and a row of activations; BF16 and FP16 operands are never scaled. -/
def Engine.products (e : Engine) (row : Nat → Num) (sa : Num) (q n : Nat) : List Num :=
  let ch := chunkOf e.mf
  let sw : Num := if e.mf ≤ 1 then .fin false 1 0 else e8m0 (Tab.get 127 e.active.scales n).toNat
  ((List.range ch).map (fun k => ch * q + k)).filterMap (fun k =>
    if e.active.present e.cfg n k then
      some ((((row k).mul (Fmt.f32.decode (Tab.get 0 e.active.vals (256 * n + k)).toNat)).mul sa).mul sw)
    else none)

/-- R238: rows accumulated into a tile, with the tile's scale record set by the first stream of a block (R239). -/
def Engine.doStream (e : Engine) (z : Nat) (c : Cmd) (vs : List Nat) : EngineRes :=
  let b := c.opB
  let af := actFmt e.mf e.cfg
  let n := streamRows b
  let soff := bits b 32 21
  let len := chunkOf e.mf * chunksOf e.cfg
  match (List.range n).findSome? (fun r =>
    (o4Bad af (vs.getD r 0) len).map (fun o => offOf (streamRowAt e.mf e.cfg c.opA b r) + o)) with
  | some o => .inl (35, formatFault 3 (BitVec.ofNat 64 o))
  | none =>
    let sa (r : Nat) : Num := if soff = 0 ∨ af ≤ 1 then .fin false 1 0 else e8m0 (vs.getD n 0 / 256 ^ r % 256)
    let f (i j : Nat) : Word32 :=
      if streamRow0 b ≤ i ∧ i < streamRow0 b + n then
        let r := i - streamRow0 b
        BitVec.ofNat 32 ((List.range (chunksOf e.cfg)).foldl (fun acc q => accChunk acc (e.products (elemOf af (vs.getD r 0)) (sa r) q j))
          (e.tileAt z i j).toNat)
      else e.tileAt z i j
    let e1 := e.setTile z f
    .inr (match e.scaleRec z with
      | some _ => e1
      | none => { e1 with scaleRecs := Tab.set z ⟨true, e.active.soff, BitVec.ofNat 21 soff⟩ e1.scaleRecs })

/-! ## Attention state (R257, R130, R132) -/

/-- R257: the head dimension and the rows of a context. -/
def headDim (root : Word) : Nat := 64 * 2 ^ bits root 10 2
def attnRows (root : Word) : Nat := if headDim root = 256 then 16 else 32

/-- R257: O[r][d] of the attention state, by its place in the tiles. -/
def oKey (r d : Nat) : Nat := 1024 * (d / 32 % 4) + 32 * (r + 16 * (d / 128)) + d % 32

def negInf : Word32 := 0xFF800000#32

/-- R258: ATTN.QLD. -/
def Engine.doQld (e : Engine) (root : Word) (c : Cmd) (vs : List Nat) : EngineRes :=
  let hd := headDim root
  let rows := attnRows root
  let entry (r i : Nat) : Word := BitVec.ofNat 64 (vs.getD 1 0 / 2 ^ (128 * r + 64 * i))
  match (List.range rows).find? (fun r => !zeroBits (entry r 0) 34 29 || !zeroBits (entry r 1) 24 40) with
  | some r => .inl (35, formatFault 7 (c.opB + BitVec.ofNat 64 (16 * r)))
  | none => .inr { e with
      query := tabOf 0 (rows * hd) (fun k => BitVec.ofNat 16 (vs.getD 0 0 / 2 ^ (16 * k))) ++
        e.query.filter (fun p => decide (rows * hd ≤ p.1))
      rowHead := tabOf 0 rows (fun r => entry r 0) ++ e.rowHead.filter (fun p => decide (rows ≤ p.1))
      rowLimit := tabOf 0 rows (fun r => entry r 1) ++ e.rowLimit.filter (fun p => decide (rows ≤ p.1))
      amax := []
      asum := []
      tiles := [] }

/-- R103: exp2_r of the exact difference of two FP32 values, 1 when both are −∞. -/
def expDiff (x y : Word32) : Nat :=
  if x = negInf ∧ y = negInf then 0x3F800000
  else (exp2R ((Fmt.f32.decode x.toNat).add .rne (Fmt.f32.decode y.toNat).negate)).bits

/-- The larger of two FP32 values. -/
def maxF (x y : Word32) : Word32 := BitVec.ofNat 32 (Fmt.f32.minMax true x.toNat y.toNat).bits

def mulF (x y : Nat) : Nat := (Fmt.f32.mulR .rne (Fmt.f32.decode x) (Fmt.f32.decode y)).bits
def addF (x y : Nat) : Nat := (Fmt.f32.addR .rne (Fmt.f32.decode x) (Fmt.f32.decode y)).bits

/-- R132: ATTN.MERGE. -/
def Engine.doMerge (e : Engine) (root : Word) (c : Cmd) (v : Nat) : EngineRes :=
  let hd := headDim root
  let rows := attnRows root
  let f32 (byte : Nat) : Word32 := BitVec.ofNat 32 (v / 256 ^ byte)
  if v / 256 ^ 256 % 4 ≠ bits root 10 2 then .inl (35, formatFault 7 c.opA)
  else
    let m1 (r : Nat) := Tab.get negInf e.amax r
    let m (r : Nat) := maxF (m1 r) (f32 (4 * r))
    let c1 (r : Nat) := expDiff (m1 r) (m r)
    let c2 (r : Nat) := expDiff (f32 (4 * r)) (m r)
    let mix (r : Nat) (x y : Word32) : Word32 := BitVec.ofNat 32 (addF (mulF x.toNat (c1 r)) (mulF y.toNat (c2 r)))
    let o (k : Nat) : Option (Nat × Nat) :=
      let r := k / 32 % 32
      let d := if hd = 256 then 128 * (r / 16) + 32 * (k / 1024) + k % 32 else 32 * (k / 1024) + k % 32
      let r' := if hd = 256 then r % 16 else r
      if d < hd then some (r', d) else none
    .inr { e with
      amax := tabOf negInf rows m ++ e.amax.filter (fun p => decide (rows ≤ p.1))
      asum := tabOf 0 rows (fun r => mix r (Tab.get 0 e.asum r) (f32 (128 + 4 * r))) ++ e.asum.filter (fun p => decide (rows ≤ p.1))
      tiles := tabOf 0 4096 (fun k => match o k with
        | some (r, d) => mix r (Tab.get 0 e.tiles k) (f32 (320 + 4 * (hd * r + d)))
        | none => Tab.get 0 e.tiles k) }

/-- What a command without writes does to the engine, from the operands that it read. -/
def Engine.effect (e : Engine) (root : Word) (c : Cmd) (vs : List Nat) : EngineRes :=
  match c.instr with
  | .mxCfg _ _ _ _ => .inr (e.doCfg c)
  | .mxLdw _ _ _ => if bit c.opB 21 then e.doTail c vs else e.doLdw c vs
  | .mxSwap _ => .inr { e with active := e.shadow, shadow := e.active }
  | .mxDup _ _ => e.doDup c (vs.getD 0 0)
  | .mxStream _ z _ _ => e.doStream z.val c vs
  | .mxZero _ z => .inr (e.zeroTile z.val)
  | .attnQld _ _ _ => e.doQld root c vs
  | .attnMerge _ _ => e.doMerge root c (vs.getD 0 0)
  | _ => .inr e

/-! ## Writes of attention state (R133, R261) -/

/-- The element format of ATTN.FIN. -/
def finFmt (b : Word) : Fmt :=
  match bits b 0 3 with
  | 1 => .bf16 | 2 => .f16 | 3 => .e4m3 | 4 => .e5m2 | _ => .f32

def finBytes (b : Word) : Nat := if bits b 0 3 = 0 then 4 else if bits b 0 3 ≤ 2 then 2 else 1

/-- R261: the bytes between rows of ATTN.FIN. -/
def finStride (root b : Word) : Nat := if bits b 32 32 = 0 then headDim root * finBytes b else bits b 32 32

/-- R133: an element of ATTN.FIN. -/
def Engine.finElem (e : Engine) (f : Fmt) (r d : Nat) : Nat :=
  let l := Tab.get 0 e.asum r
  if l = 0 then 0
  else (f.divR .rne (Fmt.f32.decode (Tab.get 0 e.tiles (oKey r d)).toNat) (Fmt.f32.decode l.toNat)).bits

/-- A number from its digits in base 256^w. -/
def digits (w : Nat) (f : Nat → Nat) : Nat → Nat
  | 0 => 0
  | n + 1 => digits w f n + f n % 256 ^ w * 256 ^ (w * n)

/-- Table 15.7: the saved attention state as a number. -/
def Engine.attnState (e : Engine) (root : Word) : Nat :=
  let hd := headDim root
  let rows := attnRows root
  digits 4 (fun r => if r < rows then (Tab.get negInf e.amax r).toNat else 0) 32 +
    256 ^ 128 * digits 4 (fun r => if r < rows then (Tab.get 0 e.asum r).toNat else 0) 32 +
    256 ^ 256 * (bits root 10 2 + 4 * rows) +
    256 ^ 320 * digits 4 (fun k => (Tab.get 0 e.tiles (oKey (k / hd) (k % hd))).toNat) (rows * hd)

/-- The pieces that a command writes from the engine's registers. -/
def Engine.writes (e : Engine) (root : Word) (c : Cmd) : List Piece :=
  match c.instr with
  | .attnFin _ _ _ =>
    (List.range (attnRows root)).flatMap (fun r =>
      piecesOf (c.opA + BitVec.ofNat 64 (r * finStride root c.opB)) (headDim root * finBytes c.opB)
        (digits (finBytes c.opB) (e.finElem (finFmt c.opB) r) (headDim root)))
  | .attnSt _ _ => piecesOf c.opA (320 + 4 * attnRows root * headDim root) (e.attnState root)
  | _ => []

/-! ## Draining -/

/-- Row i of a tile as a number. -/
def Engine.rowNat (e : Engine) (z i : Nat) : Nat := digits 4 (fun j => (e.tileAt z i j).toNat) 32

/-- R241, R19: the drain thread at the start of a row, with the identity of its user thread. -/
def Thread.drainStart (t u : Thread) (e : Engine) (z i : Nat) (addr : Word) : Thread :=
  let row := e.rowNat z i
  let t1 : Thread := { t with
    pc := e.drainEntry
    status := .run
    level := .u
    user := { t.user with h := false }
    nodeid := setBits u.nodeid 26 3 4
    griddim := u.griddim
    grid := u.grid
    member := u.member }
  ((((((t1.setV 0 (BitVec.ofNat 512 row)).setV 1 (BitVec.ofNat 512 (row / 2 ^ 512))).setX 10 (BitVec.ofNat 64 i)).setX 11 128).setX 12
    addr).setX 13 (BitVec.ofNat 64 z)).setM 0 0xFFFFFFFF

/-- R241: the engine dispatches the drain thread for the next row, or hands the row over unchanged. -/
def execDrainDispatch (core : Nat) (s : State) : Result :=
  let c := s.core core
  match c.running with
  | none => .next s
  | some r => match r.cmd.instr with
    | .mxDrain _ z _ _ =>
      if r.draining || decide (32 ≤ r.row) then .next s
      else
        let addr := drainRowAt r.cmd.opA r.cmd.opB r.row
        if c.engine.drainEntry = 0 then
          .next (s.setRunning core { r with row := r.row + 1, out := r.out ++ piecesOf addr 128 (c.engine.rowNat z.val r.row) })
        else
          let h : Hart := ⟨core, 4⟩
          let t := s.thread h
          if t.status ≠ .idle then .next s
          else
            let s1 := s.setCore core { c with drainFor := r.cmd.hart.th, running := some { r with row := r.row + 1, draining := true } }
            .next (s1.setThread h (t.drainStart (s.thread r.cmd.hart) c.engine z.val r.row addr))
    | _ => .next s

/-- R242: a row's failure of length or alignment: its cause and value. -/
def dretFail (n a : Word) : Option (Nat × Word) :=
  if 128 < n.toNat ∨ n.toNat % 4 ≠ 0 then some (34, a) else if a.toNat % 4 ≠ 0 then some (4, a) else none

/-- R242, R243: DRET releases the row to the drain that dispatched it, and the drain thread is idle. A row that fails discards the remaining rows,
and its fault is deferred once the rows released before it are written. The row of a drain that is gone is discarded (R228). -/
def execDret (s : State) : Result :=
  if !isDrain s.cur then s.misuse 6
  else
    let t := s.me
    let n := t.getX 11
    let a := t.getX 12
    let core := s.cur.core
    let s1 := s.setMe { t with retired := t.retired + 1, status := .idle }
    match (s1.core core).running with
    | none => .next s1
    | some r =>
      if !r.draining then .next s1
      else match dretFail n a with
      | some (c, v) => .next (s1.setRunning core { r with draining := false, row := 32, failed := some ⟨c, v, 0⟩ })
      | none =>
        .next (s1.setRunning core { r with
          draining := false
          out := r.out ++ piecesOf a n.toNat ((t.getV 0).toNat + 2 ^ 512 * (t.getV 1).toNat) })

/-! ## The engine's steps -/

def isStreamCmd : Instr → Bool
  | .mxStream _ _ _ _ => true
  | _ => false

def isLdwCmd : Instr → Bool
  | .mxLdw _ _ _ => true
  | _ => false

/-- A command as it begins; an ATTN.RUN begins at its first position that APOS does not skip (R259, R136). -/
def Running.begin_ (q : Cmd) (apos : BitVec 26) : Running :=
  let pos := if bit apos 25 then max (bits q.opA 0 24) (bits apos 0 25) else bits q.opA 0 24
  ⟨q, [], [], .idle, false, [], 0, false, none, pos, 0⟩

/-- R227: the engine takes the next command of the queue, which frees a place; an MX.LDW may start behind an executing MX.STREAM. -/
def execMatrixCommandStart (core : Nat) (s : State) : Result :=
  let c := s.core core
  match c.queue with
  | [] => .next s
  | q :: rest =>
    let r := Running.begin_ q (s.thread q.hart).apos
    match c.running, c.loading with
    | none, _ => .next ((s.setCore core { c with queue := rest, running := some r }).wakeEngine core)
    | some x, none =>
      if isStreamCmd x.cmd.instr && isLdwCmd q.instr then
        .next ((s.setCore core { c with queue := rest, loading := some r }).wakeEngine core)
      else .next s
    | _, _ => .next s

/-- R234: the check that a tail makes when it runs, before it has read anything. -/
def State.startFail (s : State) (core : Nat) (r : Running) : Option (Nat × Word) :=
  if isLdwCmd r.cmd.instr && bit r.cmd.opB 21 && r.words.isEmpty then s.tailFail r.cmd.hart (s.core core).engine r.cmd else none

/-- R227, R228: the operands of the executing command are read as far as no word stalls; when all are, the command commits in one
step, or its fault is deferred. -/
def State.runCommand (s : State) (core : Nat) (r : Running) : State :=
  let c := s.core core
  match s.startFail core r with
  | some (cause, v) => s.engineFault core r cause v 0
  | none =>
    let rs := cmdRanges c.engine c.cmroot r.cmd
    let offs := rangeWords rs
    let (rot, s0) := s.draw
    match (s0.engTurn r).operands (r.toRead rot.toNat offs) r.words with
    | (_, _, .fault cause v u e) => e.failed core r cause v u
    | (ws, i, .stall e) => s.engPaused core { r with words := ws, pos := i } { e with made := [] }
    | (ws, _, .ok _ e) => match c.engine.effect c.cmroot r.cmd (rangeValues rs ((List.range offs.length).map (Tab.get 0 ws))) with
      | .inl (cause, v) => e.failed core r cause v 0
      | .inr e' => e.over core r (fun s1 => (s1.setEngine core e').engineDone core r id)

/-- R227: an MX.LDW that has started behind an MX.STREAM reads its words; it commits, or its fault is deferred, once the stream is over. -/
def State.runLoading (s : State) (core : Nat) (r : Running) : State :=
  let c := s.core core
  if (s.startFail core r).isSome then s
  else
    let (rot, s0) := s.draw
    let put (s1 : State) (r1 : Running) : State :=
      if (s1.core core).loading.isNone then s1 else s1.setCore core { s1.core core with loading := some r1 }
    match (s0.engTurn r).operands (r.toRead rot.toNat (rangeWords (cmdRanges c.engine c.cmroot r.cmd))) r.words with
    | (ws, i, .fault cause v u e) => put e.s { r with words := ws, pos := i, port := { Port.idle with answer := some (.trap cause v u) } }
    | (ws, i, .stall e) => put e.s { r with words := ws, pos := i, port := e.port }
    | (ws, _, .ok _ e) => put e.s { r with words := ws, port := .idle }

/-- R228: a command whose writes commit as a whole: a fault of one of them commits nothing of it. The rows of a drain without a drain thread are
among them, because no DRET releases them. -/
def writesWhole (e : Engine) (i : Instr) : Bool :=
  match i with
  | .attnSt _ _ => true
  | .attnFin _ _ _ => true
  | .mxDrain _ _ _ _ => decide (e.drainEntry = 0)
  | _ => false

/-- R228, R261: a command whose writes commit as a whole. What lies at peers is written first, piece by piece (log 90). The rest is written in one
step, once no piece of it would stall; until then a look at the first that would waits in its place, at a WAIT in the park list (R82). -/
def State.runWhole (s : State) (core : Nat) (r : Running) : State :=
  let e := s.engTurn { r with got := [] }
  let none_ (x : EngRun) : EngRun := { x with made := [] }
  let after (out : List Piece) (x : EngRun) : State :=
    if out = [] then x.over core r (fun s1 => s1.engineDone core r id) else x.s.engPaused core { r with out := out, tries := 0 } (none_ x)
  let written (out : List Piece) (x : EngRun) : State :=
    match x.pieces (out.take 1) with
    | (_, .fault c v u e1) => e1.failed core r c v u
    | (_, .stall e1) => s.engPaused core { r with out := out, tries := 0 } (none_ e1)
    | (_, .ok _ e1) => after (out.drop 1) e1
  if (r.port.wait.isSome || r.port.answer.isSome) && decide (r.tries = 0) then written r.out e
  else if r.port.wait.isSome then s
  else match r.port.answer with
    | some (.trap c v u) => e.failed core r c v u
    | _ =>
      let x : EngRun := { e with port := { Port.idle with dirty := r.port.dirty } }
      let out := r.out.filter x.peerPiece ++ r.out.filter (fun p => !x.peerPiece p)
      if out.any x.peerPiece then written out x
      else match x.tryAll out none with
        | .fault c v u => x.failed core r c v u
        | .ok e1 => e1.over core r (fun s1 => s1.engineDone core r id)
        | .stalls p => match x.piece p .look with
          | .ok _ e1 => s.engPaused core { r with out := out, tries := 0 } (none_ { e1 with port := { Port.idle with dirty := e1.port.dirty } })
          | .stall e1 => s.engPaused core { r with out := out, tries := 1 } (none_ e1)
          | .fault c v u e1 => e1.failed core r c v u

/-- R242: the rows that DRET has released are written at their homes; with nothing left, the command is done, or takes the fault of a row that
failed. -/
def State.runWrites (s : State) (core : Nat) (r : Running) (more : Bool) : State :=
  if writesWhole (s.core core).engine r.cmd.instr then (if more then s else s.runWhole core r)
  else match (s.engTurn { r with got := [] }).pieces r.out with
    | (_, .fault cause v u e1) => e1.failed core r cause v u
    | (out, .stall e1) => s.engPaused core { r with out := out } { e1 with made := [] }
    | (_, .ok _ e1) =>
      if more then s.engPaused core { r with out := [] } { e1 with made := [] }
      else match r.failed with
        | some f => e1.failed core r f.cause f.value f.utag
        | none => e1.over core r (fun s1 => s1.engineDone core r id)

end Sys2Proof.Machine
end

