-- ==== Sys2Proof/Machine/Comet.lean ====
section
/-! DEFINITION. The comet space and attention, majors 0x1A and 0x1B (R118 to R137, R255 to R269): the walk of the tree, blocks of
ATTN.RUN, the comet instructions, and the step in which the engine executes its command (R227). -/

namespace Sys2Proof.Machine

/-! ## The tree -/

/-- A comet coordinate (R118). -/
structure Coord where
  q : Nat
  y : Nat
  hd : Nat
  p : Nat
  deriving DecidableEq, Repr

/-- Table 9.1: a packed coordinate with a reason. -/
def Coord.pack (c : Coord) (reason : Nat) : Word :=
  BitVec.ofNat 64 (2 ^ 58 * reason + 2 ^ 38 * (c.q % 2 ^ 20) + 2 ^ 30 * (c.y % 256) + 2 ^ 24 * (c.hd % 64) + c.p % 2 ^ 24)

/-- The coordinate that a packed word names. -/
def coordOf (w : Word) : Coord := ⟨bits w 38 20, bits w 30 8, bits w 24 6, bits w 0 24⟩

/-- The coordinate of a fault that has none (R263; for REASON 9 log 20). -/
def noCoord : Coord := ⟨0, 0, 0, 0⟩

/-- Table 9.2: the fields of CMROOT. -/
def rootBase (root : Word) : Nat := 4096 * bits root 12 44
def seqLog (root : Word) : Nat := bits root 0 5
def elemSize (root : Word) : Nat := if bit root 9 then 1 else 2

/-- R122: the positions of a page, and their logarithm. -/
def pageLog (root : Word) : Nat := 18 - (6 + bits root 10 2) - (if bit root 9 then 0 else 1)
def pageLen (root : Word) : Nat := 2 ^ pageLog root

/-- The generic address of a device virtual address that the comet structures hold, in window 0x10 (log 20). -/
def virtAddr (va : Nat) : Word := BitVec.ofNat 64 (0x10 * 2 ^ 56 + va % 2 ^ 56)

/-- R120: the table of a level's entry that the coordinate selects: its index. -/
def Coord.index (c : Coord) (root : Word) (level : Nat) : Nat :=
  if level = 1 then c.q else if level = 2 then c.y else if level = 3 then c.hd else if level = 4 then c.p / 2 ^ 20
  else c.p % 2 ^ 20 / pageLen root

/-- A leaf: its address and its two doublewords. -/
structure Leaf where
  addr : Nat
  dw0 : Word
  dw1 : Word
  deriving DecidableEq, Repr

def Leaf.present (l : Leaf) : Bool := bit l.dw0 0
def Leaf.shared (l : Leaf) : Bool := bit l.dw0 1
def Leaf.frame (l : Leaf) : Nat := 2 ^ 19 * bits l.dw0 19 37
def Leaf.seqcnt (l : Leaf) : Nat := bits l.dw1 0 32
def Leaf.valid (l : Leaf) : Nat := bits l.dw1 32 16
def Leaf.scale (l : Leaf) : Nat := bits l.dw1 48 8

/-- R121: whether a leaf, present or not, is malformed. -/
def Leaf.malformed (l : Leaf) (root : Word) : Bool :=
  !zeroBits l.dw0 56 8 || !zeroBits l.dw0 14 5 || !zeroBits l.dw1 56 8 || decide (pageLen root < l.valid) ||
    (!bit root 9 && decide (l.scale ≠ 0))

/-- R121: why a leaf is refused: 6 malformed, 7 owner mismatch of a present one. -/
def Leaf.bad (l : Leaf) (root : Word) (owner : BitVec 12) : Option Nat :=
  if l.malformed root then some 6
  else if l.present && decide (bits l.dw0 2 12 ≠ owner.toNat) then some 7
  else none

/-- R120: the walk of the interior levels from one on: the address of the leaf. A malformed entry is reported as such, present or not (R7). -/
def EngRun.walkTree (e : EngRun) (root : Word) (c : Coord) : Nat → Nat → Nat → Eng Nat
  | 0, _, table => .ok (table + 16 * c.index root 5) e
  | n + 1, level, table =>
    (e.read .load (virtAddr (table + 16 * c.index root level)) 16).andThen (fun v e1 =>
      let d0 : Word := BitVec.ofNat 64 v
      if !zeroBits d0 1 11 || !zeroBits d0 56 8 || decide (v / 2 ^ 64 ≠ 0) then .fault 25 (c.pack 6) 0 e1
      else if !bit d0 0 then .fault 25 (c.pack level) 0 e1
      else e1.walkTree root c n (level + 1) (4096 * bits d0 12 44))

/-- R123: the buffered line of a coordinate. -/
def Core.cometHit (co : Core) (root : Word) (c : Coord) : Option CometLine :=
  co.comet.find? (fun l => decide (l.q = c.q) && decide (l.y = c.y) && decide (l.hd = c.hd) && decide (l.ph = c.p / pageLen root))

/-- R123: the comet buffer without a coordinate's line. -/
def Core.cometDrop (co : Core) (root : Word) (c : Coord) : Core :=
  { co with comet := co.comet.filter (fun l => !(decide (l.q = c.q) && decide (l.y = c.y) && decide (l.hd = c.hd) &&
      decide (l.ph = c.p / pageLen root))) }

/-- R123: a present leaf becomes the most recently used of at most 512. -/
def Core.cometPut (co : Core) (root : Word) (c : Coord) (l : Leaf) : Core :=
  let co1 := co.cometDrop root c
  if l.present then
    { co1 with comet := co1.comet.drop (co1.comet.length + 1 - 512) ++ [⟨c.q, c.y, c.hd, c.p / pageLen root, l.addr, l.dw0⟩] }
  else co1

def State.cometPut (s : State) (core : Nat) (root : Word) (c : Coord) (l : Leaf) : State :=
  s.setCore core ((s.core core).cometPut root c l)

def EngRun.cometPut (e : EngRun) (root : Word) (c : Coord) (l : Leaf) : EngRun := { e with s := e.s.cometPut e.hart.core root c l }

/-- The owner of the context of an engine's core. -/
def EngRun.owner (e : EngRun) : BitVec 12 := (e.s.core e.hart.core).mowner

/-- R120 to R123: the leaf of a coordinate, through the comet buffer, checked. -/
def EngRun.walk_ (e : EngRun) (root : Word) (c : Coord) : Eng Leaf :=
  let finish (l : Leaf) (e1 : EngRun) : Eng Leaf :=
    match l.bad root e1.owner with
    | some r => .fault 25 (c.pack r) 0 e1
    | none => .ok l (if l.present then e1.cometPut root c l else e1)
  if 2 ^ seqLog root ≤ c.q then .fault 25 (c.pack 8) 0 e
  else match (e.s.core e.hart.core).cometHit root c with
    | some line =>
      (e.read .load (virtAddr (line.addr + 8)) 8).andThen (fun v e1 => finish ⟨line.addr, line.leaf, BitVec.ofNat 64 v⟩ e1)
    | none =>
      (e.walkTree root c 4 1 (rootBase root)).andThen (fun a e1 =>
        (e1.read .load (virtAddr a) 16).andThen (fun v e2 =>
          finish ⟨a, BitVec.ofNat 64 v, BitVec.ofNat 64 (v / 2 ^ 64)⟩ e2))

/-! ## Attention at issue (R257 to R261) -/

/-- R119: the check of CMROOT. -/
def rootFail (root : Word) : Option (Nat × Word) := if rootBase root = 0 then some (25, BitVec.ofNat 64 (2 ^ 58)) else none

/-- R256: a queued attention command with its checks. -/
def State.issueAttn (s : State) (checks : List (Option (Nat × Word))) (c : Cmd) : Result :=
  s.engineGate (s.issueCmd (firstSome (rootFail s.myCore.cmroot :: checks)) c)

def atCause (cause : Nat) (o : Option Word) : Option (Nat × Word) := o.map (fun v => (cause, v))

/-- R258: ATTN.QLD. -/
def execAttnQld (a b : Opnd) (s : State) : Result :=
  let x := s.me.opX a
  let w := s.me.opX b
  let root := s.myCore.cmroot
  let n := 2 * attnRows root * headDim root
  s.issueAttn [
    atCause 34 (firstSome [s.ownFail s.cur x n, s.ownFail s.cur w (16 * attnRows root)]),
    if x.toNat % 64 ≠ 0 then some (4, x) else if w.toNat % 16 ≠ 0 then some (4, w) else none,
    (s.formatFail s.cur s.myCore.fmts 2 x n).map (fun v => (35, formatFault 1 v))]
    (s.mkCmd (.attnQld false a b) x w (len2 a b))

/-- R260: ATTN.MERGE. -/
def execAttnMerge (a : Opnd) (s : State) : Result :=
  let x := s.me.opX a
  let root := s.myCore.cmroot
  s.issueAttn [
    atCause 34 (s.ownFail s.cur x (320 + 4 * attnRows root * headDim root)),
    if x.toNat % 64 ≠ 0 then some (4, x) else none]
    (s.mkCmd (.attnMerge false a) x 0 (len1 a))

/-- R261: ATTN.ST. -/
def execAttnSt (a : Opnd) (s : State) : Result :=
  let x := s.me.opX a
  let root := s.myCore.cmroot
  s.issueAttn [
    atCause 34 (s.rangeFail s.cur x (320 + 4 * attnRows root * headDim root)),
    if x.toNat % 4 ≠ 0 then some (4, x) else none]
    (s.mkCmd (.attnSt false a) x 0 (len1 a))

/-- R261: ATTN.FIN. -/
def execAttnFin (a b : Opnd) (s : State) : Result :=
  let x := s.me.opX a
  let w := s.me.opX b
  let root := s.myCore.cmroot
  let z := finBytes w
  let rows := (List.range (attnRows root)).map (fun r => x + BitVec.ofNat 64 (r * finStride root w))
  s.issueAttn [
    if 5 ≤ bits w 0 3 then some (35, formatFault 2 0) else none,
    atCause 34 (firstSome (rows.map (fun r => s.rangeFail s.cur r (headDim root * z)))),
    atCause 4 (rows.find? (fun r => decide (r.toNat % z ≠ 0))),
    if zeroBits w 3 29 then none else some (35, formatFault 2 0)]
    (s.mkCmd (.attnFin false a b) x w (len2 a b))

/-- Table 15.6: the fields of a range word. -/
def runStart (a : Word) : Nat := bits a 0 24
def runEnd (a : Word) : Nat := bits a 24 25
def runShared (a : Word) : Bool := bit a 49

/-- R259: whether the operands of ATTN.RUN are well formed. -/
def runOk (a b : Word) : Bool :=
  decide (runStart a ≤ runEnd a) && decide (runEnd a ≤ 2 ^ 24) && zeroBits a 50 14 &&
    (if runShared a then zeroBits b 58 6 && zeroBits b 0 24 else decide (b = 0))

/-- R259, R256: ATTN.RUN. -/
def execAttnRun (a b : Opnd) (s : State) : Result :=
  let x := s.me.opX a
  let w := s.me.opX b
  let root := s.myCore.cmroot
  s.engineGate (s.issueHeld (firstSome [rootFail root, if runOk x w then none else some (35, formatFault 2 0),
      if s.strictReact s.cur then some (32, root) else none])
    (s.mkCmd (.attnRun false a b) x w (len2 a b)))

/-! ## A block of ATTN.RUN (R131, R135) -/

/-- R258: the coordinate of row r, and whether it takes part. -/
def Engine.rowCoord (e : Engine) (r : Nat) : Coord :=
  let w := Tab.get 0 e.rowHead r
  ⟨bits w 0 20, bits w 20 8, bits w 28 6, 0⟩
def Engine.rowUse (e : Engine) (r : Nat) : Bool := bit (Tab.get 0 e.rowHead r) 63
def Engine.rowLimitOf (e : Engine) (r : Nat) : Nat := bits (Tab.get 0 e.rowLimit r) 0 24

/-- The page of a row in a block: the row, its coordinate, its leaf with the first reading of the counter, and the unmasked positions. -/
structure RowPage where
  row : Nat
  c : Coord
  leaf : Leaf
  ps : List Nat
  deriving DecidableEq, Repr

/-- What a row reads of a block: its page, and the keys and values of its unmasked positions by position. -/
structure RowRead where
  row : Nat
  leaf : Leaf
  kv : List (Nat × Nat × Nat)
  deriving DecidableEq, Repr

/-- R122: the addresses of the key and value rows of a position. -/
def keyAddr (root : Word) (l : Leaf) (p : Nat) : Word :=
  virtAddr (l.frame + p % pageLen root * (headDim root * elemSize root))
def valAddr (root : Word) (l : Leaf) (p : Nat) : Word :=
  virtAddr (l.frame + 2 ^ 18 + p % pageLen root * (headDim root * elemSize root))

/-- R259: the rows of a block are walked, in ascending order; the first whose page is missing faults (R135). -/
def EngRun.walkRows (e : EngRun) (root : Word) (g : Engine) (a b : Word) (base : Nat) : List Nat → List RowPage → Eng (List RowPage)
  | [], acc => .ok acc.reverse e
  | r :: t, acc =>
    let inRange (p : Nat) : Bool := decide (runStart a ≤ p) && decide (p < runEnd a)
    let ps := ((List.range 32).map (fun i => base + i)).filter (fun p => inRange p && decide (p ≤ g.rowLimitOf r))
    match (if g.rowUse r then ps else []) with
    | [] => e.walkRows root g a b base t acc
    | p :: _ =>
      let c : Coord := { (if runShared a then coordOf b else g.rowCoord r) with p := p }
      (e.walk_ root c).andThen (fun l e1 =>
        if l.present then
          e1.walkRows root g a b base t (⟨r, c, l, ps.filter (fun j => decide (j % pageLen root < l.valid))⟩ :: acc)
        else .fault 25 (c.pack 5) 0 e1)

/-- Reads the keys and values of positions of a page. -/
def EngRun.readKv (e : EngRun) (root : Word) (l : Leaf) : List Nat → List (Nat × Nat × Nat) → Eng (List (Nat × Nat × Nat))
  | [], acc => .ok acc.reverse e
  | p :: t, acc =>
    (e.read .engRead (keyAddr root l p) (headDim root * elemSize root)).andThen (fun k e1 =>
      (e1.read .engRead (valAddr root l p) (headDim root * elemSize root)).andThen (fun v e2 =>
        e2.readKv root l t ((p, k, v) :: acc)))

/-- R259: the pages of a block are read. -/
def EngRun.readRows (e : EngRun) (root : Word) : List RowPage → List RowRead → Eng (List RowRead)
  | [], acc => .ok acc.reverse e
  | q :: t, acc => (e.readKv root q.leaf q.ps []).andThen (fun kv e1 => e1.readRows root t (⟨q.row, q.leaf, kv⟩ :: acc))

/-- R116, R135: the second counter reads of a block, once its data is read: the first page whose two reads are not one even value. -/
def EngRun.recount (e : EngRun) : List RowPage → Option Coord → Eng (Option Coord)
  | [], acc => .ok acc e
  | q :: t, acc =>
    (e.read .load (virtAddr (q.leaf.addr + 8)) 4).andThen (fun v e1 =>
      e1.recount t (if acc.isNone && (decide (v % 2 = 1) || decide (v ≠ q.leaf.seqcnt)) then some q.c else acc))

/-- A query element. -/
def Engine.queryAt (e : Engine) (hd r d : Nat) : Num := Fmt.bf16.decode (Tab.get 0 e.query (hd * r + d)).toNat

/-- An element of a key or value row, in the context's format. -/
def kvElem (root : Word) (v i : Nat) : Num :=
  if bit root 9 then Fmt.e4m3.decode (v / 256 ^ i % 256) else Fmt.bf16.decode (v / 2 ^ (16 * i) % 2 ^ 16)

/-- R119, R131: the scale of a page. -/
def pageScale (root : Word) (l : Leaf) : Num := if bit root 9 then e8m0 l.scale else .fin false 1 0

/-- R131: the score of a position for a row, chunk by chunk over the head dimension. -/
def Engine.score (e : Engine) (root : Word) (scale : Word32) (r : Nat) (l : Leaf) (k : Nat) : Nat :=
  let hd := headDim root
  let acc := (List.range (hd / 32)).foldl (fun acc q =>
    accChunk acc ((List.range 32).map (fun i =>
      ((e.queryAt hd r (32 * q + i)).mul (kvElem root k (32 * q + i))).mul (pageScale root l)))) 0
  mulF acc scale.toNat

/-- R131: row r's part of the attention state after a block, of which it has read what q holds; a position that it has not read is
masked. -/
def Engine.blockRow (e : Engine) (root : Word) (scale : Word32) (base r : Nat) (q : Option RowRead) : Engine :=
  let hd := headDim root
  let kv := (q.map RowRead.kv).getD []
  let leaf := (q.map RowRead.leaf).getD ⟨0, 0, 0⟩
  let key (j : Nat) : Option (Nat × Nat × Nat) := kv.find? (fun x => decide (x.1 = base + j))
  let ss : List Nat := (List.range 32).map (fun j => match key j with
    | some x => e.score root scale r leaf x.2.1
    | none => negInf.toNat)
  let m := Tab.get negInf e.amax r
  let m' := ss.foldl (fun acc x => maxF acc (BitVec.ofNat 32 x)) m
  let c := expDiff m m'
  let p (s : Nat) : Nat := if s = negInf.toNat then 0 else (exp2R ((Fmt.f32.decode s).add .rne (Fmt.f32.decode m'.toNat).negate)).bits
  let l := ss.foldl (fun t s => addF t (p s)) (mulF (Tab.get 0 e.asum r).toNat c)
  let half (v : Nat) : Num := Fmt.bf16.decode (Fmt.bf16.pack .rne false (Fmt.f32.decode v)).bits
  let weighed : List (Num × Nat) := (ss.zip (List.range 32)).filterMap (fun x => (key x.2).map (fun y => (half (p x.1), y.2.2)))
  let o (d : Nat) : Word32 :=
    BitVec.ofNat 32 (accChunk (mulF (Tab.get 0 e.tiles (oKey r d)).toNat c)
      (weighed.map (fun x => (x.1.mul (kvElem root x.2 d)).mul (pageScale root leaf))))
  { e with
    amax := Tab.put negInf r m' e.amax
    asum := Tab.put 0 r (BitVec.ofNat 32 l) e.asum
    tiles := (List.range hd).foldl (fun ts d => Tab.put 0 (oKey r d) (o d) ts) e.tiles }

/-- R131: a block committed for every row. -/
def Engine.commitBlock (e : Engine) (root : Word) (scale : Word32) (base : Nat) (qs : List RowRead) : Engine :=
  (List.range (attnRows root)).foldl (fun acc r => acc.blockRow root scale base r (qs.find? (fun q => decide (q.row = r)))) e

/-- R137, R259: a held instruction leaves the engine, and its thread halts in full at it. -/
def State.stopHere (s : State) (core : Nat) (r : Running) : State :=
  let h := r.cmd.hart
  let s1 := (s.setCore core (s.core core).freed).wakeEngine core
  let t := s1.thread h
  s1.setThread h { t with status := .halted true, apos := if isAttnRun r.cmd.instr then r.apos else t.apos }

/-- R137, R127, R266: whether a halt stops an instruction where it stands: ATTN.RUN between blocks, CM.APPEND at a sequence boundary or in the
wait before a sequence's first increment, CM.FREE in its wait. -/
def Running.stopsHere (r : Running) : Bool :=
  match r.cmd.instr with
  | .attnRun _ _ _ => r.atBoundary && decide (r.tries = 0)
  | .cmAppend _ _ => r.atBoundary
  | .cmFree _ _ _ _ => r.calm
  | _ => false

/-- R259, R135, R137: the engine works on the next block of an ATTN.RUN: it commits it, reads it again, or faults; a halt stops it between
blocks; past the last block the instruction completes. -/
def State.runBlock (s : State) (core : Nat) (r : Running) : State :=
  let c := s.core core
  let a := r.cmd.opA
  let root := c.cmroot
  let base := r.pos / 32 * 32
  if runEnd a ≤ r.pos then s.engineDone core r (fun t => { t with apos := 0 })
  else if s.halting core && r.stopsHere then s.stopHere core r
  else match (s.engTurn r).walkRows root c.engine a r.cmd.opB base (List.range (attnRows root)) [] with
    | .stall e => s.engPaused core r e
    | .fault cause v u e => e.failed core r cause v u
    | .ok ps e => match (e.readRows root ps []).andThen (fun qs e1 => (e1.recount ps none).andThen (fun o e2 => .ok (qs, o) e2)) with
      | .stall e1 => s.engPaused core r e1
      | .fault cause v u e1 => e1.failed core r cause v u
      | .ok (_, some w) e1 =>
        if 4 ≤ r.tries + 1 then e1.failed core r 28 (({ w with p := base }).pack 0) 0
        else e1.over core r (fun s1 => s1.setRunning core { r.fresh with tries := r.tries + 1 })
      | .ok (qs, none) e1 =>
        e1.over core r (fun s1 => (s1.setEngine core (c.engine.commitBlock root r.cmd.scale base qs)).setRunning core
          { r.fresh with pos := base + 32, tries := 0 })

/-! ## The free list (R124, R125) -/

/-- The free-list block: its address and fields. -/
structure FreeList where
  addr : Nat
  ring : Word
  cap : Nat
  head : Nat
  tail : Nat
  deriving DecidableEq, Repr

/-- R125: the block that CMFREE names; a malformed one, a misaligned ring or a ring outside windows 0x10 to 0x7F is REASON 9 (log 20). -/
def EngRun.freeList (e : EngRun) : Eng FreeList :=
  let addr := 32 * bits (e.s.thread e.hart).cmfree 5 51
  (e.read .load (virtAddr addr) 32).andThen (fun v e1 =>
    let cap := v / 256 ^ 8 % 256
    let ring := v % 2 ^ 64
    if 24 < cap ∨ v / 256 ^ 9 % 256 ^ 7 ≠ 0 ∨ ring % 8 ≠ 0 ∨ ring / 2 ^ 56 < 0x10 ∨ 0x80 ≤ ring / 2 ^ 56 then
      .fault 25 (noCoord.pack 9) 0 e1
    else .ok ⟨addr, BitVec.ofNat 64 ring, cap, v / 256 ^ 16 % 2 ^ 64, v / 256 ^ 24 % 2 ^ 64⟩ e1)

/-- Pages on the list. -/
def FreeList.count (f : FreeList) : Nat := (f.tail + 2 ^ 64 - f.head) % 2 ^ 64
def FreeList.room (f : FreeList) : Nat := 2 ^ f.cap - f.count
def FreeList.slot (f : FreeList) (i : Nat) : Word := f.ring + BitVec.ofNat 64 (8 * (i % 2 ^ f.cap))

/-- R124: whether a page address is well formed. -/
def pageOk (v : Nat) : Bool := decide (v < 2 ^ 56) && decide (v % 2 ^ 19 = 0)

/-- R125: the free list as one event. -/
def EngRun.look (e : EngRun) : Eng FreeList :=
  (e.atomic (fun g => g.freeList.andThen (fun f g1 => .ok (some [f.addr, f.ring.toNat, f.cap, f.head, f.tail]) g1))).andThen (fun v e1 =>
    .ok ⟨v.getD 0 0, BitVec.ofNat 64 (v.getD 1 0), v.getD 2 0, v.getD 3 0, v.getD 4 0⟩ e1)

/-- R125: reads n entries of the ring from a count on; a bad one is REASON 9. -/
def EngRun.ringRead (e : EngRun) (f : FreeList) (i : Nat) : Nat → List Nat → Eng (List Nat)
  | 0, acc => .ok acc.reverse e
  | n + 1, acc =>
    (e.read .load (f.slot i) 8).andThen (fun v e1 =>
      if pageOk v then e1.ringRead f (i + 1) n (v :: acc) else .fault 25 (noCoord.pack 9) 0 e1)

/-- R125: pushes pages: the ring entries, then TAIL. -/
def EngRun.pushPages (e : EngRun) (f : FreeList) : Nat → List Nat → Eng Unit
  | i, [] => e.write .store (virtAddr (f.addr + 24)) 8 (i % 2 ^ 64)
  | i, v :: t => (e.write .store (f.slot i) 8 v).andThen (fun _ e1 => e1.pushPages f (i + 1) t)

/-! ## Comet instructions at issue (R263) -/

/-- R256, R263: a comet instruction that reads the tree. -/
def State.issueComet (s : State) (c : Cmd) : Result :=
  let root := s.myCore.cmroot
  s.engineGate (s.issueHeld (firstSome [rootFail root, if s.strictReact s.cur then some (32, root) else none]) c)

/-- R264: CM.APPEND. -/
def execCmAppend (a : Opnd) (s : State) : Result := s.issueComet (s.mkCmd (.cmAppend false a) (s.me.opX a) 0 (len1 a))

/-- R265: CM.FILL. -/
def execCmFill (d : Fin 32) (a b : Opnd) (s : State) : Result :=
  s.issueComet (s.mkCmd (.cmFill false d a b) (s.me.opX a) (s.me.opX b) (len2 a b))

/-- R266: CM.FREE. -/
def execCmFree (d : Fin 32) (a b : Opnd) (s : State) : Result :=
  s.issueComet (s.mkCmd (.cmFree false d a b) (s.me.opX a) (s.me.opX b) (len2 a b))

/-- R267: CM.LOOKUP. -/
def execCmLookup (d : Fin 32) (a b : Opnd) (s : State) : Result :=
  s.issueComet (s.mkCmd (.cmLookup false d a b) (s.me.opX a) (s.me.opX b) (len2 a b))

/-- R268: CM.SHARE. -/
def execCmShare (d : Fin 32) (a : Opnd) (s : State) : Result := s.issueComet (s.mkCmd (.cmShare false d a) (s.me.opX a) 0 (len1 a))

/-- R269: CM.INVAL. -/
def execCmInval (s : State) : Result := s.engineGate (s.issueHeld none (s.mkCmd (.cmInval false) 0 0 4))

/-! ## Comet instructions in the engine -/

/-- R263: a malformed operand. -/
def badOperand {α : Type} (e : EngRun) : Eng α := .fault 25 (noCoord.pack 10) 0 e

/-- R263: a structure of n bytes read at an aligned address. The addresses that structures hold, but for RING, are used as they stand wherever R58
resolves them, in the windows 0x10 to 0x7F or not (log 20). -/
def EngRun.readStruct (e : EngRun) (a : Word) (n align : Nat) : Eng Nat :=
  match e.s.rangeAt e.hart e.level a.toNat n with
  | none => .fault 34 a 0 e
  | some _ => if a.toNat % align ≠ 0 then .fault 4 a 0 e else e.read .load a n

/-- The layer and head pairs of a range, ascending. -/
def pairsOf (l0 l1 h0 h1 : Nat) : List (Nat × Nat) :=
  (List.range (l1 + 1 - l0)).flatMap (fun y => (List.range (h1 + 1 - h0)).map (fun h => (l0 + y, h0 + h)))

/-! ### Sequence counters (R116, R127) -/

/-- R127: waits until the counter of a leaf is even and makes it odd, in one event at the leaf's home: the leaf's two doublewords before it. -/
def EngRun.enterLeaf (e : EngRun) (addr : Nat) : Eng (List Nat) :=
  e.atomic (fun g =>
    (g.read .load (virtAddr addr) 16).andThen (fun v g1 =>
      let n := v / 2 ^ 64 % 2 ^ 32
      if n % 2 = 1 then .ok none g1
      else (g1.write .store (virtAddr (addr + 8)) 4 (n + 1)).andThen (fun _ g2 => .ok (some [v % 2 ^ 64, v / 2 ^ 64]) g2)))

/-- R127: waits until the counter of a leaf is even. -/
def EngRun.evenLeaf (e : EngRun) (addr : Nat) : Eng Unit :=
  (e.atomic (fun g => (g.read .load (virtAddr (addr + 8)) 4).andThen (fun n g1 =>
    .ok (if n % 2 = 1 then none else some []) g1))).andThen (fun _ e1 => .ok () e1)

/-- R127: SEQCNT + 1, in one event. -/
def EngRun.bump (e : EngRun) (addr : Nat) : Eng Unit :=
  (e.atomic (fun g => (g.read .load (virtAddr (addr + 8)) 4).andThen (fun n g1 =>
    (g1.write .store (virtAddr (addr + 8)) 4 ((n + 1) % 2 ^ 32)).andThen (fun _ g2 => .ok (some []) g2)))).andThen (fun _ e1 => .ok () e1)

/-- A wait at which no halt stops the command (R127). -/
def Eng.tense {α : Type} (x : Eng α) : Eng α :=
  match x with
  | .stall e => .stall { e with calm := false }
  | y => y

/-! ### CM.APPEND (R126, R127, R264) -/

/-- One pair of an append: its coordinate, its leaf, the page popped for a leaf that was not present, and its rows. -/
structure PairRead where
  c : Coord
  leaf : Leaf
  page : Option Nat
  key : Nat
  value : Nat
  deriving DecidableEq, Repr

/-- R126: the checks of the pairs, in order: the interior first, then SHARED. -/
def EngRun.appendCheck (e : EngRun) (root : Word) (q p : Nat) : List (Nat × Nat) → List (Coord × Leaf) → Eng (List (Coord × Leaf))
  | [], acc => .ok acc.reverse e
  | (y, hd) :: t, acc =>
    let c : Coord := ⟨q, y, hd, p⟩
    (e.walk_ root c).andThen (fun l e1 =>
      if l.shared then .fault 26 (c.pack 0) 0 e1 else e1.appendCheck root q p t ((c, l) :: acc))

/-- R264, step 1: the source rows of a sequence, pair by pair. -/
def EngRun.appendRows (e : EngRun) (n : Nat) (key val : Word) : Nat → Nat → List (Nat × Nat) → Eng (List (Nat × Nat))
  | 0, _, acc => .ok acc.reverse e
  | k + 1, i, acc =>
    (e.read .engRead (key + BitVec.ofNat 64 (i * n)) n).andThen (fun kr e1 =>
      (e1.read .engRead (val + BitVec.ofNat 64 (i * n)) n).andThen (fun vr e2 =>
        e2.appendRows n key val k (i + 1) ((kr, vr) :: acc)))

/-- R125, R264: the n pages that a pop will take. The pop itself comes later, and only if the list has not moved, so that a fault or a halt
before it leaves nothing to undo. A sequence that misses no leaf makes no pop, and does not look at the list (log 20). -/
def EngRun.popLook (e : EngRun) (n : Nat) : Eng (List Nat × Option FreeList) :=
  if n = 0 then .ok ([], none) e
  else e.look.andThen (fun f e1 =>
    if f.count < n then .fault 27 (BitVec.ofNat 64 n) 0 e1
    else (e1.ringRead f f.head n []).andThen (fun ps e2 => .ok (ps, some f) e2))

/-- R125: the pop of n pages of a list as it was looked at, one event at the block's home; false when another pop has come between. -/
def EngRun.popTake (e : EngRun) (f : Option FreeList) (n : Nat) : Eng Bool :=
  match f with
  | none => .ok true e
  | some f => (e.atomic (fun g => g.freeList.andThen (fun x g1 =>
      if x.head = f.head ∧ x.ring = f.ring ∧ x.cap = f.cap ∧ n ≤ x.count then
        (g1.write .store (virtAddr (f.addr + 16)) 8 ((f.head + n) % 2 ^ 64)).andThen (fun _ g2 => .ok (some [1]) g2)
      else .ok (some [0]) g1))).andThen (fun v e1 => .ok (decide (v.headD 0 = 1)) e1)

/-- R125, R127: the pop of pages is undone, in one event: HEAD goes back, or, when another pop has come between, the pages are pushed again. With
no room for them it waits (log 110). -/
def EngRun.popUndo (e : EngRun) (f : Option FreeList) (pages : List Nat) : Eng Unit :=
  match f with
  | none => .ok () e
  | some f => (e.atomic (fun g => g.freeList.andThen (fun x g1 =>
      if x.head = (f.head + pages.length) % 2 ^ 64 then
        (g1.write .store (virtAddr (f.addr + 16)) 8 f.head).andThen (fun _ g2 => .ok (some []) g2)
      else if x.room < pages.length then .ok none g1
      else (g1.pushPages x x.tail pages).andThen (fun _ g2 => .ok (some []) g2)))).andThen (fun _ e1 => .ok () e1)

/-- R264, step 3: the frames that a sequence writes are translated, each once. -/
def EngRun.framesOk (e : EngRun) : List Nat → Eng Unit
  | [] => .ok () e
  | va :: t =>
    match e.todo with
    | x :: rest => { e with todo := rest, made := x :: e.made }.framesOk t
    | [] => match e.s.translate e.hart.core (va % 2 ^ 56) .write with
      | .hit _ x => (e.did [0] (e.s.touch e.hart.core x)).framesOk t
      | .miss => (e.missed (va % 2 ^ 56) .write).andThen (fun _ e1 => .ok () e1)
      | .dirty => (e.soiled (va % 2 ^ 56) .write).andThen (fun _ e1 => .ok () e1)
      | .fault => .fault 15 (virtAddr va) 0 e

/-- R127: the pages popped for a sequence that meets a shared leaf stay installed in the leaves of its later pairs (log 89). -/
def EngRun.installRest (e : EngRun) : List PairRead → Eng Unit
  | [] => .ok () e
  | q :: t => match q.page with
    | none => e.installRest t
    | some page =>
      (e.atomic (fun g => (g.read .load (virtAddr q.leaf.addr) 8).andThen (fun v g1 =>
        if v % 2 = 1 then .ok (some []) g1
        else (g1.write .store (virtAddr q.leaf.addr) 8 (page + 4 * g1.owner.toNat + 1)).andThen (fun _ g2 => .ok (some []) g2)))).andThen
        (fun _ e1 => e1.installRest t)

/-- R127: a pair whose counter is odd is written, in order. `now` is its leaf in memory at the increment. -/
def EngRun.writePair (e : EngRun) (root : Word) (scale : Nat) (q : PairRead) (now : Leaf) : Eng Unit :=
  let n := headDim root * elemSize root
  let fresh := q.page.isSome && !now.present
  let dw0 : Word := if fresh then BitVec.ofNat 64 (q.page.getD 0 + 4 * e.owner.toNat + 1) else if q.page.isSome then now.dw0 else q.leaf.dw0
  let l : Leaf := { now with dw0 := dw0 }
  let valid := max now.valid (q.c.p % pageLen root + 1)
  (if fresh then e.write .store (virtAddr l.addr) 8 dw0.toNat else .ok () e).andThen (fun _ e1 =>
    (e1.write .store (keyAddr root l q.c.p) n q.key).andThen (fun _ e2 =>
      (e2.write .store (valAddr root l q.c.p) n q.value).andThen (fun _ e3 =>
        (if bit root 9 then e3.write .store (virtAddr (l.addr + 12)) 3 (valid + 2 ^ 16 * scale)
          else e3.write .store (virtAddr (l.addr + 12)) 2 valid).andThen (fun _ e4 =>
          (e4.bump l.addr).andThen (fun _ e5 => .ok () (e5.cometPut root q.c l))))))

/-- R127: a pair whose counter has been made odd; the leaf's doublewords before it are given. -/
def EngRun.enteredPair (e : EngRun) (root : Word) (scale : Nat) (q : PairRead) (v : List Nat) (t : List PairRead) : Eng Unit :=
  let now : Leaf := ⟨q.leaf.addr, BitVec.ofNat 64 (v.getD 0 0), BitVec.ofNat 64 (v.getD 1 0)⟩
  if now.shared then
    (e.bump now.addr).andThen (fun _ e1 => (e1.installRest t).andThen (fun _ e2 => .fault 26 (q.c.pack 0) 0 e2))
  else e.writePair root scale q now

/-- R127: the pairs of a sequence that has begun, in order. -/
def EngRun.appendPairs (e : EngRun) (root : Word) (scale : Nat) : List PairRead → Eng Unit
  | [] => .ok () e
  | q :: t => (e.enterLeaf q.leaf.addr).andThen (fun v e1 =>
      (e1.enteredPair root scale q v t).andThen (fun _ e2 => e2.appendPairs root scale t))

/-- R126, R127: the pop and the first counter increment of a sequence: the first counter is waited for, the pages are popped, and the counter is made
odd. False when the sequence must be looked at again: another pop has come between, or a halt has found the wait, before the increment, for a
counter that has become odd since, and the pop is undone; a fault there undoes it too (log 110). -/
def EngRun.appendFirst (e : EngRun) (pop : Option FreeList) (pages : List Nat) (addr : Nat) : Eng (Option (List Nat)) :=
  (e.evenLeaf addr).andThen (fun _ e1 =>
    (e1.popTake pop pages.length).andThen (fun ok e2 =>
      if !ok then .ok none e2
      else match e2.enterLeaf addr with
        | .ok v e3 => .ok (some v) e3
        | .stall e3 =>
          if e3.calm && pop.isNone then .stall e3
          else if e3.calm && e2.halting then ((e2.popUndo pop pages).andThen (fun _ e4 => .ok none { e4 with calm := true })).tense
          else .stall { e3 with calm := false }
        | .fault k v u e3 => match e2.popUndo pop pages with
          | .stall e4 => .stall { e4 with calm := false }
          | _ => .fault k v u e3))

/-- R127: the pairs of a sequence with their rows, and the popped pages where a leaf was not present. -/
def pairReads : List (Coord × Leaf) → List Nat → List (Nat × Nat) → List PairRead
  | (c, l) :: t, ps, rows =>
    let r := rows.headD (0, 0)
    if l.present then ⟨c, l, none, r.1, r.2⟩ :: pairReads t ps rows.tail
    else ⟨c, l, some (ps.headD 0), r.1, r.2⟩ :: pairReads t ps.tail rows.tail
  | [], _, _ => []

/-- R264, R127: one sequence of CM.APPEND. When another pop has come between, the turn ends, and the list is looked at again. -/
def EngRun.appendSeq (e : EngRun) (root : Word) (v i : Nat) : Eng Unit :=
  let d0 : Word := BitVec.ofNat 64 v
  let f (k : Nat) : Word := BitVec.ofNat 64 (v / 2 ^ (64 * k))
  let pairs := pairsOf (bits d0 20 8) (bits d0 28 8) (bits d0 36 6) (bits d0 42 6)
  (e.readStruct (f 1 + BitVec.ofNat 64 (8 * i)) 8 8).andThen (fun entry e1 =>
    let q := entry % 2 ^ 20
    let p := entry / 2 ^ 20 % 2 ^ 24
    if entry / 2 ^ 44 ≠ 0 then badOperand e1
    else (e1.appendRows (headDim root * elemSize root) (f 2) (f 3) pairs.length (i * pairs.length) []).andThen (fun rows e2 =>
      (e2.appendCheck root q p pairs []).andThen (fun leaves e3 =>
        let n := (leaves.filter (fun x => !x.2.present)).length
        (e3.popLook n).andThen (fun pop e4 =>
          let ps := pairReads leaves pop.1 rows
          (e4.framesOk (ps.flatMap (fun x => [x.page.getD x.leaf.frame, x.leaf.addr]))).andThen (fun _ e5 =>
            match ps with
            | [] => .ok () e5
            | p :: t => (e5.appendFirst pop.2 pop.1 p.leaf.addr).andThen (fun o e6 => match o with
              | none => .stall { e6 with made := e3.made }
              | some w => ((e6.enteredPair root (v / 256 ^ 32 % 256) p w t).andThen (fun _ e7 =>
                  e7.appendPairs root (v / 256 ^ 32 % 256) t)).tense))))))

/-- Table 15.10: whether a batch descriptor is well formed. -/
def batchOk (root : Word) (v : Nat) : Bool :=
  let d0 : Word := BitVec.ofNat 64 v
  zeroBits d0 48 16 && decide (bits d0 36 6 ≤ bits d0 42 6) && decide (bits d0 20 8 ≤ bits d0 28 8) &&
    decide (bits d0 0 20 ≠ 0) && decide (v / 256 ^ 33 % 256 ^ 7 = 0) && (bit root 9 || decide (v / 256 ^ 32 % 256 = 0))

/-- What a comet instruction comes to: its result, or a sequence of CM.APPEND after which it goes on. -/
abbrev CometRes := Eng (Option Word)

/-- R264, R126: the engine works on the next sequence of CM.APPEND. -/
def EngRun.appendStep (e : EngRun) (root : Word) (a : Word) : CometRes :=
  (e.readStruct a 40 8).andThen (fun v e1 =>
    if !batchOk root v then badOperand e1
    else
      let n := v % 2 ^ 20
      let done := (e1.s.thread e1.hart).cmprog.toNat
      let put (e2 : EngRun) (k : Nat) : EngRun :=
        { e2 with s := e2.s.setThread e2.hart { e2.s.thread e2.hart with cmprog := BitVec.ofNat 20 k } }
      if n ≤ done then .ok (some 0) (put e1 0)
      else (e1.appendSeq root v done).andThen (fun _ e2 =>
        if n ≤ done + 1 then .ok (some 0) (put e2 0) else .ok none (put e2 (done + 1))))

/-! ### The other comet instructions (R265 to R269) -/

/-- R265: the entries that CM.FILL pushes. -/
def EngRun.fillRead (e : EngRun) (a : Word) : Nat → List Nat → Eng (List Nat)
  | 0, acc => .ok acc.reverse e
  | n + 1, acc =>
    (e.readStruct a 8 8).andThen (fun v e1 => if pageOk v then e1.fillRead (a + 8) n (v :: acc) else badOperand e1)

/-- R125, R265: the push of pages as one event, whose room must be the one that they were chosen for: how many are pushed, or
nothing when the list has moved. -/
def EngRun.push (e : EngRun) (want : Nat) (pages : List Nat) : Eng (Option Nat) :=
  (e.atomic (fun g => g.freeList.andThen (fun f g1 =>
    if min want f.room ≠ pages.length then .ok (some [0]) g1
    else if pages = [] then .ok (some [1]) g1
    else (g1.pushPages f f.tail pages).andThen (fun _ g2 => .ok (some [1]) g2)))).andThen (fun v e1 =>
      .ok (if v.headD 0 = 1 then some pages.length else none) e1)

/-- R265: CM.FILL. -/
def EngRun.doFill (e : EngRun) (a b : Word) : CometRes :=
  if b = 0 then .ok (some 0) e
  else e.look.andThen (fun f e1 =>
    (e1.fillRead a (min b.toNat f.room) []).andThen (fun ps e2 =>
      (e2.push b.toNat ps).andThen (fun k e3 => match k with
        | some n => .ok (some (BitVec.ofNat 64 n)) e3
        | none => .stall { e3 with made := e.made })))

/-- R266: the leaf is unlinked, under its counter. -/
def EngRun.unlink (e : EngRun) (root : Word) (c : Coord) (l : Leaf) : Eng Unit :=
  (e.enterLeaf l.addr).andThen (fun _ e1 =>
    ((e1.write .store (virtAddr l.addr) 8 0).andThen (fun _ e2 =>
      (e2.write .store (virtAddr (l.addr + 12)) 2 0).andThen (fun _ e3 =>
        (e3.bump l.addr).andThen (fun _ e4 =>
          .ok () { e4 with s := e4.s.setCore e4.hart.core ((e4.s.core e4.hart.core).cometDrop root c) })))).tense)

/-- R266: CM.FREE. A list that has filled up since it was looked at takes no page (log 20). -/
def EngRun.doFree (e : EngRun) (root : Word) (a b : Word) : CometRes :=
  let c := coordOf a
  if !zeroBits a 58 6 || !zeroBits b 1 63 then badOperand e
  else (e.walk_ root c).andThen (fun l e1 =>
    if !l.present then .fault 25 (c.pack 5) 0 e1
    else if bit b 0 && !l.shared then
      e1.look.andThen (fun f e2 =>
        if f.room = 0 then .ok (some 2) e2
        else (e2.unlink root c l).andThen (fun _ e3 =>
          ((e3.push 1 [l.frame]).andThen (fun _ e4 => .ok (some 1) e4)).tense))
    else (e1.unlink root c l).andThen (fun _ e2 => .ok (some 0) e2))

/-- R128: whether a prefix-index entry keeps its RES0 fields at 0. -/
def indexOk (v : Nat) : Bool := decide (v / 2 ^ 100 % 2 ^ 27 = 0) && decide (v / 2 ^ 192 % 2 ^ 64 = 0)

/-- R267: the probes of CM.LOOKUP that a list names, each entry read as one event; a malformed one counts as a malformed operand (R7, log 20). -/
def EngRun.probe (e : EngRun) (base : Word) (lg : Nat) (hash : Word) : List Nat → Nat → Eng Nat
  | [], acc => .ok acc e
  | n :: t, acc =>
    (e.atomic (fun g => (g.read .load (base + BitVec.ofNat 64 (32 * ((hash.toNat + n) % 2 ^ lg))) 32).andThen (fun v g1 =>
      .ok (some [v]) g1))).andThen (fun w e1 =>
        let v := w.headD 0
        if !indexOk v then badOperand e1
        else e1.probe base lg hash t (if v % 2 ^ 64 = hash.toNat ∧ v / 2 ^ 127 % 2 = 1 then acc + 2 ^ n else acc))

/-- R267: CM.LOOKUP, whose probes come in any order. -/
def EngRun.doLookup (e : EngRun) (a b : Word) : CometRes :=
  (e.readStruct a 16 8).andThen (fun v e1 =>
    let lg := v / 2 ^ 64
    if v % 32 ≠ 0 ∨ 32 < lg then badOperand e1
    else e1.choose.andThen (fun w e2 =>
      (e2.probe (BitVec.ofNat 64 v) lg b (permute w 16 (List.range 16)) 0).andThen (fun m e3 => .ok (some (BitVec.ofNat 64 m)) e3)))

/-- R129: the tokens from two addresses on are compared, n of them. -/
def EngRun.sameTokens (e : EngRun) (x y : Word) : Nat → Eng Bool
  | 0 => .ok true e
  | n + 1 =>
    (e.readStruct x 4 4).andThen (fun u e1 =>
      (e1.readStruct y 4 4).andThen (fun v e2 => if u = v then e2.sameTokens (x + 4) (y + 4) n else .ok false e2))

/-- R129: the donor's page of one position, if a share may link it; none where the pair stops. -/
def EngRun.donorLeaf (e : EngRun) (root : Word) (c : Coord) : Eng (Option Leaf) :=
  match e.walk_ root c with
  | .fault 25 v u e1 => if 1 ≤ bits v 58 4 ∧ bits v 58 4 ≤ 5 then .ok none e1 else .fault 25 v u e1
  | .fault k v u e1 => .fault k v u e1
  | .stall e1 => .stall e1
  | .ok l e1 => .ok (if l.present ∧ l.valid = pageLen root then some l else none) e1

/-- R129: a donor leaf is linked to a requester leaf: SHARED by one atomic OR on memory, then doubleword 1 once the donor's counter in it is even, and
doubleword 0, which are copied with SHARED = 1 in any order, each word by an event of its own (R105). -/
def EngRun.link (e : EngRun) (root : Word) (dc rc : Coord) (donor req : Nat) : Eng Unit :=
  (e.atomic (fun g => (g.read .load (virtAddr donor) 8).andThen (fun v g1 =>
    (g1.write .store (virtAddr donor) 8 (v ||| 2)).andThen (fun _ g2 => .ok (some []) g2)))).andThen (fun _ e1 =>
    (e1.atomic (fun g => (g.read .load (virtAddr (donor + 8)) 8).andThen (fun v g1 =>
      if v % 2 = 1 then .ok none g1 else .ok (some [v]) g1))).tense.andThen (fun w e2 =>
      (e2.read .load (virtAddr donor) 8).andThen (fun x e3 => e3.choose.andThen (fun o e4 =>
        let d0 : Word := BitVec.ofNat 64 x ||| 2
        let d1 : Word := BitVec.ofNat 64 (w.headD 0)
        let put0 (g : EngRun) : Eng Unit := g.write .store (virtAddr req) 8 d0.toNat
        let put1 (g : EngRun) : Eng Unit := g.write .store (virtAddr (req + 8)) 8 d1.toNat
        (if o % 2 = 0 then (put0 e4).andThen (fun _ g => put1 g) else (put1 e4).andThen (fun _ g => put0 g)).andThen (fun _ e5 =>
          .ok () ((e5.cometPut root dc ⟨donor, d0, d1⟩).cometPut root rc ⟨req, d0, d1⟩))))))

/-- R129, R268: the pages of one pair from page j on, n of them: how many are linked. -/
def EngRun.sharePages (e : EngRun) (root : Word) (donor req y hd : Nat) : Nat → Nat → Nat → Eng Nat
  | 0, _, acc => .ok acc e
  | n + 1, j, acc =>
    let dc : Coord := ⟨donor, y, hd, j * pageLen root⟩
    let rc : Coord := ⟨req, y, hd, j * pageLen root⟩
    (e.donorLeaf root dc).andThen (fun d e1 =>
      match d with
      | none => .ok acc e1
      | some l =>
        (e1.walk_ root rc).andThen (fun r e2 =>
          if !r.present then (e2.link root dc rc l.addr r.addr).andThen (fun _ e3 => e3.sharePages root donor req y hd n (j + 1) (acc + 1))
          else if r.frame = l.frame then e2.sharePages root donor req y hd n (j + 1) (acc + 1)
          else .ok acc e2))

def EngRun.sharePairs (e : EngRun) (root : Word) (donor req n : Nat) : List (Nat × Nat) → Nat → Eng Nat
  | [], acc => .ok acc e
  | (y, hd) :: t, acc =>
    (e.sharePages root donor req y hd n 0 0).andThen (fun k e1 => e1.sharePairs root donor req n t (acc + k))

/-- R268: CM.SHARE. -/
def EngRun.doShare (e : EngRun) (root : Word) (a : Word) : CometRes :=
  (e.readStruct a 32 8).andThen (fun v e1 =>
    let d1 : Word := BitVec.ofNat 64 (v / 2 ^ 64)
    if !zeroBits d1 48 16 || decide (v / 2 ^ 192 ≠ 0) || decide (bits d1 42 6 < bits d1 36 6) || decide (bits d1 28 8 < bits d1 20 8) then
      badOperand e1
    else (e1.readStruct (BitVec.ofNat 64 v) 32 8).andThen (fun x e2 =>
      let x1 : Word := BitVec.ofNat 64 (x / 2 ^ 64)
      let pages := bits x1 20 16
      if !indexOk x then badOperand e2
      else if !bit x1 63 then .ok (some 0) e2
      else (e2.sameTokens (BitVec.ofNat 64 (v / 2 ^ 128)) (BitVec.ofNat 64 (x / 2 ^ 128)) (pages * pageLen root)).andThen (fun same e3 =>
        if !same then .ok (some 0) e3
        else (e3.sharePairs root (bits x1 0 20) (bits d1 0 20) pages
          (pairsOf (bits d1 20 8) (bits d1 28 8) (bits d1 36 6) (bits d1 42 6)) 0).andThen (fun k e4 =>
            .ok (some (BitVec.ofNat 64 (2 ^ 63 + k % 2 ^ 32))) e4))))

/-- R263 to R269: what the executing comet instruction does in the engine. -/
def EngRun.comet (e : EngRun) (r : Running) : CometRes :=
  let root := (e.s.core e.hart.core).cmroot
  match r.cmd.instr with
  | .cmAppend _ _ => e.appendStep root r.cmd.opA
  | .cmFill _ _ _ _ => e.doFill r.cmd.opA r.cmd.opB
  | .cmFree _ _ _ _ => e.doFree root r.cmd.opA r.cmd.opB
  | .cmLookup _ _ _ _ => e.doLookup r.cmd.opA r.cmd.opB
  | .cmShare _ _ _ => e.doShare root r.cmd.opA
  | _ => .ok (some 0) { e with s := e.s.setCore e.hart.core { e.s.core e.hart.core with comet := [] } }

/-- The destination register of a held instruction. -/
def heldDest : Instr → Option (Fin 32)
  | .cmFill _ d _ _ => some d
  | .cmFree _ d _ _ => some d
  | .cmLookup _ d _ _ => some d
  | .cmShare _ d _ => some d
  | _ => none

/-- R256: a comet instruction in the engine goes on, completes with its result, or faults at its own pc. -/
def State.runComet (s : State) (core : Nat) (r : Running) : State :=
  if s.halting core && r.stopsHere then s.stopHere core r
  else match (s.engTurn r).comet r with
  | .stall e => s.engPaused core r e
  | .fault cause v u e => e.failed core r cause v u
  | .ok none e => e.over core r (fun s1 => s1.setRunning core r.fresh)
  | .ok (some v) e => e.over core r (fun s1 => s1.engineDone core r (fun t => match heldDest r.cmd.instr with
    | some d => t.setX d v
    | none => t))

/-- R256: a held command makes no access before its thread's earlier accesses at .dev have been performed; CM.INVAL makes none. -/
def State.heldWaits (s : State) (r : Running) : Bool :=
  isHeld r.cmd.instr && decide (r.cmd.instr ≠ .cmInval false) && s.outstandingIn r.cmd.hart .dev

/-- R227: the executing command goes on as far as it can in one turn. -/
def State.runRunning (s : State) (core : Nat) (r : Running) : State :=
  let writes (r1 : Running) : State := s.runWrites core r1 false
  let firstWrites : State := writes { r with row := 1, out := (s.core core).engine.writes (s.core core).cmroot r.cmd }
  match r.cmd.instr with
  | .mxDrain _ _ _ _ => s.runWrites core r (r.draining || decide (r.row < 32))
  | .attnFin _ _ _ => if r.row = 0 then firstWrites else writes r
  | .attnSt _ _ => if r.row = 0 then firstWrites else writes r
  | .attnRun _ _ _ => s.runBlock core r
  | .cmAppend _ _ => s.runComet core r
  | .cmFill _ _ _ _ => s.runComet core r
  | .cmFree _ _ _ _ => s.runComet core r
  | .cmLookup _ _ _ _ => s.runComet core r
  | .cmShare _ _ _ => s.runComet core r
  | .cmInval _ => s.runComet core r
  | _ => s.runCommand core r

/-- R227: the engine works on its executing command, or on an MX.LDW that has started behind it; a command whose access was discarded with
its stopped node (R363) leaves the engine. -/
def execMatrixCommandCompletion (core : Nat) (s : State) : Result :=
  let c := s.core core
  match c.running with
  | none => .next s
  | some r =>
    let (w, s1) := s.draw
    .next (match (if bit w 0 then c.loading else none) with
    | some l =>
      if s.forsaken l.port then s1.setCore core { c with loading := none } else s1.runLoading core l
    | none =>
      if s.forsaken r.port then (s1.setCore core c.freed).wakeEngine core
      else if s.heldWaits r then s
      else s1.runRunning core r)

end Sys2Proof.Machine
end

