-- ==== Sys2Proof/Machine/Transfer.lean ====
section
/-! DEFINITION. Block transfers, major 0x1C (R247 to R253, R63, R64): the launch, the checks, the moving of elements, the
completion record and cancellation. -/

namespace Sys2Proof.Machine

/-- The transfers of a thread that are launched and have no record appended (R248). -/
def State.transfersOf (s : State) (h : Hart) : Nat :=
  ((s.cluster (clusterOf h.core)).transfers.filter (fun x => decide (x.hart = h))).length +
    (s.net.filter (fun m => match m with
      | .record _ dst e _ => decide (dst = h.core) && decide ((headerDst (e.setWidth 64)).val = h.th)
      | _ => false)).length

/-- R248: the identifier of a launch. -/
def transferId (h : Hart) (seq : BitVec 32) : Word :=
  BitVec.ofNat 64 (2 * 2 ^ 62 + h.core % 2 ^ 12 * 2 ^ 36 + h.th % 4 * 2 ^ 32 + seq.toNat)

/-- R248: XF.GO. -/
def execXfGo (d : Fin 32) (s : State) : Result :=
  let h := s.cur
  let t := s.me
  if isDrain h || isSpill h then s.misuse 7
  else if s.strictReact h then s.trapMe 32 t.xf.src
  else if 8 ≤ s.transfersOf h then s.block .place
  else
    let c := s.myCore
    let seq := t.seq + 1
    let id := transferId h seq
    let x : Transfer := ⟨id, h, t.level, c.mowner, c.mcontext, t.xf, c.fmts, s.nextId, false, none, 0, [], .idle, none, false⟩
    let k := clusterOf h.core
    let s1 := s.setCluster k { s.cluster k with transfers := (s.cluster k).transfers ++ [x] }
    .next (s1.retire ({ t with seq := seq }.setX d id) 4)

/-! ## The walk (R249) -/

def XferRegs.extent (x : XferRegs) (i : Nat) : Nat := (x.shape[i % 4]'(Nat.mod_lt _ (by decide))).toNat
def XferRegs.rows (x : XferRegs) : Nat := x.extent 1 * x.extent 2 * x.extent 3
def XferRegs.total (x : XferRegs) : Nat := x.extent 0 * x.rows

/-- The offset of row r, counted in walk order, under three strides. -/
def XferRegs.rowOff (x : XferRegs) (st : Vector Word 3) (r : Nat) : Word :=
  BitVec.ofNat 64 (r % x.extent 1) * st[0] + BitVec.ofNat 64 (r / x.extent 1 % x.extent 2) * st[1] +
    BitVec.ofNat 64 (r / x.extent 1 / x.extent 2) * st[2]

def XferRegs.srcRow (x : XferRegs) (r : Nat) : Word := x.src + x.rowOff x.sstride r
def XferRegs.dstRow (x : XferRegs) (r : Nat) : Word := x.dst + x.rowOff x.dstride r

/-- R249, R12: the first failing address of a walk of rows of n bytes, at the level of the launch. -/
def State.walkFail (s : State) (h : Hart) (l : Level) (row : Nat → Word) (n rows : Nat) : Option Word :=
  (List.range rows).findSome? (fun r =>
    match s.rangeAt h l (row r).toNat n with
    | some _ => none
    | none => ((List.range n).find? (fun i => (s.resolveAt h l ((row r).toNat + i)).isNone || decide (2 ^ 64 ≤ (row r).toNat + i))).map
        (fun i => row r + BitVec.ofNat 64 i))

/-! ## Formats (R62 to R64) -/

/-- The bits of an element of a bank format; RAW counts as bytes. -/
def fmtBits (f : Nat) : Nat :=
  if f = 1 ∨ f = 6 then 32 else if f = 2 ∨ f = 3 ∨ f = 7 then 16 else if f = 9 then 4 else 8

/-- The format of the place that a target names: RAW outside local SRAM. -/
def State.fmtAt (s : State) (x : Transfer) (t : Target) : Nat :=
  match t with
  | .sram (.core c) off =>
    let fmts := if c = x.hart.core then x.fmts else (s.core c).fmts
    (fmts[off / 0x1C000 % 16]'(Nat.mod_lt _ (by decide))).toNat
  | _ => 0

/-- The formats of the banks that n bytes at an address span. -/
def State.fmtsOfRange (s : State) (x : Transfer) (a : Word) (n : Nat) : List Nat :=
  match s.resolveAt x.hart x.level a.toNat, s.resolveAt x.hart x.level (a.toNat + (n - 1)) with
  | some (.sram (.core c) off), some (.sram (.core c') off') =>
    if c = c' then
      (List.range (off' / 0x1C000 - off / 0x1C000 + 1)).map (fun i => s.fmtAt x (.sram (.core c) (off + 0x1C000 * i)))
    else [s.fmtAt x (.sram (.core c) off), s.fmtAt x (.sram (.core c') off')]
  | some t, some t' => [s.fmtAt x t, s.fmtAt x t']
  | _, _ => [0]

/-- R63: the single format of an end, if it has one. -/
def State.endFmt (s : State) (x : Transfer) (row : Nat → Word) (n : Nat) : Option Nat :=
  let fs := (List.range x.regs.rows).flatMap (fun r => s.fmtsOfRange x (row r) n)
  let f := fs.headD 0
  if fs.all (fun g => decide (g = f)) then some f else none

/-- R249: the elements of a row and the bytes of a destination row, when elements of sb bits become elements of db bits. -/
def rowElems (x : XferRegs) (sb : Nat) : Nat := x.extent 0 * 8 / sb
def dstBytes (x : XferRegs) (sb db : Nat) : Nat := (rowElems x sb * db + 7) / 8

/-- R63, R249: the checks before any byte moves: a status with its address, or the formats of a converting transfer. -/
def State.transferCheck (s : State) (x : Transfer) : (Nat × Word) ⊕ Option (Nat × Nat) :=
  let r := x.regs
  if r.total = 0 ∨ 2 ^ 40 < r.total then .inl (3, 0)
  else match s.walkFail x.hart x.level r.srcRow (r.extent 0) r.rows with
    | some a => .inl (4, a)
    | none =>
      let fs := s.endFmt x r.srcRow (r.extent 0)
      let fd0 := match s.resolveAt x.hart x.level (r.dstRow 0).toNat with
        | some t => s.fmtAt x t
        | none => 0
      let conv : Bool := match fs with
        | some f => decide (f ≠ 0) && decide (fd0 ≠ 0) && decide (f ≠ fd0) && decide (f ≠ 10) && decide (fd0 ≠ 10)
        | none => false
      let n := if conv then dstBytes r (fmtBits (fs.getD 0)) (fmtBits fd0) else r.extent 0
      match s.walkFail x.hart x.level r.dstRow n r.rows with
      | some a => .inl (4, a)
      | none =>
        match fs, s.endFmt x r.dstRow n with
        | none, some 0 => .inr none
        | some 0, none => .inr none
        | none, _ => .inl (2, 0)
        | _, none => .inl (2, 0)
        | some f, some g =>
          if f = 0 ∨ g = 0 ∨ f = g then .inr none
          else
            let aligned (row : Nat → Word) (b : Nat) : Bool :=
              (List.range r.rows).all (fun k => decide ((row k).toNat % (b / 8) = 0) || decide (b < 8))
            if f = 10 ∨ g = 10 ∨ r.extent 0 * 8 % fmtBits f ≠ 0 ∨ !aligned r.srcRow (fmtBits f) ∨ !aligned r.dstRow (fmtBits g) then
              .inl (2, 0)
            else .inr (some (f, g))

/-- The value of an element's code in a bank format. -/
def fmtValue (f c : Nat) : Num :=
  match f with
  | 1 => Fmt.f32.decode c | 2 => Fmt.bf16.decode c | 3 => Fmt.f16.decode c | 4 => Fmt.e4m3.decode c | 5 => Fmt.e5m2.decode c
  | _ => Num.ofInt (sext (fmtBits f) c)

/-- R63: an element's code converted between formats, with RNE and saturation; a NaN gives 0 in an integer. -/
def convertCode (f g c : Nat) : Nat :=
  let v := fmtValue f c
  match g with
  | 1 => (Fmt.f32.pack .rne true v).bits
  | 2 => (Fmt.bf16.pack .rne true v).bits
  | 3 => (Fmt.f16.pack .rne true v).bits
  | 4 => (Fmt.e4m3.pack .rne true v).bits
  | 5 => (Fmt.e5m2.pack .rne true v).bits
  | _ =>
    let w := fmtBits g
    ofSigned w (cvtInt .rne (-(2 ^ (w - 1) : Int)) (2 ^ (w - 1) - 1) v).1

/-! ## Moving (R249 to R251) -/

def Transfer.srcBits (x : Transfer) : Nat := match x.convert with
  | some (f, _) => fmtBits f
  | none => 8
def Transfer.dstBits (x : Transfer) : Nat := match x.convert with
  | some (_, g) => fmtBits g
  | none => 8
def Transfer.rowLen (x : Transfer) : Nat := rowElems x.regs x.srcBits
def Transfer.elems (x : Transfer) : Nat := x.rowLen * x.regs.rows

/-- The codes of n elements of b bits in a number. -/
def codesOf (b n v : Nat) : List Nat := (List.range n).map (fun i => v / 2 ^ (b * i) % 2 ^ b)

/-- Codes of b bits as a number. -/
def codesNat (b : Nat) : List Nat → Nat
  | [] => 0
  | c :: t => c % 2 ^ b + 2 ^ b * codesNat b t

/-- The next piece of the source to read: the rest of the row within one word: its address and bytes. -/
def Transfer.nextRead (x : Transfer) : Word × Nat :=
  let e := x.done + x.buf.length
  let off := e % x.rowLen * x.srcBits / 8
  let a := x.regs.srcRow (e / x.rowLen) + BitVec.ofNat 64 off
  (a, min (x.regs.extent 0 - off) (8 - a.toNat % 8))

/-- The next piece of the destination to write: its address, bytes and elements. -/
def Transfer.nextWrite (x : Transfer) : Word × Nat × Nat :=
  let off := x.done % x.rowLen * x.dstBits / 8
  let a := x.regs.dstRow (x.done / x.rowLen) + BitVec.ofNat 64 off
  let left := x.rowLen - x.done % x.rowLen
  let room := (8 - a.toNat % 8) * 8 / x.dstBits
  (a, (min left room * x.dstBits + 7) / 8, min left room)

/-- The number that a write of codes stores; a last half byte leaves the other half as it stands. -/
def State.writeValue (s : State) (x : Transfer) (a : Word) (bytes : Nat) (cs : List Nat) : Nat :=
  let v := codesNat x.dstBits (cs.map (fun c => match x.convert with
    | some (f, g) => convertCode f g c
    | none => c))
  if cs.length * x.dstBits % 8 = 0 then v
  else match s.resolveAt x.hart x.level (a.toNat + (bytes - 1)) with
    | some (.sram p off) => v + 2 ^ (cs.length * x.dstBits) * ((s.sram p).readFor x.owner off 1 / 16)
    | _ => v

/-- Table 14.16: the status of a fault in flight. -/
def faultStatus (cause : Nat) : Nat := if cause = 24 then 6 else if cause = 40 then 7 else if cause = 34 then 4 else 5

/-- R105: one access of a transfer: a write when the elements of the next piece are read, otherwise a read. -/
def EngRun.moveOne (e : EngRun) (x : Transfer) : Eng Transfer :=
  let w := x.nextWrite
  if w.2.2 ≤ x.buf.length then
    (e.word .engWrite .store w.1 w.2.1 (e.s.writeValue x w.1 w.2.1 (x.buf.take w.2.2))).andThen (fun _ e1 =>
      .ok { x with done := x.done + w.2.2, buf := x.buf.drop w.2.2 } e1)
  else
    let r := x.nextRead
    (e.word .engRead .load r.1 r.2 0).andThen (fun v e1 => .ok { x with buf := x.buf ++ codesOf x.srcBits (r.2 * 8 / x.srcBits) v } e1)

/-- A turn of a transfer, of at most n accesses: how far it comes. -/
def EngRun.moveAll (e : EngRun) (x : Transfer) : Nat → Transfer × Eng Unit
  | 0 => (x, .stall e)
  | n + 1 =>
    if x.elems ≤ x.done then (x, .ok () e)
    else match e.moveOne x with
      | .ok x1 e1 => e1.moveAll x1 n
      | .stall e1 => (x, .stall e1)
      | .fault c v u e1 => (x, .fault c v u e1)

/-- R249: the issuing core as it stood at the launch: its context and owner are those of the record. -/
def State.asLaunched (s : State) (x : Transfer) : State :=
  s.setCore x.hart.core { s.core x.hart.core with mowner := x.owner, mcontext := x.ctx }

/-- The machine with the core's own context and owner again. -/
def State.asNow (s1 : State) (s : State) (x : Transfer) : State :=
  s1.setCore x.hart.core { s1.core x.hart.core with mowner := (s.core x.hart.core).mowner, mcontext := (s.core x.hart.core).mcontext }

/-- Table 14.15: the completion record. -/
def Transfer.record (x : Transfer) (status : Nat) (fail : Word) (info : BitVec 14) : BitVec 512 :=
  let count := if status = 0 then x.regs.total else x.done * x.srcBits / 8
  BitVec.ofNat 512 (x.id.toNat + 2 ^ 64 * (status + 2 ^ 8 * x.regs.user.toNat + 2 ^ 16 * x.regs.irq.toNat) + 2 ^ 128 * count +
    2 ^ 192 * fail.toNat + 2 ^ 256 * info.toNat)

/-- The cluster's transfers with one replaced. -/
def State.putTransfer (s : State) (k : Nat) (x : Transfer) : State :=
  s.setCluster k { s.cluster k with transfers := (s.cluster k).transfers.map (fun y => if y.id = x.id then x else y) }

/-- A transfer leaves its engine, with the access that it waits for. -/
def State.dropTransfer (s : State) (k : Nat) (x : Transfer) : State :=
  let s1 := s.withdraw x.port.wait.toList
  s1.setCluster k { s1.cluster k with transfers := (s1.cluster k).transfers.filter (fun y => decide (y.id ≠ x.id)) }

/-- R251: a transfer ends, and its record travels to the issuer; none when its thread has exited. -/
def State.endTransfer (s : State) (k : Nat) (x : Transfer) (status : Nat) (fail : Word) (info : BitVec 14) : State :=
  let s1 := s.dropTransfer k x
  if x.gone then s1
  else
    let (n, s2) := s1.fresh
    s2.send (.record n x.hart.core (x.record status fail info) x.regs.irq)

/-- R78, R251: a refusal stops the transfer and is reported, with NEST 1, as a trap of the issuing thread; no record follows. -/
def State.refuseTransfer (s : State) (k : Nat) (x : Transfer) (addr : Word) (info : BitVec 14) : State :=
  let s1 := s.dropTransfer k x
  s1.report (s1.reportOf x.hart 24 addr info true)

/-- R249, R250: the engine takes the oldest transfer that has not begun, while fewer than four are in progress, and checks it. -/
def execTransferStart (cluster : Nat) (s : State) : Result :=
  let ts := (s.cluster cluster).transfers
  match ts.find? (fun x => !x.started) with
  | none => .next s
  | some x =>
    if 4 ≤ (ts.filter (fun y => y.started)).length then .next s
    else
      let x1 := match (s.asLaunched x).transferCheck x with
        | .inl (st, a) => { x with started := true, status := some (st, a, 0) }
        | .inr c => { x with started := true, convert := c }
      .next (s.putTransfer cluster x1)

/-- R374: whether a transfer stalls at a WAIT: the access that it waits for is parked, or held behind a full list. -/
def State.transferStalled (s : State) (x : Transfer) : Bool :=
  x.started && x.status.isNone && (s.isParked x.port.wait.toList || s.isHeldBack x.port.wait.toList)

/-- R249 to R251, R363: a started transfer moves elements, until its turn is over, it stalls, or it ends with its record. One of a stopped
grid whose access at a WAIT has been discarded is stopped at that word. -/
def execTransferCompletion (cluster : Nat) (id : BitVec 64) (s : State) : Result :=
  match (s.cluster cluster).transfers.find? (fun x => decide (x.id = id) && x.started) with
  | none => .next s
  | some x => match x.status with
    | some (st, a, u) => .next (s.endTransfer cluster x st a u)
    | none =>
      if s.forsaken x.port then .next (s.endTransfer cluster x 1 0 0)
      else
        let (n, s1) := s.turnFuel
        let e : EngRun := ⟨s1.asLaunched x, x.hart, x.level, .transfer x.id, x.seq, [], [], n, x.port, false, false⟩
        .next (match e.moveAll x (2 * x.elems + 1) with
        | (x1, .ok _ e1) => (e1.s.asNow s x).endTransfer cluster { x1 with port := .idle } 0 0 0
        | (x1, .stall e1) => (e1.s.asNow s x).putTransfer cluster { x1 with port := e1.port }
        | (x1, .fault c v u e1) =>
          let s2 := e1.s.asNow s x
          let x2 : Transfer := { x1 with port := .idle }
          if c = 24 ∧ bits u 6 3 = 4 then s2.refuseTransfer cluster x2 v u
          else s2.endTransfer cluster x2 (faultStatus c) v (if c = 24 then u else 0))

/-- R253: XF.CANCEL. -/
def execXfCancel (d : Fin 32) (a : Opnd) (s : State) : Result :=
  let h := s.cur
  let k := clusterOf h.core
  if isDrain h || isSpill h then s.misuse 7
  else match (s.cluster k).transfers.find? (fun x => decide (x.id = s.me.opX a) && decide (x.hart = h)) with
    | none => .next (s.retire (s.me.setX d 0) (len1 a))
    | some x =>
      let s1 := s.endTransfer k x 1 0 0
      .next (s1.retire (s1.me.setX d 1) (len1 a))

end Sys2Proof.Machine
end

