-- ==== Sys2Proof/Machine/Boundary.lean ====
section
/-! DEFINITION. Interrupts and trap reports at an instruction boundary (R30, R315, R317, R318), the resolution of a report (R316), the
timers, and the messages of translation (R342, R343, R345). -/

namespace Sys2Proof.Machine

/-- The lowest of the codes 65 to 72 whose bit is set. -/
def lowestCode (w : Word) : Option Nat := ((List.range 8).find? (fun i => bit w (i + 1))).map (fun i => 65 + i)

/-- R317: the M-level interrupt that a thread would take. -/
def Thread.interruptM (t : Thread) : Option Nat :=
  if t.level ≠ .m ∨ bit t.priv.mstatus 3 then lowestCode (t.priv.mip &&& t.priv.mie) else none

/-- R317: the S-level interrupt that a thread would take. -/
def Thread.interruptS (t : Thread) : Option Nat :=
  if t.level = .u ∨ (t.level = .s ∧ bit t.priv.mstatus 1) then lowestCode (t.priv.sip &&& t.priv.sie) else none

/-- R318: an interrupt is taken at M; that of the monitor timer is serviced so, and its source clears it (log 48). -/
def Thread.takeM (t : Thread) (c : Nat) : Thread :=
  let t1 := t.enterM (causeWord true false false c) 0
  if c = 66 then { t1 with priv := { t1.priv with mip := setBits t1.priv.mip 2 1 0 } } else t1

/-- R318: an interrupt is taken at S; the corrected-error notice, the scheduler timer and a mailbox request are serviced so (log 48). -/
def Thread.takeS (t : Thread) (c : Nat) : Thread :=
  let t1 := t.enterS (causeWord true false false c) 0
  if c = 68 ∨ c = 70 ∨ c = 72 then { t1 with priv := { t1.priv with sip := setBits t1.priv.sip (c - 64) 1 0 } } else t1

/-- R315, R316: whether a hub core takes the oldest trap report. -/
def State.reportDue (s : State) (h : Hart) : Bool :=
  let c := s.core h.core
  let t := s.thread h
  decide (kindOf h.core = .hub) && !c.handling && !c.reports.isEmpty &&
    (decide (t.level = .u) || (decide (t.level = .s) && bit t.priv.mstatus 1))

/-- R315: a hub core takes the oldest report as an S-level trap; its place in the queue lets in the report of a monitor that waits. -/
def State.takeReport (s : State) (h : Hart) : State :=
  let c := s.core h.core
  match c.reports with
  | [] => s
  | (n, r) :: rest =>
    let s1 := s.setCore h.core { c with reports := rest, report := some (n, r), handling := true, reportsHeld := c.reportsHeld.tail }
    let t := (s1.thread h).enterS r.cause r.value
    let s2 := s1.setThread h { t with priv := { t.priv with sreport := virtAddr (reportAt h.core n) } }
    match c.reportsHeld with
    | [] => s2
    | q :: _ => s2.post h.core q

/-- R318: the interrupt or report that a thread takes at its boundary, if one is due: M level first, then a report, then S level,
then the user interrupt. -/
def State.boundary (s : State) (h : Hart) : Option State :=
  let t := s.thread h
  if t.status ≠ .run then none
  else match t.interruptM with
    | some c => some (s.setThread h (t.takeM c))
    | none =>
      if s.reportDue h then some (s.takeReport h)
      else match (if hasS h.core then t.interruptS else none) with
        | some c => some (s.setThread h (t.takeS c))
        | none => if userInterruptDue h t then some (s.setThread h t.takeUserInterrupt) else none

/-- R334, R373: whether a thread halts at its next boundary: its context is halting with FORCE, or the watchdog has expired. A drain thread
goes on to its DRET, because the rows complete in every halt; a thread that has read indices of a stream is in the middle of its SREAD, at no
boundary (R224). -/
def State.haltsHere (s : State) (h : Hart) : Bool :=
  decide (kindOf h.core = .compute) && decide (h.th ≠ 4) && (s.thread h).gathered.isEmpty &&
    (match s.ctxOf h.core with
    | some c => decide (c.halt ≠ 0) && c.force
    | none => false)

/-- R373: the thread halts in full at its instruction, of which nothing is kept. -/
def Thread.haltFull (t : Thread) : Thread := { t with status := .halted true, gathered := [] }

/-- R318: what a thread's next instruction comes to at a boundary: a forced halt stops it there; else its own trap comes first, then an
interrupt that is due, then its effect. -/
def State.atBoundary (s : State) (r : Result) : Result :=
  if s.haltsHere s.cur then .next (s.setMe s.me.haltFull)
  else match s.boundary s.cur with
  | none => r
  | some s' => match r with
    | .next s1 => if s1.trapped then r else .next s'
    | _ => .next s'

/-- R317, R318: an M- or S-level interrupt that is due is taken at the thread's instruction boundary, which comes next, unless its
instruction traps. -/
def execInterruptTake (core th : Nat) (s : State) : Result :=
  let h : Hart := ⟨core, th⟩
  let t := s.thread h
  .next (if decide (t.status = .run) && (t.interruptM.isSome || (hasS core && t.interruptS.isSome)) then s.turnTo h else s)

/-- R315: a hub core takes its oldest trap report, in WFI as well. -/
def execTrapReportDelivery (hub : Nat) (s : State) : Result :=
  let h : Hart := ⟨hubCore hub, 0⟩
  let t := s.thread h
  .next (if (decide (t.status = .run) || t.status.isWfi) && s.reportDue h then s.takeReport h else s)

/-! ## Resolution (R316) -/

/-- R327: the M-level status after a return from M that leaves pc and level alone. -/
def Thread.restoreM (t : Thread) (lowest : Level) : Thread :=
  let ms := t.priv.mstatus
  let ms := setBits ms 3 1 (bits ms 7 1)
  let ms := setBits ms 7 1 1
  let ms := setBits ms 11 2 lowest.code
  { t with priv := { t.priv with mstatus := ms } }

/-- R316: the halfword at an address as it stands for a thread: as fetched, or where the TLB lacks the page, through the mapping that the
walkers last installed; 1, the first halfword of a word without operand fields, where there is none (log 21). -/
def State.halfAt (s : State) (h : Hart) (a : Word) : Nat :=
  match s.fetchHalf h a with
  | .half v _ => v.toNat
  | _ => match s.cpWalk (s.core h.core).mcontext.toNat (a.toNat % 2 ^ 56) .fetch, s.keyOf (s.core h.core).mowner with
    | some pa, some key => s.dram.read key pa 2
    | _, _ => 1

/-- R138, R316: the length of the instruction at a thread's pc, from its halfwords. -/
def State.lengthAt (s : State) (h : Hart) : Nat :=
  let t := s.thread h
  let ofWord (w : Nat) : Nat := if w % 2 = 0 then 2 else if 32 ≤ w / 4 % 64 then 4 else 4 + wordLitBytes (BitVec.ofNat 32 w)
  match t.bodyBytes with
  | some bs => ofWord (leValue (bs.take 4))
  | none =>
    let lo := s.halfAt h t.pc
    if lo % 2 = 0 then 2 else ofWord (lo + 65536 * s.halfAt h (t.pc + 2))

/-- The cause code of a report. -/
def Report.code (r : Report) : Nat := bits r.cause 0 7

/-- R316: the action that a resolution acts as. -/
def Report.action (r : Report) (action : Nat) : Nat :=
  if bit r.cause 62 ∨ r.code = 37 ∨ r.code = 38 then 2
  else if action = 1 ∧ (r.code = 1 ∨ r.code = 12) then 2 else action

/-- R316: whether the grid of a report has been aborted, or is over. -/
def State.reportStale (s : State) (r : Report) : Bool :=
  match Tab.find? s.grids r.grid with
  | some g => g.aborting.isSome || g.complete
  | none => true

/-- R316: the resolution of the report that a hub core handles, ignored when its grid has been aborted. A call that action 1 passes over
counts in RETIRED (R170). -/
def State.resolve_ (s : State) (hub : Nat) (action : Nat) : State :=
  let core := hubCore hub
  let c := s.core core
  match c.report with
  | none => s
  | some (_, r) =>
    let s1 := s.setCore core { c with report := none }
    let t := s1.thread r.hart
    if s.reportStale r then s1
    else match r.action action with
    | 0 =>
      if t.status = .report then s1.setThread r.hart { t.restoreM (lowestLevel r.hart.core) with status := .run } else s1
    | 1 =>
      if t.status = .report then
        s1.setThread r.hart { (t.restoreM (lowestLevel r.hart.core)).goto (t.pc + BitVec.ofNat 64 (s1.lengthAt r.hart)) with
          status := .run
          retired := if r.code = 8 then t.retired + 1 else t.retired }
      else s1
    | _ => s1.abortGrids [r.grid] (if r.code = 37 then 8 else if r.code = 38 then 3 else 5)

def execResolveRetry (hub : Nat) (s : State) : Result := .next (s.resolve_ hub 0)
def execResolveSkip (hub : Nat) (s : State) : Result := .next (s.resolve_ hub 1)
def execResolveAbort (hub : Nat) (s : State) : Result := .next (s.resolve_ hub 2)

/-! ## Timers (R317) -/

/-- R317: the monitor timer runs out. -/
def execMonitorTimerExpiry (core : Nat) (s : State) : Result := .next (s.driveM ⟨core, 0⟩ 66 true)

/-- R317: the scheduler timer of a hub or translation core runs out. -/
def execSchedulerTimerExpiry (core : Nat) (s : State) : Result :=
  .next (match kindOf core with
  | .compute => s
  | _ => s.driveS ⟨core, 0⟩ 70 true)

/-- Table 21.3: a request on a DOE mailbox raises interrupt 72 at hub cores 4 and 5. -/
def State.mailbox (s : State) : State := (s.driveS ⟨hubCore 4, 0⟩ 72 true).driveS ⟨hubCore 5, 0⟩ 72 true

/-! ## Messages of translation (R342, R343, R345) -/

/-- Table 23.1: a miss message or dirty notice. -/
def missEntry (core : Nat) (m : Miss) : BitVec 512 :=
  BitVec.ofNat 512 (2 ^ 62 * m.dirty.toNat + 2 ^ 34 * (m.th % 8) + 2 ^ 30 * (core % 16) + 2 ^ 18 * (m.asid % 4096) + 4 * (m.gen % 65536) +
    m.access + 2 ^ 64 * (m.va % 2 ^ 56))

/-- R342, R343: the oldest miss message or dirty notice of a core reaches the inbox of the cluster's translation core, if an entry is free;
`dirty` is the kind that this step delivers. -/
def State.sendMiss (s : State) (core : Nat) (dirty : Bool) : State :=
  let c := s.core core
  match c.notes with
  | [] => s
  | m :: rest =>
    let w := walkerOf (clusterOf core)
    if m.dirty ≠ dirty ∨ 48 ≤ (s.core w).inbox.length then s
    else
      let s1 := s.setCore core { c with notes := rest }
      let cw := s1.core w
      (s1.setCore w (({ cw with inbox := cw.inbox ++ [(⟨missEntry core m, false⟩ : Entry)] }).wake Status.isMrecv)).syncInbox w

def execTlbMissMessage (core : Nat) (s : State) : Result := .next (s.sendMiss core false)
def execDirtyNotice (core : Nat) (s : State) : Result := .next (s.sendMiss core true)

end Sys2Proof.Machine
end

