-- ==== Sys2Proof/Machine/Alu.lean ====
section
/-! DEFINITION. Integer instructions (chapter "Instructions: Scalar, Address, Branch and CSR", sections 2 to 6): majors 0x00 to
0x04. -/

namespace Sys2Proof.Machine

/-- R153: d := f(a, b), both sources read before d is written. -/
def State.alu2 (s : State) (d : Fin 32) (a b : Opnd) (f : Word → Word → Word) : Result :=
  .next (s.retire (s.me.setX d (f (s.me.opX a) (s.me.opX b))) (len2 a b))

/-- R153: d := f(a). -/
def State.alu1 (s : State) (d : Fin 32) (a : Opnd) (f : Word → Word) : Result :=
  .next (s.retire (s.me.setX d (f (s.me.opX a))) (len1 a))

/-! ## Table 11.3 -/

def minS (a b : Word) : Word := if b.slt a then b else a
def maxS (a b : Word) : Word := if a.slt b then b else a
def minU (a b : Word) : Word := if b.ult a then b else a
def maxU (a b : Word) : Word := if a.ult b then b else a

def execAdd (d : Fin 32) (a b : Opnd) (s : State) : Result := s.alu2 d a b (fun x y => x + y)
def execSub (d : Fin 32) (a b : Opnd) (s : State) : Result := s.alu2 d a b (fun x y => x - y)
def execAnd (d : Fin 32) (a b : Opnd) (s : State) : Result := s.alu2 d a b (fun x y => x &&& y)
def execOr (d : Fin 32) (a b : Opnd) (s : State) : Result := s.alu2 d a b (fun x y => x ||| y)
def execXor (d : Fin 32) (a b : Opnd) (s : State) : Result := s.alu2 d a b (fun x y => x ^^^ y)
def execAndn (d : Fin 32) (a b : Opnd) (s : State) : Result := s.alu2 d a b (fun x y => x &&& ~~~ y)
def execMin (d : Fin 32) (a b : Opnd) (s : State) : Result := s.alu2 d a b minS
def execMax (d : Fin 32) (a b : Opnd) (s : State) : Result := s.alu2 d a b maxS
def execMinu (d : Fin 32) (a b : Opnd) (s : State) : Result := s.alu2 d a b minU
def execMaxu (d : Fin 32) (a b : Opnd) (s : State) : Result := s.alu2 d a b maxU
def execLi (d : Fin 32) (b : Opnd) (s : State) : Result := s.alu1 d b (fun y => y)

/-! ## Table 11.4 -/

/-- The high 64 bits of the signed product. -/
def mulHigh (a b : Word) : Word := BitVec.ofInt 64 (a.toInt * b.toInt / 2 ^ 64)

/-- The high 64 bits of the unsigned product. -/
def mulHighU (a b : Word) : Word := BitVec.ofNat 64 (a.toNat * b.toNat / 2 ^ 64)

/-- R156: the signed quotient, toward zero; −1 for a zero divisor. -/
def divS (a b : Word) : Word := if b = 0 then -1 else a.sdiv b

/-- R156: the unsigned quotient; all ones for a zero divisor. -/
def divU (a b : Word) : Word := if b = 0 then -1 else a / b

/-- R156: the signed remainder, with the sign of a; a for a zero divisor. -/
def remS (a b : Word) : Word := if b = 0 then a else a.srem b

/-- R156: the unsigned remainder; a for a zero divisor. -/
def remU (a b : Word) : Word := if b = 0 then a else a % b

def execMul (d : Fin 32) (a b : Opnd) (s : State) : Result := s.alu2 d a b (fun x y => x * y)
def execMulh (d : Fin 32) (a b : Opnd) (s : State) : Result := s.alu2 d a b mulHigh
def execMulhu (d : Fin 32) (a b : Opnd) (s : State) : Result := s.alu2 d a b mulHighU
def execDiv (d : Fin 32) (a b : Opnd) (s : State) : Result := s.alu2 d a b divS
def execDivu (d : Fin 32) (a b : Opnd) (s : State) : Result := s.alu2 d a b divU
def execRem (d : Fin 32) (a b : Opnd) (s : State) : Result := s.alu2 d a b remS
def execRemu (d : Fin 32) (a b : Opnd) (s : State) : Result := s.alu2 d a b remU

/-! ## Table 11.5 and R158 -/

/-- R157: a shift amount is b[5:0]. -/
def shamt (b : Word) : Nat := bits b 0 6

def countLeading (a : Word) : Word := if a = 0 then 64 else BitVec.ofNat 64 (63 - topBit a.toNat)
def countTrailing (a : Word) : Word := BitVec.ofNat 64 (((List.range 64).find? (fun i => bit a i)).getD 64)
def countOnes (a : Word) : Word := BitVec.ofNat 64 ((List.range 64).countP (fun i => bit a i))

/-- R157: the width of an extension: b[5:0], or 64 when that is 0. -/
def extWidth (b : Word) : Nat := if bits b 0 6 = 0 then 64 else bits b 0 6

def extendS (a b : Word) : Word := BitVec.ofInt 64 (sext (extWidth b) (a.toNat % 2 ^ extWidth b))
def extendZ (a b : Word) : Word := BitVec.ofNat 64 (a.toNat % 2 ^ extWidth b)

/-- R158: the mask of a field specification. -/
def fieldMask (b : Word) : Word :=
  let lo := bits b 0 6
  let f := min (bits b 6 7) (64 - lo)
  BitVec.ofNat 64 (2 ^ f - 1) <<< lo

def bfExtract (a b : Word) : Word := (a &&& fieldMask b) >>> bits b 0 6
def bfInsert (d a b : Word) : Word := (d &&& ~~~ fieldMask b) ||| ((a <<< bits b 0 6) &&& fieldMask b)

def execSll (d : Fin 32) (a b : Opnd) (s : State) : Result := s.alu2 d a b (fun x y => x <<< shamt y)
def execSrl (d : Fin 32) (a b : Opnd) (s : State) : Result := s.alu2 d a b (fun x y => x >>> shamt y)
def execSra (d : Fin 32) (a b : Opnd) (s : State) : Result := s.alu2 d a b (fun x y => x.sshiftRight (shamt y))
def execClz (d : Fin 32) (a : Opnd) (s : State) : Result := s.alu1 d a countLeading
def execCtz (d : Fin 32) (a : Opnd) (s : State) : Result := s.alu1 d a countTrailing
def execPopc (d : Fin 32) (a : Opnd) (s : State) : Result := s.alu1 d a countOnes
def execExts (d : Fin 32) (a b : Opnd) (s : State) : Result := s.alu2 d a b extendS
def execExtz (d : Fin 32) (a b : Opnd) (s : State) : Result := s.alu2 d a b extendZ
def execBfext (d : Fin 32) (a b : Opnd) (s : State) : Result := s.alu2 d a b bfExtract
def execBfins (d : Fin 32) (a b : Opnd) (s : State) : Result := s.alu2 d a b (bfInsert (s.me.getX d))

/-! ## Table 11.7 -/

/-- 1 for a relation that holds, 0 otherwise. -/
def flag (p : Bool) : Word := if p then 1 else 0

def execSeq (d : Fin 32) (a b : Opnd) (s : State) : Result := s.alu2 d a b (fun x y => flag (decide (x = y)))
def execSlt (d : Fin 32) (a b : Opnd) (s : State) : Result := s.alu2 d a b (fun x y => flag (x.slt y))
def execSltu (d : Fin 32) (a b : Opnd) (s : State) : Result := s.alu2 d a b (fun x y => flag (x.ult y))
def execSel (d : Fin 32) (a b : Opnd) (s : State) : Result :=
  s.alu2 d a b (fun x y => if s.me.getX d ≠ 0 then x else y)

/-! ## Addresses -/

/-- R160: LEA adds to the address of its own first halfword. -/
def execLea (d : Fin 32) (b : Opnd) (s : State) : Result := s.alu1 d b (fun y => s.me.pc + y)

/-- Table 3.1: the CLUSTER and CORE fields of NODEID. -/
def nodeCluster (n : Word) : Nat := bits n 29 8
def nodeCore (n : Word) : Nat := bits n 22 4

/-- R161: the other form of an own-core or own-cluster address. -/
def convertAddr (node a b : Word) : Word :=
  let cl := nodeCluster node
  let co := nodeCore node
  if bit b 0 = false then
    if bits a 56 8 = 0 ∧ zeroBits a 21 35 then BitVec.ofNat 64 (2 * 2 ^ 56 + cl * 2 ^ 25 + co * 2 ^ 21 + bits a 0 21)
    else if bits a 56 8 = 1 ∧ zeroBits a 22 34 then BitVec.ofNat 64 (3 * 2 ^ 56 + cl * 2 ^ 22 + bits a 0 22)
    else a
  else
    if bits a 56 8 = 2 ∧ zeroBits a 33 23 ∧ bits a 25 8 = cl ∧ bits a 21 4 = co then BitVec.ofNat 64 (bits a 0 21)
    else if bits a 56 8 = 3 ∧ zeroBits a 30 26 ∧ bits a 22 8 = cl then BitVec.ofNat 64 (2 ^ 56 + bits a 0 22)
    else a

def execApcvt (d : Fin 32) (a b : Opnd) (s : State) : Result := s.alu2 d a b (convertAddr s.me.nodeid)

/-- Table 11.8: the class of an address for a thread. -/
def State.classify (s : State) (h : Hart) (a : Word) : Word :=
  let sel := bits a 56 8
  let win := if sel < 4 then sel else if sel < 16 then 0xFF else if sel < 128 then 0x10 else 0x80
  let t := s.resolve h a.toNat
  let valid := t.isSome
  let localHome : Bool := decide (sel < 4) && (match t with
    | some (.sram p _) => decide (p = .core h.core)
    | _ => false)
  let inCluster : Bool := decide (sel < 4) && (match t with
    | some (.sram p _) => decide (p.cluster_ = clusterOf h.core)
    | _ => false)
  BitVec.ofNat 64 (win + 256 * valid.toNat + 512 * localHome.toNat + 1024 * inCluster.toNat +
    2048 * (valid && decide (sel < 4)).toNat)

def execAptest (d : Fin 32) (a : Opnd) (s : State) : Result := s.alu1 d a (s.classify s.cur)

end Sys2Proof.Machine
end

