-- ==== Sys2Proof/Machine/Branch.lean ====
section
/-! DEFINITION. Branches and jumps (R146, R163 to R165, R413). The A bit changes only their timing. -/

namespace Sys2Proof.Machine

/-- R163: the target of a branch. -/
def branchTarget (pc : Word) (off : BitVec 9) : Word := pc + 2 * off.signExtend 64

/-- R163: a conditional branch. -/
def State.branch (s : State) (a b : Opnd) (off : BitVec 9) (p : Word → Word → Bool) : Result :=
  if p (s.me.opX a) (s.me.opX b) then .next (s.setMe (s.me.jump (branchTarget s.me.pc off)))
  else .next (s.retire s.me (len2 a b))

def execBeq (a b : Opnd) (off : BitVec 9) (s : State) : Result := s.branch a b off (fun x y => decide (x = y))
def execBne (a b : Opnd) (off : BitVec 9) (s : State) : Result := s.branch a b off (fun x y => decide (x ≠ y))
def execBlt (a b : Opnd) (off : BitVec 9) (s : State) : Result := s.branch a b off (fun x y => x.slt y)
def execBge (a b : Opnd) (off : BitVec 9) (s : State) : Result := s.branch a b off (fun x y => !x.slt y)
def execBltu (a b : Opnd) (off : BitVec 9) (s : State) : Result := s.branch a b off (fun x y => x.ult y)
def execBgeu (a b : Opnd) (off : BitVec 9) (s : State) : Result := s.branch a b off (fun x y => !x.ult y)

/-- R146, R164: a jump that writes its link, unless its target is odd: cause 0 with the target as value. -/
def State.link (s : State) (d : Fin 32) (target : Word) (len : Nat) : Result :=
  if bit target 0 then s.trapMe 0 target
  else .next (s.setMe ((s.me.setX d (s.me.pc + BitVec.ofNat 64 len)).jump target))

def execJal (d : Fin 32) (b : Opnd) (off : BitVec 9) (s : State) : Result :=
  s.link d (s.me.pc + s.me.opX b + 2 * off.signExtend 64) (len1 b)

def execJalr (d : Fin 32) (b : Opnd) (off : BitVec 9) (s : State) : Result :=
  s.link d (s.me.opX b + 2 * off.signExtend 64) (len1 b)

/-- R164. -/
def execJ (off : BitVec 24) (s : State) : Result :=
  .next (s.setMe (s.me.jump (s.me.pc + 2 * off.signExtend 64)))

end Sys2Proof.Machine
end

