-- ==== Sys2Proof/Machine/Instant.lean ====
section
/-! DEFINITION. Instant domains: signals (R38 to R44, R270 to R273), the react half and the imbalance record (R45, R274 to R276),
the exchange half (R46 to R50, R278 to R281), the latch (R51) and the exit of a member (R54). -/

namespace Sys2Proof.Machine

def State.setDomain (s : State) (n : Nat) (d : Domain) : State := { s with domains := Tab.set n d s.domains }

/-- R36, R50, R54: the domain is updated, or with its last member gone it closes and its number is free again. DEDUCED (log 73):
beats of it that are still on their way land afterwards, under a key of its own past the sixteen numbers. -/
def State.putDomain (s : State) (n : Nat) (d : Domain) : State :=
  if d.closed then { s with domains := Tab.del n s.domains }
  else if d.closing && decide (n < 16) then { s with domains := Tab.set (16 + d.gid) d (Tab.del n s.domains) }
  else s.setDomain n d

/-- R45: the CYCLE by which a domain's mortar counts: that of the core of its first member (log 88). -/
def State.clockOf (s : State) (d : Domain) : Word := s.cycle ((d.members.head?.map (fun m => m.hart.core)).getD 0)

/-- R53: cause 33 with a reason and a signal number. -/
def State.sigMisuse (s : State) (reason sig : Nat) : Result := s.trapMe 33 (BitVec.ofNat 64 (256 * reason + sig % 256))

/-- Table 4.4: combine operations. -/
def combineOp (op : Nat) (x y : Word) : Word :=
  if op = 0 then x ||| y else if op = 1 then x + y else if op = 2 then (if x.slt y then y else x) else (if y.slt x then y else x)

/-- Table 4.4: the identity of a combine operation. -/
def combineId (op : Nat) : Word :=
  if op = 2 then 0x8000000000000000#64 else if op = 3 then 0x7FFFFFFFFFFFFFFF#64 else 0

/-- R40, R51: a signal at the start of an instant. -/
def Sig.start (g : Sig) (exited : List Nat) (prev : Bool) : Sig :=
  let out := g.emitters.filter (fun i => decide (i ∉ exited))
  { g with
    status := if out = [] then .absent else .unknown
    value := combineId g.combine
    out := out
    skipped := []
    prev := prev }

/-- Table 4.5: a member leaves the outstanding set; an UNKNOWN signal whose set becomes empty is ABSENT. -/
def Sig.leave (g : Sig) (i : Nat) : Sig :=
  if i ∈ g.out then
    let out := g.out.filter (fun j => decide (j ≠ i))
    { g with out := out, status := if out = [] ∧ g.status = .unknown then .absent else g.status }
  else g

/-- Table 4.5: SIG.EMIT. -/
def Sig.emit (g : Sig) (i : Nat) (v : Word) : Sig :=
  { g with value := combineOp g.combine g.value v, status := .present, out := g.out.filter (fun j => decide (j ≠ i)) }

/-- Table 4.5: SIG.SKIP; one by a member that has already emitted or skipped changes nothing. -/
def Sig.skip (g : Sig) (i : Nat) : Sig := if i ∈ g.out then { g.leave i with skipped := i :: g.skipped } else g

/-- R41: whether a signal is settled, or its status known. -/
def Sig.resolved (g : Sig) (val : Bool) : Bool := if val then decide (g.out = []) else decide (g.status ≠ .unknown)

def Status.isSignal : Status → Bool
  | .signal _ _ => true
  | _ => false

/-- Blocked readers of a domain look again. -/
def State.wakeReaders (s : State) (d : Domain) : State :=
  d.members.foldl (fun r m =>
    let t := r.thread m.hart
    if t.status.isSignal then r.setThread m.hart { t with status := .again } else r) s

/-- An emit or skip that the mortar applies to one signal. R44 counts it; DEDUCED (log 38): a skip that changes nothing counts too. -/
def State.applySig (s : State) (n k : Nat) (f : Sig → Sig) : State :=
  match Tab.find? s.domains n with
  | none => s
  | some d =>
    let d1 := { d with sigs := d.sigs.modify k f, declared := false }
    (s.setDomain n d1).wakeReaders d1

/-- R40, R54: a member leaves the outstanding set of every signal; R44 counts it where it changes one. -/
def Domain.leaveAll (d : Domain) (i : Nat) : Domain :=
  { d with
    sigs := d.sigs.map (fun g => g.leave i)
    declared := d.declared && !d.sigs.any (fun g => decide (i ∈ g.out)) }

/-- R53, R270: the domain and member of the current thread, and the signal that a names, or the misuse. -/
def State.withSig (s : State) (a : Word) (f : Nat → Nat → Domain → Nat → Sig → Result) : Result :=
  match s.myDomain s.cur with
  | none => s.sigMisuse 3 0
  | some (n, i, d) =>
    match d.sigs[a.toNat]? with
    | none => s.sigMisuse 0 (if a.toNat < 256 then a.toNat else 0)
    | some g => f n i d a.toNat g

/-- R53, R270: a misuse of SIG.EMIT or SIG.SKIP, in the order of R53. -/
def emitMisuse (h : Hart) (i : Nat) (d : Domain) (g : Sig) (emit : Bool) : Option Nat :=
  if isDrain h then some 7
  else if d.exch then some 4
  else if i ∉ g.emitters then some 1
  else if emit && (decide (i ∈ g.skipped) || decide (g.status = .absent)) then some 2
  else none

/-- R271, R273: SIG.EMIT is a release at .dev, and the mortar applies it. -/
def execSigEmit (a b : Opnd) (s : State) : Result :=
  s.withSig (s.me.opX a) (fun n i d k g =>
    match emitMisuse s.cur i d g true with
    | some r => s.sigMisuse r k
    | none =>
      if s.outstandingIn s.cur .dev then s.block .fence
      else
        let s1 := s.applySig n k (fun x => x.emit i (s.me.opX b))
        .next (s1.retire s1.me (len2 a b)))

/-- R271: SIG.SKIP. -/
def execSigSkip (a : Opnd) (s : State) : Result :=
  s.withSig (s.me.opX a) (fun n i d k g =>
    match emitMisuse s.cur i d g false with
    | some r => s.sigMisuse r k
    | none =>
      let s1 := s.applySig n k (fun x => x.skip i)
      .next (s1.retire s1.me (len1 a)))

/-- Table 15.13: the status code of SIG.TEST. -/
def sigCode : SigStatus → Nat
  | .unknown => 0 | .present => 1 | .absent => 2

/-- R272: SIG.TEST. -/
def execSigTest (d : Fin 32) (a : Opnd) (s : State) : Result :=
  s.withSig (s.me.opX a) (fun _ _ _ _ g =>
    .next (s.retire (s.me.setX d (BitVec.ofNat 64 (sigCode g.status + 4 * g.prev.toNat))) (len1 a)))

/-- R41, R270: a read blocks on an unresolved signal, or in a drain thread is a misuse. -/
def State.readSig (s : State) (a : Word) (val : Bool) (f : Sig → Result) : Result :=
  s.withSig a (fun _ _ _ k g =>
    if g.resolved val then f g
    else if isDrain s.cur then s.sigMisuse 7 k
    else s.block (.signal k val))

/-- R272: SIG.VAL. -/
def execSigVal (d : Fin 32) (a : Opnd) (s : State) : Result :=
  s.readSig (s.me.opX a) true (fun g =>
    .next (s.retire (s.me.setX d (if g.status = .absent then 0 else g.value)) (len1 a)))

/-- R272: a branch on the status of a signal; an odd target is cause 0. -/
def State.sigBranch (s : State) (a b : Opnd) (want : SigStatus) : Result :=
  s.readSig (s.me.opX a) false (fun g =>
    if g.status = want then
      let target := s.me.pc + s.me.opX b
      if bit target 0 then s.trapMe 0 target else .next (s.setMe (s.me.jump target))
    else .next (s.retire s.me (len2 a b)))

def execBpres (a b : Opnd) (s : State) : Result := s.sigBranch a b .present
def execBabs (a b : Opnd) (s : State) : Result := s.sigBranch a b .absent

/-! ## The react half -/

/-- R274: PAUSE waits for the thread's earlier memory events, then counts as the member's pause. -/
def execPause (s : State) : Result :=
  let h := s.cur
  match s.myDomain h with
  | none => s.sigMisuse 3 0
  | some (n, i, d) =>
    if isDrain h then s.sigMisuse 3 0
    else if s.me.user.h then s.sigMisuse 6 0
    else if d.exch then s.sigMisuse 4 0
    else if ((d.members[i]?).map (fun m => m.paused.isSome)).getD false then s.block .pause
    else if s.outstandingIn h .sys then s.block .fence
    else
      let d1 := { d with members := d.members.modify i (fun m => { m with paused := some ((s.clockOf d).toNat - d.started) }) }
      let d2 := d1.leaveAll i
      let s1 := (s.setDomain n d2).wakeReaders d2
      s1.block .pause

/-- R275: DSET writes the next half. -/
def execDset (d : Fin 16) (b : Opnd) (s : State) : Result :=
  match s.myDomain s.cur with
  | none => s.sigMisuse 3 0
  | some _ =>
    if isDrain s.cur then s.sigMisuse 7 0
    else .next (s.retire { s.me with dnext := s.me.dnext.set d.val (s.me.opX b) } (len1 b))

/-- R275: DGET reads the current half of the member's register. -/
def execDget (d : Fin 32) (a : Fin 16) (s : State) : Result :=
  match s.myDomain s.cur with
  | none => s.sigMisuse 3 0
  | some (_, i, dom) =>
    let t := match dom.members[i]? with
      | some m => s.thread m.hart
      | none => s.me
    .next (s.retire (s.me.setX d t.dcur[a.val]) 4)

/-- R276: IREC. -/
def execIrec (d : Fin 32) (b : Opnd) (s : State) : Result :=
  match s.myDomain s.cur with
  | none => s.sigMisuse 3 0
  | some (_, _, dom) => .next (s.retire (s.me.setX d (dom.record.getD (bits (s.me.opX b) 0 2) 0)) (len1 b))

/-- R42: whether a member is blocked on a signal that is unresolved for it. -/
def State.blockedOn (s : State) (d : Domain) (m : Member) : Option (Nat × Bool) :=
  match (s.thread m.hart).status with
  | .signal k val => match d.sigs[k]? with
    | some g => if g.resolved val then none else some (k, val)
    | none => none
  | _ => none

/-- R42: the members that count: those that have neither paused nor exited. -/
def Domain.live (d : Domain) : List Member := d.members.filter (fun m => m.paused.isNone && !m.exited)

/-- R42: whether a domain stands in a causality cycle. -/
def State.cycleDue (s : State) (d : Domain) : Bool :=
  !d.exch && !d.live.isEmpty && d.live.all (fun m => (s.blockedOn d m).isSome && !(s.thread m.hart).user.h)

/-- R43: whether a member can take cause 29 at user level. -/
def State.takesCycle (s : State) (m : Member) : Bool :=
  let t := s.thread m.hart
  decide (t.level = .u) && delegated s m.hart 29 && !t.user.h && decide (t.user.utvec ≠ 0)

/-- R42 to R44: the mortar declares a causality cycle: cause 29 in every blocked member, at user level in all of them or in none. -/
def execCausalityCycle (dom : Nat) (s : State) : Result :=
  match Tab.find? s.domains dom with
  | none => .next s
  | some d =>
    if !s.cycleDue d then .next s
    else
      let toS := d.declared || !d.live.all s.takesCycle
      let s1 := s.setDomain dom { d with declared := true }
      .next (d.live.foldl (fun r m =>
        match s.blockedOn d m with
        | none => r
        | some (k, val) =>
          let v := BitVec.ofNat 64 (k % 256 + 256 * val.toNat)
          if toS then r.forward m.hart 29 v 0 true else r.trap m.hart 29 v) s1)

/-- Table 4.7: the imbalance record at the end of a react half. -/
def imbalance (d : Domain) : List Word :=
  let ps : List (Nat × Nat × Member) := (List.range d.members.length).filterMap (fun i =>
    match d.members[i]? with
    | some m => match m.paused with
      | some o => if m.exited then none else some (i, o, m)
      | none => none
    | none => none)
  match ps with
  | [] => [BitVec.ofNat 64 d.started, 0, 0, 0]
  | p :: _ =>
    let lo := ps.foldl (fun x q => min x q.2.1) p.2.1
    let hi := ps.foldl (fun x q => max x q.2.1) p.2.1
    let last := (ps.find? (fun q => decide (q.2.1 = hi))).getD p
    let cap (x : Nat) : Nat := min x (2 ^ 32 - 1)
    let h := last.2.2.hart
    [BitVec.ofNat 64 d.started, BitVec.ofNat 64 (cap lo + 2 ^ 32 * cap hi), BitVec.ofNat 64 (ps.foldl (fun x q => x + q.2.1) 0),
      BitVec.ofNat 64 (last.1 + 2 ^ 14 * clusterOf h.core + 2 ^ 22 * (h.core % 16) + 2 ^ 26 * (h.th % 4) + 2 ^ 28 * ps.length)]

/-- R113: whether the events of a half that a domain's members have left behind are performed: those of a member that has exited, and of the
drain threads. A member's own earlier events its PAUSE or XEND has waited for. -/
def State.halfQuiet (s : State) (d : Domain) : Bool :=
  d.members.all (fun m => !s.outstandingIn ⟨m.hart.core, 4⟩ .sys &&
    !(m.exited && s.net.any (fun x => decide (x.id < m.left) && x.outstands m.hart .sys)))

/-- R45: whether every member of a domain in its react half has paused or exited. -/
def Domain.reactOver (d : Domain) : Bool := !d.exch && !d.reactEnded && d.live.isEmpty

/-- R396: the record ring of a domain: its place among those of its context, and how many records it has taken. -/
def Debug.ringOf (d : Debug) (gid : Nat) : Nat × Nat :=
  ((d.recorded.map Prod.fst).idxOf gid, ((d.recorded.find? (fun q => decide (q.1 = gid))).map Prod.snd).getD 0)

/-- R396: a record is appended to its domain's ring; a full one loses its oldest. -/
def Debug.record (d : Debug) (gid : Nat) (e : List Word) : Debug :=
  let mine := d.records.filter (fun q => decide (q.1 = gid)) ++ [(gid, e)]
  { d with
    records := d.records.filter (fun q => decide (q.1 ≠ gid)) ++ mine.drop (mine.length - d.logs.records)
    recorded := if d.recorded.any (fun q => decide (q.1 = gid)) then d.recorded.map (fun q => if q.1 = gid then (gid, q.2 + 1) else q)
      else d.recorded ++ [(gid, 1)] }

/-- R396: while a context is armed, each imbalance record goes to the domain's record ring with INSTANT and the context; a full ring
loses its oldest entry. -/
def State.logRecord (s : State) (d : Domain) (r : List Word) : State :=
  match Tab.find? s.grids d.gid with
  | none => s
  | some g => match Tab.find? s.ctxs g.ctx with
    | none => s
    | some c =>
      if c.dbg.armed.isNone then s
      else
        let e := r ++ [d.instant, BitVec.ofNat 64 g.ctx, 0, 0]
        let (i, k) := c.dbg.ringOf d.gid
        let n := c.dbg.logs.records
        let s1 := s.ringWrite c.owner g.ctx (c.dbg.logs.domain + 64 * (n * i + k % n)) 64 (e.foldr (fun w v => w.toNat + 2 ^ 64 * v) 0)
        { s1 with ctxs := Tab.set g.ctx { c with dbg := c.dbg.record d.gid e } s1.ctxs }

/-- R45: the react half ends, and the imbalance record is written. -/
def execReactHalfEnd (dom : Nat) (s : State) : Result :=
  match Tab.find? s.domains dom with
  | none => .next s
  | some d =>
    .next (if d.reactOver && s.halfQuiet d then (s.setDomain dom { d with reactEnded := true, record := imbalance d }).logRecord d (imbalance d) else s)

/-- A blocked instruction of a thread completes; a halted thread stays halted. -/
def State.complete (s : State) (h : Hart) (wait : Status) (len : Nat) : State :=
  let t := s.thread h
  if t.status = wait then s.setThread h { t.advance len with status := .run } else s

def Status.isHalted : Status → Bool
  | .halted _ => true
  | _ => false

/-- R56: a domain halts as a whole: while a member is halted, no half begins. -/
def State.memberHalted (s : State) (d : Domain) : Bool :=
  d.members.any (fun m => !m.exited && (s.thread m.hart).status.isHalted)

/-- R46, R113: the exchange half begins with the slot counter at 0, and the pauses complete, once the events that drain threads have added since
the end of the react half are performed (log 108). -/
def execExchangeHalfStart (dom : Nat) (s : State) : Result :=
  match Tab.find? s.domains dom with
  | none => .next s
  | some d =>
    if !d.reactEnded || d.exch || s.memberHalted d || !s.halfQuiet d then .next s
    else
      let s1 := s.setDomain dom { d with exch := true, slot := 0, stopped := false }
      .next (d.members.foldl (fun r m => if m.exited then r else r.complete m.hart .pause 4) s1)

/-! ## The exchange half -/

/-- R280: XSLOT. -/
def execXslot (d : Fin 32) (s : State) : Result :=
  match s.myDomain s.cur with
  | none => s.sigMisuse 3 0
  | some (_, _, dom) =>
    .next (s.retire (s.me.setX d (if dom.exch && !dom.plan.isEmpty then BitVec.ofNat 64 dom.slot else 0)) 4)

/-- R48, R278: XSEND.AT checks its entry, its slot and its source, then waits for its slot. -/
def execXsendAt (a b : Opnd) (s : State) : Result :=
  let h := s.cur
  let x := s.me.opX a
  let src := s.me.opX b
  match s.myDomain h with
  | none => s.sigMisuse 3 0
  | some (n, i, d) =>
    if isDrain h then s.sigMisuse 3 0
    else if !d.exch then s.sigMisuse 5 0
    else
      let e? := d.plan.find? (fun e => decide (e.sender = i) && decide (e.slot = x.toNat))
      let sent := ((d.members[i]?).map Member.sent).getD []
      match e? with
      | none => s.trapMe 31 (BitVec.ofNat 64 (bits x 0 16))
      | some e =>
        if e.slot ∈ sent then s.trapMe 31 (BitVec.ofNat 64 (bits x 0 16))
        else if e.slot < d.slot then s.trapMe 30 (BitVec.ofNat 64 (bits x 0 16))
        else match s.resolveRange h src.toNat (64 * e.beats) with
          | some (.sram (.core c) off) =>
            if c ≠ h.core ∨ 0x1B0000 < off + 64 * e.beats then s.trapMe 34 src
            else if src.toNat % 64 ≠ 0 then s.trapMe 4 src
            else
              let d1 := { d with
                members := d.members.modify i (fun m => { m with sent := e.slot :: m.sent })
                sends := d.sends ++ [⟨e, off, h, 0, len2 a b⟩] }
              (s.setDomain n d1).block .xsend
          | _ => s.trapMe 34 src

/-- R279: XEND waits for the thread's earlier memory events, then ends the member's exchange half. -/
def execXend (s : State) : Result :=
  let h := s.cur
  match s.myDomain h with
  | none => s.sigMisuse 3 0
  | some (n, i, d) =>
    if isDrain h then s.sigMisuse 3 0
    else if s.me.user.h then s.sigMisuse 6 0
    else if !d.exch then s.sigMisuse 5 0
    else if s.outstandingIn h .sys then s.block .fence
    else
      let s1 := s.setDomain n { d with members := d.members.modify i (fun m => { m with ended := true }) }
      s1.block .xend

/-- R46: the owned slots of an orbit of the partition that runs a grid. -/
def State.ownedSlots (s : State) (gid : Nat) : Nat :=
  match Tab.find? s.grids gid with
  | none => 0
  | some g => match Tab.find? s.ctxs g.ctx with
    | none => 0
    | some c => slotsOf s.orbit c.part

/-- R56, R281: whether a halt has been requested for the context of a grid. -/
def State.gridHalting (s : State) (gid : Nat) : Bool :=
  match Tab.find? s.grids gid with
  | none => false
  | some g => match Tab.find? s.ctxs g.ctx with
    | none => false
    | some c => decide (c.halt ≠ 0)

/-- R49: whether a beat on its way is due: one orbit after its slot. -/
def Flying.due (f : Flying) (slot w : Nat) : Bool := decide (f.slot + w ≤ slot)

/-- R48: the beat of a send that leaves in the current slot, read as it leaves. -/
def State.beatOf (s : State) (slot : Nat) (b : Beat) : Option Flying :=
  if b.entry.slot + b.next = slot then
    let o := (s.core b.hart.core).mowner
    let m := (s.core b.hart.core).sram
    some ⟨b.hart, slot, b.entry.dest + BitVec.ofNat 64 (64 * b.next), BitVec.ofNat 512 (m.readFor o (b.src + 64 * b.next) 64),
      b.entry.tag, b.entry.tagset⟩
  else none

/-- R386: a beat that is to be read from, or written to, a line that the codes cannot repair meets its error first. -/
def State.lineError (s : State) (p : Place) (o : BitVec 12) (off : Nat) : Option State :=
  let ws := (List.range 8).map (fun i => off / 8 + i)
  match s.badLines p ws with
  | [] => if ws.any (fun w => (Tab.find? (s.sram p).soft w).isSome) then some (s.correct p ws) else none
  | l => some (s.mend p o l).2

/-- R386: the errors that the beats of a slot meet in their sources. -/
def State.beatErrors (s : State) (l : List Beat) : Option State :=
  l.findSome? (fun b => s.lineError (.core b.hart.core) (s.core b.hart.core).mowner (b.src + 64 * b.next))

/-- R281: the counter of a domain stops: the sends that wait for later slots are withdrawn, and their threads halt at the instruction. -/
def State.stopExchange (s : State) (dom : Nat) (d : Domain) : State :=
  let slots (m : Member) : List Nat := (d.sends.filter (fun b => decide (b.hart = m.hart))).map (fun b => b.entry.slot)
  let d1 := { d with
    stopped := true
    sends := []
    members := d.members.map (fun m => { m with sent := m.sent.filter (fun k => decide (k ∉ slots m)) }) }
  d.sends.foldl (fun r b =>
    let t := r.thread b.hart
    if t.status = .xsend then r.setThread b.hart { t with status := .halted true } else r) (s.setDomain dom d1)

/-- R46, R48, R56: one slot that the tenant owns: the beats of waiting sends whose slot it is leave, and the counter moves on; in a domain
with E = 0 it stays at 0. While a halt is requested, the counter stops at the first slot at which no send is part-way. DESIGN CHOICE (log 98):
the beats that arrive in a slot land before the beats of that slot read their sources; R48 and R49 give no order. -/
def execExchangeBeatSend (dom : Nat) (s : State) : Result :=
  match Tab.find? s.domains dom with
  | none => .next s
  | some d =>
    let w := s.ownedSlots d.gid
    if !d.exch || w = 0 || d.stopped || d.flying.any (fun f => f.due d.slot w) then .next s
    else if s.gridHalting d.gid && !d.sends.any (fun b => decide (0 < b.next)) then .next (s.stopExchange dom d)
    else if d.plan.isEmpty then .next s
    else
      match s.beatErrors (d.sends.filter (fun b => decide (b.entry.slot + b.next = d.slot))) with
      | some s1 => .next s1
      | none =>
      let moved := d.sends.map (fun b => if b.entry.slot + b.next = d.slot then { b with next := b.next + 1 } else b)
      let gone (b : Beat) : Bool := decide (b.entry.beats ≤ b.next)
      let d1 := { d with
        slot := d.slot + 1
        sends := moved.filter (fun b => !gone b)
        flying := d.flying ++ d.sends.filterMap (s.beatOf d.slot) }
      .next ((moved.filter gone).foldl (fun r b => r.complete b.hart .xsend b.len) (s.setDomain dom d1))

/-- The place that a DEST of window 0x02 or 0x03 names (R47). -/
def destOf (a : Word) : Place × Nat :=
  if bits a 56 8 = 2 then (.core (16 * bits a 25 8 + bits a 21 4), bits a 0 21) else (.cluster (bits a 22 8), bits a 0 22)

/-- R49: a beat is written at its destination in one bank operation, with its tag when TAGSET is 1. -/
def State.landBeat (s : State) (o : BitVec 12) (f : Flying) : State :=
  let (p, off) := destOf f.dest
  let m := s.sram p
  let m1 := m.claim off o
  let m2 := { m1 with cells := writeLe m1.cells off 64 f.data.toNat }
  let m3 := if f.tagset then (List.range 8).foldl (fun r i => r.setTag (off / 8 + i) f.tag) m2 else m2
  { s.setSram p m3 with
    log := s.log ++ Machine.storeRecs s.logSeq f.hart true (some p) (fun l => (BitVec.ofNat 512 (readLe m.cells (64 * l) 64), some (m.ownerOf (64 * l)).toNat)) [off / 64]
    logSeq := s.logSeq + 1 }

/-- The owner of the context that runs a grid. -/
def State.gridOwner (s : State) (gid : Nat) : BitVec 12 :=
  match Tab.find? s.grids gid with
  | none => 0
  | some g => ((Tab.find? s.ctxs g.ctx).map Ctx.owner).getD 0

/-- R49: the oldest beat whose orbit has passed lands. Once a halt has stopped the counter, the beats on their way land as well (R56). -/
def execExchangeArrival (dom : Nat) (s : State) : Result :=
  match Tab.find? s.domains dom with
  | none => .next s
  | some d =>
    match d.flying with
    | [] => .next s
    | f :: rest =>
      if d.stopped || f.due d.slot (s.ownedSlots d.gid) then
        match s.lineError (destOf f.dest).1 (s.gridOwner d.gid) (destOf f.dest).2 with
        | some s1 => .next s1
        | none => .next ((s.putDomain dom { d with flying := rest }).landBeat (s.gridOwner d.gid) f)
      else .next s

/-! ## The latch and the exit of a member -/

/-- R50: whether the exchange half of a domain is over. -/
def Domain.exchangeOver (d : Domain) : Bool :=
  d.exch && d.members.all (fun m => m.ended || m.exited) && d.flying.isEmpty && d.sends.isEmpty

/-- The indexes of the members that have exited. -/
def Domain.exitedIdx (d : Domain) : List Nat :=
  (List.range d.members.length).filter (fun i => ((d.members[i]?).map Member.exited).getD false)

/-- R51: the domain after the latch. -/
def Domain.latched (d : Domain) (now : Nat) : Domain :=
  { d with
    exch := false
    reactEnded := false
    declared := false
    slot := 0
    instant := d.instant + 1
    started := now
    members := d.members.map (fun m => { m with paused := none, ended := false, sent := [] })
    sigs := d.sigs.map (fun g => g.start d.exitedIdx (decide (g.status = .present))) }

/-- R51: the latch of a domain whose exchange half is over. -/
def State.latch (s : State) (dom : Nat) (d : Domain) : State :=
  let s1 := s.setDomain dom (d.latched (s.clockOf d).toNat)
  d.members.foldl (fun r m =>
    if m.exited then r
    else
      let t := r.thread m.hart
      (r.setThread m.hart { t with dcur := t.dnext }).complete m.hart .xend 4) s1

/-- R54: a member exits; the domain closes with its last member (R36). -/
def State.leaveDomain (s : State) (h : Hart) : State :=
  match s.myDomain h with
  | none => s
  | some (n, i, d) =>
    let d1 := ({ d with members := d.members.modify i (fun m => { m with exited := true, left := s.nextId }) }).leaveAll i
    (s.putDomain n d1).wakeReaders d1

end Sys2Proof.Machine
end

