-- ==== Sys2Proof/Machine/VecMem.lean ====
section
/-! DEFINITION. Vector loads and stores, major 0x14 (R216 to R219): the elements, their checks, and the access at one home or
element by element. -/

namespace Sys2Proof.Machine

/-- One active element: its lane and its address. -/
structure Elem where
  lane : Nat
  addr : Word
  deriving DecidableEq, Repr

/-- An element that has passed its checks: its lane, its address, whether it names a register, and its home with the offset there and the
owner under which it goes. -/
structure Checked where
  lane : Nat
  addr : Word
  reg : Bool
  home : Home
  off : Nat
  owner : BitVec 12
  gen : Nat
  deriving DecidableEq, Repr

/-- What checking elements comes to. -/
inductive Checks where
  | ok (es : List Checked) (s : State)
  | stop (r : Result)

/-- Steps 1 to 4 of Table 12.1 for one element of e bytes. -/
def State.checkElem (s : State) (cls : Class) (e : Nat) (misaligned : Bool) (x : Elem) : Checks :=
  let h := s.cur
  let strict := s.strictReact h
  let denied : Bool := !s.pmpOk h x.addr.toNat e cls.need
  let ok (home : Home) (off : Nat) (o : BitVec 12) (g : Nat) (s' : State) : Checks := .ok [⟨x.lane, x.addr, false, home, off, o, g⟩] s'
  match s.resolveRange h x.addr.toNat e with
  | none => .stop (s.trapMe 34 x.addr)
  | some t =>
    if misaligned || decide (x.addr.toNat % e ≠ 0) then .stop (s.trapMe cls.misaligned x.addr)
    else match t with
      | .sram p off =>
        if p ≠ .core h.core ∧ strict then .stop (s.trapMe 32 x.addr)
        else if denied then .stop (s.trapMe cls.denied x.addr)
        else ok (.sram p) off (s.ownerOfHart h) 0 s
      | .virt va =>
        if strict then .stop (s.trapMe 32 x.addr)
        else match s.translate h.core va cls.need with
          | .fault => .stop (s.trapMe cls.pageFault x.addr)
          | .miss => .stop (.next (s.noteMiss h va cls.need))
          | .dirty => .stop (.next (s.noteDirty h va cls.need))
          | .hit pa en => ok (dramHome pa) pa en.owner en.gen (s.touch h.core en)
      | .phys pa =>
        if denied then .stop (s.trapMe cls.denied x.addr)
        else if devAt h.core (s.thread h).level pa then .ok [⟨x.lane, x.addr, true, dramHome pa, pa, 0, 0⟩] s
        else if pa + e ≤ 2 ^ 39 then ok (dramHome pa) pa 0 0 s
        else .stop (.fault (.physicalHole pa))
      | .peer d off =>
        if strict then .stop (s.trapMe 32 x.addr)
        else if denied then .stop (s.trapMe cls.denied x.addr)
        else ok (.peer d) off (s.ownerOfHart h) 0 s

/-- R217: the elements are checked in ascending order, and the first failure traps. -/
def State.checkElems (s : State) (cls : Class) (e : Nat) (misaligned : Bool) : List Elem → List Checked → Checks
  | [], acc => .ok acc.reverse s
  | x :: t, acc => match s.checkElem cls e misaligned x with
    | .ok es s' => s'.checkElems cls e misaligned t (es.reverse ++ acc)
    | .stop r => .stop r

def Home.isSram : Home → Bool
  | .sram _ => true
  | _ => false

/-- The access of one checked element. -/
def Checked.access (c : Checked) (s : State) (id grp : Nat) (cls : Class) (op : AccOp) (e : Nat) (data : BitVec 512) : Access :=
  { mkAccess s s.cur c.addr cls op c.home e [(c.off, c.lane)] data 0 false with id := id, grp := grp, owner := c.owner, gen := c.gen }

/-- R105: whether two elements fall in one 8-byte word of untagged memory. -/
def Checked.sameWord (c d : Checked) : Bool := decide (c.home = d.home) && decide (c.off / 8 = d.off / 8)

/-- R105, R218: a list of elements word by word, each word's in lane order; n bounds the words. -/
def byWord : Nat → List Checked → List (List Checked)
  | 0, _ => []
  | _, [] => []
  | n + 1, c :: t => (c :: t.filter c.sameWord) :: byWord n (t.filter (fun d => !c.sameWord d))

/-- R386: whether the elements of a store write all 64 bytes of the line of one of them. -/
def Checked.fullLine (c : Checked) (e : Nat) (cs : List Checked) : Bool :=
  decide ((((cs.filter (fun d => decide (d.home = c.home) && decide (d.off / 64 = c.off / 64))).map Checked.off).foldr insertAsc [] ).length * e = 64)

/-- The access of the elements of one word. -/
def wordAccess (s : State) (id grp : Nat) (cls : Class) (op : AccOp) (e : Nat) (data : BitVec 512) : List Checked → List Access
  | [] => []
  | c :: t => [{ c.access s id grp cls op e data with elems := (c :: t).map (fun d => (d.off, d.lane)) }]

/-- The accesses of elements of untagged memory, one for each word. -/
def wordAccesses (s : State) (cls : Class) (op : AccOp) (e : Nat) (data : BitVec 512) (cs : List Checked) : List Access :=
  let ws := byWord cs.length cs
  (((List.range ws.length).zipWith (fun i w => wordAccess s (s.nextId + i) s.nextId cls op e data w) ws).flatten).map (fun a =>
    { a with full := decide (op = .store) && cs.any (fun c => decide (c.home = a.home) && a.elems.any (fun x => decide (x.1 = c.off)) && c.fullLine e cs) })

/-- R352: the elements that name registers are performed at once, in lane order. -/
def State.regAccesses (s : State) : List Access → BitVec 512 → BitVec 512 × State
  | [], got => (got, s)
  | a :: t, got => match s.physOp a with
    | (.value v _, s1) => s1.regAccesses t (got ||| v)
    | (.trap _ _ _, s1) => s1.regAccesses t got

/-- R217, R105: accesses to untagged memory, each word on its own; a store is fire-and-forget once they are on their way (R178). -/
def State.spread (s : State) (cls : Class) (op : AccOp) (e : Nat) (data : BitVec 512) (es : List Checked) (f : Finish) (len : Nat) :
    Result :=
  let h := s.cur
  let store := decide (op = .store)
  let (got, s1) := s.regAccesses ((es.filter Checked.reg).map (fun c => c.access s s.nextId s.nextId cls op e data)) 0
  let later := wordAccesses s1 cls op e data (es.filter (fun c => !c.reg))
  let s2 := { s1 with nextId := s1.nextId + later.length + 1 }
  let s3 := later.foldl (fun (r : State) a => r.send (.access { a with cleared := store })) s2
  if store || later.isEmpty then .next (s3.finishAccess h f got len)
  else .next (s3.await h (later.map Access.id) f got len (later.all (fun a => s3.looseAt a.home f)))

/-- R217: a vector access over its active elements. -/
def State.vecAccess (s : State) (cls : Class) (op : AccOp) (e : Nat) (misaligned : Bool) (data : BitVec 512) (es : List Elem)
    (f : Finish) (len : Nat) : Result :=
  match es with
  | [] => .next (s.retire s.me len)
  | _ =>
    match s.checkElems cls e misaligned es [] with
    | .stop r => r
    | .ok cs s1 =>
      match cs with
      | [] => .next (s1.retire s1.me len)
      | c0 :: _ =>
        if cs.any (fun c => c.home.isSram) then
          match cs.find? (fun c => decide (c.home ≠ c0.home)) with
          | some c => s1.trapMe 34 c.addr
          | none =>
            let a := { c0.access s1 s1.nextId s1.nextId cls op e data with
              vec := true, elems := cs.map (fun c => (c.off, c.lane)) }
            match c0.home with
            | .sram p => s1.sramAccess p a f len
            | _ => s1.spread cls op e data cs f len
        else s1.spread cls op e data cs f len

/-- R217: the active elements below n, at the addresses that f gives. -/
def Thread.elems (t : Thread) (e n : Nat) (f : Nat → Word) : List Elem :=
  ((List.range n).filter (fun i => active (t.getM 0) e i)).map (fun i => ⟨i, f i⟩)

/-- Table 13.11: the address of element i of a row or column. -/
def lineAddr (base : Word) (e : Nat) (col : Bool) (i : Nat) : Word :=
  base + BitVec.ofNat 64 (if col then (if e = 4 then 128 * i else 64 * i) else i * e)

/-- Table 13.11: the address of element i of a strided access. -/
def strideAddr (base step : Word) (i : Nat) : Word := base + BitVec.ofNat 64 i * step

/-- Table 13.11: the address of element i of an indexed access. -/
def indexAddr (base : Word) (idx : Vec) (e i : Nat) : Word := base + BitVec.ofInt 64 (sext 32 (lane idx 4 i) * (e : Int))

/-- The finish of a vector load. -/
def vecFinish (d : Fin 32) (e : Nat) (indexed : Bool) : Finish := .writeV d e (if indexed ∧ e < 4 then some 16 else none)

/-- The integer lane type in which a constant data source of a store is read. -/
def widthOf (e : Width) : LType := widthLt e

/-- R216: VLD. -/
def execVld (d : Fin 32) (a b : Opnd) (e : Width) (col : Bool) (s : State) : Result :=
  let t := s.me
  let n := widthBytes e
  let base := t.opX a + t.opX b
  s.vecAccess .load .load n (!col && decide (base.toNat % 64 ≠ 0)) 0 (t.elems n (64 / n) (lineAddr base n col))
    (vecFinish d n false) (len2 a b)

/-- R216: VST. -/
def execVst (d a b : Opnd) (e : Width) (col : Bool) (s : State) : Result :=
  let t := s.me
  let n := widthBytes e
  let base := t.opX a + t.opX b
  s.vecAccess .store .store n (!col && decide (base.toNat % 64 ≠ 0)) (t.opV (widthOf e) d) (t.elems n (64 / n) (lineAddr base n col))
    .drop (4 + d.litBytes + a.litBytes + b.litBytes)

/-- R216: VLDS. -/
def execVlds (d : Fin 32) (a b : Opnd) (e : Width) (s : State) : Result :=
  let t := s.me
  let n := widthBytes e
  s.vecAccess .load .load n false 0 (t.elems n (64 / n) (strideAddr (t.opX a) (t.opX b))) (vecFinish d n false) (len2 a b)

/-- R216: VSTS. -/
def execVsts (d a b : Opnd) (e : Width) (s : State) : Result :=
  let t := s.me
  let n := widthBytes e
  s.vecAccess .store .store n false (t.opV (widthOf e) d) (t.elems n (64 / n) (strideAddr (t.opX a) (t.opX b))) .drop
    (4 + d.litBytes + a.litBytes + b.litBytes)

/-- R216: VLDX. -/
def execVldx (d : Fin 32) (a b : Opnd) (e : Width) (s : State) : Result :=
  let t := s.me
  let n := widthBytes e
  s.vecAccess .load .load n false 0 (t.elems n 16 (indexAddr (t.opX a) (t.opV .i32 b) n)) (vecFinish d n true) (len2 a b)

/-- R216: VSTX. -/
def execVstx (d a b : Opnd) (e : Width) (s : State) : Result :=
  let t := s.me
  let n := widthBytes e
  s.vecAccess .store .store n false (t.opV (widthOf e) d) (t.elems n 16 (indexAddr (t.opX a) (t.opV .i32 b) n)) .drop
    (4 + d.litBytes + a.litBytes + b.litBytes)

end Sys2Proof.Machine
end

