-- ==== Sys2Proof/Machine/Privileged.lean ====
section
/-! DEFINITION. Major 0x1F but for the instructions on contexts (R324 to R333): calls, breakpoints, returns, WFI, the TLB instructions
and the engine image. -/

namespace Sys2Proof.Machine

/-- R324: an instruction on a core or at a level that Table 22.1 does not mark is illegal. -/
def State.privileged (s : State) (i : Instr) (r : Result) : Result :=
  if privOk s.cur.core s.me.level i then r else s.illegal i

/-- R325: the M-level registers of a call that the monitor answers: it returns past the call with a value in x10. -/
def Thread.answerCall (t : Thread) (core cause : Nat) (v : Word) : Thread :=
  let t1 := t.saveM (causeWord false false false cause) 0
  let t2 : Thread := { t1 with priv := { t1.priv with mepc := t.pc + 4 }, rep := t.rep }
  ((t2.restoreM (lowestLevel core)).setX 10 v).advance 4

/-- R325: the monitor's answer to function 0, the version, and to any function that it does not know. -/
def callAnswer (n : Word) : Word := if n = 0 then 0x10000 else -1

/-- R325: ECALL is taken at M; the monitor answers it, passes a hub core's call from U to S, or forwards function 1. -/
def execEcall (s : State) : Result :=
  let h := s.cur
  let t := s.me
  let n := t.getX 10
  let code := if t.level = .u then 8 else if t.level = .s then 9 else 11
  match kindOf h.core, t.level with
  | .compute, .u =>
    if !isUserThread h then s.trapMe 8 0
    else if n = 1 then
      let t1 := t.saveM (causeWord false false false 8) 0
      let s1 := s.setMe { t1 with priv := { t1.priv with mepc := t.pc + 4 } }
      .next ({ s1 with trapped := true }.forward h 8 0 0 false)
    else .next ({ s with trapped := true }.setMe (t.answerCall h.core 8 (callAnswer n)))
  | .compute, _ => .next ({ s with trapped := true }.setMe (t.answerCall h.core 11 (-1)))
  | _, .u =>
    let t1 := (t.saveM (causeWord false false false 8) 0).restoreM (lowestLevel h.core)
    .next ({ s with trapped := true }.setMe ({ t1 with rep := t.rep }.enterS (causeWord false false false 8) 0))
  | _, _ => .next ({ s with trapped := true }.setMe (t.answerCall h.core code (callAnswer n)))

/-- R326: EBREAK. -/
def execEbreak (s : State) : Result := s.trapMe 3 s.me.pc

/-- R327: MRET. -/
def execMret (k : Bool) (s : State) : Result :=
  s.privileged (.mret k)
    (.next (s.setMe ({ s.me with retired := s.me.retired + 1 }.leaveM (lowestLevel s.cur.core))))

/-- R327, R316: SRET; on a hub core it ends the handling of a report. -/
def execSret (k : Bool) (s : State) : Result :=
  s.privileged (.sret k)
    (let s1 := s.setMyCore { s.myCore with handling := false }
     .next (s1.setMe ({ s1.me with retired := s1.me.retired + 1 }.leaveS)))

/-- R328: WFI. -/
def execWfi (k : Bool) (s : State) : Result :=
  s.privileged (.wfi k)
    (let p := s.me.priv
     if (p.mip &&& p.mie) ||| (p.sip &&& p.sie) ≠ 0 then .next (s.retire s.me 4) else s.block .wfi)

/-! ## The TLB instructions -/

/-- What a privileged instruction's own load comes to. -/
inductive SysRead where
  | ok (v : Nat) (s : State)
  | stop (r : Result)

/-- R329, R335: n bytes, a multiple of 8 and at most 64, at an aligned address read as one load of the issuing core over its words (R76,
log 91): one event at an SRAM or DRAM home, and one for each word at a peer or in the partition registers (R352). The instruction is executed again with what the load has
gathered. -/
def State.sysRead (s : State) (a : Word) (n align : Nat) : SysRead :=
  let h := s.cur
  let k := n / 8
  let elems (off : Nat) : List (Nat × Nat) := (List.range k).map (fun i => (off + 8 * i, i))
  let get (home : Home) (off : Nat) : Access := mkAccess s h a .load .load home 8 (elems off) 0 0 true
  if s.me.gathered ≠ [] then
    .ok ((s.me.gathered.zip (List.range k)).foldl (fun acc p => acc + p.1.toNat * 2 ^ (64 * p.2)) 0) (s.setMe { s.me with gathered := [] })
  else match s.resolveRange h a.toNat n with
    | none => .stop (s.trapMe 34 a)
    | some t =>
      if a.toNat % align ≠ 0 then .stop (s.trapMe 4 a)
      else if !s.pmpOk h a.toNat n .read then .stop (s.trapMe 5 a)
      else match t with
        | .sram p off => .stop (s.sramAccess p (get (.sram p) off) (.indices k 8) 0)
        | .phys pa =>
          if pa + n ≤ 2 ^ 39 then .stop (.next (s.travel (get (dramHome pa) pa) false (.indices k 8) 0))
          else if (List.range k).all (fun i => devAt h.core s.me.level (pa + 8 * i)) then
            let (v, s1) := s.regAccesses ((List.range k).map (fun i => { get (dramHome pa) pa with elems := [(pa + 8 * i, i)] })) 0
            .ok v.toNat s1
          else .stop (.fault (.physicalHole pa))
        | .virt va => match s.translate h.core va .read with
          | .hit pa e => .stop (.next ((s.touch h.core e).travel { get (dramHome pa) pa with owner := e.owner, gen := e.gen } false (.indices k 8) 0))
          | .miss => .stop (.next (s.noteMiss h va .read))
          | .dirty => .stop (.next s)
          | .fault => .stop (s.trapMe 13 a)
        | .peer d off =>
          let as : List Access := (List.range k).map (fun i =>
            { get (.peer d) off with id := s.nextId + i, elems := [(off + 8 * i, i)] })
          let s1 := as.foldl (fun (x : State) b => x.send (.access b)) { s with nextId := s.nextId + k }
          .stop (.next (s1.await h (as.map Access.id) (.indices k 8) 0 0))

/-- Table 22.3: a TLB entry from its image; none when it is malformed (R329). -/
def tlbImage (v : Nat) : Option TlbEntry :=
  let d (i : Nat) : Word := BitVec.ofNat 64 (v / 2 ^ (64 * i))
  let va := 2 ^ 19 * bits (d 0) 19 37
  let frame := 2 ^ 19 * bits (d 1) 19 37
  let size := bits (d 0) 12 2
  let page := 2 ^ (19 + 6 * size)
  if !zeroBits (d 0) 56 8 || !zeroBits (d 0) 14 5 || !zeroBits (d 1) 56 8 || !zeroBits (d 1) 16 3 || !zeroBits (d 2) 16 48 ||
      decide (d 3 ≠ 0) || decide (size = 3) || decide (va % page ≠ 0) || decide (frame % page ≠ 0) then none
  else some ⟨va, size, bits (d 0) 0 12, frame, bits (d 1) 0 16, bit (d 2) 15, bit (d 2) 14, bit (d 2) 13, bit (d 2) 12,
    BitVec.ofNat 12 (bits (d 2) 0 12)⟩

/-- R329: entries without those of the address space that cover an entry's VA. -/
def dropCovering (e : TlbEntry) (l : List TlbEntry) : List TlbEntry :=
  l.filter (fun x => !(decide (x.asid = e.asid) && x.covers e.va))

/-- R340: makes room among 128 entries: a stale one goes first, then the least recently used. -/
def State.evict (s : State) (cluster : Nat) (l : List TlbEntry) : List TlbEntry :=
  if l.length < 128 then l
  else match l.find? (fun x => decide (x.gen ≠ s.genOf cluster x.asid)) with
    | some x => l.erase x
    | none => l.tail

/-- R342, R345: an entry is installed: the misses of its address space that it covers are retired; the accesses that wait on them, and those
that wait for a dirty page that it covers with D = 1, look up again: a fetch starts over, an access goes on. -/
def Core.retireMisses (c : Core) (e : TlbEntry) : Core :=
  if e.asid ≠ c.asid then c
  else
    let left := c.misses.filter (fun page => !e.covers (2 ^ 19 * page))
    let clean (va : Nat) : Bool := e.d && e.covers va
    let port (r : Running) : Running := { r with port := { r.port with
      dirty := r.port.dirty.filter (fun va => !clean va), miss := r.port.miss.filter (fun page => page ∈ left) } }
    { c with
      misses := left
      running := c.running.map port
      loading := c.loading.map port
      threads := c.threads.map (fun q => (q.1, match q.2.status with
        | .miss page fetch => if page ∈ left then q.2 else { q.2 with status := if fetch then .run else .again }
        | .dirty va => if clean va then { q.2 with status := .again } else q.2
        | _ => q.2)) }

/-- R342, R345: the redirected accesses of a core that wait for a dirty page of the entry's address space look up again, and its transfers that wait
for one or for a miss. -/
def State.retireNotices (s : State) (core : Nat) (e : TlbEntry) : State :=
  let clean (asid va : Nat) : Bool := decide (asid = e.asid) && e.d && e.covers va
  let k := clusterOf core
  let c := s.cluster k
  let again (m : Msg) : Msg := match m with
    | .access a =>
      if a.hart.core = core ∧ a.home = .virt ∧ clean a.asid (a.elems.headD (0, 0)).1 then .access { a with notified := false } else .access a
    | m => m
  ({ s with net := s.net.map again }).setCluster k { c with transfers := c.transfers.map (fun (x : Transfer) =>
      if x.hart.core = core then { x with port := { x.port with
        dirty := x.port.dirty.filter (fun va => !clean (x.ctx.toNat % 4096) va), miss := x.port.miss.filter (fun page => page ∈ (s.core core).misses) } }
      else x) }

/-- R329: installs an entry in the TLB of a compute core. -/
def State.installTlb (s : State) (core : Nat) (e : TlbEntry) : State :=
  let c := s.core core
  let c1 := { c with tlb := s.evict (clusterOf core) (dropCovering e c.tlb) ++ [e] }.retireMisses e
  { (s.setCore core c1).retireNotices core e with
    walk := (clusterOf core, e) :: s.walk.filter (fun q => decide (q.1 ≠ clusterOf core) || !(dropCovering e [q.2]).isEmpty) }

/-- R329: TLB.WR. -/
def execTlbWr (k : Bool) (d : Fin 32) (a b : Opnd) (s : State) : Result :=
  s.privileged (.tlbWr k d a b)
    (match s.sysRead (s.me.opX b) 32 32 with
    | .stop r => r
    | .ok v s1 =>
      let x := s.me.opX a
      let s2 := match tlbImage v with
        | some e => if zeroBits x 4 60 then s1.installTlb (16 * clusterOf s.cur.core + bits x 0 4) e else s1
        | none => s1
      let bad : Bool := (tlbImage v).isNone || !zeroBits x 4 60
      .next (s2.retire (s2.me.setX d (if bad then 1 else 0)) (len2 a b)))

/-- R330: whether a selector names an entry. -/
def selects (b : Word) (e : TlbEntry) : Bool :=
  match bits b 62 2 with
  | 0 => true
  | 1 => decide (e.asid = bits b 0 12)
  | _ => decide (e.asid = bits b 0 12) && e.covers (2 ^ 19 * bits b 19 37)

/-- R330: TLB.INV. -/
def execTlbInv (k : Bool) (d : Fin 32) (a b : Opnd) (s : State) : Result :=
  s.privileged (.tlbInv k d a b)
    (let x := s.me.opX a
     let w := s.me.opX b
     if !zeroBits x 16 48 || !zeroBits w 56 6 || !zeroBits w 12 7 || decide (bits w 62 2 = 3) then
       .next (s.retire (s.me.setX d 1) (len2 a b))
     else
       let s1 := ((List.range 16).filter (fun i => bit x i)).foldl (fun r i =>
         let n := 16 * clusterOf s.cur.core + i
         let c := r.core n
         r.setCore n { c with tlb := c.tlb.filter (fun e => !selects w e) }) s
       let s2 := if zeroBits x 0 16 then s1 else
         { s1 with walk := s1.walk.filter (fun q => decide (q.1 ≠ clusterOf s.cur.core) || !selects w q.2) }
       .next (s2.retire (s2.me.setX d 0) (len2 a b)))

/-- R331: whether generation g is older than G. -/
def olderGen (g big : Nat) : Bool :=
  let n := (big + 65536 - g % 65536) % 65536
  decide (1 ≤ n) && decide (n ≤ 32767)

/-- R331: the translated accesses that used an older generation of an address space and are still on their way. -/
def State.olderInFlight (s : State) (asid gen : Nat) : List Nat :=
  let old (a : Access) : Bool := decide (kindOf a.hart.core = .compute) && a.home.isDram && decide (a.asid = asid) && olderGen a.gen gen
  s.net.flatMap (fun m => match m with
    | .reply a _ => if old a then [a.id] else []
    | m => (m.accesses.filter old).map Access.id)

/-- R331: XLATE.DRAIN waits for the older accesses that are on their way when it issues, and for none that translates later. -/
def execXlateDrain (k : Bool) (a b : Opnd) (s : State) : Result :=
  s.privileged (.xlateDrain k a b)
    (let now := s.olderInFlight (bits (s.me.opX a) 0 12) (bits (s.me.opX b) 0 16)
     let left := match s.me.drain with
       | none => now
       | some ids => ids.filter (fun i => decide (i ∈ now))
     if left = [] then .next (s.retire { s.me with drain := none } (len2 a b))
     else .next (s.setMe { s.me with drain := some left }))

/-! ## The engine image (Table 22.4) -/

/-- A piece of an image: its offset, its size and its value. -/
abbrev Seg := Nat × Nat × Nat

/-- An image as a number. -/
def segsNat (l : List Seg) : Nat := l.foldl (fun acc p => acc + 256 ^ p.1 * (p.2.2 % 256 ^ p.2.1)) 0

/-- R332: a plane in the image. -/
def Plane.segs (p : Plane) (e : Engine) (at_ : Nat) : List Seg :=
  let groups := if sparseOf e.cfg = 0 then 0 else 2 * chunkOf e.mf / 64
  [(at_, 32768, digits 4 (fun k => (Tab.get 0 p.vals k).toNat) 8192),
   (at_ + 32768, 1024, digits 8 (fun k => if k % 4 < groups then ((Tab.find? p.masks k).getD Config.clearedMask).toNat else 0) 128),
   (at_ + 33792, 32, digits 1 (fun n => (Tab.get 127 p.scales n).toNat) 32)]

/-- Table 22.4: the place of element k of the image's 32 query rows of 128 in the query buffer, whose rows are HDIM elements long; a row of a
context with HDIM 64 has no element beyond its first 64. -/
def queryKey (root : Word) (k : Nat) : Option Nat :=
  if headDim root = 64 then (if k % 128 < 64 then some (64 * (k / 128) + k % 128) else none) else some k

/-- R332: the engine and attention state as an image. -/
def Engine.image (e : Engine) (root : Word) : List Seg :=
  [(0, 8, e.cfg.toNat + 256 * e.mf), (8, 8, e.drainEntry.toNat)] ++
  (List.range 4).map (fun i => (16 + 8 * i, 8, match Tab.find? e.scaleRecs i with
    | some r => r.woff.toNat + 2 ^ 32 * r.aoff.toNat + 2 ^ 63 * r.set.toNat
    | none => 0)) ++
  [(64, 16384, digits 4 (fun k => (Tab.get 0 e.tiles k).toNat) 4096)] ++ e.active.segs e 16448 ++ e.shadow.segs e 50304 ++
  [(84160, 8, e.dupCount + 2 ^ 32 * e.dupBase.toNat), (84168, 256, digits 4 (fun j => (Tab.get 0 e.dupMap j).toNat) 64),
   (84480, 8192, digits 2 (fun k => ((queryKey root k).map (fun i => (Tab.get 0 e.query i).toNat)).getD 0) 4096),
   (92672, 512, digits 8 (fun k => (Tab.get 0 (if k % 2 = 0 then e.rowHead else e.rowLimit) (k / 2)).toNat) 64),
   (93184, 320, e.attnState root % 256 ^ 264)]

/-- R333: a plane of an image; its scale offset, which the image does not hold, is free (log 23). -/
def planeOf (v at_ : Nat) (soff : BitVec 21) : Plane :=
  ⟨tabOf 0 8192 (fun k => BitVec.ofNat 32 (v / 256 ^ (at_ + 4 * k))),
   (List.range 128).map (fun k => (k, BitVec.ofNat 64 (v / 256 ^ (at_ + 32768 + 8 * k)))),
   tabOf 127 32 (fun n => BitVec.ofNat 8 (v / 256 ^ (at_ + 33792 + n))), soff⟩

/-- R333: the engine and attention state of an image; none when it is malformed. -/
def engineOf (root : Word) (v : Nat) (soff1 soff2 : BitVec 21) : Option Engine :=
  let d (off : Nat) : Word := BitVec.ofNat 64 (v / 256 ^ off)
  let cfg : BitVec 6 := (d 0).setWidth 6
  let mf := bits (d 0) 8 3
  let map : Cmd := ⟨⟨0, 0⟩, .m, .mxDup false (.reg 0), 0, 0, 0, 0, 0, 0, 0, Vector.replicate 16 0, 0⟩
  let rec' (i : Nat) : Word := d (16 + 8 * i)
  let base : Engine := { Engine.init with
    cfg := cfg
    mf := mf
    drainEntry := d 8
    active := planeOf v 16448 soff1
    shadow := planeOf v 50304 soff2
    tiles := tabOf 0 4096 (fun k => BitVec.ofNat 32 (v / 256 ^ (64 + 4 * k)))
    scaleRecs := ((List.range 4).filter (fun i => decide (rec' i ≠ 0))).map (fun i =>
      (i, ⟨bit (rec' i) 63, BitVec.ofNat 21 (bits (rec' i) 0 21), BitVec.ofNat 21 (bits (rec' i) 32 21)⟩))
    query := ((List.range 4096).filterMap (fun k => (queryKey root k).map (fun i => (i, BitVec.ofNat 16 (v / 256 ^ (84480 + 2 * k)))))).filter
      (fun p => decide (p.2 ≠ 0))
    rowHead := tabOf 0 32 (fun r => d (92672 + 16 * r))
    rowLimit := tabOf 0 32 (fun r => d (92680 + 16 * r))
    amax := tabOf negInf 32 (fun r => BitVec.ofNat 32 (v / 256 ^ (93184 + 4 * r)))
    asum := tabOf 0 32 (fun r => BitVec.ofNat 32 (v / 256 ^ (93312 + 4 * r))) }
  if !zeroBits (d 0) 6 2 || !zeroBits (d 0) 11 53 || !cfgOk mf cfg (d 8) ||
      (List.range 4).any (fun i => !zeroBits (rec' i) 21 11 || !zeroBits (rec' i) 53 10) ||
      decide (v / 256 ^ 48 % 256 ^ 16 ≠ 0) || decide (v / 256 ^ (16448 + 33824) % 256 ^ 32 ≠ 0) ||
      decide (v / 256 ^ (50304 + 33824) % 256 ^ 32 ≠ 0) || decide (v / 256 ^ 84424 % 256 ^ 56 ≠ 0) ||
      (List.range 32).any (fun r => !zeroBits (d (92672 + 16 * r)) 34 29 || !zeroBits (d (92680 + 16 * r)) 24 40) ||
      !zeroBits (d 93440) 8 56 || decide (bits (d 93440) 0 2 = 3) then none
  else match base.doDup map (v / 256 ^ 84160 % 256 ^ 264) with
    | .inl _ => none
    | .inr e => some e

/-- Where a save engine's byte goes: a tagged memory, DRAM under a key, or the partition registers (R352); nothing of it reaches another
device. -/
inductive RawAt where
  | sram (p : Place) (off : Nat)
  | dram (key pa : Nat)
  | regs (pa : Nat)
  | away

/-- What finding the places of a save engine's lines comes to. -/
inductive RawMap where
  | ok (l : List RawAt) (s : State)
  | wait (s : State)
  | fault (a : Word) (s : State)

/-- R332, R335, R340: where 64-byte lines from an address on lie, n of them, translated for a thread at the level of its instruction. -/
def State.rawMap (s : State) (h : Hart) (l : Level) (need : Need) (a : Word) : Nat → List RawAt → RawMap
  | 0, acc => .ok acc.reverse s
  | n + 1, acc =>
    match s.rangeAt h l a.toNat 64 with
    | none => .fault a s
    | some (.sram p off) => s.rawMap h l need (a + 64) n (.sram p off :: acc)
    | some (.phys pa) =>
      if pa + 64 ≤ 2 ^ 39 then s.rawMap h l need (a + 64) n (.dram 0 pa :: acc)
      else if (List.range 8).all (fun i => devAt h.core l (pa + 8 * i)) then s.rawMap h l need (a + 64) n (.regs pa :: acc)
      else .fault a s
    | some (.peer _ _) => s.rawMap h l need (a + 64) n (.away :: acc)
    | some (.virt va) => match s.translate h.core va need with
      | .hit pa e => (s.touch h.core e).rawMap h l need (a + 64) n (.dram ((s.keyOf e.owner).getD 0) pa :: acc)
      | .fault => .fault a s
      | .miss => .wait (s.noteMiss h va need)
      | .dirty => .wait (s.noteDirty h va need)

/-- R332: writes n bytes of a save engine at a place: no table is consulted, and a line of SRAM takes the owner. -/
def State.rawWrite (s : State) (o : BitVec 12) (p : RawAt) (n v : Nat) : State :=
  match p with
  | .sram q off =>
    let m := (s.sram q).claim off o
    s.setSram q { m with cells := writeLe m.cells off n v }
  | .dram key pa => { s with dram := s.dram.write key pa n v }
  | .regs pa => (List.range (n / 8)).foldl (fun r i => match devReg (pa + 8 * i) with
    | some x => r.writeDev x (BitVec.ofNat 64 (v / 2 ^ (64 * i)))
    | none => r) s
  | .away => s

/-- Reads n bytes at a place without a table. -/
def State.rawRead (s : State) (o : BitVec 12) (p : RawAt) (n : Nat) : Nat :=
  match p with
  | .sram q off => (s.sram q).readFor o off n
  | .dram key pa => s.dram.read key pa n
  | .regs pa => ((List.range (n / 8)).map (fun i => ((devReg (pa + 8 * i)).map (fun x => (s.readDev x).toNat * 2 ^ (64 * i))).getD 0)).sum
  | .away => leValue ((List.range n).map (fun i => Config.peerCode s.ticks i))

/-- R386: a save engine meets the lines of a list, each with whether it writes all of it: the index of the first whose error stands against it, if
one does. -/
def State.rawMeet (s : State) (o : BitVec 12) : List (RawAt × Bool) → Nat → Option Nat × State
  | [], _ => (none, s)
  | (p, full) :: t, i => match p with
    | .sram q off =>
      let ws := (List.range 8).map (fun j => off / 8 + j)
      match s.mend q o (s.badLines q ws) with
      | (true, s1) => (some i, s1)
      | (false, s1) => (s1.correct q ws).rawMeet o t (i + 1)
    | .dram _ pa =>
      let s1 := s.meetLines [pa / 64]
      if full then { s1 with dram := { s1.dram with poison := Tab.del (pa / 64) s1.dram.poison } }.rawMeet o t (i + 1)
      else if s1.dram.poisoned (pa / 64) then (some i, s1) else s1.rawMeet o t (i + 1)
    | _ => s.rawMeet o t (i + 1)

/-- Writes an image, line by line. -/
def State.rawWrites (s : State) (o : BitVec 12) : List RawAt → Nat → State
  | [], _ => s
  | p :: t, v => (s.rawWrite o p 64 (v % 2 ^ 512)).rawWrites o t (v / 2 ^ 512)

/-- Reads an image, line by line. -/
def State.rawReads (s : State) (o : BitVec 12) : List RawAt → Nat
  | [] => 0
  | p :: t => s.rawRead o p 64 + 2 ^ 512 * s.rawReads o t

/-- R332, R333, R386: the address checks of MX.SAVE and MX.LOAD, the wait for the engine, and the places of the 93,504 bytes, whose lines must have
no error that stands against the access. -/
def State.engineImageAt (s : State) (a : Word) (need : Need) (f : List RawAt → State → Result) : Result :=
  let h := s.cur
  match s.resolveRange h a.toNat 93504 with
  | none => s.trapMe 34 a
  | some _ =>
    if a.toNat % 64 ≠ 0 then s.trapMe 6 a
    else if !s.myCore.cmds.isEmpty then s.block .engine
    else match s.rawMap h s.me.level need a 1461 [] with
      | .ok l s1 => match s1.rawMeet s1.myCore.mowner (l.map (fun p => (p, decide (need = .write)))) 0 with
        | (none, s2) => f l s2
        | (some i, s2) => .next (s2.faultOf h 37 (a + BitVec.ofNat 64 (64 * i)) 0)
      | .wait s1 => .next s1
      | .fault v s1 => .next (s1.trap h (if need = .write then 15 else 13) v)

/-- R332: MX.SAVE. -/
def execMxSave (k : Bool) (a : Opnd) (s : State) : Result :=
  s.privileged (.mxSave k a)
    (s.engineImageAt (s.me.opX a) .write (fun l s1 =>
      let s2 := s1.rawWrites s1.myCore.mowner l (segsNat (s1.myCore.engine.image s1.myCore.cmroot))
      .next (s2.retire s2.me (len1 a))))

/-- R333: MX.LOAD. -/
def execMxLoad (k : Bool) (d : Fin 32) (a : Opnd) (s : State) : Result :=
  s.privileged (.mxLoad k d a)
    (s.engineImageAt (s.me.opX a) .read (fun l s1 =>
      let (w1, s2) := s1.draw
      let (w2, s3) := s2.draw
      let e := engineOf s3.myCore.cmroot (s3.rawReads s3.myCore.mowner l) (w1.setWidth 21) (w2.setWidth 21)
      let s4 := s3.setMyCore { s3.myCore with engine := e.getD Engine.init }
      .next (s4.retire (s4.me.setX d (if e.isSome then 0 else 1)) (len1 a))))

end Sys2Proof.Machine
end

