-- ==== Sys2Proof/Machine/Context.lean ====
section
/-! DEFINITION. The end of a node (R196), hints (R197), and halts of a context (R334, R372 to R374): how each thread, engine and
transfer comes to rest, and when the halt is complete. -/

namespace Sys2Proof.Machine

def State.setCtx (s : State) (n : Nat) (c : Ctx) : State := { s with ctxs := Tab.set n c s.ctxs }

/-! ## The end of a node -/

/-- A group whose nodes have all exited is finished, and its context's account is brought up to date (R382). -/
def State.finishGroup (s : State) (h : Hart) : State :=
  let gid := (s.thread h).grid
  match Tab.find? s.grids gid with
  | none => s
  | some g =>
    let ended (r : Group) : Bool := decide (r.state = 1) && decide (h.core ∈ r.cores.map (fun j => 16 * r.cluster + j)) &&
      r.cores.all (fun j => (List.range 4).all (fun t => decide ((s.thread ⟨16 * r.cluster + j, t⟩).status = .idle)))
    if g.groups.any ended then
      let s := s.settleEnergy g.ctx
      { s with grids := Tab.set gid { g with groups := g.groups.map (fun r => if ended r then { r with state := 2 } else r) } s.grids }
    else s

/-- R221: the generators bound to a thread are unbound when its node ends. -/
def Core.unbind (c : Core) (th : Nat) : Core :=
  { c with gens := c.gens.map (fun g => if g.bound = some th then { g with bound := none, exhausted := true } else g) }

/-- R196: the inbox entries of a thread are discarded, also those that the monitor holds for it, and its SPILLCNT is 0. -/
def Core.forgetEntries (c : Core) (th : Nat) : Core :=
  { c with
    inbox := c.inbox.filter (fun e => decide (e.dst.val ≠ th))
    spillStore := c.spillStore.filter (fun e => decide (e.dst.val ≠ th))
    spillcnt := c.spillcnt.set (th % 4) 0 (Nat.mod_lt _ (by decide)) }

/-- R196, R251: the completion records of an exited thread are discarded, those on their way too. -/
def State.forgetTransfers (s : State) (h : Hart) : State :=
  { s with
    clusters := s.clusters.map (fun q => (q.1, { q.2 with
      transfers := q.2.transfers.map (fun x => if x.hart = h then { x with gone := true } else x) }))
    net := s.net.filter (fun m => match m with
      | .record _ dst e _ => !(decide (dst = h.core) && decide ((Entry.mk e false).dst.val = h.th))
      | _ => true) }

/-- R196: the node of a thread ends. -/
def State.endNode (s : State) (h : Hart) : State :=
  let s1 := (s.leaveDomain h).forgetTransfers h
  let s2 := s1.setCore h.core (((s1.core h.core).unbind h.th).forgetEntries h.th)
  let t := s2.thread h
  (s2.setThread h { t with status := .idle, member := none, rep := none, hint := none, retired := t.retired + 1 }).finishGroup h

/-- R196: NEXIT. -/
def execNexit (s : State) : Result :=
  let h := s.cur
  if isDrain h then s.misuse 1
  else if isSpill h then s.misuse 2
  else match s.takeDeferred with
    | some r => r
    | none => if s.myCore.busyFor h then s.block .engine else .next (s.endNode h)

/-! ## Hints (R197) -/

/-- Table 12.14: whether a descriptor doubleword is well formed. -/
def rangeOk (d : Word) : Bool :=
  zeroBits d 42 22 && decide (bits d 21 21 % 64 = 0) && decide (bits d 0 21 % 64 = 0) && decide (bits d 0 21 + bits d 21 21 ≤ 0x1B0000)

/-- R197: the ranges that b names: none for 0; nothing when b or the descriptor is not valid. -/
def State.hintRanges (s : State) (h : Hart) (b : Word) : Option (List (Nat × Nat)) :=
  if b = 0 then some []
  else if b.toNat % 64 ≠ 0 ∨ 0x1B0000 < b.toNat + 32 then none
  else
    let m := (s.core h.core).sram
    let ds := (List.range 4).map (fun i => BitVec.ofNat 64 (m.readFor (s.ownerOfHart h) (b.toNat + 8 * i) 8))
    if ds.all rangeOk then some ((ds.filter (fun d => decide (bits d 21 21 ≠ 0))).map (fun d => (bits d 0 21, bits d 21 21))) else none

/-- R197: PHINT records what is live and completes; with a halt pending the thread halts at its hint. -/
def execPhint (a b : Opnd) (s : State) : Result :=
  let h := s.cur
  let t := s.me
  if isDrain h then s.misuse 1
  else if isSpill h then s.misuse 2
  else if t.user.h then .next (s.retire t (len2 a b))
  else
    let x := t.opX a
    let hint : Option Hint := (s.hintRanges h (t.opX b)).map (fun rs => ⟨setBits (x.setWidth 32) 0 1 0, BitVec.ofNat 32 (bits x 32 32), rs⟩)
    let s1 := s.retire { t with hint := hint } (len2 a b)
    .next (if decide (kindOf h.core = .compute) && s1.halting h.core then s1.setMe { s1.me with status := .halted hint.isNone } else s1)

/-! ## Halting -/

/-- The cores that run a context. -/
def State.coresOf (s : State) (ctx : Nat) : List Nat :=
  (s.cores.filter (fun q => decide (kindOf q.1 = .compute) && decide (q.2.ctx? = some ctx))).map Prod.fst

/-- R374: the word at which the access of a port waits, parked or held, and the UTAG image that reports it (Table 6.4, with ACTION 1). Of
an access that waits at a redirect target it is the word that the access named (log 111). -/
def State.waitsAt (s : State) (p : Port) : Option (Word × BitVec 14) :=
  let spots : List (Place × Sram) := s.cores.map (fun q => (.core q.1, q.2.sram)) ++ s.clusters.map (fun q => (.cluster q.1, q.2.sram))
  spots.findSome? (fun q =>
    ((q.2.parks.map Parked.access ++ q.2.held).find? (fun a => decide (some a.id = p.wait))).map (fun a =>
      let w := (a.elems.headD (0, 0)).1 / 8
      (a.wordAddr w, utagOf q.1 a (q.2.setOf w) 1 (q.2.tagFor a.owner w))))

/-- R374: whether the drain thread of a core waits with a row at a WAIT, and where. -/
def State.rowWaitsAt (s : State) (core : Nat) : Option (Word × BitVec 14) :=
  match (s.thread ⟨core, 4⟩).pend with
  | none => none
  | some p => (p.ids.filterMap (fun i => s.waitsAt { Port.idle with wait := some i })).head?

/-- R374: where a command stalls at a WAIT, if it does: at its own access, or at one of the drain thread that has its row (log 92). -/
def State.stalledAt (s : State) (core : Nat) (r : Running) : Option (Word × BitVec 14) :=
  if r.draining then s.rowWaitsAt core else s.waitsAt r.port

/-- R374: whether a core's executing command stalls at a WAIT. -/
def State.engineStalled (s : State) (core : Nat) : Bool :=
  match (s.core core).running with
  | none => false
  | some r => (s.stalledAt core r).isSome

/-- R137: an instruction that a halt stops at a block or sequence boundary. -/
def stopsAtBoundary : Instr → Bool
  | .attnRun _ _ _ => true
  | .cmAppend _ _ => true
  | _ => false

/-- R137: a held thread's instruction leaves the engine where a halt stops it, and pc stays at it; an ATTN.RUN or CM.APPEND that is still
queued stands before its first block or sequence. -/
def State.stopHeld (s : State) (h : Hart) : State :=
  let c := s.core h.core
  let mine (q : Cmd) : Bool := decide (q.hart = h) && stopsAtBoundary q.instr
  match c.running.filter (fun r => decide (r.cmd.hart = h) && r.stopsHere) with
  | some r => s.stopHere h.core r
  | none =>
    if c.queue.any mine then
      let s1 := (s.setCore h.core { c with queue := c.queue.filter (fun q => !mine q) }).wakeEngine h.core
      s1.setThread h (s1.thread h).haltFull
    else s

/-- R374, R224: whether the accesses of an instruction are withdrawn when its thread halts: those of a stream instruction, SG.CFG's load
among them, so that no halt falls inside it. -/
def Finish.isStream : Finish → Bool
  | .stream _ _ _ _ => true
  | .streamOut _ _ => true
  | .indices _ _ => true
  | .cfg _ _ => true
  | _ => false

/-- Table 26.1, R374: a thread with a parked access halts at it; a stream's elements are withdrawn, and a held access too. -/
def State.haltAccess (s : State) (h : Hart) : State :=
  let t := s.thread h
  match t.pend with
  | none => s
  | some p =>
    if s.isHeldBack p.ids || (p.finish.isStream && s.isParked p.ids) then
      let s1 := s.withdraw p.ids
      s1.setThread h { (s1.thread h).haltFull with pend := none }
    else if s.isParked p.ids then s.setThread h { t with status := .halted true }
    else s

/-- R281: a thread that waits in XSEND.AT, before its first beat, once the counter has stopped. -/
def State.haltSend (s : State) (h : Hart) : State :=
  match s.myDomain h with
  | none => s
  | some (n, _, d) => if d.stopped && !d.sends.any (fun b => decide (0 < b.next)) then s.stopExchange n d else s

/-- R342: whether an access of a core waits on the miss of a page. -/
def State.missWaits (s : State) (core page : Nat) : Bool :=
  let c := s.core core
  let port (p : Port) : Bool := decide (p.miss = some page)
  c.threads.any (fun q => match q.2.status with
    | .miss p _ => decide (p = page)
    | _ => false) ||
  c.running.any (fun r => port r.port) || c.loading.any (fun r => port r.port) ||
  (s.cluster (clusterOf core)).transfers.any (fun x => decide (x.hart.core = core) && port x.port) ||
  s.net.any (fun m => m.accesses.any (fun a => decide (a.hart.core = core) && decide (a.home = .virt) &&
    decide ((a.elems.headD (0, 0)).1 / 2 ^ 19 = page)))

/-- R342: a halt abandons the miss that a thread waits on; it is no longer outstanding unless another access waits on it. -/
def State.abandonMiss (s : State) (h : Hart) (page : Nat) : State :=
  let s1 := s.setThread h (s.thread h).haltFull
  if s1.missWaits h.core page then s1
  else
    let c := s1.core h.core
    s1.setCore h.core { c with misses := c.misses.filter (fun p => decide (p ≠ page)) }

/-- Table 26.1, R373: a user thread under a halt request; `force` is that of the request or of the expired watchdog. One that waits for a dirty
page is not waiting on a miss (log 92); one between the two parts of an indirect SREAD halts in no way there (R224). -/
def State.haltThread (s : State) (force : Bool) (h : Hart) : State :=
  let t := s.thread h
  let full : State := s.setThread h t.haltFull
  match t.status with
  | .idle => s
  | .halted _ => s
  | .report => s
  | .late => s
  | .access => s.haltAccess h
  | .mrecv => full
  | .signal _ _ => full
  | .miss page _ => s.abandonMiss h page
  | .xsend => s.haltSend h
  | .held => s.stopHeld h
  | _ => if force && t.gathered.isEmpty then full else s

/-- R374, R228: the executing command of a core is discarded as a deferred cause 24 of its thread, at a word; the drain thread lets go of its
row. -/
def State.discard (s : State) (core : Nat) (r : Running) (v : Word) (u : BitVec 14) : State :=
  let d : Hart := ⟨core, 4⟩
  let t := s.thread d
  let s0 := if r.draining then (s.withdraw ((t.pend.map Pend.ids).getD [])).setThread d { t.calmed with status := .idle } else s
  let s1 := s0.withdraw r.port.wait.toList
  let h := r.cmd.hart
  let s2 := (s1.setCore core ((s1.core core).dropCmds h).freed).wakeEngine core
  let u1 := (s2.thread h).defer ⟨24, v, u⟩
  s2.setThread h (if isAttnRun r.cmd.instr then { u1 with apos := r.apos } else u1)

/-- R374: an MX.LDW that has started behind the executing command is discarded in the same way. -/
def State.discardLoading (s : State) (core : Nat) (r : Running) (v : Word) (u : BitVec 14) : State :=
  let s1 := s.withdraw r.port.wait.toList
  let s2 := (s1.setCore core ((s1.core core).dropCmds r.cmd.hart)).wakeEngine core
  s2.setThread r.cmd.hart ((s2.thread r.cmd.hart).defer ⟨24, v, u⟩)

/-- R374, R373: the commands of a core that stall at a WAIT when the watchdog expires are discarded. -/
def State.discardStalled (s : State) (core : Nat) : State :=
  let c := s.core core
  let s1 := match c.loading, c.loading.bind (fun r => s.waitsAt r.port) with
    | some r, some (v, u) => s.discardLoading core r v u
    | _, _ => s
  match c.running, c.running.bind (fun r => s.stalledAt core r) with
  | some r, some (v, u) => s1.discard core r v u
  | _, _ => s1

/-- Whether a message in the network belongs to a list of cores. -/
def Msg.touches (cs : List Nat) : Msg → Bool
  | .user _ src dst _ => decide (src.core ∈ cs) || decide (dst ∈ cs)
  | .record _ dst _ _ => decide (dst ∈ cs)
  | .reply a _ => decide (a.hart.core ∈ cs)
  | m => m.accesses.any (fun a => decide (a.hart.core ∈ cs))

/-- R334, R372: whether every thread of some cores has halted or is idle. -/
def State.allHalted (s : State) (cs : List Nat) : Bool :=
  cs.all (fun n => (s.core n).threads.all (fun q => decide (q.2.status = .idle) || q.2.status.isHalted))

/-- R334: whether a trap report of a context is unresolved. -/
def State.reportOpen (s : State) (ctx : Nat) : Bool :=
  let of (r : Report) : Bool := decide (r.ctx = ctx) && !s.reportStale r
  s.cores.any (fun q => q.2.reports.any (fun x => of x.2) || q.2.reportsHeld.any of || q.2.report.any (fun x => of x.2))

/-- R374: whether the halt of a context is complete. -/
def State.haltComplete (s : State) (ctx : Nat) : Bool :=
  let cs := s.coresOf ctx
  s.allHalted cs && !s.reportOpen ctx &&
    cs.all (fun n => (s.core n).cmds.isEmpty) &&
    s.clusters.all (fun q => q.2.transfers.all (fun x => decide (x.ctx.toNat ≠ ctx))) &&
    s.net.all (fun m => !m.touches cs) &&
    s.domains.all (fun q => !((Tab.find? s.grids q.2.gid).map (fun g => decide (g.ctx = ctx))).getD false || (q.2.flying.isEmpty && q.2.sends.isEmpty))

/-- R374: once every thread has halted, a transfer that stalls at a WAIT stops with STATUS 1, and its access is withdrawn. -/
def State.stopTransfers (s : State) (ctx : Nat) : State :=
  let stalls (x : Transfer) : Bool := decide (x.ctx.toNat = ctx) && s.transferStalled x
  if s.allHalted (s.coresOf ctx) then
    let s1 := s.withdraw (s.clusters.flatMap (fun q => (q.2.transfers.filter stalls).flatMap (fun x => x.port.wait.toList)))
    { s1 with clusters := s1.clusters.map (fun q => (q.1, { q.2 with transfers := q.2.transfers.map (fun x =>
      if stalls x then { x with status := some (1, 0, 0), port := .idle } else x) })) }
  else s


/-- R334: a halt that is complete is noted as such; a pre-empted context gains no energy (R382). -/
def State.settle (s : State) (ctx : Nat) : State :=
  let s1 := s.stopTransfers ctx
  match Tab.find? s1.ctxs ctx with
  | none => s1
  | some c =>
    if c.halt = 1 ∧ s1.haltComplete ctx then
      (s1.settleEnergy ctx).setCtx ctx { c with energy := s1.energyCount ctx c, energyFrom := none, halt := 2 }
    else s1

/-- The user threads of a context. -/
def State.userHarts (s : State) (ctx : Nat) : List Hart :=
  (s.coresOf ctx).flatMap (fun n => (List.range 4).map (fun t => ⟨n, t⟩))

/-- R372, R373: the spill threads of a context, which a halt stops only once the watchdog has expired. -/
def State.spillHarts (s : State) (ctx : Nat) : List Hart := (s.coresOf ctx).map (fun n => ⟨n, 5⟩)

/-- R334, R372: each thread of a halting context follows Table 26.1. -/
def State.haltThreads (s : State) (ctx : Nat) (force : Bool) : State :=
  ((s.userHarts ctx ++ (if force then s.spillHarts ctx else [])).foldl (fun r h => r.haltThread force h) s).settle ctx

/-- R373, R374: the halt watchdog of a context expires: the threads that have not halted halt in full at their next boundary, and the commands
that stall at a WAIT are discarded. -/
def State.expire (s : State) (ctx : Nat) (c : Ctx) : State :=
  let s1 := s.setCtx ctx { c with halt := 1, force := true }
  ((s1.coresOf ctx).foldl (fun r n => r.discardStalled n) s1).haltThreads ctx true

/-- R372: a halt of a context is requested: interrupt 65 is raised on its cores, and its threads follow; with FORCE the watchdog's period is 0. -/
def State.requestHalt (s : State) (ctx : Nat) (force : Bool) : State :=
  match Tab.find? s.ctxs ctx with
  | none => s
  | some c =>
    let s1 := (s.coresOf ctx).foldl (fun r n => r.driveM ⟨n, 0⟩ 65 true) s
    if force then s1.expire ctx c else (s1.setCtx ctx { c with halt := 1, force := false }).haltThreads ctx false

/-- R56, R334: how a halted thread goes on from where it stands: it waits on its parked access; or in the PAUSE or XEND that its domain
still counts; or it executes the instruction at its pc. -/
def State.resumed (s : State) (h : Hart) : Status :=
  let t := s.thread h
  if t.pend.isSome then .access
  else match s.myDomain h with
    | none => .again
    | some (_, i, d) => match d.members[i]? with
      | none => .again
      | some m => if h.th ≠ m.hart.th then .again
        else if !d.exch && m.paused.isSome then .pause else if d.exch && m.ended then .xend else .again

/-- R334: a halted thread goes on. -/
def State.resumeThread (s : State) (h : Hart) : State :=
  let t := s.thread h
  if t.status.isHalted then s.setThread h { t with status := s.resumed h } else s

/-- R334: the halt of a context ends. -/
def State.resumeCtx (s : State) (ctx : Nat) : State :=
  match Tab.find? s.ctxs ctx with
  | none => s
  | some c =>
    let s1 := s.setCtx ctx { c with halt := 0, force := false, saved := false, energyFrom := some (c.energyFrom.getD s.ticks) }
    let s2 := (s1.coresOf ctx).foldl (fun r n => r.driveM ⟨n, 0⟩ 65 false) s1
    let s3 := (s2.userHarts ctx ++ s2.spillHarts ctx).foldl State.resumeThread s2
    { s3 with domains := s3.domains.map (fun q =>
      (q.1, if ((Tab.find? s3.grids q.2.gid).map (fun g => decide (g.ctx = ctx))).getD false then { q.2 with stopped := false } else q.2)) }

/-- One of the codes that apply; where several rows of a table do, which one is given is free (log 11). -/
def State.pick (s : State) (codes : List Nat) : Nat × State :=
  match codes with
  | [] => (0, s)
  | [c] => (c, s)
  | c :: t =>
    let (w, s1) := s.draw
    ((c :: t).getD (w.toNat % (t.length + 1)) c, s1)

/-- R396: a halt for pre-emption inside an interval of an armed context marks that interval broken. -/
def Debug.breakInterval (d : Debug) : Debug :=
  if d.armed.isSome ∧ 0 < d.taken then { d with broken := d.interval :: d.broken } else d

/-- R383, R396: whether a context halts for a checkpoint or a mirror that a latch has asked for. -/
def Ctx.latching (c : Ctx) : Bool := c.dbg.mark.isSome || c.mirroring.isSome

/-- R334: CTX.HALT. A context whose clusters the scheduler has released counts as none (log 94). -/
def execCtxHalt (k : Bool) (d : Fin 32) (a b : Opnd) (s : State) : Result :=
  s.privileged (.ctxHalt k d a b)
    (let x := s.me.opX a
     let w := s.me.opX b
     let ctx := bits x 0 32
     let c? := (Tab.find? s.ctxs ctx).filter (fun c => !c.away)
     let force := bit w 0
     let resume := bit w 1
     let saving : Bool := (c?.map (fun c => c.saving.isSome || c.latching)).getD false
     let stopped : Bool := (c?.map (fun c => c.dbg.stopped.isSome || c.dbg.target.isSome || c.dbg.asked.isSome)).getD false
     let waiting : Bool := (c?.map (fun c => c.dbg.waiting.isSome)).getD false
     let halted : Bool := (c?.map (fun c => decide (c.halt ≠ 0))).getD false
     let codes :=
       (if c?.isNone || !zeroBits x 32 32 then [1] else []) ++
       (if stopped then (if resume == waiting then [] else [2])
        else if resume then (if !halted || saving then [2] else []) else if halted then [2] else []) ++
       (if (force && resume) || !zeroBits w 2 62 then [3] else [])
     let (code, s0) := s.pick codes
     let done (r : State) : Result := .next (r.retire (r.me.setX d (BitVec.ofNat 64 code)) (len2 a b))
     match c?, codes with
     | some c, [] =>
       if stopped then done (s0.setCtx ctx { c with dbg := { c.dbg with waiting := if resume then none else some force } })
       else if resume then done (s0.resumeCtx ctx)
       else done ((s0.setCtx ctx { c with dbg := c.dbg.breakInterval }).requestHalt ctx force)
     | _, _ => done s0)

/-- R373, R374: the halt watchdog expires. -/
def execHaltWatchdog (ctx : Nat) (s : State) : Result :=
  match Tab.find? s.ctxs ctx with
  | none => .next s
  | some c => .next (if c.halt = 1 then s.expire ctx c else s)

/-- R335: CTX.SAVE. A context whose clusters the scheduler has released counts as none (log 94). -/
def execCtxSave (k : Bool) (d : Fin 32) (a b : Opnd) (s : State) : Result :=
  s.privileged (.ctxSave k d a b)
    (let x := s.me.opX a
     let w := s.me.opX b
     let ctx := bits x 0 32
     let c? := (Tab.find? s.ctxs ctx).filter (fun c => !c.away)
     let low := (if c?.isNone || !zeroBits x 32 32 then [1] else []) ++
       (if (c?.map (fun c => decide (c.halt = 0) || c.saving.isSome || c.latching)).getD false then [2] else [])
     let done (r : State) (codes : List Nat) : Result :=
       let (code, r1) := r.pick codes
       .next (r1.retire (r1.me.setX d (BitVec.ofNat 64 code)) (len2 a b))
     if w.toNat % 64 ≠ 0 then done s (low ++ [3])
     else match s.sysRead w 64 64 with
       | .stop r => if low = [] then r else done s low
       | .ok v s1 =>
         let codes := low ++ (if v / 256 ^ 32 ≠ 0 then [3] else [])
         match c?, codes with
         | some c, [] =>
           done (s1.setCtx ctx { c with saved := false, saving := some ⟨s.cur, s.me.level, w, BitVec.ofNat 64 v, v / 2 ^ 64 % 2 ^ 64⟩ }) []
         | _, _ => done s1 codes)

end Sys2Proof.Machine
end

