-- ==== Sys2Proof/Machine/Image.lean ====
section
/-! DEFINITION. What the command processor reads for a launch: its accesses under a context's translation and owner (R366), the launch
image (R310, R311), the stage table and placement maps (R23, R358), and the instant domain (R36 to R38, R47). -/

namespace Sys2Proof.Machine

/-! ## Accesses of the command processor -/

/-- R366: the owner of a queue's context: that of an admin queue is the owner of its function's partition (log 62). -/
def State.cpOwner (s : State) (ctx : Nat) : BitVec 12 :=
  match Tab.find? s.ctxs ctx with
  | some c => c.owner
  | none => if adminCtx 0 ≤ ctx then (s.part (ctx - adminCtx 0)).owner else 0

/-- R357: where a generic address of window 0x10 to 0x7F leads under a context's translation (log 14). -/
def State.cpAddr (s : State) (ctx a : Nat) (need : Need) : Option Nat :=
  if 0x10 ≤ a / 2 ^ 56 ∧ a / 2 ^ 56 < 0x80 then s.cpWalk ctx (a % 2 ^ 56) need else none

/-- One byte as the command processor reads it, under the key of the context's owner; a line whose error no code corrects cannot be read. -/
def State.cpByte (s : State) (ctx a : Nat) : Option Byte :=
  match s.cpAddr ctx a .read, s.keyOf (s.cpOwner ctx) with
  | some pa, some key => if s.dram.poisoned (pa / 64) || decide (pa / 64 ∈ s.dram.bad) then none else some (s.dram.byte key pa)
  | _, _ => none

/-- n bytes from an address; none when one cannot be read. -/
def State.cpBytes (s : State) (ctx a n : Nat) : Option (List Byte) := (List.range n).mapM (fun i => s.cpByte ctx (a + i))

/-- The value of bytes at an offset, n of them. -/
def fieldAt (bs : List Byte) (off n : Nat) : Nat := leValue ((bs.drop off).take n)

/-- A doubleword at an offset. -/
def wordAt (bs : List Byte) (off : Nat) : Word := BitVec.ofNat 64 (fieldAt bs off 8)

/-- n doublewords from an address. -/
def State.cpWords (s : State) (ctx a n : Nat) : Option (List Word) :=
  (s.cpBytes ctx a (8 * n)).map (fun bs => (List.range n).map (fun i => wordAt bs (8 * i)))

/-- The command processor's write of n bytes of one word. -/
def State.cpAccess (s : State) (ctx pa n v : Nat) : Access where
  id := 0
  grp := 0
  hart := ⟨hubCore 0, 0⟩
  issuer := .thread
  level := .m
  owner := s.cpOwner ctx
  named := 0
  at_ := 0
  cls := .store
  op := .store
  home := dramHome pa
  esize := n
  elems := [(pa, 0)]
  data := BitVec.ofNat 512 v
  cmp := 0
  vec := false
  redir := false
  notified := true
  cleared := false
  full := false
  bank := 0
  port := 0
  asid := ctx % 4096
  gen := 0

/-- n bytes of one word that the command processor writes; where translation fails, or the owner has no key, nothing is written. -/
def State.cpPut (s : State) (ctx a n v : Nat) : State :=
  match s.cpAddr ctx a .write with
  | none => s
  | some pa => (s.dramOp (s.cpAccess ctx pa n v)).2

/-- A doubleword that the command processor writes. -/
def State.cpStore (s : State) (ctx a : Nat) (v : Word) : State := s.cpPut ctx a 8 v.toNat

/-- R360: the bytes of a data record, written at dispatch word by word. -/
def State.cpWrite (s : State) (ctx a : Nat) (bs : List Byte) : State :=
  (wordPieces a 0 bs.length bs.length).foldl (fun x p => x.cpPut ctx (a + p.1) p.2 (fieldAt bs p.1 p.2)) s

/-! ## The launch image -/

/-- A launch image: its stages, its co-resident flag, where its code lies and how long it is, and its other records. -/
structure Image where
  stages : Nat
  coresident : Bool
  code : Nat
  codeLen : Nat
  recs : List ImageRec
  deriving DecidableEq, Repr

/-- Table 20.7, R311: a regions record: nothing for the monitor's regions, no RES0 bit. -/
def regionsOk (bs : List Byte) : Bool :=
  (List.range 128).all (fun r => let f := fieldAt bs (r / 2) 1 / 16 ^ (r % 2) % 16; decide (f < 8) && (decide (r < 108) || decide (f = 0)))

/-- Table 4.3: a signals record of K entries. -/
def signalsOk (k : Nat) (bs : List Byte) : Bool :=
  decide (k ≤ 256) && decide (bs.length = 2064 * k) &&
    (List.range k).all (fun i => decide (fieldAt bs (16 * i) 8 % 8 = 0) && decide (fieldAt bs (16 * i + 8) 8 < 4))

/-- Table 4.8: one entry of a plan record. -/
def planAt (bs : List Byte) (i : Nat) : PlanEntry :=
  let f := fieldAt bs (16 * i + 4) 1
  ⟨fieldAt bs (16 * i) 2, fieldAt bs (16 * i + 2) 2, f % 16 + 1, BitVec.ofNat 3 (f / 16), decide (128 ≤ f), wordAt bs (16 * i + 8)⟩

/-- Table 4.8: a plan record of E entries. -/
def planOk (e : Nat) (bs : List Byte) : Bool :=
  decide (e ≤ 65536) && decide (bs.length = 16 * e) &&
    (List.range e).all (fun i => decide (fieldAt bs (16 * i) 2 < 16384) && decide (fieldAt bs (16 * i + 5) 3 = 0))

/-- Table 20.7: the symbols of a record, n of them, fill it exactly. -/
def symbolsOk (bs : List Byte) : Nat → Nat → Bool
  | 0, off => decide (off = bs.length)
  | n + 1, off =>
    let size := 12 + fieldAt bs (off + 10) 2
    decide (off + size ≤ bs.length) && decide (fieldAt bs (off + 8) 2 ≤ 4) && symbolsOk bs n (off + (size + 7) / 8 * 8)

/-- R311: a record within its bounds. -/
def ImageRec.ok (r : ImageRec) (codeLen : Nat) : Bool :=
  let n := r.bytes.length
  match r.kind with
  | 1 => decide (r.addr = 0)
  | 2 => decide (r.addr + n ≤ 0x1B0000)
  | 3 => decide (r.addr + n ≤ 0x400000)
  | 4 => decide (r.addr + n ≤ 2 ^ 56)
  | 5 => decide (r.addr ≤ 16) && decide (n = 8) && decide (fieldAt r.bytes 0 8 % 2 = 0) && decide (fieldAt r.bytes 0 8 < codeLen)
  | 6 => decide (r.addr = 0) && decide (n = 16) && r.bytes.all (fun b => decide (b.toNat ≤ 10))
  | 7 => decide (r.addr = 0) && decide (n = 128) && regionsOk r.bytes
  | 8 => decide (r.addr < 8) && decide (n = 160) && (List.range 64).all (fun i => decide (fieldAt r.bytes (2 * i) 2 < 2048))
  | 9 => decide (r.addr = 0) && decide (n = 8) && decide (fieldAt r.bytes 0 8 < 2 ^ 17)
  | 10 => signalsOk r.addr r.bytes
  | 11 => planOk r.addr r.bytes
  | 12 => decide (r.addr ≤ n) && symbolsOk r.bytes r.addr 0
  | _ => false

/-- The records of an image from an address on, each with the address of its payload. -/
def State.readRecs (s : State) (ctx : Nat) : Nat → Nat → List (Nat × ImageRec) → Option (List (Nat × ImageRec))
  | 0, _, acc => some acc.reverse
  | n + 1, a, acc =>
    match s.cpBytes ctx a 16 with
    | none => none
    | some h =>
      let len := fieldAt h 4 4
      let pad := (len + 7) / 8 * 8
      match s.cpBytes ctx (a + 16) pad with
      | none => none
      | some bs =>
        if (bs.drop len).any (fun b => decide (b ≠ 0)) then none
        else s.readRecs ctx n (a + 16 + pad) ((a + 16, ⟨fieldAt h 0 4, fieldAt h 8 8, bs.take len⟩) :: acc)

/-- R310, R311: the launch image at an address; none when it is refused. The signal table is 16-byte aligned (R38). -/
def State.readImage (s : State) (ctx a : Nat) : Option Image :=
  match s.cpBytes ctx a 16 with
  | none => none
  | some h =>
    if fieldAt h 0 4 ≠ 0x4C4D494E ∨ fieldAt h 4 2 ≠ 1 ∨ fieldAt h 12 1 = 0 ∨ 16 < fieldAt h 12 1 ∨ 2 ≤ fieldAt h 13 1 ∨ fieldAt h 14 2 ≠ 0 then none
    else match s.readRecs ctx (fieldAt h 8 4) (a + 16) [] with
      | none => none
      | some rs =>
        match rs.filter (fun r => decide (r.2.kind = 1)) with
        | [c] =>
          let n := c.2.bytes.length
          let once (k : Nat) : Bool := decide ((rs.filter (fun r => decide (r.2.kind = k))).length ≤ 1)
          if rs.all (fun r => r.2.ok n && (decide (r.2.kind ≠ 10) || decide (r.1 % 16 = 0))) && [6, 7, 9, 10, 11, 12].all once then
            some ⟨fieldAt h 12 1, decide (fieldAt h 13 1 = 1), c.1, n, (rs.map Prod.snd).filter (fun r => decide (r.kind ≠ 1))⟩
          else none
        | _ => none

/-- The first record of a kind. -/
def Image.rec? (m : Image) (k : Nat) : Option ImageRec := m.recs.find? (fun r => decide (r.kind = k))

/-- R359: the address at which a stage, or for 16 the spill routine, begins. -/
def Image.entry (m : Image) (stage : Nat) : Option Word :=
  (m.recs.find? (fun r => decide (r.kind = 5) && decide (r.addr = stage))).map (fun r => BitVec.ofNat 64 (m.code + fieldAt r.bytes 0 8))

/-! ## Stages and placement -/

/-- R23, R358: a placement entry of a partition. -/
def placeOk (part : Part) (d0 d1 : Word) : Bool :=
  let n := bits d0 8 6 + 1
  let c := bits d0 16 4 + 1
  let cores := (List.range c).map (fun j => bits d1 (4 * j) 4)
  zeroBits d0 20 44 && zeroBits d0 14 2 && zeroBits d1 (4 * c) (64 - 4 * c) && decide (bits d0 0 8 ∈ part.clusters) && decide ((n + 3) / 4 ≤ c) &&
    decide (c ≤ min n 16) && decide cores.Nodup

/-- The group that a placement entry describes. -/
def groupOf (stage index : Nat) (d0 d1 : Word) : Group :=
  ⟨stage, index, bits d0 0 8, bits d0 8 6 + 1, (List.range (bits d0 16 4 + 1)).map (fun j => bits d1 (4 * j) 4), 0⟩

/-- R18, R358: one stage: its entry and its groups; none when malformed. -/
def State.readStage (s : State) (ctx : Nat) (part : Part) (m : Image) (tab i : Nat) : Option (Stage × List Group) :=
  match s.cpWords ctx (tab + 32 * i) 4, m.entry i with
  | some [args, n, place, res], some pc =>
    if args.toNat % 8 ≠ 0 ∨ n.toNat = 0 ∨ 4096 < n.toNat ∨ res ≠ 0 then none
    else match s.cpWords ctx place.toNat (2 * n.toNat) with
      | none => none
      | some ws =>
        let d (k : Nat) : Word := ws.getD k 0
        if (List.range n.toNat).all (fun g => placeOk part (d (2 * g)) (d (2 * g + 1))) then
          some (⟨pc, args, n.toNat⟩, (List.range n.toNat).map (fun g => groupOf i g (d (2 * g)) (d (2 * g + 1))))
        else none
  | _, _ => none

/-- The core numbers of a group. -/
def Group.coreNums (g : Group) : List Nat := g.cores.map (fun j => 16 * g.cluster + j)

/-- R23: where node n of a group runs. -/
def Group.hart (g : Group) (n : Nat) : Hart := ⟨16 * g.cluster + g.cores.getD (n % g.cores.length) 0, n / g.cores.length⟩

/-- Table 3.1: NODEID of node n of a group. -/
def Group.nodeId (g : Group) (n : Nat) : Word :=
  let h := g.hart n
  BitVec.ofNat 64 (n + 2 ^ 6 * g.index + 2 ^ 18 * g.stage + 2 ^ 22 * (h.core % 16) + 2 ^ 26 * h.th + 2 ^ 29 * g.cluster)

/-! ## The domain -/

/-- A member inserted in ascending order of cluster, core and thread (R37). -/
def insertMember (m : Hart × Word) : List (Hart × Word) → List (Hart × Word)
  | [] => [m]
  | x :: t => if 8 * m.1.core + m.1.th < 8 * x.1.core + x.1.th then m :: x :: t else x :: insertMember m t

/-- R37: the nodes of a grid that run on cores of a mask, in the order of their members. -/
def membersOf (groups : List Group) (mask : Nat) : List (Hart × Word) :=
  (groups.flatMap (fun g => (List.range g.nodes).map (fun n => (g.hart n, g.nodeId n)))).foldr
    (fun m l => if mask / 2 ^ (m.1.core % 16) % 2 = 1 then insertMember m l else l) []

/-- R38: the emitters of a signal among M members, from its bitmap; none when a bit at or above M is set. -/
def emittersOf (m : Nat) (ws : List Word) : Option (List Nat) :=
  let on (j : Nat) : Bool := bit (ws.getD (j / 64) 0) (j % 64)
  if (List.range (64 * ws.length)).any (fun j => decide (m ≤ j) && on j) then none else some ((List.range m).filter on)

/-- R38: the signals of a record. -/
def State.readSignals (s : State) (ctx m : Nat) (r : Option ImageRec) : Option (List Sig) :=
  match r with
  | none => some []
  | some r => (List.range r.addr).mapM (fun i =>
    match (s.cpWords ctx (virtAddr (fieldAt r.bytes (16 * i) 8)).toNat ((m + 63) / 64)).bind (emittersOf m) with
    | none => none
    | some es => some (({ combine := fieldAt r.bytes (16 * i + 8) 8, emitters := es, status := .unknown, value := 0, out := [], skipped := [], prev := false } : Sig).start [] false))

/-- R47: the home that a beat of an entry reaches in a slot: the cluster's, or the core's. -/
def beatKeys (e : PlanEntry) : List (Nat × Place) := (List.range e.beats).map (fun j => (e.slot + j, (destOf e.dest).1))

/-- R47: whether an entry's destination is a 64-byte-aligned range of a domain core or of a cluster that holds one. -/
def destOk (cores : List Nat) (e : PlanEntry) : Bool :=
  let sel := bits e.dest 56 8
  let (p, off) := destOf e.dest
  let n := 64 * e.beats
  decide (e.dest.toNat % 64 = 0) && (match p with
  | .core c => decide (sel = 2) && zeroBits e.dest 33 23 && decide (c ∈ cores) && decide (off + n ≤ 0x1B0000)
  | .cluster k => decide (sel = 3) && zeroBits e.dest 30 26 && cores.any (fun c => decide (c / 16 = k)) && decide (off + n ≤ 0x400000))

/-- R47: whether a plan is sorted, without overlap within a sender. -/
def planSorted : List PlanEntry → Bool
  | [] => true
  | e :: t => (match t with
    | [] => true
    | f :: _ => decide (e.sender < f.sender) || (decide (e.sender = f.sender) && decide (e.slot + e.beats ≤ f.slot))) && planSorted t

/-- R47: whether a plan is well formed for M members on the domain's cores. -/
def planValid (m : Nat) (cores : List Nat) (p : List PlanEntry) : Bool :=
  p.all (fun e => decide (e.sender < m) && decide (e.slot + e.beats ≤ 65536) && destOk cores e) && planSorted p &&
    decide (p.flatMap beatKeys).Nodup

/-- R36: the domain that a grid's image opens, before its grid has an identifier: `some none` for an image without one, none when it is
malformed. -/
def State.readDomain (s : State) (ctx : Nat) (m : Image) (groups : List Group) : Option (Option Domain) :=
  match m.rec? 9 with
  | none => some none
  | some r =>
    let w := fieldAt r.bytes 0 8
    let mask := w % 65536
    let placed := groups.flatMap Group.coreNums
    let cores := (groups.map (fun g => g.cluster)).flatMap (fun k => ((List.range 16).filter (fun j => decide (mask / 2 ^ j % 2 = 1))).map (fun j => 16 * k + j))
    let ms := membersOf groups mask
    let plan := match m.rec? 11 with
      | none => []
      | some p => (List.range p.addr).map (planAt p.bytes)
    match s.readSignals ctx ms.length (m.rec? 10) with
    | none => none
    | some sigs =>
      if cores.all (fun c => decide (c ∈ placed)) && decide (0 < ms.length) && decide (ms.length ≤ 16384) && planValid ms.length cores plan then
        some (some {
          gid := 0
          strict := decide (65536 ≤ w)
          exch := false
          members := ms.map (fun x => ⟨x.1, x.2, none, false, false, 0, []⟩)
          sigs := sigs
          plan := plan
          instant := 0
          slot := 0
          started := 0
          reactEnded := false
          record := []
          sends := []
          flying := []
          declared := false
          stopped := false })
      else none

/-! ## Applying records -/

/-- R311: image bytes written in a tagged memory, with the context's owner and tag 0. -/
def Sram.putImage (m : Sram) (o : BitVec 12) (off : Nat) (bs : List Byte) : Sram :=
  let n := bs.length
  if n = 0 then m
  else
    let m1 := (List.range ((off + n - 1) / 64 - off / 64 + 1)).foldl (fun r i => r.claim (64 * (off / 64 + i)) o) m
    let m2 := { m1 with cells := writeLe m1.cells off n (leValue bs) }
    (List.range ((off + n - 1) / 8 - off / 8 + 1)).foldl (fun r i => r.setTag (off / 8 + i) 0) m2

/-- R73: a table set as its record loads it, the shadow equal to the active copy. -/
def tableSetOf (bs : List Byte) : TableSet :=
  let c : TableCopy :=
    ⟨(List.range 64).foldl (fun t i => Tab.put 0 i (BitVec.ofNat 16 (fieldAt bs (2 * i) 2)) t) [],
     (List.range 4).foldl (fun t i => Tab.put 0 i (wordAt bs (128 + 8 * i)) t) []⟩
  ⟨c, c⟩

/-- R73, R311: the four sets of a memory, those of the records from `base` on. -/
def setsOf (recs : List ImageRec) (base : Nat) : Tab TableSet :=
  (List.range 4).filterMap (fun i =>
    (recs.find? (fun r => decide (r.kind = 8) && decide (r.addr = base + i))).map (fun r => (i, tableSetOf r.bytes)))

/-- The payload of the first record of a kind. -/
def payload (recs : List ImageRec) (k : Nat) : List Byte := ((recs.find? (fun r => decide (r.kind = k))).map ImageRec.bytes).getD []

/-- R311: the shared records and the shared parts of maps and tables, applied to a cluster. -/
def Sram.applyShared (m : Sram) (o : BitVec 12) (recs : List ImageRec) : Sram :=
  let bs := payload recs 7
  let m1 := { m with sets := setsOf recs 4 }
  let m2 := (List.range 256).foldl (fun r i => r.setRegion i (fieldAt bs (64 + i / 4) 1 / 4 ^ (i % 4) % 4)) m1
  (recs.filter (fun r => decide (r.kind = 3))).foldl (fun r x => r.putImage o x.addr x.bytes) m2

/-- R311: the local records, bank formats, maps and tables, applied to a core. -/
def Core.applyLocal (c : Core) (o : BitVec 12) (recs : List ImageRec) : Core :=
  let bs := payload recs 7
  let f := payload recs 6
  let field (i : Nat) : Nat := fieldAt bs (i / 2) 1 / 16 ^ (i % 2) % 16
  let m1 := { c.sram with sets := setsOf recs 0 }
  let m2 := (List.range 108).foldl (fun r i => r.setRegion i (field i % 4)) m1
  let m3 := (recs.filter (fun r => decide (r.kind = 2))).foldl (fun r x => r.putImage o x.addr x.bytes) m2
  { c with
    sram := m3
    skew := (List.range 108).foldl (fun t i => Tab.put false i (decide (4 ≤ field i)) t) c.skew
    fmts := Vector.ofFn (fun i : Fin 16 => BitVec.ofNat 4 ((f.getD i.val 0).toNat)) }

end Sys2Proof.Machine
end

