-- ==== Sys2Proof/Machine/Sched.lean ====
section
/-! DEFINITION. The command processor and scheduler that ship with the part (R25, R26, R31, R32, R34, R351 to R366): scans, packets,
admission, groups, completion and errors. -/

namespace Sys2Proof.Machine

def State.setGrid (s : State) (g : Nat) (r : Grid) : State := { s with grids := Tab.set g r s.grids }

/-! ## Signals (R362) -/

/-- R362: the value of a signal after a completion. -/
def signalDone (v : Word) : Word := if bit v 63 || decide (v = 0) then v else v - 1

/-- R362: the value of a signal after an error. -/
def signalError (code : Nat) (v : Word) : Word := if bit v 63 then v else 0x8000000000000000#64 + BitVec.ofNat 64 code

/-- R362: one atomic event at a signal's home; a signal that is 0, misaligned or not translated receives nothing. -/
def State.signalEvent (s : State) (ctx : Nat) (sig : Word) (f : Word → Word) : State :=
  if sig = 0 ∨ sig.toNat % 8 ≠ 0 then s
  else match s.cpWords ctx sig.toNat 1 with
    | some [v] => if f v = v then s else s.cpStore ctx sig.toNat (f v)
    | _ => s

/-! ## Scans (R356) -/

/-- The block of a queue that is live. -/
def State.liveQueue (s : State) (q : Nat) : Option Queue := (s.qcb q).filter (fun r => r.live)

/-- R356: interrupt 67 at the queue's hub core makes the command processor scan the queue; the source bit falls once no live queue of the
hub waits for its scan. -/
def execNotifyScan (q : Nat) (s : State) : Result :=
  let hub : Hart := ⟨hubCore (q % 4), 0⟩
  match s.liveQueue q with
  | none => .next s
  | some r =>
    if bit (s.thread hub).priv.sip 3 ∧ r.notified then
      let s1 := s.setQueue q { r with scanning := true, notified := false }
      .next (s1.driveS hub 67 (s1.blocks.any (fun x => x.2.live && decide (x.1 % 4 = q % 4) && x.2.notified)))
    else .next s

/-- R356: every 100 µs the command processor scans each queue with HINT > READ. -/
def execPeriodicQueueScan (q : Nat) (s : State) : Result :=
  match s.liveQueue q with
  | none => .next s
  | some r => .next (if r.read.ult r.hint then s.setQueue q { r with scanning := true } else s)

/-- R354: the address of ring slot i of a queue. -/
def Queue.slot (r : Queue) (i : Word) : Nat := (virtAddr (r.ring + 128 * (i.toNat % 2 ^ r.log2))).toNat

/-- R356: the 16 doublewords of the packet at READ of a queue that is scanned: none when the scan has ended, or the slot or the ring header
cannot be read, or the ring header is malformed (R7). -/
def State.headPacket (s : State) (q : Nat) : Option (Queue × List Word) :=
  match s.liveQueue q with
  | none => none
  | some r =>
    if !r.scanning then none
    else match s.cpWords r.ctx (r.slot r.read) 16, s.cpBytes r.ctx (virtAddr r.hdr).toNat 64 with
      | some p, some hdr => if bit (p.headD 0) 0 && (hdr.drop 24).all (fun b => decide (b = 0)) then some (r, p) else none
      | _, _ => none

/-- R356: the scan stops at a header that is not valid or cannot be read. -/
def State.endScan (s : State) (q : Nat) : State :=
  match s.qcb q with
  | none => s
  | some r => s.setQueue q { r with scanning := false }

/-- A packet event: the packet at READ of a scanned queue, whose block is then cached, when its KIND is the event's; a scan with no packet to
read stops. -/
def State.atHead (s : State) (q : Nat) (kinds : Nat → Bool) (f : State → Queue → List Word → State) : Result :=
  match s.headPacket q with
  | none => .next (s.endScan q)
  | some (r, p) => .next (if kinds (bits (p.headD 0) 1 3) then f (s.cacheQueue q) r p else s)

/-- R357, R360 step 2: whether BARRIER holds a packet back. -/
def State.barred (s : State) (q : Nat) (p : List Word) : Bool := bit (p.headD 0) 7 && s.grids.any (fun g => decide (g.2.queue = q) && !g.2.complete)

/-- R355: the packet at READ is consumed: its header becomes 0, then READ rises. -/
def State.consume (s : State) (q : Nat) (r : Queue) : State :=
  let s1 := s.cpStore r.ctx (r.slot r.read) 0
  let s2 := s1.cpStore r.ctx (virtAddr (r.hdr + 8)).toNat (r.read + 1)
  match s2.qcb q with
  | none => s2
  | some r' => s2.setQueue q { r' with read := r.read + 1, step := none }

/-- R360, R362: a packet is rejected: its signal receives the code. -/
def State.reject (s : State) (q : Nat) (r : Queue) (p : List Word) (code : Nat) : State :=
  (s.signalEvent r.ctx (p.getD 1 0) (signalError code)).consume q r

/-! ## Progress of grids (R32, R34) -/

/-- R32: whether a grid no longer runs: complete, or ended by its error event. -/
def State.gridOver (s : State) (g : Nat) : Bool := ((Tab.find? s.grids g).map Grid.complete).getD true

/-- R357: the signals of a queue's MARKs fall once every grid that they wait for is complete. -/
def State.fireMarks (s : State) (q : Nat) : State :=
  match s.qcb q with
  | none => s
  | some r =>
    let due (m : Word × List Nat) : Bool := m.2.all s.gridOver
    let s1 := (r.marks.filter due).foldl (fun x m => x.signalEvent r.ctx m.1 signalDone) s
    match s1.qcb q with
    | none => s1
    | some r1 => s1.setQueue q { r1 with marks := r.marks.filter (fun m => !due m) }

/-- R221, R226, R257, R12: a core that no context runs on: the state that belonged to one is gone; its memory stays under its OWNER (R70), and
the M-level registers of its threads are the monitor's (log 43). Messages that have been sent stay in the network (R343). -/
def Core.vacant (c : Core) : Core :=
  { c with
    threads := c.threads.map (fun q => (q.1, { Thread.init .u with priv := q.2.priv, fenceSeq := q.2.fenceSeq }))
    gens := Vector.replicate 4 Gen.init
    inbox := []
    spillcnt := Vector.replicate 4 0
    spillStore := []
    spillMonitor := false
    spillPc := 0
    spillAsk := false
    drainFor := 0
    engine := Engine.init
    queue := []
    running := none
    loading := none
    comet := []
    misses := []
    mudeleg := 0
    mowner := 0
    mcontext := 0
    cmroot := 0 }

/-- The cores of a context are left to others. -/
def State.vacate (s : State) (ctx : Nat) : State :=
  (s.coresOf ctx).foldl (fun r n => r.setCore n (r.core n).vacant) s

/-- R351: a context ends once no live queue names it and none of its grids runs (log 41). -/
def State.reap (s : State) (ctx : Nat) : State :=
  if s.blocks.any (fun q => q.2.live && decide (q.2.ctx = ctx)) || s.grids.any (fun g => decide (g.2.ctx = ctx) && !g.2.complete) then s
  else { s.vacate ctx with ctxs := Tab.del ctx s.ctxs }

/-- What follows the end of a grid. -/
def State.afterGrid (s : State) (g : Grid) : State := (s.fireMarks g.queue).reap g.ctx

/-- R32: whether the threads of a list of cores have no access or transfer on its way. -/
def State.quiet (s : State) (hs : Hart → Bool) : Bool :=
  let still (m : Sram) : Bool := m.parks.all (fun p => !hs p.access.hart) && m.held.all (fun a => !hs a.hart)
  s.net.all (fun m => match m with
    | .reply a _ => !hs a.hart
    | m => m.accesses.all (fun a => !hs a.hart)) &&
    s.cores.all (fun q => still q.2.sram) && s.clusters.all (fun q => still q.2.sram && q.2.transfers.all (fun x => !hs x.hart))

/-- Whether the accesses and transfers of a grid's threads have all been performed (R32 condition 4, R363). -/
def State.gridQuiet (s : State) (gid : Nat) : Bool :=
  s.quiet (fun h => decide ((s.thread h).grid = gid)) &&
    s.domains.all (fun q => decide (q.2.gid ≠ gid) || (q.2.flying.isEmpty && q.2.sends.isEmpty))

/-- R364: whether a queue holds a published LAUNCH packet whose PARENT names a grid, from READ up to WRITE. -/
def State.namesParent (s : State) (gid q : Nat) : Bool :=
  match s.liveQueue q with
  | none => false
  | some r => match s.cpWords r.ctx (virtAddr r.hdr).toNat 1 with
    | some [w] => (List.range (min (w - r.read).toNat (2 ^ r.log2))).any (fun i =>
      match s.cpWords r.ctx (r.slot (r.read + BitVec.ofNat 64 i)) 3 with
      | some [h, _, parent] => bit h 0 && decide (bits h 1 3 = 1) && decide (parent.toNat = gid)
      | _ => false)
    | _ => false

/-- R32: a grid is complete, and its completion signal is decremented. -/
def execGridCompletion (gid : Nat) (s : State) : Result :=
  match Tab.find? s.grids gid with
  | none => .next s
  | some g =>
    if !g.complete && g.aborting.isNone && g.groups.all (fun r => decide (r.state = 2)) && g.children.all s.gridOver &&
        g.childq.all (fun q => !s.namesParent gid q) && s.gridQuiet gid then
      .next (((s.setGrid gid { g with complete := true }).signalEvent g.ctx g.signal signalDone).afterGrid g)
    else .next s

/-- R362, R363: the error event of a stopped grid, once what it had issued has been performed or discarded. -/
def execErrorEvent (gid : Nat) (s : State) : Result :=
  match Tab.find? s.grids gid with
  | none => .next s
  | some g => match g.aborting with
    | none => .next s
    | some code =>
      if !g.complete && s.gridQuiet gid then
        .next (((s.setGrid gid { g with complete := true }).signalEvent g.ctx g.signal (signalError code)).afterGrid g)
      else .next s

/-- R34, R250: whether every transfer that a thread waits for in XF.GO is stalled at a WAIT, in one of the engine's four places or behind four
that are; a record on its way is no such wait. -/
def State.placesStalled (s : State) (h : Hart) : Bool :=
  let xs := (s.cluster (clusterOf h.core)).transfers
  let four := xs.filter (fun x => x.started && x.status.isNone)
  let full : Bool := decide (4 ≤ four.length) && four.all s.transferStalled
  let mine := xs.filter (fun x => decide (x.hart = h))
  decide (mine.length = s.transfersOf h) && mine.all (fun x => s.transferStalled x || (!x.started && x.status.isNone && full))

/-- R227: whether an MX.LDW that has started behind an MX.STREAM has nothing to do before the stream is over: its words are read, or one of them has
failed. -/
def State.loadingWaits (s : State) (core : Nat) (r : Running) : Bool :=
  let c := s.core core
  r.port.answer.isSome || (r.toRead 0 (rangeWords (cmdRanges c.engine c.cmroot r.cmd))).isEmpty

/-- R34: whether every command in a core's engine is stalled at a WAIT, or behind one that is. -/
def State.engineBlocked (s : State) (core : Nat) : Bool :=
  s.engineStalled core && (s.core core).loading.all (fun r => (s.waitsAt r.port).isSome || s.loadingWaits core r)

/-- R34: whether a node's thread is blocked: one that is held is when the access of its own command in the engine waits. -/
def State.nodeBlocked (s : State) (h : Hart) : Bool :=
  let t := s.thread h
  match t.status with
  | .access => match t.pend with
    | some p => s.isParked p.ids || s.isHeldBack p.ids
    | none => false
  | .mrecv => true
  | .signal _ _ => true
  | .engine => s.engineBlocked h.core
  | .held => (s.core h.core).running.any (fun r => decide (r.cmd.hart = h)) && s.engineStalled h.core
  | .place => s.placesStalled h
  | _ => false

/-- R34: whether every resident node of a group is blocked. -/
def State.groupBlocked (s : State) (g : Group) : Bool :=
  (List.range g.nodes).all (fun n => decide ((s.thread (g.hart n)).status = .idle) || s.nodeBlocked (g.hart n))

/-- R34: the grid-deadlock watchdog expires: cause 38 is delivered to the scheduler, and the grid is aborted with code 3. How long its
conditions have held is not part of the state (log 42). DESIGN CHOICE (log 42): R34 names no thread for the report, which here is the one of
node 0 of the grid's first resident group, with its pc, value 0 and NEST 0. -/
def execGridDeadlock (gid : Nat) (s : State) : Result :=
  match Tab.find? s.grids gid with
  | none => .next s
  | some g =>
    let res := g.groups.filter (fun r => decide (r.state = 1))
    if !g.complete && g.aborting.isNone && res.all s.groupBlocked && g.groups.any (fun r => decide (r.state = 0)) then
      match res with
      | [] => .next s
      | r :: _ =>
        let h := r.hart 0
        .next ((s.report { s.reportOf h 38 0 0 false with grid := gid }).abortGrids [gid] 3)
    else .next s

/-- R363: a grid's LIMIT runs out; how much of it has passed is not part of the state (log 42). -/
def execRunTimeLimit (gid : Nat) (s : State) : Result :=
  match Tab.find? s.grids gid with
  | none => .next s
  | some g =>
    let paused := ((Tab.find? s.ctxs g.ctx).map (fun c => decide (c.halt = 2) || c.away)).getD false
    if !g.complete && g.aborting.isNone && decide (g.limit ≠ 0) && !paused && g.groups.any (fun r => decide (r.state ≠ 0)) then
      .next (s.abortGrids [gid] 6)
    else .next s

/-! ## Residence (R24 to R26, R311, R359) -/

/-- R24: whether a core is free: no group is resident on it, and nothing that its threads issued is on its way. -/
def State.coreFree (s : State) (core : Nat) : Bool :=
  s.grids.all (fun g => g.2.groups.all (fun r => decide (r.state ≠ 1) || decide (core ∉ r.coreNums))) &&
    (s.core core).cmds.isEmpty && s.quiet (fun h => decide (h.core = core)) &&
    s.domains.all (fun q => q.2.sends.all (fun b => decide (b.hart.core ≠ core)))

/-- The core as a grid of a context finds it: what another context has left on it is gone. -/
def Core.forCtx (c : Core) (ctx : Nat) : Core := if c.ctx? = some ctx then c else c.vacant

/-- R19: NODEID of the spill thread of a core. -/
def spillNodeId (core : Nat) : Word := BitVec.ofNat 64 (2 ^ 22 * (core % 16) + 2 ^ 26 * 5 + 2 ^ 29 * (core / 16))

/-- R359, R193: a core of the placement as a grid's group becomes resident on it; its spill thread belongs to the grid. -/
def Core.admitGroup (c : Core) (core ctx : Nat) (owner : BitVec 12) (gid : Nat) (g : Grid) : Core :=
  let c1 := c.forCtx ctx
  let t := (Tab.find? c1.threads 5).getD (Thread.init .u)
  { c1 with
    threads := Tab.set 5 { t with grid := gid, nodeid := spillNodeId core, griddim := 0 } c1.threads
    mcontext := BitVec.ofNat 32 ctx
    mowner := owner
    cmroot := g.cmroot
    mudeleg := g.deleg &&& delegMask .compute
    spillMonitor := g.spill.isNone
    spillPc := g.spill.getD 0 }

/-- R359, R247: a user thread as its node starts. -/
def Thread.start (t : Thread) (gid : Nat) (pc args node dim : Word) (member : Option (Nat × Nat)) : Thread :=
  { t with
    x := ((Vector.replicate 32 (0 : Word)).set 10 args).set 11 (BitVec.ofNat 64 gid)
    h := Vector.replicate 8 0
    v := Vector.replicate 32 0
    m := (Vector.replicate 8 (0 : Word32)).set 0 0xFFFFFFFF#32
    dcur := Vector.replicate 16 0
    dnext := Vector.replicate 16 0
    pc := pc
    level := .u
    status := .run
    user := { t.user with utvec := 0, pend := false, uie := false, h := false }
    fmode := 0
    fflags := 0
    nodeid := node
    griddim := dim
    apos := 0
    cmprog := 0
    xf := XferRegs.init
    rep := none
    hint := none
    deferred := none
    pend := none
    gathered := []
    late := []
    drain := none
    grid := gid
    member := member }

/-- Table 3.2: GRIDDIM of a group's nodes. -/
def Grid.dim (g : Grid) (r : Group) : Word :=
  BitVec.ofNat 64 (g.stages.length + 2 ^ 5 * ((g.stages[r.stage]?).map Stage.groups).getD 0 + 2 ^ 18 * r.nodes)

/-- Whether a group of another grid is resident in a cluster. -/
def State.sharedWith (s : State) (gid cluster : Nat) : Bool :=
  s.grids.any (fun q => decide (q.1 ≠ gid) && q.2.groups.any (fun r => decide (r.state = 1) && decide (r.cluster = cluster)))

/-- Whether an image says anything of a cluster's shared SRAM. -/
def needsShared (recs : List ImageRec) : Bool :=
  recs.any (fun r => decide (r.kind = 3) || (decide (r.kind = 8) && decide (4 ≤ r.addr)) ||
    (decide (r.kind = 7) && (r.bytes.drop 64).any (fun b => decide (b ≠ 0))))

/-- R311: the records of a grid applied to a core, unless its earlier groups have applied them; a cluster's number counts from 8192. A cluster
that a group of another grid occupies keeps that grid's tables, and takes this grid's with its first group that comes once the other has left (log
95). A place that takes this grid's records no longer holds another's. -/
def State.applyRecs (s : State) (gid : Nat) (o : BitVec 12) (place : Nat) : State :=
  match Tab.find? s.grids gid with
  | none => s
  | some g =>
    if place ∈ g.applied ∨ (8192 ≤ place ∧ s.sharedWith gid (place - 8192)) then s
    else
      let s0 := s.setGrid gid { g with applied := place :: g.applied }
      let s1 : State := { s0 with grids := s0.grids.map (fun q =>
        (q.1, if q.1 = gid then q.2 else { q.2 with applied := q.2.applied.filter (fun p => decide (p ≠ place)) })) }
      if place < 8192 then s1.setCore place ((s1.core place).applyLocal o g.recs)
      else
        let k := s1.cluster (place - 8192)
        s1.setCluster (place - 8192) { k with sram := k.sram.applyShared o g.recs }

/-- The member of a domain that runs on a hart. -/
def Domain.indexOf (d : Domain) (h : Hart) : Option Nat :=
  (List.range d.members.length).find? (fun i => ((d.members[i]?).map (fun m => decide (m.hart = h))).getD false)

/-- R25, R311, R359: a group becomes resident: its records are applied, and its nodes start. -/
def State.startGroup (s : State) (gid : Nat) (r : Group) : State :=
  match Tab.find? s.grids gid with
  | none => s
  | some g =>
    let s := s.settleEnergy g.ctx
    let o := s.cpOwner g.ctx
    let s1 := r.coreNums.foldl (fun x c => (x.setCore c ((x.core c).admitGroup c g.ctx o gid g)).applyRecs gid o c) (s.applyRecs gid o (8192 + r.cluster))
    let dom := if g.domain then Tab.find? s1.domains g.dom else none
    let s2 := (List.range r.nodes).foldl (fun x n =>
      let h := r.hart n
      let pc := ((g.stages[r.stage]?).map Stage.entry).getD 0
      let args := ((g.stages[r.stage]?).map Stage.args).getD 0
      let member := dom.bind (fun d => (d.indexOf h).map (fun i => (g.dom, i)))
      x.setThread h ((x.thread h).start gid pc args (r.nodeId n) (g.dim r) member)) s1
    let g2 := (Tab.find? s2.grids gid).getD g
    let s3 := s2.setGrid gid { g2 with groups := g2.groups.map (fun y => if y.stage = r.stage ∧ y.index = r.index then { y with state := 1 } else y) }
    match Tab.find? s3.ctxs g.ctx with
    | none => s3
    | some c => s3.setCtx g.ctx { c with energyFrom := some s3.ticks }

/-- R26: the next group of a grid: the first, in ascending (stage, group) order, that has not been dispatched. -/
def Grid.nextGroup (g : Grid) : Option Group := if g.complete || g.aborting.isSome then none else g.groups.find? (fun r => decide (r.state = 0))

/-- Whether a context takes up no new group: a halt is requested for it, or its clusters are released. -/
def State.ctxHalting (s : State) (ctx : Nat) : Bool := ((Tab.find? s.ctxs ctx).map (fun c => decide (c.halt ≠ 0) || c.away)).getD false

/-- A grid's priority: that of its queue (R361). -/
def State.prioOf (s : State) (g : Grid) : Nat := ((s.qcb g.queue).map Queue.prio).getD 0

/-- The contexts with a group resident in a cluster. -/
def State.residents (s : State) (cluster : Nat) : List Nat :=
  (s.grids.filter (fun q => q.2.groups.any (fun r => decide (r.state = 1) && decide (r.cluster = cluster)))).map (fun q => q.2.ctx)

/-- R25, R335, R361: whether the scheduler may release the clusters of a context to make room at a priority: its halt and its image are complete,
and every grid of it that is resident has a lower one. -/
def State.evictable (s : State) (ctx prio : Nat) : Bool :=
  match Tab.find? s.ctxs ctx with
  | none => false
  | some c => decide (c.halt = 2) && c.saved && !c.away &&
      s.grids.all (fun q => decide (q.2.ctx ≠ ctx) || q.2.groups.all (fun r => decide (r.state ≠ 1)) || decide (s.prioOf q.2 < prio))

/-- R25, R335: the scheduler releases the clusters of a context whose image is complete: its groups, its domains, its parked accesses and what
its cores hold of it live in the image (log 94). -/
def State.release (s : State) (ctx : Nat) : State :=
  match Tab.find? s.ctxs ctx with
  | none => s
  | some c =>
    let gs := (s.grids.filter (fun q => decide (q.2.ctx = ctx))).map Prod.fst
    let hs := (s.coresOf ctx).flatMap (fun n => (List.range 6).map (fun t => (⟨n, t⟩ : Hart)))
    let s1 : State := { s with
      grids := s.grids.map (fun q =>
        (q.1, if q.2.ctx = ctx then { q.2 with groups := q.2.groups.map (fun r => if r.state = 1 then { r with state := 3 } else r) } else q.2))
      domains := s.domains.filter (fun q => decide (q.2.gid ∉ gs))
      cores := s.cores.map (fun q => (q.1, { q.2 with sram := q.2.sram.discard hs }))
      clusters := s.clusters.map (fun q => (q.1, { q.2 with sram := q.2.sram.discard hs })) }
    let s2 := (s.coresOf ctx).foldl (fun r n => r.driveM ⟨n, 0⟩ 65 false) s1
    (s2.vacate ctx).setCtx ctx { c with halt := 0, force := false, away := true }

/-- R25, R26, R311, R351, R361: whether groups of a grid can become resident now, and the machine in which they can: their clusters belong to the
context's partition, other contexts on them can be released, their cores are free, and the shared records of the image find no group
of another grid in a cluster (log 95). -/
def State.roomFor (s : State) (ctx prio gid : Nat) (recs : List ImageRec) (applied : List Nat) (rs : List Group) : Option State :=
  let ks := rs.map Group.cluster
  let mine : List Nat := match Tab.find? s.ctxs ctx with
    | some c => (s.part c.part).clusters
    | none => []
  let others := (ks.flatMap s.residents).filter (fun c => decide (c ≠ ctx))
  if ks.all (fun k => decide (k ∈ mine)) && others.all (fun c => s.evictable c prio) then
    let s1 := others.foldl State.release s
    if rs.all (fun r => r.coreNums.all s1.coreFree) &&
        (!needsShared recs || ks.all (fun k => decide (8192 + k ∈ applied) || !s1.sharedWith gid k)) then some s1 else none
  else none

/-- The next group of a grid that could be dispatched now, and the machine in which it can. -/
def State.groupReady (s : State) (gid : Nat) (g : Grid) : Option (Group × State) :=
  if s.ctxHalting g.ctx then none
  else g.nextGroup.bind (fun r => (s.roomFor g.ctx (s.prioOf g) gid g.recs g.applied [r]).map (fun x => (r, x)))

/-- R361: whether a grid is offered freed cores before another: higher priority first, then the earlier admitted. -/
def State.beforeGrid (s : State) (g h : Grid) : Bool :=
  decide (s.prioOf h < s.prioOf g) || (decide (s.prioOf h = s.prioOf g) && decide (g.order < h.order))

/-- Whether two groups want a core, or clusters of two contexts, at once. -/
def contend (c : Nat) (r : Group) (c' : Nat) (r' : Group) : Bool :=
  if c = c' then r'.coreNums.any (fun n => decide (n ∈ r.coreNums)) else decide (r.cluster = r'.cluster)

/-- R361: freed cores take the next group of a grid, unless a grid that is offered them first can use one of them. -/
def execGroupDispatch (gid : Nat) (s : State) : Result :=
  match Tab.find? s.grids gid with
  | none => .next s
  | some g => match s.groupReady gid g with
    | none => .next s
    | some (r, s1) =>
      let rival (q : Nat × Grid) : Bool := s.beforeGrid q.2 g && (match s.groupReady q.1 q.2 with
        | some (r', _) => contend g.ctx r q.2.ctx r'
        | none => false)
      if s.grids.any rival then .next s else .next (s1.startGroup gid r)

/-! ## Packets (R357 to R361, R365) -/

/-- A validated launch. -/
structure Launch where
  image : Image
  stages : List Stage
  groups : List Group
  gang : Bool
  dom : Option Domain
  depth : Nat
  childq : List Nat
  deriving DecidableEq, Repr

/-- Table 9.2: whether a value for CMROOT is well formed. -/
def cmrootOk (v : Word) : Bool := zeroBits v 56 8 && zeroBits v 5 4 && decide (bits v 10 2 ≠ 3) && decide (bits v 0 5 ≤ 20)

/-- The child queues of a packet, whether used or not. -/
def childFields (p : List Word) : List Nat := [bits (p.getD 7 0) 0 20, bits (p.getD 7 0) 20 20, bits (p.getD 7 0) 40 20, bits (p.getD 8 0) 0 20]

/-- R357, R367: the checks of a LAUNCH packet by itself; DELEG has the layout of Table 21.8. -/
def State.packetOk (s : State) (r : Queue) (p : List Word) : Bool :=
  let h := p.headD 0
  let n := bits (p.getD 8 0) 20 3
  zeroBits h 12 52 && zeroBits h 4 2 && decide (bits h 1 3 = 1) && zeroBits (p.getD 7 0) 60 4 && zeroBits (p.getD 8 0) 23 41 && zeroBits (p.getD 9 0) 32 32 &&
    zeroBits (p.getD 6 0) 41 23 && (p.drop 10).all (fun d => decide (d = 0)) && decide (n ≤ 4) && ((childFields p).drop n).all (fun q => decide (q = 0)) &&
    ((childFields p).take n).all (fun q => ((s.liveQueue q).map (fun x => decide (x.ctx = r.ctx))).getD false) && cmrootOk (p.getD 5 0)

/-- R360: the validated launch of a packet, or the code that rejects it: 1, then 2, then 7. -/
def State.launch (s : State) (r : Queue) (p : List Word) : Except Nat Launch :=
  let h := p.headD 0
  match Tab.find? s.ctxs r.ctx with
  | none => .error 1
  | some c =>
    if !s.packetOk r p then .error 1
    else match s.readImage r.ctx (p.getD 3 0).toNat with
      | none => .error 1
      | some m =>
        if bits h 8 4 + 1 ≠ m.stages ∨ bit h 6 ≠ m.coresident then .error 1
        else match (List.range m.stages).mapM (fun i => s.readStage r.ctx (s.part c.part) m (p.getD 4 0).toNat i) with
          | none => .error 1
          | some ss =>
            let groups := ss.flatMap Prod.snd
            match s.readDomain r.ctx m groups with
            | none => .error 1
            | some dom =>
              let datas := m.recs.filter (fun x => decide (x.kind = 4))
              let mapped : Bool := datas.all (fun x => (List.range x.bytes.length).all (fun i => (s.cpWalk r.ctx (x.addr + i) .write).isSome))
              let gang := m.coresident || dom.isSome
              let parent := Tab.find? s.grids (p.getD 2 0).toNat
              let orphan : Bool := decide (p.getD 2 0 ≠ 0) && !((parent.map (fun g => decide (g.ctx = r.ctx) && !g.complete && g.aborting.isNone &&
                decide (g.depth < 8))).getD false)
              if !mapped then .error 1
              else if orphan then .error 2
              else if slotsOf s.orbit c.part = 0 ∨ (gang ∧ !decide (groups.flatMap Group.coreNums).Nodup) then .error 7
              else .ok ⟨m, ss.map Prod.fst, groups, gang, dom, if p.getD 2 0 = 0 then 0 else (parent.map Grid.depth).getD 0 + 1,
                (childFields p).take (bits (p.getD 8 0) 20 3)⟩

/-- The lowest free domain number, of 16 (R36). -/
def State.freeDomain (s : State) : Option Nat := (List.range 16).find? (fun n => (Tab.find? s.domains n).isNone)

/-- R360 step 4: whether the resources of a launch are free, and the machine in which they are: for a gang-admitted grid all its cores, which a
context that halts or is away cannot take, and a domain number where it opens one; any other grid takes its groups as cores free. -/
def State.fits (s : State) (r : Queue) (l : Launch) : Option State :=
  if !l.gang then some s
  else if s.ctxHalting r.ctx then none
  else (s.roomFor r.ctx r.prio 0 l.image.recs [] l.groups).filter (fun x => l.dom.isNone || x.freeDomain.isSome)

/-- R361: the place of a queue in the round of its priority after the queue served last. -/
def roundOf (last q : Nat) : Nat := (q + 2 ^ 20 - 1 - last) % 2 ^ 20

/-- The queue of a priority served last in a partition (R361). -/
def State.lastServed (s : State) (part prio : Nat) : Nat := Tab.get (2 ^ 20 - 1) s.served (16 * part + prio)

/-- R361: whether the waiting head of another queue comes before that of a queue and can be admitted now. -/
def State.headBefore (s : State) (q : Nat) (r : Queue) (x : Nat × Queue) : Bool :=
  let part (c : Nat) : Nat := ((Tab.find? s.ctxs c).map Ctx.part).getD 64
  match s.headPacket x.1 with
  | none => false
  | some (r', p') =>
    decide (x.1 ≠ q) &&
    (decide (r.prio < r'.prio) || (decide (r.prio = r'.prio) && decide (part r.ctx = part r'.ctx) &&
      decide (roundOf (s.lastServed (part r.ctx) r.prio) x.1 < roundOf (s.lastServed (part r.ctx) r.prio) q))) &&
    (match s.launch r' p' with
    | .ok l => l.gang && !s.barred x.1 p' && (s.fits r' l).isSome
    | .error _ => false)

/-- R361: whether a group of an admitted grid that is offered cores first can use one that a launch needs. -/
def State.groupBefore (s : State) (ctx : Nat) (l : Launch) : Bool :=
  s.grids.any (fun g => match s.groupReady g.1 g.2 with
    | some (r, _) => l.groups.any (fun r' => contend ctx r' g.2.ctx r)
    | none => false)

/-- R359: the next serial of a context, which skips 0. -/
def nextSerial (n : Nat) : Nat := if n + 1 < 2 ^ 32 then n + 1 else 1

/-- R360 step 3: the data records of a launch are written. -/
def State.putData (s : State) (r : Queue) (l : Launch) : State :=
  (l.image.recs.filter (fun x => decide (x.kind = 4))).foldl (fun x d => x.cpWrite r.ctx (virtAddr d.addr).toNat d.bytes) s

/-- What a dispatch step that has begun holds of the packet at READ of a queue. -/
def State.setStep (s : State) (q : Nat) (l : List Nat) : State :=
  match s.qcb q with
  | none => s
  | some r => s.setQueue q { r with step := some l }

/-- R360 step 3: the packet at READ of a queue takes its grid's serial, which it keeps while its grid waits (log 96). -/
def State.takeSerial (s : State) (q : Nat) (r : Queue) : Nat × State :=
  match r.step, Tab.find? s.ctxs r.ctx with
  | some (n :: _), _ => (n, s)
  | _, none => (0, s)
  | _, some c =>
    let n := nextSerial c.serial
    (n, (s.setCtx r.ctx { c with serial := n }).setStep q [n])

/-- R360 steps 4 and 5: the launch with a serial is admitted: its groups and its domain; then its packet is consumed. -/
def State.admitLaunch (s : State) (q : Nat) (r : Queue) (p : List Word) (l : Launch) (serial : Nat) : State :=
  match Tab.find? s.ctxs r.ctx with
  | none => s
  | some c =>
    let gid := r.ctx * 2 ^ 32 + serial
    let n := s.freeDomain.getD 0
    let g : Grid := {
      ctx := r.ctx
      queue := q
      parent := (p.getD 2 0).toNat
      depth := l.depth
      signal := p.getD 1 0
      stages := l.stages
      groups := l.groups
      children := []
      childq := l.childq
      gang := l.gang
      domain := l.dom.isSome
      dom := n
      packet := p
      cmroot := p.getD 5 0
      deleg := p.getD 6 0
      limit := bits (p.getD 9 0) 0 32
      used := 0
      order := s.grids.foldl (fun x y => max x (y.2.order + 1)) 0
      recs := l.image.recs
      applied := []
      spill := l.image.entry 16
      aborting := none
      complete := false }
    let s2 := s.setGrid gid g
    let s3 := match Tab.find? s2.grids g.parent with
      | some par => if g.parent = 0 then s2 else s2.setGrid g.parent { par with children := par.children ++ [gid] }
      | none => s2
    let s4 := match l.dom with
      | some d => s3.setDomain n { d with gid := gid, started := (s.clockOf d).toNat }
      | none => s3
    let s5 := if l.gang then l.groups.foldl (fun x y => x.startGroup gid y) s4 else s4
    { s5 with served := Tab.set (16 * c.part + r.prio) q s5.served }.consume q r

/-- R360: the dispatch step of a LAUNCH packet; a packet of an unknown KIND is malformed. A gang-admitted grid that must wait has its identifier, and
its data records are written each time that its step runs (log 96). -/
def execPacketLaunch (q : Nat) (s : State) : Result :=
  s.atHead q (fun k => decide (k = 1) || decide (4 ≤ k)) (fun s r p =>
    match s.launch r p with
    | .error code => s.reject q r p code
    | .ok l =>
      if s.barred q p then s
      else
        let (serial, s0) := s.takeSerial q r
        let s1 := s0.putData r l
        if l.gang && (s1.blocks.any (s1.headBefore q r) || s1.groupBefore r.ctx l) then s1
        else match s1.fits r l with
          | none => s1
          | some s2 => s2.admitLaunch q r p l serial)

/-- R357: whether only the header and doubleword 1 of a NOP or MARK hold anything. -/
def plainOk (p : List Word) : Bool := zeroBits (p.headD 0) 12 52 && zeroBits (p.headD 0) 4 2 && (p.drop 2).all (fun d => decide (d = 0))

/-- R357: a NOP is consumed, and its signal is decremented at once. -/
def execPacketNop (q : Nat) (s : State) : Result :=
  s.atHead q (fun k => decide (k = 0)) (fun s r p =>
    if !plainOk p then s.reject q r p 1
    else if s.barred q p then s
    else (s.signalEvent r.ctx (p.getD 1 0) signalDone).consume q r)

/-- R357: a MARK is consumed; its signal falls once every earlier grid of the queue is complete. -/
def execPacketMark (q : Nat) (s : State) : Result :=
  s.atHead q (fun k => decide (k = 2)) (fun s r p =>
    if !plainOk p then s.reject q r p 1
    else if s.barred q p then s
    else
      let waits := (s.grids.filter (fun g => decide (g.2.queue = q) && !g.2.complete)).map Prod.fst
      ((s.setQueue q { r with marks := r.marks ++ [(p.getD 1 0, waits)] }).consume q r).fireMarks q)

/-- Table 24.2, R365: the QCB of an image; none when it is malformed or not live. -/
def qcbOf (ws : List Word) : Option Queue :=
  let d (i : Nat) : Word := ws.getD i 0
  if zeroBits (d 0) 56 8 && zeroBits (d 0) 0 7 && zeroBits (d 1) 5 3 && zeroBits (d 1) 13 51 && bit (d 1) 12 && decide (1 ≤ bits (d 1) 0 5) &&
      decide (bits (d 1) 0 5 ≤ 16) && zeroBits (d 2) 56 8 && zeroBits (d 2) 0 6 && zeroBits (d 3) 32 32 && (ws.drop 6).all (fun w => decide (w = 0)) then
    some ⟨(d 0).toNat, bits (d 1) 0 5, bits (d 1) 8 4, true, (d 2).toNat, bits (d 3) 0 32, d 4, d 5, false, false, [], none⟩
  else none

/-- R351, R365: the function that a queue belongs to: the one whose partition its context lies in (log 62). -/
def State.functionOf (s : State) (r : Queue) : Nat :=
  match Tab.find? s.ctxs r.ctx with
  | some c => c.part
  | none => r.ctx - adminCtx 0

/-- R365: an admin queue's QUEUE packet with an OP, its QID and image address; other queues hold none. -/
def State.queuePacketOk (s : State) (q : Nat) (r : Queue) (p : List Word) : Bool :=
  decide (q < 64) && decide (s.functionOf r = q) && zeroBits (p.headD 0) 12 52 && zeroBits (p.headD 0) 4 2 && decide ((p.getD 2 0).toNat = 1 ∨ (p.getD 2 0).toNat = 2) &&
    decide ((p.getD 3 0).toNat < 2 ^ 20)

/-- R365, R351: whether a context lies in a function's partition, or does not exist and can be created there with the partition's owner; the context
of an admin queue lies in its function's partition (log 62). -/
def State.ctxFits (s : State) (fn ctx : Nat) : Bool :=
  match Tab.find? s.ctxs ctx with
  | some c => decide (c.part = fn)
  | none => decide ((s.part fn).owner ≠ 0) && (decide (ctx < adminCtx 0) || decide (ctx = adminCtx fn))

/-- R365: a queue is created; a packet that is malformed, or an OP that is neither, is rejected. -/
def execPacketQueueCreate (q : Nat) (s : State) : Result :=
  s.atHead q (fun k => decide (k = 3)) (fun s r p =>
    if !s.queuePacketOk q r p then s.reject q r p 1
    else if (p.getD 2 0).toNat ≠ 1 then s
    else
      let qid := (p.getD 3 0).toNat
      match (s.cpWords r.ctx (p.getD 4 0).toNat 16).bind qcbOf with
      | none => s.reject q r p 1
      | some n =>
        if (s.liveQueue qid).isSome || !s.ctxFits q n.ctx then s.reject q r p 1
        else if s.barred q p then s
        else
          let s1 := match Tab.find? s.ctxs n.ctx with
            | some _ => s
            | none => s.setCtx n.ctx (Ctx.new q (s.part q).owner)
          ((s1.setQueue qid n).signalEvent r.ctx (p.getD 1 0) signalDone).consume q r)

/-- R365 step 3: every published packet that a destroyed queue has not consumed gives its signal code 4. -/
def State.cancelPackets (s : State) (r : Queue) : State :=
  match s.cpWords r.ctx (virtAddr r.hdr).toNat 1 with
  | some [w] => (List.range (min (w - r.read).toNat (2 ^ r.log2))).foldl (fun x i =>
    match x.cpWords r.ctx (r.slot (r.read + BitVec.ofNat 64 i)) 2 with
    | some [h, sig] => if bit h 0 then x.signalEvent r.ctx sig (signalError 4) else x
    | _ => x) s
  | _ => s

/-- R365 steps 4 and 5: a queue is no longer live. -/
def State.unlive (s : State) (qid : Nat) : State :=
  match s.qcb qid with
  | none => s
  | some d => s.setQueue qid { d with live := false, scanning := false, step := none }

/-- R365: the end of a destroy, once the grids that it cancelled have had their error events: an admin queue that destroys itself is live no longer, and
the packet's own SIGNAL is decremented. -/
def State.endDestroy (s : State) (q : Nat) (r : Queue) (p : List Word) (gs : List Nat) : State :=
  if gs.all s.gridOver then
    let s1 := if (p.getD 3 0).toNat = q then s.unlive q else s
    (s1.signalEvent r.ctx (p.getD 1 0) signalDone).consume q r
  else s

/-- R365: a queue is destroyed: its grids are cancelled, its packets receive code 4, and it is no longer live; then the destroy waits for the grids'
error events. -/
def execPacketQueueDestroy (q : Nat) (s : State) : Result :=
  s.atHead q (fun k => decide (k = 3)) (fun s r p =>
    if !s.queuePacketOk q r p then s.reject q r p 1
    else if (p.getD 2 0).toNat ≠ 2 then s
    else match r.step with
    | some gs => s.endDestroy q r p gs
    | none =>
      let qid := (p.getD 3 0).toNat
      match s.liveQueue qid with
      | none => s.reject q r p 1
      | some d =>
        if s.functionOf d ≠ q then s.reject q r p 1
        else if s.barred q p then s
        else
          let gs := withChildren s 9 ((s.grids.filter (fun g => decide (g.2.queue = qid) && !g.2.complete)).map Prod.fst)
          let s1 := (s.abortGrids gs 4).cancelPackets (if qid = q then { d with read := d.read + 1 } else d)
          let s2 := (if qid = q then s1 else s1.unlive qid).setStep q gs
          (s2.endDestroy q r p gs).reap d.ctx)

end Sys2Proof.Machine
end

