-- ==== Sys2Proof/Machine/Save.lean ====
section
/-! DEFINITION. The context image (R335, R375 to R377): its sections, how the save engine writes it, and how it is read back (R378, R379). -/

namespace Sys2Proof.Machine

/-- A section of an image (R375): its TYPE, its KEY and its payload. -/
structure Section where
  kind : Nat
  key : Nat
  data : List Byte
  deriving DecidableEq, Repr

/-- Doublewords as bytes. -/
def wordBytes (ws : List Word) : List Byte := ws.flatMap (fun w => leBytes 8 w.toNat)

/-- Zero bytes up to a multiple of 8. -/
def padTo8 (bs : List Byte) : List Byte := bs ++ List.replicate ((8 - bs.length % 8) % 8) 0

/-- R375: a section with its header and padding. -/
def Section.bytes (x : Section) : List Byte := leBytes 4 x.kind ++ leBytes 4 x.data.length ++ leBytes 8 x.key ++ padTo8 x.data

/-- Table 26.3: an image of sections. -/
def imageBytes (l : List Section) : List Byte :=
  let body := l.flatMap Section.bytes
  leBytes 4 0x58434E4C ++ leBytes 2 1 ++ leBytes 2 0 ++ leBytes 2 1 ++ leBytes 2 0 ++ leBytes 4 l.length ++ leBytes 8 (64 + body.length) ++
    List.replicate 40 0 ++ body

/-! ## Memory -/

/-- R375: one memory range as an owner sees it: its doubleword, its bytes and a byte for each tag. -/
def Sram.rangeBytes (m : Sram) (o : BitVec 12) (off len : Nat) : List Byte :=
  leBytes 8 (off + 2 ^ 21 * len) ++ (List.range len).map (fun i => BitVec.ofNat 8 (m.readFor o (off + i) 1)) ++
    (List.range (len / 8)).map (fun i => (m.tagFor o (off / 8 + i)).setWidth 8)

/-- Table 26.4: a copy of a table set. -/
def TableCopy.bytes (c : TableCopy) : List Byte :=
  (List.range 64).flatMap (fun i => leBytes 2 (Tab.get 0 c.entries i).toNat) ++ (List.range 4).flatMap (fun i => leBytes 8 (Tab.get 0 c.rbase i).toNat)

/-- Table 26.4: the four sets of a memory, each with its shadow. -/
def Sram.setBytes (m : Sram) : List Byte :=
  (List.range 4).flatMap (fun i => let t := (Tab.find? m.sets i).getD TableSet.init; t.active.bytes ++ t.shadow.bytes)

/-- The section key of a thread (Table 26.4). -/
def Hart.key (h : Hart) : Nat := 8 * h.core + h.th

/-- R375: a park-list entry of 96 bytes; the offset of its word is in bytes (Table 5.1). -/
def Parked.bytes (q : Parked) (p : Place) : List Byte :=
  let a := q.access
  let base := 64 * (((a.elems.headD (0, 0)).1) / 64)
  let mask := a.elems.foldl (fun m e => (List.range a.esize).foldl (fun m i => m ||| 2 ^ ((e.1 + i - base) % 64)) m) 0
  leBytes 8 (8 * q.word % 2 ^ 22 + 2 ^ 24 * kindAt p a + 2 ^ 32 * q.bank + 2 ^ 40 * a.hart.key) ++ leBytes 8 mask ++ leBytes 64 a.data.toNat ++
    List.replicate 16 0

/-- A park list with its count of entries, which the layout of R375 leaves out (log 44). -/
def Sram.parkBytes (m : Sram) (p : Place) : List Byte := leBytes 8 m.parks.length ++ m.parks.flatMap (fun q => q.bytes p)

/-- A range put into an ascending list, merged with those that it meets (R376). -/
def mergeRange (r : Nat × Nat) : List (Nat × Nat) → List (Nat × Nat)
  | [] => [r]
  | x :: t =>
    if r.1 + r.2 < x.1 then r :: x :: t
    else if x.1 + x.2 < r.1 then x :: mergeRange r t
    else mergeRange (min r.1 x.1, max (r.1 + r.2) (x.1 + x.2) - min r.1 x.1) t

/-- R376: the local ranges that the save of a core writes. -/
def State.coreRanges (s : State) (core : Nat) : List (Nat × Nat) :=
  let ts := ((List.range 4).map (fun i => s.thread ⟨core, i⟩)).filter (fun t => decide (t.status ≠ .idle))
  if ts ≠ [] ∧ ts.all (fun t => decide (t.status = .halted false) && t.hint.isSome) then
    ts.foldl (fun l t => ((t.hint.map Hint.ranges).getD []).foldl (fun l r => mergeRange r l) l) []
  else [(0, 0x1B0000)]

/-! ## Sections -/

/-- The grids of a context that run, by identifier. -/
def State.gridsRunning (s : State) (ctx : Nat) : List (Nat × Grid) := s.grids.filter (fun g => decide (g.2.ctx = ctx) && !g.2.complete)

/-- The clusters that an image of a context holds, ascending: those of its resident groups. -/
def State.savedClusters (s : State) (ctx : Nat) : List Nat := (s.clustersOf ctx).foldr insertAsc []

/-- The cores of a context in its clusters. -/
def State.savedCores (s : State) (ctx : Nat) : List Nat :=
  (s.coresOf ctx).filter (fun c => decide (c / 16 ∈ s.savedClusters ctx))

/-- Table 26.4, section 1. -/
def State.ctxSection (s : State) (ctx : Nat) (c : Ctx) : Section :=
  let (root, deleg) : Word × Word := match s.savedCores ctx, s.gridsRunning ctx with
    | n :: _, _ => ((s.core n).cmroot, (s.core n).mudeleg)
    | [], (_, g) :: _ => (g.cmroot, g.deleg &&& delegMask .compute)
    | [], [] => (0, 0)
  ⟨1, ctx, wordBytes [c.owner.setWidth 64, s.energyWord ctx, root, deleg, BitVec.ofNat 64 (nextSerial c.serial)]⟩

/-- Table 26.4, section 2; `used` is the part of LIMIT that has passed. PLACE of an inlined stage is its map's offset (log 44). -/
def Grid.section (g : Grid) (gid : Nat) (used : Word) : Section :=
  let head := 80 + 32 * g.stages.length
  let before (i : Nat) : Nat := ((g.stages.take i).map Stage.groups).foldl (· + ·) 0
  let place (r : Group) : List Word :=
    [BitVec.ofNat 64 (r.cluster + 2 ^ 8 * (r.nodes - 1) + 2 ^ 16 * (r.cores.length - 1)),
     BitVec.ofNat 64 ((List.range r.cores.length).foldl (fun v j => v + 16 ^ j * r.cores.getD j 0) 0)]
  ⟨2, gid, wordBytes ((g.packet.drop 1).take 9 ++ [used]) ++
    (List.range g.stages.length).flatMap (fun i => match g.stages[i]? with
      | some st => wordBytes [st.args, BitVec.ofNat 64 st.groups, BitVec.ofNat 64 (head + 16 * before i), 0]
      | none => []) ++
    wordBytes (g.groups.flatMap place) ++ g.groups.map (fun r => BitVec.ofNat 8 r.state) ++ g.children.flatMap (leBytes 8)⟩

/-- Table 26.4, section 3. A slot count past the field, when no send is left to begin, is saved as the field's largest value (log 109). -/
def Domain.section (d : Domain) : Section :=
  let n := (d.members.length + 63) / 64
  let out (g : Sig) (j : Nat) : Word := BitVec.ofNat 64 ((g.out.filter (fun i => decide (i / 64 = j))).foldl (fun v i => v + 2 ^ (i % 64)) 0)
  ⟨3, d.gid, wordBytes ([BitVec.ofNat 64 (d.exch.toNat + 2 ^ 16 * min d.slot 65535), BitVec.ofNat 64 d.members.length, BitVec.ofNat 64 d.sigs.length, d.instant] ++
    (List.range 4).map (fun i => d.record.getD i 0) ++
    d.sigs.flatMap (fun g => [BitVec.ofNat 64 (sigCode g.status + 4 * g.prev.toNat), g.value] ++ (List.range n).map (out g)))⟩

/-- Table 26.4, section 4. -/
def State.clusterSection (s : State) (o : BitVec 12) (k : Nat) : Section :=
  let m := (s.cluster k).sram
  ⟨4, k, (List.range 64).map (fun b => BitVec.ofNat 8 ((List.range 4).foldl (fun v i => v + 4 ^ i * m.setOf (0x800 * (4 * b + i))) 0)) ++ m.setBytes ++
    m.parkBytes (.cluster k) ++ m.rangeBytes o 0 0x400000⟩

/-- Table 26.4: a stream generator in 80 bytes. -/
def Gen.bytes (g : Gen) : List Byte :=
  (List.range 64).map (fun i => g.descr.getD i 0) ++ leBytes 4 (g.bound.getD 0xFFFFFFFF) ++ leBytes 8 g.n ++ leBytes 4 g.exhausted.toNat

/-- Table 26.4: an inbox entry in 72 bytes. -/
def Entry.bytes72 (e : Entry) : List Byte := leBytes 64 e.bytes.toNat ++ leBytes 8 e.loop.toNat

/-- Table 26.4, section 5. -/
def State.coreSection (s : State) (o : BitVec 12) (n : Nat) : Section :=
  let c := s.core n
  ⟨5, n, (List.range 16).map (fun b => (c.fmts.getD b 0).setWidth 8) ++ wordBytes ((List.range 8).map (fun k => c.tagmap .m k)) ++ c.sram.setBytes ++
    (List.range 4).flatMap (fun i => (c.gens.getD i Gen.init).bytes) ++ leBytes 93504 (segsNat (c.engine.image c.cmroot)) ++
    (List.range 4).flatMap (fun i => leBytes 8 (c.spillcnt.getD i 0)) ++ leBytes 8 c.inbox.length ++ c.inbox.flatMap Entry.bytes72 ++
    leBytes 8 c.spillStore.length ++ c.spillStore.flatMap Entry.bytes72 ++ c.sram.parkBytes (.core n) ++
    (s.coreRanges n).flatMap (fun r => c.sram.rangeBytes o r.1 r.2)⟩

/-- Table 26.4: the CSRs that a thread section holds. -/
def savedCsrs : List Nat :=
  [0x000, 0x001, 0x002, 0x003, 0x004, 0x005, 0x010, 0x011, 0x030, 0x040, 0x041, 0x042, 0x043, 0x044, 0x045, 0x046, 0x047, 0x048, 0x049, 0x04A,
   0x04B, 0x04C, 0x04D, 0x04E, 0x050, 0x051, 0x061, 0x062, 0xC01]

/-- R376: the live registers of a thread: those of its hint when it halted there, else all. -/
def Thread.live (t : Thread) : BitVec 32 × BitVec 32 :=
  match t.status, t.hint with
  | .halted false, some x => (x.livex, x.livev)
  | _, _ => (0xFFFFFFFE#32, 0xFFFFFFFF#32)

/-- Table 26.4: HALT, with the deferred fault that R374 leaves a thread in bits that the table does not name (log 44). -/
def Thread.haltWord (t : Thread) : Word :=
  BitVec.ofNat 64 ((if t.status = .halted true then 1 else 0) + 2 * t.pend.isSome.toNat +
    (match t.deferred with
    | some f => 4 + 2 ^ 8 * f.cause + 2 ^ 32 * f.utag.toNat
    | none => 0))

/-- Table 26.4, section 6. -/
def State.threadSection (s : State) (h : Hart) : Section :=
  let t := s.thread h
  let (lx, lv) := t.live
  let rep : List Word := match t.rep with
    | some r => [r.start, BitVec.ofNat 64 (r.bytes.length + 2 ^ 32 * r.count), BitVec.ofNat 64 r.left, r.trapped]
    | none => [0, 0, 0, 0]
  ⟨6, h.key, wordBytes ([t.nodeid, t.griddim, t.pc, t.haltWord, lx.setWidth 64, lv.setWidth 64] ++
      ((List.range 32).filter (fun i => bit lx i)).map (fun i => t.x.getD i 0) ++ t.h.toList) ++
    ((List.range 32).filter (fun i => bit lv i)).flatMap (fun i => leBytes 64 (t.v.getD i 0).toNat) ++
    wordBytes (t.m.toList.map (fun m => m.setWidth 64) ++ t.dcur.toList ++ t.dnext.toList ++ savedCsrs.map (fun n => s.readCsr h n) ++
      [t.seq.setWidth 64] ++ rep ++ (t.deferred.map Deferred.value).toList)⟩

/-- R375: the threads that an image holds of a core: those that host a node, the drain thread and the spill thread. -/
def State.savedThreads (s : State) (core : Nat) : List Hart :=
  ((List.range 6).filter (fun i => decide (4 ≤ i) || decide ((s.thread ⟨core, i⟩).status ≠ .idle))).map (fun i => ⟨core, i⟩)

/-- R375, Table 26.4: the sections of a halted context. -/
def State.sections (s : State) (ctx : Nat) (c : Ctx) : List Section :=
  let gs := s.gridsRunning ctx
  let used (i : Nat) (g : Grid) : Word :=
    if g.limit = 0 then 0 else BitVec.ofNat 64 g.used + Config.freeWord (s.free + i)
  [s.ctxSection ctx c] ++
  (List.range gs.length).flatMap (fun i => match gs[i]? with
    | some g => [g.2.section g.1 (used i g.2)]
    | none => []) ++
  gs.flatMap (fun g => match s.domainOf g.1 with
    | some (_, d) => [d.section]
    | none => []) ++
  (s.savedClusters ctx).map (s.clusterSection c.owner) ++ (s.savedCores ctx).map (s.coreSection c.owner) ++
  (s.savedCores ctx).flatMap (fun n => (s.savedThreads n).map s.threadSection)

/-! ## The run-length logs (R396) -/

/-- R396, Table 27.6: a core of an armed context appends an entry to its log ring, in the memory that ARM named; a full ring loses its oldest. -/
def State.logEntry (s : State) (core : Nat) (e : BitVec 16) : State :=
  match (s.core core).ctx?, s.ctxOf core with
  | some ctx, some c =>
    let k := s.core core
    let n := c.dbg.logs.entries
    let i := ((s.coresOf ctx).filter (fun x => decide (x < core))).length
    let s1 := s.ringWrite c.owner ctx (c.dbg.logs.cores + 2 * (n * i + k.logged % n)) 2 e.toNat
    let l := k.runlog ++ [e]
    s1.setCore core { s1.core core with runlog := l.drop (l.length - n), logged := k.logged + 1 }
  | _, _ => s

/-- Table 27.6: an entry of a thread and a run. -/
def runEntry (thread run : Nat) : BitVec 16 := BitVec.ofNat 16 (2 ^ 13 * thread + run - 1)

/-- R396: a sequence of threads as runs of at most 8,192. -/
def runsOf : List Nat → List (Nat × Nat)
  | [] => []
  | t :: r => match runsOf r with
    | [] => [(t, 1)]
    | (u, n) :: q => if u = t ∧ n < 8192 then (u, n + 1) :: q else (t, 1) :: (u, n) :: q

/-- R396: the threads that have issued on a core since its last entry go into its log. -/
def State.flushLog (s : State) (core : Nat) : State :=
  let s1 := (runsOf (s.core core).trace).foldl (fun r q => r.logEntry core (runEntry q.1 q.2)) s
  s1.setCore core { s1.core core with trace := [] }

/-- R396: a core's log comes up to date, and takes the marker of a checkpoint. -/
def State.logMarker (s : State) (core : Nat) : State := (s.flushLog core).logEntry core 0xE000

/-- R396, R397: the thread that a log names next, and the log once that has issued; no issue and markers are passed over. -/
def nextLogged : List (BitVec 16) → Option (Nat × List (BitVec 16))
  | [] => none
  | e :: r => if 6 ≤ bits e 13 3 then nextLogged r else some (bits e 13 3, if bits e 0 13 = 0 then r else (e - 1) :: r)

/-- R397: whether a thread may issue while its context is replayed: the count is not reached, and the log of its core names it (log 66). -/
def State.logAllows (s : State) (h : Hart) : Bool :=
  match (s.ctxOf h.core).bind (fun c => c.dbg.target) with
  | none => true
  | some (g, goal) => decide ((s.thread g).retired ≠ goal) && (match ((s.core h.core).replay.bind nextLogged) with
    | some (t, _) => decide (t = h.th)
    | none => true)

/-- R396, log 66: whether a turn of a thread was an issue: it changed the thread, beyond a wait in which its instruction is tried again, and did not
halt it. -/
def Thread.issued (old new : Thread) : Bool :=
  let waits : Bool := match new.status with
    | .held | .pause | .xsend | .xend | .report => true
    | _ => false
  !new.status.isHalted && (waits || decide ({ new with status := old.status, bill := old.bill } ≠ old))

/-- R396, R397: what a turn in which a thread of an armed context has issued leaves in its core's log, or takes from the log that the core follows. -/
def State.noteIssue (s : State) (h : Hart) (old : Thread) : State :=
  if !((s.ctxOf h.core).map (fun c => c.dbg.armed.isSome)).getD false || !old.issued (s.thread h) then s
  else
    let c := s.core h.core
    match c.replay with
    | none => s.setCore h.core { c with trace := c.trace ++ [h.th] }
    | some l => s.setCore h.core { c with replay := (nextLogged l).map Prod.snd }

/-! ## The save engine -/

/-- R335: the comet buffers of a context and the TLB entries of its address space are discarded. -/
def State.dropCaches (s : State) (ctx : Nat) : State :=
  { s with cores := s.cores.map (fun q =>
    if kindOf q.1 = .compute then
      (q.1, { q.2 with
        comet := if q.2.mcontext.toNat = ctx then [] else q.2.comet
        tlb := q.2.tlb.filter (fun e => decide (e.asid ≠ ctx % 4096)) })
    else q) }

/-- Writes bytes at the places of their 64-byte lines. -/
def State.rawBytes (s : State) : List RawAt → List Byte → State
  | [], _ => s
  | p :: t, bs => if bs = [] then s else (s.rawWrite 0 p (min 64 bs.length) (leValue (bs.take 64))).rawBytes t (bs.drop 64)

/-- R335: SIZE, then STATUS with DONE = 1, in the request block, which is reached as CTX.SAVE reached it. -/
def State.saveStatus (s : State) (r : SaveReq) (status size : Nat) : State :=
  match s.rawMap r.hart r.level .write r.block 1 [] with
  | .ok [p] s1 =>
    let at_ (n : Nat) : RawAt := match p with
      | .sram q off => .sram q (off + n)
      | .dram k pa => .dram k (pa + n)
      | .regs pa => .regs (pa + n)
      | .away => .away
    match s1.rawMeet 0 [(p, false)] 0 with
    | (none, s2) => (s2.rawWrite 0 (at_ 24) 8 size).rawWrite 0 (at_ 16) 8 (2 ^ 63 + status)
    | (some _, s2) => s2
  | _ => s

/-- R396: the checkpoint of an armed context that a latch has asked for, with its image: the next interval begins; the two latest are held. -/
def Debug.checkpoint (d : Debug) (instant : Word) (image : List Byte) : Debug :=
  { d with
    mark := none
    taken := d.taken + 1
    interval := d.taken
    checkpoints := (d.checkpoints ++ [Checkpoint.mk d.taken instant image]).drop (d.checkpoints.length + 1 - 2) }

/-- R383: the 512 KiB pages of DRAM that the cores of a context have written since a store. -/
def State.dirtied (s : State) (ctx since : Nat) : List Nat :=
  ((s.log.filter (fun r => decide (since ≤ r.seq) && decide (r.place = none) && decide (r.hart.core ∈ s.coresOf ctx))).map
    (fun r => 64 * r.line / 2 ^ 19)).foldr insertAsc []

/-- R383, R396: a context whose halt is complete with what its latch has asked for: a debug checkpoint of its image, or a mirror with the pages that it
has written since the one before. -/
def State.latched (s : State) (ctx : Nat) (c : Ctx) (image : List Byte) : Ctx :=
  let c1 : Ctx := match c.dbg.mark with
    | some i => { c with dbg := c.dbg.checkpoint i image }
    | none => c
  match c.mirroring with
  | some i => { c1 with mirroring := none, mirror := some ⟨s.logSeq, i, image, s.dirtied ctx ((c.mirror.map Mirror.seq).getD 0)⟩ }
  | none => c1

/-- R396: the cores of a context log the marker of a checkpoint. -/
def State.logMarkers (s : State) (ctx : Nat) (checkpoint : Bool) : State :=
  if checkpoint then (s.coresOf ctx).foldl State.logMarker s else s

/-- R335, R383, R396: once the halt of a context is complete, the save engine takes what a latch has asked for, after which the context goes on unless
the scheduler or a STOP has asked for a halt too; or it writes its image for a request. -/
def execSaveEngine (ctx : Nat) (s : State) : Result :=
  let s0 := s.settle ctx
  match Tab.find? s0.ctxs ctx with
  | none => .next s0
  | some c =>
    if c.halt ≠ 2 then .next s0
    else if c.latching then
      let c1 := s0.latched ctx c (imageBytes (s0.sections ctx c))
      let stop := c.dbg.asked.isSome || c.dbg.stopped.isSome
      let dbg := if stop || c.dbg.waiting.isNone then c1.dbg else { c1.dbg.breakInterval with waiting := none }
      let s1 := ({ s0 with free := s0.free + s0.grids.length }.setCtx ctx { c1 with dbg := dbg }).logMarkers ctx c.dbg.mark.isSome
      .next (if stop || c.dbg.waiting.isSome then s1 else s1.resumeCtx ctx)
    else match c.saving with
        | none => .next s0
        | some r =>
          let s1 := s0.dropCaches ctx
          let img := imageBytes (s1.sections ctx c)
          let s2 := { s1 with free := s1.free + s1.grids.length }.setCtx ctx { c with saving := none }
          if r.limit < img.length then .next (s2.saveStatus r 1 0)
          else if r.dest.toNat % 4096 ≠ 0 then .next (s2.saveStatus r 2 0)
          else match s2.rawMap r.hart r.level .write r.dest ((img.length + 63) / 64) [] with
            | .ok l s3 => match s3.rawMeet 0 ((List.range l.length).zipWith (fun i p => (p, decide (64 * i + 64 ≤ img.length))) l) 0 with
              | (none, s4) => .next (((s4.rawBytes l img).setCtx ctx { c with saving := none, saved := true }).saveStatus r 0 img.length)
              | (some _, s4) => .next (s4.saveStatus r 2 0)
            | _ => .next (s2.saveStatus r 2 0)

end Sys2Proof.Machine
end

