-- ==== Sys2Proof/Machine/Restore.lean ====
section
/-! DEFINITION. Restoring a context image (R378, R379): its checks, and the machine that it describes. -/

namespace Sys2Proof.Machine

/-! ## Reading an image -/

/-- R375: the sections of an image from an offset on; none when one breaks its bounds. -/
def readSections (bs : List Byte) : Nat → Nat → List Section → Option (List Section)
  | 0, off, acc => if off = bs.length then some acc.reverse else none
  | n + 1, off, acc =>
    let len := fieldAt bs (off + 4) 4
    let pad := (len + 7) / 8 * 8
    if bs.length < off + 16 + pad ∨ ((bs.drop (off + 16 + len)).take (pad - len)).any (fun b => decide (b ≠ 0)) then none
    else readSections bs n (off + 16 + pad) (⟨fieldAt bs off 4, fieldAt bs (off + 8) 8, (bs.drop (off + 16)).take len⟩ :: acc)

/-- R375: whether sections stand in ascending TYPE and KEY. -/
def sectionsAscend : List Section → Bool
  | [] => true
  | x :: t => (match t with
    | [] => true
    | y :: _ => decide (x.kind < y.kind) || (decide (x.kind = y.kind) && decide (x.key < y.key))) && sectionsAscend t

/-- Table 26.3, R378: the sections of an image; none when its header or a section is refused. -/
def parseImage (bs : List Byte) : Option (List Section) :=
  if fieldAt bs 0 4 ≠ 0x58434E4C ∨ fieldAt bs 4 2 ≠ 1 ∨ fieldAt bs 8 2 ≠ 1 ∨ fieldAt bs 10 2 ≠ 0 ∨ fieldAt bs 16 8 ≠ bs.length ∨
      ((bs.drop 24).take 40).any (fun b => decide (b ≠ 0)) then none
  else match readSections bs (fieldAt bs 12 4) 64 [] with
    | none => none
    | some l => if sectionsAscend l && l.all (fun x => decide (1 ≤ x.kind) && decide (x.kind ≤ 6)) then some l else none

/-- n lines from an address as a hub core at S reads them; none when one cannot be read. -/
def State.rawLines (s : State) (a : Word) (n : Nat) : Option (List Byte) × State :=
  match s.rawMap ⟨hubCore 0, 0⟩ .s .read a n [] with
  | .ok l s1 => match s1.rawMeet 0 (l.map (fun p => (p, false))) 0 with
    | (none, s2) => (some (l.flatMap (fun p => leBytes 64 (s2.rawRead 0 p 64))), s2)
    | (some _, s2) => (none, s2)
  | _ => (none, s)

/-- The bytes of an image in memory, as a hub core reads them. -/
def State.rawImage (s : State) (a : Word) : Option (List Byte) × State :=
  match s.rawLines a 1 with
  | (none, s1) => (none, s1)
  | (some h, s1) =>
    let size := fieldAt h 16 8
    let (bs, s2) := s1.rawLines a ((size + 63) / 64)
    (bs.map (fun l => l.take size), s2)

/-! ## Memory -/

/-- R379: what an owner held in a memory is gone. -/
def Sram.forget (m : Sram) (o : BitVec 12) : Sram :=
  { m with
    cells := m.cells.filter (fun q => decide (m.ownerOf q.1 ≠ o))
    tags := m.tags.filter (fun q => decide (m.ownerOf (8 * q.1) ≠ o))
    owners := m.owners.filter (fun q => decide (q.2 ≠ o)) }

/-- R379: memory ranges of a payload up to a limit, written with their tags; a doubleword or tag with RES0 bits is malformed (R375). -/
def Sram.putRanges (m : Sram) (o : BitVec 12) (limit : Nat) : Nat → List Byte → Option Sram
  | 0, bs => if bs = [] then some m else none
  | n + 1, bs =>
    if bs = [] then some m
    else
      let w := fieldAt bs 0 8
      let off := w % 2 ^ 21
      let len := w / 2 ^ 21
      if off % 64 ≠ 0 ∨ len % 64 ≠ 0 ∨ limit < off + len ∨ bs.length < 8 + len + len / 8 ∨
          ((bs.drop (8 + len)).take (len / 8)).any (fun b => decide (8 ≤ b.toNat)) then none
      else
        let data := (bs.drop 8).take len
        let tags := (bs.drop (8 + len)).take (len / 8)
        let m1 := m.putImage o off data
        let m2 := (List.range (len / 8)).foldl (fun r i => r.setTag (off / 8 + i) ((tags.getD i 0).setWidth 3)) m1
        m2.putRanges o limit n (bs.drop (8 + len + len / 8))

/-- Table 26.4: the four sets of a payload's 1,280 bytes. -/
def setsFrom (bs : List Byte) : Tab TableSet :=
  let copy (off : Nat) : TableCopy := (tableSetOf ((bs.drop off).take 160)).active
  (List.range 4).map (fun i => (i, ⟨copy (320 * i), copy (320 * i + 160)⟩))

/-- Whether every entry of four sets keeps its RES0 bits 0. -/
def setsOk (bs : List Byte) : Bool :=
  (List.range 8).all (fun j => (List.range 64).all (fun i => decide (fieldAt bs (160 * j + 2 * i) 2 < 2048)))

/-- The hart of a thread section's key. -/
def hartOfKey (k : Nat) : Hart := ⟨k / 8, k % 8⟩

/-- A park-list entry of an image (R375). -/
structure SavedPark where
  place : Place
  word : Nat
  kind : Nat
  bank : Nat
  key : Nat
  mask : Word
  data : BitVec 512
  deriving DecidableEq, Repr

/-- R375: entry i of a park list. -/
def savedPark (p : Place) (bs : List Byte) (i : Nat) : SavedPark :=
  let w := wordAt bs (8 + 96 * i)
  ⟨p, bits w 0 22 / 8, bits w 24 3, bits w 32 5, bits w 40 24, wordAt bs (16 + 96 * i), BitVec.ofNat 512 (fieldAt bs (24 + 96 * i) 64)⟩

/-- R61: the banks of a tagged memory. -/
def banksOf : Place → Nat
  | .core _ => 16
  | .cluster _ => 32

/-- R375, R7: whether an entry keeps its RES0 fields 0 and stands in its bounds. -/
def savedParkOk (p : Place) (bs : List Byte) (i : Nat) : Bool :=
  let w := wordAt bs (8 + 96 * i)
  let e := savedPark p bs i
  let size := match p with
    | .core _ => 0x1C0000
    | .cluster _ => 0x400000
  zeroBits w 0 3 && zeroBits w 22 2 && zeroBits w 27 5 && zeroBits w 37 3 && decide (fieldAt bs (88 + 96 * i) 16 = 0) && decide (8 * e.word < size) &&
    decide (e.bank < banksOf p) && decide (e.key < 8 * 4096) && decide (e.key % 8 < 6) && decide (e.mask ≠ 0)

/-- A park list of a payload: its entries, in order, and what follows it; none when it is malformed. -/
def parksFrom (p : Place) (bs : List Byte) : Option (List SavedPark × List Byte) :=
  let n := fieldAt bs 0 8
  if bs.length < 8 + 96 * n ∨ !(List.range n).all (savedParkOk p bs) then none
  else some ((List.range n).map (savedPark p bs), bs.drop (8 + 96 * n))

/-! ## Sections -/

/-- R375, R357: whether packet doublewords 1 to 9 keep their RES0 fields 0. -/
def packetFieldsOk (p : List Word) : Bool :=
  zeroBits (p.getD 7 0) 60 4 && zeroBits (p.getD 8 0) 23 41 && zeroBits (p.getD 9 0) 32 32 && decide (bits (p.getD 8 0) 20 3 ≤ 4) && cmrootOk (p.getD 5 0)

/-- Table 26.4, section 2: the grid of a context, with its launch image read again from device memory (log 44), which must be readable; `there` says
which places the image holds, whose records its earlier groups have applied. -/
def State.gridOfSection (s : State) (ctx order : Nat) (there : Nat → Bool) (x : Section) : Option Grid :=
  let bs := x.data
  let p := (0 : Word) :: (List.range 9).map (fun i => wordAt bs (8 * i))
  match Tab.find? s.ctxs ctx, s.readImage ctx (p.getD 3 0).toNat with
  | some c, some m =>
    let ns := (List.range m.stages).map (fun i => fieldAt bs (80 + 32 * i + 8) 8)
    let total := ns.foldl (· + ·) 0
    let maps := 80 + 32 * m.stages
    let states := maps + 16 * total
    let kids := states + total
    let before (i : Nat) : Nat := (ns.take i).foldl (· + ·) 0
    let d (k : Nat) : Word := wordAt bs (maps + 8 * k)
    let entries := (List.range m.stages).map m.entry
    if bs.length < kids ∨ (bs.length - kids) % 8 ≠ 0 ∨ x.key / 2 ^ 32 ≠ ctx ∨ !entries.all Option.isSome ∨ !packetFieldsOk p ∨
        !(List.range m.stages).all (fun i => decide (fieldAt bs (80 + 32 * i) 8 % 8 = 0) && decide (fieldAt bs (80 + 32 * i + 24) 8 = 0) &&
          decide (1 ≤ ns.getD i 0) && decide (ns.getD i 0 ≤ 4096)) ∨
        !(List.range total).all (fun g => placeOk (s.part c.part) (d (2 * g)) (d (2 * g + 1)) && decide (fieldAt bs (states + g) 1 < 3)) then none
    else
      let groups := (List.range m.stages).flatMap (fun i => (List.range (ns.getD i 0)).map (fun j =>
        let g := before i + j
        { groupOf i j (d (2 * g)) (d (2 * g + 1)) with state := fieldAt bs (states + g) 1 }))
      let queue := match List.find? (fun q => q.2.live && decide (q.2.ctx = ctx)) s.blocks with
        | some q => q.1
        | none => c.part
      some {
        ctx := ctx
        queue := queue
        parent := (p.getD 2 0).toNat
        depth := ((Tab.find? s.grids (p.getD 2 0).toNat).map (fun g => g.depth + 1)).getD 0
        signal := p.getD 1 0
        stages := (List.range m.stages).map (fun i => ⟨((entries.getD i none).getD 0), wordAt bs (80 + 32 * i), ns.getD i 0⟩)
        groups := groups
        children := (List.range ((bs.length - kids) / 8)).map (fun i => fieldAt bs (kids + 8 * i) 8)
        childq := (childFields p).take (bits (p.getD 8 0) 20 3)
        gang := m.coresident || (m.rec? 9).isSome
        domain := (m.rec? 9).isSome
        dom := 0
        packet := p
        cmroot := p.getD 5 0
        deleg := p.getD 6 0
        limit := bits (p.getD 9 0) 0 32
        used := fieldAt bs 72 8
        order := order
        recs := m.recs
        applied := ((groups.filter (fun r => decide (r.state ≠ 0))).flatMap (fun r => (8192 + r.cluster) :: r.coreNums)).filter there
        spill := m.entry 16
        aborting := none
        complete := false }
  | _, _ => none

/-- Table 26.4, section 3: a domain takes its half, its slot and its signals. The emitters of an UNKNOWN signal that are no longer outstanding have
skipped it (R40, R57). DESIGN CHOICE (log 97): the image holds no start of the half, so that START and the offsets count from the restore; and
neither which members have skipped a PRESENT signal, nor which plan entries were sent, nor whether a cycle was declared, which begin as none. -/
def Domain.restored (d : Domain) (bs : List Byte) (now : Nat) : Option Domain :=
  let n := (d.members.length + 63) / 64
  let w0 := fieldAt bs 0 8
  let k := d.sigs.length
  if fieldAt bs 8 8 ≠ d.members.length ∨ fieldAt bs 16 8 ≠ k ∨ bs.length ≠ 64 + k * (16 + 8 * n) ∨ w0 % 2 ^ 16 / 2 ≠ 0 ∨ 2 ^ 32 ≤ w0 ∨ 2 ^ 43 ≤ fieldAt bs 56 8 ∨
      !(List.range k).all (fun i => let off := 64 + i * (16 + 8 * n)
        decide (fieldAt bs off 8 < 8) && decide (fieldAt bs off 8 % 4 ≠ 3) && (List.range (64 * n)).all (fun j =>
          !bit (wordAt bs (off + 16 + 8 * (j / 64))) (j % 64) || decide (j ∈ ((d.sigs[i]?).map Sig.emitters).getD []))) then none
  else
    let sig (i : Nat) (g : Sig) : Sig :=
      let off := 64 + i * (16 + 8 * n)
      let st := fieldAt bs off 8
      let out := (List.range d.members.length).filter (fun j => bit (wordAt bs (off + 16 + 8 * (j / 64))) (j % 64))
      { g with
        skipped := if st % 4 = 0 then g.emitters.filter (fun j => decide (j ∉ out)) else []
        status := if st % 4 = 0 then .unknown else if st % 4 = 1 then .present else .absent
        prev := decide (st / 4 % 2 = 1)
        value := wordAt bs (off + 8)
        out := out }
    some { d with
      exch := decide (w0 % 2 = 1)
      slot := w0 / 2 ^ 16
      instant := wordAt bs 24
      record := (List.range 4).map (fun i => wordAt bs (32 + 8 * i))
      started := now
      sigs := (List.range k).filterMap (fun i => (d.sigs[i]?).map (sig i)) }

/-- Table 26.4: a stream generator of 80 bytes. -/
def genFrom (bs : List Byte) : Gen :=
  let b := fieldAt bs 64 4
  ⟨if b = 0xFFFFFFFF then none else some b, bs.take 64, fieldAt bs 68 8, decide (fieldAt bs 76 4 ≠ 0)⟩

/-- R375, Tables 5.7, 26.4: whether the 80 bytes of a generator keep their RES0 fields 0, STRIDE1 to 3 of an indirect one among them, and name a
thread of the core. -/
def genOk (bs : List Byte) : Bool :=
  (decide (fieldAt bs 56 1 / 4 % 2 = 0) || decide (fieldAt bs 32 24 = 0)) && decide (fieldAt bs 56 1 < 32) && decide (fieldAt bs 57 7 = 0) && (decide (fieldAt bs 64 4 = 0xFFFFFFFF) || decide (fieldAt bs 64 4 < 4)) &&
    decide (fieldAt bs 76 4 < 2)

/-- Inbox entries of 72 bytes each, n of them. -/
def entriesFrom (bs : List Byte) (n : Nat) : List Entry :=
  (List.range n).map (fun i => ⟨BitVec.ofNat 512 (fieldAt bs (72 * i) 64), decide (fieldAt bs (72 * i + 64) 8 = 1)⟩)

/-- Table 26.4, section 5: core n of a context, with the saved park entries of its memory; the engine is none when MX.LOAD would refuse its
image. -/
def Core.restored (c : Core) (n ctx : Nat) (o : BitVec 12) (root w1 w2 : Word) (bs : List Byte) : Option (Core × Option Engine × List SavedPark) :=
  let at_ (off : Nat) : List Byte := bs.drop off
  let fmts := bs.take 16
  let maps := (at_ 16).take 64
  let engOff := 80 + 1280 + 320
  let cnt := engOff + 93504
  let nIn := fieldAt bs (cnt + 32) 8
  let held := cnt + 40 + 72 * nIn
  let nHeld := fieldAt bs held 8
  let field (i : Nat) : Nat := fieldAt maps (i / 2) 1 / 16 ^ (i % 2) % 16
  if bs.length < held + 8 ∨ 48 < nIn ∨ 256 < nHeld ∨ fmts.any (fun b => decide (10 < b.toNat)) ∨ !setsOk ((at_ 80).take 1280) ∨
      (List.range 128).any (fun r => decide (8 ≤ field r) || (decide (112 ≤ r) && decide (field r ≠ 0))) ∨
      !(List.range 4).all (fun i => genOk ((at_ (1360 + 80 * i)).take 80) && decide (fieldAt bs (cnt + 8 * i) 8 < 65536)) ∨
      (List.range nIn).any (fun i => decide (2 ≤ fieldAt bs (cnt + 40 + 72 * i + 64) 8)) ∨
      (List.range nHeld).any (fun i => decide (2 ≤ fieldAt bs (held + 8 + 72 * i + 64) 8)) then none
  else match parksFrom (.core n) (at_ (held + 8 + 72 * nHeld)) with
    | none => none
    | some (parks, rest) =>
      let c0 := c.vacant
      let m1 : Sram := { c0.sram.forget o with sets := setsFrom ((at_ 80).take 1280) }
      let m2 := (List.range 112).foldl (fun r i => r.setRegion i (field i % 4)) m1
      match m2.putRanges o 0x1B0000 128 rest with
      | none => none
      | some m3 =>
        some ({ c0 with
          mcontext := BitVec.ofNat 32 ctx
          mowner := o
          sram := m3
          skew := (List.range 112).foldl (fun t i => Tab.put false i (decide (4 ≤ field i)) t) c0.skew
          fmts := Vector.ofFn (fun i : Fin 16 => BitVec.ofNat 4 ((fmts.getD i.val 0).toNat))
          gens := Vector.ofFn (fun i : Fin 4 => genFrom ((at_ (1360 + 80 * i.val)).take 80))
          spillcnt := Vector.ofFn (fun i : Fin 4 => fieldAt bs (cnt + 8 * i.val) 8)
          inbox := entriesFrom (at_ (cnt + 40)) nIn
          spillStore := entriesFrom (at_ (held + 8)) nHeld },
          engineOf root (leValue ((at_ engOff).take 93504)) (w1.setWidth 21) (w2.setWidth 21), parks)

/-- R375: whether the image of a CSR keeps the RES0 fields of its register 0. -/
def csrImageOk (n : Nat) (v : Word) : Bool :=
  if n = 0x000 then zeroBits v 7 57
  else if n = 0x002 ∨ n = 0x003 then !bit v 0
  else if n = 0x004 then zeroBits v 3 61
  else if n = 0x005 then zeroBits v 14 50
  else if n = 0x010 then zeroBits v 2 62
  else if n = 0x011 then zeroBits v 5 59
  else if 0x042 ≤ n ∧ n ≤ 0x045 then zeroBits v 32 32
  else if n = 0x046 ∨ n = 0x04A then decide (v = 0)
  else if n = 0x04E then zeroBits v 16 48 && zeroBits v 1 7
  else if n = 0x050 then zeroBits v 26 38
  else if n = 0x051 then zeroBits v 32 32
  else if n = 0x061 then zeroBits v 56 8 && zeroBits v 0 5
  else if n = 0x062 then zeroBits v 20 44
  else true

/-- A CSR of a thread section put back. -/
def Thread.putCsr (t : Thread) (n : Nat) (v : Word) : Thread :=
  if n = 0x004 then { t with user := { t.user with pend := bit v 2, uie := bit v 1, h := bit v 0 } }
  else if n = 0x005 then { t with user := { t.user with utag := v.setWidth 14 } }
  else if n = 0x030 then { t with xdone := v }
  else if n = 0xC01 then { t with retired := v }
  else (t.writeUser n v).getD t

/-- R228: the causes that a deferred fault may have (Table 21.2): those that an engine's accesses and operands meet. -/
def deferrable : List Nat := [4, 13, 15, 24, 32, 34, 35, 37, 40]

/-- Table 26.4, section 6: a thread, which stands as its HALT says; the bytes of a repeated body are read again. -/
def Thread.restored (t : Thread) (bs : List Byte) (body : Nat → Nat → List Byte) : Option Thread :=
  let lx : BitVec 32 := (wordAt bs 32).setWidth 32
  let lv : BitVec 32 := (wordAt bs 40).setWidth 32
  let xs := (List.range 32).filter (fun i => bit lx i)
  let vs := (List.range 32).filter (fun i => bit lv i)
  let hOff := 48 + 8 * xs.length
  let vOff := hOff + 64
  let mOff := vOff + 64 * vs.length
  let cOff := mOff + 64 + 256
  let sOff := cOff + 8 * savedCsrs.length
  let halt := wordAt bs 24
  let size := sOff + 40 + (if bit halt 2 then 8 else 0)
  let idx (l : List Nat) (i : Nat) : Option Nat := (List.range l.length).find? (fun k => decide (l.getD k 32 = i))
  let len := fieldAt bs (sOff + 16) 4
  let start := wordAt bs (sOff + 8)
  let t1 : Thread := { t with
    nodeid := wordAt bs 0
    griddim := wordAt bs 8
    pc := wordAt bs 16
    x := Vector.ofFn (fun i : Fin 32 => match idx xs i.val with
      | some k => wordAt bs (48 + 8 * k)
      | none => 0)
    h := Vector.ofFn (fun i : Fin 8 => wordAt bs (hOff + 8 * i.val))
    v := Vector.ofFn (fun i : Fin 32 => match idx vs i.val with
      | some k => BitVec.ofNat 512 (fieldAt bs (vOff + 64 * k) 64)
      | none => 0)
    m := Vector.ofFn (fun i : Fin 8 => (wordAt bs (mOff + 8 * i.val)).setWidth 32)
    dcur := Vector.ofFn (fun i : Fin 16 => wordAt bs (mOff + 64 + 8 * i.val))
    dnext := Vector.ofFn (fun i : Fin 16 => wordAt bs (mOff + 192 + 8 * i.val))
    level := .u
    seq := (wordAt bs sOff).setWidth 32
    rep := if len = 0 then none else some ⟨start, body start.toNat len, fieldAt bs (sOff + 20) 4, fieldAt bs (sOff + 24) 8, .u, wordAt bs (sOff + 32)⟩
    hint := none
    deferred := if bit halt 2 then some ⟨bits halt 8 7, wordAt bs (sOff + 40), BitVec.ofNat 14 (bits halt 32 14)⟩ else none
    pend := none
    gathered := []
    status := .halted (bit halt 0)
    late := []
    drain := none
    member := none }
  let high (off : Nat) : Bool := zeroBits (wordAt bs off) 32 32
  if bs.length ≠ size ∨ !zeroBits (wordAt bs 0) 37 27 ∨ !zeroBits (wordAt bs 8) 25 39 ∨ bit (wordAt bs 16) 0 ∨
      !zeroBits halt 3 5 ∨ !zeroBits halt 15 17 ∨ !zeroBits halt 46 18 ∨ (!bit halt 2 ∧ !zeroBits halt 8 56) ∨
      (bit halt 2 ∧ bits halt 8 7 ∉ deferrable) ∨
      !high 32 ∨ bit (wordAt bs 32) 0 ∨ !high 40 ∨ !(List.range 8).all (fun i => high (mOff + 8 * i)) ∨ !high sOff ∨
      !(List.range savedCsrs.length).all (fun k => csrImageOk (savedCsrs.getD k 0) (wordAt bs (cOff + 8 * k))) then none
  else some ((List.range savedCsrs.length).foldl (fun r k => r.putCsr (savedCsrs.getD k 0) (wordAt bs (cOff + 8 * k))) t1)

/-! ## Parked accesses -/

/-- The instructions whose accesses may be parked when a context is saved, as their meanings. -/
def memExec : Instr → Option (State → Result)
  | .lb _ d b o => some (execLb d b o)
  | .lbu _ d b o => some (execLbu d b o)
  | .lh _ d b o => some (execLh d b o)
  | .lhu _ d b o => some (execLhu d b o)
  | .lw _ d b o => some (execLw d b o)
  | .lwu _ d b o => some (execLwu d b o)
  | .ld _ d b o => some (execLd d b o)
  | .sb _ d b o => some (execSb d b o)
  | .sh _ d b o => some (execSh d b o)
  | .sw _ d b o => some (execSw d b o)
  | .sd _ d b o => some (execSd d b o)
  | .loadAcquire _ d a sc k => some (execLoadAcquire d a sc k)
  | .storeRelease _ d a sc k => some (execStoreRelease d a sc k)
  | .amoadd _ d a b o => some (execAmoadd d a b o)
  | .amoand _ d a b o => some (execAmoand d a b o)
  | .amoor _ d a b o => some (execAmoor d a b o)
  | .amoxor _ d a b o => some (execAmoxor d a b o)
  | .amomin _ d a b o => some (execAmomin d a b o)
  | .amomax _ d a b o => some (execAmomax d a b o)
  | .amominu _ d a b o => some (execAmominu d a b o)
  | .amomaxu _ d a b o => some (execAmomaxu d a b o)
  | .amoswap _ d a b o => some (execAmoswap d a b o)
  | .amocas _ d a b o => some (execAmocas d a b o)
  | .amofadd _ d a b o => some (execAmofadd d a b o)
  | .vld _ d a b e c => some (execVld d a b e c)
  | .vst _ d a b e c => some (execVst d a b e c)
  | .vlds _ d a b e => some (execVlds d a b e)
  | .vsts _ d a b e => some (execVsts d a b e)
  | .vldx _ d a b e => some (execVldx d a b e)
  | .vstx _ d a b e => some (execVstx d a b e)
  | _ => none

/-- Bytes of code as the scheduler reads them for a thread of a context. -/
def State.codeBytes (s : State) (h : Hart) (ctx a n : Nat) : List Byte :=
  (List.range n).map (fun i => match s.resolve h (a + i) with
    | some (.sram p off) => BitVec.ofNat 8 ((s.sram p).readFor (s.ownerOfHart h) off 1)
    | _ => (s.cpByte ctx (a + i)).getD 0)

/-- A table set whose every entry is WAIT. -/
def waitSet : TableSet :=
  let c : TableCopy := ⟨(List.range 64).map (fun i => (i, 1#16)), []⟩
  ⟨c, c⟩

/-- Whether n bytes of code from an address can be read for a thread of a context. -/
def State.codeThere (s : State) (h : Hart) (ctx a n : Nat) : Bool :=
  (List.range n).all (fun i => match s.resolve h (a + i) with
    | some (.sram _ _) => true
    | _ => (s.cpByte ctx (a + i)).isSome)

/-- Whether the instruction at an address can be read (R138). -/
def State.instrThere (s : State) (h : Hart) (ctx a : Nat) : Bool :=
  s.codeThere h ctx a 2 && (decide (leValue (s.codeBytes h ctx a 2) % 2 = 0) ||
    (s.codeThere h ctx a 4 &&
      (let w := leValue (s.codeBytes h ctx a 4)
       decide (32 ≤ w / 4 % 64) || s.codeThere h ctx a (4 + wordLitBytes (BitVec.ofNat 32 w)))))

/-- A tagged memory at which every checked access waits. -/
def Sram.waits (m : Sram) : Sram :=
  { m with sets := (List.range 4).map (fun i => (i, waitSet)), parks := [], held := [], errs := [], ownerErrs := [] }

/-- The machine in which every checked access waits, with nothing on its way, and in which a core translates through what the walkers last
installed, every page of which may be accessed: in it, an instruction shows the accesses that it makes. -/
def State.waits (s : State) (ctx : Nat) (h : Hart) : State :=
  let g := s.genOf (clusterOf h.core) (ctx % 4096)
  let tlb := ((s.walk.filter (fun q => decide (q.2.asid = ctx % 4096) && decide (q.2.gen = s.genOf q.1 q.2.asid))).map Prod.snd).map
    (fun e => { e with gen := g, d := true, w := true, r := true })
  { s with
    cur := h
    net := []
    cores := s.cores.map (fun q => (q.1, { q.2 with sram := q.2.sram.waits, tlb := if q.1 = h.core then tlb else q.2.tlb }))
    clusters := s.clusters.map (fun q => (q.1, { q.2 with sram := q.2.sram.waits })) }

/-- What executing the instruction at the pc of a thread with a parked access comes to: something of it cannot be read yet; or it makes no access;
or its accesses, what it waits for, and the next number for an access. -/
inductive Reissue where
  | later
  | none_
  | found (as : List Access) (p : Pend) (next : Nat)

/-- R379: the accesses that the instruction at a thread's pc makes. -/
def State.reissue (s : State) (ctx : Nat) (h : Hart) : Reissue :=
  let t := s.thread h
  if t.bodyBytes.isNone && !s.instrThere h ctx t.pc.toNat then .later
  else match decodeBytes (t.bodyBytes.getD (s.codeBytes h ctx t.pc.toNat 12)) with
  | .error _ => .none_
  | .ok (i, _) => match memExec i with
    | none => .none_
    | some f => match f (s.waits ctx h) with
      | .next s1 => match (s1.thread h).status, (s1.thread h).pend with
        | .miss _ _, _ => .later
        | _, none => .none_
        | _, some p =>
          .found (s1.net.flatMap Msg.accesses ++ s1.cores.flatMap (fun q => q.2.sram.parks.map Parked.access) ++
            s1.clusters.flatMap (fun q => q.2.sram.parks.map Parked.access)) p s1.nextId
      | _ => .none_

/-- The place of the lowest set bit of a mask. -/
def lowestBit (w : Word) : Nat := ((List.range 64).find? (fun i => bit w i)).getD 0

/-- The generic address of a byte of a tagged memory, in window 0x02 or 0x03 (R58). -/
def Place.address (p : Place) (off : Nat) : Word :=
  match p with
  | .core n => BitVec.ofNat 64 (2 * 2 ^ 56 + 2 ^ 21 * n + off)
  | .cluster n => BitVec.ofNat 64 (3 * 2 ^ 56 + 2 ^ 22 * n + off)

/-- Whether a saved entry waits on a word of an access. -/
def SavedPark.names (e : SavedPark) (a : Access) : Bool := decide (a.home = .sram e.place) && decide (e.word ∈ wordsOf a.esize a.elems)

/-- The access of a saved entry: that of its thread's instruction, or where the entry stands elsewhere that access as a table redirected
it (R77). -/
def SavedPark.access (e : SavedPark) (a : Access) : Access :=
  if e.names a then { a with data := e.data }
  else
    let off := 64 * (e.word / 8) + lowestBit e.mask
    { a with data := e.data, home := .sram e.place, redir := true, at_ := e.place.address off, elems := [(off, (a.elems.headD (0, 0)).2)] }

/-- The entries of a thread, `all`, each with its access: the one that it names, or for an entry to which a table redirected an access one that no
entry names; and the accesses that are left. None when an entry has none. -/
def pairParks (all : List SavedPark) : List SavedPark → List Access → Option (List (SavedPark × Access) × List Access)
  | [], as => some ([], as)
  | e :: t, as => match (as.find? e.names).or (as.find? (fun a => !all.any (fun x => x.names a))) with
    | none => none
    | some a => (pairParks all t (as.erase a)).map (fun r => ((e, a) :: r.1, r.2))

/-- What restoring an image, or a part of it, comes to: it is refused; it waits for something that it rests on; or the machine with it. -/
inductive Restored (α : Type) where
  | refused
  | waits
  | done (a : α)
  deriving DecidableEq, Repr

/-- R379, R224: the threads of a list wait on their instructions' accesses again: those of saved entries, which are given back, are to be parked; the
others, which were performed before the halt and whose results the image does not hold, are on their way again. -/
def State.reissueAll (s : State) (ctx : Nat) (es : List SavedPark) : List Nat → List (SavedPark × Access) → Restored (List (SavedPark × Access) × State)
  | [], acc => .done (acc, s)
  | k :: t, acc =>
    let mine := es.filter (fun e => decide (e.key = k))
    match s.reissue ctx (hartOfKey k) with
    | .later => .waits
    | .none_ => .refused
    | .found as p n => match pairParks mine mine as with
      | none => .refused
      | some (l, rest) =>
        let s1 := rest.foldl (fun (r : State) a => r.send (.access a)) { s with nextId := n }
        (s1.setThread (hartOfKey k) { s1.thread (hartOfKey k) with pend := some p }).reissueAll ctx es t (acc ++ l)

/-- R379, R85: a saved entry is parked again at its home, to be re-checked. -/
def State.repark (s : State) (l : List (SavedPark × Access)) (e : SavedPark) : State :=
  match l.find? (fun q => decide (q.1 = e)) with
  | none => s
  | some (_, a) =>
    let m := s.sram e.place
    s.setSram e.place { m with parks := m.parks ++ [(⟨e.access a, e.bank, e.word, true⟩ : Parked)] }

/-- R379, R85: the saved entries of the threads that are to go on are parked again, in order; one that no thread of the image has issued breaks the
image's bounds. -/
def State.reparkAll (s : State) (ctx : Nat) (keys : List Nat) (es : List SavedPark) : Restored State :=
  let live := es.filter (fun e => (s.thread (hartOfKey e.key)).status.isHalted)
  if es.any (fun e => decide (e.key ∉ keys)) then .refused
  else match s.reissueAll ctx live (keys.filter (fun k => live.any (fun e => decide (e.key = k)))) [] with
    | .refused => .refused
    | .waits => .waits
    | .done (l, s1) => .done (live.foldl (fun r e => r.repark l e) s1)

/-! ## Restore -/

/-- The grid of a group that is resident on a core. -/
def State.gridOn (s : State) (core : Nat) : Option (Nat × Grid) :=
  List.find? (fun q => !q.2.complete && q.2.groups.any (fun r => decide (r.state = 1) && decide (core ∈ r.coreNums))) s.grids

/-- R379: a thread takes its place in its grid and its domain. A drain thread, and a spill thread that was not running, are idle, as is a thread
whose grid has ended meanwhile. -/
def State.seat (s : State) (h : Hart) : State :=
  let t := s.thread h
  match s.gridOn h.core with
  | none => s.setThread h { t with status := .idle }
  | some (gid, g) =>
    if h.th = 4 then s.setThread h { t with status := .idle }
    else if h.th = 5 then s.setThread h { t with grid := gid, status := if t.status = .halted true then t.status else .idle }
    else
      let member := if g.domain then (Tab.find? s.domains g.dom).bind (fun d => (d.indexOf h).map (fun i => (g.dom, i))) else none
      s.setThread h { t with grid := gid, member := member }

/-- R359, R257: CMROOT and MUDELEG of a restored core: those of the grid on it, else those of section 1. -/
def State.rootOn (s : State) (core : Nat) (root deleg : Word) : Word × Word :=
  match s.gridOn core with
  | some (_, g) => (g.cmroot, g.deleg &&& delegMask .compute)
  | none => (root, deleg)

/-- R379: the cores of a context's sections, with their park entries, unless a section or an engine image is refused; `false` marks an engine
image that MX.LOAD refuses. -/
def State.putCores (s : State) (ctx : Nat) (o : BitVec 12) (root deleg : Word) : List Section → Option (State × Bool × List SavedPark)
  | [] => some (s, true, [])
  | x :: t =>
    let (w1, s1) := s.draw
    let (w2, s2) := s1.draw
    let (rt, dg) := s2.rootOn x.key root deleg
    match (s2.core x.key).restored x.key ctx o rt w1 w2 x.data with
    | none => none
    | some (c, e, ps) =>
      let spill := (s2.gridOn x.key).bind (fun q => q.2.spill)
      let c1 : Core := { c with engine := e.getD Engine.init, cmroot := rt, mudeleg := dg, spillMonitor := spill.isNone, spillPc := spill.getD 0 }
      match (s2.setCore x.key c1).putCores ctx o root deleg t with
      | none => none
      | some (s3, ok, qs) => some (s3, ok && e.isSome, ps ++ qs)

/-- R379: the clusters of a context's sections. -/
def State.putClusters (s : State) (o : BitVec 12) : List Section → Option (State × List SavedPark)
  | [] => some (s, [])
  | x :: t =>
    let k := s.cluster x.key
    if x.data.length < 64 + 1280 ∨ !setsOk ((x.data.drop 64).take 1280) then none
    else match parksFrom (.cluster x.key) (x.data.drop 1344) with
      | none => none
      | some (ps, rest) =>
        let m1 : Sram := { k.sram.forget o with sets := setsFrom ((x.data.drop 64).take 1280) }
        let m2 := (List.range 256).foldl (fun r i => r.setRegion i (fieldAt x.data (i / 4) 1 / 4 ^ (i % 4) % 4)) m1
        match m2.putRanges o 0x400000 128 rest with
        | none => none
        | some m3 => match (s.setCluster x.key { k with sram := m3 }).putClusters o t with
          | none => none
          | some (s1, qs) => some (s1, ps ++ qs)

/-- R379: the threads of a context's sections, each over the monitor's registers of its hart. -/
def State.putThreads (s : State) (ctx : Nat) : List Section → Option State
  | [] => some s
  | x :: t =>
    let h := hartOfKey x.key
    match (s.thread h).restored x.data (fun a n => s.codeBytes h ctx a n) with
    | none => none
    | some th => (s.setThread h th).putThreads ctx t

/-- A grid takes from its image what a released context's grid had when it was saved; what its table entry knows beside that stays. -/
def Grid.returned (old g : Grid) : Grid :=
  { g with
    queue := old.queue
    parent := old.parent
    depth := old.depth
    order := old.order
    children := old.children }

/-- R379: the grids of a context's sections. One that ended while its context was released has ended (log 94). -/
def State.putGrids (s : State) (ctx : Nat) (there : Nat → Bool) : List Section → Option State
  | [] => some s
  | x :: t => match s.gridOfSection ctx (s.grids.foldl (fun n g => max n (g.2.order + 1)) 0) there x with
    | none => none
    | some g =>
      let s1 := match Tab.find? s.grids x.key with
        | none => s.setGrid x.key g
        | some old => if old.complete || old.aborting.isSome then s else s.setGrid x.key (old.returned g)
      s1.putGrids ctx there t

/-- R379, R378: the domains of a context's sections, each under a free number; without one, or when the launch image or an emitter set cannot be read
yet, the restore waits. -/
def State.putDomains (s : State) (ctx : Nat) : List Section → Restored State
  | [] => .done s
  | x :: t => match Tab.find? s.grids x.key with
    | none => .refused
    | some g =>
      if g.complete || g.aborting.isSome then s.putDomains ctx t
      else match s.freeDomain, s.readImage ctx (g.packet.getD 3 0).toNat with
        | some n, some m => match s.readDomain ctx m g.groups with
          | some (some d) => match d.restored x.data (s.clockOf d).toNat with
            | none => .refused
            | some d1 => ((s.setGrid x.key { g with dom := n }).setDomain n { d1 with gid := x.key }).putDomains ctx t
          | some none => .refused
          | none => .waits
        | _, _ => .waits

/-- Whether a group of a grid that is resident runs on a hart. -/
def Grid.holds (g : Grid) (h : Hart) : Bool :=
  g.groups.any (fun r => decide (r.state = 1) && (List.range r.nodes).any (fun n => decide (r.hart n = h)))

/-- R54: the members of a restored domain whose thread the image does not hold, or of whose grid no group is resident there, have exited: a thread of
another grid may have taken its place. -/
def State.markExited (s : State) (ctx : Nat) (keys : List Nat) : State :=
  { s with domains := s.domains.map (fun q => (q.1, match Tab.find? s.grids q.2.gid with
    | none => q.2
    | some g =>
      if g.ctx = ctx then
        { q.2 with members := q.2.members.map (fun m => { m with exited := decide (m.hart.key ∉ keys) || !g.holds m.hart }) }
      else q.2)) }

/-- The payload of sections of a kind. -/
def ofKind (l : List Section) (k : Nat) : List Section := l.filter (fun x => decide (x.kind = k))

/-- R378: the refusals that R378 names of an image's context and clusters; its partition and owner fit, and its clusters are free. The
identifier of a context whose clusters the scheduler has released counts as free for that context's own image (log 94). -/
def State.restoreOk (s : State) (l : List Section) (part ctx : Nat) (o : BitVec 12) : Bool :=
  (match Tab.find? s.ctxs ctx with
    | none => true
    | some c => c.away && decide (c.part = part) && decide (c.owner = o)) &&
    s.hasKey o && decide (o ≠ 0) && decide (o = (s.part part).owner) &&
    (ofKind l 4).all (fun x => decide (x.key ∈ (s.part part).clusters) && (s.residents x.key).isEmpty &&
      (List.range 16).all (fun j => s.coreFree (16 * x.key + j))) &&
    (ofKind l 5).all (fun x => (ofKind l 4).any (fun y => decide (y.key = x.key / 16)) && decide (x.key < 4096)) &&
    (ofKind l 6).all (fun x => (ofKind l 5).any (fun y => decide (y.key = x.key / 8)) && decide (x.key % 8 < 6))

/-- Whether every resident group of a grid lies on cores that the image holds. -/
def Grid.within (g : Grid) (there : Nat → Bool) : Bool :=
  g.groups.all (fun r => decide (r.state ≠ 1) || (there (8192 + r.cluster) && r.coreNums.all there))

/-- R375, R378: section 1 of an image, as its owner, ENERGY, CMROOT, MUDELEG and next serial; none when it is malformed. -/
def contextOf (x : Section) : Option (BitVec 12 × Word × Word × Word × Nat) :=
  let d (i : Nat) : Word := wordAt x.data (8 * i)
  if x.data.length = 40 ∧ x.key < 2 ^ 32 ∧ zeroBits (d 0) 12 52 ∧ zeroBits (d 1) 48 15 ∧ cmrootOk (d 2) ∧ d 3 &&& ~~~ delegMask .compute = 0 ∧
      zeroBits (d 4) 32 32 ∧ d 4 ≠ 0 then some ((d 0).setWidth 12, d 1, d 2, d 3, (d 4).toNat)
  else none

/-- R378: a context as its image's section 1 and the context that it replaces, if one, give it. -/
def ctxFrom (old : Option Ctx) (part : Nat) (o : BitVec 12) (serial : Nat) (energy : Word) (now : Nat) : Ctx :=
  { (old.getD (Ctx.new part o)) with
    serial := serial - 1
    energy := bits energy 0 48
    energyFrom := some now
    halt := 0
    force := false
    saved := false
    away := false }

/-- R379: the threads of a restored context go on in the same step. -/
def State.resumeRestored (s : State) (keys : List Nat) : State := keys.foldl (fun r k => r.resumeThread (hartOfKey k)) s

/-- Whether the bytes of the repeated bodies of some threads can be read (R225). -/
def State.bodiesThere (s : State) (ctx : Nat) (keys : List Nat) : Bool :=
  keys.all (fun k => match (s.thread (hartOfKey k)).rep with
    | some r => s.codeThere (hartOfKey k) ctx r.start.toNat r.bytes.length
    | none => true)

/-- R379: the context of an image takes its place, from maps and memory to threads; when MX.LOAD refuses an engine image, its clusters are
released and nothing of it runs. Refused when a section is; what the image rests on in memory, and a domain number, are waited for (log 112). -/
def State.rebuild (s : State) (l : List Section) (part : Nat) : Restored State :=
  match ofKind l 1 with
  | [x] => match contextOf x with
    | none => .refused
    | some (o, energy, root, deleg, serial) =>
      let ctx := x.key
      let there (p : Nat) : Bool := if p < 8192 then (ofKind l 5).any (fun y => decide (y.key = p)) else (ofKind l 4).any (fun y => decide (8192 + y.key = p))
      let s0 := s.setCtx ctx (ctxFrom (Tab.find? s.ctxs ctx) part o serial energy s.ticks)
      if (ofKind l 2).any (fun y => (s0.readImage ctx (wordAt y.data 16).toNat).isNone) then .waits
      else match s0.putGrids ctx there (ofKind l 2) with
      | none => .refused
      | some s1 =>
        if !s1.grids.all (fun q => decide (q.2.ctx ≠ ctx) || q.2.within there) then .refused
        else match s1.putDomains ctx (ofKind l 3) with
          | .refused => .refused
          | .waits => .waits
          | .done s2 => match s2.putClusters o (ofKind l 4) with
            | none => .refused
            | some (s3, ps) => match s3.putCores ctx o root deleg (ofKind l 5) with
              | none => .refused
              | some (s4, ok, qs) => match s4.putThreads ctx (ofKind l 6) with
                | none => .refused
                | some s5 =>
                  let keys := (ofKind l 6).map Section.key
                  let s6 := (keys.foldl (fun r k => r.seat (hartOfKey k)) s5).markExited ctx keys
                  let failed : State := (ofKind l 5).foldl (fun r y => r.setCore y.key (r.core y.key).vacant) s4
                  if !ok then .done { failed with ctxs := s.ctxs, grids := s.grids, domains := s.domains }
                  else if !s6.bodiesThere ctx keys then .waits
                  else match s6.reparkAll ctx keys (ps ++ qs) with
                    | .refused => .refused
                    | .waits => .waits
                    | .done s7 => .done (s7.resumeRestored keys)
  | _ => .refused

/-- R378: an image restored onto a partition; a refused one changes nothing, and one that waits is tried again later (log 112). -/
def State.restoreImage (s : State) (image : Word) (part : Nat) : State :=
  let (bs, s1) := s.rawImage image
  match bs.bind parseImage with
  | none => s1
  | some l => match ofKind l 1 with
    | [x] =>
      if s1.restoreOk l part x.key (BitVec.ofNat 12 (fieldAt x.data 0 8)) then
        match s1.rebuild l part with
        | .refused => s1
        | .waits => { s1 with dev := { s1.dev with restores := s1.dev.restores ++ [(image, part)] } }
        | .done s2 => s2
      else s1
    | _ => s1

/-- R378: the oldest restore that waits is tried again. -/
def State.retryRestore (s : State) : State :=
  match s.dev.restores with
  | [] => s
  | (image, part) :: rest => { s with dev := { s.dev with restores := rest } }.restoreImage image part

/-- R402: a restore request on the mailbox of function 0. -/
def execRestoreRequest (fn : Nat) (image : Word) (part : Nat) (s : State) : Result :=
  .next (if !s.dev.bootOk ∨ fn ≠ 0 ∨ 64 ≤ part then s.mailbox else s.mailbox.restoreImage image part)

end Sys2Proof.Machine
end

