-- ==== Sys2Proof/Machine/Ras.lean ====
section
/-! DEFINITION. Reliability (R385 to R389): the scrubber and failed banks. -/

namespace Sys2Proof.Machine

/-- R409: the place of a failed bank or core in the field-repair list, which holds at most 1,024 entries. -/
def Device.repair (d : Device) (kind bank core : Nat) : Device :=
  if d.repairs.length < 1024 then
    { d with repairs := d.repairs ++ [BitVec.ofNat 32 (core / 16 % 256 + 2 ^ 8 * (core % 16) + 2 ^ 12 * bank + 2 ^ 17 * kind)] }
  else d

/-- R385, R386: an error arises in a word of SRAM (0 one that SEC-DED corrects, 1 one that the stripe rebuilds, 2 one that no code repairs, 3 one in
the OWNER field of its line) or, at a place from 16,384 on, in a line of DRAM (0 one that the code corrects). One in a line to which an access is
on its way that its thread has left behind arises before or after it (log 87). -/
def State.flip (s : State) (place unit kind : Nat) : State :=
  if 16384 ≤ place then
    if s.lateMeets (fun a => a.home.isDram && a.offs.any (fun o => decide (o / 64 = unit))) ∨ s.dram.poisoned unit then s
    else if kind = 0 then { s with dram := { s.dram with soft := insertAsc unit s.dram.soft } }
    else { s with dram := { s.dram with bad := insertAsc unit s.dram.bad } }
  else
    let p := placeOf place
    let m := s.sram p
    if kind = 3 then s.setSram p { m with ownerErrs := insertAsc (unit / 8) m.ownerErrs }
    else if kind = 2 then s.setSram p { m with errs := insertAsc unit m.errs }
    else s.setSram p { m with soft := Tab.set unit kind m.soft }

/-- The 64-bit words of a tagged memory (R11, R12). -/
def Place.words : Place → Nat
  | .core _ => 0x1C0000 / 8
  | .cluster _ => 0x400000 / 8

/-- R389: a pass of the scrubber over a core's local SRAM ends: its banks' counts of corrected errors start anew, but for one that has reached
256, which its step is still to declare failed (log 103). -/
def State.passEnds (s : State) (place : Nat) : State :=
  match placeOf place with
  | .core n => s.setCore n { s.core n with corrected := (s.core n).corrected.filter (fun q => decide (256 ≤ q.2)) }
  | .cluster _ => s

/-- R387: the scrubber has read a word or line, of so many at a place; the pass ends with the last. -/
def State.scrubbed (s : State) (place unit total : Nat) : State :=
  let l := insertAsc unit (Tab.get [] s.dev.scrubbed place)
  if l.length < total then { s with dev := { s.dev with scrubbed := Tab.set place l s.dev.scrubbed } }
  else
    let s1 := { s with dev := { s.dev with scrubbed := Tab.del place s.dev.scrubbed } }
    if 16384 ≤ place then s1 else s1.passEnds place

/-- R387: whether the scrubber has read a word or line in its present pass. -/
def State.scrubSeen (s : State) (place unit : Nat) : Bool := decide (unit ∈ Tab.get [] s.dev.scrubbed place)

/-- R387: the scrubber reads a line of DRAM: an error in it is corrected, or marks it poisoned, and is recorded. -/
def State.scrubLine (s : State) (line : Nat) : State := s.meetLines [line]

/-- R386, R387: the scrubber reads a word of SRAM: an error that a code corrects is corrected, and one that none corrects ends the contexts that
Table 27.1 names. -/
def State.scrubWord (s : State) (p : Place) (w : Nat) : State :=
  match s.badLines p [w] with
  | [] => s.correct p [w]
  | l :: _ => s.sramError p l

/-- The place that a device step's number names for a memory of the scrubber: 16,384 stands for DRAM. -/
def scrubPlace (memory unit : Nat) : Nat := if memory = 0 then unit % 8192 else if memory = 1 then 8192 + unit % 8192 else 16384

/-- R387: the scrubber reads one word of SRAM, or one line of DRAM, that it has not read in its pass. It leaves a line with an
error that no code corrects for a later bank cycle while an access that its thread has left behind is on its way to it (log 87). -/
def execScrubRead (memory unit off : Nat) (s : State) : Result :=
  let place := scrubPlace memory unit
  if 16384 ≤ place then
    let l := off / 64 % 2 ^ 33
    .next (if s.scrubSeen 16384 l || (decide (l ∈ s.dram.bad) && s.lateMeets (fun a => a.home.isDram && a.offs.any (fun o => decide (o / 64 = l)))) then s
      else (s.scrubLine l).scrubbed 16384 l (2 ^ 33))
  else
    let p := placeOf place
    let w := off / 8 % p.words
    .next (if s.scrubSeen place w then s else (s.scrubWord p w).scrubbed place w p.words)

/-- R388: the management firmware takes the oldest records of the error ring, which then holds so many more. -/
def State.drainErrors (s : State) (n : Nat) : State := { s with dev := { s.dev with errors := s.dev.errors.drop n } }

/-- R409: a cluster is withheld: it belongs to no partition. -/
def State.withhold (s : State) (cluster : Nat) : State :=
  { s with
    dev := { s.dev with withheld := if cluster ∈ s.dev.withheld then s.dev.withheld else s.dev.withheld ++ [cluster] }
    parts := s.parts.map (fun q => (q.1, { q.2 with clusters := q.2.clusters.filter (fun c => decide (c ≠ cluster)) })) }

/-- R389: a bank of a compute core is declared failed, by 256 corrected errors or by its built-in test; a second one makes the core
unusable and its cluster withheld. -/
def execBankFailed (core bank : Nat) (selfTest : Bool) (s : State) : Result :=
  let c := s.core core
  if 4096 ≤ core ∨ 16 ≤ bank ∨ bank ∈ c.failed ∨ !(selfTest || decide (256 ≤ Tab.get 0 c.corrected bank)) then .next s
  else
    let s1 := (s.setCore core { c with failed := c.failed ++ [bank] }).noteError 6 (some (.core core)) 0 (0x1C000 * bank)
    let s2 := { s1 with dev := s1.dev.repair 1 bank core }
    if c.failed = [] then .next s2
    else
      let s3 := s2.abortCluster (core / 16)
      .next ({ s3 with dev := s3.dev.repair 0 0 core }.withhold (core / 16))

/-- R406, R14: a block stretches its clock, which changes no result. -/
def execClockStretch (_block : Nat) (s : State) : Result := .next s

end Sys2Proof.Machine
end

