-- ==== Sys2Proof/Machine/Security.lean ====
section
/-! DEFINITION. Keys and measurement (R390, R391), the SPDM responder (R392 to R394), and the debug function (R395 to R399) with the latch
that takes its checkpoints (R51). -/

namespace Sys2Proof.Machine

def State.conn (s : State) (fn : Nat) : Conn := (Tab.find? s.dev.conns fn).getD Conn.init
def State.setConn (s : State) (fn : Nat) (c : Conn) : State := { s with dev := { s.dev with conns := Tab.set fn c s.dev.conns } }

/-! ## Keys -/

/-- R390: whether a context of an owner exists. -/
def State.ownerInUse (s : State) (o : Nat) : Bool := s.ctxs.any (fun c => decide (c.2.owner.toNat = o))

/-- R390: a key-load object on the physical function's mailbox loads an owner's slot, unless it is refused; it also registers the owner's
debug key (R395). A part whose bring-up stopped takes none (R408). -/
def execKeyLoad (fn owner : Nat) (wrapped debugKey : BitVec 576) (s : State) : Result :=
  let s := s.mailbox
  if !s.dev.bootOk ∨ fn ≠ 0 ∨ owner = 0 ∨ 4096 ≤ owner ∨ s.ownerInUse owner then .next s
  else match Aes.kwpUnwrap (Config.wrapKey s.dev.boots) wrapped with
    | none => .next s
    | some k => .next { s with dev := { s.dev with keys := Tab.set owner k s.dev.keys, debugKeys := Tab.set owner debugKey s.dev.debugKeys } }

/-- R390: the security processor releases the wrapping key of this bring-up, once, encrypted to the certificate of slot 0, through the mailbox
of function 0 (log 12). -/
def State.releaseKey (s : State) : State :=
  if s.dev.bootOk && !s.dev.wrapReleased then
    let s1 := { s with dev := { s.dev with wrapReleased := true } }
    s1.setConn 0 { s1.conn 0 with response := [0], payload := [Config.sealedKey s.dev.boots] }
  else s

/-- R390: a slot is cleared, unless a context of its owner exists. The clear waits while an access under the key is on its way that its thread
has left behind (log 87). -/
def execKeyClear (owner : Nat) (s : State) : Result :=
  let s := s.mailbox
  if !s.dev.bootOk ∨ owner = 0 ∨ s.ownerInUse owner ∨ s.lateMeets (fun a => decide (a.owner.toNat = owner)) then .next s
  else .next { s with dev := { s.dev with keys := Tab.del owner s.dev.keys, debugKeys := Tab.del owner s.dev.debugKeys } }

/-- R391, Table 27.3: a walker image, MEAS5, or a policy plug-in, MEAS6, is loaded and measured. -/
def State.measureLoad (s : State) (i : Fin 8) (digest : BitVec 512) : State :=
  if s.dev.bootOk then { s with dev := { s.dev with meas := s.dev.meas.set i (extendMeas s.dev.meas[i] digest) } } else s

/-! ## The SPDM responder -/

/-- R393: an error response, which leaves the connection as it was. -/
def Conn.error (c : Conn) (code : Nat) : Conn := { c with response := [0x7F, code], payload := [] }

/-- R392: the answer to a request of a code. -/
def Conn.answer (c : Conn) (code : Nat) (payload : List (BitVec 512)) : Conn := { c with response := [code], payload := payload }

/-- Table 27.4: the stage of a connection that a request comes after: 1 GET_VERSION, 2 GET_CAPABILITIES, 3 NEGOTIATE_ALGORITHMS. -/
def stageFor (code : Nat) : Nat := if code = 0xE1 then 1 else if code = 0xE3 then 2 else 3

/-- R393: the error codes that apply to a request; `bad` says whether a field is malformed. -/
def State.spdmErrors (s : State) (fn code : Nat) (r : Spdm.Fields) (bad : Bool) : List Nat :=
  let c := s.conn fn
  let inOrder : Bool := if code = 0xE1 then decide (c.stage = 1) else if code = 0xE3 then decide (c.stage = 2) else decide (stageFor code ≤ c.stage)
  let version : Bool := if code = 0xE1 then decide (r.version = 0x12) || decide (r.version = 0x13) else decide (r.version = c.version)
  (if r.busy then [3] else []) ++ (if inOrder && s.dev.bootOk then [] else [4]) ++ (if version then [] else [0x41]) ++
    (if r.wellFormed && !bad then [] else [1])

/-- R392, R393: a request of Table 27.4 on a function's mailbox: its effect on the connection, or an error; where several errors apply, which
one is answered is free (log 11). A part whose bring-up stopped answers on function 0 alone (R408). -/
def State.spdm (s : State) (fn code : Nat) (r : Spdm.Fields) (bad : Bool) (f : State → Conn → State) : Result :=
  let s := s.mailbox
  if 64 < fn ∨ (!s.dev.bootOk ∧ fn ≠ 0) then .next s
  else match s.spdmErrors fn code r bad with
    | [] => .next (f s (s.conn fn))
    | es =>
      let (e, s1) := s.pick es
      .next (s1.setConn fn ((s1.conn fn).error e))

/-- R392: GET_VERSION resets the connection and offers 1.2 and 1.3. -/
def execGetVersion (fn : Nat) (r : Spdm.Fields) (s : State) : Result :=
  let s := s.mailbox
  if 64 < fn ∨ (!s.dev.bootOk ∧ fn ≠ 0) then .next s
  else
    let c : Conn := { Conn.init with stage := 1 }
    let es := (if r.busy then [3] else []) ++ (if r.wellFormed then [] else [1])
    match es with
    | [] => .next (s.setConn fn { c with response := [0x84, 0x12, 0x13] })
    | es =>
      let (e, s1) := s.pick es
      .next (s1.setConn fn ({ Conn.init with stage := 0 }.error e))

/-- R392: the capability flags: CERT_CAP, CHAL_CAP and MEAS_CAP with signature, in the places of the SPDM specification (PRESUMED, log 71). -/
def spdmFlags : BitVec 512 := 0x16

/-- R392: GET_CAPABILITIES. -/
def execGetCapabilities (fn : Nat) (r : Spdm.Fields) (s : State) : Result :=
  s.spdm fn 0xE1 r false (fun s c => s.setConn fn ({ c with stage := 2, version := r.version }.answer 0xE1 [spdmFlags]))

/-- R392: whether a request offers Ed448, SHA3-512 and DMTF measurements, in the places of the SPDM specification (PRESUMED, log 71). -/
def commonAlgorithms (r : Spdm.Fields) : Bool :=
  decide (r.asym / 2 ^ 11 % 2 = 1) && decide (r.hash / 2 ^ 5 % 2 = 1) && decide (r.spec % 2 = 1)

/-- R392: NEGOTIATE_ALGORITHMS selects Ed448, SHA3-512, DMTF measurements and the raw bit stream; a request that does not offer these is an invalid
one. -/
def execNegotiateAlgorithms (fn : Nat) (r : Spdm.Fields) (s : State) : Result :=
  s.spdm fn 0xE3 r (!commonAlgorithms r) (fun s c => s.setConn fn ({ c with stage := 3 }.answer 0xE3 [2 ^ 11, 2 ^ 5, 1, 1]))

/-- R392: GET_DIGESTS: slot 0 only. -/
def execGetDigests (fn : Nat) (r : Spdm.Fields) (s : State) : Result :=
  s.spdm fn 0x81 r false (fun s c => s.setConn fn (c.answer 0x81 [Config.certificate]))

/-- R392: GET_CERTIFICATE of slot 0. -/
def execGetCertificate (fn : Nat) (r : Spdm.Fields) (s : State) : Result :=
  s.spdm fn 0x82 r (decide (r.slot ≠ 0)) (fun s c => s.setConn fn (c.answer 0x82 [Config.certificate]))

/-- R392: a signed answer. -/
def State.signed (s : State) (fn : Nat) (c : Conn) (nonce : BitVec 256) : State :=
  { s with free := s.free + 1 }.setConn fn { c with signature := Config.sign s.dev.boots (Config.transcript s.free nonce) }

/-- R392: CHALLENGE, signed over the transcript. -/
def execChallenge (fn : Nat) (r : Spdm.Fields) (s : State) : Result :=
  s.spdm fn 0x83 r (decide (r.slot ≠ 0)) (fun s c => s.signed fn ({ c with challenged := true }.answer 0x83 [Config.certificate]) r.nonce)

/-- R392, R394: the registers that an index names, all read in one step. -/
def measured (m : Vector (BitVec 512) 8) (index : Nat) : List (BitVec 512) :=
  if index = 0xFF then m.toList else match index with
    | 0 => []
    | i + 1 => (m[i]?).toList

/-- R394: GET_MEASUREMENTS. -/
def execGetMeasurements (fn : Nat) (r : Spdm.Fields) (s : State) : Result :=
  s.spdm fn 0xE0 r (measured s.dev.meas r.slot).isEmpty (fun s c => s.signed fn (c.answer 0xE0 (measured s.dev.meas r.slot)) r.nonce)

/-- R393, R408: a request code outside Table 27.4; a part whose bring-up stopped answers UnexpectedRequest. -/
def execSpdmUnsupportedRequest (fn : Nat) (r : Spdm.Fields) (s : State) : Result :=
  let s := s.mailbox
  if 64 < fn ∨ (!s.dev.bootOk ∧ fn ≠ 0) ∨ r.code ∈ [0x84, 0xE1, 0xE3, 0x81, 0x82, 0x83, 0xE0] then .next s
  else
    let (e, s1) := s.pick ((if r.busy then [3] else []) ++ [if s.dev.bootOk then 7 else 4])
    .next (s1.setConn fn ((s1.conn fn).error e))

/-! ## The debug function -/

/-- The debug function's number (Table 28.1). -/
def debugFn : Nat := 64

/-- R395: the status of a debug object. -/
def State.debugStatus (s : State) (status : Nat) : State :=
  s.setConn debugFn { s.conn debugFn with response := [status], payload := [] }

/-- R395: a debug object is accepted only on a connection that has completed CHALLENGE. -/
def State.debugObject (s : State) (f : State → State) : Result :=
  .next (if (s.conn debugFn).challenged then f s.mailbox else s.mailbox.debugStatus 1)

/-- R395: an object that names a context: it must exist, and its owner must be unlocked on the connection. -/
def State.debugCtx (s : State) (ctx : Nat) (f : State → Ctx → State) : Result :=
  s.debugObject (fun s => match Tab.find? s.ctxs ctx with
    | none => s.debugStatus 1
    | some c => if c.owner.toNat ∈ (s.conn debugFn).unlocked then f s c else s.debugStatus 2)

/-- R395: NONCE returns a fresh 32-byte nonce. -/
def execDebugNonce (s : State) : Result :=
  let n : BitVec 256 := Config.freeWord s.free ++ Config.freeWord (s.free + 1) ++ Config.freeWord (s.free + 2) ++ Config.freeWord (s.free + 3)
  s.debugObject (fun s =>
    let s1 := { s with free := s.free + 4 }
    s1.setConn debugFn { s1.conn debugFn with response := [0], payload := [n.setWidth 512], nonces := n :: (s1.conn debugFn).nonces })

/-- R395: UNLOCK unlocks an owner for the connection, and extends MEAS7 with it. -/
def execDebugUnlock (owner : Nat) (nonce : BitVec 256) (signature : BitVec 912) (s : State) : Result :=
  let c := s.conn debugFn
  let c1 : Conn := { c with nonces := c.nonces.filter (fun n => decide (n ≠ nonce)), payload := [] }
  s.debugObject (fun s =>
    if owner = 0 ∨ 4096 ≤ owner then s.debugStatus 3
    else match Tab.find? s.dev.debugKeys owner with
      | none => s.setConn debugFn { c1 with response := [1] }
      | some k =>
        if nonce ∈ c.nonces ∧ Config.signatureOk k owner nonce signature then
          let s1 := s.setConn debugFn { c1 with response := [0], unlocked := owner :: c1.unlocked }
          { s1 with dev := { s1.dev with meas := s1.dev.meas.set 7 (extendMeas s1.dev.meas[7] (Keccak.shake256 (leBytes 2 owner))) } }
        else s.setConn debugFn { c1 with response := [1] })

/-- R396: whether a grid of a context has an instant domain open. -/
def State.hasDomain (s : State) (ctx : Nat) : Bool :=
  s.domains.any (fun d => !d.2.closing && ((Tab.find? s.grids d.2.gid).map (fun g => decide (g.ctx = ctx))).getD false)

/-- R396: the logs of a context's cores are empty. -/
def State.clearLogs (s : State) (ctx : Nat) : State :=
  (s.coresOf ctx).foldl (fun r n => r.setCore n { r.core n with runlog := [], logged := 0, trace := [] }) s

/-- R396: ARM starts checkpoints and logs anew, in log buffers of at least one entry and one record. -/
def execDebugArm (ctx : Nat) (terms : ArmTerms) (s : State) : Result :=
  let logs := terms.logs
  s.debugCtx ctx (fun s c =>
    if terms.period = 0 ∨ 256 < terms.period ∨ logs.entries = 0 ∨ logs.records = 0 then s.debugStatus 3
    else if !s.hasDomain ctx then s.debugStatus 1
    else ((s.clearLogs ctx).setCtx ctx { c with dbg := { c.dbg with
      armed := some terms.period, logs := logs, interval := 0, taken := 0, checkpoints := [], records := [], recorded := [], broken := [] } }).debugStatus 0)

/-- R396: DISARM ends checkpoints and logs. -/
def execDebugDisarm (ctx : Nat) (s : State) : Result :=
  s.debugCtx ctx (fun s c =>
    ((s.clearLogs ctx).setCtx ctx { c with dbg := { c.dbg with armed := none, checkpoints := [], records := [], recorded := [], broken := [] } }).debugStatus 0)

/-- R397: what a context has on the part is dropped before a checkpoint is restored in place; its halt is complete, so that nothing of it is on
its way. -/
def State.clearCtx (s : State) (ctx : Nat) : State :=
  let hs := (s.coresOf ctx).flatMap (fun n => (List.range 6).map (fun t => (⟨n, t⟩ : Hart)))
  let s1 : State := { s with
    cores := s.cores.map (fun q => (q.1, { q.2 with sram := q.2.sram.discard hs }))
    clusters := s.clusters.map (fun q => (q.1, { q.2 with sram := q.2.sram.discard hs }))
    domains := s.domains.filter (fun d => !(((Tab.find? s.grids d.2.gid).map (fun g => decide (g.ctx = ctx))).getD false))
    grids := s.grids.filter (fun g => decide (g.2.ctx ≠ ctx)) }
  s1.vacate ctx

/-- R397: a checkpoint of a context restored in place: its grids keep their queues and order. -/
def State.restoreInPlace (s : State) (ctx : Nat) (c : Ctx) (image : List Byte) : Restored State :=
  match parseImage image with
  | none => .refused
  | some l => match (s.clearCtx ctx).rebuild l c.part with
    | .refused => .refused
    | .waits => .waits
    | .done s1 => .done { s1 with grids := s1.grids.map (fun g => (g.1, match Tab.find? s.grids g.1 with
        | some o => o.returned g.2
        | none => g.2)) }

/-- R397: STOP halts the context with FORCE and raises the debug stop request (Table 21.3) on its cores; a halt that the scheduler has requested
goes on when the stop ends, and a checkpoint that is under way is dropped with the history that the replay replaces. -/
def execDebugStop (ctx interval thread count : Nat) (s : State) : Result :=
  s.debugCtx ctx (fun s c =>
    let h := hartOfKey thread
    if h.core ∉ s.coresOf ctx ∨ 6 ≤ h.th then s.debugStatus 3
    else if c.dbg.armed.isNone ∨ c.dbg.asked.isSome ∨ c.dbg.target.isSome ∨ c.dbg.stopped.isSome then s.debugStatus 1
    else if interval ∈ c.dbg.broken then s.debugStatus 5
    else if c.dbg.checkpoints.all (fun k => decide (k.number ≠ interval)) then s.debugStatus 1
    else
      let s1 := (s.coresOf ctx).foldl (fun r n => r.driveM ⟨n, 0⟩ 69 true) s
      let d := { c.dbg with
        asked := some (interval, h, count)
        mark := none
        waiting := if decide (c.halt = 0) || c.latching then c.dbg.waiting else some c.force }
      if c.halt = 0 then (s1.setCtx ctx { c with dbg := d }).requestHalt ctx true
      else if c.halt = 1 then s1.expire ctx { c with dbg := d }
      else s1.setCtx ctx { c with dbg := d })

/-- R397: a log as it stands up to its k-th last marker, and what comes after that; the log is given newest first. -/
def fromMarker : Nat → List (BitVec 16) → List (BitVec 16) → Option (List (BitVec 16) × List (BitVec 16))
  | _, [], _ => none
  | k, e :: r, after =>
    if bits e 13 3 = 7 then (if k ≤ 1 then some ((e :: r).reverse, after) else fromMarker (k - 1) r (e :: after))
    else fromMarker k r (e :: after)

/-- R397: a core of a context restored in place keeps its log, and issues by it from a marker; a log that the ring no longer holds from there on is
not followed (log 67). -/
def Core.replayFrom (c old : Core) (k : Nat) : Core :=
  { c with runlog := old.runlog, logged := old.logged, trace := [], replay := (fromMarker k old.runlog.reverse []).map Prod.snd }

/-- R397: the threads that have issued since the last entries go into the logs. -/
def State.flushLogs (s : State) (ctx : Nat) : State := (s.coresOf ctx).foldl State.flushLog s

/-- R397: once the halt that a STOP asked for is complete, the checkpoint is restored in place, from which the context runs, and the intervals after it
are no longer held (log 67). One whose restore is refused is not stopped, and one whose restore waits waits too (log 112). -/
def State.startReplay (s : State) (ctx : Nat) (c : Ctx) (interval : Nat) (h : Hart) (count : Nat) : State :=
  let lower (r : State) : State := (r.coresOf ctx).foldl (fun r n => r.driveM ⟨n, 0⟩ 69 false) r
  let no : State :=
    let d := if c.dbg.waiting.isSome then c.dbg.breakInterval else c.dbg
    let s1 := lower ((s.setCtx ctx { c with dbg := { d with asked := none, waiting := none } }).debugStatus 1)
    if c.dbg.waiting.isSome then s1 else s1.resumeCtx ctx
  match c.dbg.checkpoints.find? (fun k => decide (k.number = interval)) with
  | none => no
  | some k =>
    let s0 := s.flushLogs ctx
    match s0.restoreInPlace ctx c k.image with
    | .refused => no
    | .waits => s
    | .done s1 =>
      let c1 := (Tab.find? s1.ctxs ctx).getD c
      let goal := (s1.thread h).retired + BitVec.ofNat 64 count
      let s2 := (lower s1).coresOf ctx |>.foldl (fun r n => r.driveM ⟨n, 0⟩ 65 false) (lower s1)
      let s3 := (s2.coresOf ctx).foldl (fun r n => r.setCore n ((r.core n).replayFrom (s0.core n) (c.dbg.taken - interval))) s2
      s3.setCtx ctx { c1 with dbg := { c.dbg with
        asked := none
        target := some (h, goal)
        stopped := none
        interval := interval
        taken := interval + 1
        checkpoints := c.dbg.checkpoints.filter (fun x => decide (x.number ≤ interval))
        broken := c.dbg.broken.filter (fun x => decide (x < interval)) } }

/-- R397: the log of a core whose replay ends is what the replay has followed. -/
def Core.endReplay (c : Core) : Core :=
  match c.replay with
  | none => c
  | some l =>
    let k := c.runlog.length - l.length
    let cut : List (BitVec 16) := match l, c.runlog[k]? with
      | e :: _, some e0 => if e0 = e then [] else [runEntry (bits e 13 3) (bits e0 0 13 - bits e 0 13)]
      | _, _ => []
    { c with runlog := c.runlog.take k ++ cut, logged := c.logged - l.length + cut.length, replay := none }

/-- R397: a replay stops: the context halts with FORCE and stays stopped, with a status. -/
def State.endReplay (s : State) (ctx : Nat) (c : Ctx) (status : Nat) : State :=
  let s1 := (s.coresOf ctx).foldl (fun r n => r.setCore n (r.core n).endReplay) s
  ((s1.setCtx ctx { c with dbg := { c.dbg with target := none, stopped := some status } }).requestHalt ctx true).debugStatus status

/-- R398: whether a core's log names a thread that is not ready; a context with a strict domain never diverges. -/
def State.diverged (s : State) (ctx : Nat) : Bool :=
  (s.coresOf ctx).any (fun n => match ((s.core n).replay.bind nextLogged) with
    | some (t, _) => let st := (s.thread ⟨n, t⟩).status; !st.ready && decide (st ≠ .late)
    | none => false) &&
  s.domains.all (fun d => !d.2.strict || !((Tab.find? s.grids d.2.gid).map (fun g => decide (g.ctx = ctx))).getD false)

/-- R397, R398: a STOP's halt is complete and its replay begins; or a replay reaches its count, or a thread that a log names is not ready: the
context halts with FORCE and stays stopped. -/
def execDebugStopReached (ctx : Nat) (s : State) : Result :=
  let s := s.settle ctx
  match Tab.find? s.ctxs ctx with
  | none => .next s
  | some c => match c.dbg.asked, c.dbg.target with
    | some (n, h, count), _ => .next (if c.halt = 2 ∧ c.mirroring.isNone then s.startReplay ctx c n h count else s)
    | none, none => .next s
    | none, some (h, goal) =>
      .next (if (s.thread h).retired = goal then s.endReplay ctx c 0 else if s.diverged ctx then s.endReplay ctx c 4 else s)

/-- Bytes in pieces of 64, as a response carries them. -/
def piecesOf64 : Nat → List Byte → List (BitVec 512)
  | 0, _ => []
  | n + 1, bs => if bs = [] then [] else BitVec.ofNat 512 (leValue (bs.take 64)) :: piecesOf64 n (bs.drop 64)

/-- R395: READ returns a section of the stopped state, laid out as Table 26.4, once the stop's halt is complete; until then it waits. -/
def execDebugRead (ctx type key : Nat) (s : State) : Result :=
  s.debugCtx ctx (fun s c =>
    if c.dbg.stopped.isNone then s.debugStatus 1
    else if c.halt ≠ 2 then s
    else match (s.sections ctx c).find? (fun x => decide (x.kind = type) && decide (x.key = key)) with
      | none => s.debugStatus 1
      | some x =>
        let s1 := s.debugStatus 0
        { s1 with free := s1.free + s1.grids.length }.setConn debugFn { s1.conn debugFn with payload := piecesOf64 x.data.length x.data })

/-- R395, R397: RESUME ends a stop; a halt request of the scheduler that waited for it is made then, and breaks the interval (R396). -/
def execDebugResume (ctx : Nat) (s : State) : Result :=
  s.debugCtx ctx (fun s c =>
    if c.dbg.stopped.isNone then s.debugStatus 1
    else
      let d := if c.dbg.waiting.isSome then c.dbg.breakInterval else c.dbg
      let s1 := ((s.setCtx ctx { c with dbg := { d with stopped := none, waiting := none } }).resumeCtx ctx).debugStatus 0
      match c.dbg.waiting with
      | none => s1
      | some force => s1.requestHalt ctx force)

/-- R396, Table 27.6: a core of an armed context appends a run-length entry to its log: the run of the thread that has issued there since its last
entry, or cycles without an issue, which no state tells (log 66). A replay adds none. -/
def execRunLengthLogAppend (core thread run : Nat) (s : State) : Result :=
  let c := s.core core
  let armed := ((s.ctxOf core).map (fun x => x.dbg.armed.isSome)).getD false
  if !armed ∨ c.replay.isSome ∨ run = 0 ∨ 8192 < run then .next s
  else if thread = 6 then .next (s.logEntry core (runEntry 6 run))
  else if thread < 6 ∧ c.trace.take run = List.replicate run thread then
    .next ((s.setCore core { c with trace := c.trace.drop run }).logEntry core (runEntry thread run))
  else .next s

/-! ## The latch -/

/-- R383, R396: at a latch whose new INSTANT is a multiple of the period, an armed context halts with FORCE for its checkpoint, and at one that is a
multiple of 256 the context of a recoverable job does for its mirror (log 64). A halt that the scheduler has requested already goes on after it. -/
def State.latchHalt (s : State) (dom : Nat) : State :=
  match Tab.find? s.domains dom with
  | none => s
  | some d => match Tab.find? s.grids d.gid with
    | none => s
    | some g => match Tab.find? s.ctxs g.ctx with
      | none => s
      | some c =>
        let check := (c.dbg.armed.map (fun p => decide (d.instant.toNat % p = 0))).getD false && c.dbg.target.isNone && c.dbg.asked.isNone
        let mirror := decide (d.instant.toNat % 256 = 0) && Config.recoverable g.ctx
        let c1 : Ctx := { c with
          dbg := { c.dbg with mark := if check then some d.instant else c.dbg.mark }
          mirroring := if mirror then some d.instant else c.mirroring }
        if !check && !mirror then s
        else if c.halt = 0 then (s.setCtx g.ctx c1).requestHalt g.ctx true
        else if c.halt = 1 then
          s.expire g.ctx { c1 with dbg := { c1.dbg with waiting := if c.latching || c.dbg.asked.isSome then c.dbg.waiting else some c.force } }
        else s

/-- R51: delay registers and signals latch, INSTANT advances, and the members' XENDs complete. -/
def execLatch (dom : Nat) (s : State) : Result :=
  match Tab.find? s.domains dom with
  | none => .next s
  | some d => .next (if d.exchangeOver && s.halfQuiet d && !s.memberHalted d then (s.latch dom d).latchHalt dom else s)

end Sys2Proof.Machine
end

