-- ==== Sys2Proof/Machine/Link.lean ====
section
/-! DEFINITION. The host link (R400 to R402), the Flofer ports (R403, R404) and bring-up (R407 to R409). -/

namespace Sys2Proof.Machine

/-! ## The host -/

/-- R365, R401: a queue is destroyed, as its destroy packet would. -/
def State.destroyQueue (s : State) (q : Nat) : State :=
  match s.liveQueue q with
  | none => s
  | some d =>
    let gs := (s.grids.filter (fun g => decide (g.2.queue = q) && !g.2.complete)).map Prod.fst
    let s1 := (s.abortGrids gs 4).cancelPackets d
    (s1.setQueue q { d with live := false, scanning := false }).reap d.ctx

/-- R360, R401: whether an admin queue's destroy is in progress. -/
def State.destroying (s : State) (q : Nat) : Bool :=
  match s.headPacket q with
  | some (r, p) => r.step.isSome && decide (bits (p.headD 0) 1 3 = 3)
  | none => false

/-- R401: a Function Level Reset destroys every live queue of the function's partition but its admin queue, whose READ and WRITE become 0. A step of
that queue in progress completes first. -/
def execFunctionLevelReset (fn : Nat) (s : State) : Result :=
  if 64 ≤ fn ∨ s.destroying fn then .next s
  else
    let mine (q : Nat × Queue) : Bool := decide (q.1 ≠ fn) && q.2.live && decide (s.functionOf q.2 = fn)
    let s1 := ((s.blocks.filter mine).map Prod.fst).foldl State.destroyQueue s
    match s1.qcb fn with
    | none => .next s1
    | some a =>
      let s2 := s1.setQueue fn { a with read := 0, step := none }
      .next ((s2.cpStore a.ctx (virtAddr a.hdr).toNat 0).cpStore a.ctx (virtAddr (a.hdr + 8)).toNat 0)

/-- R400, Table 28.1: how many bytes of DRAM the management firmware has given a function: 1 to 64 GiB for function 0, up to 8 GiB for the others
(log 13). -/
def bar2Bytes (fn : Nat) : Nat := if fn = 0 then 2 ^ 30 * (1 + Config.bar2Size 0 % 64) else Config.bar2Size fn % (2 ^ 33 + 1)

/-- R400: a host access of n bytes within a line of DRAM, byte by byte, under an owner. -/
def State.hostAccess (s : State) (o : BitVec 12) (pa n : Nat) (write : Option (BitVec 512)) : Access :=
  { s.cpAccess 0 pa 1 0 with
    owner := o
    op := if write.isSome then .store else .load
    cls := if write.isSome then .store else .load
    elems := (List.range n).map (fun i => (pa + i, i))
    data := write.getD 0
    full := decide (n = 64) }

/-- R400: a host access of at most 64 bytes within a line through BAR2 of a function: it uses the owner of the function's partition; while that is 0, or
has no key, a read returns all ones and a write is discarded. What a read returns whose line no code corrects is free (log 70). A part whose
bring-up stopped answers none (R408). -/
def execBar2Access (fn addr : Nat) (size : Fin 65) (write : Option (BitVec 512)) (s : State) : Result :=
  let o := (s.part fn).owner
  let pa := Config.bar2Base fn + addr
  let n := size.val
  let answer (r : State) (v : Nat) : State := { r with dev := { r.dev with bar2Data := some (BitVec.ofNat 512 (v % 256 ^ n)) } }
  if 64 ≤ fn ∨ n = 0 ∨ 64 < pa % 64 + n ∨ !s.dev.bootOk then .next s
  else if o = 0 ∨ !s.hasKey o ∨ bar2Bytes fn < addr + n ∨ 2 ^ 39 < pa + n then
    .next (match write with
      | some _ => s
      | none => answer s (256 ^ n - 1))
  else
    let (r, s1) := s.dramOp (s.hostAccess o pa n write)
    .next (match write, r with
      | some _, _ => s1
      | none, .value v _ => answer s1 v.toNat
      | none, _ =>
        let ws := (List.range 8).map (fun i => Config.freeWord (s1.free + i))
        answer { s1 with free := s1.free + 8 } (ws.foldr (fun w v => w.toNat + 2 ^ 64 * v) 0))

/-- R402, R6: a write of DEVID, once bring-up is complete (R408): LOCK = 1 fixes ID and LOCK; RES0 bits are ignored. -/
def execDevidWrite (v : Word) (s : State) : Result :=
  .next (if s.dev.devLock || !s.dev.bootOk then s else { s with dev := { s.dev with devid := v.setWidth 19, devLock := bit v 31 } })

/-- Table 28.2: DEVID as it reads. -/
def Device.devidWord (d : Device) : Word := BitVec.ofNat 64 (d.devid.toNat + 2 ^ 31 * d.devLock.toNat)

/-- Table 28.7: CLAVAILi as it reads. -/
def Device.clavail (d : Device) (i : Nat) : Word :=
  BitVec.ofNat 64 (((List.range 64).filter (fun j => decide (64 * i + j ∉ d.withheld))).foldl (fun v j => v + 2 ^ j) 0)

/-- Tables 28.2, 28.7: a doubleword of BAR0 of function 0 as the host reads it. -/
def Device.bar0 (d : Device) (off : Nat) : Option Word :=
  if off = 0x10 then some d.devidWord
  else if 0x20 ≤ off ∧ off ≤ 0x38 ∧ off % 8 = 0 then some (d.clavail ((off - 0x20) / 8))
  else none

/-- R1, R400, Table 28.1: what the configuration space of every function reads: Revision ID, Device ID and, of function 0, TotalVFs. -/
def revisionId : BitVec 8 := 0x01
def pciDeviceId : BitVec 16 := 0x4096
def totalVfs : Nat := 63

/-! ## Flofer ports -/

/-- R403: whether a flit is well formed for a virtual channel. -/
def flitOk (vc : Nat) (f : Flit) : Bool :=
  decide (f.vc = vc) && decide (f.type < 3) && decide (f.dest < 2 ^ 19) && decide (f.owner < 4096) && decide (f.free ≤ 64)

/-- R404: what an audit flit tells: the sender's count of free slots and the number of its last flit (log 46). -/
def auditPayload (free seq : Nat) : BitVec 1792 := BitVec.ofNat 1792 (free % 2 ^ 64 + 2 ^ 64 * (seq % 2 ^ 64))

/-- R402, R403: the message to a peer that a data flit of the request channel carries, named by the low 64 bits of its payload: it leaves by this
port, under the flit's owner and for its device, and every earlier one of its thread to a peer has been carried (R404, log 46). -/
def State.carries (s : State) (port : Nat) (f : Flit) : List Nat :=
  let id := f.payload.toNat % 2 ^ 64
  let gone (a : Access) : Bool := decide (a.id ∈ (s.chan a.port 0).carried)
  match s.msg? id with
  | none => []
  | some m =>
    let as := m.accesses
    let before := (s.net.takeWhile (fun x => decide (x.id ≠ id))).flatMap Msg.accesses
    if f.vc = 0 ∧ f.type = 0 ∧ as ≠ [] ∧
        as.all (fun a => decide (a.home = .peer f.dest) && decide (a.port = port) && decide (a.owner.toNat = f.owner) &&
          before.all (fun b => !b.isPeer || decide (b.hart ≠ a.hart) || gone b)) then as.map Access.id
    else []

/-- R404: a channel that an audit has stopped retrains: both ends count 64 free slots again, and what is not acknowledged is to be sent again. The
flits of the far side that have been taken and not yet returned will come again. -/
def Chan.retrain (c : Chan) : Chan :=
  let l := c.unacked.map (fun f => { f with free := 0 })
  { c with credit := 64, owed := 0, dups := c.dups + c.owed, stopped := false, again := l, unacked := l }

/-- R402 to R404: a trained port sends a flit while it counts a free slot at the receiver: the next of its sequence, kept in the replay buffer of
256; after 4,096 data flits an audit comes first. A stopped channel retrains, and then sends what is not acknowledged again, in order; a flit that the
receiver has dropped is sent again from the replay buffer in the slot that it had. -/
def execFlitSend (port vc : Nat) (f : Flit) (s : State) : Result :=
  let c := s.chan port vc
  if !s.dev.devLock || decide (16 ≤ port) || decide (4 ≤ vc) || !flitOk vc f then .next s
  else if c.stopped then .next (s.setChan port vc c.retrain)
  else match c.again with
  | g :: rest =>
    if f = g ∧ c.credit ≠ 0 then .next (s.setChan port vc { c with credit := c.credit - 1, wire := c.wire ++ [f], again := rest }) else .next s
  | [] =>
    if f ∈ c.unacked then .next (s.setChan port vc { c with wire := c.wire ++ [f] })
    else if c.credit = 0 ∨ f.seq ≠ c.sendSeq ∨ c.owed < f.free ∨ 256 ≤ c.unacked.length ∨ (f.type = 0 ∧ 4096 ≤ c.sentData) ∨
        (f.type = 1 ∧ f.payload ≠ auditPayload c.credit f.seq) then .next s
    else
      .next (s.setChan port vc { c with
        credit := c.credit - 1
        sendSeq := (c.sendSeq + 1) % 2 ^ 64
        owed := c.owed - f.free
        unacked := c.unacked ++ [f]
        wire := c.wire ++ [f]
        carried := c.carried.filter (fun i => s.net.any (fun m => m.accesses.any (fun a => decide (a.id = i)))) ++ s.carries port f
        sentData := if f.type = 0 then c.sentData + 1 else if f.type = 1 then 0 else c.sentData })

/-- R403: a received flit is taken when its tag is good and its number is the next; else it is dropped. Its return count gives slots back and
acknowledges as many flits (log 46). An audit keeps its slot until it has been compared. One that comes again after a retrain frees its new slot. -/
def execFlitReceive (port : Nat) (f : Flit) (tagOk : Bool) (s : State) : Result :=
  let c := s.chan port f.vc
  if !s.dev.devLock || decide (16 ≤ port) || decide (4 ≤ f.vc) || !flitOk f.vc f || !tagOk then .next s
  else if 0 < c.dups ∧ f.seq + c.dups = c.recvSeq then .next (s.setChan port f.vc { c with dups := c.dups - 1, owed := c.owed + 1 })
  else if f.seq ≠ c.recvSeq then .next s
  else
    .next (s.setChan port f.vc { c with
      recvSeq := (c.recvSeq + 1) % 2 ^ 64
      owed := if f.type = 1 then c.owed else min 64 (c.owed + 1)
      credit := min 64 (c.credit + f.free)
      unacked := c.unacked.drop f.free
      received := if f.type = 1 then c.received ++ [f] else c.received })

/-- R404: the receiver compares the oldest audit that it has received, which tells the sender's free slots and the number of its last flit, with its
own free slots and the flits in flight, among them those that return slots; on a mismatch that channel alone stops sending and drains its slots
(log 46). -/
def execAuditFlit (port vc free seq : Nat) (s : State) : Result :=
  let c := s.chan port vc
  match c.received with
  | [] => .next s
  | f :: rest =>
    if !s.dev.devLock || decide (16 ≤ port) || decide (4 ≤ vc) || decide (f.payload ≠ auditPayload free seq) then .next s
    else
      let used := free + (seq + 1 - c.recvSeq) + c.owed + c.received.length
      let returning := (c.unacked.map Flit.free).sum
      if used ≤ 64 ∧ 64 ≤ used + returning then .next (s.setChan port vc { c with owed := c.owed + 1, received := rest })
      else .next (s.setChan port vc { c with stopped := true, owed := c.owed + c.received.length, received := [] })

/-! ## Bring-up -/

/-- The bits of a value of n bits that are set. -/
def setCount (n : Nat) (v : Nat) : Nat := ((List.range n).filter (fun i => decide (v / 2 ^ i % 2 = 1))).length

/-- R407, Table 28.5: whether a configuration record is well formed: its header, at most 16 enabled cores of each cluster, 32 rows of each core, and
banks that exist; one that is not fails its verification (log 13). -/
def recordGood (r : ConfigRecord) : Bool :=
  decide (r.magic = 0x47434658) && decide (r.format = 1) && r.cores.all (fun q => decide (q.1 < 256) && decide (setCount 17 q.2.toNat ≤ 16)) &&
    r.rows.all (fun q => decide (q.1 < 4096) && decide (setCount 34 q.2.toNat = 32)) && r.banks.all (fun q => decide (q.1 < 4096) && decide (q.2 < 16))

/-- R10, R407: the clusters whose spare physical core, the seventeenth, the record's core map enables. -/
def recordSpares (r : ConfigRecord) : List Nat := (r.cores.filter (fun q => bit q.2 16)).map Prod.fst

/-- R408: the clusters that the record leaves with fewer than 16 enabled cores. -/
def recordShort (r : ConfigRecord) : List Nat := (r.cores.filter (fun q => decide (setCount 17 q.2.toNat < 16))).map Prod.fst

/-- R409: a repair entry with its RES0 bits 0 and a KIND of 0 or 1. -/
def repairOk (e : BitVec 32) : Bool := zeroBits e 18 14

/-- R389, R409: a bank joins the failed ones of a core. -/
def State.failBank (s : State) (core bank : Nat) : State :=
  let c := s.core core
  if 4096 ≤ core ∨ 16 ≤ bank ∨ bank ∈ c.failed then s else s.setCore core { c with failed := c.failed ++ [bank] }

/-- R409, R389: a failed core is replaced by its cluster's spare, if that is unused; else the cluster is withheld. -/
def State.replaceCore (s : State) (core : Nat) : State :=
  if core / 16 ∈ s.dev.spareUsed then s.withhold (core / 16)
  else { s with dev := { s.dev with spareUsed := s.dev.spareUsed ++ [core / 16] } }.setCore core { s.core core with failed := [] }

/-- R409: one entry of the field-repair list is applied: a failed bank, or a failed core. -/
def State.applyRepair (s : State) (e : BitVec 32) : State :=
  let core := 16 * bits e 0 8 + bits e 8 4
  if bits e 17 2 = 1 then s.failBank core (bits e 12 5) else s.replaceCore core

/-- R389: the cores that the record and the list together leave with two failed banks are unusable. -/
def State.replaceUnusable (s : State) : State :=
  ((s.cores.filter (fun q => decide (q.1 < 4096) && decide (2 ≤ q.2.failed.length))).map Prod.fst).foldl State.replaceCore s

/-- R408, R409: whether the field-repair list is used: its tag is good and every entry well formed, of at most 1,024. -/
def usesList (cfg : BringUp) (list : List (BitVec 32)) : Bool := cfg.listOk && list.all repairOk && decide (list.length ≤ 1024)

/-- R408: the part as step 2 of bring-up leaves it: the record's maps and failed banks are applied, then the field-repair list, if it is used. -/
def State.configured (s : State) (r : ConfigRecord) (list : List (BitVec 32)) (use : Bool) : State :=
  let s1 : State := { s with dev := { s.dev with record := r, spareUsed := recordSpares r } }
  let s2 := r.banks.foldl (fun x q => x.failBank q.1 q.2) ((recordShort r).foldl State.withhold s1)
  (if use then list.foldl State.applyRepair s2 else s2).replaceUnusable

/-- R408: bring-up that stops at a step, before the admin queues are created: function 0's mailbox answers GET_VERSION alone. -/
def State.stopsAt (s : State) (step : Nat) : State :=
  { s with
    queues := []
    qcache := []
    dev := { s.dev with bootStep := step, bootOk := false } }

/-- R391: a measurement register of the part is extended with a component's digest. -/
def State.measure (s : State) (i : Fin 8) (digest : BitVec 512) : State :=
  { s with dev := { s.dev with meas := s.dev.meas.set i (extendMeas s.dev.meas[i] digest) } }

/-- R408: step 4 of bring-up: the monitor, scheduler and management firmware are verified, measured and started, in order; bring-up stops at the first
that fails. -/
def State.startFirmware (s : State) (cfg : BringUp) : State :=
  if !cfg.monitorOk then s.stopsAt 4
  else
    let s1 := s.measure 1 (Config.component 1)
    if !cfg.schedulerOk then s1.stopsAt 4
    else
      let s2 := s1.measure 2 (Config.component 2)
      if !cfg.managementOk then s2.stopsAt 4 else s2.measure 4 (Config.component 4)

/-- R408, R409: bring-up runs its steps in order. What flash holds, the list, is kept over it, and the machine's own counters go on (log 47). -/
def execBringUp (cfg : BringUp) (s : State) : Result :=
  let list := s.dev.repairs ++ cfg.repairs
  let use := usesList cfg list
  let s0 : State := { State.reset with
    agenda := s.agenda
    free := s.free
    dev := { Device.init with boots := s.dev.boots + 1, repairs := list, meas := Vector.replicate 8 0 } }
  if !cfg.firmwareOk then .next (s0.stopsAt 1)
  else
    let s1 := s0.measure 0 (Config.component 0)
    if !(cfg.recordOk && recordGood cfg.record) then .next (s1.stopsAt 2)
    else
      let s2 := (s1.measure 3 (Config.component 3)).configured cfg.record list use
      .next ((if use then s2.measure 3 (repairDigest list) else s2).startFirmware cfg)

end Sys2Proof.Machine
end

