-- ==== Sys2Proof/Machine/ScalarFp.lean ====
section
/-! DEFINITION. Scalar floating point, major 0x1E (R171 to R174). -/

namespace Sys2Proof.Machine

/-- R172: d := f(a, b) rounded in FMODE.RM, with its flags accrued. -/
def State.fp2 (s : State) (d : Fin 32) (a b : Opnd) (p : Bool) (f : Fmt → Rm → Nat → Nat → FRes) : Result :=
  let t := s.me
  let r := f (fmtP p) (rmOf t.fmode) (t.opF p a) (t.opF p b)
  .next (s.retire ((t.setX d (BitVec.ofNat 64 r.bits)).accrue r.fl) (len2 a b))

/-- The same for one operand. -/
def State.fp1 (s : State) (d : Fin 32) (a : Opnd) (p : Bool) (f : Rm → Nat → FRes) : Result :=
  let t := s.me
  let r := f (rmOf t.fmode) (t.opF p a)
  .next (s.retire ((t.setX d (BitVec.ofNat 64 r.bits)).accrue r.fl) (len1 a))

/-- An operation on values as one on patterns. -/
def onValues (op : Fmt → Rm → Num → Num → FRes) (f : Fmt) (rm : Rm) (x y : Nat) : FRes := op f rm (f.decode x) (f.decode y)

def execFadd (d : Fin 32) (a b : Opnd) (p : Bool) (s : State) : Result := s.fp2 d a b p (onValues Fmt.addR)
def execFsub (d : Fin 32) (a b : Opnd) (p : Bool) (s : State) : Result := s.fp2 d a b p (onValues Fmt.subR)
def execFmul (d : Fin 32) (a b : Opnd) (p : Bool) (s : State) : Result := s.fp2 d a b p (onValues Fmt.mulR)
def execFdiv (d : Fin 32) (a b : Opnd) (p : Bool) (s : State) : Result := s.fp2 d a b p (onValues Fmt.divR)

/-- R172: FFMA reads d as its addend. -/
def execFfma (d : Fin 32) (a b : Opnd) (p : Bool) (s : State) : Result :=
  let z := s.me.opF p (.reg d)
  s.fp2 d a b p (fun f rm x y => f.fmaR rm (f.decode x) (f.decode y) (f.decode z))

def execFsqrt (d : Fin 32) (a : Opnd) (p : Bool) (s : State) : Result :=
  s.fp1 d a p (fun rm x => (fmtP p).sqrtR rm ((fmtP p).decode x))

def execFmin (d : Fin 32) (a b : Opnd) (p : Bool) (s : State) : Result := s.fp2 d a b p (fun f _ x y => f.minMax false x y)
def execFmax (d : Fin 32) (a b : Opnd) (p : Bool) (s : State) : Result := s.fp2 d a b p (fun f _ x y => f.minMax true x y)

/-- R173: a comparison writes 1 or 0. -/
def cmpRes (rel : Num → Num → Bool) (ordered : Bool) (f : Fmt) (x y : Nat) : FRes :=
  ⟨(rel (f.decode x) (f.decode y)).toNat, cmpFlags ordered (f.decode x) (f.decode y)⟩

def execFcmpEq (d : Fin 32) (a b : Opnd) (p : Bool) (s : State) : Result := s.fp2 d a b p (fun f _ => cmpRes Num.eq false f)
def execFcmpLt (d : Fin 32) (a b : Opnd) (p : Bool) (s : State) : Result := s.fp2 d a b p (fun f _ => cmpRes Num.lt true f)
def execFcmpLe (d : Fin 32) (a b : Opnd) (p : Bool) (s : State) : Result := s.fp2 d a b p (fun f _ => cmpRes Num.le true f)

/-- R174, R98: conversion between the two precisions; P gives the source. -/
def execFcvtPrecision (d : Fin 32) (a : Opnd) (p : Bool) (s : State) : Result :=
  s.fp1 d a p (fun rm x =>
    let v := (fmtP p).decode x
    let r := (fmtP (!p)).pack rm false v
    ⟨r.bits, r.fl ||| nvIf v.isSig⟩)

/-- R174, R98: conversion to a signed 64-bit integer. -/
def execFcvtToInt (d : Fin 32) (a : Opnd) (p : Bool) (s : State) : Result :=
  s.fp1 d a p (fun rm x =>
    let (v, fl) := cvtInt rm (-(2 ^ 63)) (2 ^ 63 - 1) ((fmtP p).decode x)
    ⟨ofSigned 64 v, fl⟩)

/-- R174: conversion from a signed 64-bit integer, which the a field holds in integer use. -/
def execFcvtFromInt (d : Fin 32) (a : Opnd) (p : Bool) (s : State) : Result :=
  let t := s.me
  let r := (fmtP p).pack (rmOf t.fmode) false (Num.ofInt (t.opX a).toInt)
  .next (s.retire ((t.setX d (BitVec.ofNat 64 r.bits)).accrue r.fl) (len1 a))

end Sys2Proof.Machine
end

