-- ==== Sys2Proof/Machine/Stream.lean ====
section
/-! DEFINITION. Stream generators (R67 to R69, R221 to R223) and the repeat buffer (R225), major 0x15. -/

namespace Sys2Proof.Machine

/-- R221: cause 36 with a reason and a generator. -/
def State.streamFault (s : State) (reason : Nat) (g : Fin 4) : Result :=
  s.trapMe 36 (streamValue reason g)

/-- R68: the indexes i0 to i3 of element n. -/
def Gen.digit (g : Gen) (n k : Nat) : Nat :=
  n / ((List.range k).foldl (fun p i => p * g.extent i) 1) % g.extent k

/-- R68: the address of element n of a direct generator. -/
def Gen.address (g : Gen) (n : Nat) : Word :=
  (List.range 4).foldl (fun (a : Word) k => a + BitVec.ofNat 64 (g.digit n k) * g.stride k) g.base

/-- R68: the unread elements of a generator as a thread finds it. -/
def Gen.unread (g : Gen) (th : Nat) : Nat :=
  if g.bound = some th ∧ g.exhausted = false then g.total - g.n else 0

/-- R222: SG.CFG. -/
def execSgCfg (d : Fin 4) (a b : Opnd) (s : State) : Result :=
  let h := s.cur
  let addr := s.me.opX a + s.me.opX b
  let g := s.myCore.gens[d.val]
  match s.resolveRange h addr.toNat 64 with
  | some (.sram (.core n) off) =>
    if n ≠ h.core then s.trapMe 34 addr
    else if addr.toNat % 64 ≠ 0 then s.trapMe 4 addr
    else if !s.pmpOk h addr.toNat 64 .read then s.trapMe 5 addr
    else if g.heldFrom h.th then s.streamFault 3 d
    else
      s.sramAccess (.core n) (mkAccess s h addr .load .load (.sram (.core n)) 64 [(off, 0)] 0 0 true) (.cfg d addr) (len2 a b)
  | _ => s.trapMe 34 addr

/-- R222: SG.IDX. -/
def execSgIdx (d : Fin 32) (a : Fin 4) (s : State) : Result :=
  let g := s.myCore.gens[a.val]
  if g.bound ≠ some s.cur.th then s.streamFault 0 a
  else .next (s.retire (s.me.setX d (BitVec.ofNat 64 g.n)) 4)

/-- R222: SG.STOP. -/
def execSgStop (a : Fin 4) (s : State) : Result :=
  let c := s.myCore
  let g := c.gens[a.val]
  if g.bound ≠ some s.cur.th then s.streamFault 0 a
  else
    let s1 := s.setMyCore { c with gens := c.gens.set a.val { g with bound := none, exhausted := true } }
    .next (s1.retire s1.me 4)

/-! ## Elements -/

/-- What becomes of the elements of one instruction that are performed at once: the value gathered, the elements that wait, and
the machine; or the trap of one of them. -/
inductive Local where
  | ok (got : BitVec 512) (waiting : List Nat) (s : State)
  | trap (cause : Nat) (value : Word) (utag : BitVec 14) (waiting : List Nat) (s : State)

/-- R223: the elements at the issuer's own SRAM, each a bank operation of its own, in lane order; a turn that issues the instruction with `split`
has them in any other (DEDUCED, log 113). -/
def State.performNow (s : State) : List Access → BitVec 512 → List Nat → Local
  | [], got, w => .ok got w s
  | a :: t, got, w => match s.serve (.core a.hart.core) a false with
    | (some (.value v _), _, s1) => s1.performNow t (got ||| v) w
    | (some (.trap c v u), _, s1) => .trap c v u w s1
    | (none, true, s1) => s1.performNow t got (w ++ [a.id])
    | (none, false, s1) => (s1.send (.access a)).performNow t got (w ++ [a.id])

/-- R69: the lanes of one line of the issuer's own SRAM, in one bank operation. -/
def State.laneNow (s : State) : List Access → BitVec 512 → List Nat → Local
  | [], got, w => .ok got w s
  | a :: t, got, w => match s.gatherLane a with
    | (some (.value v _), s1) => s1.laneNow t (got ||| v) w
    | (some (.trap c v u), s1) => .trap c v u w s1
    | (none, s1) => s1.laneNow t got (w ++ [a.id])

/-- R69: the accesses that fall in the line of the first one at its home. -/
def sameLine (a b : Access) : Bool :=
  decide (a.home = b.home) && decide ((a.elems.headD (0, 0)).1 / 64 = (b.elems.headD (0, 0)).1 / 64)

/-- R69: a list of accesses line by line; n bounds their number. -/
def lines : Nat → List Access → List (List Access)
  | 0, _ => []
  | _, [] => []
  | n + 1, a :: t => (a :: t.filter (sameLine a)) :: lines n (t.filter (fun b => !sameLine a b))

/-- The message of a line. -/
def lineMsg (as : List Access) : Msg := .group ((as.head?.map Access.id).getD 0) as

/-- R69: the lines of the issuer's own SRAM are read, each in one bank operation; one with a word whose woken accesses are still to be
re-checked waits whole (R81). Their order is that of their lowest lanes, and with `split` any other (DEDUCED, log 113). -/
def State.linesNow (s : State) : List (List Access) → BitVec 512 → List Nat → Local
  | [], got, w => .ok got w s
  | l :: t, got, w =>
    if s.lineFree l then
      match s.laneNow l got w with
      | .ok got' w' s1 => s1.linesNow t got' w'
      | r => r
    else (s.send (lineMsg l)).linesNow t got (w ++ l.map Access.id)

/-- R68, R69, R223: the elements of a stream instruction are checked, then accessed one by one; `gather` reads them by line. Those at the
issuer's own SRAM are performed within the step, in the order of their lanes, or with `split` apart from each other and in any order, as
those at other homes are (R224). -/
def State.streamAccess (s : State) (op : AccOp) (e : Nat) (gather : Bool) (data : BitVec 512) (es : List Elem) (f : Finish)
    (len : Nat) : Result :=
  let cls : Class := if op = .store then .engWrite else .engRead
  match s.checkElems cls e false es [] with
  | .stop r => r
  | .ok cs s1 =>
    let h := s.cur
    let n := s1.nextId
    let mine := (List.range cs.length).zipWith (fun i c => (c.reg, { c.access s1 (n + i) n cls op e data with full := decide (op = .store) && c.fullLine e cs })) cs
    let as := (mine.filter (fun p => !p.1)).map Prod.snd
    let (seen, s2) := ({ s1 with nextId := n + cs.length }).regAccesses ((mine.filter Prod.fst).map Prod.snd) 0
    let here (a : Access) : Bool := !s.split && decide (a.home = .sram (.core h.core))
    let own := as.filter here
    match (if gather then s2.linesNow (lines own.length own) seen [] else s2.performNow own seen []) with
    | .trap c v u w s3 => .next ((s3.withdraw w).faultOf h c v u)
    | .ok got w s3 =>
      let away := as.filter (fun a => !here a)
      let ms : List Msg := if gather then (lines away.length away).map lineMsg else away.map Msg.access
      let s4 := ms.foldl State.send s3
      let ids := w ++ away.map Access.id
      if ids = [] then .next (s4.finishAccess h f got len)
      else .next (s4.await h ids f got len (decide (w = []) && away.all (fun a => s4.looseAt a.home f)))

/-- The elements that a generator moves next, at the addresses that f gives. -/
def streamElems (count : Nat) (f : Nat → Word) : List Elem := (List.range count).map (fun k => ⟨k, f k⟩)

/-- R222, R223: SREAD. An indirect one first gathers its indices, a vector's worth at a time, and then its elements. DESIGN CHOICE, log 101:
a generator of indices that has been configured as an indirect one since then is walked by its own extents and strides, as a direct one. -/
def execSread (d : Fin 32) (a : Fin 4) (s : State) : Result :=
  let h := s.cur
  let c := s.myCore
  let g := c.gens[a.val]
  let i := c.gens[g.idxGen.val]
  let count := min (64 / g.esize) (g.total - g.n)
  if g.bound ≠ some h.th then s.streamFault 0 a
  else if g.exhausted then s.streamFault 1 a
  else if !g.indirect then
    s.streamAccess .load g.esize false 0 (streamElems count (fun k => g.address (g.n + k))) (.stream d a count none) 4
  else if i.unread h.th < count then s.streamFault 1 a
  else
    let got := s.me.gathered
    if got.length < count then
      let n := min (count - got.length) (64 / i.esize)
      s.streamAccess .load i.esize false 0 (streamElems n (fun k => i.address (i.n + got.length + k))) (.indices n i.esize) 4
    else
      s.streamAccess .load g.esize true 0 (streamElems count (fun k => g.base + got.getD k 0 * g.stride 0))
        (.stream d a count (some g.idxGen)) 4

/-- R222, R223: SWRITE. A constant or literal as the data is read in integer lanes of the element's width, of 4 bytes where that is 8 (log 36). -/
def execSwrite (d : Fin 4) (a : Opnd) (s : State) : Result :=
  let h := s.cur
  let g := s.myCore.gens[d.val]
  let count := min (64 / g.esize) (g.total - g.n)
  let lt : LType := if g.esize = 1 then .i8 else if g.esize = 2 then .i16 else .i32
  if g.bound ≠ some h.th then s.streamFault 0 d
  else if g.indirect then s.streamFault 2 d
  else if g.exhausted then s.streamFault 1 d
  else
    s.streamAccess .store g.esize false (s.me.opV lt a) (streamElems count (fun k => g.address (g.n + k)))
      (.streamOut d count) (len1 a)

/-! ## The repeat buffer -/

/-- R225: whether an instruction may not stand in a repeated body. -/
def notRepeatable : Instr → Bool
  | .beq _ _ _ _ | .bne _ _ _ _ | .blt _ _ _ _ | .bge _ _ _ _ | .bltu _ _ _ _ | .bgeu _ _ _ _ => true
  | .jal _ _ _ _ | .jalr _ _ _ _ | .j _ _ => true
  | .rep _ _ _ | .bpres _ _ _ | .babs _ _ _ | .pause _ | .xend _ | .nexit _ | .phint _ _ _ | .uiret _ => true
  | .ecall _ | .ebreak _ | .mret _ | .sret _ | .wfi _ => true
  | .tlbWr _ _ _ _ | .tlbInv _ _ _ _ | .xlateDrain _ _ _ | .mxSave _ _ | .mxLoad _ _ _ => true
  | .ctxHalt _ _ _ _ | .ctxSave _ _ _ _ => true
  | _ => false

/-- The bytes of halfwords. -/
def halfBytes (l : List Half) : List Byte := l.flatMap (fun (v : Half) => [v.setWidth 8, (v >>> 8).setWidth 8])

/-- R150: whether an instruction's first word is legal for a core at a level. -/
def fetchable (core : Nat) (l : Level) (w : Word32) : Bool :=
  match decodeWord w 0 with
  | some i => levelOk core l i
  | none => false

/-- R138, R150: the bytes of the one instruction at an address, as a thread fetches them; the literal of an illegal word, which is never
fetched, has its place with zero bytes. -/
def State.fetchOne (s : State) (h : Hart) (a : Word) : FetchRes ⊕ (List Half × State) :=
  match s.fetchHalves h a 1 [] with
  | .inl r => .inl r
  | .inr (lo, s1) =>
    if halvesNat lo % 2 = 0 then .inr (lo, s1)
    else match s1.fetchHalves h (a + 2) 1 [] with
      | .inl r => .inl r
      | .inr (hi, s2) =>
        let w : Word32 := BitVec.ofNat 32 (halvesNat (lo ++ hi))
        let n := if 32 ≤ w.toNat / 4 % 64 then 0 else wordLitBytes w / 2
        if fetchable h.core (s.thread h).level w then
          match s2.fetchHalves h (a + 4) n [] with
          | .inl r => .inl r
          | .inr (lit, s3) => .inr (lo ++ hi ++ lit, s3)
        else .inr (lo ++ hi ++ List.replicate n 0, s2)

/-- R225: the instructions of a body of n instructions, each as its halfwords. -/
def State.fetchBody (s : State) (h : Hart) (a : Word) : Nat → List (List Half) → FetchRes ⊕ (List (List Half) × State)
  | 0, acc => .inr (acc.reverse, s)
  | n + 1, acc => match s.fetchOne h a with
    | .inl r => .inl r
    | .inr (i, s') => s'.fetchBody h (a + BitVec.ofNat 64 (2 * i.length)) n (i :: acc)

/-- R225: whether the bytes of one instruction may not stand in a body. -/
def badInBody (i : List Half) : Bool :=
  match decodeBytes (halfBytes i) with
  | .ok (x, _) => notRepeatable x
  | .error _ => false

/-- R225: cause 36, reason 4; no generator is named, so the low bits of the value are free (log 11). -/
def State.repFault (s : State) : Result :=
  let (w, s1) := s.draw
  s1.streamFault 4 ⟨bits w 0 2 % 4, Nat.mod_lt _ (by decide)⟩

/-- R225: REP. -/
def execRep (a b : Opnd) (s : State) : Result :=
  let h := s.cur
  let t := s.me
  let n := (t.opX a).toNat
  let l := (t.opX b).toNat
  if 2 ^ 32 ≤ n ∨ l = 0 ∨ 16 < l ∨ t.user.h = true then s.repFault
  else
    let start := t.pc + BitVec.ofNat 64 (len2 a b)
    match s.fetchBody h start l [] with
    | .inl r => stopFetch s r
    | .inr (body, s1) =>
      let bytes := halfBytes body.flatten
      if 128 < bytes.length ∨ body.any badInBody = true then s1.repFault
      else if n = 0 then
        .next (s1.setMe { s1.me with retired := s1.me.retired + 1, pc := start + BitVec.ofNat 64 bytes.length })
      else
        .next (s1.setMe { s1.me with
          retired := s1.me.retired + 1, pc := start, rep := some ⟨start, bytes, l, n, t.level, start⟩ })

end Sys2Proof.Machine
end

