-- ==== Sys2Proof/Machine/VecConv.lean ====
section
/-! DEFINITION. Convert, pack, unpack, quantise and dequantise, major 0x12 (R207 to R213). -/

namespace Sys2Proof.Machine

/-- R207: the lanes of VCVT; below n a conversion, from n on zero. -/
def cvtLane (src dst : LType) (rm : Rm) (v : Vec) (i : Nat) : FRes :=
  if i < 64 / max src.bytes dst.bytes then ltCvt dst rm false (ltValue src (lane v src.bytes i)) else ⟨0, 0⟩

/-- R207: VCVT. -/
def execVcvt (d : Fin 32) (a : Opnd) (src t : LType) (s : State) : Result :=
  let th := s.me
  let x := th.opV src a
  .next (s.retire (th.lanesR d t.bytes (cvtLane src t (rmOf th.fmode) x)) (len1 a))

/-- Table 13.7: the source type of VPACK. -/
def packSource : LType → LType
  | .bf16 => .f32 | .f16 => .f32 | .fp8a => .bf16 | .fp8b => .bf16 | .i16 => .i32 | .i8 => .i16
  | .f32 => .f32 | .i32 => .i32

/-- R208: VPACK. -/
def execVpack (d : Fin 32) (a b : Opnd) (t : LType) (s : State) : Result :=
  let th := s.me
  let src := packSource t
  let half := 32 / t.bytes
  let x := th.opV src a
  let y := th.opV src b
  let f (i : Nat) : FRes :=
    ltCvt t (rmOf th.fmode) false
      (ltValue src (if i < half then lane x src.bytes i else lane y src.bytes (i - half)))
  .next (s.retire (th.lanesR d t.bytes f) (len2 a b))

/-- R209: VUNPACK. -/
def execVunpack (d : Fin 32) (a : Opnd) (part : Fin 8) (t : LType) (s : State) : Result :=
  let th := s.me
  let x := (th.opV t a).toNat
  let f (i : Nat) : Nat := (ltCvt t .rne false (Num.ofInt (sext 4 (nibble x (part.val * (64 / t.bytes) + i))))).bits
  .next (s.retire (th.lanesI d t.bytes f) (len1 a))

/-! ## Quantisation -/

/-- Element i of the 64 FP32 values of four registers. -/
def Thread.elem64 (t : Thread) (a : Fin 32) (i : Nat) : Num :=
  Fmt.f32.decode (lane (t.getV ⟨(a.val + i / 16) % 32, Nat.mod_lt _ (by decide)⟩) 4 (i % 16))

/-- R210: whether a finite quotient differs from an integer. -/
def differs (q : Num) (v : Int) : Bool :=
  match q with
  | .fin _ _ _ => !(q.eq (Num.ofInt v))
  | _ => false

/-- R210: a code of n bits between lo and hi: its integer and its flags. -/
def quantInt (lo hi : Int) : Num → Int × Flags
  | .nan _ => (0, flNV)
  | .inf neg => (if neg then lo else hi, flNV)
  | .fin neg m e =>
    let v := roundInt .rne neg m e
    let c := clampInt v lo hi
    (c, (if c ≠ v then flOF else 0) ||| (if differs (.fin neg m e) c then flNX else 0))

/-- R210: a byte of an FP8 format; R210 lists NV, OF and NX as its flags, and no UF. -/
def quantFp (f : Fmt) (q : Num) : FRes :=
  let r := f.pack .rne true q
  ⟨r.bits, (r.fl &&& (flNV ||| flOF ||| flNX)) ||| nvIf q.isSig⟩

/-- R210, R211: the quotient of element i: x / s, halved or emptied by the duplication map. -/
def quotientOf (e : Engine) (ctl : Word32) (x : Nat → Num) (i : Nat) : Num :=
  let sc := bits ctl 0 8
  let ch := 64 * bits ctl 16 16 + i
  let dup : Bool := (List.range e.dupCount).any (fun j => decide ((Tab.get 0 e.dupMap j).toNat = ch))
  let q (halve : Bool) (v : Num) : Num :=
    if sc = 255 then .nan v.isSig else v.scale (127 - (sc : Int) - (if halve then 1 else 0))
  if bit ctl 8 then
    if bit ctl 9 then (if ch < e.dupCount then q true (x i) else q false (.fin false 0 0))
    else q dup (x i)
  else q false (x i)

/-- R93, R210: the code and flags of an O4 element that may become an outlier. -/
def o4Code (chosen : Bool) (q : Num) : Nat × Flags :=
  if chosen then (8, (quantFp .e4m3 q).fl)
  else let (v, fl) := quantInt (-7) 7 q; (ofSigned 4 v, fl)

/-- R93: the outlier list of a group, as a number: the bytes of the chosen elements in order. -/
def o4List (ps : List (Nat × Num)) (chosen : Nat × Num → Bool) : Nat :=
  (ps.filter chosen).foldr (fun p acc => (quantFp .e4m3 p.2).bits + 256 * acc) 0

/-- The number whose nibbles are given. -/
def nibblesNat : List Nat → Nat
  | [] => 0
  | c :: t => c % 16 + 16 * nibblesNat t

/-- R210, R93: the 64 bytes and the flags of a group quantised to a packed format. -/
def quantGroup (pk : Pack) (q : Nat → Num) : Vec × Flags :=
  let ps : List (Nat × Num) := (List.range 64).map (fun i => (i, q i))
  let flags (f : Num → Flags) : Flags := ps.foldl (fun acc p => acc ||| f p.2) 0
  match pk with
  | .e4m3 => (vecOf 1 (fun i => (quantFp .e4m3 (q i)).bits), flags (fun x => (quantFp .e4m3 x).fl))
  | .e5m2 => (vecOf 1 (fun i => (quantFp .e5m2 (q i)).bits), flags (fun x => (quantFp .e5m2 x).fl))
  | .int8 => (vecOf 1 (fun i => ofSigned 8 (quantInt (-128) 127 (q i)).1), flags (fun x => (quantInt (-128) 127 x).2))
  | .int4 =>
    (BitVec.ofNat 512 (nibblesNat (ps.map (fun p => ofSigned 4 (quantInt (-8) 7 p.2).1))), flags (fun x => (quantInt (-8) 7 x).2))
  | .o4 =>
    let chosen := o4Chosen ps
    let codes := ps.map (fun p => o4Code (chosen p) p.2)
    (BitVec.ofNat 512 (nibblesNat (codes.map Prod.fst) + 2 ^ 256 * o4List ps chosen),
      codes.foldl (fun acc c => acc ||| c.2) 0)

def isMxDup : Instr → Bool
  | .mxDup _ _ => true
  | _ => false

/-- R211: whether an MX.DUP of a thread is queued or executing. -/
def Core.dupPending (c : Core) (h : Hart) : Bool :=
  c.cmds.any (fun q => decide (q.hart = h) && isMxDup q.instr)

/-- R210, R211: VQUANT. -/
def execVquant (d a b : Fin 32) (pk : Pack) (s : State) : Result :=
  let t := s.me
  let ctl : Word32 := (t.getV b).setWidth 32
  if bit ctl 8 && s.myCore.dupPending s.cur then s.block .engine
  else
    let (v, fl) := quantGroup pk (quotientOf s.myCore.engine ctl (t.elem64 a))
    .next (s.retire ((t.setV d v).accrue fl) 4)

/-! ## Dequantisation -/

/-- R143, R212: the lane type of the format of VDEQ's a field; INT4 and O4 have none (R88). -/
def packLt : Pack → Option LType
  | .e4m3 => some .fp8a
  | .e5m2 => some .fp8b
  | .int8 => some .i8
  | .int4 => none
  | .o4 => none

/-- R143: VDEQ's a operand. A constant or literal in a format without lanes is a free value (log 11). -/
def State.packOperand (s : State) (pk : Pack) (a : Opnd) : Vec × State :=
  match packLt pk, a with
  | some lt, a => (s.me.opV lt a, s)
  | none, .reg r => (s.me.getV r, s)
  | none, _ => (vecOf 8 (fun i => (Config.freeWord (s.free + i)).toNat), { s with free := s.free + 8 })

/-- R212: decoded element i of a group, before its scale. -/
def packElem (pk : Pack) (v : Vec) (i : Nat) : Num :=
  match pk with
  | .e4m3 => Fmt.e4m3.decode (lane v 1 i)
  | .e5m2 => Fmt.e5m2.decode (lane v 1 i)
  | .int8 => Num.ofInt (sext 8 (lane v 1 i))
  | .int4 => Num.ofInt (sext 4 (nibble v.toNat i))
  | .o4 => o4Elem (bits v 0 256) (bits v 256 64) i

/-- R212: the FP32 result of element i. -/
def deqElem (pk : Pack) (v : Vec) (sc i : Nat) : FRes :=
  if sc = 255 then ⟨Fmt.f32.canon, 0⟩ else Fmt.f32.pack .rne false ((packElem pk v i).scale ((sc : Int) - 127))

/-- R212: VDEQ. -/
def execVdeq (d : Fin 32) (a : Opnd) (b : Fin 32) (pk : Pack) (s : State) : Result :=
  let (v, s) := s.packOperand pk a
  let t := s.me
  let sc := bits (t.getV b) 0 8
  if pk = .o4 ∧ 8 < o4Marks (bits v 0 256) 64 then s.trapMe 35 0
  else
    let r (j i : Nat) : FRes := deqElem pk v sc (16 * j + i)
    let t1 := (List.range 4).foldl (fun (th : Thread) j =>
      (th.setV ⟨(d.val + j) % 32, Nat.mod_lt _ (by decide)⟩ (vecOf 4 (fun i => (r j i).bits))).accrue
        (laneFlags (fun _ => true) (r j) 16)) t
    .next (s.retire t1 (len1 a))

end Sys2Proof.Machine
end

