-- ==== Sys2Proof/Machine/VecFp.lean ====
section
/-! DEFINITION. Vector floating point: majors 0x10 and 0x16 (R203, R204) and the FP 16-bit forms (R206). -/

namespace Sys2Proof.Machine

/-- R203: a predicated lane operation on two sources, rounded in FMODE.RM. -/
def State.vfp2 (s : State) (d : Fin 32) (a b : Opnd) (lt : FType) (len : Nat) (f : Fmt → Rm → Nat → Nat → FRes) : Result :=
  let t := s.me
  let w := ftBytes lt
  let x := t.opV (ftLt lt) a
  let y := t.opV (ftLt lt) b
  .next (s.retire (t.lanesR d w (fun i => f (ftFmt lt) (rmOf t.fmode) (lane x w i) (lane y w i))) len)

/-- R203, R204: a compare of lanes into a mask. -/
def State.vfcmp (s : State) (d : Fin 8) (a b : Opnd) (lt : FType) (rel : Num → Num → Bool) (ordered : Bool) : Result :=
  let t := s.me
  let w := ftBytes lt
  let x (i : Nat) : Num := (ftFmt lt).decode (lane (t.opV (ftLt lt) a) w i)
  let y (i : Nat) : Num := (ftFmt lt).decode (lane (t.opV (ftLt lt) b) w i)
  .next (s.retire (t.compareR d w (fun i => rel (x i) (y i)) (fun i => cmpFlags ordered (x i) (y i))) (len2 a b))

/-- R204: a predicated lane operation on one source of FP32 lanes. -/
def State.vfp1 (s : State) (d : Fin 32) (a : Opnd) (f : Num → FRes) : Result :=
  let t := s.me
  let x := t.opV .f32 a
  .next (s.retire (t.lanesR d 4 (fun i => f (Fmt.f32.decode (lane x 4 i)))) (len1 a))

/-- R204: a predicated lane operation on the bits of one source. -/
def State.vbits (s : State) (d : Fin 32) (a : Opnd) (lt : FType) (f : Fmt → Nat → Nat) : Result :=
  let t := s.me
  let w := ftBytes lt
  let x := t.opV (ftLt lt) a
  .next (s.retire (t.lanesI d w (fun i => f (ftFmt lt) (lane x w i))) (len1 a))

/-! ## Lane operations on patterns -/

def vAdd (f : Fmt) (rm : Rm) (x y : Nat) : FRes := f.addR rm (f.decode x) (f.decode y)
def vSub (f : Fmt) (rm : Rm) (x y : Nat) : FRes := f.subR rm (f.decode x) (f.decode y)
def vMul (f : Fmt) (rm : Rm) (x y : Nat) : FRes := f.mulR rm (f.decode x) (f.decode y)
def vMax (f : Fmt) (_rm : Rm) (x y : Nat) : FRes := f.minMax true x y
def vMin (f : Fmt) (_rm : Rm) (x y : Nat) : FRes := f.minMax false x y

/-- R204: the sign bit cleared, or inverted. -/
def clearSign (f : Fmt) (x : Nat) : Nat := x % f.signBit
def flipSign (f : Fmt) (x : Nat) : Nat := if x / f.signBit % 2 = 1 then x % f.signBit else x % f.signBit + f.signBit

def execVfadd (d : Fin 32) (a b : Opnd) (lt : FType) (s : State) : Result := s.vfp2 d a b lt (len2 a b) vAdd
def execVfsub (d : Fin 32) (a b : Opnd) (lt : FType) (s : State) : Result := s.vfp2 d a b lt (len2 a b) vSub
def execVfmul (d : Fin 32) (a b : Opnd) (lt : FType) (s : State) : Result := s.vfp2 d a b lt (len2 a b) vMul
def execVfmax (d : Fin 32) (a b : Opnd) (lt : FType) (s : State) : Result := s.vfp2 d a b lt (len2 a b) vMax
def execVfmin (d : Fin 32) (a b : Opnd) (lt : FType) (s : State) : Result := s.vfp2 d a b lt (len2 a b) vMin

/-- R203: VFMA reads d as its addend. -/
def execVfma (d : Fin 32) (a b : Opnd) (lt : FType) (s : State) : Result :=
  let t := s.me
  let f := ftFmt lt
  let w := ftBytes lt
  let x (i : Nat) : Num := f.decode (lane (t.opV (ftLt lt) a) w i)
  let y (i : Nat) : Num := f.decode (lane (t.opV (ftLt lt) b) w i)
  let z (i : Nat) : Num := f.decode (lane (t.getV d) w i)
  .next (s.retire (t.lanesR d w (fun i => f.fmaR (rmOf t.fmode) (x i) (y i) (z i))) (len2 a b))

def execVfcmpEq (d : Fin 8) (a b : Opnd) (lt : FType) (s : State) : Result := s.vfcmp d a b lt Num.eq false
def execVfcmpLt (d : Fin 8) (a b : Opnd) (lt : FType) (s : State) : Result := s.vfcmp d a b lt Num.lt true
def execVfcmpLe (d : Fin 8) (a b : Opnd) (lt : FType) (s : State) : Result := s.vfcmp d a b lt Num.le true
def execVfcmpUn (d : Fin 8) (a b : Opnd) (lt : FType) (s : State) : Result :=
  s.vfcmp d a b lt (fun x y => x.isNan || y.isNan) false

def execVfexp2 (d : Fin 32) (a : Opnd) (s : State) : Result := s.vfp1 d a exp2R
def execVfrcp (d : Fin 32) (a : Opnd) (s : State) : Result := s.vfp1 d a rcpR
def execVfrsq (d : Fin 32) (a : Opnd) (s : State) : Result := s.vfp1 d a rsqR
def execVflog2 (d : Fin 32) (a : Opnd) (s : State) : Result := s.vfp1 d a log2R
def execVfabs (d : Fin 32) (a : Opnd) (lt : FType) (s : State) : Result := s.vbits d a lt clearSign
def execVfneg (d : Fin 32) (a : Opnd) (lt : FType) (s : State) : Result := s.vbits d a lt flipSign

/-! ## The 16-bit forms: d and a are vd, b is vs, the type is FP32 (Table 10.2) -/

def execVfadd16 (d b : Fin 32) (s : State) : Result := s.vfp2 d (.reg d) (.reg b) .f32 2 vAdd
def execVfsub16 (d b : Fin 32) (s : State) : Result := s.vfp2 d (.reg d) (.reg b) .f32 2 vSub
def execVfmul16 (d b : Fin 32) (s : State) : Result := s.vfp2 d (.reg d) (.reg b) .f32 2 vMul
def execVfmax16 (d b : Fin 32) (s : State) : Result := s.vfp2 d (.reg d) (.reg b) .f32 2 vMax
def execVfmin16 (d b : Fin 32) (s : State) : Result := s.vfp2 d (.reg d) (.reg b) .f32 2 vMin

end Sys2Proof.Machine
end

