-- ==== Sys2Proof/Machine/VecInt.lean ====
section
/-! DEFINITION. Vector integer instructions, major 0x11 (R205), and the integer 16-bit forms (R206). -/

namespace Sys2Proof.Machine

/-- R205: a predicated lane operation on two sources; f is given the lane's width in bits. -/
def State.vint2 (s : State) (d : Fin 32) (a b : Opnd) (w : Width) (len : Nat) (f : Nat → Nat → Nat → Nat) : Result :=
  let t := s.me
  let n := widthBytes w
  let x := t.opV (widthLt w) a
  let y := t.opV (widthLt w) b
  .next (s.retire (t.lanesI d n (fun i => f (8 * n) (lane x n i) (lane y n i))) len)

/-- R205: a compare of lanes into a mask. -/
def State.vicmp (s : State) (d : Fin 8) (a b : Opnd) (w : Width) (rel : Nat → Nat → Nat → Bool) : Result :=
  let t := s.me
  let n := widthBytes w
  let x := t.opV (widthLt w) a
  let y := t.opV (widthLt w) b
  .next (s.retire (t.compareR d n (fun i => rel (8 * n) (lane x n i) (lane y n i)) (fun _ => 0)) (len2 a b))

/-! ## Lane results of n bits (Table 13.6) -/

def iAdd (_n x y : Nat) : Nat := x + y
def iSub (n x y : Nat) : Nat := x + (2 ^ n - y % 2 ^ n)
def iMul (_n x y : Nat) : Nat := x * y
def iMin (n x y : Nat) : Nat := if sext n y < sext n x then y else x
def iMax (n x y : Nat) : Nat := if sext n x < sext n y then y else x
def iAnd (_n x y : Nat) : Nat := x &&& y
def iOr (_n x y : Nat) : Nat := x ||| y
def iXor (_n x y : Nat) : Nat := x ^^^ y
def iShl (n x y : Nat) : Nat := x * 2 ^ (y % n)
def iShr (n x y : Nat) : Nat := x % 2 ^ n / 2 ^ (y % n)
def iShra (n x y : Nat) : Nat := ofSigned n (sext n x / (2 ^ (y % n) : Nat))
def iMov (_n _x y : Nat) : Nat := y

def execVadd (d : Fin 32) (a b : Opnd) (w : Width) (s : State) : Result := s.vint2 d a b w (len2 a b) iAdd
def execVsub (d : Fin 32) (a b : Opnd) (w : Width) (s : State) : Result := s.vint2 d a b w (len2 a b) iSub
def execVmul (d : Fin 32) (a b : Opnd) (w : Width) (s : State) : Result := s.vint2 d a b w (len2 a b) iMul
def execVmin (d : Fin 32) (a b : Opnd) (w : Width) (s : State) : Result := s.vint2 d a b w (len2 a b) iMin
def execVmax (d : Fin 32) (a b : Opnd) (w : Width) (s : State) : Result := s.vint2 d a b w (len2 a b) iMax
def execVand (d : Fin 32) (a b : Opnd) (w : Width) (s : State) : Result := s.vint2 d a b w (len2 a b) iAnd
def execVor (d : Fin 32) (a b : Opnd) (w : Width) (s : State) : Result := s.vint2 d a b w (len2 a b) iOr
def execVxor (d : Fin 32) (a b : Opnd) (w : Width) (s : State) : Result := s.vint2 d a b w (len2 a b) iXor
def execVshl (d : Fin 32) (a b : Opnd) (w : Width) (s : State) : Result := s.vint2 d a b w (len2 a b) iShl
def execVshr (d : Fin 32) (a b : Opnd) (w : Width) (s : State) : Result := s.vint2 d a b w (len2 a b) iShr
def execVshra (d : Fin 32) (a b : Opnd) (w : Width) (s : State) : Result := s.vint2 d a b w (len2 a b) iShra
def execVcmpEq (d : Fin 8) (a b : Opnd) (w : Width) (s : State) : Result := s.vicmp d a b w (fun _ x y => decide (x = y))
def execVcmpLt (d : Fin 8) (a b : Opnd) (w : Width) (s : State) : Result :=
  s.vicmp d a b w (fun n x y => decide (sext n x < sext n y))

/-- R205: VSEL reads d. -/
def execVsel (d : Fin 32) (a b : Opnd) (w : Width) (s : State) : Result :=
  let t := s.me
  let n := widthBytes w
  let x := t.opV (widthLt w) a
  let y := t.opV (widthLt w) b
  .next (s.retire (t.lanesI d n (fun i => if lane (t.getV d) n i ≠ 0 then lane x n i else lane y n i)) (len2 a b))

/-- R205: VMOV copies b. -/
def execVmov (d : Fin 32) (b : Opnd) (w : Width) (s : State) : Result := s.vint2 d b b w (len1 b) iMov

/-- R205: VBCAST copies the low bits of a scalar. -/
def execVbcast (d : Fin 32) (b : Opnd) (w : Width) (s : State) : Result :=
  let t := s.me
  .next (s.retire (t.lanesI d (widthBytes w) (fun _ => (t.opX b).toNat)) (len1 b))

/-! ## The 16-bit forms: d and a are vd, b is vs, the width is 4 bytes (Table 10.2) -/

def State.vint16 (s : State) (d b : Fin 32) (f : Nat → Nat → Nat → Nat) : Result := s.vint2 d (.reg d) (.reg b) .w4 2 f

def execVadd16 (d b : Fin 32) (s : State) : Result := s.vint16 d b iAdd
def execVsub16 (d b : Fin 32) (s : State) : Result := s.vint16 d b iSub
def execVmul16 (d b : Fin 32) (s : State) : Result := s.vint16 d b iMul
def execVand16 (d b : Fin 32) (s : State) : Result := s.vint16 d b iAnd
def execVor16 (d b : Fin 32) (s : State) : Result := s.vint16 d b iOr
def execVxor16 (d b : Fin 32) (s : State) : Result := s.vint16 d b iXor
def execVshl16 (d b : Fin 32) (s : State) : Result := s.vint16 d b iShl
def execVshr16 (d b : Fin 32) (s : State) : Result := s.vint16 d b iShr
def execVshra16 (d b : Fin 32) (s : State) : Result := s.vint16 d b iShra
def execVmax16 (d b : Fin 32) (s : State) : Result := s.vint16 d b iMax
def execVmov16 (d b : Fin 32) (s : State) : Result := s.vint16 d b iMov

end Sys2Proof.Machine
end

