-- ==== Sys2Proof/Machine/VecPerm.lean ====
section
/-! DEFINITION. Permutes, reductions and scans, major 0x13 (R214, R215, R102), and masks, major 0x17 (R220). -/

namespace Sys2Proof.Machine

/-- R214: VPERM. -/
def execVperm (d : Fin 32) (a b : Opnd) (lt : LType) (s : State) : Result :=
  let t := s.me
  let w := lt.bytes
  let x := t.opV lt a
  let y := t.opV lt b
  .next (s.retire (t.lanesI d w (fun i => lane x w (lane y w i % (64 / w)))) (len2 a b))

/-- R214: VSHUF. -/
def execVshuf (d : Fin 32) (a b : Opnd) (lt : LType) (s : State) : Result :=
  let t := s.me
  let w := lt.bytes
  let x := t.opV lt a
  let y := t.opV lt b
  .next (s.retire (t.lanesI d w (fun i => if i % 2 = 0 then lane x w (i / 2) else lane y w (i / 2))) (len2 a b))

/-- R214: VEXTR. -/
def execVextr (d : Fin 32) (a b : Opnd) (lt : LType) (s : State) : Result :=
  let t := s.me
  let w := lt.bytes
  let v := lane (t.opV lt a) w ((t.opX b).toNat % (64 / w))
  let r : Word := match ltFmt? lt with
    | some _ => BitVec.ofNat 64 v
    | none => BitVec.ofInt 64 (sext (8 * w) v)
  .next (s.retire (t.setX d r) (len2 a b))

/-- R214: VINS; inactive lanes take a. -/
def execVins (d : Fin 32) (a b : Opnd) (lt : LType) (s : State) : Result :=
  let t := s.me
  let w := lt.bytes
  let x := t.opV lt a
  let m0 := t.getM 0
  .next (s.retire (t.setV d (vecOf w (fun i => if active m0 w i then (t.opX b).toNat else lane x w i))) (len2 a b))

/-! ## Reductions -/

/-- R102: one step of a reduction or scan in a format. -/
def fpStep (op : RedOp) (f : Fmt) (rm : Rm) (x y : Nat) : FRes :=
  match op with
  | .sum => f.addR rm (f.decode x) (f.decode y)
  | .max => f.minMax true x y
  | .min => f.minMax false x y

/-- R102: identity(op) of a format. -/
def fpIdentity (op : RedOp) (f : Fmt) (rm : Rm) : Nat :=
  match op with
  | .sum => f.signed (decide (rm ≠ .rdn)) 0
  | .max => if f.hasInf then f.signed true (f.maxFin + 1) else f.canon
  | .min => if f.hasInf then f.maxFin + 1 else f.canon

/-- R102: one step on n-bit integers. -/
def intStep (op : RedOp) (n x y : Nat) : Nat :=
  match op with
  | .sum => (x + y) % 2 ^ n
  | .max => if sext n x < sext n y then y else x
  | .min => if sext n y < sext n x then y else x

/-- R102: identity(op) of n-bit integers. -/
def intIdentity (op : RedOp) (n : Nat) : Nat :=
  match op with
  | .sum => 0
  | .max => 2 ^ (n - 1)
  | .min => 2 ^ (n - 1) - 1

/-- R102: one level of the tree: lane i := op(lane i, lane i + h) for the h pairs of a list of 2h lanes. -/
def treeLevel (step : Nat → Nat → FRes) (l : List Nat) : List FRes :=
  let h := l.length / 2
  List.zipWith step (l.take h) (l.drop h)

/-- R102: the tree over 2^n lanes, with the flags of its steps. -/
def tree (step : Nat → Nat → FRes) : Nat → List Nat → FRes
  | 0, l => ⟨l.headD 0, 0⟩
  | n + 1, l =>
    let r := treeLevel step l
    let t := tree step n (r.map FRes.bits)
    ⟨t.bits, t.fl ||| r.foldl (fun acc q => acc ||| q.fl) 0⟩

/-- R102: a lane widened exactly to FP32. -/
def widen (f : Fmt) (x : Nat) : FRes :=
  let v := f.decode x
  ⟨(Fmt.f32.pack .rne false v).bits, nvIf v.isSig⟩

/-- R215: VRED's result and flags. -/
def reduce (op : RedOp) (lt : LType) (rm : Rm) (m0 : Word32) (v : Vec) : FRes :=
  let w := lt.bytes
  let n := 64 / w
  let depth := Nat.log2 n
  match ltFmt? lt with
  | some f =>
    let ws : List FRes := (List.range n).map (fun i =>
      if active m0 w i then (if w = 4 then ⟨lane v w i, 0⟩ else widen f (lane v w i)) else ⟨fpIdentity op .f32 rm, 0⟩)
    let r := tree (fpStep op .f32 rm) depth (ws.map FRes.bits)
    ⟨r.bits, r.fl ||| ws.foldl (fun acc q => acc ||| q.fl) 0⟩
  | none =>
    let r := tree (fun x y => ⟨intStep op (8 * w) x y, 0⟩) depth
      ((List.range n).map (fun i => if active m0 w i then lane v w i else intIdentity op (8 * w)))
    ⟨ofSigned 32 (sext (8 * w) r.bits), 0⟩

/-- R215: VRED. -/
def execVred (d : Fin 32) (a : Opnd) (red : RedOp) (lt : LType) (s : State) : Result :=
  let t := s.me
  let r := reduce red lt (rmOf t.fmode) (t.getM 0) (t.opV lt a)
  .next (s.retire ((t.setV d (BitVec.ofNat 512 r.bits)).accrue r.fl) (len1 a))

/-- R102: the inclusive scan, each result from the one before. -/
def scanFrom (step : Nat → Nat → FRes) (prev : Nat) : List Nat → List FRes
  | [] => []
  | x :: t =>
    let r := step prev x
    r :: scanFrom step r.bits t

/-- R215, R102: the lanes of VSCAN. -/
def scanLanes (op : RedOp) (lt : LType) (rm : Rm) (m0 : Word32) (v : Vec) : List FRes :=
  let w := lt.bytes
  let (step, ident) : (Nat → Nat → FRes) × Nat := match ltFmt? lt with
    | some f => (fpStep op f rm, fpIdentity op f rm)
    | none => (fun x y => ⟨intStep op (8 * w) x y, 0⟩, intIdentity op (8 * w))
  match (List.range (64 / w)).map (fun i => if active m0 w i then lane v w i else ident) with
  | [] => []
  | x :: t => ⟨x, 0⟩ :: scanFrom step x t

/-- R215: VSCAN. -/
def execVscan (d : Fin 32) (a : Opnd) (red : RedOp) (lt : LType) (s : State) : Result :=
  let t := s.me
  let ls := scanLanes red lt (rmOf t.fmode) (t.getM 0) (t.opV lt a)
  .next (s.retire ((t.setV d (vecOf lt.bytes (fun i => (ls.getD i ⟨0, 0⟩).bits))).accrue
    (ls.foldl (fun acc q => acc ||| q.fl) 0)) (len1 a))

/-! ## Masks -/

/-- R220: the number of set bits, and the place of the lowest one. -/
def maskCount (m : Word32) : Nat := (List.range 32).countP (fun i => bit m i)
def maskFirst (m : Word32) : Nat := ((List.range 32).find? (fun i => bit m i)).getD 32

/-- R220: a mask written whole. -/
def State.maskOp (s : State) (d : Fin 8) (v : Word32) (len : Nat) : Result := .next (s.retire (s.me.setM d v) len)

def execMset (d : Fin 8) (b : Opnd) (s : State) : Result := s.maskOp d ((s.me.opX b).setWidth 32) (len1 b)
def execMand (d : Fin 8) (a b : Opnd) (s : State) : Result := s.maskOp d (s.me.opK a &&& s.me.opK b) (len2 a b)
def execMor (d : Fin 8) (a b : Opnd) (s : State) : Result := s.maskOp d (s.me.opK a ||| s.me.opK b) (len2 a b)
def execMnot (d : Fin 8) (a : Opnd) (s : State) : Result := s.maskOp d (~~~ s.me.opK a) (len1 a)
def execMpopc (d : Fin 32) (a : Opnd) (s : State) : Result :=
  .next (s.retire (s.me.setX d (BitVec.ofNat 64 (maskCount (s.me.opK a)))) (len1 a))
def execMfirst (d : Fin 32) (a : Opnd) (s : State) : Result :=
  .next (s.retire (s.me.setX d (BitVec.ofNat 64 (maskFirst (s.me.opK a)))) (len1 a))

end Sys2Proof.Machine
end

