-- ==== Sys2Proof/Machine/Dispatch.lean ====
section
/-! DEFINITION. The meaning of every instruction and step: one arm per constructor. -/

namespace Sys2Proof.Machine

def exec (i : Instr) (s : State) : Host.Outcome State Fault Refusal :=
  match i with
  | .add _ d a b => Sys2Proof.Machine.execAdd d a b s
  | .sub _ d a b => Sys2Proof.Machine.execSub d a b s
  | .and _ d a b => Sys2Proof.Machine.execAnd d a b s
  | .or _ d a b => Sys2Proof.Machine.execOr d a b s
  | .xor _ d a b => Sys2Proof.Machine.execXor d a b s
  | .andn _ d a b => Sys2Proof.Machine.execAndn d a b s
  | .min _ d a b => Sys2Proof.Machine.execMin d a b s
  | .max _ d a b => Sys2Proof.Machine.execMax d a b s
  | .minu _ d a b => Sys2Proof.Machine.execMinu d a b s
  | .maxu _ d a b => Sys2Proof.Machine.execMaxu d a b s
  | .li _ d b => Sys2Proof.Machine.execLi d b s
  | .mul _ d a b => Sys2Proof.Machine.execMul d a b s
  | .mulh _ d a b => Sys2Proof.Machine.execMulh d a b s
  | .mulhu _ d a b => Sys2Proof.Machine.execMulhu d a b s
  | .div _ d a b => Sys2Proof.Machine.execDiv d a b s
  | .divu _ d a b => Sys2Proof.Machine.execDivu d a b s
  | .rem _ d a b => Sys2Proof.Machine.execRem d a b s
  | .remu _ d a b => Sys2Proof.Machine.execRemu d a b s
  | .sll _ d a b => Sys2Proof.Machine.execSll d a b s
  | .srl _ d a b => Sys2Proof.Machine.execSrl d a b s
  | .sra _ d a b => Sys2Proof.Machine.execSra d a b s
  | .clz _ d a => Sys2Proof.Machine.execClz d a s
  | .ctz _ d a => Sys2Proof.Machine.execCtz d a s
  | .popc _ d a => Sys2Proof.Machine.execPopc d a s
  | .exts _ d a b => Sys2Proof.Machine.execExts d a b s
  | .extz _ d a b => Sys2Proof.Machine.execExtz d a b s
  | .bfext _ d a b => Sys2Proof.Machine.execBfext d a b s
  | .bfins _ d a b => Sys2Proof.Machine.execBfins d a b s
  | .seq _ d a b => Sys2Proof.Machine.execSeq d a b s
  | .slt _ d a b => Sys2Proof.Machine.execSlt d a b s
  | .sltu _ d a b => Sys2Proof.Machine.execSltu d a b s
  | .sel _ d a b => Sys2Proof.Machine.execSel d a b s
  | .lea _ d b => Sys2Proof.Machine.execLea d b s
  | .apcvt _ d a b => Sys2Proof.Machine.execApcvt d a b s
  | .aptest _ d a => Sys2Proof.Machine.execAptest d a s
  | .beq _ a b off => Sys2Proof.Machine.execBeq a b off s
  | .bne _ a b off => Sys2Proof.Machine.execBne a b off s
  | .blt _ a b off => Sys2Proof.Machine.execBlt a b off s
  | .bge _ a b off => Sys2Proof.Machine.execBge a b off s
  | .bltu _ a b off => Sys2Proof.Machine.execBltu a b off s
  | .bgeu _ a b off => Sys2Proof.Machine.execBgeu a b off s
  | .jal _ a b off => Sys2Proof.Machine.execJal a b off s
  | .jalr _ a b off => Sys2Proof.Machine.execJalr a b off s
  | .j _ off => Sys2Proof.Machine.execJ off s
  | .csrr k d csr => Sys2Proof.Machine.execCsrr k d csr s
  | .csrw k d csr => Sys2Proof.Machine.execCsrw k d csr s
  | .csrs k d csr => Sys2Proof.Machine.execCsrs k d csr s
  | .csrc k d csr => Sys2Proof.Machine.execCsrc k d csr s
  | .lb _ d base off => Sys2Proof.Machine.execLb d base off s
  | .lbu _ d base off => Sys2Proof.Machine.execLbu d base off s
  | .lh _ d base off => Sys2Proof.Machine.execLh d base off s
  | .lhu _ d base off => Sys2Proof.Machine.execLhu d base off s
  | .lw _ d base off => Sys2Proof.Machine.execLw d base off s
  | .lwu _ d base off => Sys2Proof.Machine.execLwu d base off s
  | .ld _ d base off => Sys2Proof.Machine.execLd d base off s
  | .sb _ d base off => Sys2Proof.Machine.execSb d base off s
  | .sh _ d base off => Sys2Proof.Machine.execSh d base off s
  | .sw _ d base off => Sys2Proof.Machine.execSw d base off s
  | .sd _ d base off => Sys2Proof.Machine.execSd d base off s
  | .loadAcquire _ d a scope kind => Sys2Proof.Machine.execLoadAcquire d a scope kind s
  | .storeRelease _ d a scope kind => Sys2Proof.Machine.execStoreRelease d a scope kind s
  | .fence _ scope => Sys2Proof.Machine.execFence scope s
  | .fenceX _ => Sys2Proof.Machine.execFenceX s
  | .amoadd _ d a b ord => Sys2Proof.Machine.execAmoadd d a b ord s
  | .amoand _ d a b ord => Sys2Proof.Machine.execAmoand d a b ord s
  | .amoor _ d a b ord => Sys2Proof.Machine.execAmoor d a b ord s
  | .amoxor _ d a b ord => Sys2Proof.Machine.execAmoxor d a b ord s
  | .amomin _ d a b ord => Sys2Proof.Machine.execAmomin d a b ord s
  | .amomax _ d a b ord => Sys2Proof.Machine.execAmomax d a b ord s
  | .amominu _ d a b ord => Sys2Proof.Machine.execAmominu d a b ord s
  | .amomaxu _ d a b ord => Sys2Proof.Machine.execAmomaxu d a b ord s
  | .amoswap _ d a b ord => Sys2Proof.Machine.execAmoswap d a b ord s
  | .amocas _ d a b ord => Sys2Proof.Machine.execAmocas d a b ord s
  | .amofadd _ d a b ord => Sys2Proof.Machine.execAmofadd d a b ord s
  | .tld _ d a => Sys2Proof.Machine.execTld d a s
  | .tst _ a b => Sys2Proof.Machine.execTst a b s
  | .tcas _ d a b => Sys2Proof.Machine.execTcas d a b s
  | .ttabWr _ a b => Sys2Proof.Machine.execTtabWr a b s
  | .ttabRd _ d a => Sys2Proof.Machine.execTtabRd d a s
  | .ttabSwap _ a => Sys2Proof.Machine.execTtabSwap a s
  | .msend _ a b => Sys2Proof.Machine.execMsend a b s
  | .mrecv _ d => Sys2Proof.Machine.execMrecv d s
  | .mpoll _ d => Sys2Proof.Machine.execMpoll d s
  | .mloop _ d a => Sys2Proof.Machine.execMloop d a s
  | .mcount _ d => Sys2Proof.Machine.execMcount d s
  | .sigEmit _ a b => Sys2Proof.Machine.execSigEmit a b s
  | .sigSkip _ a => Sys2Proof.Machine.execSigSkip a s
  | .sigTest _ d a => Sys2Proof.Machine.execSigTest d a s
  | .sigVal _ d a => Sys2Proof.Machine.execSigVal d a s
  | .bpres _ a b => Sys2Proof.Machine.execBpres a b s
  | .babs _ a b => Sys2Proof.Machine.execBabs a b s
  | .pause _ => Sys2Proof.Machine.execPause s
  | .dset _ d b => Sys2Proof.Machine.execDset d b s
  | .dget _ d a => Sys2Proof.Machine.execDget d a s
  | .irec _ d b => Sys2Proof.Machine.execIrec d b s
  | .xsendAt _ a b => Sys2Proof.Machine.execXsendAt a b s
  | .xend _ => Sys2Proof.Machine.execXend s
  | .xslot _ d => Sys2Proof.Machine.execXslot d s
  | .vfadd _ d a b lt => Sys2Proof.Machine.execVfadd d a b lt s
  | .vfsub _ d a b lt => Sys2Proof.Machine.execVfsub d a b lt s
  | .vfmul _ d a b lt => Sys2Proof.Machine.execVfmul d a b lt s
  | .vfma _ d a b lt => Sys2Proof.Machine.execVfma d a b lt s
  | .vfmax _ d a b lt => Sys2Proof.Machine.execVfmax d a b lt s
  | .vfmin _ d a b lt => Sys2Proof.Machine.execVfmin d a b lt s
  | .vfcmpEq _ d a b lt => Sys2Proof.Machine.execVfcmpEq d a b lt s
  | .vfcmpLt _ d a b lt => Sys2Proof.Machine.execVfcmpLt d a b lt s
  | .vadd _ d a b w => Sys2Proof.Machine.execVadd d a b w s
  | .vsub _ d a b w => Sys2Proof.Machine.execVsub d a b w s
  | .vmul _ d a b w => Sys2Proof.Machine.execVmul d a b w s
  | .vmin _ d a b w => Sys2Proof.Machine.execVmin d a b w s
  | .vmax _ d a b w => Sys2Proof.Machine.execVmax d a b w s
  | .vand _ d a b w => Sys2Proof.Machine.execVand d a b w s
  | .vor _ d a b w => Sys2Proof.Machine.execVor d a b w s
  | .vxor _ d a b w => Sys2Proof.Machine.execVxor d a b w s
  | .vshl _ d a b w => Sys2Proof.Machine.execVshl d a b w s
  | .vshr _ d a b w => Sys2Proof.Machine.execVshr d a b w s
  | .vshra _ d a b w => Sys2Proof.Machine.execVshra d a b w s
  | .vcmpEq _ d a b w => Sys2Proof.Machine.execVcmpEq d a b w s
  | .vcmpLt _ d a b w => Sys2Proof.Machine.execVcmpLt d a b w s
  | .vsel _ d a b w => Sys2Proof.Machine.execVsel d a b w s
  | .vmov _ d b w => Sys2Proof.Machine.execVmov d b w s
  | .vbcast _ d b w => Sys2Proof.Machine.execVbcast d b w s
  | .vfadd16 _ d s0 => Sys2Proof.Machine.execVfadd16 d s0 s
  | .vfsub16 _ d s0 => Sys2Proof.Machine.execVfsub16 d s0 s
  | .vfmul16 _ d s0 => Sys2Proof.Machine.execVfmul16 d s0 s
  | .vfmax16 _ d s0 => Sys2Proof.Machine.execVfmax16 d s0 s
  | .vfmin16 _ d s0 => Sys2Proof.Machine.execVfmin16 d s0 s
  | .vadd16 _ d s0 => Sys2Proof.Machine.execVadd16 d s0 s
  | .vsub16 _ d s0 => Sys2Proof.Machine.execVsub16 d s0 s
  | .vmul16 _ d s0 => Sys2Proof.Machine.execVmul16 d s0 s
  | .vand16 _ d s0 => Sys2Proof.Machine.execVand16 d s0 s
  | .vor16 _ d s0 => Sys2Proof.Machine.execVor16 d s0 s
  | .vxor16 _ d s0 => Sys2Proof.Machine.execVxor16 d s0 s
  | .vshl16 _ d s0 => Sys2Proof.Machine.execVshl16 d s0 s
  | .vshr16 _ d s0 => Sys2Proof.Machine.execVshr16 d s0 s
  | .vshra16 _ d s0 => Sys2Proof.Machine.execVshra16 d s0 s
  | .vmax16 _ d s0 => Sys2Proof.Machine.execVmax16 d s0 s
  | .vmov16 _ d s0 => Sys2Proof.Machine.execVmov16 d s0 s
  | .vcvt _ d a src t => Sys2Proof.Machine.execVcvt d a src t s
  | .vquant _ d a b pk => Sys2Proof.Machine.execVquant d a b pk s
  | .vdeq _ d a b pk => Sys2Proof.Machine.execVdeq d a b pk s
  | .vpack _ d a b t => Sys2Proof.Machine.execVpack d a b t s
  | .vunpack _ d a part t => Sys2Proof.Machine.execVunpack d a part t s
  | .vperm _ d a b lt => Sys2Proof.Machine.execVperm d a b lt s
  | .vshuf _ d a b lt => Sys2Proof.Machine.execVshuf d a b lt s
  | .vred _ d a red lt => Sys2Proof.Machine.execVred d a red lt s
  | .vscan _ d a red lt => Sys2Proof.Machine.execVscan d a red lt s
  | .vextr _ d a b lt => Sys2Proof.Machine.execVextr d a b lt s
  | .vins _ d a b lt => Sys2Proof.Machine.execVins d a b lt s
  | .vld _ d a b e col => Sys2Proof.Machine.execVld d a b e col s
  | .vst _ d a b e col => Sys2Proof.Machine.execVst d a b e col s
  | .vlds _ d a b e => Sys2Proof.Machine.execVlds d a b e s
  | .vsts _ d a b e => Sys2Proof.Machine.execVsts d a b e s
  | .vldx _ d a b e => Sys2Proof.Machine.execVldx d a b e s
  | .vstx _ d a b e => Sys2Proof.Machine.execVstx d a b e s
  | .sgCfg _ d a b => Sys2Proof.Machine.execSgCfg d a b s
  | .sgIdx _ d a => Sys2Proof.Machine.execSgIdx d a s
  | .sgStop _ a => Sys2Proof.Machine.execSgStop a s
  | .sread _ d a => Sys2Proof.Machine.execSread d a s
  | .swrite _ d a => Sys2Proof.Machine.execSwrite d a s
  | .rep _ a b => Sys2Proof.Machine.execRep a b s
  | .vfexp2 _ d a => Sys2Proof.Machine.execVfexp2 d a s
  | .vfrcp _ d a => Sys2Proof.Machine.execVfrcp d a s
  | .vfrsq _ d a => Sys2Proof.Machine.execVfrsq d a s
  | .vflog2 _ d a => Sys2Proof.Machine.execVflog2 d a s
  | .vfabs _ d a lt => Sys2Proof.Machine.execVfabs d a lt s
  | .vfneg _ d a lt => Sys2Proof.Machine.execVfneg d a lt s
  | .vfcmpLe _ d a b lt => Sys2Proof.Machine.execVfcmpLe d a b lt s
  | .vfcmpUn _ d a b lt => Sys2Proof.Machine.execVfcmpUn d a b lt s
  | .mset _ d b => Sys2Proof.Machine.execMset d b s
  | .mand _ d a b => Sys2Proof.Machine.execMand d a b s
  | .mor _ d a b => Sys2Proof.Machine.execMor d a b s
  | .mnot _ d a => Sys2Proof.Machine.execMnot d a s
  | .mpopc _ d a => Sys2Proof.Machine.execMpopc d a s
  | .mfirst _ d a => Sys2Proof.Machine.execMfirst d a s
  | .mxCfg _ a b mf => Sys2Proof.Machine.execMxCfg a b mf s
  | .mxLdw _ a b => Sys2Proof.Machine.execMxLdw a b s
  | .mxSwap _ => Sys2Proof.Machine.execMxSwap s
  | .mxDup _ a => Sys2Proof.Machine.execMxDup a s
  | .mxStream _ d a b => Sys2Proof.Machine.execMxStream d a b s
  | .mxZero _ d => Sys2Proof.Machine.execMxZero d s
  | .mxDrain _ d a b => Sys2Proof.Machine.execMxDrain d a b s
  | .dret _ => Sys2Proof.Machine.execDret s
  | .mxWait _ => Sys2Proof.Machine.execMxWait s
  | .attnQld _ a b => Sys2Proof.Machine.execAttnQld a b s
  | .attnRun _ a b => Sys2Proof.Machine.execAttnRun a b s
  | .attnMerge _ a => Sys2Proof.Machine.execAttnMerge a s
  | .attnFin _ a b => Sys2Proof.Machine.execAttnFin a b s
  | .attnSt _ a => Sys2Proof.Machine.execAttnSt a s
  | .cmAppend _ a => Sys2Proof.Machine.execCmAppend a s
  | .cmFill _ d a b => Sys2Proof.Machine.execCmFill d a b s
  | .cmFree _ d a b => Sys2Proof.Machine.execCmFree d a b s
  | .cmLookup _ d a b => Sys2Proof.Machine.execCmLookup d a b s
  | .cmShare _ d a => Sys2Proof.Machine.execCmShare d a s
  | .cmInval _ => Sys2Proof.Machine.execCmInval s
  | .xfGo _ d => Sys2Proof.Machine.execXfGo d s
  | .xfCancel _ d a => Sys2Proof.Machine.execXfCancel d a s
  | .yield _ => Sys2Proof.Machine.execYield s
  | .nexit _ => Sys2Proof.Machine.execNexit s
  | .phint _ a b => Sys2Proof.Machine.execPhint a b s
  | .uiret _ => Sys2Proof.Machine.execUiret s
  | .fadd _ d a b p => Sys2Proof.Machine.execFadd d a b p s
  | .fsub _ d a b p => Sys2Proof.Machine.execFsub d a b p s
  | .fmul _ d a b p => Sys2Proof.Machine.execFmul d a b p s
  | .ffma _ d a b p => Sys2Proof.Machine.execFfma d a b p s
  | .fdiv _ d a b p => Sys2Proof.Machine.execFdiv d a b p s
  | .fsqrt _ d a p => Sys2Proof.Machine.execFsqrt d a p s
  | .fmin _ d a b p => Sys2Proof.Machine.execFmin d a b p s
  | .fmax _ d a b p => Sys2Proof.Machine.execFmax d a b p s
  | .fcmpEq _ d a b p => Sys2Proof.Machine.execFcmpEq d a b p s
  | .fcmpLt _ d a b p => Sys2Proof.Machine.execFcmpLt d a b p s
  | .fcmpLe _ d a b p => Sys2Proof.Machine.execFcmpLe d a b p s
  | .fcvtPrecision _ d a p => Sys2Proof.Machine.execFcvtPrecision d a p s
  | .fcvtToInt _ d a p => Sys2Proof.Machine.execFcvtToInt d a p s
  | .fcvtFromInt _ d a p => Sys2Proof.Machine.execFcvtFromInt d a p s
  | .ecall _ => Sys2Proof.Machine.execEcall s
  | .ebreak _ => Sys2Proof.Machine.execEbreak s
  | .mret k => Sys2Proof.Machine.execMret k s
  | .sret k => Sys2Proof.Machine.execSret k s
  | .wfi k => Sys2Proof.Machine.execWfi k s
  | .tlbWr k d a b => Sys2Proof.Machine.execTlbWr k d a b s
  | .tlbInv k d a b => Sys2Proof.Machine.execTlbInv k d a b s
  | .xlateDrain k a b => Sys2Proof.Machine.execXlateDrain k a b s
  | .mxSave k a => Sys2Proof.Machine.execMxSave k a s
  | .mxLoad k d a => Sys2Proof.Machine.execMxLoad k d a s
  | .ctxHalt k d a b => Sys2Proof.Machine.execCtxHalt k d a b s
  | .ctxSave k d a b => Sys2Proof.Machine.execCtxSave k d a b s
  | .registerWrite core th csr v => Sys2Proof.Machine.execRegisterWrite core th csr v s
  | .tagmapWrite core reg v => Sys2Proof.Machine.execTagmapWrite core reg v s
  | .bankfmtWrite core bank v => Sys2Proof.Machine.execBankfmtWrite core bank v s
  | .remoteAccessArrival id => Sys2Proof.Machine.execRemoteAccessArrival id s
  | .storeAcknowledge id refused => Sys2Proof.Machine.execStoreAcknowledge id refused s
  | .parkRecheck place bank => Sys2Proof.Machine.execParkRecheck place bank s
  | .heldAccessRecheck id => Sys2Proof.Machine.execHeldAccessRecheck id s
  | .inboxArrival id => Sys2Proof.Machine.execInboxArrival id s
  | .spillWake core => Sys2Proof.Machine.execSpillWake core s
  | .userInterruptEntry core th => Sys2Proof.Machine.execUserInterruptEntry core th s
  | .interruptTake core th => Sys2Proof.Machine.execInterruptTake core th s
  | .trapReportDelivery hub => Sys2Proof.Machine.execTrapReportDelivery hub s
  | .resolveRetry hub => Sys2Proof.Machine.execResolveRetry hub s
  | .resolveSkip hub => Sys2Proof.Machine.execResolveSkip hub s
  | .resolveAbort hub => Sys2Proof.Machine.execResolveAbort hub s
  | .causalityCycle dom => Sys2Proof.Machine.execCausalityCycle dom s
  | .reactHalfEnd dom => Sys2Proof.Machine.execReactHalfEnd dom s
  | .exchangeHalfStart dom => Sys2Proof.Machine.execExchangeHalfStart dom s
  | .exchangeBeatSend dom => Sys2Proof.Machine.execExchangeBeatSend dom s
  | .exchangeArrival dom => Sys2Proof.Machine.execExchangeArrival dom s
  | .latch dom => Sys2Proof.Machine.execLatch dom s
  | .matrixCommandStart core => Sys2Proof.Machine.execMatrixCommandStart core s
  | .drainDispatch core => Sys2Proof.Machine.execDrainDispatch core s
  | .transferStart cluster => Sys2Proof.Machine.execTransferStart cluster s
  | .transferCompletion cluster id => Sys2Proof.Machine.execTransferCompletion cluster id s
  | .tlbMissMessage core => Sys2Proof.Machine.execTlbMissMessage core s
  | .dirtyNotice core => Sys2Proof.Machine.execDirtyNotice core s
  | .gridDeadlock gid => Sys2Proof.Machine.execGridDeadlock gid s
  | .haltWatchdog ctx => Sys2Proof.Machine.execHaltWatchdog ctx s
  | .runTimeLimit gid => Sys2Proof.Machine.execRunTimeLimit gid s
  | .notifyScan q => Sys2Proof.Machine.execNotifyScan q s
  | .periodicQueueScan q => Sys2Proof.Machine.execPeriodicQueueScan q s
  | .packetLaunch q => Sys2Proof.Machine.execPacketLaunch q s
  | .packetNop q => Sys2Proof.Machine.execPacketNop q s
  | .packetMark q => Sys2Proof.Machine.execPacketMark q s
  | .packetQueueCreate q => Sys2Proof.Machine.execPacketQueueCreate q s
  | .packetQueueDestroy q => Sys2Proof.Machine.execPacketQueueDestroy q s
  | .groupDispatch gid => Sys2Proof.Machine.execGroupDispatch gid s
  | .gridCompletion gid => Sys2Proof.Machine.execGridCompletion gid s
  | .errorEvent gid => Sys2Proof.Machine.execErrorEvent gid s
  | .saveEngine ctx => Sys2Proof.Machine.execSaveEngine ctx s
  | .restoreRequest fn image part => Sys2Proof.Machine.execRestoreRequest fn image part s
  | .scrubRead memory unit off => Sys2Proof.Machine.execScrubRead memory unit off s
  | .bankFailed core bank selfTest => Sys2Proof.Machine.execBankFailed core bank selfTest s
  | .clockStretch block => Sys2Proof.Machine.execClockStretch block s
  | .keyLoad fn owner wrapped debugKey => Sys2Proof.Machine.execKeyLoad fn owner wrapped debugKey s
  | .keyClear owner => Sys2Proof.Machine.execKeyClear owner s
  | .getVersion fn r => Sys2Proof.Machine.execGetVersion fn r s
  | .getCapabilities fn r => Sys2Proof.Machine.execGetCapabilities fn r s
  | .negotiateAlgorithms fn r => Sys2Proof.Machine.execNegotiateAlgorithms fn r s
  | .getDigests fn r => Sys2Proof.Machine.execGetDigests fn r s
  | .getCertificate fn r => Sys2Proof.Machine.execGetCertificate fn r s
  | .challenge fn r => Sys2Proof.Machine.execChallenge fn r s
  | .getMeasurements fn r => Sys2Proof.Machine.execGetMeasurements fn r s
  | .spdmUnsupportedRequest fn r => Sys2Proof.Machine.execSpdmUnsupportedRequest fn r s
  | .debugNonce => Sys2Proof.Machine.execDebugNonce s
  | .debugUnlock owner nonce signature => Sys2Proof.Machine.execDebugUnlock owner nonce signature s
  | .debugArm ctx terms => Sys2Proof.Machine.execDebugArm ctx terms s
  | .debugStop ctx interval thread count => Sys2Proof.Machine.execDebugStop ctx interval thread count s
  | .debugStopReached ctx => Sys2Proof.Machine.execDebugStopReached ctx s
  | .debugRead ctx type key => Sys2Proof.Machine.execDebugRead ctx type key s
  | .debugResume ctx => Sys2Proof.Machine.execDebugResume ctx s
  | .debugDisarm ctx => Sys2Proof.Machine.execDebugDisarm ctx s
  | .runLengthLogAppend core thread run => Sys2Proof.Machine.execRunLengthLogAppend core thread run s
  | .functionLevelReset fn => Sys2Proof.Machine.execFunctionLevelReset fn s
  | .bar2Access fn addr size write => Sys2Proof.Machine.execBar2Access fn addr size write s
  | .devidWrite v => Sys2Proof.Machine.execDevidWrite v s
  | .flitSend port vc f => Sys2Proof.Machine.execFlitSend port vc f s
  | .flitReceive port f tagOk => Sys2Proof.Machine.execFlitReceive port f tagOk s
  | .auditFlit port vc free seq => Sys2Proof.Machine.execAuditFlit port vc free seq s
  | .partclWrite n j v => Sys2Proof.Machine.execPartclWrite n j v s
  | .orbitWrite slot v => Sys2Proof.Machine.execOrbitWrite slot v s
  | .orbitUpdateApply => Sys2Proof.Machine.execOrbitUpdateApply s
  | .gdwdWrite n v => Sys2Proof.Machine.execGdwdWrite n v s
  | .partownWrite n v => Sys2Proof.Machine.execPartownWrite n v s
  | .haltwdWrite n v => Sys2Proof.Machine.execHaltwdWrite n v s
  | .bringUp cfg => Sys2Proof.Machine.execBringUp cfg s
  | .remoteAccessReply id peer => Sys2Proof.Machine.execRemoteAccessReply id peer s
  | .matrixCommandCompletion core => Sys2Proof.Machine.execMatrixCommandCompletion core s
  | .monitorTimerExpiry core => Sys2Proof.Machine.execMonitorTimerExpiry core s
  | .schedulerTimerExpiry core => Sys2Proof.Machine.execSchedulerTimerExpiry core s
  | .illegalInstruction pattern => Sys2Proof.Machine.execIllegalInstruction pattern s
  | .instructionFetchFault page value => Sys2Proof.Machine.execInstructionFetchFault page value s

end Sys2Proof.Machine
end

