-- ==== Sys2Proof/Machine/Pass.lean ====
section
/-! DEFINITION. What a thread may do while a load or atomic of it is still to be performed (R27, R109): leave it behind, and go on with the
instructions of the address stream, and those that only compute, that touch none of the registers that it will write. -/

namespace Sys2Proof

/-- The scoreboard's number of a general register and of a vector register that a source operand reads. -/
def Opnd.xs : Opnd → List Nat
  | .reg n => [n.val]
  | _ => []

def Opnd.vs : Opnd → List Nat
  | .reg n => [32 + n.val]
  | _ => []

def Opnd.nums (a : Opnd) : List Nat := a.xs ++ a.vs

end Sys2Proof

namespace Sys2Proof.Machine

/-- The scoreboard's numbers of a general register, a vector register and a generator. -/
def xNum (d : Fin 32) : Nat := d.val
def vNum (d : Fin 32) : Nat := 32 + d.val
def gNum (g : Fin 4) : Nat := 64 + g.val
def mNum (m : Fin 8) : Nat := 72 + m.val

/-- The numbers of a register whose class the instruction decides, and those of a source operand. -/
def regNums (d : Fin 32) : List Nat := [xNum d, vNum d]

/-- R27, R109, log 102: the registers and generators that an instruction reads or writes, where it may be performed before an earlier load,
atomic or stream instruction to device memory: the instructions of majors 0x00 to 0x0C but for those that read or write CSRs, table entries or
wait for commands, the vector loads and stores, the stream instructions that move elements, and the commands that a queue takes. -/
def passRegs (c : Core) (i : Instr) : Option (List Nat) :=
  match i with
  | .add _ d a b => some ([xNum d] ++ a.xs ++ b.xs)
  | .sub _ d a b => some ([xNum d] ++ a.xs ++ b.xs)
  | .and _ d a b => some ([xNum d] ++ a.xs ++ b.xs)
  | .or _ d a b => some ([xNum d] ++ a.xs ++ b.xs)
  | .xor _ d a b => some ([xNum d] ++ a.xs ++ b.xs)
  | .andn _ d a b => some ([xNum d] ++ a.xs ++ b.xs)
  | .min _ d a b => some ([xNum d] ++ a.xs ++ b.xs)
  | .max _ d a b => some ([xNum d] ++ a.xs ++ b.xs)
  | .minu _ d a b => some ([xNum d] ++ a.xs ++ b.xs)
  | .maxu _ d a b => some ([xNum d] ++ a.xs ++ b.xs)
  | .li _ d b => some ([xNum d] ++ b.xs)
  | .mul _ d a b => some ([xNum d] ++ a.xs ++ b.xs)
  | .mulh _ d a b => some ([xNum d] ++ a.xs ++ b.xs)
  | .mulhu _ d a b => some ([xNum d] ++ a.xs ++ b.xs)
  | .div _ d a b => some ([xNum d] ++ a.xs ++ b.xs)
  | .divu _ d a b => some ([xNum d] ++ a.xs ++ b.xs)
  | .rem _ d a b => some ([xNum d] ++ a.xs ++ b.xs)
  | .remu _ d a b => some ([xNum d] ++ a.xs ++ b.xs)
  | .sll _ d a b => some ([xNum d] ++ a.xs ++ b.xs)
  | .srl _ d a b => some ([xNum d] ++ a.xs ++ b.xs)
  | .sra _ d a b => some ([xNum d] ++ a.xs ++ b.xs)
  | .clz _ d a => some ([xNum d] ++ a.xs)
  | .ctz _ d a => some ([xNum d] ++ a.xs)
  | .popc _ d a => some ([xNum d] ++ a.xs)
  | .exts _ d a b => some ([xNum d] ++ a.xs ++ b.xs)
  | .extz _ d a b => some ([xNum d] ++ a.xs ++ b.xs)
  | .bfext _ d a b => some ([xNum d] ++ a.xs ++ b.xs)
  | .bfins _ d a b => some ([xNum d] ++ a.xs ++ b.xs)
  | .seq _ d a b => some ([xNum d] ++ a.xs ++ b.xs)
  | .slt _ d a b => some ([xNum d] ++ a.xs ++ b.xs)
  | .sltu _ d a b => some ([xNum d] ++ a.xs ++ b.xs)
  | .sel _ d a b => some ([xNum d] ++ a.xs ++ b.xs)
  | .lea _ d b => some ([xNum d] ++ b.xs)
  | .apcvt _ d a b => some ([xNum d] ++ a.xs ++ b.xs)
  | .aptest _ d a => some ([xNum d] ++ a.xs)
  | .beq _ a b _ => some (a.xs ++ b.xs)
  | .bne _ a b _ => some (a.xs ++ b.xs)
  | .blt _ a b _ => some (a.xs ++ b.xs)
  | .bge _ a b _ => some (a.xs ++ b.xs)
  | .bltu _ a b _ => some (a.xs ++ b.xs)
  | .bgeu _ a b _ => some (a.xs ++ b.xs)
  | .jal _ a b _ => some ([xNum a] ++ b.xs)
  | .jalr _ a b _ => some ([xNum a] ++ b.xs)
  | .j _ _ => some []
  | .lb _ d base _ => some ([xNum d] ++ base.xs)
  | .lbu _ d base _ => some ([xNum d] ++ base.xs)
  | .lh _ d base _ => some ([xNum d] ++ base.xs)
  | .lhu _ d base _ => some ([xNum d] ++ base.xs)
  | .lw _ d base _ => some ([xNum d] ++ base.xs)
  | .lwu _ d base _ => some ([xNum d] ++ base.xs)
  | .ld _ d base _ => some ([xNum d] ++ base.xs)
  | .sb _ d base _ => some (d.xs ++ base.xs)
  | .sh _ d base _ => some (d.xs ++ base.xs)
  | .sw _ d base _ => some (d.xs ++ base.xs)
  | .sd _ d base _ => some (d.xs ++ base.xs)
  | .loadAcquire _ d a _ _ => some ([xNum d] ++ a.xs)
  | .storeRelease _ d a _ _ => some (d.xs ++ a.xs)
  | .fence _ _ => some []
  | .amoadd _ d a b _ => some ([xNum d] ++ a.xs ++ b.xs)
  | .amoand _ d a b _ => some ([xNum d] ++ a.xs ++ b.xs)
  | .amoor _ d a b _ => some ([xNum d] ++ a.xs ++ b.xs)
  | .amoxor _ d a b _ => some ([xNum d] ++ a.xs ++ b.xs)
  | .amomin _ d a b _ => some ([xNum d] ++ a.xs ++ b.xs)
  | .amomax _ d a b _ => some ([xNum d] ++ a.xs ++ b.xs)
  | .amominu _ d a b _ => some ([xNum d] ++ a.xs ++ b.xs)
  | .amomaxu _ d a b _ => some ([xNum d] ++ a.xs ++ b.xs)
  | .amoswap _ d a b _ => some ([xNum d] ++ a.xs ++ b.xs)
  | .amocas _ d a b _ => some ([xNum d] ++ a.xs ++ b.xs)
  | .amofadd _ d a b _ => some ([xNum d] ++ a.xs ++ b.xs)
  | .tld _ d a => some ([xNum d] ++ a.xs)
  | .tst _ a b => some (a.xs ++ b.xs)
  | .tcas _ d a b => some ([xNum d] ++ a.xs ++ b.xs)
  | .vld _ d a b _ _ => some ([vNum d] ++ a.xs ++ b.xs)
  | .vst _ d a b _ _ => some (d.vs ++ a.xs ++ b.xs)
  | .vlds _ d a b _ => some ([vNum d] ++ a.xs ++ b.xs)
  | .vsts _ d a b _ => some (d.vs ++ a.xs ++ b.xs)
  | .vldx _ d a b _ => some ([vNum d] ++ a.xs ++ b.vs)
  | .vstx _ d a b _ => some (d.vs ++ a.xs ++ b.vs)
  | .sgIdx _ d a => some [xNum d, gNum a]
  | .sgStop _ a => some [gNum a]
  | .sread _ d a =>
    let g := c.gens[a.val]
    some ([vNum d, gNum a] ++ (if g.indirect then [gNum g.idxGen] else []))
  | .swrite _ d a => some ([gNum d] ++ a.vs)
  | .mxCfg _ a b _ => some (a.xs ++ b.xs)
  | .mxLdw _ a b => some (a.xs ++ b.xs)
  | .mxSwap _ => some []
  | .mxDup _ a => some a.xs
  | .mxStream _ _ a b => some (a.xs ++ b.xs)
  | .mxZero _ _ => some []
  | .mxDrain _ _ a b => some (a.xs ++ b.xs)
  | .attnQld _ a b => some (a.xs ++ b.xs)
  | .attnMerge _ a => some a.xs
  | .xfGo _ d => some [xNum d]
  | _ => none

/-- R27, log 102: the registers that an instruction reads or writes whose effects stay within the registers of its thread and which never traps: one
such may be executed while earlier loads are still to be performed, whatever its stream, because nothing tells whether it has been. -/
def computeRegs (i : Instr) : Option (List Nat) :=
  match i with
  | .vfadd _ d a b _ => some (regNums d ++ a.nums ++ b.nums)
  | .vfsub _ d a b _ => some (regNums d ++ a.nums ++ b.nums)
  | .vfmul _ d a b _ => some (regNums d ++ a.nums ++ b.nums)
  | .vfma _ d a b _ => some (regNums d ++ a.nums ++ b.nums)
  | .vfmax _ d a b _ => some (regNums d ++ a.nums ++ b.nums)
  | .vfmin _ d a b _ => some (regNums d ++ a.nums ++ b.nums)
  | .vfcmpEq _ d a b _ => some ([mNum d] ++ a.nums ++ b.nums)
  | .vfcmpLt _ d a b _ => some ([mNum d] ++ a.nums ++ b.nums)
  | .vadd _ d a b _ => some (regNums d ++ a.nums ++ b.nums)
  | .vsub _ d a b _ => some (regNums d ++ a.nums ++ b.nums)
  | .vmul _ d a b _ => some (regNums d ++ a.nums ++ b.nums)
  | .vmin _ d a b _ => some (regNums d ++ a.nums ++ b.nums)
  | .vmax _ d a b _ => some (regNums d ++ a.nums ++ b.nums)
  | .vand _ d a b _ => some (regNums d ++ a.nums ++ b.nums)
  | .vor _ d a b _ => some (regNums d ++ a.nums ++ b.nums)
  | .vxor _ d a b _ => some (regNums d ++ a.nums ++ b.nums)
  | .vshl _ d a b _ => some (regNums d ++ a.nums ++ b.nums)
  | .vshr _ d a b _ => some (regNums d ++ a.nums ++ b.nums)
  | .vshra _ d a b _ => some (regNums d ++ a.nums ++ b.nums)
  | .vcmpEq _ d a b _ => some ([mNum d] ++ a.nums ++ b.nums)
  | .vcmpLt _ d a b _ => some ([mNum d] ++ a.nums ++ b.nums)
  | .vsel _ d a b _ => some (regNums d ++ a.nums ++ b.nums)
  | .vmov _ d b _ => some (regNums d ++ b.nums)
  | .vbcast _ d b _ => some (regNums d ++ b.nums)
  | .vfadd16 _ d s => some (regNums d ++ regNums s)
  | .vfsub16 _ d s => some (regNums d ++ regNums s)
  | .vfmul16 _ d s => some (regNums d ++ regNums s)
  | .vfmax16 _ d s => some (regNums d ++ regNums s)
  | .vfmin16 _ d s => some (regNums d ++ regNums s)
  | .vadd16 _ d s => some (regNums d ++ regNums s)
  | .vsub16 _ d s => some (regNums d ++ regNums s)
  | .vmul16 _ d s => some (regNums d ++ regNums s)
  | .vand16 _ d s => some (regNums d ++ regNums s)
  | .vor16 _ d s => some (regNums d ++ regNums s)
  | .vxor16 _ d s => some (regNums d ++ regNums s)
  | .vshl16 _ d s => some (regNums d ++ regNums s)
  | .vshr16 _ d s => some (regNums d ++ regNums s)
  | .vshra16 _ d s => some (regNums d ++ regNums s)
  | .vmax16 _ d s => some (regNums d ++ regNums s)
  | .vmov16 _ d s => some (regNums d ++ regNums s)
  | .vcvt _ d a _ _ => some (regNums d ++ a.nums)
  | .vquant _ d a b _ => some (regNums d ++ regNums a ++ regNums b)
  | .vdeq _ d a b _ => some (regNums d ++ a.nums ++ regNums b)
  | .vpack _ d a b _ => some (regNums d ++ a.nums ++ b.nums)
  | .vunpack _ d a _ _ => some (regNums d ++ a.nums)
  | .vperm _ d a b _ => some (regNums d ++ a.nums ++ b.nums)
  | .vshuf _ d a b _ => some (regNums d ++ a.nums ++ b.nums)
  | .vred _ d a _ _ => some (regNums d ++ a.nums)
  | .vscan _ d a _ _ => some (regNums d ++ a.nums)
  | .vextr _ d a b _ => some (regNums d ++ a.nums ++ b.nums)
  | .vins _ d a b _ => some (regNums d ++ a.nums ++ b.nums)
  | .vfexp2 _ d a => some (regNums d ++ a.nums)
  | .vfrcp _ d a => some (regNums d ++ a.nums)
  | .vfrsq _ d a => some (regNums d ++ a.nums)
  | .vflog2 _ d a => some (regNums d ++ a.nums)
  | .vfabs _ d a _ => some (regNums d ++ a.nums)
  | .vfneg _ d a _ => some (regNums d ++ a.nums)
  | .vfcmpLe _ d a b _ => some ([mNum d] ++ a.nums ++ b.nums)
  | .vfcmpUn _ d a b _ => some ([mNum d] ++ a.nums ++ b.nums)
  | .mset _ d b => some ([mNum d] ++ b.nums)
  | .mand _ d a b => some ([mNum d] ++ a.nums ++ b.nums)
  | .mor _ d a b => some ([mNum d] ++ a.nums ++ b.nums)
  | .mnot _ d a => some ([mNum d] ++ a.nums)
  | .mpopc _ d a => some (regNums d ++ a.nums)
  | .mfirst _ d a => some (regNums d ++ a.nums)
  | .fadd _ d a b _ => some (regNums d ++ a.nums ++ b.nums)
  | .fsub _ d a b _ => some (regNums d ++ a.nums ++ b.nums)
  | .fmul _ d a b _ => some (regNums d ++ a.nums ++ b.nums)
  | .ffma _ d a b _ => some (regNums d ++ a.nums ++ b.nums)
  | .fdiv _ d a b _ => some (regNums d ++ a.nums ++ b.nums)
  | .fsqrt _ d a _ => some (regNums d ++ a.nums)
  | .fmin _ d a b _ => some (regNums d ++ a.nums ++ b.nums)
  | .fmax _ d a b _ => some (regNums d ++ a.nums ++ b.nums)
  | .fcmpEq _ d a b _ => some (regNums d ++ a.nums ++ b.nums)
  | .fcmpLt _ d a b _ => some (regNums d ++ a.nums ++ b.nums)
  | .fcmpLe _ d a b _ => some (regNums d ++ a.nums ++ b.nums)
  | .fcvtPrecision _ d a _ => some (regNums d ++ a.nums)
  | .fcvtToInt _ d a _ => some (regNums d ++ a.nums)
  | .fcvtFromInt _ d a _ => some (regNums d ++ a.nums)
  | _ => none

/-- The registers and generators that an instruction left behind will write, and the mask that it will read. -/
def Finish.target : Finish → List Nat
  | .writeX d _ => if d = 0 then [] else [xNum d]
  | .writeV d _ _ => [vNum d, mNum 0]
  | .stream d g _ idx => [vNum d, gNum g] ++ (match idx with
    | some i => [gNum i]
    | none => [])
  | .streamOut g _ => [gNum g]
  | _ => []

/-- R27: the scoreboard lets a thread execute an instruction while loads that it has left behind are still to be performed. -/
def Thread.passes (t : Thread) (c : Core) (ahead : Bool) (i : Instr) : Bool :=
  match (if ahead then (passRegs c i).or (computeRegs i) else computeRegs i) with
  | none => false
  | some rs => t.late.all (fun l => l.finish.target.all (fun d => decide (d ∉ rs)))

/-- R22, R178, R386: whether the accesses of a list that are on their way can meet no fault: their lines are not poisoned, their owners have keys,
and none of them has been answered with a fault. -/
def State.clean (s : State) (ids : List Nat) : Bool :=
  s.net.all (fun m => match m with
    | .reply a (.trap _ _ _) => decide (a.id ∉ ids)
    | m => m.accesses.all (fun a => decide (a.id ∉ ids) || (s.hasKey a.owner && !s.dram.poisonedFor a)))

/-- R27, R109: whether a thread may leave the load or atomic behind for which it waits: it can meet no fault, so that every fault of a load stays
precise (R178, log 87), its context is not halting, and the thread is not in a repeated body. -/
def State.mayLeave (s : State) (h : Hart) : Bool :=
  let t := s.thread h
  decide (t.status = .access) && t.rep.isNone && !s.halting h.core && (match t.pend with
    | some p => p.loose && s.clean p.ids
    | none => false)

/-- R109: the thread goes past the load or atomic for which it waits. -/
def State.leaveLoad (s : State) (h : Hart) : State :=
  let t := s.thread h
  match t.pend with
  | none => s
  | some p => s.setThread h { t.advance p.len with
      status := .late
      pend := none
      gathered := []
      late := t.late ++ [⟨p.ids, p.gathered, p.finish, t.pc⟩] }

/-- R27: what becomes of an instruction that was tried while loads were still to be performed: one that traps, stops or would wait for
anything but an access is not issued yet. -/
def State.passed (s : State) (r : Result) : Result :=
  match r with
  | .next s1 =>
    if s1.trapped then .next s
    else match (s1.thread s.cur).status with
      | .run => .next (s1.setThread s.cur { s1.thread s.cur with status := (s1.thread s.cur).settled })
      | .access => r
      | _ => .next s
  | _ => .next s

/-- R27, R109: whether a thread whose loads are still to be performed may issue at all. -/
def State.mayPass (s : State) (h : Hart) : Bool :=
  decide ((s.thread h).status = .late) && (s.thread h).rep.isNone && !s.halting h.core

/-- R139: whether an instruction may order its thread's earlier stores before events of other threads: every one but those that a thread may pass
a load with and that are no release, fence or atomic (log 106). -/
def ties (c : Core) (i : Instr) : Bool :=
  match i with
  | .storeRelease _ _ _ _ _ | .fence _ _ | .xfGo _ _ => true
  | .amoadd _ _ _ _ _ | .amoand _ _ _ _ _ | .amoor _ _ _ _ _ | .amoxor _ _ _ _ _ | .amomin _ _ _ _ _ | .amomax _ _ _ _ _ => true
  | .amominu _ _ _ _ _ | .amomaxu _ _ _ _ _ | .amoswap _ _ _ _ _ | .amocas _ _ _ _ _ | .amofadd _ _ _ _ _ => true
  | i => ((passRegs c i).or (computeRegs i)).isNone

end Sys2Proof.Machine
end

