-- ==== Sys2Proof/Machine/Step.lean ====
section
/-! DEFINITION. The step of the machine: the next turn of the agenda, or else the current thread's next instruction. -/

namespace Sys2Proof.Machine

/-- R139, R382: an instruction is executed; one that may order its thread's earlier stores before events of others counts as doing so, and its weight
will be put to account. -/
def perform (i : Instr) (s : State) : Host.Outcome State Fault Refusal :=
  exec i ((if ties s.myCore i then s.tie s.cur else s).bill s.cur i)

/-- R27, R109: the current thread, whose loads are still to be performed, tries its next instruction: one of the address stream, or one that only
computes, that touches none of their registers is issued, unless an interrupt is due at the boundary, which then waits for the loads alone
(R30). -/
def pass (s : State) : Host.Outcome State Fault Refusal :=
  let s0 := ({ s with trapped := false }).setMe { s.me with status := .run }
  if (s0.boundary s0.cur).isSome then .next s
  else match s0.fetch with
  | .run i s' => if s.me.passes s.myCore s'.ahead i then s.passed (perform i s') else .next s
  | .stop _ => .next s

/-- R396, R397: what an issue comes to, with its place in the log. -/
def logged (s : State) (r : Result) : Result :=
  match r with
  | .next s1 => .next (s1.noteIssue s.cur s.me)
  | r => r

/-- The current thread, when it is ready, fetches its next instruction and executes it; at a boundary, an interrupt that is due comes
before the instruction unless the instruction traps (R318). One that waits for a load may leave it behind and go on (R109). In a replay, it
issues only where the log names it (R397). -/
def issue (s : State) : Host.Outcome State Fault Refusal :=
  if !s.logAllows s.cur then .next s
  else if s.me.status.ready then
    let s0 := ({ s with trapped := false }).setMe { s.me with status := .run }
    logged s (s.atBoundary (match s0.fetch with
    | .run i s' => perform i s'
    | .stop r => r))
  else if s.mayLeave s.cur then .next (s.leaveLoad s.cur)
  else if s.mayPass s.cur then logged s (pass s)
  else .next s

/-- One turn. -/
def turn (s : State) : Host.Outcome State Fault Refusal :=
  match s.agenda with
  | [] => issue s
  | .issue h :: rest => issue { s with agenda := rest, cur := h }
  | .issueApart h :: rest => issue { s with agenda := rest, cur := h, split := true }
  | .flip place unit kind :: rest => .next ({ s with agenda := rest }.flip place unit kind)
  | .drain n :: rest => .next ({ s with agenda := rest }.drainErrors n)
  | .release :: rest => .next { s with agenda := rest }.releaseKey
  | .walker digest :: rest => .next ({ s with agenda := rest }.measureLoad 5 digest)
  | .plugin digest :: rest => .next ({ s with agenda := rest }.measureLoad 6 digest)
  | .restore :: rest => .next { s with agenda := rest }.retryRestore
  | .event i :: rest => exec i { s with agenda := rest }

/-- One step: a tick, and the turn that comes next. -/
def step (s : State) : Host.Outcome State Fault Refusal := turn { s with ticks := s.ticks + 1, split := false }

/-- The machine in which thread 0 of compute core 0 executes next the instruction whose bytes, as the opcode table numbers
them, are w; the longest instruction has 12 bytes. -/
def State.withFetchWord (s : State) (_nbits w : Nat) : State :=
  { s.plant ⟨0, 0⟩ 12 w with cur := ⟨0, 0⟩, agenda := [] }

end Sys2Proof.Machine
end

