-- ==== Sys2Proof/Safety.lean ====
section
/-! DEFINITION. What counts as a safe step and a safe run (neither a fault nor a refusal), and the words in which the statements say
what an instruction does and what it leaves alone. -/

namespace Sys2Proof

/-- A step from s goes on. -/
def SafeStep (s : Machine.State) : Prop := ∃ s', Machine.step s = .next s'

/-- The state after n steps, where each of them goes on. -/
def runN : Nat → Machine.State → Option Machine.State
  | 0, s => some s
  | n + 1, s => match Machine.step s with
    | .next s' => runN n s'
    | _ => none

/-- A run of n steps from s meets neither a fault nor a refusal. -/
def SafeRun (n : Nat) (s : Machine.State) : Prop := (runN n s).isSome = true

end Sys2Proof

namespace Sys2Proof.Machine

/-! ## Memory as the statements read it -/

/-- One byte of the local SRAM of a core or the shared SRAM of a cluster. -/
def State.byteAt (s : State) (p : Place) (a : Nat) : Byte := Tab.get 0 (s.sram p).cells a

/-- Every byte, tag and owner of every SRAM is as it was. -/
structure SameSram (s t : State) : Prop where
  bytes : ∀ p a, t.byteAt p a = s.byteAt p a
  tags : ∀ p w, Tab.get 0 (t.sram p).tags w = Tab.get 0 (s.sram p).tags w
  owners : ∀ p l, Tab.get 0 (t.sram p).owners l = Tab.get 0 (s.sram p).owners l

/-- Every byte, tag and owner of every SRAM, and all of DRAM, are as they were. -/
structure SameMemory (s t : State) : Prop extends SameSram s t where
  dram : t.dram = s.dram

/-- R315: a report has entered the queue of a hub core and stands in DRAM as Table 21.4 lays it out, or waits while the queue holds 256. -/
def Reported (s t : State) (hub : Nat) (r : Report) : Prop :=
  let c := s.core hub
  if c.reports.length < 256 then
    (t.core hub).reports = c.reports ++ [(c.reportSeq, r)] ∧ t.dram = s.dram.write 0 (reportAt hub c.reportSeq) 64 r.nat
  else (t.core hub).reports = c.reports ∧ (t.core hub).reportsHeld = c.reportsHeld ++ [r] ∧ t.dram = s.dram

/-! ## What a completed instruction does to its thread -/

/-- A thread that stands at the start of an instruction: it is running, holds no part of an earlier access, and has left no load behind. -/
def Thread.AtStart (t : Thread) : Prop := t.status = .run ∧ t.pend = none ∧ t.gathered = [] ∧ t.late = []

/-- R138, R170, R225: a thread after a completed instruction of len bytes that does not branch: RETIRED counts it and pc stands after
it, unless it was the last instruction of a repeated body with passes left, after which pc stands at the body's start. -/
structure Thread.Passed (u v : Thread) (len : Nat) : Prop where
  retired : v.retired = u.retired + 1
  plain : u.repeat? = none → v.pc = u.pc + BitVec.ofNat 64 len ∧ v.rep = u.rep
  inBody : ∀ r, u.repeat? = some r → u.pc + BitVec.ofNat 64 len ≠ r.start + BitVec.ofNat 64 r.bytes.length →
    v.pc = u.pc + BitVec.ofNat 64 len ∧ v.rep = u.rep
  again : ∀ r, u.repeat? = some r → u.pc + BitVec.ofNat 64 len = r.start + BitVec.ofNat 64 r.bytes.length → 1 < r.left →
    v.pc = r.start ∧ v.rep = some { r with left := r.left - 1 }
  last : ∀ r, u.repeat? = some r → u.pc + BitVec.ofNat 64 len = r.start + BitVec.ofNat 64 r.bytes.length → r.left ≤ 1 →
    v.pc = u.pc + BitVec.ofNat 64 len ∧ v.rep = none

/-- The general registers of class X after a write of register d: the value in it, or nothing written where d is 0; every other
register as it was, and those of x24 to x31 and h0 to h7 that the thread does not see as well (R29, R143). -/
structure Thread.XWritten (u v : Thread) (d : Fin 32) (value : Word) : Prop where
  value : d ≠ 0 → v.getX d = value
  zero : d = 0 → v.x = u.x ∧ v.h = u.h
  others : ∀ r, r ≠ d → v.getX r = u.getX r
  hiddenH : u.user.h = false → v.h = u.h
  hiddenX : u.user.h = true → ∀ r : Fin 32, 24 ≤ r.val → v.x[r.val] = u.x[r.val]

/-- The current thread has completed an instruction of len bytes that wrote value to register d of class X and raised the flags fl:
nothing else of the machine has changed. -/
structure WritesX (s t : State) (d : Fin 32) (value : Word) (fl : BitVec 5) (len : Nat) : Prop where
  only : t = s.setMe t.me
  memory : SameMemory s t
  passed : s.me.Passed t.me len
  written : s.me.XWritten t.me d value
  flags : t.me.fflags = s.me.fflags ||| fl
  kept : t.me = { s.me with x := t.me.x, h := t.me.h, fflags := t.me.fflags, pc := t.me.pc, rep := t.me.rep, retired := t.me.retired }

/-- The current thread has completed an instruction of len bytes that wrote value to vector register d and raised the flags fl: nothing
else of the machine has changed. -/
structure WritesV (s t : State) (d : Fin 32) (value : Vec) (fl : BitVec 5) (len : Nat) : Prop where
  only : t = s.setMe t.me
  memory : SameMemory s t
  passed : s.me.Passed t.me len
  value : t.me.getV d = value
  others : ∀ r, r ≠ d → t.me.getV r = s.me.getV r
  flags : t.me.fflags = s.me.fflags ||| fl
  kept : t.me = { s.me with v := t.me.v, fflags := t.me.fflags, pc := t.me.pc, rep := t.me.rep, retired := t.me.retired }

/-- The current thread has completed an instruction of len bytes that wrote value to mask register d and raised the flags fl: nothing
else of the machine has changed. -/
structure WritesM (s t : State) (d : Fin 8) (value : Word32) (fl : BitVec 5) (len : Nat) : Prop where
  only : t = s.setMe t.me
  memory : SameMemory s t
  passed : s.me.Passed t.me len
  value : t.me.getM d = value
  others : ∀ r, r ≠ d → t.me.getM r = s.me.getM r
  flags : t.me.fflags = s.me.fflags ||| fl
  kept : t.me = { s.me with m := t.me.m, fflags := t.me.fflags, pc := t.me.pc, rep := t.me.rep, retired := t.me.retired }

/-- The current thread has completed an instruction of len bytes that wrote no register: nothing else of the machine has changed. -/
structure Passes (s t : State) (len : Nat) : Prop where
  only : t = s.setMe t.me
  memory : SameMemory s t
  passed : s.me.Passed t.me len
  kept : t.me = { s.me with pc := t.me.pc, rep := t.me.rep, retired := t.me.retired }

/-- The current thread has completed a branch or jump to target, with value written to register d where d is given: nothing else of the
machine has changed. -/
structure JumpsTo (s t : State) (target : Word) (link : Option (Fin 32 × Word)) : Prop where
  only : t = s.setMe t.me
  memory : SameMemory s t
  pc : t.me.pc = target
  retired : t.me.retired = s.me.retired + 1
  linked : match link with
    | some (d, v) => s.me.XWritten t.me d v
    | none => t.me.x = s.me.x ∧ t.me.h = s.me.h
  kept : t.me = { s.me with x := t.me.x, h := t.me.h, pc := t.me.pc, retired := t.me.retired }

/-- The current thread waits: its instruction has done nothing yet and is executed again; nothing else of the machine has changed. -/
structure Waits (s t : State) (w : Status) : Prop where
  only : t = s.setMe t.me
  memory : SameMemory s t
  kept : t.me = { s.me with status := w }

/-- R41: between s and t a member of domain d that is blocked on a signal has become ready to look again, and has not changed otherwise. -/
def State.SignalReader (s : State) (d : Domain) (t : State) (h : Hart) : Prop :=
  (∃ m ∈ d.members, m.hart = h) ∧ (s.thread h).status.isSignal = true ∧ t.thread h = { s.thread h with status := .again }

/-- A thread without the record of what is due for its last instruction (R382). -/
def Thread.unbilled (t : Thread) : Thread := { t with bill := none }

/-- R227: the current thread completes instruction i, which puts command c in its core's matrix queue. -/
def Enqueues (s : State) (i : Instr) (c : Cmd) : Prop :=
  ∃ t, exec i s = .next t ∧ Passes (s.setMyCore { s.myCore with queue := s.myCore.queue ++ [c] }) t c.len

/-! ## Words of the own core's SRAM on which an access is plain -/

/-- R386, R81: word w of the current thread's own core's SRAM holds no error, and no woken access waits to be checked on it. -/
structure OpenWord (s : State) (w : Nat) : Prop where
  readable : w ∉ s.myCore.sram.errs ∧ w / 8 ∉ s.myCore.sram.ownerErrs ∧ Tab.find? s.myCore.sram.soft w = none
  free : s.myCore.sram.parks.all (fun q => !(q.woken && decide (q.word = w))) = true

/-- R75: an access of kind k by the current thread to word w of its own core's SRAM passes the action table, whose entry leaves the tag
alone. -/
structure PlainWord (s : State) (k w : Nat) : Prop extends OpenWord s w where
  passes : bits (s.myCore.sram.entry w k (s.myCore.sram.tagFor (s.ownerOfHart s.cur) w)) 0 4 = 0

/-- The own-core offset o that a scalar access of n bytes at an address names for the current thread, aligned, and on a hub core permitted
by its PMP (R58, R176, R323). -/
def NamesHere (s : State) (need : Need) (addr : Word) (n o : Nat) : Prop :=
  s.resolveRange s.cur addr.toNat n = some (.sram (.core s.cur.core) o) ∧ addr.toNat % n = 0 ∧ s.pmpOk s.cur addr.toNat n need = true

/-- The current thread has completed an instruction of len bytes that stored the n low bytes of value from offset o of its own core's
local SRAM, inside one line, and wrote register d where reg is (d, v). As the thread reads memory, every other byte is as it was; outside
the line, which R70 gives to the thread's owner, every byte of the machine is. -/
structure StoresHere (s t : State) (o n value : Nat) (reg : Option (Fin 32 × Word)) (len : Nat) : Prop where
  stored : ∀ i, i < n → t.byteAt (.core s.cur.core) (o + i) = BitVec.ofNat 8 (value / 256 ^ i)
  owned : t.myCore.sram.ownerOf o = s.ownerOfHart s.cur
  line : ∀ a, a / 64 = o / 64 → (a < o ∨ o + n ≤ a) →
    t.myCore.sram.readFor (s.ownerOfHart s.cur) a 1 = s.myCore.sram.readFor (s.ownerOfHart s.cur) a 1
  elsewhere : ∀ p a, (p ≠ .core s.cur.core ∨ a / 64 ≠ o / 64) → t.byteAt p a = s.byteAt p a
  tags : ∀ w, t.myCore.sram.tagFor (s.ownerOfHart s.cur) w = s.myCore.sram.tagFor (s.ownerOfHart s.cur) w
  passed : s.me.Passed t.me len
  written : match reg with
    | some (d, v) => s.me.XWritten t.me d v
    | none => t.me.x = s.me.x ∧ t.me.h = s.me.h
  kept : t.me = { s.me with x := t.me.x, h := t.me.h, pc := t.me.pc, rep := t.me.rep, retired := t.me.retired }
  threads : ∀ h, h ≠ s.cur → t.thread h = s.thread h
  cores : ∀ c, c ≠ s.cur.core → t.core c = s.core c
  core : t.myCore = { s.myCore with sram := t.myCore.sram, threads := t.myCore.threads }
  rest : t = { s with nextId := s.nextId + 1, log := t.log, logSeq := t.logSeq, cores := t.cores }

/-- The current thread has completed an instruction of len bytes that set the tag of word w of its own core's local SRAM to tag, as its owner
sees it, and wrote register d where reg is (d, v). As the thread reads memory, every byte and every other tag is as it was. -/
structure TagsHere (s t : State) (w : Nat) (tag : BitVec 3) (reg : Option (Fin 32 × Word)) (len : Nat) : Prop where
  tagged : t.myCore.sram.tagFor (s.ownerOfHart s.cur) w = tag
  tags : ∀ j, j ≠ w → t.myCore.sram.tagFor (s.ownerOfHart s.cur) j = s.myCore.sram.tagFor (s.ownerOfHart s.cur) j
  bytes : ∀ a, t.myCore.sram.readFor (s.ownerOfHart s.cur) a 1 = s.myCore.sram.readFor (s.ownerOfHart s.cur) a 1
  elsewhere : ∀ p a, (p ≠ .core s.cur.core ∨ a / 64 ≠ w / 8) → t.byteAt p a = s.byteAt p a
  passed : s.me.Passed t.me len
  written : match reg with
    | some (d, v) => s.me.XWritten t.me d v
    | none => t.me.x = s.me.x ∧ t.me.h = s.me.h
  kept : t.me = { s.me with x := t.me.x, h := t.me.h, pc := t.me.pc, rep := t.me.rep, retired := t.me.retired }
  threads : ∀ h, h ≠ s.cur → t.thread h = s.thread h
  cores : ∀ c, c ≠ s.cur.core → t.core c = s.core c
  core : t.myCore = { s.myCore with sram := t.myCore.sram, threads := t.myCore.threads }
  rest : t = { s with nextId := s.nextId + 1, cores := t.cores }

/-- R112, R139: r is s once the current thread has read its own core's SRAM: an entry with REL = 1 orders the stores there before later events
of other threads. -/
def State.Read (s r : State) : Prop := r = s ∨ r = s.tieAt (.core s.cur.core)

/-- R75, R81, R85: m' is m with the tag of word w set: a change wakes the accesses parked on the word. -/
structure Sram.Retagged (m m' : Sram) (w : Nat) (new : BitVec 3) : Prop where
  tag : Tab.get 0 m'.tags w = new
  others : ∀ j, j ≠ w → Tab.get 0 m'.tags j = Tab.get 0 m.tags j
  woken : Tab.get 0 m.tags w ≠ new → ∀ q ∈ m'.parks, q.word = w → q.woken = true
  rest : m' = { m with tags := m'.tags, parks := m'.parks }

/-- The machine after one access has been numbered. -/
def State.numbered (s : State) : State := { s with nextId := s.nextId + 1 }

/-- R329, R335: the machine once the load of a privileged instruction has gathered k words from offset o of its own core's local SRAM: the
instruction is executed again with them. -/
def State.gather (s : State) (o k : Nat) : State :=
  s.numbered.setMe { s.me with
    status := .again
    gathered := (List.range k).map (fun i => BitVec.ofNat 64 (s.myCore.sram.readFor (s.ownerOfHart s.cur) (o + 8 * i) 8)) }

/-! ## Lanes (R200 to R202) -/

/-- R202: a vector register after a predicated instruction: each lane of w bytes that m0 names holds f's pattern, every other keeps its
own. -/
def LanesWritten (m0 : Word32) (w : Nat) (old new : Vec) (f : Nat → Nat) : Prop :=
  ∀ i, i < 64 / w → lane new w i = if m0.getLsbD (i * w / 2) then f i % 2 ^ (8 * w) else lane old w i

/-- R97, R202: the flags of the lanes of w bytes that m0 names. -/
def LaneFlags (m0 : Word32) (w : Nat) (fl : BitVec 5) (f : Nat → FRes) : Prop :=
  ∀ j, j < 5 → (fl.getLsbD j = true ↔ ∃ i, i < 64 / w ∧ m0.getLsbD (i * w / 2) = true ∧ (f i).fl.getLsbD j = true)

/-- R201: the mask of a lane result: two bits for a lane of 4 bytes, one for a lane of 2, and one for a pair of lanes of 1 byte, which it
names when both hold; a lane that m0 does not name counts as false. -/
def MaskOfLanes (m0 : Word32) (w : Nat) (mask : Word32) (r : Nat → Bool) : Prop :=
  ∀ j, j < 32 → mask.getLsbD j =
    if w = 4 then m0.getLsbD (j / 2 * 2) && r (j / 2)
    else if w = 2 then m0.getLsbD j && r j
    else m0.getLsbD j && r (2 * j) && r (2 * j + 1)

/-- The current thread completes instruction i of len bytes, a predicated one on lanes of w bytes: register d gets f's results in its
active lanes, with their flags. -/
def LanesTo (s : State) (i : Instr) (d : Fin 32) (w len : Nat) (f : Nat → FRes) : Prop :=
  ∃ t v fl, exec i s = .next t ∧ WritesV s t d v fl len ∧ LanesWritten (s.me.getM 0) w (s.me.getV d) v (fun j => (f j).bits) ∧
    LaneFlags (s.me.getM 0) w fl f

/-- The current thread completes instruction i of len bytes, a compare of lanes of w bytes: mask d gets r's results, with the flags of
the active lanes. -/
def MaskTo (s : State) (i : Instr) (d : Fin 8) (w len : Nat) (r : Nat → Bool) (fl : Nat → Flags) : Prop :=
  ∃ t v f, exec i s = .next t ∧ WritesM s t d v f len ∧ MaskOfLanes (s.me.getM 0) w v r ∧ LaneFlags (s.me.getM 0) w f (fun j => ⟨0, fl j⟩)

/-- R216, R217, R75: the active elements of an access of kind k by the current thread, below count and of n bytes each, at addr, all name
words of its own core's SRAM, at o, that pass the action table; one at least is active. -/
structure LanesHere (s : State) (need : Need) (k n count : Nat) (addr : Nat → Word) (o : Nat → Nat) : Prop where
  here : ∀ i, i < count → active (s.me.getM 0) n i = true → NamesHere s need (addr i) n (o i) ∧ PlainWord s k (o i / 8)
  some : ∃ i, i < count ∧ active (s.me.getM 0) n i = true

/-- Between s and t the current thread has completed an instruction of len bytes that stored n bytes of v's lanes i, for each i that p
names, at offset o i of its own core's SRAM; where two coincide the last one stands. As the thread reads memory, every other byte is as it
was, and outside the lines that it stored to, every byte of the machine is. -/
structure StoresLanes (s t : State) (n : Nat) (p : Nat → Prop) (o : Nat → Nat) (v : Vec) (len : Nat) : Prop where
  stored : ∀ i, p i → (∀ j, i < j → p j → o j ≠ o i) → t.myCore.sram.readFor (s.ownerOfHart s.cur) (o i) n = lane v n i
  others : ∀ a, (∀ i, p i → a < o i ∨ o i + n ≤ a) →
    t.myCore.sram.readFor (s.ownerOfHart s.cur) a 1 = s.myCore.sram.readFor (s.ownerOfHart s.cur) a 1
  elsewhere : ∀ q a, (q ≠ .core s.cur.core ∨ ∀ i, p i → a / 64 ≠ o i / 64) → t.byteAt q a = s.byteAt q a
  tags : ∀ w, t.myCore.sram.tagFor (s.ownerOfHart s.cur) w = s.myCore.sram.tagFor (s.ownerOfHart s.cur) w
  passed : s.me.Passed t.me len
  kept : t.me = { s.me with pc := t.me.pc, rep := t.me.rep, retired := t.me.retired }
  threads : ∀ h, h ≠ s.cur → t.thread h = s.thread h
  cores : ∀ c, c ≠ s.cur.core → t.core c = s.core c
  core : t.myCore = { s.myCore with sram := t.myCore.sram, threads := t.myCore.threads }
  rest : t = { s with nextId := t.nextId, log := t.log, logSeq := t.logSeq, cores := t.cores }

/-! ## Partitions (R352, R409) -/

/-- No cluster belongs to two partitions, and none that is withheld belongs to one. -/
structure State.PartitionsApart (s : State) : Prop where
  disjoint : ∀ m n c, c ∈ (s.part m).clusters → c ∈ (s.part n).clusters → m = n
  withheld : ∀ n c, c ∈ (s.part n).clusters → c ∉ s.dev.withheld

end Sys2Proof.Machine
end

