-- ==== Sys2Proof/Certificates/Slice0/Obligations.lean ====
section
/-! DEFINITION. The statements for the provers. Each formalises the rules that its docstring names, in the words of Sys2Proof/Safety.lean. -/

section

open Sys2Proof Sys2Proof.Machine

/-! ## Scalar instructions -/

/-- R155: the integer results of Table 11.3, and that nothing else changes; a 32-bit literal is sign-extended; every other funct of major 0x00
is illegal. -/
def Obligations.IntegerResults : Prop :=
  ∀ (s : State) (k : Bool) (d : Fin 32) (a b : Opnd),
    let x := s.me.opX a
    let y := s.me.opX b
    let writes (i : Instr) (v : Word) (len : Nat) : Prop := ∃ t, exec i s = .next t ∧ WritesX s t d v 0 len
    writes (.add k d a b) (BitVec.ofNat 64 (x.toNat + y.toNat)) (len2 a b) ∧
    writes (.sub k d a b) (BitVec.ofInt 64 (x.toInt - y.toInt)) (len2 a b) ∧
    writes (.and k d a b) (x &&& y) (len2 a b) ∧
    writes (.or k d a b) (x ||| y) (len2 a b) ∧
    writes (.xor k d a b) (x ^^^ y) (len2 a b) ∧
    writes (.andn k d a b) (x &&& ~~~ y) (len2 a b) ∧
    writes (.min k d a b) (BitVec.ofInt 64 (min x.toInt y.toInt)) (len2 a b) ∧
    writes (.max k d a b) (BitVec.ofInt 64 (max x.toInt y.toInt)) (len2 a b) ∧
    writes (.minu k d a b) (BitVec.ofNat 64 (min x.toNat y.toNat)) (len2 a b) ∧
    writes (.maxu k d a b) (BitVec.ofNat 64 (max x.toNat y.toNat)) (len2 a b) ∧
    writes (.li k d b) y (len1 b) ∧
    (∀ v : BitVec 32, s.me.opX (.lit32 v) = v.signExtend 64) ∧
    (∀ (w : Word32) (lit : Word), w.getLsbD 0 = true → bits w 2 6 = 0 → 11 ≤ bits w 8 6 → decodeWord w lit = none)

/-- R156: products, quotients and remainders, with the fixed results of a zero divisor and of overflow; every other funct
of major 0x01 is illegal. -/
def Obligations.MultiplyDivideResults : Prop :=
  ∀ (s : State) (k : Bool) (d : Fin 32) (a b : Opnd),
    let x := s.me.opX a
    let y := s.me.opX b
    let writes (i : Instr) (v : Word) : Prop := ∃ t, exec i s = .next t ∧ WritesX s t d v 0 (len2 a b)
    writes (.mul k d a b) (BitVec.ofNat 64 (x.toNat * y.toNat)) ∧
    writes (.mulh k d a b) (BitVec.ofInt 64 (x.toInt * y.toInt / 2 ^ 64)) ∧
    writes (.mulhu k d a b) (BitVec.ofNat 64 (x.toNat * y.toNat / 2 ^ 64)) ∧
    writes (.div k d a b) (BitVec.ofInt 64 (if y = 0 then -1 else x.toInt.tdiv y.toInt)) ∧
    writes (.divu k d a b) (BitVec.ofNat 64 (if y = 0 then 2 ^ 64 - 1 else x.toNat / y.toNat)) ∧
    writes (.rem k d a b) (BitVec.ofInt 64 (if y = 0 then x.toInt else x.toInt.tmod y.toInt)) ∧
    writes (.remu k d a b) (BitVec.ofNat 64 (if y = 0 then x.toNat else x.toNat % y.toNat)) ∧
    (∀ (w : Word32) (lit : Word), w.getLsbD 0 = true → bits w 2 6 = 1 → 7 ≤ bits w 8 6 → decodeWord w lit = none)

/-- R157, R158: shifts by b[5:0], counts of bits, extensions and bit fields; every other funct of major 0x02 is illegal. -/
def Obligations.ShiftAndFieldResults : Prop :=
  ∀ (s : State) (k : Bool) (d : Fin 32) (a b : Opnd),
    let x := s.me.opX a
    let y := s.me.opX b
    let n := y.toNat % 64
    let w := if n = 0 then 64 else n
    let f := min (y.toNat / 64 % 128) (64 - n)
    let writes (i : Instr) (p : Word → Prop) (len : Nat) : Prop := ∃ t v, exec i s = .next t ∧ WritesX s t d v 0 len ∧ p v
    writes (.sll k d a b) (fun v => v.toNat = x.toNat * 2 ^ n % 2 ^ 64) (len2 a b) ∧
    writes (.srl k d a b) (fun v => v.toNat = x.toNat / 2 ^ n) (len2 a b) ∧
    writes (.sra k d a b) (fun v => v.toInt = x.toInt / 2 ^ n) (len2 a b) ∧
    writes (.clz k d a) (fun v => v.toNat ≤ 64 ∧ x.toNat < 2 ^ (64 - v.toNat) ∧ (x ≠ 0 → 2 ^ (63 - v.toNat) ≤ x.toNat) ∧ (x = 0 → v = 64)) (len1 a) ∧
    writes (.ctz k d a) (fun v => if x = 0 then v = 64 else v.toNat < 64 ∧ x.getLsbD v.toNat = true ∧ ∀ j, j < v.toNat → x.getLsbD j = false)
      (len1 a) ∧
    writes (.popc k d a) (fun v => v.toNat = ((List.range 64).filter (fun j => x.getLsbD j)).length) (len1 a) ∧
    writes (.exts k d a b) (fun v => ∀ j, j < 64 → v.getLsbD j = if j < w then x.getLsbD j else x.getLsbD (w - 1)) (len2 a b) ∧
    writes (.extz k d a b) (fun v => v.toNat = x.toNat % 2 ^ w) (len2 a b) ∧
    writes (.bfext k d a b) (fun v => v.toNat = x.toNat / 2 ^ n % 2 ^ f) (len2 a b) ∧
    writes (.bfins k d a b)
      (fun v => ∀ j, j < 64 → v.getLsbD j = if n ≤ j ∧ j < n + f then x.getLsbD (j - n) else (s.me.getX d).getLsbD j) (len2 a b) ∧
    (∀ (u : Word32) (lit : Word), u.getLsbD 0 = true → bits u 2 6 = 2 → 10 ≤ bits u 8 6 → decodeWord u lit = none)

/-- R159 to R162: comparisons and selection, LEA, APCVT and APTEST; every other funct of majors 0x03 and 0x04 is illegal. -/
def Obligations.CompareAndAddressResults : Prop :=
  ∀ (s : State) (k : Bool) (d : Fin 32) (a b : Opnd),
    let x := s.me.opX a
    let y := s.me.opX b
    let writes (i : Instr) (v : Word) (len : Nat) : Prop := ∃ t, exec i s = .next t ∧ WritesX s t d v 0 len
    writes (.seq k d a b) (if x = y then 1 else 0) (len2 a b) ∧
    writes (.slt k d a b) (if x.toInt < y.toInt then 1 else 0) (len2 a b) ∧
    writes (.sltu k d a b) (if x.toNat < y.toNat then 1 else 0) (len2 a b) ∧
    writes (.sel k d a b) (if s.me.getX d ≠ 0 then x else y) (len2 a b) ∧
    writes (.lea k d b) (s.me.pc + y) (len1 b) ∧
    writes (.apcvt k d a b) (convertAddr s.me.nodeid x y) (len2 a b) ∧
    writes (.aptest k d a) (s.classify s.cur x) (len1 a) ∧
    (let g := convertAddr s.me.nodeid x y
      let cl := bits s.me.nodeid 29 8
      let co := bits s.me.nodeid 22 4
      let n := x.toNat
      if y.getLsbD 0 = false then
        (n < 2 ^ 21 → g.toNat = 2 * 2 ^ 56 + cl * 2 ^ 25 + co * 2 ^ 21 + n) ∧
        (n / 2 ^ 22 = 2 ^ 34 → g.toNat = 3 * 2 ^ 56 + cl * 2 ^ 22 + n % 2 ^ 22) ∧
        (2 ^ 21 ≤ n → n / 2 ^ 22 ≠ 2 ^ 34 → g = x)
      else
        (n / 2 ^ 21 = 2 * 2 ^ 35 + cl * 2 ^ 4 + co → g.toNat = n % 2 ^ 21) ∧
        (n / 2 ^ 22 = 3 * 2 ^ 34 + cl → g.toNat = 2 ^ 56 + n % 2 ^ 22) ∧
        (n / 2 ^ 21 ≠ 2 * 2 ^ 35 + cl * 2 ^ 4 + co → n / 2 ^ 22 ≠ 3 * 2 ^ 34 + cl → g = x)) ∧
    (let c := s.classify s.cur x
      let sel := x.toNat / 2 ^ 56
      c.toNat < 2 ^ 12 ∧ bits c 0 8 = (if sel < 4 then sel else if sel < 16 then 0xFF else if sel < 128 then 0x10 else 0x80) ∧
      c.getLsbD 8 = (s.resolveRange s.cur x.toNat 1).isSome ∧
      (c.getLsbD 9 = true ↔ sel < 4 ∧ ∃ o, s.resolve s.cur x.toNat = some (.sram (.core s.cur.core) o)) ∧
      (c.getLsbD 10 = true ↔ sel < 4 ∧ ∃ q o, s.resolve s.cur x.toNat = some (.sram q o) ∧ q.cluster_ = clusterOf s.cur.core) ∧
      (c.getLsbD 11 = true ↔ sel < 4 ∧ (s.resolve s.cur x.toNat).isSome = true)) ∧
    (∀ (w : Word32) (lit : Word), w.getLsbD 0 = true → bits w 2 6 = 3 → 4 ≤ bits w 8 6 → decodeWord w lit = none) ∧
    (∀ (w : Word32) (lit : Word), w.getLsbD 0 = true → bits w 2 6 = 4 → 3 ≤ bits w 8 6 → decodeWord w lit = none)

/-- R146, R163, R164: a branch that is taken goes to pc + 2 × off9, one that is not goes on, and J goes to pc + 2 × off24: none of them
writes a register. JAL and JALR write their link and go to their target; an odd target is cause 0 with the target as value, and writes no
link. -/
def Obligations.BranchesAndJumps : Prop :=
  ∀ (s : State) (k : Bool) (d : Fin 32) (a b : Opnd) (off : BitVec 9) (joff : BitVec 24),
    let x := s.me.opX a
    let y := s.me.opX b
    let target := y + BitVec.ofInt 64 (2 * off.toInt)
    let branch (i : Instr) (p : Prop) : Prop :=
      (p → ∃ t, exec i s = .next t ∧ JumpsTo s t (s.me.pc + BitVec.ofInt 64 (2 * off.toInt)) none) ∧
      (¬ p → ∃ t, exec i s = .next t ∧ Passes s t (len2 a b))
    let jump (i : Instr) (g : Word) : Prop :=
      (g.getLsbD 0 = false → ∃ t, exec i s = .next t ∧ JumpsTo s t g (some (d, s.me.pc + BitVec.ofNat 64 (len1 b)))) ∧
      (g.getLsbD 0 = true → exec i s = s.trapMe 0 g)
    branch (.beq k a b off) (x = y) ∧ branch (.bne k a b off) (x ≠ y) ∧
    branch (.blt k a b off) (x.toInt < y.toInt) ∧ branch (.bge k a b off) (y.toInt ≤ x.toInt) ∧
    branch (.bltu k a b off) (x.toNat < y.toNat) ∧ branch (.bgeu k a b off) (y.toNat ≤ x.toNat) ∧
    (∃ t, exec (.j k joff) s = .next t ∧ JumpsTo s t (s.me.pc + BitVec.ofInt 64 (2 * joff.toInt)) none) ∧
    jump (.jal k d b off) (s.me.pc + target) ∧ jump (.jalr k d b off) target

/-! ## Scalar floating point -/

/-- R171 to R173: arithmetic at precision P, rounded in FMODE.RM, with the flags that it raises accrued; FFMA adds register d; a
comparison writes 1 or 0. -/
def Obligations.ScalarFloatResults : Prop :=
  ∀ (s : State) (k : Bool) (d : Fin 32) (a b : Opnd) (p : Bool),
    let f := fmtP p
    let rm := rmOf s.me.fmode
    let x := f.decode (s.me.opF p a)
    let y := f.decode (s.me.opF p b)
    let z := f.decode (s.me.opF p (.reg d))
    let writes (i : Instr) (r : FRes) (len : Nat) : Prop := ∃ t, exec i s = .next t ∧ WritesX s t d (BitVec.ofNat 64 r.bits) r.fl len
    writes (.fadd k d a b p) (f.addR rm x y) (len2 a b) ∧
    writes (.fsub k d a b p) (f.subR rm x y) (len2 a b) ∧
    writes (.fmul k d a b p) (f.mulR rm x y) (len2 a b) ∧
    writes (.fdiv k d a b p) (f.divR rm x y) (len2 a b) ∧
    writes (.ffma k d a b p) (f.fmaR rm x y z) (len2 a b) ∧
    writes (.fsqrt k d a p) (f.sqrtR rm x) (len1 a) ∧
    writes (.fmin k d a b p) (f.minMax false (s.me.opF p a) (s.me.opF p b)) (len2 a b) ∧
    writes (.fmax k d a b p) (f.minMax true (s.me.opF p a) (s.me.opF p b)) (len2 a b) ∧
    writes (.fcmpEq k d a b p) ⟨if x.eq y then 1 else 0, cmpFlags false x y⟩ (len2 a b) ∧
    writes (.fcmpLt k d a b p) ⟨if x.lt y then 1 else 0, cmpFlags true x y⟩ (len2 a b) ∧
    writes (.fcmpLe k d a b p) ⟨if x.le y then 1 else 0, cmpFlags true x y⟩ (len2 a b)

/-- R98, R174: conversions between the two precisions and between them and signed 64-bit integers; the conversion to an integer is exact
or saturates, and the one from an integer reads its source in integer use. -/
def Obligations.ScalarConversionResults : Prop :=
  ∀ (s : State) (k : Bool) (d : Fin 32) (a : Opnd) (p : Bool),
    let rm := rmOf s.me.fmode
    let x := (fmtP p).decode (s.me.opF p a)
    let writes (i : Instr) (v : Word) (fl : BitVec 5) : Prop := ∃ t, exec i s = .next t ∧ WritesX s t d v fl (len1 a)
    writes (.fcvtPrecision k d a p) (BitVec.ofNat 64 ((fmtP (!p)).pack rm false x).bits) (((fmtP (!p)).pack rm false x).fl ||| nvIf x.isSig) ∧
    writes (.fcvtToInt k d a p) (BitVec.ofInt 64 (cvtInt rm (-(2 ^ 63)) (2 ^ 63 - 1) x).1) (cvtInt rm (-(2 ^ 63)) (2 ^ 63 - 1) x).2 ∧
    writes (.fcvtFromInt k d a p) (BitVec.ofNat 64 ((fmtP p).pack rm false (Num.ofInt (s.me.opX a).toInt)).bits)
      ((fmtP p).pack rm false (Num.ofInt (s.me.opX a).toInt)).fl

/-! ## Control and status registers -/

/-- R166, R150: a CSR instruction whose number the level reaches reads or writes it and completes; any other number is cause 2 with
the word as value. -/
def Obligations.CsrInstructions : Prop :=
  ∀ (s : State) (k : Bool) (d : Fin 32) (a : Opnd) (n : BitVec 12),
    let old := s.readCsr s.cur n.toNat
    let puts (i : Instr) (v : Word) : Prop := ∃ t, exec i s = .next t ∧ Passes (s.writeCsr s.cur n.toNat v) t (len1 a)
    (csrOk s.cur.core s.me.level n.toNat = true →
      (∃ t, exec (.csrr k d n) s = .next t ∧ WritesX s t d old 0 4) ∧
      puts (.csrw k a n) (s.me.opX a) ∧ puts (.csrs k a n) (old ||| s.me.opX a) ∧ puts (.csrc k a n) (old &&& ~~~ s.me.opX a)) ∧
    (csrOk s.cur.core s.me.level n.toNat = false →
      ∀ i ∈ [Instr.csrr k d n, .csrw k a n, .csrs k a n, .csrc k a n], exec i s = s.trapMe 2 ((encodeWord i).setWidth 64))

/-- R6, R29, R62, R65, R96, R169, R170, R319 to R323: what a write leaves in a CSR of the thread or of its core: the return and vector addresses
lose bit 0, a status register takes its fields alone and keeps its level field where the core has no such level, a register whose reserved
bits must be 0 ignores a value that has one, and a locked PMP region stays. A read-only register stays, and no write changes anything else. -/
def Obligations.CsrWriteFields : Prop :=
  ∀ (s : State) (v : Word),
    let t := s.me
    let c := s.myCore
    let even := v &&& ~~~ 1#64
    let puts (n : Nat) (t' : Thread) : Prop := s.writeCsr s.cur n v = s.setMe t'
    let user (n : Nat) (u : UserCsrs) : Prop := puts n { t with user := u }
    let priv (n : Nat) (p : PrivCsrs) : Prop := puts n { t with priv := p }
    let xf (n : Nat) (x : XferRegs) : Prop := puts n { t with xf := x }
    let core (n : Nat) (c' : Core) : Prop := s.writeCsr s.cur n v = s.setMyCore c'
    let cause (old : Word) : Word := if bits v 7 54 = 0 then v else old
    let levels : List Nat := match kindOf s.cur.core with | .compute => [0, 3] | .translation => [1, 3] | .hub => [0, 1, 3]
    let fields : List Nat := if kindOf s.cur.core = .compute then [3, 7] else [1, 3, 5, 7, 8]
    user 0x000 { t.user with ucause := v.setWidth 7 } ∧ user 0x001 { t.user with uval := v } ∧
    user 0x002 { t.user with uepc := even } ∧ user 0x003 { t.user with utvec := even } ∧ user 0x004 { t.user with uie := v.getLsbD 1 } ∧
    puts 0x010 (if v.toNat < 4 then { t with fmode := v.setWidth 2 } else t) ∧
    puts 0x011 (if v.toNat < 32 then { t with fflags := v.setWidth 5 } else t) ∧
    xf 0x040 { t.xf with src := v } ∧ xf 0x041 { t.xf with dst := v } ∧
    (∀ i : Fin 4, xf (0x042 + i.val) { t.xf with shape := t.xf.shape.set i.val (v.setWidth 32) }) ∧
    (∀ i : Fin 3, xf (0x047 + i.val) { t.xf with sstride := t.xf.sstride.set i.val v } ∧
      xf (0x04B + i.val) { t.xf with dstride := t.xf.dstride.set i.val v }) ∧
    xf 0x04E { t.xf with irq := v.getLsbD 0, user := BitVec.ofNat 8 (bits v 8 8) } ∧
    puts 0x050 { t with apos := v.setWidth 26 } ∧ puts 0x051 (if v.toNat < 2 ^ 32 then { t with ascale := v.setWidth 32 } else t) ∧
    puts 0x061 (if v.toNat < 2 ^ 56 ∧ v.toNat % 32 = 0 then { t with cmfree := v } else t) ∧ puts 0x062 { t with cmprog := v.setWidth 20 } ∧
    (∃ ms : Word, priv 0x300 { t.priv with mstatus := ms } ∧
      ∀ j, j < 64 → ms.getLsbD j = if j = 1 ∨ j = 5 ∨ j = 8 then v.getLsbD j else t.priv.mstatus.getLsbD j) ∧
    (∃ ms : Word, priv 0x700 { t.priv with mstatus := ms } ∧
      bits ms 11 2 = (if bits v 11 2 ∈ levels then bits v 11 2 else bits t.priv.mstatus 11 2) ∧
      ∀ j, j < 64 → j ≠ 11 → j ≠ 12 → ms.getLsbD j = (decide (j ∈ fields) && v.getLsbD j)) ∧
    priv 0x301 { t.priv with stvec := even } ∧ priv 0x701 { t.priv with mtvec := even } ∧
    priv 0x341 { t.priv with sepc := even } ∧ priv 0x741 { t.priv with mepc := even } ∧
    priv 0x342 { t.priv with scause := cause t.priv.scause } ∧ priv 0x742 { t.priv with mcause := cause t.priv.mcause } ∧
    priv 0x343 { t.priv with sval := v } ∧ priv 0x743 { t.priv with mval := v } ∧
    priv 0x344 { t.priv with sscratch := v } ∧ priv 0x744 { t.priv with mscratch := v } ∧
    priv 0x302 { t.priv with sudeleg := v &&& delegMask .hub } ∧ core 0x702 { c with mudeleg := v &&& delegMask .compute } ∧
    (∃ m : Word, priv 0x703 { t.priv with msdeleg := m } ∧
      ∀ j, j < 64 → m.getLsbD j = (v.getLsbD j && decide (j ≠ 8) && decide (j ≠ 9) && decide (j ≠ 11))) ∧
    (∃ m : Word, priv 0x304 { t.priv with sie := m } ∧ ∀ j, j < 64 → m.getLsbD j = (v.getLsbD j && decide (j ∈ [3, 4, 6, 7, 8]))) ∧
    (∃ m : Word, priv 0x704 { t.priv with mie := m } ∧ ∀ j, j < 64 → m.getLsbD j = (v.getLsbD j && decide (1 ≤ j ∧ j ≤ 8))) ∧
    (∀ b : Fin 16, core (0x070 + b.val) (if v.toNat ≤ 10 then { c with fmts := c.fmts.set b.val (v.setWidth 4) } else c)) ∧
    (∀ k : Fin 8, ∃ m : Sram, core (0x080 + k.val) { c with sram := m } ∧ m = { c.sram with regions := m.regions, parks := m.parks } ∧
      ∀ r, Tab.get 0 m.regions r = if r / 16 = k.val ∧ (r < 108 ∨ t.level ≠ .u) then BitVec.ofNat 2 (bits v (4 * (r % 16)) 2)
        else Tab.get 0 c.sram.regions r) ∧
    (∀ j : Fin 2, ∃ cfg, core (0x750 + j.val) { c with pmpcfg := cfg } ∧ ∀ i : Fin 16,
      let old := c.pmpcfg[i.val]
      let new := bits v (8 * (i.val % 8)) 8
      cfg[i.val] = if i.val / 8 = j.val ∧ old.getLsbD 7 = false then
        BitVec.ofNat 8 (new % 8 + 8 * (if new / 8 % 4 = 2 then bits old 3 2 else new / 8 % 4) + 128 * (new / 128)) else old) ∧
    (∀ i : Fin 16, core (0x760 + i.val) (if c.pmpcfg[i.val].getLsbD 7 then c else { c with pmpaddr := c.pmpaddr.set i.val (v.setWidth 54) })) ∧
    core 0x780 { c with mowner := v.setWidth 12 } ∧ core 0x781 { c with mcontext := v.setWidth 32 } ∧
    ∀ n ∈ [0x005, 0x020, 0x021, 0x022, 0x023, 0x030, 0x060, 0x305, 0x345, 0x705, 0xC00, 0xC01, 0xC02], s.writeCsr s.cur n v = s

/-! ## Scalar memory -/

/-- R58, R75 to R79, R81, R176: a load of a word of the own core's SRAM, by the action that the word's entry names. PERFORM writes the value there,
extended, with the entry's tag update where the line is the thread's own; WAIT parks the access; REDIRECT reads at the target in its place,
here one in the same SRAM; TRAP and REFUSE are cause 24 with the address as value. Nothing else changes. (The log of earlier bytes that State.Read
names is the model's own: log entry 106.) -/
def Obligations.LocalLoads : Prop :=
  ∀ (s : State) (k : Bool) (d : Fin 32) (base : Opnd) (off : BitVec 9) (o : Nat), s.me.AtStart → OpenWord s (o / 8) →
    let own := s.ownerOfHart s.cur
    let m := s.myCore.sram
    let w := o / 8
    let set := (Tab.find? m.sets (m.setOf w)).getD TableSet.init
    let e := m.entry w 0 (m.tagFor own w)
    let action := bits e 0 3
    let bank := 8 * w / 0x1C000
    let target : Word := Tab.get 0 set.active.rbase (bits e 9 2) + BitVec.ofNat 64 (o % 0x4000)
    let updated (m' : Sram) : Prop := if e.getLsbD 3 = true ∧ m.ownerOf o = own then m.Retagged m' w (BitVec.ofNat 3 (bits e 4 3)) else m' = m
    let loads (i : Instr) (n : Nat) (f : Nat → Word) : Prop :=
      let addr := s.me.opX base + BitVec.ofInt 64 (off.toInt * n)
      let writes (p : Nat) : Prop := ∃ r m' t, s.Read r ∧ updated m' ∧ exec i s = .next t ∧
        WritesX (r.numbered.setMyCore { s.myCore with sram := m' }) t d (f (m.readFor own p n)) 0 (len1 base)
      NamesHere s .read addr n o →
        (action = 0 → writes o) ∧
        (action = 1 → s.stoppedHart s.cur = false → ∃ t q, exec i s = .next t ∧ t.me = { s.me with status := .access, pend := t.me.pend } ∧
          q.hart = s.cur ∧ q.named = addr ∧ q.elems = [(o, 0)] ∧ SameMemory s t ∧
          t.myCore.sram = (if (m.parks.filter (fun x => decide (x.bank = bank))).length < 8 then { m with parks := m.parks ++ [⟨q, bank, w, false⟩] }
            else { m with held := m.held ++ [q] }) ∧ ∀ h, h ≠ s.cur → t.thread h = s.thread h) ∧
        (action = 2 → ∀ p, NamesHere s .read target n p → PlainWord s 0 (p / 8) → p / 8 ≠ w → writes p) ∧
        (3 ≤ action → ∃ s1, exec i s = .next (s1.trap s.cur 24 addr
            (BitVec.ofNat 14 (8 * (m.tagFor own w).toNat + 64 * action + 512 * m.setOf w))) ∧
          SameMemory s s1 ∧ s1.cur = s.cur ∧ ∀ h, s1.thread h = s.thread h)
    loads (.lb k d base off) 1 (fun v => (BitVec.ofNat 8 v).signExtend 64) ∧
    loads (.lbu k d base off) 1 (fun v => BitVec.ofNat 64 v) ∧
    loads (.lh k d base off) 2 (fun v => (BitVec.ofNat 16 v).signExtend 64) ∧
    loads (.lhu k d base off) 2 (fun v => BitVec.ofNat 64 v) ∧
    loads (.lw k d base off) 4 (fun v => (BitVec.ofNat 32 v).signExtend 64) ∧
    loads (.lwu k d base off) 4 (fun v => BitVec.ofNat 64 v) ∧
    loads (.ld k d base off) 8 (fun v => BitVec.ofNat 64 v)

/-- R177, R70, R75: a store to the own core's SRAM that passes the action table stores its low bytes there, and every other byte reads as
before. -/
def Obligations.LocalStores : Prop :=
  ∀ (s : State) (k : Bool) (d base : Opnd) (off : BitVec 9) (o : Nat), s.me.AtStart → PlainWord s 1 (o / 8) →
    let stores (i : Instr) (n : Nat) : Prop :=
      NamesHere s .write (s.me.opX base + BitVec.ofInt 64 (off.toInt * n)) n o →
        ∃ t, exec i s = .next t ∧ StoresHere s t o n (s.me.opX d).toNat none (len2 d base)
    stores (.sb k d base off) 1 ∧ stores (.sh k d base off) 2 ∧ stores (.sw k d base off) 4 ∧ stores (.sd k d base off) 8

/-- R179 to R181, R228: the ordered accesses at the own core's SRAM, and the fences, FENCE.X among them. A store with release and a fence wait while an earlier
access of the thread in their scope is on its way; a load with acquire does not. -/
def Obligations.OrderedAccesses : Prop :=
  ∀ (s : State) (k : Bool) (d : Fin 32) (a b : Opnd) (scope : Scope) (o : Nat), s.me.AtStart →
    (∀ kind : LdKind, PlainWord s 0 (o / 8) → NamesHere s .read (s.me.opX a) (ldBytes kind) o →
      ∃ r t, s.Read r ∧ exec (.loadAcquire k d a scope kind) s = .next t ∧
        WritesX { r.numbered with ahead := false } t d (extend kind (BitVec.ofNat 64 (s.myCore.sram.readFor (s.ownerOfHart s.cur) o (ldBytes kind)))) 0 (len1 a)) ∧
    (∀ kind : StKind, PlainWord s 1 (o / 8) → NamesHere s .write (s.me.opX a) (stBytes kind) o → s.outstandingIn s.cur scope = false →
      ∃ t, exec (.storeRelease k b a scope kind) s = .next t ∧ StoresHere s t o (stBytes kind) (s.me.opX b).toNat none (len2 b a)) ∧
    (∀ kind : StKind, NamesHere s .write (s.me.opX a) (stBytes kind) o → s.outstandingIn s.cur scope = true →
      ∃ t, exec (.storeRelease k b a scope kind) s = .next t ∧ Waits s t .fence) ∧
    (s.outstandingIn s.cur scope = false →
      ∃ t, exec (.fence k scope) s = .next t ∧
        Passes (s.setMe { s.me with fenceSeq := if scope = .sys then s.logSeq else s.me.fenceSeq }) t 4) ∧
    (s.outstandingIn s.cur scope = true → ∃ t, exec (.fence k scope) s = .next t ∧ Waits s t .fence) ∧
    (isDrain s.cur = false → s.me.deferred = none → s.myCore.busyFor s.cur = false →
      ∃ t, exec (.fenceX k) s = .next t ∧ Passes s t 4) ∧
    (isDrain s.cur = false → s.me.deferred = none → s.myCore.busyFor s.cur = true →
      ∃ t, exec (.fenceX k) s = .next t ∧ Waits s t .engine)

/-- R182 to R184: an atomic on a word of the own core's SRAM that passes the action table writes the old value to d and stores the new
one; with an ordering it waits while an earlier access of the thread in its scope is on its way. -/
def Obligations.LocalAtomics : Prop :=
  ∀ (s : State) (k : Bool) (d : Fin 32) (a b : Opnd) (ord : Ord) (o : Nat), s.me.AtStart → PlainWord s 2 (o / 8) →
    NamesHere s .atomic (s.me.opX a) 8 o →
    let old : Word := BitVec.ofNat 64 (s.myCore.sram.readFor (s.ownerOfHart s.cur) o 8)
    let y := s.me.opX b
    let does (i : Instr) (new : Word) : Prop :=
      (ord = .none ∨ s.outstandingIn s.cur (ordScope ord) = false →
        ∃ t, exec i s = .next t ∧ StoresHere (if ord = .none then s else { s with ahead := false }) t o 8 new.toNat (some (d, old)) (len2 a b)) ∧
      (ord ≠ .none → s.outstandingIn s.cur (ordScope ord) = true → ∃ t, exec i s = .next t ∧ Waits s t .fence)
    let half (j : Nat) : Nat :=
      (Fmt.f32.addR .rne (Fmt.f32.decode (old.toNat / 2 ^ (32 * j) % 2 ^ 32)) (Fmt.f32.decode (y.toNat / 2 ^ (32 * j) % 2 ^ 32))).bits
    does (.amoadd k d a b ord) (old + y) ∧ does (.amoand k d a b ord) (old &&& y) ∧ does (.amoor k d a b ord) (old ||| y) ∧
    does (.amoxor k d a b ord) (old ^^^ y) ∧
    does (.amomin k d a b ord) (BitVec.ofInt 64 (min old.toInt y.toInt)) ∧ does (.amomax k d a b ord) (BitVec.ofInt 64 (max old.toInt y.toInt)) ∧
    does (.amominu k d a b ord) (BitVec.ofNat 64 (min old.toNat y.toNat)) ∧
    does (.amomaxu k d a b ord) (BitVec.ofNat 64 (max old.toNat y.toNat)) ∧
    does (.amoswap k d a b ord) y ∧ does (.amocas k d a b ord) (if old = s.me.getX d then y else old) ∧
    does (.amofadd k d a b ord) (BitVec.ofNat 64 (half 0 + 2 ^ 32 * half 1))

/-- R58, R175, Table 12.1: a scalar access whose bytes are not all legal is cause 34, and a misaligned one is cause 4 for a load and
cause 6 for a store or an atomic, each with the address as value; nothing is accessed. -/
def Obligations.AccessChecks : Prop :=
  ∀ (s : State) (k : Bool) (d : Fin 32) (a b : Opnd) (off : BitVec 9) (scope : Scope) (ord : Ord),
    let x := s.me.opX a
    let addr (n : Nat) : Word := x + BitVec.ofInt 64 (off.toInt * n)
    let checks (i : Instr) (x : Word) (n cause : Nat) : Prop :=
      (s.resolveRange s.cur x.toNat n = none → exec i s = s.trapMe 34 x) ∧
      (s.resolveRange s.cur x.toNat n ≠ none → x.toNat % n ≠ 0 → exec i s = s.trapMe cause x)
    (∀ l ∈ [(Instr.lb k d a off, 1), (.lbu k d a off, 1), (.lh k d a off, 2), (.lhu k d a off, 2), (.lw k d a off, 4), (.lwu k d a off, 4),
      (.ld k d a off, 8)], checks l.1 (addr l.2) l.2 4) ∧
    (∀ l ∈ [(Instr.sb k b a off, 1), (.sh k b a off, 2), (.sw k b a off, 4), (.sd k b a off, 8)], checks l.1 (addr l.2) l.2 6) ∧
    (∀ i ∈ [Instr.amoadd k d a b ord, .amoand k d a b ord, .amoor k d a b ord, .amoxor k d a b ord, .amomin k d a b ord, .amomax k d a b ord,
      .amominu k d a b ord, .amomaxu k d a b ord, .amoswap k d a b ord, .amocas k d a b ord, .amofadd k d a b ord], checks i x 8 6) ∧
    (∀ kind : LdKind, checks (.loadAcquire k d a scope kind) x (ldBytes kind) 4) ∧
    (∀ kind : StKind, checks (.storeRelease k b a scope kind) x (stBytes kind) 6)

/-! ## Tags and action tables -/

/-- R185, R83, R186 to R188: on a word of the own core's SRAM, TLD, TST and TCAS act on the tag of the word that holds the address; on a set of
the own core, TTAB.WR writes the shadow copy, TTAB.RD reads one item, and TTAB.SWAP exchanges the two copies. Each completes and consults
no table. (On a hub core the PMP must permit the three.) -/
def Obligations.LocalTagInstructions : Prop :=
  ∀ (s : State) (k : Bool) (d : Fin 32) (a b : Opnd) (w : Nat), s.me.AtStart →
    let x := s.me.opX a
    let n := x.toNat
    let m := s.myCore.sram
    let old := m.tagFor (s.ownerOfHart s.cur) w
    let new : BitVec 3 := (s.me.opX b).setWidth 3
    let set := (Tab.find? m.sets (n / 64 % 4)).getD TableSet.init
    let with_ (m' : Sram) : State := (s.numbered).setMyCore { s.myCore with sram := m' }
    (s.resolve s.cur (n / 8 * 8) = some (.sram (.core s.cur.core) (8 * w)) → w ∉ m.errs → w / 8 ∉ m.ownerErrs →
      Tab.find? m.soft w = none →
      (s.pmpOk s.cur (n / 8 * 8) 8 .read = true → ∃ t, exec (.tld k d a) s = .next t ∧ WritesX s.numbered t d (old.setWidth 64) 0 (len1 a)) ∧
      (s.pmpOk s.cur (n / 8 * 8) 8 .write = true → ∃ t, exec (.tst k a b) s = .next t ∧ TagsHere s t w new none (len2 a b)) ∧
      (s.pmpOk s.cur (n / 8 * 8) 8 .atomic = true → ∃ t, exec (.tcas k d a b) s = .next t ∧
        TagsHere s t w (if old = (s.me.getX d).setWidth 3 then new else old) (some (d, old.setWidth 64)) (len2 a b))) ∧
    (n / 2 ^ 8 % 2 = 0 → n < 2 ^ 11 →
      (n / 2 ^ 10 % 2 = 0 → (n / 2 ^ 9 % 2 = 1 → n % 64 < 4) →
        ∃ t, exec (.ttabWr k a b) s = .next t ∧
          Passes (with_ { m with sets := Tab.set (n / 64 % 4) { set with shadow := set.shadow.write x (s.me.opX b) } m.sets }) t (len2 a b)) ∧
      ((n / 2 ^ 9 % 2 = 1 → n % 64 < 4) →
        ∃ t, exec (.ttabRd k d a) s = .next t ∧
          WritesX (with_ m) t d ((if n / 2 ^ 10 % 2 = 1 then set.shadow else set.active).item x) 0 (len1 a)) ∧
      (n / 2 ^ 9 % 4 = 0 → n % 64 = 0 →
        ∃ t m', exec (.ttabSwap k a) s = .next t ∧ Passes (with_ m') t (len1 a) ∧
          m'.sets = Tab.set (n / 64 % 4) ⟨set.shadow, set.active⟩ m.sets ∧ m' = { m with sets := m'.sets, parks := m'.parks } ∧
          (∀ q ∈ m'.parks, m.setOf q.word = n / 64 % 4 → q.woken = true)))

/-! ## Messages and threads -/

/-- R191: MRECV, MPOLL and MCOUNT in a user thread: the entries it sees are its own, and of those only replayed ones while it has
spilled entries; MRECV removes the first, or waits; a thread that sees none may ask for the spill thread (R193). -/
def Obligations.MessageReceives : Prop :=
  ∀ (s : State) (k : Bool) (d : Fin 32) (h4 : s.cur.th < 4), kindOf s.cur.core = .compute →
    let c := s.myCore
    let seen := c.inbox.filter (fun e => decide (bits e.bytes 32 2 = s.cur.th) && (decide (c.spillcnt[s.cur.th] = 0) || e.loop))
    let asked := s.askSpill s.cur
    (asked = s ∨ asked = s.setMyCore { c with spillAsk := true }) ∧
    (∀ e later, seen = e :: later →
      (∃ t before after, exec (.mrecv k d) s = .next t ∧ c.inbox = before ++ e :: after ∧ (∀ y ∈ before, y ∉ seen) ∧
        WritesV (s.setMyCore { c with inbox := before ++ after }) t d e.bytes 0 4) ∧
      (∃ t, exec (.mpoll k d) s = .next t ∧ WritesX s t d (setBits (e.bytes.setWidth 64) 61 1 1) 0 4) ∧
      (∃ t, exec (.mcount k d) s = .next t ∧ WritesX s t d (BitVec.ofNat 64 (later.length + 1)) 0 4)) ∧
    (seen = [] →
      (∃ t, exec (.mrecv k d) s = .next t ∧ Waits asked t .mrecv) ∧
      (∃ t, exec (.mpoll k d) s = .next t ∧ WritesX asked t d 0 0 4) ∧
      (∃ t, exec (.mcount k d) s = .next t ∧ WritesX asked t d 0 0 4))

/-- R190, R192: MSEND whose destination is a core of the partition sends the 64 bytes with the destination thread and the sender in
bits 63 to 32, after it has waited for the thread's earlier accesses at .dev; other destinations are cause 34, and another core from the
react half of a strict domain is cause 32. -/
def Obligations.MessageSends : Prop :=
  ∀ (s : State) (k : Bool) (a b : Opnd), isSpill s.cur = false →
    let x := s.me.opX a
    let core := bits x 0 12
    let legal := bits x 14 50 = 0 ∧ s.clusterOk s.cur.core (core / 16) = true
    let strict := core ≠ s.cur.core ∧ s.strictReact s.cur = true
    (legal → ¬ strict → s.outstandingIn s.cur .dev = false →
      ∃ t e, exec (.msend k a b) s = .next t ∧
        Passes { s with nextId := s.nextId + 1, net := s.net ++ [.user s.nextId s.cur core e] } t (len2 a b) ∧
        (∀ j, j < 32 ∨ 64 ≤ j → e.getLsbD j = (s.me.opV .i32 b).getLsbD j) ∧ bits e 32 2 = bits x 12 2 ∧
        bits e 34 2 = (s.myCore.receiver s.cur.th).val ∧ bits e 36 12 = s.cur.core % 4096 ∧ bits e 48 16 = 0) ∧
    (legal → ¬ strict → s.outstandingIn s.cur .dev = true → ∃ t, exec (.msend k a b) s = .next t ∧ Waits s t .fence) ∧
    (¬ legal → exec (.msend k a b) s = s.trapMe 34 x) ∧
    (legal → strict → exec (.msend k a b) s = s.trapMe 32 x)

/-- R191, R193, R194: the spill thread: it sees every entry, MRECV counts one more spilled entry, MCOUNT adds the free places, and MLOOP
puts an entry back ahead of those that it has not replayed, counting one less, or writes 0 when the inbox is full. -/
def Obligations.SpillThread : Prop :=
  ∀ (s : State) (k : Bool) (d : Fin 32) (a : Opnd), isSpill s.cur = true →
    let c := s.myCore
    let v : BitVec 512 := s.me.opV .i32 a
    let e : Entry := ⟨v, true⟩
    (∃ t, exec (.mcount k d) s = .next t ∧ WritesX s t d (BitVec.ofNat 64 (c.inbox.length + 256 * (48 - c.inbox.length))) 0 4) ∧
    (∀ f later, c.inbox = f :: later → c.spillcnt[f.dst.val] < 65535 →
      ∃ t, exec (.mrecv k d) s = .next t ∧
        WritesV (s.setMyCore (({ c with inbox := later, spillcnt := c.spillcnt.set f.dst.val (c.spillcnt[f.dst.val] + 1) }).wake Status.isMrecv))
          t d f.bytes 0 4) ∧
    (headerType (v.setWidth 64) ≠ 1 → headerType (v.setWidth 64) ≠ 3 → c.spillcnt[e.dst.val] ≠ 0 →
      (48 ≤ c.inbox.length → ∃ t, exec (.mloop k d a) s = .next t ∧ WritesX s t d 0 0 (len1 a)) ∧
      (c.inbox.length < 48 → (s.thread ⟨s.cur.core, e.dst.val⟩).status ≠ .idle →
        ∃ t before after, exec (.mloop k d a) s = .next t ∧ c.inbox = before ++ after ∧
          (∀ y ∈ before, y.loop = true ∨ y.dst ≠ e.dst) ∧ (∀ y ∈ after.head?, y.loop = false ∧ y.dst = e.dst) ∧
          WritesX (s.setMyCore (({ c with
            spillcnt := c.spillcnt.set e.dst.val (c.spillcnt[e.dst.val] - 1), inbox := before ++ e :: after }).wake Status.isMrecv))
            t d 1 0 (len1 a)))

/-- R195, R197, R198: YIELD changes nothing; PHINT records what is live; UIRET leaves the handler for UEPC, and makes the spill thread
idle. -/
def Obligations.ThreadInstructions : Prop :=
  ∀ (s : State) (k : Bool) (a b : Opnd),
    let x := s.me.opX a
    (∃ t, exec (.yield k) s = .next t ∧ Passes s t 4) ∧
    (isDrain s.cur = false → isSpill s.cur = false → s.me.user.h = true →
      ∃ t, exec (.phint k a b) s = .next t ∧ Passes s t (len2 a b)) ∧
    (isDrain s.cur = false → isSpill s.cur = false → s.me.user.h = false → s.halting s.cur.core = false → s.me.opX b = 0 →
      ∃ t, exec (.phint k a b) s = .next t ∧
        Passes (s.setMe { s.me with hint := some ⟨BitVec.ofNat 32 (bits x 1 31 * 2), BitVec.ofNat 32 (bits x 32 32), []⟩ }) t (len2 a b)) ∧
    (isDrain s.cur = false → isSpill s.cur = false → s.me.user.h = false → s.halting s.cur.core = true → kindOf s.cur.core = .compute →
      s.me.opX b = 0 → ∃ t, exec (.phint k a b) s = .next t ∧ t.me.status = .halted false ∧ t.me.retired = s.me.retired + 1) ∧
    (isDrain s.cur = false → isSpill s.cur = false → s.me.user.h = true →
      ∃ t, exec (.uiret k) s = .next t ∧ t = s.setMe t.me ∧ t.me.pc = s.me.user.uepc ∧ t.me.user = { s.me.user with h := false } ∧
        t.me.retired = s.me.retired + 1 ∧
        t.me = { s.me with pc := t.me.pc, user := t.me.user, retired := t.me.retired, rep := t.me.rep } ∧
        (s.me.rep = none → t.me.rep = none) ∧
        (∀ r, s.me.rep = some r → t.me.rep = if s.me.level = r.level ∧ s.me.user.uepc ≠ r.trapped then none else some r)) ∧
    (isSpill s.cur = true →
      ∃ t, exec (.uiret k) s = .next t ∧ t = s.setMe { s.me with retired := s.me.retired + 1, status := .idle }) ∧
    (isDrain s.cur = false → isSpill s.cur = false → s.me.user.h = false → exec (.uiret k) s = s.trapMe 39 0)

/-- R40, R196, R54: NEXIT in a thread whose commands have completed ends its node: the thread is idle, its entries are gone, its generators are
unbound, and it exits its domain and leaves the outstanding set of every signal; while a command is not complete it waits. -/
def Obligations.NodeExit : Prop :=
  ∀ (s : State) (k : Bool), isDrain s.cur = false → isSpill s.cur = false → s.me.deferred = none →
    (s.myCore.busyFor s.cur = true → ∃ t, exec (.nexit k) s = .next t ∧ Waits s t .engine) ∧
    (s.myCore.busyFor s.cur = false → ∃ t, exec (.nexit k) s = .next t ∧
      t.me = { s.me with status := .idle, member := none, rep := none, hint := none, retired := s.me.retired + 1, bill := t.me.bill } ∧
      t.myCore.inbox = s.myCore.inbox.filter (fun e => decide (e.dst.val ≠ s.cur.th)) ∧
      (∀ h : s.cur.th < 4, t.myCore.spillcnt[s.cur.th] = 0) ∧
      (∀ g : Fin 4, t.myCore.gens[g.val].bound ≠ some s.cur.th) ∧
      (s.myDomain s.cur = none → t.domains = s.domains ∧ ∀ h, h ≠ s.cur → (t.thread h).unbilled = (s.thread h).unbilled) ∧
      (∀ n i d, s.myDomain s.cur = some (n, i, d) →
        let members := d.members.modify i (fun m => { m with exited := true, left := s.nextId })
        let left (g : Sig) : Sig := if i ∈ g.out then
          let out := g.out.filter (fun j => decide (j ≠ i))
          { g with out := out, status := if out = [] ∧ g.status = .unknown then .absent else g.status } else g
        (∀ j, j ≠ n → j ≠ 16 + d.gid → Tab.find? t.domains j = Tab.find? s.domains j) ∧
        (∀ d', Tab.find? t.domains n = some d' → d'.members = members ∧ d'.sigs = d.sigs.map left) ∧
        (d.flying = [] → (∀ m ∈ members, m.exited = true) → Tab.find? t.domains n = none) ∧
        ∀ h, h ≠ s.cur → (t.thread h).unbilled = (s.thread h).unbilled ∨
          (∃ m ∈ d.members, m.hart = h) ∧ (s.thread h).status.isSignal = true ∧
            (t.thread h).unbilled = { s.thread h with status := Status.again }.unbilled) ∧
      SameMemory s t ∧ (∀ gid, gid ≠ s.me.grid → Tab.find? t.grids gid = Tab.find? s.grids gid) ∧ t.queues = s.queues ∧
      ∀ n c, Tab.find? s.ctxs n = some c → ∃ e f, Tab.find? t.ctxs n = some { c with energy := e, energyFrom := f })

/-! ## Instants -/

/-- R271, R273, Table 4.5: SIG.EMIT by an emitter that has not skipped, and SIG.SKIP: the signal's new value, status and outstanding set,
once earlier accesses at .dev are done for the emit. No other signal changes, and only members blocked on a signal look again. (That a
SIG.SKIP without effect also ends R44's record of a declared cycle is the model's choice: log entry 38.) -/
def Obligations.SignalsAreSet : Prop :=
  ∀ (s : State) (k : Bool) (a b : Opnd) (n i : Nat) (d : Domain) (g : Sig), s.myDomain s.cur = some (n, i, d) →
    let x := (s.me.opX a).toNat
    let y := s.me.opX b
    d.sigs[x]? = some g → isDrain s.cur = false → d.exch = false → i ∈ g.emitters →
    let sets (i : Instr) (len : Nat) (g' : Sig) : Prop := ∃ t s', exec i s = .next t ∧ Passes s' t len ∧
      s'.domains = Tab.set n { d with sigs := d.sigs.set x g', declared := false } s.domains ∧
      s' = { s with domains := s'.domains, cores := s'.cores } ∧
      ∀ h, s'.thread h = s.thread h ∨ s.SignalReader d s' h
    let combined : Word := match g.combine with
      | 0 => g.value ||| y
      | 1 => g.value + y
      | 2 => BitVec.ofInt 64 (max g.value.toInt y.toInt)
      | _ => BitVec.ofInt 64 (min g.value.toInt y.toInt)
    let others := g.out.filter (fun j => decide (j ≠ i))
    (i ∉ g.skipped → g.status ≠ .absent → s.outstandingIn s.cur .dev = false →
      sets (.sigEmit k a b) (len2 a b) { g with value := combined, status := .present, out := others }) ∧
    (i ∉ g.skipped → g.status ≠ .absent → s.outstandingIn s.cur .dev = true → ∃ t, exec (.sigEmit k a b) s = .next t ∧ Waits s t .fence) ∧
    (i ∈ g.skipped ∨ g.status = .absent → exec (.sigEmit k a b) s = s.trapMe 33 (BitVec.ofNat 64 (2 * 256 + x % 256))) ∧
    (i ∈ g.out → sets (.sigSkip k a) (len1 a)
      { g with out := others, status := if others = [] ∧ g.status = .unknown then .absent else g.status, skipped := i :: g.skipped }) ∧
    (i ∉ g.out → sets (.sigSkip k a) (len1 a) g)

/-- R41, R272: SIG.TEST reads the status and that of the last instant; SIG.VAL waits for a settled signal and BPRES and BABS for a known
status. (That an untaken branch with an odd target passes, and one on an unknown signal waits, is the model's reading: log entry 39.) -/
def Obligations.SignalsAreRead : Prop :=
  ∀ (s : State) (k : Bool) (r : Fin 32) (a b : Opnd) (n i : Nat) (d : Domain) (g : Sig), s.myDomain s.cur = some (n, i, d) →
    let x := (s.me.opX a).toNat
    let target := s.me.pc + s.me.opX b
    d.sigs[x]? = some g →
    (∃ t, exec (.sigTest k r a) s = .next t ∧
      WritesX s t r (BitVec.ofNat 64 ((match g.status with | .unknown => 0 | .present => 1 | .absent => 2) + if g.prev then 4 else 0)) 0 (len1 a)) ∧
    (g.out = [] → ∃ t, exec (.sigVal k r a) s = .next t ∧ WritesX s t r (if g.status = .absent then 0 else g.value) 0 (len1 a)) ∧
    (g.out ≠ [] → isDrain s.cur = false → ∃ t, exec (.sigVal k r a) s = .next t ∧ Waits s t (.signal x true)) ∧
    (∀ i want, (i, want) ∈ [(Instr.bpres k a b, SigStatus.present), (Instr.babs k a b, SigStatus.absent)] →
      (g.status = .unknown → isDrain s.cur = false → ∃ t, exec i s = .next t ∧ Waits s t (.signal x false)) ∧
      (g.status = want → target.getLsbD 0 = false → ∃ t, exec i s = .next t ∧ JumpsTo s t target none) ∧
      (g.status = want → target.getLsbD 0 = true → exec i s = s.trapMe 0 target) ∧
      (g.status ≠ .unknown → g.status ≠ want → ∃ t, exec i s = .next t ∧ Passes s t (len2 a b)))

/-- R274 to R276: PAUSE counts as the member's pause and takes it out of every outstanding set; DSET writes the next half and DGET reads
the current half; IREC reads the imbalance record. (That a pause counts by the CYCLE of the first member's core is the model's choice: log
entry 88.) -/
def Obligations.ReactHalf : Prop :=
  ∀ (s : State) (k : Bool) (r : Fin 32) (q : Fin 16) (b : Opnd) (n i : Nat) (d : Domain) (m : Member), s.myDomain s.cur = some (n, i, d) →
    d.members[i]? = some m → m.hart = s.cur → isDrain s.cur = false →
    (s.me.user.h = false → d.exch = false → m.paused = none → s.outstandingIn s.cur .sys = false →
      ∃ t d', exec (.pause k) s = .next t ∧ t.me = { s.me with status := .pause } ∧ t.domains = Tab.set n d' s.domains ∧
        d'.members = d.members.set i { m with paused := some ((s.clockOf d).toNat - d.started) } ∧
        d'.sigs = d.sigs.map (fun g => if i ∈ g.out then
          let out := g.out.filter (fun j => decide (j ≠ i))
          { g with out := out, status := if out = [] ∧ g.status = .unknown then .absent else g.status } else g) ∧
        d' = { d with members := d'.members, sigs := d'.sigs, declared := d'.declared } ∧
        t = { s with domains := t.domains, cores := t.cores } ∧ SameMemory s t ∧
        ∀ h, h ≠ s.cur → t.thread h = s.thread h ∨ s.SignalReader d t h) ∧
    (s.me.user.h = false → d.exch = false → m.paused = none → s.outstandingIn s.cur .sys = true →
      ∃ t, exec (.pause k) s = .next t ∧ Waits s t .fence) ∧
    (d.exch = true → s.me.user.h = false → exec (.pause k) s = s.trapMe 33 (BitVec.ofNat 64 (4 * 256))) ∧
    (∃ t, exec (.dset k q b) s = .next t ∧ Passes (s.setMe { s.me with dnext := s.me.dnext.set q.val (s.me.opX b) }) t (len1 b)) ∧
    (∃ t, exec (.dget k r q) s = .next t ∧ WritesX s t r s.me.dcur[q.val] 0 4) ∧
    (∃ t, exec (.irec k r b) s = .next t ∧ WritesX s t r (d.record.getD (bits (s.me.opX b) 0 2) 0) 0 (len1 b))

/-- R48, R278 to R280: XSEND.AT with an entry for its member and slot and a 64-byte aligned source in its own SRAM waits for its slot; a
missing or repeated entry is cause 31, a slot that has passed cause 30, and the react half a misuse; XEND ends the member's half; XSLOT
reads the slot counter. -/
def Obligations.ExchangeHalf : Prop :=
  ∀ (s : State) (k : Bool) (r : Fin 32) (a b : Opnd) (n i : Nat) (d : Domain) (m : Member), s.myDomain s.cur = some (n, i, d) →
    d.members[i]? = some m → isDrain s.cur = false →
    let x := s.me.opX a
    let src := s.me.opX b
    let slot := BitVec.ofNat 64 (bits x 0 16)
    (d.exch = false → exec (.xsendAt k a b) s = s.trapMe 33 (BitVec.ofNat 64 (5 * 256))) ∧
    (d.exch = true →
      (∀ e off, d.plan.find? (fun e => decide (e.sender = i) && decide (e.slot = x.toNat)) = some e → e.slot ∉ m.sent → d.slot ≤ e.slot →
        s.resolveRange s.cur src.toNat (64 * e.beats) = some (.sram (.core s.cur.core) off) → off + 64 * e.beats ≤ 0x1B0000 →
        src.toNat % 64 = 0 →
        ∃ t, exec (.xsendAt k a b) s = .next t ∧
          Waits { s with domains := Tab.set n { d with
            members := d.members.set i { m with sent := e.slot :: m.sent }
            sends := d.sends ++ [⟨e, off, s.cur, 0, len2 a b⟩] } s.domains } t .xsend) ∧
      (d.plan.find? (fun e => decide (e.sender = i) && decide (e.slot = x.toNat)) = none → exec (.xsendAt k a b) s = s.trapMe 31 slot) ∧
      (∀ e, d.plan.find? (fun e => decide (e.sender = i) && decide (e.slot = x.toNat)) = some e →
        (e.slot ∈ m.sent → exec (.xsendAt k a b) s = s.trapMe 31 slot) ∧
        (e.slot ∉ m.sent → e.slot < d.slot → exec (.xsendAt k a b) s = s.trapMe 30 slot))) ∧
    (d.exch = true → s.me.user.h = false → s.outstandingIn s.cur .sys = false →
      ∃ t, exec (.xend k) s = .next t ∧ Waits { s with domains := Tab.set n { d with members := d.members.set i { m with ended := true } } s.domains } t .xend) ∧
    (d.exch = false → s.me.user.h = false → exec (.xend k) s = s.trapMe 33 (BitVec.ofNat 64 (5 * 256))) ∧
    (∃ t, exec (.xslot k r) s = .next t ∧
      WritesX s t r (if d.exch = true ∧ d.plan ≠ [] then BitVec.ofNat 64 d.slot else 0) 0 4)

/-! ## Vectors -/

/-- R203, R204, R202: the floating-point lanes of majors 0x10 and 0x16, and the masks of their compares. -/
def Obligations.VectorFloatLanes : Prop :=
  ∀ (s : State) (k : Bool) (d : Fin 32) (m : Fin 8) (a b : Opnd) (lt : FType),
    let f := ftFmt lt
    let w := ftBytes lt
    let rm := rmOf s.me.fmode
    let pa (i : Nat) : Nat := lane (s.me.opV (ftLt lt) a) w i
    let pb (i : Nat) : Nat := lane (s.me.opV (ftLt lt) b) w i
    let x (i : Nat) : Machine.Num := f.decode (pa i)
    let y (i : Nat) : Machine.Num := f.decode (pb i)
    let x32 (i : Nat) : Machine.Num := Fmt.f32.decode (lane (s.me.opV .f32 a) 4 i)
    LanesTo s (.vfadd k d a b lt) d w (len2 a b) (fun i => f.addR rm (x i) (y i)) ∧
    LanesTo s (.vfsub k d a b lt) d w (len2 a b) (fun i => f.subR rm (x i) (y i)) ∧
    LanesTo s (.vfmul k d a b lt) d w (len2 a b) (fun i => f.mulR rm (x i) (y i)) ∧
    LanesTo s (.vfma k d a b lt) d w (len2 a b) (fun i => f.fmaR rm (x i) (y i) (f.decode (lane (s.me.getV d) w i))) ∧
    LanesTo s (.vfmax k d a b lt) d w (len2 a b) (fun i => f.minMax true (pa i) (pb i)) ∧
    LanesTo s (.vfmin k d a b lt) d w (len2 a b) (fun i => f.minMax false (pa i) (pb i)) ∧
    LanesTo s (.vfexp2 k d a) d 4 (len1 a) (fun i => exp2R (x32 i)) ∧ LanesTo s (.vfrcp k d a) d 4 (len1 a) (fun i => rcpR (x32 i)) ∧
    LanesTo s (.vfrsq k d a) d 4 (len1 a) (fun i => rsqR (x32 i)) ∧ LanesTo s (.vflog2 k d a) d 4 (len1 a) (fun i => log2R (x32 i)) ∧
    LanesTo s (.vfabs k d a lt) d w (len1 a) (fun i => ⟨pa i % f.signBit, 0⟩) ∧
    LanesTo s (.vfneg k d a lt) d w (len1 a) (fun i => ⟨(pa i + f.signBit) % (2 * f.signBit), 0⟩) ∧
    MaskTo s (.vfcmpEq k m a b lt) m w (len2 a b) (fun i => (x i).eq (y i)) (fun i => cmpFlags false (x i) (y i)) ∧
    MaskTo s (.vfcmpLt k m a b lt) m w (len2 a b) (fun i => (x i).lt (y i)) (fun i => cmpFlags true (x i) (y i)) ∧
    MaskTo s (.vfcmpLe k m a b lt) m w (len2 a b) (fun i => (x i).le (y i)) (fun i => cmpFlags true (x i) (y i)) ∧
    MaskTo s (.vfcmpUn k m a b lt) m w (len2 a b) (fun i => (x i).isNan || (y i).isNan) (fun i => cmpFlags false (x i) (y i))

/-- R205, R202: the integer lanes of major 0x11, modulo 2^n or as signed numbers of n bits, and the masks of their compares. -/
def Obligations.VectorIntegerLanes : Prop :=
  ∀ (s : State) (k : Bool) (d : Fin 32) (m : Fin 8) (a b : Opnd) (w : Width),
    let n := 8 * widthBytes w
    let x (i : Nat) : Nat := lane (s.me.opV (widthLt w) a) (widthBytes w) i
    let y (i : Nat) : Nat := lane (s.me.opV (widthLt w) b) (widthBytes w) i
    let sx (i : Nat) : Int := (BitVec.ofNat n (x i)).toInt
    let sy (i : Nat) : Int := (BitVec.ofNat n (y i)).toInt
    let nat (i : Instr) (f : Nat → Nat) : Prop := LanesTo s i d (widthBytes w) (len2 a b) (fun j => ⟨f j, 0⟩)
    let int (i : Instr) (f : Nat → Int) : Prop := LanesTo s i d (widthBytes w) (len2 a b) (fun j => ⟨(BitVec.ofInt n (f j)).toNat, 0⟩)
    int (.vadd k d a b w) (fun i => sx i + sy i) ∧ int (.vsub k d a b w) (fun i => sx i - sy i) ∧
    int (.vmul k d a b w) (fun i => sx i * sy i) ∧ int (.vmin k d a b w) (fun i => min (sx i) (sy i)) ∧
    int (.vmax k d a b w) (fun i => max (sx i) (sy i)) ∧ nat (.vand k d a b w) (fun i => x i &&& y i) ∧
    nat (.vor k d a b w) (fun i => x i ||| y i) ∧ nat (.vxor k d a b w) (fun i => x i ^^^ y i) ∧
    nat (.vshl k d a b w) (fun i => x i * 2 ^ (y i % n)) ∧ nat (.vshr k d a b w) (fun i => x i / 2 ^ (y i % n)) ∧
    int (.vshra k d a b w) (fun i => sx i / 2 ^ (y i % n)) ∧
    nat (.vsel k d a b w) (fun i => if lane (s.me.getV d) (widthBytes w) i ≠ 0 then x i else y i) ∧
    LanesTo s (.vmov k d b w) d (widthBytes w) (len1 b) (fun i => ⟨y i, 0⟩) ∧
    LanesTo s (.vbcast k d b w) d (widthBytes w) (len1 b) (fun _ => ⟨(s.me.opX b).toNat, 0⟩) ∧
    MaskTo s (.vcmpEq k m a b w) m (widthBytes w) (len2 a b) (fun i => decide (x i = y i)) (fun _ => 0) ∧
    MaskTo s (.vcmpLt k m a b w) m (widthBytes w) (len2 a b) (fun i => decide (sx i < sy i)) (fun _ => 0)

/-- R206: a 16-bit vector form is its 32-bit one with d and a the same register, of FP32 lanes or lanes of 4 bytes, and 2 bytes long. -/
def Obligations.VectorShortForms : Prop :=
  ∀ (s : State) (k : Bool) (d b : Fin 32),
    let x (i : Nat) : Nat := lane (s.me.getV d) 4 i
    let y (i : Nat) : Nat := lane (s.me.getV b) 4 i
    let fx (i : Nat) : Machine.Num := Fmt.f32.decode (x i)
    let fy (i : Nat) : Machine.Num := Fmt.f32.decode (y i)
    let sx (i : Nat) : Int := (BitVec.ofNat 32 (x i)).toInt
    let sy (i : Nat) : Int := (BitVec.ofNat 32 (y i)).toInt
    let rm := rmOf s.me.fmode
    let fp (i : Instr) (f : Nat → FRes) : Prop := LanesTo s i d 4 2 f
    let nat (i : Instr) (f : Nat → Nat) : Prop := LanesTo s i d 4 2 (fun j => ⟨f j, 0⟩)
    let int (i : Instr) (f : Nat → Int) : Prop := LanesTo s i d 4 2 (fun j => ⟨(BitVec.ofInt 32 (f j)).toNat, 0⟩)
    fp (.vfadd16 k d b) (fun i => Fmt.f32.addR rm (fx i) (fy i)) ∧ fp (.vfsub16 k d b) (fun i => Fmt.f32.subR rm (fx i) (fy i)) ∧
    fp (.vfmul16 k d b) (fun i => Fmt.f32.mulR rm (fx i) (fy i)) ∧ fp (.vfmax16 k d b) (fun i => Fmt.f32.minMax true (x i) (y i)) ∧
    fp (.vfmin16 k d b) (fun i => Fmt.f32.minMax false (x i) (y i)) ∧
    int (.vadd16 k d b) (fun i => sx i + sy i) ∧ int (.vsub16 k d b) (fun i => sx i - sy i) ∧ int (.vmul16 k d b) (fun i => sx i * sy i) ∧
    nat (.vand16 k d b) (fun i => x i &&& y i) ∧ nat (.vor16 k d b) (fun i => x i ||| y i) ∧ nat (.vxor16 k d b) (fun i => x i ^^^ y i) ∧
    nat (.vshl16 k d b) (fun i => x i * 2 ^ (y i % 32)) ∧ nat (.vshr16 k d b) (fun i => x i / 2 ^ (y i % 32)) ∧
    int (.vshra16 k d b) (fun i => sx i / 2 ^ (y i % 32)) ∧ int (.vmax16 k d b) (fun i => max (sx i) (sy i)) ∧
    nat (.vmov16 k d b) (fun i => y i)

/-- R207 to R213: conversions between lane types, VPACK, VUNPACK, VQUANT and VDEQ. VQUANT with duplication waits for an MX.DUP of its
thread; VDEQ of a malformed O4 group is cause 35. (The flags of conversions, and the lane types in which the constants and literals of VUNPACK
and VDEQ are read, are the model's reading: log entries 31 and 36.) -/
def Obligations.VectorConversions : Prop :=
  ∀ (s : State) (k : Bool) (d a b : Fin 32) (x y : Opnd) (src t : LType) (part : Fin 8) (pk : Pack),
    let rm := rmOf s.me.fmode
    LanesTo s (.vcvt k d x src t) d t.bytes (len1 x) (fun i =>
      if i < 64 / max src.bytes t.bytes then ltCvt t rm false (ltValue src (lane (s.me.opV src x) src.bytes i)) else ⟨0, 0⟩) ∧
    LanesTo s (.vpack k d x y t) d t.bytes (len2 x y) (fun i =>
      let st := packSource t
      ltCvt t rm false (ltValue st (if i < 32 / t.bytes then lane (s.me.opV st x) st.bytes i
        else lane (s.me.opV st y) st.bytes (i - 32 / t.bytes)))) ∧
    LanesTo s (.vunpack k d x part t) d t.bytes (len1 x) (fun i =>
      ⟨(ltCvt t .rne false (Num.ofInt (BitVec.ofNat 4 ((s.me.opV t x).toNat / 16 ^ (part.val * (64 / t.bytes) + i))).toInt)).bits, 0⟩) ∧
    (let ctl : Word32 := (s.me.getV b).setWidth 32
     let g := quantGroup pk (quotientOf s.myCore.engine ctl (s.me.elem64 a))
     (ctl.getLsbD 8 = false ∨ s.myCore.dupPending s.cur = false →
        ∃ t, exec (.vquant k d a b pk) s = .next t ∧ WritesV s t d g.1 g.2 4) ∧
     (ctl.getLsbD 8 = true → s.myCore.dupPending s.cur = true → ∃ t, exec (.vquant k d a b pk) s = .next t ∧ Waits s t .engine)) ∧
    (let p := s.packOperand pk x
     let v := p.1
     let sc := bits (s.me.getV b) 0 8
     let bad := pk = .o4 ∧ 8 < ((List.range 64).filter (fun i => v.toNat / 16 ^ i % 16 = 8)).length
     (∀ r, x = .reg r → p = (s.me.getV r, s)) ∧ (∀ lt, packLt pk = some lt → p = (s.me.opV lt x, s)) ∧
     (¬ bad → ∃ t, exec (.vdeq k d x b pk) s = .next t ∧ t = p.2.setMe t.me ∧ s.me.Passed t.me (len1 x) ∧ SameMemory s t ∧
        (∀ (j : Fin 4) i, i < 16 →
          lane (t.me.v[(d.val + j.val) % 32]'(Nat.mod_lt _ (by decide))) 4 i = (deqElem pk v sc (16 * j.val + i)).bits % 2 ^ 32) ∧
        (∀ r : Fin 32, (∀ j : Fin 4, r.val ≠ (d.val + j.val) % 32) → t.me.getV r = s.me.getV r) ∧
        (∀ j, j < 5 → (t.me.fflags.getLsbD j = true ↔
          s.me.fflags.getLsbD j = true ∨ ∃ i, i < 64 ∧ (deqElem pk v sc i).fl.getLsbD j = true)) ∧
        t.me = { s.me with v := t.me.v, fflags := t.me.fflags, pc := t.me.pc, rep := t.me.rep, retired := t.me.retired }) ∧
     (bad → exec (.vdeq k d x b pk) s = p.2.trapMe 35 0))

/-- R214, R220: permutes, lane extraction and insertion, and the mask instructions. -/
def Obligations.VectorPermutesAndMasks : Prop :=
  ∀ (s : State) (k : Bool) (d : Fin 32) (m : Fin 8) (a b : Opnd) (lt : LType),
    let w := lt.bytes
    let x (i : Nat) : Nat := lane (s.me.opV lt a) w i
    let y (i : Nat) : Nat := lane (s.me.opV lt b) w i
    let j := (s.me.opX b).toNat % (64 / w)
    let ka := s.me.opK a
    let writesX (i : Instr) (v : Word) (len : Nat) : Prop := ∃ t, exec i s = .next t ∧ WritesX s t d v 0 len
    let writesM (i : Instr) (v : Word32) (len : Nat) : Prop := ∃ t, exec i s = .next t ∧ WritesM s t m v 0 len
    LanesTo s (.vperm k d a b lt) d w (len2 a b) (fun i => ⟨x (y i % (64 / w)), 0⟩) ∧
    LanesTo s (.vshuf k d a b lt) d w (len2 a b) (fun i => ⟨if i % 2 = 0 then x (i / 2) else y (i / 2), 0⟩) ∧
    writesX (.vextr k d a b lt) (if (ltFmt? lt).isSome then BitVec.ofNat 64 (x j) else (BitVec.ofNat (8 * w) (x j)).signExtend 64) (len2 a b) ∧
    (∃ t v, exec (.vins k d a b lt) s = .next t ∧ WritesV s t d v 0 (len2 a b) ∧
      LanesWritten (s.me.getM 0) w (s.me.opV lt a) v (fun _ => (s.me.opX b).toNat)) ∧
    writesM (.mset k m b) ((s.me.opX b).setWidth 32) (len1 b) ∧ writesM (.mand k m a b) (ka &&& s.me.opK b) (len2 a b) ∧
    writesM (.mor k m a b) (ka ||| s.me.opK b) (len2 a b) ∧ writesM (.mnot k m a) (~~~ ka) (len1 a) ∧
    writesX (.mpopc k d a) (BitVec.ofNat 64 ((List.range 32).filter (fun i => ka.getLsbD i)).length) (len1 a) ∧
    (∃ v : Nat, writesX (.mfirst k d a) (BitVec.ofNat 64 v) (len1 a) ∧ (∀ i, i < v → ka.getLsbD i = false) ∧
      (ka = 0 → v = 32) ∧ (ka ≠ 0 → v < 32 ∧ ka.getLsbD v = true))

/-- R102, R215: VRED's tree over all lanes, which for integers is the sum, or the largest or smallest active lane; and VSCAN's chain, each
lane from the one before. An inactive lane takes the identity. -/
def Obligations.VectorReductions : Prop :=
  ∀ (s : State) (k : Bool) (d : Fin 32) (a : Opnd) (op : RedOp) (lt : LType),
    let w := lt.bytes
    let n := 64 / w
    let rm := rmOf s.me.fmode
    let x (i : Nat) : Nat := lane (s.me.opV lt a) w i
    let act (i : Nat) : Bool := active (s.me.getM 0) w i
    let num (i : Nat) : Int := (BitVec.ofNat (8 * w) (x i)).toInt
    (∀ f, ltFmt? lt = some f →
      (∃ t fl, ∃ level : Nat → Nat → Nat, exec (.vred k d a op lt) s = .next t ∧ WritesV s t d (BitVec.ofNat 512 (level (Nat.log2 n) 0)) fl (len1 a) ∧
        (let wide (i : Nat) : FRes := if w = 4 then ⟨x i, 0⟩ else ⟨(Fmt.f32.pack .rne false (f.decode (x i))).bits, nvIf (f.decode (x i)).isSig⟩
         let step (j i : Nat) : FRes := fpStep op .f32 rm (level j i) (level j (i + n / 2 ^ (j + 1)))
         (∀ i, i < n → level 0 i = if act i then (wide i).bits else fpIdentity op .f32 rm) ∧
         (∀ j i, j < Nat.log2 n → i < n / 2 ^ (j + 1) → level (j + 1) i = (step j i).bits) ∧
         ∀ q, q < 5 → (fl.getLsbD q = true ↔ (∃ i, i < n ∧ act i = true ∧ (wide i).fl.getLsbD q = true) ∨
           ∃ j i, j < Nat.log2 n ∧ i < n / 2 ^ (j + 1) ∧ (step j i).fl.getLsbD q = true))) ∧
      (∃ t fl v, ∃ acc : Nat → Nat, exec (.vscan k d a op lt) s = .next t ∧ WritesV s t d v fl (len1 a) ∧
        (let step (i : Nat) : FRes := fpStep op f rm (acc i) (if act (i + 1) then x (i + 1) else fpIdentity op f rm)
         acc 0 = (if act 0 then x 0 else fpIdentity op f rm) ∧ (∀ i, i + 1 < n → acc (i + 1) = (step i).bits) ∧
         (∀ i, i < n → lane v w i = acc i % 2 ^ (8 * w)) ∧
         ∀ q, q < 5 → (fl.getLsbD q = true ↔ ∃ i, i + 1 < n ∧ (step i).fl.getLsbD q = true)))) ∧
    (ltFmt? lt = none →
      (∃ t, ∃ r : Int, exec (.vred k d a op lt) s = .next t ∧
        WritesV s t d (BitVec.ofNat 512 (BitVec.ofInt 32 r).toNat) 0 (len1 a) ∧
        (op = .sum → r = (BitVec.ofInt (8 * w) (((List.range n).filter act).map num).sum).toInt) ∧
        (op = .max → (∀ i, i < n → act i = true → num i ≤ r) ∧ (r = -2 ^ (8 * w - 1) ∨ ∃ i, i < n ∧ act i = true ∧ num i = r)) ∧
        (op = .min → (∀ i, i < n → act i = true → r ≤ num i) ∧ (r = 2 ^ (8 * w - 1) - 1 ∨ ∃ i, i < n ∧ act i = true ∧ num i = r))) ∧
      (∃ t v, ∃ acc : Nat → Nat, exec (.vscan k d a op lt) s = .next t ∧ WritesV s t d v 0 (len1 a) ∧
        acc 0 = (if act 0 then x 0 else intIdentity op (8 * w)) ∧
        (∀ i, i + 1 < n → acc (i + 1) = intStep op (8 * w) (acc i) (if act (i + 1) then x (i + 1) else intIdentity op (8 * w))) ∧
        (∀ i, i < n → lane v w i = acc i % 2 ^ (8 * w)) ∧
        (op = .sum → ∀ i, i < n → lane v w i = (((List.range (i + 1)).filter act).map x).sum % 2 ^ (8 * w))))

/-! ## Vector memory -/

/-- R216, R217: vector loads from the own core's SRAM in words that pass the action table: each active lane gets its element, in the order
of Table 13.11; the others keep theirs. With no active element the instruction does nothing. -/
def Obligations.VectorLoads : Prop :=
  ∀ (s : State) (k : Bool) (d : Fin 32) (a b : Opnd) (e : Width) (col : Bool) (o : Nat → Nat), s.me.AtStart →
    let n := widthBytes e
    let base := s.me.opX a + s.me.opX b
    let read (i : Nat) : Nat := s.myCore.sram.readFor (s.ownerOfHart s.cur) (o i) n
    let idle (count : Nat) : Prop := ∀ i, i < count → active (s.me.getM 0) n i = false
    let loads (i : Instr) (f : Nat → Nat) : Prop :=
      ∃ r t v, s.Read r ∧ exec i s = .next t ∧ WritesV r.numbered t d v 0 (len2 a b) ∧ LanesWritten (s.me.getM 0) n (s.me.getV d) v f
    let nothing (i : Instr) : Prop := ∃ t, exec i s = .next t ∧ Passes s t (len2 a b)
    (LanesHere s .read 0 n (64 / n) (fun i => base + BitVec.ofNat 64 (i * n)) o → base.toNat % 64 = 0 → loads (.vld k d a b e false) read) ∧
    (LanesHere s .read 0 n (64 / n) (fun i => base + BitVec.ofNat 64 (if n = 4 then 128 * i else 64 * i)) o → loads (.vld k d a b e true) read) ∧
    (LanesHere s .read 0 n (64 / n) (fun i => s.me.opX a + BitVec.ofNat 64 i * s.me.opX b) o → loads (.vlds k d a b e) read) ∧
    (LanesHere s .read 0 n 16 (fun i => s.me.opX a + BitVec.ofInt 64 ((BitVec.ofNat 32 (lane (s.me.opV .i32 b) 4 i)).toInt * n)) o →
      loads (.vldx k d a b e) (fun i => if i < 16 then read i else 0)) ∧
    (idle (64 / n) → nothing (.vld k d a b e col) ∧ nothing (.vlds k d a b e)) ∧ (idle 16 → nothing (.vldx k d a b e))

/-- R216, R217: vector stores to the own core's SRAM in words that pass the action table: each active lane is stored at its element's
address, and every other byte reads as before. With no active element the instruction does nothing. (A constant or literal as the data is read in
lanes of the element's width: log entry 36.) -/
def Obligations.VectorStores : Prop :=
  ∀ (s : State) (k : Bool) (d a b : Opnd) (e : Width) (col : Bool) (o : Nat → Nat), s.me.AtStart →
    let n := widthBytes e
    let base := s.me.opX a + s.me.opX b
    let len := 4 + d.litBytes + a.litBytes + b.litBytes
    let act (count i : Nat) : Prop := i < count ∧ active (s.me.getM 0) n i = true
    let stores (i : Instr) (count : Nat) : Prop :=
      ∃ t, exec i s = .next t ∧ StoresLanes s t n (act count) o (s.me.opV (widthLt e) d) len
    let nothing (i : Instr) : Prop := ∃ t, exec i s = .next t ∧ Passes s t len
    (LanesHere s .write 1 n (64 / n) (fun i => base + BitVec.ofNat 64 (i * n)) o → base.toNat % 64 = 0 → stores (.vst k d a b e false) (64 / n)) ∧
    (LanesHere s .write 1 n (64 / n) (fun i => base + BitVec.ofNat 64 (if n = 4 then 128 * i else 64 * i)) o → stores (.vst k d a b e true) (64 / n)) ∧
    (LanesHere s .write 1 n (64 / n) (fun i => s.me.opX a + BitVec.ofNat 64 i * s.me.opX b) o → stores (.vsts k d a b e) (64 / n)) ∧
    (LanesHere s .write 1 n 16 (fun i => s.me.opX a + BitVec.ofInt 64 ((BitVec.ofNat 32 (lane (s.me.opV .i32 b) 4 i)).toInt * n)) o →
      stores (.vstx k d a b e) 16) ∧
    ((∀ i, ¬ act (64 / n) i) → nothing (.vst k d a b e col) ∧ nothing (.vsts k d a b e)) ∧ ((∀ i, ¬ act 16 i) → nothing (.vstx k d a b e))

/-! ## Streams and the repeat buffer -/

/-- R222, R225: SG.CFG binds a generator to the thread with the 64 bytes of a well-formed descriptor, SG.IDX reads its count and SG.STOP
unbinds it; REP captures its body, or with a count of 0 passes over it. Misuses are cause 36 with their reason. (That reason 3 of SG.CFG comes
before any look at the descriptor is the model's reading: log entry 40.) -/
def Obligations.GeneratorsAndRepeat : Prop :=
  ∀ (s : State) (k : Bool) (g : Fin 4) (r : Fin 32) (a b : Opnd) (off : Nat),
    let addr := s.me.opX a + s.me.opX b
    let gens := s.myCore.gens
    let bound : Gen := ⟨some s.cur.th, leBytes 64 (s.myCore.sram.readFor (s.ownerOfHart s.cur) off 64), 0, false⟩
    let free := gens[g.val].bound = none ∨ gens[g.val].bound = some s.cur.th ∨ gens[g.val].exhausted = true
    let setGen (s' : State) (x : Gen) : State := s'.setMyCore { s'.myCore with gens := gens.set g.val x }
    let fault (s' : State) (reason gen : Nat) : Result := s'.trapMe 36 (BitVec.ofNat 64 (2 ^ 63 + 4 * reason + gen))
    let n := (s.me.opX a).toNat
    let count := (s.me.opX b).toNat
    let start := s.me.pc + BitVec.ofNat 64 (len2 a b)
    (s.me.AtStart → NamesHere s .read addr 64 off → (∀ i, i < 8 → PlainWord s 0 (off / 8 + i)) → free →
      (s.myCore.descrOk s.cur.th g bound = true →
        ∃ r t, s.Read r ∧ exec (.sgCfg k g a b) s = .next t ∧ Passes (setGen r.numbered bound) t (len2 a b)) ∧
      (s.myCore.descrOk s.cur.th g bound = false →
        ∃ s' : State, exec (.sgCfg k g a b) s = s'.trapMe 36 addr ∧ s'.me = s.me ∧ s'.myCore.gens = gens)) ∧
    (NamesHere s .read addr 64 off → ¬ free → exec (.sgCfg k g a b) s = fault s 3 g.val) ∧
    (gens[g.val].bound = some s.cur.th →
      (∃ t, exec (.sgIdx k r g) s = .next t ∧ WritesX s t r (BitVec.ofNat 64 gens[g.val].n) 0 4) ∧
      (∃ t, exec (.sgStop k g) s = .next t ∧ Passes (setGen s { gens[g.val] with bound := none, exhausted := true }) t 4)) ∧
    (gens[g.val].bound ≠ some s.cur.th → ∀ i ∈ [Instr.sgIdx k r g, .sgStop k g], exec i s = fault s 0 g.val) ∧
    (n < 2 ^ 32 → 1 ≤ count → count ≤ 16 → s.me.user.h = false → ∀ body s', s.fetchBody s.cur start count [] = .inr (body, s') →
      let bytes := halfBytes body.flatten
      bytes.length ≤ 128 → body.any badInBody = false →
      ∃ t, exec (.rep k a b) s = .next t ∧ t = s'.setMe { s'.me with
        retired := s'.me.retired + 1
        pc := if n = 0 then start + BitVec.ofNat 64 bytes.length else start
        rep := if n = 0 then s'.me.rep else some ⟨start, bytes, count, n, s.me.level, start⟩ }) ∧
    (2 ^ 32 ≤ n ∨ count = 0 ∨ 16 < count ∨ s.me.user.h = true → ∃ x, x < 4 ∧ exec (.rep k a b) s = fault { s with free := s.free + 1 } 4 x)

/-- R222, R223, R68: SREAD and SWRITE of a generator bound to the thread move its next elements, at the addresses of its walk or, when it
is indirect and its indices are gathered, at those that the indices name; its count rises. The elements here stand in the own core's SRAM, and are
performed within the step (where the agenda has them apart, each is an access of its own: AccessSteps). -/
def Obligations.StreamElements : Prop :=
  ∀ (s : State) (k : Bool) (d : Fin 32) (q : Fin 4) (a : Opnd) (o : Nat → Nat),
    let g := s.myCore.gens[q.val]
    let n := g.esize
    let count := min (64 / n) (g.total - g.n)
    let plain (kind : Nat) (f : Nat → Word) : Prop := ∀ i, i < count → NamesHere s (if kind = 7 then .write else .read) (f i) n (o i) ∧ PlainWord s kind (o i / 8)
    let moved (gens : Vector Gen 4) (i : Fin 4) : Vector Gen 4 :=
      gens.set i.val { gens[i.val] with n := gens[i.val].n + count, exhausted := gens[i.val].exhausted || decide (gens[i.val].total ≤ gens[i.val].n + count) }
    let after (gens : Vector Gen 4) : State := { s.setMyCore { s.myCore with gens := gens } with nextId := s.nextId + count }
    let wt : LType := if n = 1 then .i8 else if n = 2 then .i16 else .i32
    s.split = false → s.me.status = .run → s.me.pend = none → s.me.late = [] → g.bound = some s.cur.th → g.exhausted = false →
    (g.indirect = false → s.me.gathered = [] → plain 6 (fun i => g.address (g.n + i)) →
      ∃ t v, exec (.sread k d q) s = .next t ∧ WritesV (after (moved s.myCore.gens q)) t d v 0 4 ∧
        ∀ i, i < 64 / n → lane v n i = if i < count then s.myCore.sram.readFor (s.ownerOfHart s.cur) (o i) n else 0) ∧
    (g.indirect = true → count ≤ s.me.gathered.length → count ≤ (s.myCore.gens[g.idxGen.val]).unread s.cur.th →
      plain 6 (fun i => g.base + s.me.gathered.getD i 0 * g.stride 0) →
      ∃ t v, exec (.sread k d q) s = .next t ∧
        WritesV ((after (moved (moved s.myCore.gens q) g.idxGen)).setMe { s.me with gathered := [] }) t d v 0 4 ∧
        ∀ i, i < 64 / n → lane v n i = if i < count then s.myCore.sram.readFor (s.ownerOfHart s.cur) (o i) n else 0) ∧
    (g.indirect = false → s.me.gathered = [] → plain 7 (fun i => g.address (g.n + i)) →
      ∃ t, exec (.swrite k q a) s = .next t ∧
        StoresLanes (after (moved s.myCore.gens q)) t n (fun i => i < count) o (s.me.opV wt a) (len1 a))

/-! ## The matrix engine, attention and the comet space -/

/-- R226 to R240, R243, R244: the matrix commands at issue: one whose checks pass enters the queue with its operands and the configuration
bank formats that hold at its entry, or waits while two are queued; in a drain or spill thread it is a misuse, and a deferred fault comes first.
(That hub and translation cores have these instructions too, each with an engine of its own, is the model's reading: log entry 51.) -/
def Obligations.MatrixIssue : Prop :=
  ∀ (s : State) (k : Bool) (z : Fin 4) (a b : Opnd) (mf : MFmt),
    let x := s.me.opX a
    let w := s.me.opX b
    let h := s.cur
    let e := s.myCore.foreseen
    let gate := isDrain h = false ∧ isSpill h = false ∧ s.me.deferred = none
    let cmd (i : Instr) (p q : Word) (len : Nat) : Cmd := ⟨h, s.me.level, i, p, q, e.cfg, e.mf, e.drainEntry, s.me.ascale, len, s.myCore.fmts, s.nextId⟩
    let enters (i : Instr) (c : Cmd) : Prop :=
      (s.myCore.queue.length < 2 → Enqueues s i c) ∧ (2 ≤ s.myCore.queue.length → ∃ t, exec i s = .next t ∧ Waits s t .engine)
    let good (want n : Nat) (p : Word) : Prop := s.ownFail h p n = none ∧ p.toNat % 8 = 0 ∧ s.formatFail h s.myCore.fmts want p n = none
    let cs := bits w 32 32
    let colBytes := columnBytes e.mf e.cfg
    let col (i : Nat) : Word := x + BitVec.ofNat 64 (i * (if cs = 0 then colBytes else cs))
    let rs := bits w 16 16
    let rowLen := rowBytes e.mf e.cfg
    let row (i : Nat) : Word := x + BitVec.ofNat 64 (i * (if rs = 0 then rowLen else rs))
    let bad : Word := BitVec.ofNat 64 (2 * 2 ^ 56)
    (gate →
      enters (.mxSwap k) (cmd (.mxSwap false) 0 0 4) ∧ enters (.mxZero k z) (cmd (.mxZero false z) 0 0 4) ∧
      (bits w 6 58 = 0 → cfgOk mf.code (w.setWidth 6) x = true →
        enters (.mxCfg k a b mf) { cmd (.mxCfg false a b mf) x w (len2 a b) with cfg := w.setWidth 6, mf := mf.code, drainEntry := x }) ∧
      (s.myCore.queue.length < 2 → bits w 6 58 ≠ 0 ∨ cfgOk mf.code (w.setWidth 6) x = false → exec (.mxCfg k a b mf) s = s.trapMe 35 bad) ∧
      ((∀ i, i < 32 → good (bankFmtOf e.mf) (if w.getLsbD 21 then 1 else colBytes) (col i)) →
        (bits w 0 21 = 0 ∨ s.ownFail h (BitVec.ofNat 64 (bits w 0 21)) 32 = none) → bits w 24 8 = 0 → (bits w 0 21 ≠ 0 → 2 ≤ e.mf) →
        (w.getLsbD 21 = true → cs ≠ 0 ∧ sparseOf e.cfg = 0) → enters (.mxLdw k a b) (cmd (.mxLdw false a b) x w (len2 a b))) ∧
      (s.ownFail h x 264 = none → x.toNat % 64 = 0 → enters (.mxDup k a) (cmd (.mxDup false a) x 0 (len1 a))) ∧
      ((∀ i, i < bits w 0 6 → good (bankFmtOf (actFmt e.mf e.cfg)) rowLen (row i)) →
        (bits w 32 21 = 0 ∨ s.ownFail h (BitVec.ofNat 64 (bits w 32 21 + bits w 6 5)) (bits w 0 6) = none) →
        bits w 53 11 = 0 → bits w 11 5 = 0 → 1 ≤ bits w 0 6 → bits w 6 5 + bits w 0 6 ≤ 32 → (bits w 32 21 ≠ 0 → 2 ≤ actFmt e.mf e.cfg) →
        (∀ r, e.scaleRec z.val = some r → r.woff = e.active.soff ∧ r.aoff.toNat = bits w 32 21) →
        enters (.mxStream k z a b) (cmd (.mxStream false z a b) x w (len2 a b))) ∧
      ((∀ i, i < 32 → let p := drainRowAt x w i; s.rangeFail h p 128 = none ∧ p.toNat % 8 = 0) →
        bits w 32 32 = 0 → enters (.mxDrain k z a b) (cmd (.mxDrain false z a b) x w (len2 a b))) ∧
      (s.myCore.busyFor h = false → ∃ t, exec (.mxWait k) s = .next t ∧ Passes s t 4) ∧
      (s.myCore.busyFor h = true → ∃ t, exec (.mxWait k) s = .next t ∧ Waits s t .engine)) ∧
    (∀ i ∈ [Instr.mxCfg k a b mf, .mxLdw k a b, .mxSwap k, .mxDup k a, .mxStream k z a b, .mxZero k z, .mxDrain k z a b, .mxWait k],
      (isDrain h = true ∨ isSpill h = true → exec i s = s.trapMe 39 7) ∧
      (isDrain h = false → isSpill h = false → ∀ f, s.me.deferred = some f →
        exec i s = .next ((s.setMe { s.me with deferred := none }).trap h f.cause f.value f.utag)))

/-- R119, R256 to R269: attention and comet instructions at issue: with a root, those whose checks pass enter the queue; ATTN.RUN and
the comet instructions enter with their thread held, and make no access while one of the thread at .dev is on its way. Without a root the
cause is 25. (Of hub and translation cores: log entry 51.) -/
def Obligations.AttentionAndCometIssue : Prop :=
  ∀ (s : State) (k : Bool) (d : Fin 32) (a b : Opnd), isDrain s.cur = false → isSpill s.cur = false → s.me.deferred = none →
    let x := s.me.opX a
    let w := s.me.opX b
    let h := s.cur
    let e := s.myCore.foreseen
    let root := s.myCore.cmroot
    let rows := attnRows root
    let hd := headDim root
    let cmd (i : Instr) (p q : Word) (len : Nat) : Cmd := ⟨h, s.me.level, i, p, q, e.cfg, e.mf, e.drainEntry, s.me.ascale, len, s.myCore.fmts, s.nextId⟩
    let enters (i : Instr) (c : Cmd) : Prop :=
      (s.myCore.queue.length < 2 → Enqueues s i c) ∧ (2 ≤ s.myCore.queue.length → ∃ t, exec i s = .next t ∧ Waits s t .engine)
    let held (i : Instr) (c : Cmd) : Prop :=
      (2 ≤ s.myCore.queue.length → ∃ t, exec i s = .next t ∧ Waits s t .engine) ∧
      (s.myCore.queue.length < 2 → ∃ t, exec i s = .next t ∧
        Waits (s.setMyCore { s.myCore with queue := s.myCore.queue ++ [c] }) t .held)
    let size := finBytes w
    let finRow (r : Nat) : Word := x + BitVec.ofNat 64 (r * finStride root w)
    (rootBase root ≠ 0 →
      (s.ownFail h x (2 * rows * hd) = none → s.ownFail h w (16 * rows) = none → x.toNat % 64 = 0 → w.toNat % 16 = 0 →
        s.formatFail h s.myCore.fmts 2 x (2 * rows * hd) = none → enters (.attnQld k a b) (cmd (.attnQld false a b) x w (len2 a b))) ∧
      (s.ownFail h x (320 + 4 * rows * hd) = none → x.toNat % 64 = 0 → enters (.attnMerge k a) (cmd (.attnMerge false a) x 0 (len1 a))) ∧
      (s.rangeFail h x (320 + 4 * rows * hd) = none → x.toNat % 4 = 0 → enters (.attnSt k a) (cmd (.attnSt false a) x 0 (len1 a))) ∧
      (bits w 0 3 < 5 → bits w 3 29 = 0 → (∀ r, r < rows → s.rangeFail h (finRow r) (hd * size) = none ∧ (finRow r).toNat % size = 0) →
        enters (.attnFin k a b) (cmd (.attnFin false a b) x w (len2 a b))) ∧
      (s.strictReact h = false →
        (runOk x w = true → held (.attnRun k a b) (cmd (.attnRun false a b) x w (len2 a b))) ∧
        held (.cmAppend k a) (cmd (.cmAppend false a) x 0 (len1 a)) ∧ held (.cmFill k d a b) (cmd (.cmFill false d a b) x w (len2 a b)) ∧
        held (.cmFree k d a b) (cmd (.cmFree false d a b) x w (len2 a b)) ∧
        held (.cmLookup k d a b) (cmd (.cmLookup false d a b) x w (len2 a b)) ∧
        held (.cmShare k d a) (cmd (.cmShare false d a) x 0 (len1 a))) ∧
      (s.strictReact h = true → s.myCore.queue.length < 2 → (runOk x w = true → exec (.attnRun k a b) s = s.trapMe 32 root) ∧
        ∀ i ∈ [Instr.cmAppend k a, .cmFill k d a b, .cmFree k d a b, .cmLookup k d a b, .cmShare k d a], exec i s = s.trapMe 32 root)) ∧
    held (.cmInval k) (cmd (.cmInval false) 0 0 4) ∧
    (∀ r, s.myCore.running = some r → s.myCore.loading = none → r.port.wait = none →
      r.cmd.instr ∈ [Instr.attnRun false a b, .cmAppend false a, .cmFill false d a b, .cmFree false d a b, .cmLookup false d a b, .cmShare false d a] →
      s.outstandingIn r.cmd.hart .dev = true → exec (.matrixCommandCompletion s.cur.core) s = .next s) ∧
    (rootBase root = 0 → s.myCore.queue.length < 2 →
      ∀ i ∈ [Instr.attnQld k a b, .attnRun k a b, .attnMerge k a, .attnFin k a b, .attnSt k a, .cmAppend k a, .cmFill k d a b,
        .cmFree k d a b, .cmLookup k d a b, .cmShare k d a], exec i s = s.trapMe 25 (BitVec.ofNat 64 (2 ^ 58)))

/-- R227, R231, R235, R237, R238, R241, R242, R269: the engine's turns: it takes the oldest command, and an MX.LDW behind an executing
MX.STREAM; a command whose operands are read commits in one step; a row of a drain goes to its home or to the drain thread, which DRET
leaves; a row of a wrong length or address discards those after it, and its fault waits for those before it. -/
def Obligations.EngineTurns : Prop :=
  ∀ (s : State) (k : Bool) (core : Nat) (r : Running),
    let c := s.core core
    let e := c.engine
    let turn : Instr := .matrixCommandCompletion core
    let gives (i : Instr) (f : Core → Prop) : Prop := ∃ t, exec i s = .next t ∧ f (t.core core) ∧ (∀ n, n ≠ core → t.core n = s.core n) ∧
      (∀ h, t.thread h = s.thread h ∨ (h.core = core ∧ (s.thread h).status = .engine ∧ t.thread h = { s.thread h with status := .again }))
    let begun (q : Cmd) (x : Option Running) : Prop := ∃ pos, x = some ⟨q, [], [], .idle, false, [], 0, false, none, pos, 0⟩
    let count := (rangeWords (cmdRanges e c.cmroot r.cmd)).length
    let read := ∀ i, i < count → (Tab.find? r.words i).isSome = true
    let values := rangeValues (cmdRanges e c.cmroot r.cmd) ((List.range count).map (Tab.get 0 r.words))
    (∀ q rest, c.running = none → c.queue = q :: rest → gives (.matrixCommandStart core) (fun c' =>
      c'.queue = rest ∧ c'.engine = e ∧ begun q c'.running)) ∧
    (∀ q rest z a b x y, c.running = some r → c.loading = none → c.queue = q :: rest → r.cmd.instr = .mxStream k z a b → q.instr = .mxLdw k x y →
      gives (.matrixCommandStart core) (fun c' => c'.queue = rest ∧ c'.engine = e ∧ c'.running = some r ∧ begun q c'.loading)) ∧
    (c.running = some r → c.loading = none → r.port = .idle →
      (r.cmd.instr = .mxSwap k → gives turn (fun c' => c'.running = none ∧ c'.engine = { e with active := e.shadow, shadow := e.active })) ∧
      (∀ a b mf, r.cmd.instr = .mxCfg k a b mf → gives turn (fun c' => c'.running = none ∧ c'.engine = { e with
        cfg := r.cmd.cfg, mf := r.cmd.mf, drainEntry := r.cmd.drainEntry, active := Plane.init, shadow := Plane.init })) ∧
      (∀ z, r.cmd.instr = .mxZero k z → gives turn (fun c' => c'.running = none ∧ Tab.find? c'.engine.scaleRecs z.val = none ∧
        c'.engine = { e with tiles := c'.engine.tiles, scaleRecs := c'.engine.scaleRecs } ∧
        ∀ y i j, i < 32 → j < 32 → c'.engine.tileAt y i j = if y = z.val then 0 else e.tileAt y i j)) ∧
      (∀ z a b e', r.cmd.instr = .mxStream k z a b → read → e.doStream z.val r.cmd values = .inr e' →
        gives turn (fun c' => c'.running = none ∧ c'.engine = e')) ∧
      (∀ e', (∃ a b, r.cmd.instr = .mxLdw k a b ∧ r.cmd.opB.getLsbD 21 = false) ∨ (∃ a, r.cmd.instr = .mxDup k a) ∨
          (∃ a b, r.cmd.instr = .attnQld k a b) ∨ (∃ a, r.cmd.instr = .attnMerge k a) →
        read → e.effect c.cmroot r.cmd values = .inr e' → gives turn (fun c' => c'.running = none ∧ c'.engine = e')) ∧
      (r.cmd.instr = .cmInval false → r.cmd.hart.core = core → ∃ t, exec turn s = .next t ∧ (t.core core).running = none ∧
        (t.core core).comet = [] ∧ (t.thread r.cmd.hart).status = .run ∧ (t.thread r.cmd.hart).retired = (s.thread r.cmd.hart).retired + 1)) ∧
    (c.running = some r →
      (∀ z a b, r.cmd.instr = .mxDrain k z a b → r.draining = false → r.row < 32 → e.drainEntry = 0 →
        gives (.drainDispatch core) (fun c' => c'.running = some { r with
          row := r.row + 1
          out := r.out ++ piecesOf (drainRowAt r.cmd.opA r.cmd.opB r.row) 128 (e.rowNat z.val r.row) })) ∧
      (∀ z a b, r.cmd.instr = .mxDrain k z a b → r.draining = false → r.row < 32 → e.drainEntry ≠ 0 →
        (s.thread ⟨core, 4⟩).status = .idle → ∃ t u, exec (.drainDispatch core) s = .next t ∧ u = t.thread ⟨core, 4⟩ ∧
          u.pc = e.drainEntry ∧ u.status = .run ∧ u.level = .u ∧ u.getX 10 = BitVec.ofNat 64 r.row ∧ u.getX 11 = 128 ∧
          u.getX 12 = drainRowAt r.cmd.opA r.cmd.opB r.row ∧ u.getX 13 = BitVec.ofNat 64 z.val ∧
          (∀ j, j < 16 → lane (u.getV 0) 4 j = (e.tileAt z.val r.row j).toNat ∧ lane (u.getV 1) 4 j = (e.tileAt z.val r.row (16 + j)).toNat) ∧
          (t.core core).running = some { r with row := r.row + 1, draining := true } ∧ (t.core core).drainFor = r.cmd.hart.th)) ∧
    (isDrain s.cur = true →
      let u : Thread := { s.me with retired := s.me.retired + 1, status := .idle }
      let n := s.me.getX 11
      let a := s.me.getX 12
      (s.myCore.running = none ∨ s.myCore.running = some r ∧ r.draining = false → exec (.dret k) s = .next (s.setMe u)) ∧
      (s.myCore.running = some r → r.draining = true → n.toNat ≤ 128 → n.toNat % 4 = 0 → a.toNat % 4 = 0 → exec (.dret k) s =
        .next ((s.setMe u).setMyCore { (s.setMe u).myCore with running := some { r with
          draining := false
          out := r.out ++ piecesOf a n.toNat ((s.me.getV 0).toNat + 2 ^ 512 * (s.me.getV 1).toNat) } })) ∧
      (∀ cause : Nat, s.myCore.running = some r → r.draining = true →
        (128 < n.toNat ∨ n.toNat % 4 ≠ 0) ∧ cause = 34 ∨ n.toNat ≤ 128 ∧ n.toNat % 4 = 0 ∧ a.toNat % 4 ≠ 0 ∧ cause = 4 → exec (.dret k) s =
        .next ((s.setMe u).setMyCore { (s.setMe u).myCore with running := some { r with
          draining := false, row := 32, failed := some ⟨cause, a, 0⟩ } }))) ∧
    (isDrain s.cur = false → exec (.dret k) s = s.trapMe 39 6)

/-- R238, R90, R100: MX.STREAM adds to element (i, j) of its tile, chunk by chunk, the products of activation row i with column j of the active
plane, and leaves every other element alone. -/
def Obligations.StreamAccumulates : Prop :=
  ∀ (e e' : Engine) (z : Fin 4) (c : Cmd) (vs : List Nat), e.doStream z.val c vs = .inr e' →
    let first := bits c.opB 6 5
    let n := bits c.opB 0 6
    let scale (i : Nat) : Machine.Num := if bits c.opB 32 21 = 0 ∨ actFmt e.mf e.cfg ≤ 1 then .fin false 1 0 else e8m0 (vs.getD n 0 / 256 ^ i % 256)
    (∀ y i j, i < 32 → j < 32 → e'.tileAt y i j =
      if y = z.val ∧ first ≤ i ∧ i < first + n then
        BitVec.ofNat 32 ((List.range (chunksOf e.cfg)).foldl (fun acc q =>
          accChunk acc (e.products (elemOf (actFmt e.mf e.cfg) (vs.getD (i - first) 0)) (scale (i - first)) q j)) (e.tileAt z.val i j).toNat)
      else e.tileAt y i j) ∧
    e' = { e with tiles := e'.tiles, scaleRecs := e'.scaleRecs }

/-! ## Block transfers -/

/-- R247 to R253: XF.GO launches a transfer with the next identifier, or waits while eight are in flight; XF.CANCEL ends one of the thread
with status 1; a cluster's engine starts the oldest one, checks it, and ends it with its record. (Of hub and translation cores, whose engine
stands under a number of its own: log entry 51.) -/
def Obligations.BlockTransfers : Prop :=
  ∀ (s : State) (k : Bool) (d : Fin 32) (a : Opnd) (n : Nat) (x : Transfer),
    let h := s.cur
    let cl := clusterOf h.core
    let mine := (s.cluster cl).transfers
    let seq := s.me.seq + 1
    let id : Word := BitVec.ofNat 64 (2 ^ 63 + h.core % 2 ^ 12 * 2 ^ 36 + h.th % 4 * 2 ^ 32 + seq.toNat)
    let setXfers (s' : State) (c : Nat) (l : List Transfer) : State := s'.setCluster c { s'.cluster c with transfers := l }
    let others (l : List Transfer) (i : Word) : List Transfer := l.filter (fun y => decide (y.id ≠ i))
    let ended (s' : State) (c : Nat) (y : Transfer) (st : Nat) (fail : Word) (info : BitVec 14) : State :=
      let s0 := s'.withdraw y.port.wait.toList
      let s1 := setXfers s0 c (others (s0.cluster c).transfers y.id)
      if y.gone then s1
      else { s1 with nextId := s1.nextId + 1, net := s1.net ++ [.record s1.nextId y.hart.core (y.record st fail info) y.regs.irq] }
    (isDrain h = false → isSpill h = false →
      (s.strictReact h = false → s.transfersOf h < 8 → ∃ t, exec (.xfGo k d) s = .next t ∧
        WritesX ((setXfers s cl (mine ++ [⟨id, h, s.me.level, s.myCore.mowner, s.myCore.mcontext, s.me.xf, s.myCore.fmts, s.nextId, false, none, 0, [], .idle,
          none, false⟩])).setMe { s.me with seq := seq }) t d id 0 4) ∧
      (s.strictReact h = false → 8 ≤ s.transfersOf h → ∃ t, exec (.xfGo k d) s = .next t ∧ Waits s t .place) ∧
      (s.strictReact h = true → exec (.xfGo k d) s = s.trapMe 32 s.me.xf.src) ∧
      (mine.find? (fun y => decide (y.id = s.me.opX a) && decide (y.hart = h)) = none →
        ∃ t, exec (.xfCancel k d a) s = .next t ∧ WritesX s t d 0 0 (len1 a)) ∧
      (mine.find? (fun y => decide (y.id = s.me.opX a) && decide (y.hart = h)) = some x →
        ∃ t, exec (.xfCancel k d a) s = .next t ∧ WritesX (ended s cl x 1 0 0) t d 1 0 (len1 a))) ∧
    ((s.cluster n).transfers.find? (fun y => !y.started) = some x → ((s.cluster n).transfers.filter Transfer.started).length < 4 →
      ∃ y, exec (.transferStart n) s = .next (setXfers s n ((s.cluster n).transfers.map (fun z => if z.id = x.id then y else z))) ∧
        y = { x with started := true, convert := y.convert, status := y.status } ∧
        (x.regs.total = 0 ∨ 2 ^ 40 < x.regs.total → y.status = some (3, 0, 0))) ∧
    (∀ st fail info, (s.cluster n).transfers.find? (fun y => decide (y.id = x.id) && y.started) = some x → x.status = some (st, fail, info) →
      exec (.transferCompletion n x.id) s = .next (ended s n x st fail info)) ∧
    ((s.cluster n).transfers.find? (fun y => decide (y.id = x.id) && y.started) = some x → x.status = none → x.port = .idle →
      x.elems ≤ x.done → ∃ s', exec (.transferCompletion n x.id) s = .next (ended s' n x 0 0 0) ∧ s'.net = s.net ∧ s'.cluster n = s.cluster n ∧
        ∀ h', s'.thread h' = s.thread h')

/-! ## Exceptions and privilege -/

/-- R29, R314, R315, R322: a trap of a thread: at U, where it is delegated and not forced, and the thread has a vector and no handler active,
its user-level handler is entered; otherwise on a compute core the trap is forwarded in a report, and on another core it is entered at S or at
M. The cause carries NEST where level U may not take the trap, and where a delegated one finds a handler active or no vector. No other
thread's registers change. (That a nested or forced trap of a hub core is entered at S or M with NEST, and which forwarded traps write the monitor's
registers, is the model's reading: log entry 32.) -/
def Obligations.TrapEntry : Prop :=
  ∀ (s : State) (h : Hart) (c : Nat) (v : Word) (info : BitVec 14), c < 64 →
    let t := s.thread h
    let s' := s.trap h c v info
    let t' := s'.thread h
    let utag := if c = 24 then info else t.user.utag
    let user := t.level = .u ∧ forced h c info = false ∧ delegated s h c = true
    let nested := t.level = .u ∧ forced h c info = true
    let word (nest fwd : Bool) : Word := BitVec.ofNat 64 (c + (if nest then 2 ^ 62 else 0) + if fwd then 2 ^ 61 else 0)
    let ms := t.priv.mstatus
    let atS (nest : Bool) : Prop := t'.level = .s ∧ t'.pc = t.priv.stvec ∧ t'.status = .run ∧ t'.priv.sepc = t.pc ∧
      t'.priv.scause = word nest false ∧ t'.priv.sval = v ∧ t'.priv.mstatus.getLsbD 1 = false ∧
      t'.priv.mstatus.getLsbD 5 = ms.getLsbD 1 ∧ t'.priv.mstatus.getLsbD 8 = decide (t.level ≠ .u) ∧
      (∀ j, j < 64 → j ≠ 1 → j ≠ 5 → j ≠ 8 → t'.priv.mstatus.getLsbD j = ms.getLsbD j)
    let savedM (nest : Bool) : Prop := t'.priv.mepc = t.pc ∧ t'.priv.mcause = word nest false ∧ t'.priv.mval = v ∧
      bits t'.priv.mstatus 11 2 = t.level.code ∧ t'.priv.mstatus.getLsbD 7 = ms.getLsbD 3 ∧ t'.priv.mstatus.getLsbD 3 = false ∧
      (∀ j, j < 64 → j ≠ 3 → j ≠ 7 → j ≠ 11 → j ≠ 12 → t'.priv.mstatus.getLsbD j = ms.getLsbD j)
    let atM (nest : Bool) : Prop := t'.level = .m ∧ t'.pc = t.priv.mtvec ∧ t'.status = .run ∧ savedM nest
    let forwarded (nest : Bool) : Prop := t'.status = .report ∧ t'.pc = t.pc ∧
      ∃ r, Reported s s' (s.hubOf t.grid) r ∧ r.hart = h ∧ r.cause = word nest true ∧ r.value = v ∧ r.epc = t.pc ∧ r.node = t.nodeid ∧
        r.utag = (if c = 24 then info else 0) ∧ r.ctx = (s.core h.core).mcontext.toNat ∧ r.owner = (s.core h.core).mowner ∧
        r.cycle = s.cycle h.core
    (user → t.user.h = false → t.user.utvec ≠ 0 → t'.level = .u ∧ t'.pc = t.user.utvec ∧ t'.status = .run ∧
      t'.user = { t.user with uepc := t.pc &&& ~~~ 1#64, ucause := BitVec.ofNat 7 c, uval := v, h := true, utag := utag } ∧
      t' = { t with user := t'.user, rep := t'.rep, pc := t'.pc, status := .run, pend := none, gathered := [], late := [], drain := none }) ∧
    (user → (t.user.h = true ∨ t.user.utvec = 0) →
      (kindOf h.core = .compute → forwarded true) ∧
      (kindOf h.core = .hub → (t.priv.msdeleg.getLsbD c = true → atS true) ∧ (t.priv.msdeleg.getLsbD c = false → atM true))) ∧
    (¬ user → ∀ nest : Bool, (nest = true ↔ nested) →
      (kindOf h.core = .compute → forwarded nest ∧ savedM false) ∧
      (kindOf h.core ≠ .compute → (t.level ≠ .m → t.priv.msdeleg.getLsbD c = true → atS nest) ∧
        (t.level = .m ∨ t.priv.msdeleg.getLsbD c = false → atM nest))) ∧
    t'.x = t.x ∧ t'.h = t.h ∧ t'.v = t.v ∧ t'.m = t.m ∧ (∀ h', h' ≠ h → s'.thread h' = s.thread h') ∧ SameSram s s' ∧
    (kindOf h.core ≠ .compute → s'.dram = s.dram)

/-- R150, R324: an instruction of major 0x1F on a core or at a level that does not have it is cause 2 with its word as value. -/
def Obligations.PrivilegeIsChecked : Prop :=
  ∀ (s : State) (k : Bool) (d : Fin 32) (a b : Opnd),
    ∀ i ∈ [Instr.mret k, .sret k, .wfi k, .tlbWr k d a b, .tlbInv k d a b, .xlateDrain k a b, .mxSave k a, .mxLoad k d a, .ctxHalt k d a b,
      .ctxSave k d a b],
      (privOk s.cur.core s.me.level i = false → exec i s = s.trapMe 2 ((encodeWord i).setWidth 64)) ∧
      (privOk s.cur.core s.me.level i = true → s.me.level ≠ .u)

/-- R325 to R328: EBREAK is cause 3 with pc as value; the monitor answers a call in x10, and forwards function 1 of a user thread; MRET and
SRET restore the level and the interrupt enable that their status field holds; WFI completes once an enabled interrupt is pending. -/
def Obligations.CallsAndReturns : Prop :=
  ∀ (s : State) (k : Bool),
    let t := s.me
    let ms := t.priv.mstatus
    let returns (i : Instr) (pc : Word) (level : Level) (f : Word → Prop) : Prop := ∃ s1, exec i s = .next s1 ∧ s1.me.pc = pc ∧
      s1.me.level = level ∧ f s1.me.priv.mstatus ∧ s1.me.retired = t.retired + 1 ∧
      s1.me = { t with pc := pc, level := level, rep := s1.me.rep, retired := s1.me.retired, priv := { t.priv with mstatus := s1.me.priv.mstatus } } ∧
      SameMemory s s1 ∧ ∀ h, h ≠ s.cur → s1.thread h = s.thread h
    exec (.ebreak k) s = .next (s.trap s.cur 3 t.pc) ∧
    (kindOf s.cur.core = .compute → s.cur.th < 4 → t.level = .u → t.getX 10 ≠ 1 → ∃ s1, exec (.ecall k) s = .next s1 ∧
      s.me.Passed s1.me 4 ∧ s.me.XWritten s1.me 10 (if t.getX 10 = 0 then 0x10000 else 0xFFFFFFFFFFFFFFFF) ∧
      s1.me.priv.mepc = t.pc + 4 ∧ s1.me.priv.mcause = 8 ∧ s1.me.level = .u ∧ SameMemory s s1 ∧ s1 = { s with trapped := true }.setMe s1.me) ∧
    (kindOf s.cur.core = .compute → s.cur.th < 4 → t.level = .u → t.getX 10 = 1 → ∃ s1, exec (.ecall k) s = .next s1 ∧
      s1.me.status = .report ∧ s1.me.pc = t.pc ∧ s1.me.x = t.x ∧
      ∃ r, Reported s s1 (s.hubOf t.grid) r ∧ r.hart = s.cur ∧ r.epc = t.pc ∧ r.cause = BitVec.ofNat 64 (8 + 2 ^ 61) ∧ r.value = 0) ∧
    (kindOf s.cur.core ≠ .compute → t.level = .u → ∃ s1, exec (.ecall k) s = .next s1 ∧ s1.me.level = .s ∧ s1.me.pc = t.priv.stvec ∧
      s1.me.priv.scause = 8 ∧ s1.me.priv.sepc = t.pc ∧ s1.me.x = t.x) ∧
    (kindOf s.cur.core ≠ .compute → t.level ≠ .u → ∃ s1, exec (.ecall k) s = .next s1 ∧ s.me.Passed s1.me 4 ∧ s1.me.level = t.level ∧
      s.me.XWritten s1.me 10 (if t.getX 10 = 0 then 0x10000 else 0xFFFFFFFFFFFFFFFF)) ∧
    (t.level = .m → returns (.mret k) t.priv.mepc (levelOf (bits ms 11 2)) (fun m => m.getLsbD 3 = ms.getLsbD 7 ∧ m.getLsbD 7 = true ∧
      bits m 11 2 = (lowestLevel s.cur.core).code ∧ ∀ j, j < 64 → j ≠ 3 → j ≠ 7 → j ≠ 11 → j ≠ 12 → m.getLsbD j = ms.getLsbD j)) ∧
    (kindOf s.cur.core ≠ .compute → t.level ≠ .u → returns (.sret k) t.priv.sepc (levelOf (bits ms 8 1)) (fun m =>
      m.getLsbD 1 = ms.getLsbD 5 ∧ m.getLsbD 5 = true ∧ m.getLsbD 8 = false ∧
      ∀ j, j < 64 → j ≠ 1 → j ≠ 5 → j ≠ 8 → m.getLsbD j = ms.getLsbD j)) ∧
    (privOk s.cur.core t.level (.wfi k) = true →
      let due := (t.priv.mip &&& t.priv.mie) ||| (t.priv.sip &&& t.priv.sie)
      (due ≠ 0 → ∃ s1, exec (.wfi k) s = .next s1 ∧ Passes s s1 4) ∧ (due = 0 → ∃ s1, exec (.wfi k) s = .next s1 ∧ Waits s s1 .wfi))

/-- R329 to R333: TLB.WR installs a well-formed entry in place of those of its address space that cover its address, TLB.INV removes what
its selector names from the cores that its mask names, XLATE.DRAIN waits for older accesses, and MX.SAVE and MX.LOAD move the engine's
state, unless an error stands against a line of it (R386); a malformed operand or image writes 1. -/
def Obligations.TranslationInstructions : Prop :=
  ∀ (s : State) (k : Bool) (d : Fin 32) (a b : Opnd),
    let x := s.me.opX a
    let w := s.me.opX b
    let cl := clusterOf s.cur.core
    (∀ o, privOk s.cur.core s.me.level (.tlbWr k d a b) = true → s.me.AtStart →
      s.resolveRange s.cur w.toNat 32 = some (.sram (.core s.cur.core) o) → w.toNat % 32 = 0 → s.pmpOk s.cur w.toNat 32 .read = true →
      (∀ i, i < 4 → PlainWord s 0 (o / 8 + i)) → ∃ r, s.Read r ∧ exec (.tlbWr k d a b) s = .next (r.gather o 4)) ∧
    (privOk s.cur.core s.me.level (.tlbWr k d a b) = true → ∀ v s1, s.sysRead w 32 32 = .ok v s1 → s1.cur = s.cur →
      (∀ e, tlbImage v = some e → bits x 4 60 = 0 →
        let n := 16 * cl + bits x 0 4
        ∃ s2 t, exec (.tlbWr k d a b) s = .next t ∧ WritesX s2 t d 0 0 (len2 a b) ∧ (s2.core n).tlb.getLast? = some e ∧
          (∀ y ∈ (s2.core n).tlb.dropLast, y ∈ (s1.core n).tlb ∧ ¬ (y.asid = e.asid ∧ y.covers e.va = true)) ∧
          (s2.core n).tlb.length ≤ max 128 (s1.core n).tlb.length ∧ ∀ j, j ≠ n → s2.core j = s1.core j) ∧
      (tlbImage v = none ∨ bits x 4 60 ≠ 0 → ∃ t, exec (.tlbWr k d a b) s = .next t ∧ WritesX s1 t d 1 0 (len2 a b))) ∧
    (privOk s.cur.core s.me.level (.tlbInv k d a b) = true →
      (bits x 16 48 = 0 → bits w 56 6 = 0 → bits w 12 7 = 0 → bits w 62 2 ≠ 3 →
        ∃ s2 t, exec (.tlbInv k d a b) s = .next t ∧ WritesX s2 t d 0 0 (len2 a b) ∧
          (∀ i, i < 16 → (s2.core (16 * cl + i)).tlb = if x.getLsbD i then (s.core (16 * cl + i)).tlb.filter (fun e => !selects w e)
            else (s.core (16 * cl + i)).tlb) ∧ ∀ h, s2.thread h = s.thread h) ∧
      (bits x 16 48 ≠ 0 ∨ bits w 56 6 ≠ 0 ∨ bits w 12 7 ≠ 0 ∨ bits w 62 2 = 3 →
        ∃ t, exec (.tlbInv k d a b) s = .next t ∧ WritesX s t d 1 0 (len2 a b))) ∧
    (privOk s.cur.core s.me.level (.xlateDrain k a b) = true →
      let now := s.olderInFlight (bits x 0 12) (bits w 0 16)
      let left := match s.me.drain with
        | none => now
        | some ids => ids.filter (fun i => decide (i ∈ now))
      (left = [] → ∃ t, exec (.xlateDrain k a b) s = .next t ∧ Passes (s.setMe { s.me with drain := none }) t (len2 a b)) ∧
      (left ≠ [] → exec (.xlateDrain k a b) s = .next (s.setMe { s.me with drain := some left }))) ∧
    (privOk s.cur.core s.me.level (.mxSave k a) = true → s.resolveRange s.cur x.toNat 93504 ≠ none → x.toNat % 64 = 0 →
      (s.myCore.cmds = [] →
        (∀ l s0 s1, s.rawMap s.cur s.me.level .write x 1461 [] = .ok l s0 →
          s0.rawMeet s0.myCore.mowner (l.map (fun p => (p, true))) 0 = (none, s1) → ∃ t, exec (.mxSave k a) s = .next t ∧
          Passes (s1.rawWrites s1.myCore.mowner l (segsNat (s1.myCore.engine.image s1.myCore.cmroot))) t (len1 a)) ∧
        (∀ l s0 s1, s.rawMap s.cur s.me.level .read x 1461 [] = .ok l s0 →
          s0.rawMeet s0.myCore.mowner (l.map (fun p => (p, false))) 0 = (none, s1) → ∃ t p q,
          let s2 : State := { s1 with free := s1.free + 2 }
          let e := engineOf s2.myCore.cmroot (s2.rawReads s2.myCore.mowner l) p q
          exec (.mxLoad k d a) s = .next t ∧
            WritesX (s2.setMyCore { s2.myCore with engine := e.getD Engine.init }) t d (if e.isSome then 0 else 1) 0 (len1 a))) ∧
      (s.myCore.cmds ≠ [] → ∃ t, exec (.mxSave k a) s = .next t ∧ Waits s t .engine))

/-- R334, R335: CTX.HALT of a running context that is neither stopped nor being saved requests its halt, and with RESUME ends it; CTX.SAVE
of a halted one takes the save descriptor; each writes 0, or the code of the row that applies. (That a context whose clusters the scheduler has
released counts as none is the model's choice: log entry 94.) -/
def Obligations.ContextInstructions : Prop :=
  ∀ (s : State) (k : Bool) (d : Fin 32) (a b : Opnd) (c : Ctx),
    let x := s.me.opX a
    let w := s.me.opX b
    let ctx := bits x 0 32
    let plain := bits x 32 32 = 0 ∧ bits w 2 62 = 0 ∧ c.dbg.stopped = none ∧ c.dbg.target = none ∧ c.dbg.asked = none ∧
      c.saving = none ∧ c.dbg.mark = none ∧ c.mirroring = none ∧ c.away = false
    (privOk s.cur.core s.me.level (.ctxHalt k d a b) = true → Tab.find? s.ctxs ctx = some c → plain →
      (w.getLsbD 1 = false → c.halt = 0 → ∃ s1 t, exec (.ctxHalt k d a b) s = .next t ∧ WritesX s1 t d 0 0 (len2 a b) ∧
        (∀ c', Tab.find? s1.ctxs ctx = some c' → c'.halt ≠ 0 ∧ c'.force = w.getLsbD 0) ∧
        (∀ n ∈ s.coresOf ctx, (s1.thread ⟨n, 0⟩).priv.mip.getLsbD 1 = true) ∧
        (∀ n, n ≠ ctx → Tab.find? s1.ctxs n = Tab.find? s.ctxs n)) ∧
      (w.getLsbD 0 = false → w.getLsbD 1 = true → c.halt ≠ 0 → ∃ s1 t, exec (.ctxHalt k d a b) s = .next t ∧ WritesX s1 t d 0 0 (len2 a b) ∧
        (∀ c', Tab.find? s1.ctxs ctx = some c' → c'.halt = 0) ∧ (∀ n ∈ s.coresOf ctx, ∀ th, th < 4 → (s1.thread ⟨n, th⟩).status.isHalted = false)) ∧
      (w.getLsbD 0 = false → (w.getLsbD 1 = false ∧ c.halt ≠ 0 ∨ w.getLsbD 1 = true ∧ c.halt = 0) →
        ∃ t, exec (.ctxHalt k d a b) s = .next t ∧ WritesX s t d 2 0 (len2 a b))) ∧
    (privOk s.cur.core s.me.level (.ctxHalt k d a b) = true → (∀ y, Tab.find? s.ctxs ctx = some y → y.away = true) → bits w 2 62 = 0 → w.getLsbD 0 = false →
      w.getLsbD 1 = false → ∃ t, exec (.ctxHalt k d a b) s = .next t ∧ WritesX s t d 1 0 (len2 a b)) ∧
    (∀ o, privOk s.cur.core s.me.level (.ctxSave k d a b) = true → s.me.AtStart → Tab.find? s.ctxs ctx = some c → c.away = false →
      bits x 32 32 = 0 → c.halt ≠ 0 → c.saving = none → c.dbg.mark = none → c.mirroring = none →
      s.resolveRange s.cur w.toNat 64 = some (.sram (.core s.cur.core) o) → w.toNat % 64 = 0 → s.pmpOk s.cur w.toNat 64 .read = true →
      (∀ i, i < 8 → PlainWord s 0 (o / 8 + i)) → ∃ r, s.Read r ∧ exec (.ctxSave k d a b) s = .next (r.gather o 8)) ∧
    (privOk s.cur.core s.me.level (.ctxSave k d a b) = true → w.toNat % 64 = 0 → ∀ v s1, s.sysRead w 64 64 = .ok v s1 → s1.cur = s.cur →
      Tab.find? s.ctxs ctx = some c → bits x 32 32 = 0 → c.halt ≠ 0 → c.saving = none → c.dbg.mark = none → c.mirroring = none → c.away = false → v < 256 ^ 32 →
      ∃ t, exec (.ctxSave k d a b) s = .next t ∧
        WritesX { s1 with ctxs := Tab.set ctx { c with saved := false, saving := some ⟨s.cur, s.me.level, w, BitVec.ofNat 64 v, v / 2 ^ 64 % 2 ^ 64⟩ } s1.ctxs } t d 0 0 (len2 a b))

/-! ## The device's own steps -/

/-- R6, R62, R84, R352, R34, R373, R402: writes of registers that the device makes as steps of its own. A write with a non-zero reserved bit,
or out of its range, changes nothing; the orbit writes wait for the orbit boundary; DEVID is fixed by its LOCK bit. -/
def Obligations.RegisterSteps : Prop :=
  ∀ (s : State) (core th : Nat) (csr : BitVec 12) (v : Word) (region : Fin 8) (bank : Fin 16) (n : Fin 64) (j : Fin 4),
    let p := s.part n.val
    let puts (i : Instr) (ok : Prop) (t : State) : Prop := (ok → exec i s = .next t) ∧ (¬ ok → exec i s = .next s)
    let part (q : Part) : State := { s with parts := Tab.set n.val q s.parts }
    let named := ((List.range 64).filter (fun i => v.getLsbD i)).map (fun i => 64 * j.val + i)
    puts (.registerWrite core th csr v) (csrOk core (s.thread ⟨core, th⟩).level csr.toNat = true) (s.writeCsr ⟨core, th⟩ csr.toNat v) ∧
    (∃ c, exec (.tagmapWrite core region v) s = .next (s.setCore core c) ∧ c = { s.core core with sram := c.sram } ∧
      c.sram = { (s.core core).sram with regions := c.sram.regions, parks := c.sram.parks } ∧
      (∀ m, Tab.get 0 c.sram.regions m = if m / 16 = region.val ∧ m < 108 then BitVec.ofNat 2 (bits v (4 * (m % 16)) 2)
        else Tab.get 0 (s.core core).sram.regions m) ∧
      ∀ q ∈ c.sram.parks, q.word / 0x800 / 16 = region.val → q.word / 0x800 < 108 → q.woken = true) ∧
    (∃ c, exec (.bankfmtWrite core bank v) s = .next (s.setCore core c) ∧ c = { s.core core with fmts := c.fmts } ∧
      ∀ i : Fin 16, c.fmts[i.val] = if i = bank ∧ v.toNat ≤ 10 then v.setWidth 4 else (s.core core).fmts[i.val]) ∧
    puts (.gdwdWrite n v) (100 ≤ v.toNat ∧ v.toNat ≤ 100000) (part { p with gdwd := v.toNat }) ∧
    puts (.haltwdWrite n v) (10 ≤ v.toNat ∧ v.toNat ≤ 10000) (part { p with haltwd := v.toNat }) ∧
    puts (.partownWrite n v) ((∀ c ∈ s.ctxs, c.2.part ≠ n.val) ∧ bits v 0 12 ≠ 0) (part { p with owner := v.setWidth 12 }) ∧
    puts (.partclWrite n j v)
      ((∀ c ∈ named, c ∉ s.dev.withheld ∧ ∀ q ∈ s.parts, q.1 ≠ n.val → c ∉ q.2.clusters) ∧
        ∀ c ∈ p.clusters, c / 64 = j.val → c ∉ named → s.residentOn n.val c = false)
      (part { p with clusters := p.clusters.filter (fun c => decide (c / 64 ≠ j.val)) ++ named }) ∧
    (∀ k : Fin 64, puts (.orbitWrite k v) (∀ m : Nat, m < 64 → s.partHasGrid m = true → 0 < slotsOf s.orbitPending m →
      0 < slotsOf (Tab.put 0 k.val (v.setWidth 7) s.orbitPending) m) { s with orbitNext := Tab.set k.val (v.setWidth 7) s.orbitNext }) ∧
    ((∀ m : Nat, m < 64 → s.partHasGrid m = true → 0 < slotsOf s.orbit m → 0 < slotsOf s.orbitPending m) →
      exec .orbitUpdateApply s = .next { s with orbit := s.orbitPending, orbitNext := [] }) ∧
    puts (.devidWrite v) (s.dev.devLock = false ∧ s.dev.bootOk = true)
      { s with dev := { s.dev with devid := v.setWidth 19, devLock := v.getLsbD 31 } } ∧
    (∀ block, exec (.clockStretch block) s = .next s)

/-- R27, R59, R75, R79, R81, R82, R109, R178, R189: what happens to accesses on their way: a load arrives at an SRAM word that passes the action
table and is answered; an answer completes its thread's instruction; a thread goes past a load that it may leave behind, and the answer then
writes that load's register alone; a cleared store is acknowledged; a woken access is checked again, and one held behind a full list once an
entry of that list is free; a peer answers nothing that its port has not carried. (Which loads may be left behind: log entries 33 and 87.) -/
def Obligations.AccessSteps : Prop :=
  ∀ (s : State) (a : Access) (p : Place) (o : Nat),
    let u := s.me
    let own := s.thread a.hart
    let m := s.sram p
    let w := o / 8
    let open_ := m.parks.all (fun q => !(q.woken && decide (q.word = w))) = true
    let plain := w ∉ m.errs ∧ w / 8 ∉ m.ownerErrs ∧ Tab.find? m.soft w = none ∧ bits (m.entry w (kindAt p a) (m.tagFor a.owner w)) 0 4 = 0 ∧ bits (m.entry w (kindAt p a) (m.tagFor a.owner w)) 7 1 = 0
    let lone := a.home = .sram p ∧ a.op = .load ∧ a.elems = [(o, 0)] ∧ 1 ≤ a.esize ∧ o % 8 + a.esize ≤ 8
    let without (x : State) : List Msg := x.net.filter (fun q => decide (q.id ≠ a.id))
    (s.msg? a.id = some (.access a) → s.behind a = false → lone → open_ → plain → ∃ t, exec (.remoteAccessArrival a.id) s = .next t ∧
      t.net = without s ++ [.reply a (.value (BitVec.ofNat 512 (m.readFor a.owner o a.esize)) false)] ∧ SameMemory s t ∧
      ∀ h, t.thread h = s.thread h) ∧
    (s.msg? a.id = some (.access a) → s.behind a = true → exec (.remoteAccessArrival a.id) s = .next s) ∧
    (∀ v acq d kind len, s.msg? a.id = some (.reply a (.value v acq)) → a.issuer = .thread → a.cleared = false → (s.thread a.hart).late = [] →
      (s.thread a.hart).status = .access → (∃ loose, (s.thread a.hart).pend = some ⟨[a.id], 0, .writeX d kind, len, loose⟩) →
      ∃ t, exec (.remoteAccessReply a.id none) s = .next t ∧ t.net = without s ∧ (t.thread a.hart).status = .run ∧
        (t.thread a.hart).pend = none ∧ (s.thread a.hart).Passed (t.thread a.hart) len ∧
        (s.thread a.hart).XWritten (t.thread a.hart) d (extend kind (v.setWidth 64)) ∧ SameMemory s t ∧
        ∀ h, h ≠ a.hart → t.thread h = s.thread h) ∧
    (∀ b : Pend, s.agenda = [] → u.status = .access → u.rep = none → s.halting s.cur.core = false → u.pend = some b → b.loose = true → s.clean b.ids = true →
      s.logAllows s.cur = true →
      ∃ t, step s = .next t ∧ t.me.status = .late ∧ t.me.pend = none ∧ t.me.late = u.late ++ [⟨b.ids, b.gathered, b.finish, u.pc⟩] ∧
        u.Passed t.me b.len ∧ (∀ r, t.me.getX r = u.getX r) ∧ SameMemory s t ∧ t.net = s.net ∧ ∀ h, h ≠ s.cur → t.thread h = s.thread h) ∧
    (∀ v acq d kind g pc, s.msg? a.id = some (.reply a (.value v acq)) → a.issuer = .thread → a.cleared = false → own.status = .late →
      own.pend = none → own.late = [⟨[a.id], g, .writeX d kind, pc⟩] → ∃ t, exec (.remoteAccessReply a.id none) s = .next t ∧
        (t.thread a.hart).status = .run ∧ (t.thread a.hart).late = [] ∧ (t.thread a.hart).pc = own.pc ∧
        own.XWritten (t.thread a.hart) d (extend kind ((g ||| v).setWidth 64)) ∧ SameMemory s t ∧ ∀ h, h ≠ a.hart → t.thread h = s.thread h) ∧
    (∀ v acq, s.msg? a.id = some (.reply a (.value v acq)) → a.issuer = .thread → a.cleared = true →
      ∃ t, exec (.storeAcknowledge a.id false) s = .next t ∧ t.net = without s ∧ SameMemory s t ∧
        (t.thread a.hart = s.thread a.hart ∨
          (s.thread a.hart).status = .fence ∧ t.thread a.hart = { s.thread a.hart with status := .again }) ∧
        ∀ h, h ≠ a.hart → t.thread h = s.thread h) ∧
    (∀ place bank q, placeOf place = p → m.parks.find? (fun x => x.woken && decide (x.bank = bank)) = some q → q.access = a → lone → plain →
      p ≠ .core a.hart.core → ∃ t, exec (.parkRecheck place bank) s = .next t ∧
        t.net = s.net ++ [.reply a (.value (BitVec.ofNat 512 (m.readFor a.owner o a.esize)) false)] ∧
        (∀ x ∈ (t.sram p).parks, x.access.id ≠ a.id) ∧ SameMemory s t) ∧
    (∀ c : Nat, p = .cluster c → s.cores.all (fun q => q.2.sram.held.all (fun x => decide (x.id ≠ a.id))) = true →
      List.find? (fun q : Nat × Cluster => q.2.sram.held.any (fun x => decide (x.id = a.id))) s.clusters = some (c, s.cluster c) →
      m.held.find? (fun x => decide (x.id = a.id)) = some a → lone → open_ → plain →
      (m.parks.filter (fun x => decide (x.bank = a.bank))).length < 8 →
      ∃ t, exec (.heldAccessRecheck a.id) s = .next t ∧
        t.net = s.net ++ [.reply a (.value (BitVec.ofNat 512 (m.readFor a.owner o a.esize)) false)] ∧
        (∀ x ∈ (t.sram p).held, x.id ≠ a.id) ∧ SameMemory s t) ∧
    (∀ c : Nat, p = .cluster c → s.cores.all (fun q => q.2.sram.held.all (fun x => decide (x.id ≠ a.id))) = true →
      List.find? (fun q : Nat × Cluster => q.2.sram.held.any (fun x => decide (x.id = a.id))) s.clusters = some (c, s.cluster c) →
      m.held.find? (fun x => decide (x.id = a.id)) = some a → 8 ≤ (m.parks.filter (fun x => decide (x.bank = a.bank))).length →
      exec (.heldAccessRecheck a.id) s = .next s) ∧
    (∀ dev line refused, s.msg? a.id = some (.access a) → a.home = .peer dev → s.portUp a = false →
      exec (.remoteAccessReply a.id line) s = .next s ∧ exec (.storeAcknowledge a.id refused) s = .next s)

/-- R30, R189, R193, R317, R318, R343: what reaches a thread: an inbox entry, the wake of the spill thread, the user interrupt, an M-level or
S-level interrupt, which it takes at its next boundary, a timer, and the two traps of fetch. (That an interrupt's step only lets the thread's
turn come next: log entry 48; M level before a due report: log entry 22.) -/
def Obligations.ThreadSteps : Prop :=
  ∀ (s : State) (core th : Nat) (h : Hart), h = ⟨core, th⟩ →
    let t := s.thread h
    let only (s' : State) (u : Thread) : Prop := s' = s.setThread h u
    (∀ n src dst e, s.msg? n = some (.user n src dst e) → (s.core dst).inbox.length < 48 → s.earlierTo n src dst = false →
      (s.thread ⟨dst, (headerDst (e.setWidth 64)).val⟩).status ≠ .idle →
      ∃ s', exec (.inboxArrival n) s = .next s' ∧ (s'.core dst).inbox = (s.core dst).inbox ++ [⟨e, false⟩] ∧
        s'.net = s.net.filter (fun q => decide (q.id ≠ n)) ∧ SameMemory s s') ∧
    (∀ n src dst e, s.msg? n = some (.user n src dst e) → 48 ≤ (s.core dst).inbox.length → exec (.inboxArrival n) s = .next s) ∧
    ((s.thread ⟨core, 5⟩).status = .idle → (s.core core).spillMonitor = false → s.entryWaits core = true ∨ s.spillWanted core = true →
      ∃ s', exec (.spillWake core) s = .next s' ∧ (s'.thread ⟨core, 5⟩).pc = (s.core core).spillPc ∧ (s'.thread ⟨core, 5⟩).status = .run ∧
        (s'.thread ⟨core, 5⟩).level = .u ∧ (s.thread ⟨core, 5⟩).XWritten (s'.thread ⟨core, 5⟩) 10 (if s.entryWaits core then 0 else 1)) ∧
    (isUserThread h = true → t.user.pend = true → t.user.uie = true → t.user.h = false → t.user.utvec ≠ 0 → t.status = .run → t.level = .u →
      exec (.userInterruptEntry core th) s = .next (s.turnTo h) ∧
      (t.interruptM = none → s.reportDue h = false → (kindOf core ≠ .compute → t.interruptS = none) →
        ∃ s' u, s.boundary h = some s' ∧ only s' u ∧ u.pc = t.user.utvec ∧
          u.user = { t.user with uepc := t.pc &&& ~~~ 1#64, ucause := 64, uval := 0, h := true, pend := false } ∧
          u = { t with user := u.user, pc := u.pc, rep := u.rep, pend := none, gathered := [], late := [], drain := none })) ∧
    (∀ c, t.status = .run → t.interruptM = some c → exec (.interruptTake core th) s = .next (s.turnTo h) ∧
      ∃ s' u, s.boundary h = some s' ∧ only s' u ∧ u.level = .m ∧
      u.pc = t.priv.mtvec ∧ u.priv.mepc = t.pc ∧ u.priv.mcause = BitVec.ofNat 64 (2 ^ 63 + c) ∧ u.priv.mval = 0 ∧
      bits u.priv.mstatus 11 2 = t.level.code ∧ u.priv.mstatus.getLsbD 3 = false ∧ 65 ≤ c ∧ c ≤ 72 ∧
      (t.priv.mip &&& t.priv.mie).getLsbD (c - 64) = true ∧ ∀ i, 65 ≤ i → i < c → (t.priv.mip &&& t.priv.mie).getLsbD (i - 64) = false) ∧
    (∀ c, t.status = .run → t.interruptM = none → s.reportDue h = false → kindOf core ≠ .compute → t.interruptS = some c →
      exec (.interruptTake core th) s = .next (s.turnTo h) ∧ ∃ s' u, s.boundary h = some s' ∧ only s' u ∧ u.level = .s ∧ u.pc = t.priv.stvec ∧ u.priv.sepc = t.pc ∧
        u.priv.scause = BitVec.ofNat 64 (2 ^ 63 + c) ∧ (t.priv.sip &&& t.priv.sie).getLsbD (c - 64) = true) ∧
    (∃ s', exec (.monitorTimerExpiry core) s = .next s' ∧ (s'.thread ⟨core, 0⟩).priv.mip.getLsbD 2 = true ∧
      (∀ i, i < 64 → i ≠ 2 → (s'.thread ⟨core, 0⟩).priv.mip.getLsbD i = (s.thread ⟨core, 0⟩).priv.mip.getLsbD i)) ∧
    (kindOf core ≠ .compute → ∃ s', exec (.schedulerTimerExpiry core) s = .next s' ∧ (s'.thread ⟨core, 0⟩).priv.sip.getLsbD 6 = true ∧
      (∀ i, i < 64 → i ≠ 6 → (s'.thread ⟨core, 0⟩).priv.sip.getLsbD i = (s.thread ⟨core, 0⟩).priv.sip.getLsbD i)) ∧
    (∀ w : BitVec 32, exec (.illegalInstruction w) s = .next (s.trap s.cur 2 (w.setWidth 64))) ∧
    (∀ page v, exec (.instructionFetchFault page v) s = .next (s.trap s.cur (if page then 12 else 1) v))

/-- R315, R316, R342, R343, R345: reports and translation messages: a hub core takes its oldest report as an S-level trap, and its place lets
in one that waits; a resolution lets the thread try again, passes over the instruction, or aborts the grid with code 5, and does nothing once
the grid is over; a miss or dirty notice reaches the translation core's inbox. (Where a report stands, and its key: log entries 13 and 21;
the order of waiting reports: log entry 28.) -/
def Obligations.ReportSteps : Prop :=
  ∀ (s : State) (n k : Nat) (r : Report) (rest : List (Nat × Report)) (core : Nat) (m : Miss),
    let hub : Hart := ⟨hubCore n, 0⟩
    let c := s.core hub.core
    let u := s.thread hub
    let t := s.thread r.hart
    let low (x : Thread) : Thread := x.restoreM (lowestLevel r.hart.core)
    let walker := walkerOf (clusterOf core)
    (c.reports = (k, r) :: rest → c.handling = false → u.status = .run ∨ u.status = .wfi →
      u.level = .u ∨ u.level = .s ∧ u.priv.mstatus.getLsbD 1 = true → ∃ s', exec (.trapReportDelivery n) s = .next s' ∧
        (s'.core hub.core).report = some (k, r) ∧ (s'.core hub.core).handling = true ∧ (s'.thread hub).level = .s ∧
        (s'.thread hub).status = .run ∧ (s'.thread hub).pc = u.priv.stvec ∧ (s'.thread hub).priv.scause = r.cause ∧
        (s'.thread hub).priv.sval = r.value ∧ (s'.thread hub).priv.sepc = u.pc ∧
        (s'.thread hub).priv.sreport = virtAddr (reportAt hub.core k) ∧
        (c.reportsHeld = [] → (s'.core hub.core).reports = rest ∧ s'.dram = s.dram) ∧
        (∀ q later, c.reportsHeld = q :: later → rest.length < 256 → (s'.core hub.core).reports = rest ++ [(c.reportSeq, q)] ∧
          (s'.core hub.core).reportsHeld = later ∧ s'.dram = s.dram.write 0 (reportAt hub.core c.reportSeq) 64 q.nat)) ∧
    (c.report = some (k, r) → s.reportStale r = true → ∀ i ∈ [Instr.resolveRetry n, .resolveSkip n, .resolveAbort n],
      exec i s = .next (s.setCore hub.core { c with report := none })) ∧
    (c.report = some (k, r) → s.reportStale r = false → bits r.cause 62 1 = 0 → bits r.cause 0 7 ≠ 37 → bits r.cause 0 7 ≠ 38 →
      t.status = .report → r.hart.core ≠ hub.core →
      (∃ s', exec (.resolveRetry n) s = .next s' ∧ (s'.core hub.core).report = none ∧ s'.thread r.hart = { low t with status := .run }) ∧
      (bits r.cause 0 7 ≠ 1 → bits r.cause 0 7 ≠ 12 → t.repeat? = none → ∃ s', exec (.resolveSkip n) s = .next s' ∧
        (s'.core hub.core).report = none ∧ s'.thread r.hart = { low t with
          status := .run, pc := t.pc + BitVec.ofNat 64 ((s.setCore hub.core { c with report := none }).lengthAt r.hart),
          retired := if bits r.cause 0 7 = 8 then t.retired + 1 else t.retired })) ∧
    (c.report = some (k, r) → ∀ g, Tab.find? s.grids r.grid = some g → g.complete = false → g.aborting = none →
      ∃ s' g', exec (.resolveAbort n) s = .next s' ∧ Tab.find? s'.grids r.grid = some g' ∧
        g'.aborting = some (if bits r.cause 0 7 = 37 then 8 else if bits r.cause 0 7 = 38 then 3 else 5) ∧
        ∀ h, (s.thread h).grid = r.grid → h.core ∈ s.cores.map Prod.fst → h.th ∈ (s.core h.core).threads.map Prod.fst →
          (s'.thread h).status = .idle) ∧
    (∀ (dirty : Bool) (later : List Miss), (s.core core).notes = m :: later → m.dirty = dirty → core < 4096 → m.access < 3 →
      (s.core walker).inbox.length < 48 → ∃ s' e, exec (if dirty then .dirtyNotice core else .tlbMissMessage core) s = .next s' ∧
        (s'.core walker).inbox = (s.core walker).inbox ++ [⟨e, false⟩] ∧ bits e 62 1 = dirty.toNat ∧ bits e 30 4 = core % 16 ∧
        bits e 0 2 = m.access ∧ bits e 2 16 = m.gen % 65536 ∧ bits e 18 12 = m.asid % 4096 ∧ bits e 64 56 = m.va % 2 ^ 56 ∧
        (s'.thread ⟨walker, 0⟩).priv.sip.getLsbD 7 = true ∧ (s'.core core).notes = later)

/-- R42 to R51: a domain's turns: a causality cycle traps its blocked members; the react half ends once every member has paused or exited
and the events left behind are performed; the exchange half starts, once those that drain threads have added are performed (log entry 108), its
slots pass where the grid has a plan, a beat lands one orbit later; and the latch begins the next instant. (The clock of the domain: log entry
88; beats of one slot land before others leave: log entry 98.) -/
def Obligations.InstantSteps : Prop :=
  ∀ (s : State) (n : Nat) (d : Domain), Tab.find? s.domains n = some d →
    (s.cycleDue d = true → ∃ s' d', exec (.causalityCycle n) s = .next s' ∧ Tab.find? s'.domains n = some d' ∧ d' = { d with declared := true } ∧
      (d.declared = false → d.live.all s.takesCycle = true → (∀ m ∈ d.live, isUserThread m.hart = true) →
        d.live.Pairwise (fun x y => x.hart ≠ y.hart) → ∀ m ∈ d.live, ∀ k val,
        s.blockedOn d m = some (k, val) → (s'.thread m.hart).pc = (s.thread m.hart).user.utvec ∧ (s'.thread m.hart).user.h = true ∧
          (s'.thread m.hart).user.ucause = 29 ∧ (s'.thread m.hart).user.uval = BitVec.ofNat 64 (k % 256 + 256 * val.toNat))) ∧
    (s.cycleDue d = false → exec (.causalityCycle n) s = .next s) ∧
    (d.exch = false → d.reactEnded = false → (∀ m ∈ d.members, m.paused ≠ none ∨ m.exited = true) → s.halfQuiet d = true →
      ∃ s', exec (.reactHalfEnd n) s = .next s' ∧ s'.domains = Tab.set n { d with reactEnded := true, record := imbalance d } s.domains ∧
        s' = { s with domains := s'.domains, ctxs := s'.ctxs, dram := s'.dram } ∧
        ((∀ g, Tab.find? s.grids d.gid = some g → ∀ c, Tab.find? s.ctxs g.ctx = some c → c.dbg.armed = none) → s'.ctxs = s.ctxs ∧ s'.dram = s.dram)) ∧
    (d.exch = false → d.reactEnded = true → s.memberHalted d = false → s.halfQuiet d = true → d.members.Pairwise (fun x y => x.hart ≠ y.hart) →
      ∃ s', exec (.exchangeHalfStart n) s = .next s' ∧ s'.domains = Tab.set n { d with exch := true, slot := 0, stopped := false } s.domains ∧
        (∀ m ∈ d.members, m.exited = false → (s.thread m.hart).status = .pause →
          (s'.thread m.hart).status = .run ∧ (s.thread m.hart).Passed (s'.thread m.hart) 4) ∧ SameMemory s s') ∧
    (d.exch = true → d.plan = [] → s.gridHalting d.gid = false → exec (.exchangeBeatSend n) s = .next s) ∧
    (d.exch = true → d.plan ≠ [] → s.ownedSlots d.gid ≠ 0 → d.stopped = false → (∀ f ∈ d.flying, d.slot < f.slot + s.ownedSlots d.gid) →
      s.gridHalting d.gid = false → s.beatErrors (d.sends.filter (fun b => decide (b.entry.slot + b.next = d.slot))) = none →
      ∃ s' d', exec (.exchangeBeatSend n) s = .next s' ∧ Tab.find? s'.domains n = some d' ∧ d'.slot = d.slot + 1 ∧
        (∀ b ∈ d.sends, b.entry.slot + b.next = d.slot → ∃ f ∈ d'.flying, f.slot = d.slot ∧
          f.dest = b.entry.dest + BitVec.ofNat 64 (64 * b.next) ∧ f.tag = b.entry.tag ∧ f.tagset = b.entry.tagset ∧
          f.data = BitVec.ofNat 512 ((s.core b.hart.core).sram.readFor (s.core b.hart.core).mowner (b.src + 64 * b.next) 64)) ∧ SameMemory s s') ∧
    (∀ f rest c off, d.flying = f :: rest → d.stopped = true ∨ f.slot + s.ownedSlots d.gid ≤ d.slot → destOf f.dest = (.core c, off) → off % 64 = 0 →
      s.lineError (.core c) (s.gridOwner d.gid) off = none →
      ∃ s', exec (.exchangeArrival n) s = .next s' ∧
        (s'.core c).sram.readFor (s.gridOwner d.gid) off 64 = f.data.toNat ∧
        (∀ q a, (q ≠ .core c ∨ a < off ∨ off + 64 ≤ a) → s'.byteAt q a = s.byteAt q a) ∧
        (f.tagset = true → ∀ i, i < 8 → Tab.get 0 (s'.core c).sram.tags (off / 8 + i) = f.tag) ∧
        (∀ d', Tab.find? s'.domains n = some d' → d' = { d with flying := rest }) ∧ ∀ h, s'.thread h = s.thread h) ∧
    (d.exch = true → (∀ m ∈ d.members, m.ended = true ∨ m.exited = true) → d.flying = [] → d.sends = [] → s.halfQuiet d = true → s.memberHalted d = false →
      d.members.Pairwise (fun x y => x.hart ≠ y.hart) →
      (∀ g, Tab.find? s.grids d.gid = some g → ∀ c, Tab.find? s.ctxs g.ctx = some c → c.dbg.armed = none) →
      ((d.instant + 1).toNat % 256 = 0 → ∀ g, Tab.find? s.grids d.gid = some g → Config.recoverable g.ctx = false) →
      ∃ s' d', exec (.latch n) s = .next s' ∧ Tab.find? s'.domains n = some d' ∧ d'.exch = false ∧ d'.instant = d.instant + 1 ∧ d'.slot = 0 ∧
        d'.sigs.map Sig.prev = d.sigs.map (fun g => decide (g.status = .present)) ∧
        (∀ m ∈ d.members, m.exited = false → (s'.thread m.hart).dcur = (s.thread m.hart).dnext ∧
          ((s.thread m.hart).status = .xend → (s'.thread m.hart).status = .run)) ∧ SameMemory s s')

/-- R25, R31, R32, R34, R353, R356 to R363, R365: the command processor's turns: a notified or hinted queue is scanned, and its block is then
in the entry cache; NOP, MARK, LAUNCH and QUEUE packets are carried out, held back by BARRIER, or rejected with their code; a group
becomes resident once its cores are free or can be freed; a grid completes or ends with its error; and the watchdog, the run-time
limit and the halt watchdog expire. (The context made with its first queue: log entry 41; expiry without its time: log entry 42; admin queues: log
entry 62; the entry cache: log entry 93; the serial of a launch that has waited: log entry 96.) -/
def Obligations.SchedulingSteps : Prop :=
  ∀ (s : State) (q : Nat) (r : Queue) (p : List Word) (gid : Nat) (g : Grid) (c : Ctx),
    let hub : Hart := ⟨hubCore (q % 4), 0⟩
    let sig (x : State) (f : Word → Word) : State := x.signalEvent r.ctx (p.getD 1 0) f
    let kind := bits (p.headD 0) 1 3
    let head := s.headPacket q = some (r, p)
    let qid := (p.getD 3 0).toNat
    let k := s.cacheQueue q
    let aborted (s' : State) (code : Nat) : Prop := ∃ g', Tab.find? s'.grids gid = some g' ∧ g'.aborting = some code ∧ g'.complete = false ∧
      ∀ x ∈ g'.groups, x.state = 2
    (s.liveQueue q = some r → (s.thread hub).priv.sip.getLsbD 3 = true → r.notified = true →
      ∃ s', exec (.notifyScan q) s = .next s' ∧ s'.qcb q = some { r with scanning := true, notified := false }) ∧
    (s.liveQueue q = some r → r.read.toNat < r.hint.toNat →
      exec (.periodicQueueScan q) s = .next (s.setQueue q { r with scanning := true }) ∧
        (s.setQueue q { r with scanning := true }).qcb q = some { r with scanning := true }) ∧
    (s.headPacket q = none → ∀ i ∈ [Instr.packetNop q, .packetMark q, .packetLaunch q, .packetQueueCreate q, .packetQueueDestroy q],
      exec i s = .next (s.endScan q)) ∧
    (head → kind = 0 → plainOk p = true → s.barred q p = false → exec (.packetNop q) s = .next ((sig k signalDone).consume q r)) ∧
    (head → kind = 0 → plainOk p = false → exec (.packetNop q) s = .next ((sig k (signalError 1)).consume q r)) ∧
    (head → kind = 2 → plainOk p = true → s.barred q p = false → exec (.packetMark q) s = .next (((k.setQueue q { r with marks := r.marks ++
      [(p.getD 1 0, (List.filter (fun x : Nat × Grid => decide (x.2.queue = q) && !x.2.complete) s.grids).map Prod.fst)] }).consume q r).fireMarks q)) ∧
    (head → s.barred q p = true → (kind = 0 → plainOk p = true → exec (.packetNop q) s = .next k) ∧
      (kind = 2 → plainOk p = true → exec (.packetMark q) s = .next k) ∧
      (kind = 1 → ∀ l, k.launch r p = .ok l → exec (.packetLaunch q) s = .next k)) ∧
    (head → kind = 1 → ∀ code, k.launch r p = .error code → exec (.packetLaunch q) s = .next ((sig k (signalError code)).consume q r)) ∧
    (head → kind = 1 → ∀ l, k.launch r p = .ok l → l.gang = false → s.barred q p = false → Tab.find? s.ctxs r.ctx = some c → ∃ s1 : State, exec (.packetLaunch q) s = .next (s1.consume q r) ∧
        let new := r.ctx * 2 ^ 32 + (r.step.bind List.head?).getD (nextSerial c.serial)
        ∃ g' : Grid, Tab.find? s1.grids new = some g' ∧ g'.queue = q ∧ g'.signal = p.getD 1 0 ∧ g'.groups = l.groups ∧ g'.complete = false ∧
          g'.packet = p ∧ (∀ x, x ≠ new → x ≠ (p.getD 2 0).toNat → Tab.find? s1.grids x = Tab.find? s.grids x)) ∧
    (head → kind = 3 → k.queuePacketOk q r p = true → (p.getD 2 0).toNat = 1 → s.barred q p = false →
      ∀ ws new, k.cpWords r.ctx (p.getD 4 0).toNat 16 = some ws → qcbOf ws = some new → k.liveQueue qid = none → k.ctxFits q new.ctx = true →
        (∀ c', Tab.find? s.ctxs new.ctx = some c' →
          exec (.packetQueueCreate q) s = .next ((sig (k.setQueue qid new) signalDone).consume q r)) ∧
        (Tab.find? s.ctxs new.ctx = none → exec (.packetQueueCreate q) s =
          .next ((sig ((k.setCtx new.ctx (Ctx.new q (s.part q).owner)).setQueue qid new) signalDone).consume q r))) ∧
    (head → kind = 3 → k.queuePacketOk q r p = true → (p.getD 2 0).toNat = 2 → qid ≠ q →
      (r.step = none → s.barred q p = false → ∀ d, k.liveQueue qid = some d → k.functionOf d = q → ∃ (s1 : State) (gs : List Nat),
        exec (.packetQueueDestroy q) s = .next (((s1.setStep q gs).endDestroy q r p gs).reap d.ctx) ∧ s1.liveQueue qid = none ∧
        ∀ x g1, Tab.find? s.grids x = some g1 → g1.queue = qid → g1.complete = false → x ∈ gs ∧
          (g1.aborting = none → ∃ g2, Tab.find? s1.grids x = some g2 ∧ g2.aborting = some 4)) ∧
      (∀ gs, r.step = some gs → (gs.all s.gridOver = false → exec (.packetQueueDestroy q) s = .next k) ∧
        (gs.all s.gridOver = true → exec (.packetQueueDestroy q) s = .next ((sig k signalDone).consume q r)))) ∧
    (head → kind = 3 → k.queuePacketOk q r p = false →
      exec (.packetQueueCreate q) s = .next ((sig k (signalError 1)).consume q r) ∧
      exec (.packetQueueDestroy q) s = .next ((sig k (signalError 1)).consume q r)) ∧
    (Tab.find? s.grids gid = some g →
      (∀ x s1, s.groupReady gid g = some (x, s1) → (∀ y ∈ s.grids, s.beforeGrid y.2 g = false) → ∃ s', exec (.groupDispatch gid) s = .next s' ∧
        ∃ g', Tab.find? s'.grids gid = some g' ∧ ∀ y ∈ g'.groups, y.stage = x.stage → y.index = x.index → y.state = 1) ∧
      (g.complete = false → g.aborting = none → (∀ x ∈ g.groups, x.state = 2) → g.children = [] → g.childq = [] → s.gridQuiet gid = true →
        exec (.gridCompletion gid) s = .next
          ((({ s with grids := Tab.set gid { g with complete := true } s.grids }).signalEvent g.ctx g.signal signalDone).afterGrid g)) ∧
      (∀ code, g.complete = false → g.aborting = some code → s.gridQuiet gid = true → exec (.errorEvent gid) s = .next
        ((({ s with grids := Tab.set gid { g with complete := true } s.grids }).signalEvent g.ctx g.signal (signalError code)).afterGrid g)) ∧
      (g.complete = false → g.aborting = none →
        (g.limit ≠ 0 → (∀ c, Tab.find? s.ctxs g.ctx = some c → c.halt ≠ 2 ∧ c.away = false) → (∃ x ∈ g.groups, x.state ≠ 0) →
          ∃ s', exec (.runTimeLimit gid) s = .next s' ∧ aborted s' 6) ∧
        (∀ x rest, g.groups.filter (fun x => decide (x.state = 1)) = x :: rest → (∀ y ∈ g.groups, y.state = 1 → s.groupBlocked y = true) →
          (∃ y ∈ g.groups, y.state = 0) → ∃ s', exec (.gridDeadlock gid) s = .next s' ∧ aborted s' 3))) ∧
    (Tab.find? s.ctxs gid = some c → c.halt = 1 → ∃ s', exec (.haltWatchdog gid) s = .next s' ∧
      ∀ c', Tab.find? s'.ctxs gid = some c' → c'.force = true ∧ c'.halt ≠ 0)

/-- R335, R378, R386 to R389, R396, R401, R408: the save engine ends the request of a halted context; a restore request raises the mailbox
interrupt, and from another function does nothing else; the scrubber reads a word once in its pass, and corrects, counts and records an error that
a code corrects; a failed bank is listed and a second one withholds its cluster; an armed context's core
logs the runs of its threads; a function's reset leaves its queues dead; and bring-up runs its steps, and leaves the machine as State.reset has it
but for its record. (What a restore waits for: log entry 112; the logs: 66; what bring-up keeps: 47; the end of a pass: 103; admin queues: 62.) -/
def Obligations.UpkeepSteps : Prop :=
  ∀ (s : State) (ctx core off : Nat) (bank : Fin 16) (c : Ctx),
    let m := s.mailbox
    let w := off / 8 % (0x1C0000 / 8)
    let seen := Tab.get [] s.dev.scrubbed core
    let counted := Tab.set (bankOf (.core core) (8 * w)) (Tab.get 0 (s.core core).corrected (bankOf (.core core) (8 * w)) + 1) (s.core core).corrected
    (∀ r, (s.settle ctx) = s → Tab.find? s.ctxs ctx = some c → c.halt = 2 → c.latching = false → c.saving = some r →
      ∃ (s' : State) (status size : Nat), exec (.saveEngine ctx) s = .next (s'.saveStatus r status size) ∧
        (status = 0 ∨ (status = 1 ∨ status = 2) ∧ size = 0) ∧ ∃ c', Tab.find? s'.ctxs ctx = some c' ∧
          c'.saving = none ∧ c'.saved = (c.saved || decide (status = 0)) ∧ c'.halt = 2) ∧
    (∀ fn image part, fn ≠ 0 → exec (.restoreRequest fn image part) s = .next m) ∧
    (∀ image part bs l x s1, s.dev.bootOk = true → part < 64 → m.rawImage image = (some bs, s1) → parseImage bs = some l → ofKind l 1 = [x] →
      s1.restoreOk l part x.key (BitVec.ofNat 12 (fieldAt x.data 0 8)) = true →
      (∀ s', s1.rebuild l part = .done s' → exec (.restoreRequest 0 image part) s = .next s') ∧
      (s1.rebuild l part = .refused → exec (.restoreRequest 0 image part) s = .next s1) ∧
      (s1.rebuild l part = .waits →
        exec (.restoreRequest 0 image part) s = .next { s1 with dev := { s1.dev with restores := s1.dev.restores ++ [(image, part)] } })) ∧
    ((m.thread ⟨hubCore 4, 0⟩).priv.sip.getLsbD 8 = true ∧ (m.thread ⟨hubCore 5, 0⟩).priv.sip.getLsbD 8 = true ∧ SameMemory s m) ∧
    (core < 8192 → (w ∈ seen → exec (.scrubRead 0 core off) s = .next s) ∧
      (∀ kind, w ∉ seen → s.badLines (.core core) [w] = [] → Tab.find? (s.core core).sram.soft w = some kind → kind ≤ 1 →
        ∃ s', exec (.scrubRead 0 core off) s = .next s' ∧ SameSram s s' ∧ Tab.find? (s'.core core).sram.soft w = none ∧
        (s'.core core).corrected = (if (insertAsc w seen).length < 0x1C0000 / 8 then counted else counted.filter (fun q => decide (256 ≤ q.2))) ∧
        (s.dev.errors.length < Config.errorRing → ∃ e, s'.dev.errors = s.dev.errors ++ [e] ∧ bits (e.words.getD 1 0) 0 8 = kind ∧
          e.words.getD 2 0 = BitVec.ofNat 64 (8 * w)))) ∧
    (core < 4096 → bank.val ∉ (s.core core).failed → (∃ s', exec (.bankFailed core bank.val true) s = .next s' ∧
        (s'.core core).failed = (s.core core).failed ++ [bank.val] ∧ ((s.core core).failed ≠ [] → core / 16 ∈ s'.dev.withheld)) ∧
      (Tab.get 0 (s.core core).corrected bank.val < 256 → exec (.bankFailed core bank.val false) s = .next s)) ∧
    (∀ thread run, s.ctxOf core = some c → c.dbg.armed ≠ none → (s.core core).replay = none → thread < 6 → 1 ≤ run → run ≤ 8192 →
      ((s.core core).trace.take run = List.replicate run thread → ∃ s', exec (.runLengthLogAppend core thread run) s = .next s' ∧
        (s'.core core).trace = (s.core core).trace.drop run ∧
        (0 < c.dbg.logs.entries → (s'.core core).runlog.getLast? = some (BitVec.ofNat 16 (2 ^ 13 * thread + (run - 1)))) ∧
        SameSram s s' ∧ ∀ h, s'.thread h = s.thread h) ∧
      ((s.core core).trace.take run ≠ List.replicate run thread → exec (.runLengthLogAppend core thread run) s = .next s)) ∧
    (∀ fn, fn < 64 → s.destroying fn = false → s.grids = [] → Tab.ascending s.queues = true → (∀ x ∈ s.queues, x.1 ∈ s.qcache) → fn ∈ s.qcache →
      ∃ s', exec (.functionLevelReset fn) s = .next s' ∧
      (∀ q r, q ≠ fn → q ∈ s.qcache → s.liveQueue q = some r → s.functionOf r = fn → s'.liveQueue q = none) ∧
      (∀ r, s'.qcb fn = some r → r.read = 0)) ∧
    (∀ cfg : BringUp, cfg.firmwareOk = true → cfg.recordOk = true → recordGood cfg.record = true → cfg.monitorOk = true → cfg.schedulerOk = true →
      cfg.managementOk = true → cfg.repairs = [] → cfg.record.banks = [] → recordShort cfg.record = [] → s.dev.repairs = [] → cfg.listOk = true →
      exec (.bringUp cfg) s = .next { State.reset with
        agenda := s.agenda, free := s.free,
        dev := { State.reset.dev with boots := s.dev.boots + 1, record := cfg.record, spareUsed := recordSpares cfg.record } }) ∧
    (∀ cfg : BringUp, cfg.firmwareOk = false ∨ cfg.recordOk = false ∨ recordGood cfg.record = false ∨ cfg.monitorOk = false ∨ cfg.schedulerOk = false ∨
      cfg.managementOk = false → ∃ s', exec (.bringUp cfg) s = .next s' ∧ s'.dev.bootOk = false ∧ s'.queues = [] ∧
        s'.dev.bootStep = if cfg.firmwareOk = false then 1 else if cfg.recordOk = false ∨ recordGood cfg.record = false then 2 else 4)

/-- R390 to R395, R400: keys are loaded and cleared while no context of their owner exists; the SPDM requests of a well-ordered connection are
answered; others receive an error; and a host access through BAR2 is made for the partition's owner. (The wrapping key and signatures: log entry
12; BAR2's ranges: 13; a line that no code corrects: 70; the codes and bits of the SPDM specification: 71, PRESUMED; a clear that waits: 87.) -/
def Obligations.SecuritySteps : Prop :=
  ∀ (s : State) (fn owner : Nat) (r : Spdm.Fields) (dk : BitVec 576) (wrapped : BitVec 576),
    let free := (∀ c ∈ s.ctxs, c.2.owner.toNat ≠ owner) ∧ 1 ≤ owner
    let c := s.conn fn
    let m := s.mailbox
    let clean := r.busy = false ∧ r.wellFormed = true ∧ s.dev.bootOk = true ∧ fn ≤ 64
    let same := clean ∧ r.version = c.version
    let put (s' : State) (c' : Conn) : State := { s' with dev := { s'.dev with conns := Tab.set fn c' s'.dev.conns } }
    let ans (code : Nat) (p : List (BitVec 512)) (x : Conn) : Conn := { x with response := [code], payload := p }
    let sign (x : Conn) : State :=
      put { m with free := s.free + 1 } { x with signature := Config.sign s.dev.boots (Config.transcript s.free r.nonce) }
    (free → s.dev.bootOk = true → owner < 4096 → exec (.keyLoad 0 owner wrapped dk) s = .next (match Aes.kwpUnwrap (Config.wrapKey s.dev.boots) wrapped with
      | some k => { m with dev := { s.dev with keys := Tab.set owner k s.dev.keys, debugKeys := Tab.set owner dk s.dev.debugKeys } }
      | none => m)) ∧
    (s.dev.bootOk = false ∨ fn ≠ 0 ∨ owner = 0 ∨ (∃ c ∈ s.ctxs, c.2.owner.toNat = owner) → exec (.keyLoad fn owner wrapped dk) s = .next m) ∧
    (free → s.dev.bootOk = true → s.lateMeets (fun a => decide (a.owner.toNat = owner)) = false → exec (.keyClear owner) s = .next { m with dev := { s.dev with
      keys := Tab.del owner s.dev.keys, debugKeys := Tab.del owner s.dev.debugKeys } }) ∧
    (clean → exec (.getVersion fn r) s = .next (put m { Conn.init with stage := 1, response := [0x84, 0x12, 0x13] })) ∧
    (clean → c.stage = 1 → r.version = 0x12 ∨ r.version = 0x13 →
      exec (.getCapabilities fn r) s = .next (put m (ans 0xE1 [0x16] { c with stage := 2, version := r.version }))) ∧
    (same → c.stage = 2 → commonAlgorithms r = true →
      exec (.negotiateAlgorithms fn r) s = .next (put m (ans 0xE3 [2 ^ 11, 2 ^ 5, 1, 1] { c with stage := 3 }))) ∧
    (same → c.stage = 2 → commonAlgorithms r = false →
      exec (.negotiateAlgorithms fn r) s = .next (put m { c with response := [0x7F, 1], payload := [] })) ∧
    (same → 3 ≤ c.stage →
      exec (.getDigests fn r) s = .next (put m (ans 0x81 [Config.certificate] c)) ∧
      (r.slot = 0 → exec (.getCertificate fn r) s = .next (put m (ans 0x82 [Config.certificate] c)) ∧
        exec (.challenge fn r) s = .next (sign (ans 0x83 [Config.certificate] { c with challenged := true }))) ∧
      (measured s.dev.meas r.slot ≠ [] → exec (.getMeasurements fn r) s = .next (sign (ans 0xE0 (measured s.dev.meas r.slot) c)))) ∧
    (same → c.stage ≠ 2 → commonAlgorithms r = true → exec (.negotiateAlgorithms fn r) s = .next (put m { c with response := [0x7F, 4], payload := [] })) ∧
    (clean → r.code ∉ [0x84, 0xE1, 0xE3, 0x81, 0x82, 0x83, 0xE0] →
      exec (.spdmUnsupportedRequest fn r) s = .next (put m { c with response := [0x7F, 7], payload := [] })) ∧
    (∀ addr (n : Fin 65) v, s.dev.bootOk = false ∨ 64 < (Config.bar2Base fn + addr) % 64 + n.val → exec (.bar2Access fn addr n v) s = .next s) ∧
    (∀ addr (n : Fin 65) v, fn < 64 → n ≠ 0 → s.dev.bootOk = true → (Config.bar2Base fn + addr) % 64 + n.val ≤ 64 →
      ((s.part fn).owner = 0 ∨ s.hasKey (s.part fn).owner = false) → exec (.bar2Access fn addr n (some v)) s = .next s ∧
      exec (.bar2Access fn addr n none) s = .next { s with dev := { s.dev with bar2Data := some (BitVec.ofNat 512 (256 ^ n.val - 1)) } }) ∧
    (∀ addr (n : Fin 65) key, fn < 64 → n ≠ 0 → s.dev.bootOk = true → (Config.bar2Base fn + addr) % 64 + n.val ≤ 64 → (s.part fn).owner ≠ 0 → s.hasKey (s.part fn).owner = true → s.keyOf (s.part fn).owner = some key →
      s.dram.poison = [] → s.dram.soft = [] → s.dram.bad = [] →
      let pa := Config.bar2Base fn + addr
      let inside := addr + n.val ≤ bar2Bytes fn ∧ pa + n.val ≤ 2 ^ 39
      exec (.bar2Access fn addr n none) s = .next { s with dev := { s.dev with bar2Data := some (BitVec.ofNat 512
        (if inside then s.dram.read key pa n.val else 256 ^ n.val - 1)) } } ∧
      ∀ v, (∀ x ∈ s.blocks, x.2.live = false) → ∃ s', exec (.bar2Access fn addr n (some v)) s = .next s' ∧
        (inside → s'.dram.read key pa n.val = v.toNat % 256 ^ n.val) ∧ (¬ inside → s' = s) ∧ ∀ h, s'.thread h = s.thread h)

/-- R395 to R399, R403, R404: debug objects on a connection that has completed CHALLENGE and unlocked their context's owner are carried out, and
answered with status 1 or 2 otherwise; flits of a trained port are sent and received in sequence, and an audit that does not match
stops its channel, which then retrains. (Signatures, and what UNLOCK measures: log entry 12; audits, replay and retraining: 46; the logs and the
replay: 66, 67; a restore that waits: 112.) -/
def Obligations.DebugAndPortSteps : Prop :=
  ∀ (s : State) (ctx port vc : Nat) (c : Ctx) (f : Flit),
    let d := s.conn 64
    let answers (s' : State) (st : Nat) : Prop := (s'.conn 64).response = [st]
    let ch := s.chan port vc
    let open_ := d.challenged = true ∧ Tab.find? s.ctxs ctx = some c ∧ c.owner.toNat ∈ d.unlocked
    let objects : List Instr := [.debugArm ctx ⟨1, ⟨0, 1, 0, 1⟩⟩, .debugStop ctx 0 0 0, .debugRead ctx 1 0, .debugResume ctx, .debugDisarm ctx]
    let good := s.dev.devLock = true ∧ port < 16 ∧ f.vc < 4 ∧ f.type < 3 ∧ f.dest < 2 ^ 19 ∧ f.owner < 4096 ∧ f.free ≤ 64
    (d.challenged = true → ∃ s' nonce, exec .debugNonce s = .next s' ∧ answers s' 0 ∧ (s'.conn 64).nonces = nonce :: d.nonces ∧
      (s'.conn 64).payload = [nonce.setWidth 512]) ∧
    (∀ owner nonce sg key, d.challenged = true → 1 ≤ owner → owner < 4096 → Tab.find? s.dev.debugKeys owner = some key → nonce ∈ d.nonces →
      ∃ s', exec (.debugUnlock owner nonce sg) s = .next s' ∧ nonce ∉ (s'.conn 64).nonces ∧
        (if Config.signatureOk key owner nonce sg = true then answers s' 0 ∧ (s'.conn 64).unlocked = owner :: d.unlocked ∧
            s'.dev.meas[7] = extendMeas s.dev.meas[7] (Keccak.shake256 (leBytes 2 owner))
          else answers s' 1 ∧ (s'.conn 64).unlocked = d.unlocked ∧ s'.dev.meas[7] = s.dev.meas[7])) ∧
    (∀ i ∈ objects, (d.challenged = false → ∃ s', exec i s = .next s' ∧ answers s' 1 ∧ s' = { s.mailbox with dev := s'.dev }) ∧
      (d.challenged = true → Tab.find? s.ctxs ctx = some c → c.owner.toNat ∉ d.unlocked → ∃ s', exec i s = .next s' ∧ answers s' 2 ∧
        s' = { s.mailbox with dev := s'.dev })) ∧
    (open_ →
      (∀ period (logs : LogBuffers), 1 ≤ period → period ≤ 256 → logs.entries ≠ 0 → logs.records ≠ 0 → s.hasDomain ctx = true →
        ∃ s', exec (.debugArm ctx ⟨period, logs⟩) s = .next s' ∧ answers s' 0 ∧
        ∃ c', Tab.find? s'.ctxs ctx = some c' ∧ c'.dbg.armed = some period ∧ c'.dbg.logs = logs ∧ c'.dbg.checkpoints = []) ∧
      (∃ s', exec (.debugDisarm ctx) s = .next s' ∧ answers s' 0 ∧ ∃ c', Tab.find? s'.ctxs ctx = some c' ∧ c'.dbg.armed = none ∧
        c'.dbg.checkpoints = []) ∧
      (∀ interval thread count k, (hartOfKey thread).core ∈ s.coresOf ctx → (hartOfKey thread).th < 6 → c.dbg.armed ≠ none → c.dbg.asked = none →
        c.dbg.target = none → c.dbg.stopped = none → interval ∉ c.dbg.broken → k ∈ c.dbg.checkpoints → k.number = interval →
        ∃ s' c', exec (.debugStop ctx interval thread count) s = .next s' ∧ Tab.find? s'.ctxs ctx = some c' ∧
          c'.dbg.asked = some (interval, hartOfKey thread, count) ∧ c'.halt ≠ 0 ∧ (c.halt ≤ 1 → c'.force = true)) ∧
      (c.dbg.stopped = none → (∃ s', exec (.debugRead ctx 1 0) s = .next s' ∧ answers s' 1) ∧ ∃ s', exec (.debugResume ctx) s = .next s' ∧ answers s' 1) ∧
      (∀ type key x, c.dbg.stopped ≠ none → c.halt = 2 → (s.mailbox.sections ctx c).find? (fun x => decide (x.kind = type) && decide (x.key = key)) = some x →
        ∃ s', exec (.debugRead ctx type key) s = .next s' ∧ answers s' 0 ∧ (s'.conn 64).payload = piecesOf64 x.data.length x.data) ∧
      (c.dbg.stopped ≠ none → c.dbg.waiting = none → ∃ s', exec (.debugResume ctx) s = .next s' ∧ answers s' 0 ∧
        ∃ c', Tab.find? s'.ctxs ctx = some c' ∧ c'.dbg.stopped = none ∧ c'.halt = 0) ∧
      (∀ force, c.dbg.stopped ≠ none → c.dbg.waiting = some force → ∃ s', exec (.debugResume ctx) s = .next s' ∧ answers s' 0 ∧
        ∃ c', Tab.find? s'.ctxs ctx = some c' ∧ c'.dbg.stopped = none ∧ c'.dbg.waiting = none ∧ c'.halt ≠ 0)) ∧
    (s.settle ctx = s → Tab.find? s.ctxs ctx = some c →
      (∀ n h count k, c.dbg.asked = some (n, h, count) → c.halt = 2 → c.mirroring = none →
        c.dbg.checkpoints.find? (fun x => decide (x.number = n)) = some k →
        ((s.flushLogs ctx).restoreInPlace ctx c k.image = .waits → exec (.debugStopReached ctx) s = .next s) ∧
        ∀ s1, (s.flushLogs ctx).restoreInPlace ctx c k.image = .done s1 → ∃ s' c', exec (.debugStopReached ctx) s = .next s' ∧ Tab.find? s'.ctxs ctx = some c' ∧
          c'.dbg.asked = none ∧ c'.dbg.stopped = none ∧ c'.dbg.target = some (h, (s1.thread h).retired + BitVec.ofNat 64 count)) ∧
      ∀ h goal, c.dbg.asked = none → c.dbg.target = some (h, goal) →
        ((s.thread h).retired ≠ goal → s.diverged ctx = false → exec (.debugStopReached ctx) s = .next s) ∧
        ∀ st, st = (if (s.thread h).retired = goal then 0 else 4) → (s.thread h).retired = goal ∨ s.diverged ctx = true →
          ∃ s' c', exec (.debugStopReached ctx) s = .next s' ∧ answers s' st ∧ Tab.find? s'.ctxs ctx = some c' ∧ c'.dbg.stopped = some st ∧
            c'.dbg.target = none ∧ c'.halt ≠ 0 ∧ c'.force = true) ∧
    (s.dev.devLock = false → exec (.flitSend port vc f) s = .next s ∧ ∀ tagOk, exec (.flitReceive port f tagOk) s = .next s) ∧
    (good → f.vc = vc → ch.stopped = false → ch.again = [] → f ∉ ch.unacked → 1 ≤ ch.credit → f.seq = ch.sendSeq → f.free ≤ ch.owed →
      ch.unacked.length < 256 → (f.type = 0 → ch.sentData < 4096) → (f.type = 1 → f.payload = auditPayload ch.credit f.seq) →
      ∃ s', exec (.flitSend port vc f) s = .next s' ∧ (s'.chan port vc).credit = ch.credit - 1 ∧
        (s'.chan port vc).sendSeq = (ch.sendSeq + 1) % 2 ^ 64 ∧ (s'.chan port vc).owed = ch.owed - f.free ∧
        (s'.chan port vc).unacked = ch.unacked ++ [f] ∧ (s'.chan port vc).wire = ch.wire ++ [f] ∧ s' = { s with dev := s'.dev }) ∧
    (good → f.vc = vc → ch.stopped = false → ch.again = [] → f ∈ ch.unacked →
      exec (.flitSend port vc f) s = .next (s.setChan port vc { ch with wire := ch.wire ++ [f] })) ∧
    (good → f.vc = vc → ch.stopped = true → ∃ s', exec (.flitSend port vc f) s = .next s' ∧ (s'.chan port vc).stopped = false ∧
      (s'.chan port vc).credit = 64 ∧ (s'.chan port vc).owed = 0 ∧ (s'.chan port vc).again = ch.unacked.map (fun g => { g with free := 0 })) ∧
    (good → f.vc = vc → ch.dups = 0 → f.seq = ch.recvSeq → ∃ s', exec (.flitReceive port f true) s = .next s' ∧
      (s'.chan port vc).recvSeq = (ch.recvSeq + 1) % 2 ^ 64 ∧ (s'.chan port vc).credit = min 64 (ch.credit + f.free) ∧
      (s'.chan port vc).unacked = ch.unacked.drop f.free ∧ (f.type = 1 → (s'.chan port vc).received = ch.received ++ [f]) ∧
      s' = { s with dev := s'.dev }) ∧
    (good → exec (.flitReceive port f false) s = .next s ∧ (f.vc = vc → ch.dups = 0 → f.seq ≠ ch.recvSeq → exec (.flitReceive port f true) s = .next s)) ∧
    (∀ n seq a rest, s.dev.devLock = true → port < 16 → vc < 4 → ch.received = a :: rest → a.payload = auditPayload n seq →
      let used := n + (seq + 1 - ch.recvSeq) + ch.owed + ch.received.length
      ∃ s', exec (.auditFlit port vc n seq) s = .next s' ∧ (∀ k, k ≠ 4 * port + vc → Tab.find? s'.dev.chans k = Tab.find? s.dev.chans k) ∧
        if used ≤ 64 ∧ 64 ≤ used + (ch.unacked.map Flit.free).sum then (s'.chan port vc).received = rest ∧ (s'.chan port vc).stopped = ch.stopped
        else (s'.chan port vc).stopped = true ∧ (s'.chan port vc).credit = ch.credit ∧ (s'.chan port vc).received = [])

/-! ## The whole machine -/

/-- R408: right after bring-up every SRAM line is zero with tags 0 and OWNER 0, no thread hosts a node, no context, grid or domain exists,
admin queues 0 to 63 are live, no key but slot 0's is loaded, and no cluster belongs to a partition. (Registers without a reset value are
zero by log entry 1, the level of a thread by log entry 2.) -/
def Obligations.ResetState : Prop :=
  (∀ p a, State.reset.byteAt p a = 0) ∧
  (∀ p w, Tab.get 0 (State.reset.sram p).tags w = 0 ∧ (State.reset.sram p).ownerOf w = 0) ∧
  (∀ h : Hart, (State.reset.thread h).status = .idle ∧ (State.reset.thread h).pc = 0 ∧ (∀ r, (State.reset.thread h).getX r = 0) ∧
    (State.reset.thread h).level = if kindOf h.core = .compute then .u else .m) ∧
  (∀ c, (State.reset.core c).tlb = [] ∧ (State.reset.core c).inbox = [] ∧ (State.reset.core c).queue = [] ∧
    (State.reset.core c).running = none) ∧
  State.reset.ctxs = [] ∧ State.reset.grids = [] ∧ State.reset.domains = [] ∧ State.reset.net = [] ∧
  (∀ q, (State.reset.liveQueue q).isSome = decide (q < 64)) ∧
  (∀ o, State.reset.hasKey o = decide (o = 0)) ∧
  (∀ n, (State.reset.part n).clusters = [] ∧ (State.reset.part n).owner = 0) ∧ (∀ k, Tab.get 0 State.reset.orbit k = 0) ∧
  State.reset.dev.devid = 0 ∧ State.reset.dev.devLock = false

/-- R352, R409: after bring-up no cluster belongs to two partitions, and none that is withheld belongs to one. -/
def Obligations.ResetPartitionsApart : Prop := State.reset.PartitionsApart

/-- R352, R409: a step keeps it so that no cluster belongs to two partitions, and none that is withheld belongs to one. -/
def Obligations.StepKeepsPartitionsApart : Prop :=
  ∀ s t : State, s.PartitionsApart → step s = .next t → t.PartitionsApart

/-- R27, R138, R151, R318, R382, R396, R397: a step takes the turn that is next. A device step has its own effect; a thread that is ready executes the
well-formed instruction whose bytes stand at its pc in its own core's SRAM, unless a forced halt or an interrupt comes before it
(atBoundary); one that waits for a load may leave it behind, and then executes an instruction that touches none of
the registers that are still to be written, unless an interrupt is due; any other does nothing. In a replay, only the thread that the log names issues.
What stands around the instruction: the class that will be billed, and the stores that it may order. (The order of turns is the model's: log entry
3; which loads may be left behind and passed: 33, 87 and 102; what orders a store for fetch: 106; the logs: 66.) -/
def Obligations.StepRunsDecoded : Prop :=
  ∀ (s x : State) (i : Instr) (p : Nat) (h : Hart) (rest : List Turn) (apart : Bool),
    let tick (y : State) : State := { y with ticks := y.ticks + 1, split := apart }
    let go (y : State) : State := ({ y with trapped := false }).setMe { y.me with status := .run }
    let marker := ((encode i).getD 0 0).getLsbD 1
    let ready (y : State) : State := (if ties y.myCore i then y.tie y.cur else y).bill y.cur i
    let runs (y : State) : State := ready { go y with ahead := marker }
    let here :=
      x.me.bodyBytes = none ∧ i.check = none ∧ levelOk x.cur.core x.me.level i = true ∧
      x.me.pc = BitVec.ofNat 64 p ∧ p + i.length ≤ localEnd x.me.level ∧
      ∀ j, j < i.length → (p + j) / 8 ∉ x.myCore.sram.errs ∧ (p + j) / 64 ∉ x.myCore.sram.ownerErrs ∧
        Tab.find? x.myCore.sram.soft ((p + j) / 8) = none ∧
        (j % 2 = 0 → x.pmpOk x.cur (p + j) 2 .fetch = true) ∧
        (∀ r ∈ x.log, r.place = some (.core x.cur.core) → r.line = (p + j) / 64 → r.sure x.cur x.me.fenceSeq = true) ∧
        x.myCore.sram.readFor (x.ownerOfHart x.cur) (p + j) 1 = ((encode i).getD j 0).toNat
    (apart = false ∧ (s.agenda = [] ∧ x = s ∨ s.agenda = .issue h :: rest ∧ x = { s with agenda := rest, cur := h }) ∨
      apart = true ∧ s.agenda = .issueApart h :: rest ∧ x = { s with agenda := rest, cur := h } →
      (x.logAllows x.cur = false → step s = .next (tick x)) ∧
      (x.logAllows x.cur = true →
        (x.me.status.ready = true → here → step s = logged (tick x) ((go (tick x)).atBoundary (exec i (runs (tick x))))) ∧
        (x.me.status.ready = false → x.mayLeave x.cur = true → step s = .next ((tick x).leaveLoad x.cur)) ∧
        (x.me.status.ready = false → x.mayLeave x.cur = false → x.mayPass x.cur = true →
          (((go (tick x)).boundary x.cur).isSome = true → step s = .next (tick x)) ∧
          ((go (tick x)).boundary x.cur = none → here → step s = logged (tick x)
            (if x.me.passes x.myCore marker i = true then (tick x).passed (exec i (runs (tick x))) else .next (tick x)))) ∧
        (x.me.status.ready = false → x.mayLeave x.cur = false → x.mayPass x.cur = false → step s = .next (tick x)))) ∧
    (apart = false →
      let y : State := { tick s with agenda := rest }
      (s.agenda = .event i :: rest → step s = exec i y) ∧
      (∀ place unit kind, s.agenda = .flip place unit kind :: rest → step s = .next (y.flip place unit kind)) ∧
      (∀ n, s.agenda = .drain n :: rest → step s = .next (y.drainErrors n)) ∧
      (s.agenda = .release :: rest → step s = .next y.releaseKey) ∧
      (∀ v, s.agenda = .walker v :: rest → step s = .next (y.measureLoad 5 v)) ∧
      (∀ v, s.agenda = .plugin v :: rest → step s = .next (y.measureLoad 6 v)) ∧
      (s.agenda = .restore :: rest → step s = .next y.retryRestore))

/-- Tables 10.9, 11.2, 12.4, 13.3, 14.3, 15.2 and 22.2: words that the spec works out, and what they stand for. -/
def Obligations.DecodeWords : Prop :=
  decodeTableWord 32 0x84D34103 = some (.sub true 13 (.reg 13) (.const 1)) ∧
  decodeTableWord 64 0x000186A0F8514003 = some (.add true 5 (.reg 5) (.lit32 100000)) ∧
  decodeTableWord 96 0x0000000100000000FC020A03 = some (.li true 8 (.lit64 0x100000000)) ∧
  decodeTableWord 32 0x03542B17 = some (.bge true (.reg 5) (.const 10) 6) ∧
  decodeTableWord 32 0x010C2C23 = some (.lw true 5 (.reg 6) 2) ∧
  decodeTableWord 32 0xFF8BB827 = some (.sb true (.const 23) (.reg 5) 0x1FF) ∧
  decodeTableWord 32 0x1871662B = some (.amocas true 5 (.reg 7) (.reg 6) .dev) ∧
  decodeTableWord 32 0x10304F41 = some (.vfcmpLt false 1 (.reg 3) (.reg 4) .bf16) ∧
  decodeTableWord 64 0x00000020F8B02063 = some (.mxStream true 0 (.reg 11) (.lit32 32)) ∧
  decodeTableWord 32 0x2CA2436F = some (.cmLookup true 9 (.reg 10) (.reg 11)) ∧
  decodeTableWord 32 0x8400073B = some (.dset true 0 (.const 1)) ∧
  decodeTableWord 32 0x1C61457F = some (.tlbWr true 5 (.reg 6) (.reg 7))

/-- R138 to R152: the bytes of every well-formed instruction decode to it, whatever follows them. -/
def Obligations.DecodeEncode : Prop :=
  ∀ (i : Instr) (rest : List Byte), i.check = none → decodeBytes (encode i ++ rest) = .ok (i, rest)

/-- R138 to R152: bytes that decode are those of the well-formed instruction that they decode to, with what follows them: no two
encodings stand for one instruction, and no reserved field is overlooked. -/
def Obligations.EncodeDecode : Prop :=
  ∀ (bs rest : List Byte) (i : Instr), decodeBytes bs = .ok (i, rest) → i.check = none ∧ bs = encode i ++ rest

end
end

