-- ==== Sys2Proof/Laws/State.lean ====
section
/-! SUPPORT. One lemma per field per update: what an update of the machine or of a thread leaves as it was. -/

namespace Sys2Proof.Machine

/-! ## Updates of the machine -/

@[simp] theorem State.setCore_cur (s : State) (n : Nat) (c : Core) : (s.setCore n c).cur = s.cur := rfl
@[simp] theorem State.setCore_trapped (s : State) (n : Nat) (c : Core) : (s.setCore n c).trapped = s.trapped := rfl
@[simp] theorem State.setCore_ahead (s : State) (n : Nat) (c : Core) : (s.setCore n c).ahead = s.ahead := rfl
@[simp] theorem State.setCore_split (s : State) (n : Nat) (c : Core) : (s.setCore n c).split = s.split := rfl
@[simp] theorem State.setCore_agenda (s : State) (n : Nat) (c : Core) : (s.setCore n c).agenda = s.agenda := rfl
@[simp] theorem State.setCore_ticks (s : State) (n : Nat) (c : Core) : (s.setCore n c).ticks = s.ticks := rfl
@[simp] theorem State.setCore_free (s : State) (n : Nat) (c : Core) : (s.setCore n c).free = s.free := rfl
@[simp] theorem State.setCore_nextId (s : State) (n : Nat) (c : Core) : (s.setCore n c).nextId = s.nextId := rfl
@[simp] theorem State.setCore_clusters (s : State) (n : Nat) (c : Core) : (s.setCore n c).clusters = s.clusters := rfl
@[simp] theorem State.setCore_net (s : State) (n : Nat) (c : Core) : (s.setCore n c).net = s.net := rfl
@[simp] theorem State.setCore_log (s : State) (n : Nat) (c : Core) : (s.setCore n c).log = s.log := rfl
@[simp] theorem State.setCore_logSeq (s : State) (n : Nat) (c : Core) : (s.setCore n c).logSeq = s.logSeq := rfl
@[simp] theorem State.setCore_dram (s : State) (n : Nat) (c : Core) : (s.setCore n c).dram = s.dram := rfl
@[simp] theorem State.setCore_domains (s : State) (n : Nat) (c : Core) : (s.setCore n c).domains = s.domains := rfl
@[simp] theorem State.setCore_grids (s : State) (n : Nat) (c : Core) : (s.setCore n c).grids = s.grids := rfl
@[simp] theorem State.setCore_ctxs (s : State) (n : Nat) (c : Core) : (s.setCore n c).ctxs = s.ctxs := rfl
@[simp] theorem State.setCore_queues (s : State) (n : Nat) (c : Core) : (s.setCore n c).queues = s.queues := rfl
@[simp] theorem State.setCore_qcache (s : State) (n : Nat) (c : Core) : (s.setCore n c).qcache = s.qcache := rfl
@[simp] theorem State.setCore_parts (s : State) (n : Nat) (c : Core) : (s.setCore n c).parts = s.parts := rfl
@[simp] theorem State.setCore_orbit (s : State) (n : Nat) (c : Core) : (s.setCore n c).orbit = s.orbit := rfl
@[simp] theorem State.setCore_orbitNext (s : State) (n : Nat) (c : Core) : (s.setCore n c).orbitNext = s.orbitNext := rfl
@[simp] theorem State.setCore_served (s : State) (n : Nat) (c : Core) : (s.setCore n c).served = s.served := rfl
@[simp] theorem State.setCore_walk (s : State) (n : Nat) (c : Core) : (s.setCore n c).walk = s.walk := rfl
@[simp] theorem State.setCore_dev (s : State) (n : Nat) (c : Core) : (s.setCore n c).dev = s.dev := rfl
@[simp] theorem State.setCluster_cur (s : State) (n : Nat) (c : Cluster) : (s.setCluster n c).cur = s.cur := rfl
@[simp] theorem State.setCluster_trapped (s : State) (n : Nat) (c : Cluster) : (s.setCluster n c).trapped = s.trapped := rfl
@[simp] theorem State.setCluster_ahead (s : State) (n : Nat) (c : Cluster) : (s.setCluster n c).ahead = s.ahead := rfl
@[simp] theorem State.setCluster_split (s : State) (n : Nat) (c : Cluster) : (s.setCluster n c).split = s.split := rfl
@[simp] theorem State.setCluster_agenda (s : State) (n : Nat) (c : Cluster) : (s.setCluster n c).agenda = s.agenda := rfl
@[simp] theorem State.setCluster_ticks (s : State) (n : Nat) (c : Cluster) : (s.setCluster n c).ticks = s.ticks := rfl
@[simp] theorem State.setCluster_free (s : State) (n : Nat) (c : Cluster) : (s.setCluster n c).free = s.free := rfl
@[simp] theorem State.setCluster_nextId (s : State) (n : Nat) (c : Cluster) : (s.setCluster n c).nextId = s.nextId := rfl
@[simp] theorem State.setCluster_cores (s : State) (n : Nat) (c : Cluster) : (s.setCluster n c).cores = s.cores := rfl
@[simp] theorem State.setCluster_net (s : State) (n : Nat) (c : Cluster) : (s.setCluster n c).net = s.net := rfl
@[simp] theorem State.setCluster_log (s : State) (n : Nat) (c : Cluster) : (s.setCluster n c).log = s.log := rfl
@[simp] theorem State.setCluster_logSeq (s : State) (n : Nat) (c : Cluster) : (s.setCluster n c).logSeq = s.logSeq := rfl
@[simp] theorem State.setCluster_dram (s : State) (n : Nat) (c : Cluster) : (s.setCluster n c).dram = s.dram := rfl
@[simp] theorem State.setCluster_domains (s : State) (n : Nat) (c : Cluster) : (s.setCluster n c).domains = s.domains := rfl
@[simp] theorem State.setCluster_grids (s : State) (n : Nat) (c : Cluster) : (s.setCluster n c).grids = s.grids := rfl
@[simp] theorem State.setCluster_ctxs (s : State) (n : Nat) (c : Cluster) : (s.setCluster n c).ctxs = s.ctxs := rfl
@[simp] theorem State.setCluster_queues (s : State) (n : Nat) (c : Cluster) : (s.setCluster n c).queues = s.queues := rfl
@[simp] theorem State.setCluster_qcache (s : State) (n : Nat) (c : Cluster) : (s.setCluster n c).qcache = s.qcache := rfl
@[simp] theorem State.setCluster_parts (s : State) (n : Nat) (c : Cluster) : (s.setCluster n c).parts = s.parts := rfl
@[simp] theorem State.setCluster_orbit (s : State) (n : Nat) (c : Cluster) : (s.setCluster n c).orbit = s.orbit := rfl
@[simp] theorem State.setCluster_orbitNext (s : State) (n : Nat) (c : Cluster) : (s.setCluster n c).orbitNext = s.orbitNext := rfl
@[simp] theorem State.setCluster_served (s : State) (n : Nat) (c : Cluster) : (s.setCluster n c).served = s.served := rfl
@[simp] theorem State.setCluster_walk (s : State) (n : Nat) (c : Cluster) : (s.setCluster n c).walk = s.walk := rfl
@[simp] theorem State.setCluster_dev (s : State) (n : Nat) (c : Cluster) : (s.setCluster n c).dev = s.dev := rfl
@[simp] theorem State.setThread_cur (s : State) (h : Hart) (t : Thread) : (s.setThread h t).cur = s.cur := rfl
@[simp] theorem State.setThread_trapped (s : State) (h : Hart) (t : Thread) : (s.setThread h t).trapped = s.trapped := rfl
@[simp] theorem State.setThread_ahead (s : State) (h : Hart) (t : Thread) : (s.setThread h t).ahead = s.ahead := rfl
@[simp] theorem State.setThread_split (s : State) (h : Hart) (t : Thread) : (s.setThread h t).split = s.split := rfl
@[simp] theorem State.setThread_agenda (s : State) (h : Hart) (t : Thread) : (s.setThread h t).agenda = s.agenda := rfl
@[simp] theorem State.setThread_ticks (s : State) (h : Hart) (t : Thread) : (s.setThread h t).ticks = s.ticks := rfl
@[simp] theorem State.setThread_free (s : State) (h : Hart) (t : Thread) : (s.setThread h t).free = s.free := rfl
@[simp] theorem State.setThread_nextId (s : State) (h : Hart) (t : Thread) : (s.setThread h t).nextId = s.nextId := rfl
@[simp] theorem State.setThread_clusters (s : State) (h : Hart) (t : Thread) : (s.setThread h t).clusters = s.clusters := rfl
@[simp] theorem State.setThread_net (s : State) (h : Hart) (t : Thread) : (s.setThread h t).net = s.net := rfl
@[simp] theorem State.setThread_log (s : State) (h : Hart) (t : Thread) : (s.setThread h t).log = s.log := rfl
@[simp] theorem State.setThread_logSeq (s : State) (h : Hart) (t : Thread) : (s.setThread h t).logSeq = s.logSeq := rfl
@[simp] theorem State.setThread_dram (s : State) (h : Hart) (t : Thread) : (s.setThread h t).dram = s.dram := rfl
@[simp] theorem State.setThread_domains (s : State) (h : Hart) (t : Thread) : (s.setThread h t).domains = s.domains := rfl
@[simp] theorem State.setThread_grids (s : State) (h : Hart) (t : Thread) : (s.setThread h t).grids = s.grids := rfl
@[simp] theorem State.setThread_ctxs (s : State) (h : Hart) (t : Thread) : (s.setThread h t).ctxs = s.ctxs := rfl
@[simp] theorem State.setThread_queues (s : State) (h : Hart) (t : Thread) : (s.setThread h t).queues = s.queues := rfl
@[simp] theorem State.setThread_qcache (s : State) (h : Hart) (t : Thread) : (s.setThread h t).qcache = s.qcache := rfl
@[simp] theorem State.setThread_parts (s : State) (h : Hart) (t : Thread) : (s.setThread h t).parts = s.parts := rfl
@[simp] theorem State.setThread_orbit (s : State) (h : Hart) (t : Thread) : (s.setThread h t).orbit = s.orbit := rfl
@[simp] theorem State.setThread_orbitNext (s : State) (h : Hart) (t : Thread) : (s.setThread h t).orbitNext = s.orbitNext := rfl
@[simp] theorem State.setThread_served (s : State) (h : Hart) (t : Thread) : (s.setThread h t).served = s.served := rfl
@[simp] theorem State.setThread_walk (s : State) (h : Hart) (t : Thread) : (s.setThread h t).walk = s.walk := rfl
@[simp] theorem State.setThread_dev (s : State) (h : Hart) (t : Thread) : (s.setThread h t).dev = s.dev := rfl
@[simp] theorem State.setMe_cur (s : State) (t : Thread) : (s.setMe t).cur = s.cur := rfl
@[simp] theorem State.setMe_trapped (s : State) (t : Thread) : (s.setMe t).trapped = s.trapped := rfl
@[simp] theorem State.setMe_ahead (s : State) (t : Thread) : (s.setMe t).ahead = s.ahead := rfl
@[simp] theorem State.setMe_split (s : State) (t : Thread) : (s.setMe t).split = s.split := rfl
@[simp] theorem State.setMe_agenda (s : State) (t : Thread) : (s.setMe t).agenda = s.agenda := rfl
@[simp] theorem State.setMe_ticks (s : State) (t : Thread) : (s.setMe t).ticks = s.ticks := rfl
@[simp] theorem State.setMe_free (s : State) (t : Thread) : (s.setMe t).free = s.free := rfl
@[simp] theorem State.setMe_nextId (s : State) (t : Thread) : (s.setMe t).nextId = s.nextId := rfl
@[simp] theorem State.setMe_clusters (s : State) (t : Thread) : (s.setMe t).clusters = s.clusters := rfl
@[simp] theorem State.setMe_net (s : State) (t : Thread) : (s.setMe t).net = s.net := rfl
@[simp] theorem State.setMe_log (s : State) (t : Thread) : (s.setMe t).log = s.log := rfl
@[simp] theorem State.setMe_logSeq (s : State) (t : Thread) : (s.setMe t).logSeq = s.logSeq := rfl
@[simp] theorem State.setMe_dram (s : State) (t : Thread) : (s.setMe t).dram = s.dram := rfl
@[simp] theorem State.setMe_domains (s : State) (t : Thread) : (s.setMe t).domains = s.domains := rfl
@[simp] theorem State.setMe_grids (s : State) (t : Thread) : (s.setMe t).grids = s.grids := rfl
@[simp] theorem State.setMe_ctxs (s : State) (t : Thread) : (s.setMe t).ctxs = s.ctxs := rfl
@[simp] theorem State.setMe_queues (s : State) (t : Thread) : (s.setMe t).queues = s.queues := rfl
@[simp] theorem State.setMe_qcache (s : State) (t : Thread) : (s.setMe t).qcache = s.qcache := rfl
@[simp] theorem State.setMe_parts (s : State) (t : Thread) : (s.setMe t).parts = s.parts := rfl
@[simp] theorem State.setMe_orbit (s : State) (t : Thread) : (s.setMe t).orbit = s.orbit := rfl
@[simp] theorem State.setMe_orbitNext (s : State) (t : Thread) : (s.setMe t).orbitNext = s.orbitNext := rfl
@[simp] theorem State.setMe_served (s : State) (t : Thread) : (s.setMe t).served = s.served := rfl
@[simp] theorem State.setMe_walk (s : State) (t : Thread) : (s.setMe t).walk = s.walk := rfl
@[simp] theorem State.setMe_dev (s : State) (t : Thread) : (s.setMe t).dev = s.dev := rfl
@[simp] theorem State.send_cur (s : State) (m : Msg) : (s.send m).cur = s.cur := rfl
@[simp] theorem State.send_trapped (s : State) (m : Msg) : (s.send m).trapped = s.trapped := rfl
@[simp] theorem State.send_ahead (s : State) (m : Msg) : (s.send m).ahead = s.ahead := rfl
@[simp] theorem State.send_split (s : State) (m : Msg) : (s.send m).split = s.split := rfl
@[simp] theorem State.send_agenda (s : State) (m : Msg) : (s.send m).agenda = s.agenda := rfl
@[simp] theorem State.send_ticks (s : State) (m : Msg) : (s.send m).ticks = s.ticks := rfl
@[simp] theorem State.send_free (s : State) (m : Msg) : (s.send m).free = s.free := rfl
@[simp] theorem State.send_nextId (s : State) (m : Msg) : (s.send m).nextId = s.nextId := rfl
@[simp] theorem State.send_cores (s : State) (m : Msg) : (s.send m).cores = s.cores := rfl
@[simp] theorem State.send_clusters (s : State) (m : Msg) : (s.send m).clusters = s.clusters := rfl
@[simp] theorem State.send_log (s : State) (m : Msg) : (s.send m).log = s.log := rfl
@[simp] theorem State.send_logSeq (s : State) (m : Msg) : (s.send m).logSeq = s.logSeq := rfl
@[simp] theorem State.send_dram (s : State) (m : Msg) : (s.send m).dram = s.dram := rfl
@[simp] theorem State.send_domains (s : State) (m : Msg) : (s.send m).domains = s.domains := rfl
@[simp] theorem State.send_grids (s : State) (m : Msg) : (s.send m).grids = s.grids := rfl
@[simp] theorem State.send_ctxs (s : State) (m : Msg) : (s.send m).ctxs = s.ctxs := rfl
@[simp] theorem State.send_queues (s : State) (m : Msg) : (s.send m).queues = s.queues := rfl
@[simp] theorem State.send_qcache (s : State) (m : Msg) : (s.send m).qcache = s.qcache := rfl
@[simp] theorem State.send_parts (s : State) (m : Msg) : (s.send m).parts = s.parts := rfl
@[simp] theorem State.send_orbit (s : State) (m : Msg) : (s.send m).orbit = s.orbit := rfl
@[simp] theorem State.send_orbitNext (s : State) (m : Msg) : (s.send m).orbitNext = s.orbitNext := rfl
@[simp] theorem State.send_served (s : State) (m : Msg) : (s.send m).served = s.served := rfl
@[simp] theorem State.send_walk (s : State) (m : Msg) : (s.send m).walk = s.walk := rfl
@[simp] theorem State.send_dev (s : State) (m : Msg) : (s.send m).dev = s.dev := rfl
@[simp] theorem State.setCtx_cur (s : State) (n : Nat) (c : Ctx) : (s.setCtx n c).cur = s.cur := rfl
@[simp] theorem State.setCtx_trapped (s : State) (n : Nat) (c : Ctx) : (s.setCtx n c).trapped = s.trapped := rfl
@[simp] theorem State.setCtx_ahead (s : State) (n : Nat) (c : Ctx) : (s.setCtx n c).ahead = s.ahead := rfl
@[simp] theorem State.setCtx_split (s : State) (n : Nat) (c : Ctx) : (s.setCtx n c).split = s.split := rfl
@[simp] theorem State.setCtx_agenda (s : State) (n : Nat) (c : Ctx) : (s.setCtx n c).agenda = s.agenda := rfl
@[simp] theorem State.setCtx_ticks (s : State) (n : Nat) (c : Ctx) : (s.setCtx n c).ticks = s.ticks := rfl
@[simp] theorem State.setCtx_free (s : State) (n : Nat) (c : Ctx) : (s.setCtx n c).free = s.free := rfl
@[simp] theorem State.setCtx_nextId (s : State) (n : Nat) (c : Ctx) : (s.setCtx n c).nextId = s.nextId := rfl
@[simp] theorem State.setCtx_cores (s : State) (n : Nat) (c : Ctx) : (s.setCtx n c).cores = s.cores := rfl
@[simp] theorem State.setCtx_clusters (s : State) (n : Nat) (c : Ctx) : (s.setCtx n c).clusters = s.clusters := rfl
@[simp] theorem State.setCtx_net (s : State) (n : Nat) (c : Ctx) : (s.setCtx n c).net = s.net := rfl
@[simp] theorem State.setCtx_log (s : State) (n : Nat) (c : Ctx) : (s.setCtx n c).log = s.log := rfl
@[simp] theorem State.setCtx_logSeq (s : State) (n : Nat) (c : Ctx) : (s.setCtx n c).logSeq = s.logSeq := rfl
@[simp] theorem State.setCtx_dram (s : State) (n : Nat) (c : Ctx) : (s.setCtx n c).dram = s.dram := rfl
@[simp] theorem State.setCtx_domains (s : State) (n : Nat) (c : Ctx) : (s.setCtx n c).domains = s.domains := rfl
@[simp] theorem State.setCtx_grids (s : State) (n : Nat) (c : Ctx) : (s.setCtx n c).grids = s.grids := rfl
@[simp] theorem State.setCtx_queues (s : State) (n : Nat) (c : Ctx) : (s.setCtx n c).queues = s.queues := rfl
@[simp] theorem State.setCtx_qcache (s : State) (n : Nat) (c : Ctx) : (s.setCtx n c).qcache = s.qcache := rfl
@[simp] theorem State.setCtx_parts (s : State) (n : Nat) (c : Ctx) : (s.setCtx n c).parts = s.parts := rfl
@[simp] theorem State.setCtx_orbit (s : State) (n : Nat) (c : Ctx) : (s.setCtx n c).orbit = s.orbit := rfl
@[simp] theorem State.setCtx_orbitNext (s : State) (n : Nat) (c : Ctx) : (s.setCtx n c).orbitNext = s.orbitNext := rfl
@[simp] theorem State.setCtx_served (s : State) (n : Nat) (c : Ctx) : (s.setCtx n c).served = s.served := rfl
@[simp] theorem State.setCtx_walk (s : State) (n : Nat) (c : Ctx) : (s.setCtx n c).walk = s.walk := rfl
@[simp] theorem State.setCtx_dev (s : State) (n : Nat) (c : Ctx) : (s.setCtx n c).dev = s.dev := rfl
@[simp] theorem State.setGrid_cur (s : State) (n : Nat) (g : Grid) : (s.setGrid n g).cur = s.cur := rfl
@[simp] theorem State.setGrid_trapped (s : State) (n : Nat) (g : Grid) : (s.setGrid n g).trapped = s.trapped := rfl
@[simp] theorem State.setGrid_ahead (s : State) (n : Nat) (g : Grid) : (s.setGrid n g).ahead = s.ahead := rfl
@[simp] theorem State.setGrid_split (s : State) (n : Nat) (g : Grid) : (s.setGrid n g).split = s.split := rfl
@[simp] theorem State.setGrid_agenda (s : State) (n : Nat) (g : Grid) : (s.setGrid n g).agenda = s.agenda := rfl
@[simp] theorem State.setGrid_ticks (s : State) (n : Nat) (g : Grid) : (s.setGrid n g).ticks = s.ticks := rfl
@[simp] theorem State.setGrid_free (s : State) (n : Nat) (g : Grid) : (s.setGrid n g).free = s.free := rfl
@[simp] theorem State.setGrid_nextId (s : State) (n : Nat) (g : Grid) : (s.setGrid n g).nextId = s.nextId := rfl
@[simp] theorem State.setGrid_cores (s : State) (n : Nat) (g : Grid) : (s.setGrid n g).cores = s.cores := rfl
@[simp] theorem State.setGrid_clusters (s : State) (n : Nat) (g : Grid) : (s.setGrid n g).clusters = s.clusters := rfl
@[simp] theorem State.setGrid_net (s : State) (n : Nat) (g : Grid) : (s.setGrid n g).net = s.net := rfl
@[simp] theorem State.setGrid_log (s : State) (n : Nat) (g : Grid) : (s.setGrid n g).log = s.log := rfl
@[simp] theorem State.setGrid_logSeq (s : State) (n : Nat) (g : Grid) : (s.setGrid n g).logSeq = s.logSeq := rfl
@[simp] theorem State.setGrid_dram (s : State) (n : Nat) (g : Grid) : (s.setGrid n g).dram = s.dram := rfl
@[simp] theorem State.setGrid_domains (s : State) (n : Nat) (g : Grid) : (s.setGrid n g).domains = s.domains := rfl
@[simp] theorem State.setGrid_ctxs (s : State) (n : Nat) (g : Grid) : (s.setGrid n g).ctxs = s.ctxs := rfl
@[simp] theorem State.setGrid_queues (s : State) (n : Nat) (g : Grid) : (s.setGrid n g).queues = s.queues := rfl
@[simp] theorem State.setGrid_qcache (s : State) (n : Nat) (g : Grid) : (s.setGrid n g).qcache = s.qcache := rfl
@[simp] theorem State.setGrid_parts (s : State) (n : Nat) (g : Grid) : (s.setGrid n g).parts = s.parts := rfl
@[simp] theorem State.setGrid_orbit (s : State) (n : Nat) (g : Grid) : (s.setGrid n g).orbit = s.orbit := rfl
@[simp] theorem State.setGrid_orbitNext (s : State) (n : Nat) (g : Grid) : (s.setGrid n g).orbitNext = s.orbitNext := rfl
@[simp] theorem State.setGrid_served (s : State) (n : Nat) (g : Grid) : (s.setGrid n g).served = s.served := rfl
@[simp] theorem State.setGrid_walk (s : State) (n : Nat) (g : Grid) : (s.setGrid n g).walk = s.walk := rfl
@[simp] theorem State.setGrid_dev (s : State) (n : Nat) (g : Grid) : (s.setGrid n g).dev = s.dev := rfl
@[simp] theorem State.setDomain_cur (s : State) (n : Nat) (d : Domain) : (s.setDomain n d).cur = s.cur := rfl
@[simp] theorem State.setDomain_trapped (s : State) (n : Nat) (d : Domain) : (s.setDomain n d).trapped = s.trapped := rfl
@[simp] theorem State.setDomain_ahead (s : State) (n : Nat) (d : Domain) : (s.setDomain n d).ahead = s.ahead := rfl
@[simp] theorem State.setDomain_split (s : State) (n : Nat) (d : Domain) : (s.setDomain n d).split = s.split := rfl
@[simp] theorem State.setDomain_agenda (s : State) (n : Nat) (d : Domain) : (s.setDomain n d).agenda = s.agenda := rfl
@[simp] theorem State.setDomain_ticks (s : State) (n : Nat) (d : Domain) : (s.setDomain n d).ticks = s.ticks := rfl
@[simp] theorem State.setDomain_free (s : State) (n : Nat) (d : Domain) : (s.setDomain n d).free = s.free := rfl
@[simp] theorem State.setDomain_nextId (s : State) (n : Nat) (d : Domain) : (s.setDomain n d).nextId = s.nextId := rfl
@[simp] theorem State.setDomain_cores (s : State) (n : Nat) (d : Domain) : (s.setDomain n d).cores = s.cores := rfl
@[simp] theorem State.setDomain_clusters (s : State) (n : Nat) (d : Domain) : (s.setDomain n d).clusters = s.clusters := rfl
@[simp] theorem State.setDomain_net (s : State) (n : Nat) (d : Domain) : (s.setDomain n d).net = s.net := rfl
@[simp] theorem State.setDomain_log (s : State) (n : Nat) (d : Domain) : (s.setDomain n d).log = s.log := rfl
@[simp] theorem State.setDomain_logSeq (s : State) (n : Nat) (d : Domain) : (s.setDomain n d).logSeq = s.logSeq := rfl
@[simp] theorem State.setDomain_dram (s : State) (n : Nat) (d : Domain) : (s.setDomain n d).dram = s.dram := rfl
@[simp] theorem State.setDomain_grids (s : State) (n : Nat) (d : Domain) : (s.setDomain n d).grids = s.grids := rfl
@[simp] theorem State.setDomain_ctxs (s : State) (n : Nat) (d : Domain) : (s.setDomain n d).ctxs = s.ctxs := rfl
@[simp] theorem State.setDomain_queues (s : State) (n : Nat) (d : Domain) : (s.setDomain n d).queues = s.queues := rfl
@[simp] theorem State.setDomain_qcache (s : State) (n : Nat) (d : Domain) : (s.setDomain n d).qcache = s.qcache := rfl
@[simp] theorem State.setDomain_parts (s : State) (n : Nat) (d : Domain) : (s.setDomain n d).parts = s.parts := rfl
@[simp] theorem State.setDomain_orbit (s : State) (n : Nat) (d : Domain) : (s.setDomain n d).orbit = s.orbit := rfl
@[simp] theorem State.setDomain_orbitNext (s : State) (n : Nat) (d : Domain) : (s.setDomain n d).orbitNext = s.orbitNext := rfl
@[simp] theorem State.setDomain_served (s : State) (n : Nat) (d : Domain) : (s.setDomain n d).served = s.served := rfl
@[simp] theorem State.setDomain_walk (s : State) (n : Nat) (d : Domain) : (s.setDomain n d).walk = s.walk := rfl
@[simp] theorem State.setDomain_dev (s : State) (n : Nat) (d : Domain) : (s.setDomain n d).dev = s.dev := rfl
@[simp] theorem State.setPart_cur (s : State) (n : Nat) (p : Part) : (s.setPart n p).cur = s.cur := rfl
@[simp] theorem State.setPart_trapped (s : State) (n : Nat) (p : Part) : (s.setPart n p).trapped = s.trapped := rfl
@[simp] theorem State.setPart_ahead (s : State) (n : Nat) (p : Part) : (s.setPart n p).ahead = s.ahead := rfl
@[simp] theorem State.setPart_split (s : State) (n : Nat) (p : Part) : (s.setPart n p).split = s.split := rfl
@[simp] theorem State.setPart_agenda (s : State) (n : Nat) (p : Part) : (s.setPart n p).agenda = s.agenda := rfl
@[simp] theorem State.setPart_ticks (s : State) (n : Nat) (p : Part) : (s.setPart n p).ticks = s.ticks := rfl
@[simp] theorem State.setPart_free (s : State) (n : Nat) (p : Part) : (s.setPart n p).free = s.free := rfl
@[simp] theorem State.setPart_nextId (s : State) (n : Nat) (p : Part) : (s.setPart n p).nextId = s.nextId := rfl
@[simp] theorem State.setPart_cores (s : State) (n : Nat) (p : Part) : (s.setPart n p).cores = s.cores := rfl
@[simp] theorem State.setPart_clusters (s : State) (n : Nat) (p : Part) : (s.setPart n p).clusters = s.clusters := rfl
@[simp] theorem State.setPart_net (s : State) (n : Nat) (p : Part) : (s.setPart n p).net = s.net := rfl
@[simp] theorem State.setPart_log (s : State) (n : Nat) (p : Part) : (s.setPart n p).log = s.log := rfl
@[simp] theorem State.setPart_logSeq (s : State) (n : Nat) (p : Part) : (s.setPart n p).logSeq = s.logSeq := rfl
@[simp] theorem State.setPart_dram (s : State) (n : Nat) (p : Part) : (s.setPart n p).dram = s.dram := rfl
@[simp] theorem State.setPart_domains (s : State) (n : Nat) (p : Part) : (s.setPart n p).domains = s.domains := rfl
@[simp] theorem State.setPart_grids (s : State) (n : Nat) (p : Part) : (s.setPart n p).grids = s.grids := rfl
@[simp] theorem State.setPart_ctxs (s : State) (n : Nat) (p : Part) : (s.setPart n p).ctxs = s.ctxs := rfl
@[simp] theorem State.setPart_queues (s : State) (n : Nat) (p : Part) : (s.setPart n p).queues = s.queues := rfl
@[simp] theorem State.setPart_qcache (s : State) (n : Nat) (p : Part) : (s.setPart n p).qcache = s.qcache := rfl
@[simp] theorem State.setPart_orbit (s : State) (n : Nat) (p : Part) : (s.setPart n p).orbit = s.orbit := rfl
@[simp] theorem State.setPart_orbitNext (s : State) (n : Nat) (p : Part) : (s.setPart n p).orbitNext = s.orbitNext := rfl
@[simp] theorem State.setPart_served (s : State) (n : Nat) (p : Part) : (s.setPart n p).served = s.served := rfl
@[simp] theorem State.setPart_walk (s : State) (n : Nat) (p : Part) : (s.setPart n p).walk = s.walk := rfl
@[simp] theorem State.setPart_dev (s : State) (n : Nat) (p : Part) : (s.setPart n p).dev = s.dev := rfl
@[simp] theorem State.setConn_cur (s : State) (n : Nat) (c : Conn) : (s.setConn n c).cur = s.cur := rfl
@[simp] theorem State.setConn_trapped (s : State) (n : Nat) (c : Conn) : (s.setConn n c).trapped = s.trapped := rfl
@[simp] theorem State.setConn_ahead (s : State) (n : Nat) (c : Conn) : (s.setConn n c).ahead = s.ahead := rfl
@[simp] theorem State.setConn_split (s : State) (n : Nat) (c : Conn) : (s.setConn n c).split = s.split := rfl
@[simp] theorem State.setConn_agenda (s : State) (n : Nat) (c : Conn) : (s.setConn n c).agenda = s.agenda := rfl
@[simp] theorem State.setConn_ticks (s : State) (n : Nat) (c : Conn) : (s.setConn n c).ticks = s.ticks := rfl
@[simp] theorem State.setConn_free (s : State) (n : Nat) (c : Conn) : (s.setConn n c).free = s.free := rfl
@[simp] theorem State.setConn_nextId (s : State) (n : Nat) (c : Conn) : (s.setConn n c).nextId = s.nextId := rfl
@[simp] theorem State.setConn_cores (s : State) (n : Nat) (c : Conn) : (s.setConn n c).cores = s.cores := rfl
@[simp] theorem State.setConn_clusters (s : State) (n : Nat) (c : Conn) : (s.setConn n c).clusters = s.clusters := rfl
@[simp] theorem State.setConn_net (s : State) (n : Nat) (c : Conn) : (s.setConn n c).net = s.net := rfl
@[simp] theorem State.setConn_log (s : State) (n : Nat) (c : Conn) : (s.setConn n c).log = s.log := rfl
@[simp] theorem State.setConn_logSeq (s : State) (n : Nat) (c : Conn) : (s.setConn n c).logSeq = s.logSeq := rfl
@[simp] theorem State.setConn_dram (s : State) (n : Nat) (c : Conn) : (s.setConn n c).dram = s.dram := rfl
@[simp] theorem State.setConn_domains (s : State) (n : Nat) (c : Conn) : (s.setConn n c).domains = s.domains := rfl
@[simp] theorem State.setConn_grids (s : State) (n : Nat) (c : Conn) : (s.setConn n c).grids = s.grids := rfl
@[simp] theorem State.setConn_ctxs (s : State) (n : Nat) (c : Conn) : (s.setConn n c).ctxs = s.ctxs := rfl
@[simp] theorem State.setConn_queues (s : State) (n : Nat) (c : Conn) : (s.setConn n c).queues = s.queues := rfl
@[simp] theorem State.setConn_qcache (s : State) (n : Nat) (c : Conn) : (s.setConn n c).qcache = s.qcache := rfl
@[simp] theorem State.setConn_parts (s : State) (n : Nat) (c : Conn) : (s.setConn n c).parts = s.parts := rfl
@[simp] theorem State.setConn_orbit (s : State) (n : Nat) (c : Conn) : (s.setConn n c).orbit = s.orbit := rfl
@[simp] theorem State.setConn_orbitNext (s : State) (n : Nat) (c : Conn) : (s.setConn n c).orbitNext = s.orbitNext := rfl
@[simp] theorem State.setConn_served (s : State) (n : Nat) (c : Conn) : (s.setConn n c).served = s.served := rfl
@[simp] theorem State.setConn_walk (s : State) (n : Nat) (c : Conn) : (s.setConn n c).walk = s.walk := rfl
@[simp] theorem State.setChan_cur (s : State) (p v : Nat) (c : Chan) : (s.setChan p v c).cur = s.cur := rfl
@[simp] theorem State.setChan_trapped (s : State) (p v : Nat) (c : Chan) : (s.setChan p v c).trapped = s.trapped := rfl
@[simp] theorem State.setChan_ahead (s : State) (p v : Nat) (c : Chan) : (s.setChan p v c).ahead = s.ahead := rfl
@[simp] theorem State.setChan_split (s : State) (p v : Nat) (c : Chan) : (s.setChan p v c).split = s.split := rfl
@[simp] theorem State.setChan_agenda (s : State) (p v : Nat) (c : Chan) : (s.setChan p v c).agenda = s.agenda := rfl
@[simp] theorem State.setChan_ticks (s : State) (p v : Nat) (c : Chan) : (s.setChan p v c).ticks = s.ticks := rfl
@[simp] theorem State.setChan_free (s : State) (p v : Nat) (c : Chan) : (s.setChan p v c).free = s.free := rfl
@[simp] theorem State.setChan_nextId (s : State) (p v : Nat) (c : Chan) : (s.setChan p v c).nextId = s.nextId := rfl
@[simp] theorem State.setChan_cores (s : State) (p v : Nat) (c : Chan) : (s.setChan p v c).cores = s.cores := rfl
@[simp] theorem State.setChan_clusters (s : State) (p v : Nat) (c : Chan) : (s.setChan p v c).clusters = s.clusters := rfl
@[simp] theorem State.setChan_net (s : State) (p v : Nat) (c : Chan) : (s.setChan p v c).net = s.net := rfl
@[simp] theorem State.setChan_log (s : State) (p v : Nat) (c : Chan) : (s.setChan p v c).log = s.log := rfl
@[simp] theorem State.setChan_logSeq (s : State) (p v : Nat) (c : Chan) : (s.setChan p v c).logSeq = s.logSeq := rfl
@[simp] theorem State.setChan_dram (s : State) (p v : Nat) (c : Chan) : (s.setChan p v c).dram = s.dram := rfl
@[simp] theorem State.setChan_domains (s : State) (p v : Nat) (c : Chan) : (s.setChan p v c).domains = s.domains := rfl
@[simp] theorem State.setChan_grids (s : State) (p v : Nat) (c : Chan) : (s.setChan p v c).grids = s.grids := rfl
@[simp] theorem State.setChan_ctxs (s : State) (p v : Nat) (c : Chan) : (s.setChan p v c).ctxs = s.ctxs := rfl
@[simp] theorem State.setChan_queues (s : State) (p v : Nat) (c : Chan) : (s.setChan p v c).queues = s.queues := rfl
@[simp] theorem State.setChan_qcache (s : State) (p v : Nat) (c : Chan) : (s.setChan p v c).qcache = s.qcache := rfl
@[simp] theorem State.setChan_parts (s : State) (p v : Nat) (c : Chan) : (s.setChan p v c).parts = s.parts := rfl
@[simp] theorem State.setChan_orbit (s : State) (p v : Nat) (c : Chan) : (s.setChan p v c).orbit = s.orbit := rfl
@[simp] theorem State.setChan_orbitNext (s : State) (p v : Nat) (c : Chan) : (s.setChan p v c).orbitNext = s.orbitNext := rfl
@[simp] theorem State.setChan_served (s : State) (p v : Nat) (c : Chan) : (s.setChan p v c).served = s.served := rfl
@[simp] theorem State.setChan_walk (s : State) (p v : Nat) (c : Chan) : (s.setChan p v c).walk = s.walk := rfl
@[simp] theorem State.tie_cur (s : State) (h : Hart) : (s.tie h).cur = s.cur := rfl
@[simp] theorem State.tie_trapped (s : State) (h : Hart) : (s.tie h).trapped = s.trapped := rfl
@[simp] theorem State.tie_ahead (s : State) (h : Hart) : (s.tie h).ahead = s.ahead := rfl
@[simp] theorem State.tie_split (s : State) (h : Hart) : (s.tie h).split = s.split := rfl
@[simp] theorem State.tie_agenda (s : State) (h : Hart) : (s.tie h).agenda = s.agenda := rfl
@[simp] theorem State.tie_ticks (s : State) (h : Hart) : (s.tie h).ticks = s.ticks := rfl
@[simp] theorem State.tie_free (s : State) (h : Hart) : (s.tie h).free = s.free := rfl
@[simp] theorem State.tie_nextId (s : State) (h : Hart) : (s.tie h).nextId = s.nextId := rfl
@[simp] theorem State.tie_cores (s : State) (h : Hart) : (s.tie h).cores = s.cores := rfl
@[simp] theorem State.tie_clusters (s : State) (h : Hart) : (s.tie h).clusters = s.clusters := rfl
@[simp] theorem State.tie_net (s : State) (h : Hart) : (s.tie h).net = s.net := rfl
@[simp] theorem State.tie_logSeq (s : State) (h : Hart) : (s.tie h).logSeq = s.logSeq := rfl
@[simp] theorem State.tie_dram (s : State) (h : Hart) : (s.tie h).dram = s.dram := rfl
@[simp] theorem State.tie_domains (s : State) (h : Hart) : (s.tie h).domains = s.domains := rfl
@[simp] theorem State.tie_grids (s : State) (h : Hart) : (s.tie h).grids = s.grids := rfl
@[simp] theorem State.tie_ctxs (s : State) (h : Hart) : (s.tie h).ctxs = s.ctxs := rfl
@[simp] theorem State.tie_queues (s : State) (h : Hart) : (s.tie h).queues = s.queues := rfl
@[simp] theorem State.tie_qcache (s : State) (h : Hart) : (s.tie h).qcache = s.qcache := rfl
@[simp] theorem State.tie_parts (s : State) (h : Hart) : (s.tie h).parts = s.parts := rfl
@[simp] theorem State.tie_orbit (s : State) (h : Hart) : (s.tie h).orbit = s.orbit := rfl
@[simp] theorem State.tie_orbitNext (s : State) (h : Hart) : (s.tie h).orbitNext = s.orbitNext := rfl
@[simp] theorem State.tie_served (s : State) (h : Hart) : (s.tie h).served = s.served := rfl
@[simp] theorem State.tie_walk (s : State) (h : Hart) : (s.tie h).walk = s.walk := rfl
@[simp] theorem State.tie_dev (s : State) (h : Hart) : (s.tie h).dev = s.dev := rfl
@[simp] theorem State.bill_cur (s : State) (h : Hart) (i : Instr) : (s.bill h i).cur = s.cur := by
  unfold State.bill State.charge; dsimp only; split <;> [(split <;> rfl); rfl]
@[simp] theorem State.bill_trapped (s : State) (h : Hart) (i : Instr) : (s.bill h i).trapped = s.trapped := by
  unfold State.bill State.charge; dsimp only; split <;> [(split <;> rfl); rfl]
@[simp] theorem State.bill_ahead (s : State) (h : Hart) (i : Instr) : (s.bill h i).ahead = s.ahead := by
  unfold State.bill State.charge; dsimp only; split <;> [(split <;> rfl); rfl]
@[simp] theorem State.bill_split (s : State) (h : Hart) (i : Instr) : (s.bill h i).split = s.split := by
  unfold State.bill State.charge; dsimp only; split <;> [(split <;> rfl); rfl]
@[simp] theorem State.bill_agenda (s : State) (h : Hart) (i : Instr) : (s.bill h i).agenda = s.agenda := by
  unfold State.bill State.charge; dsimp only; split <;> [(split <;> rfl); rfl]
@[simp] theorem State.bill_ticks (s : State) (h : Hart) (i : Instr) : (s.bill h i).ticks = s.ticks := by
  unfold State.bill State.charge; dsimp only; split <;> [(split <;> rfl); rfl]
@[simp] theorem State.bill_free (s : State) (h : Hart) (i : Instr) : (s.bill h i).free = s.free := by
  unfold State.bill State.charge; dsimp only; split <;> [(split <;> rfl); rfl]
@[simp] theorem State.bill_nextId (s : State) (h : Hart) (i : Instr) : (s.bill h i).nextId = s.nextId := by
  unfold State.bill State.charge; dsimp only; split <;> [(split <;> rfl); rfl]
@[simp] theorem State.bill_clusters (s : State) (h : Hart) (i : Instr) : (s.bill h i).clusters = s.clusters := by
  unfold State.bill State.charge; dsimp only; split <;> [(split <;> rfl); rfl]
@[simp] theorem State.bill_net (s : State) (h : Hart) (i : Instr) : (s.bill h i).net = s.net := by
  unfold State.bill State.charge; dsimp only; split <;> [(split <;> rfl); rfl]
@[simp] theorem State.bill_log (s : State) (h : Hart) (i : Instr) : (s.bill h i).log = s.log := by
  unfold State.bill State.charge; dsimp only; split <;> [(split <;> rfl); rfl]
@[simp] theorem State.bill_logSeq (s : State) (h : Hart) (i : Instr) : (s.bill h i).logSeq = s.logSeq := by
  unfold State.bill State.charge; dsimp only; split <;> [(split <;> rfl); rfl]
@[simp] theorem State.bill_dram (s : State) (h : Hart) (i : Instr) : (s.bill h i).dram = s.dram := by
  unfold State.bill State.charge; dsimp only; split <;> [(split <;> rfl); rfl]
@[simp] theorem State.bill_domains (s : State) (h : Hart) (i : Instr) : (s.bill h i).domains = s.domains := by
  unfold State.bill State.charge; dsimp only; split <;> [(split <;> rfl); rfl]
@[simp] theorem State.bill_grids (s : State) (h : Hart) (i : Instr) : (s.bill h i).grids = s.grids := by
  unfold State.bill State.charge; dsimp only; split <;> [(split <;> rfl); rfl]
@[simp] theorem State.bill_queues (s : State) (h : Hart) (i : Instr) : (s.bill h i).queues = s.queues := by
  unfold State.bill State.charge; dsimp only; split <;> [(split <;> rfl); rfl]
@[simp] theorem State.bill_qcache (s : State) (h : Hart) (i : Instr) : (s.bill h i).qcache = s.qcache := by
  unfold State.bill State.charge; dsimp only; split <;> [(split <;> rfl); rfl]
@[simp] theorem State.bill_parts (s : State) (h : Hart) (i : Instr) : (s.bill h i).parts = s.parts := by
  unfold State.bill State.charge; dsimp only; split <;> [(split <;> rfl); rfl]
@[simp] theorem State.bill_orbit (s : State) (h : Hart) (i : Instr) : (s.bill h i).orbit = s.orbit := by
  unfold State.bill State.charge; dsimp only; split <;> [(split <;> rfl); rfl]
@[simp] theorem State.bill_orbitNext (s : State) (h : Hart) (i : Instr) : (s.bill h i).orbitNext = s.orbitNext := by
  unfold State.bill State.charge; dsimp only; split <;> [(split <;> rfl); rfl]
@[simp] theorem State.bill_served (s : State) (h : Hart) (i : Instr) : (s.bill h i).served = s.served := by
  unfold State.bill State.charge; dsimp only; split <;> [(split <;> rfl); rfl]
@[simp] theorem State.bill_walk (s : State) (h : Hart) (i : Instr) : (s.bill h i).walk = s.walk := by
  unfold State.bill State.charge; dsimp only; split <;> [(split <;> rfl); rfl]
@[simp] theorem State.bill_dev (s : State) (h : Hart) (i : Instr) : (s.bill h i).dev = s.dev := by
  unfold State.bill State.charge; dsimp only; split <;> [(split <;> rfl); rfl]
@[simp] theorem State.cacheQueue_cur (s : State) (q : Nat) : (s.cacheQueue q).cur = s.cur := by
  unfold State.cacheQueue; split <;> [rfl; skip]; dsimp only; split <;> split <;> (try split) <;> rfl
@[simp] theorem State.setQueue_cur (s : State) (q : Nat) (r : Queue) : (s.setQueue q r).cur = s.cur := by simp [State.setQueue]
@[simp] theorem State.cacheQueue_trapped (s : State) (q : Nat) : (s.cacheQueue q).trapped = s.trapped := by
  unfold State.cacheQueue; split <;> [rfl; skip]; dsimp only; split <;> split <;> (try split) <;> rfl
@[simp] theorem State.setQueue_trapped (s : State) (q : Nat) (r : Queue) : (s.setQueue q r).trapped = s.trapped := by simp [State.setQueue]
@[simp] theorem State.cacheQueue_ahead (s : State) (q : Nat) : (s.cacheQueue q).ahead = s.ahead := by
  unfold State.cacheQueue; split <;> [rfl; skip]; dsimp only; split <;> split <;> (try split) <;> rfl
@[simp] theorem State.setQueue_ahead (s : State) (q : Nat) (r : Queue) : (s.setQueue q r).ahead = s.ahead := by simp [State.setQueue]
@[simp] theorem State.cacheQueue_split (s : State) (q : Nat) : (s.cacheQueue q).split = s.split := by
  unfold State.cacheQueue; split <;> [rfl; skip]; dsimp only; split <;> split <;> (try split) <;> rfl
@[simp] theorem State.setQueue_split (s : State) (q : Nat) (r : Queue) : (s.setQueue q r).split = s.split := by simp [State.setQueue]
@[simp] theorem State.cacheQueue_agenda (s : State) (q : Nat) : (s.cacheQueue q).agenda = s.agenda := by
  unfold State.cacheQueue; split <;> [rfl; skip]; dsimp only; split <;> split <;> (try split) <;> rfl
@[simp] theorem State.setQueue_agenda (s : State) (q : Nat) (r : Queue) : (s.setQueue q r).agenda = s.agenda := by simp [State.setQueue]
@[simp] theorem State.cacheQueue_ticks (s : State) (q : Nat) : (s.cacheQueue q).ticks = s.ticks := by
  unfold State.cacheQueue; split <;> [rfl; skip]; dsimp only; split <;> split <;> (try split) <;> rfl
@[simp] theorem State.setQueue_ticks (s : State) (q : Nat) (r : Queue) : (s.setQueue q r).ticks = s.ticks := by simp [State.setQueue]
@[simp] theorem State.cacheQueue_free (s : State) (q : Nat) : (s.cacheQueue q).free = s.free := by
  unfold State.cacheQueue; split <;> [rfl; skip]; dsimp only; split <;> split <;> (try split) <;> rfl
@[simp] theorem State.setQueue_free (s : State) (q : Nat) (r : Queue) : (s.setQueue q r).free = s.free := by simp [State.setQueue]
@[simp] theorem State.cacheQueue_nextId (s : State) (q : Nat) : (s.cacheQueue q).nextId = s.nextId := by
  unfold State.cacheQueue; split <;> [rfl; skip]; dsimp only; split <;> split <;> (try split) <;> rfl
@[simp] theorem State.setQueue_nextId (s : State) (q : Nat) (r : Queue) : (s.setQueue q r).nextId = s.nextId := by simp [State.setQueue]
@[simp] theorem State.cacheQueue_cores (s : State) (q : Nat) : (s.cacheQueue q).cores = s.cores := by
  unfold State.cacheQueue; split <;> [rfl; skip]; dsimp only; split <;> split <;> (try split) <;> rfl
@[simp] theorem State.setQueue_cores (s : State) (q : Nat) (r : Queue) : (s.setQueue q r).cores = s.cores := by simp [State.setQueue]
@[simp] theorem State.cacheQueue_clusters (s : State) (q : Nat) : (s.cacheQueue q).clusters = s.clusters := by
  unfold State.cacheQueue; split <;> [rfl; skip]; dsimp only; split <;> split <;> (try split) <;> rfl
@[simp] theorem State.setQueue_clusters (s : State) (q : Nat) (r : Queue) : (s.setQueue q r).clusters = s.clusters := by simp [State.setQueue]
@[simp] theorem State.cacheQueue_net (s : State) (q : Nat) : (s.cacheQueue q).net = s.net := by
  unfold State.cacheQueue; split <;> [rfl; skip]; dsimp only; split <;> split <;> (try split) <;> rfl
@[simp] theorem State.setQueue_net (s : State) (q : Nat) (r : Queue) : (s.setQueue q r).net = s.net := by simp [State.setQueue]
@[simp] theorem State.cacheQueue_log (s : State) (q : Nat) : (s.cacheQueue q).log = s.log := by
  unfold State.cacheQueue; split <;> [rfl; skip]; dsimp only; split <;> split <;> (try split) <;> rfl
@[simp] theorem State.setQueue_log (s : State) (q : Nat) (r : Queue) : (s.setQueue q r).log = s.log := by simp [State.setQueue]
@[simp] theorem State.cacheQueue_logSeq (s : State) (q : Nat) : (s.cacheQueue q).logSeq = s.logSeq := by
  unfold State.cacheQueue; split <;> [rfl; skip]; dsimp only; split <;> split <;> (try split) <;> rfl
@[simp] theorem State.setQueue_logSeq (s : State) (q : Nat) (r : Queue) : (s.setQueue q r).logSeq = s.logSeq := by simp [State.setQueue]
@[simp] theorem State.cacheQueue_domains (s : State) (q : Nat) : (s.cacheQueue q).domains = s.domains := by
  unfold State.cacheQueue; split <;> [rfl; skip]; dsimp only; split <;> split <;> (try split) <;> rfl
@[simp] theorem State.setQueue_domains (s : State) (q : Nat) (r : Queue) : (s.setQueue q r).domains = s.domains := by simp [State.setQueue]
@[simp] theorem State.cacheQueue_grids (s : State) (q : Nat) : (s.cacheQueue q).grids = s.grids := by
  unfold State.cacheQueue; split <;> [rfl; skip]; dsimp only; split <;> split <;> (try split) <;> rfl
@[simp] theorem State.setQueue_grids (s : State) (q : Nat) (r : Queue) : (s.setQueue q r).grids = s.grids := by simp [State.setQueue]
@[simp] theorem State.cacheQueue_ctxs (s : State) (q : Nat) : (s.cacheQueue q).ctxs = s.ctxs := by
  unfold State.cacheQueue; split <;> [rfl; skip]; dsimp only; split <;> split <;> (try split) <;> rfl
@[simp] theorem State.setQueue_ctxs (s : State) (q : Nat) (r : Queue) : (s.setQueue q r).ctxs = s.ctxs := by simp [State.setQueue]
@[simp] theorem State.cacheQueue_parts (s : State) (q : Nat) : (s.cacheQueue q).parts = s.parts := by
  unfold State.cacheQueue; split <;> [rfl; skip]; dsimp only; split <;> split <;> (try split) <;> rfl
@[simp] theorem State.setQueue_parts (s : State) (q : Nat) (r : Queue) : (s.setQueue q r).parts = s.parts := by simp [State.setQueue]
@[simp] theorem State.cacheQueue_orbit (s : State) (q : Nat) : (s.cacheQueue q).orbit = s.orbit := by
  unfold State.cacheQueue; split <;> [rfl; skip]; dsimp only; split <;> split <;> (try split) <;> rfl
@[simp] theorem State.setQueue_orbit (s : State) (q : Nat) (r : Queue) : (s.setQueue q r).orbit = s.orbit := by simp [State.setQueue]
@[simp] theorem State.cacheQueue_orbitNext (s : State) (q : Nat) : (s.cacheQueue q).orbitNext = s.orbitNext := by
  unfold State.cacheQueue; split <;> [rfl; skip]; dsimp only; split <;> split <;> (try split) <;> rfl
@[simp] theorem State.setQueue_orbitNext (s : State) (q : Nat) (r : Queue) : (s.setQueue q r).orbitNext = s.orbitNext := by simp [State.setQueue]
@[simp] theorem State.cacheQueue_served (s : State) (q : Nat) : (s.cacheQueue q).served = s.served := by
  unfold State.cacheQueue; split <;> [rfl; skip]; dsimp only; split <;> split <;> (try split) <;> rfl
@[simp] theorem State.setQueue_served (s : State) (q : Nat) (r : Queue) : (s.setQueue q r).served = s.served := by simp [State.setQueue]
@[simp] theorem State.cacheQueue_walk (s : State) (q : Nat) : (s.cacheQueue q).walk = s.walk := by
  unfold State.cacheQueue; split <;> [rfl; skip]; dsimp only; split <;> split <;> (try split) <;> rfl
@[simp] theorem State.setQueue_walk (s : State) (q : Nat) (r : Queue) : (s.setQueue q r).walk = s.walk := by simp [State.setQueue]
@[simp] theorem State.cacheQueue_dev (s : State) (q : Nat) : (s.cacheQueue q).dev = s.dev := by
  unfold State.cacheQueue; split <;> [rfl; skip]; dsimp only; split <;> split <;> (try split) <;> rfl
@[simp] theorem State.setQueue_dev (s : State) (q : Nat) (r : Queue) : (s.setQueue q r).dev = s.dev := by simp [State.setQueue]
@[simp] theorem Thread.setV_x (t : Thread) (n : Fin 32) (v : Vec) : (t.setV n v).x = t.x := rfl
@[simp] theorem Thread.setV_h (t : Thread) (n : Fin 32) (v : Vec) : (t.setV n v).h = t.h := rfl
@[simp] theorem Thread.setV_m (t : Thread) (n : Fin 32) (v : Vec) : (t.setV n v).m = t.m := rfl
@[simp] theorem Thread.setV_dcur (t : Thread) (n : Fin 32) (v : Vec) : (t.setV n v).dcur = t.dcur := rfl
@[simp] theorem Thread.setV_dnext (t : Thread) (n : Fin 32) (v : Vec) : (t.setV n v).dnext = t.dnext := rfl
@[simp] theorem Thread.setV_pc (t : Thread) (n : Fin 32) (v : Vec) : (t.setV n v).pc = t.pc := rfl
@[simp] theorem Thread.setV_level (t : Thread) (n : Fin 32) (v : Vec) : (t.setV n v).level = t.level := rfl
@[simp] theorem Thread.setV_status (t : Thread) (n : Fin 32) (v : Vec) : (t.setV n v).status = t.status := rfl
@[simp] theorem Thread.setV_user (t : Thread) (n : Fin 32) (v : Vec) : (t.setV n v).user = t.user := rfl
@[simp] theorem Thread.setV_priv (t : Thread) (n : Fin 32) (v : Vec) : (t.setV n v).priv = t.priv := rfl
@[simp] theorem Thread.setV_fmode (t : Thread) (n : Fin 32) (v : Vec) : (t.setV n v).fmode = t.fmode := rfl
@[simp] theorem Thread.setV_fflags (t : Thread) (n : Fin 32) (v : Vec) : (t.setV n v).fflags = t.fflags := rfl
@[simp] theorem Thread.setV_nodeid (t : Thread) (n : Fin 32) (v : Vec) : (t.setV n v).nodeid = t.nodeid := rfl
@[simp] theorem Thread.setV_griddim (t : Thread) (n : Fin 32) (v : Vec) : (t.setV n v).griddim = t.griddim := rfl
@[simp] theorem Thread.setV_xdone (t : Thread) (n : Fin 32) (v : Vec) : (t.setV n v).xdone = t.xdone := rfl
@[simp] theorem Thread.setV_xf (t : Thread) (n : Fin 32) (v : Vec) : (t.setV n v).xf = t.xf := rfl
@[simp] theorem Thread.setV_seq (t : Thread) (n : Fin 32) (v : Vec) : (t.setV n v).seq = t.seq := rfl
@[simp] theorem Thread.setV_apos (t : Thread) (n : Fin 32) (v : Vec) : (t.setV n v).apos = t.apos := rfl
@[simp] theorem Thread.setV_ascale (t : Thread) (n : Fin 32) (v : Vec) : (t.setV n v).ascale = t.ascale := rfl
@[simp] theorem Thread.setV_cmfree (t : Thread) (n : Fin 32) (v : Vec) : (t.setV n v).cmfree = t.cmfree := rfl
@[simp] theorem Thread.setV_cmprog (t : Thread) (n : Fin 32) (v : Vec) : (t.setV n v).cmprog = t.cmprog := rfl
@[simp] theorem Thread.setV_retired (t : Thread) (n : Fin 32) (v : Vec) : (t.setV n v).retired = t.retired := rfl
@[simp] theorem Thread.setV_rep (t : Thread) (n : Fin 32) (v : Vec) : (t.setV n v).rep = t.rep := rfl
@[simp] theorem Thread.setV_hint (t : Thread) (n : Fin 32) (v : Vec) : (t.setV n v).hint = t.hint := rfl
@[simp] theorem Thread.setV_deferred (t : Thread) (n : Fin 32) (v : Vec) : (t.setV n v).deferred = t.deferred := rfl
@[simp] theorem Thread.setV_pend (t : Thread) (n : Fin 32) (v : Vec) : (t.setV n v).pend = t.pend := rfl
@[simp] theorem Thread.setV_gathered (t : Thread) (n : Fin 32) (v : Vec) : (t.setV n v).gathered = t.gathered := rfl
@[simp] theorem Thread.setV_late (t : Thread) (n : Fin 32) (v : Vec) : (t.setV n v).late = t.late := rfl
@[simp] theorem Thread.setV_drain (t : Thread) (n : Fin 32) (v : Vec) : (t.setV n v).drain = t.drain := rfl
@[simp] theorem Thread.setV_fenceSeq (t : Thread) (n : Fin 32) (v : Vec) : (t.setV n v).fenceSeq = t.fenceSeq := rfl
@[simp] theorem Thread.setV_grid (t : Thread) (n : Fin 32) (v : Vec) : (t.setV n v).grid = t.grid := rfl
@[simp] theorem Thread.setV_member (t : Thread) (n : Fin 32) (v : Vec) : (t.setV n v).member = t.member := rfl
@[simp] theorem Thread.setV_bill (t : Thread) (n : Fin 32) (v : Vec) : (t.setV n v).bill = t.bill := rfl
@[simp] theorem Thread.setM_x (t : Thread) (n : Fin 8) (v : Word32) : (t.setM n v).x = t.x := rfl
@[simp] theorem Thread.setM_h (t : Thread) (n : Fin 8) (v : Word32) : (t.setM n v).h = t.h := rfl
@[simp] theorem Thread.setM_v (t : Thread) (n : Fin 8) (v : Word32) : (t.setM n v).v = t.v := rfl
@[simp] theorem Thread.setM_dcur (t : Thread) (n : Fin 8) (v : Word32) : (t.setM n v).dcur = t.dcur := rfl
@[simp] theorem Thread.setM_dnext (t : Thread) (n : Fin 8) (v : Word32) : (t.setM n v).dnext = t.dnext := rfl
@[simp] theorem Thread.setM_pc (t : Thread) (n : Fin 8) (v : Word32) : (t.setM n v).pc = t.pc := rfl
@[simp] theorem Thread.setM_level (t : Thread) (n : Fin 8) (v : Word32) : (t.setM n v).level = t.level := rfl
@[simp] theorem Thread.setM_status (t : Thread) (n : Fin 8) (v : Word32) : (t.setM n v).status = t.status := rfl
@[simp] theorem Thread.setM_user (t : Thread) (n : Fin 8) (v : Word32) : (t.setM n v).user = t.user := rfl
@[simp] theorem Thread.setM_priv (t : Thread) (n : Fin 8) (v : Word32) : (t.setM n v).priv = t.priv := rfl
@[simp] theorem Thread.setM_fmode (t : Thread) (n : Fin 8) (v : Word32) : (t.setM n v).fmode = t.fmode := rfl
@[simp] theorem Thread.setM_fflags (t : Thread) (n : Fin 8) (v : Word32) : (t.setM n v).fflags = t.fflags := rfl
@[simp] theorem Thread.setM_nodeid (t : Thread) (n : Fin 8) (v : Word32) : (t.setM n v).nodeid = t.nodeid := rfl
@[simp] theorem Thread.setM_griddim (t : Thread) (n : Fin 8) (v : Word32) : (t.setM n v).griddim = t.griddim := rfl
@[simp] theorem Thread.setM_xdone (t : Thread) (n : Fin 8) (v : Word32) : (t.setM n v).xdone = t.xdone := rfl
@[simp] theorem Thread.setM_xf (t : Thread) (n : Fin 8) (v : Word32) : (t.setM n v).xf = t.xf := rfl
@[simp] theorem Thread.setM_seq (t : Thread) (n : Fin 8) (v : Word32) : (t.setM n v).seq = t.seq := rfl
@[simp] theorem Thread.setM_apos (t : Thread) (n : Fin 8) (v : Word32) : (t.setM n v).apos = t.apos := rfl
@[simp] theorem Thread.setM_ascale (t : Thread) (n : Fin 8) (v : Word32) : (t.setM n v).ascale = t.ascale := rfl
@[simp] theorem Thread.setM_cmfree (t : Thread) (n : Fin 8) (v : Word32) : (t.setM n v).cmfree = t.cmfree := rfl
@[simp] theorem Thread.setM_cmprog (t : Thread) (n : Fin 8) (v : Word32) : (t.setM n v).cmprog = t.cmprog := rfl
@[simp] theorem Thread.setM_retired (t : Thread) (n : Fin 8) (v : Word32) : (t.setM n v).retired = t.retired := rfl
@[simp] theorem Thread.setM_rep (t : Thread) (n : Fin 8) (v : Word32) : (t.setM n v).rep = t.rep := rfl
@[simp] theorem Thread.setM_hint (t : Thread) (n : Fin 8) (v : Word32) : (t.setM n v).hint = t.hint := rfl
@[simp] theorem Thread.setM_deferred (t : Thread) (n : Fin 8) (v : Word32) : (t.setM n v).deferred = t.deferred := rfl
@[simp] theorem Thread.setM_pend (t : Thread) (n : Fin 8) (v : Word32) : (t.setM n v).pend = t.pend := rfl
@[simp] theorem Thread.setM_gathered (t : Thread) (n : Fin 8) (v : Word32) : (t.setM n v).gathered = t.gathered := rfl
@[simp] theorem Thread.setM_late (t : Thread) (n : Fin 8) (v : Word32) : (t.setM n v).late = t.late := rfl
@[simp] theorem Thread.setM_drain (t : Thread) (n : Fin 8) (v : Word32) : (t.setM n v).drain = t.drain := rfl
@[simp] theorem Thread.setM_fenceSeq (t : Thread) (n : Fin 8) (v : Word32) : (t.setM n v).fenceSeq = t.fenceSeq := rfl
@[simp] theorem Thread.setM_grid (t : Thread) (n : Fin 8) (v : Word32) : (t.setM n v).grid = t.grid := rfl
@[simp] theorem Thread.setM_member (t : Thread) (n : Fin 8) (v : Word32) : (t.setM n v).member = t.member := rfl
@[simp] theorem Thread.setM_bill (t : Thread) (n : Fin 8) (v : Word32) : (t.setM n v).bill = t.bill := rfl
@[simp] theorem Thread.accrue_x (t : Thread) (f : BitVec 5) : (t.accrue f).x = t.x := rfl
@[simp] theorem Thread.accrue_h (t : Thread) (f : BitVec 5) : (t.accrue f).h = t.h := rfl
@[simp] theorem Thread.accrue_v (t : Thread) (f : BitVec 5) : (t.accrue f).v = t.v := rfl
@[simp] theorem Thread.accrue_m (t : Thread) (f : BitVec 5) : (t.accrue f).m = t.m := rfl
@[simp] theorem Thread.accrue_dcur (t : Thread) (f : BitVec 5) : (t.accrue f).dcur = t.dcur := rfl
@[simp] theorem Thread.accrue_dnext (t : Thread) (f : BitVec 5) : (t.accrue f).dnext = t.dnext := rfl
@[simp] theorem Thread.accrue_pc (t : Thread) (f : BitVec 5) : (t.accrue f).pc = t.pc := rfl
@[simp] theorem Thread.accrue_level (t : Thread) (f : BitVec 5) : (t.accrue f).level = t.level := rfl
@[simp] theorem Thread.accrue_status (t : Thread) (f : BitVec 5) : (t.accrue f).status = t.status := rfl
@[simp] theorem Thread.accrue_user (t : Thread) (f : BitVec 5) : (t.accrue f).user = t.user := rfl
@[simp] theorem Thread.accrue_priv (t : Thread) (f : BitVec 5) : (t.accrue f).priv = t.priv := rfl
@[simp] theorem Thread.accrue_fmode (t : Thread) (f : BitVec 5) : (t.accrue f).fmode = t.fmode := rfl
@[simp] theorem Thread.accrue_nodeid (t : Thread) (f : BitVec 5) : (t.accrue f).nodeid = t.nodeid := rfl
@[simp] theorem Thread.accrue_griddim (t : Thread) (f : BitVec 5) : (t.accrue f).griddim = t.griddim := rfl
@[simp] theorem Thread.accrue_xdone (t : Thread) (f : BitVec 5) : (t.accrue f).xdone = t.xdone := rfl
@[simp] theorem Thread.accrue_xf (t : Thread) (f : BitVec 5) : (t.accrue f).xf = t.xf := rfl
@[simp] theorem Thread.accrue_seq (t : Thread) (f : BitVec 5) : (t.accrue f).seq = t.seq := rfl
@[simp] theorem Thread.accrue_apos (t : Thread) (f : BitVec 5) : (t.accrue f).apos = t.apos := rfl
@[simp] theorem Thread.accrue_ascale (t : Thread) (f : BitVec 5) : (t.accrue f).ascale = t.ascale := rfl
@[simp] theorem Thread.accrue_cmfree (t : Thread) (f : BitVec 5) : (t.accrue f).cmfree = t.cmfree := rfl
@[simp] theorem Thread.accrue_cmprog (t : Thread) (f : BitVec 5) : (t.accrue f).cmprog = t.cmprog := rfl
@[simp] theorem Thread.accrue_retired (t : Thread) (f : BitVec 5) : (t.accrue f).retired = t.retired := rfl
@[simp] theorem Thread.accrue_rep (t : Thread) (f : BitVec 5) : (t.accrue f).rep = t.rep := rfl
@[simp] theorem Thread.accrue_hint (t : Thread) (f : BitVec 5) : (t.accrue f).hint = t.hint := rfl
@[simp] theorem Thread.accrue_deferred (t : Thread) (f : BitVec 5) : (t.accrue f).deferred = t.deferred := rfl
@[simp] theorem Thread.accrue_pend (t : Thread) (f : BitVec 5) : (t.accrue f).pend = t.pend := rfl
@[simp] theorem Thread.accrue_gathered (t : Thread) (f : BitVec 5) : (t.accrue f).gathered = t.gathered := rfl
@[simp] theorem Thread.accrue_late (t : Thread) (f : BitVec 5) : (t.accrue f).late = t.late := rfl
@[simp] theorem Thread.accrue_drain (t : Thread) (f : BitVec 5) : (t.accrue f).drain = t.drain := rfl
@[simp] theorem Thread.accrue_fenceSeq (t : Thread) (f : BitVec 5) : (t.accrue f).fenceSeq = t.fenceSeq := rfl
@[simp] theorem Thread.accrue_grid (t : Thread) (f : BitVec 5) : (t.accrue f).grid = t.grid := rfl
@[simp] theorem Thread.accrue_member (t : Thread) (f : BitVec 5) : (t.accrue f).member = t.member := rfl
@[simp] theorem Thread.accrue_bill (t : Thread) (f : BitVec 5) : (t.accrue f).bill = t.bill := rfl
@[simp] theorem Thread.jump_x (t : Thread) (a : Word) : (t.jump a).x = t.x := rfl
@[simp] theorem Thread.jump_h (t : Thread) (a : Word) : (t.jump a).h = t.h := rfl
@[simp] theorem Thread.jump_v (t : Thread) (a : Word) : (t.jump a).v = t.v := rfl
@[simp] theorem Thread.jump_m (t : Thread) (a : Word) : (t.jump a).m = t.m := rfl
@[simp] theorem Thread.jump_dcur (t : Thread) (a : Word) : (t.jump a).dcur = t.dcur := rfl
@[simp] theorem Thread.jump_dnext (t : Thread) (a : Word) : (t.jump a).dnext = t.dnext := rfl
@[simp] theorem Thread.jump_level (t : Thread) (a : Word) : (t.jump a).level = t.level := rfl
@[simp] theorem Thread.jump_status (t : Thread) (a : Word) : (t.jump a).status = t.status := rfl
@[simp] theorem Thread.jump_user (t : Thread) (a : Word) : (t.jump a).user = t.user := rfl
@[simp] theorem Thread.jump_priv (t : Thread) (a : Word) : (t.jump a).priv = t.priv := rfl
@[simp] theorem Thread.jump_fmode (t : Thread) (a : Word) : (t.jump a).fmode = t.fmode := rfl
@[simp] theorem Thread.jump_fflags (t : Thread) (a : Word) : (t.jump a).fflags = t.fflags := rfl
@[simp] theorem Thread.jump_nodeid (t : Thread) (a : Word) : (t.jump a).nodeid = t.nodeid := rfl
@[simp] theorem Thread.jump_griddim (t : Thread) (a : Word) : (t.jump a).griddim = t.griddim := rfl
@[simp] theorem Thread.jump_xdone (t : Thread) (a : Word) : (t.jump a).xdone = t.xdone := rfl
@[simp] theorem Thread.jump_xf (t : Thread) (a : Word) : (t.jump a).xf = t.xf := rfl
@[simp] theorem Thread.jump_seq (t : Thread) (a : Word) : (t.jump a).seq = t.seq := rfl
@[simp] theorem Thread.jump_apos (t : Thread) (a : Word) : (t.jump a).apos = t.apos := rfl
@[simp] theorem Thread.jump_ascale (t : Thread) (a : Word) : (t.jump a).ascale = t.ascale := rfl
@[simp] theorem Thread.jump_cmfree (t : Thread) (a : Word) : (t.jump a).cmfree = t.cmfree := rfl
@[simp] theorem Thread.jump_cmprog (t : Thread) (a : Word) : (t.jump a).cmprog = t.cmprog := rfl
@[simp] theorem Thread.jump_rep (t : Thread) (a : Word) : (t.jump a).rep = t.rep := rfl
@[simp] theorem Thread.jump_hint (t : Thread) (a : Word) : (t.jump a).hint = t.hint := rfl
@[simp] theorem Thread.jump_deferred (t : Thread) (a : Word) : (t.jump a).deferred = t.deferred := rfl
@[simp] theorem Thread.jump_pend (t : Thread) (a : Word) : (t.jump a).pend = t.pend := rfl
@[simp] theorem Thread.jump_gathered (t : Thread) (a : Word) : (t.jump a).gathered = t.gathered := rfl
@[simp] theorem Thread.jump_late (t : Thread) (a : Word) : (t.jump a).late = t.late := rfl
@[simp] theorem Thread.jump_drain (t : Thread) (a : Word) : (t.jump a).drain = t.drain := rfl
@[simp] theorem Thread.jump_fenceSeq (t : Thread) (a : Word) : (t.jump a).fenceSeq = t.fenceSeq := rfl
@[simp] theorem Thread.jump_grid (t : Thread) (a : Word) : (t.jump a).grid = t.grid := rfl
@[simp] theorem Thread.jump_member (t : Thread) (a : Word) : (t.jump a).member = t.member := rfl
@[simp] theorem Thread.jump_bill (t : Thread) (a : Word) : (t.jump a).bill = t.bill := rfl
@[simp] theorem Thread.setX_v (t : Thread) (n : Fin 32) (v : Word) : (t.setX n v).v = t.v := by unfold Thread.setX; split <;> [rfl; (split <;> rfl)]
@[simp] theorem Thread.setX_m (t : Thread) (n : Fin 32) (v : Word) : (t.setX n v).m = t.m := by unfold Thread.setX; split <;> [rfl; (split <;> rfl)]
@[simp] theorem Thread.setX_dcur (t : Thread) (n : Fin 32) (v : Word) : (t.setX n v).dcur = t.dcur := by unfold Thread.setX; split <;> [rfl; (split <;> rfl)]
@[simp] theorem Thread.setX_dnext (t : Thread) (n : Fin 32) (v : Word) : (t.setX n v).dnext = t.dnext := by unfold Thread.setX; split <;> [rfl; (split <;> rfl)]
@[simp] theorem Thread.setX_pc (t : Thread) (n : Fin 32) (v : Word) : (t.setX n v).pc = t.pc := by unfold Thread.setX; split <;> [rfl; (split <;> rfl)]
@[simp] theorem Thread.setX_level (t : Thread) (n : Fin 32) (v : Word) : (t.setX n v).level = t.level := by unfold Thread.setX; split <;> [rfl; (split <;> rfl)]
@[simp] theorem Thread.setX_status (t : Thread) (n : Fin 32) (v : Word) : (t.setX n v).status = t.status := by unfold Thread.setX; split <;> [rfl; (split <;> rfl)]
@[simp] theorem Thread.setX_user (t : Thread) (n : Fin 32) (v : Word) : (t.setX n v).user = t.user := by unfold Thread.setX; split <;> [rfl; (split <;> rfl)]
@[simp] theorem Thread.setX_priv (t : Thread) (n : Fin 32) (v : Word) : (t.setX n v).priv = t.priv := by unfold Thread.setX; split <;> [rfl; (split <;> rfl)]
@[simp] theorem Thread.setX_fmode (t : Thread) (n : Fin 32) (v : Word) : (t.setX n v).fmode = t.fmode := by unfold Thread.setX; split <;> [rfl; (split <;> rfl)]
@[simp] theorem Thread.setX_fflags (t : Thread) (n : Fin 32) (v : Word) : (t.setX n v).fflags = t.fflags := by unfold Thread.setX; split <;> [rfl; (split <;> rfl)]
@[simp] theorem Thread.setX_nodeid (t : Thread) (n : Fin 32) (v : Word) : (t.setX n v).nodeid = t.nodeid := by unfold Thread.setX; split <;> [rfl; (split <;> rfl)]
@[simp] theorem Thread.setX_griddim (t : Thread) (n : Fin 32) (v : Word) : (t.setX n v).griddim = t.griddim := by unfold Thread.setX; split <;> [rfl; (split <;> rfl)]
@[simp] theorem Thread.setX_xdone (t : Thread) (n : Fin 32) (v : Word) : (t.setX n v).xdone = t.xdone := by unfold Thread.setX; split <;> [rfl; (split <;> rfl)]
@[simp] theorem Thread.setX_xf (t : Thread) (n : Fin 32) (v : Word) : (t.setX n v).xf = t.xf := by unfold Thread.setX; split <;> [rfl; (split <;> rfl)]
@[simp] theorem Thread.setX_seq (t : Thread) (n : Fin 32) (v : Word) : (t.setX n v).seq = t.seq := by unfold Thread.setX; split <;> [rfl; (split <;> rfl)]
@[simp] theorem Thread.setX_apos (t : Thread) (n : Fin 32) (v : Word) : (t.setX n v).apos = t.apos := by unfold Thread.setX; split <;> [rfl; (split <;> rfl)]
@[simp] theorem Thread.setX_ascale (t : Thread) (n : Fin 32) (v : Word) : (t.setX n v).ascale = t.ascale := by unfold Thread.setX; split <;> [rfl; (split <;> rfl)]
@[simp] theorem Thread.setX_cmfree (t : Thread) (n : Fin 32) (v : Word) : (t.setX n v).cmfree = t.cmfree := by unfold Thread.setX; split <;> [rfl; (split <;> rfl)]
@[simp] theorem Thread.setX_cmprog (t : Thread) (n : Fin 32) (v : Word) : (t.setX n v).cmprog = t.cmprog := by unfold Thread.setX; split <;> [rfl; (split <;> rfl)]
@[simp] theorem Thread.setX_retired (t : Thread) (n : Fin 32) (v : Word) : (t.setX n v).retired = t.retired := by unfold Thread.setX; split <;> [rfl; (split <;> rfl)]
@[simp] theorem Thread.setX_rep (t : Thread) (n : Fin 32) (v : Word) : (t.setX n v).rep = t.rep := by unfold Thread.setX; split <;> [rfl; (split <;> rfl)]
@[simp] theorem Thread.setX_hint (t : Thread) (n : Fin 32) (v : Word) : (t.setX n v).hint = t.hint := by unfold Thread.setX; split <;> [rfl; (split <;> rfl)]
@[simp] theorem Thread.setX_deferred (t : Thread) (n : Fin 32) (v : Word) : (t.setX n v).deferred = t.deferred := by unfold Thread.setX; split <;> [rfl; (split <;> rfl)]
@[simp] theorem Thread.setX_pend (t : Thread) (n : Fin 32) (v : Word) : (t.setX n v).pend = t.pend := by unfold Thread.setX; split <;> [rfl; (split <;> rfl)]
@[simp] theorem Thread.setX_gathered (t : Thread) (n : Fin 32) (v : Word) : (t.setX n v).gathered = t.gathered := by unfold Thread.setX; split <;> [rfl; (split <;> rfl)]
@[simp] theorem Thread.setX_late (t : Thread) (n : Fin 32) (v : Word) : (t.setX n v).late = t.late := by unfold Thread.setX; split <;> [rfl; (split <;> rfl)]
@[simp] theorem Thread.setX_drain (t : Thread) (n : Fin 32) (v : Word) : (t.setX n v).drain = t.drain := by unfold Thread.setX; split <;> [rfl; (split <;> rfl)]
@[simp] theorem Thread.setX_fenceSeq (t : Thread) (n : Fin 32) (v : Word) : (t.setX n v).fenceSeq = t.fenceSeq := by unfold Thread.setX; split <;> [rfl; (split <;> rfl)]
@[simp] theorem Thread.setX_grid (t : Thread) (n : Fin 32) (v : Word) : (t.setX n v).grid = t.grid := by unfold Thread.setX; split <;> [rfl; (split <;> rfl)]
@[simp] theorem Thread.setX_member (t : Thread) (n : Fin 32) (v : Word) : (t.setX n v).member = t.member := by unfold Thread.setX; split <;> [rfl; (split <;> rfl)]
@[simp] theorem Thread.setX_bill (t : Thread) (n : Fin 32) (v : Word) : (t.setX n v).bill = t.bill := by unfold Thread.setX; split <;> [rfl; (split <;> rfl)]
@[simp] theorem Thread.goto_x (t : Thread) (a : Word) : (t.goto a).x = t.x := by unfold Thread.goto; split <;> [rfl; (split <;> [(split <;> rfl); rfl])]
@[simp] theorem Thread.goto_h (t : Thread) (a : Word) : (t.goto a).h = t.h := by unfold Thread.goto; split <;> [rfl; (split <;> [(split <;> rfl); rfl])]
@[simp] theorem Thread.goto_v (t : Thread) (a : Word) : (t.goto a).v = t.v := by unfold Thread.goto; split <;> [rfl; (split <;> [(split <;> rfl); rfl])]
@[simp] theorem Thread.goto_m (t : Thread) (a : Word) : (t.goto a).m = t.m := by unfold Thread.goto; split <;> [rfl; (split <;> [(split <;> rfl); rfl])]
@[simp] theorem Thread.goto_dcur (t : Thread) (a : Word) : (t.goto a).dcur = t.dcur := by unfold Thread.goto; split <;> [rfl; (split <;> [(split <;> rfl); rfl])]
@[simp] theorem Thread.goto_dnext (t : Thread) (a : Word) : (t.goto a).dnext = t.dnext := by unfold Thread.goto; split <;> [rfl; (split <;> [(split <;> rfl); rfl])]
@[simp] theorem Thread.goto_level (t : Thread) (a : Word) : (t.goto a).level = t.level := by unfold Thread.goto; split <;> [rfl; (split <;> [(split <;> rfl); rfl])]
@[simp] theorem Thread.goto_status (t : Thread) (a : Word) : (t.goto a).status = t.status := by unfold Thread.goto; split <;> [rfl; (split <;> [(split <;> rfl); rfl])]
@[simp] theorem Thread.goto_user (t : Thread) (a : Word) : (t.goto a).user = t.user := by unfold Thread.goto; split <;> [rfl; (split <;> [(split <;> rfl); rfl])]
@[simp] theorem Thread.goto_priv (t : Thread) (a : Word) : (t.goto a).priv = t.priv := by unfold Thread.goto; split <;> [rfl; (split <;> [(split <;> rfl); rfl])]
@[simp] theorem Thread.goto_fmode (t : Thread) (a : Word) : (t.goto a).fmode = t.fmode := by unfold Thread.goto; split <;> [rfl; (split <;> [(split <;> rfl); rfl])]
@[simp] theorem Thread.goto_fflags (t : Thread) (a : Word) : (t.goto a).fflags = t.fflags := by unfold Thread.goto; split <;> [rfl; (split <;> [(split <;> rfl); rfl])]
@[simp] theorem Thread.goto_nodeid (t : Thread) (a : Word) : (t.goto a).nodeid = t.nodeid := by unfold Thread.goto; split <;> [rfl; (split <;> [(split <;> rfl); rfl])]
@[simp] theorem Thread.goto_griddim (t : Thread) (a : Word) : (t.goto a).griddim = t.griddim := by unfold Thread.goto; split <;> [rfl; (split <;> [(split <;> rfl); rfl])]
@[simp] theorem Thread.goto_xdone (t : Thread) (a : Word) : (t.goto a).xdone = t.xdone := by unfold Thread.goto; split <;> [rfl; (split <;> [(split <;> rfl); rfl])]
@[simp] theorem Thread.goto_xf (t : Thread) (a : Word) : (t.goto a).xf = t.xf := by unfold Thread.goto; split <;> [rfl; (split <;> [(split <;> rfl); rfl])]
@[simp] theorem Thread.goto_seq (t : Thread) (a : Word) : (t.goto a).seq = t.seq := by unfold Thread.goto; split <;> [rfl; (split <;> [(split <;> rfl); rfl])]
@[simp] theorem Thread.goto_apos (t : Thread) (a : Word) : (t.goto a).apos = t.apos := by unfold Thread.goto; split <;> [rfl; (split <;> [(split <;> rfl); rfl])]
@[simp] theorem Thread.goto_ascale (t : Thread) (a : Word) : (t.goto a).ascale = t.ascale := by unfold Thread.goto; split <;> [rfl; (split <;> [(split <;> rfl); rfl])]
@[simp] theorem Thread.goto_cmfree (t : Thread) (a : Word) : (t.goto a).cmfree = t.cmfree := by unfold Thread.goto; split <;> [rfl; (split <;> [(split <;> rfl); rfl])]
@[simp] theorem Thread.goto_cmprog (t : Thread) (a : Word) : (t.goto a).cmprog = t.cmprog := by unfold Thread.goto; split <;> [rfl; (split <;> [(split <;> rfl); rfl])]
@[simp] theorem Thread.goto_retired (t : Thread) (a : Word) : (t.goto a).retired = t.retired := by unfold Thread.goto; split <;> [rfl; (split <;> [(split <;> rfl); rfl])]
@[simp] theorem Thread.goto_hint (t : Thread) (a : Word) : (t.goto a).hint = t.hint := by unfold Thread.goto; split <;> [rfl; (split <;> [(split <;> rfl); rfl])]
@[simp] theorem Thread.goto_deferred (t : Thread) (a : Word) : (t.goto a).deferred = t.deferred := by unfold Thread.goto; split <;> [rfl; (split <;> [(split <;> rfl); rfl])]
@[simp] theorem Thread.goto_pend (t : Thread) (a : Word) : (t.goto a).pend = t.pend := by unfold Thread.goto; split <;> [rfl; (split <;> [(split <;> rfl); rfl])]
@[simp] theorem Thread.goto_gathered (t : Thread) (a : Word) : (t.goto a).gathered = t.gathered := by unfold Thread.goto; split <;> [rfl; (split <;> [(split <;> rfl); rfl])]
@[simp] theorem Thread.goto_late (t : Thread) (a : Word) : (t.goto a).late = t.late := by unfold Thread.goto; split <;> [rfl; (split <;> [(split <;> rfl); rfl])]
@[simp] theorem Thread.goto_drain (t : Thread) (a : Word) : (t.goto a).drain = t.drain := by unfold Thread.goto; split <;> [rfl; (split <;> [(split <;> rfl); rfl])]
@[simp] theorem Thread.goto_fenceSeq (t : Thread) (a : Word) : (t.goto a).fenceSeq = t.fenceSeq := by unfold Thread.goto; split <;> [rfl; (split <;> [(split <;> rfl); rfl])]
@[simp] theorem Thread.goto_grid (t : Thread) (a : Word) : (t.goto a).grid = t.grid := by unfold Thread.goto; split <;> [rfl; (split <;> [(split <;> rfl); rfl])]
@[simp] theorem Thread.goto_member (t : Thread) (a : Word) : (t.goto a).member = t.member := by unfold Thread.goto; split <;> [rfl; (split <;> [(split <;> rfl); rfl])]
@[simp] theorem Thread.goto_bill (t : Thread) (a : Word) : (t.goto a).bill = t.bill := by unfold Thread.goto; split <;> [rfl; (split <;> [(split <;> rfl); rfl])]
@[simp] theorem Thread.advance_x (t : Thread) (n : Nat) : (t.advance n).x = t.x := by simp [Thread.advance]
@[simp] theorem Thread.advance_h (t : Thread) (n : Nat) : (t.advance n).h = t.h := by simp [Thread.advance]
@[simp] theorem Thread.advance_v (t : Thread) (n : Nat) : (t.advance n).v = t.v := by simp [Thread.advance]
@[simp] theorem Thread.advance_m (t : Thread) (n : Nat) : (t.advance n).m = t.m := by simp [Thread.advance]
@[simp] theorem Thread.advance_dcur (t : Thread) (n : Nat) : (t.advance n).dcur = t.dcur := by simp [Thread.advance]
@[simp] theorem Thread.advance_dnext (t : Thread) (n : Nat) : (t.advance n).dnext = t.dnext := by simp [Thread.advance]
@[simp] theorem Thread.advance_level (t : Thread) (n : Nat) : (t.advance n).level = t.level := by simp [Thread.advance]
@[simp] theorem Thread.advance_status (t : Thread) (n : Nat) : (t.advance n).status = t.status := by simp [Thread.advance]
@[simp] theorem Thread.advance_user (t : Thread) (n : Nat) : (t.advance n).user = t.user := by simp [Thread.advance]
@[simp] theorem Thread.advance_priv (t : Thread) (n : Nat) : (t.advance n).priv = t.priv := by simp [Thread.advance]
@[simp] theorem Thread.advance_fmode (t : Thread) (n : Nat) : (t.advance n).fmode = t.fmode := by simp [Thread.advance]
@[simp] theorem Thread.advance_fflags (t : Thread) (n : Nat) : (t.advance n).fflags = t.fflags := by simp [Thread.advance]
@[simp] theorem Thread.advance_nodeid (t : Thread) (n : Nat) : (t.advance n).nodeid = t.nodeid := by simp [Thread.advance]
@[simp] theorem Thread.advance_griddim (t : Thread) (n : Nat) : (t.advance n).griddim = t.griddim := by simp [Thread.advance]
@[simp] theorem Thread.advance_xdone (t : Thread) (n : Nat) : (t.advance n).xdone = t.xdone := by simp [Thread.advance]
@[simp] theorem Thread.advance_xf (t : Thread) (n : Nat) : (t.advance n).xf = t.xf := by simp [Thread.advance]
@[simp] theorem Thread.advance_seq (t : Thread) (n : Nat) : (t.advance n).seq = t.seq := by simp [Thread.advance]
@[simp] theorem Thread.advance_apos (t : Thread) (n : Nat) : (t.advance n).apos = t.apos := by simp [Thread.advance]
@[simp] theorem Thread.advance_ascale (t : Thread) (n : Nat) : (t.advance n).ascale = t.ascale := by simp [Thread.advance]
@[simp] theorem Thread.advance_cmfree (t : Thread) (n : Nat) : (t.advance n).cmfree = t.cmfree := by simp [Thread.advance]
@[simp] theorem Thread.advance_cmprog (t : Thread) (n : Nat) : (t.advance n).cmprog = t.cmprog := by simp [Thread.advance]
@[simp] theorem Thread.advance_hint (t : Thread) (n : Nat) : (t.advance n).hint = t.hint := by simp [Thread.advance]
@[simp] theorem Thread.advance_deferred (t : Thread) (n : Nat) : (t.advance n).deferred = t.deferred := by simp [Thread.advance]
@[simp] theorem Thread.advance_pend (t : Thread) (n : Nat) : (t.advance n).pend = t.pend := by simp [Thread.advance]
@[simp] theorem Thread.advance_gathered (t : Thread) (n : Nat) : (t.advance n).gathered = t.gathered := by simp [Thread.advance]
@[simp] theorem Thread.advance_late (t : Thread) (n : Nat) : (t.advance n).late = t.late := by simp [Thread.advance]
@[simp] theorem Thread.advance_drain (t : Thread) (n : Nat) : (t.advance n).drain = t.drain := by simp [Thread.advance]
@[simp] theorem Thread.advance_fenceSeq (t : Thread) (n : Nat) : (t.advance n).fenceSeq = t.fenceSeq := by simp [Thread.advance]
@[simp] theorem Thread.advance_grid (t : Thread) (n : Nat) : (t.advance n).grid = t.grid := by simp [Thread.advance]
@[simp] theorem Thread.advance_member (t : Thread) (n : Nat) : (t.advance n).member = t.member := by simp [Thread.advance]
@[simp] theorem Thread.advance_bill (t : Thread) (n : Nat) : (t.advance n).bill = t.bill := by simp [Thread.advance]

end Sys2Proof.Machine
end

