-- ==== Sys2Proof/Laws/Tables.lean ====
section
/-! SUPPORT. The small lemmas of tables and of byte tables: a read after a write to the same key gives the value written, and a write
leaves every other key alone; the canonical form of a memory is kept. -/

namespace Sys2Proof.Machine

/-! ## Reads after writes -/

@[simp] theorem Tab.find?_set_same {α : Type} (k : Nat) (v : α) (t : Tab α) : Tab.find? (Tab.set k v t) k = some v := by
  induction t with
  | nil => simp [Tab.set, Tab.find?]
  | cons p t ih =>
    obtain ⟨k', v'⟩ := p
    simp only [Tab.set]
    split
    · simp [Tab.find?]
    · split
      · simp [Tab.find?]
      · rename_i h; simp [Tab.find?, h, ih]

theorem Tab.find?_set_other {α : Type} (k : Nat) (v : α) (t : Tab α) (j : Nat) (h : j ≠ k) :
    Tab.find? (Tab.set k v t) j = Tab.find? t j := by
  induction t with
  | nil => simp [Tab.set, Tab.find?, h]
  | cons p t ih =>
    obtain ⟨k', v'⟩ := p
    simp only [Tab.set]
    split
    · simp [Tab.find?, h]
    · split
      · rename_i e; subst e; simp [Tab.find?, h]
      · simp only [Tab.find?]; split <;> simp [ih]

theorem Tab.find?_set {α : Type} (k : Nat) (v : α) (t : Tab α) (j : Nat) :
    Tab.find? (Tab.set k v t) j = if j = k then some v else Tab.find? t j := by
  by_cases h : j = k
  · subst h; simp
  · simp [h, Tab.find?_set_other k v t j h]

theorem Tab.del_cons {α : Type} (k k' : Nat) (v : α) (t : Tab α) :
    Tab.del k ((k', v) :: t) = if k' = k then Tab.del k t else (k', v) :: Tab.del k t := by
  unfold Tab.del
  rw [List.filter_cons]
  by_cases h : k' = k <;> simp [h]

theorem Tab.find?_del_other {α : Type} (k : Nat) (t : Tab α) (j : Nat) (h : j ≠ k) : Tab.find? (Tab.del k t) j = Tab.find? t j := by
  induction t with
  | nil => rfl
  | cons p t ih =>
    obtain ⟨k', v'⟩ := p
    rw [Tab.del_cons]
    split
    · rename_i e; subst e; simp [Tab.find?, h, ih]
    · simp only [Tab.find?, ih]

theorem Tab.find?_del_same {α : Type} (k : Nat) (t : Tab α) : Tab.find? (Tab.del k t) k = none := by
  induction t with
  | nil => rfl
  | cons p t ih =>
    obtain ⟨k', v'⟩ := p
    rw [Tab.del_cons]
    split
    · exact ih
    · rename_i e
      have e' : k ≠ k' := fun x => e x.symm
      simp [Tab.find?, e', ih]

theorem Tab.get_eq_find? {α : Type} (d : α) (t : Tab α) (k : Nat) : Tab.get d t k = (Tab.find? t k).getD d := by
  induction t with
  | nil => rfl
  | cons p t ih =>
    obtain ⟨k', v'⟩ := p
    simp only [Tab.get, Tab.find?]
    split <;> simp [ih]

@[simp] theorem Tab.get_set_same {α : Type} (d : α) (k : Nat) (v : α) (t : Tab α) : Tab.get d (Tab.set k v t) k = v := by
  simp [Tab.get_eq_find?]

theorem Tab.get_set_other {α : Type} (d : α) (k : Nat) (v : α) (t : Tab α) (j : Nat) (h : j ≠ k) :
    Tab.get d (Tab.set k v t) j = Tab.get d t j := by
  simp [Tab.get_eq_find?, Tab.find?_set_other k v t j h]

@[simp] theorem Tab.get_put_same {α : Type} [DecidableEq α] (d : α) (k : Nat) (v : α) (t : Tab α) :
    Tab.get d (Tab.put d k v t) k = v := by
  unfold Tab.put
  split
  · rename_i h; subst h; simp [Tab.get_eq_find?, Tab.find?_del_same]
  · simp

theorem Tab.get_put_other {α : Type} [DecidableEq α] (d : α) (k : Nat) (v : α) (t : Tab α) (j : Nat) (h : j ≠ k) :
    Tab.get d (Tab.put d k v t) j = Tab.get d t j := by
  unfold Tab.put
  split
  · simp [Tab.get_eq_find?, Tab.find?_del_other k t j h]
  · exact Tab.get_set_other d k v t j h

@[simp] theorem Tab.set_set {α : Type} (k : Nat) (v w : α) (t : Tab α) : Tab.set k w (Tab.set k v t) = Tab.set k w t := by
  induction t with
  | nil => simp [Tab.set]
  | cons p t ih =>
    obtain ⟨k', v'⟩ := p
    simp only [Tab.set]
    split
    · simp [Tab.set]
    · split
      · rename_i h1 h2; simp [Tab.set]
      · rename_i h1 h2; simp [Tab.set, h1, h2, ih]

/-! ## The canonical form -/

theorem Tab.ascending_cons {α : Type} (k : Nat) (v : α) (t : Tab α) :
    Tab.ascending ((k, v) :: t) = true ↔ (∀ q ∈ t, k < q.1) ∧ Tab.ascending t = true := by
  induction t generalizing k v with
  | nil => simp [Tab.ascending]
  | cons p t ih =>
    obtain ⟨k', v'⟩ := p
    have := ih k' v'
    simp only [Tab.ascending, Bool.and_eq_true, decide_eq_true_eq] at *
    constructor
    · rintro ⟨h1, h2⟩
      refine ⟨?_, h2⟩
      intro q hq
      simp only [List.mem_cons] at hq
      rcases hq with rfl | hq
      · exact h1
      · have := (this.mp h2).1 q hq; omega
    · rintro ⟨h1, h2⟩
      exact ⟨h1 (k', v') (by simp), h2⟩

theorem Tab.mem_set {α : Type} (k : Nat) (v : α) (t : Tab α) (q : Nat × α) (h : q ∈ Tab.set k v t) : q = (k, v) ∨ q ∈ t := by
  induction t with
  | nil => simp [Tab.set] at h; exact .inl h
  | cons p t ih =>
    obtain ⟨k', v'⟩ := p
    simp only [Tab.set] at h
    split at h
    · simp only [List.mem_cons] at h ⊢; tauto
    · split at h
      · simp only [List.mem_cons] at h ⊢; tauto
      · simp only [List.mem_cons] at h ⊢
        rcases h with h | h
        · exact .inr (.inl h)
        · rcases ih h with h | h <;> tauto

theorem Tab.ascending_set {α : Type} (k : Nat) (v : α) (t : Tab α) (h : t.ascending = true) : (Tab.set k v t).ascending = true := by
  induction t with
  | nil => simp [Tab.set, Tab.ascending]
  | cons p t ih =>
    obtain ⟨k', v'⟩ := p
    have hc := (Tab.ascending_cons k' v' t).mp h
    simp only [Tab.set]
    split
    · rename_i hlt
      refine (Tab.ascending_cons k v _).mpr ⟨?_, h⟩
      intro q hq
      simp only [List.mem_cons] at hq
      rcases hq with rfl | hq
      · exact hlt
      · have := hc.1 q hq; omega
    · split
      · rename_i he; subst he
        exact (Tab.ascending_cons k v _).mpr ⟨hc.1, hc.2⟩
      · rename_i h1 h2
        refine (Tab.ascending_cons k' v' _).mpr ⟨?_, ih hc.2⟩
        intro q hq
        rcases Tab.mem_set k v t q hq with rfl | hq
        · show k' < k; omega
        · exact hc.1 q hq

theorem Tab.ascending_filter {α : Type} (p : Nat × α → Bool) (t : Tab α) (h : t.ascending = true) :
    Tab.ascending (t.filter p) = true := by
  induction t with
  | nil => rfl
  | cons q t ih =>
    obtain ⟨k, v⟩ := q
    have hc := (Tab.ascending_cons k v t).mp h
    simp only [List.filter]
    split
    · exact (Tab.ascending_cons k v _).mpr ⟨fun q hq => hc.1 q (List.mem_of_mem_filter hq), ih hc.2⟩
    · exact ih hc.2

theorem Tab.wf_filter {α : Type} [DecidableEq α] (d : α) (p : Nat × α → Bool) (t : Tab α) (h : Tab.wf d t = true) :
    Tab.wf d (t.filter p) = true := by
  simp only [Tab.wf, Bool.and_eq_true, List.all_eq_true, decide_eq_true_eq] at *
  exact ⟨Tab.ascending_filter p t h.1, fun q hq => h.2 q (List.mem_of_mem_filter hq)⟩

theorem Tab.wf_put {α : Type} [DecidableEq α] (d : α) (k : Nat) (v : α) (t : Tab α) (h : Tab.wf d t = true) :
    Tab.wf d (Tab.put d k v t) = true := by
  unfold Tab.put
  split
  · exact Tab.wf_filter d _ t h
  · rename_i hv
    simp only [Tab.wf, Bool.and_eq_true, List.all_eq_true, decide_eq_true_eq] at *
    refine ⟨Tab.ascending_set k v t h.1, fun q hq => ?_⟩
    rcases Tab.mem_set k v t q hq with rfl | hq
    · exact hv
    · exact h.2 q hq

/-- Every write of bytes keeps a memory in its canonical form. -/
theorem Memory.wf_writeLe (t : List Host.Cell) (a n v : Nat) (h : Memory.wf t = true) : Memory.wf (writeLe t a n v) = true := by
  induction n generalizing t a v with
  | zero => exact h
  | succ n ih => exact ih _ _ _ (Tab.wf_put _ _ _ _ h)

/-! ## Bytes -/

theorem writeLe_outside (t : List Host.Cell) (a n v b : Nat) (h : b < a ∨ a + n ≤ b) :
    Tab.get (0 : Byte) (writeLe t a n v) b = Tab.get 0 t b := by
  induction n generalizing t a v with
  | zero => rfl
  | succ n ih =>
    simp only [writeLe]
    rw [ih _ _ _ (by omega), Tab.get_put_other _ _ _ _ _ (by omega)]

theorem writeLe_inside (t : List Host.Cell) (a n v i : Nat) (h : i < n) :
    Tab.get (0 : Byte) (writeLe t a n v) (a + i) = BitVec.ofNat 8 (v / 256 ^ i) := by
  induction n generalizing t a v i with
  | zero => omega
  | succ n ih =>
    simp only [writeLe]
    cases i with
    | zero => rw [Nat.add_zero, writeLe_outside _ _ _ _ _ (by omega)]; simp
    | succ j =>
      have e : a + (j + 1) = (a + 1) + j := by omega
      rw [e, ih _ _ _ _ (by omega), Nat.pow_succ, Nat.mul_comm, Nat.div_div_eq_div_mul]

theorem readLe_congr (t u : List Host.Cell) (a n : Nat) (h : ∀ i, i < n → Tab.get (0 : Byte) t (a + i) = Tab.get 0 u (a + i)) :
    readLe t a n = readLe u a n := by
  induction n generalizing a with
  | zero => rfl
  | succ n ih =>
    simp only [readLe]
    have h0 := h 0 (by omega)
    rw [Nat.add_zero] at h0
    rw [h0, ih (a + 1) (fun i hi => by have := h (i + 1) (by omega); rwa [show a + (i + 1) = a + 1 + i by omega] at this)]

/-- A read of other bytes than those written gives what it gave before. -/
theorem readLe_writeLe_outside (t : List Host.Cell) (a n v b m : Nat) (h : b + m ≤ a ∨ a + n ≤ b) :
    readLe (writeLe t a n v) b m = readLe t b m :=
  readLe_congr _ _ _ _ (fun i hi => writeLe_outside t a n v (b + i) (by omega))

/-- A read of the bytes written gives the value written. -/
theorem readLe_writeLe_same (t : List Host.Cell) (a n v : Nat) : readLe (writeLe t a n v) a n = v % 256 ^ n := by
  induction n generalizing t a v with
  | zero => simp [readLe, Nat.mod_one]
  | succ n ih =>
    simp only [readLe, writeLe]
    rw [ih, writeLe_outside _ _ _ _ _ (by omega), Tab.get_put_same]
    simp only [BitVec.toNat_ofNat]
    rw [show (256 : Nat) ^ (n + 1) = 256 * 256 ^ n by rw [Nat.pow_succ, Nat.mul_comm], Nat.mod_mul]

end Sys2Proof.Machine
end

