-- ==== Sys2Proof/Laws/Memory.lean ====
section
/-! SUPPORT. What the operations over tagged memory do to its bytes: each keeps the canonical form, and those that store nothing leave
every byte as it was. -/

namespace Sys2Proof.Machine

/-! ## Operations that leave the bytes alone -/

@[simp] theorem Sram.wakeWord_cells (m : Sram) (w : Nat) : (m.wakeWord w).cells = m.cells := rfl

@[simp] theorem Sram.setTag_cells (m : Sram) (w : Nat) (t : BitVec 3) : (m.setTag w t).cells = m.cells := by
  unfold Sram.setTag; split <;> rfl

@[simp] theorem Sram.setTag_owners (m : Sram) (w : Nat) (t : BitVec 3) : (m.setTag w t).owners = m.owners := by
  unfold Sram.setTag; split <;> rfl

@[simp] theorem Sram.update_cells (m : Sram) (o : BitVec 12) (w : Nat) (e : BitVec 16) : (m.update o w e).cells = m.cells := by
  unfold Sram.update; split <;> simp

theorem foldl_kept {α β γ : Type} (f : β → α → β) (g : β → γ) (h : ∀ b a, g (f b a) = g b) (l : List α) (b : β) :
    g (l.foldl f b) = g b := by
  induction l generalizing b with
  | nil => rfl
  | cons a l ih => rw [List.foldl_cons, ih, h]

/-- What a fold keeps, step by step, it keeps. -/
theorem foldl_inv {α β : Type} (f : β → α → β) (p : β → Prop) (h : ∀ b a, p b → p (f b a)) (l : List α) (b : β) (hb : p b) :
    p (l.foldl f b) := by
  induction l generalizing b with
  | nil => exact hb
  | cons a l ih => exact ih _ (h b a hb)

theorem Sram.tableOp_cells (m : Sram) (op : AccOp) (v : Word) : (m.tableOp op v).2.cells = m.cells := by
  unfold Sram.tableOp
  cases op <;> simp only <;> split <;> rfl

/-! ## The canonical form (every operation over tagged memory keeps it) -/

/-- The bytes of a tagged memory stand in canonical form. -/
def Sram.Wf (m : Sram) : Prop := Memory.wf m.cells = true

theorem Sram.wf_empty : Sram.init.Wf := rfl

theorem Sram.wf_of_cells {m m' : Sram} (h : m'.cells = m.cells) (hm : m.Wf) : m'.Wf := by unfold Sram.Wf; rw [h]; exact hm

theorem Sram.wf_resetLine (m : Sram) (line : Nat) (o : BitVec 12) (h : m.Wf) : (m.resetLine line o).Wf := by
  unfold Sram.resetLine
  generalize (64 : Nat) = n
  refine foldl_inv _ Sram.Wf (fun b i hb => Sram.wf_of_cells (Sram.setTag_cells _ _ _) hb) _ _ ?_
  have h2 := Memory.wf_writeLe m.cells (n * line) n 0 h
  unfold Sram.Wf
  exact h2

theorem Sram.wf_claim (m : Sram) (off : Nat) (o : BitVec 12) (h : m.Wf) : (m.claim off o).Wf := by
  unfold Sram.claim; split
  · exact h
  · exact Sram.wf_resetLine _ _ _ h

theorem Sram.wf_storeLanes (m : Sram) (a : Access) (h : m.Wf) : (m.storeLanes a).Wf := by
  unfold Sram.storeLanes
  refine foldl_inv _ Sram.Wf (fun b e hb => ?_) _ _ h
  exact Memory.wf_writeLe (b.claim e.1 a.owner).cells _ _ _ (Sram.wf_claim _ _ _ hb)

theorem Sram.wf_perform (m : Sram) (a : Access) (h : m.Wf) : (m.perform a).2.Wf := by
  unfold Sram.perform
  split
  · exact Memory.wf_writeLe (m.claim _ a.owner).cells _ _ _ (Sram.wf_claim _ _ _ h)
  · exact Sram.wf_storeLanes _ _ h
  · exact h

theorem Sram.wf_update (m : Sram) (o : BitVec 12) (w : Nat) (e : BitVec 16) (h : m.Wf) : (m.update o w e).Wf :=
  Sram.wf_of_cells (Sram.update_cells _ _ _ _) h

theorem Sram.wf_setTag (m : Sram) (w : Nat) (t : BitVec 3) (h : m.Wf) : (m.setTag w t).Wf :=
  Sram.wf_of_cells (Sram.setTag_cells _ _ _) h

theorem Sram.wf_tagOp (m : Sram) (a : Access) (h : m.Wf) : (m.tagOp a).2.Wf := by
  unfold Sram.tagOp
  simp only
  split
  · exact Sram.wf_setTag _ _ _ (Sram.wf_claim _ _ _ h)
  · simp only
    split
    · exact Sram.wf_setTag _ _ _ (Sram.wf_claim _ _ _ h)
    · exact Sram.wf_claim _ _ _ h
  · exact h

theorem Sram.wf_tableOp (m : Sram) (op : AccOp) (v : Word) (h : m.Wf) : (m.tableOp op v).2.Wf :=
  Sram.wf_of_cells (Sram.tableOp_cells _ _ _) h

/-- The checked bank operation keeps the canonical form, whatever its outcome. -/
theorem Sram.wf_checked (m : Sram) (p : Place) (a : Access) (again : Bool) (h : m.Wf) : (m.checked p a again).2.Wf := by
  unfold Sram.checked
  simp only
  split
  · exact h
  · split
    · exact h
    · split
      · exact h
      · split
        · show Sram.Wf (ite _ _ _)
          split
          · exact h
          · refine Sram.wf_update _ _ _ _ ?_
            split
            · exact Sram.wf_claim _ _ _ h
            · exact h
        · split
          · exact h
          · exact foldl_inv _ Sram.Wf (fun b w hb => Sram.wf_update _ _ _ _ hb) _ _ (Sram.wf_perform _ _ h)

/-! ## DRAM: each write keeps the canonical form -/

theorem Tab.isSome_find? {α : Type} (t : Tab α) (k : Nat) : (Tab.find? t k).isSome = true ↔ ∃ q ∈ t, q.1 = k := by
  induction t with
  | nil => simp [Tab.find?]
  | cons p t ih =>
    obtain ⟨k', v⟩ := p
    simp only [Tab.find?, List.mem_cons, exists_eq_or_imp]
    split
    · rename_i h; simp [h]
    · rename_i h
      rw [ih]
      constructor
      · exact .inr
      · rintro (e | e)
        · exact absurd e.symm h
        · exact e

/-- The canonical form of DRAM: a byte is listed exactly when its line has been written. -/
theorem Dram.wf_iff (d : Dram) : d.wf = true ↔ Tab.ascending d.cells = true ∧ Tab.ascending d.keys = true ∧
    ∀ a, (Tab.find? d.cells a).isSome = (Tab.find? d.keys (a / 64)).isSome := by
  simp only [Dram.wf, Bool.and_eq_true, List.all_eq_true, List.mem_range]
  constructor
  · rintro ⟨⟨⟨h1, h2⟩, h3⟩, h4⟩
    refine ⟨h1, h2, fun a => Bool.eq_iff_iff.mpr ⟨fun h => ?_, fun h => ?_⟩⟩
    · obtain ⟨q, hq, rfl⟩ := (Tab.isSome_find? _ _).mp h
      exact h3 q hq
    · obtain ⟨q, hq, e⟩ := (Tab.isSome_find? _ _).mp h
      have := h4 q hq (a % 64) (Nat.mod_lt _ (by decide))
      rw [e, Nat.div_add_mod] at this
      exact this
  · rintro ⟨h1, h2, h3⟩
    refine ⟨⟨⟨h1, h2⟩, fun c hc => ?_⟩, fun l hl i hi => ?_⟩
    · rw [← h3]; exact (Tab.isSome_find? _ _).mpr ⟨c, hc, rfl⟩
    · rw [h3, show (64 * l.1 + i) / 64 = l.1 by omega]
      exact (Tab.isSome_find? _ _).mpr ⟨l, hl, rfl⟩

theorem find?_listBytes (line : Nat) (v : BitVec 512) (n : Nat) (hn : n ≤ 64) (c : List Host.Cell) (a : Nat) :
    Tab.find? (listBytes line v n c) a = if a / 64 = line ∧ a % 64 < n then some (lineByte v (a % 64)) else Tab.find? c a := by
  unfold listBytes
  induction n with
  | zero => simp
  | succ n ih =>
    rw [List.range_succ, List.foldl_append, List.foldl_cons, List.foldl_nil, Tab.find?_set, ih (by omega)]
    by_cases h : a = 64 * line + n
    · have : a % 64 = n := by omega
      rw [if_pos h, if_pos (by omega), this]
    · rw [if_neg h]
      by_cases g : a / 64 = line ∧ a % 64 < n
      · rw [if_pos g, if_pos (by omega)]
      · rw [if_neg g, if_neg (by omega)]

theorem ascending_listBytes (line : Nat) (v : BitVec 512) (n : Nat) (c : List Host.Cell) (h : Tab.ascending c = true) :
    Tab.ascending (listBytes line v n c) = true :=
  foldl_inv _ (fun c => Tab.ascending c = true) (fun _ _ hc => Tab.ascending_set _ _ _ hc) (List.range n) c h

theorem Dram.setLine_cells (d : Dram) (key line : Nat) (v : BitVec 512) : (d.setLine key line v).cells = listBytes line v 64 d.cells := by
  simp only [Dram.setLine]
theorem Dram.setLine_keys (d : Dram) (key line : Nat) (v : BitVec 512) : (d.setLine key line v).keys = Tab.set line key d.keys := by
  simp only [Dram.setLine]

theorem Dram.wf_setLine (d : Dram) (key line : Nat) (v : BitVec 512) (h : d.wf = true) : (d.setLine key line v).wf = true := by
  obtain ⟨h1, h2, h3⟩ := (Dram.wf_iff d).mp h
  refine (Dram.wf_iff _).mpr ?_
  rw [Dram.setLine_cells, Dram.setLine_keys]
  refine ⟨ascending_listBytes _ _ _ _ h1, Tab.ascending_set _ _ _ h2, fun a => ?_⟩
  have m : a % 64 < 64 := Nat.mod_lt _ (by decide)
  rw [find?_listBytes _ _ _ (Nat.le_refl _), Tab.find?_set]
  by_cases g : a / 64 = line
  · rw [if_pos ⟨g, m⟩, if_pos g]; rfl
  · rw [if_neg (fun x => g x.1), if_neg g]; exact h3 a

theorem Dram.wf_claim (d : Dram) (key line : Nat) (h : d.wf = true) : (d.claim key line).wf = true := by
  unfold Dram.claim
  split
  · exact Dram.wf_setLine _ _ _ _ h
  · split
    · exact h
    · exact Dram.wf_setLine _ _ _ _ h

/-- After a claim the line stands under the key. -/
theorem Dram.key_claim (d : Dram) (key line : Nat) : Tab.find? (d.claim key line).keys line = some key := by
  unfold Dram.claim
  split
  · exact Tab.find?_set_same _ _ _
  · rename_i k e
    split
    · rename_i hk; rw [e, hk]
    · exact Tab.find?_set_same _ _ _

theorem Dram.wf_writeByte (d : Dram) (key pa : Nat) (b : Byte) (h : d.wf = true) : (d.writeByte key pa b).wf = true := by
  obtain ⟨h1, h2, h3⟩ := (Dram.wf_iff _).mp (Dram.wf_claim d key (pa / 64) h)
  refine (Dram.wf_iff _).mpr ⟨Tab.ascending_set _ _ _ h1, h2, fun a => ?_⟩
  show (Tab.find? (Tab.set pa b (d.claim key (pa / 64)).cells) a).isSome = (Tab.find? (d.claim key (pa / 64)).keys (a / 64)).isSome
  rw [Tab.find?_set]
  split
  · rename_i e; rw [e, Dram.key_claim]; rfl
  · exact h3 a

/-- Every write of bytes keeps DRAM in its canonical form. -/
theorem Dram.wf_write (d : Dram) (key pa n v : Nat) (h : d.wf = true) : (d.write key pa n v).wf = true := by
  induction n generalizing d pa v with
  | zero => exact h
  | succ n ih => exact ih _ _ _ (Dram.wf_writeByte _ _ _ _ h)

/-- The marks of a line are no part of its canonical form. -/
theorem Dram.wf_marks (d : Dram) (p : Tab (BitVec 64)) (f b : List Nat) : ({ d with poison := p, soft := f, bad := b } : Dram).wf = d.wf := rfl

theorem Dram.wf_mend (d : Dram) (a : Access) : (d.mend a).wf = d.wf := Dram.wf_marks d _ d.soft d.bad

theorem State.wf_writeBack (s : State) (q : Nat) (h : s.dram.wf = true) : (s.writeBack q).dram.wf = true := by
  simp only [State.writeBack]
  split
  · exact Dram.wf_write _ _ _ _ _ h
  · exact h

theorem State.wf_cacheQueue (s : State) (q : Nat) (h : s.dram.wf = true) : (s.cacheQueue q).dram.wf = true := by
  unfold State.cacheQueue
  split
  · exact h
  · simp only
    generalize s.qcache.filter (fun x => decide (x % 512 = q % 512)) = ways
    cases s.qcb q <;> cases ways with
    | nil => exact h
    | cons old t =>
      by_cases hl : 8 ≤ (old :: t).length
      · simp only [if_pos hl]; exact State.wf_writeBack _ old h
      · simp only [if_neg hl]; exact h

theorem State.setQueue_dram (s : State) (q : Nat) (r : Queue) : (s.setQueue q r).dram = (s.cacheQueue q).dram := by
  simp only [State.setQueue]

theorem State.wf_setQueue (s : State) (q : Nat) (r : Queue) (h : s.dram.wf = true) : (s.setQueue q r).dram.wf = true := by
  rw [State.setQueue_dram]; exact State.wf_cacheQueue s q h

theorem State.wf_notifyHook (s : State) (offs : List Nat) (word : Nat → Word) (h : s.dram.wf = true) :
    (s.notifyHook offs word).dram.wf = true := by
  unfold State.notifyHook
  refine foldl_inv _ (fun x : State => x.dram.wf = true) (fun x q hx => ?_) _ _ h
  split
  · split
    · simp only [State.setThread_dram]
      exact State.wf_setQueue x q.1 _ hx
    · exact hx
  · exact hx

/-- An error record is written into DRAM, or lost. -/
theorem State.wf_noteError (s : State) (kind : Nat) (p : Option Place) (o : BitVec 12) (addr : Nat) (h : s.dram.wf = true) :
    (s.noteError kind p o addr).dram.wf = true := by
  unfold State.noteError
  simp only [List.foldl_cons, List.foldl_nil, State.setThread_dram]
  split
  · exact Dram.wf_write _ _ _ _ _ h
  · exact h

theorem State.wf_meetLines (s : State) (lines : List Nat) (h : s.dram.wf = true) : (s.meetLines lines).dram.wf = true := by
  unfold State.meetLines
  refine foldl_inv _ (fun x : State => x.dram.wf = true) (fun x l hx => ?_) _ _ h
  simp only
  split
  · refine State.wf_noteError _ _ _ _ _ ?_
    rw [Dram.wf_marks x.dram _ x.dram.soft]; exact hx
  · split
    · refine State.wf_noteError _ _ _ _ _ ?_
      rw [Dram.wf_marks x.dram x.dram.poison _ x.dram.bad]; exact hx
    · exact hx

/-- An access at a memory-controller slice keeps DRAM in its canonical form. -/
theorem State.wf_dramOp (s : State) (a : Access) (h : s.dram.wf = true) : (s.dramOp a).2.dram.wf = true := by
  have met : (s.meetLines (linesOf a.esize a.elems)).dram.wf = true := State.wf_meetLines s _ h
  have stored (key : Nat) : (a.elems.foldl (fun r e => r.write key e.1 a.esize (a.laneOf e.2)) (s.meetLines (linesOf a.esize a.elems)).dram).wf = true :=
    foldl_inv _ (fun d : Dram => d.wf = true) (fun d e hd => Dram.wf_write _ _ _ _ _ hd) _ _ met
  unfold State.dramOp
  cases s.keyOf a.owner with
  | none => exact h
  | some key =>
    by_cases hp : s.dram.poisonedFor a = true
    · simp only [if_pos hp]; exact met
    · simp only [if_neg hp]
      cases a.op
      case store => refine State.wf_notifyHook _ _ _ ?_; rw [Dram.wf_mend]; exact stored key
      case amo op => refine State.wf_notifyHook _ _ _ ?_; rw [Dram.wf_mend]; exact Dram.wf_write _ _ _ _ _ met
      all_goals exact met

theorem State.reset_dram_wf : State.reset.dram.wf = true := rfl

end Sys2Proof.Machine
end

