-- ==== Sys2Proof/Laws/Ops.lean ====
section
/-! SUPPORT. What the shared operations do: reads of cores, threads and registers after an update, and one lemma for each way in which an
instruction of the current thread completes. -/

namespace Sys2Proof.Machine

/-! ## Cores and threads after an update -/

@[simp] theorem State.core_setCore_same (s : State) (n : Nat) (c : Core) : (s.setCore n c).core n = c := by
  simp [State.core, State.setCore]

theorem State.core_setCore_other (s : State) (n : Nat) (c : Core) (j : Nat) (h : j ≠ n) : (s.setCore n c).core j = s.core j := by
  simp [State.core, State.setCore, Tab.find?_set_other _ _ _ _ h]

@[simp] theorem State.thread_setThread_same (s : State) (h : Hart) (t : Thread) : (s.setThread h t).thread h = t := by
  simp [State.thread, State.setThread]

theorem State.thread_setThread_other (s : State) (h : Hart) (t : Thread) (g : Hart) (hg : g ≠ h) :
    (s.setThread h t).thread g = s.thread g := by
  by_cases hc : g.core = h.core
  · have ht : g.th ≠ h.th := by
      intro e; apply hg; cases g; cases h; simp_all
    simp [State.thread, State.setThread, hc, Tab.find?_set_other _ _ _ _ ht]
  · simp [State.thread, State.setThread, State.core_setCore_other _ _ _ _ hc]

@[simp] theorem State.me_setMe (s : State) (t : Thread) : (s.setMe t).me = t := by
  simp [State.me, State.setMe]

@[simp] theorem State.setCore_setCore (s : State) (n : Nat) (c c' : Core) : (s.setCore n c).setCore n c' = s.setCore n c' := by
  simp [State.setCore]

@[simp] theorem State.setThread_setThread (s : State) (h : Hart) (t u : Thread) : (s.setThread h t).setThread h u = s.setThread h u := by
  simp [State.setThread]

@[simp] theorem State.setMe_setMe (s : State) (t u : Thread) : (s.setMe t).setMe u = s.setMe u := by
  unfold State.setMe
  simp

@[simp] theorem State.core_setCluster (s : State) (n : Nat) (c : Cluster) (j : Nat) : (s.setCluster n c).core j = s.core j := rfl
@[simp] theorem State.cluster_setCore (s : State) (n : Nat) (c : Core) (j : Nat) : (s.setCore n c).cluster j = s.cluster j := rfl
@[simp] theorem State.cluster_setThread (s : State) (h : Hart) (t : Thread) (j : Nat) : (s.setThread h t).cluster j = s.cluster j := rfl
@[simp] theorem State.cluster_setMe (s : State) (t : Thread) (j : Nat) : (s.setMe t).cluster j = s.cluster j := rfl

/-- An update of a thread leaves every memory alone. -/
@[simp] theorem State.sram_setThread (s : State) (h : Hart) (t : Thread) (p : Place) : (s.setThread h t).sram p = s.sram p := by
  cases p with
  | cluster n => rfl
  | core n =>
    by_cases hn : n = h.core
    · subst hn; simp [State.sram, State.setThread]
    · simp [State.sram, State.setThread, State.core_setCore_other _ _ _ _ hn]

@[simp] theorem State.sram_setMe (s : State) (t : Thread) (p : Place) : (s.setMe t).sram p = s.sram p := State.sram_setThread _ _ _ _

theorem SameMemory.setMe (s : State) (t : Thread) : SameMemory s (s.setMe t) where
  bytes p a := by simp [State.byteAt]
  tags p w := by simp
  owners p l := by simp
  dram := rfl

/-- A machine that differs from s in the current thread alone is s with that thread. -/
theorem State.setMe_only (s : State) (u : Thread) : s.setMe u = s.setMe (s.setMe u).me := by simp

/-! ## Registers -/

theorem Thread.setX_zero (t : Thread) (v : Word) : t.setX 0 v = t := rfl

theorem Thread.getX_setX_same (t : Thread) (d : Fin 32) (v : Word) (h : d ≠ 0) : (t.setX d v).getX d = v := by
  have h0 : d.val ≠ 0 := fun e => h (Fin.ext e)
  unfold Thread.setX
  simp only [h0, ↓reduceIte]
  split
  · rename_i hh
    simp only [Bool.and_eq_true, decide_eq_true_eq] at hh
    unfold Thread.getX
    simp [h0, hh.1, hh.2]
  · rename_i hh
    unfold Thread.getX
    simp only [h0, ↓reduceIte]
    split
    · rename_i h2; exact absurd h2 hh
    · simp

theorem Thread.getX_setX_other (t : Thread) (d r : Fin 32) (v : Word) (h : r ≠ d) : (t.setX d v).getX r = t.getX r := by
  have hv : r.val ≠ d.val := fun e => h (Fin.ext e)
  unfold Thread.setX
  split
  · rfl
  · split
    · rename_i h1 h2
      simp only [Bool.and_eq_true, decide_eq_true_eq] at h2
      unfold Thread.getX
      simp only
      split
      · rfl
      · split
        · rename_i h4 h5
          simp only [Bool.and_eq_true, decide_eq_true_eq] at h5
          rw [Vector.getElem_set_ne]
          omega
        · rfl
    · unfold Thread.getX
      simp only
      split
      · rfl
      · split
        · rfl
        · rw [Vector.getElem_set_ne]
          omega

theorem Thread.XWritten.setX (t : Thread) (d : Fin 32) (v : Word) : t.XWritten (t.setX d v) d v where
  value h := Thread.getX_setX_same t d v h
  zero h := by subst h; exact ⟨rfl, rfl⟩
  others r h := Thread.getX_setX_other t d r v h
  hiddenH h := by
    unfold Thread.setX
    split
    · rfl
    · simp [h]
  hiddenX h r hr := by
    unfold Thread.setX
    split
    · rfl
    · split
      · rfl
      · rename_i h1 h2
        simp only [h, Bool.true_and, decide_eq_true_eq, not_le] at h2
        simp only
        rw [Vector.getElem_set_ne]
        omega

/-! ## Completion -/

theorem Thread.Passed.advance (u w : Thread) (len : Nat) (e1 : w.retired = u.retired) (e2 : w.pc = u.pc) (e3 : w.rep = u.rep)
    (e4 : w.level = u.level) (e5 : w.user.h = u.user.h) : u.Passed (w.advance len) len := by
  have er : ({ w with retired := w.retired + 1 } : Thread).repeat? = u.repeat? := by
    unfold Thread.repeat?; simp only [e3, e4, e5]
  constructor
  · simp [Thread.advance, e1]
  · intro hn
    unfold Thread.advance Thread.goto
    rw [er, hn]
    exact ⟨by rw [e2], e3⟩
  · intro r hr hne
    unfold Thread.advance Thread.goto
    rw [er, hr]
    simp only
    rw [if_neg (by rw [e2]; exact hne)]
    exact ⟨by rw [e2], e3⟩
  · intro r hr he hl
    unfold Thread.advance Thread.goto
    rw [er, hr]
    simp only
    rw [if_pos (by rw [e2]; exact he), if_neg (by omega)]
    exact ⟨rfl, rfl⟩
  · intro r hr he hl
    unfold Thread.advance Thread.goto
    rw [er, hr]
    simp only
    rw [if_pos (by rw [e2]; exact he), if_pos hl]
    exact ⟨by rw [e2], rfl⟩

theorem Thread.advance_kept (w : Thread) (len : Nat) :
    w.advance len = { w with pc := (w.advance len).pc, rep := (w.advance len).rep, retired := (w.advance len).retired } := by
  unfold Thread.advance Thread.goto
  split
  · rfl
  · split
    · split <;> rfl
    · rfl

theorem Thread.setX_kept (t : Thread) (d : Fin 32) (v : Word) : t.setX d v = { t with x := (t.setX d v).x, h := (t.setX d v).h } := by
  unfold Thread.setX
  split
  · rfl
  · split <;> rfl

theorem Thread.getX_advance (t : Thread) (n : Nat) (r : Fin 32) : (t.advance n).getX r = t.getX r := by
  unfold Thread.getX; simp

theorem Thread.getX_accrue (t : Thread) (f : BitVec 5) (r : Fin 32) : (t.accrue f).getX r = t.getX r := rfl

theorem Thread.XWritten.congr {u v w : Thread} {d : Fin 32} {x : Word} (h : u.XWritten v d x) (hx : w.x = v.x) (hh : w.h = v.h)
    (hu : w.user.h = v.user.h) : u.XWritten w d x := by
  have hg : ∀ r, w.getX r = v.getX r := by intro r; unfold Thread.getX; simp only [hx, hh, hu]
  constructor
  · intro hd; rw [hg]; exact h.value hd
  · intro hd; rw [hx, hh]; exact h.zero hd
  · intro r hr; rw [hg]; exact h.others r hr
  · intro hq; rw [hh]; exact h.hiddenH hq
  · intro hq r hr; simp only [hx]; exact h.hiddenX hq r hr

theorem Thread.accrue_zero (t : Thread) : t.accrue 0 = t := by
  have e : t.fflags ||| 0 = t.fflags := BitVec.or_zero
  unfold Thread.accrue
  rw [e]

/-- What an instruction that writes one register of class X and completes does. -/
theorem WritesX.retire (s : State) (d : Fin 32) (v : Word) (fl : BitVec 5) (len : Nat) :
    WritesX s (s.retire ((s.me.setX d v).accrue fl) len) d v fl len where
  only := by unfold State.retire; exact State.setMe_only _ _
  memory := SameMemory.setMe _ _
  passed := by
    unfold State.retire; rw [State.me_setMe]
    exact Thread.Passed.advance _ _ _ (by simp) (by simp) (by simp) (by simp) (by simp)
  written := by
    unfold State.retire; rw [State.me_setMe]
    exact (Thread.XWritten.setX s.me d v).congr (by simp) (by simp) (by simp)
  flags := by unfold State.retire; rw [State.me_setMe]; simp [Thread.accrue]
  kept := by
    unfold State.retire; rw [State.me_setMe]
    conv_lhs => rw [Thread.advance_kept]
    unfold Thread.accrue
    conv_lhs => rw [Thread.setX_kept]
    simp

theorem WritesX.retire0 (s : State) (d : Fin 32) (v : Word) (len : Nat) : WritesX s (s.retire (s.me.setX d v) len) d v 0 len := by
  have h := WritesX.retire s d v 0 len
  rwa [Thread.accrue_zero] at h

theorem WritesV.retire (s : State) (d : Fin 32) (v : Vec) (fl : BitVec 5) (len : Nat) :
    WritesV s (s.retire ((s.me.setV d v).accrue fl) len) d v fl len where
  only := by unfold State.retire; exact State.setMe_only _ _
  memory := SameMemory.setMe _ _
  passed := by
    unfold State.retire; rw [State.me_setMe]
    exact Thread.Passed.advance _ _ _ (by simp) (by simp) (by simp) (by simp) (by simp)
  value := by unfold State.retire; rw [State.me_setMe]; simp [Thread.getV, Thread.setV]
  others r hr := by
    have hv : d.val ≠ r.val := fun e => hr (Fin.ext e.symm)
    unfold State.retire; rw [State.me_setMe]; simp [Thread.getV, Thread.setV, Vector.getElem_set_ne, hv]
  flags := by unfold State.retire; rw [State.me_setMe]; simp [Thread.accrue]
  kept := by
    unfold State.retire; rw [State.me_setMe]
    conv_lhs => rw [Thread.advance_kept]
    simp [Thread.accrue, Thread.setV]

theorem WritesV.retire0 (s : State) (d : Fin 32) (v : Vec) (len : Nat) : WritesV s (s.retire (s.me.setV d v) len) d v 0 len := by
  have h := WritesV.retire s d v 0 len
  rwa [Thread.accrue_zero] at h

theorem WritesM.retire (s : State) (d : Fin 8) (v : Word32) (fl : BitVec 5) (len : Nat) :
    WritesM s (s.retire ((s.me.setM d v).accrue fl) len) d v fl len where
  only := by unfold State.retire; exact State.setMe_only _ _
  memory := SameMemory.setMe _ _
  passed := by
    unfold State.retire; rw [State.me_setMe]
    exact Thread.Passed.advance _ _ _ (by simp) (by simp) (by simp) (by simp) (by simp)
  value := by unfold State.retire; rw [State.me_setMe]; simp [Thread.getM, Thread.setM]
  others r hr := by
    have hv : d.val ≠ r.val := fun e => hr (Fin.ext e.symm)
    unfold State.retire; rw [State.me_setMe]; simp [Thread.getM, Thread.setM, Vector.getElem_set_ne, hv]
  flags := by unfold State.retire; rw [State.me_setMe]; simp [Thread.accrue]
  kept := by
    unfold State.retire; rw [State.me_setMe]
    conv_lhs => rw [Thread.advance_kept]
    simp [Thread.accrue, Thread.setM]

theorem WritesM.retire0 (s : State) (d : Fin 8) (v : Word32) (len : Nat) : WritesM s (s.retire (s.me.setM d v) len) d v 0 len := by
  have h := WritesM.retire s d v 0 len
  rwa [Thread.accrue_zero] at h

/-- What an instruction that only completes does. -/
theorem Passes.retire (s : State) (len : Nat) : Passes s (s.retire s.me len) len where
  only := by unfold State.retire; exact State.setMe_only _ _
  memory := SameMemory.setMe _ _
  passed := by
    unfold State.retire; rw [State.me_setMe]
    exact Thread.Passed.advance _ _ _ rfl rfl rfl rfl rfl
  kept := by
    unfold State.retire; rw [State.me_setMe]
    exact Thread.advance_kept _ _

/-- What a branch or jump without a link does. -/
theorem JumpsTo.jump (s : State) (target : Word) : JumpsTo s (s.setMe (s.me.jump target)) target none where
  only := State.setMe_only _ _
  memory := SameMemory.setMe _ _
  pc := by rw [State.me_setMe]; rfl
  retired := by rw [State.me_setMe]; rfl
  linked := by rw [State.me_setMe]; exact ⟨rfl, rfl⟩
  kept := by rw [State.me_setMe]; rfl

/-- What a jump with a link does. -/
theorem JumpsTo.link (s : State) (target : Word) (d : Fin 32) (v : Word) :
    JumpsTo s (s.setMe ((s.me.setX d v).jump target)) target (some (d, v)) where
  only := State.setMe_only _ _
  memory := SameMemory.setMe _ _
  pc := by rw [State.me_setMe]; rfl
  retired := by rw [State.me_setMe]; simp [Thread.jump]
  linked := by
    rw [State.me_setMe]
    exact (Thread.XWritten.setX s.me d v).congr rfl rfl rfl
  kept := by
    rw [State.me_setMe]
    unfold Thread.jump
    conv_lhs => rw [Thread.setX_kept]
    simp

/-- What an instruction that waits does. -/
theorem Waits.block (s : State) (w : Status) : ∃ t, s.block w = .next t ∧ Waits s t w :=
  ⟨_, rfl, State.setMe_only _ _, SameMemory.setMe _ _, by rw [State.me_setMe]⟩

end Sys2Proof.Machine
end

