-- ==== Sys2Proof/Laws/PerInstr.lean ====
section
/-! SUPPORT. The family LengthBit (R138, R141): bit 0 of an instruction's first halfword says whether it is a halfword or begins a word. One lemma for each
constructor. -/

namespace Sys2Proof

theorem append_bit {n m : Nat} (x : BitVec n) (y : BitVec m) (h : 0 < m) : (x ++ y).getLsbD 0 = y.getLsbD 0 := by
  rw [BitVec.getLsbD_append]; simp [h]

theorem lowByte_bit (m : Nat) (k : Bool) : (lowByte m k).getLsbD 0 = true := by
  cases k <;> exact (append_bit _ _ (by decide)).trans rfl

theorem gWord_bit (k : Bool) (m f d a b : Nat) : (gWord k m f d a b).getLsbD 0 = true :=
  (append_bit _ _ (by decide)).trans ((append_bit _ _ (by decide)).trans ((append_bit _ _ (by decide)).trans
    ((append_bit _ _ (by decide)).trans (lowByte_bit m k))))

theorem mWord_bit (k : Bool) (m f c1 c2 : Nat) (off : BitVec 9) : (mWord k m f c1 c2 off).getLsbD 0 = true :=
  (append_bit _ _ (by decide)).trans ((append_bit _ _ (by decide)).trans ((append_bit _ _ (by decide)).trans
    ((append_bit _ _ (by decide)).trans (lowByte_bit m k))))

theorem csrWord_bit (k : Bool) (f c : Nat) (n : BitVec 12) : (csrWord k f c n).getLsbD 0 = true :=
  (append_bit _ _ (by decide)).trans ((append_bit _ _ (by decide)).trans ((append_bit _ _ (by decide)).trans
    ((append_bit _ _ (by decide)).trans (lowByte_bit 7 k))))

theorem jWord_bit (k : Bool) (off : BitVec 24) : (jWord k off).getLsbD 0 = true := (append_bit _ _ (by decide)).trans (lowByte_bit 6 k)

theorem halfWord_bit (k : Bool) (op : Nat) (d s : Fin 32) : (halfWord k op d s).getLsbD 0 = false := by
  cases k <;> exact (append_bit _ _ (by decide)).trans ((append_bit _ _ (by decide)).trans ((append_bit _ _ (by decide)).trans
    ((append_bit _ _ (by decide)).trans rfl)))

end Sys2Proof

namespace Sys2Proof.Laws.LengthBit

/-- A well-formed halfword has bit 0 clear, and the first word of any other well-formed instruction has it set. -/
def Statement (i : Instr) : Prop :=
  i.check = none → match i.isHalf with
    | true => (encodeHalf i).getLsbD 0 = false
    | false => (encodeWord i).getLsbD 0 = true

theorem add (k : Bool) (d : Fin 32) (a : Opnd) (b : Opnd) : Statement (.add k d a b) := fun _ => gWord_bit ..
theorem sub (k : Bool) (d : Fin 32) (a : Opnd) (b : Opnd) : Statement (.sub k d a b) := fun _ => gWord_bit ..
theorem and (k : Bool) (d : Fin 32) (a : Opnd) (b : Opnd) : Statement (.and k d a b) := fun _ => gWord_bit ..
theorem or (k : Bool) (d : Fin 32) (a : Opnd) (b : Opnd) : Statement (.or k d a b) := fun _ => gWord_bit ..
theorem xor (k : Bool) (d : Fin 32) (a : Opnd) (b : Opnd) : Statement (.xor k d a b) := fun _ => gWord_bit ..
theorem andn (k : Bool) (d : Fin 32) (a : Opnd) (b : Opnd) : Statement (.andn k d a b) := fun _ => gWord_bit ..
theorem min (k : Bool) (d : Fin 32) (a : Opnd) (b : Opnd) : Statement (.min k d a b) := fun _ => gWord_bit ..
theorem max (k : Bool) (d : Fin 32) (a : Opnd) (b : Opnd) : Statement (.max k d a b) := fun _ => gWord_bit ..
theorem minu (k : Bool) (d : Fin 32) (a : Opnd) (b : Opnd) : Statement (.minu k d a b) := fun _ => gWord_bit ..
theorem maxu (k : Bool) (d : Fin 32) (a : Opnd) (b : Opnd) : Statement (.maxu k d a b) := fun _ => gWord_bit ..
theorem li (k : Bool) (d : Fin 32) (b : Opnd) : Statement (.li k d b) := fun _ => gWord_bit ..
theorem mul (k : Bool) (d : Fin 32) (a : Opnd) (b : Opnd) : Statement (.mul k d a b) := fun _ => gWord_bit ..
theorem mulh (k : Bool) (d : Fin 32) (a : Opnd) (b : Opnd) : Statement (.mulh k d a b) := fun _ => gWord_bit ..
theorem mulhu (k : Bool) (d : Fin 32) (a : Opnd) (b : Opnd) : Statement (.mulhu k d a b) := fun _ => gWord_bit ..
theorem div (k : Bool) (d : Fin 32) (a : Opnd) (b : Opnd) : Statement (.div k d a b) := fun _ => gWord_bit ..
theorem divu (k : Bool) (d : Fin 32) (a : Opnd) (b : Opnd) : Statement (.divu k d a b) := fun _ => gWord_bit ..
theorem rem (k : Bool) (d : Fin 32) (a : Opnd) (b : Opnd) : Statement (.rem k d a b) := fun _ => gWord_bit ..
theorem remu (k : Bool) (d : Fin 32) (a : Opnd) (b : Opnd) : Statement (.remu k d a b) := fun _ => gWord_bit ..
theorem sll (k : Bool) (d : Fin 32) (a : Opnd) (b : Opnd) : Statement (.sll k d a b) := fun _ => gWord_bit ..
theorem srl (k : Bool) (d : Fin 32) (a : Opnd) (b : Opnd) : Statement (.srl k d a b) := fun _ => gWord_bit ..
theorem sra (k : Bool) (d : Fin 32) (a : Opnd) (b : Opnd) : Statement (.sra k d a b) := fun _ => gWord_bit ..
theorem clz (k : Bool) (d : Fin 32) (a : Opnd) : Statement (.clz k d a) := fun _ => gWord_bit ..
theorem ctz (k : Bool) (d : Fin 32) (a : Opnd) : Statement (.ctz k d a) := fun _ => gWord_bit ..
theorem popc (k : Bool) (d : Fin 32) (a : Opnd) : Statement (.popc k d a) := fun _ => gWord_bit ..
theorem exts (k : Bool) (d : Fin 32) (a : Opnd) (b : Opnd) : Statement (.exts k d a b) := fun _ => gWord_bit ..
theorem extz (k : Bool) (d : Fin 32) (a : Opnd) (b : Opnd) : Statement (.extz k d a b) := fun _ => gWord_bit ..
theorem bfext (k : Bool) (d : Fin 32) (a : Opnd) (b : Opnd) : Statement (.bfext k d a b) := fun _ => gWord_bit ..
theorem bfins (k : Bool) (d : Fin 32) (a : Opnd) (b : Opnd) : Statement (.bfins k d a b) := fun _ => gWord_bit ..
theorem seq (k : Bool) (d : Fin 32) (a : Opnd) (b : Opnd) : Statement (.seq k d a b) := fun _ => gWord_bit ..
theorem slt (k : Bool) (d : Fin 32) (a : Opnd) (b : Opnd) : Statement (.slt k d a b) := fun _ => gWord_bit ..
theorem sltu (k : Bool) (d : Fin 32) (a : Opnd) (b : Opnd) : Statement (.sltu k d a b) := fun _ => gWord_bit ..
theorem sel (k : Bool) (d : Fin 32) (a : Opnd) (b : Opnd) : Statement (.sel k d a b) := fun _ => gWord_bit ..
theorem lea (k : Bool) (d : Fin 32) (b : Opnd) : Statement (.lea k d b) := fun _ => gWord_bit ..
theorem apcvt (k : Bool) (d : Fin 32) (a : Opnd) (b : Opnd) : Statement (.apcvt k d a b) := fun _ => gWord_bit ..
theorem aptest (k : Bool) (d : Fin 32) (a : Opnd) : Statement (.aptest k d a) := fun _ => gWord_bit ..
theorem beq (k : Bool) (a : Opnd) (b : Opnd) (off : BitVec 9) : Statement (.beq k a b off) := fun _ => mWord_bit ..
theorem bne (k : Bool) (a : Opnd) (b : Opnd) (off : BitVec 9) : Statement (.bne k a b off) := fun _ => mWord_bit ..
theorem blt (k : Bool) (a : Opnd) (b : Opnd) (off : BitVec 9) : Statement (.blt k a b off) := fun _ => mWord_bit ..
theorem bge (k : Bool) (a : Opnd) (b : Opnd) (off : BitVec 9) : Statement (.bge k a b off) := fun _ => mWord_bit ..
theorem bltu (k : Bool) (a : Opnd) (b : Opnd) (off : BitVec 9) : Statement (.bltu k a b off) := fun _ => mWord_bit ..
theorem bgeu (k : Bool) (a : Opnd) (b : Opnd) (off : BitVec 9) : Statement (.bgeu k a b off) := fun _ => mWord_bit ..
theorem jal (k : Bool) (a : Fin 32) (b : Opnd) (off : BitVec 9) : Statement (.jal k a b off) := fun _ => mWord_bit ..
theorem jalr (k : Bool) (a : Fin 32) (b : Opnd) (off : BitVec 9) : Statement (.jalr k a b off) := fun _ => mWord_bit ..
theorem j (k : Bool) (off : BitVec 24) : Statement (.j k off) := fun _ => jWord_bit ..
theorem csrr (k : Bool) (d : Fin 32) (csr : BitVec 12) : Statement (.csrr k d csr) := fun _ => csrWord_bit ..
theorem csrw (k : Bool) (d : Opnd) (csr : BitVec 12) : Statement (.csrw k d csr) := fun _ => csrWord_bit ..
theorem csrs (k : Bool) (d : Opnd) (csr : BitVec 12) : Statement (.csrs k d csr) := fun _ => csrWord_bit ..
theorem csrc (k : Bool) (d : Opnd) (csr : BitVec 12) : Statement (.csrc k d csr) := fun _ => csrWord_bit ..
theorem lb (k : Bool) (d : Fin 32) (base : Opnd) (off : BitVec 9) : Statement (.lb k d base off) := fun _ => mWord_bit ..
theorem lbu (k : Bool) (d : Fin 32) (base : Opnd) (off : BitVec 9) : Statement (.lbu k d base off) := fun _ => mWord_bit ..
theorem lh (k : Bool) (d : Fin 32) (base : Opnd) (off : BitVec 9) : Statement (.lh k d base off) := fun _ => mWord_bit ..
theorem lhu (k : Bool) (d : Fin 32) (base : Opnd) (off : BitVec 9) : Statement (.lhu k d base off) := fun _ => mWord_bit ..
theorem lw (k : Bool) (d : Fin 32) (base : Opnd) (off : BitVec 9) : Statement (.lw k d base off) := fun _ => mWord_bit ..
theorem lwu (k : Bool) (d : Fin 32) (base : Opnd) (off : BitVec 9) : Statement (.lwu k d base off) := fun _ => mWord_bit ..
theorem ld (k : Bool) (d : Fin 32) (base : Opnd) (off : BitVec 9) : Statement (.ld k d base off) := fun _ => mWord_bit ..
theorem sb (k : Bool) (d : Opnd) (base : Opnd) (off : BitVec 9) : Statement (.sb k d base off) := fun _ => mWord_bit ..
theorem sh (k : Bool) (d : Opnd) (base : Opnd) (off : BitVec 9) : Statement (.sh k d base off) := fun _ => mWord_bit ..
theorem sw (k : Bool) (d : Opnd) (base : Opnd) (off : BitVec 9) : Statement (.sw k d base off) := fun _ => mWord_bit ..
theorem sd (k : Bool) (d : Opnd) (base : Opnd) (off : BitVec 9) : Statement (.sd k d base off) := fun _ => mWord_bit ..
theorem loadAcquire (k : Bool) (d : Fin 32) (a : Opnd) (scope : Scope) (kind : LdKind) : Statement (.loadAcquire k d a scope kind) := fun _ => mWord_bit ..
theorem storeRelease (k : Bool) (d : Opnd) (a : Opnd) (scope : Scope) (kind : StKind) : Statement (.storeRelease k d a scope kind) := fun _ => mWord_bit ..
theorem fence (k : Bool) (scope : Scope) : Statement (.fence k scope) := fun _ => mWord_bit ..
theorem fenceX (k : Bool) : Statement (.fenceX k) := fun _ => mWord_bit ..
theorem amoadd (k : Bool) (d : Fin 32) (a : Opnd) (b : Opnd) (ord : Ord) : Statement (.amoadd k d a b ord) := fun _ => gWord_bit ..
theorem amoand (k : Bool) (d : Fin 32) (a : Opnd) (b : Opnd) (ord : Ord) : Statement (.amoand k d a b ord) := fun _ => gWord_bit ..
theorem amoor (k : Bool) (d : Fin 32) (a : Opnd) (b : Opnd) (ord : Ord) : Statement (.amoor k d a b ord) := fun _ => gWord_bit ..
theorem amoxor (k : Bool) (d : Fin 32) (a : Opnd) (b : Opnd) (ord : Ord) : Statement (.amoxor k d a b ord) := fun _ => gWord_bit ..
theorem amomin (k : Bool) (d : Fin 32) (a : Opnd) (b : Opnd) (ord : Ord) : Statement (.amomin k d a b ord) := fun _ => gWord_bit ..
theorem amomax (k : Bool) (d : Fin 32) (a : Opnd) (b : Opnd) (ord : Ord) : Statement (.amomax k d a b ord) := fun _ => gWord_bit ..
theorem amominu (k : Bool) (d : Fin 32) (a : Opnd) (b : Opnd) (ord : Ord) : Statement (.amominu k d a b ord) := fun _ => gWord_bit ..
theorem amomaxu (k : Bool) (d : Fin 32) (a : Opnd) (b : Opnd) (ord : Ord) : Statement (.amomaxu k d a b ord) := fun _ => gWord_bit ..
theorem amoswap (k : Bool) (d : Fin 32) (a : Opnd) (b : Opnd) (ord : Ord) : Statement (.amoswap k d a b ord) := fun _ => gWord_bit ..
theorem amocas (k : Bool) (d : Fin 32) (a : Opnd) (b : Opnd) (ord : Ord) : Statement (.amocas k d a b ord) := fun _ => gWord_bit ..
theorem amofadd (k : Bool) (d : Fin 32) (a : Opnd) (b : Opnd) (ord : Ord) : Statement (.amofadd k d a b ord) := fun _ => gWord_bit ..
theorem tld (k : Bool) (d : Fin 32) (a : Opnd) : Statement (.tld k d a) := fun _ => gWord_bit ..
theorem tst (k : Bool) (a : Opnd) (b : Opnd) : Statement (.tst k a b) := fun _ => gWord_bit ..
theorem tcas (k : Bool) (d : Fin 32) (a : Opnd) (b : Opnd) : Statement (.tcas k d a b) := fun _ => gWord_bit ..
theorem ttabWr (k : Bool) (a : Opnd) (b : Opnd) : Statement (.ttabWr k a b) := fun _ => gWord_bit ..
theorem ttabRd (k : Bool) (d : Fin 32) (a : Opnd) : Statement (.ttabRd k d a) := fun _ => gWord_bit ..
theorem ttabSwap (k : Bool) (a : Opnd) : Statement (.ttabSwap k a) := fun _ => gWord_bit ..
theorem msend (k : Bool) (a : Opnd) (b : Opnd) : Statement (.msend k a b) := fun _ => gWord_bit ..
theorem mrecv (k : Bool) (d : Fin 32) : Statement (.mrecv k d) := fun _ => gWord_bit ..
theorem mpoll (k : Bool) (d : Fin 32) : Statement (.mpoll k d) := fun _ => gWord_bit ..
theorem mloop (k : Bool) (d : Fin 32) (a : Opnd) : Statement (.mloop k d a) := fun _ => gWord_bit ..
theorem mcount (k : Bool) (d : Fin 32) : Statement (.mcount k d) := fun _ => gWord_bit ..
theorem sigEmit (k : Bool) (a : Opnd) (b : Opnd) : Statement (.sigEmit k a b) := fun _ => gWord_bit ..
theorem sigSkip (k : Bool) (a : Opnd) : Statement (.sigSkip k a) := fun _ => gWord_bit ..
theorem sigTest (k : Bool) (d : Fin 32) (a : Opnd) : Statement (.sigTest k d a) := fun _ => gWord_bit ..
theorem sigVal (k : Bool) (d : Fin 32) (a : Opnd) : Statement (.sigVal k d a) := fun _ => gWord_bit ..
theorem bpres (k : Bool) (a : Opnd) (b : Opnd) : Statement (.bpres k a b) := fun _ => gWord_bit ..
theorem babs (k : Bool) (a : Opnd) (b : Opnd) : Statement (.babs k a b) := fun _ => gWord_bit ..
theorem pause (k : Bool) : Statement (.pause k) := fun _ => gWord_bit ..
theorem dset (k : Bool) (d : Fin 16) (b : Opnd) : Statement (.dset k d b) := fun _ => gWord_bit ..
theorem dget (k : Bool) (d : Fin 32) (a : Fin 16) : Statement (.dget k d a) := fun _ => gWord_bit ..
theorem irec (k : Bool) (d : Fin 32) (b : Opnd) : Statement (.irec k d b) := fun _ => gWord_bit ..
theorem xsendAt (k : Bool) (a : Opnd) (b : Opnd) : Statement (.xsendAt k a b) := fun _ => gWord_bit ..
theorem xend (k : Bool) : Statement (.xend k) := fun _ => gWord_bit ..
theorem xslot (k : Bool) (d : Fin 32) : Statement (.xslot k d) := fun _ => gWord_bit ..
theorem vfadd (k : Bool) (d : Fin 32) (a : Opnd) (b : Opnd) (lt : FType) : Statement (.vfadd k d a b lt) := fun _ => gWord_bit ..
theorem vfsub (k : Bool) (d : Fin 32) (a : Opnd) (b : Opnd) (lt : FType) : Statement (.vfsub k d a b lt) := fun _ => gWord_bit ..
theorem vfmul (k : Bool) (d : Fin 32) (a : Opnd) (b : Opnd) (lt : FType) : Statement (.vfmul k d a b lt) := fun _ => gWord_bit ..
theorem vfma (k : Bool) (d : Fin 32) (a : Opnd) (b : Opnd) (lt : FType) : Statement (.vfma k d a b lt) := fun _ => gWord_bit ..
theorem vfmax (k : Bool) (d : Fin 32) (a : Opnd) (b : Opnd) (lt : FType) : Statement (.vfmax k d a b lt) := fun _ => gWord_bit ..
theorem vfmin (k : Bool) (d : Fin 32) (a : Opnd) (b : Opnd) (lt : FType) : Statement (.vfmin k d a b lt) := fun _ => gWord_bit ..
theorem vfcmpEq (k : Bool) (d : Fin 8) (a : Opnd) (b : Opnd) (lt : FType) : Statement (.vfcmpEq k d a b lt) := fun _ => gWord_bit ..
theorem vfcmpLt (k : Bool) (d : Fin 8) (a : Opnd) (b : Opnd) (lt : FType) : Statement (.vfcmpLt k d a b lt) := fun _ => gWord_bit ..
theorem vadd (k : Bool) (d : Fin 32) (a : Opnd) (b : Opnd) (w : Width) : Statement (.vadd k d a b w) := fun _ => gWord_bit ..
theorem vsub (k : Bool) (d : Fin 32) (a : Opnd) (b : Opnd) (w : Width) : Statement (.vsub k d a b w) := fun _ => gWord_bit ..
theorem vmul (k : Bool) (d : Fin 32) (a : Opnd) (b : Opnd) (w : Width) : Statement (.vmul k d a b w) := fun _ => gWord_bit ..
theorem vmin (k : Bool) (d : Fin 32) (a : Opnd) (b : Opnd) (w : Width) : Statement (.vmin k d a b w) := fun _ => gWord_bit ..
theorem vmax (k : Bool) (d : Fin 32) (a : Opnd) (b : Opnd) (w : Width) : Statement (.vmax k d a b w) := fun _ => gWord_bit ..
theorem vand (k : Bool) (d : Fin 32) (a : Opnd) (b : Opnd) (w : Width) : Statement (.vand k d a b w) := fun _ => gWord_bit ..
theorem vor (k : Bool) (d : Fin 32) (a : Opnd) (b : Opnd) (w : Width) : Statement (.vor k d a b w) := fun _ => gWord_bit ..
theorem vxor (k : Bool) (d : Fin 32) (a : Opnd) (b : Opnd) (w : Width) : Statement (.vxor k d a b w) := fun _ => gWord_bit ..
theorem vshl (k : Bool) (d : Fin 32) (a : Opnd) (b : Opnd) (w : Width) : Statement (.vshl k d a b w) := fun _ => gWord_bit ..
theorem vshr (k : Bool) (d : Fin 32) (a : Opnd) (b : Opnd) (w : Width) : Statement (.vshr k d a b w) := fun _ => gWord_bit ..
theorem vshra (k : Bool) (d : Fin 32) (a : Opnd) (b : Opnd) (w : Width) : Statement (.vshra k d a b w) := fun _ => gWord_bit ..
theorem vcmpEq (k : Bool) (d : Fin 8) (a : Opnd) (b : Opnd) (w : Width) : Statement (.vcmpEq k d a b w) := fun _ => gWord_bit ..
theorem vcmpLt (k : Bool) (d : Fin 8) (a : Opnd) (b : Opnd) (w : Width) : Statement (.vcmpLt k d a b w) := fun _ => gWord_bit ..
theorem vsel (k : Bool) (d : Fin 32) (a : Opnd) (b : Opnd) (w : Width) : Statement (.vsel k d a b w) := fun _ => gWord_bit ..
theorem vmov (k : Bool) (d : Fin 32) (b : Opnd) (w : Width) : Statement (.vmov k d b w) := fun _ => gWord_bit ..
theorem vbcast (k : Bool) (d : Fin 32) (b : Opnd) (w : Width) : Statement (.vbcast k d b w) := fun _ => gWord_bit ..
theorem vfadd16 (k : Bool) (d s : Fin 32) : Statement (.vfadd16 k d s) := fun _ => halfWord_bit ..
theorem vfsub16 (k : Bool) (d s : Fin 32) : Statement (.vfsub16 k d s) := fun _ => halfWord_bit ..
theorem vfmul16 (k : Bool) (d s : Fin 32) : Statement (.vfmul16 k d s) := fun _ => halfWord_bit ..
theorem vfmax16 (k : Bool) (d s : Fin 32) : Statement (.vfmax16 k d s) := fun _ => halfWord_bit ..
theorem vfmin16 (k : Bool) (d s : Fin 32) : Statement (.vfmin16 k d s) := fun _ => halfWord_bit ..
theorem vadd16 (k : Bool) (d s : Fin 32) : Statement (.vadd16 k d s) := fun _ => halfWord_bit ..
theorem vsub16 (k : Bool) (d s : Fin 32) : Statement (.vsub16 k d s) := fun _ => halfWord_bit ..
theorem vmul16 (k : Bool) (d s : Fin 32) : Statement (.vmul16 k d s) := fun _ => halfWord_bit ..
theorem vand16 (k : Bool) (d s : Fin 32) : Statement (.vand16 k d s) := fun _ => halfWord_bit ..
theorem vor16 (k : Bool) (d s : Fin 32) : Statement (.vor16 k d s) := fun _ => halfWord_bit ..
theorem vxor16 (k : Bool) (d s : Fin 32) : Statement (.vxor16 k d s) := fun _ => halfWord_bit ..
theorem vshl16 (k : Bool) (d s : Fin 32) : Statement (.vshl16 k d s) := fun _ => halfWord_bit ..
theorem vshr16 (k : Bool) (d s : Fin 32) : Statement (.vshr16 k d s) := fun _ => halfWord_bit ..
theorem vshra16 (k : Bool) (d s : Fin 32) : Statement (.vshra16 k d s) := fun _ => halfWord_bit ..
theorem vmax16 (k : Bool) (d s : Fin 32) : Statement (.vmax16 k d s) := fun _ => halfWord_bit ..
theorem vmov16 (k : Bool) (d s : Fin 32) : Statement (.vmov16 k d s) := fun _ => halfWord_bit ..
theorem vcvt (k : Bool) (d : Fin 32) (a : Opnd) (src : LType) (t : LType) : Statement (.vcvt k d a src t) := fun _ => gWord_bit ..
theorem vquant (k : Bool) (d : Fin 32) (a : Fin 32) (b : Fin 32) (pk : Pack) : Statement (.vquant k d a b pk) := fun _ => gWord_bit ..
theorem vdeq (k : Bool) (d : Fin 32) (a : Opnd) (b : Fin 32) (pk : Pack) : Statement (.vdeq k d a b pk) := fun _ => gWord_bit ..
theorem vpack (k : Bool) (d : Fin 32) (a : Opnd) (b : Opnd) (t : LType) : Statement (.vpack k d a b t) := fun _ => gWord_bit ..
theorem vunpack (k : Bool) (d : Fin 32) (a : Opnd) (part : Fin 8) (t : LType) : Statement (.vunpack k d a part t) := fun _ => gWord_bit ..
theorem vperm (k : Bool) (d : Fin 32) (a : Opnd) (b : Opnd) (lt : LType) : Statement (.vperm k d a b lt) := fun _ => gWord_bit ..
theorem vshuf (k : Bool) (d : Fin 32) (a : Opnd) (b : Opnd) (lt : LType) : Statement (.vshuf k d a b lt) := fun _ => gWord_bit ..
theorem vred (k : Bool) (d : Fin 32) (a : Opnd) (red : RedOp) (lt : LType) : Statement (.vred k d a red lt) := fun _ => gWord_bit ..
theorem vscan (k : Bool) (d : Fin 32) (a : Opnd) (red : RedOp) (lt : LType) : Statement (.vscan k d a red lt) := fun _ => gWord_bit ..
theorem vextr (k : Bool) (d : Fin 32) (a : Opnd) (b : Opnd) (lt : LType) : Statement (.vextr k d a b lt) := fun _ => gWord_bit ..
theorem vins (k : Bool) (d : Fin 32) (a : Opnd) (b : Opnd) (lt : LType) : Statement (.vins k d a b lt) := fun _ => gWord_bit ..
theorem vld (k : Bool) (d : Fin 32) (a : Opnd) (b : Opnd) (e : Width) (col : Bool) : Statement (.vld k d a b e col) := fun _ => gWord_bit ..
theorem vst (k : Bool) (d : Opnd) (a : Opnd) (b : Opnd) (e : Width) (col : Bool) : Statement (.vst k d a b e col) := fun _ => gWord_bit ..
theorem vlds (k : Bool) (d : Fin 32) (a : Opnd) (b : Opnd) (e : Width) : Statement (.vlds k d a b e) := fun _ => gWord_bit ..
theorem vsts (k : Bool) (d : Opnd) (a : Opnd) (b : Opnd) (e : Width) : Statement (.vsts k d a b e) := fun _ => gWord_bit ..
theorem vldx (k : Bool) (d : Fin 32) (a : Opnd) (b : Opnd) (e : Width) : Statement (.vldx k d a b e) := fun _ => gWord_bit ..
theorem vstx (k : Bool) (d : Opnd) (a : Opnd) (b : Opnd) (e : Width) : Statement (.vstx k d a b e) := fun _ => gWord_bit ..
theorem sgCfg (k : Bool) (d : Fin 4) (a : Opnd) (b : Opnd) : Statement (.sgCfg k d a b) := fun _ => gWord_bit ..
theorem sgIdx (k : Bool) (d : Fin 32) (a : Fin 4) : Statement (.sgIdx k d a) := fun _ => gWord_bit ..
theorem sgStop (k : Bool) (a : Fin 4) : Statement (.sgStop k a) := fun _ => gWord_bit ..
theorem sread (k : Bool) (d : Fin 32) (a : Fin 4) : Statement (.sread k d a) := fun _ => gWord_bit ..
theorem swrite (k : Bool) (d : Fin 4) (a : Opnd) : Statement (.swrite k d a) := fun _ => gWord_bit ..
theorem rep (k : Bool) (a : Opnd) (b : Opnd) : Statement (.rep k a b) := fun _ => gWord_bit ..
theorem vfexp2 (k : Bool) (d : Fin 32) (a : Opnd) : Statement (.vfexp2 k d a) := fun _ => gWord_bit ..
theorem vfrcp (k : Bool) (d : Fin 32) (a : Opnd) : Statement (.vfrcp k d a) := fun _ => gWord_bit ..
theorem vfrsq (k : Bool) (d : Fin 32) (a : Opnd) : Statement (.vfrsq k d a) := fun _ => gWord_bit ..
theorem vflog2 (k : Bool) (d : Fin 32) (a : Opnd) : Statement (.vflog2 k d a) := fun _ => gWord_bit ..
theorem vfabs (k : Bool) (d : Fin 32) (a : Opnd) (lt : FType) : Statement (.vfabs k d a lt) := fun _ => gWord_bit ..
theorem vfneg (k : Bool) (d : Fin 32) (a : Opnd) (lt : FType) : Statement (.vfneg k d a lt) := fun _ => gWord_bit ..
theorem vfcmpLe (k : Bool) (d : Fin 8) (a : Opnd) (b : Opnd) (lt : FType) : Statement (.vfcmpLe k d a b lt) := fun _ => gWord_bit ..
theorem vfcmpUn (k : Bool) (d : Fin 8) (a : Opnd) (b : Opnd) (lt : FType) : Statement (.vfcmpUn k d a b lt) := fun _ => gWord_bit ..
theorem mset (k : Bool) (d : Fin 8) (b : Opnd) : Statement (.mset k d b) := fun _ => gWord_bit ..
theorem mand (k : Bool) (d : Fin 8) (a : Opnd) (b : Opnd) : Statement (.mand k d a b) := fun _ => gWord_bit ..
theorem mor (k : Bool) (d : Fin 8) (a : Opnd) (b : Opnd) : Statement (.mor k d a b) := fun _ => gWord_bit ..
theorem mnot (k : Bool) (d : Fin 8) (a : Opnd) : Statement (.mnot k d a) := fun _ => gWord_bit ..
theorem mpopc (k : Bool) (d : Fin 32) (a : Opnd) : Statement (.mpopc k d a) := fun _ => gWord_bit ..
theorem mfirst (k : Bool) (d : Fin 32) (a : Opnd) : Statement (.mfirst k d a) := fun _ => gWord_bit ..
theorem mxCfg (k : Bool) (a : Opnd) (b : Opnd) (mf : MFmt) : Statement (.mxCfg k a b mf) := fun _ => gWord_bit ..
theorem mxLdw (k : Bool) (a : Opnd) (b : Opnd) : Statement (.mxLdw k a b) := fun _ => gWord_bit ..
theorem mxSwap (k : Bool) : Statement (.mxSwap k) := fun _ => gWord_bit ..
theorem mxDup (k : Bool) (a : Opnd) : Statement (.mxDup k a) := fun _ => gWord_bit ..
theorem mxStream (k : Bool) (d : Fin 4) (a : Opnd) (b : Opnd) : Statement (.mxStream k d a b) := fun _ => gWord_bit ..
theorem mxZero (k : Bool) (d : Fin 4) : Statement (.mxZero k d) := fun _ => gWord_bit ..
theorem mxDrain (k : Bool) (d : Fin 4) (a : Opnd) (b : Opnd) : Statement (.mxDrain k d a b) := fun _ => gWord_bit ..
theorem dret (k : Bool) : Statement (.dret k) := fun _ => gWord_bit ..
theorem mxWait (k : Bool) : Statement (.mxWait k) := fun _ => gWord_bit ..
theorem attnQld (k : Bool) (a : Opnd) (b : Opnd) : Statement (.attnQld k a b) := fun _ => gWord_bit ..
theorem attnRun (k : Bool) (a : Opnd) (b : Opnd) : Statement (.attnRun k a b) := fun _ => gWord_bit ..
theorem attnMerge (k : Bool) (a : Opnd) : Statement (.attnMerge k a) := fun _ => gWord_bit ..
theorem attnFin (k : Bool) (a : Opnd) (b : Opnd) : Statement (.attnFin k a b) := fun _ => gWord_bit ..
theorem attnSt (k : Bool) (a : Opnd) : Statement (.attnSt k a) := fun _ => gWord_bit ..
theorem cmAppend (k : Bool) (a : Opnd) : Statement (.cmAppend k a) := fun _ => gWord_bit ..
theorem cmFill (k : Bool) (d : Fin 32) (a : Opnd) (b : Opnd) : Statement (.cmFill k d a b) := fun _ => gWord_bit ..
theorem cmFree (k : Bool) (d : Fin 32) (a : Opnd) (b : Opnd) : Statement (.cmFree k d a b) := fun _ => gWord_bit ..
theorem cmLookup (k : Bool) (d : Fin 32) (a : Opnd) (b : Opnd) : Statement (.cmLookup k d a b) := fun _ => gWord_bit ..
theorem cmShare (k : Bool) (d : Fin 32) (a : Opnd) : Statement (.cmShare k d a) := fun _ => gWord_bit ..
theorem cmInval (k : Bool) : Statement (.cmInval k) := fun _ => gWord_bit ..
theorem xfGo (k : Bool) (d : Fin 32) : Statement (.xfGo k d) := fun _ => gWord_bit ..
theorem xfCancel (k : Bool) (d : Fin 32) (a : Opnd) : Statement (.xfCancel k d a) := fun _ => gWord_bit ..
theorem yield (k : Bool) : Statement (.yield k) := fun _ => gWord_bit ..
theorem nexit (k : Bool) : Statement (.nexit k) := fun _ => gWord_bit ..
theorem phint (k : Bool) (a : Opnd) (b : Opnd) : Statement (.phint k a b) := fun _ => gWord_bit ..
theorem uiret (k : Bool) : Statement (.uiret k) := fun _ => gWord_bit ..
theorem fadd (k : Bool) (d : Fin 32) (a : Opnd) (b : Opnd) (p : Bool) : Statement (.fadd k d a b p) := fun _ => gWord_bit ..
theorem fsub (k : Bool) (d : Fin 32) (a : Opnd) (b : Opnd) (p : Bool) : Statement (.fsub k d a b p) := fun _ => gWord_bit ..
theorem fmul (k : Bool) (d : Fin 32) (a : Opnd) (b : Opnd) (p : Bool) : Statement (.fmul k d a b p) := fun _ => gWord_bit ..
theorem ffma (k : Bool) (d : Fin 32) (a : Opnd) (b : Opnd) (p : Bool) : Statement (.ffma k d a b p) := fun _ => gWord_bit ..
theorem fdiv (k : Bool) (d : Fin 32) (a : Opnd) (b : Opnd) (p : Bool) : Statement (.fdiv k d a b p) := fun _ => gWord_bit ..
theorem fsqrt (k : Bool) (d : Fin 32) (a : Opnd) (p : Bool) : Statement (.fsqrt k d a p) := fun _ => gWord_bit ..
theorem fmin (k : Bool) (d : Fin 32) (a : Opnd) (b : Opnd) (p : Bool) : Statement (.fmin k d a b p) := fun _ => gWord_bit ..
theorem fmax (k : Bool) (d : Fin 32) (a : Opnd) (b : Opnd) (p : Bool) : Statement (.fmax k d a b p) := fun _ => gWord_bit ..
theorem fcmpEq (k : Bool) (d : Fin 32) (a : Opnd) (b : Opnd) (p : Bool) : Statement (.fcmpEq k d a b p) := fun _ => gWord_bit ..
theorem fcmpLt (k : Bool) (d : Fin 32) (a : Opnd) (b : Opnd) (p : Bool) : Statement (.fcmpLt k d a b p) := fun _ => gWord_bit ..
theorem fcmpLe (k : Bool) (d : Fin 32) (a : Opnd) (b : Opnd) (p : Bool) : Statement (.fcmpLe k d a b p) := fun _ => gWord_bit ..
theorem fcvtPrecision (k : Bool) (d : Fin 32) (a : Opnd) (p : Bool) : Statement (.fcvtPrecision k d a p) := fun _ => gWord_bit ..
theorem fcvtToInt (k : Bool) (d : Fin 32) (a : Opnd) (p : Bool) : Statement (.fcvtToInt k d a p) := fun _ => gWord_bit ..
theorem fcvtFromInt (k : Bool) (d : Fin 32) (a : Opnd) (p : Bool) : Statement (.fcvtFromInt k d a p) := fun _ => gWord_bit ..
theorem ecall (k : Bool) : Statement (.ecall k) := fun _ => gWord_bit ..
theorem ebreak (k : Bool) : Statement (.ebreak k) := fun _ => gWord_bit ..
theorem mret (k : Bool) : Statement (.mret k) := fun _ => gWord_bit ..
theorem sret (k : Bool) : Statement (.sret k) := fun _ => gWord_bit ..
theorem wfi (k : Bool) : Statement (.wfi k) := fun _ => gWord_bit ..
theorem tlbWr (k : Bool) (d : Fin 32) (a : Opnd) (b : Opnd) : Statement (.tlbWr k d a b) := fun _ => gWord_bit ..
theorem tlbInv (k : Bool) (d : Fin 32) (a : Opnd) (b : Opnd) : Statement (.tlbInv k d a b) := fun _ => gWord_bit ..
theorem xlateDrain (k : Bool) (a : Opnd) (b : Opnd) : Statement (.xlateDrain k a b) := fun _ => gWord_bit ..
theorem mxSave (k : Bool) (a : Opnd) : Statement (.mxSave k a) := fun _ => gWord_bit ..
theorem mxLoad (k : Bool) (d : Fin 32) (a : Opnd) : Statement (.mxLoad k d a) := fun _ => gWord_bit ..
theorem ctxHalt (k : Bool) (d : Fin 32) (a : Opnd) (b : Opnd) : Statement (.ctxHalt k d a b) := fun _ => gWord_bit ..
theorem ctxSave (k : Bool) (d : Fin 32) (a : Opnd) (b : Opnd) : Statement (.ctxSave k d a b) := fun _ => gWord_bit ..
theorem registerWrite (core th : Nat) (csr : BitVec 12) (v : BitVec 64) : Statement (.registerWrite core th csr v) := fun h => nomatch h
theorem tagmapWrite (core : Nat) (reg : Fin 8) (v : BitVec 64) : Statement (.tagmapWrite core reg v) := fun h => nomatch h
theorem bankfmtWrite (core : Nat) (bank : Fin 16) (v : BitVec 64) : Statement (.bankfmtWrite core bank v) := fun h => nomatch h
theorem remoteAccessArrival (id : Nat) : Statement (.remoteAccessArrival id) := fun h => nomatch h
theorem storeAcknowledge (id : Nat) (refused : Bool) : Statement (.storeAcknowledge id refused) := fun h => nomatch h
theorem parkRecheck (place bank : Nat) : Statement (.parkRecheck place bank) := fun h => nomatch h
theorem heldAccessRecheck (id : Nat) : Statement (.heldAccessRecheck id) := fun h => nomatch h
theorem inboxArrival (id : Nat) : Statement (.inboxArrival id) := fun h => nomatch h
theorem spillWake (core : Nat) : Statement (.spillWake core) := fun h => nomatch h
theorem userInterruptEntry (core th : Nat) : Statement (.userInterruptEntry core th) := fun h => nomatch h
theorem interruptTake (core th : Nat) : Statement (.interruptTake core th) := fun h => nomatch h
theorem trapReportDelivery (hub : Nat) : Statement (.trapReportDelivery hub) := fun h => nomatch h
theorem resolveRetry (hub : Nat) : Statement (.resolveRetry hub) := fun h => nomatch h
theorem resolveSkip (hub : Nat) : Statement (.resolveSkip hub) := fun h => nomatch h
theorem resolveAbort (hub : Nat) : Statement (.resolveAbort hub) := fun h => nomatch h
theorem causalityCycle (dom : Nat) : Statement (.causalityCycle dom) := fun h => nomatch h
theorem reactHalfEnd (dom : Nat) : Statement (.reactHalfEnd dom) := fun h => nomatch h
theorem exchangeHalfStart (dom : Nat) : Statement (.exchangeHalfStart dom) := fun h => nomatch h
theorem exchangeBeatSend (dom : Nat) : Statement (.exchangeBeatSend dom) := fun h => nomatch h
theorem exchangeArrival (dom : Nat) : Statement (.exchangeArrival dom) := fun h => nomatch h
theorem latch (dom : Nat) : Statement (.latch dom) := fun h => nomatch h
theorem matrixCommandStart (core : Nat) : Statement (.matrixCommandStart core) := fun h => nomatch h
theorem drainDispatch (core : Nat) : Statement (.drainDispatch core) := fun h => nomatch h
theorem transferStart (cluster : Nat) : Statement (.transferStart cluster) := fun h => nomatch h
theorem transferCompletion (cluster : Nat) (id : BitVec 64) : Statement (.transferCompletion cluster id) := fun h => nomatch h
theorem tlbMissMessage (core : Nat) : Statement (.tlbMissMessage core) := fun h => nomatch h
theorem dirtyNotice (core : Nat) : Statement (.dirtyNotice core) := fun h => nomatch h
theorem gridDeadlock (gid : Nat) : Statement (.gridDeadlock gid) := fun h => nomatch h
theorem haltWatchdog (ctx : Nat) : Statement (.haltWatchdog ctx) := fun h => nomatch h
theorem runTimeLimit (gid : Nat) : Statement (.runTimeLimit gid) := fun h => nomatch h
theorem notifyScan (q : Nat) : Statement (.notifyScan q) := fun h => nomatch h
theorem periodicQueueScan (q : Nat) : Statement (.periodicQueueScan q) := fun h => nomatch h
theorem packetLaunch (q : Nat) : Statement (.packetLaunch q) := fun h => nomatch h
theorem packetNop (q : Nat) : Statement (.packetNop q) := fun h => nomatch h
theorem packetMark (q : Nat) : Statement (.packetMark q) := fun h => nomatch h
theorem packetQueueCreate (q : Nat) : Statement (.packetQueueCreate q) := fun h => nomatch h
theorem packetQueueDestroy (q : Nat) : Statement (.packetQueueDestroy q) := fun h => nomatch h
theorem groupDispatch (gid : Nat) : Statement (.groupDispatch gid) := fun h => nomatch h
theorem gridCompletion (gid : Nat) : Statement (.gridCompletion gid) := fun h => nomatch h
theorem errorEvent (gid : Nat) : Statement (.errorEvent gid) := fun h => nomatch h
theorem saveEngine (ctx : Nat) : Statement (.saveEngine ctx) := fun h => nomatch h
theorem restoreRequest (fn : Nat) (image : BitVec 64) (part : Nat) : Statement (.restoreRequest fn image part) := fun h => nomatch h
theorem scrubRead (memory unit off : Nat) : Statement (.scrubRead memory unit off) := fun h => nomatch h
theorem bankFailed (core bank : Nat) (selfTest : Bool) : Statement (.bankFailed core bank selfTest) := fun h => nomatch h
theorem clockStretch (block : Nat) : Statement (.clockStretch block) := fun h => nomatch h
theorem keyLoad (fn owner : Nat) (wrapped debugKey : BitVec 576) : Statement (.keyLoad fn owner wrapped debugKey) := fun h => nomatch h
theorem keyClear (owner : Nat) : Statement (.keyClear owner) := fun h => nomatch h
theorem getVersion (fn : Nat) (r : Spdm.Fields) : Statement (.getVersion fn r) := fun h => nomatch h
theorem getCapabilities (fn : Nat) (r : Spdm.Fields) : Statement (.getCapabilities fn r) := fun h => nomatch h
theorem negotiateAlgorithms (fn : Nat) (r : Spdm.Fields) : Statement (.negotiateAlgorithms fn r) := fun h => nomatch h
theorem getDigests (fn : Nat) (r : Spdm.Fields) : Statement (.getDigests fn r) := fun h => nomatch h
theorem getCertificate (fn : Nat) (r : Spdm.Fields) : Statement (.getCertificate fn r) := fun h => nomatch h
theorem challenge (fn : Nat) (r : Spdm.Fields) : Statement (.challenge fn r) := fun h => nomatch h
theorem getMeasurements (fn : Nat) (r : Spdm.Fields) : Statement (.getMeasurements fn r) := fun h => nomatch h
theorem spdmUnsupportedRequest (fn : Nat) (r : Spdm.Fields) : Statement (.spdmUnsupportedRequest fn r) := fun h => nomatch h
theorem debugNonce : Statement .debugNonce := fun h => nomatch h
theorem debugUnlock (owner : Nat) (nonce : BitVec 256) (signature : BitVec 912) : Statement (.debugUnlock owner nonce signature) := fun h => nomatch h
theorem debugArm (ctx : Nat) (terms : ArmTerms) : Statement (.debugArm ctx terms) := fun h => nomatch h
theorem debugStop (ctx interval thread count : Nat) : Statement (.debugStop ctx interval thread count) := fun h => nomatch h
theorem debugStopReached (ctx : Nat) : Statement (.debugStopReached ctx) := fun h => nomatch h
theorem debugRead (ctx type key : Nat) : Statement (.debugRead ctx type key) := fun h => nomatch h
theorem debugResume (ctx : Nat) : Statement (.debugResume ctx) := fun h => nomatch h
theorem debugDisarm (ctx : Nat) : Statement (.debugDisarm ctx) := fun h => nomatch h
theorem runLengthLogAppend (core thread run : Nat) : Statement (.runLengthLogAppend core thread run) := fun h => nomatch h
theorem functionLevelReset (fn : Nat) : Statement (.functionLevelReset fn) := fun h => nomatch h
theorem bar2Access (fn addr : Nat) (size : Fin 65) (write : Option (BitVec 512)) : Statement (.bar2Access fn addr size write) := fun h => nomatch h
theorem devidWrite (v : BitVec 64) : Statement (.devidWrite v) := fun h => nomatch h
theorem flitSend (port vc : Nat) (f : Flit) : Statement (.flitSend port vc f) := fun h => nomatch h
theorem flitReceive (port : Nat) (f : Flit) (tagOk : Bool) : Statement (.flitReceive port f tagOk) := fun h => nomatch h
theorem auditFlit (port vc : Nat) (free seq : Nat) : Statement (.auditFlit port vc free seq) := fun h => nomatch h
theorem partclWrite (n : Fin 64) (j : Fin 4) (v : BitVec 64) : Statement (.partclWrite n j v) := fun h => nomatch h
theorem orbitWrite (slot : Fin 64) (v : BitVec 64) : Statement (.orbitWrite slot v) := fun h => nomatch h
theorem orbitUpdateApply : Statement .orbitUpdateApply := fun h => nomatch h
theorem gdwdWrite (n : Fin 64) (v : BitVec 64) : Statement (.gdwdWrite n v) := fun h => nomatch h
theorem partownWrite (n : Fin 64) (v : BitVec 64) : Statement (.partownWrite n v) := fun h => nomatch h
theorem haltwdWrite (n : Fin 64) (v : BitVec 64) : Statement (.haltwdWrite n v) := fun h => nomatch h
theorem bringUp (cfg : BringUp) : Statement (.bringUp cfg) := fun h => nomatch h
theorem remoteAccessReply (id : Nat) (peer : Option (BitVec 512)) : Statement (.remoteAccessReply id peer) := fun h => nomatch h
theorem matrixCommandCompletion (core : Nat) : Statement (.matrixCommandCompletion core) := fun h => nomatch h
theorem monitorTimerExpiry (core : Nat) : Statement (.monitorTimerExpiry core) := fun h => nomatch h
theorem schedulerTimerExpiry (core : Nat) : Statement (.schedulerTimerExpiry core) := fun h => nomatch h
theorem illegalInstruction (pattern : BitVec 32) : Statement (.illegalInstruction pattern) := fun h => nomatch h
theorem instructionFetchFault (page : Bool) (value : BitVec 64) : Statement (.instructionFetchFault page value) := fun h => nomatch h

end Sys2Proof.Laws.LengthBit
end

