-- ==== Sys2Proof/Tests/Slice0.lean ====
section
/-! SUPPORT. The model's own tests: words written out from the spec's encodings, the checks of WellFormed, the spec's own examples, and for each statement
with hypotheses a state that meets them. -/

namespace Sys2Proof.Tests

open Sys2Proof Sys2Proof.Machine

-- One theorem at a time, so that the stacks of Lean's threads stay within the memory.
set_option Elab.async false

/-! ## Words that the spec works out (Tables 10.9, 11.2, 12.4, 13.3, 14.3, 15.2 and 22.2) -/

theorem test_decode_alu :
    decodeTableWord 32 0x84D34103 = some (.sub true 13 (.reg 13) (.const 1)) ∧
    decodeTableWord 64 0x000186A0F8514003 = some (.add true 5 (.reg 5) (.lit32 100000)) ∧
    decodeTableWord 96 0x0000000100000000FC020A03 = some (.li true 8 (.lit64 0x100000000)) := by decide

theorem test_decode_multiply :
    decodeTableWord 32 0x14518005 = some (.mul false 6 (.reg 5) (.reg 5)) := by decide

theorem test_decode_shift :
    decodeTableWord 32 0x9051C10B = some (.srl true 7 (.reg 5) (.const 4)) := by decide

theorem test_decode_branch :
    decodeTableWord 32 0x03542B17 = some (.bge true (.reg 5) (.const 10) 6) ∧
    decodeTableWord 32 0xFB006917 = some (.bne true (.reg 13) (.reg 0) 0x1F6) := by decide

theorem test_decode_jump :
    decodeTableWord 32 0x10000E17 = some (.jal true 1 (.reg 0) 32) ∧
    decodeTableWord 32 0x00020717 = some (.jalr true 0 (.reg 1) 0) := by decide

theorem test_decode_csr :
    decodeTableWord 32 0x0022201F = some (.csrr true 4 0x011) ∧
    decodeTableWord 64 0x000001000085F11F = some (.csrw true (.lit32 256) 0x042) := by decide

theorem test_decode_scalar_float :
    decodeTableWord 32 0x1440C079 = some (.fadd false 3 (.reg 4) (.reg 5) false) ∧
    decodeTableWord 32 0x1440E079 = some (.fadd false 3 (.reg 4) (.reg 5) true) := by decide

theorem test_decode_load :
    decodeTableWord 32 0x010C2C23 = some (.lw true 5 (.reg 6) 2) ∧
    decodeTableWord 32 0x000A3E23 = some (.ld true 7 (.reg 5) 0) := by decide

theorem test_decode_store :
    decodeTableWord 32 0x010A3327 = some (.sd true (.reg 6) (.reg 5) 2) ∧
    decodeTableWord 32 0xFF8BB827 = some (.sb true (.const 23) (.reg 5) 0x1FF) := by decide

theorem test_decode_ordered :
    decodeTableWord 32 0x5C160A2F = some (.storeRelease true (.reg 1) (.reg 11) .cl .d) ∧
    decodeTableWord 32 0x6C16122F = some (.loadAcquire true 2 (.reg 11) .dev .d) ∧
    decodeTableWord 32 0x6000002F = some (.fence true .dev) ∧
    decodeTableWord 32 0x0000012F = some (.fenceX true) := by decide

theorem test_decode_atomic :
    decodeTableWord 32 0x1871662B = some (.amocas true 5 (.reg 7) (.reg 6) .dev) ∧
    decodeTableWord 32 0x04A0802B = some (.amoadd true 2 (.reg 10) (.reg 1) .none) := by decide

theorem test_decode_tag :
    decodeTableWord 32 0x84500133 = some (.tst true (.reg 5) (.const 1)) ∧
    decodeTableWord 32 0x00900533 = some (.ttabSwap true (.reg 9)) := by decide

theorem test_decode_message :
    decodeTableWord 32 0x10500037 = some (.msend true (.reg 5) (.reg 4)) ∧
    decodeTableWord 32 0x00010137 = some (.mrecv true 4) := by decide

theorem test_decode_thread :
    decodeTableWord 32 0x18500277 = some (.phint true (.reg 5) (.reg 6)) ∧
    decodeTableWord 32 0x00000177 = some (.nexit true) ∧
    decodeTableWord 32 0x00000377 = some (.uiret true) := by decide

theorem test_decode_signal :
    decodeTableWord 32 0x2630003B = some (.sigEmit true (.const 3) (.reg 9)) ∧
    decodeTableWord 32 0x0230013B = some (.sigSkip true (.const 3)) ∧
    decodeTableWord 32 0xB230053B = some (.babs true (.const 3) (.const 12)) ∧
    decodeTableWord 32 0x0000063B = some (.pause true) ∧
    decodeTableWord 32 0x8400073B = some (.dset true 0 (.const 1)) ∧
    decodeTableWord 32 0x0001483B = some (.dget true 5 0) := by decide

theorem test_decode_vector_float :
    decodeTableWord 32 0x04008341 = some (.vfma false 2 (.reg 0) (.reg 1) .f32) ∧
    decodeTableWord 32 0x10304F41 = some (.vfcmpLt false 1 (.reg 3) (.reg 4) .bf16) := by decide

theorem test_decode_vector_integer :
    decodeTableWord 32 0x30000F45 = some (.vbcast false 0 (.reg 12) .w4) := by decide

theorem test_decode_vector_convert :
    decodeTableWord 32 0x84210049 = some (.vcvt false 4 (.reg 2) .bf16 .f32) ∧
    decodeTableWord 32 0x30020C49 = some (.vquant false 8 0 12 .o4) := by decide

theorem test_decode_vector_reduce :
    decodeTableWord 32 0x8410C24D = some (.vred false 3 (.reg 1) .max .f32) := by decide

theorem test_decode_vector_memory :
    decodeTableWord 32 0x1C614553 = some (.vld true 5 (.reg 6) (.reg 7) .w2 true) := by decide

theorem test_decode_stream :
    decodeTableWord 32 0x00004357 = some (.sread true 1 0) ∧
    decodeTableWord 32 0x8C500557 = some (.rep true (.reg 5) (.const 3)) := by decide

theorem test_decode_mask :
    decodeTableWord 32 0xDC00005D = some (.mset false 0 (.const 23)) := by decide

theorem test_decode_matrix :
    decodeTableWord 32 0x00D00063 = some (.mxCfg true (.reg 13) (.reg 0) .bf16) ∧
    decodeTableWord 32 0x38D00663 = some (.mxCfg true (.reg 13) (.reg 14) .o4) ∧
    decodeTableWord 32 0x00A00863 = some (.mxLdw true (.reg 10) (.reg 0)) ∧
    decodeTableWord 32 0x00001063 = some (.mxSwap true) ∧
    decodeTableWord 64 0x00000020F8B02063 = some (.mxStream true 0 (.reg 11) (.lit32 32)) ∧
    decodeTableWord 32 0x00006863 = some (.mxZero true 1) ∧
    decodeTableWord 32 0x00C03063 = some (.mxDrain true 0 (.reg 12) (.reg 0)) := by decide

theorem test_decode_drain :
    decodeTableWord 32 0x00000067 = some (.dret true) ∧
    decodeTableWord 32 0x00000167 = some (.mxWait true) := by decide

theorem test_decode_transfer :
    decodeTableWord 32 0x00014073 = some (.xfGo true 5) ∧
    decodeTableWord 32 0x00518173 = some (.xfCancel true 6 (.reg 5)) := by decide

theorem test_decode_attention :
    decodeTableWord 32 0x2CA0006B = some (.attnQld true (.reg 10) (.reg 11)) ∧
    decodeTableWord 32 0x1850016B = some (.attnRun true (.reg 5) (.reg 6)) ∧
    decodeTableWord 32 0x0070026B = some (.attnMerge true (.reg 7)) ∧
    decodeTableWord 32 0x2480036B = some (.attnFin true (.reg 8) (.reg 9)) := by decide

theorem test_decode_comet :
    decodeTableWord 32 0x2071816F = some (.cmFill true 6 (.reg 7) (.reg 8)) ∧
    decodeTableWord 32 0x2CA2436F = some (.cmLookup true 9 (.reg 10) (.reg 11)) ∧
    decodeTableWord 32 0x0000056F = some (.cmInval true) := by decide

theorem test_decode_privileged :
    decodeTableWord 32 0x0000007F = some (.ecall true) ∧
    decodeTableWord 32 0x0000017F = some (.ebreak true) ∧
    decodeTableWord 32 0x0000027F = some (.mret true) ∧
    decodeTableWord 32 0x0000037F = some (.sret true) ∧
    decodeTableWord 32 0x0000047F = some (.wfi true) ∧
    decodeTableWord 32 0x1C61457F = some (.tlbWr true 5 (.reg 6) (.reg 7)) ∧
    decodeTableWord 32 0x1C61467F = some (.tlbInv true 5 (.reg 6) (.reg 7)) ∧
    decodeTableWord 32 0x1C60077F = some (.xlateDrain true (.reg 6) (.reg 7)) ∧
    decodeTableWord 32 0x0060087F = some (.mxSave true (.reg 6)) ∧
    decodeTableWord 32 0x0061497F = some (.mxLoad true 5 (.reg 6)) ∧
    decodeTableWord 32 0x1C614A7F = some (.ctxHalt true 5 (.reg 6) (.reg 7)) ∧
    decodeTableWord 32 0x1C614B7F = some (.ctxSave true 5 (.reg 6) (.reg 7)) := by decide

theorem test_decode_compare :
    decodeTableWord 32 0x1C61400F = some (.seq true 5 (.reg 6) (.reg 7)) := by decide

theorem test_decode_address :
    decodeTableWord 32 0x00724213 = some (.aptest true 9 (.reg 7)) := by decide

theorem test_decode_exchange :
    decodeTableWord 32 0x1E50003F = some (.xsendAt true (.const 5) (.reg 7)) := by decide

theorem test_decode_short_vector :
    decodeTableWord 16 0x0002 = some (.vfadd16 true 0 0) := by decide

theorem test_decode_special : decodeTableWord 32 0x00510C59 = some (.vfabs false 4 (.reg 5) .bf16) := by decide

/-! ## One word for each encoded instruction, from Tables 10.3 to 10.13 -/


theorem test_decode_alu_rows :
    decodeTableWord 32 0x1C614003 = some (.add true 5 (.reg 6) (.reg 7)) ∧
    decodeTableWord 32 0x1C614103 = some (.sub true 5 (.reg 6) (.reg 7)) ∧
    decodeTableWord 32 0x1C614203 = some (.and true 5 (.reg 6) (.reg 7)) ∧
    decodeTableWord 32 0x1C614303 = some (.or true 5 (.reg 6) (.reg 7)) ∧
    decodeTableWord 32 0x1C614403 = some (.xor true 5 (.reg 6) (.reg 7)) ∧
    decodeTableWord 32 0x1C614503 = some (.andn true 5 (.reg 6) (.reg 7)) ∧
    decodeTableWord 32 0x1C614603 = some (.min true 5 (.reg 6) (.reg 7)) ∧
    decodeTableWord 32 0x1C614703 = some (.max true 5 (.reg 6) (.reg 7)) ∧
    decodeTableWord 32 0x1C614803 = some (.minu true 5 (.reg 6) (.reg 7)) ∧
    decodeTableWord 32 0x1C614903 = some (.maxu true 5 (.reg 6) (.reg 7)) ∧
    decodeTableWord 32 0x1C014A03 = some (.li true 5 (.reg 7)) := by decide

theorem test_decode_multiply_rows :
    decodeTableWord 32 0x1C614005 = some (.mul false 5 (.reg 6) (.reg 7)) ∧
    decodeTableWord 32 0x1C614105 = some (.mulh false 5 (.reg 6) (.reg 7)) ∧
    decodeTableWord 32 0x1C614205 = some (.mulhu false 5 (.reg 6) (.reg 7)) ∧
    decodeTableWord 32 0x1C614305 = some (.div false 5 (.reg 6) (.reg 7)) ∧
    decodeTableWord 32 0x1C614405 = some (.divu false 5 (.reg 6) (.reg 7)) ∧
    decodeTableWord 32 0x1C614505 = some (.rem false 5 (.reg 6) (.reg 7)) ∧
    decodeTableWord 32 0x1C614605 = some (.remu false 5 (.reg 6) (.reg 7)) := by decide

theorem test_decode_shift_rows :
    decodeTableWord 32 0x1C61400B = some (.sll true 5 (.reg 6) (.reg 7)) ∧
    decodeTableWord 32 0x1C61410B = some (.srl true 5 (.reg 6) (.reg 7)) ∧
    decodeTableWord 32 0x1C61420B = some (.sra true 5 (.reg 6) (.reg 7)) ∧
    decodeTableWord 32 0x0061430B = some (.clz true 5 (.reg 6)) ∧
    decodeTableWord 32 0x0061440B = some (.ctz true 5 (.reg 6)) ∧
    decodeTableWord 32 0x0061450B = some (.popc true 5 (.reg 6)) ∧
    decodeTableWord 32 0x1C61460B = some (.exts true 5 (.reg 6) (.reg 7)) ∧
    decodeTableWord 32 0x1C61470B = some (.extz true 5 (.reg 6) (.reg 7)) ∧
    decodeTableWord 32 0x1C61480B = some (.bfext true 5 (.reg 6) (.reg 7)) ∧
    decodeTableWord 32 0x1C61490B = some (.bfins true 5 (.reg 6) (.reg 7)) := by decide

theorem test_decode_compare_rows :
    decodeTableWord 32 0x1C61400F = some (.seq true 5 (.reg 6) (.reg 7)) ∧
    decodeTableWord 32 0x1C61410F = some (.slt true 5 (.reg 6) (.reg 7)) ∧
    decodeTableWord 32 0x1C61420F = some (.sltu true 5 (.reg 6) (.reg 7)) ∧
    decodeTableWord 32 0x1C61430F = some (.sel true 5 (.reg 6) (.reg 7)) := by decide

theorem test_decode_address_rows :
    decodeTableWord 32 0x1C014013 = some (.lea true 5 (.reg 7)) ∧
    decodeTableWord 32 0x1C614113 = some (.apcvt true 5 (.reg 6) (.reg 7)) ∧
    decodeTableWord 32 0x00614213 = some (.aptest true 5 (.reg 6)) := by decide

theorem test_decode_branch_rows :
    decodeTableWord 32 0x048E3017 = some (.beq true (.reg 6) (.reg 7) 9) ∧
    decodeTableWord 32 0x048E3117 = some (.bne true (.reg 6) (.reg 7) 9) ∧
    decodeTableWord 32 0x048E3217 = some (.blt true (.reg 6) (.reg 7) 9) ∧
    decodeTableWord 32 0x048E3317 = some (.bge true (.reg 6) (.reg 7) 9) ∧
    decodeTableWord 32 0x048E3417 = some (.bltu true (.reg 6) (.reg 7) 9) ∧
    decodeTableWord 32 0x048E3517 = some (.bgeu true (.reg 6) (.reg 7) 9) ∧
    decodeTableWord 32 0x048E3617 = some (.jal true 6 (.reg 7) 9) ∧
    decodeTableWord 32 0x048E3717 = some (.jalr true 6 (.reg 7) 9) ∧
    decodeTableWord 32 0x0000091B = some (.j true 9) := by decide

theorem test_decode_csr_rows :
    decodeTableWord 32 0x0E82281F = some (.csrr true 5 0x741) ∧
    decodeTableWord 32 0x0E82291F = some (.csrw true (.reg 5) 0x741) ∧
    decodeTableWord 32 0x0E822A1F = some (.csrs true (.reg 5) 0x741) ∧
    decodeTableWord 32 0x0E822B1F = some (.csrc true (.reg 5) 0x741) := by decide

theorem test_decode_memory_rows :
    decodeTableWord 32 0x048C2823 = some (.lb true 5 (.reg 6) 9) ∧
    decodeTableWord 32 0x048C2923 = some (.lbu true 5 (.reg 6) 9) ∧
    decodeTableWord 32 0x048C2A23 = some (.lh true 5 (.reg 6) 9) ∧
    decodeTableWord 32 0x048C2B23 = some (.lhu true 5 (.reg 6) 9) ∧
    decodeTableWord 32 0x048C2C23 = some (.lw true 5 (.reg 6) 9) ∧
    decodeTableWord 32 0x048C2D23 = some (.lwu true 5 (.reg 6) 9) ∧
    decodeTableWord 32 0x048C2E23 = some (.ld true 5 (.reg 6) 9) ∧
    decodeTableWord 32 0x048C2827 = some (.sb true (.reg 5) (.reg 6) 9) ∧
    decodeTableWord 32 0x048C2927 = some (.sh true (.reg 5) (.reg 6) 9) ∧
    decodeTableWord 32 0x048C2A27 = some (.sw true (.reg 5) (.reg 6) 9) ∧
    decodeTableWord 32 0x048C2B27 = some (.sd true (.reg 5) (.reg 6) 9) := by decide

theorem test_decode_ordered_rows :
    decodeTableWord 32 0x220C2A2F = some (.loadAcquire true 5 (.reg 6) .core .b) ∧
    decodeTableWord 32 0x200C2A2F = some (.loadAcquire true 5 (.reg 6) .core .bu) ∧
    decodeTableWord 32 0x260C2A2F = some (.loadAcquire true 5 (.reg 6) .core .h) ∧
    decodeTableWord 32 0x240C2A2F = some (.loadAcquire true 5 (.reg 6) .core .hu) ∧
    decodeTableWord 32 0x2A0C2A2F = some (.loadAcquire true 5 (.reg 6) .core .w) ∧
    decodeTableWord 32 0x280C2A2F = some (.loadAcquire true 5 (.reg 6) .core .wu) ∧
    decodeTableWord 32 0x2C0C2A2F = some (.loadAcquire true 5 (.reg 6) .core .d) ∧
    decodeTableWord 32 0x900C2A2F = some (.storeRelease true (.reg 5) (.reg 6) .sys .b) ∧
    decodeTableWord 32 0x940C2A2F = some (.storeRelease true (.reg 5) (.reg 6) .sys .h) ∧
    decodeTableWord 32 0x980C2A2F = some (.storeRelease true (.reg 5) (.reg 6) .sys .w) ∧
    decodeTableWord 32 0x9C0C2A2F = some (.storeRelease true (.reg 5) (.reg 6) .sys .d) ∧
    decodeTableWord 32 0x0000002F = some (.fence true .th) ∧
    decodeTableWord 32 0x0000012F = some (.fenceX true) := by decide

theorem test_decode_atomic_rows :
    decodeTableWord 32 0x1C61402B = some (.amoadd true 5 (.reg 6) (.reg 7) .none) ∧
    decodeTableWord 32 0x1C61452B = some (.amoand true 5 (.reg 6) (.reg 7) .cl) ∧
    decodeTableWord 32 0x1C614A2B = some (.amoor true 5 (.reg 6) (.reg 7) .dev) ∧
    decodeTableWord 32 0x1C614F2B = some (.amoxor true 5 (.reg 6) (.reg 7) .sys) ∧
    decodeTableWord 32 0x1C61502B = some (.amomin true 5 (.reg 6) (.reg 7) .none) ∧
    decodeTableWord 32 0x1C61552B = some (.amomax true 5 (.reg 6) (.reg 7) .cl) ∧
    decodeTableWord 32 0x1C615A2B = some (.amominu true 5 (.reg 6) (.reg 7) .dev) ∧
    decodeTableWord 32 0x1C615F2B = some (.amomaxu true 5 (.reg 6) (.reg 7) .sys) ∧
    decodeTableWord 32 0x1C61602B = some (.amoswap true 5 (.reg 6) (.reg 7) .none) ∧
    decodeTableWord 32 0x1C61652B = some (.amocas true 5 (.reg 6) (.reg 7) .cl) ∧
    decodeTableWord 32 0x1C616A2B = some (.amofadd true 5 (.reg 6) (.reg 7) .dev) := by decide

theorem test_decode_tag_rows :
    decodeTableWord 32 0x00614033 = some (.tld true 5 (.reg 6)) ∧
    decodeTableWord 32 0x1C600133 = some (.tst true (.reg 6) (.reg 7)) ∧
    decodeTableWord 32 0x1C614233 = some (.tcas true 5 (.reg 6) (.reg 7)) ∧
    decodeTableWord 32 0x1C600333 = some (.ttabWr true (.reg 6) (.reg 7)) ∧
    decodeTableWord 32 0x00614433 = some (.ttabRd true 5 (.reg 6)) ∧
    decodeTableWord 32 0x00600533 = some (.ttabSwap true (.reg 6)) := by decide

theorem test_decode_message_rows :
    decodeTableWord 32 0x1C600037 = some (.msend true (.reg 6) (.reg 7)) ∧
    decodeTableWord 32 0x00014137 = some (.mrecv true 5) ∧
    decodeTableWord 32 0x00014237 = some (.mpoll true 5) ∧
    decodeTableWord 32 0x00614337 = some (.mloop true 5 (.reg 6)) ∧
    decodeTableWord 32 0x00014437 = some (.mcount true 5) := by decide

theorem test_decode_signal_rows :
    decodeTableWord 32 0x1C60003B = some (.sigEmit true (.reg 6) (.reg 7)) ∧
    decodeTableWord 32 0x0060013B = some (.sigSkip true (.reg 6)) ∧
    decodeTableWord 32 0x0061423B = some (.sigTest true 5 (.reg 6)) ∧
    decodeTableWord 32 0x0061433B = some (.sigVal true 5 (.reg 6)) ∧
    decodeTableWord 32 0x1C60043B = some (.bpres true (.reg 6) (.reg 7)) ∧
    decodeTableWord 32 0x1C60053B = some (.babs true (.reg 6) (.reg 7)) ∧
    decodeTableWord 32 0x0000063B = some (.pause true) ∧
    decodeTableWord 32 0x1C01473B = some (.dset true 5 (.reg 7)) ∧
    decodeTableWord 32 0x0061483B = some (.dget true 5 6) ∧
    decodeTableWord 32 0x1C01493B = some (.irec true 5 (.reg 7)) := by decide

theorem test_decode_exchange_rows :
    decodeTableWord 32 0x1C60003F = some (.xsendAt true (.reg 6) (.reg 7)) ∧
    decodeTableWord 32 0x0000013F = some (.xend true) ∧
    decodeTableWord 32 0x0001423F = some (.xslot true 5) := by decide

theorem test_decode_thread_rows :
    decodeTableWord 32 0x00000077 = some (.yield true) ∧
    decodeTableWord 32 0x00000177 = some (.nexit true) ∧
    decodeTableWord 32 0x1C600277 = some (.phint true (.reg 6) (.reg 7)) ∧
    decodeTableWord 32 0x00000377 = some (.uiret true) := by decide

theorem test_decode_privileged_rows :
    decodeTableWord 32 0x0000007F = some (.ecall true) ∧
    decodeTableWord 32 0x0000017F = some (.ebreak true) ∧
    decodeTableWord 32 0x0000027F = some (.mret true) ∧
    decodeTableWord 32 0x0000037F = some (.sret true) ∧
    decodeTableWord 32 0x0000047F = some (.wfi true) ∧
    decodeTableWord 32 0x1C61457F = some (.tlbWr true 5 (.reg 6) (.reg 7)) ∧
    decodeTableWord 32 0x1C61467F = some (.tlbInv true 5 (.reg 6) (.reg 7)) ∧
    decodeTableWord 32 0x1C60077F = some (.xlateDrain true (.reg 6) (.reg 7)) ∧
    decodeTableWord 32 0x0060087F = some (.mxSave true (.reg 6)) ∧
    decodeTableWord 32 0x0061497F = some (.mxLoad true 5 (.reg 6)) ∧
    decodeTableWord 32 0x1C614A7F = some (.ctxHalt true 5 (.reg 6) (.reg 7)) ∧
    decodeTableWord 32 0x1C614B7F = some (.ctxSave true 5 (.reg 6) (.reg 7)) := by decide

theorem test_decode_vector_float_rows :
    decodeTableWord 32 0x1C614041 = some (.vfadd false 5 (.reg 6) (.reg 7) .f32) ∧
    decodeTableWord 32 0x1C614941 = some (.vfsub false 5 (.reg 6) (.reg 7) .bf16) ∧
    decodeTableWord 32 0x1C615241 = some (.vfmul false 5 (.reg 6) (.reg 7) .f16) ∧
    decodeTableWord 32 0x1C615B41 = some (.vfma false 5 (.reg 6) (.reg 7) .fp8a) ∧
    decodeTableWord 32 0x1C616441 = some (.vfmax false 5 (.reg 6) (.reg 7) .fp8b) ∧
    decodeTableWord 32 0x1C614541 = some (.vfmin false 5 (.reg 6) (.reg 7) .f32) ∧
    decodeTableWord 32 0x1C614E41 = some (.vfcmpEq false 5 (.reg 6) (.reg 7) .bf16) ∧
    decodeTableWord 32 0x1C615741 = some (.vfcmpLt false 5 (.reg 6) (.reg 7) .f16) := by decide

theorem test_decode_vector_integer_rows :
    decodeTableWord 32 0x1C614045 = some (.vadd false 5 (.reg 6) (.reg 7) .w4) ∧
    decodeTableWord 32 0x1C615145 = some (.vsub false 5 (.reg 6) (.reg 7) .w2) ∧
    decodeTableWord 32 0x1C616245 = some (.vmul false 5 (.reg 6) (.reg 7) .w1) ∧
    decodeTableWord 32 0x1C614345 = some (.vmin false 5 (.reg 6) (.reg 7) .w4) ∧
    decodeTableWord 32 0x1C615445 = some (.vmax false 5 (.reg 6) (.reg 7) .w2) ∧
    decodeTableWord 32 0x1C616545 = some (.vand false 5 (.reg 6) (.reg 7) .w1) ∧
    decodeTableWord 32 0x1C614645 = some (.vor false 5 (.reg 6) (.reg 7) .w4) ∧
    decodeTableWord 32 0x1C615745 = some (.vxor false 5 (.reg 6) (.reg 7) .w2) ∧
    decodeTableWord 32 0x1C616845 = some (.vshl false 5 (.reg 6) (.reg 7) .w1) ∧
    decodeTableWord 32 0x1C614945 = some (.vshr false 5 (.reg 6) (.reg 7) .w4) ∧
    decodeTableWord 32 0x1C615A45 = some (.vshra false 5 (.reg 6) (.reg 7) .w2) ∧
    decodeTableWord 32 0x1C616B45 = some (.vcmpEq false 5 (.reg 6) (.reg 7) .w1) ∧
    decodeTableWord 32 0x1C614C45 = some (.vcmpLt false 5 (.reg 6) (.reg 7) .w4) ∧
    decodeTableWord 32 0x1C615D45 = some (.vsel false 5 (.reg 6) (.reg 7) .w2) ∧
    decodeTableWord 32 0x1C016E45 = some (.vmov false 5 (.reg 7) .w1) ∧
    decodeTableWord 32 0x1C014F45 = some (.vbcast false 5 (.reg 7) .w4) := by decide

theorem test_decode_vector_convert_rows :
    decodeTableWord 32 0x84614649 = some (.vcvt false 5 (.reg 6) .bf16 .i16) ∧
    decodeTableWord 32 0x1C814C49 = some (.vquant false 5 8 7 .o4) ∧
    decodeTableWord 32 0x1C621349 = some (.vdeq false 8 (.reg 6) 7 .int4) ∧
    decodeTableWord 32 0x1C615949 = some (.vpack false 5 (.reg 6) (.reg 7) .bf16) ∧
    decodeTableWord 32 0x8C616649 = some (.vunpack false 5 (.reg 6) 3 .i16) := by decide

theorem test_decode_vector_permute_rows :
    decodeTableWord 32 0x1C61784D = some (.vperm false 5 (.reg 6) (.reg 7) .i8) ∧
    decodeTableWord 32 0x1C61714D = some (.vshuf false 5 (.reg 6) (.reg 7) .i16) ∧
    decodeTableWord 32 0x80616A4D = some (.vred false 5 (.reg 6) .sum .i32) ∧
    decodeTableWord 32 0x8461634D = some (.vscan false 5 (.reg 6) .max .fp8b) ∧
    decodeTableWord 32 0x1C615C4D = some (.vextr false 5 (.reg 6) (.reg 7) .fp8a) ∧
    decodeTableWord 32 0x1C61554D = some (.vins false 5 (.reg 6) (.reg 7) .f16) := by decide

theorem test_decode_vector_memory_rows :
    decodeTableWord 32 0x1C614053 = some (.vld true 5 (.reg 6) (.reg 7) .w4 false) ∧
    decodeTableWord 32 0x1C614D53 = some (.vst true (.reg 5) (.reg 6) (.reg 7) .w2 true) ∧
    decodeTableWord 32 0x1C615253 = some (.vlds true 5 (.reg 6) (.reg 7) .w1) ∧
    decodeTableWord 32 0x1C615853 = some (.vsts true (.reg 5) (.reg 6) (.reg 7) .w4) ∧
    decodeTableWord 32 0x1C616153 = some (.vldx true 5 (.reg 6) (.reg 7) .w2) ∧
    decodeTableWord 32 0x1C616A53 = some (.vstx true (.reg 5) (.reg 6) (.reg 7) .w1) := by decide

theorem test_decode_stream_rows :
    decodeTableWord 32 0x1C60C057 = some (.sgCfg true 3 (.reg 6) (.reg 7)) ∧
    decodeTableWord 32 0x00214157 = some (.sgIdx true 5 2) ∧
    decodeTableWord 32 0x00200257 = some (.sgStop true 2) ∧
    decodeTableWord 32 0x00214357 = some (.sread true 5 2) ∧
    decodeTableWord 32 0x0060C457 = some (.swrite true 3 (.reg 6)) ∧
    decodeTableWord 32 0x1C600557 = some (.rep true (.reg 6) (.reg 7)) := by decide

theorem test_decode_vector_special_rows :
    decodeTableWord 32 0x00614059 = some (.vfexp2 false 5 (.reg 6)) ∧
    decodeTableWord 32 0x00614159 = some (.vfrcp false 5 (.reg 6)) ∧
    decodeTableWord 32 0x00614259 = some (.vfrsq false 5 (.reg 6)) ∧
    decodeTableWord 32 0x00614359 = some (.vflog2 false 5 (.reg 6)) ∧
    decodeTableWord 32 0x00614C59 = some (.vfabs false 5 (.reg 6) .bf16) ∧
    decodeTableWord 32 0x00615559 = some (.vfneg false 5 (.reg 6) .f16) ∧
    decodeTableWord 32 0x1C615E59 = some (.vfcmpLe false 5 (.reg 6) (.reg 7) .fp8a) ∧
    decodeTableWord 32 0x1C616759 = some (.vfcmpUn false 5 (.reg 6) (.reg 7) .fp8b) := by decide

theorem test_decode_mask_rows :
    decodeTableWord 32 0x1C01405D = some (.mset false 5 (.reg 7)) ∧
    decodeTableWord 32 0x1C61415D = some (.mand false 5 (.reg 6) (.reg 7)) ∧
    decodeTableWord 32 0x1C61425D = some (.mor false 5 (.reg 6) (.reg 7)) ∧
    decodeTableWord 32 0x0061435D = some (.mnot false 5 (.reg 6)) ∧
    decodeTableWord 32 0x0061445D = some (.mpopc false 5 (.reg 6)) ∧
    decodeTableWord 32 0x0061455D = some (.mfirst false 5 (.reg 6)) := by decide

theorem test_decode_matrix_rows :
    decodeTableWord 32 0x1C600563 = some (.mxCfg true (.reg 6) (.reg 7) .i4) ∧
    decodeTableWord 32 0x1C600863 = some (.mxLdw true (.reg 6) (.reg 7)) ∧
    decodeTableWord 32 0x00001063 = some (.mxSwap true) ∧
    decodeTableWord 32 0x00601863 = some (.mxDup true (.reg 6)) ∧
    decodeTableWord 32 0x1C60A063 = some (.mxStream true 2 (.reg 6) (.reg 7)) ∧
    decodeTableWord 32 0x0000A863 = some (.mxZero true 2) ∧
    decodeTableWord 32 0x1C60F063 = some (.mxDrain true 3 (.reg 6) (.reg 7)) ∧
    decodeTableWord 32 0x00000067 = some (.dret true) ∧
    decodeTableWord 32 0x00000167 = some (.mxWait true) := by decide

theorem test_decode_attention_rows :
    decodeTableWord 32 0x1C60006B = some (.attnQld true (.reg 6) (.reg 7)) ∧
    decodeTableWord 32 0x1C60016B = some (.attnRun true (.reg 6) (.reg 7)) ∧
    decodeTableWord 32 0x0060026B = some (.attnMerge true (.reg 6)) ∧
    decodeTableWord 32 0x1C60036B = some (.attnFin true (.reg 6) (.reg 7)) ∧
    decodeTableWord 32 0x0060046B = some (.attnSt true (.reg 6)) := by decide

theorem test_decode_comet_rows :
    decodeTableWord 32 0x0060006F = some (.cmAppend true (.reg 6)) ∧
    decodeTableWord 32 0x1C61416F = some (.cmFill true 5 (.reg 6) (.reg 7)) ∧
    decodeTableWord 32 0x1C61426F = some (.cmFree true 5 (.reg 6) (.reg 7)) ∧
    decodeTableWord 32 0x1C61436F = some (.cmLookup true 5 (.reg 6) (.reg 7)) ∧
    decodeTableWord 32 0x0061446F = some (.cmShare true 5 (.reg 6)) ∧
    decodeTableWord 32 0x0000056F = some (.cmInval true) := by decide

theorem test_decode_transfer_rows :
    decodeTableWord 32 0x00014073 = some (.xfGo true 5) ∧
    decodeTableWord 32 0x00614173 = some (.xfCancel true 5 (.reg 6)) := by decide

theorem test_decode_scalar_float_rows :
    decodeTableWord 32 0x1C614079 = some (.fadd false 5 (.reg 6) (.reg 7) false) ∧
    decodeTableWord 32 0x1C616179 = some (.fsub false 5 (.reg 6) (.reg 7) true) ∧
    decodeTableWord 32 0x1C614279 = some (.fmul false 5 (.reg 6) (.reg 7) false) ∧
    decodeTableWord 32 0x1C616379 = some (.ffma false 5 (.reg 6) (.reg 7) true) ∧
    decodeTableWord 32 0x1C614479 = some (.fdiv false 5 (.reg 6) (.reg 7) false) ∧
    decodeTableWord 32 0x00616579 = some (.fsqrt false 5 (.reg 6) true) ∧
    decodeTableWord 32 0x1C614679 = some (.fmin false 5 (.reg 6) (.reg 7) false) ∧
    decodeTableWord 32 0x1C616779 = some (.fmax false 5 (.reg 6) (.reg 7) true) ∧
    decodeTableWord 32 0x1C614879 = some (.fcmpEq false 5 (.reg 6) (.reg 7) false) ∧
    decodeTableWord 32 0x1C616979 = some (.fcmpLt false 5 (.reg 6) (.reg 7) true) ∧
    decodeTableWord 32 0x1C614A79 = some (.fcmpLe false 5 (.reg 6) (.reg 7) false) ∧
    decodeTableWord 32 0x00616B79 = some (.fcvtPrecision false 5 (.reg 6) true) ∧
    decodeTableWord 32 0x00614C79 = some (.fcvtToInt false 5 (.reg 6) false) ∧
    decodeTableWord 32 0x00616D79 = some (.fcvtFromInt false 5 (.reg 6) true) := by decide

theorem test_decode_short_rows :
    decodeTableWord 16 0x4942 = some (.vfadd16 true 5 9) ∧
    decodeTableWord 16 0x4946 = some (.vfsub16 true 5 9) ∧
    decodeTableWord 16 0x494A = some (.vfmul16 true 5 9) ∧
    decodeTableWord 16 0x494E = some (.vfmax16 true 5 9) ∧
    decodeTableWord 16 0x4952 = some (.vfmin16 true 5 9) ∧
    decodeTableWord 16 0x4956 = some (.vadd16 true 5 9) ∧
    decodeTableWord 16 0x495A = some (.vsub16 true 5 9) ∧
    decodeTableWord 16 0x495E = some (.vmul16 true 5 9) ∧
    decodeTableWord 16 0x4962 = some (.vand16 true 5 9) ∧
    decodeTableWord 16 0x4966 = some (.vor16 true 5 9) ∧
    decodeTableWord 16 0x496A = some (.vxor16 true 5 9) ∧
    decodeTableWord 16 0x496E = some (.vshl16 true 5 9) ∧
    decodeTableWord 16 0x4972 = some (.vshr16 true 5 9) ∧
    decodeTableWord 16 0x4976 = some (.vshra16 true 5 9) ∧
    decodeTableWord 16 0x497A = some (.vmax16 true 5 9) ∧
    decodeTableWord 16 0x497E = some (.vmov16 true 5 9) := by decide

/-! ## States that meet the hypotheses of the statements -/

/-- Right after reset, with a thread of core h.core that runs and is edited by f, and its core edited by g. -/
def at_ (h : Hart) (f : Thread → Thread) (g : Core → Core) : State :=
  let s := { State.reset with cur := h }
  let s := s.setCore h.core (g (s.core h.core))
  s.setMe (f { s.me with status := .run })

/-- Thread 0 of compute core 0, edited. -/
def user (f : Thread → Thread) : State := at_ ⟨0, 0⟩ f id

/-- An access of thread 0 of core 0 on its way to DRAM. -/
def far (n : Nat) : Access := mkAccess (user id) ⟨0, 0⟩ 0 .load .load (.dram (n / 2 ^ 19 % 16)) 8 [(n, 0)] 0 0 false

/-- That thread with the access on its way. -/
def away : State := { user id with net := [.access { far 0 with id := 7 }] }

/-- That thread with a command of its own in the matrix queue. -/
def queued : State := at_ ⟨0, 0⟩ id (fun c => { c with queue := [⟨⟨0, 0⟩, .u, .mxSwap false, 0, 0, 0, 0, 0, 0, 4, Vector.replicate 16 0, 0⟩] })

theorem witness_IntegerResults : (0xB01 : Word32).getLsbD 0 = true ∧ bits (0xB01 : Word32) 2 6 = 0 ∧ bits (0xB01 : Word32) 8 6 = 11 := by
  decide +kernel

theorem witness_MultiplyDivideResults : (0x705 : Word32).getLsbD 0 = true ∧ bits (0x705 : Word32) 2 6 = 1 ∧ bits (0x705 : Word32) 8 6 = 7 := by
  decide +kernel

theorem witness_ShiftAndFieldResults : (0xA09 : Word32).getLsbD 0 = true ∧ bits (0xA09 : Word32) 2 6 = 2 ∧ bits (0xA09 : Word32) 8 6 = 10 := by
  decide +kernel

/-- The ends of the ranges of APCVT at node 0, in both directions, and the first undefined functs. -/
theorem witness_CompareAndAddressResults :
    (user id).me.nodeid = 0 ∧ (0x1FFFFF : Word).toNat < 2 ^ 21 ∧ (0x100000000000000 : Word).toNat / 2 ^ 22 = 2 ^ 34 ∧
    (0x1000000003FFFFF : Word).toNat / 2 ^ 22 = 2 ^ 34 ∧ 2 ^ 21 ≤ (0x200000 : Word).toNat ∧ (0x200000 : Word).toNat / 2 ^ 22 ≠ 2 ^ 34 ∧
    (0x2000000001FFFFF : Word).toNat / 2 ^ 21 = 2 * 2 ^ 35 ∧ (0x3000000003FFFFF : Word).toNat / 2 ^ 22 = 3 * 2 ^ 34 ∧
    (0x200000000200000 : Word).toNat / 2 ^ 21 ≠ 2 * 2 ^ 35 ∧ (0x200000000200000 : Word).toNat / 2 ^ 22 ≠ 3 * 2 ^ 34 ∧
    (0x40D : Word32).getLsbD 0 = true ∧ bits (0x40D : Word32) 2 6 = 3 ∧ bits (0x40D : Word32) 8 6 = 4 ∧
    (0x311 : Word32).getLsbD 0 = true ∧ bits (0x311 : Word32) 2 6 = 4 ∧ bits (0x311 : Word32) 8 6 = 3 := by decide +kernel

/-- Equal and unequal operands; an even and an odd target. -/
theorem witness_BranchesAndJumps :
    (user id).me.opX (.const 0) = (user id).me.opX (.const 0) ∧ (user id).me.opX (.lit32 0xFFFFFFFF) ≠ (user id).me.opX (.reg 0) ∧
    ((user id).me.opX (.lit32 6) + BitVec.ofInt 64 (2 * (0x1FF : BitVec 9).toInt)).getLsbD 0 = false ∧
    ((user id).me.opX (.lit32 7) + BitVec.ofInt 64 (2 * (0x1FF : BitVec 9).toInt)).getLsbD 0 = true := by decide +kernel

/-- A CSR that U level reaches, and the M-level one that it does not. -/
theorem witness_CsrInstructions : csrOk (user id).cur.core (user id).me.level 0x010 = true ∧ csrOk (user id).cur.core (user id).me.level 0x700 = false := by
  decide +kernel

theorem start_user : (user id).me.AtStart := ⟨by decide +kernel, by decide +kernel, by decide +kernel, by decide +kernel⟩

/-- Words of a core's SRAM with no error and no parked access pass the tables if their entries do. -/
theorem plain_of {s : State} {k w n : Nat} (e : s.myCore.sram.errs = []) (oe : s.myCore.sram.ownerErrs = []) (so : s.myCore.sram.soft = [])
    (p : s.myCore.sram.parks = []) (h : ∀ i, i < n → bits (s.myCore.sram.entry (w + i) k (s.myCore.sram.tagFor (s.ownerOfHart s.cur) (w + i))) 0 4 = 0) :
    ∀ i, i < n → PlainWord s k (w + i) :=
  fun i hi => ⟨⟨⟨by simp [e], by simp [oe], by simp [so, Tab.find?]⟩, by simp [p]⟩, h i hi⟩

/-- Every kind of access passes the table of a word that nothing has written. -/
theorem plain_user (k : Nat) (hk : k < 3) (w : Nat) (hw : w = 0 ∨ w = 0x35FFF) : PlainWord (user id) k w := by
  have h : ∀ k, k < 3 → ∀ w ∈ [0, 0x35FFF], ∀ i, i < 1 →
      bits ((user id).myCore.sram.entry (w + i) k ((user id).myCore.sram.tagFor ((user id).ownerOfHart (user id).cur) (w + i))) 0 4 = 0 := by
    decide +kernel
  exact plain_of (by decide +kernel) (by decide +kernel) (by decide +kernel) (by decide +kernel) (h k hk w (by rcases hw with rfl | rfl <;> simp)) 0 (by decide)

/-- A state in which an access of kind 0 to a word with tag 0 finds an entry; word 0x35000 has tag 1. -/
def guarded (e : BitVec 16) (l : List Parked) : State :=
  at_ ⟨0, 0⟩ id (fun c => { c with sram := { c.sram with sets := [(0, { TableSet.init with active := ⟨[(0, e)], [(0, 0x1A8000)]⟩ })], tags := [(0x35000, 1)], parks := l } })

theorem open_of {s : State} {w : Nat} (e : s.myCore.sram.errs = []) (oe : s.myCore.sram.ownerErrs = []) (so : s.myCore.sram.soft = [])
    (p : s.myCore.sram.parks.all (fun q => !q.woken) = true) : OpenWord s w :=
  ⟨⟨by simp [e], by simp [oe], by simp [so, Tab.find?]⟩, by
    simp only [List.all_eq_true, Bool.not_eq_true'] at p ⊢; exact fun q hq => by simp [p q hq]⟩

/-- An entry that performs the access and updates the tag; one of each action, and a reserved one. -/
theorem witness_LocalLoads_actions (e : BitVec 16) (h : e ∈ ([0x18, 0x19, 0x1A, 3, 4, 7] : List (BitVec 16))) :
    (guarded e []).me.AtStart ∧ OpenWord (guarded e []) 0 ∧
    NamesHere (guarded e []) .read ((guarded e []).me.opX (.lit32 8) + BitVec.ofInt 64 ((0x1FF : BitVec 9).toInt * 8)) 8 0 ∧
    (guarded e []).myCore.sram.entry 0 0 ((guarded e []).myCore.sram.tagFor ((guarded e []).ownerOfHart (guarded e []).cur) 0) = e ∧
    (guarded e []).myCore.sram.ownerOf 0 = (guarded e []).ownerOfHart (guarded e []).cur := by
  simp only [List.mem_cons, List.not_mem_nil, or_false] at h
  rcases h with rfl | rfl | rfl | rfl | rfl | rfl <;>
    exact ⟨⟨by decide +kernel, by decide +kernel, by decide +kernel, by decide +kernel⟩,
      open_of (by decide +kernel) (by decide +kernel) (by decide +kernel) (by decide +kernel), by unfold NamesHere; decide +kernel, by decide +kernel,
      by decide +kernel⟩

/-- A bank with seven parked accesses and with eight. -/
theorem witness_LocalLoads_waits (n : Nat) (h : n ∈ [7, 8]) :
    (guarded 1 (List.replicate n ⟨far 0, 0, 8, false⟩)).me.AtStart ∧ OpenWord (guarded 1 (List.replicate n ⟨far 0, 0, 8, false⟩)) 0 ∧
    bits ((guarded 1 (List.replicate n ⟨far 0, 0, 8, false⟩)).myCore.sram.entry 0 0 0) 0 3 = 1 ∧
    (guarded 1 (List.replicate n ⟨far 0, 0, 8, false⟩)).stoppedHart ⟨0, 0⟩ = false ∧
    ((guarded 1 (List.replicate n ⟨far 0, 0, 8, false⟩)).myCore.sram.parks.filter (fun x => decide (x.bank = 0))).length = n := by
  simp only [List.mem_cons, List.not_mem_nil, or_false] at h
  rcases h with rfl | rfl <;>
    exact ⟨⟨by decide +kernel, by decide +kernel, by decide +kernel, by decide +kernel⟩,
      open_of (by decide +kernel) (by decide +kernel) (by decide +kernel) (by decide +kernel), by decide +kernel, by decide +kernel, by decide +kernel⟩

/-- A redirect to the last 16 KiB of the local SRAM. -/
theorem witness_LocalLoads_redirect :
    Tab.get 0 ((Tab.find? (guarded 2 []).myCore.sram.sets 0).getD TableSet.init).active.rbase 0 = 0x1A8000 ∧
    NamesHere (guarded 2 []) .read 0x1A8000 8 0x1A8000 ∧ PlainWord (guarded 2 []) 0 (0x1A8000 / 8) :=
  ⟨by decide +kernel, by unfold NamesHere; decide +kernel,
    ⟨open_of (by decide +kernel) (by decide +kernel) (by decide +kernel) (by decide +kernel), by decide +kernel⟩⟩

/-- The first and the last byte of the local SRAM. -/
theorem witness_LocalLoads : (user id).me.AtStart ∧ PlainWord (user id) 0 (0 / 8) ∧ PlainWord (user id) 0 (0x1AFFFF / 8) ∧
    NamesHere (user id) .read ((user id).me.opX (.lit32 0x1AFFFF) + BitVec.ofInt 64 ((0 : BitVec 9).toInt * 1)) 1 0x1AFFFF ∧
    NamesHere (user id) .read ((user id).me.opX (.lit32 0x1AFFFC) + BitVec.ofInt 64 ((1 : BitVec 9).toInt * 2)) 2 0x1AFFFE ∧
    NamesHere (user id) .read ((user id).me.opX (.lit32 0x4) + BitVec.ofInt 64 ((0x1FF : BitVec 9).toInt * 4)) 4 0 ∧
    NamesHere (user id) .read ((user id).me.opX (.lit32 0x1B0000) + BitVec.ofInt 64 ((0x1FF : BitVec 9).toInt * 8)) 8 0x1AFFF8 := by
  refine ⟨start_user, plain_user 0 (by decide) _ (by decide), plain_user 0 (by decide) _ (by decide), ?_⟩
  unfold NamesHere; decide +kernel

theorem witness_LocalStores : (user id).me.AtStart ∧ PlainWord (user id) 1 (0 / 8) ∧ PlainWord (user id) 1 (0x1AFFFF / 8) ∧
    NamesHere (user id) .write ((user id).me.opX (.lit32 0x1AFFFF) + BitVec.ofInt 64 ((0 : BitVec 9).toInt * 1)) 1 0x1AFFFF ∧
    NamesHere (user id) .write ((user id).me.opX (.lit32 0x1AFFFC) + BitVec.ofInt 64 ((1 : BitVec 9).toInt * 2)) 2 0x1AFFFE ∧
    NamesHere (user id) .write ((user id).me.opX (.lit32 0x4) + BitVec.ofInt 64 ((0x1FF : BitVec 9).toInt * 4)) 4 0 ∧
    NamesHere (user id) .write ((user id).me.opX (.lit32 0x1B0000) + BitVec.ofInt 64 ((0x1FF : BitVec 9).toInt * 8)) 8 0x1AFFF8 := by
  refine ⟨start_user, plain_user 1 (by decide) _ (by decide), plain_user 1 (by decide) _ (by decide), ?_⟩
  unfold NamesHere; decide +kernel

/-- With no earlier access and with one on its way; nothing and something of the thread in the engine. -/
theorem witness_OrderedAccesses : (user id).me.AtStart ∧ PlainWord (user id) 0 (0x1AFFF8 / 8) ∧ PlainWord (user id) 1 (0x1AFFF8 / 8) ∧
    away.me.AtStart ∧
    NamesHere (user id) .read ((user id).me.opX (.lit32 0x1AFFF8)) (ldBytes .d) 0x1AFFF8 ∧
    NamesHere (user id) .write ((user id).me.opX (.lit32 0x1AFFF8)) (stBytes .d) 0x1AFFF8 ∧ NamesHere away .write (away.me.opX (.reg 0)) (stBytes .d) 0 ∧
    (user id).outstandingIn (user id).cur .sys = false ∧ away.outstandingIn away.cur .dev = true ∧
    isDrain (user id).cur = false ∧ (user id).me.deferred = none ∧ (user id).myCore.busyFor (user id).cur = false ∧
    queued.me.AtStart ∧ isDrain queued.cur = false ∧ queued.me.deferred = none ∧ queued.myCore.busyFor queued.cur = true := by
  refine ⟨start_user, plain_user 0 (by decide) _ (by decide), plain_user 1 (by decide) _ (by decide), ⟨by decide +kernel, by decide +kernel, by decide +kernel, by decide +kernel⟩, ?_⟩
  unfold NamesHere Thread.AtStart; decide +kernel

theorem witness_LocalAtomics : (user id).me.AtStart ∧ PlainWord (user id) 2 (0x1AFFF8 / 8) ∧
    NamesHere (user id) .atomic ((user id).me.opX (.lit32 0x1AFFF8)) 8 0x1AFFF8 ∧ (user id).outstandingIn (user id).cur (ordScope .sys) = false ∧
    away.me.AtStart ∧ PlainWord away 2 (0 / 8) ∧ NamesHere away .atomic (away.me.opX (.reg 0)) 8 0 ∧ away.outstandingIn away.cur (ordScope .dev) = true := by
  refine ⟨start_user, plain_user 2 (by decide) _ (by decide), ?_⟩
  refine ⟨by unfold NamesHere; decide +kernel, by decide +kernel, ⟨by decide +kernel, by decide +kernel, by decide +kernel, by decide +kernel⟩,
    ⟨⟨by decide +kernel, by decide +kernel⟩, by decide +kernel⟩, by unfold NamesHere; decide +kernel, by decide +kernel⟩

/-- Two bytes across the end of the local range, two at an odd address, and eight at one that no word begins. -/
theorem witness_AccessChecks :
    (user id).resolveRange (user id).cur ((user id).me.opX (.lit32 0x1AFFFF) + BitVec.ofInt 64 ((0 : BitVec 9).toInt * 2)).toNat 2 = none ∧
    (user id).resolveRange (user id).cur ((user id).me.opX (.lit32 0x1AFFFD) + BitVec.ofInt 64 ((0 : BitVec 9).toInt * 2)).toNat 2 ≠ none ∧
    ((user id).me.opX (.lit32 0x1AFFFD) + BitVec.ofInt 64 ((0 : BitVec 9).toInt * 2)).toNat % 2 ≠ 0 ∧
    (user id).resolveRange (user id).cur ((user id).me.opX (.lit32 0x1AFFFF) + BitVec.ofInt 64 ((1 : BitVec 9).toInt * 1)).toNat 1 = none ∧
    (user id).resolveRange (user id).cur ((user id).me.opX (.lit32 0x1AFFFC)).toNat 8 = none ∧
    (user id).resolveRange (user id).cur ((user id).me.opX (.lit32 0x1AFFF4)).toNat 8 ≠ none ∧ ((user id).me.opX (.lit32 0x1AFFF4)).toNat % 8 ≠ 0 := by
  decide +kernel

/-- The last word of the local SRAM; the items of the shadow and of the active copy of set 3 and its swap. -/
theorem witness_LocalTagInstructions : (user id).me.AtStart ∧
    (user id).resolve (user id).cur (((user id).me.opX (.lit32 0x1AFFFF)).toNat / 8 * 8) = some (.sram (.core 0) (8 * 0x35FFF)) ∧
    0x35FFF ∉ (user id).myCore.sram.errs ∧ 0x35FFF / 8 ∉ (user id).myCore.sram.ownerErrs ∧
    Tab.find? (user id).myCore.sram.soft 0x35FFF = none ∧ (user id).pmpOk (user id).cur 0x1AFFF8 8 .atomic = true ∧
    (let n := ((user id).me.opX (.lit32 0x2C3)).toNat; n / 2 ^ 8 % 2 = 0 ∧ n < 2 ^ 11 ∧ n / 2 ^ 10 % 2 = 0 ∧ n / 2 ^ 9 % 2 = 1 ∧ n % 64 < 4) ∧
    (let n := ((user id).me.opX (.lit32 0x4FF)).toNat; n / 2 ^ 8 % 2 = 0 ∧ n < 2 ^ 11 ∧ n / 2 ^ 10 % 2 = 1 ∧ n / 2 ^ 9 % 2 = 0) ∧
    (let n := ((user id).me.opX (.lit32 0xC0)).toNat; n / 2 ^ 8 % 2 = 0 ∧ n < 2 ^ 11 ∧ n / 2 ^ 9 % 4 = 0 ∧ n % 64 = 0) := by
  refine ⟨start_user, ?_⟩
  decide +kernel

/-- That a context of owner 5 runs on core 0, in partition 0 with clusters 0 and 255, in a grid with a domain of two members. -/
def dom0 : Domain := {
  gid := 1, strict := false, exch := false, members := [⟨⟨0, 0⟩, 0, none, false, false, 0, []⟩, ⟨⟨1, 0⟩, 0, none, false, false, 0, []⟩]
  sigs := [⟨1, [0, 1], .unknown, 5, [0, 1], [], true⟩, ⟨0, [1], .absent, 0, [], [], false⟩]
  plan := [⟨0, 3, 2, 1, true, 0x40⟩], instant := 0, slot := 0, started := 0, reactEnded := false, record := [1, 2, 3], sends := [], flying := []
  declared := false, stopped := false }

def ctx0 : Ctx := Ctx.new 0 5

def inDomain (h : Hart) (d : Domain) (c : Ctx) (f : Thread → Thread) (g : Core → Core) : State :=
  let s := at_ h (fun t => f { t with member := some (0, 0) }) (fun x => g { x with mcontext := 1, mowner := 5 })
  { s with domains := [(0, d)], ctxs := [(1, c)], parts := [(0, { Part.init with clusters := [0, 255], owner := 5 })] }

/-- A 64-byte entry for a user thread. -/
def entryTo (th : Nat) (loop : Bool) : Entry := ⟨BitVec.ofNat 512 (th * 2 ^ 32), loop⟩

/-- Thread 0 of core 0 with entries in the inbox, and spilled ones. -/
def mail (l : List Entry) (n : Nat) : State := at_ ⟨0, 0⟩ id (fun c => { c with inbox := l, spillcnt := c.spillcnt.set 0 n })

/-- Its own entry behind one of another thread; a replayed one while entries are spilled; and none that it sees. -/
theorem witness_MessageReceives :
    (mail [entryTo 1 false, entryTo 0 false] 0).cur.th < 4 ∧ kindOf (mail [] 0).cur.core = .compute ∧
    (let s := mail [entryTo 1 false, entryTo 0 false] 0
     s.myCore.inbox.filter (fun e => decide (bits e.bytes 32 2 = s.cur.th) && (decide (s.myCore.spillcnt[0] = 0) || e.loop)) = [entryTo 0 false]) ∧
    (let s := mail [entryTo 0 false, entryTo 0 true] 1
     s.myCore.inbox.filter (fun e => decide (bits e.bytes 32 2 = s.cur.th) && (decide (s.myCore.spillcnt[0] = 0) || e.loop)) = [entryTo 0 true]) ∧
    (let s := mail [entryTo 0 false] 1
     s.myCore.inbox.filter (fun e => decide (bits e.bytes 32 2 = s.cur.th) && (decide (s.myCore.spillcnt[0] = 0) || e.loop)) = []) := by
  decide +kernel

/-- A core of the partition's last cluster, with and without an access on its way; a core of another cluster; and another core from the
react half of a strict domain. -/
theorem witness_MessageSends :
    (let s := inDomain ⟨0, 0⟩ dom0 ctx0 id id
     isSpill s.cur = false ∧ bits (s.me.opX (.lit32 0x3FFF)) 14 50 = 0 ∧ s.clusterOk s.cur.core (bits (s.me.opX (.lit32 0x3FFF)) 0 12 / 16) = true ∧
     s.strictReact s.cur = false ∧ s.outstandingIn s.cur .dev = false ∧ s.clusterOk s.cur.core (bits (s.me.opX (.lit32 16)) 0 12 / 16) = false ∧
     bits (s.me.opX (.lit32 0x4000)) 14 50 ≠ 0) ∧
    (let s := { inDomain ⟨0, 0⟩ dom0 ctx0 id id with net := [.access (far 0)] }
     s.clusterOk s.cur.core 0 = true ∧ s.strictReact s.cur = false ∧ s.outstandingIn s.cur .dev = true) ∧
    (let s := inDomain ⟨0, 0⟩ { dom0 with strict := true } ctx0 id id
     s.clusterOk s.cur.core (bits (s.me.opX (.lit32 1)) 0 12 / 16) = true ∧ bits (s.me.opX (.lit32 1)) 0 12 ≠ s.cur.core ∧ s.strictReact s.cur = true) := by
  decide +kernel

/-- The spill thread, with entries in the inbox, and with n of thread 1 spilled. -/
def spill (l : List Entry) (n : Nat) : State :=
  let s := at_ ⟨0, 5⟩ (fun t => { t with v := t.v.set 1 (entryTo 1 false).bytes }) (fun c => { c with inbox := l, spillcnt := c.spillcnt.set 1 n })
  s.setThread ⟨0, 1⟩ { s.thread ⟨0, 1⟩ with status := .mrecv }

/-- An entry to spill; the full inbox, and the last free place of it. -/
theorem witness_SpillThread :
    (let s := spill [entryTo 1 false] 65534
     isSpill s.cur = true ∧ s.myCore.inbox = [entryTo 1 false] ∧ s.myCore.spillcnt[(entryTo 1 false).dst.val] < 65535) ∧
    (∀ n ∈ [47, 48], let s := spill (List.replicate n (entryTo 2 false)) 1
      headerType ((s.me.opV .i32 (.reg 1)).setWidth 64) ≠ 1 ∧ headerType ((s.me.opV .i32 (.reg 1)).setWidth 64) ≠ 3 ∧
      (⟨s.me.opV .i32 (.reg 1), true⟩ : Entry).dst = 1 ∧ s.myCore.spillcnt[1] ≠ 0 ∧ s.myCore.inbox.length = n ∧ (s.thread ⟨0, 1⟩).status ≠ .idle) := by
  decide +kernel

/-- A user thread in and out of its handler, with a halt of its context pending, and inside a repeat that it was left in; the spill thread. -/
theorem witness_ThreadInstructions :
    (let s := user (fun t => { t with user := { t.user with h := true, uepc := 8 }, rep := some ⟨0, [], 1, 1, .u, 8⟩ })
     isDrain s.cur = false ∧ isSpill s.cur = false ∧ s.me.user.h = true ∧ s.me.rep = some ⟨0, [], 1, 1, .u, 8⟩) ∧
    (isDrain (user id).cur = false ∧ isSpill (user id).cur = false ∧ (user id).me.user.h = false ∧ (user id).halting 0 = false ∧
      (user id).me.opX (.reg 0) = 0 ∧ (user id).me.rep = none) ∧
    (let s := inDomain ⟨0, 0⟩ dom0 { ctx0 with halt := 1 } id id
     isDrain s.cur = false ∧ isSpill s.cur = false ∧ s.me.user.h = false ∧ s.halting s.cur.core = true ∧ kindOf s.cur.core = .compute ∧ s.me.opX (.reg 0) = 0) ∧
    isSpill (spill [] 0).cur = true := by decide +kernel

/-- With a command in the queue, without one, and as a member of a domain. -/
theorem witness_NodeExit :
    (isDrain queued.cur = false ∧ isSpill queued.cur = false ∧ queued.me.deferred = none ∧ queued.myCore.busyFor queued.cur = true) ∧
    ((user id).me.deferred = none ∧ (user id).myCore.busyFor (user id).cur = false ∧ (user id).myDomain (user id).cur = none) ∧
    (let s := inDomain ⟨0, 0⟩ dom0 ctx0 id id
     isDrain s.cur = false ∧ isSpill s.cur = false ∧ s.me.deferred = none ∧ s.myCore.busyFor s.cur = false ∧ s.myDomain s.cur = some (0, 0, dom0)) := by
  decide +kernel

/-- Signal 0 is unknown and awaits members 0 and 1; signal 1 is absent and known. -/
theorem witness_SignalsAreSet :
    (let s := inDomain ⟨0, 0⟩ dom0 ctx0 id id
     s.myDomain s.cur = some (0, 0, dom0) ∧ dom0.sigs[(s.me.opX (.reg 0)).toNat]? = some ⟨1, [0, 1], .unknown, 5, [0, 1], [], true⟩ ∧
     isDrain s.cur = false ∧ dom0.exch = false ∧ (0 : Nat) ∈ [0, 1] ∧ (0 : Nat) ∉ ([] : List Nat) ∧ SigStatus.unknown ≠ .absent ∧ s.outstandingIn s.cur .dev = false) ∧
    (let s := { inDomain ⟨0, 0⟩ dom0 ctx0 id id with net := [.access (far 0)] }
     s.myDomain s.cur = some (0, 0, dom0) ∧ s.outstandingIn s.cur .dev = true) ∧
    (let d := { dom0 with sigs := [⟨0, [0, 1], .unknown, 0, [1], [0], false⟩] }
     let s := inDomain ⟨0, 0⟩ d ctx0 id id
     s.myDomain s.cur = some (0, 0, d) ∧ isDrain s.cur = false ∧ d.exch = false ∧ d.sigs[0]? = some ⟨0, [0, 1], .unknown, 0, [1], [0], false⟩ ∧
     (0 : Nat) ∈ [0] ∧ (0 : Nat) ∉ [1]) := by decide +kernel

/-- A settled and an unsettled signal, of each status, with an even and an odd target. -/
theorem witness_SignalsAreRead :
    (let s := inDomain ⟨0, 0⟩ dom0 ctx0 id id
     s.myDomain s.cur = some (0, 0, dom0) ∧ isDrain s.cur = false ∧ dom0.sigs[(s.me.opX (.const 1)).toNat]? = some ⟨0, [1], .absent, 0, [], [], false⟩ ∧
     dom0.sigs[(s.me.opX (.reg 0)).toNat]? = some ⟨1, [0, 1], .unknown, 5, [0, 1], [], true⟩ ∧
     (s.me.pc + s.me.opX (.const 4)).getLsbD 0 = false ∧ (s.me.pc + s.me.opX (.const 5)).getLsbD 0 = true) ∧
    (let d := { dom0 with sigs := [⟨0, [0, 1], .present, 9, [], [], false⟩] }
     let s := inDomain ⟨0, 0⟩ d ctx0 id id
     s.myDomain s.cur = some (0, 0, d) ∧ d.sigs[0]? = some ⟨0, [0, 1], .present, 9, [], [], false⟩) := by decide +kernel

theorem witness_ReactHalf :
    (let s := inDomain ⟨0, 0⟩ dom0 ctx0 id id
     s.myDomain s.cur = some (0, 0, dom0) ∧ dom0.members[0]? = some ⟨⟨0, 0⟩, 0, none, false, false, 0, []⟩ ∧ isDrain s.cur = false ∧ s.cur = ⟨0, 0⟩ ∧
     s.me.user.h = false ∧ dom0.exch = false ∧ s.outstandingIn s.cur .sys = false) ∧
    (let s := { inDomain ⟨0, 0⟩ dom0 ctx0 id id with net := [.access (far 0)] }
     s.myDomain s.cur = some (0, 0, dom0) ∧ s.me.user.h = false ∧ s.outstandingIn s.cur .sys = true) ∧
    (let s := inDomain ⟨0, 0⟩ { dom0 with exch := true } ctx0 id id
     s.myDomain s.cur = some (0, 0, { dom0 with exch := true }) ∧ s.me.user.h = false) := by decide +kernel

/-- A send of two beats that ends at 0x1B0000, at the slot of the counter; one without an entry; one made before; one whose slot has passed. -/
theorem witness_ExchangeHalf :
    (let d := { dom0 with exch := true, slot := 3 }
     let s := inDomain ⟨0, 0⟩ d ctx0 id id
     s.myDomain s.cur = some (0, 0, d) ∧ d.members[0]? = some ⟨⟨0, 0⟩, 0, none, false, false, 0, []⟩ ∧ isDrain s.cur = false ∧
     d.plan.find? (fun e => decide (e.sender = 0) && decide (e.slot = (s.me.opX (.const 3)).toNat)) = some ⟨0, 3, 2, 1, true, 0x40⟩ ∧
     (3 : Nat) ∉ ([] : List Nat) ∧ d.slot ≤ 3 ∧
     s.resolveRange s.cur (s.me.opX (.lit32 0x1AFF80)).toNat (64 * 2) = some (.sram (.core 0) 0x1AFF80) ∧ 0x1AFF80 + 64 * 2 ≤ 0x1B0000 ∧
     (s.me.opX (.lit32 0x1AFF80)).toNat % 64 = 0 ∧
     d.plan.find? (fun e => decide (e.sender = 0) && decide (e.slot = (s.me.opX (.const 4)).toNat)) = none ∧
     s.me.user.h = false ∧ s.outstandingIn s.cur .sys = false) ∧
    (let d := { dom0 with exch := true, slot := 4, members := [⟨⟨0, 0⟩, 0, none, false, false, 0, [3]⟩] }
     let s := inDomain ⟨0, 0⟩ d ctx0 id id
     s.myDomain s.cur = some (0, 0, d) ∧ d.members[0]? = some ⟨⟨0, 0⟩, 0, none, false, false, 0, [3]⟩ ∧ (3 : Nat) ∈ [3]) ∧
    (let d := { dom0 with exch := true, slot := 4 }
     let s := inDomain ⟨0, 0⟩ d ctx0 id id
     s.myDomain s.cur = some (0, 0, d) ∧ (3 : Nat) ∉ ([] : List Nat) ∧ 3 < d.slot) ∧
    (let s := inDomain ⟨0, 0⟩ dom0 ctx0 id id
     s.myDomain s.cur = some (0, 0, dom0) ∧ dom0.exch = false ∧ s.me.user.h = false) := by decide +kernel

/-- Thread 0 of core 0 with mask register m0. -/
def masked (m0 : Word32) (f : Thread → Thread) : State := user (fun t => f { t with m := t.m.set 0 m0 })

theorem lanesHere_of {s : State} {need : Need} {k n count : Nat} {addr : Nat → Word} {o : Nat → Nat} (start : s.me.AtStart) (e : s.myCore.sram.errs = [])
    (oe : s.myCore.sram.ownerErrs = [])
    (so : s.myCore.sram.soft = []) (p : s.myCore.sram.parks = [])
    (h : ∀ i, i < count → active (s.me.getM 0) n i = true →
      (s.resolveRange s.cur (addr i).toNat n = some (.sram (.core s.cur.core) (o i)) ∧ (addr i).toNat % n = 0 ∧ s.pmpOk s.cur (addr i).toNat n need = true) ∧
      bits (s.myCore.sram.entry (o i / 8) k (s.myCore.sram.tagFor (s.ownerOfHart s.cur) (o i / 8))) 0 4 = 0)
    (x : ∃ i, i < count ∧ active (s.me.getM 0) n i = true) : s.me.AtStart ∧ LanesHere s need k n count addr o :=
  ⟨start, fun i hi a => ⟨(h i hi a).1, ⟨⟨by simp [e], by simp [oe], by simp [so, Tab.find?]⟩, by simp [p]⟩, (h i hi a).2⟩, x⟩

theorem witness_VectorConversions :
    (let s := user id
     ((s.me.getV 0).setWidth 32 : Word32).getLsbD 8 = false ∧ packLt .o4 = none ∧ (s.packOperand .o4 (.reg 1)).1 = 0 ∧
     (Opnd.reg 1 = .reg 1 ∧ ¬ 8 < ((List.range 64).filter (fun i => (0 : Nat) / 16 ^ i % 16 = 8)).length)) ∧
    (let s := at_ ⟨0, 0⟩ (fun t => { t with v := t.v.set 2 0x100 }) (fun c => { c with queue := [⟨⟨0, 0⟩, .u, .mxDup false (.reg 0), 0, 0, 0, 0, 0, 0, 4, Vector.replicate 16 0, 0⟩] })
     ((s.me.getV 2).setWidth 32 : Word32).getLsbD 8 = true ∧ s.myCore.dupPending s.cur = true) ∧
    (let v := BitVec.ofNat 512 0x888888888
     8 < ((List.range 64).filter (fun i => v.toNat / 16 ^ i % 16 = 8)).length) := by decide +kernel

theorem witness_VectorReductions : ltFmt? .f32 = some .f32 ∧ ltFmt? .bf16 = some .bf16 ∧ ltFmt? .i8 = none ∧ ltFmt? .i32 = none := by decide +kernel

/-- Every lane active up to the end of the local SRAM; a column; lanes one stride apart; lanes at signed indices; and no lane active. -/
theorem witness_VectorLoads :
    ((masked 0xFFFFFFFF id).me.AtStart ∧
      LanesHere (masked 0xFFFFFFFF id) .read 0 4 (64 / 4) (fun i => ((masked 0xFFFFFFFF id).me.opX (.lit32 0x1AFF80) + (masked 0xFFFFFFFF id).me.opX (.lit32 0x40)) +
        BitVec.ofNat 64 (i * 4)) (fun i => 0x1AFFC0 + 4 * i)) ∧
    ((masked 0x55555555 id).me.AtStart ∧
      LanesHere (masked 0x55555555 id) .read 0 4 (64 / 4) (fun i => ((masked 0x55555555 id).me.opX (.lit32 0x1AF800) + (masked 0x55555555 id).me.opX (.const 4)) +
        BitVec.ofNat 64 (if 4 = 4 then 128 * i else 64 * i)) (fun i => 0x1AF804 + 128 * i)) ∧
    ((masked 0x80000001 id).me.AtStart ∧
      LanesHere (masked 0x80000001 id) .read 0 2 (64 / 2) (fun i => (masked 0x80000001 id).me.opX (.lit32 0x1AFFFE) +
        BitVec.ofNat 64 i * (masked 0x80000001 id).me.opX (.lit32 0xFFFFFFFE)) (fun i => 0x1AFFFE - 2 * i)) ∧
    ((masked 1 (fun t => { t with v := t.v.set 1 0xFFFFFFFF })).me.AtStart ∧
      LanesHere (masked 1 (fun t => { t with v := t.v.set 1 0xFFFFFFFF })) .read 0 2 16 (fun i => (masked 1 (fun t => { t with v := t.v.set 1 0xFFFFFFFF })).me.opX (.const 2) +
        BitVec.ofInt 64 ((BitVec.ofNat 32 (lane ((masked 1 (fun t => { t with v := t.v.set 1 0xFFFFFFFF })).me.opV .i32 (.reg 1)) 4 i)).toInt * (2 : Nat))) (fun _ => 0)) ∧
    (∀ i, i < 64 / 2 → active ((masked 0 id).me.getM 0) 2 i = false) := by
  refine ⟨lanesHere_of ⟨?_, ?_, ?_, ?_⟩ ?_ ?_ ?_ ?_ ?_ ?_, lanesHere_of ⟨?_, ?_, ?_, ?_⟩ ?_ ?_ ?_ ?_ ?_ ?_, lanesHere_of ⟨?_, ?_, ?_, ?_⟩ ?_ ?_ ?_ ?_ ?_ ?_,
    lanesHere_of ⟨?_, ?_, ?_, ?_⟩ ?_ ?_ ?_ ?_ ?_ ?_, ?_⟩ <;> decide +kernel

theorem witness_VectorStores :
    ((masked 0xFFFFFFFF id).me.AtStart ∧
      LanesHere (masked 0xFFFFFFFF id) .write 1 1 (64 / 1) (fun i => ((masked 0xFFFFFFFF id).me.opX (.lit32 0x1AFF80) + (masked 0xFFFFFFFF id).me.opX (.lit32 0x40)) +
        BitVec.ofNat 64 (i * 1)) (fun i => 0x1AFFC0 + i)) ∧
    ((masked 0x55555555 id).me.AtStart ∧
      LanesHere (masked 0x55555555 id) .write 1 2 (64 / 2) (fun i => ((masked 0x55555555 id).me.opX (.lit32 0x1AF800) + (masked 0x55555555 id).me.opX (.const 4)) +
        BitVec.ofNat 64 (if 2 = 4 then 128 * i else 64 * i)) (fun i => 0x1AF804 + 64 * i)) ∧
    ((masked 0x80000001 id).me.AtStart ∧
      LanesHere (masked 0x80000001 id) .write 1 2 (64 / 2) (fun i => (masked 0x80000001 id).me.opX (.lit32 0x1AFFFE) +
        BitVec.ofNat 64 i * (masked 0x80000001 id).me.opX (.lit32 0xFFFFFFFE)) (fun i => 0x1AFFFE - 2 * i)) ∧
    ((masked 1 (fun t => { t with v := t.v.set 1 0xFFFFFFFF })).me.AtStart ∧
      LanesHere (masked 1 (fun t => { t with v := t.v.set 1 0xFFFFFFFF })) .write 1 2 16 (fun i => (masked 1 (fun t => { t with v := t.v.set 1 0xFFFFFFFF })).me.opX (.const 2) +
        BitVec.ofInt 64 ((BitVec.ofNat 32 (lane ((masked 1 (fun t => { t with v := t.v.set 1 0xFFFFFFFF })).me.opV .i32 (.reg 1)) 4 i)).toInt * (2 : Nat))) (fun _ => 0)) ∧
    (∀ i, i < 64 / 2 → active ((masked 0 id).me.getM 0) 2 i = false) := by
  refine ⟨lanesHere_of ⟨?_, ?_, ?_, ?_⟩ ?_ ?_ ?_ ?_ ?_ ?_, lanesHere_of ⟨?_, ?_, ?_, ?_⟩ ?_ ?_ ?_ ?_ ?_ ?_, lanesHere_of ⟨?_, ?_, ?_, ?_⟩ ?_ ?_ ?_ ?_ ?_ ?_,
    lanesHere_of ⟨?_, ?_, ?_, ?_⟩ ?_ ?_ ?_ ?_ ?_ ?_, ?_⟩
  all_goals decide +kernel

/-- The bytes of a descriptor with base 0, extents n, 1, 1, 1, stride 4 and a control byte. -/
def descr (n ctl : Nat) : List Byte := leBytes 64 (2 ^ 64 * n + 2 ^ 96 + 2 ^ 128 + 2 ^ 160 + 2 ^ 192 * 4 + 2 ^ 448 * ctl)

/-- Thread 0 of core 0 with generators 0 and 1 bound as given, a good descriptor at 0 and sixteen NOPs (short moves of v0) at 0x100. -/
def streaming (g0 g1 : Gen) (f : Thread → Thread) : State :=
  at_ ⟨0, 0⟩ f (fun c => { c with
    gens := (c.gens.set 0 g0).set 1 g1
    sram := { c.sram with cells := writeLe (writeLe [] 0 64 (leValue (descr 20 2))) 0x100 4 0x84D34103 } })

def bound (n ctl at_ : Nat) : Gen := ⟨some 0, descr n ctl, at_, false⟩

theorem body_of {r : FetchRes ⊕ (List (List Half) × State)}
    (h : (match r with
      | .inr p => decide ((halfBytes p.1.flatten).length ≤ 128) && !p.1.any badInBody
      | .inl _ => false) = true) : ∃ body s', r = .inr (body, s') ∧ (halfBytes body.flatten).length ≤ 128 ∧ body.any badInBody = false := by
  rcases r with _ | ⟨b, t⟩
  · simp at h
  · exact ⟨b, t, rfl, by simpa using h⟩

/-- A good and a bad descriptor, a generator of another thread, one bound and one not, a body of one instruction, and both ends of the counts. -/
theorem witness_GeneratorsAndRepeat :
    (let s := streaming Gen.init Gen.init id
     s.me.AtStart ∧ NamesHere s .read (s.me.opX (.reg 0) + s.me.opX (.reg 0)) 64 0 ∧ NamesHere s .read (s.me.opX (.reg 0) + s.me.opX (.lit32 0x1AFFC0)) 64 0x1AFFC0 ∧
     (∀ i, i < 8 → PlainWord s 0 (0 / 8 + i)) ∧ (∀ i, i < 8 → PlainWord s 0 (0x1AFFC0 / 8 + i)) ∧ s.myCore.gens[0].bound = none ∧
     s.myCore.descrOk 0 0 ⟨some 0, leBytes 64 (s.myCore.sram.readFor (s.ownerOfHart s.cur) 0 64), 0, false⟩ = true ∧
     s.myCore.descrOk 0 0 ⟨some 0, leBytes 64 (s.myCore.sram.readFor (s.ownerOfHart s.cur) 0x1AFFC0 64), 0, false⟩ = false) ∧
    (let s := streaming { bound 20 2 0 with bound := some 1 } (bound 20 2 20) id
     NamesHere s .read (s.me.opX (.reg 0) + s.me.opX (.reg 0)) 64 0 ∧
     ¬ (s.myCore.gens[0].bound = none ∨ s.myCore.gens[0].bound = some s.cur.th ∨ s.myCore.gens[0].exhausted = true) ∧
     s.myCore.gens[0].bound ≠ some s.cur.th ∧ s.myCore.gens[1].bound = some s.cur.th) ∧
    (let s := streaming Gen.init Gen.init id
     ∃ body s', s.fetchBody s.cur 0x100 1 [] = .inr (body, s') ∧ (halfBytes body.flatten).length ≤ 128 ∧ body.any badInBody = false) ∧ (user id).me.user.h = false ∧
    2 ^ 32 ≤ ((user id).me.opX (.lit64 0x100000000)).toNat ∧ ((user id).me.opX (.lit32 0x7FFFFFFF)).toNat < 2 ^ 32 := by
  refine ⟨⟨⟨?_, ?_, ?_, ?_⟩, ⟨?_, ?_, ?_⟩, ⟨?_, ?_, ?_⟩, plain_of ?_ ?_ ?_ ?_ ?_, plain_of ?_ ?_ ?_ ?_ ?_, ?_, ?_, ?_⟩, ⟨⟨?_, ?_, ?_⟩, ?_, ?_, ?_⟩,
    body_of ?_, ?_, ?_, ?_⟩
  all_goals decide +kernel

/-- The last elements of a direct generator; a full register of an indirect one whose indices are gathered. -/
theorem witness_StreamElements :
    (let s := streaming (bound 20 2 4) Gen.init id
     let g := s.myCore.gens[0]
     s.split = false ∧ g.indirect = false ∧ g.bound = some s.cur.th ∧ g.exhausted = false ∧ s.me.status = .run ∧ s.me.pend = none ∧ s.me.late = [] ∧ s.me.gathered = [] ∧
     min (64 / g.esize) (g.total - g.n) = 16 ∧ ∀ k ∈ [6, 7], ∀ i, i < 16 → NamesHere s (if k = 7 then .write else .read) (g.address (g.n + i)) g.esize (16 + 4 * i)) ∧
    (∀ k ∈ [6, 7], ∀ i, i < 16 → PlainWord (streaming (bound 20 2 4) Gen.init id) k ((16 + 4 * i) / 8)) ∧
    (let s := streaming (bound 20 6 16) (bound 20 2 16) (fun t => { t with gathered := [0, 1, 2, 0x6BFFF] })
     let s := { s with cores := s.cores.map (fun q => (q.1, { q.2 with gens := q.2.gens.set 0 ⟨some 0, descr 20 14, 16, false⟩ })) }
     let g := s.myCore.gens[0]
     g.indirect = true ∧ g.bound = some s.cur.th ∧ g.exhausted = false ∧ s.me.pend = none ∧ s.me.late = [] ∧ min (64 / g.esize) (g.total - g.n) = 4 ∧
     4 ≤ s.me.gathered.length ∧ 4 ≤ (s.myCore.gens[g.idxGen.val]).unread s.cur.th ∧
     ∀ i, i < 4 → NamesHere s .read (g.base + s.me.gathered.getD i 0 * g.stride 0) g.esize ([0, 4, 8, 0x1AFFFC].getD i 0)) := by
  refine ⟨?_, ?_, ?_⟩
  · unfold NamesHere; decide +kernel
  · have h : ∀ k ∈ [6, 7], ∀ i, i < 40 → bits ((streaming (bound 20 2 4) Gen.init id).myCore.sram.entry (0 + i) k
        ((streaming (bound 20 2 4) Gen.init id).myCore.sram.tagFor ((streaming (bound 20 2 4) Gen.init id).ownerOfHart (streaming (bound 20 2 4) Gen.init id).cur) (0 + i))) 0 4 = 0 := by
      decide +kernel
    intro k hk i hi
    have := plain_of (by decide +kernel) (by decide +kernel) (by decide +kernel) (by decide +kernel) (h k hk) ((16 + 4 * i) / 8) (by omega)
    rwa [Nat.zero_add] at this
  · unfold NamesHere; decide +kernel

/-- Thread 0 of core 0 whose core holds n commands of thread 1 in its queue, banks of one format, an engine and a root. -/
def engined (n : Nat) (fm : BitVec 4) (root : Word) (e : Engine → Engine) : State :=
  at_ ⟨0, 0⟩ id (fun c => { c with
    queue := List.replicate n ⟨⟨0, 1⟩, .u, .mxZero false 0, 0, 0, 0, (e c.engine).mf, 0, 0, 4, Vector.replicate 16 fm, 0⟩, fmts := Vector.replicate 16 fm, cmroot := root
    engine := e c.engine })

/-- The gate; a queue with room and a full one; a configuration that is well formed and two that are not; a dense load with scales and a
duplicated one; a stream of row 31 with scales; rows that drain to the end of the local SRAM; and a deferred fault. -/
theorem witness_MatrixIssue :
    (let s := engined 1 4 0 (fun e => { e with mf := 2 })
     let e := s.myCore.foreseen
     isDrain s.cur = false ∧ isSpill s.cur = false ∧ s.me.deferred = none ∧ s.myCore.queue.length < 2 ∧
     (let w := s.me.opX (.lit32 0x1F); bits w 6 58 = 0 ∧ cfgOk MFmt.o4.code (w.setWidth 6) 0 = false) ∧
     (let w := s.me.opX (.const 0); bits w 6 58 = 0 ∧ cfgOk MFmt.o4.code (w.setWidth 6) 0 = true) ∧ bits (s.me.opX (.lit32 0x40)) 6 58 ≠ 0 ∧
     (let w := s.me.opX (.lit32 0x1AFFE0)
      (∀ i, i < 32 → let p := s.me.opX (.reg 0) + BitVec.ofNat 64 (i * columnBytes e.mf e.cfg)
        s.ownFail s.cur p (columnBytes e.mf e.cfg) = none ∧ p.toNat % 8 = 0 ∧ s.formatFail s.cur s.myCore.fmts (bankFmtOf e.mf) p (columnBytes e.mf e.cfg) = none) ∧
      bits w 32 32 = 0 ∧ s.ownFail s.cur (BitVec.ofNat 64 (bits w 0 21)) 32 = none ∧ bits w 24 8 = 0 ∧ bits w 0 21 ≠ 0 ∧ 2 ≤ e.mf ∧ w.getLsbD 21 = false) ∧
     (let w := s.me.opX (.lit64 0x0000000800200000)
      (∀ i, i < 32 → let p := s.me.opX (.reg 0) + BitVec.ofNat 64 (i * bits w 32 32)
        s.ownFail s.cur p 1 = none ∧ p.toNat % 8 = 0 ∧ s.formatFail s.cur s.myCore.fmts (bankFmtOf e.mf) p 1 = none) ∧
      bits w 32 32 ≠ 0 ∧ bits w 0 21 = 0 ∧ bits w 24 8 = 0 ∧ w.getLsbD 21 = true ∧ sparseOf e.cfg = 0) ∧
     (s.ownFail s.cur (s.me.opX (.lit32 0x1AFEC0)) 264 = none ∧ (s.me.opX (.lit32 0x1AFEC0)).toNat % 64 = 0) ∧
     (let w := s.me.opX (.lit64 0x001AFFE0000007C1)
      s.ownFail s.cur (s.me.opX (.reg 0)) (rowBytes e.mf e.cfg) = none ∧
      s.formatFail s.cur s.myCore.fmts (bankFmtOf (actFmt e.mf e.cfg)) (s.me.opX (.reg 0)) (rowBytes e.mf e.cfg) = none ∧ bits w 0 6 = 1 ∧ bits w 6 5 = 31 ∧
      s.ownFail s.cur (BitVec.ofNat 64 (bits w 32 21 + bits w 6 5)) (bits w 0 6) = none ∧ bits w 53 11 = 0 ∧ bits w 11 5 = 0 ∧ bits w 16 16 = 0 ∧
      bits w 6 5 + bits w 0 6 ≤ 32 ∧ bits w 32 21 ≠ 0 ∧ 2 ≤ actFmt e.mf e.cfg ∧ Tab.find? e.scaleRecs 3 = none) ∧
     s.myCore.busyFor s.cur = false) ∧
    (let s := engined 2 4 0 id; isDrain s.cur = false ∧ isSpill s.cur = false ∧ s.me.deferred = none ∧ 2 ≤ s.myCore.queue.length) ∧
    (isDrain queued.cur = false ∧ isSpill queued.cur = false ∧ queued.me.deferred = none ∧ queued.myCore.busyFor queued.cur = true) ∧
    isDrain (at_ ⟨0, 4⟩ id id).cur = true ∧ isSpill (at_ ⟨0, 5⟩ id id).cur = true ∧
    (let s := user (fun t => { t with deferred := some ⟨24, 0, 0⟩ }); isDrain s.cur = false ∧ isSpill s.cur = false ∧ s.me.deferred = some ⟨24, 0, 0⟩) := by
  decide +kernel

/-- Rows of MX.DRAIN that end with the local SRAM. -/
theorem witness_MatrixIssue_drain :
    ∀ i, i < 32 → let s := user id; let p := drainRowAt (s.me.opX (.lit32 0x1AF000)) (BitVec.ofNat 64 (bits (s.me.opX (.reg 0)) 0 32)) i
      s.rangeFail s.cur p 128 = none ∧ p.toNat % 8 = 0 := by decide +kernel

/-- A command that executes on core 0, with its operands read. -/
def turn (i : Instr) (opB : Word) (got row : Nat) (d : Bool) : Running :=
  ⟨⟨⟨0, 0⟩, .u, i, 0, opB, 0, 0, 0, 0, 4, Vector.replicate 16 0, 0⟩, (List.range got).map (fun j => (j, 0)), [], .idle, false, [], row, d, none, 0, 0⟩

def executing (r : Running) (entry : Word) : State :=
  at_ ⟨0, 4⟩ (fun t => { t with x := t.x.set 11 128 }) (fun c => { c with running := some r, engine := { c.engine with drainEntry := entry } })

/-- A root of head dimension 64, with room in the queue; the checks of each instruction at the end of the local SRAM; an access on its way;
a full queue; the react half of a strict domain; and no root. -/
theorem witness_AttentionAndCometIssue :
    (let s := engined 1 2 0x1000 id
     let root := s.myCore.cmroot
     let w := s.me.opX (.lit32 0x1AFE00)
     let x := s.me.opX (.reg 0)
     isDrain s.cur = false ∧ isSpill s.cur = false ∧ s.me.deferred = none ∧ rootBase root ≠ 0 ∧ s.myCore.queue.length < 2 ∧
     s.ownFail s.cur x (2 * attnRows root * headDim root) = none ∧ s.ownFail s.cur w (16 * attnRows root) = none ∧ x.toNat % 64 = 0 ∧ w.toNat % 16 = 0 ∧
     s.formatFail s.cur s.myCore.fmts 2 x (2 * attnRows root * headDim root) = none ∧
     s.ownFail s.cur (s.me.opX (.lit32 0x1ADEC0)) (320 + 4 * attnRows root * headDim root) = none ∧ (s.me.opX (.lit32 0x1ADEC0)).toNat % 64 = 0 ∧
     (let w := s.me.opX (.const 4)
      bits w 0 3 < 5 ∧ bits w 3 29 = 0 ∧ ∀ r, r < attnRows root → let p := s.me.opX (.lit32 0x1AF800) + BitVec.ofNat 64 (r * finStride root w)
        s.rangeFail s.cur p (headDim root * finBytes w) = none ∧ p.toNat % finBytes w = 0) ∧
     s.strictReact s.cur = false ∧ runOk x (s.me.opX (.reg 0)) = true ∧ s.outstandingIn s.cur .dev = false) ∧
    (let s := engined 2 2 0x1000 id; s.me.deferred = none ∧ 2 ≤ s.myCore.queue.length ∧ s.outstandingIn s.cur .dev = false ∧ s.strictReact s.cur = false) ∧
    (let s := { engined 0 2 0x1000 id with net := [.access (far 0)] }; s.strictReact s.cur = false ∧ s.outstandingIn s.cur .dev = true) ∧
    (let s := inDomain ⟨0, 0⟩ { dom0 with strict := true } ctx0 id (fun c => { c with cmroot := 0x1000 })
     isDrain s.cur = false ∧ isSpill s.cur = false ∧ s.me.deferred = none ∧ rootBase s.myCore.cmroot ≠ 0 ∧ s.strictReact s.cur = true) ∧
    (let r := turn (.cmAppend false (.reg 0)) 0 0 0 false
     let s := { executing r 0 with net := [.access (far 0)] }
     s.myCore.running = some r ∧ s.myCore.loading = none ∧ r.port.wait = none ∧ r.cmd.instr = .cmAppend false (.reg 0) ∧
     s.outstandingIn r.cmd.hart .dev = true) ∧
    rootBase (user id).myCore.cmroot = 0 := by decide +kernel

/-- The region that ATTN.ST writes, to the end of the local SRAM. -/
theorem witness_AttentionAndCometIssue_store :
    let s := engined 1 2 0x1000 id
    s.rangeFail s.cur (s.me.opX (.lit32 0x1ADEC0)) (320 + 4 * attnRows s.myCore.cmroot * headDim s.myCore.cmroot) = none ∧
      (s.me.opX (.lit32 0x1ADEC0)).toNat % 4 = 0 := by decide +kernel

theorem inr_of {α β : Type} {x : α ⊕ β} (h : x.isRight = true) : ∃ y, x = .inr y := by
  cases x with
  | inl _ => simp at h
  | inr y => exact ⟨y, rfl⟩

/-- An idle engine with a command queued; each kind of command executing; a stream and a load with every operand read; the last row of a
drain, with a drain entry and without; and the drain thread itself. -/
theorem witness_EngineTurns :
    (queued.core 0).running = none ∧ (queued.core 0).queue = [⟨⟨0, 0⟩, .u, .mxSwap false, 0, 0, 0, 0, 0, 0, 4, Vector.replicate 16 0, 0⟩] ∧
    ((executing (turn (.mxSwap true) 0 0 0 false) 0).core 0).running = some (turn (.mxSwap true) 0 0 0 false) ∧
    (turn (.mxCfg true (.reg 0) (.reg 0) .bf16) 0 0 0 false).cmd.instr = .mxCfg true (.reg 0) (.reg 0) .bf16 ∧
    (turn (.mxZero true 3) 0 0 0 false).cmd.instr = .mxZero true 3 ∧
    (let r := turn (.mxStream true 3 (.reg 0) (.reg 0)) 0x7C1 8 0 false
     let c := (executing r 0).core 0
     let count := (rangeWords (cmdRanges c.engine c.cmroot r.cmd)).length
     c.running = some r ∧ c.loading = none ∧ r.port = .idle ∧ r.cmd.instr = .mxStream true 3 (.reg 0) (.reg 0) ∧
     (∀ i, i < count → (Tab.find? r.words i).isSome = true) ∧
     ∃ e', c.engine.doStream 3 r.cmd (rangeValues (cmdRanges c.engine c.cmroot r.cmd) ((List.range count).map (Tab.get 0 r.words))) = .inr e') ∧
    (let r := turn (.mxLdw true (.reg 0) (.reg 0)) 0 256 0 false
     let c := (executing r 0).core 0
     let count := (rangeWords (cmdRanges c.engine c.cmroot r.cmd)).length
     c.running = some r ∧ c.loading = none ∧ r.port = .idle ∧ r.cmd.opB.getLsbD 21 = false ∧
     (∀ i, i < count → (Tab.find? r.words i).isSome = true) ∧
     ∃ e', c.engine.effect c.cmroot r.cmd (rangeValues (cmdRanges c.engine c.cmroot r.cmd) ((List.range count).map (Tab.get 0 r.words))) = .inr e') ∧
    (turn (.cmInval true) 0 0 0 false).cmd.instr = .cmInval true ∧ (turn (.cmInval true) 0 0 0 false).cmd.hart.core = 0 ∧
    (let r := turn (.mxDrain true 3 (.reg 0) (.reg 0)) 0 0 31 false
     r.cmd.instr = .mxDrain true 3 (.reg 0) (.reg 0) ∧ r.draining = false ∧ r.row < 32 ∧
     ((executing r 0).core 0).running = some r ∧ ((executing r 0).core 0).engine.drainEntry = 0 ∧
     ((executing r 0x40).core 0).engine.drainEntry ≠ 0) ∧
    (let s := executing (turn (.mxDrain true 3 (.reg 0) (.reg 0)) 0 0 31 true) 0x40
     isDrain s.cur = true ∧ s.myCore.running = some (turn (.mxDrain true 3 (.reg 0) (.reg 0)) 0 0 31 true) ∧ (s.me.getX 11).toNat ≤ 128 ∧
     (s.me.getX 11).toNat % 4 = 0 ∧ (s.me.getX 12).toNat % 4 = 0) ∧
    (let s := (executing (turn (.mxDrain true 3 (.reg 0) (.reg 0)) 0 0 31 true) 0x40).setMe
       { (executing (turn (.mxDrain true 3 (.reg 0) (.reg 0)) 0 0 31 true) 0x40).me with x := (Vector.replicate 32 0).set 11 132 }
     s.myCore.running = some (turn (.mxDrain true 3 (.reg 0) (.reg 0)) 0 0 31 true) ∧ isDrain s.cur = true ∧ 128 < (s.me.getX 11).toNat) ∧
    isDrain (at_ ⟨0, 4⟩ id id).cur = true ∧ (at_ ⟨0, 4⟩ id id).myCore.running = none ∧ isDrain (user id).cur = false := by
  refine ⟨?_, ?_, ?_, ?_, ?_, ⟨?_, ?_, ?_, ?_, ?_, inr_of ?_⟩, ⟨?_, ?_, ?_, ?_, ?_, inr_of ?_⟩, ?_, ?_, ?_, ?_, ?_, ?_, ?_, ?_⟩ <;> decide +kernel

/-- An MX.LDW behind an executing MX.STREAM; a drain whose row is already at its home. -/
theorem witness_EngineTurns_loading :
    let q : Cmd := ⟨⟨0, 0⟩, .u, .mxLdw false (.reg 0) (.reg 0), 0, 0, 0, 0, 0, 0, 4, Vector.replicate 16 0, 0⟩
    let r := turn (.mxStream false 3 (.reg 0) (.reg 0)) 0x7C1 0 0 false
    let s := at_ ⟨0, 0⟩ id (fun c => { c with running := some r, queue := [q] })
    let d := turn (.mxDrain true 3 (.reg 0) (.reg 0)) 0 0 31 false
    (s.core 0).running = some r ∧ (s.core 0).loading = none ∧ (s.core 0).queue = [q] ∧ r.cmd.instr = .mxStream false 3 (.reg 0) (.reg 0) ∧
      q.instr = .mxLdw false (.reg 0) (.reg 0) ∧ (executing d 0x40).myCore.running = some d ∧ d.draining = false ∧ isDrain (executing d 0x40).cur = true := by
  decide +kernel

/-- The idle drain thread of a core that drains. -/
theorem witness_EngineTurns_entry :
    let s := at_ ⟨0, 0⟩ id (fun c => { c with
      running := some (turn (.mxDrain true 3 (.reg 0) (.reg 0)) 0 0 0 false), engine := { c.engine with drainEntry := 0x40 } })
    (s.core 0).running = some (turn (.mxDrain true 3 (.reg 0) (.reg 0)) 0 0 0 false) ∧ (s.core 0).engine.drainEntry ≠ 0 ∧ (s.thread ⟨0, 4⟩).status = .idle := by
  decide +kernel

/-- The last row of a tile, with scales and without. -/
theorem witness_StreamAccumulates :
    (∃ e', Engine.init.doStream 3 (turn (.mxStream true 3 (.reg 0) (.reg 0)) 0x7C1 0 0 false).cmd [0] = .inr e') ∧
    (∃ e', ({ Engine.init with mf := 2 } : Engine).doStream 0 (turn (.mxStream true 0 (.reg 0) (.reg 0)) 0x1AFFE000000020 0 0 false).cmd
      (List.replicate 33 0) = .inr e') := by
  refine ⟨inr_of ?_, inr_of ?_⟩ <;> decide +kernel

/-- A transfer of thread 0 of core 0 with n elements in its rows, and a machine with some in cluster 0. -/
def xfer (id n : Nat) (started : Bool) (done : Nat) (status : Option (Nat × Word × BitVec 14)) : Transfer :=
  ⟨BitVec.ofNat 64 id, ⟨0, 0⟩, .u, 0, 0, { XferRegs.init with shape := XferRegs.init.shape.set 0 (BitVec.ofNat 32 n) }, Vector.replicate 16 0, 0, started, none, done, [],
    .idle, status, false⟩

def moving (l : List Transfer) : State := (user id).setCluster 0 { Cluster.init with transfers := l }

/-- Seven transfers in flight and eight; one that a CANCEL names; a started one with a status, and one whose elements are written; one that waits with an
extent of 0; and a strict domain. -/
theorem witness_BlockTransfers :
    (isDrain (user id).cur = false ∧ isSpill (user id).cur = false ∧ (user id).strictReact (user id).cur = false) ∧
    (moving ((List.range 7).map (fun i => xfer i 8 true 0 none))).transfersOf ⟨0, 0⟩ < 8 ∧
    8 ≤ (moving ((List.range 8).map (fun i => xfer i 8 true 0 none))).transfersOf ⟨0, 0⟩ ∧
    (inDomain ⟨0, 0⟩ { dom0 with strict := true } ctx0 id id).strictReact ⟨0, 0⟩ = true ∧
    (let s := moving [xfer 7 8 true 0 none]
     (s.cluster 0).transfers.find? (fun y => decide (y.id = s.me.opX (.const 7)) && decide (y.hart = s.cur)) = some (xfer 7 8 true 0 none) ∧
     (s.cluster 0).transfers.find? (fun y => decide (y.id = s.me.opX (.const 6)) && decide (y.hart = s.cur)) = none) ∧
    (let l := [xfer 1 8 true 0 none, xfer 2 8 true 0 none, xfer 3 8 true 0 none, xfer 4 0 false 0 none]
     ((moving l).cluster 0).transfers.find? (fun y => !y.started) = some (xfer 4 0 false 0 none) ∧
     (((moving l).cluster 0).transfers.filter Transfer.started).length < 4 ∧ (xfer 4 0 false 0 none).regs.total = 0) ∧
    (let x := xfer 7 8 true 3 (some (2, 5, 0))
     ((moving [x]).cluster 0).transfers.find? (fun y => decide (y.id = x.id) && y.started) = some x ∧ x.status = some (2, 5, 0)) ∧
    (let x := xfer 7 8 true 8 none
     ((moving [x]).cluster 0).transfers.find? (fun y => decide (y.id = x.id) && y.started) = some x ∧ x.status = none ∧ x.port = .idle ∧ x.elems ≤ x.done) := by
  decide +kernel

/-- A thread of a core of any kind, at a level. -/
def atLevel (core : Nat) (l : Level) (f : Thread → Thread) (g : Core → Core) : State := at_ ⟨core, 0⟩ (fun t => f { t with level := l }) g

/-- The greatest cause; a delegated one with a vector, in a handler and without a vector; a forced one; one not delegated; on a compute and
on a hub core; and each delegation of a hub core. -/
theorem witness_TrapEntry :
    (let s := at_ ⟨0, 0⟩ (fun t => { t with user := { t.user with utvec := 0x40 } }) (fun c => { c with mudeleg := delegMask .compute })
     let t := s.thread ⟨0, 0⟩
     40 < 64 ∧ t.level = .u ∧ forced ⟨0, 0⟩ 40 0 = false ∧ delegated s ⟨0, 0⟩ 40 = true ∧ t.user.h = false ∧ t.user.utvec ≠ 0 ∧
     forced ⟨0, 0⟩ 24 0x100 = true ∧ forced ⟨0, 4⟩ 40 0 = true ∧ forced ⟨0, 0⟩ 63 0 = false ∧ delegated s ⟨0, 0⟩ 63 = false ∧ kindOf 0 = .compute) ∧
    (let s := at_ ⟨0, 0⟩ (fun t => { t with user := { t.user with utvec := 0x40, h := true } }) (fun c => { c with mudeleg := delegMask .compute })
     forced ⟨0, 0⟩ 0 0 = false ∧ delegated s ⟨0, 0⟩ 0 = true ∧ (s.thread ⟨0, 0⟩).user.h = true) ∧
    (let s := atLevel 4352 .u (fun t => { t with priv := { t.priv with sudeleg := delegMask .hub, msdeleg := 1 } }) id
     let h : Hart := ⟨4352, 0⟩
     (s.thread h).level = .u ∧ forced h 0 0 = false ∧ delegated s h 0 = true ∧ (s.thread h).user.utvec = 0 ∧ kindOf h.core = .hub ∧
     (s.thread h).priv.msdeleg.getLsbD 0 = true ∧ (s.thread h).priv.msdeleg.getLsbD 2 = false ∧ delegated s h 2 = true ∧ delegated s h 1 = false ∧
     forced h 24 0x100 = true ∧ kindOf h.core ≠ .compute) ∧
    (let s := atLevel 4096 .s (fun t => { t with priv := { t.priv with msdeleg := 2 } }) id
     let h : Hart := ⟨4096, 0⟩
     kindOf h.core ≠ .compute ∧ (s.thread h).level ≠ .u ∧ (s.thread h).level ≠ .m ∧ (s.thread h).priv.msdeleg.getLsbD 1 = true ∧
     (s.thread h).priv.msdeleg.getLsbD 0 = false) ∧
    ((atLevel 4096 .m id id).thread ⟨4096, 0⟩).level = .m := by decide +kernel

/-- Each privileged instruction where it may run, and at U level where it may not. -/
theorem witness_PrivilegeIsChecked :
    (∀ i ∈ [Instr.mret true, .mxSave true (.reg 0), .mxLoad true 0 (.reg 0), .wfi true], privOk (atLevel 0 .m id id).cur.core (atLevel 0 .m id id).me.level i = true) ∧
    (∀ i ∈ [Instr.sret true, .wfi true, .tlbWr true 0 (.reg 0) (.reg 0), .tlbInv true 0 (.reg 0) (.reg 0), .xlateDrain true (.reg 0) (.reg 0)],
      privOk (atLevel 4096 .s id id).cur.core (atLevel 4096 .s id id).me.level i = true) ∧
    (∀ i ∈ [Instr.ctxHalt true 0 (.reg 0) (.reg 0), .ctxSave true 0 (.reg 0) (.reg 0)],
      privOk (atLevel 4352 .s id id).cur.core (atLevel 4352 .s id id).me.level i = true) ∧
    (∀ i ∈ [Instr.mret true, .sret true, .wfi true, .tlbWr true 0 (.reg 0) (.reg 0), .tlbInv true 0 (.reg 0) (.reg 0), .xlateDrain true (.reg 0) (.reg 0),
        .mxSave true (.reg 0), .mxLoad true 0 (.reg 0), .ctxHalt true 0 (.reg 0) (.reg 0), .ctxSave true 0 (.reg 0) (.reg 0)],
      privOk (user id).cur.core (user id).me.level i = false) := by decide +kernel

/-- A user thread with function 0, 1 and the greatest; a hub thread at U and at S; the returns of M and of S; WFI with and without an
enabled pending interrupt. -/
theorem witness_CallsAndReturns :
    (kindOf (user id).cur.core = .compute ∧ (user id).cur.th < 4 ∧ (user id).me.level = .u ∧ (user id).me.getX 10 ≠ 1) ∧
    (user (fun t => { t with x := t.x.set 10 1 })).me.getX 10 = 1 ∧
    (kindOf (atLevel 4352 .u id id).cur.core ≠ .compute ∧ (atLevel 4352 .u id id).me.level = .u) ∧
    (kindOf (atLevel 4096 .s id id).cur.core ≠ .compute ∧ (atLevel 4096 .s id id).me.level ≠ .u) ∧ (atLevel 0 .m id id).me.level = .m ∧
    (let s := atLevel 4096 .s (fun t => { t with priv := { t.priv with mip := 2, mie := 2 } }) id
     privOk s.cur.core s.me.level (.wfi true) = true ∧ (s.me.priv.mip &&& s.me.priv.mie) ||| (s.me.priv.sip &&& s.me.priv.sie) ≠ 0) ∧
    (let s := atLevel 4096 .s id id
     privOk s.cur.core s.me.level (.wfi true) = true ∧ (s.me.priv.mip &&& s.me.priv.mie) ||| (s.me.priv.sip &&& s.me.priv.sie) = 0) := by
  decide +kernel

theorem read_of {r : SysRead} {h : Hart} (f : Nat → Bool) (x : (match r with
    | .ok v s => decide (s.cur = h) && f v
    | .stop _ => false) = true) : ∃ v s, r = .ok v s ∧ s.cur = h ∧ f v = true := by
  cases r with
  | ok v s => exact ⟨v, s, rfl, by simpa using x⟩
  | stop _ => simp at x

/-- A save engine finds no error on lines of a memory that has none. -/
theorem rawMeet_clean {s : State} {x : Place} (o : BitVec 12) (w : Bool) (e : (s.sram x).errs = []) (oe : (s.sram x).ownerErrs = []) (so : (s.sram x).soft = []) :
    ∀ (l : List RawAt) (i : Nat), (∀ p ∈ l, ∃ off, p = .sram x off) → s.rawMeet o (l.map (fun p => (p, w))) i = (none, s) := by
  intro l
  induction l with
  | nil => exact fun _ _ => rfl
  | cons p t ih =>
    intro i h
    obtain ⟨off, rfl⟩ := h p (by simp)
    have c : ∀ ws : List Nat, s.correct x ws = s := by
      intro ws
      induction ws with
      | nil => rfl
      | cons v ws iw => simpa [State.correct, so, Tab.find?] using iw
    have b (ws : List Nat) : s.badLines x ws = [] := by simp [State.badLines, e, oe, so, Tab.find?]
    simp only [List.map_cons, State.rawMeet, b, State.mend, c]
    exact ih (i + 1) (fun q hq => h q (by simp [hq]))

theorem map_of {r : RawMap} {w : Bool} (x : Place) (h : (match r with
    | .ok l s => l.all (fun p => match p with
        | .sram q _ => decide (q = x)
        | _ => false) && decide ((s.sram x).errs = []) && decide ((s.sram x).ownerErrs = []) && decide ((s.sram x).soft = [])
    | _ => false) = true) : ∃ l s s1, r = .ok l s ∧ s.rawMeet s.myCore.mowner (l.map (fun p => (p, w))) 0 = (none, s1) := by
  cases r with
  | ok l s =>
    simp only [Bool.and_eq_true, decide_eq_true_eq, List.all_eq_true] at h
    refine ⟨l, s, s, rfl, rawMeet_clean _ _ h.1.1.2 h.1.2 h.2 l 0 fun p hp => ?_⟩
    have := h.1.1.1 p hp
    cases p <;> simp at this
    exact ⟨_, by rw [this]⟩
  | wait _ => simp at h
  | fault _ _ => simp at h

/-- A translation core at S whose local SRAM holds an image of a TLB entry at 0x40. -/
def walker (image : Nat) : State :=
  atLevel 4096 .s id (fun c => { c with sram := { c.sram with cells := writeLe [] 0x40 32 image } })

/-- That core once its load has gathered the words of the image. -/
def walked (image : Nat) : State :=
  atLevel 4096 .s (fun t => { t with gathered := (List.range 4).map (fun i => BitVec.ofNat 64 (image / 2 ^ (64 * i))) }) id

/-- An entry of the last page of 512 KiB, and a malformed one; the ends of the operands of TLB.WR and TLB.INV; a drain of an empty network and of
an older access; and an idle and a busy engine with its image at the end of the shared SRAM. -/
theorem witness_TranslationInstructions :
    (let s := walked (2 ^ 56 - 2 ^ 19 + 2 ^ 128 * 0xF000)
     privOk s.cur.core s.me.level (.tlbWr true 5 (.reg 6) (.reg 7)) = true ∧
     (∃ v s1, s.sysRead (s.me.opX (.lit32 0x40)) 32 32 = .ok v s1 ∧ s1.cur = s.cur ∧ (tlbImage v).isSome = true) ∧
     bits (s.me.opX (.const 15)) 4 60 = 0 ∧ bits (s.me.opX (.const 16)) 4 60 ≠ 0) ∧
    (∃ v s1, (walked (2 ^ 56)).sysRead ((walked (2 ^ 56)).me.opX (.lit32 0x40)) 32 32 = .ok v s1 ∧ s1.cur = (walked (2 ^ 56)).cur ∧ (tlbImage v).isNone = true) ∧
    (let s := walker 0
     privOk s.cur.core s.me.level (.tlbInv true 5 (.reg 6) (.reg 7)) = true ∧ bits (s.me.opX (.lit32 0xFFFF)) 16 48 = 0 ∧ bits (s.me.opX (.lit32 0x10000)) 16 48 ≠ 0 ∧
     (let w := s.me.opX (.lit64 0x80FFFFFFFFF80FFF); bits w 56 6 = 0 ∧ bits w 12 7 = 0 ∧ bits w 62 2 ≠ 3) ∧
     bits (s.me.opX (.lit64 0xC000000000000000)) 62 2 = 3 ∧
     privOk s.cur.core s.me.level (.xlateDrain true (.reg 6) (.reg 7)) = true ∧ s.olderInFlight 0 0 = [] ∧ s.me.drain = none) ∧
    (let s := { walker 0 with net := [.access { far 0 with asid := 4095, gen := 1, id := 7 }] }
     privOk s.cur.core s.me.level (.xlateDrain true (.reg 6) (.reg 7)) = true ∧ s.olderInFlight 4095 2 = [7]) ∧
    (let s := atLevel 0 .m id id
     let x := s.me.opX (.lit64 0x1000000003E92C0)
     privOk s.cur.core s.me.level (.mxSave true (.reg 6)) = true ∧ s.resolveRange s.cur x.toNat 93504 ≠ none ∧ x.toNat % 64 = 0 ∧
     s.myCore.cmds = [] ∧ (∃ l s0 s1, s.rawMap s.cur s.me.level .write x 1461 [] = .ok l s0 ∧ s0.rawMeet s0.myCore.mowner (l.map (fun p => (p, true))) 0 = (none, s1)) ∧
     ∃ l s0 s1, s.rawMap s.cur s.me.level .read x 1461 [] = .ok l s0 ∧ s0.rawMeet s0.myCore.mowner (l.map (fun p => (p, false))) 0 = (none, s1)) ∧
    (let s := atLevel 0 .m id (fun c => { c with queue := [⟨⟨0, 0⟩, .u, .mxSwap false, 0, 0, 0, 0, 0, 0, 4, Vector.replicate 16 0, 0⟩] })
     privOk s.cur.core s.me.level (.mxSave true (.reg 6)) = true ∧ s.resolveRange s.cur 0 93504 ≠ none ∧ s.myCore.cmds ≠ []) := by
  refine ⟨⟨?_, read_of (fun v => (tlbImage v).isSome) ?_, ?_, ?_⟩, read_of (fun v => (tlbImage v).isNone) ?_, ?_, ?_,
    ⟨?_, ?_, ?_, ?_, map_of (.cluster 0) ?_, map_of (.cluster 0) ?_⟩, ?_⟩ <;> decide +kernel

/-- The image before it is gathered, in plain words of the core's own SRAM. -/
theorem witness_TranslationInstructions_gather :
    let s := walker (2 ^ 56)
    privOk s.cur.core s.me.level (.tlbWr true 5 (.reg 6) (.reg 7)) = true ∧ s.me.AtStart ∧
      s.resolveRange s.cur (s.me.opX (.lit32 0x40)).toNat 32 = some (.sram (.core s.cur.core) 0x40) ∧ (s.me.opX (.lit32 0x40)).toNat % 32 = 0 ∧
      s.pmpOk s.cur (s.me.opX (.lit32 0x40)).toNat 32 .read = true ∧ ∀ i, i < 4 → PlainWord s 0 (0x40 / 8 + i) := by
  refine ⟨?_, ⟨?_, ?_, ?_, ?_⟩, ?_, ?_, ?_, plain_of ?_ ?_ ?_ ?_ ?_⟩ <;> decide +kernel

/-- A hub core at S, with context 1 as given and a descriptor at 0x40. -/
def hub (c : Ctx) : State :=
  { atLevel 4352 .s id (fun c => { c with sram := { c.sram with cells := writeLe [] 0x40 8 0x1000 } }) with ctxs := [(1, c)] }

/-- A running context, one whose halt is requested and one whose halt is complete; none; and the descriptor of a save. -/
theorem witness_ContextInstructions :
    (∀ c ∈ [ctx0, { ctx0 with halt := 1 }, { ctx0 with halt := 2 }],
      let s := hub c
      privOk s.cur.core s.me.level (.ctxHalt true 5 (.reg 6) (.reg 7)) = true ∧ Tab.find? s.ctxs (bits (s.me.opX (.const 1)) 0 32) = some c ∧
      bits (s.me.opX (.const 1)) 32 32 = 0 ∧ bits (s.me.opX (.const 3)) 2 62 = 0 ∧ c.dbg.stopped = none ∧ c.dbg.target = none ∧ c.dbg.asked = none ∧
      c.saving = none ∧ c.dbg.mark = none ∧ c.mirroring = none ∧ c.away = false) ∧
    ctx0.halt = 0 ∧ ({ ctx0 with halt := 1 } : Ctx).halt ≠ 0 ∧
    (let s := hub ctx0
     (s.me.opX (.const 1)).getLsbD 1 = false ∧ (s.me.opX (.const 2)).getLsbD 1 = true ∧ (s.me.opX (.const 2)).getLsbD 0 = false ∧
     Tab.find? s.ctxs (bits (s.me.opX (.const 2)) 0 32) = none ∧ (s.me.opX (.const 0)).getLsbD 0 = false) ∧
    (let s := (hub { ctx0 with halt := 2 }).setMe { (hub ctx0).me with gathered := [0x1000, 0, 0, 0, 0, 0, 0, 0] }
     privOk s.cur.core s.me.level (.ctxSave true 5 (.reg 6) (.reg 7)) = true ∧ (s.me.opX (.lit32 0x40)).toNat % 64 = 0 ∧
     ∃ v s1, s.sysRead (s.me.opX (.lit32 0x40)) 64 64 = .ok v s1 ∧ s1.cur = s.cur ∧ decide (v < 256 ^ 32) = true) := by
  refine ⟨?_, ?_, ?_, ?_, ?_, ?_, read_of (fun v => decide (v < 256 ^ 32)) ?_⟩ <;> decide +kernel

/-- The save descriptor before it is gathered, on a hub core whose PMP lets S through. -/
theorem witness_ContextInstructions_gather :
    let s := hub { ctx0 with halt := 2 }
    privOk s.cur.core s.me.level (.ctxSave true 5 (.reg 6) (.reg 7)) = true ∧ s.me.AtStart ∧
      Tab.find? s.ctxs (bits (s.me.opX (.const 1)) 0 32) = some { ctx0 with halt := 2 } ∧ bits (s.me.opX (.const 1)) 32 32 = 0 ∧
      s.resolveRange s.cur (s.me.opX (.lit32 0x40)).toNat 64 = some (.sram (.core s.cur.core) 0x40) ∧ (s.me.opX (.lit32 0x40)).toNat % 64 = 0 ∧
      s.pmpOk s.cur (s.me.opX (.lit32 0x40)).toNat 64 .read = true ∧ ∀ i, i < 8 → PlainWord s 0 (0x40 / 8 + i) := by
  refine ⟨?_, ⟨?_, ?_, ?_, ?_⟩, ?_, ?_, ?_, ?_, ?_, plain_of ?_ ?_ ?_ ?_ ?_⟩ <;> decide +kernel

/-- The ends of the ranges; a partition with a context and one without; clusters free, taken and withheld. -/
theorem witness_RegisterSteps :
    csrOk 0 ((user id).thread ⟨0, 0⟩).level 0xC02 = true ∧ csrOk 0 ((user id).thread ⟨0, 0⟩).level 0xC03 = false ∧
    100 ≤ (100 : Word).toNat ∧ (100000 : Word).toNat ≤ 100000 ∧ ¬ 100 ≤ (99 : Word).toNat ∧ ¬ (100001 : Word).toNat ≤ 100000 ∧
    10 ≤ (10 : Word).toNat ∧ (10000 : Word).toNat ≤ 10000 ∧ ¬ 10 ≤ (9 : Word).toNat ∧ ¬ (10001 : Word).toNat ≤ 10000 ∧
    (let s := inDomain ⟨0, 0⟩ dom0 ctx0 id id
     (∀ c ∈ s.ctxs, c.2.part ≠ 63) ∧ bits (4095 : Word) 0 12 ≠ 0 ∧ bits (0x1000 : Word) 0 12 = 0 ∧ ¬ ∀ c ∈ s.ctxs, c.2.part ≠ 0) ∧
    (let s := { inDomain ⟨0, 0⟩ dom0 ctx0 id id with dev := { State.reset.dev with withheld := [254] } }
     let named (v : Word) := ((List.range 64).filter (fun i => v.getLsbD i)).map (fun i => 64 * 3 + i)
     named 0x3 = [192, 193] ∧ (∀ c ∈ named 0x3, c ∉ s.dev.withheld ∧ ∀ q ∈ s.parts, q.1 ≠ 1 → c ∉ q.2.clusters) ∧
     (∀ c ∈ (s.part 1).clusters, c / 64 = 3 → c ∉ named 0x3 → s.residentOn 1 c = false) ∧ 254 ∈ named 0x4000000000000000 ∧ 254 ∈ s.dev.withheld ∧
     255 ∈ named 0x8000000000000000 ∧ 255 ∈ (s.part 0).clusters) := by
  decide +kernel

/-- An orbit that leaves no partition with a grid without slots; a pending orbit write; and DEVID open and locked. -/
theorem witness_RegisterSteps_orbit :
    (∀ m : Nat, m < 64 → State.reset.partHasGrid m = true → 0 < slotsOf State.reset.orbitPending m →
      0 < slotsOf (Tab.put 0 63 ((0x40 : Word).setWidth 7) State.reset.orbitPending) m) ∧
    ({ State.reset with orbitNext := [(63, 0x7F)] } : State).orbitNext = [(63, 0x7F)] ∧
    (∀ m : Nat, m < 64 → State.reset.partHasGrid m = true → 0 < slotsOf State.reset.orbit m → 0 < slotsOf State.reset.orbitPending m) ∧
    State.reset.dev.devLock = false ∧ State.reset.dev.bootOk = true ∧ ¬ ({ State.reset with dev := { State.reset.dev with devLock := true } } : State).dev.devLock = false := by
  decide +kernel

/-- An access of thread 0 of core 0 with number 9 to the last word of cluster 0's SRAM. -/
def toCluster : Access := { far 0 with id := 9, home := .sram (.cluster 0), elems := [(0x3FFFF8, 0)], esize := 8 }

def withNet (l : List Msg) : State := { user (fun t => { t with status := .access, pend := some ⟨[9], 0, .writeX 5 .d, 4, false⟩ }) with net := l }

def withShared (f : Sram → Sram) : State := (user id).setCluster 0 { Cluster.init with sram := f Sram.init }

theorem plain_shared : 0x7FFFF ∉ (Sram.init).errs ∧ 0x7FFFF / 8 ∉ (Sram.init).ownerErrs ∧
    bits (Sram.init.entry 0x7FFFF (kindAt (.cluster 0) toCluster) (Sram.init.tagFor toCluster.owner 0x7FFFF)) 0 4 = 0 ∧
    bits (Sram.init.entry 0x7FFFF (kindAt (.cluster 0) toCluster) (Sram.init.tagFor toCluster.owner 0x7FFFF)) 7 1 = 0 := by decide +kernel

/-- The access alone and behind one that its thread made before; its answer; the acknowledgement of a cleared one; and the access woken and held. -/
theorem witness_AccessSteps :
    (let s := withNet [.access toCluster]
     s.msg? 9 = some (.access toCluster) ∧ s.behind toCluster = false ∧ toCluster.home = .sram (.cluster 0) ∧ toCluster.op = .load ∧
     toCluster.elems = [(0x3FFFF8, 0)] ∧ 1 ≤ toCluster.esize ∧ 0x3FFFF8 % 8 + toCluster.esize ≤ 8 ∧ s.sram (.cluster 0) = Sram.init ∧
     (s.sram (.cluster 0)).parks.all (fun q => !(q.woken && decide (q.word = 0x7FFFF))) = true) ∧
    (let s := withNet [.access { toCluster with id := 8, grp := 8 }, .access { toCluster with grp := 9 }]
     s.msg? 9 = some (.access { toCluster with grp := 9 }) ∧ s.behind { toCluster with grp := 9 } = true) ∧
    (let s := withNet [.reply toCluster (.value 5 false)]
     s.msg? 9 = some (.reply toCluster (.value 5 false)) ∧ toCluster.issuer = .thread ∧ toCluster.cleared = false ∧
     (s.thread toCluster.hart).late = [] ∧ (s.thread toCluster.hart).status = .access ∧
     (s.thread toCluster.hart).pend = some ⟨[9], 0, .writeX 5 .d, 4, false⟩) ∧
    (let s := user (fun t => { t with status := .access, pend := some ⟨[9], 0, .writeX 5 .d, 4, true⟩ })
     s.agenda = [] ∧ s.me.status = .access ∧ s.me.rep = none ∧ s.halting s.cur.core = false ∧ s.me.pend = some ⟨[9], 0, .writeX 5 .d, 4, true⟩ ∧
     s.clean [9] = true ∧ s.logAllows s.cur = true) ∧
    (let s := { user (fun t => { t with status := .late, late := [⟨[9], 0, .writeX 5 .d, 0⟩] }) with net := [.reply toCluster (.value 5 false)] }
     s.msg? 9 = some (.reply toCluster (.value 5 false)) ∧ (s.thread toCluster.hart).status = .late ∧ (s.thread toCluster.hart).pend = none ∧
     (s.thread toCluster.hart).late = [⟨[9], 0, .writeX 5 .d, 0⟩]) ∧
    (let a := { toCluster with cleared := true }
     (withNet [.reply a (.value 0 false)]).msg? 9 = some (.reply a (.value 0 false)) ∧ a.cleared = true) ∧
    (let s := withShared (fun m => { m with parks := [⟨toCluster, 31, 0x7FFFF, true⟩] })
     placeOf 8192 = .cluster 0 ∧ (s.sram (.cluster 0)).parks.find? (fun x => x.woken && decide (x.bank = 31)) = some ⟨toCluster, 31, 0x7FFFF, true⟩ ∧
     Place.cluster 0 ≠ .core toCluster.hart.core) ∧
    (let s := withShared (fun m => { m with held := [toCluster], parks := List.replicate 7 ⟨far 0, toCluster.bank, 0, false⟩ })
     s.cores.all (fun q => q.2.sram.held.all (fun x => decide (x.id ≠ toCluster.id))) = true ∧
     List.find? (fun q : Nat × Cluster => q.2.sram.held.any (fun x => decide (x.id = toCluster.id))) s.clusters = some (0, s.cluster 0) ∧
     (s.sram (.cluster 0)).held.find? (fun x => decide (x.id = toCluster.id)) = some toCluster ∧
     (s.sram (.cluster 0)).parks.all (fun q => !(q.woken && decide (q.word = 0x7FFFF))) = true ∧
     ((s.sram (.cluster 0)).parks.filter (fun q => decide (q.bank = toCluster.bank))).length < 8) ∧
    (let s := withShared (fun m => { m with held := [toCluster], parks := List.replicate 8 ⟨far 0, toCluster.bank, 0, false⟩ })
     8 ≤ ((s.sram (.cluster 0)).parks.filter (fun q => decide (q.bank = toCluster.bank))).length) ∧
    (let a := { toCluster with home := .peer 5 }
     (withNet [.access a]).msg? 9 = some (.access a) ∧ (withNet [.access a]).portUp a = false) ∧
    Tab.find? Sram.init.soft 0x7FFFF = none := by decide +kernel

/-- A message to a thread whose inbox has one place left, and none; the spill thread wanted; the user interrupt; the last M-level interrupt and an
S-level one. -/
theorem witness_ThreadSteps :
    (let s := { mail (List.replicate 47 (entryTo 0 false)) 0 with net := [.user 3 ⟨1, 0⟩ 0 0] }
     s.msg? 3 = some (.user 3 ⟨1, 0⟩ 0 0) ∧ (s.core 0).inbox.length < 48 ∧ s.earlierTo 3 ⟨1, 0⟩ 0 = false ∧
     (s.thread ⟨0, (headerDst ((0 : BitVec 512).setWidth 64)).val⟩).status ≠ .idle) ∧
    (let s := { mail (List.replicate 48 (entryTo 0 false)) 0 with net := [.user 3 ⟨1, 0⟩ 0 0] }
     s.msg? 3 = some (.user 3 ⟨1, 0⟩ 0 0) ∧ 48 ≤ (s.core 0).inbox.length ∧ (s.thread ⟨0, 5⟩).status = .idle ∧ (s.core 0).spillMonitor = false ∧ s.entryWaits 0 = true) ∧
    (let s := at_ ⟨0, 0⟩ id (fun c => { c with spillAsk := true })
     (s.thread ⟨0, 5⟩).status = .idle ∧ (s.core 0).spillMonitor = false ∧ s.entryWaits 0 = false ∧ s.spillWanted 0 = true) ∧
    (let s := user (fun t => { t with user := { t.user with pend := true, uie := true, utvec := 0x40 } })
     let t := s.thread ⟨0, 0⟩
     isUserThread ⟨0, 0⟩ = true ∧ t.user.pend = true ∧ t.user.uie = true ∧ t.user.h = false ∧ t.user.utvec ≠ 0 ∧ t.status = .run ∧ t.level = .u) ∧
    (let s := user (fun t => { t with priv := { t.priv with mip := 0x104, mie := 0x100 } })
     (s.thread ⟨0, 0⟩).status = .run ∧ (s.thread ⟨0, 0⟩).interruptM = some 72) ∧
    (let s := atLevel 4352 .u (fun t => { t with priv := { t.priv with sip := 0x48, sie := 0x40 } }) id
     (s.thread ⟨4352, 0⟩).status = .run ∧ (s.thread ⟨4352, 0⟩).interruptM = none ∧ kindOf 4352 ≠ .compute ∧ (s.thread ⟨4352, 0⟩).interruptS = some 70) := by
  decide +kernel

/-- A grid of queue 64 in context 1 with one resident group of one node on core 0. -/
def grid0 : Grid := {
  ctx := 1, queue := 64, parent := 0, depth := 0, signal := 0, stages := [⟨0x100, 0, 1⟩], groups := [⟨0, 0, 0, 1, [0], 1⟩], children := [], childq := []
  gang := false, domain := true, dom := 0, packet := [], cmroot := 0, deleg := 0, limit := 5, used := 0, order := 1, recs := [], applied := [], spill := none
  aborting := none, complete := false }

def inGrid (d : Domain) (c : Ctx) (g : Grid) (f : Thread → Thread) : State :=
  { inDomain ⟨0, 0⟩ d c (fun t => f { t with grid := 1 }) id with grids := [(1, g)], orbit := [(5, 0x40)] }

def report0 (cause : Nat) : Report := ⟨⟨0, 0⟩, BitVec.ofNat 64 cause, 0, 0, 0, 0, 1, 5, 0, 1⟩

/-- The state with hub core 0 edited. -/
def withHub (s : State) (g : Core → Core) : State := s.setCore 4352 (g (s.core 4352))

/-- Two reports with room and with one that waits, of a hub core that runs and one in WFI; a report of a thread that still waits for it and one of a
grid that is gone; and a message of each kind. -/
theorem witness_ReportSteps :
    (let s := withHub (atLevel 4352 .u id id) (fun c => { c with reports := [(7, report0 2), (8, report0 3)] })
     (s.core (hubCore 0)).reports = [(7, report0 2), (8, report0 3)] ∧ (s.core (hubCore 0)).handling = false ∧ (s.thread ⟨hubCore 0, 0⟩).status = .run ∧
     (s.thread ⟨hubCore 0, 0⟩).level = .u ∧ (s.core (hubCore 0)).reportsHeld = []) ∧
    (let s := withHub (atLevel 4352 .s (fun t => { t with status := .wfi, priv := { t.priv with mstatus := 2 } }) id)
       (fun c => { c with reports := [(7, report0 2)], reportsHeld := [report0 3] })
     (s.core (hubCore 0)).reports = [(7, report0 2)] ∧ (s.core (hubCore 0)).handling = false ∧ (s.thread ⟨hubCore 0, 0⟩).status = .wfi ∧
     (s.thread ⟨hubCore 0, 0⟩).level = .s ∧ (s.thread ⟨hubCore 0, 0⟩).priv.mstatus.getLsbD 1 = true ∧ (s.core (hubCore 0)).reportsHeld = [report0 3]) ∧
    (let s := withHub (inGrid dom0 ctx0 grid0 (fun t => { t with status := .report })) (fun c => { c with report := some (7, report0 8), handling := true })
     (s.core (hubCore 0)).report = some (7, report0 8) ∧ s.reportStale (report0 8) = false ∧ bits (report0 8).cause 62 1 = 0 ∧ bits (report0 8).cause 0 7 = 8 ∧
     (s.thread ⟨0, 0⟩).status = .report ∧ (report0 8).hart.core ≠ hubCore 0 ∧ (s.thread ⟨0, 0⟩).repeat? = none ∧ Tab.find? s.grids (report0 8).grid = some grid0 ∧
     grid0.complete = false ∧ grid0.aborting = none) ∧
    (let s := withHub (inGrid dom0 ctx0 { grid0 with aborting := some 5 } (fun t => { t with status := .report })) (fun c => { c with report := some (7, report0 8) })
     (s.core (hubCore 0)).report = some (7, report0 8) ∧ s.reportStale (report0 8) = true) ∧
    (∀ d : Bool, (let m : Miss := ⟨7 * 2 ^ 19, 2, 0, d, 4095, 65535⟩
      let s := at_ ⟨15, 0⟩ id (fun c => { c with notes := [m] })
      (s.core 15).notes = [m] ∧ m.dirty = d ∧ m.access < 3 ∧ (s.core (walkerOf (clusterOf 15))).inbox.length < 48)) := by
  decide +kernel

/-- Both members blocked on signal 0, with vectors; one that runs; both paused; both ended with nothing on its way; a send of two beats in its slot;
and a beat due. -/
theorem witness_InstantSteps :
    (let s := inDomain ⟨0, 0⟩ dom0 ctx0 (fun t => { t with status := .signal 0 true, user := { t.user with utvec := 0x40 } }) (fun c => { c with mudeleg := delegMask .compute })
     let s := (s.setCore 1 { s.core 1 with mudeleg := delegMask .compute }).setThread ⟨1, 0⟩ { s.thread ⟨1, 0⟩ with status := .signal 0 false, user := { UserCsrs.init with utvec := 0x80 } }
     let s := s.setCore 1 { s.core 1 with mudeleg := delegMask .compute }
     Tab.find? s.domains 0 = some dom0 ∧ s.cycleDue dom0 = true ∧ dom0.declared = false ∧ dom0.live.all s.takesCycle = true ∧
     (∀ m ∈ dom0.live, isUserThread m.hart = true) ∧ dom0.live.Pairwise (fun x y => x.hart ≠ y.hart) ∧
     ∀ m ∈ dom0.live, (s.blockedOn dom0 m).isSome = true) ∧
    (inDomain ⟨0, 0⟩ dom0 ctx0 id id).cycleDue dom0 = false ∧
    (let d := { dom0 with members := dom0.members.map (fun m => { m with paused := some 5 }) }
     let s := inDomain ⟨0, 0⟩ d ctx0 (fun t => { t with status := .pause }) id
     Tab.find? s.domains 0 = some d ∧ d.exch = false ∧ d.reactEnded = false ∧ (∀ m ∈ d.members, m.paused ≠ none ∨ m.exited = true) ∧ s.halfQuiet d = true) ∧
    (let d := { dom0 with reactEnded := true, members := dom0.members.map (fun m => { m with paused := some 5 }) }
     let s := inDomain ⟨0, 0⟩ d ctx0 (fun t => { t with status := .pause }) id
     Tab.find? s.domains 0 = some d ∧ d.exch = false ∧ d.reactEnded = true ∧ s.memberHalted d = false ∧ s.halfQuiet d = true ∧ d.members.Pairwise (fun x y => x.hart ≠ y.hart)) ∧
    (let d := { dom0 with exch := true, slot := 4, sends := [⟨⟨0, 3, 2, 1, true, 0x40⟩, 0, ⟨0, 0⟩, 1, 4⟩], flying := [⟨⟨0, 0⟩, 3 + 1, 0x200000000000000, 7, 1, true⟩] }
     let s := inGrid d ctx0 grid0 id
     Tab.find? s.domains 0 = some d ∧ s.ownedSlots d.gid ≠ 0 ∧ d.stopped = false ∧ (∀ f ∈ d.flying, d.slot < f.slot + s.ownedSlots d.gid) ∧ s.gridHalting d.gid = false ∧ d.plan ≠ [] ∧
     s.beatErrors (d.sends.filter (fun b => decide (b.entry.slot + b.next = d.slot))) = none) ∧
    (let d := { dom0 with exch := true, plan := [] }
     let s := inGrid d ctx0 grid0 id
     Tab.find? s.domains 0 = some d ∧ d.exch = true ∧ d.plan = [] ∧ s.gridHalting d.gid = false) ∧
    (let f : Flying := ⟨⟨0, 0⟩, 3, 0x2000000001AFFC0, 7, 1, true⟩
     let d := { dom0 with exch := true, slot := 4, flying := [f] }
     let s := inGrid d ctx0 grid0 id
     Tab.find? s.domains 0 = some d ∧ d.flying = [f] ∧ f.slot + s.ownedSlots d.gid ≤ d.slot ∧ destOf f.dest = (.core 0, 0x1AFFC0) ∧ 0x1AFFC0 % 64 = 0 ∧
     s.lineError (.core 0) (s.gridOwner d.gid) 0x1AFFC0 = none) ∧
    (let d := { dom0 with exch := true, members := dom0.members.map (fun m => { m with ended := true }) }
     let s := inGrid d ctx0 grid0 (fun t => { t with status := .xend })
     Tab.find? s.domains 0 = some d ∧ (∀ m ∈ d.members, m.ended = true ∨ m.exited = true) ∧ d.flying = [] ∧ d.sends = [] ∧ s.halfQuiet d = true ∧ s.memberHalted d = false ∧
     d.members.Pairwise (fun x y => x.hart ≠ y.hart) ∧ Tab.find? s.grids d.gid = some grid0 ∧ Tab.find? s.ctxs grid0.ctx = some ctx0 ∧ ctx0.dbg.armed = none ∧ (d.instant + 1).toNat % 256 ≠ 0) := by
  decide +kernel

/-! The command processor's memory: a packet at 0x1000, an empty header at 0x2000, and from 0x3000 a launch image of one code record and the entry of stage
0, its stage table of one group of one node, that group's placement on core 0 of cluster 0, and a QCB of context 1. -/

def le64 : List Word → Nat
  | [] => 0
  | w :: t => w.toNat + 2 ^ 64 * le64 t

/-- The n low bytes of a number as cells from an address. -/
def bytesAt (a n v : Nat) : List Host.Cell := (List.range n).map (fun i => (a + i, BitVec.ofNat 8 (v / 256 ^ i)))

def image0 : List Word :=
  [0x000000014C4D494E, 0x0000000100000002, 0x0000000800000001, 0, 0, 0x0000000800000005, 0, 0,
   0, 1, 0x1000000000003060, 0, 0, 0, 0, 0,
   0x4000, 0x1001, 0x5000, 1, 0, 0, 0, 0, 0, 0, 0, 0, 0, 0, 0, 0]

def packet (w0 : Word) (l : List Word) : List Word := w0 :: l ++ List.replicate (15 - l.length) 0

def queue0 : Queue := ⟨0x1000, 1, 0, true, 0x2000, 1, 1, 0, false, true, [], none⟩

/-- Context 1, its queue q with a packet at its head, and grids. -/
def offered (q : Nat) (p : List Word) (gs : Tab Grid) (c : Ctx) : State :=
  let s := inDomain ⟨0, 0⟩ dom0 c id id
  { s with
    dram := ⟨bytesAt 0x1000 128 (le64 p) ++ bytesAt 0x2000 64 0 ++ bytesAt 0x3000 256 (le64 image0),
      [(0x40, 10), (0x41, 10), (0x80, 10), (0xC0, 10), (0xC1, 10), (0xC2, 10), (0xC3, 10)], [], [], []⟩
    dev := { State.reset.dev with keys := [(5, 9)] }
    walk := [(0, ⟨0, 0, 1, 0, 0, true, true, true, true, 5⟩)], queues := [(q, queue0)], qcache := [0, 64, 0xFFFFF], grids := gs, orbit := [(5, 0x40)] }

def launchPacket : List Word := packet 0x3 [0, 0, 0x1000000000003000, 0x1000000000003040]

theorem ok_of {α β : Type} {x : Except α β} (f : β → Bool) (h : (match x with
    | .ok y => f y
    | .error _ => false) = true) : ∃ y, x = .ok y ∧ f y = true := by
  cases x with
  | ok y => exact ⟨y, rfl, h⟩
  | error _ => simp at h

theorem launches : ∃ l, ((offered 64 launchPacket [] ctx0).cacheQueue 64).launch queue0 launchPacket = .ok l ∧ (!Launch.gang l) = true := by
  refine ok_of (fun l : Launch => !l.gang) ?_; decide +kernel

/-- A launch that BARRIER holds back. -/
def barredPacket : List Word := packet 0x83 [0, 0, 0x1000000000003000, 0x1000000000003040]

theorem launches_barred : ∃ l, ((offered 64 barredPacket [(1, grid0)] ctx0).cacheQueue 64).launch queue0 barredPacket = .ok l ∧ (!Launch.gang l) = true := by
  refine ok_of (fun l : Launch => !l.gang) ?_; decide +kernel

/-- NOP and MARK packets, well formed and not; a launch that is accepted and one that is refused; a notified queue, and a hinted one. -/
theorem witness_SchedulingSteps_packets :
    (let s := withHub { offered 64 [] [] ctx0 with queues := [(64, { queue0 with notified := true })] } (fun c =>
       { c with threads := [(0, { Thread.init .m with priv := { PrivCsrs.init with sip := 8 } })] })
     s.liveQueue 64 = some { queue0 with notified := true } ∧ (s.thread ⟨hubCore 0, 0⟩).priv.sip.getLsbD 3 = true) ∧
    (let s := offered 64 [] [] ctx0; s.liveQueue 64 = some queue0 ∧ queue0.read.toNat < queue0.hint.toNat) ∧
    (let p := packet 1 []; (offered 64 p [] ctx0).headPacket 64 = some (queue0, p) ∧ bits (p.headD 0) 1 3 = 0 ∧ plainOk p = true ∧ (offered 64 p [] ctx0).barred 64 p = false) ∧
    (let p := packet 0x8000000000000001 []; (offered 64 p [] ctx0).headPacket 64 = some (queue0, p) ∧ bits (p.headD 0) 1 3 = 0 ∧ plainOk p = false) ∧
    (let p := packet 5 []; (offered 64 p [(1, grid0)] ctx0).headPacket 64 = some (queue0, p) ∧ bits (p.headD 0) 1 3 = 2 ∧ plainOk p = true ∧
      (offered 64 p [(1, grid0)] ctx0).barred 64 p = false) ∧
    (let s := offered 64 (packet 0x13 []) [] ctx0
     s.headPacket 64 = some (queue0, packet 0x13 []) ∧ bits ((packet 0x13 []).headD 0) 1 3 = 1 ∧ ((s.cacheQueue 64).launch queue0 (packet 0x13 [])).isOk = false) ∧
    (let s := offered 64 launchPacket [] ctx0
     s.headPacket 64 = some (queue0, launchPacket) ∧ bits (launchPacket.headD 0) 1 3 = 1 ∧ s.barred 64 launchPacket = false ∧
     Tab.find? s.ctxs 1 = some ctx0) := by decide +kernel

/-- Packets that BARRIER holds back, and a queue with no packet. -/
theorem witness_SchedulingSteps_barred :
    (let p := packet 0x81 []; (offered 64 p [(1, grid0)] ctx0).headPacket 64 = some (queue0, p) ∧ plainOk p = true ∧
      (offered 64 p [(1, grid0)] ctx0).barred 64 p = true) ∧
    (let p := packet 0x85 []; (offered 64 p [(1, grid0)] ctx0).headPacket 64 = some (queue0, p) ∧ plainOk p = true ∧
      (offered 64 p [(1, grid0)] ctx0).barred 64 p = true) ∧
    (offered 64 barredPacket [(1, grid0)] ctx0).headPacket 64 = some (queue0, barredPacket) ∧
    (offered 64 barredPacket [(1, grid0)] ctx0).barred 64 barredPacket = true ∧ bits (barredPacket.headD 0) 1 3 = 1 ∧
    (offered 64 [] [] ctx0).headPacket 64 = none := by decide +kernel

/-- QUEUE packets that create the last queue, destroy a live one, and are malformed. -/
theorem witness_SchedulingSteps_queues :
    (let p := packet 7 [0, 1, 0xFFFFF, 0x1000000000003080]
     let s := offered 0 p [] ctx0
     let new : Queue := ⟨0x4000, 1, 0, true, 0x5000, 1, 0, 0, false, false, [], none⟩
     s.headPacket 0 = some (queue0, p) ∧ bits (p.headD 0) 1 3 = 3 ∧ (s.cacheQueue 0).queuePacketOk 0 queue0 p = true ∧ (p.getD 2 0).toNat = 1 ∧
     ((s.cacheQueue 0).cpWords 1 (p.getD 4 0).toNat 16).bind qcbOf = some new ∧ (s.cacheQueue 0).liveQueue 0xFFFFF = none ∧
     (s.cacheQueue 0).ctxFits 0 new.ctx = true ∧ s.barred 0 p = false ∧ Tab.find? s.ctxs new.ctx = some ctx0) ∧
    (let p := packet 7 [0, 1, 0xFFFFF, 0x1000000000003080]
     let s := { offered 0 p [] ctx0 with dram := { (offered 0 p [] ctx0).dram with
       cells := bytesAt 0x1000 128 (le64 p) ++ bytesAt 0x2000 64 0 ++ bytesAt 0x3000 256 (le64 (image0.set 19 2)) } }
     s.headPacket 0 = some (queue0, p) ∧
     ((s.cacheQueue 0).cpWords 1 (p.getD 4 0).toNat 16).bind qcbOf = some ⟨0x4000, 1, 0, true, 0x5000, 2, 0, 0, false, false, [], none⟩ ∧
     (s.cacheQueue 0).ctxFits 0 2 = true ∧ Tab.find? s.ctxs 2 = none) ∧
    (let p := packet 7 [0, 2, 64]
     let s := { offered 0 p [(1, grid0)] ctx0 with queues := [(0, queue0), (64, queue0)] }
     s.headPacket 0 = some (queue0, p) ∧ (s.cacheQueue 0).queuePacketOk 0 queue0 p = true ∧ (p.getD 2 0).toNat = 2 ∧ (s.cacheQueue 0).liveQueue 64 = some queue0 ∧ s.barred 0 p = false ∧
     queue0.step = none ∧ (s.cacheQueue 0).functionOf queue0 = 0 ∧ grid0.queue = 64 ∧ grid0.complete = false ∧ grid0.aborting = none) ∧
    (∀ g ∈ [grid0, { grid0 with complete := true }], let p := packet 7 [0, 2, 64]
     let r := { queue0 with step := some [1] }
     let s := { offered 0 p [(1, g)] ctx0 with queues := [(0, r), (64, { queue0 with live := false })] }
     s.headPacket 0 = some (r, p) ∧ (s.cacheQueue 0).queuePacketOk 0 r p = true ∧ [1].all s.gridOver = g.complete) ∧
    (let p := packet 7 [0, 3, 64]; let s := offered 0 p [] ctx0; s.headPacket 0 = some (queue0, p) ∧ (s.cacheQueue 0).queuePacketOk 0 queue0 p = false) := by decide +kernel

theorem ready_of {α β : Type} {x : Option (α × β)} {a : α} (h : x.map Prod.fst = some a) : ∃ b, x = some (a, b) := by
  cases x with
  | none => simp at h
  | some p => obtain ⟨y, b⟩ := p; exact ⟨b, by simpa using h⟩

theorem ready : ∃ s1, (offered 64 [] [(1, { grid0 with groups := [⟨0, 0, 0, 1, [0], 0⟩] })] ctx0).groupReady 1
    { grid0 with groups := [⟨0, 0, 0, 1, [0], 0⟩] } = some (⟨0, 0, 0, 1, [0], 0⟩, s1) := ready_of (by decide +kernel)

/-- A grid with a group to dispatch; one whose last node has ended; one that is being aborted; one with a limit; one whose resident group is blocked
while another waits; and a context that halts. -/
theorem witness_SchedulingSteps_grids :
    (let g := { grid0 with groups := [⟨0, 0, 0, 1, [0], 0⟩] }
     let s := offered 64 [] [(1, g)] ctx0
     Tab.find? s.grids 1 = some g ∧ ∀ y ∈ s.grids, s.beforeGrid y.2 g = false) ∧
    (let g := { grid0 with groups := [⟨0, 0, 0, 1, [0], 2⟩] }
     let s := offered 64 [] [(1, g)] ctx0
     Tab.find? s.grids 1 = some g ∧ g.complete = false ∧ g.aborting = none ∧ (∀ x ∈ g.groups, x.state = 2) ∧ g.children = [] ∧ g.childq = [] ∧
     s.gridQuiet 1 = true) ∧
    (let g := { grid0 with aborting := some 5 }
     let s := offered 64 [] [(1, g)] ctx0
     Tab.find? s.grids 1 = some g ∧ g.complete = false ∧ g.aborting = some 5 ∧ s.gridQuiet 1 = true ∧ grid0.limit ≠ 0 ∧ grid0.aborting = none ∧
     (∃ x ∈ grid0.groups, x.state ≠ 0) ∧ Tab.find? s.ctxs grid0.ctx = some ctx0 ∧ ctx0.halt ≠ 2 ∧ ctx0.away = false) ∧
    (let g := { grid0 with groups := [⟨0, 0, 0, 1, [0], 1⟩, ⟨0, 1, 0, 1, [0], 0⟩] }
     let s := inGrid dom0 ctx0 g (fun t => { t with status := .mrecv })
     Tab.find? s.grids 1 = some g ∧ g.complete = false ∧ g.aborting = none ∧ g.groups.filter (fun x => decide (x.state = 1)) = [⟨0, 0, 0, 1, [0], 1⟩] ∧
     (∀ y ∈ g.groups, y.state = 1 → s.groupBlocked y = true) ∧ ∃ y ∈ g.groups, y.state = 0) ∧
    (let s := hub { ctx0 with halt := 1 }; Tab.find? s.ctxs 1 = some { ctx0 with halt := 1 }) := by decide +kernel

/-- An image of a context of owner 5 with its context section alone. -/
def image1 : List Word := [0x0001000158434E4C, 0x0000000100000001, 120, 0, 0, 0, 0, 0, 0x0000002800000001, 7, 5, 0, 0, 0, 1]

/-- That image with one more section, of a kind and 24 bytes. -/
def image2 (kind : Nat) : List Word := (image1.set 1 0x0000000200000001).set 2 160 ++ [BitVec.ofNat 64 (0x1800000000 + kind), 9, 0, 0, 0]

/-- A machine with an image at 0x40 of hub core 0's SRAM. -/
def restoring (l : List Word) : State :=
  withHub { State.reset with parts := [(3, { Part.init with owner := 5 })], dev := { State.reset.dev with keys := [(5, 9)] } }
    (fun c => { c with sram := { c.sram with cells := writeLe [] 0x40 (8 * l.length) (le64 l) } })

theorem restored_of (l : List Word) (f : Restored State → Bool)
    (h : (match (restoring l).mailbox.rawImage 0x40 with
      | (some bs, s1) => (match parseImage bs with
        | some l => (match ofKind l 1 with
          | [x] => s1.restoreOk l 3 x.key (BitVec.ofNat 12 (fieldAt x.data 0 8)) && f (s1.rebuild l 3)
          | _ => false)
        | none => false)
      | _ => false) = true) : ∃ bs k x s1, (restoring l).mailbox.rawImage 0x40 = (some bs, s1) ∧ parseImage bs = some k ∧ ofKind k 1 = [x] ∧
      s1.restoreOk k 3 x.key (BitVec.ofNat 12 (fieldAt x.data 0 8)) = true ∧ f (s1.rebuild k 3) = true := by
  split at h
  · next bs s1 hs =>
    split at h
    · next k hk =>
      split at h
      · next x hx => exact ⟨bs, k, x, s1, hs, hk, hx, by simp only [Bool.and_eq_true] at h; exact h.1, by simp only [Bool.and_eq_true] at h; exact h.2⟩
      · simp at h
    · simp at h
  · simp at h

def isDone {α : Type} : Restored α → Bool
  | .done _ => true
  | _ => false

def isRefused {α : Type} : Restored α → Bool
  | .refused => true
  | _ => false

def isWaits {α : Type} : Restored α → Bool
  | .waits => true
  | _ => false

/-- An image that is restored; one with the section of a domain that has no grid; and one of a grid whose launch image has no mapping. -/
theorem witness_UpkeepSteps_restore :
    (∃ bs k x s1, (restoring image1).mailbox.rawImage 0x40 = (some bs, s1) ∧ parseImage bs = some k ∧ ofKind k 1 = [x] ∧
      s1.restoreOk k 3 x.key (BitVec.ofNat 12 (fieldAt x.data 0 8)) = true ∧ isDone (s1.rebuild k 3) = true) ∧
    (∃ bs k x s1, (restoring (image2 3)).mailbox.rawImage 0x40 = (some bs, s1) ∧ parseImage bs = some k ∧ ofKind k 1 = [x] ∧
      s1.restoreOk k 3 x.key (BitVec.ofNat 12 (fieldAt x.data 0 8)) = true ∧ isRefused (s1.rebuild k 3) = true) ∧
    (∃ bs k x s1, (restoring (image2 2)).mailbox.rawImage 0x40 = (some bs, s1) ∧ parseImage bs = some k ∧ ofKind k 1 = [x] ∧
      s1.restoreOk k 3 x.key (BitVec.ofNat 12 (fieldAt x.data 0 8)) = true ∧ isWaits (s1.rebuild k 3) = true) := by
  refine ⟨restored_of _ _ ?_, restored_of _ _ ?_, restored_of _ _ ?_⟩ <;> decide +kernel

/-- A halted context with a save request; the last word of the last memory, a word with an error that each code corrects, and one that the pass has
read; the last bank of a core, and a second failed one; a run of the greatest length that has issued, and one that has not; a function with a queue;
and each way in which bring-up ends. -/
theorem witness_UpkeepSteps :
    (let c := { ctx0 with halt := 2, saving := some ⟨⟨4352, 0⟩, .s, 0x40, 0x1000, 64⟩ }
     let s := hub c
     Tab.find? s.ctxs 1 = some c ∧ c.halt = 2 ∧ c.latching = false ∧ c.saving = some ⟨⟨4352, 0⟩, .s, 0x40, 0x1000, 64⟩) ∧
    8191 < 8192 ∧
    (∀ kind ∈ [0, 1], let s := at_ ⟨0, 0⟩ id (fun c => { c with sram := { c.sram with soft := [(5, kind)] } })
      5 ∉ Tab.get [] s.dev.scrubbed 0 ∧ s.badLines (.core 0) [5] = [] ∧ Tab.find? (s.core 0).sram.soft 5 = some kind) ∧
    (let s := { user id with dev := { State.reset.dev with scrubbed := [(0, [5])] } }; 5 ∈ Tab.get [] s.dev.scrubbed 0) ∧
    4095 < 4096 ∧ (15 : Nat) ∉ ((user id).core 4095).failed ∧ Tab.get 0 ((user id).core 4095).corrected 15 < 256 ∧
    (let s := at_ ⟨4095, 0⟩ id (fun c => { c with failed := [0] }); (15 : Nat) ∉ (s.core 4095).failed ∧ (s.core 4095).failed ≠ []) ∧
    (let c := { ctx0 with dbg := { Debug.init with armed := some 256, logs := ⟨0x1000, 16, 0x2000, 16⟩ } }
     let s := inDomain ⟨0, 0⟩ dom0 c id (fun x => { x with trace := List.replicate 64 3 })
     s.ctxOf 0 = some c ∧ c.dbg.armed ≠ none ∧ (s.core 0).replay = none ∧ 0 < c.dbg.logs.entries ∧ (s.core 0).trace.take 64 = List.replicate 64 3 ∧
     (s.core 0).trace.take 8192 ≠ List.replicate 8192 3) ∧
    (let s := { State.reset with queues := [(0, Queue.admin 0), (64, queue0)], qcache := [0, 64], ctxs := [(1, ctx0)] }
     s.grids = [] ∧ Tab.ascending s.queues = true ∧ s.destroying 0 = false ∧ s.liveQueue 64 = some queue0 ∧ s.functionOf queue0 = 0 ∧
     s.qcb 0 = some (Queue.admin 0) ∧ (∀ x ∈ s.queues, x.1 ∈ s.qcache) ∧ 0 ∈ s.qcache ∧ 64 ∈ s.qcache) ∧
    recordGood recordInit = true ∧ recordInit.banks = [] ∧ recordShort recordInit = [] ∧ State.reset.dev.repairs = [] ∧
    recordGood { recordInit with magic := 0 } = false := by decide +kernel

theorem witness_UpkeepSteps_ring : State.reset.dev.errors.length < Config.errorRing := Nat.succ_pos _

/-- A halt that is complete has nothing left to settle. -/
theorem witness_UpkeepSteps_settled :
    let s := hub { ctx0 with halt := 2, saving := some ⟨⟨4352, 0⟩, .s, 0x40, 0x1000, 64⟩ }
    s.settle 1 = s := by rfl

/-- Owners 1 and 4095, without and with a context; each stage of a connection in version 1.3, with the algorithms and without; a function with and
without an owner, on a machine with no queue; and a bring-up that has stopped. -/
theorem witness_SecuritySteps :
    ((∀ c ∈ State.reset.ctxs, c.2.owner.toNat ≠ 4095) ∧ 1 ≤ 4095 ∧ 4095 < 4096 ∧ ∃ c ∈ (hub ctx0).ctxs, c.2.owner.toNat = 5) ∧
    State.reset.lateMeets (fun a => decide (a.owner.toNat = 4095)) = false ∧
    (let r : Spdm.Fields := { code := 0xE1, version := 0x13, busy := false, wellFormed := true, slot := 0, nonce := 0, asym := 2 ^ 11, hash := 2 ^ 5, spec := 1 }
     r.busy = false ∧ r.wellFormed = true ∧ State.reset.dev.bootOk = true ∧ 64 ≤ 64 ∧ (State.reset.conn 64).stage ≠ 2 ∧ commonAlgorithms r = true ∧
     commonAlgorithms { r with hash := 0 } = false ∧
     (∀ k ∈ [1, 2, 3], let s := { State.reset with dev := { State.reset.dev with conns := [(64, { Conn.init with stage := k, version := 0x13 })] } }
       (s.conn 64).stage = k ∧ r.version = (s.conn 64).version)) ∧
    0x85 ∉ [0x84, 0xE1, 0xE3, 0x81, 0x82, 0x83, 0xE0] ∧ (State.reset.part 63).owner = 0 ∧
    (let s := { restoring [] with queues := [] }
     (s.part 3).owner ≠ 0 ∧ s.dev.bootOk = true ∧ s.hasKey (s.part 3).owner = true ∧ s.dram.poison = [] ∧ s.dram.soft = [] ∧ s.dram.bad = [] ∧
     (s.keyOf (s.part 3).owner).isSome = true ∧ ∀ x ∈ s.blocks, x.2.live = false) ∧
    ({ State.reset with dev := { State.reset.dev with bootOk := false } } : State).dev.bootOk = false := by decide +kernel

/-- One byte of a line, all 64 of one, and two bytes across a line's end. -/
theorem witness_SecuritySteps_lines (fn : Nat) : (Config.bar2Base fn + 0) % 64 + (1 : Fin 65).val ≤ 64 ∧
    (∃ addr, (Config.bar2Base fn + addr) % 64 + (64 : Fin 65).val ≤ 64) ∧ ∃ addr, 64 < (Config.bar2Base fn + addr) % 64 + (2 : Fin 65).val := by
  refine ⟨by simp; omega, ⟨64 - Config.bar2Base fn % 64, ?_⟩, ⟨127 - Config.bar2Base fn % 64, ?_⟩⟩ <;> simp <;> omega

theorem witness_SecuritySteps_measured : measured State.reset.dev.meas 8 ≠ [] ∧ measured State.reset.dev.meas 0xFF ≠ [] := by
  constructor <;> simp [measured]

/-- A connection that has completed CHALLENGE, has unlocked owner 5 and holds a nonce, and the state of context 1. -/
def debugging (c : Ctx) (ch : Bool) (owners : List Nat) : State :=
  { inDomain ⟨0, 0⟩ dom0 c id id with
    grids := [(1, grid0)]
    dev := { State.reset.dev with debugKeys := [(4095, 3)], devLock := true, conns := [(64, { Conn.init with stage := 3, challenged := ch, nonces := [7], unlocked := owners })] } }

def flit0 : Flit := ⟨3, 0, 2 ^ 19 - 1, 4095, 0, 0, 0⟩

/-- A debug connection before and after CHALLENGE and UNLOCK; a context with a domain, one that is stopped, with a halt of the scheduler's waiting and
without, and one with a target that its thread has reached, or that it never reaches because its log names another that waits. -/
theorem witness_DebugAndPortSteps :
    (let s := debugging ctx0 true [5]
     (s.conn 64).challenged = true ∧ Tab.find? s.dev.debugKeys 4095 = some 3 ∧ 7 ∈ (s.conn 64).nonces ∧ Tab.find? s.ctxs 1 = some ctx0 ∧
     ctx0.owner.toNat ∈ (s.conn 64).unlocked ∧ s.hasDomain 1 = true ∧ 1 ≤ 256 ∧ 256 ≤ 256 ∧ ctx0.dbg.stopped = none) ∧
    ((debugging ctx0 false []).conn 64).challenged = false ∧ ctx0.owner.toNat ∉ ((debugging ctx0 true []).conn 64).unlocked ∧
    (∀ w ∈ [none, some true], let c := { ctx0 with halt := 2, dbg := { Debug.init with stopped := some 0, waiting := w } }
     Tab.find? (debugging c true [5]).ctxs 1 = some c ∧ c.halt = 2 ∧ c.dbg.stopped ≠ none ∧ c.dbg.waiting = w ∧
     ((debugging c true [5]).mailbox.sections 1 c).find? (fun x => decide (x.kind = 1) && decide (x.key = 1)) ≠ none) ∧
    (let c := { ctx0 with dbg := { Debug.init with target := some (⟨0, 0⟩, 0) } }
     c.dbg.asked = none ∧
     Tab.find? (debugging c true [5]).ctxs 1 = some c ∧ c.dbg.target = some (⟨0, 0⟩, 0) ∧ ((debugging c true [5]).thread ⟨0, 0⟩).retired = 0) ∧
    (let c := { ctx0 with dbg := { Debug.init with target := some (⟨0, 0⟩, 1) } }
     let s := debugging c true [5]
     (s.thread ⟨0, 0⟩).retired ≠ 1 ∧ s.diverged 1 = false ∧ (s.setCore 0 { s.core 0 with replay := some [BitVec.ofNat 16 (2 ^ 13)] }).diverged 1 = true) := by
  decide +kernel

/-- A trained port's channel: a flit to send, one to send again, and an audit; a stopped channel; a flit to receive, in and out of its turn; an untrained
port; and audits received that agree with the channel, by the slots that are on their way back too, and that do not. -/
theorem witness_DebugAndPortSteps_port :
    (let s := debugging ctx0 true []
     let ch := s.chan 15 3
     s.dev.devLock = true ∧ 15 < 16 ∧ flit0.vc = 3 ∧ flit0.type < 3 ∧ flit0.dest < 2 ^ 19 ∧ flit0.owner < 4096 ∧ flit0.free ≤ 64 ∧
     ch.stopped = false ∧ ch.again = [] ∧ flit0 ∉ ch.unacked ∧ 1 ≤ ch.credit ∧ flit0.seq = ch.sendSeq ∧ flit0.free ≤ ch.owed ∧ ch.unacked.length < 256 ∧
     ch.sentData < 4096 ∧ ch.dups = 0 ∧ flit0.seq = ch.recvSeq ∧
     (let f := { flit0 with type := 1, payload := auditPayload 64 0 }; f.type = 1 ∧ f.payload = auditPayload ch.credit f.seq)) ∧
    State.reset.dev.devLock = false ∧
    (let s := (debugging ctx0 true []).setChan 15 3 { Chan.init with unacked := [flit0], recvSeq := 1 }
     flit0 ∈ (s.chan 15 3).unacked ∧ (s.chan 15 3).stopped = false ∧ (s.chan 15 3).again = [] ∧ flit0.seq ≠ (s.chan 15 3).recvSeq ∧ (s.chan 15 3).dups = 0) ∧
    (((debugging ctx0 true []).setChan 15 3 { Chan.init with stopped := true }).chan 15 3).stopped = true ∧
    (∀ n ∈ [61, 60], let a := { flit0 with type := 1, seq := 5, payload := auditPayload n 5 }
      let ch := ((debugging ctx0 true []).setChan 15 3 { Chan.init with recvSeq := 6, owed := 1, received := [a], unacked := [{ flit0 with free := 1 }] }).chan 15 3
      ch.received = [a] ∧ a.payload = auditPayload n 5 ∧
      (n + (5 + 1 - ch.recvSeq) + ch.owed + ch.received.length ≤ 64 ∧ 64 ≤ n + (5 + 1 - ch.recvSeq) + ch.owed + ch.received.length + (ch.unacked.map Flit.free).sum ↔
        n = 61)) := by decide +kernel

/-- A checkpoint of an armed context: a STOP asks for it, and once the halt is complete it can be restored in place. -/
theorem witness_DebugAndPortSteps_stop :
    let k : Checkpoint := ⟨4, 0, leBytes 120 (le64 (image1.set 9 1))⟩
    let c := { ctx0 with dbg := { Debug.init with armed := some 1, logs := ⟨0x1000, 16, 0x2000, 16⟩, checkpoints := [k] } }
    let a := { ctx0 with halt := 2, dbg := { c.dbg with asked := some (4, ⟨0, 0⟩, 9) } }
    let s := debugging c true [5]
    (hartOfKey 0).core ∈ s.coresOf 1 ∧ (hartOfKey 0).th < 6 ∧ c.dbg.armed ≠ none ∧ c.dbg.asked = none ∧ c.dbg.target = none ∧ c.dbg.stopped = none ∧
      4 ∉ c.dbg.broken ∧ k ∈ c.dbg.checkpoints ∧ k.number = 4 ∧
      Tab.find? (debugging a true [5]).ctxs 1 = some a ∧ a.dbg.asked = some (4, ⟨0, 0⟩, 9) ∧ a.halt = 2 ∧
      a.dbg.checkpoints.find? (fun x => decide (x.number = 4)) = some k ∧ a.mirroring = none ∧ isDone (((debugging a true [5]).flushLogs 1).restoreInPlace 1 a k.image) = true ∧
      isWaits (((debugging a true [5]).flushLogs 1).restoreInPlace 1 a (leBytes 160 (le64 ((image2 2).set 9 1)))) = true := by
  decide +kernel

theorem witness_DebugAndPortSteps_settled :
    let s := debugging { ctx0 with halt := 2, dbg := { Debug.init with asked := some (4, ⟨0, 0⟩, 9) } } true [5]
    s.settle 1 = s := by rfl

/-- The machine after reset and one whose partitions hold clusters; each takes a step. -/
theorem witness_StepKeepsPartitionsApart : State.reset.PartitionsApart ∧ ∃ t, step State.reset = .next t := by
  have p : ∀ n, (State.reset.part n).clusters = [] := fun n => rfl
  exact ⟨⟨fun m n c h => by simp [p] at h, fun n c h => by simp [p] at h⟩, ⟨_, rfl⟩⟩

/-- ADD x5, x0, #7 at the pc of a thread that runs, and the turn of another thread. -/
theorem witness_StepRunsDecoded :
    (let s := State.reset.withFetchWord 32 0x9C014003
     let i : Instr := .add true 5 (.reg 0) (.const 7)
     s.agenda = [] ∧ s.me.status.ready = true ∧ (∀ j, j < i.length → s.pmpOk s.cur (0 + j) 2 .fetch = true) ∧ s.logAllows s.cur = true ∧ s.me.bodyBytes = none ∧ i.check = none ∧ levelOk s.cur.core s.me.level i = true ∧ s.me.pc = BitVec.ofNat 64 0 ∧
     0 + i.length ≤ localEnd s.me.level ∧ s.log = [] ∧
     ∀ j, j < i.length → (0 + j) / 8 ∉ s.myCore.sram.errs ∧ (0 + j) / 64 ∉ s.myCore.sram.ownerErrs ∧ Tab.find? s.myCore.sram.soft ((0 + j) / 8) = none ∧
       s.myCore.sram.readFor (s.ownerOfHart s.cur) (0 + j) 1 = ((encode i).getD j 0).toNat) ∧
    (let s := { State.reset.withFetchWord 32 0x9C014003 with agenda := [.issue ⟨0, 0⟩, .event .orbitUpdateApply] }
     s.agenda = .issue ⟨0, 0⟩ :: [.event .orbitUpdateApply] ∧ { s with cur := ⟨0, 0⟩ }.me.status.ready = true) ∧
    (let s := (State.reset.withFetchWord 32 0x9C014003).setMe { (State.reset.withFetchWord 32 0x9C014003).me with status := .late }
     s.agenda = [] ∧ s.me.status.ready = false ∧ s.mayLeave s.cur = false ∧ s.mayPass s.cur = true ∧ ({ s with trapped := false }.setMe { s.me with status := .run }).boundary s.cur = none ∧
     s.me.passes s.myCore true (.add true 5 (.reg 0) (.const 7)) = true ∧
     ((encode (.add true 5 (.reg 0) (.const 7))).getD 0 0).getLsbD 1 = true) ∧
    (let s := user (fun t => { t with status := .access, pend := some ⟨[9], 0, .writeX 5 .d, 4, true⟩ })
     s.agenda = [] ∧ s.me.status.ready = false ∧ s.mayLeave s.cur = true) ∧
    (let s := { State.reset.withFetchWord 32 0x9C014003 with agenda := [.issueApart ⟨0, 0⟩] }
     s.agenda = .issueApart ⟨0, 0⟩ :: [] ∧ { s with agenda := [], cur := ⟨0, 0⟩ }.logAllows ⟨0, 0⟩ = true) ∧
    (let s := user (fun t => { t with status := .late, user := { t.user with pend := true, uie := true, utvec := 0x40 } })
     s.me.status.ready = false ∧ s.mayPass s.cur = true ∧ (({ s with trapped := false }.setMe { s.me with status := .run }).boundary s.cur).isSome = true) ∧
    (let s := inDomain ⟨0, 0⟩ dom0 { ctx0 with dbg := { Debug.init with target := some (⟨0, 0⟩, 0) } } id id; s.logAllows s.cur = false) ∧
    State.reset.agenda = [] ∧ State.reset.me.status.ready = false ∧ State.reset.mayLeave State.reset.cur = false ∧
    State.reset.mayPass State.reset.cur = false := by decide +kernel

/-- A store that the fetch after a FENCE.sys surely sees: one of the thread itself, and one that its own thread has since ordered. -/
theorem witness_StepRunsDecoded_log :
    (⟨1, ⟨0, 0⟩, false, some (.core 0), 0, 0, none⟩ : StoreRec).sure ⟨0, 0⟩ 2 = true ∧
    (⟨1, ⟨1, 0⟩, true, some (.core 0), 0, 0, none⟩ : StoreRec).sure ⟨0, 0⟩ 2 = true ∧
    (⟨1, ⟨1, 0⟩, false, some (.core 0), 0, 0, none⟩ : StoreRec).sure ⟨0, 0⟩ 2 = false := by decide +kernel

/-- The longest instruction, a literal at its least value, and a halfword. -/
theorem witness_DecodeEncode : (Instr.li true 31 (.lit64 0xFFFFFFFFFFFFFFFF)).check = none ∧ (Instr.add true 0 (.reg 31) (.lit32 0x80000000)).check = none ∧
    (Instr.vfadd16 false 31 31).check = none := by decide +kernel

theorem witness_EncodeDecode : decodeBytes [0x03, 0x40, 0x01, 0x9C, 0xAA] = .ok (.add true 5 (.reg 0) (.const 7), [0xAA]) := by decide +kernel

/-! ## Each check of WellFormed refuses a term -/

theorem test_check_operandClass : (Instr.mand false 0 (.reg 8) (.reg 0)).check = some .operandClass := by decide
theorem test_check_twoLiterals : (Instr.add true 5 (.lit32 1) (.lit32 2)).check = some .twoLiterals := by decide
theorem test_check_groupAlignment : (Instr.vquant false 0 2 0 .o4).check = some .groupAlignment := by decide
theorem test_check_packTarget : (Instr.vpack false 0 (.reg 1) (.reg 2) .f32).check = some .packTarget := by decide
theorem test_check_unpackPart : (Instr.vunpack false 0 (.reg 1) 2 .i8).check = some .unpackPart := by decide
theorem test_check_columnByte : (Instr.vld true 0 (.reg 1) (.reg 2) .w1 true).check = some .columnByte := by decide
theorem test_check_zeroHalfword : (Instr.vfadd16 false 0 0).check = some .zeroHalfword := by decide
theorem test_check_event : Instr.orbitUpdateApply.check = some .event := by decide

/-! ## The spec's own examples -/

/-- What an instruction leaves. -/
def leaves (r : Result) (f : State → Bool) : Bool :=
  match r with
  | .next t => f t
  | _ => false

def x6 (v : Word) : State := user (fun t => { t with x := t.x.set 6 v })

/-- R158: EXTS of 0x10080 by 8 is 0xFFFFFFFFFFFFFF80. -/
theorem test_exts : leaves (exec (.exts true 5 (.reg 6) (.const 8)) (x6 0x10080)) (fun t => decide (t.me.getX 5 = 0xFFFFFFFFFFFFFF80)) = true := by
  decide +kernel

/-- R157: CLZ of 1 is 63. -/
theorem test_clz : leaves (exec (.clz true 5 (.const 1)) (user id)) (fun t => decide (t.me.getX 5 = 63)) = true := by decide +kernel

/-- Table 11.4: the quotient of the least number by −1 is itself; a zero divisor gives −1. -/
theorem test_div : leaves (exec (.div false 5 (.reg 6) (.lit32 0xFFFFFFFF)) (x6 0x8000000000000000)) (fun t => decide (t.me.getX 5 = 0x8000000000000000)) = true ∧
    leaves (exec (.div false 5 (.const 5) (.reg 0)) (user id)) (fun t => decide (t.me.getX 5 = 0xFFFFFFFFFFFFFFFF)) = true := by decide +kernel

/-- R143: a write of x0 is discarded; R155: ADD wraps. -/
theorem test_add : leaves (exec (.add true 0 (.const 5) (.const 5)) (user id)) (fun t => decide (t.me.getX 0 = 0) && decide (t.me.pc = 4)) = true ∧
    leaves (exec (.add true 6 (.reg 6) (.const 1)) (x6 0xFFFFFFFFFFFFFFFF)) (fun t => decide (t.me.getX 6 = 0)) = true := by decide +kernel

/-- Table 11.20: 0.1 to single precision in RNE and RTZ, with NX. -/
theorem test_fcvtPrecision : leaves (exec (.fcvtPrecision false 5 (.reg 6) true) (x6 0x3FB999999999999A))
      (fun t => decide (t.me.getX 5 = 0x3DCCCCCD) && decide (t.me.fflags = 1)) = true ∧
    leaves (exec (.fcvtPrecision false 5 (.reg 6) true) (user (fun t => { t with x := t.x.set 6 0x3FB999999999999A, fmode := 1 })))
      (fun t => decide (t.me.getX 5 = 0x3DCCCCCC) && decide (t.me.fflags = 1)) = true := by decide +kernel

/-- Table 11.20: 2.5 in RUP, with no flag; a NaN, with NV. -/
theorem test_fcvtToInt : leaves (exec (.fcvtToInt false 5 (.reg 6) false) (user (fun t => { t with x := t.x.set 6 0x40200000, fmode := 2 })))
      (fun t => decide (t.me.getX 5 = 3) && decide (t.me.fflags = 0)) = true ∧
    leaves (exec (.fcvtToInt false 5 (.lit32 0x7FC00000) false) (user id)) (fun t => decide (t.me.getX 5 = 0) && decide (t.me.fflags = 16)) = true := by
  decide +kernel

/-- Table 7.7: three FP32 fused steps lose the 1 that one chunk of the engine keeps. -/
theorem test_ffma : leaves (exec (.ffma false 5 (.lit32 0x3F800000) (.reg 6) false) (user (fun t => { t with x := (t.x.set 5 0x4B800000).set 6 0x3F800000 })))
    (fun t => decide (t.me.getX 5 = 0x4B800000)) = true ∧
    accChunk 0 [.fin false 1 24, .fin false 1 0, .fin true 1 24] = 0x3F800000 := by decide +kernel

/-- R98: the examples of FP32 to BF16 and E5M2. -/
theorem test_pack : (Fmt.bf16.pack .rne false (Fmt.f32.decode 0x3F808000)).bits = 0x3F80 ∧ (Fmt.bf16.pack .rup false (Fmt.f32.decode 0x3F808000)).bits = 0x3F81 ∧
    (Fmt.e5m2.pack .rne false (.fin false 1000000 0)).bits = 0x7C ∧ (Fmt.e5m2.pack .rne true (.fin false 1000000 0)).bits = 0x7B := by decide +kernel

/-- Table 5.2. -/
theorem test_windows :
    let s := { inDomain ⟨0, 0⟩ dom0 ctx0 id id with parts := [(0, { Part.init with clusters := [0, 41] })] }
    s.resolve s.cur 0x0200000000A01000 = some (.sram (.core 5) 0x1000) ∧ s.resolve s.cur 0x030000000A400100 = some (.sram (.cluster 41) 0x100) ∧
      s.resolve s.cur 0x1B0008 = none ∧ s.resolve s.cur 0x0100000000400000 = none := by decide +kernel

/-- Table 7.2: 1.5, 8.0, −3.5 and −4.0. -/
theorem test_vdeq : let v := BitVec.ofNat 512 (0x800983 + 256 ^ 32 * 0xD058)
    (deqElem .o4 v 0x7E 0).bits = 0x3FC00000 ∧ (deqElem .o4 v 0x7E 1).bits = 0x41000000 ∧ (deqElem .o4 v 0x7E 2).bits = 0xC0600000 ∧
      (deqElem .o4 v 0x7E 5).bits = 0xC0800000 ∧ (deqElem .o4 v 0x7E 63).bits = 0 := by decide +kernel

/-- R93: the eight outliers of the example; element 7 saturates. -/
theorem test_vquant : let q (i : Nat) : Machine.Num := if i < 9 then .fin false 10 0 else if i = 20 then .fin true 30 0 else .fin false 1 0
    let g := (quantGroup .o4 q).1
    lane g 1 0 = 0x88 ∧ lane g 1 3 = 0x78 ∧ lane g 1 4 = 0x17 ∧ lane g 1 10 = 0x18 ∧ lane g 1 32 = 0x52 ∧ lane g 1 38 = 0x52 ∧ lane g 1 39 = 0xDF := by
  decide +kernel

/-- R183: AMOCAS on a word that holds 0. -/
theorem test_amocas : leaves (exec (.amocas true 5 (.lit32 0x40) (.const 1) .none) (user id))
    (fun t => decide (t.me.getX 5 = 0) && decide (t.byteAt (.core 0) 0x40 = 1)) = true := by decide +kernel

/-- R176, R177: a stored byte comes back sign-extended. -/
theorem test_lb : leaves (exec (.lb true 5 (.lit32 0x41) 0x1FF) (at_ ⟨0, 0⟩ id (fun c => { c with sram := { c.sram with cells := [(0x40, 0x80)] } })))
    (fun t => decide (t.me.getX 5 = 0xFFFFFFFFFFFFFF80)) = true := by decide +kernel

/-- R58: a load past the local range is cause 34 with its address, at the user vector. -/
theorem test_trap : leaves (exec (.ld true 5 (.lit32 0x1B0000) 0) (at_ ⟨0, 0⟩ (fun t => { t with pc := 8, user := { t.user with utvec := 0x40 } })
      (fun c => { c with mudeleg := delegMask .compute })))
    (fun t => decide (t.me.pc = 0x40) && decide (t.me.user.ucause = 34) && decide (t.me.user.uval = 0x1B0000) && decide (t.me.user.uepc = 8)) = true := by
  decide +kernel

/-- R205: lanes of one byte wrap; a lane that m0 does not name keeps its value. -/
theorem test_vadd : leaves (exec (.vadd false 1 (.reg 2) (.const 1) .w1) (masked 1 (fun t => { t with v := (t.v.set 2 0xFFFF).set 1 0x770000 })))
    (fun t => decide (t.me.getV 1 = 0x770000)) = true := by decide +kernel

/-- Table 4.5: an emit joins its value by the combine operation. -/
theorem test_sigEmit : leaves (exec (.sigEmit true (.reg 0) (.const 7)) (inDomain ⟨0, 0⟩ dom0 ctx0 id id))
    (fun t => decide ((t.domains.map (fun q => (q.2.sigs.map Sig.value).headD 0)) = [12])) = true := by decide +kernel

/-- R225: REP of four passes stands at its body with four passes left. -/
theorem test_rep : leaves (exec (.rep true (.const 4) (.const 1)) (streaming Gen.init Gen.init (fun t => { t with pc := 0xFC })))
    (fun t => decide (t.me.pc = 0x100) && decide (t.me.rep.map Repeat.left = some 4)) = true := by decide +kernel

/-- A step from the first fetched word. -/
theorem test_step : leaves (step (State.reset.withFetchWord 32 0x9C014003)) (fun t => decide (t.me.getX 5 = 7) && decide (t.me.pc = 4) && decide (t.me.retired = 1)) = true := by
  decide +kernel

/-- R262: the spec's example of a block of ATTN.RUN and of ATTN.FIN: m' = 2, l = 1.25, O = 6 and 8, then 0x409A and 0x40CD; row 1 stays 0. -/
theorem test_attnBlock :
    let e := (({ Engine.init with query := [(0, 0x3F80)] } : Engine).blockRow 0x1000 0x3F800000 0 0
      (some ⟨0, ⟨0, 0, 0⟩, [(0, 0x4000, 0x4080 + 2 ^ 16 * 0x4100), (1, 0, 0x4100)]⟩)).blockRow 0x1000 0x3F800000 0 1 none
    Tab.get 0 e.amax 0 = 0x40000000 ∧ Tab.get 0 e.asum 0 = 0x3FA00000 ∧ Tab.get 0 e.tiles (oKey 0 0) = 0x40C00000 ∧
      Tab.get 0 e.tiles (oKey 0 1) = 0x41000000 ∧ Tab.get 0 e.tiles (oKey 0 63) = 0 ∧ e.finElem .bf16 0 0 = 0x409A ∧ e.finElem .bf16 0 1 = 0x40CD ∧
      e.finElem .bf16 0 2 = 0 ∧ e.finElem .bf16 1 0 = 0 := by
  decide +kernel

end Sys2Proof.Tests
end

section
/-! SUPPORT. Fields of values: a field as a number and bit by bit, a value with a field replaced, and reserved bits. -/

namespace Sys2Proof.Machine

theorem bits_eq_div_mod {w : Nat} (v : BitVec w) (lo n : Nat) : bits v lo n = v.toNat / 2 ^ lo % 2 ^ n := by
  simp [bits, Nat.shiftRight_eq_div_pow]

theorem bits_lt {w : Nat} (v : BitVec w) (lo n : Nat) : bits v lo n < 2 ^ n := (v.extractLsb' lo n).isLt

/-- A field depends on its own bits alone. -/
theorem bits_congr {w : Nat} {v u : BitVec w} {lo n : Nat} (h : ∀ i, i < n → v.getLsbD (lo + i) = u.getLsbD (lo + i)) :
    bits v lo n = bits u lo n := by
  unfold bits
  congr 1
  ext i hi
  simpa using h i hi

/-- The bits of a value from lo to its top are 0 just when it is below 2 ^ lo. -/
theorem zeroBits_top {w : Nat} (v : BitVec w) (lo n : Nat) (h : w = lo + n) : zeroBits v lo n = true ↔ v.toNat < 2 ^ lo := by
  have hv : v.toNat / 2 ^ lo < 2 ^ n := Nat.div_lt_of_lt_mul (by rw [← Nat.pow_add, ← h]; exact v.isLt)
  rw [zeroBits, decide_eq_true_eq, bits_eq_div_mod, Nat.mod_eq_of_lt hv, Nat.div_eq_zero_iff]
  simp

theorem getLsbD_setBits {w : Nat} (v : BitVec w) (lo n f j : Nat) (hj : j < w) :
    (setBits v lo n f).getLsbD j = if lo ≤ j ∧ j < lo + n then f.testBit (j - lo) else v.getLsbD j := by
  have hm (b : Nat) : (BitVec.ofNat w b).getLsbD (j - lo) = b.testBit (j - lo) := by
    rw [BitVec.getLsbD_ofNat, decide_eq_true (by omega), Bool.true_and]
  simp only [setBits, BitVec.getLsbD_or, BitVec.getLsbD_and, BitVec.getLsbD_not, BitVec.getLsbD_shiftLeft, hm,
    Nat.testBit_two_pow_sub_one, hj, decide_true, Bool.true_and]
  by_cases hlo : lo ≤ j
  · by_cases hn : j < lo + n
    · simp [hlo, hn, show j - lo < n by omega, show ¬ j < lo by omega]
    · simp [hn, show ¬ j - lo < n by omega]
  · simp [hlo, show j < lo by omega]

/-- A field that has been replaced reads as its new value. -/
theorem bits_setBits_same {w : Nat} (v : BitVec w) (lo n f : Nat) (h : lo + n ≤ w) (hf : f < 2 ^ n) : bits (setBits v lo n f) lo n = f := by
  have e : (setBits v lo n f).extractLsb' lo n = BitVec.ofNat n f := by
    refine BitVec.eq_of_getLsbD_eq fun i hi => ?_
    rw [BitVec.getLsbD_extractLsb', BitVec.getLsbD_ofNat, getLsbD_setBits v lo n f (lo + i) (by omega)]
    simp [hi]
  rw [bits, e, BitVec.toNat_ofNat, Nat.mod_eq_of_lt hf]

end Sys2Proof.Machine
end

section
/-! SUPPORT. Writes of the local region map (R65, R84) and of a bank's format (R62). -/

namespace Sys2Proof.Machine

/-- The writes of the SET fields of n regions from base on, in turn: what a write of a register of the region map does. -/
def Sram.setRegions (m : Sram) (base n : Nat) (f : Nat → Nat) : Sram :=
  (List.range n).foldl (fun m i => m.setRegion (base + i) (f i)) m

@[simp] theorem Sram.setRegions_zero (m : Sram) (base : Nat) (f : Nat → Nat) : m.setRegions base 0 f = m := rfl

theorem Sram.setRegions_succ (m : Sram) (base n : Nat) (f : Nat → Nat) :
    m.setRegions base (n + 1) f = (m.setRegions base n f).setRegion (base + n) (f n) := by
  simp [Sram.setRegions, List.range_succ]

theorem Sram.setRegions_kept (m : Sram) (base n : Nat) (f : Nat → Nat) :
    m.setRegions base n f = { m with regions := (m.setRegions base n f).regions, parks := (m.setRegions base n f).parks } := by
  induction n with
  | zero => rfl
  | succ n ih => rw [Sram.setRegions_succ, Sram.setRegion, ih]

theorem Sram.get_setRegions (m : Sram) (base n : Nat) (f : Nat → Nat) (r : Nat) :
    Tab.get 0 (m.setRegions base n f).regions r =
      if base ≤ r ∧ r < base + n then BitVec.ofNat 2 (f (r - base)) else Tab.get 0 m.regions r := by
  induction n with
  | zero => rw [if_neg (by omega), Sram.setRegions_zero]
  | succ n ih =>
    rw [Sram.setRegions_succ, Sram.setRegion]
    by_cases hr : r = base + n
    · subst hr
      simp
    · simp only [Tab.get_put_other _ _ _ _ _ hr, ih, show (base ≤ r ∧ r < base + (n + 1)) ↔ base ≤ r ∧ r < base + n by omega]

/-- R84: every access parked in a region that is written wakes. -/
theorem Sram.woken_setRegions (m : Sram) (base n : Nat) (f : Nat → Nat) (q : Parked) (hq : q ∈ (m.setRegions base n f).parks)
    (hlo : base ≤ q.word / 0x800) (hhi : q.word / 0x800 < base + n) : q.woken = true := by
  induction n generalizing q with
  | zero => omega
  | succ n ih =>
    rw [Sram.setRegions_succ, Sram.setRegion] at hq
    obtain ⟨p, hp, rfl⟩ := List.mem_map.mp hq
    split at hlo <;> rename_i hw
    · simp [hw]
    · rw [if_neg hw] at hhi ⊢
      exact ih p hp hlo (by omega)

theorem Core.writeTagmap_eq (c : Core) (l : Level) (k : Nat) (v : Word) :
    c.writeTagmap l k v = { c with sram := c.sram.setRegions (16 * k) (regionsSeen l k) (fun i => bits v (4 * i) 2) } := rfl

/-- R65: the regions that a write of register k of the map reaches at a level. -/
theorem region_seen_iff (l : Level) (k r : Nat) (hk : k < 8) :
    (16 * k ≤ r ∧ r < 16 * k + regionsSeen l k) ↔ r / 16 = k ∧ (r < 108 ∨ l ≠ .u) := by
  by_cases hl : l = .u
  · have hn : regionsSeen l k = if k = 7 then 0 else if k = 6 then 12 else 16 := by simp [regionsSeen, hl]
    rw [hn]
    simp only [hl, ne_eq, not_true_eq_false, or_false]
    split_ifs <;> omega
  · have hn : regionsSeen l k = 16 := by simp [regionsSeen, hl]
    simp only [hn, hl, ne_eq, not_false_eq_true, or_true, and_true]
    omega

theorem Core.get_writeTagmap (c : Core) (l : Level) (k : Nat) (v : Word) (hk : k < 8) (r : Nat) :
    Tab.get 0 (c.writeTagmap l k v).sram.regions r =
      if r / 16 = k ∧ (r < 108 ∨ l ≠ .u) then BitVec.ofNat 2 (bits v (4 * (r % 16)) 2) else Tab.get 0 c.sram.regions r := by
  rw [Core.writeTagmap_eq, Sram.get_setRegions]
  by_cases h : r / 16 = k ∧ (r < 108 ∨ l ≠ .u)
  · rw [if_pos h, if_pos ((region_seen_iff l k r hk).mpr h), show r - 16 * k = r % 16 by omega]
  · rw [if_neg h, if_neg (mt (region_seen_iff l k r hk).mp h)]

theorem Core.woken_writeTagmap (c : Core) (l : Level) (k : Nat) (v : Word) (hk : k < 8) (q : Parked)
    (hq : q ∈ (c.writeTagmap l k v).sram.parks) (hr : q.word / 0x800 / 16 = k) (hl : q.word / 0x800 < 108 ∨ l ≠ .u) : q.woken = true := by
  obtain ⟨hlo, hhi⟩ := (region_seen_iff l k _ hk).mpr ⟨hr, hl⟩
  exact Sram.woken_setRegions _ _ _ _ q hq hlo hhi

/-- R62: the format numbers that a bank register takes are 0 to 10. -/
theorem bankfmt_ok_iff (v : Word) : (zeroBits v 4 60 && decide (bits v 0 4 ≤ 10)) = true ↔ v.toNat ≤ 10 := by
  rw [Bool.and_eq_true, zeroBits_top v 4 60 rfl, decide_eq_true_eq, bits_eq_div_mod]
  omega

theorem Core.writeBankfmt_eq (c : Core) (b : Fin 16) (v : Word) :
    c.writeBankfmt b v = if v.toNat ≤ 10 then { c with fmts := c.fmts.set b.val (v.setWidth 4) } else c := by
  simp only [Core.writeBankfmt, bankfmt_ok_iff]

end Sys2Proof.Machine
end

section
/-! SUPPORT. What a write leaves in a register (R6, R320 to R323): the fields of status, cause, delegation and interrupt registers, and
of the configuration of a PMP region. -/

namespace Sys2Proof.Machine

theorem bits_setBits_other {w : Nat} (v : BitVec w) (lo n f l m : Nat) (hw : l + m ≤ w) (h : l + m ≤ lo ∨ lo + n ≤ l) :
    bits (setBits v lo n f) l m = bits v l m :=
  bits_congr fun i hi => by rw [getLsbD_setBits _ _ _ _ _ (by omega), if_neg (by omega)]

/-! ## Masks, bit by bit -/

theorem getLsbD_sstatusMask : ∀ {j : Nat}, j < 64 → sstatusMask.getLsbD j = decide (j = 1 ∨ j = 5 ∨ j = 8) := by decide

theorem getLsbD_sieMask : ∀ {j : Nat}, j < 64 → sieMask.getLsbD j = decide (j ∈ [3, 4, 6, 7, 8]) := by decide

theorem getLsbD_mieMask : ∀ {j : Nat}, j < 64 → mieMask.getLsbD j = decide (1 ≤ j ∧ j ≤ 8) := by decide

theorem getLsbD_msdelegMask : ∀ {j : Nat}, j < 64 → msdelegMask.getLsbD j = (decide (j ≠ 8) && (decide (j ≠ 9) && decide (j ≠ 11))) := by decide

/-! ## Status registers (R320) -/

theorem getLsbD_sstatusWrite (old v : Word) (j : Nat) (hj : j < 64) :
    ((old &&& ~~~ sstatusMask) ||| (v &&& sstatusMask)).getLsbD j = if j = 1 ∨ j = 5 ∨ j = 8 then v.getLsbD j else old.getLsbD j := by
  rw [BitVec.getLsbD_or, BitVec.getLsbD_and, BitVec.getLsbD_and, BitVec.getLsbD_not, getLsbD_sstatusMask hj]
  by_cases h : j = 1 ∨ j = 5 ∨ j = 8 <;> simp [h, hj]

/-- The codes of the levels that a kind of core has (R312, Table 21.1). -/
def levelCodes (k : Kind) : List Nat := match k with | .compute => [0, 3] | .translation => [1, 3] | .hub => [0, 1, 3]

/-- The bits of MSTATUS other than MPP that are fields on a kind of core. -/
def mstatusFields (k : Kind) : List Nat := if k = .compute then [3, 7] else [1, 3, 5, 7, 8]

theorem getLsbD_mstatusMask (core : Nat) {j : Nat} (hj : j < 64) :
    (mstatusMask core).getLsbD j = decide (j ∈ mstatusFields (kindOf core) ∨ j = 11 ∨ j = 12) := by
  have hc : ∀ j < 64, (0x1888#64).getLsbD j = decide (j ∈ [3, 7] ∨ j = 11 ∨ j = 12) := by decide
  have hs : ∀ j < 64, (0x19AA#64).getLsbD j = decide (j ∈ [1, 3, 5, 7, 8] ∨ j = 11 ∨ j = 12) := by decide
  unfold mstatusMask hasS mstatusFields
  cases kindOf core with
  | compute => exact hc j hj
  | translation => exact hs j hj
  | hub => exact hs j hj

theorem mstatusWrite_eq (core : Nat) (old v : Word) : mstatusWrite core old v =
    if bits (v &&& mstatusMask core) 11 2 ∈ levelCodes (kindOf core) then v &&& mstatusMask core
    else setBits (v &&& mstatusMask core) 11 2 (bits old 11 2) := by
  unfold mstatusWrite levelCodes
  cases kindOf core <;> simp [or_assoc]

/-- MPP is a field on every core. -/
theorem bits_and_mstatusMask (core : Nat) (v : Word) : bits (v &&& mstatusMask core) 11 2 = bits v 11 2 :=
  bits_congr fun i hi => by
    rw [BitVec.getLsbD_and, getLsbD_mstatusMask core (by omega), decide_eq_true (by omega), Bool.and_true]

theorem bits_mstatusWrite (core : Nat) (old v : Word) :
    bits (mstatusWrite core old v) 11 2 = if bits v 11 2 ∈ levelCodes (kindOf core) then bits v 11 2 else bits old 11 2 := by
  rw [mstatusWrite_eq, bits_and_mstatusMask]
  split
  · exact bits_and_mstatusMask core v
  · exact bits_setBits_same _ _ _ _ (by decide) (bits_lt old 11 2)

theorem getLsbD_mstatusWrite (core : Nat) (old v : Word) (j : Nat) (hj : j < 64) (h11 : j ≠ 11) (h12 : j ≠ 12) :
    (mstatusWrite core old v).getLsbD j = (decide (j ∈ mstatusFields (kindOf core)) && v.getLsbD j) := by
  have hm : (v &&& mstatusMask core).getLsbD j = (decide (j ∈ mstatusFields (kindOf core)) && v.getLsbD j) := by
    rw [BitVec.getLsbD_and, getLsbD_mstatusMask core hj, Bool.and_comm]
    simp [h11, h12]
  rw [mstatusWrite_eq]
  split
  · exact hm
  · rw [getLsbD_setBits _ _ _ _ _ hj, if_neg (by omega)]
    exact hm

/-- R321: a cause register ignores a value with a reserved bit. -/
theorem causeWrite_eq (old v : Word) : causeWrite old v = if bits v 7 54 = 0 then v else old := by
  simp [causeWrite, zeroBits]

/-! ## PMP (R323) -/

/-- A byte of a PMP register without its two reserved bits. -/
theorem toNat_and_pmpMask (x : BitVec 8) : (x &&& 0x9F#8).toNat = x.toNat % 32 + 128 * (x.toNat / 128) := by
  revert x
  decide

theorem toNat_setBits_pmpA (x : BitVec 8) (f : Nat) (hf : f < 4) : (setBits x 3 2 f).toNat = x.toNat % 8 + 8 * f + 32 * (x.toNat / 32) := by
  have low := bits_setBits_other x 3 2 f 0 3 (by decide) (by decide)
  have mid := bits_setBits_same x 3 2 f (by decide) hf
  have high := bits_setBits_other x 3 2 f 5 3 (by decide) (by decide)
  rw [bits_eq_div_mod, bits_eq_div_mod] at low high
  rw [bits_eq_div_mod] at mid
  omega

theorem pmpWrite_locked {old : BitVec 8} (h : old.getLsbD 7 = true) (v : Nat) : pmpWrite old v = old := by
  rw [pmpWrite, bit, if_pos h]

theorem pmpWrite_open {old : BitVec 8} (h : old.getLsbD 7 = false) (v : Nat) (hv : v < 256) : pmpWrite old v =
    BitVec.ofNat 8 (v % 8 + 8 * (if v / 8 % 4 = 2 then bits old 3 2 else v / 8 % 4) + 128 * (v / 128)) := by
  have hm : (BitVec.ofNat 8 v &&& 0x9F#8).toNat = v % 32 + 128 * (v / 128) := by
    rw [toNat_and_pmpMask, BitVec.toNat_ofNat, Nat.mod_eq_of_lt hv]
  have hA : bits (BitVec.ofNat 8 v &&& 0x9F#8) 3 2 = v / 8 % 4 := by
    rw [bits_eq_div_mod, hm]
    omega
  have hold := bits_lt old 3 2
  rw [pmpWrite, bit, h, if_neg Bool.false_ne_true]
  simp only [hA]
  apply BitVec.eq_of_toNat_eq
  split
  · rw [toNat_setBits_pmpA _ _ hold, hm, BitVec.toNat_ofNat]
    omega
  · rw [hm, BitVec.toNat_ofNat]
    omega

theorem Core.getElem_writePmpcfg (c : Core) (j : Nat) (v : Word) (i : Fin 16) : (c.writePmpcfg j v).pmpcfg[i.val] =
    if i.val / 8 = j then pmpWrite c.pmpcfg[i.val] (bits v (8 * (i.val % 8)) 8) else c.pmpcfg[i.val] := by
  simp [Core.writePmpcfg]

end Sys2Proof.Machine
end

section
/-! SUPPORT. Where a CSR write goes (R6): to the thread, to its S and M registers or to its core; and the registers that a write of the
core leaves. -/

namespace Sys2Proof.Machine

/-! ## The three tables of writes -/

theorem State.writeCsr_of_user {s : State} {n : Nat} {v : Word} {t : Thread} (h : s.me.writeUser n v = some t) :
    s.writeCsr s.cur n v = s.setMe t := by
  rw [State.me] at h
  simp only [State.writeCsr, h, State.setMe]

theorem State.writeCsr_of_priv {s : State} {n : Nat} {v : Word} {p : PrivCsrs} (hu : s.me.writeUser n v = none)
    (h : s.me.priv.write s.cur.core n v = some p) : s.writeCsr s.cur n v = s.setMe { s.me with priv := p } := by
  rw [State.me] at hu h
  simp only [State.writeCsr, hu, h, State.setMe, State.me]

theorem State.writeCsr_of_core {s : State} {n : Nat} {v : Word} {c : Core} (hu : s.me.writeUser n v = none)
    (hp : s.me.priv.write s.cur.core n v = none) (h : s.myCore.writeCsr s.me.level n v = some c) :
    s.writeCsr s.cur n v = s.setMyCore c := by
  rw [State.me] at hu hp
  rw [State.me, State.myCore] at h
  simp only [State.writeCsr, hu, hp, h, State.setMyCore]

/-- A number that no table of writes lists, and that is not the one that resolves a report (R316), is read-only. -/
theorem State.writeCsr_of_none {s : State} {n : Nat} {v : Word} (hu : s.me.writeUser n v = none)
    (hp : s.me.priv.write s.cur.core n v = none) (hc : s.myCore.writeCsr s.me.level n v = none) (hn : n ≠ 0x346) :
    s.writeCsr s.cur n v = s := by
  rw [State.me] at hu hp
  rw [State.me, State.myCore] at hc
  simp only [State.writeCsr, hu, hp, hc, hn, false_and, if_false]

theorem Thread.writeUser_eq_none (t : Thread) {n : Nat} (v : Word) (h : 0x062 < n) : t.writeUser n v = none := by
  unfold Thread.writeUser
  iterate 17 rw [if_neg (by omega)]

theorem PrivCsrs.write_eq_none (p : PrivCsrs) (core : Nat) {n : Nat} (v : Word) (h : n < 0x300 ∨ 0x744 < n) : p.write core n v = none := by
  unfold PrivCsrs.write
  iterate 16 rw [if_neg (by omega)]

/-- A write of a register of the core whose number lies outside the S-level and M-level registers of the thread. -/
theorem State.writeCsr_of_coreRange {s : State} {n : Nat} {v : Word} {c : Core} (hn : 0x062 < n ∧ n < 0x300 ∨ 0x744 < n)
    (h : s.myCore.writeCsr s.me.level n v = some c) : s.writeCsr s.cur n v = s.setMyCore c :=
  State.writeCsr_of_core (Thread.writeUser_eq_none _ _ (by omega)) (PrivCsrs.write_eq_none _ _ _ (by omega)) h

/-! ## Registers of the thread with reserved bits or several numbers -/

theorem Thread.writeUser_fmode (t : Thread) (v : Word) :
    t.writeUser 0x010 v = some (if v.toNat < 4 then { t with fmode := v.setWidth 2 } else t) := by
  change some (if zeroBits v 2 62 then _ else _) = _
  simp only [zeroBits_top v 2 62 rfl, Nat.reducePow]

theorem Thread.writeUser_fflags (t : Thread) (v : Word) :
    t.writeUser 0x011 v = some (if v.toNat < 32 then { t with fflags := v.setWidth 5 } else t) := by
  change some (if zeroBits v 5 59 then _ else _) = _
  simp only [zeroBits_top v 5 59 rfl, Nat.reducePow]

theorem Thread.writeUser_ascale (t : Thread) (v : Word) :
    t.writeUser 0x051 v = some (if v.toNat < 2 ^ 32 then { t with ascale := v.setWidth 32 } else t) := by
  change some (if zeroBits v 32 32 then _ else _) = _
  simp only [zeroBits_top v 32 32 rfl]

theorem Thread.writeUser_cmfree (t : Thread) (v : Word) :
    t.writeUser 0x061 v = some (if v.toNat < 2 ^ 56 ∧ v.toNat % 32 = 0 then { t with cmfree := v } else t) := by
  have low : zeroBits v 0 5 = true ↔ v.toNat % 32 = 0 := by
    rw [zeroBits, decide_eq_true_eq, bits_eq_div_mod]
    simp
  change some (if zeroBits v 56 8 && zeroBits v 0 5 then _ else _) = _
  simp only [Bool.and_eq_true, zeroBits_top v 56 8 rfl, low]

theorem Thread.writeUser_shape (t : Thread) (i : Fin 4) (v : Word) : t.writeUser (0x042 + i.val) v =
    some { t with xf := { t.xf with shape := t.xf.shape.set i.val (v.setWidth 32) } } :=
  match i with
  | 0 | 1 | 2 | 3 => rfl

theorem Thread.writeUser_sstride (t : Thread) (i : Fin 3) (v : Word) : t.writeUser (0x047 + i.val) v =
    some { t with xf := { t.xf with sstride := t.xf.sstride.set i.val v } } :=
  match i with
  | 0 | 1 | 2 => rfl

theorem Thread.writeUser_dstride (t : Thread) (i : Fin 3) (v : Word) : t.writeUser (0x04B + i.val) v =
    some { t with xf := { t.xf with dstride := t.xf.dstride.set i.val v } } :=
  match i with
  | 0 | 1 | 2 => rfl

theorem PrivCsrs.write_scause (p : PrivCsrs) (core : Nat) (v : Word) :
    p.write core 0x342 v = some { p with scause := if bits v 7 54 = 0 then v else p.scause } := by
  rw [← causeWrite_eq]
  rfl

theorem PrivCsrs.write_mcause (p : PrivCsrs) (core : Nat) (v : Word) :
    p.write core 0x742 v = some { p with mcause := if bits v 7 54 = 0 then v else p.mcause } := by
  rw [← causeWrite_eq]
  rfl

/-! ## Registers of the core -/

theorem Core.writeCsr_bankfmt (c : Core) (l : Level) (b : Fin 16) (v : Word) : c.writeCsr l (0x070 + b.val) v =
    some (if v.toNat ≤ 10 then { c with fmts := c.fmts.set b.val (v.setWidth 4) } else c) := by
  have hb : (⟨(0x070 + b.val - 0x070) % 16, by omega⟩ : Fin 16) = b := Fin.ext (by simp only; omega)
  rw [Core.writeCsr, if_pos (by omega), hb, Core.writeBankfmt_eq]

theorem Core.writeCsr_tagmap (c : Core) (l : Level) (k : Fin 8) (v : Word) :
    c.writeCsr l (0x080 + k.val) v = some (c.writeTagmap l k.val v) := by
  rw [Core.writeCsr, if_neg (by omega), if_pos (by omega), Nat.add_sub_cancel_left]

theorem Core.writeCsr_pmpcfg (c : Core) (l : Level) (j : Fin 2) (v : Word) : c.writeCsr l (0x750 + j.val) v = some (c.writePmpcfg j.val v) :=
  match j with
  | 0 | 1 => rfl

theorem Core.writeCsr_pmpaddr (c : Core) (l : Level) (i : Fin 16) (v : Word) : c.writeCsr l (0x760 + i.val) v =
    some (if c.pmpcfg[i.val].getLsbD 7 then c else { c with pmpaddr := c.pmpaddr.set i.val (v.setWidth 54) }) := by
  have hi : (⟨(0x760 + i.val - 0x760) % 16, by omega⟩ : Fin 16) = i := Fin.ext (by simp only; omega)
  rw [Core.writeCsr]
  iterate 5 rw [if_neg (by omega)]
  rw [if_pos (by omega), hi, Core.writePmpaddr, bit]

theorem Core.getElem_writePmpcfg_fields (c : Core) (j : Nat) (v : Word) (i : Fin 16) :
    let old := c.pmpcfg[i.val]
    let new := bits v (8 * (i.val % 8)) 8
    (c.writePmpcfg j v).pmpcfg[i.val] = if i.val / 8 = j ∧ old.getLsbD 7 = false then
      BitVec.ofNat 8 (new % 8 + 8 * (if new / 8 % 4 = 2 then bits old 3 2 else new / 8 % 4) + 128 * (new / 128)) else old := by
  dsimp only
  rw [Core.getElem_writePmpcfg]
  by_cases hj : i.val / 8 = j
  · cases hl : c.pmpcfg[i.val].getLsbD 7 with
    | false => rw [if_pos hj, if_pos ⟨hj, rfl⟩, pmpWrite_open hl _ (bits_lt _ _ 8)]
    | true => rw [if_pos hj, if_neg (by simp), pmpWrite_locked hl]
  · rw [if_neg hj, if_neg (fun h => hj h.1)]

end Sys2Proof.Machine
end

section
/-! SUPPORT. What a CSR write leaves in the registers of the thread and its core: O9. -/

namespace Sys2Proof.Machine

open State

/-- Settles O9: each clause names the table of writes in which its number stands, and the fields are those of the lemmas on what a write
leaves; the read-only numbers stand in no table. -/
theorem csrWriteFields : Obligations.CsrWriteFields := by
  unfold Obligations.CsrWriteFields
  intro s v t c even puts user priv xf core cause levels fields
  refine ⟨writeCsr_of_user rfl, writeCsr_of_user rfl, writeCsr_of_user rfl, writeCsr_of_user rfl, writeCsr_of_user rfl,
    writeCsr_of_user (Thread.writeUser_fmode _ v), writeCsr_of_user (Thread.writeUser_fflags _ v),
    writeCsr_of_user rfl, writeCsr_of_user rfl,
    fun i => writeCsr_of_user (Thread.writeUser_shape _ i v),
    fun i => ⟨writeCsr_of_user (Thread.writeUser_sstride _ i v), writeCsr_of_user (Thread.writeUser_dstride _ i v)⟩,
    writeCsr_of_user rfl, writeCsr_of_user rfl, writeCsr_of_user (Thread.writeUser_ascale _ v),
    writeCsr_of_user (Thread.writeUser_cmfree _ v), writeCsr_of_user rfl,
    ⟨_, writeCsr_of_priv rfl rfl, getLsbD_sstatusWrite _ v⟩,
    ⟨_, writeCsr_of_priv rfl rfl, bits_mstatusWrite _ _ v, getLsbD_mstatusWrite _ _ v⟩,
    writeCsr_of_priv rfl rfl, writeCsr_of_priv rfl rfl, writeCsr_of_priv rfl rfl, writeCsr_of_priv rfl rfl,
    writeCsr_of_priv rfl (PrivCsrs.write_scause _ _ v), writeCsr_of_priv rfl (PrivCsrs.write_mcause _ _ v),
    writeCsr_of_priv rfl rfl, writeCsr_of_priv rfl rfl, writeCsr_of_priv rfl rfl, writeCsr_of_priv rfl rfl,
    writeCsr_of_priv rfl rfl, writeCsr_of_core rfl rfl rfl,
    ⟨_, writeCsr_of_priv rfl rfl, fun j hj => ?msdeleg⟩,
    ⟨_, writeCsr_of_priv rfl rfl, fun j hj => ?sie⟩,
    ⟨_, writeCsr_of_priv rfl rfl, fun j hj => ?mie⟩,
    fun b => writeCsr_of_coreRange (by omega) (Core.writeCsr_bankfmt _ _ b v),
    fun k => ⟨_, writeCsr_of_coreRange (by omega) (Core.writeCsr_tagmap _ _ k v), Sram.setRegions_kept _ _ _ _,
      Core.get_writeTagmap _ _ _ v k.isLt⟩,
    fun j => ⟨_, writeCsr_of_coreRange (by omega) (Core.writeCsr_pmpcfg _ _ j v), Core.getElem_writePmpcfg_fields _ _ v⟩,
    fun i => writeCsr_of_coreRange (by omega) (Core.writeCsr_pmpaddr _ _ i v),
    writeCsr_of_coreRange (by omega) rfl, writeCsr_of_coreRange (by omega) rfl, fun n hn => ?readOnly⟩
  case msdeleg => rw [BitVec.getLsbD_and, getLsbD_msdelegMask hj, Bool.and_assoc, Bool.and_assoc]
  case sie => rw [BitVec.getLsbD_and, getLsbD_sieMask hj]
  case mie => rw [BitVec.getLsbD_and, getLsbD_mieMask hj]
  case readOnly =>
    simp only [List.mem_cons, List.not_mem_nil, or_false] at hn
    rcases hn with rfl | rfl | rfl | rfl | rfl | rfl | rfl | rfl | rfl | rfl | rfl | rfl | rfl <;>
      exact writeCsr_of_none rfl rfl rfl (by decide)

end Sys2Proof.Machine
end

section
/-! SUPPORT. When the device takes a write of a partition, orbit or watchdog register (R34, R352, R373) or of DEVID (R402), and the writes
that it makes as steps of its own: O45. -/

namespace Sys2Proof.Machine

/-! ## Conditions -/

/-- R34: the range of a grid-deadlock period; no bit above bit 16 is set in it. -/
theorem gdwd_ok_iff (v : Word) :
    (zeroBits v 17 47 && decide (100 ≤ v.toNat) && decide (v.toNat ≤ 100000)) = true ↔ 100 ≤ v.toNat ∧ v.toNat ≤ 100000 := by
  rw [Bool.and_eq_true, Bool.and_eq_true, zeroBits_top v 17 47 rfl, decide_eq_true_eq, decide_eq_true_eq]
  omega

/-- R373: the range of a halt watchdog period; no bit above bit 13 is set in it. -/
theorem haltwd_ok_iff (v : Word) :
    (zeroBits v 14 50 && decide (10 ≤ v.toNat) && decide (v.toNat ≤ 10000)) = true ↔ 10 ≤ v.toNat ∧ v.toNat ≤ 10000 := by
  rw [Bool.and_eq_true, Bool.and_eq_true, zeroBits_top v 14 50 rfl, decide_eq_true_eq, decide_eq_true_eq]
  omega

theorem partown_refused_iff (s : State) (n : Nat) (v : Word) :
    (s.partBusy n || zeroBits v 0 12) = true ↔ ¬ ((∀ c ∈ s.ctxs, c.2.part ≠ n) ∧ bits v 0 12 ≠ 0) := by
  have free : s.partBusy n = false ↔ ∀ c ∈ s.ctxs, c.2.part ≠ n := by simp [State.partBusy]
  rw [← free, zeroBits]
  cases s.partBusy n <;> simp

/-- R352: a write of a register of the cluster set is ignored when it names a cluster that another partition owns, drops one on which
a context of the partition is resident, or names one that is withheld. -/
theorem partcl_refused_iff (s : State) (n j : Nat) (new : List Nat) :
    (new.any (fun c => s.parts.any (fun q => decide (q.1 ≠ n) && decide (c ∈ q.2.clusters))) ||
      ((s.part n).clusters.filter (fun c => decide (c / 64 = j) && decide (c ∉ new))).any (fun c => s.residentOn n c) ||
      new.any (fun c => decide (c ∈ s.dev.withheld))) = true ↔
    ¬ ((∀ c ∈ new, c ∉ s.dev.withheld ∧ ∀ q ∈ s.parts, q.1 ≠ n → c ∉ q.2.clusters) ∧
      ∀ c ∈ (s.part n).clusters, c / 64 = j → c ∉ new → s.residentOn n c = false) := by
  have taken : new.any (fun c => s.parts.any (fun q => decide (q.1 ≠ n) && decide (c ∈ q.2.clusters))) = false ↔
      ∀ c ∈ new, ∀ q ∈ s.parts, q.1 ≠ n → c ∉ q.2.clusters := by simp
  have resident : ((s.part n).clusters.filter (fun c => decide (c / 64 = j) && decide (c ∉ new))).any (fun c => s.residentOn n c) = false ↔
      ∀ c ∈ (s.part n).clusters, c / 64 = j → c ∉ new → s.residentOn n c = false := by simp
  have withheld : new.any (fun c => decide (c ∈ s.dev.withheld)) = false ↔ ∀ c ∈ new, c ∉ s.dev.withheld := by simp
  rw [← Bool.not_eq_false, not_iff_not, Bool.or_eq_false_iff, Bool.or_eq_false_iff, taken, resident, withheld, forall₂_and]
  tauto

theorem State.orbitBad_eq_false (s : State) (old new : Tab (BitVec 7)) :
    s.orbitBad old new = false ↔ ∀ m : Nat, m < 64 → s.partHasGrid m = true → 0 < slotsOf old m → 0 < slotsOf new m := by
  simp only [State.orbitBad, List.any_eq_false, List.mem_range, Bool.and_eq_true, decide_eq_true_eq, Nat.pos_iff_ne_zero]
  exact forall₂_congr fun m hm => by tauto

theorem devid_refused_iff (d : Device) : (d.devLock || !d.bootOk) = true ↔ ¬ (d.devLock = false ∧ d.bootOk = true) := by
  cases d.devLock <;> cases d.bootOk <;> decide

/-- A write of a bank's format register changes that register alone. -/
theorem Core.writeBankfmt_kept (c : Core) (b : Fin 16) (v : Word) : c.writeBankfmt b v = { c with fmts := (c.writeBankfmt b v).fmts } := by
  rw [Core.writeBankfmt_eq]
  split <;> rfl

theorem Core.getElem_writeBankfmt (c : Core) (b i : Fin 16) (v : Word) :
    (c.writeBankfmt b v).fmts[i.val] = if i = b ∧ v.toNat ≤ 10 then v.setWidth 4 else c.fmts[i.val] := by
  rw [Core.writeBankfmt_eq]
  by_cases hv : v.toNat ≤ 10
  · by_cases hi : i = b
    · simp [hv, hi]
    · have hne : b.val ≠ i.val := fun e => hi (Fin.ext e.symm)
      simp [hv, hi, Vector.getElem_set_ne, hne]
  · simp [hv]

/-! ## The steps -/

/-- A step that takes a write under a condition: it makes the change where the condition holds, and changes nothing where it does not. -/
theorem taken_of {r : Result} {b : Bool} {ok : Prop} {s t : State} (hr : r = .next (if b then t else s)) (hb : b = true ↔ ok) :
    (ok → r = .next t) ∧ (¬ ok → r = .next s) :=
  ⟨fun h => by rw [hr, if_pos (hb.mpr h)], fun h => by rw [hr, if_neg (mt hb.mp h)]⟩

/-- The same, where the step tests what refuses the write. -/
theorem taken_of_refused {r : Result} {b : Bool} {ok : Prop} {s t : State} (hr : r = .next (if b then s else t)) (hb : b = true ↔ ¬ ok) :
    (ok → r = .next t) ∧ (¬ ok → r = .next s) :=
  ⟨fun h => by rw [hr, if_neg (fun e => hb.mp e h)], fun h => by rw [hr, if_pos (hb.mpr h)]⟩

theorem exec_orbitUpdateApply (s : State) :
    exec .orbitUpdateApply s = .next { s with orbit := s.orbitApplied, orbitNext := [] } := rfl

/-- Where every partition with a grid keeps a slot, the boundary makes every pending write (R352). -/
theorem State.orbitApplied_of_not_bad {s : State} (h : s.orbitBad s.orbit s.orbitPending = false) : s.orbitApplied = s.orbitPending := by
  rw [State.orbitApplied, h, if_neg Bool.false_ne_true]

/-- Settles O45: each write is taken under the condition that its step tests, stated in the words of the rules. -/
theorem registerSteps : Obligations.RegisterSteps := by
  unfold Obligations.RegisterSteps
  intro s core th csr v region bank n j p puts part named
  refine ⟨taken_of rfl Iff.rfl,
    ⟨_, rfl, rfl, Sram.setRegions_kept _ _ _ _, fun m => ?regions, fun q hq hr hm => ?woken⟩,
    ⟨_, rfl, Core.writeBankfmt_kept _ bank v, fun i => Core.getElem_writeBankfmt _ bank i v⟩,
    taken_of rfl (gdwd_ok_iff v), taken_of rfl (haltwd_ok_iff v), taken_of_refused rfl (partown_refused_iff s n.val v),
    taken_of_refused rfl (partcl_refused_iff s n.val j.val named), fun k => taken_of_refused rfl ?orbit, fun h => ?apply,
    taken_of_refused rfl (devid_refused_iff s.dev), fun _ => rfl⟩
  case regions =>
    refine (Core.get_writeTagmap (s.core core) .u region.val v region.isLt m).trans ?_
    simp only [ne_eq, not_true_eq_false, or_false]
  case woken => exact Core.woken_writeTagmap (s.core core) .u region.val v region.isLt q hq hr (.inl hm)
  case orbit => rw [← State.orbitBad_eq_false, Bool.not_eq_false]
  case apply => rw [exec_orbitUpdateApply, State.orbitApplied_of_not_bad ((State.orbitBad_eq_false s _ _).mpr h)]

end Sys2Proof.Machine
end

section
/-! SUPPORT. Where a trap is taken, and what it saves (R29, R314, R315, R322): O40. -/

namespace Sys2Proof.Machine

/-! ## Threads and memories behind a core that changes elsewhere -/

theorem State.thread_congr {s t : State} {h : Hart} (e : (t.core h.core).threads = (s.core h.core).threads) : t.thread h = s.thread h := by
  rw [State.thread, State.thread, e]

/-- What an update of a core leaves of a field that it keeps. -/
theorem State.core_setCore_kept {α : Type} (f : Core → α) (s : State) (n : Nat) (c : Core) (e : f c = f (s.core n)) (j : Nat) :
    f ((s.setCore n c).core j) = f (s.core j) := by
  by_cases hj : j = n
  · subst hj; rw [State.core_setCore_same, e]
  · rw [State.core_setCore_other _ _ _ _ hj]

/-- Memories are as they were where each core and cluster keeps its own. -/
theorem SameSram.of_cores {s t : State} (hc : ∀ n, (t.core n).sram = (s.core n).sram) (hk : t.clusters = s.clusters) : SameSram s t := by
  have e : ∀ p, t.sram p = s.sram p := by
    intro p
    cases p with
    | core n => exact hc n
    | cluster n => simp only [State.sram, State.cluster, hk]
  exact ⟨fun p a => by rw [State.byteAt, State.byteAt, e], fun p w => by rw [e], fun p l => by rw [e]⟩

theorem SameSram.trans {s t u : State} (h : SameSram s t) (k : SameSram t u) : SameSram s u :=
  ⟨fun p a => (k.bytes p a).trans (h.bytes p a), fun p w => (k.tags p w).trans (h.tags p w), fun p l => (k.owners p l).trans (h.owners p l)⟩

theorem SameSram.setThread (s : State) (h : Hart) (t : Thread) : SameSram s (s.setThread h t) :=
  ⟨fun p a => by rw [State.byteAt, State.byteAt, State.sram_setThread], fun p w => by rw [State.sram_setThread],
    fun p l => by rw [State.sram_setThread]⟩

theorem State.core_setThread_other (s : State) (h : Hart) (t : Thread) (n : Nat) (hn : n ≠ h.core) : (s.setThread h t).core n = s.core n :=
  State.core_setCore_other _ _ _ _ hn

/-! ## Cause words and status registers -/

/-- Table 21.7: the bits of a cause word stand apart from the code of an exception. -/
theorem causeWord_exception : ∀ (c : Nat), c < 64 → ∀ nest fwd : Bool,
    causeWord false nest fwd c = BitVec.ofNat 64 (c + (if nest then 2 ^ 62 else 0) + if fwd then 2 ^ 61 else 0) := by decide

theorem testBit_bits_one (v : Word) (i : Nat) : (bits v i 1).testBit 0 = v.getLsbD i := by
  rw [bits, BitVec.testBit_toNat, BitVec.getLsbD_extractLsb']
  simp

/-- R314: SPP, SPIE and SIE after an entry at S. -/
theorem Thread.mstatus_enterS (t : Thread) (cause value : Word) (j : Nat) (hj : j < 64) : (t.enterS cause value).priv.mstatus.getLsbD j =
    if j = 1 then false else if j = 5 then t.priv.mstatus.getLsbD 1 else if j = 8 then decide (t.level ≠ .u) else t.priv.mstatus.getLsbD j := by
  simp only [Thread.enterS, getLsbD_setBits _ _ _ _ _ hj]
  by_cases h1 : j = 1
  · subst h1; simp
  · by_cases h5 : j = 5
    · subst h5
      have kept : (bits (setBits t.priv.mstatus 8 1 (if t.level = .u then 0 else 1)) 1 1).testBit 0 = t.priv.mstatus.getLsbD 1 := by
        rw [testBit_bits_one, getLsbD_setBits _ _ _ _ _ (by decide)]; simp
      simpa using kept
    · by_cases h8 : j = 8
      · subst h8
        cases hl : t.level <;> simp
      · simp only [h1, h5, h8, if_false, show ¬(1 ≤ j ∧ j < 1 + 1) by omega, show ¬(5 ≤ j ∧ j < 5 + 1) by omega,
          show ¬(8 ≤ j ∧ j < 8 + 1) by omega]

/-- R314: MPIE and MIE after the M-level registers have been saved. -/
theorem Thread.mstatus_saveM (t : Thread) (cause value : Word) (j : Nat) (hj : j < 64) (h11 : j ≠ 11) (h12 : j ≠ 12) :
    (t.saveM cause value).priv.mstatus.getLsbD j =
      if j = 3 then false else if j = 7 then t.priv.mstatus.getLsbD 3 else t.priv.mstatus.getLsbD j := by
  simp only [Thread.saveM, getLsbD_setBits _ _ _ _ _ hj]
  by_cases h3 : j = 3
  · subst h3; simp
  · by_cases h7 : j = 7
    · subst h7
      have kept : (bits (setBits t.priv.mstatus 11 2 t.level.code) 3 1).testBit 0 = t.priv.mstatus.getLsbD 3 := by
        rw [testBit_bits_one, getLsbD_setBits _ _ _ _ _ (by decide)]; simp
      simpa using kept
    · simp only [h3, h7, if_false, show ¬(3 ≤ j ∧ j < 3 + 1) by omega, show ¬(7 ≤ j ∧ j < 7 + 1) by omega,
        show ¬(11 ≤ j ∧ j < 11 + 2) by omega]

theorem Level.code_lt (l : Level) : l.code < 4 := by cases l <;> decide

/-- R314: MPP after the M-level registers have been saved. -/
theorem Thread.mpp_saveM (t : Thread) (cause value : Word) : bits (t.saveM cause value).priv.mstatus 11 2 = t.level.code := by
  simp only [Thread.saveM]
  rw [bits_setBits_other _ _ _ _ _ _ (by decide) (by decide), bits_setBits_other _ _ _ _ _ _ (by decide) (by decide),
    bits_setBits_same _ _ _ _ (by decide) t.level.code_lt]

/-! ## A report of a compute core's thread (R315) -/

/-- R315: a report changes its hub core's queue and waiting list, and DRAM. -/
theorem State.post_eq (s : State) (hub : Nat) (r : Report) : ∃ d q n l,
    s.post hub r = ({ s with dram := d } : State).setCore hub { s.core hub with reports := q, reportSeq := n, reportsHeld := l } := by
  unfold State.post
  dsimp only
  split
  · exact ⟨_, _, _, _, rfl⟩
  · exact ⟨s.dram, _, _, _, rfl⟩

theorem State.core_post {α : Type} (f : Core → α) (hf : ∀ c q n l, f { c with reports := q, reportSeq := n, reportsHeld := l } = f c)
    (s : State) (hub : Nat) (r : Report) (j : Nat) : f ((s.post hub r).core j) = f (s.core j) := by
  obtain ⟨d, q, n, l, e⟩ := s.post_eq hub r
  rw [e]
  exact State.core_setCore_kept f _ _ _ (hf _ q n l) j

theorem State.post_clusters (s : State) (hub : Nat) (r : Report) : (s.post hub r).clusters = s.clusters := by
  obtain ⟨d, q, n, l, e⟩ := s.post_eq hub r
  rw [e]
  rfl

theorem State.reported_post (s : State) (hub : Nat) (r : Report) : Reported s (s.post hub r) hub r := by
  by_cases hlen : (s.core hub).reports.length < 256
  · simp only [Reported, State.post, if_pos hlen, State.core_setCore_same, State.setCore_dram, and_self]
  · simp only [Reported, State.post, if_neg hlen, State.core_setCore_same, State.setCore_dram, and_self]

/-- R399: a stop event is noted in the context alone. -/
theorem State.stopEvent_eq (s : State) (r : Report) : s.stopEvent r = { s with ctxs := (s.stopEvent r).ctxs } := by
  unfold State.stopEvent
  split
  · rfl
  · split <;> rfl

theorem State.hubOf_ge (s : State) (g : Nat) : 4352 ≤ s.hubOf g := Nat.le_add_right _ _

theorem kindOf_eq_compute {n : Nat} : kindOf n = .compute ↔ n < 4096 := by
  unfold kindOf
  split <;> [simp_all; (split <;> simp_all)]

theorem State.hubOf_ne {n : Nat} (hk : kindOf n = .compute) (s : State) (g : Nat) : s.hubOf g ≠ n := by
  have := s.hubOf_ge g
  have := kindOf_eq_compute.mp hk
  omega

/-- Between s and s' the trap of thread h, which stood as w, has been forwarded in report r: the thread waits, and no other thread and no SRAM
has changed. -/
structure Forwards (s s' : State) (h : Hart) (r : Report) (w : Thread) : Prop where
  thread : s'.thread h = { w.calmed with status := .report }
  reported : Reported s s' (s.hubOf r.grid) r
  others : ∀ h', h' ≠ h → s'.thread h' = s.thread h'
  sram : SameSram s s'

theorem Forwards.forward {h : Hart} (hk : kindOf h.core = .compute) (s : State) (c : Nat) (v : Word) (info : BitVec 14) (nest : Bool) :
    Forwards s (s.forward h c v info nest) h (s.reportOf h c v info nest) (s.thread h) := by
  obtain ⟨q, hq⟩ : ∃ q : Tab Ctx, s.stopEvent (s.reportOf h c v info nest) = { s with ctxs := q } := ⟨_, State.stopEvent_eq _ _⟩
  let hub := s.hubOf (s.thread h).grid
  let p := State.post { s with ctxs := q } hub (s.reportOf h c v info nest)
  have e : s.forward h c v info nest = p.setThread h { (p.thread h).calmed with status := .report } := by
    rw [State.forward, State.report, hq]
    rfl
  have threads : ∀ g, p.thread g = s.thread g := fun g =>
    State.thread_congr (State.core_post Core.threads (fun _ _ _ _ => rfl) { s with ctxs := q } hub _ _)
  rw [e]
  refine ⟨by rw [State.thread_setThread_same, threads], ?_, fun g hg => by rw [State.thread_setThread_other _ _ _ _ hg, threads], ?_⟩
  · have hp : Reported s p hub (s.reportOf h c v info nest) := State.reported_post { s with ctxs := q } hub _
    change Reported s (p.setThread h _) hub _
    rw [Reported, State.core_setThread_other _ _ _ _ (State.hubOf_ne hk s _)]
    exact hp
  · have posted : SameSram s p := SameSram.of_cores (State.core_post Core.sram (fun _ _ _ _ => rfl) { s with ctxs := q } hub _)
      (State.post_clusters { s with ctxs := q } hub _)
    exact posted.trans (SameSram.setThread _ _ _)

/-- The same where the thread itself has been updated before. -/
theorem Forwards.of_setThread {s s' : State} {h : Hart} {u w : Thread} {r : Report} (hk : kindOf h.core = .compute)
    (F : Forwards (s.setThread h u) s' h r w) : Forwards s s' h r w where
  thread := F.thread
  reported := by
    have hr := F.reported
    rw [Reported, State.core_setThread_other _ _ _ _ (State.hubOf_ne hk _ _)] at hr
    exact hr
  others g hg := (F.others g hg).trans (State.thread_setThread_other _ _ _ _ hg)
  sram := (SameSram.setThread s h u).trans F.sram

theorem State.reportOf_setThread (s : State) (h : Hart) (u : Thread) (c : Nat) (v : Word) (info : BitVec 14) (nest : Bool)
    (hpc : u.pc = (s.thread h).pc) (hn : u.nodeid = (s.thread h).nodeid) (hg : u.grid = (s.thread h).grid) :
    (s.setThread h u).reportOf h c v info nest = s.reportOf h c v info nest := by
  have hctx := State.core_setCore_kept Core.mcontext s h.core { s.core h.core with threads := Tab.set h.th u (s.core h.core).threads } rfl h.core
  have hown := State.core_setCore_kept Core.mowner s h.core { s.core h.core with threads := Tab.set h.th u (s.core h.core).threads } rfl h.core
  rw [State.reportOf, State.reportOf, State.thread_setThread_same, hpc, hn, hg, State.setThread, hctx, hown]
  rfl

/-! ## The level that takes a trap (R314) -/

/-- R78: a thread with UTAG written, where the cause is 24. -/
def Thread.withUtag (t : Thread) (c : Nat) (info : BitVec 14) : Thread :=
  { t with user := { t.user with utag := if c = 24 then info else t.user.utag } }

/-- The machine once a trap has written UTAG (log 37). -/
def State.withUtag (s : State) (h : Hart) (c : Nat) (info : BitVec 14) : State :=
  if c = 24 then s.setThread h { s.thread h with user := { (s.thread h).user with utag := info } } else s

theorem State.thread_withUtag (s : State) (h : Hart) (c : Nat) (info : BitVec 14) :
    (s.withUtag h c info).thread h = (s.thread h).withUtag c info := by
  unfold State.withUtag Thread.withUtag
  split
  · rw [State.thread_setThread_same]
  · rfl

theorem State.setThread_withUtag (s : State) (h : Hart) (c : Nat) (info : BitVec 14) (u : Thread) :
    (s.withUtag h c info).setThread h u = s.setThread h u := by
  unfold State.withUtag
  split
  · exact State.setThread_setThread _ _ _ _
  · rfl

theorem Forwards.of_withUtag {s s' : State} {h : Hart} {c : Nat} {info : BitVec 14} {w : Thread} {r : Report} (hk : kindOf h.core = .compute)
    (F : Forwards (s.withUtag h c info) s' h r w) : Forwards s s' h r w := by
  unfold State.withUtag at F
  split at F
  · exact F.of_setThread hk
  · exact F

theorem State.reportOf_withUtag (s : State) (h : Hart) (c : Nat) (v : Word) (info : BitVec 14) (nest : Bool) :
    (s.withUtag h c info).reportOf h c v info nest = s.reportOf h c v info nest := by
  unfold State.withUtag
  split
  · exact State.reportOf_setThread _ _ _ _ _ _ _ rfl rfl rfl
  · rfl

/-- The general registers that a trap leaves alone. -/
structure Thread.SameRegs (t u : Thread) : Prop where
  x : u.x = t.x
  h : u.h = t.h
  v : u.v = t.v
  m : u.m = t.m

theorem Thread.withUtag_enterUser (t : Thread) (c : Nat) (v : Word) (info : BitVec 14) :
    let u := (t.withUtag c info).enterUser t.pc c v
    u = { t with user := u.user, rep := u.rep, pc := u.pc, status := .run, pend := none, gathered := [], late := [], drain := none } := rfl

theorem Thread.sameRegs_withUtag (t : Thread) (c : Nat) (info : BitVec 14) : t.SameRegs (t.withUtag c info) := ⟨rfl, rfl, rfl, rfl⟩

theorem Thread.SameRegs.enterUser {t u : Thread} (r : t.SameRegs u) (epc : Word) (c : Nat) (v : Word) : t.SameRegs (u.enterUser epc c v) :=
  ⟨r.x, r.h, r.v, r.m⟩

theorem Thread.SameRegs.enterS {t u : Thread} (r : t.SameRegs u) (c v : Word) : t.SameRegs (u.enterS c v) := ⟨r.x, r.h, r.v, r.m⟩

theorem Thread.SameRegs.saveM {t u : Thread} (r : t.SameRegs u) (c v : Word) : t.SameRegs (u.saveM c v) := ⟨r.x, r.h, r.v, r.m⟩

theorem Thread.SameRegs.enterM {t u : Thread} (r : t.SameRegs u) (c v : Word) : t.SameRegs (u.enterM c v) := ⟨r.x, r.h, r.v, r.m⟩

section Levels

variable (s : State) (h : Hart) (c : Nat) (v : Word) (info : BitVec 14)

/-- R29: a trap that a vector at U takes. -/
theorem State.takeTrap_atU (hu : (s.thread h).level = .u ∧ delegated s h c = true ∧ forced h c info = false)
    (hh : (s.thread h).user.h = false ∧ (s.thread h).user.utvec ≠ 0) :
    s.takeTrap h c v info = s.setThread h (((s.thread h).withUtag c info).enterUser (s.thread h).pc c v) := by
  rw [← s.setThread_withUtag h c info, ← s.thread_withUtag h c info]
  unfold State.takeTrap
  dsimp only
  rw [if_pos hu, if_pos hh]
  rfl

/-- R29: a delegated trap that finds a handler active, or no vector. -/
theorem State.takeTrap_nested (hu : (s.thread h).level = .u ∧ delegated s h c = true ∧ forced h c info = false)
    (hh : ¬ ((s.thread h).user.h = false ∧ (s.thread h).user.utvec ≠ 0)) :
    s.takeTrap h c v info =
      if kindOf h.core = .compute then (s.withUtag h c info).forward h c v info true
      else if (s.thread h).priv.msdeleg.getLsbD c = true then s.setThread h (((s.thread h).withUtag c info).enterS (causeWord false true false c) v)
      else s.setThread h (((s.thread h).withUtag c info).enterM (causeWord false true false c) v) := by
  rw [← s.setThread_withUtag h c info, ← s.setThread_withUtag h c info, ← s.thread_withUtag h c info]
  unfold State.takeTrap
  dsimp only
  rw [if_pos hu, if_neg hh]
  cases kindOf h.core <;> rfl

/-- R314: a trap that level U may not take, or that comes from a level above. -/
theorem State.takeTrap_up (hu : ¬ ((s.thread h).level = .u ∧ delegated s h c = true ∧ forced h c info = false)) {nest : Bool}
    (hn : nest = true ↔ (s.thread h).level = .u ∧ forced h c info = true) :
    s.takeTrap h c v info =
      if kindOf h.core = .compute then ((s.setThread h (((s.thread h).withUtag c info).saveM (causeWord false false false c) v)).forward h c v info nest)
      else if (s.thread h).level ≠ .m ∧ (s.thread h).priv.msdeleg.getLsbD c = true then
        s.setThread h (((s.thread h).withUtag c info).enterS (causeWord false nest false c) v)
      else s.setThread h (((s.thread h).withUtag c info).enterM (causeWord false nest false c) v) := by
  obtain rfl : nest = (decide ((s.thread h).level = .u) && forced h c info) := Bool.eq_iff_iff.mpr (hn.trans (by simp))
  rw [← s.setThread_withUtag h c info, ← s.setThread_withUtag h c info, ← s.setThread_withUtag h c info, ← s.thread_withUtag h c info]
  unfold State.takeTrap
  dsimp only
  rw [if_neg hu]
  cases hk : kindOf h.core <;> simp [hasS, hk, bit, State.withUtag]

/-- R315: the forwarded trap of a thread whose handler is active, or that has no vector. -/
theorem State.forwards_nested (hu : (s.thread h).level = .u ∧ delegated s h c = true ∧ forced h c info = false)
    (hh : ¬ ((s.thread h).user.h = false ∧ (s.thread h).user.utvec ≠ 0)) (hk : kindOf h.core = .compute) :
    Forwards s (s.takeTrap h c v info) h (s.reportOf h c v info true) ((s.thread h).withUtag c info) := by
  rw [s.takeTrap_nested h c v info hu hh, if_pos hk, ← s.thread_withUtag, ← s.reportOf_withUtag]
  exact (Forwards.forward hk _ c v info true).of_withUtag hk

/-- R315: the forwarded trap of a thread that level U does not take, for which the monitor's registers have been written (log 32). -/
theorem State.forwards_up (hu : ¬ ((s.thread h).level = .u ∧ delegated s h c = true ∧ forced h c info = false)) {nest : Bool}
    (hn : nest = true ↔ (s.thread h).level = .u ∧ forced h c info = true) (hk : kindOf h.core = .compute) :
    Forwards s (s.takeTrap h c v info) h (s.reportOf h c v info nest)
      (((s.thread h).withUtag c info).saveM (causeWord false false false c) v) := by
  have F := Forwards.forward hk (s.setThread h (((s.thread h).withUtag c info).saveM (causeWord false false false c) v)) c v info nest
  rw [State.thread_setThread_same, s.reportOf_setThread h (((s.thread h).withUtag c info).saveM (causeWord false false false c) v) c v info
    _ rfl rfl rfl] at F
  rw [s.takeTrap_up h c v info hu hn, if_pos hk]
  exact F.of_setThread hk

/-- R314: a trap enters a level, which changes its thread alone, or is forwarded; in either case its thread keeps its general registers. -/
theorem State.takeTrap_cases :
    (∃ u, s.takeTrap h c v info = s.setThread h u ∧ (s.thread h).SameRegs u) ∨
    (kindOf h.core = .compute ∧ ∃ r w, Forwards s (s.takeTrap h c v info) h r w ∧ (s.thread h).SameRegs w) := by
  have regs := (s.thread h).sameRegs_withUtag c info
  by_cases hu : (s.thread h).level = .u ∧ delegated s h c = true ∧ forced h c info = false
  · by_cases hh : (s.thread h).user.h = false ∧ (s.thread h).user.utvec ≠ 0
    · exact .inl ⟨_, s.takeTrap_atU h c v info hu hh, regs.enterUser _ _ _⟩
    · by_cases hk : kindOf h.core = .compute
      · exact .inr ⟨hk, _, _, s.forwards_nested h c v info hu hh hk, regs⟩
      · have e := s.takeTrap_nested h c v info hu hh
        rw [if_neg hk] at e
        split at e
        · exact .inl ⟨_, e, regs.enterS _ _⟩
        · exact .inl ⟨_, e, regs.enterM _ _⟩
  · obtain ⟨nest, hn⟩ : ∃ nest : Bool, nest = true ↔ (s.thread h).level = .u ∧ forced h c info = true := ⟨decide _, decide_eq_true_iff⟩
    by_cases hk : kindOf h.core = .compute
    · exact .inr ⟨hk, _, _, s.forwards_up h c v info hu hn hk, regs.saveM _ _⟩
    · have e := s.takeTrap_up h c v info hu hn
      rw [if_neg hk] at e
      split at e
      · exact .inl ⟨_, e, regs.enterS _ _⟩
      · exact .inl ⟨_, e, regs.enterM _ _⟩

end Levels

/-- The machine that has noted a trap of its current thread (R318). -/
def State.noting (s : State) (h : Hart) : State := { s with trapped := s.trapped || decide (h = s.cur) }

theorem State.trap_eq (s : State) (h : Hart) (c : Nat) (v : Word) (info : BitVec 14) :
    s.trap h c v info = (s.noting h).takeTrap h c v info := rfl

/-- Settles O40: R314 selects the level; an entry changes its thread alone, and a report leaves every other thread as it was. -/
theorem trapEntry : Obligations.TrapEntry := by
  unfold Obligations.TrapEntry
  intro s h c v info hc t s' t' utag user nested word ms atS savedM atM forwarded
  let s0 := s.noting h
  let w := t.withUtag c info
  have cw (nest fwd : Bool) : causeWord false nest fwd c = word nest fwd := causeWord_exception c hc nest fwd
  have entered {u : Thread} (e : s' = s0.setThread h u) : t' = u := by
    change s'.thread h = u
    rw [e, State.thread_setThread_same]
  have enteredS (nest : Bool) (e : s' = s0.setThread h (w.enterS (causeWord false nest false c) v)) : atS nest := by
    have ms' (j : Nat) (hj : j < 64) := Thread.mstatus_enterS w (causeWord false nest false c) v j hj
    dsimp only [atS]
    rw [entered e, ← cw]
    exact ⟨rfl, rfl, rfl, rfl, rfl, rfl, ms' 1 (by decide), ms' 5 (by decide), ms' 8 (by decide),
      fun j hj h1 h5 h8 => by rw [ms' j hj, if_neg h1, if_neg h5, if_neg h8]; rfl⟩
  have saved (nest : Bool) (e : t'.priv = (w.saveM (causeWord false nest false c) v).priv) : savedM nest := by
    have ms' (j : Nat) (hj : j < 64) := Thread.mstatus_saveM w (causeWord false nest false c) v j hj
    dsimp only [savedM]
    rw [e, ← cw]
    exact ⟨rfl, rfl, rfl, Thread.mpp_saveM w _ v, ms' 7 (by decide) (by decide) (by decide), ms' 3 (by decide) (by decide) (by decide),
      fun j hj h3 h7 h11 h12 => by rw [ms' j hj h11 h12, if_neg h3, if_neg h7]; rfl⟩
  have enteredM (nest : Bool) (e : s' = s0.setThread h (w.enterM (causeWord false nest false c) v)) : atM nest := by
    dsimp only [atM]
    rw [entered e]
    exact ⟨rfl, rfl, rfl, saved nest (by rw [entered e]; rfl)⟩
  have forwards (nest : Bool) (u : Thread) (hpc : u.pc = t.pc) (F : Forwards s0 s' h (s0.reportOf h c v info nest) u) : forwarded nest := by
    have et : t' = { u.calmed with status := .report } := F.thread
    dsimp only [forwarded]
    rw [et, ← cw]
    exact ⟨rfl, hpc, _, F.reported, rfl, rfl, rfl, rfl, rfl, rfl, rfl, rfl, rfl⟩
  obtain ⟨regs, others, sram, dram⟩ : t.SameRegs t' ∧ (∀ h', h' ≠ h → s'.thread h' = s.thread h') ∧ SameSram s0 s' ∧
      (kindOf h.core ≠ .compute → s'.dram = s.dram) := by
    rcases s0.takeTrap_cases h c v info with ⟨u, (e : s' = s0.setThread h u), regs⟩ | ⟨hk, r, u, F, regs⟩
    · rw [entered e, e]
      exact ⟨regs, fun g hg => State.thread_setThread_other s0 _ _ _ hg, SameSram.setThread s0 h u, fun _ => rfl⟩
    · have et : t' = { u.calmed with status := .report } := F.thread
      rw [et]
      exact ⟨⟨regs.x, regs.h, regs.v, regs.m⟩, F.others, F.sram, fun hne => absurd hk hne⟩
  refine ⟨fun hu hh hv => ?atU, fun hu hh => ?nested, fun hu nest hn => ?up, regs.x, regs.h, regs.v, regs.m, others,
    ⟨sram.bytes, sram.tags, sram.owners⟩, dram⟩
  case atU =>
    have hu' : (s0.thread h).level = .u ∧ delegated s0 h c = true ∧ forced h c info = false := ⟨hu.1, hu.2.2, hu.2.1⟩
    have e : t' = w.enterUser t.pc c v := entered (s0.takeTrap_atU h c v info hu' ⟨hh, hv⟩)
    rw [e]
    exact ⟨hu.1, rfl, rfl, rfl, t.withUtag_enterUser c v info⟩
  case nested =>
    have hu' : (s0.thread h).level = .u ∧ delegated s0 h c = true ∧ forced h c info = false := ⟨hu.1, hu.2.2, hu.2.1⟩
    have hh' : ¬ ((s0.thread h).user.h = false ∧ (s0.thread h).user.utvec ≠ 0) := by
      rintro ⟨h1, h2⟩
      exact hh.elim (fun e => Bool.false_ne_true (h1.symm.trans e)) h2
    have e : s' = _ := s0.takeTrap_nested h c v info hu' hh'
    have notCompute (hk : kindOf h.core = .hub) : ¬ kindOf h.core = .compute := by rw [hk]; decide
    exact ⟨fun hk => forwards true w rfl (s0.forwards_nested h c v info hu' hh' hk), fun hk =>
      ⟨fun hd => enteredS true ((e.trans (if_neg (notCompute hk))).trans (if_pos hd)),
        fun hd => enteredM true ((e.trans (if_neg (notCompute hk))).trans (if_neg (Bool.eq_false_iff.mp hd)))⟩⟩
  case up =>
    have hu' : ¬ ((s0.thread h).level = .u ∧ delegated s0 h c = true ∧ forced h c info = false) :=
      fun x => hu ⟨x.1, x.2.2, x.2.1⟩
    have e : s' = _ := s0.takeTrap_up h c v info hu' hn
    refine ⟨fun hk => ?_, fun hk => ⟨fun hl hd => enteredS nest ((e.trans (if_neg hk)).trans (if_pos ⟨hl, hd⟩)), fun hd =>
      enteredM nest ((e.trans (if_neg hk)).trans (if_neg ?_))⟩⟩
    · have F := s0.forwards_up h c v info hu' hn hk
      exact ⟨forwards nest (w.saveM (causeWord false false false c) v) rfl F, saved false (by rw [show t' = _ from F.thread]; rfl)⟩
    · rintro ⟨h1, h2⟩
      exact hd.elim h1 (fun e => Bool.false_ne_true (e.symm.trans h2))

end Sys2Proof.Machine
end

section
/-! SUPPORT. What reaches a thread: inbox entries, wakes and interrupts (R30, R189, R193, R317, R318, R343): O47. -/

namespace Sys2Proof.Machine

/-! ## Updates of threads and cores -/

/-- An update of a thread keeps every field of its core but the threads. -/
theorem State.core_setThread_kept {α : Type} (f : Core → α) (hf : ∀ c ts, f { c with threads := ts } = f c) (s : State) (h : Hart) (t : Thread)
    (n : Nat) : f ((s.setThread h t).core n) = f (s.core n) :=
  State.core_setCore_kept f s h.core _ (hf _ _) n

theorem SameMemory.of_cores {s t : State} (hc : ∀ n, (t.core n).sram = (s.core n).sram) (hk : t.clusters = s.clusters) (hd : t.dram = s.dram) :
    SameMemory s t := ⟨SameSram.of_cores hc hk, hd⟩

theorem SameMemory.trans {s t u : State} (h : SameMemory s t) (k : SameMemory t u) : SameMemory s u :=
  ⟨h.toSameSram.trans k.toSameSram, k.dram.trans h.dram⟩

theorem SameMemory.setThread (s : State) (h : Hart) (t : Thread) : SameMemory s (s.setThread h t) := ⟨SameSram.setThread s h t, rfl⟩

/-! ## Entries of an inbox (R189) -/

/-- R178: a fence's wake changes at most the status of its thread. -/
theorem State.wakeFences_cases (s : State) (h : Hart) : s.wakeFences h = s ∨
    (s.thread h).status = .fence ∧ s.wakeFences h = s.setThread h { s.thread h with status := .again } := by
  by_cases hf : (s.thread h).status = .fence
  · exact .inr ⟨hf, by simp only [State.wakeFences, if_pos hf]⟩
  · exact .inl (by simp only [State.wakeFences, if_neg hf])

theorem State.core_wakeFences {α : Type} (f : Core → α) (hf : ∀ c ts, f { c with threads := ts } = f c) (s : State) (h : Hart) (n : Nat) :
    f ((s.wakeFences h).core n) = f (s.core n) := by
  rcases s.wakeFences_cases h with e | ⟨-, e⟩ <;> rw [e]
  exact State.core_setThread_kept f hf _ _ _ _

theorem SameMemory.wakeFences (s : State) (h : Hart) : SameMemory s (s.wakeFences h) := by
  rcases s.wakeFences_cases h with e | ⟨-, e⟩ <;> rw [e]
  · exact ⟨⟨fun _ _ => rfl, fun _ _ => rfl, fun _ _ => rfl⟩, rfl⟩
  · exact SameMemory.setThread _ _ _

theorem State.wakeFences_net (s : State) (h : Hart) : (s.wakeFences h).net = s.net := by
  rcases s.wakeFences_cases h with e | ⟨-, e⟩ <;> rw [e]
  rfl

/-- R189: an entry that no interrupt comes with is appended to the inbox of a core whose thread hosts a node. -/
theorem State.append_plain {s : State} {core : Nat} {e : BitVec 512} (h : (s.thread ⟨core, (headerDst (e.setWidth 64)).val⟩).status ≠ .idle) :
    s.append core e false = s.setCore core
      ((({ s.core core with inbox := (s.core core).inbox ++ [(⟨e, false⟩ : Entry)] }).wake Status.isMrecv).wake Status.isPlace) := by
  have hosts : (s.thread ⟨core, (Entry.dst ⟨e, false⟩).val⟩).status ≠ .idle := h
  simp only [State.append, if_neg hosts, Bool.false_eq_true, if_false]

theorem exec_inboxArrival_user {s : State} {n : Nat} {src : Hart} {dst : Nat} {e : BitVec 512} (hm : s.msg? n = some (.user n src dst e)) :
    exec (.inboxArrival n) s = .next
      (if 48 ≤ (s.core dst).inbox.length ∨ s.earlierTo n src dst = true then s else ((s.unsend n).append dst e false).wakeFences src) := by
  change execInboxArrival n s = _
  simp only [execInboxArrival, hm]
  split <;> rfl

theorem inboxArrival_arrives {s : State} {n : Nat} {src : Hart} {dst : Nat} {e : BitVec 512} (hm : s.msg? n = some (.user n src dst e))
    (hfree : (s.core dst).inbox.length < 48) (hfirst : s.earlierTo n src dst = false)
    (hidle : (s.thread ⟨dst, (headerDst (e.setWidth 64)).val⟩).status ≠ .idle) :
    ∃ s', exec (.inboxArrival n) s = .next s' ∧ (s'.core dst).inbox = (s.core dst).inbox ++ [⟨e, false⟩] ∧
      s'.net = s.net.filter (fun q => decide (q.id ≠ n)) ∧ SameMemory s s' := by
  have placed := State.append_plain (s := s.unsend n) hidle
  have waits : ¬ (48 ≤ (s.core dst).inbox.length ∨ s.earlierTo n src dst = true) := by
    rintro (h | h)
    · omega
    · exact Bool.false_ne_true (hfirst.symm.trans h)
  refine ⟨_, by rw [exec_inboxArrival_user hm, if_neg waits], ?_, ?_, ?_⟩
  · rw [State.core_wakeFences Core.inbox (fun _ _ => rfl), placed, State.core_setCore_same]
    rfl
  · rw [State.wakeFences_net, placed]
    rfl
  · refine SameMemory.trans ?_ (SameMemory.wakeFences _ _)
    rw [placed]
    exact SameMemory.of_cores (State.core_setCore_kept Core.sram (s.unsend n) dst _ rfl) rfl rfl

/-! ## The spill thread (R193) -/

theorem spillWake_wakes {s : State} {core : Nat} (hidle : (s.thread ⟨core, 5⟩).status = .idle) (hm : (s.core core).spillMonitor = false)
    (hw : s.entryWaits core = true ∨ s.spillWanted core = true) :
    ∃ s', exec (.spillWake core) s = .next s' ∧ s'.thread ⟨core, 5⟩ =
      ({ s.thread ⟨core, 5⟩ with pc := (s.core core).spillPc, status := .run, level := .u }).setX 10 (if s.entryWaits core then 0 else 1) := by
  have wanted : ¬ ((s.thread ⟨core, 5⟩).status ≠ .idle ∨ (!(s.entryWaits core || s.spillWanted core)) = true) := by
    simp only [hidle, ne_eq, not_true_eq_false, false_or, Bool.not_eq_true', Bool.not_eq_false, Bool.or_eq_true]
    exact hw
  let asked := s.setCore core { s.core core with spillAsk := false }
  let woken := { asked.thread ⟨core, 5⟩ with pc := (s.core core).spillPc, status := .run, level := .u }
  have ran : exec (.spillWake core) s = .next (asked.setThread ⟨core, 5⟩ (woken.setX 10 (if s.entryWaits core then 0 else 1))) :=
    (if_neg wanted).trans (if_neg (by rw [hm]; decide))
  have same : asked.thread ⟨core, 5⟩ = s.thread ⟨core, 5⟩ := State.thread_congr (State.core_setCore_kept Core.threads s core _ (by rfl) _)
  exact ⟨_, ran, by rw [State.thread_setThread_same, ← same]⟩

/-! ## Interrupts (R30, R317, R318) -/

/-- Table 21.7: the cause word of an interrupt. -/
theorem causeWord_interrupt : ∀ c : Nat, c < 128 → causeWord true false false c = BitVec.ofNat 64 (2 ^ 63 + c) := by decide

/-- R317: the lowest code whose bit is set. -/
theorem lowestCode_eq_some {w : Word} {c : Nat} (h : lowestCode w = some c) :
    65 ≤ c ∧ c ≤ 72 ∧ w.getLsbD (c - 64) = true ∧ ∀ i, 65 ≤ i → i < c → w.getLsbD (i - 64) = false := by
  obtain ⟨k, hk, rfl⟩ := Option.map_eq_some_iff.mp h
  obtain ⟨hset, hmem, first⟩ := List.find?_range_eq_some.mp hk
  have hlt := List.mem_range.mp hmem
  refine ⟨by omega, by omega, by rw [show 65 + k - 64 = k + 1 by omega]; exact hset, fun i hlo hhi => ?_⟩
  have clear := first (i - 65) (by omega)
  rw [show i - 64 = i - 65 + 1 by omega]
  simpa [bit] using clear

theorem Thread.interruptM_eq_some {t : Thread} {c : Nat} (h : t.interruptM = some c) :
    65 ≤ c ∧ c ≤ 72 ∧ (t.priv.mip &&& t.priv.mie).getLsbD (c - 64) = true ∧
      ∀ i, 65 ≤ i → i < c → (t.priv.mip &&& t.priv.mie).getLsbD (i - 64) = false := by
  unfold Thread.interruptM at h
  split at h
  · exact lowestCode_eq_some h
  · exact absurd h (by simp)

theorem Thread.interruptS_eq_some {t : Thread} {c : Nat} (h : t.interruptS = some c) :
    65 ≤ c ∧ c ≤ 72 ∧ (t.priv.sip &&& t.priv.sie).getLsbD (c - 64) = true := by
  unfold Thread.interruptS at h
  split at h
  · obtain ⟨lo, hi, hset, -⟩ := lowestCode_eq_some h
    exact ⟨lo, hi, hset⟩
  · exact absurd h (by simp)

theorem hasS_iff (core : Nat) : hasS core = true ↔ kindOf core ≠ .compute := decide_eq_true_iff

/-! ### What a thread that runs takes at its boundary, in the order of the levels (R318) -/

section Boundary

variable {s : State} {h : Hart} (hr : (s.thread h).status = .run)
include hr

theorem State.boundary_interruptM {c : Nat} (hm : (s.thread h).interruptM = some c) :
    s.boundary h = some (s.setThread h ((s.thread h).takeM c)) := by
  simp only [State.boundary, hr, ne_eq, not_true_eq_false, if_false, hm]

variable (hm : (s.thread h).interruptM = none) (hrep : s.reportDue h = false)
include hm hrep

theorem State.boundary_interruptS {c : Nat} (hk : kindOf h.core ≠ .compute) (hs : (s.thread h).interruptS = some c) :
    s.boundary h = some (s.setThread h ((s.thread h).takeS c)) := by
  simp only [State.boundary, hr, ne_eq, not_true_eq_false, if_false, hm, hrep, Bool.false_eq_true, (hasS_iff h.core).mpr hk, if_true, hs]

theorem State.boundary_user (hs : kindOf h.core ≠ .compute → (s.thread h).interruptS = none) (hu : userInterruptDue h (s.thread h) = true) :
    s.boundary h = some (s.setThread h (s.thread h).takeUserInterrupt) := by
  by_cases hk : kindOf h.core = .compute
  · have noS : hasS h.core = false := Bool.eq_false_iff.mpr fun e => (hasS_iff h.core).mp e hk
    simp only [State.boundary, hr, ne_eq, not_true_eq_false, if_false, hm, hrep, Bool.false_eq_true, noS, hu, if_true]
  · simp only [State.boundary, hr, ne_eq, not_true_eq_false, if_false, hm, hrep, Bool.false_eq_true, (hasS_iff h.core).mpr hk, if_true,
      hs hk, hu]

end Boundary

/-- R318: an interrupt is taken at M as the entry of its level; its source clears at most its own bit (log 48). -/
theorem Thread.takeM_entered (t : Thread) (c : Nat) :
    let u := t.takeM c
    u.level = .m ∧ u.pc = t.priv.mtvec ∧ u.priv.mepc = t.pc ∧ u.priv.mcause = causeWord true false false c ∧ u.priv.mval = 0 ∧
      bits u.priv.mstatus 11 2 = t.level.code ∧ u.priv.mstatus.getLsbD 3 = false := by
  have mpp := Thread.mpp_saveM t (causeWord true false false c) 0
  have mie := Thread.mstatus_saveM t (causeWord true false false c) 0 3 (by decide) (by decide) (by decide)
  unfold Thread.takeM
  split <;> exact ⟨rfl, rfl, rfl, rfl, rfl, mpp, mie⟩

/-- R318: an interrupt is taken at S as the entry of its level; its source clears at most its own bit (log 48). -/
theorem Thread.takeS_entered (t : Thread) (c : Nat) :
    let u := t.takeS c
    u.level = .s ∧ u.pc = t.priv.stvec ∧ u.priv.sepc = t.pc ∧ u.priv.scause = causeWord true false false c := by
  unfold Thread.takeS
  split <;> exact ⟨rfl, rfl, rfl, rfl⟩

/-- R30: what the entry of the user interrupt leaves of a thread that runs. -/
theorem Thread.takeUserInterrupt_kept (t : Thread) (hr : t.status = .run) : t.takeUserInterrupt =
    let u := t.takeUserInterrupt
    { t with user := u.user, pc := u.pc, rep := u.rep, pend := none, gathered := [], late := [], drain := none } := by
  rw [hr]
  rfl

/-! ## Timers (R317) -/

theorem Thread.wakeWfi_priv (t : Thread) : t.wakeWfi.priv = t.priv := by
  unfold Thread.wakeWfi
  split <;> rfl

/-- A bit that a source drives, and the others beside it. -/
theorem getLsbD_driven (w : Word) (k : Nat) (hk : k < 64) :
    (setBits w k 1 true.toNat).getLsbD k = true ∧ ∀ i, i < 64 → i ≠ k → (setBits w k 1 true.toNat).getLsbD i = w.getLsbD i := by
  refine ⟨by rw [getLsbD_setBits _ _ _ _ _ hk]; simp, fun i hi hne => ?_⟩
  rw [getLsbD_setBits _ _ _ _ _ hi, if_neg (by omega)]

theorem State.thread_driveM (s : State) (h : Hart) (code : Nat) :
    ((s.driveM h code true).thread h).priv.mip = setBits (s.thread h).priv.mip (code - 64) 1 true.toNat := by
  rw [State.driveM, State.thread_setThread_same, Thread.driveM, Thread.wakeWfi_priv]

theorem State.thread_driveS (s : State) (h : Hart) (code : Nat) :
    ((s.driveS h code true).thread h).priv.sip = setBits (s.thread h).priv.sip (code - 64) 1 true.toNat := by
  rw [State.driveS, State.thread_setThread_same, Thread.driveS, Thread.wakeWfi_priv]

theorem exec_schedulerTimerExpiry {core : Nat} (hk : kindOf core ≠ .compute) (s : State) :
    exec (.schedulerTimerExpiry core) s = .next (s.driveS ⟨core, 0⟩ 70 true) := by
  change execSchedulerTimerExpiry core s = _
  unfold execSchedulerTimerExpiry
  split
  · rename_i h; exact absurd h hk
  · rfl

/-! ## The turn that an interrupt takes -/

theorem exec_interruptTake {s : State} {core th : Nat} (hr : (s.thread ⟨core, th⟩).status = .run)
    (hi : (s.thread ⟨core, th⟩).interruptM.isSome = true ∨ hasS core = true ∧ (s.thread ⟨core, th⟩).interruptS.isSome = true) :
    exec (.interruptTake core th) s = .next (s.turnTo ⟨core, th⟩) := by
  have due : (decide ((s.thread ⟨core, th⟩).status = .run) && ((s.thread ⟨core, th⟩).interruptM.isSome ||
      (hasS core && (s.thread ⟨core, th⟩).interruptS.isSome))) = true := by
    rw [hr]
    simpa using hi
  exact congrArg Host.Outcome.next (if_pos due)

/-- Settles O47: each arrival, wake and interrupt by the lemma on its step; a boundary takes the level that comes first. -/
theorem threadSteps : Obligations.ThreadSteps := by
  unfold Obligations.ThreadSteps
  rintro s core th h rfl t only
  refine ⟨fun n src dst e hm hfree hfirst hidle => inboxArrival_arrives hm hfree hfirst hidle,
    fun n src dst e hm hfull => by rw [exec_inboxArrival_user hm, if_pos (.inl hfull)], fun hidle hm hw => ?spill,
    fun hu hp hi hh hv hr hl => ?user, fun c hr hc => ?interruptM, fun c hr hm hrep hk hc => ?interruptS,
    ⟨_, rfl, ?monitorTimer⟩, fun hk => ⟨_, exec_schedulerTimerExpiry hk s, ?schedulerTimer⟩, fun w => rfl, fun page v => rfl⟩
  case spill =>
    obtain ⟨s', ran, woken⟩ := spillWake_wakes hidle hm hw
    refine ⟨s', ran, ?_⟩
    rw [woken]
    simp only [Thread.setX_pc, Thread.setX_status, Thread.setX_level, true_and]
    have x := Thread.XWritten.setX { s.thread ⟨core, 5⟩ with pc := (s.core core).spillPc, status := .run, level := .u } 10
      (if s.entryWaits core then 0 else 1)
    exact ⟨x.value, x.zero, x.others, x.hiddenH, x.hiddenX⟩
  case user =>
    have due : userInterruptDue ⟨core, th⟩ t = true := by
      simp only [userInterruptDue, hu, hp, hi, hh, hv, hr, hl, ne_eq, not_false_eq_true, decide_true, Bool.not_false, Bool.and_self]
    exact ⟨congrArg Host.Outcome.next (if_pos due), fun hm hrep hs => ⟨_, _, State.boundary_user hr hm hrep hs due, rfl, rfl, rfl,
      t.takeUserInterrupt_kept hr⟩⟩
  case interruptM =>
    obtain ⟨lo, hi, hset, first⟩ := Thread.interruptM_eq_some hc
    obtain ⟨level, pc, mepc, mcause, mval, mpp, mie⟩ := t.takeM_entered c
    exact ⟨exec_interruptTake hr (.inl (by rw [hc]; rfl)), _, _, State.boundary_interruptM hr hc, rfl, level, pc, mepc,
      mcause.trans (causeWord_interrupt c (by omega)), mval, mpp, mie, lo, hi, hset, first⟩
  case interruptS =>
    obtain ⟨lo, hi, hset⟩ := Thread.interruptS_eq_some hc
    obtain ⟨level, pc, sepc, scause⟩ := t.takeS_entered c
    exact ⟨exec_interruptTake hr (.inr ⟨(hasS_iff core).mpr hk, by rw [hc]; rfl⟩), _, _, State.boundary_interruptS hr hm hrep hk hc, rfl,
      level, pc, sepc, scause.trans (causeWord_interrupt c (by omega)), hset⟩
  case monitorTimer =>
    rw [State.thread_driveM]
    exact getLsbD_driven _ 2 (by decide)
  case schedulerTimer =>
    rw [State.thread_driveS]
    exact getLsbD_driven _ 6 (by decide)

end Sys2Proof.Machine
end

section
/-! SUPPORT. What happens to accesses on their way, parked and held (R27, R59, R75, R79, R81, R82, R109, R178, R189): O46. -/

namespace Sys2Proof.Machine

/-! ## A memory that is set -/

@[simp] theorem State.sram_setSram_same (s : State) (p : Place) (m : Sram) : (s.setSram p m).sram p = m := by
  cases p with
  | core n => simp [State.sram, State.setSram]
  | cluster n => simp [State.sram, State.setSram, State.setCluster, State.cluster]

theorem State.sram_setSram_other (s : State) (p q : Place) (m : Sram) (h : q ≠ p) : (s.setSram p m).sram q = s.sram q := by
  cases p with
  | core n =>
    cases q with
    | core k => exact congrArg Core.sram (State.core_setCore_other s n _ k fun e => h (congrArg Place.core e))
    | cluster k => rfl
  | cluster n =>
    cases q with
    | core k => rfl
    | cluster k =>
      have hk : k ≠ n := fun e => h (congrArg Place.cluster e)
      simp [State.sram, State.setSram, State.setCluster, State.cluster, Tab.find?_set_other _ _ _ _ hk]

@[simp] theorem State.setSram_net (s : State) (p : Place) (m : Sram) : (s.setSram p m).net = s.net := by cases p <;> rfl
@[simp] theorem State.setSram_dram (s : State) (p : Place) (m : Sram) : (s.setSram p m).dram = s.dram := by cases p <;> rfl

@[simp] theorem State.thread_setSram (s : State) (p : Place) (m : Sram) (h : Hart) : (s.setSram p m).thread h = s.thread h := by
  cases p with
  | core n => exact State.thread_congr (State.core_setCore_kept Core.threads s n _ (by rfl) _)
  | cluster n => rfl

/-- Between s and t no thread has changed, and no memory but for its parked and held accesses. -/
structure Served (s t : State) : Prop where
  thread : ∀ h, t.thread h = s.thread h
  memory : SameMemory s t

theorem Served.refl (s : State) : Served s s := ⟨fun _ => rfl, ⟨⟨fun _ _ => rfl, fun _ _ => rfl, fun _ _ => rfl⟩, rfl⟩⟩

theorem Served.trans {s t u : State} (h : Served s t) (k : Served t u) : Served s u :=
  ⟨fun g => (k.thread g).trans (h.thread g), h.memory.trans k.memory⟩

/-- A machine with other messages in its network. -/
theorem Served.withNet {s t : State} (h : Served s t) (net : List Msg) : Served s { t with net := net } :=
  h.trans ⟨fun _ => rfl, ⟨⟨fun _ _ => rfl, fun _ _ => rfl, fun _ _ => rfl⟩, rfl⟩⟩

theorem Served.setSram (s : State) (p : Place) (m : Sram) (hc : m.cells = (s.sram p).cells) (ht : m.tags = (s.sram p).tags)
    (ho : m.owners = (s.sram p).owners) : Served s (s.setSram p m) := by
  have kept {α : Type} (f : Sram → α) (hf : f m = f (s.sram p)) (q : Place) : f ((s.setSram p m).sram q) = f (s.sram q) := by
    by_cases hq : q = p
    · subst hq; rw [State.sram_setSram_same, hf]
    · rw [State.sram_setSram_other _ _ _ _ hq]
  refine ⟨fun h => State.thread_setSram s p m h, ⟨⟨fun q a => ?_, fun q w => ?_, fun q l => ?_⟩, State.setSram_dram s p m⟩⟩
  · rw [State.byteAt, State.byteAt, kept Sram.cells hc]
  · rw [kept Sram.tags ht]
  · rw [kept Sram.owners ho]

/-! ## A plain load at its home -/

/-- R176: an access that loads bytes of one word of a place. -/
structure LoneLoad (a : Access) (p : Place) (o : Nat) : Prop where
  home : a.home = .sram p
  op : a.op = .load
  elems : a.elems = [(o, 0)]
  some : 1 ≤ a.esize
  inWord : o % 8 + a.esize ≤ 8

/-- R75, R386: word w of a memory holds no error, and its entry for an access passes it, changes no tag and acquires nothing. -/
structure PassesAt (m : Sram) (p : Place) (a : Access) (w : Nat) : Prop where
  noErr : w ∉ m.errs
  noOwnerErr : w / 8 ∉ m.ownerErrs
  noSoft : Tab.find? m.soft w = none
  action : bits (m.entry w (kindAt p a) (m.tagFor a.owner w)) 0 4 = 0
  acquires : bits (m.entry w (kindAt p a) (m.tagFor a.owner w)) 7 1 = 0

theorem LoneLoad.words {a : Access} {p : Place} {o : Nat} (l : LoneLoad a p o) : wordsOf a.esize a.elems = [o / 8] := by
  have one : (o + a.esize - 1) / 8 - o / 8 + 1 = 1 := by
    have := l.some
    have := l.inWord
    omega
  simp [wordsOf, l.elems, one, insertAsc]

theorem LoneLoad.loads {a : Access} {p : Place} {o : Nat} (l : LoneLoad a p o) (m : Sram) :
    m.loadLanes a = BitVec.ofNat 512 (m.readFor a.owner o a.esize) := by
  simp [Sram.loadLanes, l.elems]

/-- An entry of action PASS without an update. -/
theorem action_of_low {e : BitVec 16} (h : bits e 0 4 = 0) : bits e 0 3 = 0 ∧ bit e 3 = false := by
  rw [bits_eq_div_mod] at h
  refine ⟨by rw [bits_eq_div_mod]; omega, ?_⟩
  rw [bit, BitVec.getLsbD, Nat.testBit, Nat.shiftRight_eq_div_pow]
  simp
  omega

theorem PassesAt.badLines {s : State} {p : Place} {a : Access} {w : Nat} (h : PassesAt (s.sram p) p a w) : s.badLines p [w] = [] := by
  simp [State.badLines, h.noErr, h.noOwnerErr, h.noSoft]

theorem PassesAt.correct {s : State} {p : Place} {a : Access} {w : Nat} (h : PassesAt (s.sram p) p a w) : s.correct p [w] = s := by
  simp [State.correct, h.noSoft]

/-- R75: the checked bank operation of a plain load that no woken access holds back. -/
theorem Sram.checked_load {m : Sram} {p : Place} {a : Access} {o : Nat} (l : LoneLoad a p o) (h : PassesAt m p a (o / 8)) {again : Bool}
    (free : again = true ∨ m.parks.all (fun q => !(q.woken && decide (q.word = o / 8))) = true) :
    m.checked p a again = (.done (BitVec.ofNat 512 (m.readFor a.owner o a.esize)) false, m) := by
  obtain ⟨act, upd⟩ := action_of_low h.action
  have acq : bit (m.entry (o / 8) (kindAt p a) (m.tagFor a.owner (o / 8))) 7 = false := by
    have := h.acquires
    rw [bits_eq_div_mod] at this
    rw [bit, BitVec.getLsbD, Nat.testBit, Nat.shiftRight_eq_div_pow]
    simpa using this
  have calm : again = false → ∀ q ∈ m.parks, q.woken = true → ¬ q.word = o / 8 := by
    rintro rfl q hq hw
    rcases free with e | e
    · exact absurd e (by decide)
    · simpa [hw] using List.all_eq_true.mp e q hq
  simpa [Sram.checked, l.words, actionOf, act, l.op, Sram.perform, l.loads, acq, Sram.update, upd] using calm

/-- R75: what a plain load answers and leaves. -/
theorem State.bankOp_load {s : State} {p : Place} {a : Access} {o : Nat} (l : LoneLoad a p o) (h : PassesAt (s.sram p) p a (o / 8)) {again : Bool}
    (free : again = true ∨ (s.sram p).parks.all (fun q => !(q.woken && decide (q.word = o / 8))) = true) :
    ∃ t, s.bankOp p a again = (.done (BitVec.ofNat 512 ((s.sram p).readFor a.owner o a.esize)) false, t) ∧ Served s t ∧ t.net = s.net ∧
      t.sram p = s.sram p := by
  have direct : a.op.direct = false := by rw [l.op]; rfl
  have writes : a.writes = false := by rw [Access.writes, l.op]
  have done := Sram.checked_load l h free
  have same := Served.setSram s p (s.sram p) rfl rfl rfl
  refine ⟨if (s.sram p).releases p a then (s.setSram p (s.sram p)).tieAt p else s.setSram p (s.sram p), ?_, ?_, ?_, ?_⟩
  · simp only [State.bankOp, l.words, h.badLines, State.mend, h.correct, direct, writes, done, Bool.false_eq_true, if_false]
  · split
    · exact same.trans ⟨fun _ => rfl, ⟨⟨fun _ _ => rfl, fun _ _ => rfl, fun _ _ => rfl⟩, rfl⟩⟩
    · exact same
  · split <;> exact State.setSram_net _ _ _
  · split <;> exact State.sram_setSram_same _ _ _

theorem State.serve_load {s : State} {p : Place} {a : Access} {o : Nat} (l : LoneLoad a p o) (h : PassesAt (s.sram p) p a (o / 8))
    (free : (s.sram p).parks.all (fun q => !(q.woken && decide (q.word = o / 8))) = true) :
    ∃ t, s.serve p a false = (some (.value (BitVec.ofNat 512 ((s.sram p).readFor a.owner o a.esize)) false), true, t) ∧ Served s t ∧
      t.net = s.net ∧ t.sram p = s.sram p := by
  obtain ⟨t, done, served, net, sram⟩ := State.bankOp_load l h (again := false) (.inr free)
  exact ⟨t, by rw [State.serve, done], served, net, sram⟩

/-! ## Arrival and re-checks (R59, R81, R82) -/

/-- R75: a load that arrives at its home is answered. -/
theorem remoteAccessArrival_load {s : State} {p : Place} {a : Access} {o : Nat} (hm : s.msg? a.id = some (.access a)) (hb : s.behind a = false)
    (l : LoneLoad a p o) (h : PassesAt (s.sram p) p a (o / 8))
    (free : (s.sram p).parks.all (fun q => !(q.woken && decide (q.word = o / 8))) = true) :
    ∃ t, exec (.remoteAccessArrival a.id) s = .next t ∧ t.net = s.net.filter (fun q => decide (q.id ≠ a.id)) ++
      [.reply a (.value (BitVec.ofNat 512 ((s.sram p).readFor a.owner o a.esize)) false)] ∧ Served s t := by
  obtain ⟨t, done, served, net, -⟩ := State.serve_load l h free
  refine ⟨(t.unsend a.id).answer a (.value (BitVec.ofNat 512 ((s.sram p).readFor a.owner o a.esize)) false), ?_, ?_, served.withNet _⟩
  · change execRemoteAccessArrival a.id s = _
    simp only [execRemoteAccessArrival, hm, hb, Bool.false_eq_true, if_false, State.arrive, l.home, done]
  · rw [← net]
    rfl

/-- R81: a woken load that now passes its word's entry is answered, and its place in the park list is free. -/
theorem parkRecheck_load {s : State} {a : Access} {o : Nat} {place bank : Nat} {q : Parked}
    (hq : (s.sram (placeOf place)).parks.find? (fun x => x.woken && decide (x.bank = bank)) = some q) (ha : q.access = a)
    (l : LoneLoad a (placeOf place) o) (h : PassesAt (s.sram (placeOf place)) (placeOf place) a (o / 8)) (far : placeOf place ≠ .core a.hart.core) :
    ∃ t, exec (.parkRecheck place bank) s = .next t ∧ t.net = s.net ++
        [.reply a (.value (BitVec.ofNat 512 ((s.sram (placeOf place)).readFor a.owner o a.esize)) false)] ∧
      (∀ x ∈ (t.sram (placeOf place)).parks, x.access.id ≠ a.id) ∧ Served s t := by
  subst ha
  let p := placeOf place
  let m := s.sram p
  let woken (r : Parked) : Parked := if r.access.id = q.access.id then { r with woken := false } else r
  let calm := s.setSram p { m with parks := m.parks.map woken }
  have hc : calm.sram p = { m with parks := m.parks.map woken } := State.sram_setSram_same _ _ _
  have passes : PassesAt (calm.sram p) p q.access (o / 8) := by rw [hc]; exact ⟨h.noErr, h.noOwnerErr, h.noSoft, h.action, h.acquires⟩
  obtain ⟨t, done, served, net, sram⟩ := State.bankOp_load l passes (again := true) (.inl rfl)
  let value := BitVec.ofNat 512 (m.readFor q.access.owner o q.access.esize)
  let gone := t.setSram p { t.sram p with parks := (t.sram p).parks.filter (fun r => decide (r.access.id ≠ q.access.id)) }
  have ran : exec (.parkRecheck place bank) s = .next (gone.send (.reply q.access (.value value false))) := by
    change execParkRecheck place bank s = _
    rw [hc] at done
    simp only [execParkRecheck, hq]
    rw [show (s.setSram (placeOf place) _).bankOp (placeOf place) q.access true = _ from done]
    simp only [State.answerParked, if_neg far]
    rfl
  have netGone : gone.net = s.net := by rw [State.setSram_net, net, State.setSram_net]
  have servedGone : Served s gone := (Served.setSram s p { m with parks := m.parks.map woken } rfl rfl rfl).trans
    (served.trans (Served.setSram t p _ rfl rfl rfl))
  refine ⟨_, ran, by rw [← netGone]; rfl, fun x hx => ?_, servedGone.withNet _⟩
  have hx' : x ∈ (gone.sram p).parks := hx
  rw [State.sram_setSram_same] at hx'
  simpa using (List.mem_filter.mp hx').2

/-- R82: where the access of a number is held, when no core holds it. -/
theorem heldSpot {s : State} {id c : Nat} (cores : s.cores.all (fun q => q.2.sram.held.all (fun x => decide (x.id ≠ id))) = true)
    (clusters : List.find? (fun q : Nat × Cluster => q.2.sram.held.any (fun x => decide (x.id = id))) s.clusters = some (c, s.cluster c)) :
    (s.cores.map (fun q => (Place.core q.1, q.2.sram)) ++ s.clusters.map (fun q => (Place.cluster q.1, q.2.sram))).find?
      (fun x => x.2.held.any (fun a => decide (a.id = id))) = some (.cluster c, (s.cluster c).sram) := by
  have none_ : (s.cores.map (fun q => (Place.core q.1, q.2.sram))).find? (fun x => x.2.held.any (fun a => decide (a.id = id))) = none := by
    simp only [List.find?_eq_none, List.mem_map, List.any_eq_true, decide_eq_true_eq, not_exists, not_and, forall_exists_index, and_imp]
    rintro _ q hq rfl b hb
    simpa using List.all_eq_true.mp (List.all_eq_true.mp cores q hq) b hb
  rw [List.find?_append, none_, Option.none_or, List.find?_map]
  exact congrArg (Option.map _) clusters

section Held

variable {s : State} {a : Access} {c : Nat}
  (cores : s.cores.all (fun q => q.2.sram.held.all (fun x => decide (x.id ≠ a.id))) = true)
  (clusters : List.find? (fun q : Nat × Cluster => q.2.sram.held.any (fun x => decide (x.id = a.id))) s.clusters = some (c, s.cluster c))
  (hm : (s.sram (.cluster c)).held.find? (fun x => decide (x.id = a.id)) = some a)
include cores clusters hm

theorem heldAccessRecheck_full (full : (s.sram (.cluster c)).parkFree a.bank = false) : exec (.heldAccessRecheck a.id) s = .next s := by
  have found : (s.cluster c).sram.held.find? (fun x => decide (x.id = a.id)) = some a := hm
  have noPlace : (s.cluster c).sram.parkFree a.bank = false := full
  change execHeldAccessRecheck a.id s = _
  simp only [execHeldAccessRecheck, heldSpot cores clusters, found, noPlace, Bool.not_false, if_true]

theorem heldAccessRecheck_answered {r : Reply} {b : Bool} {t : State} (room : (s.sram (.cluster c)).parkFree a.bank = true)
    (served : (s.setSram (.cluster c) { s.sram (.cluster c) with
      held := (s.sram (.cluster c)).held.filter (fun b => decide (b.id ≠ a.id)) }).serve (.cluster c) a false = (some r, b, t)) :
    exec (.heldAccessRecheck a.id) s = .next (t.answerParked (.cluster c) a r) := by
  have found : (s.cluster c).sram.held.find? (fun x => decide (x.id = a.id)) = some a := hm
  have place : (s.cluster c).sram.parkFree a.bank = true := room
  simp only [State.sram] at served
  change execHeldAccessRecheck a.id s = _
  simp only [execHeldAccessRecheck, heldSpot cores clusters, found, place, Bool.not_true, Bool.false_eq_true, if_false, served]

end Held

/-- R82: a held load, once an entry of its list is free, is checked and answered. -/
theorem heldAccessRecheck_load {s : State} {a : Access} {c o : Nat}
    (cores : s.cores.all (fun q => q.2.sram.held.all (fun x => decide (x.id ≠ a.id))) = true)
    (clusters : List.find? (fun q : Nat × Cluster => q.2.sram.held.any (fun x => decide (x.id = a.id))) s.clusters = some (c, s.cluster c))
    (hm : (s.sram (.cluster c)).held.find? (fun x => decide (x.id = a.id)) = some a) (l : LoneLoad a (.cluster c) o)
    (h : PassesAt (s.sram (.cluster c)) (.cluster c) a (o / 8))
    (free : (s.sram (.cluster c)).parks.all (fun q => !(q.woken && decide (q.word = o / 8))) = true)
    (room : ((s.sram (.cluster c)).parks.filter (fun x => decide (x.bank = a.bank))).length < 8) :
    ∃ t, exec (.heldAccessRecheck a.id) s = .next t ∧ t.net = s.net ++
        [.reply a (.value (BitVec.ofNat 512 ((s.sram (.cluster c)).readFor a.owner o a.esize)) false)] ∧
      (∀ x ∈ (t.sram (.cluster c)).held, x.id ≠ a.id) ∧ Served s t := by
  let p := Place.cluster c
  let m := s.sram p
  let out := s.setSram p { m with held := m.held.filter (fun b => decide (b.id ≠ a.id)) }
  have ho : out.sram p = { m with held := m.held.filter (fun b => decide (b.id ≠ a.id)) } := State.sram_setSram_same _ _ _
  have passes : PassesAt (out.sram p) p a (o / 8) := by rw [ho]; exact ⟨h.noErr, h.noOwnerErr, h.noSoft, h.action, h.acquires⟩
  obtain ⟨t, done, served, net, sram⟩ := State.serve_load l passes (by rw [ho]; exact free)
  refine ⟨t.send (.reply a (.value (BitVec.ofNat 512 (m.readFor a.owner o a.esize)) false)), ?_, ?_, fun x hx => ?_, ?_⟩
  · rw [ho] at done
    exact heldAccessRecheck_answered cores clusters hm (decide_eq_true room) done
  · rw [show s.net = t.net by rw [net, State.setSram_net]]
    rfl
  · have hx' : x ∈ (t.sram p).held := hx
    rw [sram, ho] at hx'
    simpa using (List.mem_filter.mp hx').2
  · exact ((Served.setSram s p { m with held := m.held.filter (fun b => decide (b.id ≠ a.id)) } rfl rfl rfl).trans served).withNet _

/-! ## Answers (R79, R109, R178) -/

theorem State.wakeFences_of_ne {s : State} {h : Hart} (hs : (s.thread h).status ≠ .fence) : s.wakeFences h = s := if_neg hs

theorem exec_remoteAccessReply {s : State} {a : Access} {r : Reply} (hm : s.msg? a.id = some (.reply a r)) (hc : a.cleared = false) :
    exec (.remoteAccessReply a.id none) s = .next (((s.unsend a.id).deliver a r).wakeFences a.hart) := by
  change execRemoteAccessReply a.id none s = _
  simp only [execRemoteAccessReply, hm, hc, Bool.false_eq_true, if_false]

/-- A thread writes register d and goes on after its instruction of len bytes. -/
def Thread.completesX (t : Thread) (d : Fin 32) (v : Word) (len : Nat) : Thread :=
  { (t.setX d v).advance len with status := t.settled, pend := none, gathered := [] }

theorem Thread.passed_completesX (t : Thread) (d : Fin 32) (v : Word) (len : Nat) : t.Passed (t.completesX d v len) len := by
  have p := Thread.Passed.advance t (t.setX d v) len (by simp) (by simp) (by simp) (by simp) (by simp)
  exact ⟨p.retired, p.plain, p.inBody, p.again, p.last⟩

theorem Thread.xWritten_completesX (t : Thread) (d : Fin 32) (v : Word) (len : Nat) : t.XWritten (t.completesX d v len) d v :=
  (Thread.XWritten.setX t d v).congr (by simp [Thread.completesX]) (by simp [Thread.completesX]) (by simp [Thread.completesX])

/-- R79: the answer for which a thread waits completes its load. -/
theorem State.deliver_pend {s : State} {a : Access} {v : BitVec 512} {acq : Bool} {d : Fin 32} {kind : LdKind} {len : Nat} {loose : Bool}
    (hi : a.issuer = .thread) (hc : a.cleared = false) (hl : (s.thread a.hart).late = [])
    (hp : (s.thread a.hart).pend = some ⟨[a.id], 0, .writeX d kind, len, loose⟩) :
    s.deliver a (.value v acq) = (s.setCore a.hart.core (s.core a.hart.core)).setThread a.hart
      ((s.thread a.hart).completesX d (extend kind (v.setWidth 64)) len) := by
  have same : (s.setCore a.hart.core (s.core a.hart.core)).thread a.hart = s.thread a.hart :=
    State.thread_congr (State.core_setCore_kept Core.threads s a.hart.core _ rfl _)
  simp only [State.deliver, hi, hc, hl, hp, ne_eq, not_true_eq_false, if_false, Bool.false_eq_true, List.find?_nil, List.mem_singleton,
    if_true]
  simp [State.finishAccess, State.finishThread, Core.finish, Thread.finish, same, Thread.completesX]

/-- A machine in which a thread, whose core is listed again as it stands, has become u. -/
theorem State.replaced (s : State) (h : Hart) (u : Thread) :
    let t := (s.setCore h.core (s.core h.core)).setThread h u
    t.thread h = u ∧ SameMemory s t ∧ t.net = s.net ∧ ∀ g, g ≠ h → t.thread g = s.thread g := by
  have listed : Served s (s.setCore h.core (s.core h.core)) :=
    ⟨fun g => State.thread_congr (State.core_setCore_kept Core.threads s h.core _ rfl _),
      SameMemory.of_cores (State.core_setCore_kept Core.sram s h.core _ rfl) rfl rfl⟩
  exact ⟨State.thread_setThread_same _ _ _, listed.memory.trans (SameMemory.setThread _ _ _), rfl,
    fun g hg => (State.thread_setThread_other _ _ _ _ hg).trans (listed.thread g)⟩

/-- R79: the answer for which a thread waits completes its load. -/
theorem remoteAccessReply_completes {s : State} {a : Access} {v : BitVec 512} {acq : Bool} {d : Fin 32} {kind : LdKind} {len : Nat} {loose : Bool}
    (hm : s.msg? a.id = some (.reply a (.value v acq))) (hi : a.issuer = .thread) (hc : a.cleared = false)
    (hl : (s.thread a.hart).late = []) (hs : (s.thread a.hart).status = .access)
    (hp : (s.thread a.hart).pend = some ⟨[a.id], 0, .writeX d kind, len, loose⟩) :
    ∃ t, exec (.remoteAccessReply a.id none) s = .next t ∧ t.net = s.net.filter (fun q => decide (q.id ≠ a.id)) ∧
      t.thread a.hart = (s.thread a.hart).completesX d (extend kind (v.setWidth 64)) len ∧
      (t.thread a.hart).status = .run ∧ SameMemory s t ∧ ∀ h, h ≠ a.hart → t.thread h = s.thread h := by
  obtain ⟨thread, memory, net, others⟩ := (s.unsend a.id).replaced a.hart ((s.thread a.hart).completesX d (extend kind (v.setWidth 64)) len)
  have run : ((s.thread a.hart).completesX d (extend kind (v.setWidth 64)) len).status = .run := by
    simp [Thread.completesX, Thread.settled, hs, hl]
  have delivered := State.deliver_pend (s := s.unsend a.id) (v := v) (acq := acq) hi hc hl hp
  refine ⟨_, ?_, net, thread, (congrArg Thread.status thread).trans run, ⟨⟨memory.bytes, memory.tags, memory.owners⟩, memory.dram⟩, others⟩
  rw [exec_remoteAccessReply hm hc, delivered]
  have status := (congrArg Thread.status thread).trans run
  exact congrArg Host.Outcome.next (State.wakeFences_of_ne fun e => Status.noConfusion (status.symm.trans e))

/-- R109: a thread to which the answer of the only load that it has left behind comes. -/
def Thread.takesLate (t : Thread) (d : Fin 32) (v : Word) : Thread := { t.setX d v with late := [], status := .run }

/-- R109: the answer to a load that its thread has left behind writes the load's register alone. -/
theorem State.deliver_late {s : State} {a : Access} {v : BitVec 512} {acq : Bool} {d : Fin 32} {kind : LdKind} {g : BitVec 512} {pc : Word}
    (hi : a.issuer = .thread) (hc : a.cleared = false) (hs : (s.thread a.hart).status = .late)
    (hl : (s.thread a.hart).late = [⟨[a.id], g, .writeX d kind, pc⟩]) :
    s.deliver a (.value v acq) = (s.setCore a.hart.core (s.core a.hart.core)).setThread a.hart
      ((s.thread a.hart).takesLate d (extend kind ((g ||| v).setWidth 64))) := by
  simp [State.deliver, hi, hc, hl, State.deliverLate, Core.finish, Thread.finish, Thread.takesLate, hs, Thread.settled]

theorem remoteAccessReply_late {s : State} {a : Access} {v : BitVec 512} {acq : Bool} {d : Fin 32} {kind : LdKind} {g : BitVec 512} {pc : Word}
    (hm : s.msg? a.id = some (.reply a (.value v acq))) (hi : a.issuer = .thread) (hc : a.cleared = false)
    (hs : (s.thread a.hart).status = .late) (hl : (s.thread a.hart).late = [⟨[a.id], g, .writeX d kind, pc⟩]) :
    ∃ t, exec (.remoteAccessReply a.id none) s = .next t ∧
      t.thread a.hart = (s.thread a.hart).takesLate d (extend kind ((g ||| v).setWidth 64)) ∧ SameMemory s t ∧
      ∀ h, h ≠ a.hart → t.thread h = s.thread h := by
  obtain ⟨thread, memory, -, others⟩ := (s.unsend a.id).replaced a.hart ((s.thread a.hart).takesLate d (extend kind ((g ||| v).setWidth 64)))
  have delivered := State.deliver_late (s := s.unsend a.id) (v := v) (acq := acq) hi hc hs hl
  refine ⟨_, ?_, thread, ⟨⟨memory.bytes, memory.tags, memory.owners⟩, memory.dram⟩, others⟩
  rw [exec_remoteAccessReply hm hc, delivered]
  exact congrArg Host.Outcome.next (State.wakeFences_of_ne fun e => Status.noConfusion ((congrArg Thread.status thread).symm.trans e))

/-- R178: the acknowledgement of a cleared store reaches nothing but a thread that a fence holds. -/
theorem storeAcknowledge_wakes {s : State} {a : Access} {v : BitVec 512} {acq : Bool} (hm : s.msg? a.id = some (.reply a (.value v acq)))
    (hi : a.issuer = .thread) (hc : a.cleared = true) :
    exec (.storeAcknowledge a.id false) s = .next ((s.unsend a.id).wakeFences a.hart) := by
  change execStoreAcknowledge a.id false s = _
  simp only [execStoreAcknowledge, hm, hc, if_true, State.deliver, hi, ne_eq, not_true_eq_false, if_false]

/-- R402: a peer answers nothing that its port has not carried. -/
theorem peer_silent {s : State} {a : Access} {dev : Nat} (hm : s.msg? a.id = some (.access a)) (hh : a.home = .peer dev)
    (hp : s.portUp a = false) (line : Option (BitVec 512)) (refused : Bool) :
    exec (.remoteAccessReply a.id line) s = .next s ∧ exec (.storeAcknowledge a.id refused) s = .next s := by
  constructor
  · change execRemoteAccessReply a.id line s = _
    simp only [execRemoteAccessReply, hm, hh, hp, Bool.not_false, or_true, if_true]
  · change execStoreAcknowledge a.id refused s = _
    simp only [execStoreAcknowledge, hm, hh, hp, Bool.false_eq_true, and_false, if_false]

/-! ## A thread that goes past its load (R109) -/

theorem step_leaveLoad {s : State} (ha : s.agenda = []) (hlog : s.logAllows s.cur = true) (hr : s.me.status.ready = false)
    (hl : s.mayLeave s.cur = true) : step s = .next ({ s with ticks := s.ticks + 1, split := false }.leaveLoad s.cur) := by
  let x : State := { s with ticks := s.ticks + 1, split := false }
  have turn : step s = issue x := by
    change Machine.turn x = _
    simp only [Machine.turn, show x.agenda = [] from ha]
  have logs : x.logAllows x.cur = true := hlog
  have waits : x.me.status.ready = false := hr
  have leaves : x.mayLeave x.cur = true := hl
  rw [turn]
  simp only [issue, logs, waits, leaves, Bool.not_true, Bool.false_eq_true, if_false, if_true]
  rfl

/-- R109: a thread that has gone past its load. -/
def Thread.goesPast (t : Thread) (b : Pend) : Thread :=
  { t.advance b.len with status := .late, pend := none, gathered := [], late := t.late ++ [⟨b.ids, b.gathered, b.finish, t.pc⟩] }

theorem Thread.passed_goesPast (t : Thread) (b : Pend) : t.Passed (t.goesPast b) b.len := by
  have p := Thread.Passed.advance t t b.len rfl rfl rfl rfl rfl
  exact ⟨p.retired, p.plain, p.inBody, p.again, p.last⟩

theorem Thread.getX_goesPast (t : Thread) (b : Pend) (r : Fin 32) : (t.goesPast b).getX r = t.getX r := Thread.getX_advance t b.len r

theorem State.leaveLoad_eq {s : State} {h : Hart} {b : Pend} (hb : (s.thread h).pend = some b) :
    s.leaveLoad h = s.setThread h ((s.thread h).goesPast b) := by
  simp only [State.leaveLoad, hb]
  rfl

/-- Settles O46: each step by its lemma; a plain load is answered with the bytes of its word and leaves its memory as it was. -/
theorem accessSteps : Obligations.AccessSteps := by
  unfold Obligations.AccessSteps
  intro s a p o u own m w open_ plain lone without
  have loads (l : lone) : LoneLoad a p o := ⟨l.1, l.2.1, l.2.2.1, l.2.2.2.1, l.2.2.2.2⟩
  have passes (h : plain) : PassesAt m p a w := ⟨h.1, h.2.1, h.2.2.1, h.2.2.2.1, h.2.2.2.2⟩
  refine ⟨fun hm hb hl ho hp => ?arrival, fun hm hb => ?behind, fun v acq d kind len hm hi hc hl hs ⟨loose, hp⟩ => ?completes,
    fun b ha hs hrep hhalt hb hloose hclean hlog => ?leaves, fun v acq d kind g pc hm hi hc hs hp hl => ?late, fun v acq hm hi hc => ?cleared,
    fun place bank q hplace hq ha hl hp far => ?parked, fun c hpc hcores hclusters hm hl ho hp room => ?held,
    fun c hpc hcores hclusters hm full => ?full, fun dev line refused hm hh hup => peer_silent hm hh hup line refused⟩
  case arrival =>
    obtain ⟨t, ran, net, served⟩ := remoteAccessArrival_load hm hb (loads hl) (passes hp) ho
    exact ⟨t, ran, net, served.memory, served.thread⟩
  case behind =>
    change execRemoteAccessArrival a.id s = _
    simp only [execRemoteAccessArrival, hm, hb, if_true]
  case completes =>
    obtain ⟨t, ran, net, thread, run, memory, others⟩ := remoteAccessReply_completes hm hi hc hl hs hp
    refine ⟨t, ran, net, run, by rw [thread]; rfl, ?_, ?_, memory, others⟩
    · rw [thread]; exact Thread.passed_completesX _ _ _ _
    · rw [thread]; exact Thread.xWritten_completesX _ _ _ _
  case leaves =>
    have leave : s.mayLeave s.cur = true := by
      simp only [State.mayLeave, show (s.thread s.cur).status = .access from hs, show (s.thread s.cur).rep = none from hrep, hhalt,
        show (s.thread s.cur).pend = some b from hb, hloose, hclean]
      rfl
    have ready : s.me.status.ready = false := by rw [show s.me.status = .access from hs]; rfl
    let x : State := { s with ticks := s.ticks + 1, split := false }
    have left := (step_leaveLoad ha hlog ready leave).trans (congrArg Host.Outcome.next (State.leaveLoad_eq (s := x) hb))
    have me : State.me (x.setThread s.cur (u.goesPast b)) = u.goesPast b := State.thread_setThread_same _ _ _
    have memory : SameMemory x (x.setThread s.cur (u.goesPast b)) := SameMemory.setThread _ _ _
    refine ⟨x.setThread s.cur (u.goesPast b), left, ?_⟩
    rw [me]
    exact ⟨rfl, rfl, rfl, u.passed_goesPast b, u.getX_goesPast b, ⟨⟨memory.bytes, memory.tags, memory.owners⟩, memory.dram⟩, rfl,
      fun g hg => State.thread_setThread_other _ _ _ _ hg⟩
  case late =>
    obtain ⟨t, ran, thread, memory, others⟩ := remoteAccessReply_late hm hi hc hs hl
    have written := (Thread.XWritten.setX own d (extend kind ((g ||| v).setWidth 64)))
    refine ⟨t, ran, by rw [thread]; rfl, by rw [thread]; rfl, ?_, ?_, memory, others⟩
    · rw [thread]; exact Thread.setX_pc _ _ _
    · rw [thread]; exact written.congr rfl rfl rfl
  case cleared =>
    have memory := SameMemory.wakeFences (s.unsend a.id) a.hart
    refine ⟨_, storeAcknowledge_wakes hm hi hc, State.wakeFences_net _ _, ⟨⟨memory.bytes, memory.tags, memory.owners⟩, memory.dram⟩, ?_⟩
    rcases (s.unsend a.id).wakeFences_cases a.hart with e | ⟨hf, e⟩
    · rw [e]
      exact ⟨.inl rfl, fun _ _ => rfl⟩
    · rw [e, State.thread_setThread_same]
      exact ⟨.inr ⟨hf, rfl⟩, fun g hg => State.thread_setThread_other _ _ _ _ hg⟩
  case parked =>
    subst hplace
    obtain ⟨t, ran, net, gone, served⟩ := parkRecheck_load hq ha (loads hl) (passes hp) far
    exact ⟨t, ran, net, gone, served.memory⟩
  case held =>
    subst hpc
    obtain ⟨t, ran, net, gone, served⟩ := heldAccessRecheck_load hcores hclusters hm (loads hl) (passes hp) ho room
    exact ⟨t, ran, net, gone, served.memory⟩
  case full =>
    subst hpc
    exact heldAccessRecheck_full hcores hclusters hm (decide_eq_false (Nat.not_lt.mpr full))

end Sys2Proof.Machine
end


section
/-! SUPPORT. What the command processor's accesses, rejections and scans leave unchanged, and how the grids and contexts stand after its turns
(R25, R31 to R34, R353 to R365, R373). Settles SchedulingSteps. -/

namespace Sys2Proof.Machine

/-! ## The grids and contexts, and what leaves them as they are -/

/-- What the scheduler keeps of the work in progress: the grids and the contexts. -/
def State.rolls (s : State) : Tab Grid × Tab Ctx := (s.grids, s.ctxs)

theorem State.grids_of_rolls {s t : State} (h : t.rolls = s.rolls) : t.grids = s.grids := congrArg Prod.fst h

theorem State.ctxs_of_rolls {s t : State} (h : t.rolls = s.rolls) : t.ctxs = s.ctxs := congrArg Prod.snd h

/-- The entry cache comes to hold the block, and an older one may be written back: nothing else changes. -/
theorem State.cacheQueue_eq (s : State) (q : Nat) : s.cacheQueue q =
    { s with qcache := (s.cacheQueue q).qcache, queues := (s.cacheQueue q).queues, dram := (s.cacheQueue q).dram } := by
  unfold State.cacheQueue
  split
  · rfl
  · cases s.qcb q with
    | none => dsimp only; split <;> [split; skip] <;> rfl
    | some r => dsimp only; split <;> [split; skip] <;> rfl

theorem State.mem_cacheQueue (s : State) (q : Nat) : q ∈ (s.cacheQueue q).qcache := by
  unfold State.cacheQueue
  split <;> exact List.mem_append_right _ List.mem_cons_self

@[simp] theorem State.rolls_cacheQueue (s : State) (q : Nat) : (s.cacheQueue q).rolls = s.rolls := by
  rw [s.cacheQueue_eq q]; rfl

@[simp] theorem State.grids_cacheQueue (s : State) (q : Nat) : (s.cacheQueue q).grids = s.grids := State.grids_of_rolls (s.rolls_cacheQueue q)

@[simp] theorem State.ctxs_cacheQueue (s : State) (q : Nat) : (s.cacheQueue q).ctxs = s.ctxs := State.ctxs_of_rolls (s.rolls_cacheQueue q)

@[simp] theorem State.part_cacheQueue (s : State) (q n : Nat) : (s.cacheQueue q).part n = s.part n := by
  rw [s.cacheQueue_eq q]; rfl

/-- A changed block is in the entry cache. -/
theorem State.qcb_setQueue (s : State) (q : Nat) (r : Queue) : (s.setQueue q r).qcb q = some r := by
  have hq : q ∈ (s.setQueue q r).qcache := s.mem_cacheQueue q
  rw [State.qcb, if_pos hq]
  exact Tab.find?_set_same q r _

@[simp] theorem State.rolls_setQueue (s : State) (q : Nat) (r : Queue) : (s.setQueue q r).rolls = s.rolls := s.rolls_cacheQueue q

theorem State.rolls_noteError (s : State) (kind : Nat) (p : Option Place) (o : BitVec 12) (a : Nat) : (s.noteError kind p o a).rolls = s.rolls := by
  unfold State.noteError
  simp only [List.foldl_cons, List.foldl_nil]
  split <;> rfl

theorem State.rolls_meetLines (s : State) (ls : List Nat) : (s.meetLines ls).rolls = s.rolls := by
  refine foldl_kept _ State.rolls (fun r l => ?_) _ _
  dsimp only
  split
  · exact State.rolls_noteError _ _ _ _ _
  · split
    · exact State.rolls_noteError _ _ _ _ _
    · rfl

theorem State.rolls_notifyHook (s : State) (offs : List Nat) (w : Nat → Word) : (s.notifyHook offs w).rolls = s.rolls := by
  refine foldl_kept _ State.rolls (fun r q => ?_) _ _
  dsimp only
  split
  · split
    · exact r.rolls_cacheQueue q.1
    · rfl
  · rfl

theorem State.rolls_dramOp (s : State) (a : Access) : (s.dramOp a).2.rolls = s.rolls := by
  unfold State.dramOp
  split
  · rfl
  · dsimp only
    split
    · exact s.rolls_meetLines _
    · split
      · exact (State.rolls_notifyHook _ _ _).trans (s.rolls_meetLines _)
      · exact (State.rolls_notifyHook _ _ _).trans (s.rolls_meetLines _)
      · exact s.rolls_meetLines _

theorem State.rolls_cpPut (s : State) (ctx a n v : Nat) : (s.cpPut ctx a n v).rolls = s.rolls := by
  unfold State.cpPut
  split
  · rfl
  · exact State.rolls_dramOp _ _

theorem State.rolls_cpStore (s : State) (ctx a : Nat) (v : Word) : (s.cpStore ctx a v).rolls = s.rolls := State.rolls_cpPut _ _ _ _ _

theorem State.rolls_cpWrite (s : State) (ctx a : Nat) (bs : List Byte) : (s.cpWrite ctx a bs).rolls = s.rolls :=
  foldl_kept _ State.rolls (fun _ _ => State.rolls_cpPut _ _ _ _ _) _ _

theorem State.rolls_putData (s : State) (r : Queue) (l : Launch) : (s.putData r l).rolls = s.rolls :=
  foldl_kept _ State.rolls (fun _ _ => State.rolls_cpWrite _ _ _ _) _ _

theorem State.rolls_signalEvent (s : State) (ctx : Nat) (sig : Word) (f : Word → Word) : (s.signalEvent ctx sig f).rolls = s.rolls := by
  unfold State.signalEvent
  split
  · rfl
  · split
    · split
      · rfl
      · exact State.rolls_cpStore _ _ _ _
    · rfl

theorem State.rolls_setStep (s : State) (q : Nat) (l : List Nat) : (s.setStep q l).rolls = s.rolls := by
  unfold State.setStep
  split
  · rfl
  · exact State.rolls_setQueue _ _ _

theorem State.rolls_cancelPackets (s : State) (r : Queue) : (s.cancelPackets r).rolls = s.rolls := by
  unfold State.cancelPackets
  split
  · refine foldl_kept _ State.rolls (fun x i => ?_) _ _
    split
    · split
      · exact State.rolls_signalEvent _ _ _ _
      · rfl
    · rfl
  · rfl

theorem State.rolls_unlive (s : State) (q : Nat) : (s.unlive q).rolls = s.rolls := by
  unfold State.unlive
  split
  · rfl
  · exact State.rolls_setQueue _ _ _

/-- R365: a queue that has been destroyed is not live. -/
theorem State.liveQueue_unlive (s : State) (q : Nat) : (s.unlive q).liveQueue q = none := by
  unfold State.unlive State.liveQueue
  split
  · next h => rw [h]; rfl
  · rw [State.qcb_setQueue]; rfl

theorem State.barred_cacheQueue (s : State) (k q : Nat) (p : List Word) : (s.cacheQueue k).barred q p = s.barred q p := by
  simp only [State.barred, State.grids_cacheQueue]

theorem State.gridOver_cacheQueue (s : State) (k : Nat) : (s.cacheQueue k).gridOver = s.gridOver := by
  funext g
  simp only [State.gridOver, State.grids_cacheQueue]

/-! ## A packet at the head of its queue (R356) -/

section head
variable {s : State} {q : Nat} {kinds : Nat → Bool} {f : State → Queue → List Word → State}

theorem State.atHead_none (h : s.headPacket q = none) : s.atHead q kinds f = .next (s.endScan q) := by
  rw [State.atHead, h]

theorem State.atHead_some {r : Queue} {p : List Word} (h : s.headPacket q = some (r, p)) (hk : kinds (bits (p.headD 0) 1 3) = true) :
    s.atHead q kinds f = .next (f (s.cacheQueue q) r p) := by
  simp only [State.atHead, h, hk, if_true]

end head

/-! ## Grids by number -/

theorem Tab.mem_of_find? {α : Type} {k : Nat} {v : α} {t : Tab α} (h : Tab.find? t k = some v) : (k, v) ∈ t := by
  induction t with
  | nil => cases h
  | cons q t ih =>
    obtain ⟨j, w⟩ := q
    rw [Tab.find?] at h
    split at h
    · next e => cases h; exact e ▸ List.mem_cons_self
    · exact List.mem_cons_of_mem _ (ih h)

/-- The value at a key of a table whose values are changed each by a function of its key. -/
theorem Tab.find?_map_key {α : Type} (f : Nat × α → α) (t : Tab α) (k : Nat) :
    Tab.find? (t.map (fun q => (q.1, f q))) k = (Tab.find? t k).map (fun v => f (k, v)) := by
  induction t with
  | nil => rfl
  | cons q t ih =>
    obtain ⟨j, w⟩ := q
    simp only [List.map_cons, Tab.find?]
    split
    · next e => rw [e]; rfl
    · exact ih

/-! ## Grids that are stopped, dispatched or admitted -/

theorem State.grids_settleEnergy (s : State) (ctx : Nat) : (s.settleEnergy ctx).grids = s.grids := by
  unfold State.settleEnergy
  split <;> rfl

/-- R363: a grid of the list that runs takes the code. -/
theorem State.find?_abortGrids {s : State} {gs : List Nat} {gid code : Nat} {g : Grid} (hg : Tab.find? s.grids gid = some g)
    (hm : gid ∈ withChildren s 9 gs) (hc : g.complete = false) (ha : g.aborting = none) :
    Tab.find? (s.abortGrids gs code).grids gid = some (g.abort code) := by
  unfold State.abortGrids
  dsimp only
  rw [Tab.find?_map_key (fun q : Nat × Grid => if q.1 ∈ _ then q.2.abort code else q.2),
    foldl_kept State.settleEnergy State.grids State.grids_settleEnergy, hg, Option.map_some,
    if_pos (List.mem_filter.2 ⟨hm, by simp only [hg, hc, ha]; rfl⟩)]

theorem Grid.abort_running {g : Grid} (hc : g.complete = false) (ha : g.aborting = none) (code : Nat) :
    (g.abort code).aborting = some code ∧ (g.abort code).complete = false ∧ ∀ x ∈ (g.abort code).groups, x.state = 2 := by
  rw [Grid.abort, if_neg (by simp [hc, ha])]
  refine ⟨rfl, hc, fun x hx => ?_⟩
  obtain ⟨y, -, rfl⟩ := List.mem_map.1 hx
  rfl

theorem mem_withChildren {s : State} {n x : Nat} {gs : List Nat} (h : x ∈ gs) : x ∈ withChildren s n gs := by
  cases n with
  | zero => exact h
  | succ n => exact List.mem_append_left _ h

theorem State.grids_report (s : State) (r : Report) : (s.report r).grids = s.grids := by
  obtain ⟨d, q, n, l, e⟩ := (s.stopEvent r).post_eq (s.hubOf r.grid) r
  rw [State.report, e, s.stopEvent_eq r]
  rfl

theorem State.grids_vacate (s : State) (ctx : Nat) : (s.vacate ctx).grids = s.grids :=
  foldl_kept (fun (x : State) n => x.setCore n (x.core n).vacant) State.grids (fun _ _ => rfl) _ _

/-- Releasing a context's clusters takes no grid away. -/
theorem State.find?_release (s : State) (ctx gid : Nat) (h : (Tab.find? s.grids gid).isSome = true) :
    (Tab.find? (s.release ctx).grids gid).isSome = true := by
  unfold State.release
  split
  · exact h
  · dsimp only [State.setCtx_grids]
    rw [State.grids_vacate, foldl_kept (fun (x : State) n => x.driveM ⟨n, 0⟩ 65 false) State.grids (fun _ _ => rfl),
      Tab.find?_map_key, Option.isSome_map]
    exact h

theorem State.find?_roomFor {s s1 : State} {ctx prio n gid : Nat} {recs : List ImageRec} {applied : List Nat} {rs : List Group}
    (h : s.roomFor ctx prio n recs applied rs = some s1) (hg : (Tab.find? s.grids gid).isSome = true) :
    (Tab.find? s1.grids gid).isSome = true := by
  simp only [State.roomFor, Option.ite_none_right_eq_some, Option.some.injEq] at h
  obtain ⟨-, -, rfl⟩ := h
  exact foldl_inv _ (fun x : State => (Tab.find? x.grids gid).isSome = true) (fun x c hx => x.find?_release c gid hx) _ _ hg

theorem State.find?_groupReady {s s1 : State} {gid : Nat} {g : Grid} {x : Group} (h : s.groupReady gid g = some (x, s1)) {k : Nat}
    (hg : (Tab.find? s.grids k).isSome = true) : (Tab.find? s1.grids k).isSome = true := by
  unfold State.groupReady at h
  split at h
  · cases h
  · obtain ⟨r, -, hr⟩ := Option.bind_eq_some_iff.1 h
    obtain ⟨t, ht, e⟩ := Option.map_eq_some_iff.1 hr
    cases e
    exact State.find?_roomFor ht hg

/-- R25, R359: the group that a grid starts is resident. -/
theorem State.startGroup_resident {s : State} {gid : Nat} (r : Group) (h : (Tab.find? s.grids gid).isSome = true) :
    ∃ g', Tab.find? (s.startGroup gid r).grids gid = some g' ∧ ∀ y ∈ g'.groups, y.stage = r.stage → y.index = r.index → y.state = 1 := by
  obtain ⟨g, hg⟩ := Option.isSome_iff_exists.1 h
  have placed : ∀ (gs : List Group), ∀ y ∈ gs.map (fun y => if y.stage = r.stage ∧ y.index = r.index then { y with state := 1 } else y),
      y.stage = r.stage → y.index = r.index → y.state = 1 := by
    intro gs y hy hs hi
    obtain ⟨z, -, rfl⟩ := List.mem_map.1 hy
    split at hs
    · next e => rw [if_pos e]
    · next e => rw [if_neg e] at hi; exact absurd ⟨hs, hi⟩ e
  unfold State.startGroup
  simp only [hg]
  split
  · exact ⟨_, Tab.find?_set_same _ _ _, placed _⟩
  · exact ⟨_, Tab.find?_set_same _ _ _, placed _⟩

/-! ## The admission of a grid (R359, R360) -/

/-- The grid that a launch opens, as its packet gives it. -/
structure Opens (s t : State) (new q : Nat) (p : List Word) (l : Launch) : Prop where
  found : ∃ g' : Grid, Tab.find? t.grids new = some g' ∧ g'.queue = q ∧ g'.signal = p.getD 1 0 ∧ g'.groups = l.groups ∧ g'.complete = false ∧
    g'.packet = p
  others : ∀ x, x ≠ new → x ≠ (p.getD 2 0).toNat → Tab.find? t.grids x = Tab.find? s.grids x

theorem Opens.setGrid {s : State} {new q : Nat} {p : List Word} {l : Launch} (g : Grid) (hq : g.queue = q) (hs : g.signal = p.getD 1 0)
    (hl : g.groups = l.groups) (hc : g.complete = false) (hp : g.packet = p) : Opens s (s.setGrid new g) new q p l :=
  ⟨⟨g, Tab.find?_set_same _ _ _, hq, hs, hl, hc, hp⟩, fun x hx _ => Tab.find?_set_other _ _ _ x hx⟩

/-- A parent takes the grid as its child: a grid that names itself is still the one that its packet gives. -/
theorem Opens.addChild {s t : State} {new q : Nat} {p : List Word} {l : Launch} (h : Opens s t new q p l) {par : Grid} (cs : List Nat)
    (hp : Tab.find? t.grids (p.getD 2 0).toNat = some par) : Opens s (t.setGrid (p.getD 2 0).toNat { par with children := cs }) new q p l := by
  obtain ⟨⟨g, hg, found⟩, others⟩ := h
  refine ⟨?_, fun x hx hxp => (Tab.find?_set_other _ _ _ x hxp).trans (others x hx hxp)⟩
  by_cases e : new = (p.getD 2 0).toNat
  · rw [e, hp] at hg
    cases hg
    exact ⟨{ par with children := cs }, e ▸ Tab.find?_set_same _ _ _, found⟩
  · exact ⟨g, (Tab.find?_set_other _ _ _ new e).trans hg, found⟩

theorem Opens.congr {s t u : State} {new q : Nat} {p : List Word} {l : Launch} (h : Opens s t new q p l) (e : u.grids = t.grids) :
    Opens s u new q p l := by
  obtain ⟨found, others⟩ := h
  exact ⟨e ▸ found, e ▸ others⟩

theorem State.admitLaunch_opens {s : State} {q : Nat} {r : Queue} {p : List Word} {l : Launch} {serial : Nat} {c : Ctx}
    (hc : Tab.find? s.ctxs r.ctx = some c) (hl : l.gang = false) :
    ∃ t : State, s.admitLaunch q r p l serial = t.consume q r ∧ Opens s t (r.ctx * 2 ^ 32 + serial) q p l := by
  unfold State.admitLaunch
  simp -zeta only [hc]
  extract_lets new n g s2 s3 s4 s5
  have h2 : Opens s s2 new q p l := .setGrid g rfl rfl rfl rfl rfl
  have h3 : Opens s s3 new q p l := by
    dsimp only [s3]
    split
    · next par hpar =>
      split
      · exact h2
      · exact h2.addChild _ hpar
    · exact h2
  have h5 : Opens s s5 new q p l := by
    refine h3.congr ?_
    dsimp only [s5, s4]
    rw [hl]
    cases l.dom <;> rfl
  exact ⟨_, rfl, h5.congr rfl⟩

/-- R359, R360: the serial of a packet's grid, which it keeps while it waits. -/
theorem State.takeSerial_eq {s : State} {q : Nat} {r : Queue} {c : Ctx} (hc : Tab.find? s.ctxs r.ctx = some c) :
    (s.takeSerial q r).1 = (r.step.bind List.head?).getD (nextSerial c.serial) ∧ (s.takeSerial q r).2.grids = s.grids ∧
      (Tab.find? (s.takeSerial q r).2.ctxs r.ctx).isSome = true := by
  have fresh : let t := (s.setCtx r.ctx { c with serial := nextSerial c.serial }).setStep q [nextSerial c.serial]
      t.grids = s.grids ∧ (Tab.find? t.ctxs r.ctx).isSome = true := by
    have e := (s.setCtx r.ctx { c with serial := nextSerial c.serial }).rolls_setStep q [nextSerial c.serial]
    refine ⟨(State.grids_of_rolls e :), ?_⟩
    rw [State.ctxs_of_rolls e]
    exact congrArg Option.isSome (Tab.find?_set_same r.ctx _ s.ctxs)
  unfold State.takeSerial
  rw [hc]
  rcases hs : r.step with _ | _ | ⟨n, l⟩
  · exact ⟨rfl, fresh⟩
  · exact ⟨rfl, fresh⟩
  · exact ⟨rfl, rfl, by rw [hc]; rfl⟩

/-! ## The halt watchdog of a context (R373, R374) -/

theorem State.rolls_discard (s : State) (n : Nat) (r : Running) (v : Word) (u : BitVec 14) : (s.discard n r v u).rolls = s.rolls := by
  change State.rolls (if r.draining then _ else s) = _
  split <;> rfl

theorem State.rolls_discardStalled (s : State) (n : Nat) : (s.discardStalled n).rolls = s.rolls := by
  have loading : ∀ r v u, (s.discardLoading n r v u).rolls = s.rolls := fun _ _ _ => rfl
  unfold State.discardStalled
  dsimp only
  split
  · refine (State.rolls_discard _ _ _ _ _).trans ?_
    split
    · exact loading _ _ _
    · rfl
  · split
    · exact loading _ _ _
    · rfl

theorem State.rolls_stopExchange (s : State) (n : Nat) (d : Domain) : (s.stopExchange n d).rolls = s.rolls := by
  unfold State.stopExchange
  refine foldl_kept _ State.rolls (fun r b => ?_) _ _
  dsimp only
  split <;> rfl

theorem State.rolls_stopHeld (s : State) (h : Hart) : (s.stopHeld h).rolls = s.rolls := by
  unfold State.stopHeld
  dsimp only
  split
  · rfl
  · split <;> rfl

theorem State.rolls_haltAccess (s : State) (h : Hart) : (s.haltAccess h).rolls = s.rolls := by
  unfold State.haltAccess
  dsimp only
  split
  · rfl
  · split
    · rfl
    · split <;> rfl

theorem State.rolls_haltSend (s : State) (h : Hart) : (s.haltSend h).rolls = s.rolls := by
  unfold State.haltSend
  split
  · rfl
  · split
    · exact State.rolls_stopExchange _ _ _
    · rfl

theorem State.rolls_abandonMiss (s : State) (h : Hart) (page : Nat) : (s.abandonMiss h page).rolls = s.rolls := by
  unfold State.abandonMiss
  dsimp only
  split <;> rfl

theorem State.rolls_haltThread (s : State) (force : Bool) (h : Hart) : (s.haltThread force h).rolls = s.rolls := by
  unfold State.haltThread
  dsimp only
  split <;> try rfl
  · exact s.rolls_haltAccess h
  · exact s.rolls_abandonMiss h _
  · exact s.rolls_haltSend h
  · exact s.rolls_stopHeld h
  · split <;> rfl

theorem State.rolls_stopTransfers (s : State) (ctx : Nat) : (s.stopTransfers ctx).rolls = s.rolls := by
  unfold State.stopTransfers
  dsimp only
  split <;> rfl

/-- The halt of a context, asked for with the watchdog's force, goes on or is complete. -/
def State.Forced (s : State) (ctx : Nat) : Prop := ∀ c, Tab.find? s.ctxs ctx = some c → c.force = true ∧ c.halt ≠ 0

theorem State.Forced.of_rolls {s t : State} {ctx : Nat} (h : s.Forced ctx) (e : t.rolls = s.rolls) : t.Forced ctx := by
  rw [State.Forced, State.ctxs_of_rolls e]
  exact h

theorem State.Forced.setCtx {ctx : Nat} {c : Ctx} (s : State) (hf : c.force = true) (hh : c.halt ≠ 0) : (s.setCtx ctx c).Forced ctx := by
  intro c' hc'
  cases (Tab.find?_set_same ctx c s.ctxs).symm.trans hc'
  exact ⟨hf, hh⟩

theorem State.Forced.settle {s : State} {ctx : Nat} (h : s.Forced ctx) : (s.settle ctx).Forced ctx := by
  have h1 : (s.stopTransfers ctx).Forced ctx := h.of_rolls (s.rolls_stopTransfers ctx)
  unfold State.settle
  dsimp only
  split
  · exact h1
  · next c hc =>
    split
    · exact .setCtx _ (h1 c hc).1 (by simp)
    · exact h1

theorem State.forced_expire (s : State) (ctx : Nat) (c : Ctx) : (s.expire ctx c).Forced ctx := by
  have h1 : (s.setCtx ctx { c with halt := 1, force := true }).Forced ctx := .setCtx s rfl Nat.one_ne_zero
  refine State.Forced.settle (h1.of_rolls ?_)
  rw [foldl_kept (fun r h => State.haltThread r true h) State.rolls (fun r h => r.rolls_haltThread true h),
    foldl_kept (fun r n => State.discardStalled r n) State.rolls State.rolls_discardStalled]

/-! ## Packets (R357 to R361, R365) -/

/-- R365: the grids that the destroy of a queue cancels. -/
def State.cancelled (s : State) (qid : Nat) : List Nat :=
  withChildren s 9 ((s.grids.filter (fun g => decide (g.2.queue = qid) && !g.2.complete)).map Prod.fst)

theorem State.mem_cancelled {s : State} {qid x : Nat} {g : Grid} (hg : Tab.find? s.grids x = some g) (hq : g.queue = qid) (hc : g.complete = false) :
    x ∈ s.cancelled qid :=
  mem_withChildren (List.mem_map.2 ⟨(x, g), List.mem_filter.2 ⟨Tab.mem_of_find? hg, by simp [hq, hc]⟩, rfl⟩)

section packets
variable {s : State} {q : Nat} {r : Queue} {p : List Word}

theorem exec_notifyScan (hl : s.liveQueue q = some r) (hs : (s.thread ⟨hubCore (q % 4), 0⟩).priv.sip.getLsbD 3 = true)
    (hn : r.notified = true) : ∃ s', exec (.notifyScan q) s = .next s' ∧ s'.qcb q = some { r with scanning := true, notified := false } := by
  change ∃ s', execNotifyScan q s = _ ∧ _
  simp only [execNotifyScan, hl, bit, hs, hn, and_self, if_true, Host.Outcome.next.injEq]
  exact ⟨_, rfl, s.qcb_setQueue q _⟩

theorem exec_periodicQueueScan (hl : s.liveQueue q = some r) (hw : r.read.toNat < r.hint.toNat) :
    exec (.periodicQueueScan q) s = .next (s.setQueue q { r with scanning := true }) := by
  change execPeriodicQueueScan q s = _
  simp only [execPeriodicQueueScan, hl, BitVec.ult, decide_eq_true hw, if_true]

theorem exec_packet_unread (hn : s.headPacket q = none) {i : Instr}
    (hi : i ∈ [Instr.packetNop q, .packetMark q, .packetLaunch q, .packetQueueCreate q, .packetQueueDestroy q]) : exec i s = .next (s.endScan q) := by
  simp only [List.mem_cons, List.not_mem_nil, or_false] at hi
  rcases hi with rfl | rfl | rfl | rfl | rfl
  · exact (State.atHead_none hn : execPacketNop q s = _)
  · exact (State.atHead_none hn : execPacketMark q s = _)
  · exact (State.atHead_none hn : execPacketLaunch q s = _)
  · exact (State.atHead_none hn : execPacketQueueCreate q s = _)
  · exact (State.atHead_none hn : execPacketQueueDestroy q s = _)

variable (hh : s.headPacket q = some (r, p))
include hh

theorem exec_packetNop (hk : bits (p.headD 0) 1 3 = 0) : exec (.packetNop q) s = .next
    (if plainOk p = false then (s.cacheQueue q).reject q r p 1 else if s.barred q p = true then s.cacheQueue q
    else ((s.cacheQueue q).signalEvent r.ctx (p.getD 1 0) signalDone).consume q r) := by
  change execPacketNop q s = _
  refine (State.atHead_some (kinds := fun k => decide (k = 0)) hh (decide_eq_true hk)).trans ?_
  simp only [State.barred_cacheQueue, Bool.not_eq_true']

theorem exec_packetMark (hk : bits (p.headD 0) 1 3 = 2) (hp : plainOk p = true) : exec (.packetMark q) s = .next
    (if s.barred q p = true then s.cacheQueue q else (((s.cacheQueue q).setQueue q { r with marks := r.marks ++
      [(p.getD 1 0, (List.filter (fun x : Nat × Grid => decide (x.2.queue = q) && !x.2.complete) s.grids).map Prod.fst)] }).consume q r).fireMarks q) := by
  change execPacketMark q s = _
  refine (State.atHead_some (kinds := fun k => decide (k = 2)) hh (decide_eq_true hk)).trans ?_
  simp only [State.barred_cacheQueue, State.grids_cacheQueue, hp, Bool.not_true, Bool.false_eq_true, if_false]

theorem exec_packetLaunch_rejected (hk : bits (p.headD 0) 1 3 = 1) {code : Nat} (hl : (s.cacheQueue q).launch r p = .error code) :
    exec (.packetLaunch q) s = .next ((s.cacheQueue q).reject q r p code) := by
  change execPacketLaunch q s = _
  refine (State.atHead_some (kinds := fun k => decide (k = 1) || decide (4 ≤ k)) hh (by rw [hk]; rfl)).trans ?_
  simp only [hl]

theorem exec_packetLaunch_barred (hk : bits (p.headD 0) 1 3 = 1) {l : Launch} (hl : (s.cacheQueue q).launch r p = .ok l) (hb : s.barred q p = true) :
    exec (.packetLaunch q) s = .next (s.cacheQueue q) := by
  change execPacketLaunch q s = _
  refine (State.atHead_some (kinds := fun k => decide (k = 1) || decide (4 ≤ k)) hh (by rw [hk]; rfl)).trans ?_
  simp only [hl, State.barred_cacheQueue, hb, if_true]

theorem exec_packetLaunch_admits (hk : bits (p.headD 0) 1 3 = 1) {l : Launch} (hl : (s.cacheQueue q).launch r p = .ok l) (hg : l.gang = false)
    (hb : s.barred q p = false) {c : Ctx} (hc : Tab.find? s.ctxs r.ctx = some c) :
    ∃ t : State, exec (.packetLaunch q) s = .next (t.consume q r) ∧
      Opens s t (r.ctx * 2 ^ 32 + (r.step.bind List.head?).getD (nextSerial c.serial)) q p l := by
  obtain ⟨serial, grids, ctxs⟩ := State.takeSerial_eq (s := s.cacheQueue q) (q := q) (r := r) ((congrArg (Tab.find? · r.ctx) (s.ctxs_cacheQueue q)).trans hc)
  have rolls := ((s.cacheQueue q).takeSerial q r).2.rolls_putData r l
  obtain ⟨c1, hc1⟩ := Option.isSome_iff_exists.1 ctxs
  obtain ⟨t, ht, opens⟩ := State.admitLaunch_opens (s := ((s.cacheQueue q).takeSerial q r).2.putData r l) (q := q) (p := p)
    (serial := (r.step.bind List.head?).getD (nextSerial c.serial)) ((congrArg (Tab.find? · r.ctx) (State.ctxs_of_rolls rolls)).trans hc1) hg
  refine ⟨t, ?_, opens.found, fun x hx hxp => (opens.others x hx hxp).trans ?_⟩
  · change execPacketLaunch q s = _
    refine (State.atHead_some (kinds := fun k => decide (k = 1) || decide (4 ≤ k)) hh (by rw [hk]; rfl)).trans ?_
    simp only [hl, State.barred_cacheQueue, hb, hg, State.fits, serial, Bool.false_and, Bool.false_eq_true, Bool.not_false, if_false, if_true, ht]
  · rw [State.grids_of_rolls rolls, grids, State.grids_cacheQueue]

theorem exec_packetQueueCreate_ok (hk : bits (p.headD 0) 1 3 = 3) (ho : (s.cacheQueue q).queuePacketOk q r p = true) (hop : (p.getD 2 0).toNat = 1)
    (hb : s.barred q p = false) {ws : List Word} {new : Queue} (hw : (s.cacheQueue q).cpWords r.ctx (p.getD 4 0).toNat 16 = some ws)
    (hn : qcbOf ws = some new) (hl : (s.cacheQueue q).liveQueue (p.getD 3 0).toNat = none) (hf : (s.cacheQueue q).ctxFits q new.ctx = true) :
    (∀ c', Tab.find? s.ctxs new.ctx = some c' → exec (.packetQueueCreate q) s = .next
      ((((s.cacheQueue q).setQueue (p.getD 3 0).toNat new).signalEvent r.ctx (p.getD 1 0) signalDone).consume q r)) ∧
    (Tab.find? s.ctxs new.ctx = none → exec (.packetQueueCreate q) s = .next (((((s.cacheQueue q).setCtx new.ctx
      (Ctx.new q (s.part q).owner)).setQueue (p.getD 3 0).toNat new).signalEvent r.ctx (p.getD 1 0) signalDone).consume q r)) := by
  refine ⟨fun c' hc' => ?_, fun hc' => ?_⟩ <;> (
    change execPacketQueueCreate q s = _
    refine (State.atHead_some (kinds := fun k => decide (k = 3)) hh (decide_eq_true hk)).trans ?_
    simp only [ho, hop, hw, hn, hl, hf, State.barred_cacheQueue, hb, State.ctxs_cacheQueue, State.part_cacheQueue, Option.bind_some, Option.isSome_none,
      Bool.not_true, Bool.or_self, Bool.false_eq_true, ne_eq, not_true_eq_false, if_false, hc'])

theorem exec_packetQueue_rejected (hk : bits (p.headD 0) 1 3 = 3) (ho : (s.cacheQueue q).queuePacketOk q r p = false) :
    exec (.packetQueueCreate q) s = .next ((s.cacheQueue q).reject q r p 1) ∧
      exec (.packetQueueDestroy q) s = .next ((s.cacheQueue q).reject q r p 1) := by
  change execPacketQueueCreate q s = _ ∧ execPacketQueueDestroy q s = _
  constructor <;> (
    refine (State.atHead_some (kinds := fun k => decide (k = 3)) hh (decide_eq_true hk)).trans ?_
    simp only [ho, Bool.not_false, if_true])

theorem exec_packetQueueDestroy_again (hk : bits (p.headD 0) 1 3 = 3) (ho : (s.cacheQueue q).queuePacketOk q r p = true)
    (hop : (p.getD 2 0).toNat = 2) (hq : (p.getD 3 0).toNat ≠ q) {gs : List Nat} (hg : r.step = some gs) :
    exec (.packetQueueDestroy q) s = .next (if gs.all s.gridOver = true then
      ((s.cacheQueue q).signalEvent r.ctx (p.getD 1 0) signalDone).consume q r else s.cacheQueue q) := by
  change execPacketQueueDestroy q s = _
  refine (State.atHead_some (kinds := fun k => decide (k = 3)) hh (decide_eq_true hk)).trans ?_
  simp only [ho, hop, hg, State.endDestroy, State.gridOver_cacheQueue, hq, Bool.not_true, Bool.false_eq_true, ne_eq, not_true_eq_false, if_false]

theorem exec_packetQueueDestroy_first (hk : bits (p.headD 0) 1 3 = 3) (ho : (s.cacheQueue q).queuePacketOk q r p = true)
    (hop : (p.getD 2 0).toNat = 2) (hq : (p.getD 3 0).toNat ≠ q) (hs : r.step = none) (hb : s.barred q p = false) {d : Queue}
    (hd : (s.cacheQueue q).liveQueue (p.getD 3 0).toNat = some d) (hf : (s.cacheQueue q).functionOf d = q) : ∃ (s1 : State) (gs : List Nat),
    exec (.packetQueueDestroy q) s = .next (((s1.setStep q gs).endDestroy q r p gs).reap d.ctx) ∧ s1.liveQueue (p.getD 3 0).toNat = none ∧
      ∀ x g1, Tab.find? s.grids x = some g1 → g1.queue = (p.getD 3 0).toNat → g1.complete = false → x ∈ gs ∧
        (g1.aborting = none → ∃ g2, Tab.find? s1.grids x = some g2 ∧ g2.aborting = some 4) := by
  have grids := State.grids_of_rolls ((State.rolls_unlive (((s.cacheQueue q).abortGrids ((s.cacheQueue q).cancelled (p.getD 3 0).toNat) 4).cancelPackets d)
    (p.getD 3 0).toNat).trans (State.rolls_cancelPackets _ d))
  refine ⟨_, (s.cacheQueue q).cancelled (p.getD 3 0).toNat, ?ran,
    State.liveQueue_unlive (((s.cacheQueue q).abortGrids ((s.cacheQueue q).cancelled (p.getD 3 0).toNat) 4).cancelPackets d) _, fun x g1 hg1 hgq hgc => ?_⟩
  case ran =>
    change execPacketQueueDestroy q s = _
    refine (State.atHead_some (kinds := fun k => decide (k = 3)) hh (decide_eq_true hk)).trans ?_
    simp only [ho, hop, hs, hd, hf, State.barred_cacheQueue, hb, hq, Bool.not_true, Bool.false_eq_true, ne_eq, not_true_eq_false, if_false]
    rfl
  have hk1 : Tab.find? (s.cacheQueue q).grids x = some g1 := (congrArg (Tab.find? · x) (s.grids_cacheQueue q)).trans hg1
  have listed := State.mem_cancelled hk1 hgq hgc
  exact ⟨listed, fun hga => ⟨_, (congrArg (Tab.find? · x) grids).trans (State.find?_abortGrids hk1 (mem_withChildren listed) hgc hga),
    (Grid.abort_running hgc hga 4).1⟩⟩

end packets

/-! ## Grids that end (R32, R34, R359, R363) -/

section grids
variable {s : State} {gid : Nat} {g : Grid} (hg : Tab.find? s.grids gid = some g)
include hg

theorem exec_groupDispatch {x : Group} {s1 : State} (hr : s.groupReady gid g = some (x, s1)) (first : ∀ y ∈ s.grids, s.beforeGrid y.2 g = false) :
    exec (.groupDispatch gid) s = .next (s1.startGroup gid x) := by
  change execGroupDispatch gid s = _
  simp only [execGroupDispatch, hg, hr]
  refine if_neg fun h => ?_
  obtain ⟨y, hy, rival⟩ := List.any_eq_true.1 h
  rw [first y hy] at rival
  cases rival

theorem exec_gridCompletion (hc : g.complete = false) (ha : g.aborting = none) (hx : ∀ x ∈ g.groups, x.state = 2) (hk : g.children = [])
    (hq : g.childq = []) (quiet : s.gridQuiet gid = true) : exec (.gridCompletion gid) s =
      .next (((s.setGrid gid { g with complete := true }).signalEvent g.ctx g.signal signalDone).afterGrid g) := by
  have ended : g.groups.all (fun r => decide (r.state = 2)) = true := List.all_eq_true.2 fun x h => decide_eq_true (hx x h)
  change execGridCompletion gid s = _
  simp only [execGridCompletion, hg, hc, ha, ended, hk, hq, quiet, List.all_nil, Option.isNone_none, Bool.not_false, Bool.and_self, if_true]

theorem exec_errorEvent {code : Nat} (hc : g.complete = false) (ha : g.aborting = some code) (quiet : s.gridQuiet gid = true) :
    exec (.errorEvent gid) s = .next (((s.setGrid gid { g with complete := true }).signalEvent g.ctx g.signal (signalError code)).afterGrid g) := by
  change execErrorEvent gid s = _
  simp only [execErrorEvent, hg, hc, ha, quiet, Bool.not_false, Bool.and_self, if_true]

theorem exec_runTimeLimit (hc : g.complete = false) (ha : g.aborting = none) (hl : g.limit ≠ 0)
    (hp : ∀ c, Tab.find? s.ctxs g.ctx = some c → c.halt ≠ 2 ∧ c.away = false) (hx : ∃ x ∈ g.groups, x.state ≠ 0) :
    exec (.runTimeLimit gid) s = .next (s.abortGrids [gid] 6) := by
  have begun : g.groups.any (fun r => decide (r.state ≠ 0)) = true :=
    List.any_eq_true.2 (hx.imp fun x h => ⟨h.1, decide_eq_true h.2⟩)
  have runs : ((Tab.find? s.ctxs g.ctx).map (fun c => decide (c.halt = 2) || c.away)).getD false = false := by
    cases e : Tab.find? s.ctxs g.ctx with
    | none => rfl
    | some c => simp [(hp c e).1, (hp c e).2]
  change execRunTimeLimit gid s = _
  simp only [execRunTimeLimit, hg, hc, ha, runs, begun, hl, Option.isNone_none, Bool.not_false, ne_eq, not_false_eq_true, decide_true, Bool.and_self,
    if_true]

theorem exec_gridDeadlock (hc : g.complete = false) (ha : g.aborting = none) {x : Group} {rest : List Group}
    (hr : g.groups.filter (fun x => decide (x.state = 1)) = x :: rest) (hb : ∀ y ∈ g.groups, y.state = 1 → s.groupBlocked y = true)
    (hw : ∃ y ∈ g.groups, y.state = 0) :
    exec (.gridDeadlock gid) s = .next ((s.report { s.reportOf (x.hart 0) 38 0 0 false with grid := gid }).abortGrids [gid] 3) := by
  have blocked : (x :: rest).all s.groupBlocked = true := by
    rw [← hr]
    refine List.all_eq_true.2 fun y hy => ?_
    obtain ⟨my, resident⟩ := List.mem_filter.1 hy
    exact hb y my (of_decide_eq_true resident)
  have waits : g.groups.any (fun r => decide (r.state = 0)) = true :=
    List.any_eq_true.2 (hw.imp fun y h => ⟨h.1, decide_eq_true h.2⟩)
  change execGridDeadlock gid s = _
  simp only [execGridDeadlock, hg, hc, ha, hr, blocked, waits, Option.isNone_none, Bool.not_false, Bool.and_self, if_true]

theorem State.abortGrids_self (hc : g.complete = false) (ha : g.aborting = none) {t : State} (ht : t.grids = s.grids) (code : Nat) :
    ∃ g', Tab.find? (t.abortGrids [gid] code).grids gid = some g' ∧ g'.aborting = some code ∧ g'.complete = false ∧ ∀ x ∈ g'.groups, x.state = 2 :=
  ⟨_, State.find?_abortGrids ((congrArg (Tab.find? · gid) ht).trans hg) (mem_withChildren List.mem_cons_self) hc ha, Grid.abort_running hc ha code⟩

end grids

theorem exec_haltWatchdog {s : State} {ctx : Nat} {c : Ctx} (hc : Tab.find? s.ctxs ctx = some c) (hh : c.halt = 1) :
    exec (.haltWatchdog ctx) s = .next (s.expire ctx c) := by
  change execHaltWatchdog ctx s = _
  simp only [execHaltWatchdog, hc, hh, if_true]

/-- Settles O50: the turns of a packet at the head of its queue run on the machine that has the queue's block in its entry cache, whose grids and
contexts are those before it; the processor's accesses to memory change neither, so that what the scheduler has done to them stands. -/
theorem schedulingSteps : Obligations.SchedulingSteps := by
  unfold Obligations.SchedulingSteps
  intro s q r p gid g c hub sig kind head qid k aborted
  refine ⟨fun hl hs hn => exec_notifyScan hl hs hn, fun hl hw => ⟨exec_periodicQueueScan hl hw, s.qcb_setQueue q _⟩,
    fun hn i hi => exec_packet_unread hn hi, fun hh hk hp hb => ?nop, fun hh hk hp => ?nopRejected, fun hh hk hp hb => ?mark, fun hh hb => ?barred,
    fun hh hk code hl => exec_packetLaunch_rejected hh hk hl, fun hh hk l hl hg hb hc => ?launch,
    fun hh hk ho hop hb ws new hw hn hl hf => exec_packetQueueCreate_ok hh hk ho hop hb hw hn hl hf, fun hh hk ho hop hq => ?destroy,
    fun hh hk ho => exec_packetQueue_rejected hh hk ho, fun hg => ?grid, fun hc hh => ⟨_, exec_haltWatchdog hc hh, s.forced_expire gid c⟩⟩
  case nop => rw [exec_packetNop hh hk, if_neg (by simp [hp]), if_neg (by simp [hb])]
  case nopRejected => rw [exec_packetNop hh hk, if_pos hp]; rfl
  case mark => rw [exec_packetMark hh hk hp, if_neg (by simp [hb])]
  case barred =>
    exact ⟨fun hk hp => by rw [exec_packetNop hh hk, if_neg (by simp [hp]), if_pos hb], fun hk hp => by rw [exec_packetMark hh hk hp, if_pos hb],
      fun hk l hl => exec_packetLaunch_barred hh hk hl hb⟩
  case launch =>
    obtain ⟨t, run, found, others⟩ := exec_packetLaunch_admits hh hk hl hg hb hc
    obtain ⟨g', hg', hq, hs, hl, hc, hp⟩ := found
    exact ⟨t, run, g', hg', hq, hs, hl, hc, hp, others⟩
  case destroy =>
    refine ⟨fun hs hb d hd hf => exec_packetQueueDestroy_first hh hk ho hop hq hs hb hd hf, fun gs hgs => ?_⟩
    have again := exec_packetQueueDestroy_again hh hk ho hop hq hgs
    exact ⟨fun h => again.trans (congrArg _ (if_neg (by simp [h]))), fun h => again.trans (congrArg _ (if_pos h))⟩
  case grid =>
    refine ⟨fun x s1 hr first => ⟨_, exec_groupDispatch hg hr first, State.startGroup_resident x (State.find?_groupReady hr (by rw [hg]; rfl))⟩,
      fun hc ha hx hk hq quiet => exec_gridCompletion hg hc ha hx hk hq quiet, fun code hc ha quiet => exec_errorEvent hg hc ha quiet,
      fun hc ha => ⟨fun hl hp hx => ⟨_, exec_runTimeLimit hg hc ha hl hp hx, State.abortGrids_self hg hc ha rfl 6⟩,
        fun x rest hr hb hw => ⟨_, exec_gridDeadlock hg hc ha hr hb hw, State.abortGrids_self hg hc ha (s.grids_report _) 3⟩⟩⟩

end Sys2Proof.Machine
end


section
/-! SUPPORT. Where a step of a ready thread is not the instruction in its own core's SRAM: of hub cores 6 and 7, the routing table's range of the local
window is reached at M alone (R405), so that a fetch from it at S is cause 1 (R151) whatever the core's own SRAM holds there. Refutes
StepRunsDecoded. -/

namespace Sys2Proof.Machine

/-! ## The range of the routing table -/

theorem routeBase_lt : routeBase < 0xB0000 := by
  have : Config.routeBase % 0x2C00 < 0x2C00 := Nat.mod_lt _ (by decide)
  unfold routeBase
  omega

/-- R405: below M, a thread of hub cores 6 and 7 reaches no byte of the routing table's range. -/
theorem State.resolveAt_routes {s : State} {h : Hart} {l : Level} {a : Nat} (ha : a < 2 ^ 56) (hr : inRoutes h.core a = true) (hl : l ≠ .m) :
    s.resolveAt h l a = none := by
  have window : a / 2 ^ 56 % 256 = 0 := by omega
  have off : a % 2 ^ 56 = a := Nat.mod_eq_of_lt ha
  simp only [State.resolveAt, window, off, hr, hl, if_true, if_false]

/-- R151: what a thread below M fetches from there is cause 1. -/
theorem State.fetch_routes {s : State} (hb : s.me.bodyBytes = none) (ha : s.me.pc.toNat < 2 ^ 56) (hr : inRoutes s.cur.core s.me.pc.toNat = true)
    (hl : s.me.level ≠ .m) : s.fetch = .stop (s.trapMe 1 s.me.pc) := by
  have unreached : s.fetchHalf s.cur s.me.pc = .fault 1 s.me.pc := by
    have unresolved : s.resolveRange s.cur s.me.pc.toNat 2 = none := by
      rw [State.resolveRange, State.rangeAt, State.resolveAt_routes ha hr (l := (s.thread s.cur).level) hl]
    rw [State.fetchHalf, unresolved]
  simp only [State.fetch, hb, State.fetchHalves, unreached]
  rfl

/-! ## Whether a trap of the current thread has been noted (R318) -/

theorem State.noteIssue_trapped (s : State) (h : Hart) (t : Thread) : (s.noteIssue h t).trapped = s.trapped := by
  unfold State.noteIssue
  split
  · rfl
  · dsimp only
    split <;> rfl

theorem State.trap_trapped {s : State} (hk : kindOf s.cur.core ≠ .compute) (c : Nat) (v : Word) : (s.trap s.cur c v).trapped = true := by
  rw [State.trap_eq]
  rcases State.takeTrap_cases (s.noting s.cur) s.cur c v 0 with ⟨u, e, -⟩ | ⟨compute, -⟩
  · rw [e, State.setThread_trapped]
    exact (congrArg (s.trapped || ·) (decide_eq_true rfl)).trans (Bool.or_true _)
  · exact absurd compute hk

/-! ## A ready thread whose fetch ends in a trap -/

/-- The machine of a turn, after the step's tick. -/
def State.ticked (s : State) : State := { s with ticks := s.ticks + 1, split := false }

/-- The machine in which the current thread's next instruction is fetched. -/
def State.going (s : State) : State := ({ s with trapped := false }).setMe { s.me with status := .run }

theorem step_stop {s : State} {r : Result} (ha : s.agenda = []) (hl : s.ticked.logAllows s.cur = true) (hr : s.ticked.me.status.ready = true)
    (hf : s.ticked.going.fetch = .stop r) : step s = logged s.ticked (s.ticked.atBoundary r) := by
  have e : step s = issue s.ticked := by rw [step, turn, ha]; exact congrArg issue (by rw [State.ticked, ← ha])
  have allowed : ¬ (!s.ticked.logAllows s.ticked.cur) = true := by rw [show s.ticked.cur = s.cur from rfl, hl]; decide
  rw [e, issue, if_neg allowed, if_pos hr]
  dsimp only [State.going] at hf
  simp only [hf]

theorem State.atBoundary_none {s : State} {r : Result} (hh : s.haltsHere s.cur = false) (hb : s.boundary s.cur = none) : s.atBoundary r = r := by
  rw [State.atBoundary, if_neg (by simp [hh]), hb]

theorem exec_vmov16_trapped (k : Bool) (d b : Fin 32) (s : State) : ∃ t, exec (.vmov16 k d b) s = .next t ∧ t.trapped = s.trapped :=
  ⟨_, rfl, rfl⟩

/-- A turn that traps ends as one that executes VMOV16 only where a trap stood noted before it. -/
theorem trapped_of_trap_eq_vmov16 {s t y : State} (hk : kindOf s.cur.core ≠ .compute) {c : Nat} {v : Word} {k : Bool} {d b : Fin 32}
    (h : logged t (s.trapMe c v) = logged t (exec (.vmov16 k d b) y)) : y.trapped = true := by
  obtain ⟨u, hu, kept⟩ := exec_vmov16_trapped k d b y
  rw [hu] at h
  have e : (s.trap s.cur c v).noteIssue t.cur t.me = u.noteIssue t.cur t.me := Host.Outcome.next.inj h
  calc y.trapped = u.trapped := kept.symm
    _ = (u.noteIssue t.cur t.me).trapped := (State.noteIssue_trapped u _ _).symm
    _ = (s.trap s.cur c v).trapped := by rw [← e, State.noteIssue_trapped]
    _ = true := State.trap_trapped hk c v

/-! ## The counterexample -/

/-- Thread 0 of hub core 6 at S, about to execute at the routing table's first byte. -/
def routed : Thread := { Thread.init .s with pc := BitVec.ofNat 64 routeBase, status := .run }

/-- Hub core 6, whose own SRAM holds the halfword 0x003C at the routing table's first byte: VMOV16 of v0 to v0. -/
def routesCore : Core := { Core.init with threads := [(0, routed)], sram := { Sram.init with cells := [(routeBase, 0x3C)] } }

/-- The machine after bring-up, but for that core, whose turn it is. -/
def routesState : State := { State.reset with cur := ⟨hubCore 6, 0⟩, cores := [(hubCore 6, routesCore)] }

theorem pc_routed : routed.pc.toNat = routeBase := by
  have := routeBase_lt
  exact Nat.mod_eq_of_lt (by omega)

theorem readFor_routesCore : routesCore.sram.readFor 0 routeBase 1 = 0x3C ∧ routesCore.sram.readFor 0 (routeBase + 1) 1 = 0 := by
  constructor <;> simp [Sram.readFor, Sram.ownerOf, routesCore, Sram.init, readLe, Tab.get]

theorem pmpOk_routesState (a : Nat) : routesState.pmpOk routesState.cur a 2 .fetch = true := by
  have level : (routesState.thread routesState.cur).level = .s := rfl
  have hub : kindOf routesState.cur.core = .hub := by decide
  have cfg : (routesState.core routesState.cur.core).pmpcfg = Vector.replicate 16 0 := rfl
  have unmatched : (List.range 16).find? (fun _ => false) = none := rfl
  simp [State.pmpOk, State.pmpAt, level, hub, cfg, bits, unmatched]

/-- Refutes O57: after its turn, the thread has taken the trap of its fetch, which the step notes; VMOV16, which stands in its core's SRAM where it
fetches, takes none. -/
theorem not_stepRunsDecoded : ¬ Obligations.StepRunsDecoded := by
  unfold Obligations.StepRunsDecoded
  intro h
  have claim := (h routesState routesState (.vmov16 false 0 0) routeBase ⟨0, 0⟩ [] false).1 (.inl ⟨rfl, .inl ⟨rfl, rfl⟩⟩)
  have run := (claim.2 rfl).1 rfl
  have below := routeBase_lt
  have fetch : routesState.ticked.going.fetch = .stop (routesState.ticked.going.trapMe 1 routed.pc) :=
    State.fetch_routes (s := routesState.ticked.going) rfl (by change routed.pc.toNat < _; rw [pc_routed]; omega)
      (by change inRoutes (hubCore 6) routed.pc.toNat = true; rw [pc_routed]; simp [inRoutes]) (by decide)
  have quiet : ∀ r, routesState.ticked.going.atBoundary r = r := fun r => State.atBoundary_none rfl rfl
  have stopped : step routesState = logged routesState.ticked (routesState.ticked.going.trapMe 1 routed.pc) := by
    rw [step_stop (s := routesState) rfl rfl rfl fetch, State.atBoundary_none rfl rfl]
  have ran := stopped.symm.trans ((run ⟨rfl, rfl, by decide, rfl, ?room, ?bytes⟩).trans (congrArg (logged routesState.ticked) (quiet _)))
  case room =>
    change routeBase + 2 ≤ 0x1C0000
    omega
  case bytes =>
    intro j hj
    refine ⟨List.not_mem_nil, List.not_mem_nil, rfl, fun _ => pmpOk_routesState _, fun r hr => absurd hr List.not_mem_nil, ?_⟩
    have hj' : j < 2 := hj
    obtain ⟨first, second⟩ := readFor_routesCore
    interval_cases j
    · exact first
    · exact second
  have noted := trapped_of_trap_eq_vmov16 (s := routesState.ticked.going) (by decide) ran
  exact Bool.false_ne_true (((State.bill_trapped _ _ _).trans rfl).symm.trans noted)

end Sys2Proof.Machine
end

section
/-! SUPPORT. The domain that a node leaves when it ends (R36, R50, R54, R196): O20. -/

namespace Sys2Proof.Machine

/-! ## The domains after the end of a node -/

theorem State.domains_wakeReaders (s : State) (d : Domain) : (s.wakeReaders d).domains = s.domains := by
  unfold State.wakeReaders
  refine foldl_kept _ State.domains (fun r m => ?_) _ _
  dsimp only
  split <;> rfl

theorem State.domains_settleEnergy (s : State) (ctx : Nat) : (s.settleEnergy ctx).domains = s.domains := by
  unfold State.settleEnergy
  split <;> rfl

theorem State.domains_finishGroup (s : State) (h : Hart) : (s.finishGroup h).domains = s.domains := by
  unfold State.finishGroup
  dsimp only
  split
  · rfl
  · split
    · exact State.domains_settleEnergy _ _
    · rfl

/-- The end of a node changes the domains only in that the thread leaves its own. -/
theorem State.domains_endNode (s : State) (h : Hart) : (s.endNode h).domains = (s.leaveDomain h).domains :=
  State.domains_finishGroup _ _

/-- R54: the domain of a member that exits. -/
def Domain.left (d : Domain) (i next : Nat) : Domain :=
  ({ d with members := d.members.modify i (fun m => { m with exited := true, left := next }) }).leaveAll i

theorem State.domains_leaveDomain {s : State} {h : Hart} {n i : Nat} {d : Domain} (hd : s.myDomain h = some (n, i, d)) :
    (s.leaveDomain h).domains = (s.putDomain n (d.left i s.nextId)).domains := by
  simp only [State.leaveDomain, hd, State.domains_wakeReaders, Domain.left]

/-- A domain under a key past the sixteen numbers stays there while it is not closed: with a send left, it is not. -/
theorem State.find?_putDomain_past {n : Nat} {d : Domain} (hn : 16 ≤ n) (hs : d.sends ≠ []) (s : State) :
    Tab.find? (s.putDomain n d).domains n = some d := by
  have opened : d.closed = false := by simp [Domain.closed, hs]
  have past : (d.closing && decide (n < 16)) = false := by simp [Nat.not_lt.mpr hn]
  simp only [State.putDomain, opened, past, Bool.false_eq_true, if_false, State.setDomain, Tab.find?_set_same]

/-- R196: NEXIT once the thread's commands have completed. -/
theorem exec_nexit_ends {s : State} (hdrain : isDrain s.cur = false) (hspill : isSpill s.cur = false) (hf : s.me.deferred = none)
    (hb : s.myCore.busyFor s.cur = false) (k : Bool) : exec (.nexit k) s = .next (s.endNode s.cur) := by
  change execNexit s = _
  simp only [execNexit, State.takeDeferred, hdrain, hspill, hf, hb, Bool.false_eq_true, if_false]

/-! ## The counterexample -/

/-- A domain of one member, with a send of it that has not begun. -/
def sendLeft : Domain where
  gid := 1
  strict := false
  exch := true
  members := [⟨⟨0, 0⟩, 0, none, false, false, 0, [3]⟩]
  sigs := []
  plan := [⟨0, 3, 1, 0, false, 0⟩]
  instant := 0
  slot := 0
  started := 0
  reactEnded := true
  record := []
  sends := [⟨⟨0, 3, 1, 0, false, 0⟩, 0, ⟨0, 0⟩, 0, 4⟩]
  flying := []
  declared := false
  stopped := false

/-- The machine after bring-up, but that thread 0 of core 0 is the member of that domain, which stands under key 16. -/
def pastSixteen : State :=
  { State.reset with
    cores := [(0, { Core.init with threads := [(0, { Thread.init .u with status := .run, member := some (16, 0) })] })]
    domains := [(16, sendLeft)] }

theorem myDomain_pastSixteen : pastSixteen.myDomain pastSixteen.cur = some (16, 0, sendLeft) := by decide +kernel

/-- Refutes O20: a domain whose last member exits without beats on their way is to be gone from its key, but the model closes it only once no send
of it is left either, and frees only the sixteen numbers. The domain under key 16, with a send left, stays there. -/
theorem not_nodeExit : ¬ Obligations.NodeExit := by
  unfold Obligations.NodeExit
  intro h
  have free : isDrain pastSixteen.cur = false ∧ isSpill pastSixteen.cur = false ∧ pastSixteen.me.deferred = none ∧
      pastSixteen.myCore.busyFor pastSixteen.cur = false := by decide +kernel
  obtain ⟨hdrain, hspill, hf, hb⟩ := free
  obtain ⟨t, run, -, -, -, -, -, inDomain, -⟩ := (h pastSixteen false hdrain hspill hf).2 hb
  obtain ⟨-, -, gone, -⟩ := inDomain 16 0 sendLeft myDomain_pastSixteen
  have ended : t = pastSixteen.endNode pastSixteen.cur := by
    rw [exec_nexit_ends hdrain hspill hf hb] at run
    cases run
    rfl
  have kept : Tab.find? t.domains 16 = some (sendLeft.left 0 pastSixteen.nextId) := by
    rw [ended, State.domains_endNode, State.domains_leaveDomain myDomain_pastSixteen]
    exact State.find?_putDomain_past (by decide) (by decide) _
  exact absurd ((gone rfl (by decide)).symm.trans kept) (by simp)

end Sys2Proof.Machine
end

section
/-! SUPPORT. How a member reads the signals of its domain (R41, R272): O22. -/

namespace Sys2Proof.Machine

/-- R41: a value is read once the signal is settled. -/
theorem Sig.resolved_value (g : Sig) : g.resolved true = decide (g.out = []) := rfl

/-- R41: a status is read once it is known. -/
theorem Sig.resolved_status (g : Sig) : g.resolved false = decide (g.status ≠ .unknown) := rfl

section Reads

variable {s : State} {n i : Nat} {d : Domain} {g : Sig} {a : Opnd} (hd : s.myDomain s.cur = some (n, i, d))
  (hg : d.sigs[(s.me.opX a).toNat]? = some g)
include hd hg

theorem State.withSig_eq (f : Nat → Nat → Domain → Nat → Sig → Result) : s.withSig (s.me.opX a) f = f n i d (s.me.opX a).toNat g := by
  simp only [State.withSig, hd, hg]

theorem State.readSig_resolved {val : Bool} (hr : g.resolved val = true) (f : Sig → Result) : s.readSig (s.me.opX a) val f = f g :=
  (State.withSig_eq hd hg _).trans (if_pos hr)

theorem State.readSig_blocks {val : Bool} (hr : g.resolved val = false) (hdrain : isDrain s.cur = false) (f : Sig → Result) :
    s.readSig (s.me.opX a) val f = s.block (.signal (s.me.opX a).toNat val) := by
  refine (State.withSig_eq hd hg _).trans ?_
  simp only [hr, hdrain, Bool.false_eq_true, if_false]

theorem exec_sigTest (k : Bool) (r : Fin 32) : exec (.sigTest k r a) s =
    .next (s.retire (s.me.setX r (BitVec.ofNat 64 (sigCode g.status + 4 * g.prev.toNat))) (len1 a)) := by
  change execSigTest r a s = _
  rw [execSigTest, State.withSig_eq hd hg]

theorem exec_sigVal_settled (ho : g.out = []) (k : Bool) (r : Fin 32) : exec (.sigVal k r a) s =
    .next (s.retire (s.me.setX r (if g.status = .absent then 0 else g.value)) (len1 a)) :=
  State.readSig_resolved hd hg (g.resolved_value.trans (decide_eq_true ho)) _

theorem exec_sigVal_blocks (ho : g.out ≠ []) (hdrain : isDrain s.cur = false) (k : Bool) (r : Fin 32) :
    exec (.sigVal k r a) s = s.block (.signal (s.me.opX a).toNat true) :=
  State.readSig_blocks hd hg (g.resolved_value.trans (decide_eq_false ho)) hdrain _

/-! ### A branch on a status -/

variable {b : Opnd} {want : SigStatus}

theorem State.sigBranch_blocks (hu : g.status = .unknown) (hdrain : isDrain s.cur = false) :
    s.sigBranch a b want = s.block (.signal (s.me.opX a).toNat false) :=
  State.readSig_blocks hd hg (g.resolved_status.trans (decide_eq_false (not_not.mpr hu))) hdrain _

theorem State.sigBranch_known (hu : g.status ≠ .unknown) : s.sigBranch a b want =
    if g.status = want then if bit (s.me.pc + s.me.opX b) 0 then s.trapMe 0 (s.me.pc + s.me.opX b) else .next (s.setMe (s.me.jump (s.me.pc + s.me.opX b)))
    else .next (s.retire s.me (len2 a b)) :=
  State.readSig_resolved hd hg (g.resolved_status.trans (decide_eq_true hu)) _

end Reads

/-- The two branches on the status of a signal. -/
theorem exec_statusBranch {i : Instr} {k : Bool} {a b : Opnd} {want : SigStatus}
    (h : (i, want) ∈ [(Instr.bpres k a b, SigStatus.present), (Instr.babs k a b, SigStatus.absent)]) (s : State) :
    exec i s = s.sigBranch a b want ∧ want ≠ .unknown := by
  simp only [List.mem_cons, List.not_mem_nil, or_false, Prod.mk.injEq] at h
  rcases h with ⟨rfl, rfl⟩ | ⟨rfl, rfl⟩ <;> exact ⟨rfl, by decide⟩

/-- Table 15.13: the code of a status beside the bit of the last instant. -/
theorem sigCode_prev (g : Sig) : sigCode g.status + 4 * g.prev.toNat =
    (match g.status with | .unknown => 0 | .present => 1 | .absent => 2) + if g.prev then 4 else 0 := by
  cases g.status <;> cases g.prev <;> rfl

/-- Settles O22: a signal that is resolved for the read is read; another blocks its reader, which is not a drain thread. -/
theorem signalsAreRead : Obligations.SignalsAreRead := by
  unfold Obligations.SignalsAreRead
  intro s k r a b n i d g hd x target hg
  refine ⟨?test, fun ho => ⟨_, exec_sigVal_settled hd hg ho k r, WritesX.retire0 _ _ _ _⟩, fun ho hdrain => ?unsettled, fun i want hi => ?branch⟩
  case test =>
    refine ⟨_, exec_sigTest hd hg k r, ?_⟩
    rw [sigCode_prev]
    exact WritesX.retire0 _ _ _ _
  case unsettled =>
    rw [exec_sigVal_blocks hd hg ho hdrain]
    exact Waits.block _ _
  case branch =>
    obtain ⟨run, known⟩ := exec_statusBranch hi s
    have taken (hw : g.status = want) := State.sigBranch_known (b := b) (want := want) hd hg (hw ▸ known)
    refine ⟨fun hu hdrain => ?_, fun hw even => ⟨_, ?_, JumpsTo.jump s target⟩, fun hw odd => ?_, fun hu hw =>
      ⟨_, ?_, Passes.retire s _⟩⟩ <;> rw [run]
    · rw [State.sigBranch_blocks hd hg hu hdrain]
      exact Waits.block _ _
    · rw [taken hw, if_pos hw, bit, even, if_neg Bool.false_ne_true]
    · rw [taken hw, if_pos hw, bit, odd, if_pos rfl]
    · rw [State.sigBranch_known hd hg hu, if_neg hw]

end Sys2Proof.Machine
end

section
/-! SUPPORT. The exchange half of a domain as its members see it (R48, R278 to R280): O24. -/

namespace Sys2Proof.Machine

/-- The list with the entry at a place changed. -/
theorem modify_eq_set_of_getElem? {α : Type} {l : List α} {i : Nat} {x : α} (h : l[i]? = some x) (f : α → α) : l.modify i f = l.set i (f x) := by
  obtain ⟨hi, rfl⟩ := List.getElem?_eq_some_iff.mp h
  exact List.modify_eq_set_get f hi

section Exchange

variable {s : State} {n i : Nat} {d : Domain} (hd : s.myDomain s.cur = some (n, i, d))
include hd

theorem exec_xslot (k : Bool) (r : Fin 32) : ∃ t, exec (.xslot k r) s = .next t ∧
    WritesX s t r (if d.exch = true ∧ d.plan ≠ [] then BitVec.ofNat 64 d.slot else 0) 0 4 := by
  refine ⟨_, ?_, WritesX.retire0 s r _ 4⟩
  change execXslot r s = _
  simp [execXslot, hd]

variable (hdrain : isDrain s.cur = false)
include hdrain

theorem exec_xend_react (hh : s.me.user.h = false) (he : d.exch = false) (k : Bool) : exec (.xend k) s = s.sigMisuse 5 0 := by
  change execXend s = _
  simp [execXend, hd, hdrain, hh, he]

theorem exec_xend_waits {m : Member} (hm : d.members[i]? = some m) (hh : s.me.user.h = false) (he : d.exch = true)
    (quiet : s.outstandingIn s.cur .sys = false) (k : Bool) :
    exec (.xend k) s = (s.setDomain n { d with members := d.members.set i { m with ended := true } }).block .xend := by
  change execXend s = _
  simp [execXend, hd, hdrain, hh, he, quiet, modify_eq_set_of_getElem? hm]

variable {a b : Opnd} (k : Bool)

theorem exec_xsendAt_react (he : d.exch = false) : exec (.xsendAt k a b) s = s.sigMisuse 5 0 := by
  change execXsendAt a b s = _
  simp [execXsendAt, hd, hdrain, he]

variable (he : d.exch = true)
include he

theorem exec_xsendAt_missing
    (hp : d.plan.find? (fun e => decide (e.sender = i) && decide (e.slot = (s.me.opX a).toNat)) = none) :
    exec (.xsendAt k a b) s = s.trapMe 31 (BitVec.ofNat 64 (bits (s.me.opX a) 0 16)) := by
  change execXsendAt a b s = _
  simp only [execXsendAt, hd, hdrain, he, hp, Bool.false_eq_true, Bool.not_true, if_false]

variable {e : PlanEntry} {m : Member} (hm : d.members[i]? = some m)
  (hp : d.plan.find? (fun e => decide (e.sender = i) && decide (e.slot = (s.me.opX a).toNat)) = some e)
include hm hp

theorem exec_xsendAt_repeated (hs : e.slot ∈ m.sent) :
    exec (.xsendAt k a b) s = s.trapMe 31 (BitVec.ofNat 64 (bits (s.me.opX a) 0 16)) := by
  change execXsendAt a b s = _
  simp only [execXsendAt, hd, hdrain, he, hp, hm, hs, Bool.false_eq_true, Bool.not_true, if_false, if_true, Option.map_some, Option.getD_some]

theorem exec_xsendAt_passed (hs : e.slot ∉ m.sent) (hl : e.slot < d.slot) :
    exec (.xsendAt k a b) s = s.trapMe 30 (BitVec.ofNat 64 (bits (s.me.opX a) 0 16)) := by
  change execXsendAt a b s = _
  simp only [execXsendAt, hd, hdrain, he, hp, hm, hs, hl, Bool.false_eq_true, Bool.not_true, if_false, if_true, Option.map_some, Option.getD_some]

theorem exec_xsendAt_waits (hs : e.slot ∉ m.sent) (hl : d.slot ≤ e.slot) {off : Nat}
    (hr : s.resolveRange s.cur (s.me.opX b).toNat (64 * e.beats) = some (.sram (.core s.cur.core) off)) (ho : off + 64 * e.beats ≤ 0x1B0000)
    (ha : (s.me.opX b).toNat % 64 = 0) :
    exec (.xsendAt k a b) s = (s.setDomain n { d with
      members := d.members.set i { m with sent := e.slot :: m.sent }
      sends := d.sends ++ [⟨e, off, s.cur, 0, len2 a b⟩] }).block .xsend := by
  change execXsendAt a b s = _
  simp only [execXsendAt, hd, hdrain, he, hp, hm, hs, hr, ha, if_neg (Nat.not_lt.mpr hl), if_neg (Nat.not_lt.mpr ho), false_or,
    Bool.false_eq_true, Bool.not_true, ne_eq, not_true_eq_false, if_false, Option.map_some, Option.getD_some, modify_eq_set_of_getElem? hm]

end Exchange

/-- Settles O24: each answer is a branch of R278's checks, in their order; a send or an end that passes them changes its domain and waits. -/
theorem exchangeHalf : Obligations.ExchangeHalf := by
  unfold Obligations.ExchangeHalf
  intro s k r a b n i d m hd hm hdrain x src slot
  refine ⟨exec_xsendAt_react hd hdrain k, fun he => ⟨fun e off hp hs hl hr ho ha => ?send, exec_xsendAt_missing hd hdrain k he, fun e hp => ?trap⟩,
    fun he hh quiet => ?ended, fun he hh => exec_xend_react hd hdrain hh he k, exec_xslot hd k r⟩
  case send =>
    rw [exec_xsendAt_waits hd hdrain k he hm hp hs hl hr ho ha]
    exact Waits.block _ _
  case trap =>
    exact ⟨exec_xsendAt_repeated hd hdrain k he hm hp, exec_xsendAt_passed hd hdrain k he hm hp⟩
  case ended =>
    rw [exec_xend_waits hd hdrain hm hh he quiet]
    exact Waits.block _ _

end Sys2Proof.Machine
end

section
/-! SUPPORT. What the turns of a domain do to its members' threads, to the memories and to the domain itself (R42 to R51): O49. -/

namespace Sys2Proof.Machine

/-! ## Updates that leave the memories alone -/

theorem SameMemory.refl (s : State) : SameMemory s s := ⟨⟨fun _ _ => rfl, fun _ _ => rfl, fun _ _ => rfl⟩, rfl⟩

theorem SameMemory.setDomain (s : State) (n : Nat) (d : Domain) : SameMemory s (s.setDomain n d) :=
  ⟨⟨fun _ _ => rfl, fun _ _ => rfl, fun _ _ => rfl⟩, rfl⟩

/-- A domain that is put back or closed changes the domains alone. -/
theorem State.putDomain_eq (s : State) (n : Nat) (d : Domain) : s.putDomain n d = { s with domains := (s.putDomain n d).domains } := by
  unfold State.putDomain
  split
  · rfl
  · split <;> rfl

theorem State.sram_putDomain (s : State) (n : Nat) (d : Domain) (p : Place) : (s.putDomain n d).sram p = s.sram p := by
  rw [s.putDomain_eq]
  cases p <;> rfl

theorem State.thread_putDomain (s : State) (n : Nat) (d : Domain) (h : Hart) : (s.putDomain n d).thread h = s.thread h := by
  rw [s.putDomain_eq]
  rfl

/-- R36, R50: what stands under a domain's own number after it has been put back is that domain. -/
theorem State.eq_of_find?_putDomain {s : State} {n : Nat} {d d' : Domain} (h : Tab.find? (s.putDomain n d).domains n = some d') : d' = d := by
  unfold State.putDomain at h
  split at h
  · rw [Tab.find?_del_same] at h
    cases h
  · split at h
    · next closing =>
      have low : n < 16 := of_decide_eq_true (Bool.and_eq_true_iff.mp closing).2
      rw [Tab.find?_set_other _ _ _ _ (by omega), Tab.find?_del_same] at h
      cases h
    · rw [State.setDomain, Tab.find?_set_same] at h
      exact (Option.some.inj h).symm

/-! ## Members whose threads differ -/

/-- A fold over members of different threads, each of whose steps changes its member's thread alone, as u says, and keeps i: each member's thread
ends as u says of it. -/
theorem thread_foldl_apart {f : State → Member → State} {u : Member → Thread} {i : State → Prop} {l : List Member} {s : State}
    (step : ∀ r, ∀ m ∈ l, i r → r.thread m.hart = s.thread m.hart →
      i (f r m) ∧ (f r m).thread m.hart = u m ∧ ∀ h, h ≠ m.hart → (f r m).thread h = r.thread h)
    (apart : l.Pairwise (fun x y => x.hart ≠ y.hart)) (start : State) (hi : i start) (same : ∀ m ∈ l, start.thread m.hart = s.thread m.hart) :
    (∀ m ∈ l, (l.foldl f start).thread m.hart = u m) ∧ ∀ h, (∀ m ∈ l, m.hart ≠ h) → (l.foldl f start).thread h = start.thread h := by
  induction l generalizing start with
  | nil => exact ⟨fun m hm => absurd hm List.not_mem_nil, fun h _ => rfl⟩
  | cons m l ih =>
    obtain ⟨apartHead, apartTail⟩ := List.pairwise_cons.mp apart
    obtain ⟨kept, own, others⟩ := step start m List.mem_cons_self hi (same m List.mem_cons_self)
    obtain ⟨inTail, outside⟩ := ih (fun r x hx => step r x (List.mem_cons_of_mem _ hx)) apartTail (f start m) kept fun x hx =>
      (others _ (apartHead x hx).symm).trans (same x (List.mem_cons_of_mem _ hx))
    refine ⟨fun x hx => ?_, fun h hh => ?_⟩
    · rcases List.mem_cons.mp hx with rfl | hx
      · exact (outside _ fun y hy => (apartHead y hy).symm).trans own
      · exact inTail x hx
    · exact (outside h fun x hx => hh x (List.mem_cons_of_mem _ hx)).trans (others h (hh m List.mem_cons_self).symm)

/-! ## A blocked instruction that completes -/

/-- A thread whose instruction of len bytes completes, if it waits in it. -/
def Thread.completed (t : Thread) (wait : Status) (len : Nat) : Thread := if t.status = wait then { t.advance len with status := .run } else t

theorem State.complete_cases (s : State) (h : Hart) (wait : Status) (len : Nat) :
    s.complete h wait len = s ∨ ∃ t, s.complete h wait len = s.setThread h t := by
  unfold State.complete
  dsimp only
  split
  · exact .inr ⟨_, rfl⟩
  · exact .inl rfl

theorem State.thread_complete_same (s : State) (h : Hart) (wait : Status) (len : Nat) :
    (s.complete h wait len).thread h = (s.thread h).completed wait len := by
  unfold State.complete Thread.completed
  dsimp only
  split
  · exact State.thread_setThread_same _ _ _
  · rfl

theorem State.thread_complete_other (s : State) (h : Hart) (wait : Status) (len : Nat) (g : Hart) (hg : g ≠ h) :
    (s.complete h wait len).thread g = s.thread g := by
  rcases s.complete_cases h wait len with e | ⟨t, e⟩ <;> rw [e]
  exact State.thread_setThread_other _ _ _ _ hg

/-- What no update of a thread changes, a completion leaves as it was. -/
theorem State.complete_kept {α : Type} (f : State → α) (hf : ∀ r h t, f (State.setThread r h t) = f r) (s : State) (h : Hart) (wait : Status)
    (len : Nat) : f (s.complete h wait len) = f s := by
  rcases s.complete_cases h wait len with e | ⟨t, e⟩ <;> rw [e]
  exact hf _ _ _

theorem SameMemory.complete (s : State) (h : Hart) (wait : Status) (len : Nat) : SameMemory s (s.complete h wait len) := by
  rcases s.complete_cases h wait len with e | ⟨t, e⟩ <;> rw [e]
  · exact SameMemory.refl s
  · exact SameMemory.setThread s h t

theorem Thread.completed_waiting {t : Thread} {wait : Status} (h : t.status = wait) (len : Nat) :
    (t.completed wait len).status = .run ∧ t.Passed (t.completed wait len) len := by
  rw [Thread.completed, if_pos h]
  have p := Thread.Passed.advance t t len rfl rfl rfl rfl rfl
  exact ⟨rfl, p.retired, p.plain, p.inBody, p.again, p.last⟩

theorem Thread.dcur_completed (t : Thread) (wait : Status) (len : Nat) : (t.completed wait len).dcur = t.dcur := by
  unfold Thread.completed
  split
  · exact Thread.advance_dcur t len
  · rfl

/-! ## Causality cycles (R42 to R44) -/

section Cycle

variable {s : State} {n : Nat} {d : Domain}

/-- R43: UVAL of cause 29: the signal that the member is blocked on, and how it reads it. -/
def cycleValue (k : Nat) (val : Bool) : Word := BitVec.ofNat 64 (k % 256 + 256 * val.toNat)

/-- R42, R43: what the declaration of a cycle does to one member: the trap of its blocked read, taken at its level or reported. -/
def State.cycleStep (s : State) (d : Domain) (reported : Bool) (r : State) (m : Member) : State :=
  match s.blockedOn d m with
  | none => r
  | some (k, val) => if reported then r.forward m.hart 29 (cycleValue k val) 0 true else r.trap m.hart 29 (cycleValue k val)

theorem exec_causalityCycle_due (hd : Tab.find? s.domains n = some d) (due : s.cycleDue d = true) : exec (.causalityCycle n) s =
    .next (d.live.foldl (s.cycleStep d (d.declared || !d.live.all s.takesCycle)) (s.setDomain n { d with declared := true })) := by
  change execCausalityCycle n s = _
  simp only [execCausalityCycle, hd, due, Bool.not_true, Bool.false_eq_true, if_false]
  rfl

theorem exec_causalityCycle_not (hd : Tab.find? s.domains n = some d) (due : s.cycleDue d = false) : exec (.causalityCycle n) s = .next s := by
  change execCausalityCycle n s = _
  simp only [execCausalityCycle, hd, due, Bool.not_false, if_true]

theorem State.domains_report (s : State) (r : Report) : (s.report r).domains = s.domains := by
  obtain ⟨dram, q, k, l, e⟩ := (s.stopEvent r).post_eq (s.hubOf r.grid) r
  rw [State.report, e, s.stopEvent_eq]
  rfl

theorem State.domains_forward (s : State) (h : Hart) (c : Nat) (v : Word) (info : BitVec 14) (nest : Bool) :
    (s.forward h c v info nest).domains = s.domains := s.domains_report _

theorem State.domains_withUtag (s : State) (h : Hart) (c : Nat) (info : BitVec 14) : (s.withUtag h c info).domains = s.domains := by
  unfold State.withUtag
  split <;> rfl

theorem State.domains_trap (s : State) (h : Hart) (c : Nat) (v : Word) (info : BitVec 14) : (s.trap h c v info).domains = s.domains := by
  rw [State.trap_eq]
  let s0 := s.noting h
  change (s0.takeTrap h c v info).domains = s0.domains
  by_cases hu : (s0.thread h).level = .u ∧ delegated s0 h c = true ∧ forced h c info = false
  · by_cases hh : (s0.thread h).user.h = false ∧ (s0.thread h).user.utvec ≠ 0
    · rw [s0.takeTrap_atU h c v info hu hh]
      rfl
    · rw [s0.takeTrap_nested h c v info hu hh]
      split
      · exact (State.domains_forward _ _ _ _ _ _).trans (s0.domains_withUtag h c info)
      · split <;> rfl
  · obtain ⟨nest, hn⟩ : ∃ nest : Bool, nest = true ↔ (s0.thread h).level = .u ∧ forced h c info = true := ⟨decide _, decide_eq_true_iff⟩
    rw [s0.takeTrap_up h c v info hu hn]
    split
    · exact State.domains_forward _ _ _ _ _ _
    · split <;> rfl

theorem State.domains_cycleStep (s : State) (d : Domain) (reported : Bool) (r : State) (m : Member) :
    (s.cycleStep d reported r m).domains = r.domains := by
  unfold State.cycleStep
  split
  · rfl
  · split
    · exact r.domains_forward _ _ _ _ _
    · exact r.domains_trap _ _ _ _

/-- R43: a member that takes cause 29 at U enters its handler, whatever has become of the threads of other members. -/
theorem State.trap_cycle {r : State} {m : Member} (takes : s.takesCycle m = true) (user : isUserThread m.hart = true)
    (same : r.thread m.hart = s.thread m.hart) (deleg : ∀ c, (r.core c).mudeleg = (s.core c).mudeleg) (v : Word) :
    r.trap m.hart 29 v = (r.noting m.hart).setThread m.hart ((s.thread m.hart).enterUser (s.thread m.hart).pc 29 v) := by
  simp only [State.takesCycle, Bool.and_eq_true, decide_eq_true_eq, Bool.not_eq_true'] at takes
  obtain ⟨⟨⟨level, delegatedThere⟩, handler⟩, vector⟩ := takes
  have here : (r.noting m.hart).thread m.hart = s.thread m.hart := same
  have delegatedHere : delegated (r.noting m.hart) m.hart 29 = true := by
    rw [← delegatedThere]
    unfold delegated
    rw [here, show ((r.noting m.hart).core m.hart.core).mudeleg = _ from deleg _]
  have unforced : forced m.hart 29 0 = false := by simp [forced, user]
  rw [State.trap_eq, State.takeTrap_atU _ _ _ _ _ ⟨by rw [here]; exact level, delegatedHere, unforced⟩ (by rw [here]; exact ⟨handler, vector⟩), here]
  rfl

theorem State.mudeleg_setThread (s : State) (h : Hart) (t : Thread) (c : Nat) : ((s.setThread h t).core c).mudeleg = (s.core c).mudeleg :=
  State.core_setThread_kept Core.mudeleg (fun _ _ => rfl) s h t c

/-- R43: where every member can take it, cause 29 enters the handler of each. -/
theorem thread_cycle (takes : d.live.all s.takesCycle = true) (user : ∀ m ∈ d.live, isUserThread m.hart = true)
    (apart : d.live.Pairwise (fun x y => x.hart ≠ y.hart)) {m : Member} (hm : m ∈ d.live) {k : Nat} {val : Bool} (hk : s.blockedOn d m = some (k, val)) :
    ((d.live.foldl (s.cycleStep d false) (s.setDomain n { d with declared := true })).thread m.hart) =
      (s.thread m.hart).enterUser (s.thread m.hart).pc 29 (cycleValue k val) := by
  let enters (m : Member) (q : Nat × Bool) : Thread := (s.thread m.hart).enterUser (s.thread m.hart).pc 29 (cycleValue q.1 q.2)
  refine ((thread_foldl_apart (u := fun m => (s.blockedOn d m).elim (s.thread m.hart) (enters m))
    (i := fun r => ∀ c, (r.core c).mudeleg = (s.core c).mudeleg) (fun r m hm deleg same => ?_) apart
    (s.setDomain n { d with declared := true }) (fun _ => rfl) (fun _ _ => rfl)).1 m hm).trans ?_
  · unfold State.cycleStep
    cases s.blockedOn d m with
    | none => exact ⟨deleg, same, fun _ _ => rfl⟩
    | some q =>
      obtain ⟨k, val⟩ := q
      have entered := State.trap_cycle (List.all_eq_true.mp takes m hm) (user m hm) same deleg (cycleValue k val)
      simp only [Bool.false_eq_true, if_false, entered]
      exact ⟨fun c => (State.mudeleg_setThread _ _ _ c).trans (deleg c), State.thread_setThread_same _ _ _,
        fun h hh => State.thread_setThread_other _ _ _ _ hh⟩
  · rw [hk]
    rfl

end Cycle

/-! ## The ends of the halves (R45, R46, R51) -/

section Halves

variable {s : State} {n : Nat} {d : Domain}

/-- R396: a record changes its context's log and the ring's place in DRAM; without an armed context nothing. -/
theorem State.logRecord_eq (s : State) (d : Domain) (l : List Word) : s.logRecord d l =
    { s with ctxs := (s.logRecord d l).ctxs, dram := (s.logRecord d l).dram } := by
  have ring : ∀ o x a k v, s.ringWrite o x a k v = { s with dram := (s.ringWrite o x a k v).dram } := by
    intro o x a k v
    unfold State.ringWrite
    split <;> rfl
  unfold State.logRecord
  split
  · rfl
  · split
    · rfl
    · dsimp only
      split
      · rfl
      · rw [ring]

theorem State.logRecord_unarmed (s : State) (d : Domain) (l : List Word)
    (unarmed : ∀ g, Tab.find? s.grids d.gid = some g → ∀ c, Tab.find? s.ctxs g.ctx = some c → c.dbg.armed = none) : s.logRecord d l = s := by
  unfold State.logRecord
  split
  · rfl
  · next g hg =>
    split
    · rfl
    · next c hc => simp [unarmed g hg c hc]

theorem exec_reactHalfEnd (hd : Tab.find? s.domains n = some d) (he : d.exch = false) (hr : d.reactEnded = false)
    (done : ∀ m ∈ d.members, m.paused ≠ none ∨ m.exited = true) (quiet : s.halfQuiet d = true) : exec (.reactHalfEnd n) s =
      .next ((s.setDomain n { d with reactEnded := true, record := imbalance d }).logRecord d (imbalance d)) := by
  have noneLive : d.live = [] := by
    refine List.filter_eq_nil_iff.mpr fun m hm => ?_
    rcases done m hm with hp | hx
    · simp [hp]
    · simp [hx]
  change execReactHalfEnd n s = _
  simp [execReactHalfEnd, hd, Domain.reactOver, he, hr, noneLive, quiet]

theorem exec_exchangeHalfStart (hd : Tab.find? s.domains n = some d) (he : d.exch = false) (hr : d.reactEnded = true)
    (hh : s.memberHalted d = false) (quiet : s.halfQuiet d = true) : exec (.exchangeHalfStart n) s =
      .next (d.members.foldl (fun r m => if m.exited then r else r.complete m.hart .pause 4)
        (s.setDomain n { d with exch := true, slot := 0, stopped := false })) := by
  change execExchangeHalfStart n s = _
  simp [execExchangeHalfStart, hd, he, hr, hh, quiet]

/-- R51: what the latch does to one member. -/
def State.latchStep (r : State) (m : Member) : State :=
  if m.exited then r else (r.setThread m.hart { r.thread m.hart with dcur := (r.thread m.hart).dnext }).complete m.hart .xend 4

theorem State.latch_eq (s : State) (n : Nat) (d : Domain) :
    s.latch n d = d.members.foldl State.latchStep (s.setDomain n (d.latched (s.clockOf d).toNat)) := rfl

theorem State.latchStep_kept {α : Type} (f : State → α) (hf : ∀ r h t, f (State.setThread r h t) = f r) (r : State) (m : Member) :
    f (r.latchStep m) = f r := by
  unfold State.latchStep
  split
  · rfl
  · exact (State.complete_kept f hf _ _ _ _).trans (hf _ _ _)

/-- What no update of a thread changes stands after the latch as the latched domain left it. -/
theorem State.latch_kept {α : Type} (f : State → α) (hf : ∀ r h t, f (State.setThread r h t) = f r) (s : State) (n : Nat) (d : Domain) :
    f (s.latch n d) = f (s.setDomain n (d.latched (s.clockOf d).toNat)) := by
  rw [State.latch_eq]
  exact foldl_kept _ f (fun r m => r.latchStep_kept f hf m) _ _

theorem SameMemory.latch (s : State) (n : Nat) (d : Domain) : SameMemory s (s.latch n d) := by
  rw [State.latch_eq]
  refine foldl_inv _ (SameMemory s) (fun r m hr => ?_) _ _ (SameMemory.setDomain s n _)
  unfold State.latchStep
  split
  · exact hr
  · exact (hr.trans (SameMemory.setThread _ _ _)).trans (SameMemory.complete _ _ _ _)

/-- R51: a member's delay registers latch, and its XEND completes. -/
theorem State.thread_latch (apart : d.members.Pairwise (fun x y => x.hart ≠ y.hart)) {m : Member} (hm : m ∈ d.members) (hx : m.exited = false) :
    (s.latch n d).thread m.hart = ({ s.thread m.hart with dcur := (s.thread m.hart).dnext } : Thread).completed .xend 4 := by
  rw [State.latch_eq]
  refine ((thread_foldl_apart (s := s) (i := fun _ => True)
    (u := fun m => if m.exited then s.thread m.hart else ({ s.thread m.hart with dcur := (s.thread m.hart).dnext } : Thread).completed .xend 4)
    (fun r m _ _ same => ?_) apart (s.setDomain n (d.latched (s.clockOf d).toNat)) trivial fun _ _ => rfl).1 m hm).trans (by rw [hx]; rfl)
  unfold State.latchStep
  split
  · exact ⟨trivial, same, fun _ _ => rfl⟩
  · refine ⟨trivial, ?_, fun h hh => ?_⟩
    · rw [State.thread_complete_same, State.thread_setThread_same, same]
    · rw [State.thread_complete_other _ _ _ _ _ hh, State.thread_setThread_other _ _ _ _ hh]

/-- R383, R396: a latch that begins neither a checkpoint nor a mirror asks for no halt. -/
theorem State.latchHalt_eq (hd : Tab.find? s.domains n = some d)
    (unarmed : ∀ g, Tab.find? s.grids d.gid = some g → ∀ c, Tab.find? s.ctxs g.ctx = some c → c.dbg.armed = none)
    (plain : d.instant.toNat % 256 = 0 → ∀ g, Tab.find? s.grids d.gid = some g → Config.recoverable g.ctx = false) : s.latchHalt n = s := by
  cases hg : Tab.find? s.grids d.gid with
  | none => simp only [State.latchHalt, hd, hg]
  | some g =>
    cases hc : Tab.find? s.ctxs g.ctx with
    | none => simp only [State.latchHalt, hd, hg, hc]
    | some c =>
      have noMirror : (decide (d.instant.toNat % 256 = 0) && Config.recoverable g.ctx) = false := by
        by_cases hm : d.instant.toNat % 256 = 0
        · simp [plain hm g hg]
        · simp [hm]
      simp [State.latchHalt, hd, hg, hc, unarmed g hg c hc, noMirror]

theorem exec_latch (hd : Tab.find? s.domains n = some d) (he : d.exch = true) (ended : ∀ m ∈ d.members, m.ended = true ∨ m.exited = true)
    (hf : d.flying = []) (hs : d.sends = []) (quiet : s.halfQuiet d = true) (hh : s.memberHalted d = false) :
    exec (.latch n) s = .next ((s.latch n d).latchHalt n) := by
  have done : d.exchangeOver = true := by simp [Domain.exchangeOver, he, hf, hs]; exact ended
  change execLatch n s = _
  simp only [execLatch, hd, done, quiet, hh, Bool.not_false, Bool.and_true, if_true]

end Halves

/-! ## Beats (R46 to R49) -/

section Beats

variable {s : State} {n : Nat} {d : Domain}

theorem exec_exchangeBeatSend_idle (hd : Tab.find? s.domains n = some d) (hp : d.plan = []) (hh : s.gridHalting d.gid = false) :
    exec (.exchangeBeatSend n) s = .next s := by
  change execExchangeBeatSend n s = _
  simp [execExchangeBeatSend, hd, hp, hh]

/-- R48: the sends of a domain once the beats of its slot have left. -/
def Domain.moved (d : Domain) : List Beat := d.sends.map (fun b => if b.entry.slot + b.next = d.slot then { b with next := b.next + 1 } else b)

/-- R48: the domain once the beats of its slot have left. -/
def State.beatsSent (s : State) (d : Domain) : Domain :=
  { d with
    slot := d.slot + 1
    sends := d.moved.filter (fun b => !decide (b.entry.beats ≤ b.next))
    flying := d.flying ++ d.sends.filterMap (s.beatOf d.slot) }

/-- R48: the beats of a slot leave; sends with no beat left complete. -/
theorem exec_exchangeBeatSend_sends (hd : Tab.find? s.domains n = some d) (he : d.exch = true) (hp : d.plan ≠ []) (hw : s.ownedSlots d.gid ≠ 0)
    (hs : d.stopped = false) (due : ∀ f ∈ d.flying, d.slot < f.slot + s.ownedSlots d.gid) (hh : s.gridHalting d.gid = false)
    (clean : s.beatErrors (d.sends.filter (fun b => decide (b.entry.slot + b.next = d.slot))) = none) :
    exec (.exchangeBeatSend n) s = .next ((d.moved.filter (fun b => decide (b.entry.beats ≤ b.next))).foldl
      (fun r b => r.complete b.hart .xsend b.len) (s.setDomain n (s.beatsSent d))) := by
  have noneDue : d.flying.any (fun f => f.due d.slot (s.ownedSlots d.gid)) = false := by
    refine List.any_eq_false.mpr fun f hf => ?_
    rw [Flying.due, decide_eq_true_iff]
    exact Nat.not_le.mpr (due f hf)
  have goes : (!d.exch || decide (s.ownedSlots d.gid = 0) || d.stopped || d.flying.any (fun f => f.due d.slot (s.ownedSlots d.gid))) = false := by
    simp [he, hw, hs, noneDue]
  change execExchangeBeatSend n s = _
  simp only [execExchangeBeatSend, hd, goes, hp, hh, clean, Bool.false_and, Bool.false_eq_true, if_false, List.isEmpty_iff]
  rfl

theorem mem_beatsSent {b : Beat} (hb : b ∈ d.sends) (hs : b.entry.slot + b.next = d.slot) :
    (⟨b.hart, d.slot, b.entry.dest + BitVec.ofNat 64 (64 * b.next),
      BitVec.ofNat 512 ((s.core b.hart.core).sram.readFor (s.core b.hart.core).mowner (b.src + 64 * b.next) 64), b.entry.tag, b.entry.tagset⟩ : Flying) ∈
      (s.beatsSent d).flying :=
  List.mem_append_right _ (List.mem_filterMap.mpr ⟨b, hb, if_pos hs⟩)

/-! ### A beat that lands -/

theorem Sram.get_setTag (m : Sram) (w : Nat) (t : BitVec 3) (j : Nat) :
    Tab.get 0 (m.setTag w t).tags j = if j = w then t else Tab.get 0 m.tags j := by
  unfold Sram.setTag
  split
  · next h =>
    split
    · next e => rw [e, h]
    · rfl
  · change Tab.get 0 (Tab.put 0 w t m.tags) j = _
    split
    · next e => rw [e, Tab.get_put_same]
    · next e => exact Tab.get_put_other _ _ _ _ _ e

/-- R49, R70: n words from w on take a tag. -/
def Sram.tagWords (m : Sram) (w n : Nat) (t : BitVec 3) : Sram := (List.range n).foldl (fun r i => r.setTag (w + i) t) m

theorem Sram.tagWords_cells (m : Sram) (w n : Nat) (t : BitVec 3) : (m.tagWords w n t).cells = m.cells :=
  foldl_kept _ Sram.cells (fun r i => r.setTag_cells (w + i) t) _ _

theorem Sram.tagWords_owners (m : Sram) (w n : Nat) (t : BitVec 3) : (m.tagWords w n t).owners = m.owners :=
  foldl_kept _ Sram.owners (fun r i => r.setTag_owners (w + i) t) _ _

theorem Sram.get_tagWords (m : Sram) (w n : Nat) (t : BitVec 3) {i : Nat} (hi : i < n) : Tab.get 0 (m.tagWords w n t).tags (w + i) = t := by
  induction n with
  | zero => omega
  | succ n ih =>
    rw [Sram.tagWords, List.range_succ, List.foldl_append, List.foldl_cons, List.foldl_nil, Sram.get_setTag]
    split
    · rfl
    · exact ih (by omega)

/-- R70: a line that is reset for a new owner. -/
theorem Sram.resetLine_eq (m : Sram) (line : Nat) (o : BitVec 12) : m.resetLine line o =
    ({ m with cells := writeLe m.cells (64 * line) 64 0, owners := Tab.put 0 line o m.owners } : Sram).tagWords (8 * line) 8 0 := by
  rw [Sram.resetLine, Sram.tagWords]

theorem Sram.ownerOf_claim (m : Sram) (off : Nat) (o : BitVec 12) : (m.claim off o).ownerOf off = o := by
  unfold Sram.claim
  split
  · next h => exact h
  · rw [Sram.ownerOf, Sram.resetLine_eq, Sram.tagWords_owners]
    exact Tab.get_put_same _ _ _ _

theorem Sram.get_claim_outside (m : Sram) (off : Nat) (o : BitVec 12) {a : Nat} (ha : a / 64 ≠ off / 64) :
    Tab.get (0 : Byte) (m.claim off o).cells a = Tab.get 0 m.cells a := by
  unfold Sram.claim
  split
  · rfl
  · rw [Sram.resetLine_eq, Sram.tagWords_cells]
    dsimp only
    rw [writeLe_outside _ _ _ _ _ (by omega)]

/-- R49: a memory at which a beat has landed. -/
def Sram.landed (m : Sram) (off : Nat) (o : BitVec 12) (f : Flying) : Sram :=
  let m2 := { m.claim off o with cells := writeLe (m.claim off o).cells off 64 f.data.toNat }
  if f.tagset then m2.tagWords (off / 8) 8 f.tag else m2

section Landing

variable {o : BitVec 12} {f : Flying} {p : Place} {off : Nat} (hp : destOf f.dest = (p, off)) (s : State)
include hp

/-- R49, R139: a beat that lands changes its memory, and what instruction fetch may still miss of it. -/
theorem State.landBeat_eq : ∃ l k, s.landBeat o f = { s.setSram p ((s.sram p).landed off o f) with log := l, logSeq := k } := by
  refine ⟨(s.landBeat o f).log, (s.landBeat o f).logSeq, ?_⟩
  simp only [State.landBeat, hp]
  rfl

theorem State.sram_landBeat (q : Place) : (s.landBeat o f).sram q = (s.setSram p ((s.sram p).landed off o f)).sram q := by
  obtain ⟨l, k, e⟩ := State.landBeat_eq hp s
  rw [e]
  cases q <;> rfl

theorem State.thread_landBeat (h : Hart) : (s.landBeat o f).thread h = s.thread h := by
  obtain ⟨l, k, e⟩ := State.landBeat_eq hp s
  rw [e]
  exact s.thread_setSram p _ h

theorem State.domains_landBeat : (s.landBeat o f).domains = s.domains := by
  obtain ⟨l, k, e⟩ := State.landBeat_eq hp s
  rw [e]
  cases p <;> rfl

end Landing

theorem Sram.landed_cells (m : Sram) (off : Nat) (o : BitVec 12) (f : Flying) :
    (m.landed off o f).cells = writeLe (m.claim off o).cells off 64 f.data.toNat := by
  unfold Sram.landed
  dsimp only
  split
  · exact Sram.tagWords_cells _ _ _ _
  · rfl

theorem Sram.landed_owners (m : Sram) (off : Nat) (o : BitVec 12) (f : Flying) : (m.landed off o f).owners = (m.claim off o).owners := by
  unfold Sram.landed
  dsimp only
  split
  · exact Sram.tagWords_owners _ _ _ _
  · rfl

theorem Sram.readFor_landed (m : Sram) (off : Nat) (o : BitVec 12) (f : Flying) : (m.landed off o f).readFor o off 64 = f.data.toNat := by
  have owned : (m.landed off o f).ownerOf off = o := by
    rw [Sram.ownerOf, Sram.landed_owners]
    exact m.ownerOf_claim off o
  rw [Sram.readFor, if_pos owned, Sram.landed_cells, readLe_writeLe_same, show (256 : Nat) = 2 ^ 8 from rfl, ← Nat.pow_mul,
    show 8 * 64 = 512 from rfl]
  exact Nat.mod_eq_of_lt f.data.isLt

theorem Sram.get_landed_outside (m : Sram) {off : Nat} (o : BitVec 12) (f : Flying) (line : off % 64 = 0) {a : Nat} (ha : a < off ∨ off + 64 ≤ a) :
    Tab.get (0 : Byte) (m.landed off o f).cells a = Tab.get 0 m.cells a := by
  rw [Sram.landed_cells, writeLe_outside _ _ _ _ _ ha, Sram.get_claim_outside _ _ _ (by omega)]

theorem Sram.get_landed_tag (m : Sram) (off : Nat) (o : BitVec 12) {f : Flying} (ht : f.tagset = true) {i : Nat} (hi : i < 8) :
    Tab.get 0 (m.landed off o f).tags (off / 8 + i) = f.tag := by
  rw [Sram.landed, ht]
  exact Sram.get_tagWords _ _ _ _ hi

/-- R49: a beat that is due lands at its destination, and leaves its domain. -/
theorem exec_exchangeArrival {f : Flying} {rest : List Flying} {p : Place} {off : Nat} (hd : Tab.find? s.domains n = some d)
    (hf : d.flying = f :: rest) (due : d.stopped = true ∨ f.slot + s.ownedSlots d.gid ≤ d.slot) (hp : destOf f.dest = (p, off))
    (clean : s.lineError p (s.gridOwner d.gid) off = none) :
    exec (.exchangeArrival n) s = .next ((s.putDomain n { d with flying := rest }).landBeat (s.gridOwner d.gid) f) := by
  have lands : (d.stopped || f.due d.slot (s.ownedSlots d.gid)) = true := by simpa [Flying.due] using due
  change execExchangeArrival n s = _
  simp only [execExchangeArrival, hd, hf, lands, hp, clean, if_true]

end Beats

/-- Settles O49: each turn by the lemma on it; a turn over the members steps each thread once, because the members' threads differ. -/
theorem instantSteps : Obligations.InstantSteps := by
  unfold Obligations.InstantSteps
  intro s n d hd
  refine ⟨fun due => ⟨_, _, exec_causalityCycle_due hd due, ?declared, rfl, fun fresh takes user apart m hm k val hk => ?cycle⟩,
    exec_causalityCycle_not hd, fun he hr done quiet => ⟨_, exec_reactHalfEnd hd he hr done quiet, ?record, ?recordFrame, fun unarmed => ?unarmed⟩,
    fun he hr hh quiet apart => ⟨_, exec_exchangeHalfStart hd he hr hh quiet, ?exchange, fun m hm hx hp => ?paused, ?exchangeMemory⟩,
    fun _ hp hh => exec_exchangeBeatSend_idle hd hp hh, fun he hp hw hs due hh clean => ?beats, fun f rest c off hf due hp line clean => ?lands,
    fun he ended hf hs quiet hh apart unarmed plain => ?latch⟩
  case declared =>
    rw [foldl_kept _ State.domains (s.domains_cycleStep d _)]
    exact Tab.find?_set_same _ _ _
  case cycle =>
    have atU : (d.declared || !d.live.all s.takesCycle) = false := by rw [fresh, takes]; rfl
    rw [atU, thread_cycle takes user apart hm hk]
    exact ⟨rfl, rfl, rfl, rfl⟩
  case record => rw [State.logRecord_eq]; rfl
  case recordFrame => rw [State.logRecord_eq]; rfl
  case unarmed =>
    rw [State.logRecord_unarmed (s.setDomain n _) d _ unarmed]
    exact ⟨rfl, rfl⟩
  case exchange =>
    refine foldl_kept _ State.domains (fun r m => ?_) _ _
    split
    · rfl
    · exact State.complete_kept State.domains (fun _ _ _ => rfl) _ _ _ _
  case paused =>
    have run := (thread_foldl_apart (f := fun r m => if m.exited then r else r.complete m.hart .pause 4) (s := s) (i := fun _ => True)
      (u := fun m => if m.exited then s.thread m.hart else (s.thread m.hart).completed .pause 4) (fun r m _ _ same => by
        cases m.exited
        · exact ⟨trivial, (State.thread_complete_same _ _ _ _).trans (by rw [same]; rfl), fun h hh => State.thread_complete_other _ _ _ _ _ hh⟩
        · exact ⟨trivial, same, fun _ _ => rfl⟩) apart
      (s.setDomain n { d with exch := true, slot := 0, stopped := false }) trivial fun _ _ => rfl).1 m hm
    rw [run, hx]
    exact Thread.completed_waiting hp 4
  case exchangeMemory =>
    refine foldl_inv _ (SameMemory s) (fun r m hr => ?_) _ _ (SameMemory.setDomain s n _)
    split
    · exact hr
    · exact hr.trans (SameMemory.complete _ _ _ _)
  case beats =>
    refine ⟨_, s.beatsSent d, exec_exchangeBeatSend_sends hd he hp hw hs due hh clean, ?_, rfl, fun b hb slot =>
      ⟨_, mem_beatsSent hb slot, rfl, rfl, rfl, rfl, rfl⟩, ?_⟩
    · rw [foldl_kept _ State.domains fun r b => State.complete_kept State.domains (fun _ _ _ => rfl) _ _ _ _]
      exact Tab.find?_set_same _ _ _
    · exact foldl_inv _ (SameMemory s) (fun r b hr => hr.trans (SameMemory.complete _ _ _ _)) _ _ (SameMemory.setDomain s n _)
  case lands =>
    let r := s.putDomain n { d with flying := rest }
    let s' := r.landBeat (s.gridOwner d.gid) f
    have there : s'.sram (.core c) = (s.sram (.core c)).landed off (s.gridOwner d.gid) f := by
      rw [State.sram_landBeat hp, State.sram_setSram_same, State.sram_putDomain]
    have elsewhere (q : Place) (hq : q ≠ .core c) : s'.sram q = s.sram q := by
      rw [State.sram_landBeat hp, State.sram_setSram_other _ _ _ _ hq, State.sram_putDomain]
    refine ⟨s', exec_exchangeArrival hd hf due hp clean, ?_, fun q a ha => ?_, fun ht i hi => ?_, fun d' hd' => ?_, fun h => ?_⟩
    · change (s'.sram (.core c)).readFor _ _ _ = _
      rw [there, Sram.readFor_landed]
    · rw [State.byteAt, State.byteAt]
      by_cases hq : q = .core c
      · subst hq
        rw [there, Sram.get_landed_outside _ _ _ line (ha.resolve_left fun x => x rfl)]
      · rw [elsewhere q hq]
    · change Tab.get 0 (s'.sram (.core c)).tags _ = _
      rw [there, Sram.get_landed_tag _ _ _ ht hi]
    · rw [State.domains_landBeat hp] at hd'
      exact State.eq_of_find?_putDomain hd'
    · rw [State.thread_landBeat hp, State.thread_putDomain]
  case latch =>
    have found : Tab.find? (s.latch n d).domains n = some (d.latched (s.clockOf d).toNat) := by
      rw [State.latch_kept State.domains fun _ _ _ => rfl]
      exact Tab.find?_set_same _ _ _
    have grids : (s.latch n d).grids = s.grids := State.latch_kept State.grids (fun _ _ _ => rfl) s n d
    have ctxs : (s.latch n d).ctxs = s.ctxs := State.latch_kept State.ctxs (fun _ _ _ => rfl) s n d
    have noHalt : (s.latch n d).latchHalt n = s.latch n d := State.latchHalt_eq found (by rw [grids, ctxs]; exact unarmed) (by rw [grids]; exact plain)
    refine ⟨_, _, (exec_latch hd he ended hf hs quiet hh).trans (by rw [noHalt]), found, rfl, rfl, rfl, ?_, fun m hm hx => ?_, SameMemory.latch s n d⟩
    · rw [Domain.latched, List.map_map]
      rfl
    · rw [State.thread_latch apart hm hx]
      exact ⟨Thread.dcur_completed _ _ _, fun hw => (Thread.completed_waiting (by exact hw) 4).1⟩

end Sys2Proof.Machine
end


section
/-! SUPPORT. The first two steps of Table 12.1 (R58, R175): a scalar access that is not legal, or not aligned, traps before anything is accessed: O14. -/

namespace Sys2Proof.Machine

/-- R176: the address of a displacement of off9 elements, as the statements write it. -/
theorem effAddr_eq (x : Word) (off : BitVec 9) (n : Nat) : effAddr x off n = x + BitVec.ofInt 64 (off.toInt * n) := by
  rw [effAddr, BitVec.signExtend, BitVec.ofInt_mul, BitVec.ofInt_natCast]

/-- R58, R175: what an instruction comes to that makes an access of n bytes at x, where the access is not legal, and where it is but is misaligned. -/
structure State.ChecksFirst (s : State) (r : Result) (x : Word) (n cause : Nat) : Prop where
  illegal : s.resolveRange s.cur x.toNat n = none → r = s.trapMe 34 x
  misaligned : ∀ t, s.resolveRange s.cur x.toNat n = some t → x.toNat % n ≠ 0 → r = s.trapMe cause x

theorem State.checksFirst_scalar (s : State) (q : Scalar) (stays : Bool) :
    s.ChecksFirst (s.scalar q stays) q.addr q.size q.cls.misaligned where
  illegal h := by simp only [State.scalar, h]
  misaligned t h hm := by simp only [State.scalar, h, if_pos hm]

theorem State.checksFirst_load (s : State) (kind : LdKind) (d : Fin 32) (a : Opnd) (off : BitVec 9) :
    s.ChecksFirst (s.load kind d a off) (s.me.opX a + BitVec.ofInt 64 (off.toInt * ldBytes kind)) (ldBytes kind) 4 := by
  rw [← effAddr_eq]
  exact s.checksFirst_scalar _ _

theorem State.checksFirst_store (s : State) (kind : StKind) (b a : Opnd) (off : BitVec 9) :
    s.ChecksFirst (s.store kind b a off) (s.me.opX a + BitVec.ofInt 64 (off.toInt * stBytes kind)) (stBytes kind) 6 := by
  rw [← effAddr_eq]
  exact s.checksFirst_scalar _ _

theorem State.checksFirst_atomic (s : State) (op : Amo) (d : Fin 32) (a b : Opnd) (ord : Ord) :
    s.ChecksFirst (s.atomic op d a b ord) (s.me.opX a) 8 6 where
  illegal h := by simp only [State.atomic, h]
  misaligned t h hm := by simp only [State.atomic, h, if_pos hm]

theorem State.checksFirst_storeRelease (s : State) (b a : Opnd) (scope : Scope) (kind : StKind) :
    s.ChecksFirst (execStoreRelease b a scope kind s) (s.me.opX a) (stBytes kind) 6 where
  illegal h := by simp only [execStoreRelease, h]
  misaligned t h hm := by simp only [execStoreRelease, h, if_pos hm]

/-- The two halves of a check, in the statement's words. -/
theorem State.ChecksFirst.split {s : State} {r : Result} {x : Word} {n cause : Nat} (h : s.ChecksFirst r x n cause) :
    (s.resolveRange s.cur x.toNat n = none → r = s.trapMe 34 x) ∧
    (s.resolveRange s.cur x.toNat n ≠ none → x.toNat % n ≠ 0 → r = s.trapMe cause x) := by
  refine ⟨h.illegal, fun legal => ?_⟩
  obtain ⟨t, ht⟩ := Option.ne_none_iff_exists'.mp legal
  exact h.misaligned t ht

/-- Settles O14: each form is one of four operations, whose first two checks are steps 1 and 2 of Table 12.1. -/
theorem accessChecks : Obligations.AccessChecks := by
  unfold Obligations.AccessChecks
  intro s k d a b off scope ord
  have load (kind : LdKind) := (s.checksFirst_load kind d a off).split
  have store (kind : StKind) := (s.checksFirst_store kind b a off).split
  have atomic (op : Amo) := (s.checksFirst_atomic op d a b ord).split
  simp only [List.forall_mem_cons]
  refine ⟨⟨load .b, load .bu, load .h, load .hu, load .w, load .wu, load .d, by simp⟩, ⟨store .b, store .h, store .w, store .d, by simp⟩,
    ⟨atomic .add, atomic .and, atomic .or, atomic .xor, atomic .min, atomic .max, atomic .minu, atomic .maxu, atomic .swap, atomic .cas,
      atomic .fadd, by simp⟩, fun kind => ?_, fun kind => ?_⟩
  · exact (s.checksFirst_scalar ⟨s.me.opX a, ldBytes kind, .load, .load, 0, 0, .writeX d kind, len1 a⟩ true).split
  · exact (s.checksFirst_storeRelease b a scope kind).split

end Sys2Proof.Machine
end


section
/-! SUPPORT. Loads of the own core's local SRAM, by the action that the word's entry names (R58, R75 to R79, R81, R176): O10. The access names one
word of the local SRAM; what the word's entry makes of it is said once for the memory, then for the machine, then for the instruction. -/

namespace Sys2Proof.Machine

/-! ## Addresses of the own SRAM (R58) -/

/-- A window moves an address by a multiple of eight bytes. -/
theorem State.resolveAt_mod {s : State} {h : Hart} {l : Level} {a c o : Nat} (r : s.resolveAt h l a = some (.sram (.core c) o)) : o % 8 = a % 8 := by
  simp only [State.resolveAt] at r
  repeat' split at r
  all_goals cases r
  all_goals exact Nat.mod_mod_of_dvd a (by decide)

theorem State.resolveRange_resolveAt {s : State} {h : Hart} {a n : Nat} {t : Target} (r : s.resolveRange h a n = some t) :
    s.resolveAt h (s.thread h).level a = some t := by
  rw [State.resolveRange, State.rangeAt] at r
  split at r
  · cases r
  · next x hx =>
    split at r
    · rw [hx, r]
    · cases r

/-- R175: an aligned scalar access lies in one word. -/
theorem NamesHere.inWord {s : State} {need : Need} {addr : Word} {kind : LdKind} {o : Nat} (h : NamesHere s need addr (ldBytes kind) o) :
    o % 8 + ldBytes kind ≤ 8 := by
  obtain ⟨range, aligned, -⟩ := h
  have same := State.resolveAt_mod (State.resolveRange_resolveAt range)
  cases kind <;> simp only [ldBytes] at aligned ⊢ <;> omega

theorem one_le_ldBytes (kind : LdKind) : 1 ≤ ldBytes kind := by cases kind <;> decide

/-! ## Tag updates (R75) -/

theorem Sram.setTag_rest (m : Sram) (w : Nat) (t : BitVec 3) :
    m.setTag w t = { m with tags := (m.setTag w t).tags, parks := (m.setTag w t).parks } := by
  unfold Sram.setTag
  split <;> rfl

theorem Sram.mem_parks_setTag {m : Sram} {w : Nat} {t : BitVec 3} {q : Parked} (hq : q ∈ (m.setTag w t).parks) :
    q ∈ m.parks ∨ q.word = w := by
  unfold Sram.setTag at hq
  split at hq
  · exact .inl hq
  · obtain ⟨x, hx, rfl⟩ := List.mem_map.mp hq
    split
    · next e => exact .inr e
    · exact .inl hx

theorem Sram.retagged_setTag (m : Sram) (w : Nat) (t : BitVec 3) : m.Retagged (m.setTag w t) w t where
  tag := by rw [Sram.get_setTag, if_pos rfl]
  others j hj := by rw [Sram.get_setTag, if_neg hj]
  woken hne q hq hw := by
    rw [Sram.setTag, if_neg hne] at hq
    obtain ⟨x, -, rfl⟩ := List.mem_map.mp hq
    by_cases here : x.word = w
    · rw [if_pos here]
    · rw [if_neg here] at hw
      exact absurd hw here
  rest := m.setTag_rest w t

/-- The update of an entry, as the statement of a load says it. -/
def Sram.Updated (m m' : Sram) (own : BitVec 12) (o : Nat) (e : BitVec 16) : Prop :=
  if e.getLsbD 3 = true ∧ m.ownerOf o = own then m.Retagged m' (o / 8) (BitVec.ofNat 3 (bits e 4 3)) else m' = m

theorem Sram.ownerOf_word (m : Sram) (o : Nat) : m.ownerOf (8 * (o / 8)) = m.ownerOf o := by
  rw [Sram.ownerOf, Sram.ownerOf, show 8 * (o / 8) / 64 = o / 64 by omega]

theorem Sram.updated_update (m : Sram) (own : BitVec 12) (o : Nat) (e : BitVec 16) : m.Updated (m.update own (o / 8) e) own o e := by
  unfold Sram.Updated Sram.update
  simp only [Sram.ownerOf_word, bit, Bool.and_eq_true, decide_eq_true_eq]
  split
  · exact m.retagged_setTag _ _
  · rfl

theorem Sram.update_of_not {e : BitVec 16} (h : bit e 3 = false) (m : Sram) (own : BitVec 12) (w : Nat) : m.update own w e = m := by
  rw [Sram.update, h, Bool.false_and, if_neg Bool.false_ne_true]

theorem Sram.update_cases (m : Sram) (own : BitVec 12) (w : Nat) (e : BitVec 16) :
    m.update own w e = m ∨ ∃ t, m.update own w e = m.setTag w t := by
  unfold Sram.update
  split
  · exact .inr ⟨_, rfl⟩
  · exact .inl rfl

theorem Sram.update_rest (m : Sram) (own : BitVec 12) (w : Nat) (e : BitVec 16) :
    m.update own w e = { m with tags := (m.update own w e).tags, parks := (m.update own w e).parks } := by
  rcases m.update_cases own w e with h | ⟨t, h⟩
  · rw [h]
  · rw [h, ← Sram.setTag_rest]

theorem Sram.readFor_update (m : Sram) (own : BitVec 12) (w : Nat) (e : BitVec 16) (x : BitVec 12) (o n : Nat) :
    (m.update own w e).readFor x o n = m.readFor x o n := by rw [Sram.update_rest]; rfl

theorem Sram.entry_update (m : Sram) (own : BitVec 12) (w : Nat) (e : BitVec 16) (j k : Nat) (t : BitVec 3) :
    (m.update own w e).entry j k t = m.entry j k t := by rw [Sram.update_rest]; rfl

theorem Sram.tagFor_update_other (m : Sram) (own : BitVec 12) {w j : Nat} (h : j ≠ w) (e : BitVec 16) (x : BitVec 12) :
    (m.update own w e).tagFor x j = m.tagFor x j := by
  rcases m.update_cases own w e with same | ⟨t, set⟩
  · rw [same]
  · rw [set, Sram.tagFor, Sram.tagFor, Sram.get_setTag, if_neg h, Sram.ownerOf, Sram.setTag_owners, Sram.ownerOf]

/-- R386, R81: word w of a memory holds no error, and no woken access waits to be checked on it. -/
structure Sram.OpenAt (m : Sram) (w : Nat) : Prop where
  noErr : w ∉ m.errs
  noOwnerErr : w / 8 ∉ m.ownerErrs
  noSoft : Tab.find? m.soft w = none
  free : ∀ q ∈ m.parks, q.woken = true → q.word ≠ w

theorem OpenWord.openAt {s : State} {w : Nat} (h : OpenWord s w) : s.myCore.sram.OpenAt w := by
  obtain ⟨⟨noErr, noOwnerErr, noSoft⟩, free⟩ := h
  exact ⟨noErr, noOwnerErr, noSoft, fun q hq hw => by simpa [hw] using List.all_eq_true.mp free q hq⟩

theorem Sram.OpenAt.update_other {m : Sram} {w j : Nat} (h : m.OpenAt j) (hj : j ≠ w) (own : BitVec 12) (e : BitVec 16) :
    (m.update own w e).OpenAt j := by
  have free : ∀ q ∈ (m.update own w e).parks, q.woken = true → q.word ≠ j := fun q hq woken => by
    rcases m.update_cases own w e with same | ⟨t, set⟩
    · exact h.free q (same ▸ hq) woken
    · rw [set] at hq
      exact (Sram.mem_parks_setTag hq).elim (fun old => h.free q old woken) fun here => here ▸ hj.symm
  rw [Sram.update_rest]
  exact ⟨h.noErr, h.noOwnerErr, h.noSoft, free⟩

/-! ## What a word's entry makes of a load (R75 to R79) -/

/-- R75: the entry that governs an access at a word. -/
def Sram.entryFor (m : Sram) (p : Place) (a : Access) (w : Nat) : BitVec 16 := m.entry w (kindAt p a) (m.tagFor a.owner w)

section Checked

variable {m : Sram} {p : Place} {a : Access} {o : Nat} (l : LoneLoad a p o) (clear : m.OpenAt (o / 8))
include l clear

theorem Sram.checked_performs (h : bits (m.entryFor p a (o / 8)) 0 3 = 0) : m.checked p a false =
    (.done (BitVec.ofNat 512 (m.readFor a.owner o a.esize)) (bit (m.entryFor p a (o / 8)) 7), m.update a.owner (o / 8) (m.entryFor p a (o / 8))) := by
  unfold Sram.entryFor at h ⊢
  simpa [Sram.checked, l.words, actionOf, h, l.op, Sram.perform, l.loads] using clear.free

theorem Sram.checked_waits (h : bits (m.entryFor p a (o / 8)) 0 3 = 1) :
    m.checked p a false = (.park (bankOf p (8 * (o / 8))) (o / 8), m) := by
  unfold Sram.entryFor at h
  simpa [Sram.checked, l.words, actionOf, h] using clear.free

theorem Sram.checked_redirects (scalar : a.vec = false) (direct : a.redir = false) (h : bits (m.entryFor p a (o / 8)) 0 3 = 2) :
    m.checked p a false = (.redirect (Tab.get 0 ((Tab.find? m.sets (m.setOf (o / 8))).getD TableSet.init).active.rbase
      (bits (m.entryFor p a (o / 8)) 9 2) + BitVec.ofNat 64 (o % 0x4000)), m.update a.owner (o / 8) (m.entryFor p a (o / 8))) := by
  have writes : a.writes = false := by rw [Access.writes, l.op]
  have first : a.elems.head?.getD (0, 0) = (o, 0) := by rw [l.elems]; rfl
  unfold Sram.entryFor at h ⊢
  simpa [Sram.checked, l.words, actionOf, h, l.op, scalar, direct, writes, first] using clear.free

theorem Sram.checked_faults (h : 3 ≤ bits (m.entryFor p a (o / 8)) 0 3) : m.checked p a false =
    (.trap 24 (a.wordAddr (o / 8)) (utagOf p a (m.setOf (o / 8)) (bits (m.entryFor p a (o / 8)) 0 3) (m.tagFor a.owner (o / 8))), m) := by
  have stops : 3 ≤ actionOf (m.entryFor p a (o / 8)) := by
    unfold actionOf
    split
    · exact Nat.le_refl 3
    · exact h
  have ne : actionOf (m.entryFor p a (o / 8)) ≠ 2 := by omega
  unfold Sram.entryFor at stops ne ⊢
  simpa [Sram.checked, l.words, stops, ne] using clear.free

end Checked

/-! ## The bank operation -/

/-- R386, R112: a load of a word without an error does what the word's entry says, and where it is performed it may order the stores there. -/
theorem State.bankOp_lone {s : State} {p : Place} {a : Access} {o : Nat} {m m' : Sram} {x : BankRes} {again : Bool} (l : LoneLoad a p o)
    (hm : s.sram p = m) (clear : m.OpenAt (o / 8)) (h : m.checked p a again = (x, m')) :
    ∃ r, s.bankOp p a again = (x, r.setSram p m') ∧ (r = s ∨ r = s.tieAt p) ∧ ((∀ v q, x ≠ .done v q) → r = s) := by
  subst hm
  have bad : s.badLines p [o / 8] = [] := by simp [State.badLines, clear.noErr, clear.noOwnerErr, clear.noSoft]
  have sound : s.correct p [o / 8] = s := by simp [State.correct, clear.noSoft]
  have direct : a.op.direct = false := by rw [l.op]; rfl
  have writes : a.writes = false := by rw [Access.writes, l.op]
  simp only [State.bankOp, l.words, bad, State.mend, sound, direct, h, writes, Bool.false_eq_true, if_false]
  cases x with
  | done v q =>
    cases (s.sram p).releases p a with
    | false => exact ⟨s, rfl, .inl rfl, fun _ => rfl⟩
    | true => exact ⟨s.tieAt p, by cases p <;> rfl, .inr rfl, fun other => absurd rfl (other v q)⟩
  | park | busy | trap | redirect => exact ⟨s, rfl, .inl rfl, fun _ => rfl⟩

/-- A bank operation that is not performed leaves nothing but the memory that it was made on. -/
theorem State.bankOp_not_done {s : State} {p : Place} {a : Access} {o : Nat} {m m' : Sram} {x : BankRes} {again : Bool} (l : LoneLoad a p o)
    (hm : s.sram p = m) (clear : m.OpenAt (o / 8)) (h : m.checked p a again = (x, m')) (hx : ∀ v q, x ≠ .done v q) :
    s.bankOp p a again = (x, s.setSram p m') := by
  obtain ⟨r, bank, -, same⟩ := State.bankOp_lone l hm clear h
  rw [bank, same hx]

section Serve

variable {s t : State} {p : Place} {a : Access} {again : Bool}

theorem State.serve_done {v : BitVec 512} {q : Bool} (h : s.bankOp p a again = (.done v q, t)) : s.serve p a again = (some (.value v q), true, t) := by
  rw [State.serve, h]

theorem State.serve_trap {c : Nat} {v : Word} {u : BitVec 14} (h : s.bankOp p a again = (.trap c v u, t)) :
    s.serve p a again = (some (.trap c v u), true, t) := by
  rw [State.serve, h]

theorem State.serve_park {bank word : Nat} (h : s.bankOp p a again = (.park bank word, t)) :
    s.serve p a again = (none, true, t.parkAccess p a bank word) := by
  rw [State.serve, h]

/-- R77: an access that is performed where its word's entry sends it, in a memory of the same core. -/
theorem State.serve_redirect {s' t' : State} {target : Word} {p' : Place} {a' : Access} {v : BitVec 512} {q : Bool}
    (h : s.bankOp p a again = (.redirect target, s')) (here : s'.redirected a target = .here p' a' t)
    (done : t.bankOp p' a' false = (.done v q, t')) : s.serve p a again = (some (.value v q), true, t') := by
  simp only [State.serve, h, here, done]

end Serve

/-! ## The machine with a memory of a core set -/

theorem State.setSram_core_twice (s : State) (c : Nat) (m m' : Sram) : (s.setSram (.core c) m).setSram (.core c) m' = s.setSram (.core c) m' := by
  simp [State.setSram]

theorem State.core_setSram (s : State) (c : Nat) (m : Sram) (j : Nat) : ∃ x, (s.setSram (.core c) m).core j = { s.core j with sram := x } := by
  by_cases hj : j = c
  · subst hj
    exact ⟨m, State.core_setCore_same _ _ _⟩
  · exact ⟨(s.core j).sram, State.core_setCore_other _ _ _ _ hj⟩

/-- R58, R405: where an address leads does not depend on the tags of a memory. -/
theorem State.resolveAt_setSram (s : State) {c : Nat} {m : Sram} (bytes : m.cells = (s.core c).sram.cells) (h : Hart) (l : Level) (a : Nat) :
    (s.setSram (.core c) m).resolveAt h l a = s.resolveAt h l a := by
  have ctx (n : Nat) : ((s.setSram (.core c) m).core n).ctx? = (s.core n).ctx? := State.core_setCore_kept Core.ctx? s c _ (by rfl) n
  have cells (n : Nat) : ((s.setSram (.core c) m).core n).sram.cells = (s.core n).sram.cells :=
    State.core_setCore_kept (fun x => x.sram.cells) s c _ bytes n
  have cluster (core cl : Nat) : (s.setSram (.core c) m).clusterOk core cl = s.clusterOk core cl := by
    rw [State.clusterOk, State.clusterOk, State.partOf, State.partOf, State.ctxOf, State.ctxOf, ctx]
    rfl
  have port (d : Nat) : (s.setSram (.core c) m).routePort d = s.routePort d := by
    rw [State.routePort, State.routePort, State.routeEntry, State.routeEntry, cells]
  simp only [State.resolveAt, cluster, port]
  rfl

theorem State.rangeAt_setSram (s : State) {c : Nat} {m : Sram} (bytes : m.cells = (s.core c).sram.cells) (h : Hart) (l : Level) (a n : Nat) :
    (s.setSram (.core c) m).rangeAt h l a n = s.rangeAt h l a n := by
  simp only [State.rangeAt, State.resolveAt_setSram s bytes]

theorem State.pmpAt_setSram (s : State) (c : Nat) (m : Sram) (h : Hart) (l : Level) (a n : Nat) (need : Need) :
    (s.setSram (.core c) m).pmpAt h l a n need = s.pmpAt h l a n need := by
  obtain ⟨x, hx⟩ := s.core_setSram c m h.core
  simp only [State.pmpAt, hx]

/-! ## The access of a load, and its redirection (R77, R176) -/

/-- R176: the access that a scalar load of the current thread makes at its own core's SRAM. -/
def State.ownLoad (s : State) (addr : Word) (n o : Nat) : Access :=
  mkAccess s s.cur addr .load .load (.sram (.core s.cur.core)) n [(o, 0)] ((0 : Word).setWidth 512) 0 false

theorem State.loneLoad_ownLoad (s : State) (addr : Word) {n o : Nat} (some : 1 ≤ n) (inWord : o % 8 + n ≤ 8) :
    LoneLoad (s.ownLoad addr n o) (.core s.cur.core) o := ⟨rfl, rfl, rfl, some, inWord⟩

/-- R77: an access of one element after its redirection within its own core's SRAM. -/
def State.redirectedOwn (s : State) (a : Access) (target : Word) (o : Nat) : Access :=
  { a with home := .sram (.core a.hart.core), redir := true, port := s.portFor (.sram (.core a.hart.core)), at_ := target,
           elems := [(o, (a.elems.headD (0, 0)).2)] }

theorem State.redirected_own {s : State} {a : Access} {target : Word} {o : Nat} (hi : a.issuer = .thread)
    (range : s.rangeAt a.hart a.level target.toNat a.esize = some (.sram (.core a.hart.core) o)) (aligned : target.toNat % a.esize = 0)
    (permitted : s.pmpAt a.hart a.level target.toNat a.esize a.cls.need = true) :
    s.redirected a target = .here (.core a.hart.core) (s.redirectedOwn a target o) s := by
  simp [State.redirected, range, hi, aligned, permitted, State.redirectedOwn]

/-- Table 6.1: a load by a thread of the memory's own core is of kind 0. -/
theorem kindAt_own {a : Access} (h : a.cls = .load) : kindAt (.core a.hart.core) a = 0 := by
  simp [kindAt, h]

/-! ## Completion -/

theorem Thread.completesX_atStart {t : Thread} (start : t.AtStart) (d : Fin 32) (v : Word) (len : Nat) :
    t.completesX d v len = (t.setX d v).advance len := by
  obtain ⟨run, pend, gathered, late⟩ := start
  have settled : t.settled = ((t.setX d v).advance len).status := by simp [Thread.settled, run, late]
  have noPend : none = ((t.setX d v).advance len).pend := by simp [pend]
  have none_ : [] = ((t.setX d v).advance len).gathered := by simp [gathered]
  rw [Thread.completesX, settled, noPend, none_]

/-- R176: what a load does that has its value in the step in which it began. -/
theorem WritesX.finishAccess {s : State} (start : s.me.AtStart) (d : Fin 32) (kind : LdKind) (v : BitVec 512) (len : Nat) :
    WritesX s (s.finishAccess s.cur (.writeX d kind) v len) d (extend kind (v.setWidth 64)) 0 len := by
  have same : (s.setCore s.cur.core (s.core s.cur.core)).thread s.cur = s.me :=
    State.thread_congr (State.core_setCore_kept Core.threads s s.cur.core _ rfl _)
  have done : s.finishAccess s.cur (.writeX d kind) v len = s.setMe (s.me.completesX d (extend kind (v.setWidth 64)) len) := by
    simp [State.finishAccess, State.finishThread, Core.finish, Thread.finish, same, Thread.completesX, State.setMe, State.setThread]
  rw [done, Thread.completesX_atStart start]
  exact WritesX.retire0 s d _ len

/-! ## A load of the own SRAM, by the action of its word's entry -/

/-- Steps 3 to 6 of Table 12.1 for a scalar access of the own core's SRAM. -/
theorem State.scalar_own {s : State} {q : Scalar} {o : Nat} (here : NamesHere s q.cls.need q.addr q.size o) (direct : q.op.direct = false) :
    s.scalar q = s.sramAccess (.core s.cur.core) (mkAccess s s.cur q.addr q.cls q.op (.sram (.core s.cur.core)) q.size [(o, 0)]
      (q.data.setWidth 512) q.cmp false) q.fin q.len := by
  obtain ⟨range, aligned, permitted⟩ := here
  simp [State.scalar, range, aligned, State.scalarAt, direct, permitted]

theorem State.load_own {s : State} {kind : LdKind} {base : Opnd} {off : BitVec 9} {o : Nat}
    (here : NamesHere s .read (s.me.opX base + BitVec.ofInt 64 (off.toInt * ldBytes kind)) (ldBytes kind) o) (d : Fin 32) :
    s.load kind d base off = s.sramAccess (.core s.cur.core)
      (s.ownLoad (s.me.opX base + BitVec.ofInt 64 (off.toInt * ldBytes kind)) (ldBytes kind) o) (.writeX d kind) (len1 base) := by
  rw [← effAddr_eq] at here ⊢
  exact State.scalar_own (q := ⟨effAddr (s.me.opX base) off (ldBytes kind), ldBytes kind, .load, .load, 0, 0, .writeX d kind, len1 base⟩) here rfl

/-- R75: the entry that governs a load by the current thread of the word of its own core's SRAM at an offset. -/
def State.ownEntry (s : State) (o : Nat) : BitVec 16 := s.myCore.sram.entry (o / 8) 0 (s.myCore.sram.tagFor (s.ownerOfHart s.cur) (o / 8))

theorem State.entryFor_ownLoad (s : State) (addr : Word) (n o : Nat) :
    s.myCore.sram.entryFor (.core s.cur.core) (s.ownLoad addr n o) (o / 8) = s.ownEntry o :=
  congrArg (fun k => s.myCore.sram.entry (o / 8) k _) (kindAt_own (a := s.ownLoad addr n o) rfl)

/-- A load at offset o completes: it writes a value, with the update of the entry of its word. -/
def State.LoadCompletes (s : State) (r : Result) (d : Fin 32) (len o : Nat) (value : Word) : Prop :=
  ∃ x m' t, s.Read x ∧ s.myCore.sram.Updated m' (s.ownerOfHart s.cur) o (s.ownEntry o) ∧ r = .next t ∧
    WritesX (x.numbered.setMyCore { s.myCore with sram := m' }) t d value 0 len

/-- R81: a load at offset o waits in its bank's park list, or held behind a full one. -/
def State.LoadParks (s : State) (r : Result) (addr : Word) (o : Nat) : Prop :=
  let m := s.myCore.sram
  let bank := 8 * (o / 8) / 0x1C000
  ∃ t q, r = .next t ∧ t.me = { s.me with status := .access, pend := t.me.pend } ∧
    q.hart = s.cur ∧ q.named = addr ∧ q.elems = [(o, 0)] ∧ SameMemory s t ∧
    t.myCore.sram = (if (m.parks.filter (fun x => decide (x.bank = bank))).length < 8 then { m with parks := m.parks ++ [⟨q, bank, o / 8, false⟩] }
      else { m with held := m.held ++ [q] }) ∧ ∀ h, h ≠ s.cur → t.thread h = s.thread h

/-- R76, Table 6.4: a load at offset o meets TRAP or REFUSE. -/
def State.LoadFaults (s : State) (r : Result) (addr : Word) (o : Nat) : Prop :=
  let m := s.myCore.sram
  ∃ s1, r = .next (s1.trap s.cur 24 addr (BitVec.ofNat 14 (8 * (m.tagFor (s.ownerOfHart s.cur) (o / 8)).toNat + 64 * bits (s.ownEntry o) 0 3 +
    512 * m.setOf (o / 8)))) ∧ SameMemory s s1 ∧ s1.cur = s.cur ∧ ∀ h, s1.thread h = s.thread h

theorem readLe_lt (t : List Host.Cell) (a n : Nat) : readLe t a n < 256 ^ n := by
  induction n generalizing a with
  | zero => exact Nat.one_pos
  | succ n ih =>
    have low := (Tab.get (0 : Byte) t a).isLt
    have high := ih (a + 1)
    rw [readLe, Nat.pow_succ]
    omega

theorem Sram.readFor_lt (m : Sram) (x : BitVec 12) (o n : Nat) : m.readFor x o n < 256 ^ n := by
  unfold Sram.readFor
  split
  · exact readLe_lt _ _ _
  · exact Nat.pow_pos (by decide)

/-- Table 6.4: the image of a load of the own SRAM. -/
theorem State.utagOf_ownLoad (s : State) (addr : Word) (n o : Nat) (m : Sram) {w action : Nat} (h : action < 8) (t : BitVec 3) :
    utagOf (.core s.cur.core) (s.ownLoad addr n o) (m.setOf w) action t = BitVec.ofNat 14 (8 * t.toNat + 64 * action + 512 * m.setOf w) := by
  have set : m.setOf w < 4 := (Tab.get 0 m.regions (w / 0x800)).isLt
  have kind : kindAt (.core s.cur.core) (s.ownLoad addr n o) = 0 := kindAt_own (a := s.ownLoad addr n o) rfl
  have here : Place.core s.cur.core = .core (s.ownLoad addr n o).hart.core := rfl
  have first : (s.ownLoad addr n o).redir = false := rfl
  rw [utagOf, kind, if_pos here, first, Nat.mod_eq_of_lt h, Nat.mod_eq_of_lt set]
  simp

theorem Served.numbered (s : State) : Served s s.numbered := ⟨fun _ => rfl, ⟨⟨fun _ _ => rfl, fun _ _ => rfl, fun _ _ => rfl⟩, rfl⟩⟩

/-! ### What becomes of an access of the own SRAM (R79, R81, R82) -/

/-- R81, R82: the memory once an access that waits has taken a place of its bank's park list, or is held behind a full one. -/
def Sram.taking (m : Sram) (a : Access) (bank word : Nat) : Sram :=
  if m.parkFree bank then { m with parks := m.parks ++ [⟨a, bank, word, false⟩] } else { m with held := m.held ++ [{ a with bank := bank }] }

theorem State.parkAccess_taking {s : State} {p : Place} {a : Access} {bank word : Nat} (runs : s.stoppedHart a.hart = false) :
    s.parkAccess p a bank word = s.setSram p ((s.sram p).taking a bank word) := by
  rw [State.parkAccess, Sram.taking]
  simp only [runs, Bool.false_eq_true, if_false]
  split <;> rfl

theorem Sram.taking_cells (m : Sram) (a : Access) (bank word : Nat) : (m.taking a bank word).cells = m.cells := by
  unfold Sram.taking; split <;> rfl

theorem Sram.taking_tags (m : Sram) (a : Access) (bank word : Nat) : (m.taking a bank word).tags = m.tags := by
  unfold Sram.taking; split <;> rfl

theorem Sram.taking_owners (m : Sram) (a : Access) (bank word : Nat) : (m.taking a bank word).owners = m.owners := by
  unfold Sram.taking; split <;> rfl

section OwnAccess

variable {s t : State} {p : Place} {a : Access} {f : Finish} {len : Nat} {b : Bool} (own : p = .core a.hart.core)
include own

theorem State.sramAccess_answered {v : BitVec 512} {q : Bool} (served : s.numbered.serve p a false = (some (.value v q), b, t)) :
    s.sramAccess p a f len = .next (t.finishAccess a.hart f v len) := by
  rw [State.sramAccess, if_pos own]
  simp only [show ({ s with nextId := s.nextId + 1 } : State).serve p a false = _ from served]

theorem State.sramAccess_faults {c : Nat} {v : Word} {u : BitVec 14} (served : s.numbered.serve p a false = (some (.trap c v u), b, t)) (hc : c ≠ 37) :
    s.sramAccess p a f len = .next (t.trap a.hart c v u) := by
  rw [State.sramAccess, if_pos own]
  simp only [show ({ s with nextId := s.nextId + 1 } : State).serve p a false = _ from served, State.faultOf, hc, false_and, if_false]

theorem State.sramAccess_waits (served : s.numbered.serve p a false = (none, true, t)) :
    s.sramAccess p a f len = .next (t.await a.hart [a.id] f 0 len) := by
  rw [State.sramAccess, if_pos own]
  simp only [show ({ s with nextId := s.nextId + 1 } : State).serve p a false = _ from served]

end OwnAccess

/-! ### The four actions -/

section OwnLoad

variable {s : State} {addr : Word} {kind : LdKind} {o : Nat} {d : Fin 32} {len : Nat}

/-- R77: the address to which the entry of the word at an offset redirects a load. -/
def State.redirectAt (s : State) (o : Nat) : Word :=
  Tab.get 0 ((Tab.find? s.myCore.sram.sets (s.myCore.sram.setOf (o / 8))).getD TableSet.init).active.rbase (bits (s.ownEntry o) 9 2) +
    BitVec.ofNat 64 (o % 0x4000)

/-- R75: the own core's SRAM once the entry of the word at an offset has made its tag update. -/
def State.ownUpdate (s : State) (o : Nat) : Sram := s.myCore.sram.update (s.ownerOfHart s.cur) (o / 8) (s.ownEntry o)

/-- R75, R77: the machine between the two bank operations of a redirected load. -/
def State.updatedAt (s : State) (o : Nat) : State := s.numbered.setSram (.core s.cur.core) (s.ownUpdate o)

/-- R77: the tag update does not change where the redirected load goes. -/
theorem State.redirected_updatedAt {a : Access} {target : Word} {p : Nat} (hi : a.issuer = .thread) (hart : a.hart = s.cur)
    (level : a.level = s.me.level) (cls : a.cls = .load) (there : NamesHere s .read target a.esize p) :
    (s.updatedAt o).redirected a target = .here (.core s.cur.core) ((s.updatedAt o).redirectedOwn a target p) (s.updatedAt o) := by
  obtain ⟨range, aligned, permitted⟩ := there
  have bytes : (s.ownUpdate o).cells = s.myCore.sram.cells := Sram.update_cells _ _ _ _
  rw [← hart]
  refine State.redirected_own hi ?_ aligned ?_
  · rw [State.updatedAt, State.rangeAt_setSram s.numbered bytes, hart, level]
    exact range
  · rw [State.updatedAt, State.pmpAt_setSram, hart, level, cls]
    exact permitted

/-- R75, R77: a load of a plain word apart from the one whose tag was updated. -/
theorem State.bankOp_updatedAt {a : Access} {p : Nat} (lone : LoneLoad a (.core s.cur.core) p) (hart : a.hart = s.cur)
    (owner : a.owner = s.ownerOfHart s.cur) (cls : a.cls = .load) (plain : PlainWord s 0 (p / 8)) (apart : p / 8 ≠ o / 8) :
    ∃ r, s.Read r ∧ (s.updatedAt o).bankOp (.core s.cur.core) a false =
      (.done (BitVec.ofNat 512 (s.myCore.sram.readFor (s.ownerOfHart s.cur) p a.esize)) (bit (s.ownEntry p) 7),
        r.numbered.setSram (.core s.cur.core) (s.ownUpdate o)) := by
  have sram : (s.updatedAt o).sram (.core s.cur.core) = s.ownUpdate o := State.sram_setSram_same _ _ _
  have clear : (s.ownUpdate o).OpenAt (p / 8) := plain.toOpenWord.openAt.update_other apart _ _
  have entry : (s.ownUpdate o).entryFor (.core s.cur.core) a (p / 8) = s.ownEntry p := by
    rw [Sram.entryFor, ← hart, kindAt_own cls, State.ownUpdate, Sram.entry_update, Sram.tagFor_update_other _ _ apart, owner]
    rfl
  obtain ⟨passes, keeps⟩ := action_of_low (e := s.ownEntry p) plain.passes
  have checked := Sram.checked_performs lone clear (by rw [entry]; exact passes)
  rw [entry, Sram.update_of_not keeps, owner, State.ownUpdate, Sram.readFor_update] at checked
  obtain ⟨r, bank, read, -⟩ := State.bankOp_lone lone sram clear checked
  rcases read with rfl | rfl
  · exact ⟨s, .inl rfl, bank.trans (by rw [State.updatedAt, State.setSram_core_twice]; rfl)⟩
  · exact ⟨s.tieAt (.core s.cur.core), .inr rfl, bank.trans (by
      rw [show (s.updatedAt o).tieAt (.core s.cur.core) = (s.tieAt (.core s.cur.core)).numbered.setSram (.core s.cur.core) (s.ownUpdate o) from rfl,
        State.setSram_core_twice]
      rfl)⟩

/-- An access of the own SRAM that is answered with a value completes its load. -/
theorem State.LoadCompletes.of_serve {a : Access} {r : State} {m' : Sram} {v : Nat} {q b : Bool} (start : s.me.AtStart) (hart : a.hart = s.cur)
    (read : s.Read r) (updated : s.myCore.sram.Updated m' (s.ownerOfHart s.cur) o (s.ownEntry o))
    (served : s.numbered.serve (.core s.cur.core) a false = (some (.value (BitVec.ofNat 512 v) q), b, r.numbered.setSram (.core s.cur.core) m')) :
    s.LoadCompletes (s.sramAccess (.core s.cur.core) a (.writeX d kind) len) d len o (extend kind (BitVec.ofNat 64 v)) := by
  let x := r.numbered.setSram (.core s.cur.core) m'
  have core : x = r.numbered.setMyCore { s.myCore with sram := m' } := by rcases read with rfl | rfl <;> rfl
  have cur : x.cur = s.cur := by rcases read with rfl | rfl <;> rfl
  have me : x.me = s.me := by
    rw [State.me, State.thread_setSram, cur]
    rcases read with rfl | rfl <;> rfl
  have writes := WritesX.finishAccess (s := x) (me ▸ start) d kind (BitVec.ofNat 512 v) len
  rw [BitVec.setWidth_ofNat_of_le (by decide), cur] at writes
  refine ⟨r, m', x.finishAccess s.cur (.writeX d kind) (BitVec.ofNat 512 v) len, read, updated, ?_, core ▸ writes⟩
  rw [State.sramAccess_answered (by rw [hart]) served, hart]

variable (inWord : o % 8 + ldBytes kind ≤ 8) (clear : OpenWord s (o / 8))
include inWord clear

theorem State.ownLoad_performs (start : s.me.AtStart) (h : bits (s.ownEntry o) 0 3 = 0) :
    s.LoadCompletes (s.sramAccess (.core s.cur.core) (s.ownLoad addr (ldBytes kind) o) (.writeX d kind) len) d len o
      (extend kind (BitVec.ofNat 64 (s.myCore.sram.readFor (s.ownerOfHart s.cur) o (ldBytes kind)))) := by
  have lone := s.loneLoad_ownLoad addr (one_le_ldBytes kind) inWord
  have entry := s.entryFor_ownLoad addr (ldBytes kind) o
  have checked := Sram.checked_performs lone clear.openAt (by rw [entry]; exact h)
  rw [entry] at checked
  obtain ⟨r, bank, read, -⟩ := State.bankOp_lone (s := s.numbered) lone rfl clear.openAt checked
  have updated := s.myCore.sram.updated_update (s.ownerOfHart s.cur) o (s.ownEntry o)
  rcases read with rfl | rfl
  · exact State.LoadCompletes.of_serve start rfl (.inl rfl) updated (State.serve_done bank)
  · exact State.LoadCompletes.of_serve start rfl (.inr rfl) updated (State.serve_done bank)

/-- R77: the bank operation at the word whose entry redirects the load. -/
theorem State.bankOp_ownLoad_redirects (h : bits (s.ownEntry o) 0 3 = 2) :
    s.numbered.bankOp (.core s.cur.core) (s.ownLoad addr (ldBytes kind) o) false = (.redirect (s.redirectAt o), s.updatedAt o) := by
  have entry := s.entryFor_ownLoad addr (ldBytes kind) o
  have lone := s.loneLoad_ownLoad addr (one_le_ldBytes kind) inWord
  have checked := Sram.checked_redirects lone clear.openAt rfl rfl (by rw [entry]; exact h)
  rw [entry] at checked
  exact State.bankOp_not_done (s := s.numbered) lone rfl clear.openAt checked (fun v q e => nomatch e)

theorem State.ownLoad_redirects {p : Nat} (start : s.me.AtStart) (h : bits (s.ownEntry o) 0 3 = 2)
    (there : NamesHere s .read (s.redirectAt o) (ldBytes kind) p) (plain : PlainWord s 0 (p / 8)) (apart : p / 8 ≠ o / 8) :
    s.LoadCompletes (s.sramAccess (.core s.cur.core) (s.ownLoad addr (ldBytes kind) o) (.writeX d kind) len) d len o
      (extend kind (BitVec.ofNat 64 (s.myCore.sram.readFor (s.ownerOfHart s.cur) p (ldBytes kind)))) := by
  have first := State.bankOp_ownLoad_redirects (addr := addr) inWord clear h
  have moved := State.redirected_updatedAt (a := s.ownLoad addr (ldBytes kind) o) (o := o) rfl rfl rfl rfl there
  obtain ⟨r, read, second⟩ := State.bankOp_updatedAt (a := (s.updatedAt o).redirectedOwn (s.ownLoad addr (ldBytes kind) o) (s.redirectAt o) p)
    ⟨rfl, rfl, rfl, one_le_ldBytes kind, there.inWord⟩ rfl rfl rfl plain apart
  exact State.LoadCompletes.of_serve start rfl read (s.myCore.sram.updated_update _ o _) (State.serve_redirect first moved second)

theorem State.ownLoad_waits (h : bits (s.ownEntry o) 0 3 = 1) (runs : s.stoppedHart s.cur = false) :
    s.LoadParks (s.sramAccess (.core s.cur.core) (s.ownLoad addr (ldBytes kind) o) (.writeX d kind) len) addr o := by
  let a := s.ownLoad addr (ldBytes kind) o
  let bank := 8 * (o / 8) / 0x1C000
  let s' := s.numbered.setSram (.core s.cur.core) (s.myCore.sram.taking a bank (o / 8))
  have lone := s.loneLoad_ownLoad addr (one_le_ldBytes kind) inWord
  have checked := Sram.checked_waits lone clear.openAt (by rw [State.entryFor_ownLoad]; exact h)
  have parks : s.numbered.bankOp (.core s.cur.core) a false = (.park bank (o / 8), s.numbered.setSram (.core s.cur.core) s.myCore.sram) :=
    State.bankOp_not_done (s := s.numbered) lone rfl clear.openAt checked (fun v q e => nomatch e)
  have running : (s.numbered.setSram (.core s.cur.core) s.myCore.sram).stoppedHart a.hart = false := by
    rw [State.stoppedHart, State.thread_setSram]
    exact runs
  have served : s.numbered.serve (.core s.cur.core) a false = (none, true, s') := by
    rw [State.serve_park parks, State.parkAccess_taking running, State.sram_setSram_same, State.setSram_core_twice]
  have same : Served s s' := (Served.numbered s).trans
    (Served.setSram s.numbered (.core s.cur.core) _ (Sram.taking_cells ..) (Sram.taking_tags ..) (Sram.taking_owners ..))
  have me : (s'.await s.cur [a.id] (.writeX d kind) 0 len).me = _ := State.thread_setThread_same _ _ _
  have sram : (s'.await s.cur [a.id] (.writeX d kind) 0 len).myCore.sram = s.myCore.sram.taking a bank (o / 8) :=
    (State.sram_setThread s' _ _ (.core s.cur.core)).trans (State.sram_setSram_same _ _ _)
  refine ⟨s'.await s.cur [a.id] (.writeX d kind) 0 len, if s.myCore.sram.parkFree bank then a else { a with bank := bank },
    State.sramAccess_waits rfl served, ?_, ?_, ?_, ?_, same.memory.trans (SameMemory.setThread _ _ _), ?_,
    fun g hg => (State.thread_setThread_other _ _ _ _ hg).trans (same.thread g)⟩
  · rw [me, same.thread s.cur]
    rfl
  · split <;> rfl
  · split <;> rfl
  · split <;> rfl
  · rw [sram, Sram.taking]
    simp only [Sram.parkFree, decide_eq_true_eq]
    split <;> rfl

theorem State.ownLoad_faults (h : 3 ≤ bits (s.ownEntry o) 0 3) :
    s.LoadFaults (s.sramAccess (.core s.cur.core) (s.ownLoad addr (ldBytes kind) o) (.writeX d kind) len) addr o := by
  let a := s.ownLoad addr (ldBytes kind) o
  let s' := s.numbered.setSram (.core s.cur.core) s.myCore.sram
  have lone := s.loneLoad_ownLoad addr (one_le_ldBytes kind) inWord
  have entry := s.entryFor_ownLoad addr (ldBytes kind) o
  have named : a.wordAddr (o / 8) = addr := rfl
  have checked := Sram.checked_faults lone clear.openAt (by rw [entry]; exact h)
  rw [entry, s.utagOf_ownLoad addr (ldBytes kind) o _ (bits_lt _ 0 3), named] at checked
  have faults := State.bankOp_not_done (s := s.numbered) lone rfl clear.openAt checked (fun v q e => nomatch e)
  have same : Served s s' := (Served.numbered s).trans (Served.setSram s.numbered (.core s.cur.core) s.myCore.sram rfl rfl rfl)
  exact ⟨s', State.sramAccess_faults (a := a) (c := 24) rfl (State.serve_trap faults) (by decide), same.memory, rfl, same.thread⟩

end OwnLoad

/-- What a load of n bytes at offset o of the own core's SRAM comes to, by the action of its word's entry. -/
def State.LoadsOwn (s : State) (r : Result) (d : Fin 32) (len : Nat) (addr : Word) (n o : Nat) (f : Nat → Word) : Prop :=
  let m := s.myCore.sram
  let action := bits (s.ownEntry o) 0 3
  (action = 0 → s.LoadCompletes r d len o (f (m.readFor (s.ownerOfHart s.cur) o n))) ∧
  (action = 1 → s.stoppedHart s.cur = false → s.LoadParks r addr o) ∧
  (action = 2 → ∀ p, NamesHere s .read (s.redirectAt o) n p → PlainWord s 0 (p / 8) → p / 8 ≠ o / 8 →
    s.LoadCompletes r d len o (f (m.readFor (s.ownerOfHart s.cur) p n))) ∧
  (3 ≤ action → s.LoadFaults r addr o)

theorem State.load_loadsOwn {s : State} {kind : LdKind} {base : Opnd} {off : BitVec 9} {o : Nat} {f : Nat → Word} (d : Fin 32)
    (start : s.me.AtStart) (clear : OpenWord s (o / 8)) (extends_ : ∀ v, v < 256 ^ ldBytes kind → extend kind (BitVec.ofNat 64 v) = f v)
    (here : NamesHere s .read (s.me.opX base + BitVec.ofInt 64 (off.toInt * ldBytes kind)) (ldBytes kind) o) :
    s.LoadsOwn (s.load kind d base off) d (len1 base) (s.me.opX base + BitVec.ofInt 64 (off.toInt * ldBytes kind)) (ldBytes kind) o f := by
  have value (p : Nat) := extends_ _ (s.myCore.sram.readFor_lt (s.ownerOfHart s.cur) p (ldBytes kind))
  rw [State.load_own here]
  refine ⟨fun h => ?_, State.ownLoad_waits here.inWord clear, fun h p there plain apart => ?_, State.ownLoad_faults here.inWord clear⟩
  · rw [← value o]
    exact State.ownLoad_performs here.inWord clear start h
  · rw [← value p]
    exact State.ownLoad_redirects here.inWord clear start h there plain apart

/-! ### The extension of each load (R176) -/

theorem extend_signed {kind : LdKind} {w : Nat} (hw : w ≤ 64) (h : ∀ v, extend kind v = (v.setWidth w).signExtend 64) (v : Nat) :
    extend kind (BitVec.ofNat 64 v) = (BitVec.ofNat w v).signExtend 64 := by
  rw [h, BitVec.setWidth_ofNat_of_le hw]

theorem extend_unsigned {kind : LdKind} {w : Nat} (hw : w ≤ 64) (h : ∀ v, extend kind v = (v.setWidth w).setWidth 64) (v : Nat) (hv : v < 2 ^ w) :
    extend kind (BitVec.ofNat 64 v) = BitVec.ofNat 64 v := by
  rw [h, BitVec.setWidth_ofNat_of_le hw]
  exact BitVec.eq_of_toNat_eq (by simp [Nat.mod_eq_of_lt hv])

/-- Settles O10: the entry of the word that the load names decides among the four outcomes of the bank operation. -/
theorem localLoads : Obligations.LocalLoads := by
  unfold Obligations.LocalLoads
  intro s k d base off o start clear
  have loads (kind : LdKind) (f : Nat → Word) := State.load_loadsOwn (kind := kind) (base := base) (off := off) (f := f) d start clear
  exact ⟨loads .b _ fun v _ => extend_signed (w := 8) (by decide) (fun _ => rfl) v, loads .bu _ (extend_unsigned (w := 8) (by decide) fun _ => rfl),
    loads .h _ fun v _ => extend_signed (w := 16) (by decide) (fun _ => rfl) v, loads .hu _ (extend_unsigned (w := 16) (by decide) fun _ => rfl),
    loads .w _ fun v _ => extend_signed (w := 32) (by decide) (fun _ => rfl) v, loads .wu _ (extend_unsigned (w := 32) (by decide) fun _ => rfl),
    loads .d _ fun _ _ => rfl⟩

end Sys2Proof.Machine
end

section
/-! SUPPORT. Scalar floating-point conversions (R98, R174): O7. -/

namespace Sys2Proof.Machine

/-- The n-bit pattern of an integer, as a bit vector: narrowing wraps modulo 2^n. -/
theorem ofNat_ofSigned (n : Nat) (v : Int) : BitVec.ofNat n (ofSigned n v) = BitVec.ofInt n v :=
  BitVec.eq_of_toNat_eq (by rw [ofSigned, ← BitVec.toNat_ofInt, BitVec.ofNat_toNat, BitVec.setWidth_eq])

/-- R172, R174: a scalar floating-point operation on one operand writes its pattern to d and accrues its flags. -/
theorem State.fp1_writes (s : State) (d : Fin 32) (a : Opnd) (p : Bool) (f : Rm → Nat → FRes) :
    ∃ t, s.fp1 d a p f = .next t ∧
      WritesX s t d (BitVec.ofNat 64 (f (rmOf s.me.fmode) (s.me.opF p a)).bits) (f (rmOf s.me.fmode) (s.me.opF p a)).fl (len1 a) :=
  ⟨_, rfl, WritesX.retire ..⟩

theorem exec_fcvtPrecision (k : Bool) (d : Fin 32) (a : Opnd) (p : Bool) (s : State) :
    exec (.fcvtPrecision k d a p) s = execFcvtPrecision d a p s := rfl

theorem exec_fcvtToInt (k : Bool) (d : Fin 32) (a : Opnd) (p : Bool) (s : State) : exec (.fcvtToInt k d a p) s = execFcvtToInt d a p s := rfl

theorem exec_fcvtFromInt (k : Bool) (d : Fin 32) (a : Opnd) (p : Bool) (s : State) :
    exec (.fcvtFromInt k d a p) s = execFcvtFromInt d a p s := rfl

/-- Settles O7: each conversion writes one register; the result of the conversion to an integer is narrowed to 64 bits. -/
theorem scalarConversionResults : Obligations.ScalarConversionResults := by
  unfold Obligations.ScalarConversionResults
  intro s k d a p
  simp only [exec_fcvtPrecision, exec_fcvtToInt, exec_fcvtFromInt, ← ofNat_ofSigned]
  exact ⟨s.fp1_writes d a p _, s.fp1_writes d a p _, _, rfl, WritesX.retire ..⟩

end Sys2Proof.Machine
end

section
/-! SUPPORT. Reductions and scans of lanes (R102, R215): O30. VRED's tree is described by the lanes that each of its levels leaves, and VSCAN's
chain by its running result. -/

namespace Sys2Proof.Machine

/-! ## Lanes of a vector that is written lane by lane (R200) -/

theorem lanesNat_lt (w : Nat) (f : Nat → Nat) (n : Nat) : lanesNat w f n < 2 ^ (8 * w * n) := by
  induction n with
  | zero => simp [lanesNat]
  | succ n ih =>
    have top : f n % 2 ^ (8 * w) + 1 ≤ 2 ^ (8 * w) := Nat.mod_lt _ (by positivity)
    calc lanesNat w f (n + 1)
        < (f n % 2 ^ (8 * w) + 1) * 2 ^ (8 * w * n) := by rw [lanesNat, add_mul]; omega
      _ ≤ 2 ^ (8 * w) * 2 ^ (8 * w * n) := Nat.mul_le_mul_right _ top
      _ = 2 ^ (8 * w * (n + 1)) := by rw [← pow_add]; ring_nf

theorem toNat_ofNat_lanesNat (w : Nat) (f : Nat → Nat) {n m : Nat} (hm : 8 * w * n ≤ m) :
    (BitVec.ofNat m (lanesNat w f n)).toNat = lanesNat w f n :=
  Nat.mod_eq_of_lt ((lanesNat_lt w f n).trans_le (Nat.pow_le_pow_right two_pos hm))

theorem lanesNat_lane (w : Nat) (f : Nat → Nat) {n i : Nat} (hi : i < n) :
    lanesNat w f n / 2 ^ (8 * w * i) % 2 ^ (8 * w) = f i % 2 ^ (8 * w) := by
  induction n with
  | zero => omega
  | succ n ih =>
    obtain below | rfl : i < n ∨ i = n := by omega
    · have split : 2 ^ (8 * w * n) = 2 ^ (8 * w * i) * (2 ^ (8 * w) * 2 ^ (8 * w * (n - i - 1))) := by
        rw [← pow_add, ← pow_add, add_comm (8 * w), ← Nat.mul_succ, ← Nat.mul_add]
        congr 2
        omega
      rw [lanesNat, split, ← mul_assoc, mul_right_comm, mul_comm _ (2 ^ (8 * w * i)), Nat.add_mul_div_left _ _ (by positivity), mul_left_comm,
        Nat.add_mul_mod_self_left, ih below]
    · rw [lanesNat, Nat.add_mul_div_right _ _ (by positivity), Nat.div_eq_of_lt (lanesNat_lt w f i), zero_add, Nat.mod_mod]

theorem toNat_vecOf (w : Nat) (f : Nat → Nat) : (vecOf w f).toNat = lanesNat w f (64 / w) := by
  have := Nat.mul_div_le 64 w
  exact toNat_ofNat_lanesNat w f (by rw [mul_assoc]; omega)

theorem lane_vecOf (w : Nat) (f : Nat → Nat) {i : Nat} (hi : i < 64 / w) : lane (vecOf w f) w i = f i % 2 ^ (8 * w) := by
  rw [lane, BitVec.extractLsb'_toNat, toNat_vecOf, Nat.shiftRight_eq_div_pow, lanesNat_lane w f hi]

/-! ## Flags accrued over a list of results -/

theorem getLsbD_foldl_flags (l : List FRes) (fl : Flags) (q : Nat) :
    (l.foldl (fun acc r => acc ||| r.fl) fl).getLsbD q = true ↔ fl.getLsbD q = true ∨ ∃ r ∈ l, r.fl.getLsbD q = true := by
  induction l generalizing fl with
  | nil => simp
  | cons r l ih => simp [ih, or_assoc]

theorem getLsbD_foldl_flags_map (f : Nat → FRes) (n q : Nat) :
    (((List.range n).map f).foldl (fun acc (r : FRes) => acc ||| r.fl) 0).getLsbD q = true ↔ ∃ i, i < n ∧ (f i).fl.getLsbD q = true := by
  simp [getLsbD_foldl_flags]

/-! ## The tree of VRED, level by level -/

/-- R102: the lanes after j levels of the tree over the n lanes x: level j combines lane i with lane i + n / 2^j. -/
def treeLanes (step : Nat → Nat → FRes) (n : Nat) (x : Nat → Nat) : Nat → Nat → Nat
  | 0, i => x i
  | j + 1, i => (step (treeLanes step n x j i) (treeLanes step n x j (i + n / 2 ^ (j + 1)))).bits

/-- The tree's later levels are the tree over what its first level leaves. -/
theorem treeLanes_tail (step : Nat → Nat → FRes) (n : Nat) (x : Nat → Nat) (j i : Nat) :
    treeLanes step (n / 2) (treeLanes step n x 1) j i = treeLanes step n x (j + 1) i := by
  induction j generalizing i with
  | zero => rfl
  | succ j ih =>
    have half : n / 2 / 2 ^ (j + 1) = n / 2 ^ (j + 2) := by rw [Nat.div_div_eq_div_mul, ← Nat.pow_succ']
    rw [treeLanes, ih, ih, half, ← treeLanes]

theorem treeLanes_one (step : Nat → Nat → FRes) (depth : Nat) (x : Nat → Nat) (i : Nat) :
    treeLanes step (2 ^ (depth + 1)) x 1 i = (step (x i) (x (i + 2 ^ depth))).bits := by
  simp [treeLanes, pow_succ]

theorem treeLevel_map (step : Nat → Nat → FRes) (n : Nat) (x : Nat → Nat) :
    treeLevel step ((List.range n).map x) = (List.range (n / 2)).map (fun i => step (x i) (x (i + n / 2))) := by
  refine List.ext_getElem ?_ fun i h h' => ?_
  · simp [treeLevel]
    omega
  · simp [treeLevel, add_comm]

theorem bits_treeLevel_map (step : Nat → Nat → FRes) (n : Nat) (x : Nat → Nat) :
    (treeLevel step ((List.range n).map x)).map FRes.bits = (List.range (n / 2)).map (treeLanes step n x 1) := by
  rw [treeLevel_map, List.map_map]
  exact List.map_congr_left fun i _ => by simp [treeLanes]

theorem bits_tree (step : Nat → Nat → FRes) (depth : Nat) {n : Nat} (x : Nat → Nat) (hn : 2 ^ depth ≤ n) :
    (tree step depth ((List.range n).map x)).bits = treeLanes step n x depth 0 := by
  induction depth generalizing n x with
  | zero =>
    obtain ⟨m, rfl⟩ := Nat.exists_eq_add_of_le' hn
    simp [tree, treeLanes, List.range_succ_eq_map]
  | succ depth ih => rw [tree, bits_treeLevel_map, ih _ (by omega), treeLanes_tail]

theorem flags_tree (step : Nat → Nat → FRes) (depth n : Nat) (x : Nat → Nat) (q : Nat) :
    (tree step depth ((List.range n).map x)).fl.getLsbD q = true ↔ ∃ j i, j < depth ∧ i < n / 2 ^ (j + 1) ∧
      (step (treeLanes step n x j i) (treeLanes step n x j (i + n / 2 ^ (j + 1)))).fl.getLsbD q = true := by
  induction depth generalizing n x with
  | zero => simp [tree]
  | succ depth ih =>
    rw [tree, bits_treeLevel_map, treeLevel_map, BitVec.getLsbD_or, Bool.or_eq_true, ih, getLsbD_foldl_flags_map]
    simp only [treeLanes_tail, Nat.div_div_eq_div_mul, ← Nat.pow_succ']
    constructor
    · rintro (⟨j, i, hj, hi, h⟩ | ⟨i, hi, h⟩)
      · exact ⟨j + 1, i, by omega, hi, h⟩
      · exact ⟨0, i, by omega, by simpa using hi, by simpa [treeLanes] using h⟩
    · rintro ⟨j, i, hj, hi, h⟩
      cases j with
      | zero => exact .inr ⟨i, by simpa using hi, by simpa [treeLanes] using h⟩
      | succ j => exact .inl ⟨j, i, by omega, hi, h⟩

/-! ## What the tree of integers computes -/

/-- A step that keeps one of its operands, one that the other is related to, makes the tree keep such a lane. -/
theorem tree_selects {step : Nat → Nat → FRes} {r : Nat → Nat → Prop} (trans : ∀ {a b c}, r a b → r b c → r a c) (refl : ∀ a, r a a)
    (keeps : ∀ a b, (step a b).bits = a ∧ r b a ∨ (step a b).bits = b ∧ r a b) {depth n : Nat} (hn : n = 2 ^ depth) (x : Nat → Nat) :
    let top := (tree step depth ((List.range n).map x)).bits
    (∀ i, i < n → r (x i) top) ∧ ∃ i, i < n ∧ x i = top := by
  subst hn
  induction depth generalizing x with
  | zero =>
    refine ⟨fun i hi => ?_, 0, by decide, rfl⟩
    obtain rfl : i = 0 := by omega
    exact refl _
  | succ depth ih =>
    have half : 2 ^ (depth + 1) / 2 = 2 ^ depth := by omega
    have left (a b : Nat) : r a (step a b).bits := by
      obtain ⟨e, _⟩ | ⟨e, le⟩ := keeps a b <;> rw [e]
      · exact refl a
      · exact le
    have right (a b : Nat) : r b (step a b).bits := by
      obtain ⟨e, le⟩ | ⟨e, _⟩ := keeps a b <;> rw [e]
      · exact le
      · exact refl b
    obtain ⟨above, i, hi, found⟩ := ih (treeLanes step (2 ^ (depth + 1)) x 1)
    simp only [treeLanes_one] at above found
    rw [tree, bits_treeLevel_map, half]
    refine ⟨fun i hi => ?_, ?_⟩
    · by_cases low : i < 2 ^ depth
      · exact trans (left _ _) (above i low)
      · have pair := above (i - 2 ^ depth) (by omega)
        rw [Nat.sub_add_cancel (by omega)] at pair
        exact trans (right _ _) pair
    · obtain ⟨e, _⟩ | ⟨e, _⟩ := keeps (x i) (x (i + 2 ^ depth)) <;> rw [e] at found
      · exact ⟨i, by omega, found⟩
      · exact ⟨i + 2 ^ depth, by omega, found⟩

/-- A step that adds m-bit numbers makes the tree their sum. -/
theorem tree_sums {m : Nat} {step : Nat → Nat → FRes} (adds : ∀ a b, BitVec.ofNat m (step a b).bits = BitVec.ofNat m a + BitVec.ofNat m b)
    {depth n : Nat} (hn : n = 2 ^ depth) (x : Nat → Nat) :
    BitVec.ofNat m (tree step depth ((List.range n).map x)).bits = ((List.range n).map (fun i => BitVec.ofNat m (x i))).sum := by
  subst hn
  induction depth generalizing x with
  | zero => simp [tree]
  | succ depth ih =>
    have half : 2 ^ (depth + 1) / 2 = 2 ^ depth := by omega
    have both : 2 ^ (depth + 1) = 2 ^ depth + 2 ^ depth := by omega
    rw [tree, bits_treeLevel_map, half, ih]
    simp only [treeLanes_one, adds, List.sum_map_add]
    rw [both, List.range_add, List.map_append, List.sum_append, List.map_map]
    simp only [Function.comp_def, add_comm]

/-! ## The lanes that enter, and integer steps (R102) -/

/-- R102: lane i of a vector, or the identity where m0 leaves it out. -/
def laneOr (m0 : Word32) (w : Nat) (v : Vec) (ident i : Nat) : Nat := if active m0 w i then lane v w i else ident

/-- R102: a lane as VRED widens it to FP32. -/
def widened (f : Fmt) (w x : Nat) : FRes := if w = 4 then ⟨x, 0⟩ else widen f x

/-- R102: what enters the tree of a floating VRED from lane i. -/
def wideLane (op : RedOp) (f : Fmt) (rm : Rm) (m0 : Word32) (w : Nat) (v : Vec) (i : Nat) : FRes :=
  if active m0 w i then widened f w (lane v w i) else ⟨fpIdentity op .f32 rm, 0⟩

/-- R102: a step on n-bit integers, which raises no flag. -/
def intRes (op : RedOp) (n x y : Nat) : FRes := ⟨intStep op n x y, 0⟩

theorem sext_eq_toInt (n v : Nat) : sext n v = (BitVec.ofNat n v).toInt := by
  rw [sext, BitVec.toInt_eq_toNat_cond, BitVec.toNat_ofNat]
  cases n with
  | zero => simp [Nat.mod_one]
  | succ n => grind

theorem sext_maxIdentity (lt : LType) : sext (8 * lt.bytes) (intIdentity .max (8 * lt.bytes)) = -2 ^ (8 * lt.bytes - 1) := by
  cases lt <;> decide

theorem sext_minIdentity (lt : LType) : sext (8 * lt.bytes) (intIdentity .min (8 * lt.bytes)) = 2 ^ (8 * lt.bytes - 1) - 1 := by
  cases lt <;> decide

theorem intRes_sum_adds (n a b : Nat) : BitVec.ofNat n (intRes .sum n a b).bits = BitVec.ofNat n a + BitVec.ofNat n b :=
  BitVec.eq_of_toNat_eq (by simp [intRes, intStep])

theorem intRes_max_keeps (n a b : Nat) :
    (intRes .max n a b).bits = a ∧ sext n b ≤ sext n a ∨ (intRes .max n a b).bits = b ∧ sext n a ≤ sext n b := by
  simp only [intRes, intStep]
  split <;> omega

theorem intRes_min_keeps (n a b : Nat) :
    (intRes .min n a b).bits = a ∧ sext n a ≤ sext n b ∨ (intRes .min n a b).bits = b ∧ sext n b ≤ sext n a := by
  simp only [intRes, intStep]
  split <;> omega

/-- Modulo 2^n, the sum of the active lanes' values is the sum of all lanes with 0 in the inactive ones. -/
theorem ofInt_sum_active (n : Nat) (act : Nat → Bool) (x : Nat → Nat) (l : List Nat) :
    BitVec.ofInt n (((l.filter act).map (fun i => (BitVec.ofNat n (x i)).toInt)).sum) =
      (l.map (fun i => BitVec.ofNat n (if act i then x i else 0))).sum := by
  induction l with
  | nil => simp
  | cons i l ih => cases h : act i <;> simp [h, ih, BitVec.ofInt_add]

/-! ## VRED (R215) -/

/-- R200: every lane type has a power of two of lanes. -/
theorem lanes_eq_two_pow (lt : LType) : 64 / lt.bytes = 2 ^ Nat.log2 (64 / lt.bytes) := by
  cases lt <;> decide

theorem reduce_float {op : RedOp} {lt : LType} {f : Fmt} (h : ltFmt? lt = some f) (rm : Rm) (m0 : Word32) (v : Vec) :
    reduce op lt rm m0 v =
      let n := 64 / lt.bytes
      let lane := wideLane op f rm m0 lt.bytes v
      let r := tree (fpStep op .f32 rm) (Nat.log2 n) ((List.range n).map (fun i => (lane i).bits))
      ⟨r.bits, r.fl ||| ((List.range n).map lane).foldl (fun acc q => acc ||| q.fl) 0⟩ := by
  unfold reduce
  rw [h]
  simp only [List.map_map]
  rfl

/-- R102: the lane that an integer VRED ends in. -/
def intTop (op : RedOp) (lt : LType) (m0 : Word32) (v : Vec) : Nat :=
  (tree (intRes op (8 * lt.bytes)) (Nat.log2 (64 / lt.bytes))
    ((List.range (64 / lt.bytes)).map (laneOr m0 lt.bytes v (intIdentity op (8 * lt.bytes))))).bits

theorem reduce_int {lt : LType} (h : ltFmt? lt = none) (op : RedOp) (rm : Rm) (m0 : Word32) (v : Vec) :
    reduce op lt rm m0 v = ⟨ofSigned 32 (sext (8 * lt.bytes) (intTop op lt m0 v)), 0⟩ := by
  unfold reduce
  rw [h]
  rfl

/-- R102: the lanes of each level of a floating VRED. -/
def floatLevels (op : RedOp) (f : Fmt) (rm : Rm) (m0 : Word32) (w : Nat) (v : Vec) : Nat → Nat → Nat :=
  treeLanes (fpStep op .f32 rm) (64 / w) (fun i => (wideLane op f rm m0 w v i).bits)

theorem bits_reduce_float {op : RedOp} {lt : LType} {f : Fmt} (h : ltFmt? lt = some f) (rm : Rm) (m0 : Word32) (v : Vec) :
    (reduce op lt rm m0 v).bits = floatLevels op f rm m0 lt.bytes v (Nat.log2 (64 / lt.bytes)) 0 := by
  rw [reduce_float h]
  exact bits_tree _ _ _ (lanes_eq_two_pow lt).ge

theorem flags_reduce_float {op : RedOp} {lt : LType} {f : Fmt} (h : ltFmt? lt = some f) (rm : Rm) (m0 : Word32) (v : Vec) (q : Nat) :
    let n := 64 / lt.bytes
    let level := floatLevels op f rm m0 lt.bytes v
    (reduce op lt rm m0 v).fl.getLsbD q = true ↔
      (∃ i, i < n ∧ active m0 lt.bytes i = true ∧ (widened f lt.bytes (lane v lt.bytes i)).fl.getLsbD q = true) ∨
      ∃ j i, j < Nat.log2 n ∧ i < n / 2 ^ (j + 1) ∧ (fpStep op .f32 rm (level j i) (level j (i + n / 2 ^ (j + 1)))).fl.getLsbD q = true := by
  have entering (i : Nat) : (wideLane op f rm m0 lt.bytes v i).fl.getLsbD q = true ↔
      active m0 lt.bytes i = true ∧ (widened f lt.bytes (lane v lt.bytes i)).fl.getLsbD q = true := by
    rw [wideLane]
    split <;> simp [*]
  rw [reduce_float h, BitVec.getLsbD_or, Bool.or_eq_true, or_comm, getLsbD_foldl_flags_map]
  exact or_congr (by simp only [entering]) (flags_tree ..)

theorem execVred_writes (s : State) (k : Bool) (d : Fin 32) (a : Opnd) (op : RedOp) (lt : LType) {r : FRes}
    (h : reduce op lt (rmOf s.me.fmode) (s.me.getM 0) (s.me.opV lt a) = r) :
    ∃ t, exec (.vred k d a op lt) s = .next t ∧ WritesV s t d (BitVec.ofNat 512 r.bits) r.fl (len1 a) :=
  h ▸ ⟨_, rfl, WritesV.retire ..⟩

theorem sext_intTop_sum (lt : LType) (m0 : Word32) (v : Vec) :
    let w := lt.bytes
    sext (8 * w) (intTop .sum lt m0 v) = (BitVec.ofInt (8 * w)
      (((List.range (64 / w)).filter (active m0 w)).map (fun i => (BitVec.ofNat (8 * w) (lane v w i)).toInt)).sum).toInt := by
  intro w
  rw [sext_eq_toInt, ofInt_sum_active, intTop, tree_sums (intRes_sum_adds _) (lanes_eq_two_pow lt)]
  rfl

/-- R102: where each step keeps the lane that r prefers, VRED ends in the value preferred to every active lane: one of them, or the identity. -/
theorem sext_intTop_selects {op : RedOp} {lt : LType} {r : Int → Int → Prop} (trans : ∀ {a b c}, r a b → r b c → r a c)
    (refl : ∀ a, r a a)
    (keeps : ∀ a b, (intRes op (8 * lt.bytes) a b).bits = a ∧ r (sext (8 * lt.bytes) b) (sext (8 * lt.bytes) a) ∨
      (intRes op (8 * lt.bytes) a b).bits = b ∧ r (sext (8 * lt.bytes) a) (sext (8 * lt.bytes) b)) (m0 : Word32) (v : Vec) :
    let w := lt.bytes
    let num (i : Nat) : Int := (BitVec.ofNat (8 * w) (lane v w i)).toInt
    let top := sext (8 * w) (intTop op lt m0 v)
    (∀ i, i < 64 / w → active m0 w i = true → r (num i) top) ∧
      (top = sext (8 * w) (intIdentity op (8 * w)) ∨ ∃ i, i < 64 / w ∧ active m0 w i = true ∧ num i = top) := by
  intro w num top
  obtain ⟨preferred, i, hi, found⟩ := tree_selects (r := fun a b => r (sext (8 * w) a) (sext (8 * w) b)) trans (fun _ => refl _) keeps
    (lanes_eq_two_pow lt) (laneOr m0 w v (intIdentity op (8 * w)))
  have entering (i : Nat) (act : active m0 w i = true) : sext (8 * w) (laneOr m0 w v (intIdentity op (8 * w)) i) = num i := by
    rw [laneOr, if_pos act, sext_eq_toInt]
  refine ⟨fun i hi act => entering i act ▸ preferred i hi, ?_⟩
  have same : sext (8 * w) (laneOr m0 w v (intIdentity op (8 * w)) i) = top := congrArg _ found
  by_cases act : active m0 w i = true
  · exact .inr ⟨i, hi, act, entering i act ▸ same⟩
  · exact .inl (by rw [← same, laneOr, if_neg act])

/-! ## VSCAN's chain -/

/-- R102: lane i of the scan: lane 0 is x 0, and each later one combines the one before with its own. -/
def chain (step : Nat → Nat → FRes) (x : Nat → Nat) : Nat → Nat
  | 0 => x 0
  | i + 1 => (step (chain step x i) (x (i + 1))).bits

/-- R102: the n results of the scan of x with their flags. -/
def chainResults (step : Nat → Nat → FRes) (x : Nat → Nat) (n : Nat) : List FRes :=
  ⟨x 0, 0⟩ :: (List.range' 0 (n - 1)).map (fun i => step (chain step x i) (x (i + 1)))

theorem scanFrom_chain (step : Nat → Nat → FRes) (x : Nat → Nat) (k n : Nat) :
    scanFrom step (chain step x k) ((List.range' (k + 1) n).map x) =
      (List.range' k n).map (fun i => step (chain step x i) (x (i + 1))) := by
  induction n generalizing k with
  | zero => rfl
  | succ n ih => simpa [List.range'_succ, scanFrom, chain] using ih (k + 1)

theorem bits_chainResults (step : Nat → Nat → FRes) (x : Nat → Nat) {n i : Nat} (hi : i < n) :
    ((chainResults step x n).getD i ⟨0, 0⟩).bits = chain step x i := by
  cases i with
  | zero => rfl
  | succ i => simp [chainResults, chain, List.getD, show i < n - 1 by omega]

theorem flags_chainResults (step : Nat → Nat → FRes) (x : Nat → Nat) (n q : Nat) :
    ((chainResults step x n).foldl (fun acc (r : FRes) => acc ||| r.fl) 0).getLsbD q = true ↔
      ∃ i, i + 1 < n ∧ (step (chain step x i) (x (i + 1))).fl.getLsbD q = true := by
  simp only [chainResults, List.foldl_cons, ← List.range_eq_range', ← Nat.lt_sub_iff_add_lt]
  exact getLsbD_foldl_flags_map ..

theorem range_lanes (lt : LType) : List.range (64 / lt.bytes) = 0 :: List.range' 1 (64 / lt.bytes - 1) := by
  cases lt <;> rfl

theorem scanLanes_float {op : RedOp} {lt : LType} {f : Fmt} (h : ltFmt? lt = some f) (rm : Rm) (m0 : Word32) (v : Vec) :
    scanLanes op lt rm m0 v = chainResults (fpStep op f rm) (laneOr m0 lt.bytes v (fpIdentity op f rm)) (64 / lt.bytes) := by
  simp only [scanLanes, h, range_lanes]
  exact congrArg _ (scanFrom_chain (fpStep op f rm) (laneOr m0 lt.bytes v (fpIdentity op f rm)) 0 _)

theorem scanLanes_int {lt : LType} (h : ltFmt? lt = none) (op : RedOp) (rm : Rm) (m0 : Word32) (v : Vec) :
    scanLanes op lt rm m0 v =
      chainResults (intRes op (8 * lt.bytes)) (laneOr m0 lt.bytes v (intIdentity op (8 * lt.bytes))) (64 / lt.bytes) := by
  simp only [scanLanes, h, range_lanes]
  exact congrArg _ (scanFrom_chain (intRes op (8 * lt.bytes)) (laneOr m0 lt.bytes v (intIdentity op (8 * lt.bytes))) 0 _)

/-- R215: VSCAN writes the lanes of its chain and accrues the flags of the chain's steps. -/
theorem execVscan_writes (s : State) (k : Bool) (d : Fin 32) (a : Opnd) (op : RedOp) (lt : LType) {step : Nat → Nat → FRes} {x : Nat → Nat}
    (h : scanLanes op lt (rmOf s.me.fmode) (s.me.getM 0) (s.me.opV lt a) = chainResults step x (64 / lt.bytes)) :
    ∃ t fl v, exec (.vscan k d a op lt) s = .next t ∧ WritesV s t d v fl (len1 a) ∧
      (∀ i, i < 64 / lt.bytes → lane v lt.bytes i = chain step x i % 2 ^ (8 * lt.bytes)) ∧
      ∀ q, fl.getLsbD q = true ↔ ∃ i, i + 1 < 64 / lt.bytes ∧ (step (chain step x i) (x (i + 1))).fl.getLsbD q = true := by
  refine ⟨_, _, _, rfl, WritesV.retire .., fun i hi => ?_, fun q => ?_⟩
  · rw [lane_vecOf _ _ hi, h, bits_chainResults _ _ hi]
  · rw [h, flags_chainResults]

/-- R102: an integer scan for the sum holds in lane i the active lanes up to i, modulo 2^n. -/
theorem chain_sum (n : Nat) (m0 : Word32) (w : Nat) (v : Vec) (i : Nat) :
    chain (intRes .sum n) (laneOr m0 w v 0) i % 2 ^ n = (((List.range (i + 1)).filter (active m0 w)).map (lane v w)).sum % 2 ^ n := by
  induction i with
  | zero => cases h : active m0 w 0 <;> simp [chain, laneOr, List.range_succ, h]
  | succ i ih =>
    rw [List.range_succ, List.filter_append, List.map_append, List.sum_append, Nat.add_mod, ← ih]
    cases h : active m0 w (i + 1) <;> simp [chain, laneOr, intRes, intStep, h]

/-! ## The statement -/

/-- Settles O30: the levels of the tree and the chain are the witnesses; the integer results follow by induction on the tree's depth, and on the
lane of the scan. -/
theorem vectorReductions : Obligations.VectorReductions := by
  unfold Obligations.VectorReductions
  intro s k d a op lt w n rm x act num
  refine ⟨fun f hf => ⟨?redFloat, ?scanFloat⟩, fun hf => ⟨?redInt, ?scanInt⟩⟩
  case redFloat =>
    obtain ⟨t, run, writes⟩ := execVred_writes s k d a op lt rfl
    rw [bits_reduce_float hf] at writes
    exact ⟨t, _, _, run, writes, fun i _ => apply_ite FRes.bits .., fun _ _ _ _ => rfl, fun q _ => flags_reduce_float hf ..⟩
  case scanFloat =>
    obtain ⟨t, fl, v, run, writes, lanes, flags⟩ := execVscan_writes s k d a op lt (scanLanes_float hf ..)
    exact ⟨t, fl, v, _, run, writes, rfl, fun _ _ => rfl, lanes, fun q _ => flags q⟩
  case redInt =>
    obtain ⟨t, run, writes⟩ := execVred_writes s k d a op lt (reduce_int hf ..)
    refine ⟨t, _, run, writes, ?sum, ?max, ?min⟩
    case sum =>
      rintro rfl
      exact sext_intTop_sum ..
    case max =>
      rintro rfl
      rw [← sext_maxIdentity]
      exact sext_intTop_selects (r := (· ≤ ·)) le_trans le_refl (intRes_max_keeps _) ..
    case min =>
      rintro rfl
      rw [← sext_minIdentity]
      exact sext_intTop_selects (r := (· ≥ ·)) ge_trans le_refl (intRes_min_keeps _) ..
  case scanInt =>
    obtain ⟨t, fl, v, run, writes, lanes, flags⟩ := execVscan_writes s k d a op lt (scanLanes_int hf ..)
    obtain rfl : fl = 0 := BitVec.eq_of_getLsbD_eq fun q _ => by simpa [intRes] using flags q
    refine ⟨t, v, _, run, writes, rfl, fun _ _ => rfl, lanes, ?sum⟩
    rintro rfl i hi
    rw [lanes i hi]
    exact chain_sum ..

end Sys2Proof.Machine
end

section
/-! SUPPORT. Commands of the attention and comet instructions at issue, and the held ones in the engine (R119, R227, R228, R256 to R269): O36. -/

namespace Sys2Proof.Machine

/-! ## Checks -/

/-- R228: checks that find no failure let the command pass. -/
theorem firstSome_eq_none_iff {α : Type} {l : List (Option α)} : firstSome l = none ↔ ∀ o ∈ l, o = none := List.findSome?_eq_none_iff

@[simp] theorem firstSome_cons_some {α : Type} (x : α) (l : List (Option α)) : firstSome (some x :: l) = some x := rfl

@[simp] theorem firstSome_cons_none {α : Type} (l : List (Option α)) : firstSome (none :: l) = firstSome l := rfl

@[simp] theorem firstSome_nil {α : Type} : firstSome ([] : List (Option α)) = none := rfl

@[simp] theorem atCause_none (cause : Nat) : atCause cause none = none := rfl

theorem rootFail_present {root : Word} (h : rootBase root ≠ 0) : rootFail root = none := if_neg h

theorem rootFail_absent {root : Word} (h : rootBase root = 0) : rootFail root = some (25, BitVec.ofNat 64 (2 ^ 58)) := if_pos h

/-- R261: the rows of ATTN.FIN pass the checks of their addresses when each of them does. -/
theorem rows_pass {n size : Nat} {row : Nat → Word} (fail : Word → Option Word)
    (h : ∀ r, r < n → fail (row r) = none ∧ (row r).toNat % size = 0) :
    firstSome (((List.range n).map row).map fail) = none ∧ ((List.range n).map row).find? (fun p => decide (p.toNat % size ≠ 0)) = none := by
  refine ⟨firstSome_eq_none_iff.mpr ?_, List.find?_eq_none.mpr ?_⟩
  · simpa using fun r hr => (h r hr).1
  · simpa using fun r hr => (h r hr).2

/-! ## Entry into the queue -/

/-- R243, R228: a thread that is neither a drain nor a spill thread, and has no deferred fault, goes on to its instruction. -/
theorem State.engineGate_open {s : State} (hdrain : isDrain s.cur = false) (hspill : isSpill s.cur = false) (hf : s.me.deferred = none) (f : Result) :
    s.engineGate f = f := by
  simp only [State.engineGate, State.takeDeferred, hdrain, hspill, hf, Bool.or_self, Bool.false_eq_true, if_false]

/-- R227: instruction i puts command c in the queue and completes, or waits for a place in it. -/
def EntersOrWaits (s : State) (i : Instr) (c : Cmd) : Prop :=
  (s.myCore.queue.length < 2 → Enqueues s i c) ∧ (2 ≤ s.myCore.queue.length → ∃ t, exec i s = .next t ∧ Waits s t .engine)

/-- R256: instruction i puts command c in the queue and holds its thread, or waits for a place. -/
def EntersHeldOrWaits (s : State) (i : Instr) (c : Cmd) : Prop :=
  (2 ≤ s.myCore.queue.length → ∃ t, exec i s = .next t ∧ Waits s t .engine) ∧
  (s.myCore.queue.length < 2 → ∃ t, exec i s = .next t ∧ Waits (s.entered c) t .held)

section Issue

variable {s : State} {i : Instr} {c : Cmd}

theorem State.whenRoom_full (full : 2 ≤ s.myCore.queue.length) (f : Result) : s.whenRoom f = s.block .engine := if_pos full

theorem State.whenRoom_room (room : s.myCore.queue.length < 2) (f : Result) : s.whenRoom f = f := if_neg (Nat.not_le.mpr room)

/-- R227: a command that passes its checks. -/
theorem State.issueCmd_enters (run : exec i s = s.issueCmd none c) : EntersOrWaits s i c := by
  refine ⟨fun room => ⟨_, run.trans (State.whenRoom_room room _), Passes.retire (s.entered c) c.len⟩, fun full => ?_⟩
  rw [run, State.issueCmd, State.whenRoom_full full]
  exact Waits.block s .engine

/-- R256: a held command that passes its checks. -/
theorem State.issueHeld_enters (run : exec i s = s.issueHeld none c) : EntersHeldOrWaits s i c := by
  refine ⟨fun full => ?_, fun room => ?_⟩ <;> rw [run, State.issueHeld]
  · rw [State.whenRoom_full full]
    exact Waits.block s .engine
  · rw [State.whenRoom_room room]
    exact Waits.block (s.entered c) .held

theorem State.issueCmd_fails (room : s.myCore.queue.length < 2) (cause : Nat) (v : Word) (c : Cmd) :
    s.issueCmd (some (cause, v)) c = s.trapMe cause v := State.whenRoom_room room _

theorem State.issueHeld_fails (room : s.myCore.queue.length < 2) (cause : Nat) (v : Word) (c : Cmd) :
    s.issueHeld (some (cause, v)) c = s.trapMe cause v := State.whenRoom_room room _

/-- R259: the checks of ATTN.RUN whose operands are well formed are those of a comet instruction. -/
theorem exec_attnRun {a b : Opnd} (ok : runOk (s.me.opX a) (s.me.opX b) = true) (k : Bool) :
    exec (.attnRun k a b) s = s.issueComet (s.mkCmd (.attnRun false a b) (s.me.opX a) (s.me.opX b) (len2 a b)) := by
  change execAttnRun a b s = _
  rw [execAttnRun, State.issueComet, if_pos ok]
  cases rootFail s.myCore.cmroot <;> rfl

/-- R263: the comet instructions that read the tree. -/
theorem exec_treeCommand {k : Bool} {d : Fin 32} {a b : Opnd}
    (h : i ∈ [Instr.cmAppend k a, .cmFill k d a b, .cmFree k d a b, .cmLookup k d a b, .cmShare k d a]) (s : State) :
    ∃ c, exec i s = s.issueComet c := by
  simp only [List.mem_cons, List.not_mem_nil, or_false] at h
  rcases h with rfl | rfl | rfl | rfl | rfl <;> exact ⟨_, rfl⟩

/-! ## Attention and comet instructions past the gate of the engine -/

variable (gate : ∀ f, s.engineGate f = f)
include gate

/-- R256: a queued attention command whose checks pass. -/
theorem State.issueAttn_enters {checks : List (Option (Nat × Word))} (root : rootBase s.myCore.cmroot ≠ 0)
    (run : exec i s = s.issueAttn checks c) (pass : ∀ o ∈ checks, o = none) : EntersOrWaits s i c := by
  refine State.issueCmd_enters ?_
  rw [run, State.issueAttn, gate, rootFail_present root, firstSome_cons_none, firstSome_eq_none_iff.mpr pass]

theorem State.issueAttn_rootless (absent : rootBase s.myCore.cmroot = 0) (room : s.myCore.queue.length < 2)
    (checks : List (Option (Nat × Word))) (c : Cmd) : s.issueAttn checks c = s.trapMe 25 (BitVec.ofNat 64 (2 ^ 58)) := by
  rw [State.issueAttn, gate, rootFail_absent absent, firstSome_cons_some, State.issueCmd_fails room]

/-- R263: a comet instruction in a context with a root, outside the react half of a strict domain. -/
theorem State.issueComet_enters (root : rootBase s.myCore.cmroot ≠ 0) (lax : s.strictReact s.cur = false)
    (run : exec i s = s.issueComet c) : EntersHeldOrWaits s i c := by
  refine State.issueHeld_enters ?_
  rw [run, State.issueComet, gate, rootFail_present root, firstSome_cons_none, if_neg (by simp [lax]), firstSome_cons_none, firstSome_nil]

theorem State.issueComet_strict (root : rootBase s.myCore.cmroot ≠ 0) (strict : s.strictReact s.cur = true) (room : s.myCore.queue.length < 2)
    (c : Cmd) : s.issueComet c = s.trapMe 32 s.myCore.cmroot := by
  rw [State.issueComet, gate, rootFail_present root, firstSome_cons_none, if_pos strict, firstSome_cons_some, State.issueHeld_fails room]

theorem State.issueHeld_rootless (absent : rootBase s.myCore.cmroot = 0) (room : s.myCore.queue.length < 2)
    (checks : List (Option (Nat × Word))) (c : Cmd) :
    s.engineGate (s.issueHeld (firstSome (rootFail s.myCore.cmroot :: checks)) c) = s.trapMe 25 (BitVec.ofNat 64 (2 ^ 58)) := by
  rw [gate, rootFail_absent absent, firstSome_cons_some, State.issueHeld_fails room]

end Issue

/-! ## A held command in the engine -/

theorem State.heldWaits_of_outstanding {s : State} {r : Running} {a b : Opnd} {d : Fin 32} (away : s.outstandingIn r.cmd.hart .dev = true)
    (h : r.cmd.instr ∈ [Instr.attnRun false a b, .cmAppend false a, .cmFill false d a b, .cmFree false d a b, .cmLookup false d a b,
      .cmShare false d a]) : s.heldWaits r = true := by
  obtain ⟨held, reads⟩ : isHeld r.cmd.instr = true ∧ r.cmd.instr ≠ .cmInval false := by
    simp only [List.mem_cons, List.not_mem_nil, or_false] at h
    rcases h with h | h | h | h | h | h <;> rw [h] <;> exact ⟨rfl, nofun⟩
  simp only [State.heldWaits, held, decide_eq_true reads, away, Bool.and_self]

/-- R256: the engine's turn on a command that waits changes nothing. -/
theorem exec_matrixCommandCompletion_waits {s : State} {core : Nat} {r : Running} (running : (s.core core).running = some r)
    (idle : (s.core core).loading = none) (port : r.port.wait = none) (waits : s.heldWaits r = true) :
    exec (.matrixCommandCompletion core) s = .next s := by
  have kept : s.forsaken r.port = false := by rw [State.forsaken, port]
  change execMatrixCommandCompletion core s = _
  simp only [execMatrixCommandCompletion, running, idle, ite_self, kept, waits, Bool.false_eq_true, if_false, if_true]

/-! ## The statement -/

/-- Settles O36: past the engine's gate an instruction issues as a queued or as a held command, and enters or traps as its checks answer. -/
theorem attentionAndCometIssue : Obligations.AttentionAndCometIssue := by
  unfold Obligations.AttentionAndCometIssue
  intro s k d a b hdrain hspill hf x w h e root rows hd cmd enters held size finRow
  have gate := State.engineGate_open hdrain hspill hf
  refine ⟨fun present => ⟨?qld, ?merge, ?st, ?fin, fun lax => ⟨?run, ?append, ?fill, ?free, ?lookup, ?share⟩,
    fun strict room => ⟨?runStrict, ?cometStrict⟩⟩, ?inval, ?waits, ?rootless⟩
  case qld =>
    intro query mask aligned maskAligned formats
    refine State.issueAttn_enters gate present rfl ?_
    simp [query, mask, aligned, maskAligned, formats, x, w, h, rows, hd, root]
  case merge =>
    intro range aligned
    refine State.issueAttn_enters gate present rfl ?_
    simp [range, aligned, x, h, rows, hd, root]
  case st =>
    intro range aligned
    refine State.issueAttn_enters gate present rfl ?_
    simp [range, aligned, x, h, rows, hd, root]
  case fin =>
    intro format reserved fits
    obtain ⟨ranges, aligned⟩ := rows_pass (s.rangeFail h · (hd * size)) fits
    refine State.issueAttn_enters gate present rfl ?_
    simp only [List.forall_mem_cons, List.not_mem_nil, false_implies, implies_true, and_true]
    exact ⟨if_neg (Nat.not_le.mpr format), congrArg (atCause 34) ranges, congrArg (atCause 4) aligned, if_pos (decide_eq_true reserved)⟩
  case run => exact fun ok => State.issueComet_enters gate present lax (exec_attnRun ok k)
  case append => exact State.issueComet_enters gate present lax rfl
  case fill => exact State.issueComet_enters gate present lax rfl
  case free => exact State.issueComet_enters gate present lax rfl
  case lookup => exact State.issueComet_enters gate present lax rfl
  case share => exact State.issueComet_enters gate present lax rfl
  case runStrict => exact fun ok => (exec_attnRun ok k).trans (State.issueComet_strict gate present strict room _)
  case cometStrict =>
    intro i hi
    obtain ⟨c, run⟩ := exec_treeCommand hi s
    exact run.trans (State.issueComet_strict gate present strict room c)
  case inval => exact State.issueHeld_enters (gate _)
  case waits => exact fun r running idle port mem away =>
    exec_matrixCommandCompletion_waits running idle port (State.heldWaits_of_outstanding away mem)
  case rootless =>
    intro absent room i hi
    simp only [List.mem_cons, List.not_mem_nil, or_false] at hi
    rcases hi with rfl | rfl | rfl | rfl | rfl | comet
    · exact State.issueAttn_rootless gate absent room _ _
    · exact State.issueHeld_rootless gate absent room _ _
    · exact State.issueAttn_rootless gate absent room _ _
    · exact State.issueAttn_rootless gate absent room _ _
    · exact State.issueAttn_rootless gate absent room _ _
    · obtain ⟨c, run⟩ := exec_treeCommand (by simpa using comet) s
      exact run.trans (State.issueHeld_rootless gate absent room _ c)

end Sys2Proof.Machine
end

section
/-! SUPPORT. Branches and jumps (R146, R163, R164): O5. -/

namespace Sys2Proof.Machine

/-- R146: an offset field counts halfwords, with its sign. -/
theorem two_mul_signExtend {n : Nat} (off : BitVec n) : 2 * off.signExtend 64 = BitVec.ofInt 64 (2 * off.toInt) := by
  rw [BitVec.ofInt_mul, BitVec.signExtend]
  rfl

section Branch

variable {i : Instr} {s : State} {a b : Opnd} {off : BitVec 9} {p : Word → Word → Bool} (run : exec i s = s.branch a b off p)
include run

theorem branch_taken (h : p (s.me.opX a) (s.me.opX b) = true) :
    ∃ t, exec i s = .next t ∧ JumpsTo s t (s.me.pc + BitVec.ofInt 64 (2 * off.toInt)) none := by
  refine ⟨_, ?_, JumpsTo.jump s _⟩
  rw [run, State.branch, if_pos h, branchTarget, two_mul_signExtend]

theorem branch_untaken (h : p (s.me.opX a) (s.me.opX b) = false) : ∃ t, exec i s = .next t ∧ Passes s t (len2 a b) := by
  refine ⟨_, ?_, Passes.retire s _⟩
  rw [run, State.branch, h, if_neg Bool.false_ne_true]

/-- R163: a branch goes to its target just when its condition holds. -/
theorem branch_iff {q : Prop} (h : p (s.me.opX a) (s.me.opX b) = true ↔ q) :
    (q → ∃ t, exec i s = .next t ∧ JumpsTo s t (s.me.pc + BitVec.ofInt 64 (2 * off.toInt)) none) ∧
    (¬ q → ∃ t, exec i s = .next t ∧ Passes s t (len2 a b)) :=
  ⟨fun hq => branch_taken run (h.mpr hq), fun hq => branch_untaken run (Bool.eq_false_iff.mpr (mt h.mp hq))⟩

end Branch

/-- R146: a jump writes its link just when its target is even. -/
theorem State.link_iff (s : State) (d : Fin 32) (g : Word) (len : Nat) :
    (g.getLsbD 0 = false → ∃ t, s.link d g len = .next t ∧ JumpsTo s t g (some (d, s.me.pc + BitVec.ofNat 64 len))) ∧
    (g.getLsbD 0 = true → s.link d g len = s.trapMe 0 g) := by
  refine ⟨fun even => ⟨_, ?_, JumpsTo.link s g d _⟩, fun odd => ?_⟩
  · rw [State.link, bit, even, if_neg Bool.false_ne_true]
  · rw [State.link, bit, odd, if_pos rfl]

/-- Settles O5: every branch is `State.branch` with its condition, and both jumps with a link are `State.link` with their target. -/
theorem branchesAndJumps : Obligations.BranchesAndJumps := by
  unfold Obligations.BranchesAndJumps
  intro s k d a b off joff x y target branch jump
  refine ⟨branch_iff (p := fun u v => decide (u = v)) rfl ?eq, branch_iff (p := fun u v => decide (u ≠ v)) rfl ?ne,
    branch_iff (p := BitVec.slt) rfl ?lt, branch_iff (p := fun u v => !u.slt v) rfl ?ge, branch_iff (p := BitVec.ult) rfl ?ltu,
    branch_iff (p := fun u v => !u.ult v) rfl ?geu,
    ⟨_, ?j, JumpsTo.jump s _⟩, ?jal, ?jalr⟩
  case eq => exact decide_eq_true_iff
  case ne => exact decide_eq_true_iff
  case lt => exact BitVec.slt_iff_toInt_lt
  case ge => simp [x, y, BitVec.slt_eq_decide]
  case ltu => exact BitVec.ult_iff_lt
  case geu => simp [x, y, BitVec.ult_eq_decide]
  case j =>
    rw [← two_mul_signExtend]
    rfl
  case jal =>
    have run : exec (.jal k d b off) s = s.link d (s.me.pc + target) (len1 b) := by
      rw [← BitVec.add_assoc, ← two_mul_signExtend]
      rfl
    simpa only [jump, run] using State.link_iff s d (s.me.pc + target) (len1 b)
  case jalr =>
    have run : exec (.jalr k d b off) s = s.link d target (len1 b) := by
      simp only [target, ← two_mul_signExtend]
      rfl
    simpa only [jump, run] using State.link_iff s d target (len1 b)

end Sys2Proof.Machine
end

section
/-! SUPPORT. The level check of the privileged instructions (R150, R324): O41. -/

namespace Sys2Proof.Machine

theorem State.privileged_denied {s : State} {i : Instr} (word : i.isHalf = false) (h : privOk s.cur.core s.me.level i = false) (r : Result) :
    s.privileged i r = s.trapMe 2 ((encodeWord i).setWidth 64) := by
  rw [State.privileged, h, if_neg Bool.false_ne_true, State.illegal, patternOf, word, if_neg Bool.false_ne_true]

/-- R324: each instruction that Table 22.1 restricts does what it does behind the level check. -/
theorem exec_privileged {k : Bool} {d : Fin 32} {a b : Opnd} {i : Instr}
    (h : i ∈ [Instr.mret k, .sret k, .wfi k, .tlbWr k d a b, .tlbInv k d a b, .xlateDrain k a b, .mxSave k a, .mxLoad k d a, .ctxHalt k d a b,
      .ctxSave k d a b]) (s : State) : i.isHalf = false ∧ ∃ r, exec i s = s.privileged i r := by
  simp only [List.mem_cons, List.not_mem_nil, or_false] at h
  rcases h with rfl | rfl | rfl | rfl | rfl | rfl | rfl | rfl | rfl | rfl <;> exact ⟨rfl, _, rfl⟩

/-- Table 22.1 marks none of them at U. -/
theorem level_ne_u_of_privOk {k : Bool} {d : Fin 32} {a b : Opnd} {i : Instr}
    (h : i ∈ [Instr.mret k, .sret k, .wfi k, .tlbWr k d a b, .tlbInv k d a b, .xlateDrain k a b, .mxSave k a, .mxLoad k d a, .ctxHalt k d a b,
      .ctxSave k d a b]) {core : Nat} {l : Level} (ok : privOk core l i = true) : l ≠ .u := by
  rintro rfl
  simp only [List.mem_cons, List.not_mem_nil, or_false] at h
  rcases h with rfl | rfl | rfl | rfl | rfl | rfl | rfl | rfl | rfl | rfl <;> simp [privOk] at ok

/-- Settles O41: each of the instructions stands behind the level check, which no thread at U passes. -/
theorem privilegeIsChecked : Obligations.PrivilegeIsChecked := by
  unfold Obligations.PrivilegeIsChecked
  intro s k d a b i hi
  obtain ⟨word, r, run⟩ := exec_privileged hi s
  exact ⟨fun denied => run.trans (State.privileged_denied word denied r), fun ok => level_ne_u_of_privOk hi ok⟩

end Sys2Proof.Machine
end

section
/-! SUPPORT. Words that the spec works out (Tables 10.9, 11.2, 12.4, 13.3, 14.3, 15.2, 22.2): O58. -/

namespace Sys2Proof

/-- Settles O58: each word, decoded. -/
theorem decodeWords : Obligations.DecodeWords := by
  unfold Obligations.DecodeWords
  decide

end Sys2Proof
end

section
/-! SUPPORT. The fields of a word in each format (Tables 10.1 to 10.5): what each field of a word holds, and that a word is made of its fields. -/

namespace Sys2Proof

/-! ## Fields of joined vectors -/

theorem extractLsb'_append_low {n m lo len : Nat} (x : BitVec n) (y : BitVec m) (h : lo + len ≤ m) :
    (x ++ y).extractLsb' lo len = y.extractLsb' lo len := by
  ext i hi
  have below : lo + i < m := by omega
  simp [BitVec.getLsbD_append, below]

theorem extractLsb'_append_high {n m lo len : Nat} (x : BitVec n) (y : BitVec m) (h : m ≤ lo) :
    (x ++ y).extractLsb' lo len = x.extractLsb' (lo - m) len := by
  ext i hi
  have above : ¬ lo + i < m := by omega
  simp [BitVec.getLsbD_append, above, Nat.sub_add_comm h]

theorem extractLsb'_append_head {n m : Nat} (x : BitVec n) (y : BitVec m) : (x ++ y).extractLsb' m n = x := by
  rw [extractLsb'_append_high _ _ (Nat.le_refl m), Nat.sub_self, BitVec.extractLsb'_eq_self]

theorem getLsbD_append_low {n m i : Nat} (x : BitVec n) (y : BitVec m) (h : i < m) : (x ++ y).getLsbD i = y.getLsbD i := by
  simp [BitVec.getLsbD_append, h]

theorem ofBool_getLsbD {n : Nat} (x : BitVec n) (i : Nat) : BitVec.ofBool (x.getLsbD i) = x.extractLsb' i 1 := by
  ext j hj
  obtain rfl : j = 0 := by omega
  simp

@[simp] theorem fld6_toNat (n : Nat) : (fld6 n).toNat = n % 64 := by simp [fld6]

@[simp] theorem fld6_of_toNat (c : BitVec 6) : fld6 c.toNat = c := by simp [fld6]

/-! ## The low byte -/

theorem lowByte_marker (m : Nat) (k : Bool) : (lowByte m k).getLsbD 1 = k := by
  rw [lowByte, getLsbD_append_low _ _ (by decide), BitVec.getLsbD_append]
  simp

theorem lowByte_major (m : Nat) (k : Bool) : (lowByte m k).extractLsb' 2 6 = fld6 m := by
  rw [lowByte, extractLsb'_append_head]

/-- The low byte of a word whose length bit is set. -/
theorem lowByte_of_word (w : BitVec 32) (h : w.getLsbD 0 = true) : lowByte (majorOf w) (w.getLsbD 1) = w.extractLsb' 0 8 := by
  have length : (1#1) = w.extractLsb' 0 1 := by rw [← ofBool_getLsbD, h, BitVec.ofBool_true]; rfl
  rw [lowByte, majorOf, fld6_of_toNat, ofBool_getLsbD, length, BitVec.extractLsb'_append_extractLsb'_eq_extractLsb' (by rfl),
    BitVec.extractLsb'_append_extractLsb'_eq_extractLsb' (by rfl)]

/-! ## Formats G and E -/

section G

variable (k : Bool) (m f d a b : Nat)

@[simp] theorem majorOf_gWord : majorOf (gWord k m f d a b) = m % 64 := by
  rw [majorOf, gWord]
  iterate 4 rw [extractLsb'_append_low _ _ (by decide)]
  rw [lowByte_major, fld6_toNat]

theorem gWord_marker : (gWord k m f d a b).getLsbD 1 = k := by
  rw [gWord]
  iterate 4 rw [getLsbD_append_low _ _ (by decide)]
  rw [lowByte_marker]

@[simp] theorem gWord_funct : (gWord k m f d a b).extractLsb' 8 6 = fld6 f := by
  rw [gWord]
  iterate 3 rw [extractLsb'_append_low _ _ (by decide)]
  rw [extractLsb'_append_head]

@[simp] theorem gWord_d : (gWord k m f d a b).extractLsb' 14 6 = fld6 d := by
  rw [gWord]
  iterate 2 rw [extractLsb'_append_low _ _ (by decide)]
  rw [extractLsb'_append_head]

@[simp] theorem gWord_a : (gWord k m f d a b).extractLsb' 20 6 = fld6 a := by
  rw [gWord, extractLsb'_append_low _ _ (by decide), extractLsb'_append_head]

@[simp] theorem gWord_b : (gWord k m f d a b).extractLsb' 26 6 = fld6 b := by
  rw [gWord, extractLsb'_append_head]

end G

theorem gWord_of_fields (w : BitVec 32) (h : w.getLsbD 0 = true) :
    gWord (w.getLsbD 1) (majorOf w) (w.extractLsb' 8 6).toNat (w.extractLsb' 14 6).toNat (w.extractLsb' 20 6).toNat
      (w.extractLsb' 26 6).toNat = w := by
  rw [gWord, lowByte_of_word w h]
  simp only [fld6_of_toNat]
  iterate 4 rw [BitVec.extractLsb'_append_extractLsb'_eq_extractLsb' (by rfl)]
  exact BitVec.extractLsb'_eq_self

/-! ## Formats I, M and B -/

section M

variable (k : Bool) (m f c1 c2 : Nat) (off : BitVec 9)

@[simp] theorem majorOf_mWord : majorOf (mWord k m f c1 c2 off) = m % 64 := by
  rw [majorOf, mWord]
  iterate 4 rw [extractLsb'_append_low _ _ (by decide)]
  rw [lowByte_major, fld6_toNat]

theorem mWord_marker : (mWord k m f c1 c2 off).getLsbD 1 = k := by
  rw [mWord]
  iterate 4 rw [getLsbD_append_low _ _ (by decide)]
  rw [lowByte_marker]

@[simp] theorem mWord_funct : (mWord k m f c1 c2 off).extractLsb' 8 3 = BitVec.ofNat 3 f := by
  rw [mWord]
  iterate 3 rw [extractLsb'_append_low _ _ (by decide)]
  rw [extractLsb'_append_head]

@[simp] theorem mWord_c1 : (mWord k m f c1 c2 off).extractLsb' 11 6 = fld6 c1 := by
  rw [mWord]
  iterate 2 rw [extractLsb'_append_low _ _ (by decide)]
  rw [extractLsb'_append_head]

@[simp] theorem mWord_c2 : (mWord k m f c1 c2 off).extractLsb' 17 6 = fld6 c2 := by
  rw [mWord, extractLsb'_append_low _ _ (by decide), extractLsb'_append_head]

@[simp] theorem mWord_off : (mWord k m f c1 c2 off).extractLsb' 23 9 = off := by
  rw [mWord, extractLsb'_append_head]

end M

theorem mWord_of_fields (w : BitVec 32) (h : w.getLsbD 0 = true) :
    mWord (w.getLsbD 1) (majorOf w) (w.extractLsb' 8 3).toNat (w.extractLsb' 11 6).toNat (w.extractLsb' 17 6).toNat (w.extractLsb' 23 9) = w := by
  rw [mWord, lowByte_of_word w h]
  simp only [fld6_of_toNat, BitVec.ofNat_toNat, BitVec.setWidth_eq]
  iterate 4 rw [BitVec.extractLsb'_append_extractLsb'_eq_extractLsb' (by rfl)]
  exact BitVec.extractLsb'_eq_self

/-! ## The offset field of ordered accesses (Table 10.5) -/

section Imm9

variable (scope dir size sign : Nat)

theorem imm9_scope : (imm9 scope dir size sign).extractLsb' 6 3 = BitVec.ofNat 3 scope := by
  rw [imm9, extractLsb'_append_head]

theorem imm9_dir : (imm9 scope dir size sign).extractLsb' 5 1 = BitVec.ofNat 1 dir := by
  rw [imm9, extractLsb'_append_low _ _ (by decide), extractLsb'_append_head]

theorem imm9_size : (imm9 scope dir size sign).extractLsb' 3 2 = BitVec.ofNat 2 size := by
  rw [imm9]
  iterate 2 rw [extractLsb'_append_low _ _ (by decide)]
  rw [extractLsb'_append_head]

theorem imm9_sign : (imm9 scope dir size sign).extractLsb' 2 1 = BitVec.ofNat 1 sign := by
  rw [imm9]
  iterate 3 rw [extractLsb'_append_low _ _ (by decide)]
  rw [extractLsb'_append_head]

theorem imm9_reserved : (imm9 scope dir size sign).extractLsb' 0 2 = 0#2 := by
  rw [imm9]
  iterate 4 rw [extractLsb'_append_low _ _ (by decide)]
  rw [BitVec.extractLsb'_eq_self]

variable (k : Bool) (m f c1 c2 : Nat)

@[simp] theorem mWord_scope : (mWord k m f c1 c2 (imm9 scope dir size sign)).extractLsb' 29 3 = BitVec.ofNat 3 scope := by
  rw [mWord, extractLsb'_append_high _ _ (by decide)]
  exact imm9_scope ..

@[simp] theorem mWord_dir : (mWord k m f c1 c2 (imm9 scope dir size sign)).extractLsb' 28 1 = BitVec.ofNat 1 dir := by
  rw [mWord, extractLsb'_append_high _ _ (by decide)]
  exact imm9_dir ..

@[simp] theorem mWord_size : (mWord k m f c1 c2 (imm9 scope dir size sign)).extractLsb' 26 2 = BitVec.ofNat 2 size := by
  rw [mWord, extractLsb'_append_high _ _ (by decide)]
  exact imm9_size ..

@[simp] theorem mWord_sign : (mWord k m f c1 c2 (imm9 scope dir size sign)).extractLsb' 25 1 = BitVec.ofNat 1 sign := by
  rw [mWord, extractLsb'_append_high _ _ (by decide)]
  exact imm9_sign ..

@[simp] theorem mWord_reserved : (mWord k m f c1 c2 (imm9 scope dir size sign)).extractLsb' 23 2 = 0#2 := by
  rw [mWord, extractLsb'_append_high _ _ (by decide)]
  exact imm9_reserved ..

end Imm9

theorem imm9_of_fields (w : BitVec 32) (h : (w.extractLsb' 23 2).toNat = 0) :
    imm9 (w.extractLsb' 29 3).toNat (w.extractLsb' 28 1).toNat (w.extractLsb' 26 2).toNat (w.extractLsb' 25 1).toNat = w.extractLsb' 23 9 := by
  have reserved : (0#2) = w.extractLsb' 23 2 := (BitVec.eq_of_toNat_eq h).symm
  simp only [imm9, reserved, BitVec.ofNat_toNat, BitVec.setWidth_eq]
  iterate 4 rw [BitVec.extractLsb'_append_extractLsb'_eq_extractLsb' (by rfl)]

/-! ## Major 0x07 (Table 10.4) -/

section Csr

variable (k : Bool) (f c : Nat) (csr : BitVec 12)

@[simp] theorem majorOf_csrWord : majorOf (csrWord k f c csr) = 7 := by
  rw [majorOf, csrWord]
  iterate 4 rw [extractLsb'_append_low _ _ (by decide)]
  rw [lowByte_major, fld6_toNat]

theorem csrWord_marker : (csrWord k f c csr).getLsbD 1 = k := by
  rw [csrWord]
  iterate 4 rw [getLsbD_append_low _ _ (by decide)]
  rw [lowByte_marker]

@[simp] theorem csrWord_funct : (csrWord k f c csr).extractLsb' 8 3 = BitVec.ofNat 3 f := by
  rw [csrWord]
  iterate 3 rw [extractLsb'_append_low _ _ (by decide)]
  rw [extractLsb'_append_head]

@[simp] theorem csrWord_c1 : (csrWord k f c csr).extractLsb' 11 6 = fld6 c := by
  rw [csrWord]
  iterate 2 rw [extractLsb'_append_low _ _ (by decide)]
  rw [extractLsb'_append_head]

@[simp] theorem csrWord_csr : (csrWord k f c csr).extractLsb' 17 12 = csr := by
  rw [csrWord, extractLsb'_append_low _ _ (by decide), extractLsb'_append_head]

@[simp] theorem csrWord_reserved : (csrWord k f c csr).extractLsb' 29 3 = 0#3 := by
  rw [csrWord, extractLsb'_append_head]

end Csr

theorem csrWord_of_fields (w : BitVec 32) (h : w.getLsbD 0 = true) (major : majorOf w = 7) (h0 : (w.extractLsb' 29 3).toNat = 0) :
    csrWord (w.getLsbD 1) (w.extractLsb' 8 3).toNat (w.extractLsb' 11 6).toNat (w.extractLsb' 17 12) = w := by
  have reserved : (0#3) = w.extractLsb' 29 3 := (BitVec.eq_of_toNat_eq h0).symm
  rw [csrWord, ← major, lowByte_of_word w h, reserved]
  simp only [fld6_of_toNat, BitVec.ofNat_toNat, BitVec.setWidth_eq]
  iterate 4 rw [BitVec.extractLsb'_append_extractLsb'_eq_extractLsb' (by rfl)]
  exact BitVec.extractLsb'_eq_self

/-! ## Format J -/

@[simp] theorem majorOf_jWord (k : Bool) (off : BitVec 24) : majorOf (jWord k off) = 6 := by
  rw [majorOf, jWord, extractLsb'_append_low _ _ (by decide), lowByte_major, fld6_toNat]

theorem jWord_marker (k : Bool) (off : BitVec 24) : (jWord k off).getLsbD 1 = k := by
  rw [jWord, getLsbD_append_low _ _ (by decide), lowByte_marker]

@[simp] theorem jWord_off (k : Bool) (off : BitVec 24) : (jWord k off).extractLsb' 8 24 = off := by
  rw [jWord, extractLsb'_append_head]

theorem jWord_of_fields (w : BitVec 32) (h : w.getLsbD 0 = true) (major : majorOf w = 6) : jWord (w.getLsbD 1) (w.extractLsb' 8 24) = w := by
  rw [jWord, ← major, lowByte_of_word w h, BitVec.extractLsb'_append_extractLsb'_eq_extractLsb' (by rfl)]
  exact BitVec.extractLsb'_eq_self

/-! ## The 16-bit form (Table 10.1) -/

section Half

variable (k : Bool) (op : Nat) (d s : Fin 32)

theorem halfWord_marker : (halfWord k op d s).getLsbD 1 = k := by
  rw [halfWord]
  iterate 3 rw [getLsbD_append_low _ _ (by decide)]
  rw [BitVec.getLsbD_append]
  simp

@[simp] theorem halfWord_op : (halfWord k op d s).extractLsb' 2 4 = BitVec.ofNat 4 op := by
  rw [halfWord]
  iterate 2 rw [extractLsb'_append_low _ _ (by decide)]
  rw [extractLsb'_append_head]

@[simp] theorem halfWord_d : (halfWord k op d s).extractLsb' 6 5 = BitVec.ofFin (w := 5) d := by
  rw [halfWord, extractLsb'_append_low _ _ (by decide), extractLsb'_append_head]

@[simp] theorem halfWord_s : (halfWord k op d s).extractLsb' 11 5 = BitVec.ofFin (w := 5) s := by
  rw [halfWord, extractLsb'_append_head]

end Half

theorem halfWord_of_fields (h : BitVec 16) (h0 : h.getLsbD 0 = false) :
    halfWord (h.getLsbD 1) (h.extractLsb' 2 4).toNat (h.extractLsb' 6 5).toFin (h.extractLsb' 11 5).toFin = h := by
  have length : (0#1) = h.extractLsb' 0 1 := by rw [← ofBool_getLsbD, h0, BitVec.ofBool_false]; rfl
  simp only [halfWord, ofBool_getLsbD, length, BitVec.ofNat_toNat, BitVec.setWidth_eq]
  iterate 4 rw [BitVec.extractLsb'_append_extractLsb'_eq_extractLsb' (by rfl)]
  exact BitVec.extractLsb'_eq_self

end Sys2Proof
end

section
/-! SUPPORT. Operand codes and selectors (Table 10.7, R142, R143, R149): reading the code of a value gives the value, and only that code does. -/

namespace Sys2Proof

/-! ## Operands and their literals -/

/-- The operand with the literal that follows its word in place of its own. -/
def Opnd.relit (lit : BitVec 64) : Opnd → Opnd
  | .lit32 _ => .lit32 (lit.setWidth 32)
  | .lit64 _ => .lit64 lit
  | o => o

@[simp] theorem Opnd.okFor_relit (lit : BitVec 64) (c : OpClass) (o : Opnd) : (o.relit lit).okFor c = o.okFor c := by cases o <;> rfl

@[simp] theorem Opnd.isLit_relit (lit : BitVec 64) (o : Opnd) : (o.relit lit).isLit = o.isLit := by cases o <;> rfl

@[simp] theorem oneLit_relit (lit : BitVec 64) (a b : Opnd) : oneLit (a.relit lit) (b.relit lit) = oneLit a b := by simp [oneLit]

@[simp] theorem oneLit3_relit (lit : BitVec 64) (d a b : Opnd) : oneLit3 (d.relit lit) (a.relit lit) (b.relit lit) = oneLit3 d a b := by
  simp [oneLit3]

@[simp] theorem opnd_fld6_code (o : Opnd) (lit : BitVec 64) : opnd (fld6 o.code) lit = some (o.relit lit) := by
  cases o with
  | reg n =>
    have code : n.val % 64 = n.val := Nat.mod_eq_of_lt (by omega)
    simp [opnd, Opnd.code, Opnd.relit, code]
  | const c =>
    have code : (32 + c.val) % 64 = 32 + c.val := Nat.mod_eq_of_lt (by omega)
    simp [opnd, Opnd.code, Opnd.relit, code]
  | lit32 w => simp [opnd, Opnd.code, Opnd.relit]
  | lit64 w => simp [opnd, Opnd.code, Opnd.relit]

/-- Table 10.7: each code that names an operand names one, with the literal that follows. -/
@[simp] theorem opnd_eq_some_iff {c : BitVec 6} {lit : BitVec 64} {o : Opnd} : opnd c lit = some o ↔ c.toNat = o.code ∧ o.relit lit = o := by
  constructor
  · intro h
    unfold opnd at h
    split_ifs at h <;> obtain rfl := Option.some.inj h <;> simp only [Opnd.code, Opnd.relit, and_self, and_true] <;> omega
  · rintro ⟨code, same⟩
    rw [← fld6_of_toNat c, code, opnd_fld6_code, same]

/-! ## Registers and unused fields -/

@[simp] theorem regField_eq_some_iff {n : Nat} {c : BitVec 6} {r : Fin n} : regField n c = some r ↔ c.toNat = r.val := by
  unfold regField
  split
  · simp [Fin.ext_iff]
  · simp
    omega

@[simp] theorem regField_fld6 {n : Nat} (h : n ≤ 64) (r : Fin n) : regField n (fld6 r.val) = some r :=
  regField_eq_some_iff.mpr ((fld6_toNat _).trans (Nat.mod_eq_of_lt (by omega)))

@[simp] theorem unusedField_eq_some_iff {c : BitVec 6} {u : Unit} : unusedField c = some u ↔ c.toNat = 0 := by simp [unusedField]

@[simp] theorem unusedField_fld6_zero : unusedField (fld6 0) = some () := rfl

@[simp] theorem selField_eq_some_iff {n : Nat} {c : BitVec 6} {r : Fin n} : selField n c = some r ↔ c.toNat = 32 + r.val := by
  unfold selField
  split_ifs
  · simp only [Option.some.injEq, Fin.ext_iff]
    omega
  · simp
    omega
  · simp
    omega

@[simp] theorem selField_fld6 {n : Nat} (h : n ≤ 32) (r : Fin n) : selField n (fld6 (32 + r.val)) = some r :=
  selField_eq_some_iff.mpr ((fld6_toNat _).trans (Nat.mod_eq_of_lt (by omega)))

/-! ## Selectors -/

@[simp] theorem ftypeOf_code (t : FType) : ftypeOf t.code = some t := by cases t <;> rfl

@[simp] theorem ftypeOf_eq_some_iff {n : Nat} {t : FType} : ftypeOf n = some t ↔ n = t.code := by
  refine ⟨fun h => ?_, fun h => h ▸ ftypeOf_code t⟩
  unfold ftypeOf at h
  split_ifs at h <;> obtain rfl := Option.some.inj h <;> assumption

@[simp] theorem ltypeOf_code (t : LType) : ltypeOf t.code = some t := by cases t <;> rfl

@[simp] theorem ltypeOf_eq_some_iff {n : Nat} {t : LType} : ltypeOf n = some t ↔ n = t.code := by
  refine ⟨fun h => ?_, fun h => h ▸ ltypeOf_code t⟩
  unfold ltypeOf at h
  split_ifs at h <;> obtain rfl := Option.some.inj h <;> assumption

@[simp] theorem widthOf_code (t : Width) : widthOf t.code = some t := by cases t <;> rfl

@[simp] theorem widthOf_eq_some_iff {n : Nat} {t : Width} : widthOf n = some t ↔ n = t.code := by
  refine ⟨fun h => ?_, fun h => h ▸ widthOf_code t⟩
  unfold widthOf at h
  split_ifs at h <;> obtain rfl := Option.some.inj h <;> assumption

@[simp] theorem packOf_code (t : Pack) : packOf t.code = some t := by cases t <;> rfl

@[simp] theorem packOf_eq_some_iff {n : Nat} {t : Pack} : packOf n = some t ↔ n = t.code := by
  refine ⟨fun h => ?_, fun h => h ▸ packOf_code t⟩
  unfold packOf at h
  split_ifs at h <;> obtain rfl := Option.some.inj h <;> assumption

@[simp] theorem mfmtOf_code (t : MFmt) : mfmtOf t.code = some t := by cases t <;> rfl

@[simp] theorem mfmtOf_eq_some_iff {n : Nat} {t : MFmt} : mfmtOf n = some t ↔ n = t.code := by
  refine ⟨fun h => ?_, fun h => h ▸ mfmtOf_code t⟩
  unfold mfmtOf at h
  split_ifs at h <;> obtain rfl := Option.some.inj h <;> assumption

@[simp] theorem scopeOf_code (t : Scope) : scopeOf t.code = some t := by cases t <;> rfl

@[simp] theorem scopeOf_eq_some_iff {n : Nat} {t : Scope} : scopeOf n = some t ↔ n = t.code := by
  refine ⟨fun h => ?_, fun h => h ▸ scopeOf_code t⟩
  unfold scopeOf at h
  split_ifs at h <;> obtain rfl := Option.some.inj h <;> assumption

@[simp] theorem ordOf_code (t : Ord) : ordOf t.code = some t := by cases t <;> rfl

@[simp] theorem ordOf_eq_some_iff {n : Nat} {t : Ord} : ordOf n = some t ↔ n = t.code := by
  refine ⟨fun h => ?_, fun h => h ▸ ordOf_code t⟩
  unfold ordOf at h
  split_ifs at h <;> obtain rfl := Option.some.inj h <;> assumption

@[simp] theorem redOf_code (t : RedOp) : redOf t.code = some t := by cases t <;> rfl

@[simp] theorem redOf_eq_some_iff {n : Nat} {t : RedOp} : redOf n = some t ↔ n = t.code := by
  refine ⟨fun h => ?_, fun h => h ▸ redOf_code t⟩
  unfold redOf at h
  split_ifs at h <;> obtain rfl := Option.some.inj h <;> assumption

@[simp] theorem redOf_code_mod (t : RedOp) : redOf (t.code % 64) = some t := by cases t <;> rfl

theorem FType.code_lt (t : FType) : t.code < 8 := by cases t <;> decide

theorem LType.code_lt (t : LType) : t.code < 8 := by cases t <;> decide

theorem Width.code_lt (w : Width) : w.code < 4 := by cases w <;> decide

@[simp] theorem selField_ltype (t : LType) : selField 8 (fld6 (32 + t.code)) = some ⟨t.code, t.code_lt⟩ := by cases t <;> rfl

@[simp] theorem ldKindOf_eq_some_iff {size sign : Nat} (hsize : size < 4) (hsign : sign < 2) {t : LdKind} :
    ldKindOf size sign = some t ↔ size = t.size ∧ sign = t.sign := by
  refine ⟨fun h => ?_, fun ⟨hz, hs⟩ => hz ▸ hs ▸ by cases t <;> rfl⟩
  unfold ldKindOf at h
  split_ifs at h <;> obtain rfl := Option.some.inj h <;> simp only [LdKind.size, LdKind.sign] <;> omega

@[simp] theorem stKindOf_eq_some_iff {size sign : Nat} (hsize : size < 4) (hsign : sign < 2) {t : StKind} :
    stKindOf size sign = some t ↔ size = t.size ∧ sign = 0 := by
  refine ⟨fun h => ?_, fun ⟨hz, hs⟩ => hz ▸ hs ▸ by cases t <;> rfl⟩
  unfold stKindOf at h
  split_ifs at h <;> obtain rfl := Option.some.inj h <;> simp only [StKind.size] <;> omega

end Sys2Proof
end

section
/-! SUPPORT. Literals (R138, R142): the bytes that follow a word are those of the one source that holds a literal. -/

namespace Sys2Proof

/-! ## The source that holds a literal -/

/-- The first operand that holds a literal; a register where none does. -/
def soleLit (l : List Opnd) : Opnd := (l.find? Opnd.isLit).getD (.reg 0)

theorem Opnd.litBytes_of_not_isLit {o : Opnd} (h : o.isLit = false) : o.litBytes = 0 := by
  cases o with
  | reg | const => rfl
  | lit32 | lit64 => cases h

theorem Opnd.lit_of_not_isLit {o : Opnd} (h : o.isLit = false) : o.lit = 0 := by
  cases o with
  | reg | const => rfl
  | lit32 | lit64 => cases h

theorem Opnd.relit_of_not_isLit {o : Opnd} (h : o.isLit = false) (lit : BitVec 64) : o.relit lit = o := by
  cases o with
  | reg | const => rfl
  | lit32 | lit64 => cases h

theorem soleLit_of_none {l : List Opnd} (h : ∀ o ∈ l, o.isLit = false) : soleLit l = .reg 0 := by
  rw [soleLit, List.find?_eq_none.mpr (by simpa using h), Option.getD_none]

theorem soleLit_cons_lit {o : Opnd} (l : List Opnd) (h : o.isLit = true) : soleLit (o :: l) = o := by simp [soleLit, h]

theorem soleLit_cons {o : Opnd} (l : List Opnd) (h : o.isLit = false) : soleLit (o :: l) = soleLit l := by simp [soleLit, h]

/-- R142: beside a literal no other source holds one. -/
theorem oneLit_iff {a b : Opnd} : oneLit a b = true ↔ (a.isLit = true → b.isLit = false) := by
  cases h : a.isLit <;> simp [oneLit, h]

/-- What a fold over the sources sees of them: the one literal. -/
theorem foldl_soleLit {α : Type} {f : Opnd → α} {op : α → α → α} (unit : ∀ o : Opnd, o.isLit = false → ∀ z, op z (f o) = z)
    {l : List Opnd} (h : l.Pairwise (fun a b => oneLit a b = true)) (z : α) : (l.map f).foldl op z = op z (f (soleLit l)) := by
  induction l generalizing z with
  | nil => exact (unit (.reg 0) rfl z).symm
  | cons o l ih =>
    obtain ⟨rest, tail⟩ := List.pairwise_cons.mp h
    rw [List.map_cons, List.foldl_cons, ih tail]
    cases lit : o.isLit with
    | false => rw [unit o lit, soleLit_cons l lit]
    | true =>
      rw [soleLit_cons_lit l lit, soleLit_of_none fun x hx => oneLit_iff.mp (rest x hx) lit, unit (.reg 0) rfl]

theorem eq_soleLit {l : List Opnd} (h : l.Pairwise (fun a b => oneLit a b = true)) {o : Opnd} (mem : o ∈ l) (lit : o.isLit = true) :
    soleLit l = o := by
  induction l with
  | nil => cases mem
  | cons x l ih =>
    obtain ⟨rest, tail⟩ := List.pairwise_cons.mp h
    rcases List.mem_cons.mp mem with rfl | mem
    · exact soleLit_cons_lit l lit
    · have other : x.isLit = false := by
        by_contra hx
        simp [oneLit_iff.mp (rest o mem) (by simpa using hx)] at lit
      rw [soleLit_cons l other, ih tail mem]

/-- R142: the sources of a well-formed instruction hold at most one literal. -/
theorem sources_oneLit {i : Instr} (hc : i.check = none) : i.sources.Pairwise (fun a b => oneLit a b = true) := by
  cases i
  all_goals
    dsimp only [Instr.check] at hc
    dsimp only [Instr.sources]
    grind [oneLit3]

/-! ## The literal bytes that a word asks for -/

theorem codeLitBytes_fld6_small {n : Nat} (h : n < 62) : codeLitBytes (fld6 n) = 0 := by
  have code : (fld6 n).toNat = n := (fld6_toNat n).trans (Nat.mod_eq_of_lt (by omega))
  rw [codeLitBytes, code, if_neg (by omega), if_neg (by omega)]

@[simp] theorem codeLitBytes_code (o : Opnd) : codeLitBytes (fld6 o.code) = o.litBytes := by
  cases o with
  | reg n => exact codeLitBytes_fld6_small (Nat.lt_trans n.isLt (by decide))
  | const c => exact codeLitBytes_fld6_small (Nat.add_lt_add_left c.isLt 32 |>.trans_le (by decide))
  | lit32 | lit64 => rfl

@[simp] theorem codeLitBytes_register {n : Nat} (h : n ≤ 62) (r : Fin n) : codeLitBytes (fld6 r.val) = 0 := codeLitBytes_fld6_small (by omega)

@[simp] theorem codeLitBytes_selector (r : Fin 8) : codeLitBytes (fld6 (32 + r.val)) = 0 := codeLitBytes_fld6_small (by omega)

@[simp] theorem codeLitBytes_ltype (t : LType) : codeLitBytes (fld6 (32 + t.code)) = 0 := by cases t <;> rfl

@[simp] theorem codeLitBytes_redOp (t : RedOp) : codeLitBytes (fld6 t.code) = 0 := by cases t <;> rfl

@[simp] theorem codeLitBytes_zero : codeLitBytes (fld6 0) = 0 := rfl

theorem wordLitBytes_gWord (k : Bool) {m : Nat} (f d a b : Nat) (hm : m < 64) (h : m ∉ [5, 6, 7, 8, 9, 11]) : wordLitBytes (gWord k m f d a b) =
    max (codeLitBytes (fld6 d)) (max (codeLitBytes (fld6 a)) (codeLitBytes (fld6 b))) := by
  simp only [List.mem_cons, List.not_mem_nil, or_false, not_or] at h
  simp only [wordLitBytes, majorOf_gWord, Nat.mod_eq_of_lt hm, h, if_false, or_false, gWord_d, gWord_a, gWord_b]

theorem wordLitBytes_mWord (k : Bool) {m : Nat} (f c1 c2 : Nat) (off : BitVec 9) (h : m ∈ [5, 8, 9, 11]) : wordLitBytes (mWord k m f c1 c2 off) =
    max (codeLitBytes (fld6 c1)) (codeLitBytes (fld6 c2)) := by
  simp only [List.mem_cons, List.not_mem_nil, or_false] at h
  rcases h with rfl | rfl | rfl | rfl <;> simp [wordLitBytes]

theorem wordLitBytes_csrWord (k : Bool) (f c : Nat) (csr : BitVec 12) : wordLitBytes (csrWord k f c csr) = codeLitBytes (fld6 c) := by
  simp [wordLitBytes]

theorem wordLitBytes_jWord (k : Bool) (off : BitVec 24) : wordLitBytes (jWord k off) = 0 := by simp [wordLitBytes]

theorem wordLitBytes_zero : wordLitBytes 0 = 0 := by decide

/-- R138: a word asks for as many literal bytes as the widest of its sources holds. -/
theorem wordLitBytes_encodeWord (i : Instr) : wordLitBytes (encodeWord i) = (i.sources.map Opnd.litBytes).foldl max 0 := by
  cases i
  all_goals
    dsimp only [encodeWord, Instr.sources]
    simp only [wordLitBytes_gWord, wordLitBytes_mWord, wordLitBytes_csrWord, wordLitBytes_jWord, wordLitBytes_zero, codeLitBytes_code,
      codeLitBytes_register, codeLitBytes_selector, codeLitBytes_ltype, codeLitBytes_redOp, codeLitBytes_zero, List.map_cons, List.map_nil,
      List.foldl_cons, List.foldl_nil, List.mem_cons, List.not_mem_nil, Nat.reduceLT, Nat.reduceLeDiff, Nat.reduceEqDiff, or_false, or_true,
      or_self, not_false_eq_true, Nat.max_assoc, Nat.zero_max, Nat.max_zero, Nat.max_self]

end Sys2Proof
end

section
/-! SUPPORT. From instructions to words: the word of an instruction decodes to it (R141 to R150). -/

namespace Sys2Proof

/-! ## Which decoder a word goes to -/

section Routes

variable (k : Bool) (f c1 c2 : Nat) (off : BitVec 9) (lit : BitVec 64)

theorem decodeRaw_gWord {m d a b : Nat} (hm : m < 64) (h : m ∉ [5, 6, 7, 8, 9, 11]) :
    decodeRaw (gWord k m f d a b) lit = decodeG m ⟨k, f % 64, fld6 d, fld6 a, fld6 b, lit⟩ := by
  simp only [List.mem_cons, List.not_mem_nil, or_false, not_or] at h
  simp only [decodeRaw, majorOf_gWord, Nat.mod_eq_of_lt hm, h, if_false, gWord_marker, gWord_funct, gWord_d, gWord_a, gWord_b, fld6_toNat]

theorem decodeRaw_branchWord : decodeRaw (mWord k 5 f c1 c2 off) lit = decodeBranch k (f % 8) (fld6 c1) (fld6 c2) off lit := by
  simp only [decodeRaw, majorOf_mWord, mWord_marker, mWord_funct, mWord_c1, mWord_c2, mWord_off, BitVec.toNat_ofNat]
  rfl

theorem decodeRaw_loadWord : decodeRaw (mWord k 8 f c1 c2 off) lit = decodeLoad k (f % 8) (fld6 c1) (fld6 c2) off lit := by
  simp only [decodeRaw, majorOf_mWord, mWord_marker, mWord_funct, mWord_c1, mWord_c2, mWord_off, BitVec.toNat_ofNat]
  rfl

theorem decodeRaw_storeWord : decodeRaw (mWord k 9 f c1 c2 off) lit = decodeStore k (f % 8) (fld6 c1) (fld6 c2) off lit := by
  simp only [decodeRaw, majorOf_mWord, mWord_marker, mWord_funct, mWord_c1, mWord_c2, mWord_off, BitVec.toNat_ofNat]
  rfl

theorem decodeRaw_orderedWord (scope dir size sign : Nat) : decodeRaw (mWord k 11 f c1 c2 (imm9 scope dir size sign)) lit =
    decodeOrdered k (f % 8) (scope % 8) (dir % 2) (size % 4) (sign % 2) 0 (fld6 c2) (fld6 c1) lit := by
  simp only [decodeRaw, majorOf_mWord, mWord_marker, mWord_funct, mWord_c1, mWord_c2, BitVec.toNat_ofNat,
    mWord_scope, mWord_dir, mWord_size, mWord_sign, mWord_reserved]
  rfl

theorem decodeRaw_csrWord (csr : BitVec 12) : decodeRaw (csrWord k f c1 csr) lit = decodeCsr k (f % 8) 0 csr (fld6 c1) lit := by
  simp only [decodeRaw, majorOf_csrWord, csrWord_marker, csrWord_funct, csrWord_c1, csrWord_csr, csrWord_reserved, BitVec.toNat_ofNat]
  rfl

theorem decodeRaw_jWord (joff : BitVec 24) : decodeRaw (jWord k joff) lit = some (.j k joff) := by
  simp only [decodeRaw, majorOf_jWord, jWord_marker, jWord_off]
  rfl

end Routes

/-! ## The word of each instruction -/

/-- A word with a literal has decoded to the instruction with that literal in place of its own. -/
def Yields (lit : BitVec 64) (o : Option Instr) (i : Instr) : Prop :=
  ∃ i', o = some i' ∧ i'.check = i.check ∧ ((∀ s ∈ i.sources, s.relit lit = s) → i' = i)

theorem yields_some {lit : BitVec 64} {i i' : Instr} (check : i'.check = i.check) (same : (∀ s ∈ i.sources, s.relit lit = s) → i' = i) :
    Yields lit (some i') i :=
  ⟨i', rfl, check, same⟩

@[simp] theorem yields_self (lit : BitVec 64) (i : Instr) : Yields lit (some i) i := yields_some rfl fun _ => rfl

/-- The word of an instruction decodes, with any literal after it, to the instruction with that literal. -/
def Recodes (i : Instr) : Prop := ∀ lit, Yields lit (decodeRaw (encodeWord i) lit) i

theorem recodes_of {i : Instr} {decoded : BitVec 64 → Option Instr} (route : ∀ lit, decodeRaw (encodeWord i) lit = decoded lit)
    (row : ∀ lit, Yields lit (decoded lit) i) : Recodes i := fun lit => by
  rw [route lit]
  exact row lit

/-- R149: a selector c above the row's own number r in funct. -/
theorem funct_parts (n : Nat) {c m : Nat} (hc : c < m) (h : n * m = 64) :
    n * c % 64 = n * c ∧ ∀ r < n, (r + n * c) % 64 = r + n * c ∧ (r + n * c) % n = r ∧ (r + n * c) / n = c := by
  have top : n * c + n ≤ 64 := by
    rw [← h, ← Nat.mul_succ]
    exact Nat.mul_le_mul_left n hc
  have pos : 0 < n := Nat.pos_of_ne_zero fun e => by simp [e] at h
  refine ⟨Nat.mod_eq_of_lt (by omega), fun r hr => ⟨Nat.mod_eq_of_lt (by omega), ?_, ?_⟩⟩
  · rw [Nat.add_mul_mod_self_left, Nat.mod_eq_of_lt hr]
  · rw [Nat.add_mul_div_left _ _ (by omega), Nat.div_eq_of_lt hr, Nat.zero_add]

/-! Each proof below goes to the row's decoder (`refine`), finds the branch there by the row's numbers (`simp`), and compares what it answers with
the instruction: the same operand checks, and the same instruction once each source holds the literal (`yields_some`). Rows that share their
operands and their decoder are one lemma. -/

/-- Major 0x0A. -/
theorem recodes_atomic (k : Bool) (d : Fin 32) (a b : Opnd) (ord : Ord) :
    ∀ i ∈ [Instr.amoadd k d a b ord, .amoand k d a b ord, .amoor k d a b ord, .amoxor k d a b ord, .amomin k d a b ord,
      .amomax k d a b ord, .amominu k d a b ord, .amomaxu k d a b ord, .amoswap k d a b ord, .amocas k d a b ord,
      .amofadd k d a b ord], Recodes i := by
  simp only [List.forall_mem_cons, List.not_mem_nil, false_implies, implies_true, and_true]
  cases ord
  all_goals and_intros
  all_goals
    refine recodes_of (decodeRaw_gWord _ _ · (by decide) (by decide)) fun lit => ?_
    simp [decodeG, decodeAtomic, Ord.code, ordOf]
    exact yields_some (by dsimp only [Instr.check]; simp) (by dsimp only [Instr.sources]; simp +contextual)

/-- Majors 0x10 and 0x16, the rows with a lane type. -/
theorem recodes_vecFp (k : Bool) (d : Fin 32) (m : Fin 8) (a b : Opnd) (lt : FType) :
    ∀ i ∈ [Instr.vfadd k d a b lt, .vfsub k d a b lt, .vfmul k d a b lt, .vfma k d a b lt, .vfmax k d a b lt, .vfmin k d a b lt,
      .vfcmpEq k m a b lt, .vfcmpLt k m a b lt, .vfabs k d a lt, .vfneg k d a lt, .vfcmpLe k m a b lt, .vfcmpUn k m a b lt], Recodes i := by
  simp only [List.forall_mem_cons, List.not_mem_nil, false_implies, implies_true, and_true]
  have parts := funct_parts 8 lt.code_lt rfl
  and_intros
  all_goals
    refine recodes_of (decodeRaw_gWord _ _ · (by decide) (by decide)) fun lit => ?_
    simp [decodeG, decodeVecFp, decodeVecSpecial, parts]
    exact yields_some (by dsimp only [Instr.check]; simp) (by dsimp only [Instr.sources]; simp +contextual)

/-- Major 0x11. -/
theorem recodes_vecInt (k : Bool) (d : Fin 32) (m : Fin 8) (a b : Opnd) (w : Width) :
    ∀ i ∈ [Instr.vadd k d a b w, .vsub k d a b w, .vmul k d a b w, .vmin k d a b w, .vmax k d a b w, .vand k d a b w, .vor k d a b w,
      .vxor k d a b w, .vshl k d a b w, .vshr k d a b w, .vshra k d a b w, .vcmpEq k m a b w, .vcmpLt k m a b w,
      .vsel k d a b w, .vmov k d b w, .vbcast k d b w], Recodes i := by
  simp only [List.forall_mem_cons, List.not_mem_nil, false_implies, implies_true, and_true]
  have parts := funct_parts 16 w.code_lt rfl
  and_intros
  all_goals
    refine recodes_of (decodeRaw_gWord _ _ · (by decide) (by decide)) fun lit => ?_
    simp [decodeG, decodeVecInt, parts]
    exact yields_some (by dsimp only [Instr.check]; simp) (by dsimp only [Instr.sources]; simp +contextual)

/-- Major 0x13. -/
theorem recodes_vecPerm (k : Bool) (d : Fin 32) (a b : Opnd) (red : RedOp) (lt : LType) :
    ∀ i ∈ [Instr.vperm k d a b lt, .vshuf k d a b lt, .vred k d a red lt, .vscan k d a red lt, .vextr k d a b lt, .vins k d a b lt],
      Recodes i := by
  simp only [List.forall_mem_cons, List.not_mem_nil, false_implies, implies_true, and_true]
  have parts := funct_parts 8 lt.code_lt rfl
  and_intros
  all_goals
    refine recodes_of (decodeRaw_gWord _ _ · (by decide) (by decide)) fun lit => ?_
    simp [decodeG, decodeVecPerm, parts]
    exact yields_some (by dsimp only [Instr.check]; simp) (by dsimp only [Instr.sources]; simp +contextual)

/-- Major 0x1E. -/
theorem recodes_scalarFp (k : Bool) (d : Fin 32) (a b : Opnd) (p : Bool) :
    ∀ i ∈ [Instr.fadd k d a b p, .fsub k d a b p, .fmul k d a b p, .ffma k d a b p, .fdiv k d a b p, .fsqrt k d a p, .fmin k d a b p,
      .fmax k d a b p, .fcmpEq k d a b p, .fcmpLt k d a b p, .fcmpLe k d a b p, .fcvtPrecision k d a p, .fcvtToInt k d a p,
      .fcvtFromInt k d a p], Recodes i := by
  simp only [List.forall_mem_cons, List.not_mem_nil, false_implies, implies_true, and_true]
  have parts := funct_parts 32 p.toNat_lt rfl
  and_intros
  all_goals
    refine recodes_of (decodeRaw_gWord _ _ · (by decide) (by decide)) fun lit => ?_
    simp [decodeG, decodeScalarFp, parts]
    exact yields_some (by dsimp only [Instr.check]; simp) (by dsimp only [Instr.sources]; simp +contextual)

/-- Major 0x05. -/
theorem recodes_branch (k : Bool) (d : Fin 32) (a b : Opnd) (off : BitVec 9) :
    ∀ i ∈ [Instr.beq k a b off, .bne k a b off, .blt k a b off, .bge k a b off, .bltu k a b off, .bgeu k a b off, .jal k d b off,
      .jalr k d b off], Recodes i := by
  simp only [List.forall_mem_cons, List.not_mem_nil, false_implies, implies_true, and_true]
  and_intros
  all_goals
    refine recodes_of (decodeRaw_branchWord _ _ _ _ _) fun lit => ?_
    simp [decodeBranch]
    exact yields_some (by dsimp only [Instr.check]; simp) (by dsimp only [Instr.sources]; simp +contextual)

/-- Major 0x08. -/
theorem recodes_load (k : Bool) (d : Fin 32) (base : Opnd) (off : BitVec 9) :
    ∀ i ∈ [Instr.lb k d base off, .lbu k d base off, .lh k d base off, .lhu k d base off, .lw k d base off, .lwu k d base off,
      .ld k d base off], Recodes i := by
  simp only [List.forall_mem_cons, List.not_mem_nil, false_implies, implies_true, and_true]
  and_intros
  all_goals
    refine recodes_of (decodeRaw_loadWord _ _ _ _ _) fun lit => ?_
    simp [decodeLoad]
    exact yields_some (by dsimp only [Instr.check]; simp) (by dsimp only [Instr.sources]; simp +contextual)

/-- Major 0x09. -/
theorem recodes_store (k : Bool) (d base : Opnd) (off : BitVec 9) :
    ∀ i ∈ [Instr.sb k d base off, .sh k d base off, .sw k d base off, .sd k d base off], Recodes i := by
  simp only [List.forall_mem_cons, List.not_mem_nil, false_implies, implies_true, and_true]
  and_intros
  all_goals
    refine recodes_of (decodeRaw_storeWord _ _ _ _ _) fun lit => ?_
    simp [decodeStore]
    exact yields_some (by dsimp only [Instr.check]; simp) (by dsimp only [Instr.sources]; simp +contextual)

/-- Major 0x07, the rows with a source. -/
theorem recodes_csr (k : Bool) (d : Opnd) (csr : BitVec 12) :
    ∀ i ∈ [Instr.csrw k d csr, .csrs k d csr, .csrc k d csr], Recodes i := by
  simp only [List.forall_mem_cons, List.not_mem_nil, false_implies, implies_true, and_true]
  and_intros
  all_goals
    refine recodes_of (decodeRaw_csrWord _ _ _ · _) fun lit => ?_
    simp [decodeCsr]
    exact yields_some (by dsimp only [Instr.check]; simp) (by dsimp only [Instr.sources]; simp +contextual)

/-- Major 0x14. -/
theorem recodes_vecMem (k : Bool) (d : Fin 32) (dv a b : Opnd) (e : Width) (col : Bool) :
    ∀ i ∈ [Instr.vld k d a b e col, .vst k dv a b e col, .vlds k d a b e, .vsts k dv a b e, .vldx k d a b e, .vstx k dv a b e], Recodes i := by
  simp only [List.forall_mem_cons, List.not_mem_nil, false_implies, implies_true, and_true]
  cases e <;> cases col
  all_goals and_intros
  all_goals
    refine recodes_of (decodeRaw_gWord _ _ · (by decide) (by decide)) fun lit => ?_
    simp [decodeG, decodeVecMem, Width.code, widthOf]
    exact yields_some (by dsimp only [Instr.check]; simp) (by dsimp only [Instr.sources]; simp +contextual)

/-- Major 0x12, the rows that pack and unpack lanes. -/
theorem recodes_vecConv (k : Bool) (d : Fin 32) (a b : Opnd) (part : Fin 8) (t : LType) :
    ∀ i ∈ [Instr.vpack k d a b t, .vunpack k d a part t], Recodes i := by
  simp only [List.forall_mem_cons, List.not_mem_nil, false_implies, implies_true, and_true]
  cases t
  all_goals and_intros
  all_goals
    refine recodes_of (decodeRaw_gWord _ _ · (by decide) (by decide)) fun lit => ?_
    simp [decodeG, decodeVecConv, LType.code, ltypeOf]
    exact yields_some (by dsimp only [Instr.check]; simp) (by dsimp only [Instr.sources]; simp +contextual)

theorem recodes_vcvt (k : Bool) (d : Fin 32) (a : Opnd) (src t : LType) : Recodes (.vcvt k d a src t) := by
  refine recodes_of (decodeRaw_gWord _ _ · (by decide) (by decide)) fun lit => ?_
  have row : t.code % 64 / 8 = 0 := by have := t.code_lt; omega
  have lane : t.code % 8 = t.code := Nat.mod_eq_of_lt t.code_lt
  simp [decodeG, decodeVecConv, row, lane]
  exact yields_some (by dsimp only [Instr.check]; simp) (by dsimp only [Instr.sources]; simp +contextual)

theorem recodes_vquant (k : Bool) (d a b : Fin 32) (pk : Pack) : Recodes (.vquant k d a b pk) := by
  refine recodes_of (decodeRaw_gWord _ _ · (by decide) (by decide)) fun lit => ?_
  cases pk <;> simp [decodeG, decodeVecConv, Pack.code, packOf]

theorem recodes_vdeq (k : Bool) (d : Fin 32) (a : Opnd) (b : Fin 32) (pk : Pack) : Recodes (.vdeq k d a b pk) := by
  refine recodes_of (decodeRaw_gWord _ _ · (by decide) (by decide)) fun lit => ?_
  cases pk
  all_goals
    simp [decodeG, decodeVecConv, Pack.code, packOf]
    exact yields_some (by dsimp only [Instr.check]; simp) (by dsimp only [Instr.sources]; simp +contextual)

theorem recodes_mxCfg (k : Bool) (a b : Opnd) (mf : MFmt) : Recodes (.mxCfg k a b mf) := by
  refine recodes_of (decodeRaw_gWord _ _ · (by decide) (by decide)) fun lit => ?_
  cases mf
  all_goals
    simp [decodeG, decodeMatrix, MFmt.code, mfmtOf]
    exact yields_some (by dsimp only [Instr.check]; simp) (by dsimp only [Instr.sources]; simp +contextual)

theorem scopeOf_code_mod (t : Scope) : scopeOf (t.code % 8) = some t := by cases t <;> rfl

theorem recodes_loadAcquire (k : Bool) (d : Fin 32) (a : Opnd) (sc : Scope) (kd : LdKind) : Recodes (.loadAcquire k d a sc kd) := by
  refine recodes_of (decodeRaw_orderedWord _ _ _ _ · _ _ _ _) fun lit => ?_
  have kind : ldKindOf (kd.size % 4) (kd.sign % 2) = some kd := by cases kd <;> rfl
  simp [decodeOrdered, scopeOf_code_mod, kind]
  exact yields_some (by dsimp only [Instr.check]; simp) (by dsimp only [Instr.sources]; simp +contextual)

theorem recodes_storeRelease (k : Bool) (d a : Opnd) (sc : Scope) (kd : StKind) : Recodes (.storeRelease k d a sc kd) := by
  refine recodes_of (decodeRaw_orderedWord _ _ _ _ · _ _ _ _) fun lit => ?_
  have kind : stKindOf (kd.size % 4) 0 = some kd := by cases kd <;> rfl
  simp [decodeOrdered, scopeOf_code_mod, kind]
  exact yields_some (by dsimp only [Instr.check]; simp) (by dsimp only [Instr.sources]; simp +contextual)

/-- Each word decodes back (R141 to R149). -/
theorem recodes_of_check {i : Instr} (hc : i.check = none) (word : i.isHalf = false) : Recodes i := by
  cases i
  case add | sub | and | or | xor | andn | min | max | minu | maxu | li | mul | mulh | mulhu | div | divu | rem | remu | sll | srl | sra | clz |
      ctz | popc | exts | extz | bfext | bfins | seq | slt | sltu | sel | lea | apcvt | aptest | tld | tst | tcas | ttabWr | ttabRd | ttabSwap |
      msend | mloop | sigEmit | sigSkip | sigTest | sigVal | bpres | babs | dset | irec | xsendAt | sgCfg | swrite | rep | vfexp2 | vfrcp |
      vfrsq | vflog2 | mset | mand | mor | mnot | mpopc | mfirst | mxLdw | mxDup | mxStream | mxDrain | attnQld | attnRun | attnMerge |
      attnFin | attnSt | cmAppend | cmFill | cmFree | cmLookup | cmShare | xfCancel | phint | tlbWr | tlbInv | xlateDrain | mxSave | mxLoad |
      ctxHalt | ctxSave =>
    refine recodes_of (decodeRaw_gWord _ _ · (by decide) (by decide)) fun lit => ?_
    simp [decodeG, decodeAlu, decodeMulDiv, decodeShift, decodeCompare, decodeAddress, decodeTag, decodeMessage, decodeSignal, decodeExchange,
      decodeStream, decodeVecSpecial, decodeMask, decodeMatrix, decodeAttention, decodeComet, decodeTransfer, decodeThread, decodePrivileged]
    exact yields_some (by dsimp only [Instr.check]; simp) (by dsimp only [Instr.sources]; simp +contextual)
  case mrecv | mpoll | mcount | pause | dget | xend | xslot | sgIdx | sgStop | sread | mxSwap | mxZero | dret | mxWait | cmInval | xfGo |
      yield | nexit | uiret | ecall | ebreak | mret | sret | wfi =>
    refine recodes_of (decodeRaw_gWord _ _ · (by decide) (by decide)) fun lit => ?_
    simp [decodeG, decodeMessage, decodeSignal, decodeExchange, decodeStream, decodeMatrix, decodeDrain, decodeComet, decodeTransfer, decodeThread,
      decodePrivileged]
  case beq k a b off | bne k a b off | blt k a b off | bge k a b off | bltu k a b off | bgeu k a b off =>
    exact recodes_branch k 0 a b off _ (by simp)
  case jal k d b off | jalr k d b off =>
    exact recodes_branch k d b b off _ (by simp)
  case j => exact recodes_of (decodeRaw_jWord _ · _) fun lit => yields_self lit _
  case csrr => exact recodes_of (decodeRaw_csrWord _ _ _ · _) fun lit => by simp [decodeCsr]
  case csrw k d csr | csrs k d csr | csrc k d csr => exact recodes_csr k d csr _ (by simp)
  case lb k d base off | lbu k d base off | lh k d base off | lhu k d base off | lw k d base off | lwu k d base off | ld k d base off =>
    exact recodes_load k d base off _ (by simp)
  case sb k d base off | sh k d base off | sw k d base off | sd k d base off => exact recodes_store k d base off _ (by simp)
  case loadAcquire k d a sc kd => exact recodes_loadAcquire k d a sc kd
  case storeRelease k d a sc kd => exact recodes_storeRelease k d a sc kd
  case fence k sc =>
    refine recodes_of (decodeRaw_orderedWord _ _ _ _ · _ _ _ _) fun lit => ?_
    cases sc <;> exact yields_self lit _
  case fenceX => exact recodes_of (decodeRaw_orderedWord _ _ _ _ · _ _ _ _) fun lit => yields_self lit _
  case amoadd k d a b ord | amoand k d a b ord | amoor k d a b ord | amoxor k d a b ord | amomin k d a b ord | amomax k d a b ord |
      amominu k d a b ord | amomaxu k d a b ord | amoswap k d a b ord | amocas k d a b ord | amofadd k d a b ord =>
    exact recodes_atomic k d a b ord _ (by simp)
  case vfadd k d a b lt | vfsub k d a b lt | vfmul k d a b lt | vfma k d a b lt | vfmax k d a b lt | vfmin k d a b lt =>
    exact recodes_vecFp k d 0 a b lt _ (by simp)
  case vfcmpEq k m a b lt | vfcmpLt k m a b lt | vfcmpLe k m a b lt | vfcmpUn k m a b lt =>
    exact recodes_vecFp k 0 m a b lt _ (by simp)
  case vfabs k d a lt | vfneg k d a lt => exact recodes_vecFp k d 0 a a lt _ (by simp)
  case vadd k d a b w | vsub k d a b w | vmul k d a b w | vmin k d a b w | vmax k d a b w | vand k d a b w | vor k d a b w | vxor k d a b w |
      vshl k d a b w | vshr k d a b w | vshra k d a b w | vsel k d a b w =>
    exact recodes_vecInt k d 0 a b w _ (by simp)
  case vcmpEq k m a b w | vcmpLt k m a b w => exact recodes_vecInt k 0 m a b w _ (by simp)
  case vmov k d b w | vbcast k d b w => exact recodes_vecInt k d 0 b b w _ (by simp)
  case vcvt k d a src t => exact recodes_vcvt k d a src t
  case vpack k d a b t => exact recodes_vecConv k d a b 0 t _ (by simp)
  case vunpack k d a part t => exact recodes_vecConv k d a a part t _ (by simp)
  case vquant k d a b pk => exact recodes_vquant k d a b pk
  case vdeq k d a b pk => exact recodes_vdeq k d a b pk
  case vperm k d a b lt | vshuf k d a b lt | vextr k d a b lt | vins k d a b lt =>
    exact recodes_vecPerm k d a b .sum lt _ (by simp)
  case vred k d a red lt | vscan k d a red lt => exact recodes_vecPerm k d a a red lt _ (by simp)
  case vld k d a b e col => exact recodes_vecMem k d a a b e col _ (by simp)
  case vst k d a b e col => exact recodes_vecMem k 0 d a b e col _ (by simp)
  case vlds k d a b e | vldx k d a b e => exact recodes_vecMem k d a a b e false _ (by simp)
  case vsts k d a b e | vstx k d a b e => exact recodes_vecMem k 0 d a b e false _ (by simp)
  case mxCfg k a b mf => exact recodes_mxCfg k a b mf
  case fadd k d a b p | fsub k d a b p | fmul k d a b p | ffma k d a b p | fdiv k d a b p | fmin k d a b p | fmax k d a b p | fcmpEq k d a b p |
      fcmpLt k d a b p | fcmpLe k d a b p =>
    exact recodes_scalarFp k d a b p _ (by simp)
  case fsqrt k d a p | fcvtPrecision k d a p | fcvtToInt k d a p | fcvtFromInt k d a p =>
    exact recodes_scalarFp k d a a p _ (by simp)
  case vfadd16 | vfsub16 | vfmul16 | vfmax16 | vfmin16 | vadd16 | vsub16 | vmul16 | vand16 | vor16 | vxor16 | vshl16 | vshr16 | vshra16 |
      vmax16 | vmov16 =>
    cases word
  case registerWrite | tagmapWrite | bankfmtWrite | remoteAccessArrival | storeAcknowledge | parkRecheck | heldAccessRecheck | inboxArrival |
      spillWake | userInterruptEntry | interruptTake | trapReportDelivery | resolveRetry | resolveSkip | resolveAbort | causalityCycle |
      reactHalfEnd | exchangeHalfStart | exchangeBeatSend | exchangeArrival | latch | matrixCommandStart | drainDispatch | transferStart |
      transferCompletion | tlbMissMessage | dirtyNotice | gridDeadlock | haltWatchdog | runTimeLimit | notifyScan | periodicQueueScan |
      packetLaunch | packetNop | packetMark | packetQueueCreate | packetQueueDestroy | groupDispatch | gridCompletion | errorEvent |
      saveEngine | restoreRequest | scrubRead | bankFailed | clockStretch | keyLoad | keyClear | getVersion | getCapabilities |
      negotiateAlgorithms | getDigests | getCertificate | challenge | getMeasurements | spdmUnsupportedRequest | debugNonce | debugUnlock |
      debugArm | debugStop | debugStopReached | debugRead | debugResume | debugDisarm | runLengthLogAppend | functionLevelReset | bar2Access |
      devidWrite | flitSend | flitReceive | auditFlit | partclWrite | orbitWrite | orbitUpdateApply | gdwdWrite | partownWrite | haltwdWrite |
      bringUp | remoteAccessReply | matrixCommandCompletion | monitorTimerExpiry | schedulerTimerExpiry | illegalInstruction |
      instructionFetchFault =>
    cases hc

end Sys2Proof
end

section
/-! SUPPORT. From words to instructions: what a word decodes to has that word as its encoding (R141 to R150). -/

namespace Sys2Proof

/-! ## What a decoder reads -/

/-- Whatever a decoder answers has w as its word, and its sources hold the literal. -/
def Reads (w : BitVec 32) (lit : BitVec 64) (o : Option Instr) : Prop :=
  ∀ i, o = some i → encodeWord i = w ∧ ∀ s ∈ i.sources, s.relit lit = s

namespace Reads

variable {w : BitVec 32} {lit : BitVec 64}

@[simp] theorem of_none : Reads w lit none := by simp [Reads]

theorem of_word {w' : BitVec 32} (e : w' = w) {o : Option Instr} (h : Reads w' lit o) : Reads w lit o := e ▸ h

@[simp] theorem some_iff {i : Instr} : Reads w lit (some i) ↔ encodeWord i = w ∧ ∀ s ∈ i.sources, s.relit lit = s := by simp [Reads]

@[simp] theorem bind_iff {α : Type} {o : Option α} {f : α → Option Instr} : Reads w lit (o.bind f) ↔ ∀ x, o = some x → Reads w lit (f x) := by
  cases o <;> simp

@[simp] theorem ite_iff {c : Prop} [Decidable c] {x y : Option Instr} :
    Reads w lit (if c then x else y) ↔ (c → Reads w lit x) ∧ (¬c → Reads w lit y) := by
  split <;> simp_all

end Reads

/-- A bit of funct, as a Bool and as a number. -/
theorem toNat_decide_eq_one {n : Nat} (h : n < 2) : (decide (n = 1)).toNat = n := by
  obtain rfl | rfl : n = 0 ∨ n = 1 := by omega
  all_goals rfl

/-! ## The decoders of formats G and E

Each proof goes through the decoder's rows and the fields that each of them reads (the first `simp`), writes out the word and the sources of the
row's instruction (`dsimp`), and puts the codes that were read into the word's fields (the second `simp`). -/

section G

variable (g : GFields)

theorem decodeAlu_reads : Reads (gWord g.k 0 g.f g.d.toNat g.a.toNat g.b.toNat) g.lit (decodeAlu g) := by
  simp [decodeAlu]
  dsimp only [encodeWord, Instr.sources]
  simp +contextual

theorem decodeMulDiv_reads : Reads (gWord g.k 1 g.f g.d.toNat g.a.toNat g.b.toNat) g.lit (decodeMulDiv g) := by
  simp [decodeMulDiv]
  dsimp only [encodeWord, Instr.sources]
  simp +contextual

theorem decodeShift_reads : Reads (gWord g.k 2 g.f g.d.toNat g.a.toNat g.b.toNat) g.lit (decodeShift g) := by
  simp [decodeShift]
  dsimp only [encodeWord, Instr.sources]
  simp +contextual

theorem decodeCompare_reads : Reads (gWord g.k 3 g.f g.d.toNat g.a.toNat g.b.toNat) g.lit (decodeCompare g) := by
  simp [decodeCompare]
  dsimp only [encodeWord, Instr.sources]
  simp +contextual

theorem decodeAddress_reads : Reads (gWord g.k 4 g.f g.d.toNat g.a.toNat g.b.toNat) g.lit (decodeAddress g) := by
  simp [decodeAddress]
  dsimp only [encodeWord, Instr.sources]
  simp +contextual

theorem decodeAtomic_reads : Reads (gWord g.k 10 g.f g.d.toNat g.a.toNat g.b.toNat) g.lit (decodeAtomic g) := by
  rw [← Nat.div_add_mod g.f 4]
  simp [decodeAtomic]
  dsimp only [encodeWord, Instr.sources]
  simp +contextual [Nat.div_eq_of_lt]

theorem decodeTag_reads : Reads (gWord g.k 12 g.f g.d.toNat g.a.toNat g.b.toNat) g.lit (decodeTag g) := by
  simp [decodeTag]
  dsimp only [encodeWord, Instr.sources]
  simp +contextual

theorem decodeMessage_reads : Reads (gWord g.k 13 g.f g.d.toNat g.a.toNat g.b.toNat) g.lit (decodeMessage g) := by
  simp [decodeMessage]
  dsimp only [encodeWord, Instr.sources]
  simp +contextual

theorem decodeSignal_reads : Reads (gWord g.k 14 g.f g.d.toNat g.a.toNat g.b.toNat) g.lit (decodeSignal g) := by
  simp [decodeSignal]
  dsimp only [encodeWord, Instr.sources]
  simp +contextual

theorem decodeExchange_reads : Reads (gWord g.k 15 g.f g.d.toNat g.a.toNat g.b.toNat) g.lit (decodeExchange g) := by
  simp [decodeExchange]
  dsimp only [encodeWord, Instr.sources]
  simp +contextual

theorem decodeVecFp_reads : Reads (gWord g.k 16 g.f g.d.toNat g.a.toNat g.b.toNat) g.lit (decodeVecFp g) := by
  rw [← Nat.mod_add_div g.f 8]
  simp [decodeVecFp]
  dsimp only [encodeWord, Instr.sources]
  simp +contextual

theorem decodeVecInt_reads : Reads (gWord g.k 17 g.f g.d.toNat g.a.toNat g.b.toNat) g.lit (decodeVecInt g) := by
  rw [← Nat.mod_add_div g.f 16]
  simp [decodeVecInt]
  dsimp only [encodeWord, Instr.sources]
  simp +contextual

theorem decodeVecConv_reads : Reads (gWord g.k 18 g.f g.d.toNat g.a.toNat g.b.toNat) g.lit (decodeVecConv g) := by
  rw [← Nat.div_add_mod g.f 8]
  simp [decodeVecConv]
  dsimp only [encodeWord, Instr.sources]
  simp +contextual [Nat.div_eq_of_lt]

theorem decodeVecPerm_reads : Reads (gWord g.k 19 g.f g.d.toNat g.a.toNat g.b.toNat) g.lit (decodeVecPerm g) := by
  rw [← Nat.mod_add_div g.f 8]
  simp [decodeVecPerm]
  dsimp only [encodeWord, Instr.sources]
  simp +contextual

theorem decodeVecMem_reads : Reads (gWord g.k 20 g.f g.d.toNat g.a.toNat g.b.toNat) g.lit (decodeVecMem g) := by
  rw [← show 8 * (g.f / 8) + 4 * (g.f / 4 % 2) + g.f % 4 = g.f by omega]
  have col := toNat_decide_eq_one (Nat.mod_lt (g.f / 4) (show 2 > 0 by decide))
  simp [decodeVecMem]
  dsimp only [encodeWord, Instr.sources]
  simp +contextual [Nat.div_eq_of_lt, col]

theorem decodeStream_reads : Reads (gWord g.k 21 g.f g.d.toNat g.a.toNat g.b.toNat) g.lit (decodeStream g) := by
  simp [decodeStream]
  dsimp only [encodeWord, Instr.sources]
  simp +contextual

theorem decodeVecSpecial_reads : Reads (gWord g.k 22 g.f g.d.toNat g.a.toNat g.b.toNat) g.lit (decodeVecSpecial g) := by
  rw [← Nat.mod_add_div g.f 8]
  simp [decodeVecSpecial]
  dsimp only [encodeWord, Instr.sources]
  simp +contextual [Nat.div_eq_of_lt]

theorem decodeMask_reads : Reads (gWord g.k 23 g.f g.d.toNat g.a.toNat g.b.toNat) g.lit (decodeMask g) := by
  simp [decodeMask]
  dsimp only [encodeWord, Instr.sources]
  simp +contextual

theorem decodeMatrix_reads : Reads (gWord g.k 24 g.f g.d.toNat g.a.toNat g.b.toNat) g.lit (decodeMatrix g) := by
  rw [← Nat.div_add_mod g.f 8]
  simp [decodeMatrix]
  dsimp only [encodeWord, Instr.sources]
  simp +contextual [Nat.div_eq_of_lt]

theorem decodeDrain_reads : Reads (gWord g.k 25 g.f g.d.toNat g.a.toNat g.b.toNat) g.lit (decodeDrain g) := by
  simp [decodeDrain]
  dsimp only [encodeWord, Instr.sources]
  simp +contextual

theorem decodeAttention_reads : Reads (gWord g.k 26 g.f g.d.toNat g.a.toNat g.b.toNat) g.lit (decodeAttention g) := by
  simp [decodeAttention]
  dsimp only [encodeWord, Instr.sources]
  simp +contextual

theorem decodeComet_reads : Reads (gWord g.k 27 g.f g.d.toNat g.a.toNat g.b.toNat) g.lit (decodeComet g) := by
  simp [decodeComet]
  dsimp only [encodeWord, Instr.sources]
  simp +contextual

theorem decodeTransfer_reads : Reads (gWord g.k 28 g.f g.d.toNat g.a.toNat g.b.toNat) g.lit (decodeTransfer g) := by
  simp [decodeTransfer]
  dsimp only [encodeWord, Instr.sources]
  simp +contextual

theorem decodeThread_reads : Reads (gWord g.k 29 g.f g.d.toNat g.a.toNat g.b.toNat) g.lit (decodeThread g) := by
  simp [decodeThread]
  dsimp only [encodeWord, Instr.sources]
  simp +contextual

theorem decodeScalarFp_reads (hf : g.f < 64) : Reads (gWord g.k 30 g.f g.d.toNat g.a.toNat g.b.toNat) g.lit (decodeScalarFp g) := by
  rw [← Nat.mod_add_div g.f 32]
  have high := toNat_decide_eq_one (show g.f / 32 < 2 by omega)
  simp [decodeScalarFp]
  dsimp only [encodeWord, Instr.sources]
  simp +contextual [high]

theorem decodePrivileged_reads : Reads (gWord g.k 31 g.f g.d.toNat g.a.toNat g.b.toNat) g.lit (decodePrivileged g) := by
  simp [decodePrivileged]
  dsimp only [encodeWord, Instr.sources]
  simp +contextual

end G

/-! ## The decoders of the other formats -/

section M

variable (k : Bool) (f : Nat) (c1 c2 : BitVec 6) (off : BitVec 9) (lit : BitVec 64)

theorem decodeBranch_reads : Reads (mWord k 5 f c1.toNat c2.toNat off) lit (decodeBranch k f c1 c2 off lit) := by
  simp [decodeBranch]
  dsimp only [encodeWord, Instr.sources]
  simp +contextual

theorem decodeLoad_reads : Reads (mWord k 8 f c1.toNat c2.toNat off) lit (decodeLoad k f c1 c2 off lit) := by
  simp [decodeLoad]
  dsimp only [encodeWord, Instr.sources]
  simp +contextual

theorem decodeStore_reads : Reads (mWord k 9 f c1.toNat c2.toNat off) lit (decodeStore k f c1 c2 off lit) := by
  simp [decodeStore]
  dsimp only [encodeWord, Instr.sources]
  simp +contextual

theorem decodeCsr_reads (res : Nat) (csr : BitVec 12) : Reads (csrWord k f c1.toNat csr) lit (decodeCsr k f res csr c1 lit) := by
  simp [decodeCsr]
  dsimp only [encodeWord, Instr.sources]
  simp +contextual

theorem decodeOrdered_reads {scope dir size sign : Nat} (hdir : dir < 2) (hsize : size < 4) (hsign : sign < 2) (res : Nat) :
    Reads (mWord k 11 f c1.toNat c2.toNat (imm9 scope dir size sign)) lit (decodeOrdered k f scope dir size sign res c2 c1 lit) := by
  have store : dir ≠ 0 → dir = 1 := by omega
  simp [decodeOrdered, hsize, hsign]
  dsimp only [encodeWord, Instr.sources]
  simp +contextual [store]

end M

/-! ## A word -/

theorem Reads.major {g : GFields} {major n : Nat} {x y : Option Instr} (hx : Reads (gWord g.k n g.f g.d.toNat g.a.toNat g.b.toNat) g.lit x)
    (hy : Reads (gWord g.k major g.f g.d.toNat g.a.toNat g.b.toNat) g.lit y) :
    Reads (gWord g.k major g.f g.d.toNat g.a.toNat g.b.toNat) g.lit (if major = n then x else y) :=
  ite_iff.mpr ⟨fun e => e ▸ hx, fun _ => hy⟩

theorem decodeG_reads (major : Nat) (g : GFields) (hf : g.f < 64) :
    Reads (gWord g.k major g.f g.d.toNat g.a.toNat g.b.toNat) g.lit (decodeG major g) := by
  unfold decodeG
  exact .major (decodeAlu_reads g) <| .major (decodeMulDiv_reads g) <| .major (decodeShift_reads g) <| .major (decodeCompare_reads g) <|
    .major (decodeAddress_reads g) <| .major (decodeAtomic_reads g) <| .major (decodeTag_reads g) <| .major (decodeMessage_reads g) <|
    .major (decodeSignal_reads g) <| .major (decodeExchange_reads g) <| .major (decodeVecFp_reads g) <| .major (decodeVecInt_reads g) <|
    .major (decodeVecConv_reads g) <| .major (decodeVecPerm_reads g) <| .major (decodeVecMem_reads g) <| .major (decodeStream_reads g) <|
    .major (decodeVecSpecial_reads g) <| .major (decodeMask_reads g) <| .major (decodeMatrix_reads g) <| .major (decodeDrain_reads g) <|
    .major (decodeAttention_reads g) <| .major (decodeComet_reads g) <| .major (decodeTransfer_reads g) <| .major (decodeThread_reads g) <|
    .major (decodeScalarFp_reads g hf) <| .major (decodePrivileged_reads g) .of_none

/-- A word that decodes is the word of what it decodes to. -/
theorem decodeRaw_reads {w : BitVec 32} (length : w.getLsbD 0 = true) (lit : BitVec 64) : Reads w lit (decodeRaw w lit) := by
  have mFormat := mWord_of_fields w length
  simp only [decodeRaw, Reads.ite_iff]
  refine ⟨fun major => ?branch, fun _ => ⟨fun major => ?jump, fun _ => ⟨fun major => ?csr, fun _ => ⟨fun major => ?load, fun _ =>
    ⟨fun major => ?store, fun _ => ⟨fun major => ?ordered, fun _ => ?g⟩⟩⟩⟩⟩⟩
  case branch =>
    rw [major] at mFormat
    exact .of_word mFormat (decodeBranch_reads _ _ _ _ _ _)
  case jump => exact Reads.some_iff.mpr ⟨jWord_of_fields w length major, nofun⟩
  case csr =>
    by_cases reserved : (w.extractLsb' 29 3).toNat = 0
    · exact .of_word (csrWord_of_fields w length major reserved) (decodeCsr_reads _ _ _ _ _ _)
    · simp only [decodeCsr, ne_eq, reserved, not_false_eq_true, if_true, Reads.of_none]
  case load =>
    rw [major] at mFormat
    exact .of_word mFormat (decodeLoad_reads _ _ _ _ _ _)
  case store =>
    rw [major] at mFormat
    exact .of_word mFormat (decodeStore_reads _ _ _ _ _ _)
  case ordered =>
    by_cases reserved : (w.extractLsb' 23 2).toNat = 0
    · rw [major, ← imm9_of_fields w reserved] at mFormat
      exact .of_word mFormat (decodeOrdered_reads _ _ _ _ _ (BitVec.isLt _) (BitVec.isLt _) (BitVec.isLt _) _)
    · simp only [decodeOrdered, ne_eq, reserved, not_false_eq_true, if_true, Reads.of_none]
  case g => exact .of_word (gWord_of_fields w length) (decodeG_reads _ ⟨_, _, _, _, _, lit⟩ (BitVec.isLt _))

end Sys2Proof
end

section
/-! SUPPORT. Bytes, halfwords and instructions (R4, R138, R140): O59 and O60. -/

namespace Sys2Proof

/-! ## Little-endian bytes -/

@[simp] theorem leBytes_length (n v : Nat) : (leBytes n v).length = n := by
  induction n generalizing v with
  | zero => rfl
  | succ n ih => rw [leBytes, List.length_cons, ih]

theorem leValue_leBytes {n v : Nat} (h : v < 256 ^ n) : leValue (leBytes n v) = v := by
  induction n generalizing v with
  | zero => exact (Nat.lt_one_iff.mp h).symm
  | succ n ih =>
    rw [leBytes, leValue, ih (Nat.div_lt_of_lt_mul (by rwa [Nat.pow_succ'] at h)), BitVec.toNat_ofNat, Nat.mod_add_div]

theorem leBytes_leValue (l : List Byte) : leBytes l.length (leValue l) = l := by
  induction l with
  | nil => rfl
  | cons b l ih =>
    have low : BitVec.ofNat 8 (b.toNat + 256 * leValue l) = b := BitVec.eq_of_toNat_eq (by simp; omega)
    have rest : (b.toNat + 256 * leValue l) / 256 = leValue l := by omega
    rw [List.length_cons, leValue, leBytes, low, rest, ih]

theorem leValue_lt (l : List Byte) : leValue l < 256 ^ l.length := by
  induction l with
  | nil => exact Nat.one_pos
  | cons b l ih =>
    rw [leValue, List.length_cons, Nat.pow_succ']
    omega

theorem toNat_append_byte {m : Nat} (x : BitVec m) (b : Byte) : (x ++ b).toNat = b.toNat + 256 * x.toNat := by
  rw [BitVec.toNat_append, ← Nat.shiftLeft_add_eq_or_of_lt b.isLt, Nat.shiftLeft_eq, Nat.add_comm, Nat.mul_comm]

theorem leBytes_two (b0 b1 : Byte) : leBytes 2 (b1 ++ b0).toNat = [b0, b1] := by
  rw [toNat_append_byte]
  exact leBytes_leValue [b0, b1]

theorem leBytes_four (b0 b1 b2 b3 : Byte) : leBytes 4 (b3 ++ b2 ++ (b1 ++ b0)).toNat = [b0, b1, b2, b3] := by
  have value : (b3 ++ b2 ++ (b1 ++ b0)).toNat = leValue [b0, b1, b2, b3] := by
    rw [BitVec.toNat_append, ← Nat.shiftLeft_add_eq_or_of_lt (b1 ++ b0).isLt, Nat.shiftLeft_eq]
    simp only [toNat_append_byte, leValue]
    omega
  rw [value]
  exact leBytes_leValue [b0, b1, b2, b3]

theorem exists_bytes_half (h : BitVec 16) : ∃ b0 b1 : Byte, h = b1 ++ b0 :=
  ⟨h.extractLsb' 0 8, h.extractLsb' 8 8, by
    rw [BitVec.extractLsb'_append_extractLsb'_eq_extractLsb' (by rfl)]; exact BitVec.extractLsb'_eq_self.symm⟩

theorem exists_bytes_word (w : BitVec 32) : ∃ b0 b1 b2 b3 : Byte, w = b3 ++ b2 ++ (b1 ++ b0) :=
  ⟨w.extractLsb' 0 8, w.extractLsb' 8 8, w.extractLsb' 16 8, w.extractLsb' 24 8, by
    iterate 3 rw [BitVec.extractLsb'_append_extractLsb'_eq_extractLsb' (by rfl)]
    exact BitVec.extractLsb'_eq_self.symm⟩

/-! ## What the bytes of a halfword and of a word decode to -/

theorem decodeBytes_half_iff {h : BitVec 16} (h0 : h.getLsbD 0 = false) {r rest : List Byte} {i : Instr} :
    decodeBytes (leBytes 2 h.toNat ++ r) = .ok (i, rest) ↔ decodeHalf h = some i ∧ r = rest := by
  obtain ⟨b0, b1, rfl⟩ := exists_bytes_half h
  rw [leBytes_two]
  simp only [List.cons_append, List.nil_append, decodeBytes, h0, if_true]
  cases decodeHalf (b1 ++ b0) <;> simp

theorem decodeBytes_word_iff {w : BitVec 32} (h0 : w.getLsbD 0 = true) {r rest : List Byte} {i : Instr} :
    decodeBytes (leBytes 4 w.toNat ++ r) = .ok (i, rest) ↔ (∃ i0, decodeWord w 0 = some i0) ∧ wordLitBytes w ≤ r.length ∧
      decodeWord w (BitVec.ofNat 64 (leValue (r.take (wordLitBytes w)))) = some i ∧ r.drop (wordLitBytes w) = rest := by
  obtain ⟨b0, b1, b2, b3, rfl⟩ := exists_bytes_word w
  have low : (b1 ++ b0).getLsbD 0 = true := by rwa [append_bit _ _ (by decide)] at h0
  rw [leBytes_four]
  simp only [List.cons_append, List.nil_append, decodeBytes, low, Bool.true_eq_false, if_false]
  cases decodeWord (b3 ++ b2 ++ (b1 ++ b0)) 0 with
  | none => simp
  | some i0 =>
    by_cases short : r.length < wordLitBytes (b3 ++ b2 ++ (b1 ++ b0))
    · simp [short]
    · cases decodeWord (b3 ++ b2 ++ (b1 ++ b0)) (BitVec.ofNat 64 (leValue (r.take (wordLitBytes (b3 ++ b2 ++ (b1 ++ b0)))))) <;>
        simp [short, Nat.not_lt.mp short]

/-- R140: bytes that decode begin with a halfword or with a word, by their bit 0. -/
theorem bytes_of_decodeBytes {bs rest : List Byte} {i : Instr} (h : decodeBytes bs = .ok (i, rest)) :
    (∃ h r, bs = leBytes 2 (BitVec.toNat (w := 16) h) ++ r ∧ h.getLsbD 0 = false) ∨
      ∃ w r, bs = leBytes 4 (BitVec.toNat (w := 32) w) ++ r ∧ w.getLsbD 0 = true := by
  match bs with
  | [] | [_] => cases h
  | b0 :: b1 :: r =>
    cases low : (b1 ++ b0).getLsbD 0 with
    | false => exact .inl ⟨b1 ++ b0, r, by rw [leBytes_two]; rfl, low⟩
    | true =>
      match r with
      | [] | [_] => simp only [decodeBytes, low, Bool.true_eq_false, if_false, reduceCtorEq] at h
      | b2 :: b3 :: r =>
        exact .inr ⟨b3 ++ b2 ++ (b1 ++ b0), r, by rw [leBytes_four]; rfl, by rwa [append_bit _ _ (by decide)]⟩

/-! ## Instructions that pass the operand checks -/

theorem Instr.checked_eq_some_iff {i j : Instr} : i.checked = some j ↔ i.check = none ∧ i = j := by
  simp [Instr.checked, Instr.wellFormed]

theorem decodeWord_eq_some_iff {w : BitVec 32} (h0 : w.getLsbD 0 = true) {lit : BitVec 64} {i : Instr} :
    decodeWord w lit = some i ↔ decodeRaw w lit = some i ∧ i.check = none := by
  rw [decodeWord, if_pos h0, Option.bind_eq_some_iff]
  constructor
  · rintro ⟨j, raw, checked⟩
    obtain ⟨check, rfl⟩ := Instr.checked_eq_some_iff.mp checked
    exact ⟨raw, check⟩
  · rintro ⟨raw, check⟩
    exact ⟨i, raw, Instr.checked_eq_some_iff.mpr ⟨check, rfl⟩⟩

theorem decodeHalf_eq_some_iff {h : BitVec 16} (h0 : h.getLsbD 0 = false) {i : Instr} :
    decodeHalf h = some i ↔ (decodeHalfRaw h).check = none ∧ decodeHalfRaw h = i := by
  simp only [decodeHalf, h0, Bool.false_eq_true, if_false, Instr.checked_eq_some_iff]

/-! ## The 16-bit form (Table 10.2) -/

/-- Bit 0 of what an instruction begins with says which form it has (R140). -/
theorem lengthBit (i : Instr) : Laws.LengthBit.Statement i := by
  cases i
  all_goals
    dsimp only [Laws.LengthBit.Statement, Instr.isHalf, encodeWord, encodeHalf, Instr.check]
    simp only [halfWord_bit, gWord_bit, mWord_bit, csrWord_bit, jWord_bit, implies_true, reduceCtorEq, false_imp_iff]

theorem encodeHalf_bit {i : Instr} (hc : i.check = none) (half : i.isHalf = true) : (encodeHalf i).getLsbD 0 = false := by
  have bit := lengthBit i hc
  rwa [half] at bit

theorem encodeWord_bit {i : Instr} (hc : i.check = none) (word : i.isHalf = false) : (encodeWord i).getLsbD 0 = true := by
  have bit := lengthBit i hc
  rwa [word] at bit

theorem decodeHalfRaw_encodeHalf {i : Instr} (half : i.isHalf = true) : decodeHalfRaw (encodeHalf i) = i := by
  rw [Instr.isHalf.eq_def] at half
  split at half
  case h_17 => cases half
  all_goals
    simp only [encodeHalf, decodeHalfRaw, halfWord_marker, halfWord_op, halfWord_d, halfWord_s]
    rfl

theorem encodeHalf_halfRaw {h : BitVec 16} (h0 : h.getLsbD 0 = false) : encodeHalf (decodeHalfRaw h) = h ∧ (decodeHalfRaw h).isHalf = true := by
  have fields := halfWord_of_fields h h0
  have lt := (h.extractLsb' 2 4).isLt
  dsimp only [decodeHalfRaw]
  generalize (h.extractLsb' 2 4).toNat = op at fields lt
  interval_cases op
  all_goals exact ⟨fields, rfl⟩

theorem encodeWord_of_isHalf {i : Instr} (half : i.isHalf = true) : encodeWord i = 0 := by
  rw [Instr.isHalf.eq_def] at half
  split at half
  case h_17 => cases half
  all_goals rfl

/-! ## The literal of a well-formed instruction (R138, R142) -/

theorem Opnd.relit_lit (o : Opnd) : o.relit o.lit = o := by
  cases o with
  | reg | const | lit64 => rfl
  | lit32 w => simp [Opnd.relit, Opnd.lit]

theorem Opnd.lit_lt (o : Opnd) : o.lit.toNat < 256 ^ o.litBytes := by
  cases o with
  | reg | const => exact Nat.one_pos
  | lit32 w =>
    simp only [Opnd.lit, Opnd.litBytes, BitVec.toNat_setWidth]
    omega
  | lit64 w => exact w.isLt

theorem Opnd.litBytes_le (o : Opnd) : o.litBytes ≤ 8 := by cases o <;> simp [Opnd.litBytes]

/-- The literal of an operand that was read with a value of its size is that value. -/
theorem Opnd.lit_of_relit {o : Opnd} {lit : BitVec 64} (h : o.relit lit = o) (lt : lit.toNat < 256 ^ o.litBytes) : o.lit = lit := by
  cases o with
  | reg | const => exact BitVec.eq_of_toNat_eq (Nat.lt_one_iff.mp lt).symm
  | lit32 w =>
    obtain rfl := Opnd.lit32.inj h
    simp only [Opnd.litBytes] at lt
    refine BitVec.eq_of_toNat_eq ?_
    simp only [Opnd.lit, BitVec.toNat_setWidth]
    omega
  | lit64 w => exact (Opnd.lit64.inj h).symm

theorem soleLit_of_forall {p : Opnd → Prop} {l : List Opnd} (none : p (.reg 0)) (h : ∀ o ∈ l, p o) : p (soleLit l) := by
  rw [soleLit]
  cases found : l.find? Opnd.isLit with
  | none => exact none
  | some o => exact h o (List.mem_of_find?_eq_some found)

section Literal

variable {i : Instr} (hc : i.check = none)

include hc

theorem litBytes_eq_soleLit : i.litBytes = (soleLit i.sources).litBytes := by
  rw [Instr.litBytes, foldl_soleLit (fun o ho z => by rw [Opnd.litBytes_of_not_isLit ho, Nat.add_zero]) (sources_oneLit hc), Nat.zero_add]

theorem literal_eq_soleLit : i.literal = (soleLit i.sources).lit := by
  rw [Instr.literal, foldl_soleLit (fun o ho z => by rw [Opnd.lit_of_not_isLit ho]; exact BitVec.or_zero) (sources_oneLit hc)]
  exact BitVec.zero_or

theorem wordLitBytes_eq_litBytes : wordLitBytes (encodeWord i) = i.litBytes := by
  rw [wordLitBytes_encodeWord, litBytes_eq_soleLit hc,
    foldl_soleLit (fun o ho z => by rw [Opnd.litBytes_of_not_isLit ho, Nat.max_zero]) (sources_oneLit hc), Nat.zero_max]

theorem litBytes_le : i.litBytes ≤ 8 := litBytes_eq_soleLit hc ▸ (soleLit i.sources).litBytes_le

theorem literal_lt : i.literal.toNat < 256 ^ i.litBytes := by
  rw [literal_eq_soleLit hc, litBytes_eq_soleLit hc]
  exact (soleLit i.sources).lit_lt

/-- The literal of an instruction is the one that each of its sources holds. -/
theorem relit_literal : ∀ s ∈ i.sources, s.relit i.literal = s := by
  intro s mem
  cases lit : s.isLit with
  | false => exact Opnd.relit_of_not_isLit lit _
  | true => rw [literal_eq_soleLit hc, eq_soleLit (sources_oneLit hc) mem lit, Opnd.relit_lit]

theorem literal_of_relit {lit : BitVec 64} (h : ∀ s ∈ i.sources, s.relit lit = s) (lt : lit.toNat < 256 ^ i.litBytes) : i.literal = lit := by
  rw [literal_eq_soleLit hc]
  exact Opnd.lit_of_relit (soleLit_of_forall (p := fun o => o.relit lit = o) rfl h) (litBytes_eq_soleLit hc ▸ lt)

/-- The bytes that an instruction was read with are those of its literal. -/
theorem leBytes_literal {l : List Byte} (length : l.length = i.litBytes)
    (h : ∀ s ∈ i.sources, s.relit (BitVec.ofNat 64 (leValue l)) = s) : leBytes i.litBytes i.literal.toNat = l := by
  have lt : leValue l < 256 ^ i.litBytes := length ▸ leValue_lt l
  have fits : 256 ^ i.litBytes ≤ 2 ^ 64 := Nat.pow_le_pow_right (n := 256) (by decide) (litBytes_le hc)
  have value : (BitVec.ofNat 64 (leValue l)).toNat = leValue l := Nat.mod_eq_of_lt (lt.trans_le fits)
  rw [literal_of_relit hc h (value.symm ▸ lt), value, ← length, leBytes_leValue]

end Literal

/-! ## The two obligations -/

/-- Settles O59: the word decodes to the instruction with whatever literal follows it, and the bytes that follow are its own literal. -/
theorem decodeEncode : Obligations.DecodeEncode := by
  unfold Obligations.DecodeEncode
  intro i rest hc
  cases form : i.isHalf with
  | true =>
    have low := encodeHalf_bit hc form
    rw [encode, if_pos form, decodeBytes_half_iff low, decodeHalf_eq_some_iff low, decodeHalfRaw_encodeHalf form]
    exact ⟨⟨hc, rfl⟩, rfl⟩
  | false =>
    have low := encodeWord_bit hc form
    have length := leBytes_length i.litBytes i.literal.toNat
    obtain ⟨i0, raw0, check0, -⟩ := recodes_of_check hc form 0
    obtain ⟨i', raw, -, same⟩ := recodes_of_check hc form i.literal
    obtain rfl := same (relit_literal hc)
    rw [encode, form, if_neg Bool.false_ne_true, List.append_assoc, decodeBytes_word_iff low, wordLitBytes_eq_litBytes hc,
      List.take_left' length, List.drop_left' length, leValue_leBytes (literal_lt hc), BitVec.ofNat_toNat, BitVec.setWidth_eq,
      decodeWord_eq_some_iff low]
    refine ⟨⟨i0, (decodeWord_eq_some_iff low).mpr ⟨raw0, check0.trans hc⟩⟩, ?_, ⟨raw, hc⟩, rfl⟩
    rw [List.length_append, length]
    exact Nat.le_add_right ..

/-- Settles O60: each decoder reads every field of the word, so that the fields of the answer are the word's, and the literal is the bytes
that the word asks for. -/
theorem encodeDecode : Obligations.EncodeDecode := by
  unfold Obligations.EncodeDecode
  intro bs rest i h
  rcases bytes_of_decodeBytes h with ⟨half, r, rfl, low⟩ | ⟨w, r, rfl, low⟩
  · obtain ⟨decoded, rfl⟩ := (decodeBytes_half_iff low).mp h
    obtain ⟨hc, rfl⟩ := (decodeHalf_eq_some_iff low).mp decoded
    obtain ⟨encoded, form⟩ := encodeHalf_halfRaw low
    exact ⟨hc, by rw [encode, if_pos form, encoded]⟩
  · obtain ⟨-, long, decoded, rfl⟩ := (decodeBytes_word_iff low).mp h
    obtain ⟨raw, hc⟩ := (decodeWord_eq_some_iff low).mp decoded
    obtain ⟨rfl, relit⟩ := decodeRaw_reads low _ i raw
    have form : ¬i.isHalf = true := fun half => by simp [encodeWord_of_isHalf half] at low
    rw [wordLitBytes_eq_litBytes hc] at long relit ⊢
    refine ⟨hc, ?_⟩
    rw [encode, if_neg form, leBytes_literal hc (List.length_take_of_le long) relit, List.append_assoc, List.take_append_drop]

end Sys2Proof
end

section
/-! SUPPORT. What the scalar instructions of majors 0x00 to 0x04 and 0x1E share (R150, R153, R172): an operation on sources writes one register,
and a funct beyond a major's rows is illegal. -/

namespace Sys2Proof.Machine

/-! ## Operations on registers -/

section Writes

variable {i : Instr} {s : State} {d : Fin 32} {a b : Opnd}

/-- R153: an operation on two sources writes its value to d and nothing else. -/
theorem writes_of_alu2 (f : Word → Word → Word) (run : exec i s = s.alu2 d a b f) {v : Word} (value : f (s.me.opX a) (s.me.opX b) = v) :
    ∃ t, exec i s = .next t ∧ WritesX s t d v 0 (len2 a b) :=
  ⟨_, run, value ▸ WritesX.retire0 ..⟩

/-- R153: an operation on one source writes its value to d and nothing else. -/
theorem writes_of_alu1 (f : Word → Word) (run : exec i s = s.alu1 d a f) {v : Word} (value : f (s.me.opX a) = v) :
    ∃ t, exec i s = .next t ∧ WritesX s t d v 0 (len1 a) :=
  ⟨_, run, value ▸ WritesX.retire0 ..⟩

/-- R153: the value that an operation on two sources writes to d is one that p describes. -/
theorem writes_such_of_alu2 (f : Word → Word → Word) (run : exec i s = s.alu2 d a b f) {p : Word → Prop}
    (value : p (f (s.me.opX a) (s.me.opX b))) : ∃ t v, exec i s = .next t ∧ WritesX s t d v 0 (len2 a b) ∧ p v :=
  ⟨_, _, run, WritesX.retire0 .., value⟩

/-- R153: the value that an operation on one source writes to d is one that p describes. -/
theorem writes_such_of_alu1 (f : Word → Word) (run : exec i s = s.alu1 d a f) {p : Word → Prop} (value : p (f (s.me.opX a))) :
    ∃ t v, exec i s = .next t ∧ WritesX s t d v 0 (len1 a) ∧ p v :=
  ⟨_, _, run, WritesX.retire0 .., value⟩

/-- R172: a floating-point operation on two sources writes its pattern to d and accrues its flags. -/
theorem writes_of_fp2 {p : Bool} (f : Fmt → Rm → Nat → Nat → FRes) (run : exec i s = s.fp2 d a b p f) {r : FRes}
    (result : f (fmtP p) (rmOf s.me.fmode) (s.me.opF p a) (s.me.opF p b) = r) :
    ∃ t, exec i s = .next t ∧ WritesX s t d (BitVec.ofNat 64 r.bits) r.fl (len2 a b) :=
  ⟨_, run, result ▸ WritesX.retire ..⟩

end Writes

/-! ## Illegal functs (R150) -/

/-- A word of format G or E is illegal where its major's decoder has no row for its fields. -/
theorem decodeWord_eq_none_of_decodeG {w : Word32} {lit : Word} {m : Nat} (major : bits w 2 6 = m) (format : m ∉ [5, 6, 7, 8, 9, 11])
    (row : ∀ g : GFields, g.f = bits w 8 6 → decodeG m g = none) : decodeWord w lit = none := by
  change majorOf w = m at major
  simp only [List.mem_cons, List.not_mem_nil, or_false, not_or] at format
  simp only [decodeWord, decodeRaw, major, format, if_false]
  rw [row]
  · exact ite_self _
  · rfl

end Sys2Proof.Machine
end

section
/-! SUPPORT. Integer instructions (R155): O1. -/

namespace Sys2Proof.Machine

/-! ## The results of Table 11.3 as numbers -/

/-- A difference is that of the signed values, narrowed to 64 bits. -/
theorem sub_eq_ofInt (x y : Word) : x - y = BitVec.ofInt 64 (x.toInt - y.toInt) :=
  BitVec.eq_of_toInt_eq (by rw [BitVec.toInt_sub, BitVec.toInt_ofInt])

theorem minS_eq_ofInt (x y : Word) : minS x y = BitVec.ofInt 64 (min x.toInt y.toInt) := by
  rw [minS]
  split
  next less => rw [min_eq_right (BitVec.slt_iff_toInt_lt.mp less).le, BitVec.ofInt_toInt]
  next more => rw [min_eq_left (not_lt.mp (mt BitVec.slt_iff_toInt_lt.mpr more)), BitVec.ofInt_toInt]

theorem maxS_eq_ofInt (x y : Word) : maxS x y = BitVec.ofInt 64 (max x.toInt y.toInt) := by
  rw [maxS]
  split
  next less => rw [max_eq_right (BitVec.slt_iff_toInt_lt.mp less).le, BitVec.ofInt_toInt]
  next more => rw [max_eq_left (not_lt.mp (mt BitVec.slt_iff_toInt_lt.mpr more)), BitVec.ofInt_toInt]

theorem minU_eq_ofNat (x y : Word) : minU x y = BitVec.ofNat 64 (min x.toNat y.toNat) := by
  rw [minU]
  split
  next less => rw [min_eq_right (BitVec.ult_iff_lt.mp less).le, BitVec.ofNat_toNat, BitVec.setWidth_eq]
  next more => rw [min_eq_left (not_lt.mp (mt BitVec.ult_iff_lt.mpr more)), BitVec.ofNat_toNat, BitVec.setWidth_eq]

theorem maxU_eq_ofNat (x y : Word) : maxU x y = BitVec.ofNat 64 (max x.toNat y.toNat) := by
  rw [maxU]
  split
  next less => rw [max_eq_right (BitVec.ult_iff_lt.mp less).le, BitVec.ofNat_toNat, BitVec.setWidth_eq]
  next more => rw [max_eq_left (not_lt.mp (mt BitVec.ult_iff_lt.mpr more)), BitVec.ofNat_toNat, BitVec.setWidth_eq]

/-- R142: a 32-bit literal is sign-extended. -/
theorem opX_lit32 (t : Thread) (v : BitVec 32) : t.opX (.lit32 v) = v.signExtend 64 := by
  rw [Thread.opX]
  rfl

/-- Major 0x00 has eleven rows. -/
theorem decodeAlu_eq_none {g : GFields} (beyond : 11 ≤ g.f) : decodeAlu g = none := by
  unfold decodeAlu
  iterate 11 rw [if_neg (by omega)]

/-- Settles O1: each instruction is an operation on its sources, with the value that Table 11.3 gives. -/
theorem integerResults : Obligations.IntegerResults := by
  unfold Obligations.IntegerResults
  intro s k d a b x y writes
  exact ⟨writes_of_alu2 (· + ·) rfl (BitVec.add_def x y), writes_of_alu2 (· - ·) rfl (sub_eq_ofInt x y),
    writes_of_alu2 (· &&& ·) rfl rfl, writes_of_alu2 (· ||| ·) rfl rfl, writes_of_alu2 (· ^^^ ·) rfl rfl,
    writes_of_alu2 (fun u v => u &&& ~~~ v) rfl rfl,
    writes_of_alu2 minS rfl (minS_eq_ofInt x y), writes_of_alu2 maxS rfl (maxS_eq_ofInt x y),
    writes_of_alu2 minU rfl (minU_eq_ofNat x y), writes_of_alu2 maxU rfl (maxU_eq_ofNat x y),
    writes_of_alu1 (fun v => v) rfl rfl, opX_lit32 s.me,
    fun w lit _ major funct => decodeWord_eq_none_of_decodeG major (by decide) fun g hg => decodeAlu_eq_none (hg ▸ funct)⟩

end Sys2Proof.Machine
end

section
/-! SUPPORT. Products, quotients and remainders (R156): O2. -/

namespace Sys2Proof.Machine

/-! ## The results of Table 11.4 as numbers -/

theorem mul_eq_ofNat (x y : Word) : x * y = BitVec.ofNat 64 (x.toNat * y.toNat) :=
  BitVec.eq_of_toNat_eq (by rw [BitVec.toNat_mul, BitVec.toNat_ofNat])

/-- The signed quotient, narrowed where it overflows. -/
theorem divS_eq_ofInt (x y : Word) : divS x y = BitVec.ofInt 64 (if y = 0 then -1 else x.toInt.tdiv y.toInt) := by
  rw [divS]
  split
  · rfl
  · exact BitVec.eq_of_toInt_eq (by rw [BitVec.toInt_sdiv, BitVec.toInt_ofInt])

theorem divU_eq_ofNat (x y : Word) : divU x y = BitVec.ofNat 64 (if y = 0 then 2 ^ 64 - 1 else x.toNat / y.toNat) := by
  rw [divU]
  split
  · rfl
  · exact BitVec.udiv_def

theorem remS_eq_ofInt (x y : Word) : remS x y = BitVec.ofInt 64 (if y = 0 then x.toInt else x.toInt.tmod y.toInt) := by
  rw [remS]
  split
  · rw [BitVec.ofInt_toInt]
  · rw [← BitVec.toInt_srem, BitVec.ofInt_toInt]

theorem remU_eq_ofNat (x y : Word) : remU x y = BitVec.ofNat 64 (if y = 0 then x.toNat else x.toNat % y.toNat) := by
  rw [remU]
  split
  · rw [BitVec.ofNat_toNat, BitVec.setWidth_eq]
  · rw [← BitVec.toNat_umod, BitVec.ofNat_toNat, BitVec.setWidth_eq]

/-- Major 0x01 has seven rows. -/
theorem decodeMulDiv_eq_none {g : GFields} (beyond : 7 ≤ g.f) : decodeMulDiv g = none := by
  unfold decodeMulDiv
  iterate 7 rw [if_neg (by omega)]

/-- Settles O2: each instruction is an operation on its sources, with the value that Table 11.4 gives. -/
theorem multiplyDivideResults : Obligations.MultiplyDivideResults := by
  unfold Obligations.MultiplyDivideResults
  intro s k d a b x y writes
  exact ⟨writes_of_alu2 (· * ·) rfl (mul_eq_ofNat x y), writes_of_alu2 mulHigh rfl rfl, writes_of_alu2 mulHighU rfl rfl,
    writes_of_alu2 divS rfl (divS_eq_ofInt x y), writes_of_alu2 divU rfl (divU_eq_ofNat x y),
    writes_of_alu2 remS rfl (remS_eq_ofInt x y), writes_of_alu2 remU rfl (remU_eq_ofNat x y),
    fun w lit _ major funct => decodeWord_eq_none_of_decodeG major (by decide) fun g hg => decodeMulDiv_eq_none (hg ▸ funct)⟩

end Sys2Proof.Machine
end

section
/-! SUPPORT. Shifts, counts, extensions and bit fields (R157, R158): O3. -/

namespace Sys2Proof.Machine

/-! ## Shifts -/

theorem shamt_eq_mod (y : Word) : shamt y = y.toNat % 64 := by
  rw [shamt, bits_eq_div_mod, pow_zero, Nat.div_one]
  rfl

/-! ## Counts -/

theorem toNat_countLeading (x : Word) : (countLeading x).toNat = if x = 0 then 64 else 63 - x.toNat.log2 := by
  rw [countLeading]
  split
  · rfl
  · rw [BitVec.toNat_ofNat, topBit, Nat.mod_eq_of_lt (by omega)]

/-- The zeros above the highest one of a value: it lies below the power of two that they leave, and at or above the next. -/
theorem countLeading_bounds (x : Word) : (countLeading x).toNat ≤ 64 ∧ x.toNat < 2 ^ (64 - (countLeading x).toNat) ∧
    (x ≠ 0 → 2 ^ (63 - (countLeading x).toNat) ≤ x.toNat) ∧ (x = 0 → countLeading x = 64) := by
  by_cases zero : x = 0
  · subst zero
    decide
  · have nonzero : x.toNat ≠ 0 := fun e => zero (BitVec.eq_of_toNat_eq e)
    have high : x.toNat.log2 < 64 := (Nat.log2_lt nonzero).mpr x.isLt
    have count := toNat_countLeading x
    rw [if_neg zero] at count
    refine ⟨by omega, ?_, fun _ => ?_, fun h => absurd h zero⟩
    · rw [show 64 - (countLeading x).toNat = x.toNat.log2 + 1 by omega]
      exact Nat.lt_log2_self
    · rw [show 63 - (countLeading x).toNat = x.toNat.log2 by omega]
      exact Nat.log2_self_le nonzero

theorem toNat_countTrailing {x : Word} {i : Nat} (found : (List.range 64).find? (fun j => bit x j) = some i) (h : i < 64) :
    (countTrailing x).toNat = i := by
  rw [countTrailing, found, Option.getD_some, BitVec.toNat_ofNat, Nat.mod_eq_of_lt (by omega)]

/-- The zeros below the lowest one of a value. -/
theorem countTrailing_spec (x : Word) : if x = 0 then countTrailing x = 64 else (countTrailing x).toNat < 64 ∧
    x.getLsbD (countTrailing x).toNat = true ∧ ∀ j, j < (countTrailing x).toNat → x.getLsbD j = false := by
  split
  next zero =>
    subst zero
    decide
  next nonzero =>
    cases found : (List.range 64).find? (fun j => bit x j) with
    | none =>
      refine absurd (BitVec.eq_of_getLsbD_eq fun j hj => ?_) nonzero
      simpa [bit] using List.find?_range_eq_none.mp found j hj
    | some i =>
      obtain ⟨one, below, least⟩ := List.find?_range_eq_some.mp found
      rw [List.mem_range] at below
      rw [toNat_countTrailing found below]
      exact ⟨below, one, fun j hj => by simpa [bit] using least j hj⟩

theorem toNat_countOnes (x : Word) : (countOnes x).toNat = ((List.range 64).filter (fun j => x.getLsbD j)).length := by
  have most : (List.range 64).countP (fun i => bit x i) ≤ 64 := List.countP_le_length.trans_eq List.length_range
  rw [countOnes, BitVec.toNat_ofNat, Nat.mod_eq_of_lt (by omega), List.countP_eq_length_filter]
  rfl

/-! ## Extensions -/

/-- R157: the width of an extension, as b names it. -/
theorem extWidth_eq (y : Word) : extWidth y = if y.toNat % 64 = 0 then 64 else y.toNat % 64 := by
  have low : bits y 0 6 = y.toNat % 64 := shamt_eq_mod y
  rw [extWidth, low]

theorem extWidth_bounds (y : Word) : 0 < extWidth y ∧ extWidth y ≤ 64 := by
  rw [extWidth_eq]
  split <;> omega

/-- A sign extension repeats the top bit of its width. -/
theorem getLsbD_extendS (x y : Word) {j : Nat} (hj : j < 64) :
    (extendS x y).getLsbD j = if j < extWidth y then x.getLsbD j else x.getLsbD (extWidth y - 1) := by
  obtain ⟨positive, -⟩ := extWidth_bounds y
  have low (i : Nat) (hi : i < extWidth y) : (BitVec.ofNat (extWidth y) (x.toNat % 2 ^ extWidth y)).getLsbD i = x.getLsbD i := by
    rw [BitVec.getLsbD_ofNat, Nat.testBit_mod_two_pow, BitVec.testBit_toNat, decide_eq_true hi, Bool.true_and, Bool.true_and]
  rw [extendS, sext_eq_toInt, ← BitVec.signExtend, BitVec.getLsbD_signExtend, decide_eq_true hj, Bool.true_and, BitVec.msb_eq_getLsbD_last,
    low (extWidth y - 1) (by omega)]
  split
  next inside => exact low j inside
  next => rfl

theorem toNat_extendZ (x y : Word) : (extendZ x y).toNat = x.toNat % 2 ^ extWidth y := by
  rw [extendZ, BitVec.toNat_ofNat, Nat.mod_eq_of_lt ((Nat.mod_le _ _).trans_lt x.isLt)]

/-! ## Bit fields -/

/-- R158: the width of the field that b names, which ends at bit 63 at the latest. -/
def fieldWidth (b : Word) : Nat := min (bits b 6 7) (64 - bits b 0 6)

theorem fieldWidth_eq (y : Word) : fieldWidth y = min (y.toNat / 64 % 128) (64 - y.toNat % 64) := by
  rw [fieldWidth, bits_eq_div_mod, ← shamt, shamt_eq_mod]
  rfl

/-- R158: the mask of a field holds the bits of the field. -/
theorem getLsbD_fieldMask (y : Word) {j : Nat} (hj : j < 64) :
    (fieldMask y).getLsbD j = decide (shamt y ≤ j ∧ j < shamt y + fieldWidth y) := by
  rw [fieldMask, ← fieldWidth, ← shamt, BitVec.getLsbD_shiftLeft, BitVec.getLsbD_ofNat, Nat.testBit_two_pow_sub_one]
  rw [Bool.eq_iff_iff]
  simp only [Bool.and_eq_true, Bool.not_eq_true', decide_eq_true_eq, decide_eq_false_iff_not]
  omega

theorem toNat_bfExtract (x y : Word) : (bfExtract x y).toNat = x.toNat / 2 ^ shamt y % 2 ^ fieldWidth y := by
  refine Nat.eq_of_testBit_eq fun j => ?_
  rw [BitVec.testBit_toNat, bfExtract, ← shamt, BitVec.getLsbD_ushiftRight, BitVec.getLsbD_and, Nat.testBit_mod_two_pow, Nat.testBit_div_two_pow,
    BitVec.testBit_toNat, Nat.add_comm j, Bool.and_comm]
  have narrow : fieldWidth y ≤ 64 - shamt y := min_le_right ..
  by_cases h : shamt y + j < 64
  · rw [getLsbD_fieldMask y h]
    simp
  · rw [BitVec.getLsbD_of_ge x _ (by omega), Bool.and_false, Bool.and_false]

/-- R158: an insertion puts the low bits of a into the field and keeps the others. -/
theorem getLsbD_bfInsert (v x y : Word) {j : Nat} (hj : j < 64) :
    (bfInsert v x y).getLsbD j = if shamt y ≤ j ∧ j < shamt y + fieldWidth y then x.getLsbD (j - shamt y) else v.getLsbD j := by
  rw [bfInsert, ← shamt]
  simp only [BitVec.getLsbD_or, BitVec.getLsbD_and, BitVec.getLsbD_not, BitVec.getLsbD_shiftLeft, getLsbD_fieldMask y hj]
  split
  next inside => simp [inside, hj, show ¬ j < shamt y by omega]
  next outside => simp [outside, hj]

/-- Major 0x02 has ten rows. -/
theorem decodeShift_eq_none {g : GFields} (beyond : 10 ≤ g.f) : decodeShift g = none := by
  unfold decodeShift
  iterate 10 rw [if_neg (by omega)]

/-- Settles O3: each instruction is an operation on its sources, whose value the lemmas above describe. -/
theorem shiftAndFieldResults : Obligations.ShiftAndFieldResults := by
  unfold Obligations.ShiftAndFieldResults
  intro s k d a b x y n w f writes
  have amount : shamt y = n := shamt_eq_mod y
  have width : extWidth y = w := extWidth_eq y
  have field : fieldWidth y = f := fieldWidth_eq y
  refine ⟨writes_such_of_alu2 (fun u v => u <<< shamt v) rfl ?sll, writes_such_of_alu2 (fun u v => u >>> shamt v) rfl ?srl,
    writes_such_of_alu2 (fun u v => u.sshiftRight (shamt v)) rfl ?sra,
    writes_such_of_alu1 countLeading rfl (countLeading_bounds x), writes_such_of_alu1 countTrailing rfl (countTrailing_spec x),
    writes_such_of_alu1 countOnes rfl (toNat_countOnes x),
    writes_such_of_alu2 extendS rfl fun j hj => ?exts, writes_such_of_alu2 extendZ rfl ?extz,
    writes_such_of_alu2 bfExtract rfl ?bfext, writes_such_of_alu2 (bfInsert (s.me.getX d)) rfl fun j hj => ?bfins,
    fun u lit _ major funct => decodeWord_eq_none_of_decodeG major (by decide) fun g hg => decodeShift_eq_none (hg ▸ funct)⟩
  case sll => rw [amount, BitVec.toNat_shiftLeft, Nat.shiftLeft_eq]
  case srl => rw [amount, BitVec.toNat_ushiftRight, Nat.shiftRight_eq_div_pow]
  case sra => rw [amount, BitVec.toInt_sshiftRight, Int.shiftRight_eq_div_pow, Nat.cast_pow, Nat.cast_ofNat]
  case exts => rw [getLsbD_extendS x y hj, width]
  case extz => rw [toNat_extendZ, width]
  case bfext => rw [toNat_bfExtract, amount, field]
  case bfins => rw [getLsbD_bfInsert _ x y hj, amount, field]

end Sys2Proof.Machine
end

section
/-! SUPPORT. Comparisons, selection and address arithmetic (R159 to R162): O4. -/

namespace Sys2Proof.Machine

/-! ## Comparisons (R159) -/

theorem flag_eq_ite {r : Bool} {p : Prop} [Decidable p] (h : r = true ↔ p) : flag r = if p then 1 else 0 := by
  by_cases holds : p
  · rw [h.mpr holds, if_pos holds, flag, if_pos rfl]
  · rw [Bool.eq_false_iff.mpr (mt h.mp holds), if_neg holds, flag, if_neg Bool.false_ne_true]

/-! ## The forms of an own address (R161) -/

/-- The window of an address is its high byte. -/
theorem bits_window (a : Word) : bits a 56 8 = a.toNat / 2 ^ 56 := by
  rw [bits_eq_div_mod, Nat.mod_eq_of_lt]
  have := a.isLt
  omega

theorem zeroBits_iff (a : Word) (lo n : Nat) : zeroBits a lo n = true ↔ a.toNat / 2 ^ lo % 2 ^ n = 0 := by
  rw [zeroBits, decide_eq_true_eq, bits_eq_div_mod]

/-- Window 0x00, below 2 MiB. -/
theorem ownLocal_iff (a : Word) : bits a 56 8 = 0 ∧ zeroBits a 21 35 = true ↔ a.toNat < 2 ^ 21 := by
  rw [bits_window, zeroBits_iff]
  omega

/-- Window 0x01, below 4 MiB. -/
theorem ownShared_iff (a : Word) : bits a 56 8 = 1 ∧ zeroBits a 22 34 = true ↔ a.toNat / 2 ^ 22 = 2 ^ 34 := by
  rw [bits_window, zeroBits_iff]
  omega

/-- Window 0x02, at a core of a cluster. -/
theorem coreLocal_iff (a : Word) {cl co : Nat} (hcl : cl < 2 ^ 8) (hco : co < 2 ^ 4) :
    bits a 56 8 = 2 ∧ zeroBits a 33 23 = true ∧ bits a 25 8 = cl ∧ bits a 21 4 = co ↔ a.toNat / 2 ^ 21 = 2 * 2 ^ 35 + cl * 2 ^ 4 + co := by
  rw [bits_window, zeroBits_iff, bits_eq_div_mod, bits_eq_div_mod]
  omega

/-- Window 0x03, at a cluster. -/
theorem clusterShared_iff (a : Word) {cl : Nat} (hcl : cl < 2 ^ 8) :
    bits a 56 8 = 3 ∧ zeroBits a 30 26 = true ∧ bits a 22 8 = cl ↔ a.toNat / 2 ^ 22 = 3 * 2 ^ 34 + cl := by
  rw [bits_window, zeroBits_iff, bits_eq_div_mod]
  omega

/-- R161: an own-core or own-cluster address takes the form that names the core or the cluster; every other address stays. -/
theorem convertAddr_toGlobal (node a : Word) {b : Word} (h : b.getLsbD 0 = false) :
    (a.toNat < 2 ^ 21 → (convertAddr node a b).toNat = 2 * 2 ^ 56 + bits node 29 8 * 2 ^ 25 + bits node 22 4 * 2 ^ 21 + a.toNat) ∧
    (a.toNat / 2 ^ 22 = 2 ^ 34 → (convertAddr node a b).toNat = 3 * 2 ^ 56 + bits node 29 8 * 2 ^ 22 + a.toNat % 2 ^ 22) ∧
    (2 ^ 21 ≤ a.toNat → a.toNat / 2 ^ 22 ≠ 2 ^ 34 → convertAddr node a b = a) := by
  have cluster : bits node 29 8 < 2 ^ 8 := bits_lt ..
  have core : bits node 22 4 < 2 ^ 4 := bits_lt ..
  simp only [convertAddr, nodeCluster, nodeCore, bit, h, if_true, ownLocal_iff, ownShared_iff, bits_eq_div_mod a 0, pow_zero, Nat.div_one]
  refine ⟨fun here => ?_, fun here => ?_, fun far outside => ?_⟩
  · rw [if_pos here, BitVec.toNat_ofNat]
    omega
  · rw [if_neg (by omega), if_pos here, BitVec.toNat_ofNat]
    omega
  · rw [if_neg (by omega), if_neg outside]

/-- R161: an address that names the thread's core or cluster takes the own form; every other address stays. -/
theorem convertAddr_toOwn (node a : Word) {b : Word} (h : b.getLsbD 0 = true) :
    (a.toNat / 2 ^ 21 = 2 * 2 ^ 35 + bits node 29 8 * 2 ^ 4 + bits node 22 4 → (convertAddr node a b).toNat = a.toNat % 2 ^ 21) ∧
    (a.toNat / 2 ^ 22 = 3 * 2 ^ 34 + bits node 29 8 → (convertAddr node a b).toNat = 2 ^ 56 + a.toNat % 2 ^ 22) ∧
    (a.toNat / 2 ^ 21 ≠ 2 * 2 ^ 35 + bits node 29 8 * 2 ^ 4 + bits node 22 4 → a.toNat / 2 ^ 22 ≠ 3 * 2 ^ 34 + bits node 29 8 →
      convertAddr node a b = a) := by
  have cluster : bits node 29 8 < 2 ^ 8 := bits_lt ..
  have core : bits node 22 4 < 2 ^ 4 := bits_lt ..
  simp only [convertAddr, nodeCluster, nodeCore, bit, h, Bool.true_eq_false, if_false, coreLocal_iff a cluster core,
    clusterShared_iff a cluster, bits_eq_div_mod a 0, pow_zero, Nat.div_one]
  refine ⟨fun here => ?_, fun here => ?_, fun notCore notCluster => ?_⟩
  · rw [if_pos here, BitVec.toNat_ofNat]
    omega
  · rw [if_neg (by omega), if_pos here, BitVec.toNat_ofNat]
    omega
  · rw [if_neg notCore, if_neg notCluster]

/-! ## The class of an address (R162) -/

/-- Table 11.8: the word of a class, from its fields. -/
def classWord (window : Nat) (valid home cluster device : Bool) : Word :=
  BitVec.ofNat 64 (window + 256 * valid.toNat + 512 * home.toNat + 1024 * cluster.toNat + 2048 * device.toNat)

theorem decide_eq_of_toNat {p : Prop} [Decidable p] {b : Bool} (h : p ↔ b.toNat = 1) : decide p = b := by
  rw [Bool.eq_iff_iff, decide_eq_true_iff, h, Bool.toNat_eq_one]

section ClassWord

variable {window : Nat} (h : window < 2 ^ 8) (valid home cluster device : Bool)
include h

theorem toNat_classWord : (classWord window valid home cluster device).toNat =
    window + 256 * valid.toNat + 512 * home.toNat + 1024 * cluster.toNat + 2048 * device.toNat := by
  have := valid.toNat_le
  have := home.toNat_le
  have := cluster.toNat_le
  have := device.toNat_le
  rw [classWord, BitVec.toNat_ofNat, Nat.mod_eq_of_lt (by omega)]

/-- Each field of a class word holds what it was made of. -/
theorem classWord_fields : (classWord window valid home cluster device).toNat < 2 ^ 12 ∧
    bits (classWord window valid home cluster device) 0 8 = window ∧
    (classWord window valid home cluster device).getLsbD 8 = valid ∧ (classWord window valid home cluster device).getLsbD 9 = home ∧
    (classWord window valid home cluster device).getLsbD 10 = cluster ∧ (classWord window valid home cluster device).getLsbD 11 = device := by
  have hv := valid.toNat_le
  have hh := home.toNat_le
  have hc := cluster.toNat_le
  have hd := device.toNat_le
  have number := toNat_classWord h valid home cluster device
  simp only [← BitVec.testBit_toNat, bits_eq_div_mod, Nat.testBit_eq_decide_div_mod_eq, number]
  exact ⟨by omega, by omega, decide_eq_of_toNat (by omega), decide_eq_of_toNat (by omega), decide_eq_of_toNat (by omega),
    decide_eq_of_toNat (by omega)⟩

end ClassWord

/-- Whether an address names a local SRAM whose place p holds of. -/
def namesSram (p : Place → Bool) (t : Option Target) : Bool :=
  match t with
  | some (.sram q _) => p q
  | _ => false

theorem namesSram_iff (p : Place → Bool) (t : Option Target) : namesSram p t = true ↔ ∃ q o, t = some (.sram q o) ∧ p q = true := by
  rcases t with _ | ⟨q, o⟩ | _ | _ | _ <;> simp [namesSram]

/-- Table 11.8: the WINDOW field of an address whose high byte is sel. -/
def windowClass (sel : Nat) : Nat := if sel < 4 then sel else if sel < 16 then 0xFF else if sel < 128 then 0x10 else 0x80

theorem windowClass_lt (sel : Nat) : windowClass sel < 2 ^ 8 := by
  unfold windowClass
  split_ifs <;> omega

theorem State.classify_eq (s : State) (h : Hart) (a : Word) : s.classify h a = classWord (windowClass (a.toNat / 2 ^ 56)) (s.resolve h a.toNat).isSome
    (decide (a.toNat / 2 ^ 56 < 4) && namesSram (fun p => decide (p = .core h.core)) (s.resolve h a.toNat))
    (decide (a.toNat / 2 ^ 56 < 4) && namesSram (fun p => decide (p.cluster_ = clusterOf h.core)) (s.resolve h a.toNat))
    ((s.resolve h a.toNat).isSome && decide (a.toNat / 2 ^ 56 < 4)) := by
  rw [← bits_window]
  rfl

/-- R58: the target that an address names holds an offset of its window, so that no bytes on it is the same target. -/
theorem State.plus_zero_of_resolveAt {s : State} {h : Hart} {l : Level} {a : Nat} {t : Target} (r : s.resolveAt h l a = some t) : t.plus 0 = t := by
  simp only [State.resolveAt] at r
  repeat' split at r
  all_goals cases r
  all_goals simp only [Target.plus, Nat.add_zero, Nat.mod_mod]
  exact congrArg _ (Nat.mod_eq_of_lt ((Nat.mod_lt a (by decide)).trans (by decide)))

/-- R58: the range of one byte is legal where its byte is. -/
theorem State.resolveRange_one (s : State) (h : Hart) (a : Nat) : s.resolveRange h a 1 = s.resolve h a := by
  rw [State.resolveRange, State.rangeAt, State.resolve]
  split
  next none => exact none.symm
  next t named => rw [Nat.sub_self, Nat.add_zero, if_pos ⟨rfl, by rw [named, State.plus_zero_of_resolveAt named]⟩, named]

/-- Major 0x03 has four rows. -/
theorem decodeCompare_eq_none {g : GFields} (beyond : 4 ≤ g.f) : decodeCompare g = none := by
  unfold decodeCompare
  iterate 4 rw [if_neg (by omega)]

/-- Major 0x04 has three rows. -/
theorem decodeAddress_eq_none {g : GFields} (beyond : 3 ≤ g.f) : decodeAddress g = none := by
  unfold decodeAddress
  iterate 3 rw [if_neg (by omega)]

/-- Settles O4: each instruction is an operation on its sources; APCVT's conditions are ranges of the address, and APTEST's word is made of
the fields of Table 11.8. -/
theorem compareAndAddressResults : Obligations.CompareAndAddressResults := by
  unfold Obligations.CompareAndAddressResults
  intro s k d a b x y writes
  refine ⟨writes_of_alu2 (fun u v => flag (decide (u = v))) rfl (flag_eq_ite decide_eq_true_iff),
    writes_of_alu2 (fun u v => flag (u.slt v)) rfl (flag_eq_ite BitVec.slt_iff_toInt_lt),
    writes_of_alu2 (fun u v => flag (u.ult v)) rfl (flag_eq_ite BitVec.ult_iff_lt),
    writes_of_alu2 (fun u v => if s.me.getX d ≠ 0 then u else v) rfl rfl, writes_of_alu1 (fun v => s.me.pc + v) rfl rfl,
    writes_of_alu2 (convertAddr s.me.nodeid) rfl rfl, writes_of_alu1 (s.classify s.cur) rfl rfl, ?apcvt, ?aptest,
    fun w lit _ major funct => decodeWord_eq_none_of_decodeG major (by decide) fun g hg => decodeCompare_eq_none (hg ▸ funct),
    fun w lit _ major funct => decodeWord_eq_none_of_decodeG major (by decide) fun g hg => decodeAddress_eq_none (hg ▸ funct)⟩
  case apcvt =>
    intro g cl co n
    split
    next toGlobal => exact convertAddr_toGlobal s.me.nodeid x toGlobal
    next toOwn => exact convertAddr_toOwn s.me.nodeid x (eq_true_of_ne_false toOwn)
  case aptest =>
    intro c sel
    obtain ⟨small, window, valid, home, cluster, device⟩ := classWord_fields (windowClass_lt sel) (s.resolve s.cur x.toNat).isSome
      (decide (sel < 4) && namesSram (fun p => decide (p = .core s.cur.core)) (s.resolve s.cur x.toNat))
      (decide (sel < 4) && namesSram (fun p => decide (p.cluster_ = clusterOf s.cur.core)) (s.resolve s.cur x.toNat))
      ((s.resolve s.cur x.toNat).isSome && decide (sel < 4))
    rw [← s.classify_eq s.cur x] at small window valid home cluster device
    refine ⟨small, window, ?_, ?_, ?_, ?_⟩
    · rw [State.resolveRange_one]
      exact valid
    · rw [home, Bool.and_eq_true, decide_eq_true_eq, namesSram_iff]
      simp
    · rw [cluster, Bool.and_eq_true, decide_eq_true_eq, namesSram_iff]
      simp
    · rw [device, Bool.and_eq_true, decide_eq_true_eq, and_comm]

end Sys2Proof.Machine
end

section
/-! SUPPORT. Scalar floating-point arithmetic (R171 to R173): O6. -/

namespace Sys2Proof.Machine

/-- R173: the pattern of a comparison is 1 where its relation holds. -/
theorem cmpRes_eq (rel : Num → Num → Bool) (ordered : Bool) (f : Fmt) (x y : Nat) : cmpRes rel ordered f x y =
    ⟨if rel (f.decode x) (f.decode y) then 1 else 0, cmpFlags ordered (f.decode x) (f.decode y)⟩ := by
  rw [cmpRes, Bool.toNat, Bool.cond_eq_ite]

/-- Settles O6: each instruction is an operation on its sources at its precision. -/
theorem scalarFloatResults : Obligations.ScalarFloatResults := by
  unfold Obligations.ScalarFloatResults
  intro s k d a b p f rm x y z writes
  exact ⟨writes_of_fp2 (onValues Fmt.addR) rfl rfl, writes_of_fp2 (onValues Fmt.subR) rfl rfl, writes_of_fp2 (onValues Fmt.mulR) rfl rfl,
    writes_of_fp2 (onValues Fmt.divR) rfl rfl,
    writes_of_fp2 (fun g r u v => g.fmaR r (g.decode u) (g.decode v) (g.decode (s.me.opF p (.reg d)))) rfl rfl,
    s.fp1_writes d a p fun r u => f.sqrtR r (f.decode u),
    writes_of_fp2 (fun g _ u v => g.minMax false u v) rfl rfl, writes_of_fp2 (fun g _ u v => g.minMax true u v) rfl rfl,
    writes_of_fp2 (fun g _ => cmpRes Num.eq false g) rfl (cmpRes_eq ..), writes_of_fp2 (fun g _ => cmpRes Num.lt true g) rfl (cmpRes_eq ..),
    writes_of_fp2 (fun g _ => cmpRes Num.le true g) rfl (cmpRes_eq ..)⟩

end Sys2Proof.Machine
end

section
/-! SUPPORT. CSR instructions (R150, R166): O8. -/

namespace Sys2Proof.Machine

theorem State.csrInstr_reached {s : State} {n : BitVec 12} (ok : csrOk s.cur.core s.me.level n.toNat = true) (i : Instr) (r : Result) :
    s.csrInstr n i r = r := by
  rw [State.csrInstr, if_pos ok]

/-- R150: a number that the level does not reach makes the word illegal. -/
theorem State.csrInstr_unreached {s : State} {n : BitVec 12} (no : csrOk s.cur.core s.me.level n.toNat = false) {i : Instr}
    (word : i.isHalf = false) (r : Result) : s.csrInstr n i r = s.trapMe 2 ((encodeWord i).setWidth 64) := by
  rw [State.csrInstr, no, if_neg Bool.false_ne_true, State.illegal, patternOf, word, if_neg Bool.false_ne_true]

/-- R166: each CSR instruction stands behind the check of its number. -/
theorem exec_csr {k : Bool} {d : Fin 32} {a : Opnd} {n : BitVec 12} {i : Instr}
    (h : i ∈ [Instr.csrr k d n, .csrw k a n, .csrs k a n, .csrc k a n]) (s : State) : i.isHalf = false ∧ ∃ r, exec i s = s.csrInstr n i r := by
  simp only [List.mem_cons, List.not_mem_nil, or_false] at h
  rcases h with rfl | rfl | rfl | rfl <;> exact ⟨rfl, _, rfl⟩

/-- R166: a CSR instruction that writes its register completes with the value that f makes of the old one and the source. -/
theorem passes_of_csrPut {i : Instr} {s : State} {n : BitVec 12} {a : Opnd} (f : Word → Word → Word)
    (run : exec i s = s.csrInstr n i (s.csrPut n a f)) (ok : csrOk s.cur.core s.me.level n.toNat = true) :
    ∃ t, exec i s = .next t ∧ Passes (s.writeCsr s.cur n.toNat (f (s.readCsr s.cur n.toNat) (s.me.opX a))) t (len1 a) :=
  ⟨_, run.trans (State.csrInstr_reached ok ..), Passes.retire ..⟩

/-- Settles O8: each instruction stands behind the check of its number. -/
theorem csrInstructions : Obligations.CsrInstructions := by
  unfold Obligations.CsrInstructions
  intro s k d a n old puts
  refine ⟨fun ok => ⟨⟨_, State.csrInstr_reached ok .., WritesX.retire0 ..⟩, passes_of_csrPut (fun _ v => v) rfl ok,
    passes_of_csrPut (fun u v => u ||| v) rfl ok, passes_of_csrPut (fun u v => u &&& ~~~ v) rfl ok⟩, fun no i hi => ?_⟩
  obtain ⟨word, r, run⟩ := exec_csr hi s
  exact run.trans (State.csrInstr_unreached no word r)

end Sys2Proof.Machine
end

section
/-! SUPPORT. YIELD, PHINT and UIRET (R195, R197, R198, R225): O19. -/

namespace Sys2Proof.Machine

/-- What an instruction does that changes its thread to u and completes. -/
theorem Passes.retire_with (s : State) {u : Thread} (len : Nat) : Passes (s.setMe u) (s.retire u len) len := by
  have h := Passes.retire (s.setMe u) len
  rwa [State.retire, State.me_setMe, State.setMe_setMe] at h

/-- A context's halt does not depend on what its threads do. -/
theorem State.halting_setMe (s : State) (u : Thread) (n : Nat) : (s.setMe u).halting n = s.halting n := by
  have ctx : ((s.setMe u).core n).ctx? = (s.core n).ctx? := State.core_setThread_kept Core.ctx? (fun _ _ => rfl) s s.cur u n
  rw [State.halting, State.halting, State.ctxOf, State.ctxOf, ctx]
  rfl

/-- R197: bit 0 of a hint's address is cleared. -/
theorem clearLowBit_eq (x : Word) : setBits (x.setWidth 32) 0 1 0 = BitVec.ofNat 32 (bits x 1 31 * 2) := by
  refine BitVec.eq_of_getLsbD_eq fun j hj => ?_
  have double : bits x 1 31 * 2 = 2 ^ 1 * bits x 1 31 := Nat.mul_comm ..
  rw [getLsbD_setBits _ _ _ _ _ hj, BitVec.getLsbD_ofNat, double, Nat.testBit_two_pow_mul, bits_eq_div_mod, Nat.testBit_mod_two_pow,
    Nat.testBit_div_two_pow, BitVec.testBit_toNat, BitVec.getLsbD_setWidth]
  split
  · next low => simp [show j = 0 by omega]
  · next high => simp [hj, show 1 ≤ j by omega, show j - 1 < 31 by omega]

/-- R197: the hint of a thread that names no descriptors. -/
def plainHint (x : Word) : Hint := ⟨BitVec.ofNat 32 (bits x 1 31 * 2), BitVec.ofNat 32 (bits x 32 32), []⟩

section Thread

variable {s : State} {k : Bool} {a b : Opnd} (hdrain : isDrain s.cur = false) (hspill : isSpill s.cur = false)
include hdrain hspill

theorem exec_phint_handler (handler : s.me.user.h = true) : exec (.phint k a b) s = .next (s.retire s.me (len2 a b)) := by
  change execPhint a b s = _
  simp only [execPhint, hdrain, hspill, handler, Bool.false_eq_true, if_false, if_true]

/-- R197: PHINT outside a handler, with no descriptors; with a halt pending the thread halts. -/
theorem exec_phint_plain (outside : s.me.user.h = false) (hb : s.me.opX b = 0) :
    exec (.phint k a b) s =
      let t := s.retire { s.me with hint := some (plainHint (s.me.opX a)) } (len2 a b)
      .next (if decide (kindOf s.cur.core = .compute) && s.halting s.cur.core then t.setMe { t.me with status := .halted false } else t) := by
  change execPhint a b s = _
  simp only [execPhint, hdrain, hspill, outside, hb, State.hintRanges, if_true, Bool.false_eq_true, if_false, Option.map_some,
    clearLowBit_eq, State.retire, State.halting_setMe, Option.isNone_some]
  rfl

theorem exec_uiret_handler (handler : s.me.user.h = true) : exec (.uiret k) s =
    .next (s.setMe (({ s.me with retired := s.me.retired + 1, user := { s.me.user with h := false } }).returnTo s.me.user.uepc)) := by
  change execUiret s = _
  simp only [execUiret, hdrain, hspill, handler, Bool.false_eq_true, if_false, Bool.not_true]

theorem exec_uiret_outside (outside : s.me.user.h = false) : exec (.uiret k) s = s.trapMe 39 0 := by
  change execUiret s = _
  simp only [execUiret, hdrain, hspill, outside, Bool.false_eq_true, if_false, Bool.not_false, if_true]
  rfl

end Thread

theorem exec_uiret_spill {s : State} (hspill : isSpill s.cur = true) (k : Bool) :
    exec (.uiret k) s = .next (s.setMe { s.me with retired := s.me.retired + 1, status := .idle }) := by
  change execUiret s = _
  simp only [execUiret, hspill, if_true]

/-! ### Returns (R225) -/

theorem Thread.returnTo_kept (t : Thread) (target : Word) : t.returnTo target = { t with pc := target, rep := (t.returnTo target).rep } := by
  unfold Thread.returnTo
  dsimp only
  split
  · rfl
  · split <;> rfl

theorem Thread.rep_returnTo_none {t : Thread} (h : t.rep = none) (target : Word) : (t.returnTo target).rep = none := by
  simp [Thread.returnTo, Thread.repeat?, h]

/-- R225: a return outside a handler at the level of a repeat ends it, unless it goes to the instruction at which the repeat was left. -/
theorem Thread.rep_returnTo_some {t : Thread} {r : Repeat} (outside : t.user.h = false) (h : t.rep = some r) (target : Word) :
    (t.returnTo target).rep = if t.level = r.level ∧ target ≠ r.trapped then none else some r := by
  by_cases level : t.level = r.level
  · by_cases back : target = r.trapped <;> simp [Thread.returnTo, Thread.repeat?, outside, h, level, back]
  · simp [Thread.returnTo, Thread.repeat?, outside, h, level]

/-- Settles O19: each instruction's case, by the thread and its handler. -/
theorem threadInstructions : Obligations.ThreadInstructions := by
  unfold Obligations.ThreadInstructions
  intro s k a b x
  refine ⟨⟨_, rfl, Passes.retire s 4⟩, fun hd hs hh => ⟨_, exec_phint_handler hd hs hh, Passes.retire ..⟩, fun hd hs hh halt hb => ?plain,
    fun hd hs hh halt compute hb => ?halts, fun hd hs hh => ?returns, fun hs => ⟨_, exec_uiret_spill hs k, rfl⟩,
    fun hd hs hh => exec_uiret_outside hd hs hh⟩
  case plain =>
    refine ⟨_, exec_phint_plain hd hs hh hb, ?_⟩
    rw [halt, Bool.and_false, if_neg Bool.false_ne_true]
    exact Passes.retire_with ..
  case halts =>
    refine ⟨_, exec_phint_plain hd hs hh hb, ?_⟩
    rw [halt, decide_eq_true compute, Bool.and_true, if_pos rfl, State.me_setMe, State.retire, State.me_setMe]
    exact ⟨rfl, (Thread.Passed.advance _ _ _ rfl rfl rfl rfl rfl).retired⟩
  case returns =>
    let t := { s.me with retired := s.me.retired + 1, user := { s.me.user with h := false } }
    have kept := t.returnTo_kept s.me.user.uepc
    refine ⟨_, exec_uiret_handler hd hs hh, State.setMe_only _ _, ?_⟩
    rw [State.me_setMe]
    exact ⟨by rw [kept], by rw [kept], by rw [kept], by rw [kept], fun none => Thread.rep_returnTo_none (t := t) none _,
      fun r some => Thread.rep_returnTo_some (t := t) rfl some _⟩

end Sys2Proof.Machine
end

section
/-! SUPPORT. The instructions of the inbox: MRECV, MPOLL, MCOUNT, MLOOP and MSEND (R190 to R194): O16, O17, O18. -/

namespace Sys2Proof.Machine

/-! ## The entries of an inbox -/

/-- Of the entries that p names, the first stands between the entries before it, which p does not name, and the others. -/
theorem filter_eq_cons_split {p : Entry → Bool} {l : List Entry} {e : Entry} {later : List Entry} (h : l.filter p = e :: later) :
    ∃ before after, l = before ++ e :: after ∧ dropFirst p l = before ++ after ∧ ∀ y ∈ before, p y = false := by
  induction l with
  | nil => exact absurd h (by simp)
  | cons x l ih =>
    by_cases hx : p x = true
    · rw [List.filter_cons_of_pos hx] at h
      obtain ⟨rfl, -⟩ := List.cons.inj h
      exact ⟨[], l, rfl, if_pos hx, by simp⟩
    · rw [List.filter_cons_of_neg hx] at h
      obtain ⟨before, after, whole, rest, unnamed⟩ := ih h
      refine ⟨x :: before, after, by rw [whole, List.cons_append], ?_, List.forall_mem_cons.mpr ⟨Bool.eq_false_of_not_eq_true hx, unnamed⟩⟩
      rw [dropFirst, if_neg hx, rest, List.cons_append]

/-- R194: a replay goes behind earlier replays and other threads' entries, up to the first of its thread that is none. -/
theorem placeLoop_split (e : Entry) (l : List Entry) : ∃ before after, l = before ++ after ∧ placeLoop e l = before ++ e :: after ∧
    (∀ y ∈ before, y.loop = true ∨ y.dst ≠ e.dst) ∧ ∀ y ∈ after.head?, y.loop = false ∧ y.dst = e.dst := by
  induction l with
  | nil => exact ⟨[], [], rfl, rfl, by simp, by simp⟩
  | cons x l ih =>
    by_cases stop : x.loop = false ∧ x.dst = e.dst
    · exact ⟨[], x :: l, rfl, by simp [placeLoop, stop], by simp, by simpa using stop⟩
    · obtain ⟨before, after, whole, placed, passed, next⟩ := ih
      have passes : x.loop = true ∨ x.dst ≠ e.dst := by
        rw [not_and_or] at stop
        simpa using stop
      refine ⟨x :: before, after, by rw [whole, List.cons_append], ?_, List.forall_mem_cons.mpr ⟨passes, passed⟩, next⟩
      rw [placeLoop, if_neg (by simpa using fun hl hd => stop ⟨hl, hd⟩), placed, List.cons_append]

/-! ## What a thread sees (R191) -/

theorem not_isDrain {h : Hart} (user : h.th < 4) : isDrain h = false := by simp [isDrain, show h.th ≠ 4 by omega]

theorem not_isSpill {h : Hart} (user : h.th < 4) : isSpill h = false := by simp [isSpill, show h.th ≠ 5 by omega]

theorem isSpill_iff {h : Hart} : isSpill h = true ↔ kindOf h.core = .compute ∧ h.th = 5 := by simp [isSpill]

theorem not_isDrain_of_isSpill {h : Hart} (spill : isSpill h = true) : isDrain h = false := by
  simp [isDrain, (isSpill_iff.mp spill).2]

/-- Table 12.9: the thread that an entry names, as a field of its 64 bytes. -/
theorem Entry.dst_val (e : Entry) : e.dst.val = bits e.bytes 32 2 := by
  have header : e.bytes.toNat % 2 ^ 64 / 2 ^ 32 % 2 ^ 2 = e.bytes.toNat / 2 ^ 32 % 2 ^ 2 := by omega
  have small := bits_lt e.bytes 32 2
  rw [Entry.dst, headerDst, Entry.header]
  simp only [bits_eq_div_mod, BitVec.toNat_setWidth, header] at small ⊢
  exact Nat.mod_eq_of_lt small

theorem Core.receiver_val (c : Core) {th : Nat} (user : th < 4) : (c.receiver th).val = th := by
  rw [Core.receiver, if_neg (by omega)]
  exact Nat.mod_eq_of_lt user

theorem Core.sees_user (c : Core) {h : Hart} (user : h.th < 4) (compute : kindOf h.core = .compute) (e : Entry) :
    c.sees h e = (decide (bits e.bytes 32 2 = h.th) && (decide (c.spillcnt[h.th] = 0) || e.loop)) := by
  have receiver := c.receiver_val user
  have named : e.dst = c.receiver h.th ↔ bits e.bytes 32 2 = h.th := by rw [Fin.ext_iff, Entry.dst_val, receiver]
  simp only [Core.sees, not_isSpill user, compute, named, receiver, ne_eq, not_true_eq_false, decide_false, Bool.or_self, Bool.false_eq_true,
    if_false]

theorem Core.sees_spill (c : Core) {h : Hart} (spill : isSpill h = true) (e : Entry) : c.sees h e = true := by
  rw [Core.sees, spill, Bool.true_or, if_pos rfl]

theorem Core.seen_spill (c : Core) {h : Hart} (spill : isSpill h = true) : c.seen h = c.inbox :=
  List.filter_eq_self.mpr fun e _ => c.sees_spill spill e

/-- R343: interrupt 71 is a translation core's alone. -/
theorem State.syncInbox_compute {core : Nat} (compute : kindOf core = .compute) (s : State) : s.syncInbox core = s := by
  rw [State.syncInbox, compute]

/-- R193: a thread that asks for the spill thread changes that mark of its core alone. -/
theorem State.askSpill_cases (s : State) : s.askSpill s.cur = s ∨ s.askSpill s.cur = s.setMyCore { s.myCore with spillAsk := true } := by
  unfold State.askSpill
  dsimp only
  split
  · exact .inr rfl
  · exact .inl rfl

/-! ## MRECV, MPOLL and MCOUNT (R191) -/

section User

variable {s : State} {k : Bool} {d : Fin 32} {e : Entry} {later : List Entry} (user : s.cur.th < 4)

include user in
theorem exec_mrecv_user (compute : kindOf s.cur.core = .compute) (seen : s.myCore.seen s.cur = e :: later) :
    exec (.mrecv k d) s = .next (let x := s.setMyCore { s.myCore with inbox := dropFirst (s.myCore.sees s.cur) s.myCore.inbox }
      x.retire (x.me.setV d e.bytes) 4) := by
  change execMrecv d s = _
  simp only [execMrecv, not_isDrain user, not_isSpill user, seen, State.syncInbox_compute compute, Bool.false_eq_true, if_false, Bool.false_and]

include user in
theorem exec_mrecv_empty (none : s.myCore.seen s.cur = []) :
    exec (.mrecv k d) s = (s.askSpill s.cur).block .mrecv := by
  change execMrecv d s = _
  simp only [execMrecv, not_isDrain user, not_isSpill user, none, Bool.false_eq_true, if_false]
  rfl

theorem exec_mpoll_some (seen : s.myCore.seen s.cur = e :: later) :
    exec (.mpoll k d) s = .next (s.retire (s.me.setX d (setBits e.header 61 1 1)) 4) := by
  change execMpoll d s = _
  simp only [execMpoll, seen]

theorem exec_mpoll_empty (none : s.myCore.seen s.cur = []) :
    exec (.mpoll k d) s = .next ((s.askSpill s.cur).retire ((s.askSpill s.cur).me.setX d 0) 4) := by
  change execMpoll d s = _
  simp only [execMpoll, none]

include user in
theorem exec_mcount_some (seen : s.myCore.seen s.cur = e :: later) :
    exec (.mcount k d) s = .next (s.retire (s.me.setX d (BitVec.ofNat 64 (later.length + 1))) 4) := by
  change execMcount d s = _
  simp only [execMcount, not_isSpill user, seen, List.length_cons, Nat.add_one_ne_zero, Bool.false_eq_true, if_false]

include user in
theorem exec_mcount_empty (none : s.myCore.seen s.cur = []) :
    exec (.mcount k d) s = .next ((s.askSpill s.cur).retire ((s.askSpill s.cur).me.setX d 0) 4) := by
  change execMcount d s = _
  simp only [execMcount, not_isSpill user, none, List.length_nil, Bool.false_eq_true, if_false, if_true]
  rfl

end User

/-- Settles O16: what the thread sees decides; MRECV removes the first of it. -/
theorem messageReceives : Obligations.MessageReceives := by
  unfold Obligations.MessageReceives
  intro s k d user compute c seen asked
  have sees : seen = c.seen s.cur := List.filter_congr fun e _ => (c.sees_user user compute e).symm
  refine ⟨s.askSpill_cases, fun e later some => ?some, fun none => ?none⟩
  case some =>
    have some' := sees.symm.trans some
    obtain ⟨before, after, whole, rest, unseen⟩ := filter_eq_cons_split some'
    refine ⟨⟨_, before, after, exec_mrecv_user user compute some', whole, fun y hy named => ?_, ?_⟩,
      ⟨_, exec_mpoll_some some', WritesX.retire0 ..⟩, ⟨_, exec_mcount_some user some', WritesX.retire0 ..⟩⟩
    · rw [sees, Core.seen, List.mem_filter, unseen y hy] at named
      exact Bool.false_ne_true named.2
    · rw [show dropFirst (s.myCore.sees s.cur) s.myCore.inbox = before ++ after from rest]
      exact WritesV.retire0 ..
  case none =>
    have none' := sees.symm.trans none
    refine ⟨?_, ⟨_, exec_mpoll_empty none', WritesX.retire0 ..⟩, ⟨_, exec_mcount_empty user none', WritesX.retire0 ..⟩⟩
    rw [exec_mrecv_empty user none']
    exact Waits.block ..

/-! ## The spill thread (R193, R194) -/

section Spill

variable {s : State} {k : Bool} {d : Fin 32} (spill : isSpill s.cur = true)
include spill

theorem exec_mcount_spill : exec (.mcount k d) s =
    .next (s.retire (s.me.setX d (BitVec.ofNat 64 (s.myCore.inbox.length + 256 * (48 - s.myCore.inbox.length)))) 4) := by
  change execMcount d s = _
  simp only [execMcount, spill, Core.seen_spill _ spill, if_true]

theorem exec_mrecv_spill {f : Entry} {later : List Entry} (inbox : s.myCore.inbox = f :: later) (room : s.myCore.spillcnt[f.dst.val] < 65535) :
    exec (.mrecv k d) s = .next (let x := s.setMyCore (({ s.myCore with
        inbox := later, spillcnt := s.myCore.spillcnt.set f.dst.val (s.myCore.spillcnt[f.dst.val] + 1) }).wake Status.isMrecv)
      x.retire (x.me.setV d f.bytes) 4) := by
  have rest : dropFirst (s.myCore.sees s.cur) s.myCore.inbox = later := by
    rw [inbox, dropFirst, if_pos (Core.sees_spill _ spill f)]
  have seen := (s.myCore.seen_spill spill).trans inbox
  change execMrecv d s = _
  simp only [execMrecv, not_isDrain_of_isSpill spill, seen, spill, Nat.not_le.mpr room, decide_false, Bool.and_false, Bool.false_eq_true, if_false,
    if_true, State.syncInbox_compute (isSpill_iff.mp spill).1, rest]

section Replay

variable {a : Opnd} (h1 : headerType ((s.me.opV .i32 a).setWidth 64) ≠ 1) (h3 : headerType ((s.me.opV .i32 a).setWidth 64) ≠ 3)
  (counted : s.myCore.spillcnt[(headerDst ((s.me.opV .i32 a).setWidth 64)).val] ≠ 0)
include h1 h3 counted

theorem exec_mloop_full (full : 48 ≤ s.myCore.inbox.length) : exec (.mloop k d a) s = .next (s.retire (s.me.setX d 0) (len1 a)) := by
  change execMloop d a s = _
  simp only [execMloop, spill, h1, h3, counted, full, Bool.not_true, Bool.false_eq_true, or_self, if_false, if_true]

theorem exec_mloop_room (room : s.myCore.inbox.length < 48) : exec (.mloop k d a) s =
    .next (let x := s.replay s.cur.core (s.me.opV .i32 a); x.retire (x.me.setX d 1) (len1 a)) := by
  change execMloop d a s = _
  simp only [execMloop, spill, h1, h3, counted, Nat.not_le.mpr room, Bool.not_true, Bool.false_eq_true, or_self, if_false]

end Replay

end Spill

/-- R194: a replay for a thread that hosts a node takes its place in the inbox. -/
theorem State.replay_hosted {s : State} {v : BitVec 512} (hosts : (s.thread ⟨s.cur.core, (Entry.mk v true).dst.val⟩).status ≠ .idle) :
    s.replay s.cur.core v = s.setMyCore (({ s.myCore with
      spillcnt := s.myCore.spillcnt.set (Entry.mk v true).dst.val (s.myCore.spillcnt[(Entry.mk v true).dst.val] - 1)
      inbox := placeLoop ⟨v, true⟩ s.myCore.inbox }).wake Status.isMrecv) := by
  simp only [State.replay, hosts, if_false]
  rfl

/-- Settles O18: the spill thread sees the whole inbox; a replay stands where placeLoop puts it. -/
theorem spillThread : Obligations.SpillThread := by
  unfold Obligations.SpillThread
  intro s k d a spill c v e
  refine ⟨⟨_, exec_mcount_spill spill, WritesX.retire0 ..⟩, fun f later inbox room => ⟨_, exec_mrecv_spill spill inbox room, WritesV.retire0 ..⟩,
    fun h1 h3 counted => ⟨fun full => ⟨_, exec_mloop_full spill h1 h3 counted full, WritesX.retire0 ..⟩, fun room hosts => ?_⟩⟩
  obtain ⟨before, after, whole, placed, passed, next⟩ := placeLoop_split e c.inbox
  refine ⟨_, before, after, exec_mloop_room spill h1 h3 counted room, whole, passed, next, ?_⟩
  rw [State.replay_hosted hosts, show placeLoop ⟨s.me.opV .i32 a, true⟩ s.myCore.inbox = _ from placed]
  exact WritesX.retire0 ..

/-! ## MSEND (R190, R192) -/

/-- Table 12.9: the fields of a user message. -/
theorem userEntry_fields (src : Hart) {th dst : Nat} (hth : th < 4) (hdst : dst < 4) (v : BitVec 512) :
    (∀ j, j < 32 ∨ 64 ≤ j → (userEntry src th dst v).getLsbD j = v.getLsbD j) ∧ bits (userEntry src th dst v) 32 2 = dst ∧
    bits (userEntry src th dst v) 34 2 = th ∧ bits (userEntry src th dst v) 36 12 = src.core % 4096 ∧ bits (userEntry src th dst v) 48 16 = 0 := by
  have header := bits_setBits_same v 32 32 (dst % 4 + 4 * (th % 4) + 16 * (src.core % 4096)) (by decide) (by omega)
  rw [bits_eq_div_mod] at header
  simp only [userEntry, bits_eq_div_mod]
  refine ⟨fun j hj => ?_, by omega, by omega, by omega, by omega⟩
  by_cases inside : j < 512
  · rw [getLsbD_setBits _ _ _ _ _ inside, if_neg (by omega)]
  · rw [BitVec.getLsbD_of_ge _ _ (by omega), BitVec.getLsbD_of_ge _ _ (by omega)]

/-- R190: the entry that MSEND makes of its sources. -/
def State.outgoing (s : State) (a b : Opnd) : BitVec 512 :=
  userEntry s.cur (bits (BitVec.ofNat 64 (s.myCore.receiver s.cur.th).val) 0 2) (bits (s.me.opX a) 12 2) (s.me.opV .i32 b)

/-- R190: the machine once its thread has sent an entry to a core. -/
def State.sends (s : State) (core : Nat) (e : BitVec 512) : State :=
  { s with nextId := s.nextId + 1, net := s.net ++ [.user s.nextId s.cur core e] }

/-- R190: a destination in the partition. -/
def State.reaches (s : State) (x : Word) : Prop := bits x 14 50 = 0 ∧ s.clusterOk s.cur.core (bits x 0 12 / 16) = true

section Send

variable {s : State} {k : Bool} {a b : Opnd}

theorem exec_msend_illegal (h : ¬ s.reaches (s.me.opX a)) : exec (.msend k a b) s = s.trapMe 34 (s.me.opX a) := by
  have refused : (!zeroBits (s.me.opX a) 14 50 || !s.clusterOk s.cur.core (bits (s.me.opX a) 0 12 / 16)) = true := by
    rw [State.reaches, not_and_or] at h
    simpa [zeroBits] using h
  change execMsend a b s = _
  simp only [execMsend, refused, if_true]

/-- R190: what MSEND does with a legal destination, in order: the strict domain, the wait and the message. -/
theorem exec_msend_legal (legal : s.reaches (s.me.opX a)) (user : isSpill s.cur = false) : exec (.msend k a b) s =
    if bits (s.me.opX a) 0 12 ≠ s.cur.core ∧ s.strictReact s.cur = true then s.trapMe 32 (s.me.opX a)
    else if s.outstandingIn s.cur .dev = true then s.block .fence
    else
      let x := s.sends (bits (s.me.opX a) 0 12) (s.outgoing a b)
      .next (x.retire x.me (len2 a b)) := by
  obtain ⟨field, cluster⟩ := legal
  change execMsend a b s = _
  simp only [execMsend, zeroBits, field, cluster, user, decide_true, Bool.not_true, Bool.or_self, Bool.false_eq_true, if_false]
  rfl

end Send

/-- Settles O17: MSEND's checks in their order, and the fields of the message. -/
theorem messageSends : Obligations.MessageSends := by
  unfold Obligations.MessageSends
  intro s k a b user x core legal strict
  have run (ok : legal) := exec_msend_legal (k := k) (b := b) ok user
  refine ⟨fun ok lax quiet => ⟨_, s.outgoing a b, ?sends, Passes.retire (s.sends core (s.outgoing a b)) _, ?fields⟩, fun ok lax away => ?waits,
    exec_msend_illegal, fun ok st => ?traps⟩
  case sends => rw [run ok, if_neg lax, quiet, if_neg Bool.false_ne_true]
  case fields =>
    have th : bits (BitVec.ofNat 64 (s.myCore.receiver s.cur.th).val) 0 2 = (s.myCore.receiver s.cur.th).val := by
      have small := (s.myCore.receiver s.cur.th).isLt
      rw [bits_eq_div_mod, BitVec.toNat_ofNat]
      omega
    rw [State.outgoing, th]
    exact userEntry_fields s.cur (Fin.isLt _) (bits_lt x 12 2) _
  case waits =>
    rw [run ok, if_neg lax, if_pos away]
    exact Waits.block ..
  case traps => rw [run ok, if_pos st]

end Sys2Proof.Machine
end

section
/-! SUPPORT. What a write to the own core's SRAM leaves of it as its owner reads it (R70, R75, R177, R185), and of the rest of the machine:
O11, O12, O13, O15. -/

namespace Sys2Proof.Machine

/-! ## A line that is claimed (R70) -/

theorem readLe_one (t : List Host.Cell) (a : Nat) : readLe t a 1 = (Tab.get (0 : Byte) t a).toNat := by simp [readLe]

theorem Sram.get_tagWords_outside (m : Sram) (w n : Nat) (t : BitVec 3) {j : Nat} (hj : j < w ∨ w + n ≤ j) :
    Tab.get 0 (m.tagWords w n t).tags j = Tab.get 0 m.tags j := by
  induction n with
  | zero => rfl
  | succ n ih =>
    rw [Sram.tagWords, List.range_succ, List.foldl_append, List.foldl_cons, List.foldl_nil, Sram.get_setTag, if_neg (by omega)]
    exact ih (by omega)

theorem Sram.ownerOf_congr (m : Sram) {a b : Nat} (h : a / 64 = b / 64) : m.ownerOf a = m.ownerOf b := by
  rw [Sram.ownerOf, Sram.ownerOf, h]

section Claim

variable {m : Sram} {off : Nat} {o : BitVec 12}

theorem Sram.claim_of_owned (h : m.ownerOf off = o) : m.claim off o = m := if_pos h

theorem Sram.claim_of_other (h : m.ownerOf off ≠ o) : m.claim off o =
    ({ m with cells := writeLe m.cells (64 * (off / 64)) 64 0, owners := Tab.put 0 (off / 64) o m.owners } : Sram).tagWords (8 * (off / 64)) 8 0 :=
  (if_neg h).trans (Sram.resetLine_eq ..)

theorem Sram.ownerOf_claim_outside {a : Nat} (ha : a / 64 ≠ off / 64) : (m.claim off o).ownerOf a = m.ownerOf a := by
  by_cases h : m.ownerOf off = o
  · rw [Sram.claim_of_owned h]
  · rw [Sram.ownerOf, Sram.claim_of_other h, Sram.tagWords_owners]
    exact Tab.get_put_other _ _ _ _ _ ha

theorem Sram.get_claim_inside (h : m.ownerOf off ≠ o) {a : Nat} (ha : a / 64 = off / 64) : Tab.get (0 : Byte) (m.claim off o).cells a = 0 := by
  rw [Sram.claim_of_other h, Sram.tagWords_cells, show a = 64 * (off / 64) + a % 64 by omega]
  dsimp only
  rw [writeLe_inside _ _ _ _ _ (Nat.mod_lt a (by decide)), Nat.zero_div]
  rfl

theorem Sram.tag_claim_inside (h : m.ownerOf off ≠ o) {w : Nat} (hw : w / 8 = off / 64) : Tab.get 0 (m.claim off o).tags w = 0 := by
  rw [Sram.claim_of_other h, show w = 8 * (off / 64) + w % 8 by omega]
  exact Sram.get_tagWords _ _ _ _ (Nat.mod_lt w (by decide))

theorem Sram.tag_claim_outside {w : Nat} (hw : w / 8 ≠ off / 64) : Tab.get 0 (m.claim off o).tags w = Tab.get 0 m.tags w := by
  by_cases h : m.ownerOf off = o
  · rw [Sram.claim_of_owned h]
  · rw [Sram.claim_of_other h, Sram.get_tagWords_outside _ _ _ _ (by omega)]

/-- R70: bytes of a line of another owner read as 0, before the line is claimed and after it. -/
theorem Sram.readFor_claim (a : Nat) : (m.claim off o).readFor o a 1 = m.readFor o a 1 := by
  by_cases h : m.ownerOf off = o
  · rw [Sram.claim_of_owned h]
  · simp only [Sram.readFor, readLe_one]
    by_cases ha : a / 64 = off / 64
    · rw [Sram.get_claim_inside h ha, m.ownerOf_congr ha, if_neg h]
      exact ite_self _
    · rw [Sram.ownerOf_claim_outside ha, Sram.get_claim_outside _ _ _ ha]

/-- R70: tags of a line of another owner are 0, before the line is claimed and after it. -/
theorem Sram.tagFor_claim (w : Nat) : (m.claim off o).tagFor o w = m.tagFor o w := by
  by_cases h : m.ownerOf off = o
  · rw [Sram.claim_of_owned h]
  · rw [Sram.tagFor, Sram.tagFor]
    by_cases hw : w / 8 = off / 64
    · rw [Sram.tag_claim_inside h hw, m.ownerOf_congr (show 8 * w / 64 = off / 64 by omega), if_neg h]
      exact ite_self _
    · rw [Sram.ownerOf_claim_outside (by omega), Sram.tag_claim_outside hw]

end Claim

/-! ## Bytes stored, and a tag set -/

/-- R177: what a store of n bytes at offset o leaves of a memory, as its owner reads it. -/
structure Sram.StoredFor (m m' : Sram) (own : BitVec 12) (o n value : Nat) : Prop where
  stored : ∀ i, i < n → Tab.get (0 : Byte) m'.cells (o + i) = BitVec.ofNat 8 (value / 256 ^ i)
  owned : m'.ownerOf o = own
  line : ∀ a, a / 64 = o / 64 → (a < o ∨ o + n ≤ a) → m'.readFor own a 1 = m.readFor own a 1
  elsewhere : ∀ a, a / 64 ≠ o / 64 → Tab.get (0 : Byte) m'.cells a = Tab.get 0 m.cells a
  tags : ∀ w, m'.tagFor own w = m.tagFor own w

/-- R70, R177: a memory whose line at an offset is claimed and that then holds n bytes there. -/
def Sram.storeAt (m : Sram) (own : BitVec 12) (o n value : Nat) : Sram :=
  { m.claim o own with cells := writeLe (m.claim o own).cells o n value }

/-- Byte i of a value of n bytes is that of the value that it was cut from. -/
theorem byte_of_low (v : Nat) {n i : Nat} (hi : i < n) : BitVec.ofNat 8 (v % 256 ^ n / 256 ^ i) = BitVec.ofNat 8 (v / 256 ^ i) := by
  have split : 256 ^ n = 256 ^ i * 256 ^ (n - i) := by rw [← Nat.pow_add, Nat.add_sub_cancel' hi.le]
  have whole : 2 ^ 8 ∣ 256 ^ (n - i) := dvd_pow_self 256 (by omega)
  refine BitVec.eq_of_toNat_eq ?_
  rw [BitVec.toNat_ofNat, BitVec.toNat_ofNat, split, Nat.mod_mul_right_div_self, Nat.mod_mod_of_dvd _ whole]

theorem Sram.storedFor_storeAt (m : Sram) (own : BitVec 12) {o n : Nat} (inLine : o % 64 + n ≤ 64) (value : Nat) :
    m.StoredFor (m.storeAt own o n (value % 256 ^ n)) own o n value where
  stored i hi := by rw [Sram.storeAt, writeLe_inside _ _ _ _ _ hi, byte_of_low _ hi]
  owned := Sram.ownerOf_claim m o own
  line a _ outside := by
    rw [← Sram.readFor_claim (m := m) (off := o)]
    simp only [Sram.readFor, readLe_one, Sram.storeAt, writeLe_outside _ _ _ _ _ outside]
    rfl
  elsewhere a ha := by rw [Sram.storeAt, writeLe_outside _ _ _ _ _ (by omega), Sram.get_claim_outside _ _ _ ha]
  tags w := Sram.tagFor_claim (m := m) (off := o) w

/-- R185: what a write of the tag of word w leaves of a memory, as its owner sees it. -/
structure Sram.TaggedFor (m m' : Sram) (own : BitVec 12) (w : Nat) (tag : BitVec 3) : Prop where
  tagged : m'.tagFor own w = tag
  tags : ∀ j, j ≠ w → m'.tagFor own j = m.tagFor own j
  bytes : ∀ a, m'.readFor own a 1 = m.readFor own a 1
  elsewhere : ∀ a, a / 64 ≠ w / 8 → Tab.get (0 : Byte) m'.cells a = Tab.get 0 m.cells a

/-- R70: a claim of the line alone. -/
theorem Sram.taggedFor_claim (m : Sram) (own : BitVec 12) (w : Nat) : m.TaggedFor (m.claim (8 * w) own) own w (m.tagFor own w) where
  tagged := Sram.tagFor_claim w
  tags j _ := Sram.tagFor_claim j
  bytes := Sram.readFor_claim
  elsewhere a ha := Sram.get_claim_outside _ _ _ (by omega)

theorem Sram.tagFor_setTag (m : Sram) (own : BitVec 12) (w : Nat) (tag : BitVec 3) (j : Nat) :
    (m.setTag w tag).tagFor own j = if m.ownerOf (8 * j) = own then (if j = w then tag else Tab.get 0 m.tags j) else 0 := by
  rw [Sram.tagFor, Sram.get_setTag, Sram.ownerOf, Sram.setTag_owners, ← Sram.ownerOf]

theorem Sram.taggedFor_setTag (m : Sram) (own : BitVec 12) (w : Nat) (tag : BitVec 3) :
    m.TaggedFor ((m.claim (8 * w) own).setTag w tag) own w tag where
  tagged := by rw [Sram.tagFor_setTag, if_pos (Sram.ownerOf_claim m _ own), if_pos rfl]
  tags j hj := by rw [Sram.tagFor_setTag, if_neg hj, ← Sram.tagFor_claim (m := m) (off := 8 * w), Sram.tagFor]
  bytes a := by
    rw [← Sram.readFor_claim (m := m) (off := 8 * w)]
    simp only [Sram.readFor, Sram.ownerOf, Sram.setTag_owners, Sram.setTag_cells]
    rfl
  elsewhere a ha := by rw [Sram.setTag_cells, Sram.get_claim_outside _ _ _ (by omega)]

/-! ## The machine after an instruction that has written its own core's SRAM -/

/-- The register that an instruction writes, where it writes one. -/
def Thread.writing (t : Thread) (reg : Option (Fin 32 × Word)) : Thread :=
  match reg with
  | some (d, v) => t.setX d v
  | none => t

/-- What an instruction of len bytes does to its thread that writes the register in reg alone. -/
structure Thread.Completes (u v : Thread) (reg : Option (Fin 32 × Word)) (len : Nat) : Prop where
  passed : u.Passed v len
  written : match reg with
    | some (d, x) => u.XWritten v d x
    | none => v.x = u.x ∧ v.h = u.h
  kept : v = { u with x := v.x, h := v.h, pc := v.pc, rep := v.rep, retired := v.retired }

theorem Thread.completes_advance (u : Thread) (reg : Option (Fin 32 × Word)) (len : Nat) :
    u.Completes ((u.writing reg).advance len) reg len := by
  cases reg with
  | none =>
    change u.Completes (u.advance len) none len
    refine ⟨Thread.Passed.advance u u len rfl rfl rfl rfl rfl, ⟨Thread.advance_x u len, Thread.advance_h u len⟩, ?_⟩
    conv_lhs => rw [Thread.advance_kept]
    simp
  | some w =>
    obtain ⟨d, v⟩ := w
    change u.Completes ((u.setX d v).advance len) (some (d, v)) len
    refine ⟨Thread.Passed.advance u (u.setX d v) len (by simp) (by simp) (by simp) (by simp) (by simp),
      (Thread.XWritten.setX u d v).congr (by simp) (by simp) (by simp), ?_⟩
    conv_lhs => rw [Thread.advance_kept]
    simp

/-- The machine once an access of the current thread has been numbered and has left its own core's SRAM as m', and the store log as l and k. -/
def State.withOwn (s : State) (m' : Sram) (l : List StoreRec) (k : Nat) : State :=
  { s.numbered.setMyCore { s.myCore with sram := m' } with log := l, logSeq := k }

/-- What the instruction of such an access does, apart from the memory: its thread completes, and nothing else changes. -/
structure State.CompletesOwn (s t : State) (m' : Sram) (reg : Option (Fin 32 × Word)) (len : Nat) : Prop where
  sram : t.myCore.sram = m'
  others : ∀ p, p ≠ .core s.cur.core → t.sram p = s.sram p
  me : s.me.Completes t.me reg len
  threads : ∀ h, h ≠ s.cur → t.thread h = s.thread h
  cores : ∀ c, c ≠ s.cur.core → t.core c = s.core c
  core : t.myCore = { s.myCore with sram := t.myCore.sram, threads := t.myCore.threads }

section WithOwn

variable (s : State) (m' : Sram) (l : List StoreRec) (k : Nat)

theorem State.withOwn_cores : (s.withOwn m' l k).cores = (s.setSram (.core s.cur.core) m').cores := rfl

theorem State.sram_withOwn (p : Place) : (s.withOwn m' l k).sram p = (s.setSram (.core s.cur.core) m').sram p := by cases p <;> rfl

theorem State.thread_withOwn (h : Hart) : (s.withOwn m' l k).thread h = s.thread h := s.thread_setSram (.core s.cur.core) m' h

theorem State.me_withOwn : (s.withOwn m' l k).me = s.me := s.thread_withOwn m' l k s.cur

theorem State.core_withOwn_other {c : Nat} (hc : c ≠ s.cur.core) : (s.withOwn m' l k).core c = s.core c :=
  State.core_setCore_other s s.cur.core _ c hc

theorem State.myCore_retire_withOwn (u : Thread) (len : Nat) : ((s.withOwn m' l k).retire u len).myCore =
    { s.myCore with sram := m', threads := Tab.set s.cur.th (u.advance len) s.myCore.threads } := by
  have core : (s.withOwn m' l k).core s.cur.core = { s.myCore with sram := m' } := State.core_setCore_same s s.cur.core _
  refine (State.core_setCore_same (s.withOwn m' l k) s.cur.core _).trans ?_
  rw [show (s.withOwn m' l k).core (s.withOwn m' l k).cur.core = _ from core]
  rfl

theorem State.completesOwn_retire (reg : Option (Fin 32 × Word)) (len : Nat) :
    s.CompletesOwn ((s.withOwn m' l k).retire (s.me.writing reg) len) m' reg len where
  sram := by rw [State.myCore_retire_withOwn]
  others p hp := by rw [State.retire, State.sram_setMe, State.sram_withOwn, State.sram_setSram_other _ _ _ _ hp]
  me := by
    rw [State.retire, State.me_setMe]
    exact s.me.completes_advance reg len
  threads h hh := (State.thread_setThread_other _ _ _ _ hh).trans (s.thread_withOwn m' l k h)
  cores c hc := (State.core_setThread_other _ _ _ _ hc).trans (s.core_withOwn_other m' l k hc)
  core := by rw [State.myCore_retire_withOwn]

variable {s m' l k}

/-- R177: a store at the own SRAM. -/
theorem StoresHere.retire {o n value : Nat} (stored : s.myCore.sram.StoredFor m' (s.ownerOfHart s.cur) o n value) (reg : Option (Fin 32 × Word))
    (len : Nat) : StoresHere s ((s.withOwn m' l k).retire (s.me.writing reg) len) o n value reg len := by
  obtain ⟨sram, others, me, threads, cores, core⟩ := s.completesOwn_retire m' l k reg len
  have own : ((s.withOwn m' l k).retire (s.me.writing reg) len).sram (.core s.cur.core) = m' := sram
  refine ⟨fun i hi => ?_, ?_, fun a ha outside => ?_, fun p a far => ?_, fun w => ?_, me.passed, me.written, me.kept, threads, cores, core, rfl⟩
  · rw [State.byteAt, own, stored.stored i hi]
  · rw [sram, stored.owned]
  · rw [sram, stored.line a ha outside]
  · by_cases hp : p = .core s.cur.core
    · subst hp
      rw [State.byteAt, own, stored.elsewhere a (far.resolve_left (not_not_intro rfl))]
      rfl
    · rw [State.byteAt, State.byteAt, others p hp]
  · rw [sram, stored.tags w]

/-- R185: a tag written at the own SRAM. -/
theorem TagsHere.retire {w : Nat} {tag : BitVec 3} (tagged : s.myCore.sram.TaggedFor m' (s.ownerOfHart s.cur) w tag) (reg : Option (Fin 32 × Word))
    (len : Nat) : TagsHere s ((s.withOwn m' s.log s.logSeq).retire (s.me.writing reg) len) w tag reg len := by
  obtain ⟨sram, others, me, threads, cores, core⟩ := s.completesOwn_retire m' s.log s.logSeq reg len
  have own : ((s.withOwn m' s.log s.logSeq).retire (s.me.writing reg) len).sram (.core s.cur.core) = m' := sram
  refine ⟨?_, fun j hj => ?_, fun a => ?_, fun p a far => ?_, me.passed, me.written, me.kept, threads, cores, core, rfl⟩
  · rw [sram, tagged.tagged]
  · rw [sram, tagged.tags j hj]
  · rw [sram, tagged.bytes a]
  · by_cases hp : p = .core s.cur.core
    · subst hp
      rw [State.byteAt, own, tagged.elsewhere a (far.resolve_left (not_not_intro rfl))]
      rfl
    · rw [State.byteAt, State.byteAt, others p hp]

end WithOwn

end Sys2Proof.Machine
end

section
/-! SUPPORT. Accesses of the own core's SRAM that write, and the direct ones (R70 to R75, R177, R182, R185 to R187): the bank operation, and the
instruction that it completes: O11, O12, O13, O15. -/

namespace Sys2Proof.Machine

/-! ## Completion -/

/-- The finishes of scalar accesses: a store drops its answer, and the others write it to a register. -/
def Finish.Scalar (f : Finish) : Prop := f = .drop ∨ ∃ d kind, f = .writeX d kind

/-- The register that a scalar access writes with its answer. -/
def Finish.register (f : Finish) (v : BitVec 512) : Option (Fin 32 × Word) :=
  match f with
  | .writeX d kind => some (d, extend kind (v.setWidth 64))
  | _ => none

/-- A thread at the start of an instruction has nothing to settle when the instruction completes. -/
theorem Thread.settled_advance {t u : Thread} (start : t.AtStart) (status : u.status = t.status) (pend : u.pend = t.pend)
    (gathered : u.gathered = t.gathered) (len : Nat) : { u.advance len with status := t.settled, pend := none, gathered := [] } = u.advance len := by
  obtain ⟨run, noPend, noGathered, noLate⟩ := start
  have hs : t.settled = (u.advance len).status := by simp [Thread.settled, run, noLate, status]
  have hp : none = (u.advance len).pend := by simp [noPend, pend]
  have hg : [] = (u.advance len).gathered := by simp [noGathered, gathered]
  rw [hs, hp, hg]

theorem Thread.writing_same (t : Thread) (reg : Option (Fin 32 × Word)) :
    (t.writing reg).status = t.status ∧ (t.writing reg).pend = t.pend ∧ (t.writing reg).gathered = t.gathered := by
  cases reg with
  | none => exact ⟨rfl, rfl, rfl⟩
  | some w => exact ⟨Thread.setX_status .., Thread.setX_pend .., Thread.setX_gathered ..⟩

/-- R176 to R185: what a scalar access does that has its answer in the step in which it began. -/
theorem State.finishAccess_atStart {s : State} (start : s.me.AtStart) {f : Finish} (scalar : f.Scalar) (v : BitVec 512) (len : Nat) :
    s.finishAccess s.cur f v len = s.retire (s.me.writing (f.register v)) len := by
  have finishes : s.finishAccess s.cur f v len = s.finishThread s.cur f v len := by rcases scalar with rfl | ⟨d, kind, rfl⟩ <;> rfl
  have core : (s.core s.cur.core).finish f = s.core s.cur.core := by rcases scalar with rfl | ⟨d, kind, rfl⟩ <;> rfl
  have value : s.me.finish f v = s.me.writing (f.register v) := by rcases scalar with rfl | ⟨d, kind, rfl⟩ <;> rfl
  have same : (s.setCore s.cur.core (s.core s.cur.core)).thread s.cur = s.me :=
    State.thread_congr (State.core_setCore_kept Core.threads s s.cur.core _ rfl _)
  have again (u : Thread) : (s.setCore s.cur.core (s.core s.cur.core)).setThread s.cur u = s.setMe u := by
    simp [State.setMe, State.setThread]
  obtain ⟨status, pend, gathered⟩ := s.me.writing_same (f.register v)
  rw [finishes, State.finishThread, core]
  dsimp only
  rw [same, value, Thread.settled_advance start status pend gathered, again, State.retire]

/-- An access of the own core's SRAM whose bank operation is performed completes its instruction. -/
theorem State.sramAccess_completes {s : State} {a : Access} {f : Finish} {v : BitVec 512} {q : Bool} {m' : Sram} {l : List StoreRec} {k : Nat}
    (start : s.me.AtStart) (scalar : f.Scalar) (hart : a.hart = s.cur)
    (bank : s.numbered.bankOp (.core s.cur.core) a false = (.done v q, s.withOwn m' l k)) (len : Nat) :
    s.sramAccess (.core s.cur.core) a f len = .next ((s.withOwn m' l k).retire (s.me.writing (f.register v)) len) := by
  have me := s.me_withOwn m' l k
  have finish := State.finishAccess_atStart (s := s.withOwn m' l k) (me ▸ start) scalar v len
  rw [me] at finish
  rw [State.sramAccess_answered (by rw [hart]) (State.serve_done bank), hart]
  exact congrArg _ finish

/-! ## The bank operation of a write (R75, R177, R182) -/

theorem wordsOf_single {n o : Nat} (some : 1 ≤ n) (inWord : o % 8 + n ≤ 8) : wordsOf n [(o, 0)] = [o / 8] := by
  have one : (o + n - 1) / 8 - o / 8 + 1 = 1 := by omega
  simp [wordsOf, one, insertAsc]

/-- R386: a word without an error stops no access. -/
theorem State.badLines_readable {s : State} {p : Place} {w : Nat} (noErr : w ∉ (s.sram p).errs) (noOwnerErr : w / 8 ∉ (s.sram p).ownerErrs)
    (noSoft : Tab.find? (s.sram p).soft w = none) : s.badLines p [w] = [] ∧ s.correct p [w] = s :=
  ⟨by simp [State.badLines, noErr, noOwnerErr, noSoft], by simp [State.correct, noSoft]⟩

/-- R177, R182: an access that writes bytes of one word. -/
structure LoneWrite (a : Access) (o : Nat) : Prop where
  writes : a.writes = true
  elems : a.elems = [(o, 0)]
  some : 1 ≤ a.esize
  inWord : o % 8 + a.esize ≤ 8

theorem Access.writes_iff (a : Access) : a.writes = true ↔ a.op = .store ∨ ∃ op, a.op = .amo op := by
  unfold Access.writes
  split <;> simp_all

theorem LoneWrite.words {a : Access} {o : Nat} (w : LoneWrite a o) : wordsOf a.esize a.elems = [o / 8] := by
  rw [w.elems, wordsOf_single w.some w.inWord]

theorem Access.not_direct_of_writes {a : Access} (h : a.writes = true) : a.op.direct = false ∧ a.op ≠ .look := by
  rcases a.writes_iff.mp h with e | ⟨op, e⟩ <;> rw [e] <;> exact ⟨rfl, fun h => nomatch h⟩

/-- R75: what the entry of a word makes of a write that it passes without an update. -/
theorem Sram.checked_writes {m : Sram} {p : Place} {a : Access} {o : Nat} (w : LoneWrite a o) (clear : m.OpenAt (o / 8))
    (passes : bits (m.entryFor p a (o / 8)) 0 4 = 0) :
    m.checked p a false = (.done (m.perform a).1 (bit (m.entryFor p a (o / 8)) 7), (m.perform a).2) := by
  obtain ⟨act, keeps⟩ := action_of_low passes
  have done := (Access.not_direct_of_writes w.writes).2
  unfold Sram.entryFor at act keeps ⊢
  simpa [Sram.checked, w.words, actionOf, act, done, Sram.update_of_not keeps] using clear.free

/-- R75, R139: the bank operation of such a write; the stores before it are logged for fetch. -/
theorem State.bankOp_writes {s : State} {p : Place} {a : Access} {o : Nat} (w : LoneWrite a o) (clear : (s.sram p).OpenAt (o / 8))
    (passes : bits ((s.sram p).entryFor p a (o / 8)) 0 4 = 0) :
    ∃ q l k, s.bankOp p a false = (.done ((s.sram p).perform a).1 q, { s.setSram p ((s.sram p).perform a).2 with log := l, logSeq := k }) := by
  obtain ⟨bad, sound⟩ := State.badLines_readable clear.noErr clear.noOwnerErr clear.noSoft
  have direct := (Access.not_direct_of_writes w.writes).1
  refine ⟨bit ((s.sram p).entryFor p a (o / 8)) 7, (s.bankOp p a false).2.log, (s.bankOp p a false).2.logSeq, ?_⟩
  simp only [State.bankOp, w.words, bad, State.mend, sound, direct, Sram.checked_writes w clear passes, w.writes, Bool.false_eq_true, if_false, if_true]
  cases (s.sram p).releases p a <;> cases p <;> rfl

/-! ## Scalar accesses of the own SRAM -/

/-- The access that a scalar instruction of the current thread makes at offset o of its own core's SRAM. -/
def State.ownAccess (s : State) (q : Scalar) (o : Nat) : Access :=
  mkAccess s s.cur q.addr q.cls q.op (.sram (.core s.cur.core)) q.size [(o, 0)] (q.data.setWidth 512) q.cmp false

/-- Steps 3 to 6 of Table 12.1 for an access of the own SRAM; a tag instruction is checked by its word (R185). -/
theorem State.scalarAt_own {s : State} {q : Scalar} {o : Nat}
    (permitted : s.pmpOk s.cur (if q.op.direct then q.addr.toNat / 8 * 8 else q.addr.toNat) q.size q.cls.need = true) :
    s.scalarAt q (.sram (.core s.cur.core) o) = s.sramAccess (.core s.cur.core) (s.ownAccess q o) q.fin q.len := by
  simp [State.scalarAt, permitted, State.ownAccess]

theorem State.scalar_named {s : State} {q : Scalar} {o : Nat} (here : NamesHere s q.cls.need q.addr q.size o) (stays : Bool) :
    s.scalar q stays = (if stays then { s with ahead := false } else s).scalarAt q (.sram (.core s.cur.core) o) := by
  obtain ⟨range, aligned, -⟩ := here
  simp only [State.scalar, range, aligned, ne_eq, not_true_eq_false, if_false]

/-- R175: an aligned store lies in one word. -/
theorem NamesHere.store_inWord {s : State} {need : Need} {addr : Word} {kind : StKind} {o : Nat} (h : NamesHere s need addr (stBytes kind) o) :
    o % 8 + stBytes kind ≤ 8 := by
  cases kind with
  | b => exact h.inWord (kind := .b)
  | h => exact h.inWord (kind := .h)
  | w => exact h.inWord (kind := .w)
  | d => exact h.inWord (kind := .d)

theorem one_le_stBytes (kind : StKind) : 1 ≤ stBytes kind := by cases kind <;> decide

/-- Lane 0 of an access: the low bytes of its data. -/
theorem Access.laneOf_zero (a : Access) : a.laneOf 0 = a.data.toNat % 256 ^ a.esize := by
  rw [Access.laneOf, BitVec.extractLsb'_toNat, Nat.mul_zero, Nat.shiftRight_zero, Nat.pow_mul]

theorem Sram.perform_store (m : Sram) {a : Access} {o : Nat} (op : a.op = .store) (elems : a.elems = [(o, 0)]) :
    m.perform a = (0, m.storeAt a.owner o a.esize (a.data.toNat % 256 ^ a.esize)) := by
  simp only [Sram.perform, op, Sram.storeLanes, elems, List.foldl_cons, List.foldl_nil, Access.laneOf_zero, Sram.storeAt]

theorem Sram.perform_amo (m : Sram) {a : Access} {o : Nat} {op : Amo} (hop : a.op = .amo op) (elems : a.elems = [(o, 0)]) :
    let old : Word := BitVec.ofNat 64 (m.readFor a.owner o 8)
    m.perform a = (old.setWidth 512, m.storeAt a.owner o 8 ((amoNew op old (a.data.setWidth 64) a.cmp).toNat % 256 ^ 8)) := by
  have whole (x : Word) : x.toNat % 256 ^ 8 = x.toNat := Nat.mod_eq_of_lt x.isLt
  simp only [Sram.perform, hop, elems, List.headD_cons, whole, Sram.storeAt]

section OwnWrite

variable {s : State} {o : Nat} (start : s.me.AtStart)
include start

/-- R75: a scalar write at the own SRAM that the entry of its word passes. -/
theorem State.scalarAt_writes {q : Scalar} {v : BitVec 512} {m' : Sram} (w : LoneWrite (s.ownAccess q o) o) (clear : OpenWord s (o / 8))
    (passes : bits (s.myCore.sram.entryFor (.core s.cur.core) (s.ownAccess q o) (o / 8)) 0 4 = 0)
    (permitted : s.pmpOk s.cur q.addr.toNat q.size q.cls.need = true) (scalar : q.fin.Scalar)
    (performs : s.myCore.sram.perform (s.ownAccess q o) = (v, m')) :
    ∃ l k, s.scalarAt q (.sram (.core s.cur.core) o) = .next ((s.withOwn m' l k).retire (s.me.writing (q.fin.register v)) q.len) := by
  have direct : q.op.direct = false := (Access.not_direct_of_writes w.writes).1
  obtain ⟨_, l, k, bank⟩ := State.bankOp_writes (s := s.numbered) (p := .core s.cur.core) w clear.openAt passes
  rw [show (s.numbered.sram (.core s.cur.core)).perform (s.ownAccess q o) = _ from performs] at bank
  refine ⟨l, k, ?_⟩
  rw [State.scalarAt_own (by rw [direct, if_neg Bool.false_ne_true]; exact permitted)]
  exact State.sramAccess_completes start scalar rfl bank q.len

/-- R177: a store that the entry of its word passes. -/
theorem State.scalarAt_store {kind : StKind} {addr : Word} (plain : PlainWord s 1 (o / 8)) (here : NamesHere s .write addr (stBytes kind) o)
    (v : Word) (len : Nat) : ∃ t, s.scalarAt ⟨addr, stBytes kind, .store, .store, v, 0, .drop, len⟩ (.sram (.core s.cur.core) o) = .next t ∧
      StoresHere s t o (stBytes kind) v.toNat none len := by
  let q : Scalar := ⟨addr, stBytes kind, .store, .store, v, 0, .drop, len⟩
  have inWord := here.store_inWord
  have entry : s.myCore.sram.entryFor (.core s.cur.core) (s.ownAccess q o) (o / 8) =
      s.myCore.sram.entry (o / 8) 1 (s.myCore.sram.tagFor (s.ownerOfHart s.cur) (o / 8)) :=
    congrArg (fun k => s.myCore.sram.entry (o / 8) k _) (by simp [kindAt, State.ownAccess, mkAccess, q])
  have performs : s.myCore.sram.perform (s.ownAccess q o) =
      (0, s.myCore.sram.storeAt (s.ownerOfHart s.cur) o (stBytes kind) (v.toNat % 256 ^ stBytes kind)) := by
    rw [← BitVec.toNat_setWidth_of_le (b := v) (show 64 ≤ 512 by decide)]
    exact s.myCore.sram.perform_store rfl rfl
  obtain ⟨l, k, run⟩ := State.scalarAt_writes start (q := q) ⟨rfl, rfl, one_le_stBytes kind, inWord⟩ plain.toOpenWord (by rw [entry]; exact plain.passes)
    here.2.2 (.inl rfl) performs
  exact ⟨_, run, StoresHere.retire (s.myCore.sram.storedFor_storeAt _ (by omega) _) none len⟩

/-- R182: an atomic that the entry of its word passes. -/
theorem State.scalarAt_amo {addr : Word} (plain : PlainWord s 2 (o / 8)) (here : NamesHere s .atomic addr 8 o) (op : Amo) (v cmp : Word)
    (d : Fin 32) (len : Nat) :
    let old : Word := BitVec.ofNat 64 (s.myCore.sram.readFor (s.ownerOfHart s.cur) o 8)
    ∃ t, s.scalarAt ⟨addr, 8, .atomic, .amo op, v, cmp, .writeX d .d, len⟩ (.sram (.core s.cur.core) o) = .next t ∧
      StoresHere s t o 8 (amoNew op old v cmp).toNat (some (d, old)) len := by
  intro old
  let q : Scalar := ⟨addr, 8, .atomic, .amo op, v, cmp, .writeX d .d, len⟩
  have inWord : o % 8 + 8 ≤ 8 := here.inWord (kind := .d)
  have entry : s.myCore.sram.entryFor (.core s.cur.core) (s.ownAccess q o) (o / 8) =
      s.myCore.sram.entry (o / 8) 2 (s.myCore.sram.tagFor (s.ownerOfHart s.cur) (o / 8)) :=
    congrArg (fun k => s.myCore.sram.entry (o / 8) k _) (by simp [kindAt, State.ownAccess, mkAccess, q])
  have data : (v.setWidth 512).setWidth 64 = v := by simp
  have performs : s.myCore.sram.perform (s.ownAccess q o) =
      (old.setWidth 512, s.myCore.sram.storeAt (s.ownerOfHart s.cur) o 8 ((amoNew op old v cmp).toNat % 256 ^ 8)) := by
    rw [← data]
    exact s.myCore.sram.perform_amo rfl rfl
  obtain ⟨l, k, run⟩ := State.scalarAt_writes start (q := q) ⟨rfl, rfl, Nat.le_add_left 1 7, inWord⟩ plain.toOpenWord
    (by rw [entry]; exact plain.passes) here.2.2 (.inr ⟨d, .d, rfl⟩) performs
  have answer : q.fin.register (old.setWidth 512) = some (d, old) := by simp [Finish.register, extend, q]
  rw [answer] at run
  exact ⟨_, run, StoresHere.retire (s.myCore.sram.storedFor_storeAt _ (by omega) _) _ len⟩

end OwnWrite

/-- Settles O11: the address names one word, whose entry passes the store. -/
theorem localStores : Obligations.LocalStores := by
  unfold Obligations.LocalStores
  intro s k d base off o start plain stores
  have store (kind : StKind) (here : NamesHere s .write (s.me.opX base + BitVec.ofInt 64 (off.toInt * stBytes kind)) (stBytes kind) o) :
      ∃ t, s.store kind d base off = .next t ∧ StoresHere s t o (stBytes kind) (s.me.opX d).toNat none (len2 d base) := by
    rw [← effAddr_eq] at here
    let q : Scalar := ⟨effAddr (s.me.opX base) off (stBytes kind), stBytes kind, .store, .store, s.me.opX d, 0, .drop, len2 d base⟩
    rw [State.store, State.scalar_named (q := q) here false]
    exact State.scalarAt_store start plain here _ _
  exact ⟨store .b, store .h, store .w, store .d⟩

end Sys2Proof.Machine
end

section
/-! SUPPORT. Ordered accesses and fences (R179 to R181, R228): O12. -/

namespace Sys2Proof.Machine

/-! ## A core that is set to itself -/

theorem State.thread_setMyCore_same (s : State) (h : Hart) : (s.setMyCore s.myCore).thread h = s.thread h :=
  State.thread_congr (State.core_setCore_kept Core.threads s s.cur.core _ rfl _)

theorem State.setMe_setMyCore_same (s : State) (u : Thread) : (s.setMyCore s.myCore).setMe u = s.setMe u := by
  simp [State.setMe, State.setThread, State.setMyCore, State.myCore]

theorem WritesX.of_setMyCore_same {s t : State} {d : Fin 32} {v : Word} {fl : BitVec 5} {len : Nat} (h : WritesX (s.setMyCore s.myCore) t d v fl len) :
    WritesX s t d v fl len := by
  obtain ⟨only, memory, passed, written, flags, kept⟩ := h
  have me : (s.setMyCore s.myCore).me = s.me := s.thread_setMyCore_same s.cur
  have same : SameMemory s (s.setMyCore s.myCore) :=
    SameMemory.of_cores (State.core_setCore_kept Core.sram s s.cur.core _ rfl) rfl rfl
  rw [State.setMe_setMyCore_same] at only
  rw [me] at passed written flags kept
  exact ⟨only, same.trans memory, passed, written, flags, kept⟩

/-! ## Loads with acquire -/

/-- R75: an entry that passes an access changes no tag. -/
theorem Sram.Updated.same {m m' : Sram} {own : BitVec 12} {o : Nat} {e : BitVec 16} (h : m.Updated m' own o e) (passes : bits e 0 4 = 0) : m' = m := by
  have keeps : e.getLsbD 3 = false := (action_of_low passes).2
  rw [Sram.Updated, keeps, if_neg (fun h => Bool.false_ne_true h.1)] at h
  exact h

/-- R112: a machine whose thread passes nothing has read what the machine has read. -/
theorem State.Read.ahead {s x : State} (h : ({ s with ahead := false } : State).Read x) : ∃ r, s.Read r ∧ x = { r with ahead := false } := by
  rcases h with rfl | rfl
  · exact ⟨s, .inl rfl, rfl⟩
  · exact ⟨s.tieAt (.core s.cur.core), .inr rfl, rfl⟩

theorem exec_loadAcquire_own {s : State} {k : Bool} {d : Fin 32} {a : Opnd} {scope : Scope} {kind : LdKind} {o : Nat} (start : s.me.AtStart)
    (plain : PlainWord s 0 (o / 8)) (here : NamesHere s .read (s.me.opX a) (ldBytes kind) o) :
    ∃ r t, s.Read r ∧ exec (.loadAcquire k d a scope kind) s = .next t ∧
      WritesX { r.numbered with ahead := false } t d
        (extend kind (BitVec.ofNat 64 (s.myCore.sram.readFor (s.ownerOfHart s.cur) o (ldBytes kind)))) 0 (len1 a) := by
  let x : State := { s with ahead := false }
  let q : Scalar := ⟨s.me.opX a, ldBytes kind, .load, .load, 0, 0, .writeX d kind, len1 a⟩
  have run : exec (.loadAcquire k d a scope kind) s =
      x.sramAccess (.core x.cur.core) (x.ownLoad (s.me.opX a) (ldBytes kind) o) (.writeX d kind) (len1 a) :=
    (State.scalar_named (q := q) here true).trans (State.scalarAt_own (s := x) (q := q) here.2.2)
  have low : bits (x.ownEntry o) 0 4 = 0 := plain.passes
  obtain ⟨y, m', t, read, updated, done, writes⟩ := State.ownLoad_performs (s := x) (addr := s.me.opX a) (kind := kind) (d := d) (len := len1 a)
    here.inWord ⟨plain.readable, plain.free⟩ start (action_of_low low).1
  obtain ⟨r, reads, rfl⟩ := read.ahead
  refine ⟨r, t, reads, run.trans done, WritesX.of_setMyCore_same ?_⟩
  rw [updated.same low] at writes
  have core : r.myCore = s.myCore := by rcases reads with rfl | rfl <;> rfl
  exact core ▸ writes

/-! ## Stores with release -/

/-- R179: a store with release of the own SRAM waits, or is a store. -/
theorem exec_storeRelease_own {s : State} {b a : Opnd} {scope : Scope} {kind : StKind} {o : Nat}
    (here : NamesHere s .write (s.me.opX a) (stBytes kind) o) (k : Bool) : exec (.storeRelease k b a scope kind) s =
    if s.outstandingIn s.cur scope = true then s.block .fence
    else s.scalarAt ⟨s.me.opX a, stBytes kind, .store, .store, s.me.opX b, 0, .drop, len2 b a⟩ (.sram (.core s.cur.core) o) := by
  obtain ⟨range, aligned, -⟩ := here
  change execStoreRelease b a scope kind s = _
  simp only [execStoreRelease, range, aligned, ne_eq, not_true_eq_false, if_false]

/-! ## Fences -/

/-- R139, R180: a thread after its fence: FENCE.sys brings the stores before it to fetch. -/
def State.fenced (s : State) (scope : Scope) : Thread := { s.me with fenceSeq := if scope = .sys then s.logSeq else s.me.fenceSeq }

theorem exec_fence (k : Bool) (scope : Scope) (s : State) : exec (.fence k scope) s =
    if s.outstandingIn s.cur scope = true then s.block .fence else .next (s.retire (s.fenced scope) 4) := by
  change execFence scope s = _
  unfold execFence State.fenced
  by_cases sys : scope = .sys <;> simp only [sys, if_true, if_false]

theorem exec_fenceX {s : State} (k : Bool) (hdrain : isDrain s.cur = false) (noFault : s.me.deferred = none) : exec (.fenceX k) s =
    if s.myCore.busyFor s.cur = true then s.block .engine else .next (s.retire s.me 4) := by
  change execFenceX s = _
  simp only [execFenceX, hdrain, State.takeDeferred, noFault, Bool.false_eq_true, if_false]

/-- Settles O12: the accesses are those of O10 and O11; a release and a fence look first at what is on its way. -/
theorem orderedAccesses : Obligations.OrderedAccesses := by
  unfold Obligations.OrderedAccesses
  intro s k d a b scope o start
  refine ⟨fun kind plain here => exec_loadAcquire_own start plain here, fun kind plain here quiet => ?_, fun kind here away => ?_, fun quiet => ?_,
    fun away => ?_, fun hdrain noFault idle => ?_, fun hdrain noFault busy => ?_⟩
  · rw [exec_storeRelease_own here, quiet, if_neg Bool.false_ne_true]
    exact State.scalarAt_store start plain here _ _
  · rw [exec_storeRelease_own here, if_pos away]
    exact Waits.block ..
  · rw [exec_fence, quiet, if_neg Bool.false_ne_true]
    exact ⟨_, rfl, Passes.retire_with s 4⟩
  · rw [exec_fence, if_pos away]
    exact Waits.block ..
  · rw [exec_fenceX k hdrain noFault, idle, if_neg Bool.false_ne_true]
    exact ⟨_, rfl, Passes.retire s 4⟩
  · rw [exec_fenceX k hdrain noFault, if_pos busy]
    exact Waits.block ..

end Sys2Proof.Machine
end

section
/-! SUPPORT. Atomics of the own core's SRAM (R182 to R184): O13. -/

namespace Sys2Proof.Machine

section Atomic

variable {s : State} {op : Amo} {d : Fin 32} {a b : Opnd} {ord : Ord} {o : Nat}

/-- R182: an atomic of the own SRAM with an ordering waits; otherwise it is the access, which nothing passes where it is ordered. -/
theorem State.atomic_own (here : NamesHere s .atomic (s.me.opX a) 8 o) : s.atomic op d a b ord =
    if ord ≠ .none ∧ s.outstandingIn s.cur (ordScope ord) = true then s.block .fence
    else (if ord = .none then s else { s with ahead := false }).scalarAt
      ⟨s.me.opX a, 8, .atomic, .amo op, s.me.opX b, s.me.getX d, .writeX d .d, len2 a b⟩ (.sram (.core s.cur.core) o) := by
  obtain ⟨range, aligned, -⟩ := here
  simp only [State.atomic, range, aligned, ne_eq, not_true_eq_false, if_false]
  by_cases plain : ord = .none <;> simp [plain]

/-- What an atomic does that replaces the old value by new, in the words of the statement. -/
def State.Exchanges (s : State) (r : Result) (d : Fin 32) (a b : Opnd) (ord : Ord) (o : Nat) (new : Word) : Prop :=
  (ord = .none ∨ s.outstandingIn s.cur (ordScope ord) = false → ∃ t, r = .next t ∧
    StoresHere (if ord = .none then s else { s with ahead := false }) t o 8 new.toNat
      (some (d, BitVec.ofNat 64 (s.myCore.sram.readFor (s.ownerOfHart s.cur) o 8))) (len2 a b)) ∧
  (ord ≠ .none → s.outstandingIn s.cur (ordScope ord) = true → ∃ t, r = .next t ∧ Waits s t .fence)

theorem State.atomic_exchanges (start : s.me.AtStart) (plain : PlainWord s 2 (o / 8)) (here : NamesHere s .atomic (s.me.opX a) 8 o) {new : Word}
    (value : amoNew op (BitVec.ofNat 64 (s.myCore.sram.readFor (s.ownerOfHart s.cur) o 8)) (s.me.opX b) (s.me.getX d) = new) :
    s.Exchanges (s.atomic op d a b ord) d a b ord o new := by
  subst value
  rw [State.atomic_own here]
  refine ⟨fun ready => ?_, fun ordered away => ?_⟩
  · have goes : ¬ (ord ≠ .none ∧ s.outstandingIn s.cur (ordScope ord) = true) := fun h => by
      rcases ready with none | quiet
      · exact h.1 none
      · exact Bool.false_ne_true (quiet.symm.trans h.2)
    rw [if_neg goes]
    by_cases none : ord = .none
    · rw [if_pos none]
      exact State.scalarAt_amo start plain here op _ _ d _
    · rw [if_neg none]
      exact State.scalarAt_amo (s := { s with ahead := false }) start ⟨⟨plain.readable, plain.free⟩, plain.passes⟩ here op _ _ d _
  · rw [if_pos ⟨ordered, away⟩]
    exact Waits.block ..

end Atomic

/-! ### The new values of Table 12.5 -/

theorem amoNew_min (x y c : Word) : amoNew .min x y c = BitVec.ofInt 64 (min x.toInt y.toInt) := minS_eq_ofInt x y

theorem amoNew_max (x y c : Word) : amoNew .max x y c = BitVec.ofInt 64 (max x.toInt y.toInt) := maxS_eq_ofInt x y

theorem amoNew_minu (x y c : Word) : amoNew .minu x y c = BitVec.ofNat 64 (min x.toNat y.toNat) := minU_eq_ofNat x y

theorem amoNew_maxu (x y c : Word) : amoNew .maxu x y c = BitVec.ofNat 64 (max x.toNat y.toNat) := maxU_eq_ofNat x y

/-- Settles O13: every atomic is one operation, with the new value of its row. -/
theorem localAtomics : Obligations.LocalAtomics := by
  unfold Obligations.LocalAtomics
  intro s k d a b ord o start plain here old y does half
  have exchanges (op : Amo) {new : Word} (value : amoNew op old y (s.me.getX d) = new) : s.Exchanges (s.atomic op d a b ord) d a b ord o new :=
    State.atomic_exchanges start plain here value
  have fadd : amoNew .fadd old y (s.me.getX d) = BitVec.ofNat 64 (half 0 + 2 ^ 32 * half 1) := by
    simp only [amoNew, bits_eq_div_mod]
    rfl
  exact ⟨exchanges .add rfl, exchanges .and rfl, exchanges .or rfl, exchanges .xor rfl, exchanges .min (amoNew_min ..), exchanges .max (amoNew_max ..),
    exchanges .minu (amoNew_minu ..), exchanges .maxu (amoNew_maxu ..), exchanges .swap rfl, exchanges .cas rfl, exchanges .fadd fadd⟩

end Sys2Proof.Machine
end

section
/-! SUPPORT. Tag and table instructions on the own core (R83, R185 to R188): O15. -/

namespace Sys2Proof.Machine

theorem bit_eq_decide {w : Nat} (v : BitVec w) (i : Nat) : bit v i = decide (v.toNat / 2 ^ i % 2 = 1) := by
  rw [bit, ← BitVec.testBit_toNat, Nat.testBit_eq_decide_div_mod_eq]

theorem bit_eq_false {w i : Nat} {v : BitVec w} (h : v.toNat / 2 ^ i % 2 = 0) : bit v i = false := by
  rw [bit_eq_decide, h]
  rfl

/-! ## Bank operations that consult no table (R72) -/

/-- R185: a tag operation on a word without an error. -/
theorem State.bankOp_tag {s : State} {p : Place} {a : Access} {w : Nat} (op : a.op ∈ [.tld, .tst, .tcas]) (words : wordsOf a.esize a.elems = [w])
    (noErr : w ∉ (s.sram p).errs) (noOwnerErr : w / 8 ∉ (s.sram p).ownerErrs) (noSoft : Tab.find? (s.sram p).soft w = none) (again : Bool) :
    s.bankOp p a again = (.done ((s.sram p).tagOp a).1 false, s.setSram p ((s.sram p).tagOp a).2) := by
  obtain ⟨bad, sound⟩ := State.badLines_readable noErr noOwnerErr noSoft
  simp only [List.mem_cons, List.not_mem_nil, or_false] at op
  rcases op with h | h | h <;> simp only [State.bankOp, words, bad, State.mend, sound, h, AccOp.direct, if_true]

/-- R186: a table operation touches no word. -/
theorem State.bankOp_table {s : State} {p : Place} {a : Access} {sel : Word} (op : a.op ∈ [.ttabWr sel, .ttabRd sel, .ttabSwap sel])
    (elems : a.elems = []) (again : Bool) : s.bankOp p a again =
      (.done ((s.sram p).tableOp a.op (a.data.setWidth 64)).1 false, s.setSram p ((s.sram p).tableOp a.op (a.data.setWidth 64)).2) := by
  have words : wordsOf a.esize a.elems = [] := by rw [elems]; rfl
  have bad : s.badLines p [] = [] := rfl
  have sound : s.correct p [] = s := rfl
  simp only [List.mem_cons, List.not_mem_nil, or_false] at op
  rcases op with h | h | h <;> simp only [State.bankOp, words, bad, State.mend, sound, h, AccOp.direct, if_true]

/-! ## TLD, TST and TCAS (R185) -/

/-- R386: a word of the own core's SRAM that holds no error. -/
structure State.ReadableAt (s : State) (w : Nat) : Prop where
  noErr : w ∉ s.myCore.sram.errs
  noOwnerErr : w / 8 ∉ s.myCore.sram.ownerErrs
  noSoft : Tab.find? s.myCore.sram.soft w = none

section TagOps

variable {m : Sram} {a : Access} {w : Nat} (elems : a.elems = [(8 * w, 0)])
include elems

theorem Access.tagWord : (a.elems.headD (0, 0)).1 / 8 = w := by
  rw [elems]
  exact Nat.mul_div_cancel_left w (by decide)

theorem Sram.tagOp_tld (op : a.op = .tld) : m.tagOp a = ((m.tagFor a.owner w).setWidth 512, m) := by
  simp only [Sram.tagOp, op, Access.tagWord elems]

theorem Sram.tagOp_tst (op : a.op = .tst) : m.tagOp a = (0, (m.claim (8 * w) a.owner).setTag w (a.data.setWidth 3)) := by
  simp only [Sram.tagOp, op, Access.tagWord elems]

theorem Sram.tagOp_tcas (op : a.op = .tcas) : m.tagOp a = ((m.tagFor a.owner w).setWidth 512,
    if m.tagFor a.owner w = a.cmp.setWidth 3 then (m.claim (8 * w) a.owner).setTag w (a.data.setWidth 3) else m.claim (8 * w) a.owner) := by
  simp only [Sram.tagOp, op, Access.tagWord elems]

end TagOps

/-- R185: a tag instruction on a word of the own SRAM completes with its tag operation, where PMP permits it. -/
theorem State.tagAccess_own {s : State} {w : Nat} {q : Scalar} {a : Opnd} {v : BitVec 512} {m' : Sram} (start : s.me.AtStart)
    (readable : s.ReadableAt w) (addr : q.addr = s.me.opX a) (size : q.size = 8) (op : q.op ∈ [.tld, .tst, .tcas]) (scalar : q.fin.Scalar)
    (named : s.resolve s.cur ((s.me.opX a).toNat / 8 * 8) = some (.sram (.core s.cur.core) (8 * w)))
    (permitted : s.pmpOk s.cur ((s.me.opX a).toNat / 8 * 8) 8 q.cls.need = true)
    (performs : s.myCore.sram.tagOp (s.ownAccess q (8 * w)) = (v, m')) :
    s.tagAccess q.op q.cls a q.data q.cmp q.fin q.len =
      .next ((s.withOwn m' s.log s.logSeq).retire (s.me.writing (q.fin.register v)) q.len) := by
  obtain ⟨qaddr, qsize, cls, qop, data, cmp, fin, len⟩ := q
  subst addr size
  let q : Scalar := ⟨s.me.opX a, 8, cls, qop, data, cmp, fin, len⟩
  have direct : q.op.direct = true := by
    simp only [List.mem_cons, List.not_mem_nil, or_false] at op
    rcases op with rfl | rfl | rfl <;> rfl
  have words : wordsOf 8 [(8 * w, 0)] = [w] := by
    rw [wordsOf_single (by decide) (by omega), Nat.mul_div_cancel_left w (by decide)]
  have bank := State.bankOp_tag (s := s.numbered) (p := .core s.cur.core) (a := s.ownAccess q (8 * w)) op words readable.noErr readable.noOwnerErr
    readable.noSoft false
  rw [show (s.numbered.sram (.core s.cur.core)).tagOp (s.ownAccess q (8 * w)) = (v, m') from performs] at bank
  simp only [State.tagAccess, named]
  rw [State.scalarAt_own (q := q) (by rw [direct, if_pos rfl]; exact permitted)]
  exact State.sramAccess_completes start scalar rfl bank len

theorem State.retire_setMyCore_same (s : State) (u : Thread) (len : Nat) : (s.setMyCore s.myCore).retire u len = s.retire u len := by
  simp [State.retire, State.setMe, State.setThread, State.setMyCore, State.myCore]

theorem Passes.retire_withOwn (s : State) (m' : Sram) (len : Nat) :
    Passes (s.withOwn m' s.log s.logSeq) ((s.withOwn m' s.log s.logSeq).retire s.me len) len := by
  have h := Passes.retire (s.withOwn m' s.log s.logSeq) len
  rwa [State.me_withOwn] at h

theorem WritesX.retire_withOwn (s : State) (m' : Sram) (d : Fin 32) (v : Word) (len : Nat) :
    WritesX (s.withOwn m' s.log s.logSeq) ((s.withOwn m' s.log s.logSeq).retire (s.me.writing (some (d, v))) len) d v 0 len := by
  have h := WritesX.retire0 (s.withOwn m' s.log s.logSeq) d v len
  rwa [State.me_withOwn] at h

/-- R185: what TLD does. -/
theorem tld_reads {s : State} (d : Fin 32) (tag : BitVec 3) (len : Nat) :
    WritesX s.numbered ((s.withOwn s.myCore.sram s.log s.logSeq).retire (s.me.writing (some (d, tag.setWidth 64))) len) d (tag.setWidth 64) 0 len := by
  have same : (s.withOwn s.myCore.sram s.log s.logSeq).retire (s.me.writing (some (d, tag.setWidth 64))) len =
    s.numbered.retire (s.me.setX d (tag.setWidth 64)) len := State.retire_setMyCore_same s.numbered _ len
  rw [same]
  exact WritesX.retire0 s.numbered d _ len

/-! ## Selectors (Table 12.8) -/

section Selector

variable {x : Word}

theorem selSet_eq (x : Word) : selSet x = x.toNat / 64 % 4 := bits_eq_div_mod x 6 2

theorem selector_musts (small : x.toNat < 2 ^ 11) (base : x.toNat / 2 ^ 9 % 2 = 1 → x.toNat % 64 < 4) :
    (zeroBits x 11 53 && (!bit x 9 || zeroBits x 2 4)) = true := by
  have high : zeroBits x 11 53 = true := (zeroBits_top x 11 53 rfl).mpr small
  rw [high, Bool.true_and, bit_eq_decide, zeroBits, bits_eq_div_mod, Bool.or_eq_true, Bool.not_eq_true', decide_eq_false_iff_not, decide_eq_true_eq]
  by_cases h : x.toNat / 2 ^ 9 % 2 = 1
  · have := base h
    exact .inr (by omega)
  · exact .inl h

theorem zeroBits_of_mod (index : x.toNat % 64 = 0) : zeroBits x 0 6 = true := by
  rw [zeroBits, bits_eq_div_mod, decide_eq_true_eq, Nat.pow_zero, Nat.div_one]
  exact index

end Selector

/-! ## TTAB.WR, TTAB.RD and TTAB.SWAP (R186 to R188) -/

/-- The set of a memory that a selector names. -/
def Sram.selected (m : Sram) (sel : Word) : TableSet := (Tab.find? m.sets (selSet sel)).getD TableSet.init

/-- R188: a memory whose set k has exchanged its copies: what is parked on a word of the set looks again. -/
def Sram.swapped (m : Sram) (k : Nat) : Sram :=
  let t := (Tab.find? m.sets k).getD TableSet.init
  { m with
    sets := Tab.set k ⟨t.shadow, t.active⟩ m.sets
    parks := m.parks.map (fun p => if m.setOf p.word = k then { p with woken := true } else p) }

theorem Sram.woken_swapped (m : Sram) (k : Nat) (q : Parked) (hq : q ∈ (m.swapped k).parks) (here : m.setOf q.word = k) : q.woken = true := by
  obtain ⟨x, -, rfl⟩ := List.mem_map.mp hq
  by_cases named : m.setOf x.word = k
  · rw [if_pos named]
  · rw [if_neg named] at here
    exact absurd here named

/-- R186: a table instruction on the own core completes with its table operation. -/
theorem State.tableAccess_own {s : State} {sel data : Word} {op : AccOp} {fin : Finish} {len : Nat} (start : s.me.AtStart)
    (own : bit sel 8 = false) (isTable : op ∈ [.ttabWr sel, .ttabRd sel, .ttabSwap sel]) (scalar : fin.Scalar) :
    s.tableAccess op sel data fin len = .next ((s.withOwn (s.myCore.sram.tableOp op data).2 s.log s.logSeq).retire
      (s.me.writing (fin.register (s.myCore.sram.tableOp op data).1)) len) := by
  have whole : (data.setWidth 512).setWidth 64 = data := by simp
  have bank := State.bankOp_table (s := s.numbered) (p := .core s.cur.core)
    (a := mkAccess s s.cur sel .store op (.sram (.core s.cur.core)) 8 [] (data.setWidth 512) 0 false) isTable rfl false
  simp only [State.tableAccess, own, Bool.false_and, Bool.false_eq_true, if_false, ne_eq, not_true_eq_false, false_and]
  rw [show (mkAccess s s.cur sel .store op (.sram (.core s.cur.core)) 8 [] (data.setWidth 512) 0 false).data.setWidth 64 = data from whole] at bank
  exact State.sramAccess_completes start scalar rfl bank len

section Table

variable {m : Sram} {sel v : Word} (musts : (zeroBits sel 11 53 && (!bit sel 9 || zeroBits sel 2 4)) = true)
include musts

theorem Sram.tableOp_ttabWr (active : bit sel 10 = false) : m.tableOp (.ttabWr sel) v =
    (0, { m with sets := Tab.set (selSet sel) { m.selected sel with shadow := (m.selected sel).shadow.write sel v } m.sets }) := by
  simp only [Sram.tableOp, selOk, musts, active, Bool.not_false, Bool.and_self, if_true]
  rfl

theorem Sram.tableOp_ttabRd : m.tableOp (.ttabRd sel) v =
    (((if bit sel 10 then (m.selected sel).shadow else (m.selected sel).active).item sel).setWidth 512, m) := by
  simp only [Sram.tableOp, selOk, musts, Bool.and_self, if_true]
  rfl

theorem Sram.tableOp_ttabSwap (active : bit sel 10 = false) (entries : bit sel 9 = false) (index : zeroBits sel 0 6 = true) :
    m.tableOp (.ttabSwap sel) v = (0, m.swapped (selSet sel)) := by
  have ok : selOk (.ttabSwap sel) sel = true := by
    rw [selOk, musts]
    simp only [active, entries, index, Bool.not_false, Bool.and_self]
  simp only [Sram.tableOp, ok, if_true]
  rfl

end Table

/-- Settles O15: a direct operation is performed at once, at the word of its address or on the set of its selector. -/
theorem localTagInstructions : Obligations.LocalTagInstructions := by
  unfold Obligations.LocalTagInstructions
  intro s k d a b w start x n m old new set with_
  have reads : extend .d ((old.setWidth 512).setWidth 64) = old.setWidth 64 := BitVec.setWidth_setWidth_of_le _ (by decide)
  have tag : ((s.me.opX b).setWidth 512).setWidth 3 = new := BitVec.setWidth_setWidth_of_le _ (by decide)
  have selected : m.selected x = set := by rw [Sram.selected, selSet_eq]
  refine ⟨fun named noErr noOwnerErr noSoft => ⟨fun ok => ?tld, fun ok => ?tst, fun ok => ?tcas⟩,
    fun own small => ⟨fun active base => ?wr, fun base => ?rd, fun copy index => ?swap⟩⟩
  case tld =>
    refine ⟨_, State.tagAccess_own start ⟨noErr, noOwnerErr, noSoft⟩ (q := ⟨x, 8, .load, .tld, 0, 0, .writeX d .d, len1 a⟩) rfl rfl (by simp)
      (.inr ⟨d, .d, rfl⟩) named ok (Sram.tagOp_tld rfl rfl), ?_⟩
    change WritesX s.numbered ((s.withOwn m s.log s.logSeq).retire (s.me.writing (some (d, extend .d ((old.setWidth 512).setWidth 64)))) _) d _ 0 _
    rw [reads]
    exact tld_reads d old _
  case tst =>
    refine ⟨_, State.tagAccess_own start ⟨noErr, noOwnerErr, noSoft⟩ (q := ⟨x, 8, .store, .tst, s.me.opX b, 0, .drop, len2 a b⟩) rfl rfl (by simp)
      (.inl rfl) named ok (Sram.tagOp_tst rfl rfl), TagsHere.retire ?_ none _⟩
    exact tag ▸ m.taggedFor_setTag _ w _
  case tcas =>
    refine ⟨_, State.tagAccess_own start ⟨noErr, noOwnerErr, noSoft⟩ (q := ⟨x, 8, .atomic, .tcas, s.me.opX b, s.me.getX d, .writeX d .d, len2 a b⟩)
      rfl rfl (by simp) (.inr ⟨d, .d, rfl⟩) named ok (Sram.tagOp_tcas rfl rfl), ?_⟩
    change TagsHere s ((s.withOwn _ s.log s.logSeq).retire (s.me.writing (some (d, extend .d ((old.setWidth 512).setWidth 64)))) _) w _ _ _
    rw [reads]
    refine TagsHere.retire ?_ _ _
    change m.TaggedFor (if old = (s.me.getX d).setWidth 3 then _ else _) _ w _
    split
    · exact tag ▸ m.taggedFor_setTag _ w _
    · exact m.taggedFor_claim _ w
  case wr =>
    have wrote := Sram.tableOp_ttabWr (m := m) (v := s.me.opX b) (selector_musts small base) (bit_eq_false active)
    rw [selSet_eq, selected] at wrote
    refine ⟨_, State.tableAccess_own start (bit_eq_false own) (by simp) (.inl rfl), ?_⟩
    rw [wrote]
    exact Passes.retire_withOwn s _ _
  case rd =>
    have read := Sram.tableOp_ttabRd (m := m) (v := 0) (selector_musts small base)
    have item (u : Word) : extend .d ((u.setWidth 512).setWidth 64) = u := BitVec.setWidth_setWidth_of_le u (by decide)
    refine ⟨_, State.tableAccess_own start (bit_eq_false own) (by simp) (.inr ⟨d, .d, rfl⟩), ?_⟩
    rw [read, selected, bit_eq_decide, Finish.register, item]
    simp only [decide_eq_true_eq]
    exact WritesX.retire_withOwn s m d _ _
  case swap =>
    have musts := selector_musts small fun h => by omega
    have swapped := Sram.tableOp_ttabSwap (m := m) (v := 0) musts (bit_eq_false (by omega)) (bit_eq_false (by omega)) (zeroBits_of_mod index)
    rw [selSet_eq] at swapped
    refine ⟨_, m.swapped (n / 64 % 4), State.tableAccess_own start (bit_eq_false own) (by simp) (.inl rfl), ?_, rfl, rfl, m.woken_swapped _⟩
    rw [swapped]
    exact Passes.retire_withOwn s _ _

end Sys2Proof.Machine
end

section
/-! SUPPORT. Lanes that a mask names (R200 to R202): the register, the mask and the flags of a predicated instruction and of a compare. -/

namespace Sys2Proof.Machine

/-! ## Lanes written under a mask -/

theorem lane_lt (v : Vec) (w i : Nat) : lane v w i < 2 ^ (8 * w) := BitVec.isLt _

theorem lanesWritten_vecOf {m0 : Word32} {w : Nat} {old : Vec} {f g : Nat → Nat}
    (act : ∀ i, i < 64 / w → active m0 w i = true → f i % 2 ^ (8 * w) = g i % 2 ^ (8 * w))
    (kept : ∀ i, i < 64 / w → active m0 w i = false → f i = lane old w i) : LanesWritten m0 w old (vecOf w f) g := by
  intro i hi
  rw [lane_vecOf _ _ hi]
  split
  · next on => exact act i hi on
  · next off => rw [kept i hi (Bool.eq_false_iff.mpr off), Nat.mod_eq_of_lt (lane_lt ..)]

theorem lanesWritten_predLanes (m0 : Word32) (w : Nat) (old : Vec) {f g : Nat → Nat}
    (same : ∀ i, i < 64 / w → f i % 2 ^ (8 * w) = g i % 2 ^ (8 * w)) : LanesWritten m0 w old (predLanes m0 w old f) g :=
  lanesWritten_vecOf (fun i hi on => by rw [if_pos on, same i hi]) (fun i _ off => by rw [if_neg (Bool.eq_false_iff.mp off)])

/-! ## Flags of the lanes that are named -/

theorem getLsbD_laneFlags (p : Nat → Bool) (f : Nat → FRes) (n q : Nat) :
    (laneFlags p f n).getLsbD q = true ↔ ∃ i, i < n ∧ p i = true ∧ (f i).fl.getLsbD q = true := by
  induction n with
  | zero => simp [laneFlags]
  | succ n ih =>
    rw [laneFlags, BitVec.getLsbD_or, Bool.or_eq_true, ih]
    simp only [Nat.lt_succ_iff_lt_or_eq, or_and_right, exists_or, exists_eq_left]
    cases p n <;> simp

theorem laneFlags_active (m0 : Word32) (w : Nat) (f : Nat → FRes) : LaneFlags m0 w (laneFlags (active m0 w) f (64 / w)) f :=
  fun q _ => getLsbD_laneFlags _ f _ q

theorem laneFlags_zero (m0 : Word32) (w : Nat) {f : Nat → FRes} (quiet : ∀ i, (f i).fl = 0) : LaneFlags m0 w 0 f :=
  fun q _ => by simp [quiet]

/-! ## The mask of a lane result (R201) -/

/-- R201: the mask bits of a lane of 4 or 2 bytes. -/
def laneBits (w : Nat) : Nat := if w = 4 then 2 else 1

theorem laneBits_pos (w : Nat) : 0 < laneBits w := by unfold laneBits; split <;> decide

theorem maskBits_succ (w : Nat) (r : Nat → Bool) (n : Nat) :
    maskBits w r (n + 1) = 2 ^ (laneBits w * n) * (if r n then 2 ^ laneBits w - 1 else 0) + maskBits w r n := by
  have unit : (if w = 4 then 3 * 2 ^ (2 * n) else 2 ^ n) = 2 ^ (laneBits w * n) * (2 ^ laneBits w - 1) := by
    unfold laneBits
    split <;> simp [mul_comm]
  rw [maskBits, unit, mul_ite, mul_zero, add_comm]

theorem maskBits_lt (w : Nat) (r : Nat → Bool) (n : Nat) : maskBits w r n < 2 ^ (laneBits w * n) := by
  induction n with
  | zero => simp [maskBits]
  | succ n ih =>
    have top : (if r n then 2 ^ laneBits w - 1 else 0) + 1 ≤ 2 ^ laneBits w := by
      have := Nat.two_pow_pos (laneBits w)
      split <;> omega
    calc maskBits w r (n + 1) < 2 ^ (laneBits w * n) * ((if r n then 2 ^ laneBits w - 1 else 0) + 1) := by
          rw [maskBits_succ, mul_add, mul_one]
          omega
      _ ≤ 2 ^ (laneBits w * n) * 2 ^ laneBits w := Nat.mul_le_mul_left _ top
      _ = 2 ^ (laneBits w * (n + 1)) := by rw [← pow_add, Nat.mul_succ]

theorem testBit_maskBits (w : Nat) (r : Nat → Bool) (n j : Nat) :
    (maskBits w r n).testBit j = (decide (j < laneBits w * n) && r (j / laneBits w)) := by
  induction n with
  | zero => simp [maskBits]
  | succ n ih =>
    have next : laneBits w * (n + 1) = laneBits w * n + laneBits w := Nat.mul_succ ..
    rw [maskBits_succ, Nat.testBit_two_pow_mul_add _ (maskBits_lt w r n), ih]
    split
    · next low => simp [low, show j < laneBits w * (n + 1) by omega]
    · next high =>
      by_cases last : j < laneBits w * (n + 1)
      · have here : j / laneBits w = n := Nat.div_eq_of_lt_le (by rw [mul_comm]; omega) (by rw [mul_comm]; exact last)
        cases hr : r n <;> simp [last, here, hr]
        omega
      · cases r n <;> simp [last]
        omega

theorem getLsbD_ofNat_maskBits (w : Nat) (r : Nat → Bool) {n j : Nat} (hj : j < 32) (hn : laneBits w * n = 32) :
    (BitVec.ofNat 32 (maskBits w r n)).getLsbD j = r (j / laneBits w) := by
  rw [BitVec.getLsbD_ofNat, decide_eq_true hj, Bool.true_and, testBit_maskBits, hn, decide_eq_true hj, Bool.true_and]

theorem maskOfLanes_maskOf (m0 : Word32) {w : Nat} (hw : w = 4 ∨ w = 2 ∨ w = 1) (r : Nat → Bool) : MaskOfLanes m0 w (maskOf m0 w r) r := by
  intro j hj
  rcases hw with rfl | rfl | rfl
  · rw [maskOf, if_neg (by decide), getLsbD_ofNat_maskBits 4 _ hj rfl, if_pos rfl, active, show j / laneBits 4 * 4 / 2 = j / 2 * 2 by
      simp only [laneBits, if_true]; omega]
    rfl
  · rw [maskOf, if_neg (by decide), getLsbD_ofNat_maskBits 2 _ hj rfl, if_neg (by decide), if_pos rfl, active, show j / laneBits 2 = j from Nat.div_one j,
      Nat.mul_div_cancel _ (by decide)]
  · have even : 2 * j * 1 / 2 = j := by omega
    have odd : (2 * j + 1) * 1 / 2 = j := by omega
    rw [maskOf, if_pos rfl, getLsbD_ofNat_maskBits 2 _ hj rfl, if_neg (by decide), if_neg (by decide), show j / laneBits 2 = j from Nat.div_one j]
    simp only [active, even, odd]
    cases m0.getLsbD j <;> simp

/-! ## Predicated instructions, and compares -/

section Predicated

variable {s : State} {i : Instr} {d : Fin 32} {w len : Nat}

/-- R202: an instruction whose lanes raise flags. -/
theorem lanesTo_of_lanesR {f g : Nat → FRes} (run : exec i s = .next (s.retire (s.me.lanesR d w f) len)) (same : ∀ j, f j = g j) :
    LanesTo s i d w len g := by
  obtain rfl : f = g := funext same
  exact ⟨_, _, _, run, WritesV.retire .., lanesWritten_predLanes _ _ _ fun _ _ => rfl, laneFlags_active _ _ _⟩

/-- R202: an instruction whose lanes raise no flags. -/
theorem lanesTo_of_lanesI {f g : Nat → Nat} (run : exec i s = .next (s.retire (s.me.lanesI d w f) len))
    (same : ∀ j, f j % 2 ^ (8 * w) = g j % 2 ^ (8 * w)) : LanesTo s i d w len (fun j => ⟨g j, 0⟩) :=
  ⟨_, _, _, run, WritesV.retire0 .., lanesWritten_predLanes _ _ _ fun j _ => same j, laneFlags_zero _ _ fun _ => rfl⟩

/-- R201: a compare. -/
theorem maskTo_of_compareR {d : Fin 8} {r : Nat → Bool} {fl : Nat → Flags} (hw : w = 4 ∨ w = 2 ∨ w = 1)
    (run : exec i s = .next (s.retire (s.me.compareR d w r fl) len)) : MaskTo s i d w len r fl :=
  ⟨_, _, _, run, WritesM.retire .., maskOfLanes_maskOf _ hw r, laneFlags_active _ _ _⟩

end Predicated

end Sys2Proof.Machine
end

section
/-! SUPPORT. Floating-point lanes (R203, R204): O25. -/

namespace Sys2Proof.Machine

theorem ftBytes_cases (lt : FType) : ftBytes lt = 4 ∨ ftBytes lt = 2 ∨ ftBytes lt = 1 := by cases lt <;> decide

theorem two_mul_signBit (lt : FType) : 2 * (ftFmt lt).signBit = 2 ^ (8 * ftBytes lt) := by cases lt <;> decide

/-- R204: the sign of a pattern of a format is inverted by adding the sign bit, modulo the size of a pattern. -/
theorem flipSign_eq (f : Fmt) {x : Nat} (hx : x < 2 * f.signBit) : flipSign f x = (x + f.signBit) % (2 * f.signBit) := by
  have pos : 0 < f.signBit := Nat.two_pow_pos _
  unfold flipSign
  by_cases low : x < f.signBit
  · rw [Nat.div_eq_of_lt low, if_neg (by decide), Nat.mod_eq_of_lt low, Nat.mod_eq_of_lt (by omega)]
  · have one : x / f.signBit = 1 := Nat.div_eq_of_lt_le (by omega) (by omega)
    have rest : x = f.signBit + (x - f.signBit) := by omega
    rw [one, if_pos rfl, show x + f.signBit = x - f.signBit + 2 * f.signBit by omega, Nat.add_mod_right, Nat.mod_eq_sub_mod (by omega),
      Nat.mod_eq_of_lt (by omega), Nat.mod_eq_of_lt (by omega)]

/-- Settles O25: each lane result is the instruction's own; the masks are those of R201. -/
theorem vectorFloatLanes : Obligations.VectorFloatLanes := by
  unfold Obligations.VectorFloatLanes
  intro s k d m a b lt f w rm pa pb x y x32
  have flip (i : Nat) : flipSign f (pa i) = (pa i + f.signBit) % (2 * f.signBit) :=
    flipSign_eq f ((two_mul_signBit lt).symm ▸ lane_lt ..)
  refine ⟨lanesTo_of_lanesR rfl fun _ => rfl, lanesTo_of_lanesR rfl fun _ => rfl, lanesTo_of_lanesR rfl fun _ => rfl, lanesTo_of_lanesR rfl fun _ => rfl,
    lanesTo_of_lanesR rfl fun _ => rfl, lanesTo_of_lanesR rfl fun _ => rfl, lanesTo_of_lanesR rfl fun _ => rfl, lanesTo_of_lanesR rfl fun _ => rfl,
    lanesTo_of_lanesR rfl fun _ => rfl, lanesTo_of_lanesR rfl fun _ => rfl, lanesTo_of_lanesI rfl fun _ => rfl,
    lanesTo_of_lanesI rfl fun i => congrArg (· % _) (flip i), ?eq, ?lt, ?le, ?un⟩
  all_goals exact maskTo_of_compareR (ftBytes_cases lt) rfl

end Sys2Proof.Machine
end

section
/-! SUPPORT. Integer lanes (R205), and the 16-bit forms (R206): O26, O27. -/

namespace Sys2Proof.Machine

/-! ## Lane results of n bits (Table 13.6), as signed numbers -/

section Results

variable (n x y : Nat)

theorem ofNat_iAdd : BitVec.ofNat n (iAdd n x y) = BitVec.ofInt n ((BitVec.ofNat n x).toInt + (BitVec.ofNat n y).toInt) := by
  rw [BitVec.ofInt_add, BitVec.ofInt_toInt, BitVec.ofInt_toInt, iAdd, BitVec.ofNat_add]

theorem ofNat_iSub : BitVec.ofNat n (iSub n x y) = BitVec.ofInt n ((BitVec.ofNat n x).toInt - (BitVec.ofNat n y).toInt) := by
  rw [Int.sub_eq_add_neg, BitVec.ofInt_add, BitVec.ofInt_neg, BitVec.ofInt_toInt, BitVec.ofInt_toInt, ← BitVec.sub_eq_add_neg]
  exact BitVec.eq_of_toNat_eq (by simp [iSub, add_comm])

theorem ofNat_iMul : BitVec.ofNat n (iMul n x y) = BitVec.ofInt n ((BitVec.ofNat n x).toInt * (BitVec.ofNat n y).toInt) := by
  rw [BitVec.ofInt_mul, BitVec.ofInt_toInt, BitVec.ofInt_toInt, iMul, BitVec.ofNat_mul]

theorem ofNat_iMin : BitVec.ofNat n (iMin n x y) = BitVec.ofInt n (min (BitVec.ofNat n x).toInt (BitVec.ofNat n y).toInt) := by
  rw [iMin, sext_eq_toInt, sext_eq_toInt]
  split
  · next lt => rw [min_eq_right lt.le, BitVec.ofInt_toInt]
  · next le => rw [min_eq_left (not_lt.mp le), BitVec.ofInt_toInt]

theorem ofNat_iMax : BitVec.ofNat n (iMax n x y) = BitVec.ofInt n (max (BitVec.ofNat n x).toInt (BitVec.ofNat n y).toInt) := by
  rw [iMax, sext_eq_toInt, sext_eq_toInt]
  split
  · next lt => rw [max_eq_right lt.le, BitVec.ofInt_toInt]
  · next le => rw [max_eq_left (not_lt.mp le), BitVec.ofInt_toInt]

theorem ofNat_iShra : BitVec.ofNat n (iShra n x y) = BitVec.ofInt n ((BitVec.ofNat n x).toInt / 2 ^ (y % n)) := by
  rw [iShra, ofNat_ofSigned, sext_eq_toInt, Nat.cast_pow]
  rfl

end Results

/-! ## Predicated integer instructions -/

section Lanes

variable {s : State} {i : Instr} {d : Fin 32} {a b : Opnd} {w : Width} {len : Nat} {f : Nat → Nat → Nat → Nat}
  (run : exec i s = s.vint2 d a b w len f)
include run

/-- R205: lane results modulo 2^n. -/
theorem lanesTo_of_vint2 {g : Nat → Nat} (value : ∀ j, let n := widthBytes w
    f (8 * n) (lane (s.me.opV (widthLt w) a) n j) (lane (s.me.opV (widthLt w) b) n j) = g j) :
    LanesTo s i d (widthBytes w) len (fun j => ⟨g j, 0⟩) :=
  lanesTo_of_lanesI run fun j => congrArg (· % _) (value j)

/-- R205: lane results as signed numbers of n bits. -/
theorem lanesTo_of_vint2_signed {g : Nat → Int} (value : ∀ j, let n := widthBytes w
    BitVec.ofNat (8 * n) (f (8 * n) (lane (s.me.opV (widthLt w) a) n j) (lane (s.me.opV (widthLt w) b) n j)) = BitVec.ofInt (8 * n) (g j)) :
    LanesTo s i d (widthBytes w) len (fun j => ⟨(BitVec.ofInt (8 * widthBytes w) (g j)).toNat, 0⟩) :=
  lanesTo_of_lanesI run fun j => by
    rw [← value j, BitVec.toNat_ofNat, Nat.mod_mod]

end Lanes

theorem widthBytes_cases (w : Width) : widthBytes w = 4 ∨ widthBytes w = 2 ∨ widthBytes w = 1 := by cases w <;> decide

theorem iShr_lane (v : Vec) (n i y : Nat) : iShr (8 * n) (lane v n i) y = lane v n i / 2 ^ (y % (8 * n)) := by
  rw [iShr, Nat.mod_eq_of_lt (lane_lt ..)]

/-- Settles O26: each lane result as a number modulo 2^n or as a signed number; the masks are those of R201. -/
theorem vectorIntegerLanes : Obligations.VectorIntegerLanes := by
  unfold Obligations.VectorIntegerLanes
  intro s k d m a b w n x y sx sy nat int
  refine ⟨lanesTo_of_vint2_signed rfl fun _ => ofNat_iAdd .., lanesTo_of_vint2_signed rfl fun _ => ofNat_iSub ..,
    lanesTo_of_vint2_signed rfl fun _ => ofNat_iMul .., lanesTo_of_vint2_signed rfl fun _ => ofNat_iMin ..,
    lanesTo_of_vint2_signed rfl fun _ => ofNat_iMax .., lanesTo_of_vint2 rfl fun _ => rfl, lanesTo_of_vint2 rfl fun _ => rfl,
    lanesTo_of_vint2 rfl fun _ => rfl, lanesTo_of_vint2 rfl fun _ => rfl, lanesTo_of_vint2 rfl fun _ => iShr_lane ..,
    lanesTo_of_vint2_signed rfl fun _ => ofNat_iShra .., lanesTo_of_lanesI rfl fun _ => rfl, lanesTo_of_vint2 rfl fun _ => rfl,
    lanesTo_of_lanesI rfl fun _ => rfl, maskTo_of_compareR (widthBytes_cases w) rfl, maskTo_of_compareR (widthBytes_cases w) ?_⟩
  have less (i : Nat) : decide (sext n (x i) < sext n (y i)) = decide (sx i < sy i) := by rw [sext_eq_toInt, sext_eq_toInt]
  simp only [← less]
  rfl

/-- Settles O27: a 16-bit form is the operation of its 32-bit form, on d and b. -/
theorem vectorShortForms : Obligations.VectorShortForms := by
  unfold Obligations.VectorShortForms
  intro s k d b x y fx fy sx sy rm fp nat int
  have signed {i : Instr} {f : Nat → Nat → Nat → Nat} {g : Nat → Int} (run : exec i s = s.vint16 d b f)
      (value : ∀ j, BitVec.ofNat 32 (f 32 (x j) (y j)) = BitVec.ofInt 32 (g j)) : int i g :=
    lanesTo_of_vint2_signed (w := .w4) run value
  have plain {i : Instr} {f : Nat → Nat → Nat → Nat} {g : Nat → Nat} (run : exec i s = s.vint16 d b f)
      (value : ∀ j, f 32 (x j) (y j) = g j) : nat i g :=
    lanesTo_of_vint2 (w := .w4) run value
  exact ⟨lanesTo_of_lanesR rfl fun _ => rfl, lanesTo_of_lanesR rfl fun _ => rfl, lanesTo_of_lanesR rfl fun _ => rfl,
    lanesTo_of_lanesR rfl fun _ => rfl, lanesTo_of_lanesR rfl fun _ => rfl,
    signed rfl fun _ => ofNat_iAdd .., signed rfl fun _ => ofNat_iSub .., signed rfl fun _ => ofNat_iMul ..,
    plain rfl fun _ => rfl, plain rfl fun _ => rfl, plain rfl fun _ => rfl, plain rfl fun _ => rfl, plain rfl fun _ => iShr_lane _ 4 _ _,
    signed rfl fun _ => ofNat_iShra .., signed rfl fun _ => ofNat_iMax .., plain rfl fun _ => rfl⟩

end Sys2Proof.Machine
end

section
/-! SUPPORT. Conversions, packing and quantisation (R207 to R213): O28. -/

namespace Sys2Proof.Machine

/-! ## VUNPACK (R209) -/

/-- R88, R209: a nibble as a signed number. -/
theorem sext_nibble (g i : Nat) : sext 4 (nibble g i) = (BitVec.ofNat 4 (g / 16 ^ i)).toInt := by
  rw [sext_eq_toInt, nibble]
  exact congrArg BitVec.toInt (BitVec.eq_of_toNat_eq (Nat.mod_mod _ 16))

/-! ## VQUANT (R210, R211) -/

theorem exec_vquant (k : Bool) (d a b : Fin 32) (pk : Pack) (s : State) :
    let ctl : Word32 := (s.me.getV b).setWidth 32
    let g := quantGroup pk (quotientOf s.myCore.engine ctl (s.me.elem64 a))
    exec (.vquant k d a b pk) s =
      if ctl.getLsbD 8 && s.myCore.dupPending s.cur then s.block .engine else .next (s.retire ((s.me.setV d g.1).accrue g.2) 4) := rfl

/-! ## The operand and the marks of VDEQ (R143, R212) -/

theorem State.packOperand_reg (s : State) (pk : Pack) (r : Fin 32) : s.packOperand pk (.reg r) = (s.me.getV r, s) := by
  cases pk <;> rfl

theorem State.packOperand_lanes (s : State) {pk : Pack} {lt : LType} (h : packLt pk = some lt) (x : Opnd) :
    s.packOperand pk x = (s.me.opV lt x, s) := by
  cases pk <;> cases h <;> rfl

/-- Log 11: reading the operand uses up free values at most. -/
theorem State.packOperand_state (s : State) (pk : Pack) (x : Opnd) : ∃ n, (s.packOperand pk x).2 = { s with free := n } := by
  unfold State.packOperand
  split
  · exact ⟨_, rfl⟩
  · exact ⟨_, rfl⟩
  · exact ⟨_, rfl⟩

/-- R91: the marked codes among the first n of a group. -/
theorem o4Marks_eq (g n : Nat) : o4Marks g n = ((List.range n).filter (fun i => nibble g i = 8)).length := by
  induction n with
  | zero => rfl
  | succ n ih =>
    rw [o4Marks, ih, List.range_succ, List.filter_append, List.length_append]
    by_cases h : nibble g n = 8 <;> simp [h]

/-- R91: the codes of a group are its low 64 nibbles. -/
theorem nibble_low (v : Vec) {i : Nat} (hi : i < 64) : nibble (bits v 0 256) i = v.toNat / 16 ^ i % 16 := by
  have split : 2 ^ 256 = 16 ^ i * 16 ^ (64 - i) := by
    rw [← pow_add, Nat.add_sub_cancel' hi.le]
    rfl
  have whole : 16 ∣ 16 ^ (64 - i) := dvd_pow_self 16 (by omega)
  rw [nibble, bits_eq_div_mod, pow_zero, Nat.div_one, split, Nat.mod_mul_right_div_self, Nat.mod_mod_of_dvd _ whole]

theorem o4Marks_group (v : Vec) : o4Marks (bits v 0 256) 64 = ((List.range 64).filter (fun i => v.toNat / 16 ^ i % 16 = 8)).length := by
  rw [o4Marks_eq]
  exact congrArg List.length (List.filter_congr fun i hi => by rw [nibble_low v (List.mem_range.mp hi)])

/-! ## The registers that VDEQ writes (R212) -/

/-- R212: register d + j, modulo 32, gets the lanes r j, whose flags accrue. -/
def Thread.putLanes (r : Nat → Nat → FRes) (d : Fin 32) (t : Thread) (j : Nat) : Thread :=
  (t.setV ⟨(d.val + j) % 32, Nat.mod_lt _ (by decide)⟩ (vecOf 4 (fun i => (r j i).bits))).accrue (laneFlags (fun _ => true) (r j) 16)

/-- A thread after n such writes. -/
structure Thread.GroupWritten (t u : Thread) (r : Nat → Nat → FRes) (d : Fin 32) (n : Nat) : Prop where
  written : ∀ j, j < n → u.v[(d.val + j) % 32]'(Nat.mod_lt _ (by decide)) = vecOf 4 (fun i => (r j i).bits)
  others : ∀ k : Fin 32, (∀ j, j < n → k.val ≠ (d.val + j) % 32) → u.getV k = t.getV k
  flags : ∀ q, u.fflags.getLsbD q = true ↔ t.fflags.getLsbD q = true ∨ ∃ j i, j < n ∧ i < 16 ∧ (r j i).fl.getLsbD q = true
  kept : u = { t with v := u.v, fflags := u.fflags }

theorem Thread.GroupWritten.putLanes {t u : Thread} {r : Nat → Nat → FRes} {d : Fin 32} {n : Nat} (h : t.GroupWritten u r d n) (hn : n < 32) :
    t.GroupWritten (u.putLanes r d n) r d (n + 1) where
  written j hj := by
    by_cases last : j = n
    · subst last
      simp [Thread.putLanes, Thread.setV]
    · have apart : (d.val + n) % 32 ≠ (d.val + j) % 32 := by omega
      simp only [Thread.putLanes, Thread.accrue_v, Thread.setV]
      rw [Vector.getElem_set_ne _ _ apart]
      exact h.written j (by omega)
  others k hk := by
    have apart : (d.val + n) % 32 ≠ k.val := (hk n (Nat.lt_succ_self n)).symm
    rw [← h.others k fun j hj => hk j (by omega)]
    simp only [Thread.putLanes, Thread.getV, Thread.accrue_v, Thread.setV]
    exact Vector.getElem_set_ne _ _ apart
  flags q := by
    have accrued : (u.putLanes r d n).fflags = u.fflags ||| laneFlags (fun _ => true) (r n) 16 := rfl
    rw [accrued, BitVec.getLsbD_or, Bool.or_eq_true, h.flags, getLsbD_laneFlags, or_assoc]
    refine or_congr_right ⟨?_, ?_⟩
    · rintro (⟨j, i, hj, hi, on⟩ | ⟨i, hi, -, on⟩)
      · exact ⟨j, i, by omega, hi, on⟩
      · exact ⟨n, i, by omega, hi, on⟩
    · rintro ⟨j, i, hj, hi, on⟩
      rcases Nat.lt_succ_iff_lt_or_eq.mp hj with below | rfl
      · exact .inl ⟨j, i, below, hi, on⟩
      · exact .inr ⟨i, hi, rfl, on⟩
  kept := by
    rw [Thread.putLanes, h.kept]
    rfl

theorem Thread.groupWritten_foldl (t : Thread) (r : Nat → Nat → FRes) (d : Fin 32) {n : Nat} (hn : n ≤ 32) :
    t.GroupWritten ((List.range n).foldl (Thread.putLanes r d) t) r d n := by
  induction n with
  | zero => exact ⟨fun j hj => absurd hj (by omega), fun _ _ => rfl, fun q => by simp, rfl⟩
  | succ n ih =>
    rw [List.range_succ, List.foldl_append]
    exact (ih (by omega)).putLanes (by omega)

theorem Thread.advance_of_kept {t u : Thread} (h : u = { t with v := u.v, fflags := u.fflags }) (len : Nat) :
    u.advance len = { t with
      v := (u.advance len).v, fflags := (u.advance len).fflags, pc := (u.advance len).pc
      rep := (u.advance len).rep, retired := (u.advance len).retired } := by
  obtain ⟨v, fl, rfl⟩ : ∃ v fl, u = { t with v := v, fflags := fl } := ⟨_, _, h⟩
  conv_lhs => rw [Thread.advance_kept]
  simp

/-- R212: VDEQ of a group whose marks are well formed. -/
def State.dequantised (s : State) (pk : Pack) (v : Vec) (d b : Fin 32) : Thread :=
  (List.range 4).foldl (Thread.putLanes (fun j i => deqElem pk v (bits (s.me.getV b) 0 8) (16 * j + i)) d) s.me

theorem exec_vdeq (k : Bool) (d : Fin 32) (x : Opnd) (b : Fin 32) (pk : Pack) (s : State) :
    let p := s.packOperand pk x
    exec (.vdeq k d x b pk) s =
      if pk = .o4 ∧ 8 < ((List.range 64).filter (fun i => p.1.toNat / 16 ^ i % 16 = 8)).length then p.2.trapMe 35 0
      else .next (p.2.retire (p.2.dequantised pk p.1 d b) (len1 x)) := by
  intro p
  rw [← o4Marks_group]
  rfl

/-- Settles O28: conversions are lane by lane; VDEQ writes four registers, one after the other. -/
theorem vectorConversions : Obligations.VectorConversions := by
  unfold Obligations.VectorConversions
  intro s k d a b x y src t part pk rm
  refine ⟨lanesTo_of_lanesR rfl fun _ => rfl, lanesTo_of_lanesR rfl fun _ => rfl, lanesTo_of_lanesI rfl fun i => ?unpack, ?quant, ?deq⟩
  case unpack => rw [sext_nibble]
  case quant =>
    intro ctl g
    refine ⟨fun free => ⟨_, ?_, WritesV.retire ..⟩, fun dup pending => ?_⟩
    · refine (exec_vquant ..).trans (if_neg fun h => ?_)
      obtain ⟨dup, pending⟩ := Bool.and_eq_true_iff.mp h
      rcases free with off | idle
      · exact Bool.false_ne_true (off.symm.trans dup)
      · exact Bool.false_ne_true (idle.symm.trans pending)
    · rw [exec_vquant, if_pos (Bool.and_eq_true_iff.mpr ⟨dup, pending⟩)]
      exact Waits.block ..
  case deq =>
    intro p v sc bad
    obtain ⟨n, state⟩ := s.packOperand_state pk x
    have me : p.2.me = s.me := by rw [state]; rfl
    have same : SameMemory s p.2 := by rw [state]; exact ⟨⟨fun _ _ => rfl, fun _ _ => rfl, fun _ _ => rfl⟩, rfl⟩
    have sound := s.me.groupWritten_foldl (fun j i => deqElem pk v sc (16 * j + i)) d (n := 4) (by decide)
    have all : p.2.dequantised pk p.1 d b = (List.range 4).foldl (Thread.putLanes (fun j i => deqElem pk v sc (16 * j + i)) d) s.me := by
      rw [State.dequantised, me]
    rw [← all] at sound
    obtain ⟨written, others, flags, kept⟩ := sound
    refine ⟨fun r hr => by subst hr; exact s.packOperand_reg pk r, fun lt hlt => s.packOperand_lanes hlt x, fun good => ?_, fun broken => ?_⟩
    · refine ⟨_, (exec_vdeq ..).trans (if_neg good), State.setMe_only .., ?_, same.trans (SameMemory.setMe ..), ?_, ?_, ?_, ?_⟩
      all_goals rw [State.retire, State.me_setMe]
      · refine Thread.Passed.advance _ _ _ ?_ ?_ ?_ ?_ ?_ <;> rw [kept]
      · intro j i hi
        simp only [Thread.advance_v]
        rw [written j.val j.isLt, lane_vecOf _ _ hi]
      · intro r hr
        simp only [Thread.getV, Thread.advance_v]
        exact others r fun j hj => hr ⟨j, hj⟩
      · intro q hq
        rw [Thread.advance_fflags, flags]
        refine or_congr_right ⟨fun ⟨j, i, hj, hi, on⟩ => ⟨16 * j + i, by omega, on⟩, fun ⟨i, hi, on⟩ => ⟨i / 16, i % 16, by omega, by omega, ?_⟩⟩
        rwa [Nat.div_add_mod]
      · exact Thread.advance_of_kept kept _
    · exact (exec_vdeq ..).trans (if_pos broken)

end Sys2Proof.Machine
end

section
/-! SUPPORT. Permutes, single lanes and masks (R214, R220): O29. -/

namespace Sys2Proof.Machine

/-! ## Single lanes (R214) -/

/-- R214: what VEXTR makes of a lane of a type: its pattern for a floating type, its value for an integer one. -/
def extracted (lt : LType) (x : Nat) : Word :=
  if (ltFmt? lt).isSome then BitVec.ofNat 64 x else (BitVec.ofNat (8 * lt.bytes) x).signExtend 64

theorem exec_vextr (k : Bool) (d : Fin 32) (a b : Opnd) (lt : LType) (s : State) : exec (.vextr k d a b lt) s =
    .next (s.retire (s.me.setX d (extracted lt (lane (s.me.opV lt a) lt.bytes ((s.me.opX b).toNat % (64 / lt.bytes))))) (len2 a b)) := by
  change execVextr d a b lt s = _
  rw [execVextr, extracted]
  split
  · next f hf => rw [hf]; rfl
  · next hf => rw [hf, sext_eq_toInt]; rfl

/-! ## Masks (R220) -/

theorem maskCount_eq (m : Word32) : maskCount m = ((List.range 32).filter (fun i => m.getLsbD i)).length :=
  List.countP_eq_length_filter

/-- R220: the lowest set bit, or 32 where there is none. -/
theorem maskFirst_spec (m : Word32) :
    (∀ i, i < maskFirst m → m.getLsbD i = false) ∧ (m = 0 → maskFirst m = 32) ∧ (m ≠ 0 → maskFirst m < 32 ∧ m.getLsbD (maskFirst m) = true) := by
  cases found : (List.range 32).find? (fun i => bit m i) with
  | none =>
    have clear (i : Nat) (hi : i < 32) : m.getLsbD i = false := by simpa [bit] using List.find?_eq_none.mp found i (List.mem_range.mpr hi)
    have first : maskFirst m = 32 := by rw [maskFirst, found]; rfl
    rw [first]
    exact ⟨clear, fun _ => rfl, fun ne => absurd (BitVec.eq_of_getLsbD_eq fun i hi => (clear i hi).trans (by simp)) ne⟩
  | some v =>
    obtain ⟨set, inRange, before⟩ := List.find?_range_eq_some.mp found
    have first : maskFirst m = v := by rw [maskFirst, found]; rfl
    rw [first]
    refine ⟨fun i hi => by simpa [bit] using before i hi, fun zero => ?_, fun _ => ⟨List.mem_range.mp inRange, set⟩⟩
    rw [zero] at set
    simp [bit] at set

/-- Settles O29: permutes are lane by lane; the mask instructions write one register whole. -/
theorem vectorPermutesAndMasks : Obligations.VectorPermutesAndMasks := by
  unfold Obligations.VectorPermutesAndMasks
  intro s k d m a b lt w x y j ka writesX writesM
  obtain ⟨below, none_, some_⟩ := maskFirst_spec ka
  have count := maskCount_eq ka
  exact ⟨lanesTo_of_lanesI rfl fun _ => rfl, lanesTo_of_lanesI rfl fun _ => rfl, ⟨_, exec_vextr .., WritesX.retire0 ..⟩,
    ⟨_, _, rfl, WritesV.retire0 .., lanesWritten_predLanes _ _ _ fun _ _ => rfl⟩, ⟨_, rfl, WritesM.retire0 ..⟩, ⟨_, rfl, WritesM.retire0 ..⟩,
    ⟨_, rfl, WritesM.retire0 ..⟩, ⟨_, rfl, WritesM.retire0 ..⟩, ⟨_, rfl, count ▸ WritesX.retire0 ..⟩,
    maskFirst ka, ⟨_, rfl, WritesX.retire0 ..⟩, below, none_, some_⟩

end Sys2Proof.Machine
end

section
/-! SUPPORT. Accesses of several words of the own core's SRAM that all pass the action table (R75, R81, R386): the bank operation: O31, O32, O33. -/

namespace Sys2Proof.Machine

/-! ## The words of an access -/

theorem mem_insertAsc {n k : Nat} {l : List Nat} : k ∈ insertAsc n l ↔ k = n ∨ k ∈ l := by
  induction l with
  | nil => simp [insertAsc]
  | cons x l ih =>
    rw [insertAsc]
    split
    · simp
    · split
      · next same => simp [same]
      · simp [ih, or_left_comm]

theorem mem_foldr_insertAsc {k : Nat} {l : List Nat} : k ∈ l.foldr insertAsc [] ↔ k ∈ l := by
  induction l with
  | nil => simp
  | cons x l ih => simp [mem_insertAsc, ih]

theorem mem_wordsOf {n w : Nat} {elems : List (Nat × Nat)} (some : 1 ≤ n) (h : w ∈ wordsOf n elems) : ∃ e ∈ elems, e.1 / 8 ≤ w ∧ w ≤ (e.1 + n - 1) / 8 := by
  rw [wordsOf, mem_foldr_insertAsc] at h
  simp only [List.mem_flatMap, List.mem_map, List.mem_range] at h
  obtain ⟨e, he, i, hi, rfl⟩ := h
  exact ⟨e, he, by omega, by omega⟩

/-! ## The bank operation of a plain access -/

/-- R75, R81, R386: each word of an access is free of errors and of woken accesses, and its entry passes the access without an update. -/
def Sram.PlainFor (m : Sram) (p : Place) (a : Access) : Prop :=
  ∀ w ∈ wordsOf a.esize a.elems, m.OpenAt w ∧ bits (m.entryFor p a w) 0 4 = 0

theorem Sram.foldl_update_kept {own : BitVec 12} {entry : Nat → BitVec 16} {ws : List Nat} (kept : ∀ w ∈ ws, bit (entry w) 3 = false) (m : Sram) :
    ws.foldl (fun r w => r.update own w (entry w)) m = m := by
  induction ws with
  | nil => rfl
  | cons w ws ih =>
    rw [List.foldl_cons, Sram.update_of_not (kept w (List.mem_cons_self ..))]
    exact ih fun x hx => kept x (List.mem_cons_of_mem _ hx)

theorem Sram.checked_plain {m : Sram} {p : Place} {a : Access} (plain : m.PlainFor p a) (op : a.op ≠ .look) :
    m.checked p a false = (.done (m.perform a).1 ((wordsOf a.esize a.elems).any (fun w => bit (m.entryFor p a w) 7)), (m.perform a).2) := by
  have act (w : Nat) (hw : w ∈ wordsOf a.esize a.elems) : actionOf (m.entryFor p a w) = 0 := by
    rw [actionOf, (action_of_low (plain w hw).2).1]
    rfl
  have free : m.parks.any (fun q => q.woken && decide (q.word ∈ wordsOf a.esize a.elems)) = false := by
    rw [List.any_eq_false]
    intro q hq on
    obtain ⟨woken, here⟩ := Bool.and_eq_true_iff.mp on
    exact (plain _ (of_decide_eq_true here)).1.free q hq woken rfl
  have none_ (f : Nat → Bool) (off : ∀ w ∈ wordsOf a.esize a.elems, f w = false) : (wordsOf a.esize a.elems).find? f = none :=
    List.find?_eq_none.mpr fun w hw => Bool.eq_false_iff.mp (off w hw)
  have kept := Sram.foldl_update_kept (own := a.owner) (entry := m.entryFor p a) (ws := wordsOf a.esize a.elems)
    (fun w hw => (action_of_low (plain w hw).2).2) (m.perform a).2
  unfold Sram.entryFor at act kept ⊢
  simp only [Sram.checked, free, Bool.and_false, Bool.false_eq_true, if_false, op]
  rw [none_ _ fun w hw => by simp [act w hw], none_ _ fun w hw => by simp [act w hw], none_ _ fun w hw => by simp [act w hw]]
  simp only [kept]

theorem State.badLines_open {s : State} {p : Place} {ws : List Nat} (clear : ∀ w ∈ ws, (s.sram p).OpenAt w) : s.badLines p ws = [] := by
  have bad : ws.filter (fun w => decide (w ∈ (s.sram p).errs) || decide (w / 8 ∈ (s.sram p).ownerErrs) ||
      (decide (Tab.find? (s.sram p).soft w = some 1) && !s.stripeRebuilds p (8 * w))) = [] :=
    List.filter_eq_nil_iff.mpr fun w hw => by simp [(clear w hw).noErr, (clear w hw).noOwnerErr, (clear w hw).noSoft]
  rw [State.badLines, bad]
  rfl

theorem State.correct_open {s : State} {p : Place} {ws : List Nat} (clear : ∀ w ∈ ws, (s.sram p).OpenAt w) : s.correct p ws = s := by
  induction ws with
  | nil => rfl
  | cons w ws ih =>
    have here := (clear w (List.mem_cons_self ..)).noSoft
    have later := ih fun x hx => clear x (List.mem_cons_of_mem _ hx)
    rw [State.correct] at later ⊢
    rw [List.foldl_cons]
    simp only [here]
    exact later

theorem State.tieAt_setSram (s : State) (p : Place) (m : Sram) (q : Place) : (s.setSram p m).tieAt q = (s.tieAt q).setSram p m := by
  cases p <;> rfl

section Bank

variable {s : State} {p : Place} {a : Access} (plain : (s.sram p).PlainFor p a)
include plain

/-- R75, R112: the bank operation of a load; it may order the stores there. -/
theorem State.bankOp_plain_load (op : a.op = .load) :
    ∃ r q, s.bankOp p a false = (.done ((s.sram p).loadLanes a) q, r.setSram p (s.sram p)) ∧ (r = s ∨ r = s.tieAt p) := by
  have clear (w : Nat) (hw : w ∈ wordsOf a.esize a.elems) := (plain w hw).1
  have direct : a.op.direct = false := by rw [op]; rfl
  have writes : a.writes = false := by rw [Access.writes, op]
  have done := Sram.checked_plain plain (by rw [op]; exact fun h => nomatch h)
  have loads : (s.sram p).perform a = ((s.sram p).loadLanes a, s.sram p) := by rw [Sram.perform, op]
  rw [loads] at done
  simp only [State.bankOp, State.badLines_open clear, State.mend, State.correct_open clear, direct, done, writes, Bool.false_eq_true, if_false]
  cases (s.sram p).releases p a with
  | false => exact ⟨s, _, rfl, .inl rfl⟩
  | true => exact ⟨s.tieAt p, _, congrArg (Prod.mk _) (s.tieAt_setSram p _ p), .inr rfl⟩

/-- R75, R139: the bank operation of a store; the bytes before it are logged for fetch. -/
theorem State.bankOp_plain_store (op : a.op = .store) :
    ∃ q l k, s.bankOp p a false = (.done 0 q, { s.setSram p ((s.sram p).storeLanes a) with log := l, logSeq := k }) := by
  have clear (w : Nat) (hw : w ∈ wordsOf a.esize a.elems) := (plain w hw).1
  have direct : a.op.direct = false := by rw [op]; rfl
  have writes : a.writes = true := by rw [Access.writes, op]
  have done := Sram.checked_plain plain (by rw [op]; exact fun h => nomatch h)
  have stores : (s.sram p).perform a = (0, (s.sram p).storeLanes a) := by rw [Sram.perform, op]
  rw [stores] at done
  refine ⟨(wordsOf a.esize a.elems).any (fun w => bit ((s.sram p).entryFor p a w) 7), (s.bankOp p a false).2.log, (s.bankOp p a false).2.logSeq, ?_⟩
  simp only [State.bankOp, State.badLines_open clear, State.mend, State.correct_open clear, direct, done, writes, Bool.false_eq_true, if_false, if_true]
  cases (s.sram p).releases p a <;> cases p <;> rfl

end Bank

/-! ## Accesses of the own core's SRAM -/

theorem State.ownPlain {s : State} {a : Access} {k : Nat} (owner : a.owner = s.ownerOfHart s.cur) (kind : kindAt (.core s.cur.core) a = k)
    (plain : ∀ w ∈ wordsOf a.esize a.elems, PlainWord s k w) : s.myCore.sram.PlainFor (.core s.cur.core) a := by
  intro w hw
  refine ⟨(plain w hw).openAt, ?_⟩
  rw [Sram.entryFor, kind, owner]
  exact (plain w hw).passes

/-- R75: a load of plain words of the own SRAM answers in the step in which it began. -/
theorem State.serve_own_load {s : State} {a : Access} (owner : a.owner = s.ownerOfHart s.cur) (kind : kindAt (.core s.cur.core) a = 0)
    (op : a.op = .load) (plain : ∀ w ∈ wordsOf a.esize a.elems, PlainWord s 0 w) : ∃ r q, s.Read r ∧
      s.numbered.serve (.core s.cur.core) a false = (some (.value (s.myCore.sram.loadLanes a) q), true, r.numbered.setMyCore r.myCore) := by
  obtain ⟨r, q, bank, read⟩ := State.bankOp_plain_load (s := s.numbered) (p := .core s.cur.core) (State.ownPlain (s := s) owner kind plain) op
  rcases read with rfl | rfl
  · exact ⟨s, q, .inl rfl, State.serve_done bank⟩
  · exact ⟨s.tieAt (.core s.cur.core), q, .inr rfl, State.serve_done bank⟩

theorem State.Read.cur_eq {s r : State} (h : s.Read r) : r.cur = s.cur := by rcases h with rfl | rfl <;> rfl

theorem State.Read.myCore {s r : State} (h : s.Read r) : r.myCore = s.myCore := by rcases h with rfl | rfl <;> rfl

theorem State.Read.me {s r : State} (h : s.Read r) : r.me = s.me := by rcases h with rfl | rfl <;> rfl

theorem State.me_setMyCore {s : State} {c : Core} (threads : c.threads = s.myCore.threads) : (s.setMyCore c).me = s.me :=
  State.thread_congr (State.core_setCore_kept Core.threads s s.cur.core c threads _)

end Sys2Proof.Machine
end

section
/-! SUPPORT. Vector accesses of the own core's SRAM (R216, R217): their elements, and the loads: O31. -/

namespace Sys2Proof.Machine

/-! ## Lanes of a vector that is put together -/

theorem lane_or (u v : Vec) (w i : Nat) : lane (u ||| v) w i = lane u w i ||| lane v w i := by
  rw [lane, lane, lane, BitVec.extractLsb'_or, BitVec.toNat_or]

theorem lane_zero (w i : Nat) : lane 0 w i = 0 := by simp [lane]

/-- R216: one element in its lane. -/
theorem lane_placed {w j x : Nat} (hx : x < 2 ^ (8 * w)) (hj : j < 64 / w) {i : Nat} (hi : i < 64 / w) :
    lane (BitVec.ofNat 512 x <<< (8 * w * j)) w i = if i = j then x else 0 := by
  have fits (k : Nat) (hk : k < 64 / w) : 8 * w * k + 8 * w ≤ 512 := by
    have := Nat.mul_le_of_le_div w (k + 1) 64 hk
    nlinarith
  refine Nat.eq_of_testBit_eq fun b => ?_
  rw [lane, BitVec.testBit_toNat, BitVec.getLsbD_extractLsb', BitVec.getLsbD_shiftLeft, BitVec.getLsbD_ofNat]
  by_cases inLane : b < 8 * w
  · have hi' := fits i hi
    have in512 : 8 * w * i + b < 512 := by omega
    rcases Nat.lt_trichotomy i j with below | rfl | above
    · have : 8 * w * (i + 1) ≤ 8 * w * j := Nat.mul_le_mul_left _ below
      have : 8 * w * i + b < 8 * w * j := by rw [Nat.mul_succ] at this; omega
      simp [this, below.ne]
    · simp [inLane, in512]
      omega
    · have : 8 * w * (j + 1) ≤ 8 * w * i := Nat.mul_le_mul_left _ above
      have high : 8 * w ≤ 8 * w * i + b - 8 * w * j := by rw [Nat.mul_succ] at this; omega
      have zero : x.testBit (8 * w * i + b - 8 * w * j) = false := Nat.testBit_lt_two_pow (hx.trans_le (Nat.pow_le_pow_right two_pos high))
      simp [zero, above.ne']
  · have zero : (if i = j then x else 0).testBit b = false := by
      refine Nat.testBit_lt_two_pow ?_
      have := Nat.pow_le_pow_right two_pos (not_lt.mp inLane)
      split <;> omega
    simp [inLane, zero]

/-- R216: what elements at offsets o of their lanes, read from a memory, leave in each lane. -/
theorem lane_foldl_placed (read : Nat → Nat) {w : Nat} (bounded : ∀ x, read x < 2 ^ (8 * w)) (o : Nat → Nat) {l : List Nat}
    (below : ∀ j ∈ l, j < 64 / w) (v : Vec) {i : Nat} (hi : i < 64 / w) :
    lane ((l.map (fun j => (o j, j))).foldl (fun v e => v ||| (BitVec.ofNat 512 (read e.1) <<< (8 * w * e.2))) v) w i =
      lane v w i ||| if i ∈ l then read (o i) else 0 := by
  induction l generalizing v with
  | nil => simp
  | cons j l ih =>
    rw [List.map_cons, List.foldl_cons, ih (fun x hx => below x (List.mem_cons_of_mem _ hx)), lane_or,
      lane_placed (bounded _) (below j (List.mem_cons_self ..)) hi, Nat.or_assoc]
    congr 1
    by_cases here : i = j
    · subst here
      by_cases later : i ∈ l <;> simp [later]
    · simp [here]

theorem Sram.readFor_lt_two_pow (m : Sram) (x : BitVec 12) (o n : Nat) : m.readFor x o n < 2 ^ (8 * n) := by
  rw [Nat.pow_mul]
  exact m.readFor_lt x o n

/-! ## The elements of a vector access (R217) -/

theorem mem_elems {t : Thread} {e n : Nat} {f : Nat → Word} {x : Elem} (h : x ∈ t.elems e n f) :
    x.lane < n ∧ active (t.getM 0) e x.lane = true ∧ x.addr = f x.lane := by
  obtain ⟨i, hi, rfl⟩ := List.mem_map.mp h
  obtain ⟨below, act⟩ := List.mem_filter.mp hi
  exact ⟨List.mem_range.mp below, act, rfl⟩

/-- An element at the own core's SRAM that has passed its checks. -/
def State.ownChecked (s : State) (o : Nat → Nat) (x : Elem) : Checked :=
  ⟨x.lane, x.addr, false, .sram (.core s.cur.core), o x.lane, s.ownerOfHart s.cur, 0⟩

theorem State.checkElem_own {s : State} {cls : Class} {e : Nat} {o : Nat → Nat} {x : Elem} (here : NamesHere s cls.need x.addr e (o x.lane)) :
    s.checkElem cls e false x = .ok [s.ownChecked o x] s := by
  obtain ⟨range, aligned, permitted⟩ := here
  simp [State.checkElem, range, aligned, permitted, State.ownChecked]

theorem State.checkElems_own {s : State} {cls : Class} {e : Nat} {o : Nat → Nat} {es : List Elem}
    (here : ∀ x ∈ es, NamesHere s cls.need x.addr e (o x.lane)) (acc : List Checked) :
    s.checkElems cls e false es acc = .ok (acc.reverse ++ es.map (s.ownChecked o)) s := by
  induction es generalizing acc with
  | nil => simp [State.checkElems]
  | cons x es ih =>
    rw [State.checkElems, State.checkElem_own (here x (List.mem_cons_self ..))]
    simp [ih fun y hy => here y (List.mem_cons_of_mem _ hy)]

/-- R217: the access of the active lanes below n of a vector instruction, at offsets o of the own core's SRAM; it bears the address of the first. -/
def State.lanesAccess (s : State) (cls : Class) (op : AccOp) (e n : Nat) (data : Vec) (first : Word) (o : Nat → Nat) : Access :=
  { mkAccess s s.cur first cls op (.sram (.core s.cur.core)) e
      (((List.range n).filter (fun i => active (s.me.getM 0) e i)).map (fun i => (o i, i))) data 0 false with vec := true }

theorem State.vecAccess_idle {s : State} {e n : Nat} {f : Nat → Word} (idle : ∀ i, i < n → active (s.me.getM 0) e i = false) (cls : Class) (op : AccOp)
    (misaligned : Bool) (data : Vec) (fin : Finish) (len : Nat) :
    s.vecAccess cls op e misaligned data (s.me.elems e n f) fin len = .next (s.retire s.me len) := by
  have none_ : s.me.elems e n f = [] := by
    rw [Thread.elems, List.filter_eq_nil_iff.mpr fun i hi => Bool.eq_false_iff.mp (idle i (List.mem_range.mp hi))]
    rfl
  rw [none_]
  rfl

section Own

variable {s : State} {k e n : Nat} {f : Nat → Word} {o : Nat → Nat} {cls : Class}

/-- R217: a vector access whose active elements all name the own core's SRAM is one access there. -/
theorem State.vecAccess_own (here : LanesHere s cls.need k e n f o) (op : AccOp) (data : Vec) (fin : Finish) (len : Nat) :
    ∃ first, s.vecAccess cls op e false data (s.me.elems e n f) fin len =
      s.sramAccess (.core s.cur.core) (s.lanesAccess cls op e n data first o) fin len := by
  obtain ⟨named, i, hi, act⟩ := here
  have checks := State.checkElems_own (s := s) (cls := cls) (e := e) (o := o) (es := s.me.elems e n f)
    (fun x hx => by obtain ⟨below, on, at_⟩ := mem_elems hx; exact at_ ▸ (named _ below on).1) []
  have pairs : (s.me.elems e n f).map (fun x => (o x.lane, x.lane)) =
      ((List.range n).filter (fun i => active (s.me.getM 0) e i)).map (fun i => (o i, i)) := by
    rw [Thread.elems, List.map_map]
    rfl
  cases hes : s.me.elems e n f with
  | nil =>
    have mem : (⟨i, f i⟩ : Elem) ∈ s.me.elems e n f :=
      List.mem_map.mpr ⟨i, List.mem_filter.mpr ⟨List.mem_range.mpr hi, act⟩, rfl⟩
    rw [hes] at mem
    exact absurd mem (List.not_mem_nil)
  | cons x es =>
    rw [hes] at checks pairs
    have one : ((x :: es).map (s.ownChecked o)).find? (fun c => decide (c.home ≠ (s.ownChecked o x).home)) = none := by
      rw [List.find?_eq_none]
      intro c hc
      obtain ⟨y, -, rfl⟩ := List.mem_map.mp hc
      simp [State.ownChecked]
    refine ⟨x.addr, ?_⟩
    simp only [State.vecAccess, checks, List.reverse_nil, List.nil_append, List.map_cons] at one ⊢
    rw [one]
    simp only [State.lanesAccess, ← pairs]
    simp [State.ownChecked, Home.isSram, Checked.access, mkAccess]
    rfl

end Own

/-! ## The words that the elements touch -/

/-- R216: an aligned element lies in one word. -/
theorem NamesHere.inWord_of_width {s : State} {need : Need} {addr : Word} {e : Width} {o : Nat} (h : NamesHere s need addr (widthBytes e) o) :
    o % 8 + widthBytes e ≤ 8 := by
  cases e with
  | w4 => exact h.inWord (kind := .w)
  | w2 => exact h.inWord (kind := .h)
  | w1 => exact h.inWord (kind := .b)

theorem one_le_widthBytes (e : Width) : 1 ≤ widthBytes e := by cases e <;> decide

theorem LanesHere.plainWords {s : State} {need : Need} {k n : Nat} {e : Width} {f : Nat → Word} {o : Nat → Nat}
    (here : LanesHere s need k (widthBytes e) n f o) :
    ∀ w ∈ wordsOf (widthBytes e) (((List.range n).filter (fun i => active (s.me.getM 0) (widthBytes e) i)).map (fun i => (o i, i))), PlainWord s k w := by
  intro w hw
  obtain ⟨_, mem, low, high⟩ := mem_wordsOf (one_le_widthBytes e) hw
  obtain ⟨i, hi, rfl⟩ := List.mem_map.mp mem
  obtain ⟨below, act⟩ := List.mem_filter.mp hi
  obtain ⟨named, plain⟩ := here.here i (List.mem_range.mp below) act
  have inWord := named.inWord_of_width
  obtain rfl : w = o i / 8 := by dsimp only at low high; omega
  exact plain

/-! ## Completion -/

/-- What an instruction does whose accesses leave no trace in its core, in the step in which it began. -/
theorem State.finishThread_atStart {s : State} (start : s.me.AtStart) {f : Finish} {v : BitVec 512} (core : s.myCore.finish f = s.myCore)
    (status : (s.me.finish f v).status = s.me.status) (pend : (s.me.finish f v).pend = s.me.pend)
    (gathered : (s.me.finish f v).gathered = s.me.gathered) (len : Nat) : s.finishThread s.cur f v len = s.retire (s.me.finish f v) len := by
  have same : (s.setCore s.cur.core s.myCore).thread s.cur = s.me := s.thread_setMyCore_same s.cur
  rw [State.finishThread, show s.core s.cur.core = s.myCore from rfl, core]
  dsimp only
  rw [same, Thread.settled_advance start status pend gathered]
  exact s.setMe_setMyCore_same _

/-- A load of the own SRAM that has its answer in the step in which it began, for an instruction that writes a vector register. -/
theorem State.sramAccess_writesV {s r : State} {a : Access} {d : Fin 32} {w len : Nat} {z : Option Nat} {v : BitVec 512} {q b : Bool}
    (start : s.me.AtStart) (read : s.Read r) (hart : a.hart = s.cur)
    (served : s.numbered.serve (.core s.cur.core) a false = (some (.value v q), b, r.numbered.setMyCore r.myCore)) :
    s.sramAccess (.core s.cur.core) a (.writeV d w z) len = .next (r.numbered.retire (s.me.finish (.writeV d w z) v) len) := by
  let x := r.numbered.setMyCore r.myCore
  have cur : x.cur = s.cur := read.cur_eq
  have me : x.me = s.me := (State.me_setMyCore rfl).trans read.me
  have done := State.finishThread_atStart (s := x) (f := .writeV d w z) (v := v) (me ▸ start) rfl rfl rfl rfl len
  rw [cur, me] at done
  rw [State.sramAccess_answered (by rw [hart]) served, hart]
  exact congrArg _ (done.trans (r.numbered.retire_setMyCore_same _ _))

/-! ## Vector loads -/

theorem LanesWritten.congr {m0 : Word32} {w : Nat} {old new : Vec} {f g : Nat → Nat} (h : LanesWritten m0 w old new f)
    (same : ∀ i, i < 64 / w → f i = g i) : LanesWritten m0 w old new g :=
  fun i hi => same i hi ▸ h i hi

/-- R216: a vector load over n elements gives each active lane its element, and the active lanes past n, where z cuts there, 0. -/
theorem State.vecAccess_load {s : State} {e : Width} {n : Nat} {f : Nat → Word} {o : Nat → Nat} {z : Option Nat} (start : s.me.AtStart)
    (here : LanesHere s .read 0 (widthBytes e) n f o) (few : n ≤ 64 / widthBytes e) (cut : z = none ∨ z = some n) (d : Fin 32) (len : Nat) :
    ∃ r t v, s.Read r ∧
      s.vecAccess .load .load (widthBytes e) false 0 (s.me.elems (widthBytes e) n f) (.writeV d (widthBytes e) z) len = .next t ∧
      WritesV r.numbered t d v 0 len ∧ LanesWritten (s.me.getM 0) (widthBytes e) (s.me.getV d) v
        (fun i => if i < n then s.myCore.sram.readFor (s.ownerOfHart s.cur) (o i) (widthBytes e) else 0) := by
  obtain ⟨first, run⟩ := State.vecAccess_own (cls := .load) here .load 0 (.writeV d (widthBytes e) z) len
  let a := s.lanesAccess .load .load (widthBytes e) n 0 first o
  obtain ⟨r, q, read, served⟩ := State.serve_own_load (s := s) (a := a) rfl (kindAt_own (a := a) rfl) rfl here.plainWords
  have me : r.numbered.me = s.me := read.me
  refine ⟨r, _, _, read, run.trans (State.sramAccess_writesV start read rfl served), me ▸ WritesV.retire0 .., ?_⟩
  refine lanesWritten_vecOf (fun i hi act => ?_) (fun i _ off => if_neg (Bool.eq_false_iff.mp off))
  have loaded : lane (s.myCore.sram.loadLanes a) (widthBytes e) i =
      if i < n then s.myCore.sram.readFor (s.ownerOfHart s.cur) (o i) (widthBytes e) else 0 := by
    have lanes := lane_foldl_placed (fun x => s.myCore.sram.readFor (s.ownerOfHart s.cur) x (widthBytes e))
      (fun _ => Sram.readFor_lt_two_pow ..) o
      (l := (List.range n).filter (fun i => active (s.me.getM 0) (widthBytes e) i))
      (fun j hj => (List.mem_range.mp (List.mem_filter.mp hj).1).trans_le few) 0 hi
    rw [lane_zero, Nat.zero_or] at lanes
    simp only [List.mem_filter, List.mem_range, act, and_true] at lanes
    exact lanes
  rw [if_pos act]
  rcases cut with rfl | rfl
  · exact congrArg (· % _) loaded
  · by_cases low : i < n <;> simp [low, loaded]

/-- R216: an indexed load of elements below 4 bytes has sixteen of them. -/
theorem vecFinish_indexed (d : Fin 32) (n : Nat) : ∃ z, vecFinish d n true = .writeV d n z ∧ (z = none ∨ z = some 16) := by
  refine ⟨_, rfl, ?_⟩
  split
  · exact .inr rfl
  · exact .inl rfl

/-- Settles O31: the active elements make one access of plain words, which answers at once; with none the instruction only completes. -/
theorem vectorLoads : Obligations.VectorLoads := by
  unfold Obligations.VectorLoads
  intro s k d a b e col o start n base read idle loads nothing
  have whole {f : Nat → Word} (here : LanesHere s .read 0 n (64 / n) f o) :
      ∃ r t v, s.Read r ∧ s.vecAccess .load .load n false 0 (s.me.elems n (64 / n) f) (vecFinish d n false) (len2 a b) = .next t ∧
        WritesV r.numbered t d v 0 (len2 a b) ∧ LanesWritten (s.me.getM 0) n (s.me.getV d) v read := by
    obtain ⟨r, t, v, reads, run, writes, lanes⟩ := State.vecAccess_load start here le_rfl (.inl rfl) d (len2 a b)
    exact ⟨r, t, v, reads, run, writes, lanes.congr fun i hi => if_pos hi⟩
  refine ⟨fun here aligned => ?row, fun here => whole here, fun here => whole here, fun here => ?indexed, fun off => ⟨?none, ?noneStrided⟩, fun off => ?noneIndexed⟩
  case row =>
    have run : exec (.vld k d a b e false) s = s.vecAccess .load .load n (decide (base.toNat % 64 ≠ 0)) 0
        (s.me.elems n (64 / n) (lineAddr base n false)) (vecFinish d n false) (len2 a b) := rfl
    rw [aligned] at run
    obtain ⟨r, t, v, reads, done, rest⟩ := whole here
    exact ⟨r, t, v, reads, run.trans done, rest⟩
  case indexed =>
    have addresses (i : Nat) : indexAddr (s.me.opX a) (s.me.opV .i32 b) n i =
        s.me.opX a + BitVec.ofInt 64 ((BitVec.ofNat 32 (lane (s.me.opV .i32 b) 4 i)).toInt * n) := by rw [indexAddr, sext_eq_toInt]
    obtain ⟨z, finish, cut⟩ := vecFinish_indexed d n
    have few : 16 ≤ 64 / n := by cases e <;> decide
    have run : exec (.vldx k d a b e) s = s.vecAccess .load .load n false 0 (s.me.elems n 16 (indexAddr (s.me.opX a) (s.me.opV .i32 b) n))
        (vecFinish d n true) (len2 a b) := rfl
    rw [← funext addresses] at here
    rw [finish] at run
    obtain ⟨r, t, v, reads, done, rest⟩ := State.vecAccess_load start here few cut d (len2 a b)
    exact ⟨r, t, v, reads, run.trans done, rest⟩
  all_goals exact ⟨_, State.vecAccess_idle off .., Passes.retire ..⟩

end Sys2Proof.Machine
end

section
/-! SUPPORT. Elements stored one after another in the own core's SRAM (R70, R216, R218), and vector stores: O32. -/

namespace Sys2Proof.Machine

/-! ## Bytes of one line as an owner reads them -/

theorem Sram.readFor_succ (m : Sram) (own : BitVec 12) {a n : Nat} (inLine : a % 64 + (n + 1) ≤ 64) :
    m.readFor own a (n + 1) = m.readFor own a 1 + 256 * m.readFor own (a + 1) n := by
  cases n with
  | zero =>
    have none_ : m.readFor own (a + 1) 0 = 0 := by rw [Sram.readFor, readLe]; exact ite_self _
    rw [none_]
    rfl
  | succ n =>
    simp only [Sram.readFor, m.ownerOf_congr (show (a + 1) / 64 = a / 64 by omega), readLe]
    split <;> rfl

theorem Sram.readFor_congr {m m' : Sram} {own : BitVec 12} {a n : Nat} (inLine : a % 64 + n ≤ 64)
    (same : ∀ i, i < n → m'.readFor own (a + i) 1 = m.readFor own (a + i) 1) : m'.readFor own a n = m.readFor own a n := by
  induction n generalizing a with
  | zero => simp [Sram.readFor, readLe]
  | succ n ih =>
    rw [Sram.readFor_succ _ _ inLine, Sram.readFor_succ _ _ inLine, show m'.readFor own a 1 = m.readFor own a 1 from same 0 (by omega)]
    cases n with
    | zero => simp [Sram.readFor, readLe]
    | succ n => rw [ih (by omega) fun i hi => by rw [Nat.add_right_comm, Nat.add_assoc]; exact same (i + 1) (by omega)]

/-! ## One element stored -/

section StoreAt

variable (m : Sram) {own : BitVec 12} {o n v a : Nat}

theorem Sram.ownerOf_storeAt_outside (far : a / 64 ≠ o / 64) : (m.storeAt own o n v).ownerOf a = m.ownerOf a :=
  Sram.ownerOf_claim_outside far

theorem Sram.readFor_storeAt_same (hv : v < 256 ^ n) : (m.storeAt own o n v).readFor own o n = v := by
  have owned : (m.storeAt own o n v).ownerOf o = own := Sram.ownerOf_claim m o own
  rw [Sram.readFor, if_pos owned, Sram.storeAt, readLe_writeLe_same, Nat.mod_eq_of_lt hv]

theorem Sram.readFor_storeAt_outside (outside : a < o ∨ o + n ≤ a) : (m.storeAt own o n v).readFor own a 1 = m.readFor own a 1 := by
  rw [← Sram.readFor_claim (m := m) (off := o)]
  simp only [Sram.readFor, readLe_one, Sram.storeAt, writeLe_outside _ _ _ _ _ outside]
  rfl

theorem Sram.readFor_storeAt_apart {b k : Nat} (inLine : b % 64 + k ≤ 64) (apart : b + k ≤ o ∨ o + n ≤ b) :
    (m.storeAt own o n v).readFor own b k = m.readFor own b k :=
  Sram.readFor_congr inLine fun _ _ => m.readFor_storeAt_outside (by omega)

theorem Sram.get_storeAt_elsewhere (inLine : o % 64 + n ≤ 64) (far : a / 64 ≠ o / 64) :
    Tab.get (0 : Byte) (m.storeAt own o n v).cells a = Tab.get 0 m.cells a := by
  rw [Sram.storeAt, writeLe_outside _ _ _ _ _ (by omega), Sram.get_claim_outside _ _ _ far]

end StoreAt

/-! ## Elements stored one after another -/

/-- R218: elements of n bytes with values val stored at offsets o, for the lanes of a list in its order. -/
def Sram.storeAll (m : Sram) (own : BitVec 12) (n : Nat) (o val : Nat → Nat) (l : List Nat) : Sram :=
  l.foldl (fun r i => r.storeAt own (o i) n (val i)) m

theorem Sram.storeLanes_eq (m : Sram) {a : Access} {o : Nat → Nat} {l : List Nat} (elems : a.elems = l.map (fun i => (o i, i))) :
    m.storeLanes a = m.storeAll a.owner a.esize o (lane a.data a.esize) l := by
  rw [Sram.storeLanes, elems, List.foldl_map]
  rfl

/-- What such stores leave of a memory, as its owner reads it. -/
structure Sram.LanesStored (m m' : Sram) (own : BitVec 12) (n : Nat) (o val : Nat → Nat) (l : List Nat) : Prop where
  stored : ∀ i ∈ l, (∀ j ∈ l, i < j → o j ≠ o i) → m'.readFor own (o i) n = val i
  others : ∀ a, (∀ i ∈ l, a < o i ∨ o i + n ≤ a) → m'.readFor own a 1 = m.readFor own a 1
  elsewhere : ∀ a, (∀ i ∈ l, a / 64 ≠ o i / 64) → Tab.get (0 : Byte) m'.cells a = Tab.get 0 m.cells a
  tags : ∀ w, m'.tagFor own w = m.tagFor own w

/-- R218: of aligned elements that are stored in ascending order of their lanes the last one at an offset stands there. -/
theorem Sram.lanesStored_storeAll (m : Sram) (own : BitVec 12) {n : Nat} {o val : Nat → Nat} {l : List Nat} (order : l.Pairwise (· < ·))
    (aligned : ∀ i ∈ l, o i % n = 0 ∧ o i % 64 + n ≤ 64) (fits : ∀ i, val i < 256 ^ n) :
    m.LanesStored (m.storeAll own n o val l) own n o val l := by
  induction l using List.reverseRecOn with
  | nil => exact ⟨fun i hi => absurd hi List.not_mem_nil, fun _ _ => rfl, fun _ _ => rfl, fun _ => rfl⟩
  | append_singleton l i ih =>
    obtain ⟨sorted, -, last⟩ := List.pairwise_append.mp order
    have earlier (j : Nat) (hj : j ∈ l) : j ∈ l ++ [i] := List.mem_append_left _ hj
    have here : i ∈ l ++ [i] := List.mem_append_right _ (List.mem_singleton_self i)
    obtain ⟨stored, others, elsewhere, tags⟩ := ih sorted fun j hj => aligned j (earlier j hj)
    have step : m.storeAll own n o val (l ++ [i]) = (m.storeAll own n o val l).storeAt own (o i) n (val i) := by
      rw [Sram.storeAll, List.foldl_append]
      rfl
    obtain ⟨mult, inLine⟩ := aligned i here
    rw [step]
    refine ⟨fun j hj unique => ?_, fun a outside => ?_, fun a far => ?_, fun w => ?_⟩
    · rcases List.mem_append.mp hj with before | now
      · have ne : o i ≠ o j := unique i here (last j before i (List.mem_singleton_self i))
        obtain ⟨multJ, inLineJ⟩ := aligned j hj
        have apart : o j + n ≤ o i ∨ o i + n ≤ o j := by
          obtain ⟨x, hx⟩ := Nat.dvd_of_mod_eq_zero mult
          obtain ⟨y, hy⟩ := Nat.dvd_of_mod_eq_zero multJ
          rw [hx, hy] at ne ⊢
          rcases Nat.lt_or_gt_of_ne (fun e : x = y => ne (congrArg _ e)) with less | more
          · exact .inr (by rw [← Nat.mul_succ]; exact Nat.mul_le_mul_left n less)
          · exact .inl (by rw [← Nat.mul_succ]; exact Nat.mul_le_mul_left n more)
        rw [Sram.readFor_storeAt_apart _ inLineJ apart]
        exact stored j before fun q hq => unique q (earlier q hq)
      · rw [List.mem_singleton.mp now]
        exact Sram.readFor_storeAt_same _ (fits i)
    · rw [Sram.readFor_storeAt_outside _ (outside i here)]
      exact others a fun j hj => outside j (earlier j hj)
    · rw [Sram.get_storeAt_elsewhere _ inLine (far i here)]
      exact elsewhere a fun j hj => far j (earlier j hj)
    · rw [← tags w]
      exact Sram.tagFor_claim (m := m.storeAll own n o val l) (off := o i) w

/-! ## Vector stores -/

/-- R216: a vector store at the own SRAM. -/
theorem StoresLanes.retire {s : State} {m' : Sram} {n : Nat} {o : Nat → Nat} {v : Vec} {l : List Nat}
    (stored : s.myCore.sram.LanesStored m' (s.ownerOfHart s.cur) n o (lane v n) l) (log : List StoreRec) (k len : Nat) :
    StoresLanes s ((s.withOwn m' log k).retire s.me len) n (· ∈ l) o v len := by
  obtain ⟨sram, unchanged, me, threads, cores, core⟩ := s.completesOwn_retire m' log k none len
  obtain ⟨x, h⟩ := me.written
  have own : ((s.withOwn m' log k).retire (s.me.writing none) len).sram (.core s.cur.core) = m' := sram
  refine ⟨fun i hi unique => ?_, fun a outside => ?_, fun p a far => ?_, fun w => ?_, me.passed, ?_, threads, cores, core, rfl⟩
  · exact (congrArg (Sram.readFor · _ _ _) sram).trans (stored.stored i hi fun j hj less => unique j less hj)
  · exact (congrArg (Sram.readFor · _ _ _) sram).trans (stored.others a outside)
  · by_cases hp : p = .core s.cur.core
    · subst hp
      exact (congrArg (fun m => Tab.get 0 m.cells a) own).trans (stored.elsewhere a (far.resolve_left (not_not_intro rfl)))
    · exact congrArg (fun m => Tab.get 0 m.cells a) (unchanged p hp)
  · exact (congrArg (Sram.tagFor · _ _) sram).trans (stored.tags w)
  · have kept := me.kept
    rw [x, h] at kept
    exact kept

theorem StoresLanes.congr {s t : State} {n len : Nat} {p q : Nat → Prop} {o : Nat → Nat} {v : Vec} (h : StoresLanes s t n p o v len)
    (same : ∀ i, p i ↔ q i) : StoresLanes s t n q o v len := by
  rwa [← show p = q from funext fun i => propext (same i)]

/-- An aligned element of a width: its offset is a multiple of the width as well (R58). -/
theorem NamesHere.aligned_of_width {s : State} {need : Need} {addr : Word} {e : Width} {o : Nat} (h : NamesHere s need addr (widthBytes e) o) :
    o % widthBytes e = 0 ∧ o % 64 + widthBytes e ≤ 64 := by
  obtain ⟨range, aligned, -⟩ := h
  have same := State.resolveAt_mod (State.resolveRange_resolveAt range)
  cases e <;> simp only [widthBytes] at aligned ⊢ <;> omega

/-- R216, R217: a vector store over n elements. -/
theorem State.vecAccess_store {s : State} {e : Width} {n : Nat} {f : Nat → Word} {o : Nat → Nat} (start : s.me.AtStart)
    (here : LanesHere s .write 1 (widthBytes e) n f o) (data : Vec) (len : Nat) :
    ∃ t, s.vecAccess .store .store (widthBytes e) false data (s.me.elems (widthBytes e) n f) .drop len = .next t ∧
      StoresLanes s t (widthBytes e) (fun i => i < n ∧ active (s.me.getM 0) (widthBytes e) i = true) o data len := by
  obtain ⟨first, run⟩ := State.vecAccess_own (cls := .store) here .store data .drop len
  let a := s.lanesAccess .store .store (widthBytes e) n data first o
  let l := (List.range n).filter (fun i => active (s.me.getM 0) (widthBytes e) i)
  have mem (i : Nat) : i ∈ l ↔ i < n ∧ active (s.me.getM 0) (widthBytes e) i = true := by rw [List.mem_filter, List.mem_range]
  have kind : kindAt (.core s.cur.core) a = 1 := by simp [kindAt, a, State.lanesAccess, mkAccess]
  have plain : (s.numbered.sram (.core s.cur.core)).PlainFor (.core s.cur.core) a := State.ownPlain (s := s) rfl kind here.plainWords
  obtain ⟨q, log, k, bank⟩ := State.bankOp_plain_store (s := s.numbered) plain rfl
  have stores : (s.numbered.sram (.core s.cur.core)).storeLanes a = _ := Sram.storeLanes_eq _ (o := o) (l := l) rfl
  rw [stores] at bank
  have stored := s.myCore.sram.lanesStored_storeAll (s.ownerOfHart s.cur) (n := widthBytes e) (o := o) (val := lane data (widthBytes e)) (l := l)
    (List.pairwise_lt_range.filter _)
    (fun i hi => (here.here i ((mem i).mp hi).1 ((mem i).mp hi).2).1.aligned_of_width) (fun i => by rw [← Nat.pow_mul (a := 2) (m := 8)]; exact lane_lt ..)
  exact ⟨_, run.trans (State.sramAccess_completes start (.inl rfl) rfl bank len), (StoresLanes.retire stored log k len).congr mem⟩

/-- Settles O32: the active elements make one access of plain words, which stores them in the order of their lanes. -/
theorem vectorStores : Obligations.VectorStores := by
  unfold Obligations.VectorStores
  intro s k d a b e col o start n base len act stores nothing
  refine ⟨fun here aligned => ?row, fun here => State.vecAccess_store start here _ _, fun here => State.vecAccess_store start here _ _,
    fun here => ?indexed, fun off => ⟨?none, ?noneStrided⟩, fun off => ?noneIndexed⟩
  case row =>
    have run : exec (.vst k d a b e false) s = s.vecAccess .store .store n (decide (base.toNat % 64 ≠ 0)) (s.me.opV (widthLt e) d)
        (s.me.elems n (64 / n) (lineAddr base n false)) .drop len := rfl
    rw [aligned] at run
    obtain ⟨t, done, lanes⟩ := State.vecAccess_store start here (s.me.opV (widthLt e) d) len
    exact ⟨t, run.trans done, lanes⟩
  case indexed =>
    have addresses (i : Nat) : indexAddr (s.me.opX a) (s.me.opV .i32 b) n i =
        s.me.opX a + BitVec.ofInt 64 ((BitVec.ofNat 32 (lane (s.me.opV .i32 b) 4 i)).toInt * n) := by rw [indexAddr, sext_eq_toInt]
    rw [← funext addresses] at here
    exact State.vecAccess_store start here _ _
  all_goals
    have idle (i : Nat) (hi : i < _) := Bool.eq_false_iff.mpr fun on => off i ⟨hi, on⟩
    exact ⟨_, State.vecAccess_idle idle .., Passes.retire ..⟩

end Sys2Proof.Machine
end

section
/-! SUPPORT. Stream generators and the repeat buffer (R222, R225): O33. -/

namespace Sys2Proof.Machine

/-! ## SG.CFG (R222) -/

/-- R67, R222: the generator that a descriptor at an offset of the own SRAM makes for the thread. -/
def State.genAt (s : State) (off : Nat) : Gen := ⟨some s.cur.th, leBytes 64 (s.myCore.sram.readFor (s.ownerOfHart s.cur) off 64), 0, false⟩

/-- R222: the thread's core once SG.CFG has bound generator g to that descriptor. -/
def State.coreBinding (s : State) (g : Fin 4) (off : Nat) : Core := { s.myCore with gens := s.myCore.gens.set g.val (s.genAt off) }

/-- R222: the access of SG.CFG. -/
def State.descrAccess (s : State) (addr : Word) (off : Nat) : Access :=
  mkAccess s s.cur addr .load .load (.sram (.core s.cur.core)) 64 [(off, 0)] 0 0 true

theorem Gen.heldFrom_iff (g : Gen) (th : Nat) : g.heldFrom th = true ↔ ¬ (g.bound = none ∨ g.bound = some th ∨ g.exhausted = true) := by
  unfold Gen.heldFrom
  cases g.bound <;> simp [not_or]

/-- R58, R221, R222: SG.CFG of a descriptor in the own SRAM. -/
theorem exec_sgCfg {s : State} {a b : Opnd} {off : Nat} (here : NamesHere s .read (s.me.opX a + s.me.opX b) 64 off) (k : Bool) (g : Fin 4) :
    exec (.sgCfg k g a b) s = if s.myCore.gens[g.val].heldFrom s.cur.th then s.streamFault 3 g
      else s.sramAccess (.core s.cur.core) (s.descrAccess (s.me.opX a + s.me.opX b) off) (.cfg g (s.me.opX a + s.me.opX b)) (len2 a b) := by
  obtain ⟨range, aligned, permitted⟩ := here
  change execSgCfg g a b s = _
  simp only [execSgCfg, range, aligned, permitted, ne_eq, not_true_eq_false, Bool.not_true, Bool.false_eq_true, if_false]
  rfl

/-- R67: a descriptor is the 64 bytes of eight words. -/
theorem plainWords_descr {s : State} {addr : Word} {off : Nat} (aligned : off % 8 = 0) (plain : ∀ i, i < 8 → PlainWord s 0 (off / 8 + i)) :
    ∀ w ∈ wordsOf (s.descrAccess addr off).esize (s.descrAccess addr off).elems, PlainWord s 0 w := by
  intro w hw
  obtain ⟨e, mem, low, high⟩ := mem_wordsOf (n := 64) (by decide) hw
  obtain rfl := List.mem_singleton.mp mem
  have place : w = off / 8 + (w - off / 8) := by dsimp only at low; omega
  rw [place]
  exact plain _ (by dsimp only at low high; omega)

/-- R67: the bytes that SG.CFG has read are those of the descriptor. -/
theorem toNat_loadLanes_descr (s : State) (addr : Word) (off : Nat) :
    (s.myCore.sram.loadLanes (s.descrAccess addr off)).toNat = s.myCore.sram.readFor (s.ownerOfHart s.cur) off 64 := by
  have fits := s.myCore.sram.readFor_lt_two_pow (s.ownerOfHart s.cur) off 64
  have loads : s.myCore.sram.loadLanes (s.descrAccess addr off) = BitVec.ofNat 512 (s.myCore.sram.readFor (s.ownerOfHart s.cur) off 64) := by
    simp [Sram.loadLanes, State.descrAccess, mkAccess]
  have whole (w x : Nat) (hx : x < 2 ^ w) : (BitVec.ofNat w x).toNat = x := Nat.mod_eq_of_lt hx
  rw [loads]
  exact whole (8 * 64) _ fits

theorem State.Read.me_coreBinding {s r : State} (read : s.Read r) (g : Fin 4) (off : Nat) : (r.numbered.setMyCore (s.coreBinding g off)).me = s.me := by
  have threads : (s.coreBinding g off).threads = r.numbered.myCore.threads := by
    rw [show r.numbered.myCore = s.myCore from read.myCore]
    rfl
  exact (State.me_setMyCore threads).trans read.me

section Cfg

variable {s r : State} {off : Nat} {g : Fin 4} {addr : Word} {v : BitVec 512} (start : s.me.AtStart) (read : s.Read r)
  (value : v.toNat = s.myCore.sram.readFor (s.ownerOfHart s.cur) off 64) (free : s.myCore.gens[g.val].heldFrom s.cur.th = false)
include start read value free

/-- R222: with the descriptor read, SG.CFG binds the generator, or it faults. -/
theorem State.finishAccess_cfg (len : Nat) : (r.numbered.setMyCore r.myCore).finishAccess s.cur (.cfg g addr) v len =
    if s.myCore.descrOk s.cur.th g (s.genAt off) then
      (r.numbered.setMyCore (s.coreBinding g off)).retire s.me len
    else (r.numbered.setMe s.me).trap s.cur 36 addr := by
  let x := r.numbered.setMyCore r.myCore
  have cur : r.cur = s.cur := read.cur_eq
  have core : x.core s.cur.core = s.myCore := by
    rw [← cur, ← read.myCore]
    exact State.core_setCore_same ..
  have me : x.thread s.cur = s.me := by
    rw [← cur, ← read.me]
    exact State.me_setMyCore (s := r.numbered) rfl
  rw [State.finishAccess]
  dsimp only
  rw [core, free, if_neg Bool.false_ne_true, value, me]
  change (if s.myCore.descrOk s.cur.th g (s.genAt off) then _ else _) = _
  by_cases ok : s.myCore.descrOk s.cur.th g (s.genAt off) = true
  · rw [if_pos ok, if_pos ok]
    let y := r.numbered.setMyCore (s.coreBinding g off)
    have bound : x.setCore s.cur.core (s.coreBinding g off) = y := by rw [← cur]; exact State.setCore_setCore ..
    have mine : y.me = s.me := read.me_coreBinding g off
    have done := State.finishThread_atStart (s := y) (f := .cfg g addr) (v := v) (mine ▸ start) rfl rfl rfl rfl len
    rw [show y.cur = s.cur from cur, show y.me.finish (.cfg g addr) v = y.me from rfl, mine] at done
    exact (congrArg (fun u : State => u.finishThread s.cur (.cfg g addr) v len) bound).trans done
  · rw [if_neg ok, if_neg ok]
    obtain ⟨run, noPend, -, -⟩ := start
    have same : { s.me with pend := none, status := .run } = s.me := by rw [← run, ← noPend]
    rw [same, ← cur]
    exact congrArg (fun u : State => u.trap r.cur 36 addr) (r.numbered.setMe_setMyCore_same s.me)

end Cfg

section Reads

variable {s : State} {a b : Opnd} {off : Nat} {g : Fin 4} (start : s.me.AtStart) (here : NamesHere s .read (s.me.opX a + s.me.opX b) 64 off)
  (plain : ∀ i, i < 8 → PlainWord s 0 (off / 8 + i)) (free : s.myCore.gens[g.val].heldFrom s.cur.th = false)
include start here plain free

/-- R222: SG.CFG of a generator that no other thread holds reads its descriptor and binds it, or faults. -/
theorem exec_sgCfg_reads (k : Bool) :
    ∃ r, s.Read r ∧ exec (.sgCfg k g a b) s = .next (if s.myCore.descrOk s.cur.th g (s.genAt off) then
        (r.numbered.setMyCore (s.coreBinding g off)).retire s.me (len2 a b)
      else (r.numbered.setMe s.me).trap s.cur 36 (s.me.opX a + s.me.opX b)) := by
  let x := s.descrAccess (s.me.opX a + s.me.opX b) off
  have inWord : off % 8 = 0 := by
    have same := State.resolveAt_mod (State.resolveRange_resolveAt here.1)
    have aligned := here.2.1
    omega
  obtain ⟨r, q, read, served⟩ := State.serve_own_load (s := s) (a := x) rfl (kindAt_own (a := x) rfl) rfl (plainWords_descr inWord plain)
  refine ⟨r, read, ?_⟩
  rw [exec_sgCfg here, free, if_neg Bool.false_ne_true]
  refine (State.sramAccess_answered (a := x) rfl served).trans (congrArg _ ?_)
  exact State.finishAccess_cfg start read (toNat_loadLanes_descr ..) free (len2 a b)

theorem exec_sgCfg_binds (ok : s.myCore.descrOk s.cur.th g (s.genAt off) = true) (k : Bool) :
    ∃ r t, s.Read r ∧ exec (.sgCfg k g a b) s = .next t ∧
      Passes (r.numbered.setMyCore { r.numbered.myCore with gens := s.myCore.gens.set g.val (s.genAt off) }) t (len2 a b) := by
  obtain ⟨r, read, run⟩ := exec_sgCfg_reads start here plain free k
  have core : r.numbered.myCore = s.myCore := read.myCore
  have passes := Passes.retire (r.numbered.setMyCore (s.coreBinding g off)) (len2 a b)
  rw [read.me_coreBinding] at passes
  rw [if_pos ok] at run
  refine ⟨r, _, read, run, ?_⟩
  rw [core]
  exact passes

theorem exec_sgCfg_malformed (bad : s.myCore.descrOk s.cur.th g (s.genAt off) = false) (k : Bool) :
    ∃ s' : State, exec (.sgCfg k g a b) s = s'.trapMe 36 (s.me.opX a + s.me.opX b) ∧ s'.me = s.me ∧ s'.myCore.gens = s.myCore.gens := by
  obtain ⟨r, read, run⟩ := exec_sgCfg_reads start here plain free k
  have core : (r.numbered.setMe s.me).myCore = _ := State.core_setCore_same ..
  rw [bad, if_neg Bool.false_ne_true] at run
  refine ⟨r.numbered.setMe s.me, run.trans ?_, State.me_setMe .., ?_⟩
  · rw [State.trapMe, show (r.numbered.setMe s.me).cur = s.cur from read.cur_eq]
  · have gens : r.myCore.gens = s.myCore.gens := by rw [read.myCore]
    rw [core]
    exact gens

end Reads

/-! ## SG.IDX and SG.STOP -/

theorem exec_sgIdx (k : Bool) (d : Fin 32) (g : Fin 4) (s : State) : exec (.sgIdx k d g) s =
    if s.myCore.gens[g.val].bound ≠ some s.cur.th then s.streamFault 0 g
    else .next (s.retire (s.me.setX d (BitVec.ofNat 64 s.myCore.gens[g.val].n)) 4) := rfl

theorem exec_sgStop (k : Bool) (g : Fin 4) (s : State) : exec (.sgStop k g) s =
    if s.myCore.gens[g.val].bound ≠ some s.cur.th then s.streamFault 0 g
    else
      let s' := s.setMyCore { s.myCore with gens := s.myCore.gens.set g.val { s.myCore.gens[g.val] with bound := none, exhausted := true } }
      .next (s'.retire s'.me 4) := rfl

/-! ## REP (R225) -/

/-- R225: a body that may be repeated is captured, or passed over. -/
theorem exec_rep_captures {s s' : State} {a b : Opnd} {body : List (List Half)}
    (fetched : s.fetchBody s.cur (s.me.pc + BitVec.ofNat 64 (len2 a b)) (s.me.opX b).toNat [] = .inr (body, s'))
    (ok : ¬ (2 ^ 32 ≤ (s.me.opX a).toNat ∨ (s.me.opX b).toNat = 0 ∨ 16 < (s.me.opX b).toNat ∨ s.me.user.h = true))
    (short : (halfBytes body.flatten).length ≤ 128) (allowed : body.any badInBody = false) (k : Bool) :
    let start := s.me.pc + BitVec.ofNat 64 (len2 a b)
    let n := (s.me.opX a).toNat
    exec (.rep k a b) s = .next (s'.setMe { s'.me with
      retired := s'.me.retired + 1
      pc := if n = 0 then start + BitVec.ofNat 64 (halfBytes body.flatten).length else start
      rep := if n = 0 then s'.me.rep else some ⟨start, halfBytes body.flatten, (s.me.opX b).toNat, n, s.me.level, start⟩ }) := by
  intro start n
  change execRep a b s = _
  have good : ¬ (128 < (halfBytes body.flatten).length ∨ body.any badInBody = true) := by
    rw [allowed]
    exact fun h => h.elim (fun long => absurd short (Nat.not_le.mpr long)) Bool.false_ne_true
  rw [execRep]
  dsimp only
  rw [if_neg ok, fetched]
  dsimp only
  rw [if_neg good]
  by_cases zero : n = 0
  · rw [if_pos zero, if_pos zero, if_pos zero]
  · rw [if_neg zero, if_neg zero, if_neg zero]

theorem exec_rep_faults {s : State} {a b : Opnd}
    (bad : 2 ^ 32 ≤ (s.me.opX a).toNat ∨ (s.me.opX b).toNat = 0 ∨ 16 < (s.me.opX b).toNat ∨ s.me.user.h = true) (k : Bool) :
    exec (.rep k a b) s = s.repFault :=
  if_pos bad

/-- Settles O33: SG.CFG is a load of a descriptor and its check; the others look at the generators of their core. -/
theorem generatorsAndRepeat : Obligations.GeneratorsAndRepeat := by
  unfold Obligations.GeneratorsAndRepeat
  intro s k g r a b off addr gens bound free setGen fault n count start
  have held := gens[g.val].heldFrom_iff s.cur.th
  refine ⟨fun atStart here plain isFree => ?cfg, fun here taken => ?taken, fun mine => ⟨?idx, ?stop⟩, fun other => ?other,
    ?rep, fun bad => ?fault⟩
  case cfg =>
    have notHeld : gens[g.val].heldFrom s.cur.th = false := Bool.eq_false_iff.mpr fun h => held.mp h isFree
    exact ⟨fun ok => exec_sgCfg_binds atStart here plain notHeld ok k, fun bad => exec_sgCfg_malformed atStart here plain notHeld bad k⟩
  case taken =>
    rw [exec_sgCfg here, if_pos (held.mpr taken)]
    rfl
  case idx =>
    rw [exec_sgIdx, if_neg (not_not_intro mine)]
    exact ⟨_, rfl, WritesX.retire0 ..⟩
  case stop =>
    rw [exec_sgStop, if_neg (not_not_intro mine)]
    exact ⟨_, rfl, Passes.retire ..⟩
  case other =>
    intro i hi
    rcases List.mem_pair.mp hi with rfl | rfl
    · exact (exec_sgIdx ..).trans (if_pos other)
    · exact (exec_sgStop ..).trans (if_pos other)
  case rep =>
    intro small some_ few user body s' fetched bytes short allowed
    have ok : ¬ (2 ^ 32 ≤ n ∨ count = 0 ∨ 16 < count ∨ s.me.user.h = true) := by
      rw [user]
      rintro (big | none_ | many | handler)
      · omega
      · omega
      · omega
      · exact Bool.false_ne_true handler
    exact ⟨_, exec_rep_captures fetched ok short allowed k, rfl⟩
  case fault =>
    exact ⟨_, Nat.mod_lt _ (by decide), exec_rep_faults bad k⟩

end Sys2Proof.Machine
end

section
/-! SUPPORT. Elements of a stream whose first claims a line on which an access is parked (R70, R75, R81, R223): O34. -/

namespace Sys2Proof.Machine

/-! ## What refutes the statement -/

/-- The count of instructions that the current thread has retired, where a step goes on. -/
def retiredAfter : Result → Option Word
  | .next t => some t.me.retired
  | _ => none

/-- Generator 0 of the current thread's core, direct and bound to the thread, has two elements left of 4 bytes, and the thread is at the start of an
instruction. -/
structure PairReady (s : State) : Prop where
  whole : s.split = false
  run : s.me.status = .run
  pend : s.me.pend = none
  late : s.me.late = []
  bound : s.myCore.gens[(0 : Fin 4).val].bound = some s.cur.th
  more : s.myCore.gens[(0 : Fin 4).val].exhausted = false
  direct : s.myCore.gens[(0 : Fin 4).val].indirect = false
  gathered : s.me.gathered = []
  pair : min (64 / s.myCore.gens[(0 : Fin 4).val].esize) (s.myCore.gens[(0 : Fin 4).val].total - s.myCore.gens[(0 : Fin 4).val].n) = 2

/-- A word is not its own successor. -/
theorem ne_add_one (x : Word) : x ≠ x + 1 := by bv_omega

/-- Two elements that stand in one plain word refute O34 where SWRITE of them does not complete. -/
theorem not_streamElements_of_waits {s : State} (ready : PairReady s) (plain : PlainWord s 7 0)
    (names : ∀ i, i < 2 → NamesHere s .write (s.myCore.gens[(0 : Fin 4).val].address (s.myCore.gens[(0 : Fin 4).val].n + i)) s.myCore.gens[(0 : Fin 4).val].esize (4 * i))
    (waits : retiredAfter (exec (.swrite false 0 (.reg 0)) s) = some s.me.retired) : ¬ Obligations.StreamElements := by
  unfold Obligations.StreamElements
  intro h
  obtain ⟨whole, run, pend, late, bound, more, direct, gathered, pair⟩ := ready
  obtain ⟨-, -, writes⟩ := h s false 0 0 (.reg 0) (4 * ·) whole run pend late bound more
  obtain ⟨t, done, stores⟩ := writes direct gathered fun i hi => by
    have below : i < 2 := hi.trans_eq pair
    have word : 4 * i / 8 = 0 := by omega
    exact ⟨names i below, word ▸ plain⟩
  have same : t.me.retired = s.me.retired := Option.some.inj (by rw [done] at waits; exact waits)
  have next : t.me.retired = s.me.retired + 1 :=
    stores.passed.retired.trans (congrArg (fun u : Thread => u.retired + 1) (State.me_setMyCore (s := s) rfl))
  exact ne_add_one _ (same.symm.trans next)

/-! ## The counterexample -/

/-- A generator of thread 0 with two elements of 4 bytes each, at addresses 0 and 4. -/
def pairGen : Gen := ⟨some 0, leBytes 64 (2 ^ 64 * 2 + 2 ^ 96 + 2 ^ 128 + 2 ^ 160 + 2 ^ 192 * 4 + 2 ^ 448 * 2), 0, false⟩

/-- A load of thread 1, of the owner before, that waits on the first word of core 0's SRAM. -/
def waitingLoad : Parked where
  access := { mkAccess State.reset ⟨0, 1⟩ 0 .load .load (.sram (.core 0)) 8 [(0, 0)] 0 0 false with owner := 5 }
  bank := 0
  word := 0
  woken := false

/-- The machine after bring-up, but that thread 0 of core 0 has that generator, and the first line of the core's SRAM is another owner's, with a tag of
1 on its first word and the load parked there. -/
def claimedOver : State :=
  { State.reset with
    cur := ⟨0, 0⟩
    cores := [(0, { Core.init with
      threads := [(0, { Thread.init .u with status := .run })]
      gens := Core.init.gens.set 0 pairGen
      sram := { Sram.init with tags := [(0, 1)], owners := [(0, 5)], parks := [waitingLoad] } })] }

theorem claimedOver_ready : PairReady claimedOver := by
  constructor <;> decide +kernel

theorem claimedOver_names : ∀ i, i < 2 → NamesHere claimedOver .write (claimedOver.myCore.gens[(0 : Fin 4).val].address (claimedOver.myCore.gens[(0 : Fin 4).val].n + i)) claimedOver.myCore.gens[(0 : Fin 4).val].esize (4 * i) := by
  unfold NamesHere
  decide +kernel

theorem claimedOver_plain : PlainWord claimedOver 7 0 := ⟨⟨by decide +kernel, by decide +kernel⟩, by decide +kernel⟩

/-- R81: the store of the second element waits behind the load that the first has woken, and SWRITE does not complete. -/
theorem claimedOver_waits : retiredAfter (exec (.swrite false 0 (.reg 0)) claimedOver) = some claimedOver.me.retired := by decide +kernel

/-- Refutes O34: both elements of an SWRITE name a word that passes, but the store of the first takes the line over from another owner, which sets its
tags to 0 (R70) and so wakes the load that is parked on the word (R75, R81). That load is to be re-checked first, so the second element waits, and
SWRITE does not complete within the step. -/
theorem not_streamElements : ¬ Obligations.StreamElements :=
  not_streamElements_of_waits claimedOver_ready claimedOver_plain claimedOver_names claimedOver_waits

end Sys2Proof.Machine
end

section
/-! SUPPORT. Matrix commands at issue (R226 to R240, R243, R244): O35. -/

namespace Sys2Proof.Machine

/-! ## The gate of the engine -/

/-- R243: a drain or spill thread issues no command. -/
theorem State.engineGate_closed {s : State} (h : isDrain s.cur = true ∨ isSpill s.cur = true) (f : Result) : s.engineGate f = s.trapMe 39 7 :=
  if_pos (by simpa using h)

/-- R228: a deferred fault comes before the instruction. -/
theorem State.engineGate_deferred {s : State} (hdrain : isDrain s.cur = false) (hspill : isSpill s.cur = false) {f : Deferred}
    (hf : s.me.deferred = some f) (r : Result) :
    s.engineGate r = .next ((s.setMe { s.me with deferred := none }).trap s.cur f.cause f.value f.utag) := by
  simp only [State.engineGate, State.takeDeferred, hdrain, hspill, hf, Bool.or_self, Bool.false_eq_true, if_false]

/-- R243: every instruction of the matrix engine stands behind the gate. -/
theorem exec_matrix_gated {i : Instr} {k : Bool} {z : Fin 4} {a b : Opnd} {mf : MFmt}
    (h : i ∈ [Instr.mxCfg k a b mf, .mxLdw k a b, .mxSwap k, .mxDup k a, .mxStream k z a b, .mxZero k z, .mxDrain k z a b, .mxWait k])
    (s : State) : ∃ r, exec i s = s.engineGate r := by
  simp only [List.mem_cons, List.not_mem_nil, or_false] at h
  rcases h with rfl | rfl | rfl | rfl | rfl | rfl | rfl | rfl <;> exact ⟨_, rfl⟩

/-! ## The checks of a command -/

/-- R228, R62: n bytes at an address are an operand that a command may read: they lie in the user range of the thread's own core, the address is
aligned to 8, and the banks have the format expected. -/
structure State.OperandAt (s : State) (fmts : Vector (BitVec 4) 16) (want n : Nat) (p : Word) : Prop where
  own : s.ownFail s.cur p n = none
  aligned : p.toNat % 8 = 0
  format : s.formatFail s.cur fmts want p n = none

/-- R228: the range checks of a list of rows and of what is read beside them. -/
theorem firstSome_append_eq_none {α : Type} {l : List (Option α)} {o : Option α} (hl : firstSome l = none) (ho : o = none) :
    firstSome (l ++ [o]) = none := by
  rw [firstSome_eq_none_iff] at hl ⊢
  exact List.forall_mem_append.mpr ⟨hl, List.forall_mem_singleton.mpr ho⟩

/-- R228: the checks of rows, each of which passes. -/
theorem firstSome_rows_eq_none {n : Nat} {row : Nat → Word} {fail : Word → Option Word} (h : ∀ i, i < n → fail (row i) = none) :
    firstSome (((List.range n).map row).map fail) = none :=
  firstSome_eq_none_iff.mpr (by simpa using h)

/-- R233, R234: columns follow one another where CSTRIDE is 0, which no tail has. -/
theorem columnAt_eq {b : Word} (stride : bit b 21 = true → bits b 32 32 ≠ 0) (mf : Nat) (cfg : BitVec 6) (a : Word) (n : Nat) :
    columnAt mf cfg a b n = a + BitVec.ofNat 64 (n * (if bits b 32 32 = 0 then columnBytes mf cfg else bits b 32 32)) := by
  unfold columnAt
  cases tail : bit b 21 with
  | false => simp
  | true => simp [stride tail]

/-- R228, R233, R234: an MX.LDW whose columns, scales and control word are well formed. -/
theorem State.ldwFail_eq_none {s : State} {c : Cmd} (hart : c.hart = s.cur)
    (columns : ∀ i, i < 32 → s.OperandAt c.fmts (bankFmtOf c.mf) (if bit c.opB 21 then 1 else columnBytes c.mf c.cfg) (columnAt c.mf c.cfg c.opA c.opB i))
    (scales : bits c.opB 0 21 = 0 ∨ s.ownFail s.cur (BitVec.ofNat 64 (bits c.opB 0 21)) 32 = none) (reserved : bits c.opB 24 8 = 0)
    (scaled : bits c.opB 0 21 ≠ 0 → 2 ≤ c.mf) (tail : bit c.opB 21 = true → bits c.opB 32 32 ≠ 0 ∧ sparseOf c.cfg = 0) :
    s.ldwFail c = none := by
  obtain ⟨ranges, aligned⟩ := rows_pass (n := 32) (size := 8) (s.ownFail s.cur · _) fun i hi => ⟨(columns i hi).own, (columns i hi).aligned⟩
  have formats := firstSome_rows_eq_none (fail := (s.formatFail s.cur c.fmts (bankFmtOf c.mf) · _)) fun i hi => (columns i hi).format
  have word : (!zeroBits c.opB 24 8 || (decide (bits c.opB 0 21 ≠ 0) && decide (c.mf ≤ 1)) ||
      (bit c.opB 21 && (decide (bits c.opB 32 32 = 0) || decide (sparseOf c.cfg ≠ 0)))) = false := by
    have mf : bits c.opB 0 21 ≠ 0 → ¬ c.mf ≤ 1 := fun h => by have := scaled h; omega
    simpa [zeroBits, reserved, -not_le] using ⟨fun h => not_le.mp (mf h), tail⟩
  unfold State.ldwFail
  rw [hart]
  refine firstSome_eq_none_iff.mpr ?_
  simp only [List.forall_mem_cons, List.not_mem_nil, false_implies, implies_true, and_true]
  exact ⟨congrArg (Option.map _) (firstSome_append_eq_none ranges (ite_eq_left_iff.mpr scales.resolve_left)), congrArg (Option.map _) aligned,
    if_neg (Bool.eq_false_iff.mp word), congrArg (Option.map _) formats⟩

/-- R228, R238, R239: an MX.STREAM whose rows, scales and control word are well formed, under the scale record of its tile. -/
theorem State.streamFail_eq_none {s : State} {e : Engine} {z : Nat} {c : Cmd} (hart : c.hart = s.cur)
    (rows : ∀ i, i < streamRows c.opB → s.OperandAt c.fmts (bankFmtOf (actFmt e.mf e.cfg)) (rowBytes e.mf e.cfg) (streamRowAt e.mf e.cfg c.opA c.opB i))
    (scales : bits c.opB 32 21 = 0 ∨ s.ownFail s.cur (BitVec.ofNat 64 (bits c.opB 32 21 + streamRow0 c.opB)) (streamRows c.opB) = none)
    (high : bits c.opB 53 11 = 0) (low : bits c.opB 11 5 = 0) (some_ : 1 ≤ streamRows c.opB) (fits : streamRow0 c.opB + streamRows c.opB ≤ 32)
    (scaled : bits c.opB 32 21 ≠ 0 → 2 ≤ actFmt e.mf e.cfg)
    (record : ∀ r, e.scaleRec z = some r → r.woff = e.active.soff ∧ r.aoff.toNat = bits c.opB 32 21) : s.streamFail e z c = none := by
  obtain ⟨ranges, aligned⟩ := rows_pass (size := 8) (s.ownFail s.cur · _) fun i hi => ⟨(rows i hi).own, (rows i hi).aligned⟩
  have formats := firstSome_rows_eq_none (fail := (s.formatFail s.cur c.fmts (bankFmtOf (actFmt e.mf e.cfg)) · _)) fun i hi => (rows i hi).format
  have word : (!zeroBits c.opB 53 11 || !zeroBits c.opB 11 5 || decide (streamRows c.opB = 0) ||
      decide (32 < streamRow0 c.opB + streamRows c.opB) || (decide (bits c.opB 32 21 ≠ 0) && decide (actFmt e.mf e.cfg ≤ 1))) = false := by
    have af : bits c.opB 32 21 ≠ 0 → ¬ actFmt e.mf e.cfg ≤ 1 := fun h => by have := scaled h; omega
    simpa [zeroBits, high, low] using ⟨⟨by omega, fits⟩, fun h => not_le.mp (af h)⟩
  unfold State.streamFail
  rw [hart]
  refine firstSome_eq_none_iff.mpr ?_
  simp only [List.forall_mem_cons, List.not_mem_nil, false_implies, implies_true, and_true]
  refine ⟨congrArg (Option.map _) (firstSome_append_eq_none ranges (ite_eq_left_iff.mpr scales.resolve_left)), congrArg (Option.map _) aligned,
    if_neg (Bool.eq_false_iff.mp word), congrArg (Option.map _) formats, ?_⟩
  cases tile : e.scaleRec z with
  | none => rfl
  | some r =>
    obtain ⟨woff, aoff⟩ := record r tile
    simp [woff, aoff]

/-! ## The statement -/

/-- R227: past the gate, a command whose checks pass. -/
theorem State.issueCmd_pass {s : State} {i : Instr} {c : Cmd} {fail : Option (Nat × Word)} (gate : ∀ f, s.engineGate f = f)
    (run : exec i s = s.engineGate (s.issueCmd fail c)) (pass : fail = none) : EntersOrWaits s i c :=
  State.issueCmd_enters (by rw [run, gate, pass])

/-- R228: past the gate, a command that fails a check. -/
theorem State.issueCmd_fault {s : State} {i : Instr} {c : Cmd} {fail : Option (Nat × Word)} {cause : Nat} {v : Word}
    (gate : ∀ f, s.engineGate f = f) (room : s.myCore.queue.length < 2) (run : exec i s = s.engineGate (s.issueCmd fail c))
    (bad : fail = some (cause, v)) : exec i s = s.trapMe cause v := by
  rw [run, gate, bad, State.issueCmd_fails room]

/-- Settles O35: past the gate of the engine each command issues as its checks answer; before it every one of them meets the gate. -/
theorem matrixIssue : Obligations.MatrixIssue := by
  unfold Obligations.MatrixIssue
  intro s k z a b mf x w h e gate cmd enters good cs colBytes col rs rowLen row bad
  refine ⟨fun ⟨hdrain, hspill, hf⟩ => ?_, fun i hi => ⟨fun closed => ?closed, fun hdrain hspill f hf => ?deferred⟩⟩
  case closed =>
    obtain ⟨r, run⟩ := exec_matrix_gated hi s
    exact run.trans (State.engineGate_closed closed r)
  case deferred =>
    obtain ⟨r, run⟩ := exec_matrix_gated hi s
    exact run.trans (State.engineGate_deferred hdrain hspill hf r)
  have pass := State.engineGate_open hdrain hspill hf
  refine ⟨State.issueCmd_pass pass rfl rfl, State.issueCmd_pass pass rfl rfl, ?cfg, ?cfgBad, ?ldw, ?dup, ?stream, ?drain, ?wait, ?waits⟩
  case cfg =>
    intro reserved ok
    have formed : (zeroBits w 6 58 && cfgOk mf.code (w.setWidth 6) x) = true := by simp [zeroBits, reserved, ok]
    exact State.issueCmd_pass pass rfl (if_pos formed)
  case cfgBad =>
    intro room malformed
    have fails : (zeroBits w 6 58 && cfgOk mf.code (w.setWidth 6) x) = false := by simpa [zeroBits, or_iff_not_imp_left] using malformed
    exact State.issueCmd_fault pass room rfl (if_neg (Bool.eq_false_iff.mp fails))
  case ldw =>
    intro columns scales reserved scaled tail
    refine State.issueCmd_pass pass rfl (State.ldwFail_eq_none rfl (fun i hi => ?_) scales reserved scaled tail)
    have place : columnAt e.mf e.cfg x w i = col i := columnAt_eq (fun t => (tail t).1) _ _ _ _
    obtain ⟨own, aligned, format⟩ := columns i hi
    rw [← place] at own aligned format
    exact ⟨own, aligned, format⟩
  case dup => exact fun own aligned => State.issueCmd_pass pass rfl (by simp [own, aligned, x, h])
  case stream =>
    intro rows scales high low some_ fits scaled record
    exact State.issueCmd_pass pass rfl (State.streamFail_eq_none rfl
      (fun i hi => have ⟨own, aligned, format⟩ := rows i hi; ⟨own, aligned, format⟩) scales high low some_ fits scaled record)
  case drain =>
    intro rows reserved
    obtain ⟨ranges, aligned⟩ := rows_pass (s.rangeFail h · 128) rows
    refine State.issueCmd_pass pass rfl (firstSome_eq_none_iff.mpr ?_)
    simp only [List.forall_mem_cons, List.not_mem_nil, false_implies, implies_true, and_true]
    exact ⟨congrArg (Option.map _) ranges, congrArg (Option.map _) aligned, if_pos (decide_eq_true reserved)⟩
  case wait => exact fun idle => ⟨_, (pass _).trans (if_neg (by simp [idle, h])), Passes.retire s 4⟩
  case waits =>
    intro busy
    obtain ⟨t, run, waits⟩ := Waits.block s .engine
    exact ⟨t, ((pass _).trans (if_pos busy)).trans run, waits⟩

end Sys2Proof.Machine
end

section
/-! SUPPORT. Tiles, and what MX.STREAM and MX.ZERO leave in them (R226, R237, R238): O38. -/

namespace Sys2Proof.Machine

/-! ## Tables made of parts -/

theorem Tab.find?_append {α : Type} (t u : Tab α) (k : Nat) : Tab.find? (t ++ u) k = (Tab.find? t k).or (Tab.find? u k) := by
  induction t with
  | nil => rfl
  | cons q t ih =>
    obtain ⟨j, v⟩ := q
    simp only [List.cons_append, Tab.find?]
    split
    · rfl
    · exact ih

/-- The part of a table whose keys a condition names. -/
theorem Tab.find?_filter_key {α : Type} (p : Nat → Bool) (t : Tab α) (k : Nat) :
    Tab.find? (t.filter (fun q => p q.1)) k = if p k then Tab.find? t k else none := by
  induction t with
  | nil => simp [Tab.find?]
  | cons q t ih =>
    obtain ⟨j, v⟩ := q
    by_cases same : k = j
    · subst same
      cases named : p k <;> simp [Tab.find?, named, ih]
    · cases named : p j <;> simp [Tab.find?, named, same, ih]

/-- A table whose keys are moved up. -/
theorem Tab.find?_shift {α : Type} (base : Nat) (t : Tab α) (k : Nat) :
    Tab.find? (t.map (fun q => (base + q.1, q.2))) k = if base ≤ k then Tab.find? t (k - base) else none := by
  induction t with
  | nil => simp [Tab.find?]
  | cons q t ih =>
    obtain ⟨j, v⟩ := q
    simp only [List.map_cons, Tab.find?, ih]
    by_cases here : base ≤ k
    · have moved : k = base + j ↔ k - base = j := by omega
      simp only [moved, if_pos here]
    · rw [if_neg here, if_neg here, if_neg (by omega)]

theorem Tab.find?_tabOf {α : Type} [DecidableEq α] (d : α) (n : Nat) (f : Nat → α) (k : Nat) :
    Tab.find? (tabOf d n f) k = if k < n ∧ f k ≠ d then some (f k) else none := by
  induction n with
  | zero => simp [tabOf, Tab.find?]
  | succ n ih =>
    have last : tabOf d (n + 1) f = tabOf d n f ++ if f n ≠ d then [(n, f n)] else [] := by
      simp only [tabOf, List.range_succ, List.map_append, List.filter_append, List.map_cons, List.map_nil, List.filter_singleton, Bool.cond_decide]
    rw [last, Tab.find?_append, ih]
    by_cases top : k = n
    · subst top
      by_cases h : f k = d <;> simp [h, Tab.find?]
    · have below : k < n + 1 ↔ k < n := by omega
      by_cases h : f n = d <;> simp [h, Tab.find?, top, below]

/-! ## Elements of tiles -/

/-- R226: a tile that is written whole; the elements of the others stay. -/
theorem Engine.tileAt_setTile (e : Engine) (z : Nat) (f : Nat → Nat → Word32) (y : Nat) {i j : Nat} (hi : i < 32) (hj : j < 32) :
    (e.setTile z f).tileAt y i j = if y = z then f i j else e.tileAt y i j := by
  simp only [Engine.tileAt, Engine.setTile, Tab.get_eq_find?, Tab.find?_append, Tab.find?_filter_key (fun k => decide (k < 1024 * z)),
    Tab.find?_filter_key (fun k => decide (1024 * (z + 1) ≤ k)), Tab.find?_shift, Tab.find?_tabOf, decide_eq_true_eq]
  obtain before | same | after : y < z ∨ y = z ∨ z < y := by omega
  · rw [if_pos (by omega), if_neg (by omega), if_neg (by omega), if_neg (by omega)]
    simp
  · subst same
    have within : 32 * i + j < 1024 := by omega
    rw [if_neg (by omega), if_pos (by omega), show 1024 * y + 32 * i + j - 1024 * y = 32 * i + j by omega,
      show (32 * i + j) / 32 = i by omega, show (32 * i + j) % 32 = j by omega, if_neg (c := 1024 * (y + 1) ≤ _) (by omega), if_pos rfl]
    by_cases zero : f i j = 0#32 <;> simp [zero, within]
  · rw [if_neg (by omega), if_pos (by omega), if_neg (by omega), if_pos (by omega), if_neg (by omega)]
    rfl

/-- R237: a tile that is set to +0; the elements of the others stay. -/
theorem Engine.tileAt_zeroTile (e : Engine) (z y : Nat) {i j : Nat} (hi : i < 32) (hj : j < 32) :
    (e.zeroTile z).tileAt y i j = if y = z then 0 else e.tileAt y i j := by
  have place : (1024 * y + 32 * i + j) / 1024 = y := by omega
  simp only [Engine.tileAt, Engine.zeroTile, Tab.get_eq_find?, Tab.find?_filter_key (fun k => decide (k / 1024 ≠ z)), place]
  by_cases same : y = z <;> simp [same]

/-! ## MX.STREAM -/

/-- R238: the scale of activation row r of an MX.STREAM, with operand values vs. -/
def Engine.rowScale (e : Engine) (c : Cmd) (vs : List Nat) (r : Nat) : Num :=
  if bits c.opB 32 21 = 0 ∨ actFmt e.mf e.cfg ≤ 1 then .fin false 1 0 else e8m0 (vs.getD (bits c.opB 0 6) 0 / 256 ^ r % 256)

/-- R238: element (i, j) of tile z after an MX.STREAM: the products of its chunks added in order, where the stream has a row for it. -/
def Engine.streamed (e : Engine) (z : Nat) (c : Cmd) (vs : List Nat) (i j : Nat) : Word32 :=
  if bits c.opB 6 5 ≤ i ∧ i < bits c.opB 6 5 + bits c.opB 0 6 then
    BitVec.ofNat 32 ((List.range (chunksOf e.cfg)).foldl (fun acc q => accChunk acc (e.products (elemOf (actFmt e.mf e.cfg)
      (vs.getD (i - bits c.opB 6 5) 0)) (e.rowScale c vs (i - bits c.opB 6 5)) q j)) (e.tileAt z i j).toNat)
  else e.tileAt z i j

/-- R238, R239: an MX.STREAM without a fault writes its tile, and the tile's scale record where that was clear. -/
theorem Engine.doStream_inr {e e' : Engine} {z : Nat} {c : Cmd} {vs : List Nat} (run : e.doStream z c vs = .inr e') :
    ∃ recs, e' = { e.setTile z (e.streamed z c vs) with scaleRecs := recs } := by
  unfold Engine.doStream at run
  dsimp only at run
  split at run
  · cases run
  · cases run
    split
    · exact ⟨_, rfl⟩
    · exact ⟨_, rfl⟩

/-- Settles O38: the stream writes its own tile alone, with the sums of R100 in the rows that it has. -/
theorem streamAccumulates : Obligations.StreamAccumulates := by
  unfold Obligations.StreamAccumulates
  intro e e' z c vs run first n scale
  obtain ⟨recs, rfl⟩ := Engine.doStream_inr run
  refine ⟨fun y i j hi hj => (e.tileAt_setTile z.val (e.streamed z.val c vs) y hi hj).trans ?_, rfl⟩
  by_cases same : y = z.val
  · subst same
    simp only [true_and, if_true]
    rfl
  · simp only [same, false_and, if_false]

end Sys2Proof.Machine
end

section
/-! SUPPORT. The turns of a matrix engine (R227, R231, R235 to R238, R241, R242, R269): O37. -/

namespace Sys2Proof.Machine

/-! ## What a turn leaves alone -/

/-- Between s and t one core's engine has made a turn: every other core is as it was, and so is every thread, except that those of the core that
waited on the engine look again. -/
structure State.EngineTurn (s : State) (core : Nat) (t : State) : Prop where
  cores : ∀ n, n ≠ core → t.core n = s.core n
  threads : ∀ h, t.thread h = s.thread h ∨
    (h.core = core ∧ (s.thread h).status = .engine ∧ t.thread h = { s.thread h with status := .again })

theorem State.core_congr {s u : State} (same : u.cores = s.cores) (n : Nat) : u.core n = s.core n := by rw [State.core, same, State.core]

theorem Status.isEngine_iff (x : Status) : x.isEngine = true ↔ x = .engine := by cases x <;> simp [Status.isEngine]

theorem Tab.find?_wakeThreads (p : Status → Bool) (ts : Tab Thread) (k : Nat) :
    Tab.find? (wakeThreads p ts) k = (Tab.find? ts k).map (fun v => if p v.status then { v with status := .again } else v) :=
  Tab.find?_map_key (fun q : Nat × Thread => if p q.2.status then { q.2 with status := .again } else q.2) ts k

/-- A thread of a core whose waiters on the engine look again. -/
theorem State.thread_wakeEngine (s : State) (core : Nat) (h : Hart) : (s.wakeEngine core).thread h = s.thread h ∨
    (h.core = core ∧ (s.thread h).status = .engine ∧ (s.wakeEngine core).thread h = { s.thread h with status := .again }) := by
  obtain other | same := ne_or_eq h.core core
  · exact .inl (State.thread_congr (congrArg Core.threads (State.core_setCore_other _ _ _ _ other)))
  · subst same
    simp only [State.wakeEngine, Core.wake, State.thread, State.core_setCore_same, Tab.find?_wakeThreads]
    cases Tab.find? (s.core h.core).threads h.th with
    | none => exact .inl rfl
    | some v =>
      cases waits : v.status.isEngine with
      | false => exact .inl (by simp [waits])
      | true => exact .inr ⟨trivial, (Status.isEngine_iff _).mp waits, by simp [waits]⟩

section Turn

variable {s u : State} {core : Nat} {c : Core} (others : ∀ n, n ≠ core → u.core n = s.core n) (threads : c.threads = (s.core core).threads)
include others threads

theorem State.thread_setCore_kept (h : Hart) : (u.setCore core c).thread h = s.thread h := by
  obtain other | same := ne_or_eq h.core core
  · exact State.thread_congr (congrArg Core.threads ((State.core_setCore_other _ _ _ _ other).trans (others _ other)))
  · subst same
    exact State.thread_congr (by rw [State.core_setCore_same, threads])

theorem State.EngineTurn.setCore : s.EngineTurn core (u.setCore core c) where
  cores n hn := (State.core_setCore_other _ _ _ _ hn).trans (others n hn)
  threads h := .inl (State.thread_setCore_kept others threads h)

theorem State.EngineTurn.wake : s.EngineTurn core ((u.setCore core c).wakeEngine core) where
  cores n hn := (State.core_setCore_other _ _ _ _ hn).trans ((State.core_setCore_other _ _ _ _ hn).trans (others n hn))
  threads h := by
    have woken := State.thread_wakeEngine (u.setCore core c) core h
    rwa [State.thread_setCore_kept others threads] at woken

end Turn

theorem State.core_wakeEngine_setCore (s : State) (core : Nat) (c : Core) :
    ((s.setCore core c).wakeEngine core).core core = c.wake Status.isEngine := by simp [State.wakeEngine]

/-- A turn that changes its core, but no thread of it, and wakes those that wait. -/
theorem State.EngineTurn.of_wake {s : State} {core : Nat} {c : Core} {i : Instr} (run : exec i s = .next ((s.setCore core c).wakeEngine core))
    (threads : c.threads = (s.core core).threads) :
    ∃ t, exec i s = .next t ∧ s.EngineTurn core t ∧ t.core core = c.wake Status.isEngine :=
  ⟨_, run, State.EngineTurn.wake (fun _ _ => rfl) threads, s.core_wakeEngine_setCore core c⟩

/-! ## The end of a command -/

/-- R382: the machine with the pass of a core's engine charged to its context. -/
def State.passCharged (s : State) (core : Nat) : State :=
  match (s.core core).ctx? with
  | some n => s.charge n passClass
  | none => s

theorem State.cores_passCharged (s : State) (core : Nat) : (s.passCharged core).cores = s.cores := by
  unfold State.passCharged State.charge
  split
  · split <;> rfl
  · rfl

/-- R227: the machine once a core's engine is free again after a command: the pass is charged, and those that wait look again. -/
def State.passOver (s : State) (core : Nat) : State :=
  ((s.passCharged core).setCore core ((s.passCharged core).core core).freed).wakeEngine core

theorem State.core_passOver (s : State) (core : Nat) : (s.passOver core).core core = (s.core core).freed.wake Status.isEngine := by
  rw [State.passOver, State.core_wakeEngine_setCore, State.core_congr (s.cores_passCharged core)]

/-- A turn that changes its core, but no thread of it, and frees its engine. -/
theorem State.EngineTurn.passOver {s u : State} {core : Nat} (others : ∀ n, n ≠ core → u.core n = s.core n)
    (threads : (u.core core).threads = (s.core core).threads) : s.EngineTurn core (u.passOver core) := by
  have charged := State.core_congr (u.cores_passCharged core)
  exact State.EngineTurn.wake (fun n hn => (charged n).trans (others n hn)) ((congrArg Core.threads (charged core)).trans threads)

/-- R227: the end of a command whose thread went on when it entered. -/
theorem State.engineDone_queued {r : Running} (queued : isHeld r.cmd.instr = false) (s : State) (core : Nat) (f : Thread → Thread) :
    s.engineDone core r f = s.passOver core := by
  unfold State.engineDone
  rw [queued]
  rfl

/-- R256: the end of a command that held its thread, which goes on. -/
theorem State.engineDone_held {r : Running} (held : isHeld r.cmd.instr = true) (s : State) (core : Nat) (f : Thread → Thread) :
    s.engineDone core r f = (s.passOver core).setThread r.cmd.hart
      { (f ((s.passOver core).thread r.cmd.hart)).advance r.cmd.len with status := .run } := by
  unfold State.engineDone
  rw [held]
  rfl

theorem State.executes_running {s u : State} {core : Nat} {r : Running} (running : (s.core core).running = some r) (same : u.cores = s.cores) :
    u.executes core r = true := by
  rw [State.executes, State.core_congr same, running]
  exact decide_eq_true rfl

/-! ## Commands that commit in one step (R227) -/

/-- The commands that only read operands and change the registers of the engine. -/
def commitsAtOnce : Instr → Bool
  | .mxCfg _ _ _ _ => true
  | .mxLdw _ _ _ => true
  | .mxSwap _ => true
  | .mxDup _ _ => true
  | .mxStream _ _ _ _ => true
  | .mxZero _ _ => true
  | .attnQld _ _ _ => true
  | .attnMerge _ _ => true
  | _ => false

/-- R227: no such command holds its thread, and its turns are those of a command that reads and commits. -/
theorem runRunning_of_commitsAtOnce {r : Running} (commits : commitsAtOnce r.cmd.instr = true) :
    isHeld r.cmd.instr = false ∧ ∀ (s : State) (core : Nat), s.runRunning core r = s.runCommand core r := by
  unfold commitsAtOnce at commits
  split at commits
  case h_9 => cases commits
  all_goals
    next instr => exact ⟨by rw [instr]; rfl, fun s core => by simp only [State.runRunning, instr]⟩

section Command

variable {s : State} {core : Nat} {r : Running}

/-- R227: the operand words of a core's executing command. -/
def State.operandWords (s : State) (core : Nat) (r : Running) : List Nat := rangeWords (cmdRanges (s.core core).engine (s.core core).cmroot r.cmd)

/-- R227: the values of that command's operands, from the words that it has read. -/
def State.operandValues (s : State) (core : Nat) (r : Running) : List Nat :=
  rangeValues (cmdRanges (s.core core).engine (s.core core).cmroot r.cmd)
    ((List.range (s.operandWords core r).length).map (Tab.get 0 r.words))

/-- With every word read, none is left to read. -/
theorem Running.toRead_eq_nil {offs : List Nat} (read : ∀ i, i < offs.length → (Tab.find? r.words i).isSome = true) (rot : Nat) :
    r.toRead rot offs = [] := by
  have left : ((List.range offs.length).zip offs).filter (fun q => (Tab.find? r.words q.1).isNone) = [] := by
    refine List.filter_eq_nil_iff.mpr fun q hq => ?_
    have below := List.mem_range.mp (List.of_mem_zip hq).1
    rw [Option.isNone_iff_eq_none]
    exact Option.isSome_iff_ne_none.mp (read q.1 below)
  simp only [Running.toRead, left, List.filter_nil, List.append_nil, List.rotateLeft_nil, ite_self]

/-- R227: a command that has read its operands commits. -/
theorem State.runCommand_commits {e : Engine} (running : (s.core core).running = some r) (start : s.startFail core r = none)
    (read : ∀ i, i < (s.operandWords core r).length → (Tab.find? r.words i).isSome = true)
    (effect : (s.core core).engine.effect (s.core core).cmroot r.cmd (s.operandValues core r) = .inr e) :
    s.runCommand core r = (s.draw.2.turnFuel.2.setEngine core e).engineDone core r id := by
  unfold State.operandValues State.operandWords at effect
  unfold State.operandWords at read
  simp only [State.runCommand, start, Running.toRead_eq_nil read, EngRun.operands, effect]
  exact if_pos (State.executes_running running rfl)

/-- R234: only a tail is checked when it starts. -/
theorem State.startFail_eq_none (whole : (isLdwCmd r.cmd.instr && bit r.cmd.opB 21) = false) (s : State) (core : Nat) : s.startFail core r = none := by
  simp only [State.startFail, whole, Bool.false_and, Bool.false_eq_true, if_false]

/-- R227: the engine's turn on an executing command that waits for no access. -/
theorem exec_matrixCommandCompletion_runs (running : (s.core core).running = some r) (loading : (s.core core).loading = none)
    (port : r.port = .idle) (free : s.heldWaits r = false) :
    exec (.matrixCommandCompletion core) s = .next (s.draw.2.runRunning core r) := by
  have kept : s.forsaken r.port = false := by rw [port]; rfl
  change execMatrixCommandCompletion core s = _
  simp only [execMatrixCommandCompletion, running, loading, ite_self, kept, free, Bool.false_eq_true, if_false]

theorem State.heldWaits_queued (queued : isHeld r.cmd.instr = false) : s.heldWaits r = false := by
  simp only [State.heldWaits, queued, Bool.false_and]

/-- R227: a queued command whose operands are read, and whose effect is the engine e, is over with the next turn. -/
theorem exec_matrixCommandCompletion_commits {e : Engine} (running : (s.core core).running = some r) (loading : (s.core core).loading = none)
    (port : r.port = .idle) (commits : commitsAtOnce r.cmd.instr = true) (whole : (isLdwCmd r.cmd.instr && bit r.cmd.opB 21) = false)
    (read : ∀ i, i < (s.operandWords core r).length → (Tab.find? r.words i).isSome = true)
    (effect : (s.core core).engine.effect (s.core core).cmroot r.cmd (s.operandValues core r) = .inr e) :
    ∃ t, exec (.matrixCommandCompletion core) s = .next t ∧ s.EngineTurn core t ∧ (t.core core).running = none ∧ (t.core core).engine = e := by
  obtain ⟨queued, command⟩ := runRunning_of_commitsAtOnce commits
  have run := exec_matrixCommandCompletion_runs running loading port (State.heldWaits_queued queued)
  have done : s.draw.2.runCommand core r = _ := State.runCommand_commits running (State.startFail_eq_none whole s core) read effect
  rw [command, done, State.engineDone_queued queued] at run
  have committed : (s.draw.2.draw.2.turnFuel.2.setEngine core e).core core = { s.core core with engine := e } := State.core_setCore_same _ _ _
  refine ⟨_, run, State.EngineTurn.passOver (fun n hn => State.core_setCore_other _ _ _ _ hn) (by rw [committed]), ?_, ?_⟩
  · rw [State.core_passOver, committed]
    exact loading
  · rw [State.core_passOver, committed]
    rfl

/-- R269: the machine with the comet buffer of a core empty. -/
def State.dropComet (s : State) (core : Nat) : State := s.setCore core { s.core core with comet := [] }

/-- R269: CM.INVAL empties the core's comet buffer and releases its thread. -/
theorem exec_matrixCommandCompletion_cmInval (running : (s.core core).running = some r) (loading : (s.core core).loading = none)
    (port : r.port = .idle) (inval : r.cmd.instr = .cmInval false) (own : r.cmd.hart.core = core) :
    ∃ t, exec (.matrixCommandCompletion core) s = .next t ∧ (t.core core).running = none ∧ (t.core core).comet = [] ∧
      (t.thread r.cmd.hart).status = .run ∧ (t.thread r.cmd.hart).retired = (s.thread r.cmd.hart).retired + 1 := by
  have held : isHeld r.cmd.instr = true := by rw [inval]; rfl
  have goesOn : r.stopsHere = false := by rw [Running.stopsHere, inval]
  have run := exec_matrixCommandCompletion_runs running loading port (by simp [State.heldWaits, inval])
  have emptied : (s.draw.2.turnFuel.2.dropComet core).core core = { s.core core with comet := [] } := State.core_setCore_same _ _ _
  have executes : (s.draw.2.turnFuel.2.dropComet core).executes core r = true := by
    rw [State.executes, emptied]
    exact decide_eq_true (congrArg (Option.map Running.cmd) running)
  have ended : s.draw.2.runRunning core r = (s.draw.2.turnFuel.2.dropComet core).engineDone core r id := by
    simp only [State.runRunning, inval, State.runComet, goesOn, Bool.and_false, Bool.false_eq_true, if_false, EngRun.comet]
    subst own
    exact if_pos executes
  rw [ended, State.engineDone_held held] at run
  have turn : s.EngineTurn core ((s.draw.2.turnFuel.2.dropComet core).passOver core) :=
    State.EngineTurn.passOver (fun n hn => State.core_setCore_other _ _ _ _ hn) (by rw [emptied])
  refine ⟨_, run, ?_, ?_, ?_, ?_⟩
  · rw [State.core_setThread_kept Core.running (fun _ _ => rfl), State.core_passOver, emptied]
    exact loading
  · rw [State.core_setThread_kept Core.comet (fun _ _ => rfl), State.core_passOver, emptied]
    rfl
  · rw [State.thread_setThread_same]
  · rw [State.thread_setThread_same]
    rcases turn.threads r.cmd.hart with same | ⟨-, -, woken⟩
    · simp [Thread.advance, same]
    · simp [Thread.advance, woken]

/-! ## The start of a command (R227) -/

/-- R227: the engine takes the oldest command of its queue. -/
theorem exec_matrixCommandStart_first {q : Cmd} {rest : List Cmd} (free : (s.core core).running = none) (queue : (s.core core).queue = q :: rest) :
    ∃ t, exec (.matrixCommandStart core) s = .next t ∧ s.EngineTurn core t ∧ t.core core =
      { s.core core with queue := rest, running := some (Running.begin_ q (s.thread q.hart).apos) }.wake Status.isEngine := by
  refine State.EngineTurn.of_wake ?_ rfl
  change execMatrixCommandStart core s = _
  simp only [execMatrixCommandStart, free, queue]

/-- R227: an MX.LDW starts behind an executing MX.STREAM. -/
theorem exec_matrixCommandStart_behind {q : Cmd} {rest : List Cmd} (running : (s.core core).running = some r) (loading : (s.core core).loading = none)
    (queue : (s.core core).queue = q :: rest) (stream : isStreamCmd r.cmd.instr = true) (load : isLdwCmd q.instr = true) :
    ∃ t, exec (.matrixCommandStart core) s = .next t ∧ s.EngineTurn core t ∧ t.core core =
      { s.core core with queue := rest, loading := some (Running.begin_ q (s.thread q.hart).apos) }.wake Status.isEngine := by
  refine State.EngineTurn.of_wake ?_ rfl
  change execMatrixCommandStart core s = _
  simp only [execMatrixCommandStart, running, loading, queue, stream, load, Bool.and_self, if_true]

/-! ## Rows of a drain (R240 to R242) -/

/-- R241: with no drain entry point set, a row is handed over unchanged. -/
theorem exec_drainDispatch_unchanged {k : Bool} {z : Fin 4} {a b : Opnd} (running : (s.core core).running = some r)
    (drain : r.cmd.instr = .mxDrain k z a b) (released : r.draining = false) (left : r.row < 32) (entry : (s.core core).engine.drainEntry = 0) :
    ∃ t, exec (.drainDispatch core) s = .next t ∧ s.EngineTurn core t ∧ (t.core core).running = some { r with
      row := r.row + 1
      out := r.out ++ piecesOf (drainRowAt r.cmd.opA r.cmd.opB r.row) 128 ((s.core core).engine.rowNat z.val r.row) } := by
  refine ⟨s.setRunning core _, ?_, State.EngineTurn.setCore (fun _ _ => rfl) (by rfl), congrArg Core.running (State.core_setCore_same _ _ _)⟩
  change execDrainDispatch core s = _
  simp only [execDrainDispatch, running, drain, released, entry, decide_eq_false (Nat.not_le.mpr left), Bool.or_self, Bool.false_eq_true, if_false,
    if_true]

/-- R241: the drain thread starts on a row. -/
theorem exec_drainDispatch_starts {k : Bool} {z : Fin 4} {a b : Opnd} (running : (s.core core).running = some r)
    (drain : r.cmd.instr = .mxDrain k z a b) (released : r.draining = false) (left : r.row < 32) (entry : (s.core core).engine.drainEntry ≠ 0)
    (idle : (s.thread ⟨core, 4⟩).status = .idle) :
    exec (.drainDispatch core) s = .next ((s.setCore core { s.core core with
      drainFor := r.cmd.hart.th, running := some { r with row := r.row + 1, draining := true } }).setThread ⟨core, 4⟩
        ((s.thread ⟨core, 4⟩).drainStart (s.thread r.cmd.hart) (s.core core).engine z.val r.row (drainRowAt r.cmd.opA r.cmd.opB r.row))) := by
  change execDrainDispatch core s = _
  simp only [execDrainDispatch, running, drain, released, entry, idle, decide_eq_false (Nat.not_le.mpr left), Bool.or_self, Bool.false_eq_true,
    if_false, ne_eq, not_true_eq_false]

end Command

/-- Digits in base 256^w are lanes of w bytes. -/
theorem digits_eq_lanesNat (w : Nat) (f : Nat → Nat) (n : Nat) : digits w f n = lanesNat w f n := by
  induction n with
  | zero => rfl
  | succ n ih =>
    have base (k : Nat) : 256 ^ k = 2 ^ (8 * k) := Nat.pow_mul 2 8 k |>.symm
    rw [digits, lanesNat, ih, base, base, mul_assoc]

theorem lane_ofNat (v w : Nat) {i : Nat} (hi : 8 * w * i + 8 * w ≤ 512) : lane (BitVec.ofNat 512 v) w i = v / 2 ^ (8 * w * i) % 2 ^ (8 * w) := by
  refine Nat.eq_of_testBit_eq fun j => ?_
  simp only [lane, BitVec.extractLsb'_toNat, BitVec.toNat_ofNat, Nat.testBit_mod_two_pow, Nat.testBit_shiftRight, Nat.testBit_div_two_pow]
  by_cases low : j < 8 * w
  · simp [low, show 8 * w * i + j < 512 by omega, Nat.add_comm j]
  · simp [low]

/-- R241: element j of row i of a tile, in v0 and v1 of the drain thread. -/
theorem Engine.rowNat_lane (e : Engine) (z i : Nat) {j : Nat} (hj : j < 32) :
    e.rowNat z i / 2 ^ (8 * 4 * j) % 2 ^ (8 * 4) = (e.tileAt z i j).toNat := by
  rw [Engine.rowNat, digits_eq_lanesNat, lanesNat_lane 4 _ hj]
  exact Nat.mod_eq_of_lt (BitVec.isLt _)

theorem Thread.getX_setM (t : Thread) (n : Fin 8) (v : Word32) (r : Fin 32) : (t.setM n v).getX r = t.getX r := rfl

theorem Thread.getV_setM (t : Thread) (n : Fin 8) (v : Word32) (r : Fin 32) : (t.setM n v).getV r = t.getV r := rfl

theorem Thread.getV_setX (t : Thread) (n : Fin 32) (v : Word) (r : Fin 32) : (t.setX n v).getV r = t.getV r := by simp [Thread.getV]

theorem Thread.getV_setV_same (t : Thread) (n : Fin 32) (v : Vec) : (t.setV n v).getV n = v := by simp [Thread.getV, Thread.setV]

theorem Thread.getV_setV_other (t : Thread) {n r : Fin 32} (other : n.val ≠ r.val) (v : Vec) : (t.setV n v).getV r = t.getV r := by
  simp [Thread.getV, Thread.setV, other]

/-- A thread t whose registers x10 to x13 and mask 0 have been written. -/
theorem Thread.row_registers {t u : Thread} {x10 x11 x12 x13 : Word} {mask : Word32}
    (h : u = ((((t.setX 10 x10).setX 11 x11).setX 12 x12).setX 13 x13).setM 0 mask) :
    u.pc = t.pc ∧ u.status = t.status ∧ u.level = t.level ∧ u.getX 10 = x10 ∧ u.getX 11 = x11 ∧ u.getX 12 = x12 ∧ u.getX 13 = x13 := by
  subst h
  simp [Thread.getX_setM, Thread.getX_setX_same, Thread.getX_setX_other]

section DrainStart

variable (t u : Thread) (e : Engine) (z i : Nat) (a : Word)

/-- R241: the drain thread at the start of a row but for the vector registers. -/
theorem Thread.drainStart_scalars : (t.drainStart u e z i a).pc = e.drainEntry ∧ (t.drainStart u e z i a).status = .run ∧
    (t.drainStart u e z i a).level = .u ∧ (t.drainStart u e z i a).getX 10 = BitVec.ofNat 64 i ∧ (t.drainStart u e z i a).getX 11 = 128 ∧
    (t.drainStart u e z i a).getX 12 = a ∧ (t.drainStart u e z i a).getX 13 = BitVec.ofNat 64 z :=
  Thread.row_registers rfl

theorem Thread.drainStart_row : (t.drainStart u e z i a).getV 0 = BitVec.ofNat 512 (e.rowNat z i) ∧
    (t.drainStart u e z i a).getV 1 = BitVec.ofNat 512 (e.rowNat z i / 2 ^ 512) := by
  unfold Thread.drainStart
  extract_lets row t1
  constructor
  · rw [Thread.getV_setM, Thread.getV_setX, Thread.getV_setX, Thread.getV_setX, Thread.getV_setX, Thread.getV_setV_other _ (by decide),
      Thread.getV_setV_same]
  · rw [Thread.getV_setM, Thread.getV_setX, Thread.getV_setX, Thread.getV_setX, Thread.getV_setX, Thread.getV_setV_same]

/-- R241: v0 and v1 hold the 32 elements of the row. -/
theorem Thread.drainStart_lanes {j : Nat} (hj : j < 16) : lane ((t.drainStart u e z i a).getV 0) 4 j = (e.tileAt z i j).toNat ∧
    lane ((t.drainStart u e z i a).getV 1) 4 j = (e.tileAt z i (16 + j)).toNat := by
  obtain ⟨low, high⟩ := Thread.drainStart_row t u e z i a
  have place : 512 + 8 * 4 * j = 8 * 4 * (16 + j) := by omega
  rw [low, high, lane_ofNat _ _ (by omega), lane_ofNat _ _ (by omega), Nat.div_div_eq_div_mul, ← Nat.pow_add, place]
  exact ⟨e.rowNat_lane z i (by omega), e.rowNat_lane z i (by omega)⟩

end DrainStart

section Dret

variable {s : State} {r : Running}

/-- R242: the machine once the drain thread has left its row. -/
def State.leftRow (s : State) : State := s.setMe { s.me with retired := s.me.retired + 1, status := .idle }

theorem State.running_leftRow (s : State) : (s.leftRow.core s.cur.core).running = s.myCore.running :=
  State.core_setThread_kept Core.running (fun _ _ => rfl) _ _ _ _

/-- R243: DRET outside a drain thread. -/
theorem exec_dret_misuse (k : Bool) (outside : isDrain s.cur = false) : exec (.dret k) s = s.trapMe 39 6 := by
  change execDret s = _
  simp only [execDret, outside, Bool.not_false, if_true]
  rfl

variable (k : Bool) (hdrain : isDrain s.cur = true)
include hdrain

/-- R228: the row of a drain that is gone is discarded. -/
theorem exec_dret_gone (gone : s.myCore.running = none ∨ s.myCore.running = some r ∧ r.draining = false) :
    exec (.dret k) s = .next s.leftRow := by
  change execDret s = _
  have running := s.running_leftRow
  unfold State.leftRow at running ⊢
  rcases gone with gone | ⟨gone, released⟩ <;> rw [gone] at running
  · simp only [execDret, hdrain, running, Bool.not_true, Bool.false_eq_true, if_false]
  · simp only [execDret, hdrain, running, released, Bool.not_true, Bool.not_false, Bool.false_eq_true, if_false, if_true]

variable (running : s.myCore.running = some r) (draining : r.draining = true)
include running draining

/-- R242: DRET releases its row. -/
theorem exec_dret_releases (ok : dretFail (s.me.getX 11) (s.me.getX 12) = none) :
    exec (.dret k) s = .next (s.leftRow.setRunning s.cur.core { r with
      draining := false
      out := r.out ++ piecesOf (s.me.getX 12) (s.me.getX 11).toNat ((s.me.getV 0).toNat + 2 ^ 512 * (s.me.getV 1).toNat) }) := by
  change execDret s = _
  have here := s.running_leftRow.trans running
  unfold State.leftRow at here ⊢
  simp only [execDret, hdrain, here, draining, ok, Bool.not_true, Bool.false_eq_true, if_false]

/-- R242: a row that fails discards the remaining ones. -/
theorem exec_dret_fails {cause : Nat} {v : Word} (bad : dretFail (s.me.getX 11) (s.me.getX 12) = some (cause, v)) :
    exec (.dret k) s = .next (s.leftRow.setRunning s.cur.core { r with draining := false, row := 32, failed := some ⟨cause, v, 0⟩ }) := by
  change execDret s = _
  have here := s.running_leftRow.trans running
  unfold State.leftRow at here ⊢
  simp only [execDret, hdrain, here, draining, bad, Bool.not_true, Bool.false_eq_true, if_false]

end Dret

/-- R242: a row whose length and address are good. -/
theorem dretFail_none {n a : Word} (short : n.toNat ≤ 128) (words : n.toNat % 4 = 0) (aligned : a.toNat % 4 = 0) : dretFail n a = none := by
  simp [dretFail, short, words, aligned]

/-- R242: a bad length is cause 34, and past it a bad address cause 4. -/
theorem dretFail_some {n a : Word} {cause : Nat} (bad : (128 < n.toNat ∨ n.toNat % 4 ≠ 0) ∧ cause = 34 ∨
    n.toNat ≤ 128 ∧ n.toNat % 4 = 0 ∧ a.toNat % 4 ≠ 0 ∧ cause = 4) : dretFail n a = some (cause, a) := by
  rcases bad with ⟨length, rfl⟩ | ⟨short, words, address, rfl⟩
  · exact if_pos length
  · exact (if_neg (by omega)).trans (if_pos address)

/-! ## The statement -/

/-- Settles O37: each turn by the lemma on it; the engine after a command is the command's effect. -/
theorem engineTurns : Obligations.EngineTurns := by
  unfold Obligations.EngineTurns
  intro s k core r c e turn gives begun count read values
  have unread (none_ : cmdRanges e c.cmroot r.cmd = []) : ∀ i, i < (s.operandWords core r).length → (Tab.find? r.words i).isSome = true := by
    have no : s.operandWords core r = [] := congrArg rangeWords none_
    simp [no]
  refine ⟨fun q rest free queue => ?first, fun q rest z a b x y running loading queue stream load => ?behind,
    fun running loading port => ⟨fun swap => ?swap, fun a b mf cfg => ?cfg, fun z zero => ?zero, fun z a b e' stream words effect => ?stream,
      fun e' command words effect => ?effect, fun inval own => exec_matrixCommandCompletion_cmInval running loading port inval own⟩,
    fun running => ⟨fun z a b drain released left entry => ?handover, fun z a b drain released left entry idle => ?dispatch⟩,
    fun hdrain => ⟨fun gone => exec_dret_gone k hdrain gone,
      fun running draining short words aligned => exec_dret_releases k hdrain running draining (dretFail_none short words aligned),
      fun cause running draining bad => exec_dret_fails k hdrain running draining (dretFail_some bad)⟩, fun outside => exec_dret_misuse k outside⟩
  case first =>
    obtain ⟨t, run, turned, after⟩ := exec_matrixCommandStart_first free queue
    exact ⟨t, run, by rw [after]; exact ⟨rfl, rfl, _, rfl⟩, turned.cores, turned.threads⟩
  case behind =>
    obtain ⟨t, run, turned, after⟩ := exec_matrixCommandStart_behind running loading queue (by rw [stream]; rfl) (by rw [load]; rfl)
    exact ⟨t, run, by rw [after]; exact ⟨rfl, rfl, running, _, rfl⟩, turned.cores, turned.threads⟩
  case swap =>
    obtain ⟨t, run, turned, idle, after⟩ := exec_matrixCommandCompletion_commits running loading port (by rw [swap]; rfl) (by rw [swap]; rfl)
      (unread (by rw [cmdRanges, swap])) (by rw [Engine.effect, swap])
    exact ⟨t, run, ⟨idle, after⟩, turned.cores, turned.threads⟩
  case cfg =>
    obtain ⟨t, run, turned, idle, after⟩ := exec_matrixCommandCompletion_commits running loading port (by rw [cfg]; rfl) (by rw [cfg]; rfl)
      (unread (by rw [cmdRanges, cfg])) (by rw [Engine.effect, cfg])
    exact ⟨t, run, ⟨idle, after⟩, turned.cores, turned.threads⟩
  case zero =>
    obtain ⟨t, run, turned, idle, after⟩ := exec_matrixCommandCompletion_commits running loading port (by rw [zero]; rfl) (by rw [zero]; rfl)
      (unread (by rw [cmdRanges, zero])) (by rw [Engine.effect, zero])
    refine ⟨t, run, ⟨idle, ?_⟩, turned.cores, turned.threads⟩
    rw [after]
    exact ⟨Tab.find?_del_same _ _, rfl, fun y i j hi hj => e.tileAt_zeroTile z.val y hi hj⟩
  case stream =>
    obtain ⟨t, run, turned, idle, after⟩ := exec_matrixCommandCompletion_commits running loading port (by rw [stream]; rfl) (by rw [stream]; rfl)
      words (by rw [Engine.effect, stream]; exact effect)
    exact ⟨t, run, ⟨idle, after⟩, turned.cores, turned.threads⟩
  case effect =>
    obtain ⟨once, whole⟩ : commitsAtOnce r.cmd.instr = true ∧ (isLdwCmd r.cmd.instr && bit r.cmd.opB 21) = false := by
      rcases command with ⟨a, b, ldw, whole⟩ | ⟨a, dup⟩ | ⟨a, b, qld⟩ | ⟨a, merge⟩
      · rw [ldw]; exact ⟨rfl, whole⟩
      · rw [dup]; exact ⟨rfl, rfl⟩
      · rw [qld]; exact ⟨rfl, rfl⟩
      · rw [merge]; exact ⟨rfl, rfl⟩
    obtain ⟨t, run, turned, idle, after⟩ := exec_matrixCommandCompletion_commits running loading port once whole words effect
    exact ⟨t, run, ⟨idle, after⟩, turned.cores, turned.threads⟩
  case handover =>
    obtain ⟨t, run, turned, after⟩ := exec_drainDispatch_unchanged running drain released left entry
    exact ⟨t, run, after, turned.cores, turned.threads⟩
  case dispatch =>
    obtain ⟨pc, status, level, x10, x11, x12, x13⟩ := Thread.drainStart_scalars (s.thread ⟨core, 4⟩) (s.thread r.cmd.hart) e z.val r.row
      (drainRowAt r.cmd.opA r.cmd.opB r.row)
    refine ⟨_, _, exec_drainDispatch_starts running drain released left entry idle, (State.thread_setThread_same _ _ _).symm, pc, status, level,
      x10, x11, x12, x13, fun j hj => Thread.drainStart_lanes _ _ e z.val r.row _ hj, ?_, ?_⟩
    · rw [State.core_setThread_kept Core.running (fun _ _ => rfl), State.core_setCore_same]
    · rw [State.core_setThread_kept Core.drainFor (fun _ _ => rfl), State.core_setCore_same]

end Sys2Proof.Machine
end

section
/-! SUPPORT. Block transfers (R247 to R253): O39. -/

namespace Sys2Proof.Machine

/-! ## Launch and cancellation -/

/-- R248: the machine with a transfer launched by the current thread, which counts it. -/
def State.launched (s : State) (id : Word) : State :=
  let k := clusterOf s.cur.core
  (s.setCluster k { s.cluster k with transfers := (s.cluster k).transfers ++ [⟨id, s.cur, s.me.level, s.myCore.mowner, s.myCore.mcontext, s.me.xf,
    s.myCore.fmts, s.nextId, false, none, 0, [], .idle, none, false⟩] }).setMe { s.me with seq := s.me.seq + 1 }

/-- What a completion leaves does not depend on what its thread was before. -/
theorem State.retire_setMe (s : State) (u v : Thread) (len : Nat) : (s.setMe u).retire v len = s.retire v len := State.setMe_setMe _ _ _

section Issue

variable {s : State} (hdrain : isDrain s.cur = false) (hspill : isSpill s.cur = false) (k : Bool) (d : Fin 32)
include hdrain hspill

/-- R248: XF.GO of a thread with fewer than eight transfers in flight. -/
theorem exec_xfGo_launches (lax : s.strictReact s.cur = false) (few : s.transfersOf s.cur < 8) :
    exec (.xfGo k d) s = .next ((s.launched (transferId s.cur (s.me.seq + 1))).retire
      ((s.launched (transferId s.cur (s.me.seq + 1))).me.setX d (transferId s.cur (s.me.seq + 1))) 4) := by
  rw [State.launched, State.me_setMe, State.retire_setMe]
  change execXfGo d s = _
  simp only [execXfGo, hdrain, hspill, lax, Bool.or_self, Bool.false_eq_true, if_false, if_neg (Nat.not_le.mpr few)]

theorem exec_xfGo_waits (lax : s.strictReact s.cur = false) (many : 8 ≤ s.transfersOf s.cur) : exec (.xfGo k d) s = s.block .place := by
  change execXfGo d s = _
  simp only [execXfGo, hdrain, hspill, lax, Bool.or_self, Bool.false_eq_true, if_false, if_pos many]

/-- R52: no launch in the react half of a strict domain. -/
theorem exec_xfGo_strict (strict : s.strictReact s.cur = true) : exec (.xfGo k d) s = s.trapMe 32 s.me.xf.src := by
  change execXfGo d s = _
  simp only [execXfGo, hdrain, hspill, strict, Bool.or_self, Bool.false_eq_true, if_false, if_true]

/-- R253: XF.CANCEL of an identifier of no transfer of the thread. -/
theorem exec_xfCancel_absent (a : Opnd)
    (absent : (s.cluster (clusterOf s.cur.core)).transfers.find? (fun y => decide (y.id = s.me.opX a) && decide (y.hart = s.cur)) = none) :
    exec (.xfCancel k d a) s = .next (s.retire (s.me.setX d 0) (len1 a)) := by
  change execXfCancel d a s = _
  simp only [execXfCancel, hdrain, hspill, absent, Bool.or_self, Bool.false_eq_true, if_false]

/-- R253: XF.CANCEL of a transfer of the thread, which ends it with status 1. -/
theorem exec_xfCancel_found (a : Opnd) {x : Transfer}
    (found : (s.cluster (clusterOf s.cur.core)).transfers.find? (fun y => decide (y.id = s.me.opX a) && decide (y.hart = s.cur)) = some x) :
    exec (.xfCancel k d a) s = .next ((s.endTransfer (clusterOf s.cur.core) x 1 0 0).retire
      ((s.endTransfer (clusterOf s.cur.core) x 1 0 0).me.setX d 1) (len1 a)) := by
  change execXfCancel d a s = _
  simp only [execXfCancel, hdrain, hspill, found, Bool.or_self, Bool.false_eq_true, if_false]

end Issue

/-! ## The engine's turns -/

/-- R249: an empty transfer, and one of more than 2^40 bytes, ends with status 3. -/
theorem State.transferCheck_size {x : Transfer} (bad : x.regs.total = 0 ∨ 2 ^ 40 < x.regs.total) (s : State) : s.transferCheck x = .inl (3, 0) :=
  if_pos bad

/-- R249: a transfer as its checks leave it, begun. -/
def Transfer.checked (x : Transfer) : (Nat × Word) ⊕ Option (Nat × Nat) → Transfer
  | .inl (st, a) => { x with started := true, status := some (st, a, 0) }
  | .inr c => { x with started := true, convert := c }

theorem Transfer.checked_kept (x : Transfer) (c : (Nat × Word) ⊕ Option (Nat × Nat)) :
    x.checked c = { x with started := true, convert := (x.checked c).convert, status := (x.checked c).status } := by
  rcases c with ⟨st, a⟩ | c <;> rfl

/-- The machine as a turn of a transfer that makes no access leaves it. -/
def State.turned (s : State) (x : Transfer) : State := (s.turnFuel.2.asLaunched x).asNow s x

theorem State.thread_turned (s : State) (x : Transfer) (h : Hart) : (s.turned x).thread h = s.thread h :=
  calc (s.turned x).thread h
      = (s.turnFuel.2.asLaunched x).thread h := State.thread_congr (State.core_setCore_kept Core.threads _ _ _ (by rfl) _)
    _ = s.turnFuel.2.thread h := State.thread_congr (State.core_setCore_kept Core.threads _ _ _ (by rfl) _)

section Turns

variable {s : State} {n : Nat} {x : Transfer}

theorem exec_transferStart (oldest : (s.cluster n).transfers.find? (fun y => !y.started) = some x)
    (few : ((s.cluster n).transfers.filter Transfer.started).length < 4) :
    exec (.transferStart n) s = .next (s.putTransfer n (x.checked ((s.asLaunched x).transferCheck x))) := by
  change execTransferStart n s = _
  simp only [execTransferStart, oldest, if_neg (Nat.not_le.mpr few)]
  rcases (s.asLaunched x).transferCheck x with ⟨st, a⟩ | c <;> rfl

variable (running : (s.cluster n).transfers.find? (fun y => decide (y.id = x.id) && y.started) = some x)
include running

/-- R251: a transfer with a status ends with it. -/
theorem exec_transferCompletion_ended {st : Nat} {fail : Word} {info : BitVec 14} (status : x.status = some (st, fail, info)) :
    exec (.transferCompletion n x.id) s = .next (s.endTransfer n x st fail info) := by
  change execTransferCompletion n x.id s = _
  simp only [execTransferCompletion, running, status]

/-- R249, R251: a transfer whose elements have all moved ends with status 0. -/
theorem exec_transferCompletion_moved (status : x.status = none) (port : x.port = .idle) (moved : x.elems ≤ x.done) :
    exec (.transferCompletion n x.id) s = .next ((s.turned x).endTransfer n x 0 0 0) := by
  have kept : s.forsaken x.port = false := by rw [port]; rfl
  have same : { x with port := Port.idle, status := none } = x := by rw [← port, ← status]
  change execTransferCompletion n x.id s = _
  simp only [execTransferCompletion, running, status, kept, Bool.false_eq_true, if_false, EngRun.moveAll, if_pos moved, same]
  rfl

end Turns

/-! ## The statement -/

/-- Settles O39: each answer of XF.GO and XF.CANCEL, and each turn of the engine, by the lemma on it. -/
theorem blockTransfers : Obligations.BlockTransfers := by
  unfold Obligations.BlockTransfers
  intro s k d a n x h cl mine seq id setXfers others ended
  refine ⟨fun hdrain hspill => ⟨fun lax few => ?launch, fun lax many => ?full, fun strict => exec_xfGo_strict hdrain hspill k d strict,
    fun absent => ?absent, fun found => ?found⟩, fun oldest few => ?start, fun st fail info running status => ?status, fun running status port moved => ?moved⟩
  case launch => exact ⟨_, exec_xfGo_launches hdrain hspill k d lax few, WritesX.retire0 (s.launched id) d id 4⟩
  case full =>
    obtain ⟨t, run, waits⟩ := Waits.block s .place
    exact ⟨t, (exec_xfGo_waits hdrain hspill k d lax many).trans run, waits⟩
  case absent => exact ⟨_, exec_xfCancel_absent hdrain hspill k d a absent, WritesX.retire0 s d 0 (len1 a)⟩
  case found => exact ⟨_, exec_xfCancel_found hdrain hspill k d a found, WritesX.retire0 (s.endTransfer cl x 1 0 0) d 1 (len1 a)⟩
  case start =>
    have kept := x.checked_kept ((s.asLaunched x).transferCheck x)
    refine ⟨_, (exec_transferStart oldest few).trans ?_, kept, fun bad => by rw [State.transferCheck_size bad]; rfl⟩
    rw [State.putTransfer, kept]
  case status => exact exec_transferCompletion_ended running status
  case moved => exact ⟨s.turned x, exec_transferCompletion_moved running status port moved, rfl, rfl, s.thread_turned x⟩

end Sys2Proof.Machine
end

section
/-! SUPPORT. What a step leaves of the partitions (R352, R409: O55, O56). Here: the functions that change neither the partitions nor the withheld clusters. -/

namespace Sys2Proof.Machine

/-- What PartitionsApart speaks of: the partitions, and the clusters that are withheld. -/
structure Zones where
  parts : Tab Part
  withheld : List Nat

def State.zones (s : State) : Zones := ⟨s.parts, s.dev.withheld⟩

/-- PartitionsApart, of the partitions and the withheld clusters alone. -/
structure Zones.Apart (z : Zones) : Prop where
  disjoint : ∀ m n c, c ∈ ((Tab.find? z.parts m).getD Part.init).clusters → c ∈ ((Tab.find? z.parts n).getD Part.init).clusters → m = n
  withheld : ∀ n c, c ∈ ((Tab.find? z.parts n).getD Part.init).clusters → c ∉ z.withheld

theorem State.partitionsApart_iff (s : State) : s.PartitionsApart ↔ s.zones.Apart :=
  ⟨fun h => ⟨h.disjoint, h.withheld⟩, fun h => ⟨h.disjoint, h.withheld⟩⟩

@[simp] theorem State.zones_mk (cur : Hart) (trapped ahead split : Bool) (agenda : List Turn) (ticks free nextId : Nat) (cores : Tab Core)
    (clusters : Tab Cluster) (net : List Msg) (log : List StoreRec) (logSeq : Nat) (dram : Dram) (domains : Tab Domain) (grids : Tab Grid)
    (ctxs : Tab Ctx) (queues : Tab Queue) (qcache : List Nat) (parts : Tab Part) (orbit orbitNext : Tab (BitVec 7)) (served : Tab Nat)
    (walk : List (Nat × TlbEntry)) (dev : Device) :
    (State.mk cur trapped ahead split agenda ticks free nextId cores clusters net log logSeq dram domains grids ctxs queues qcache parts orbit orbitNext
      served walk dev).zones = ⟨parts, dev.withheld⟩ := by simp only [State.zones]

@[simp] theorem State.zones_eta (s : State) : Zones.mk s.parts s.dev.withheld = s.zones := by simp only [State.zones]

@[simp] theorem foldl_zones {α : Type} {f : State → α → State} (kept : ∀ s a, (f s a).zones = s.zones) (l : List α) (s : State) :
    (l.foldl f s).zones = s.zones := by
  induction l generalizing s with
  | nil => rfl
  | cons a l ih => rw [List.foldl_cons, ih, kept]

@[simp] theorem Device.repair_withheld (d : Device) (kind bank core : Nat) : (d.repair kind bank core).withheld = d.withheld := by
  unfold Device.repair
  split <;> rfl

@[simp] theorem State.setCore_zones (s : State) (n : Nat) (c : Core) : (s.setCore n c).zones = s.zones := by simp [State.setCore]
@[simp] theorem State.setCluster_zones (s : State) (n : Nat) (c : Cluster) : (s.setCluster n c).zones = s.zones := by simp [State.setCluster]
@[simp] theorem State.setThread_zones (s : State) (h : Hart) (t : Thread) : (s.setThread h t).zones = s.zones := by simp [State.setThread]
@[simp] theorem State.setMe_zones (s : State) (t : Thread) : (s.setMe t).zones = s.zones := by simp [State.setMe]
@[simp] theorem State.setMyCore_zones (s : State) (c : Core) : (s.setMyCore c).zones = s.zones := by simp [State.setMyCore]

@[simp] theorem State.setSram_zones (s : State) (p : Place) (m : Sram) : (s.setSram p m).zones = s.zones := by
  unfold State.setSram
  split <;> simp

@[simp] theorem State.settleEnergy_zones (s : State) (ctx : Nat) : (s.settleEnergy ctx).zones = s.zones := by
  unfold State.settleEnergy
  split <;> simp

@[simp] theorem State.charge_zones (s : State) (ctx cls : Nat) : (s.charge ctx cls).zones = s.zones := by
  unfold State.charge
  split <;> simp

@[simp] theorem State.bill_zones (s : State) (h : Hart) (i : Instr) : (s.bill h i).zones = s.zones := by
  simp [State.bill]
  split <;> simp

@[simp] theorem State.retire_zones (s : State) (t : Thread) (len : Nat) : (s.retire t len).zones = s.zones := by simp [State.retire]
@[simp] theorem State.draw_zones (s : State) : (s.draw).2.zones = s.zones := by simp [State.draw]
@[simp] theorem State.driveM_zones (s : State) (h : Hart) (code : Nat) (on : Bool) : (s.driveM h code on).zones = s.zones := by simp [State.driveM]
@[simp] theorem State.driveS_zones (s : State) (h : Hart) (code : Nat) (on : Bool) : (s.driveS h code on).zones = s.zones := by simp [State.driveS]
@[simp] theorem State.post_zones (s : State) (hub : Nat) (r : Report) : (s.post hub r).zones = s.zones := by simp [State.post, apply_ite State.zones]

@[simp] theorem State.stopEvent_zones (s : State) (r : Report) : (s.stopEvent r).zones = s.zones := by
  unfold State.stopEvent
  (repeat' split) <;> simp

@[simp] theorem State.report_zones (s : State) (r : Report) : (s.report r).zones = s.zones := by simp [State.report]

@[simp] theorem State.forward_zones (s : State) (h : Hart) (cause : Nat) (value : Word) (utag : BitVec 14) (nest : Bool) :
    (s.forward h cause value utag nest).zones = s.zones := by
  simp [State.forward]

@[simp] theorem State.takeTrap_zones (s : State) (h : Hart) (cause : Nat) (value : Word) (utag : BitVec 14) :
    (s.takeTrap h cause value utag).zones = s.zones := by
  simp [State.takeTrap]
  (repeat' split) <;> simp

@[simp] theorem State.trap_zones (s : State) (h : Hart) (cause : Nat) (value : Word) (utag : BitVec 14) :
    (s.trap h cause value utag).zones = s.zones := by
  simp [State.trap]

@[simp] theorem State.turnTo_zones (s : State) (h : Hart) : (s.turnTo h).zones = s.zones := by simp [State.turnTo]
@[simp] theorem State.fresh_zones (s : State) : (s.fresh).2.zones = s.zones := by simp [State.fresh]
@[simp] theorem State.send_zones (s : State) (m : Msg) : (s.send m).zones = s.zones := by simp [State.send]
@[simp] theorem State.withdraw_zones (s : State) (ids : List Nat) : (s.withdraw ids).zones = s.zones := by simp [State.withdraw]
@[simp] theorem State.unsend_zones (s : State) (n : Nat) : (s.unsend n).zones = s.zones := by simp [State.unsend]

@[simp] theorem State.abortGrids_zones (s : State) (gs : List Nat) (code : Nat) : (s.abortGrids gs code).zones = s.zones := by simp [State.abortGrids]

@[simp] theorem State.abortOwner_zones (s : State) (cluster : Nat) (o : BitVec 12) : (s.abortOwner cluster o).zones = s.zones := by
  simp [State.abortOwner]

@[simp] theorem State.abortCluster_zones (s : State) (cluster : Nat) : (s.abortCluster cluster).zones = s.zones := by simp [State.abortCluster]

@[simp] theorem State.writeOrbit_zones (s : State) (k : Nat) (v : Word) : (s.writeOrbit k v).zones = s.zones := by
  simp [State.writeOrbit, apply_ite State.zones]

@[simp] theorem State.touch_zones (s : State) (core : Nat) (e : TlbEntry) : (s.touch core e).zones = s.zones := by simp [State.touch]

@[simp] theorem State.miss_zones (s : State) (h : Hart) (va : Nat) (need : Need) : (s.miss h va need).2.zones = s.zones := by
  simp [State.miss]
  (repeat' split) <;> simp

@[simp] theorem State.sendNotice_zones (s : State) (h : Hart) (va : Nat) (need : Need) : (s.sendNotice h va need).zones = s.zones := by
  simp [State.sendNotice]

@[simp] theorem State.noteMiss_zones (s : State) (h : Hart) (va : Nat) (need : Need) : (s.noteMiss h va need).zones = s.zones := by
  unfold State.noteMiss
  split
  · next missed => simpa using (congrArg (·.2.zones) missed).symm
  · next missed => simpa using (congrArg (·.2.zones) missed).symm

@[simp] theorem State.noteDirty_zones (s : State) (h : Hart) (va : Nat) (need : Need) : (s.noteDirty h va need).zones = s.zones := by
  simp [State.noteDirty]

@[simp] theorem State.tie_zones (s : State) (h : Hart) : (s.tie h).zones = s.zones := by simp [State.tie]
@[simp] theorem State.tieAt_zones (s : State) (p : Place) : (s.tieAt p).zones = s.zones := by simp [State.tieAt]

@[simp] theorem State.noteError_zones (s : State) (kind : Nat) (p : Option Place) (owner : BitVec 12) (addr : Nat) :
    (s.noteError kind p owner addr).zones = s.zones := by
  simp [State.noteError, apply_ite State.zones]

@[simp] theorem State.sramError_zones (s : State) (p : Place) (line : Nat) : (s.sramError p line).zones = s.zones := by
  simp [State.sramError, apply_ite State.zones]

@[simp] theorem State.correct_zones (s : State) (p : Place) (ws : List Nat) : (s.correct p ws).zones = s.zones := by
  refine foldl_zones (fun r w => ?_) ws s
  split
  · rfl
  · cases p <;> simp

@[simp] theorem State.mend_zones (s : State) (p : Place) (o : BitVec 12) (ls : List Nat) : (s.mend p o ls).2.zones = s.zones := by
  induction ls generalizing s with
  | nil => rfl
  | cons l ls ih => simp [State.mend, ih, apply_ite Prod.snd, apply_ite State.zones]

@[simp] theorem State.bankOp_zones (s0 : State) (p : Place) (a : Access) (again : Bool) : (s0.bankOp p a again).2.zones = s0.zones := by
  have mended := s0.mend_zones p a.owner (s0.badLines p (wordsOf a.esize a.elems))
  unfold State.bankOp
  dsimp only
  generalize s0.mend p a.owner (s0.badLines p (wordsOf a.esize a.elems)) = r at mended ⊢
  obtain ⟨bad, s1⟩ := r
  (repeat' split) <;> simp_all

@[simp] theorem State.ringWrite_zones (s : State) (o : BitVec 12) (ctx va n v : Nat) : (s.ringWrite o ctx va n v).zones = s.zones := by
  unfold State.ringWrite
  split <;> simp

@[simp] theorem State.writeBack_zones (s : State) (q : Nat) : (s.writeBack q).zones = s.zones := by simp [State.writeBack]

@[simp] theorem State.cacheQueue_zones (s : State) (q : Nat) : (s.cacheQueue q).zones = s.zones := by
  simp [State.cacheQueue]
  (repeat' split) <;> simp

@[simp] theorem State.setQueue_zones (s : State) (q : Nat) (r : Queue) : (s.setQueue q r).zones = s.zones := by simp [State.setQueue]

@[simp] theorem State.notifyHook_zones (s : State) (offs : List Nat) (word : Nat → Word) : (s.notifyHook offs word).zones = s.zones := by
  refine foldl_zones (fun r q => ?_) s.blocks s
  (repeat' split) <;> simp

@[simp] theorem State.meetLines_zones (s : State) (lines : List Nat) : (s.meetLines lines).zones = s.zones := by
  simp [State.meetLines, apply_ite State.zones]

@[simp] theorem State.dramOp_zones (s0 : State) (a : Access) : (s0.dramOp a).2.zones = s0.zones := by
  unfold State.dramOp
  (repeat' split) <;> simp

@[simp] theorem State.finishThread_zones (s : State) (h : Hart) (f : Finish) (v : BitVec 512) (len : Nat) :
    (s.finishThread h f v len).zones = s.zones := by
  simp [State.finishThread]

@[simp] theorem State.finishAccess_zones (s : State) (h : Hart) (f : Finish) (v : BitVec 512) (len : Nat) :
    (s.finishAccess h f v len).zones = s.zones := by
  simp [State.finishAccess]
  (repeat' split) <;> simp

@[simp] theorem State.lateFault_zones (s : State) (h : Hart) (cause : Nat) (value : Word) (utag : BitVec 14) :
    (s.lateFault h cause value utag).zones = s.zones := by
  simp [State.lateFault]

@[simp] theorem State.toPort_zones (s : State) (a : Access) (r : Reply) : (s.toPort a r).zones = s.zones := by
  unfold State.toPort
  split <;> simp

@[simp] theorem State.deliverLate_zones (s : State) (h : Hart) (l : Late) (id : Nat) (r : Reply) : (s.deliverLate h l id r).zones = s.zones := by
  simp [State.deliverLate]
  (repeat' split) <;> simp

@[simp] theorem State.faultOf_zones (s : State) (h : Hart) (cause : Nat) (value : Word) (utag : BitVec 14) :
    (s.faultOf h cause value utag).zones = s.zones := by
  simp [State.faultOf, apply_ite State.zones]

@[simp] theorem State.deliver_zones (s : State) (a : Access) (r : Reply) : (s.deliver a r).zones = s.zones := by
  unfold State.deliver
  cases r <;> (dsimp only; (repeat' split) <;> simp)

@[simp] theorem State.parkAccess_zones (s : State) (p : Place) (a : Access) (bank word : Nat) : (s.parkAccess p a bank word).zones = s.zones := by
  simp [State.parkAccess, apply_ite State.zones]

@[simp] theorem State.wakeFences_zones (s : State) (h : Hart) : (s.wakeFences h).zones = s.zones := by simp [State.wakeFences, apply_ite State.zones]
@[simp] theorem State.setChan_zones (s : State) (port vc : Nat) (c : Chan) : (s.setChan port vc c).zones = s.zones := by simp [State.setChan]

@[simp] theorem State.await_zones (s : State) (h : Hart) (ids : List Nat) (f : Finish) (got : BitVec 512) (len : Nat) (loose : Bool) :
    (s.await h ids f got len loose).zones = s.zones := by
  simp [State.await]

@[simp] theorem State.travel_zones (s : State) (a : Access) (forgets : Bool) (f : Finish) (len : Nat) :
    (s.travel a forgets f len).zones = s.zones := by
  simp [State.travel, apply_ite State.zones]

@[simp] theorem State.answer_zones (s : State) (a : Access) (r : Reply) : (s.answer a r).zones = s.zones := by simp [State.answer]
@[simp] theorem State.resend_zones (s : State) (a : Access) : (s.resend a).zones = s.zones := by simp [State.resend]

@[simp] theorem State.answerParked_zones (s : State) (p : Place) (a : Access) (r : Reply) : (s.answerParked p a r).zones = s.zones := by
  simp [State.answerParked, apply_ite State.zones]

@[simp] theorem State.writeCsr_zones (s : State) (h : Hart) (n : Nat) (v : Word) : (s.writeCsr h n v).zones = s.zones := by
  simp [State.writeCsr]
  (repeat' split) <;> simp

@[simp] theorem State.marked_zones (s : State) (lo : Nat) : (s.marked lo).zones = s.zones := by simp [State.marked]
@[simp] theorem State.plant_zones (s : State) (h : Hart) (n v : Nat) : (s.plant h n v).zones = s.zones := by simp [State.plant]

@[simp] theorem State.syncInbox_zones (s : State) (core : Nat) : (s.syncInbox core).zones = s.zones := by
  unfold State.syncInbox
  split <;> simp

@[simp] theorem State.askSpill_zones (s : State) (h : Hart) : (s.askSpill h).zones = s.zones := by simp [State.askSpill, apply_ite State.zones]
@[simp] theorem State.replay_zones (s : State) (core : Nat) (v : BitVec 512) : (s.replay core v).zones = s.zones := by simp [State.replay]

@[simp] theorem State.append_zones (s : State) (core : Nat) (e : BitVec 512) (irq : Bool) : (s.append core e irq).zones = s.zones := by
  simp [State.append, apply_ite State.zones]

@[simp] theorem State.spillOne_zones (s : State) (core : Nat) : (s.spillOne core).zones = s.zones := by
  simp [State.spillOne]
  (repeat' split) <;> simp

@[simp] theorem State.replayAll_zones (s : State) (core n : Nat) : (s.replayAll core n).zones = s.zones := by
  induction n generalizing s with
  | zero => rfl
  | succ n ih =>
    unfold State.replayAll
    dsimp only
    split
    · rfl
    · split <;> simp [ih]

@[simp] theorem State.turnFuel_zones (s : State) : (s.turnFuel).2.zones = s.zones := by simp [State.turnFuel]
@[simp] theorem State.keepMisses_zones (s s1 : State) (core : Nat) : (s.keepMisses s1 core).zones = s.zones := by simp [State.keepMisses]
@[simp] theorem State.entered_zones (s : State) (c : Cmd) : (s.entered c).zones = s.zones := by simp [State.entered]
@[simp] theorem State.wakeEngine_zones (s : State) (core : Nat) : (s.wakeEngine core).zones = s.zones := by simp [State.wakeEngine]

@[simp] theorem State.engineFault_zones (s : State) (core : Nat) (r : Running) (cause : Nat) (value : Word) (utag : BitVec 14) :
    (s.engineFault core r cause value utag).zones = s.zones := by
  simp [State.engineFault, apply_ite State.zones]

@[simp] theorem State.engineDone_zones (s0 : State) (core : Nat) (r : Running) (f : Thread → Thread) : (s0.engineDone core r f).zones = s0.zones := by
  unfold State.engineDone
  (repeat' split) <;> simp

@[simp] theorem State.setRunning_zones (s : State) (core : Nat) (r : Running) : (s.setRunning core r).zones = s.zones := by simp [State.setRunning]
@[simp] theorem State.setEngine_zones (s : State) (core : Nat) (e : Engine) : (s.setEngine core e).zones = s.zones := by simp [State.setEngine]

@[simp] theorem State.cometPut_zones (s : State) (core : Nat) (root : Word) (c : Coord) (l : Leaf) : (s.cometPut core root c l).zones = s.zones := by
  simp [State.cometPut]

@[simp] theorem State.stopHere_zones (s : State) (core : Nat) (r : Running) : (s.stopHere core r).zones = s.zones := by simp [State.stopHere]
@[simp] theorem State.asLaunched_zones (s : State) (x : Transfer) : (s.asLaunched x).zones = s.zones := by simp [State.asLaunched]
@[simp] theorem State.asNow_zones (s1 : State) (s : State) (x : Transfer) : (s1.asNow s x).zones = s1.zones := by simp [State.asNow]
@[simp] theorem State.putTransfer_zones (s : State) (k : Nat) (x : Transfer) : (s.putTransfer k x).zones = s.zones := by simp [State.putTransfer]
@[simp] theorem State.dropTransfer_zones (s : State) (k : Nat) (x : Transfer) : (s.dropTransfer k x).zones = s.zones := by simp [State.dropTransfer]

@[simp] theorem State.endTransfer_zones (s : State) (k : Nat) (x : Transfer) (status : Nat) (fail : Word) (info : BitVec 14) :
    (s.endTransfer k x status fail info).zones = s.zones := by
  simp [State.endTransfer, apply_ite State.zones]

@[simp] theorem State.refuseTransfer_zones (s : State) (k : Nat) (x : Transfer) (addr : Word) (info : BitVec 14) :
    (s.refuseTransfer k x addr info).zones = s.zones := by
  simp [State.refuseTransfer]

@[simp] theorem State.takeReport_zones (s : State) (h : Hart) : (s.takeReport h).zones = s.zones := by
  simp [State.takeReport]
  (repeat' split) <;> simp

@[simp] theorem State.resolve_zones (s : State) (hub : Nat) (action : Nat) : (s.resolve_ hub action).zones = s.zones := by
  simp [State.resolve_]
  (repeat' split) <;> simp

@[simp] theorem State.mailbox_zones (s : State) : (s.mailbox).zones = s.zones := by simp [State.mailbox]

@[simp] theorem State.sendMiss_zones (s : State) (core : Nat) (dirty : Bool) : (s.sendMiss core dirty).zones = s.zones := by
  simp [State.sendMiss]
  (repeat' split) <;> simp

@[simp] theorem State.setDomain_zones (s : State) (n : Nat) (d : Domain) : (s.setDomain n d).zones = s.zones := by simp [State.setDomain]

@[simp] theorem State.putDomain_zones (s : State) (n : Nat) (d : Domain) : (s.putDomain n d).zones = s.zones := by
  simp [State.putDomain, apply_ite State.zones]

@[simp] theorem State.wakeReaders_zones (s : State) (d : Domain) : (s.wakeReaders d).zones = s.zones := by
  simp [State.wakeReaders, apply_ite State.zones]

@[simp] theorem State.applySig_zones (s : State) (n k : Nat) (f : Sig → Sig) : (s.applySig n k f).zones = s.zones := by
  unfold State.applySig
  split <;> simp

@[simp] theorem State.logRecord_zones (s : State) (d : Domain) (r : List Word) : (s.logRecord d r).zones = s.zones := by
  unfold State.logRecord
  (repeat' split) <;> simp

@[simp] theorem State.complete_zones (s : State) (h : Hart) (wait : Status) (len : Nat) : (s.complete h wait len).zones = s.zones := by
  simp [State.complete, apply_ite State.zones]

@[simp] theorem State.stopExchange_zones (s : State) (dom : Nat) (d : Domain) : (s.stopExchange dom d).zones = s.zones := by
  simp [State.stopExchange, apply_ite State.zones]

@[simp] theorem State.landBeat_zones (s : State) (o : BitVec 12) (f : Flying) : (s.landBeat o f).zones = s.zones := by simp [State.landBeat]

@[simp] theorem State.latch_zones (s : State) (dom : Nat) (d : Domain) : (s.latch dom d).zones = s.zones := by
  simp [State.latch, apply_ite State.zones]

@[simp] theorem State.leaveDomain_zones (s : State) (h : Hart) : (s.leaveDomain h).zones = s.zones := by
  unfold State.leaveDomain
  split <;> simp

@[simp] theorem State.retireNotices_zones (s : State) (core : Nat) (e : TlbEntry) : (s.retireNotices core e).zones = s.zones := by
  simp [State.retireNotices]

@[simp] theorem State.installTlb_zones (s : State) (core : Nat) (e : TlbEntry) : (s.installTlb core e).zones = s.zones := by simp [State.installTlb]

/-- The machine that an attempt to find lines leaves. -/
def RawMap.state : RawMap → State
  | .ok _ s => s
  | .wait s => s
  | .fault _ s => s

@[simp] theorem RawMap.state_ok (l : List RawAt) (s : State) : (RawMap.ok l s).state = s := rfl
@[simp] theorem RawMap.state_wait (s : State) : (RawMap.wait s).state = s := rfl
@[simp] theorem RawMap.state_fault (a : Word) (s : State) : (RawMap.fault a s).state = s := rfl

@[simp] theorem State.rawMap_zones (s : State) (h : Hart) (l : Level) (need : Need) (a : Word) (n : Nat) (acc : List RawAt) :
    (s.rawMap h l need a n acc).state.zones = s.zones := by
  induction n generalizing s a acc with
  | zero => rfl
  | succ n ih =>
    unfold State.rawMap
    (repeat' split) <;> simp [ih]

@[simp] theorem State.rawMeet_zones (s : State) (o : BitVec 12) (l : List (RawAt × Bool)) (i : Nat) : (s.rawMeet o l i).2.zones = s.zones := by
  induction l generalizing s i with
  | nil => rfl
  | cons x l ih =>
    obtain ⟨p, full⟩ := x
    cases p with
    | sram q off =>
      simp only [State.rawMeet]
      split
      · next mended => simpa using (congrArg (·.2.zones) mended).symm
      · next mended => simpa [ih] using (congrArg (·.2.zones) mended).symm
    | dram e pa => simp [State.rawMeet, ih, apply_ite Prod.snd, apply_ite State.zones]
    | _ => exact ih s (i + 1)

@[simp] theorem State.setCtx_zones (s : State) (n : Nat) (c : Ctx) : (s.setCtx n c).zones = s.zones := by simp [State.setCtx]

@[simp] theorem State.finishGroup_zones (s : State) (h : Hart) : (s.finishGroup h).zones = s.zones := by
  simp [State.finishGroup]
  (repeat' split) <;> simp

@[simp] theorem State.forgetTransfers_zones (s : State) (h : Hart) : (s.forgetTransfers h).zones = s.zones := by simp [State.forgetTransfers]
@[simp] theorem State.endNode_zones (s : State) (h : Hart) : (s.endNode h).zones = s.zones := by simp [State.endNode]

@[simp] theorem State.stopHeld_zones (s : State) (h : Hart) : (s.stopHeld h).zones = s.zones := by
  simp [State.stopHeld]
  (repeat' split) <;> simp

@[simp] theorem State.haltAccess_zones (s : State) (h : Hart) : (s.haltAccess h).zones = s.zones := by
  simp [State.haltAccess]
  (repeat' split) <;> simp

@[simp] theorem State.haltSend_zones (s : State) (h : Hart) : (s.haltSend h).zones = s.zones := by
  unfold State.haltSend
  (repeat' split) <;> simp

@[simp] theorem State.abandonMiss_zones (s : State) (h : Hart) (page : Nat) : (s.abandonMiss h page).zones = s.zones := by
  simp [State.abandonMiss, apply_ite State.zones]

@[simp] theorem State.haltThread_zones (s : State) (force : Bool) (h : Hart) : (s.haltThread force h).zones = s.zones := by
  simp [State.haltThread]
  (repeat' split) <;> simp

@[simp] theorem State.discard_zones (s : State) (core : Nat) (r : Running) (v : Word) (u : BitVec 14) : (s.discard core r v u).zones = s.zones := by
  simp [State.discard, apply_ite State.zones]

@[simp] theorem State.discardLoading_zones (s : State) (core : Nat) (r : Running) (v : Word) (u : BitVec 14) :
    (s.discardLoading core r v u).zones = s.zones := by
  simp [State.discardLoading]

@[simp] theorem State.discardStalled_zones (s : State) (core : Nat) : (s.discardStalled core).zones = s.zones := by
  simp [State.discardStalled]
  (repeat' split) <;> simp

@[simp] theorem State.stopTransfers_zones (s : State) (ctx : Nat) : (s.stopTransfers ctx).zones = s.zones := by
  simp [State.stopTransfers, apply_ite State.zones]

@[simp] theorem State.settle_zones (s : State) (ctx : Nat) : (s.settle ctx).zones = s.zones := by
  simp [State.settle]
  (repeat' split) <;> simp

@[simp] theorem State.haltThreads_zones (s : State) (ctx : Nat) (force : Bool) : (s.haltThreads ctx force).zones = s.zones := by
  simp [State.haltThreads]

@[simp] theorem State.expire_zones (s : State) (ctx : Nat) (c : Ctx) : (s.expire ctx c).zones = s.zones := by simp [State.expire]

@[simp] theorem State.requestHalt_zones (s : State) (ctx : Nat) (force : Bool) : (s.requestHalt ctx force).zones = s.zones := by
  unfold State.requestHalt
  (repeat' split) <;> simp

@[simp] theorem State.resumeThread_zones (s : State) (h : Hart) : (s.resumeThread h).zones = s.zones := by
  simp [State.resumeThread, apply_ite State.zones]

@[simp] theorem State.resumeCtx_zones (s : State) (ctx : Nat) : (s.resumeCtx ctx).zones = s.zones := by
  unfold State.resumeCtx
  split <;> simp

@[simp] theorem State.pick_zones (s : State) (codes : List Nat) : (s.pick codes).2.zones = s.zones := by
  unfold State.pick
  split <;> simp

@[simp] theorem State.cpPut_zones (s : State) (ctx a n v : Nat) : (s.cpPut ctx a n v).zones = s.zones := by
  unfold State.cpPut
  split <;> simp

@[simp] theorem State.cpStore_zones (s : State) (ctx a : Nat) (v : Word) : (s.cpStore ctx a v).zones = s.zones := by simp [State.cpStore]
@[simp] theorem State.cpWrite_zones (s : State) (ctx a : Nat) (bs : List Byte) : (s.cpWrite ctx a bs).zones = s.zones := by simp [State.cpWrite]
@[simp] theorem State.setGrid_zones (s : State) (g : Nat) (r : Grid) : (s.setGrid g r).zones = s.zones := by simp [State.setGrid]

@[simp] theorem State.signalEvent_zones (s : State) (ctx : Nat) (sig : Word) (f : Word → Word) : (s.signalEvent ctx sig f).zones = s.zones := by
  unfold State.signalEvent
  (repeat' split) <;> simp

@[simp] theorem State.endScan_zones (s : State) (q : Nat) : (s.endScan q).zones = s.zones := by
  unfold State.endScan
  split <;> simp

@[simp] theorem State.consume_zones (s : State) (q : Nat) (r : Queue) : (s.consume q r).zones = s.zones := by
  simp [State.consume]
  split <;> simp

@[simp] theorem State.reject_zones (s : State) (q : Nat) (r : Queue) (p : List Word) (code : Nat) : (s.reject q r p code).zones = s.zones := by
  simp [State.reject]

@[simp] theorem State.fireMarks_zones (s : State) (q : Nat) : (s.fireMarks q).zones = s.zones := by
  simp [State.fireMarks]
  (repeat' split) <;> simp

@[simp] theorem State.vacate_zones (s : State) (ctx : Nat) : (s.vacate ctx).zones = s.zones := by simp [State.vacate]
@[simp] theorem State.reap_zones (s : State) (ctx : Nat) : (s.reap ctx).zones = s.zones := by simp [State.reap, apply_ite State.zones]
@[simp] theorem State.afterGrid_zones (s : State) (g : Grid) : (s.afterGrid g).zones = s.zones := by simp [State.afterGrid]

@[simp] theorem State.applyRecs_zones (s : State) (gid : Nat) (o : BitVec 12) (place : Nat) : (s.applyRecs gid o place).zones = s.zones := by
  unfold State.applyRecs
  (repeat' split) <;> simp

@[simp] theorem State.startGroup_zones (s : State) (gid : Nat) (r : Group) : (s.startGroup gid r).zones = s.zones := by
  simp [State.startGroup]
  (repeat' split) <;> simp

@[simp] theorem State.release_zones (s : State) (ctx : Nat) : (s.release ctx).zones = s.zones := by
  unfold State.release
  split <;> simp

@[simp] theorem State.putData_zones (s : State) (r : Queue) (l : Launch) : (s.putData r l).zones = s.zones := by simp [State.putData]

@[simp] theorem State.setStep_zones (s : State) (q : Nat) (l : List Nat) : (s.setStep q l).zones = s.zones := by
  unfold State.setStep
  split <;> simp

@[simp] theorem State.takeSerial_zones (s : State) (q : Nat) (r : Queue) : (s.takeSerial q r).2.zones = s.zones := by
  unfold State.takeSerial
  split <;> simp

@[simp] theorem State.admitLaunch_zones (s : State) (q : Nat) (r : Queue) (p : List Word) (l : Launch) (serial : Nat) :
    (s.admitLaunch q r p l serial).zones = s.zones := by
  simp [State.admitLaunch]
  (repeat' split) <;> simp

@[simp] theorem State.cancelPackets_zones (s : State) (r : Queue) : (s.cancelPackets r).zones = s.zones := by
  unfold State.cancelPackets
  split
  · refine foldl_zones (fun x i => ?_) _ s
    split <;> simp [apply_ite State.zones]
  · rfl

@[simp] theorem State.unlive_zones (s : State) (qid : Nat) : (s.unlive qid).zones = s.zones := by
  unfold State.unlive
  split <;> simp

@[simp] theorem State.endDestroy_zones (s : State) (q : Nat) (r : Queue) (p : List Word) (gs : List Nat) :
    (s.endDestroy q r p gs).zones = s.zones := by
  simp [State.endDestroy, apply_ite State.zones]

@[simp] theorem State.logEntry_zones (s : State) (core : Nat) (e : BitVec 16) : (s.logEntry core e).zones = s.zones := by
  unfold State.logEntry
  split <;> simp

@[simp] theorem State.flushLog_zones (s : State) (core : Nat) : (s.flushLog core).zones = s.zones := by simp [State.flushLog]
@[simp] theorem State.logMarker_zones (s : State) (core : Nat) : (s.logMarker core).zones = s.zones := by simp [State.logMarker]

@[simp] theorem State.noteIssue_zones (s : State) (h : Hart) (old : Thread) : (s.noteIssue h old).zones = s.zones := by
  simp [State.noteIssue]
  (repeat' split) <;> simp

@[simp] theorem State.dropCaches_zones (s : State) (ctx : Nat) : (s.dropCaches ctx).zones = s.zones := by simp [State.dropCaches]

@[simp] theorem State.logMarkers_zones (s : State) (ctx : Nat) (checkpoint : Bool) : (s.logMarkers ctx checkpoint).zones = s.zones := by
  simp [State.logMarkers, apply_ite State.zones]

@[simp] theorem State.rawLines_zones (s : State) (a : Word) (n : Nat) : (s.rawLines a n).2.zones = s.zones := by
  unfold State.rawLines
  split
  · next l s1 mapped =>
    have first : s1.zones = s.zones := by simpa using (congrArg (·.state.zones) mapped).symm
    split
    · next met => simpa [first] using (congrArg (·.2.zones) met).symm
    · next met => simpa [first] using (congrArg (·.2.zones) met).symm
  · rfl

@[simp] theorem State.rawImage_zones (s : State) (a : Word) : (s.rawImage a).2.zones = s.zones := by
  have first := s.rawLines_zones a 1
  unfold State.rawImage
  split
  · next s1 e => rw [← first, e]
  · next h s1 e =>
    have others := s1.rawLines_zones a ((fieldAt h 16 8 + 63) / 64)
    rw [e] at first
    exact others.trans first

@[simp] theorem State.waits_zones (s : State) (ctx : Nat) (h : Hart) : (s.waits ctx h).zones = s.zones := by simp [State.waits]

@[simp] theorem State.repark_zones (s : State) (l : List (SavedPark × Access)) (e : SavedPark) : (s.repark l e).zones = s.zones := by
  unfold State.repark
  split <;> simp

@[simp] theorem State.seat_zones (s : State) (h : Hart) : (s.seat h).zones = s.zones := by
  unfold State.seat
  (repeat' split) <;> simp

@[simp] theorem State.markExited_zones (s : State) (ctx : Nat) (keys : List Nat) : (s.markExited ctx keys).zones = s.zones := by
  simp [State.markExited]

@[simp] theorem State.resumeRestored_zones (s : State) (keys : List Nat) : (s.resumeRestored keys).zones = s.zones := by simp [State.resumeRestored]

@[simp] theorem State.flip_zones (s : State) (place unit kind : Nat) : (s.flip place unit kind).zones = s.zones := by
  simp [State.flip, apply_ite State.zones]

@[simp] theorem State.passEnds_zones (s : State) (place : Nat) : (s.passEnds place).zones = s.zones := by
  unfold State.passEnds
  split <;> simp

@[simp] theorem State.scrubbed_zones (s : State) (place unit total : Nat) : (s.scrubbed place unit total).zones = s.zones := by
  simp [State.scrubbed, apply_ite State.zones]

@[simp] theorem State.scrubLine_zones (s : State) (line : Nat) : (s.scrubLine line).zones = s.zones := by simp [State.scrubLine]

@[simp] theorem State.scrubWord_zones (s : State) (p : Place) (w : Nat) : (s.scrubWord p w).zones = s.zones := by
  unfold State.scrubWord
  split <;> simp

@[simp] theorem State.drainErrors_zones (s : State) (n : Nat) : (s.drainErrors n).zones = s.zones := by simp [State.drainErrors]
@[simp] theorem State.setConn_zones (s : State) (fn : Nat) (c : Conn) : (s.setConn fn c).zones = s.zones := by simp [State.setConn]
@[simp] theorem State.releaseKey_zones (s : State) : (s.releaseKey).zones = s.zones := by simp [State.releaseKey, apply_ite State.zones]

@[simp] theorem State.measureLoad_zones (s : State) (i : Fin 8) (digest : BitVec 512) : (s.measureLoad i digest).zones = s.zones := by
  simp [State.measureLoad, apply_ite State.zones]

@[simp] theorem State.signed_zones (s : State) (fn : Nat) (c : Conn) (nonce : BitVec 256) : (s.signed fn c nonce).zones = s.zones := by
  simp [State.signed]

@[simp] theorem State.debugStatus_zones (s : State) (status : Nat) : (s.debugStatus status).zones = s.zones := by simp [State.debugStatus]
@[simp] theorem State.clearLogs_zones (s : State) (ctx : Nat) : (s.clearLogs ctx).zones = s.zones := by simp [State.clearLogs]
@[simp] theorem State.clearCtx_zones (s : State) (ctx : Nat) : (s.clearCtx ctx).zones = s.zones := by simp [State.clearCtx]
@[simp] theorem State.flushLogs_zones (s : State) (ctx : Nat) : (s.flushLogs ctx).zones = s.zones := by simp [State.flushLogs]

@[simp] theorem State.endReplay_zones (s : State) (ctx : Nat) (c : Ctx) (status : Nat) : (s.endReplay ctx c status).zones = s.zones := by
  simp [State.endReplay]

@[simp] theorem State.latchHalt_zones (s : State) (dom : Nat) : (s.latchHalt dom).zones = s.zones := by
  simp [State.latchHalt]
  (repeat' split) <;> simp

@[simp] theorem State.destroyQueue_zones (s : State) (q : Nat) : (s.destroyQueue q).zones = s.zones := by
  unfold State.destroyQueue
  split <;> simp

@[simp] theorem State.failBank_zones (s : State) (core bank : Nat) : (s.failBank core bank).zones = s.zones := by
  simp [State.failBank, apply_ite State.zones]

@[simp] theorem State.stopsAt_zones (s : State) (step : Nat) : (s.stopsAt step).zones = s.zones := by simp [State.stopsAt]
@[simp] theorem State.measure_zones (s : State) (i : Fin 8) (digest : BitVec 512) : (s.measure i digest).zones = s.zones := by simp [State.measure]

@[simp] theorem State.startFirmware_zones (s : State) (cfg : BringUp) : (s.startFirmware cfg).zones = s.zones := by
  simp [State.startFirmware, apply_ite State.zones]

@[simp] theorem State.packOperand_zones (s : State) (pk : Pack) (a : Opnd) : (s.packOperand pk a).2.zones = s.zones := by
  unfold State.packOperand
  split <;> rfl

@[simp] theorem State.leaveLoad_zones (s : State) (h : Hart) : (s.leaveLoad h).zones = s.zones := by
  simp [State.leaveLoad]
  split <;> simp

@[simp] theorem State.withFetchWord_zones (s : State) (_nbits w : Nat) : (s.withFetchWord _nbits w).zones = s.zones := by simp [State.withFetchWord]

end Sys2Proof.Machine
end

section
/-! SUPPORT. Instruction fetch keeps the partitions apart (O56). -/

namespace Sys2Proof.Machine

/-! ## Fetch -/

/-- The machine that a fetched halfword leaves, when it leaves one. -/
def FetchRes.Apart : FetchRes → Prop
  | .half _ s => s.zones.Apart
  | .wait s => s.zones.Apart
  | .lost _ s => s.zones.Apart
  | .fault _ _ => True
  | .hole _ => True

/-- Every machine that an outcome leaves keeps the partitions apart. -/
def Keeps : Result → Prop
  | .next t => t.zones.Apart
  | _ => True

@[simp] theorem keeps_next (t : State) : Keeps (.next t) ↔ t.zones.Apart := Iff.rfl
@[simp] theorem keeps_fault (f : Fault) : Keeps (.fault f) := trivial

/-- A sum of what stops a fetch and what it has fetched. -/
def fetchedApart {α : Type} : FetchRes ⊕ (α × State) → Prop
  | .inl r => r.Apart
  | .inr p => p.2.zones.Apart

@[simp] theorem fetchApart_half (v : Half) (s : State) : (FetchRes.half v s).Apart ↔ s.zones.Apart := Iff.rfl
@[simp] theorem fetchApart_wait (s : State) : (FetchRes.wait s).Apart ↔ s.zones.Apart := Iff.rfl
@[simp] theorem fetchApart_lost (v : Word) (s : State) : (FetchRes.lost v s).Apart ↔ s.zones.Apart := Iff.rfl
@[simp] theorem fetchApart_fault (c : Nat) (v : Word) : (FetchRes.fault c v).Apart := trivial
@[simp] theorem fetchApart_hole (pa : Nat) : (FetchRes.hole pa).Apart := trivial

section
variable {s : State} (apart : s.zones.Apart)
include apart

theorem State.fetchHalf_apart (h : Hart) (a : Word) : (s.fetchHalf h a).Apart := by
  unfold State.fetchHalf
  dsimp only
  split
  · simp
  · split
    · simp
    · split
      · next mended => simpa [apart] using congrArg (·.2.zones.Apart) mended
      · next mended => simpa [apart] using congrArg (·.2.zones.Apart) mended
  · (repeat' split) <;> simp [apart]
  · (repeat' split) <;> simp [apart]
  · split <;> simp [apart]

end

theorem State.fetchHalves_apart (h : Hart) (n : Nat) {s : State} (apart : s.zones.Apart) (a : Word) (acc : List Half) :
    fetchedApart (s.fetchHalves h a n acc) := by
  induction n generalizing s a acc with
  | zero => exact apart
  | succ n ih =>
    have half := State.fetchHalf_apart apart h a
    unfold State.fetchHalves
    split
    · next fetched => exact ih (by rwa [fetched] at half) _ _
    · exact half

/-- What a fetch comes to keeps the partitions apart. -/
def Fetched.Apart : Fetched → Prop
  | .run _ s => s.zones.Apart
  | .stop r => Keeps r

@[simp] theorem fetchedApart_run (i : Instr) (s : State) : (Fetched.run i s).Apart ↔ s.zones.Apart := Iff.rfl
@[simp] theorem fetchedApart_stop (r : Result) : (Fetched.stop r).Apart ↔ Keeps r := Iff.rfl

section
variable {s : State} (apart : s.zones.Apart)
include apart

@[simp] theorem State.trapMe_keeps (cause : Nat) (value : Word) : Keeps (s.trapMe cause value) := by simp [State.trapMe, apart]
@[simp] theorem execIllegalInstruction_keeps (w : BitVec 32) : Keeps (execIllegalInstruction w s) := by
  simp [execIllegalInstruction, State.trapMe_keeps apart]

@[simp] theorem stopFetch_keeps {r : FetchRes} (fetched : r.Apart) : Keeps (stopFetch s r) := by
  unfold stopFetch
  split <;> simp_all [execInstructionFetchFault, State.trapMe_keeps]

theorem decodeBody_apart (core : Nat) (l : Level) (bs : List Byte) : (decodeBody core l bs s).Apart := by
  unfold decodeBody
  dsimp only
  (repeat' split) <;> simp [apart, execIllegalInstruction_keeps]

theorem State.fetch_apart : s.fetch.Apart := by
  have first := State.fetchHalves_apart s.cur 1 apart s.me.pc []
  unfold State.fetch
  dsimp only
  split
  · exact decodeBody_apart apart _ _ _
  · split
    · next e => rw [e] at first; exact stopFetch_keeps apart first
    · next lo s1 e =>
      rw [e] at first
      have second := State.fetchHalves_apart s.cur 1 first (s.me.pc + 2) []
      split
      · split
        · simpa using show s1.zones.Apart from first
        · exact execIllegalInstruction_keeps first _
      · split
        · next e => rw [e] at second; exact stopFetch_keeps first second
        · next hi s2 e =>
          rw [e] at second
          split
          · exact execIllegalInstruction_keeps second _
          · split
            · exact execIllegalInstruction_keeps second _
            · have third := State.fetchHalves_apart s.cur (wordLitBytes (BitVec.ofNat 32 (halvesNat lo + 65536 * halvesNat hi)) / 2) second (s.me.pc + 4) []
              split
              · next e => rw [e] at third; exact stopFetch_keeps second third
              · next e =>
                rw [e] at third
                split
                · simpa using show State.zones _ |>.Apart from third
                · exact execIllegalInstruction_keeps third _

end

end Sys2Proof.Machine
end

section
/-! SUPPORT. Accesses keep the partitions apart (O56): a write of PARTCL gives no cluster away twice, and a withheld one to none (R352, R409). -/

namespace Sys2Proof.Machine

/-! ## Writes of partition registers (R352), and clusters that are withheld (R409) -/

/-- A partition whose clusters change as R352 lets them: none of another partition, and none that is withheld. -/
theorem Zones.Apart.set {s : State} (apart : s.zones.Apart) {n : Nat} {p : Part}
    (free : ∀ c ∈ p.clusters, c ∈ (s.part n).clusters ∨ c ∉ s.dev.withheld ∧ ∀ q ∈ s.parts, q.1 ≠ n → c ∉ q.2.clusters) :
    (s.setPart n p).zones.Apart := by
  have before := (State.partitionsApart_iff s).mpr apart
  have part_set (m : Nat) : (s.setPart n p).part m = if m = n then p else s.part m := by
    simp only [State.part, State.setPart, Tab.find?_set]
    split <;> rfl
  have alien {m c : Nat} (other : m ≠ n) (mine : c ∈ p.clusters) : c ∉ (s.part m).clusters := by
    intro theirs
    rcases free c mine with old | ⟨-, none_⟩
    · exact other (before.disjoint m n c theirs old)
    · unfold State.part at theirs
      cases found : Tab.find? s.parts m with
      | none => rw [found] at theirs; cases theirs
      | some q => rw [found] at theirs; exact none_ (m, q) (Tab.mem_of_find? found) other theirs
  refine (State.partitionsApart_iff _).mp ⟨fun a b c ha hb => ?_, fun m c hm => ?_⟩
  · rw [part_set] at ha hb
    split at ha <;> split at hb
    · next ha' hb' => rw [ha', hb']
    · next other => exact absurd hb (alien other ha)
    · next other _ => exact absurd ha (alien other hb)
    · exact before.disjoint a b c ha hb
  · rw [part_set] at hm
    split at hm
    · rcases free c hm with old | ⟨fresh, -⟩
      · exact before.withheld n c old
      · exact fresh
    · exact before.withheld m c hm

theorem Zones.Apart.set_same {s : State} (apart : s.zones.Apart) {n : Nat} {p : Part} (same : p.clusters = (s.part n).clusters) :
    (s.setPart n p).zones.Apart := apart.set fun c mine => .inl (by rwa [← same])

@[simp] theorem State.writePartcl_apart {s : State} (apart : s.zones.Apart) (n j : Nat) (v : Word) : (s.writePartcl n j v).zones.Apart := by
  unfold State.writePartcl
  dsimp only
  split
  · exact apart
  · next accepted =>
    rw [partcl_refused_iff, not_not] at accepted
    refine apart.set fun c mine => ?_
    rcases List.mem_append.mp mine with old | new
    · exact .inl (List.mem_filter.mp old).1
    · exact .inr (accepted.1 c new)

@[simp] theorem State.writeDev_apart {s : State} (apart : s.zones.Apart) (r : DevReg) (v : Word) : (s.writeDev r v).zones.Apart := by
  cases r with
  | partcl n j => exact s.writePartcl_apart apart n j v
  | orbit k => simpa [State.writeDev] using apart
  | haltwd n =>
    simp only [State.writeDev, State.writeHaltwd]
    split
    · exact apart.set_same rfl
    · exact apart
  | gdwd n =>
    simp only [State.writeDev, State.writeGdwd]
    split
    · exact apart.set_same rfl
    · exact apart
  | partown n =>
    simp only [State.writeDev, State.writePartown]
    split
    · exact apart
    · exact apart.set_same rfl

/-- R409: a cluster that is withheld leaves its partition. -/
@[simp] theorem State.withhold_apart {s : State} (apart : s.zones.Apart) (cluster : Nat) : (s.withhold cluster).zones.Apart := by
  have before := (State.partitionsApart_iff s).mpr apart
  have part_withhold (m c : Nat) : c ∈ ((s.withhold cluster).part m).clusters ↔ c ∈ (s.part m).clusters ∧ c ≠ cluster := by
    simp only [State.part, State.withhold, Tab.find?_map_key]
    cases Tab.find? s.parts m with
    | none => simp [Part.init]
    | some p => simp
  refine (State.partitionsApart_iff _).mp ⟨fun a b c ha hb => ?_, fun m c hm => ?_⟩
  · exact before.disjoint a b c ((part_withhold a c).mp ha).1 ((part_withhold b c).mp hb).1
  · obtain ⟨mine, other⟩ := (part_withhold m c).mp hm
    have unheld := before.withheld m c mine
    simp only [State.withhold]
    split <;> simp [unheld, other]

/-! ## Accesses (R58, R59, R77) -/

section
variable {s : State} (apart : s.zones.Apart)
include apart

@[simp] theorem State.physOp_apart (a : Access) : (s.physOp a).2.zones.Apart := by
  unfold State.physOp
  dsimp only
  (repeat' split) <;> simp [apart, State.writeDev_apart]

/-- What a redirected access comes to keeps the partitions apart. -/
def Redirected.Apart : Redirected → Prop
  | .answer _ s => s.zones.Apart
  | .here _ _ s => s.zones.Apart
  | .sent s => s.zones.Apart

theorem State.redirected_apart (a : Access) (target : Word) : (s.redirected a target).Apart := by
  unfold State.redirected
  dsimp only
  (repeat' split) <;> simp [Redirected.Apart, apart, State.physOp_apart]

@[simp] theorem State.serve_apart (p : Place) (a : Access) (again : Bool) : (s.serve p a again).2.2.zones.Apart := by
  have operated := s.bankOp_zones p a again
  unfold State.serve
  generalize s.bankOp p a again = r at operated ⊢
  obtain ⟨r, s1⟩ := r
  have apart1 : s1.zones.Apart := by rwa [show s1.zones = s.zones from operated]
  cases r with
  | redirect target =>
    have redirected := State.redirected_apart apart1 a target
    dsimp only
    split
    · next e => rw [e] at redirected; exact redirected
    · next e => rw [e] at redirected; exact redirected
    · next p' a' s2 e =>
      rw [e] at redirected
      have again := s2.bankOp_zones p' a' false
      have apart2 : s2.zones.Apart := redirected
      split <;> next e2 => rw [e2] at again; simp [show _ = s2.zones from again, apart2]
  | _ => simpa using apart1

@[simp] theorem State.sramAccess_keeps (p : Place) (a : Access) (f : Finish) (len : Nat) : Keeps (s.sramAccess p a f len) := by
  have served := State.serve_apart (s := { s with nextId := s.nextId + 1 }) apart p a false
  unfold State.sramAccess
  dsimp only
  split
  · split <;> next e => rw [e] at served; simpa using served
  · simp [apart]

@[simp] theorem State.devAccess_apart (a : Access) (f : Finish) (len : Nat) : (s.devAccess a f len).zones.Apart := by
  have performed := State.physOp_apart apart a
  unfold State.devAccess
  split <;> next e => rw [e] at performed; simpa using performed

@[simp] theorem State.scalarAt_keeps (q : Scalar) (t : Target) : Keeps (s.scalarAt q t) := by
  unfold State.scalarAt
  dsimp only
  (repeat' split) <;> simp [apart, State.trapMe_keeps, State.sramAccess_keeps, State.devAccess_apart]

@[simp] theorem State.scalar_keeps (q : Scalar) (stays : Bool) : Keeps (s.scalar q stays) := by
  unfold State.scalar
  (repeat' split) <;> simp [apart, State.trapMe_keeps, State.scalarAt_keeps]

@[simp] theorem State.load_keeps (k : LdKind) (d : Fin 32) (base : Opnd) (off : BitVec 9) :
    Keeps (s.load k d base off) := State.scalar_keeps apart _ _

@[simp] theorem State.store_keeps (k : StKind) (d base : Opnd) (off : BitVec 9) : Keeps (s.store k d base off) := State.scalar_keeps apart _ _

@[simp] theorem State.block_keeps (w : Status) : Keeps (s.block w) := by simp [State.block, apart]

@[simp] theorem State.atomic_keeps (op : Amo) (d : Fin 32) (a b : Opnd) (ord : Ord) : Keeps (s.atomic op d a b ord) := by
  unfold State.atomic
  dsimp only
  (repeat' split) <;> simp [apart, State.trapMe_keeps, State.scalarAt_keeps, State.block_keeps]

@[simp] theorem State.tagAccess_keeps (op : AccOp) (cls : Class) (a : Opnd) (data cmp : Word) (fin : Finish) (len : Nat) :
    Keeps (s.tagAccess op cls a data cmp fin len) := by
  unfold State.tagAccess
  dsimp only
  split <;> simp [apart, State.trapMe_keeps, State.scalarAt_keeps]

@[simp] theorem State.tableAccess_keeps (op : AccOp) (sel data : Word) (fin : Finish) (len : Nat) : Keeps (s.tableAccess op sel data fin len) := by
  unfold State.tableAccess
  dsimp only
  (repeat' split) <;> simp [apart, State.trapMe_keeps, State.sramAccess_keeps]

@[simp] theorem State.arrive_apart (a : Access) : (s.arrive a).zones.Apart := by
  unfold State.arrive
  dsimp only
  split
  · next p _ =>
    have served := State.serve_apart apart p a false
    split <;> next e => rw [e] at served; simpa using served
  · simp [apart]
  · (repeat' split) <;> simp [apart]
  · exact apart

@[simp] theorem State.gatherLane_apart (a : Access) : (s.gatherLane a).2.zones.Apart := by
  unfold State.gatherLane
  split
  · next p _ =>
    have served := State.serve_apart apart p a true
    split
    · next e => rw [e] at served; exact State.serve_apart served p a true
    · next e => rw [e] at served; exact served
  · simp [apart]

end

@[simp] theorem State.gatherLine_apart {s : State} (apart : s.zones.Apart) (as : List Access) : (s.gatherLine as).zones.Apart := by
  induction as generalizing s with
  | nil => exact apart
  | cons a as ih =>
    have gathered := State.gatherLane_apart apart a
    unfold State.gatherLine
    split <;> next e => rw [e] at gathered; simp [ih, show State.zones _ |>.Apart from gathered]

end Sys2Proof.Machine
end

section
/-! SUPPORT. The accesses of a matrix engine keep the partitions apart (O56). -/

namespace Sys2Proof.Machine

/-! ## Accesses of an engine

A sequence of them keeps the partitions apart when the turn that it leaves, wherever it ends, has them apart. -/

def Eng.Apart {α : Type} : Eng α → Prop
  | .ok _ e => e.s.zones.Apart
  | .stall e => e.s.zones.Apart
  | .fault _ _ _ e => e.s.zones.Apart

section
variable {α β : Type}

@[simp] theorem Eng.apart_ok (v : α) (e : EngRun) : (Eng.ok v e).Apart ↔ e.s.zones.Apart := Iff.rfl
@[simp] theorem Eng.apart_stall (e : EngRun) : (Eng.stall e : Eng α).Apart ↔ e.s.zones.Apart := Iff.rfl
@[simp] theorem Eng.apart_fault (c : Nat) (v : Word) (u : BitVec 14) (e : EngRun) : (Eng.fault c v u e : Eng α).Apart ↔ e.s.zones.Apart := Iff.rfl

theorem Eng.Apart.andThen {x : Eng α} {f : α → EngRun → Eng β} (first : x.Apart) (others : ∀ v e, e.s.zones.Apart → (f v e).Apart) :
    (x.andThen f).Apart := by
  cases x with
  | ok v e => exact others v e first
  | stall e => exact first
  | fault c v u e => exact first

theorem Eng.Apart.tense {x : Eng α} (apart : x.Apart) : x.tense.Apart := by cases x <;> exact apart

end

section
variable {e : EngRun} (apart : e.s.zones.Apart)
include apart

theorem EngRun.choose_apart : e.choose.Apart := by
  unfold EngRun.choose
  split <;> simpa using apart

omit apart in
theorem EngRun.replied_apart (r : Reply) {s : State} (after : s.zones.Apart) : (e.replied r s).Apart := by cases r <;> exact after

theorem EngRun.serve_apart (p : Place) (a : Access) : (e.serve p a).Apart := by
  have served := State.serve_apart (s := { e.s with nextId := e.s.nextId + 1 }) apart p a false
  unfold EngRun.serve
  split <;> next done =>
    rw [done] at served
    simp [EngRun.replied_apart, EngRun.waitFor, show State.zones _ |>.Apart from served]

theorem EngRun.travel_apart (a : Access) : (e.travel a).Apart := by
  unfold EngRun.travel
  dsimp only
  (repeat' split) <;> simp [apart, EngRun.serve_apart, EngRun.replied_apart, EngRun.waitFor]

theorem EngRun.at_apart (cls : Class) (op : AccOp) (addr : Word) (n value : Nat) (t : Target) : (e.at_ cls op addr n value t).Apart := by
  unfold EngRun.at_
  dsimp only
  (repeat' split) <;> simp [apart, EngRun.travel_apart, EngRun.serve_apart, EngRun.replied_apart, State.physOp_apart, EngRun.missed, EngRun.soiled,
    apply_ite Eng.Apart]

theorem EngRun.word_apart (cls : Class) (op : AccOp) (addr : Word) (n value : Nat) : (e.word cls op addr n value).Apart := by
  unfold EngRun.word
  (repeat' split) <;> simp [apart, EngRun.replied_apart, EngRun.at_apart]

end

theorem EngRun.reads_apart (cls : Class) (addr : Word) (ps : List (Nat × Nat)) {e : EngRun} (apart : e.s.zones.Apart) (acc : Nat) :
    (e.reads cls addr ps acc).Apart := by
  induction ps generalizing e acc with
  | nil => exact apart
  | cons p ps ih => exact (EngRun.word_apart apart _ _ _ _ _).andThen fun _ _ apart1 => ih apart1 _

theorem EngRun.writes_apart (cls : Class) (addr : Word) (value : Nat) (ps : List (Nat × Nat)) {e : EngRun} (apart : e.s.zones.Apart) :
    (e.writes cls addr value ps).Apart := by
  induction ps generalizing e with
  | nil => exact apart
  | cons p ps ih => exact (EngRun.word_apart apart _ _ _ _ _).andThen fun _ _ apart1 => ih apart1

section
variable {e : EngRun} (apart : e.s.zones.Apart)
include apart

theorem EngRun.read_apart (cls : Class) (addr : Word) (n : Nat) : (e.read cls addr n).Apart := EngRun.reads_apart _ _ _ apart _
theorem EngRun.write_apart (cls : Class) (addr : Word) (n value : Nat) : (e.write cls addr n value).Apart := EngRun.writes_apart _ _ _ _ apart

theorem EngRun.atomic_apart {f : EngRun → Eng (Option (List Nat))} (kept : ∀ g : EngRun, g.s.zones.Apart → (f g).Apart) : (e.atomic f).Apart := by
  have whole := kept { e with made := [], fuel := 2 ^ 64, port := { e.port with wait := none, answer := none } } apart
  unfold EngRun.atomic
  split
  · exact apart
  · split
    · exact apart
    · split
      · next done => rw [done] at whole; exact whole
      · exact apart
      · simpa using apart
      · next done =>
        rw [done] at whole
        rw [Eng.apart_fault]
        split
        · exact whole
        · exact apart

end

/-! ## Writes of an engine in pieces, and its operands (R227, R228) -/

section
variable {e : EngRun} (apart : e.s.zones.Apart)
include apart

theorem EngRun.piece_apart (p : Piece) (op : AccOp) : (e.piece p op).Apart := by
  unfold EngRun.piece
  split
  · exact apart
  · exact EngRun.word_apart apart _ _ _ _ _

theorem EngRun.operand_apart (off : Nat) : (e.operand off).Apart := by
  unfold EngRun.operand
  (repeat' split) <;> simp [apart, EngRun.replied_apart, EngRun.at_apart]

end

theorem EngRun.pieces_apart (ps : List Piece) {e : EngRun} (apart : e.s.zones.Apart) : (e.pieces ps).2.Apart := by
  induction ps generalizing e with
  | nil => exact apart
  | cons p ps ih =>
    have first := EngRun.piece_apart apart p .store
    unfold EngRun.pieces
    split <;> next done => rw [done] at first; simp [ih, show State.zones _ |>.Apart from first]

theorem EngRun.operands_apart (l : List (Nat × Nat)) {e : EngRun} (apart : e.s.zones.Apart) (ws : Tab Word) : (e.operands l ws).2.2.Apart := by
  induction l generalizing e ws with
  | nil => exact apart
  | cons x l ih =>
    have first := EngRun.operand_apart apart x.2
    unfold EngRun.operands
    split <;> next done => rw [done] at first; simp [ih, show State.zones _ |>.Apart from first]

/-- What a command that commits as a whole comes to keeps the partitions apart. -/
def Whole.Apart : Whole → Prop
  | .ok e => e.s.zones.Apart
  | _ => True

theorem EngRun.tryAll_apart (ps : List Piece) {e : EngRun} (apart : e.s.zones.Apart) (st : Option Piece) : (e.tryAll ps st).Apart := by
  induction ps generalizing e st with
  | nil =>
    cases st with
    | none => exact apart
    | some p => trivial
  | cons p ps ih =>
    have first := EngRun.piece_apart (e := { e with port := { Port.idle with dirty := e.port.dirty }, todo := [], fuel := 2 ^ 64 }) apart p .store
    unfold EngRun.tryAll
    split
    · next done => rw [done] at first; exact ih first st
    · exact ih apart _
    · trivial

end Sys2Proof.Machine
end

section
/-! SUPPORT. The commands of a matrix engine keep the partitions apart (O56). -/

namespace Sys2Proof.Machine

/-! ## Walks, reads and writes of the comet structures (R118 to R129, R256 to R269) -/

section
variable {e : EngRun} (apart : e.s.zones.Apart)
include apart

theorem EngRun.cometPut_apart (root : Word) (c : Coord) (l : Leaf) : (e.cometPut root c l).s.zones.Apart := by simpa [EngRun.cometPut] using apart

omit apart in
theorem EngRun.walkTree_apart (root : Word) (c : Coord) (n : Nat) {e : EngRun} (apart : e.s.zones.Apart) (level table : Nat) :
    (e.walkTree root c n level table).Apart := by
  induction n generalizing e level table with
  | zero => exact apart
  | succ n ih =>
    refine (EngRun.read_apart apart _ _ _).andThen fun v e1 apart1 => ?_
    dsimp only
    (repeat' split) <;> simp [apart1, ih]

theorem EngRun.walk_apart (root : Word) (c : Coord) : (e.walk_ root c).Apart := by
  have finish (l : Leaf) (e1 : EngRun) (apart1 : e1.s.zones.Apart) : (match l.bad root e1.owner with
      | some r => Eng.fault 25 (c.pack r) 0 e1
      | none => Eng.ok l (if l.present then e1.cometPut root c l else e1)).Apart := by
    split
    · exact apart1
    · rw [Eng.apart_ok]
      split
      · exact EngRun.cometPut_apart apart1 _ _ _
      · exact apart1
  unfold EngRun.walk_
  dsimp only
  split
  · exact apart
  · split
    · exact (EngRun.read_apart apart _ _ _).andThen fun v e1 apart1 => finish _ _ apart1
    · exact (EngRun.walkTree_apart _ _ _ apart _ _).andThen fun a e1 apart1 =>
        (EngRun.read_apart apart1 _ _ _).andThen fun v e2 apart2 => finish _ _ apart2

theorem EngRun.freeList_apart : e.freeList.Apart := by
  refine (EngRun.read_apart apart _ _ _).andThen fun v e1 apart1 => ?_
  dsimp only
  split <;> exact apart1

theorem EngRun.look_apart : e.look.Apart :=
  Eng.Apart.andThen (EngRun.atomic_apart apart fun _ apartg => (EngRun.freeList_apart apartg).andThen fun _ _ apart1 => apart1) fun _ _ apart1 => apart1

omit apart in
theorem EngRun.ringRead_apart (f : FreeList) (n : Nat) {e : EngRun} (apart : e.s.zones.Apart) (i : Nat) (acc : List Nat) :
    (e.ringRead f i n acc).Apart := by
  induction n generalizing e i acc with
  | zero => exact apart
  | succ n ih =>
    refine (EngRun.read_apart apart _ _ _).andThen fun v e1 apart1 => ?_
    split
    · exact ih apart1 _ _
    · exact apart1

omit apart in
theorem EngRun.pushPages_apart (f : FreeList) (vs : List Nat) {e : EngRun} (apart : e.s.zones.Apart) (i : Nat) : (e.pushPages f i vs).Apart := by
  induction vs generalizing e i with
  | nil => exact EngRun.write_apart apart _ _ _ _
  | cons v vs ih => exact (EngRun.write_apart apart _ _ _ _).andThen fun _ _ apart1 => ih apart1 _

theorem EngRun.readStruct_apart (a : Word) (n align : Nat) : (e.readStruct a n align).Apart := by
  unfold EngRun.readStruct
  (repeat' split) <;> simp [apart, EngRun.read_apart]

theorem EngRun.enterLeaf_apart (addr : Nat) : (e.enterLeaf addr).Apart := by
  refine EngRun.atomic_apart apart fun _ apartg => (EngRun.read_apart apartg _ _ _).andThen fun v g1 apart1 => ?_
  dsimp only
  split
  · exact apart1
  · exact (EngRun.write_apart apart1 _ _ _ _).andThen fun _ _ apart2 => apart2

theorem EngRun.evenLeaf_apart (addr : Nat) : (e.evenLeaf addr).Apart :=
  Eng.Apart.andThen (EngRun.atomic_apart apart fun _ apartg => (EngRun.read_apart apartg _ _ _).andThen fun _ _ apart1 => apart1) fun _ _ apart1 => apart1

theorem EngRun.bump_apart (addr : Nat) : (e.bump addr).Apart :=
  Eng.Apart.andThen (EngRun.atomic_apart apart fun _ apartg => (EngRun.read_apart apartg _ _ _).andThen fun _ _ apart1 =>
    (EngRun.write_apart apart1 _ _ _ _).andThen fun _ _ apart2 => apart2) fun _ _ apart1 => apart1

/-! ## CM.APPEND (R125 to R129) -/

omit apart in
theorem EngRun.appendCheck_apart (root : Word) (q p : Nat) (l : List (Nat × Nat)) {e : EngRun} (apart : e.s.zones.Apart) (acc : List (Coord × Leaf)) :
    (e.appendCheck root q p l acc).Apart := by
  induction l generalizing e acc with
  | nil => exact apart
  | cons x l ih =>
    refine (EngRun.walk_apart apart _ _).andThen fun l e1 apart1 => ?_
    split
    · exact apart1
    · exact ih apart1 _

omit apart in
theorem EngRun.appendRows_apart (n : Nat) (key val : Word) (k : Nat) {e : EngRun} (apart : e.s.zones.Apart) (i : Nat) (acc : List (Nat × Nat)) :
    (e.appendRows n key val k i acc).Apart := by
  induction k generalizing e i acc with
  | zero => exact apart
  | succ k ih =>
    exact (EngRun.read_apart apart _ _ _).andThen fun _ _ apart1 => (EngRun.read_apart apart1 _ _ _).andThen fun _ _ apart2 => ih apart2 _ _

theorem EngRun.popLook_apart (n : Nat) : (e.popLook n).Apart := by
  unfold EngRun.popLook
  split
  · exact apart
  · refine (EngRun.look_apart apart).andThen fun f e1 apart1 => ?_
    split
    · exact apart1
    · exact (EngRun.ringRead_apart _ _ apart1 _ _).andThen fun _ _ apart2 => apart2

theorem EngRun.popTake_apart (f : Option FreeList) (n : Nat) : (e.popTake f n).Apart := by
  unfold EngRun.popTake
  split
  · exact apart
  · refine (EngRun.atomic_apart apart fun _ apartg => (EngRun.freeList_apart apartg).andThen fun x g1 apart1 => ?_).andThen fun _ _ apart1 => apart1
    split
    · exact (EngRun.write_apart apart1 _ _ _ _).andThen fun _ _ apart2 => apart2
    · exact apart1

theorem EngRun.popUndo_apart (f : Option FreeList) (pages : List Nat) : (e.popUndo f pages).Apart := by
  unfold EngRun.popUndo
  split
  · exact apart
  · refine (EngRun.atomic_apart apart fun _ apartg => (EngRun.freeList_apart apartg).andThen fun x g1 apart1 => ?_).andThen fun _ _ apart1 => apart1
    split
    · exact (EngRun.write_apart apart1 _ _ _ _).andThen fun _ _ apart2 => apart2
    · split
      · exact apart1
      · exact (EngRun.pushPages_apart _ _ apart1 _).andThen fun _ _ apart2 => apart2

omit apart in
theorem EngRun.framesOk_apart (vas : List Nat) {e : EngRun} (apart : e.s.zones.Apart) : (e.framesOk vas).Apart := by
  induction vas generalizing e with
  | nil => exact apart
  | cons va vas ih =>
    unfold EngRun.framesOk
    split
    · exact ih apart
    · split
      · exact ih (by simpa [EngRun.did] using apart)
      · simpa [EngRun.missed, Eng.andThen] using apart
      · refine Eng.Apart.andThen ?_ fun _ _ apart1 => apart1
        unfold EngRun.soiled
        split <;> simpa using apart
      · exact apart

theorem EngRun.writePair_apart (root : Word) (scale : Nat) (q : PairRead) (now : Leaf) : (e.writePair root scale q now).Apart := by
  unfold EngRun.writePair
  dsimp only
  refine Eng.Apart.andThen ?_ fun _ e1 apart1 => (EngRun.write_apart apart1 _ _ _ _).andThen fun _ e2 apart2 =>
    (EngRun.write_apart apart2 _ _ _ _).andThen fun _ e3 apart3 => Eng.Apart.andThen ?_ fun _ e4 apart4 =>
      (EngRun.bump_apart apart4 _).andThen fun _ e5 apart5 => EngRun.cometPut_apart apart5 _ _ _
  · split
    · exact EngRun.write_apart apart _ _ _ _
    · exact apart
  · split <;> exact EngRun.write_apart apart3 _ _ _ _

omit apart in
theorem EngRun.installRest_apart (ps : List PairRead) {e : EngRun} (apart : e.s.zones.Apart) : (e.installRest ps).Apart := by
  induction ps generalizing e with
  | nil => exact apart
  | cons q ps ih =>
    unfold EngRun.installRest
    split
    · exact ih apart
    · refine Eng.Apart.andThen (EngRun.atomic_apart apart fun _ apartg => (EngRun.read_apart apartg _ _ _).andThen fun v g1 apart1 => ?_) fun _ _ apart1 => ih apart1
      split
      · exact apart1
      · exact (EngRun.write_apart apart1 _ _ _ _).andThen fun _ _ apart2 => apart2

theorem EngRun.enteredPair_apart (root : Word) (scale : Nat) (q : PairRead) (v : List Nat) (t : List PairRead) :
    (e.enteredPair root scale q v t).Apart := by
  unfold EngRun.enteredPair
  dsimp only
  split
  · exact (EngRun.bump_apart apart _).andThen fun _ _ apart1 => (EngRun.installRest_apart _ apart1).andThen fun _ _ apart2 => apart2
  · exact EngRun.writePair_apart apart _ _ _ _

omit apart in
theorem EngRun.appendPairs_apart (root : Word) (scale : Nat) (ps : List PairRead) {e : EngRun} (apart : e.s.zones.Apart) :
    (e.appendPairs root scale ps).Apart := by
  induction ps generalizing e with
  | nil => exact apart
  | cons p ps ih =>
    exact (EngRun.enterLeaf_apart apart _).andThen fun _ _ apart1 => (EngRun.enteredPair_apart apart1 _ _ _ _ _).andThen fun _ _ apart2 => ih apart2

theorem EngRun.appendFirst_apart (pop : Option FreeList) (pages : List Nat) (addr : Nat) : (e.appendFirst pop pages addr).Apart := by
  refine (EngRun.evenLeaf_apart apart _).andThen fun _ e1 apart1 => (EngRun.popTake_apart apart1 _ _).andThen fun ok e2 apart2 => ?_
  have entered := EngRun.enterLeaf_apart apart2 addr
  have undone := EngRun.popUndo_apart apart2 pop pages
  split
  · exact apart2
  · split
    · next done => rw [done] at entered; exact entered
    · next done =>
      rw [done] at entered
      split
      · exact entered
      · split
        · exact Eng.Apart.tense (undone.andThen fun _ _ apart3 => apart3)
        · exact entered
    · next done =>
      rw [done] at entered
      split
      · next stalled => rw [stalled] at undone; exact undone
      · exact entered

theorem EngRun.appendSeq_apart (root : Word) (v i : Nat) : (e.appendSeq root v i).Apart := by
  unfold EngRun.appendSeq
  dsimp only
  refine (EngRun.readStruct_apart apart _ _ _).andThen fun entry e1 apart1 => ?_
  split
  · exact apart1
  · refine (EngRun.appendRows_apart _ _ _ _ apart1 _ _).andThen fun rows e2 apart2 =>
      (EngRun.appendCheck_apart _ _ _ _ apart2 _).andThen fun leaves e3 apart3 =>
        (EngRun.popLook_apart apart3 _).andThen fun pop e4 apart4 => (EngRun.framesOk_apart _ apart4).andThen fun _ e5 apart5 => ?_
    split
    · exact apart5
    · refine (EngRun.appendFirst_apart apart5 _ _ _).andThen fun o e6 apart6 => ?_
      split
      · exact apart6
      · exact ((EngRun.enteredPair_apart apart6 _ _ _ _ _).andThen fun _ _ apart7 => EngRun.appendPairs_apart _ _ _ apart7).tense

theorem EngRun.appendStep_apart (root a : Word) : (e.appendStep root a).Apart := by
  refine (EngRun.readStruct_apart apart _ _ _).andThen fun v e1 apart1 => ?_
  dsimp only
  split
  · exact apart1
  · split
    · simpa using apart1
    · refine (EngRun.appendSeq_apart apart1 _ _ _).andThen fun _ e2 apart2 => ?_
      split <;> simpa using apart2

/-! ## The other comet instructions (R120 to R124) -/

omit apart in
theorem EngRun.fillRead_apart (n : Nat) {e : EngRun} (apart : e.s.zones.Apart) (a : Word) (acc : List Nat) : (e.fillRead a n acc).Apart := by
  induction n generalizing e a acc with
  | zero => exact apart
  | succ n ih =>
    refine (EngRun.readStruct_apart apart _ _ _).andThen fun v e1 apart1 => ?_
    split
    · exact ih apart1 _ _
    · exact apart1

theorem EngRun.push_apart (want : Nat) (pages : List Nat) : (e.push want pages).Apart := by
  refine (EngRun.atomic_apart apart fun _ apartg => (EngRun.freeList_apart apartg).andThen fun f g1 apart1 => ?_).andThen fun _ _ apart1 => apart1
  split
  · exact apart1
  · split
    · exact apart1
    · exact (EngRun.pushPages_apart _ _ apart1 _).andThen fun _ _ apart2 => apart2

theorem EngRun.doFill_apart (a b : Word) : (e.doFill a b).Apart := by
  unfold EngRun.doFill
  split
  · exact apart
  · refine (EngRun.look_apart apart).andThen fun f e1 apart1 => (EngRun.fillRead_apart _ apart1 _ _).andThen fun ps e2 apart2 =>
      (EngRun.push_apart apart2 _ _).andThen fun k e3 apart3 => ?_
    split <;> exact apart3

theorem EngRun.unlink_apart (root : Word) (c : Coord) (l : Leaf) : (e.unlink root c l).Apart :=
  (EngRun.enterLeaf_apart apart _).andThen fun _ _ apart1 => ((EngRun.write_apart apart1 _ _ _ _).andThen fun _ _ apart2 =>
    (EngRun.write_apart apart2 _ _ _ _).andThen fun _ _ apart3 => (EngRun.bump_apart apart3 _).andThen fun _ _ apart4 => by simpa using apart4).tense

theorem EngRun.doFree_apart (root a b : Word) : (e.doFree root a b).Apart := by
  unfold EngRun.doFree
  dsimp only
  split
  · exact apart
  · refine (EngRun.walk_apart apart _ _).andThen fun l e1 apart1 => ?_
    split
    · exact apart1
    · split
      · refine (EngRun.look_apart apart1).andThen fun f e2 apart2 => ?_
        split
        · exact apart2
        · exact (EngRun.unlink_apart apart2 _ _ _).andThen fun _ _ apart3 => Eng.Apart.tense ((EngRun.push_apart apart3 _ _).andThen fun _ _ apart4 => apart4)
      · exact (EngRun.unlink_apart apart1 _ _ _).andThen fun _ _ apart2 => apart2

omit apart in
theorem EngRun.probe_apart (base : Word) (lg : Nat) (hash : Word) (ns : List Nat) {e : EngRun} (apart : e.s.zones.Apart) (acc : Nat) :
    (e.probe base lg hash ns acc).Apart := by
  induction ns generalizing e acc with
  | nil => exact apart
  | cons n ns ih =>
    refine Eng.Apart.andThen (EngRun.atomic_apart apart fun _ apartg => (EngRun.read_apart apartg _ _ _).andThen fun _ _ apart1 => apart1) fun w e1 apart1 => ?_
    dsimp only
    split
    · exact apart1
    · exact ih apart1 _

theorem EngRun.doLookup_apart (a b : Word) : (e.doLookup a b).Apart := by
  refine (EngRun.readStruct_apart apart _ _ _).andThen fun v e1 apart1 => ?_
  dsimp only
  split
  · exact apart1
  · exact (EngRun.choose_apart apart1).andThen fun _ _ apart2 => (EngRun.probe_apart _ _ _ _ apart2 _).andThen fun _ _ apart3 => apart3

omit apart in
theorem EngRun.sameTokens_apart (n : Nat) {e : EngRun} (apart : e.s.zones.Apart) (x y : Word) : (e.sameTokens x y n).Apart := by
  induction n generalizing e x y with
  | zero => exact apart
  | succ n ih =>
    refine (EngRun.readStruct_apart apart _ _ _).andThen fun u e1 apart1 => (EngRun.readStruct_apart apart1 _ _ _).andThen fun v e2 apart2 => ?_
    split
    · exact ih apart2 _ _
    · exact apart2

theorem EngRun.donorLeaf_apart (root : Word) (c : Coord) : (e.donorLeaf root c).Apart := by
  have walked := EngRun.walk_apart apart root c
  unfold EngRun.donorLeaf
  split <;> next done =>
    rw [done] at walked
    have after : State.zones _ |>.Apart := walked
    simp [apply_ite Eng.Apart, after]

theorem EngRun.link_apart (root : Word) (dc rc : Coord) (donor req : Nat) : (e.link root dc rc donor req).Apart := by
  refine Eng.Apart.andThen (EngRun.atomic_apart apart fun _ apartg => (EngRun.read_apart apartg _ _ _).andThen fun _ _ apart1 =>
    (EngRun.write_apart apart1 _ _ _ _).andThen fun _ _ apart2 => apart2) fun _ e1 apart1 => ?_
  refine (EngRun.atomic_apart apart1 fun _ apartg => (EngRun.read_apart apartg _ _ _).andThen fun v g1 apart2 => ?even).tense.andThen fun w e2 apart2 =>
    (EngRun.read_apart apart2 _ _ _).andThen fun x e3 apart3 => (EngRun.choose_apart apart3).andThen fun o e4 apart4 => ?order
  case even => split <;> exact apart2
  case order =>
    refine Eng.Apart.andThen ?_ fun _ e5 apart5 => EngRun.cometPut_apart (EngRun.cometPut_apart apart5 _ _ _) _ _ _
    split <;> exact (EngRun.write_apart apart4 _ _ _ _).andThen fun _ _ apart5 => EngRun.write_apart apart5 _ _ _ _

omit apart in
theorem EngRun.sharePages_apart (root : Word) (donor req y hd n : Nat) {e : EngRun} (apart : e.s.zones.Apart) (j acc : Nat) :
    (e.sharePages root donor req y hd n j acc).Apart := by
  induction n generalizing e j acc with
  | zero => exact apart
  | succ n ih =>
    refine (EngRun.donorLeaf_apart apart _ _).andThen fun d e1 apart1 => ?_
    split
    · exact apart1
    · refine (EngRun.walk_apart apart1 _ _).andThen fun r e2 apart2 => ?_
      split
      · exact (EngRun.link_apart apart2 _ _ _ _ _).andThen fun _ _ apart3 => ih apart3 _ _
      · split
        · exact ih apart2 _ _
        · exact apart2

omit apart in
theorem EngRun.sharePairs_apart (root : Word) (donor req n : Nat) (l : List (Nat × Nat)) {e : EngRun} (apart : e.s.zones.Apart) (acc : Nat) :
    (e.sharePairs root donor req n l acc).Apart := by
  induction l generalizing e acc with
  | nil => exact apart
  | cons x l ih => exact (EngRun.sharePages_apart _ _ _ _ _ _ apart _ _).andThen fun _ _ apart1 => ih apart1 _

theorem EngRun.doShare_apart (root a : Word) : (e.doShare root a).Apart := by
  refine (EngRun.readStruct_apart apart _ _ _).andThen fun v e1 apart1 => ?_
  dsimp only
  split
  · exact apart1
  · refine (EngRun.readStruct_apart apart1 _ _ _).andThen fun x e2 apart2 => ?_
    split
    · exact apart2
    · split
      · exact apart2
      · refine (EngRun.sameTokens_apart _ apart2 _ _).andThen fun same e3 apart3 => ?_
        split
        · exact apart3
        · exact (EngRun.sharePairs_apart _ _ _ _ _ apart3 _).andThen fun _ _ apart4 => apart4

theorem EngRun.comet_apart (r : Running) : (e.comet r).Apart := by
  unfold EngRun.comet
  dsimp only
  split
  · exact EngRun.appendStep_apart apart _ _
  · exact EngRun.doFill_apart apart _ _
  · exact EngRun.doFree_apart apart _ _ _
  · exact EngRun.doLookup_apart apart _ _
  · exact EngRun.doShare_apart apart _ _
  · simpa using apart

/-! ## ATTN.RUN, and transfers -/

omit apart in
theorem EngRun.walkRows_apart (root : Word) (g : Engine) (a b : Word) (base : Nat) (rs : List Nat) {e : EngRun} (apart : e.s.zones.Apart)
    (acc : List RowPage) : (e.walkRows root g a b base rs acc).Apart := by
  induction rs generalizing e acc with
  | nil => exact apart
  | cons r rs ih =>
    unfold EngRun.walkRows
    dsimp only
    split
    · exact ih apart _
    · refine (EngRun.walk_apart apart _ _).andThen fun l e1 apart1 => ?_
      split
      · exact ih apart1 _
      · exact apart1

omit apart in
theorem EngRun.readKv_apart (root : Word) (l : Leaf) (ps : List Nat) {e : EngRun} (apart : e.s.zones.Apart) (acc : List (Nat × Nat × Nat)) :
    (e.readKv root l ps acc).Apart := by
  induction ps generalizing e acc with
  | nil => exact apart
  | cons p ps ih =>
    exact (EngRun.read_apart apart _ _ _).andThen fun _ _ apart1 => (EngRun.read_apart apart1 _ _ _).andThen fun _ _ apart2 => ih apart2 _

omit apart in
theorem EngRun.readRows_apart (root : Word) (qs : List RowPage) {e : EngRun} (apart : e.s.zones.Apart) (acc : List RowRead) :
    (e.readRows root qs acc).Apart := by
  induction qs generalizing e acc with
  | nil => exact apart
  | cons q qs ih => exact (EngRun.readKv_apart _ _ _ apart _).andThen fun _ _ apart1 => ih apart1 _

omit apart in
theorem EngRun.recount_apart (qs : List RowPage) {e : EngRun} (apart : e.s.zones.Apart) (acc : Option Coord) : (e.recount qs acc).Apart := by
  induction qs generalizing e acc with
  | nil => exact apart
  | cons q qs ih => exact (EngRun.read_apart apart _ _ _).andThen fun _ _ apart1 => ih apart1 _

theorem EngRun.moveOne_apart (x : Transfer) : (e.moveOne x).Apart := by
  unfold EngRun.moveOne
  dsimp only
  split <;> exact (EngRun.word_apart apart _ _ _ _ _).andThen fun _ _ apart1 => apart1

omit apart in
theorem EngRun.moveAll_apart (n : Nat) {e : EngRun} (apart : e.s.zones.Apart) (x : Transfer) : (e.moveAll x n).2.Apart := by
  induction n generalizing e x with
  | zero => exact apart
  | succ n ih =>
    have moved := EngRun.moveOne_apart apart x
    unfold EngRun.moveAll
    split
    · exact apart
    · split
      · next done => rw [done] at moved; exact ih moved _
      · next done => rw [done] at moved; exact moved
      · next done => rw [done] at moved; exact moved

end

end Sys2Proof.Machine
end

section
/-! SUPPORT. The turns of a matrix engine and vector accesses keep the partitions apart (O56). -/

namespace Sys2Proof.Machine

theorem foldl_apart {α : Type} {f : State → α → State} (kept : ∀ s a, s.zones.Apart → (f s a).zones.Apart) (l : List α) {s : State}
    (apart : s.zones.Apart) : (l.foldl f s).zones.Apart := by
  induction l generalizing s with
  | nil => exact apart
  | cons a l ih => exact ih (kept s a apart)

/-! ## Turns of a matrix engine (R227) -/

@[simp] theorem State.engTurn_zones (s : State) (r : Running) : (s.engTurn r).s.zones = s.zones := by simp [State.engTurn]

section
variable {e : EngRun} (apart : e.s.zones.Apart) (core : Nat) (r : Running)
include apart

@[simp] theorem EngRun.failed_apart (cause : Nat) (value : Word) (utag : BitVec 14) : (e.failed core r cause value utag).zones.Apart := by
  unfold EngRun.failed
  split <;> simp [apart]

@[simp] theorem EngRun.over_apart {f : State → State} (kept : ∀ s, s.zones.Apart → (f s).zones.Apart) : (e.over core r f).zones.Apart := by
  unfold EngRun.over
  split
  · exact kept _ apart
  · exact apart

@[simp] theorem State.engPaused_apart (s : State) : (s.engPaused core r e).zones.Apart := by
  unfold State.engPaused
  split <;> simp [apart]

end

section
variable {s : State} (apart : s.zones.Apart) (core : Nat) (r : Running)
include apart

@[simp] theorem State.engTurn_apart : (s.engTurn r).s.zones.Apart := by simpa using apart

@[simp] theorem State.runCommand_apart : (s.runCommand core r).zones.Apart := by
  unfold State.runCommand
  dsimp only
  split
  · simpa using apart
  · next ok =>
    have read := EngRun.operands_apart (r.toRead s.draw.1.toNat (rangeWords (cmdRanges (s.core core).engine (s.core core).cmroot r.cmd)))
      (State.engTurn_apart (s := s.draw.2) (by simpa using apart) r) r.words
    split
    · next done => rw [done] at read; exact EngRun.failed_apart read _ _ _ _ _
    · next done => rw [done] at read; exact State.engPaused_apart (by exact read) _ _ _
    · next done =>
      rw [done] at read
      split
      · exact EngRun.failed_apart read _ _ _ _ _
      · exact EngRun.over_apart read _ _ fun s1 apart1 => by simpa using apart1

@[simp] theorem State.runLoading_apart : (s.runLoading core r).zones.Apart := by
  have put (s1 : State) (r1 : Running) (apart1 : s1.zones.Apart) :
      (if (s1.core core).loading.isNone then s1 else s1.setCore core { s1.core core with loading := some r1 }).zones.Apart := by
    split <;> simpa using apart1
  unfold State.runLoading
  dsimp only
  split
  · exact apart
  · have read := EngRun.operands_apart (r.toRead s.draw.1.toNat (rangeWords (cmdRanges (s.core core).engine (s.core core).cmroot r.cmd)))
      (State.engTurn_apart (s := s.draw.2) (by simpa using apart) r) r.words
    split <;> next done => rw [done] at read; exact put _ _ read

@[simp] theorem State.runWhole_apart : (s.runWhole core r).zones.Apart := by
  have turn := State.engTurn_apart apart { r with got := [] }
  have after (out : List Piece) (x : EngRun) (apartx : x.s.zones.Apart) :
      (if out = [] then x.over core r (fun s1 => s1.engineDone core r id)
        else x.s.engPaused core { r with out := out, tries := 0 } { x with made := [] }).zones.Apart := by
    split
    · exact EngRun.over_apart apartx _ _ fun s1 apart1 => by simpa using apart1
    · exact State.engPaused_apart (e := { x with made := [] }) apartx _ _ _
  have written (out : List Piece) (x : EngRun) (apartx : x.s.zones.Apart) := EngRun.pieces_apart (out.take 1) apartx
  unfold State.runWhole
  dsimp only
  split
  · have wrote := written r.out _ turn
    split
    · next done => rw [done] at wrote; exact EngRun.failed_apart wrote _ _ _ _ _
    · next done => rw [done] at wrote; exact State.engPaused_apart (by exact wrote) _ _ _
    · next done => rw [done] at wrote; exact after _ _ wrote
  · split
    · exact apart
    · split
      · exact EngRun.failed_apart turn _ _ _ _ _
      · split
        · have wrote := written (r.out.filter (EngRun.peerPiece { s.engTurn { r with got := [] } with port := { Port.idle with dirty := r.port.dirty } }) ++
            r.out.filter (fun p => !EngRun.peerPiece { s.engTurn { r with got := [] } with port := { Port.idle with dirty := r.port.dirty } } p))
            { s.engTurn { r with got := [] } with port := { Port.idle with dirty := r.port.dirty } } turn
          split
          · next done => rw [done] at wrote; exact EngRun.failed_apart wrote _ _ _ _ _
          · next done => rw [done] at wrote; exact State.engPaused_apart (by exact wrote) _ _ _
          · next done => rw [done] at wrote; exact after _ _ wrote
        · have tried := EngRun.tryAll_apart (r.out.filter (EngRun.peerPiece { s.engTurn { r with got := [] } with port := { Port.idle with dirty := r.port.dirty } }) ++
            r.out.filter (fun p => !EngRun.peerPiece { s.engTurn { r with got := [] } with port := { Port.idle with dirty := r.port.dirty } } p))
            (e := { s.engTurn { r with got := [] } with port := { Port.idle with dirty := r.port.dirty } }) turn none
          split
          · exact EngRun.failed_apart (by exact turn) _ _ _ _ _
          · next done => rw [done] at tried; exact EngRun.over_apart tried _ _ fun s1 apart1 => by simpa using apart1
          · next p _ =>
            have looked := EngRun.piece_apart (e := { s.engTurn { r with got := [] } with port := { Port.idle with dirty := r.port.dirty } }) turn p .look
            split
            · next done => rw [done] at looked; exact State.engPaused_apart (by exact looked) _ _ _
            · next done => rw [done] at looked; exact State.engPaused_apart (by exact looked) _ _ _
            · next done => rw [done] at looked; exact EngRun.failed_apart looked _ _ _ _ _

@[simp] theorem State.runWrites_apart (more : Bool) : (s.runWrites core r more).zones.Apart := by
  have wrote := EngRun.pieces_apart r.out (State.engTurn_apart apart { r with got := [] })
  unfold State.runWrites
  split
  · split
    · exact apart
    · exact State.runWhole_apart apart core r
  · split
    · next done => rw [done] at wrote; exact EngRun.failed_apart wrote _ _ _ _ _
    · next done => rw [done] at wrote; exact State.engPaused_apart (by exact wrote) _ _ _
    · next done =>
      rw [done] at wrote
      split
      · exact State.engPaused_apart (by exact wrote) _ _ _
      · split
        · exact EngRun.failed_apart wrote _ _ _ _ _
        · exact EngRun.over_apart wrote _ _ fun s1 apart1 => by simpa using apart1

@[simp] theorem State.runBlock_apart : (s.runBlock core r).zones.Apart := by
  unfold State.runBlock
  dsimp only
  split
  · simpa using apart
  · split
    · simpa using apart
    · have walked := EngRun.walkRows_apart (s.core core).cmroot (s.core core).engine r.cmd.opA r.cmd.opB (r.pos / 32 * 32)
        (List.range (attnRows (s.core core).cmroot)) (State.engTurn_apart apart r) []
      split
      · next done => rw [done] at walked; exact State.engPaused_apart walked _ _ _
      · next done => rw [done] at walked; exact EngRun.failed_apart walked _ _ _ _ _
      · next ps e done =>
        rw [done] at walked
        have counted : ((e.readRows (s.core core).cmroot ps []).andThen (fun qs e1 => (e1.recount ps none).andThen (fun o e2 => .ok (qs, o) e2))).Apart :=
          (EngRun.readRows_apart _ _ walked _).andThen fun _ _ apart1 => (EngRun.recount_apart _ apart1 _).andThen fun _ _ apart2 => apart2
        split
        · next done => rw [done] at counted; exact State.engPaused_apart counted _ _ _
        · next done => rw [done] at counted; exact EngRun.failed_apart counted _ _ _ _ _
        · next done =>
          rw [done] at counted
          split
          · exact EngRun.failed_apart counted _ _ _ _ _
          · exact EngRun.over_apart counted _ _ fun s1 apart1 => by simpa using apart1
        · next done => rw [done] at counted; exact EngRun.over_apart counted _ _ fun s1 apart1 => by simpa using apart1

@[simp] theorem State.runComet_apart : (s.runComet core r).zones.Apart := by
  have worked := EngRun.comet_apart (State.engTurn_apart apart r) r
  unfold State.runComet
  split
  · simpa using apart
  · split
    · next done => rw [done] at worked; exact State.engPaused_apart worked _ _ _
    · next done => rw [done] at worked; exact EngRun.failed_apart worked _ _ _ _ _
    · next done => rw [done] at worked; exact EngRun.over_apart worked _ _ fun s1 apart1 => by simpa using apart1
    · next done => rw [done] at worked; exact EngRun.over_apart worked _ _ fun s1 apart1 => by simpa using apart1

@[simp] theorem State.runRunning_apart : (s.runRunning core r).zones.Apart := by
  unfold State.runRunning
  dsimp only
  (repeat' split) <;> simp [apart, State.runWrites_apart, State.runBlock_apart, State.runComet_apart, State.runCommand_apart]

end

/-! ## Accesses of several words, and raw writes -/

@[simp] theorem State.regAccesses_apart (as : List Access) {s : State} (apart : s.zones.Apart) (got : BitVec 512) :
    (s.regAccesses as got).2.zones.Apart := by
  induction as generalizing s got with
  | nil => exact apart
  | cons a as ih =>
    have performed := State.physOp_apart apart a
    unfold State.regAccesses
    split <;> next done => rw [done] at performed; exact ih performed _

@[simp] theorem State.rawWrite_apart {s : State} (apart : s.zones.Apart) (o : BitVec 12) (p : RawAt) (n v : Nat) :
    (s.rawWrite o p n v).zones.Apart := by
  cases p with
  | sram q off => simpa [State.rawWrite] using apart
  | dram key pa => simpa [State.rawWrite] using apart
  | regs pa =>
    refine foldl_apart (fun r i apart1 => ?_) _ apart
    split
    · exact State.writeDev_apart apart1 _ _
    · exact apart1
  | away => exact apart

@[simp] theorem State.rawWrites_apart (o : BitVec 12) (ps : List RawAt) {s : State} (apart : s.zones.Apart) (v : Nat) :
    (s.rawWrites o ps v).zones.Apart := by
  induction ps generalizing s v with
  | nil => exact apart
  | cons p ps ih => exact ih (State.rawWrite_apart apart _ _ _ _) _

@[simp] theorem State.rawBytes_apart (ps : List RawAt) {s : State} (apart : s.zones.Apart) (bs : List Byte) : (s.rawBytes ps bs).zones.Apart := by
  induction ps generalizing s bs with
  | nil => exact apart
  | cons p ps ih =>
    unfold State.rawBytes
    split
    · exact apart
    · exact ih (State.rawWrite_apart apart _ _ _ _) _

@[simp] theorem State.saveStatus_apart {s : State} (apart : s.zones.Apart) (r : SaveReq) (status size : Nat) :
    (s.saveStatus r status size).zones.Apart := by
  unfold State.saveStatus
  split
  · next p s1 mapped =>
    have apart1 : s1.zones.Apart := by simpa [apart] using congrArg (·.state.zones.Apart) mapped
    dsimp only
    generalize met : s1.rawMeet 0 [(p, false)] 0 = m
    obtain ⟨bad, s2⟩ := m
    have apart2 : s2.zones.Apart := by simpa [apart1] using congrArg (·.2.zones.Apart) met
    cases bad with
    | none => exact State.rawWrite_apart (State.rawWrite_apart apart2 _ _ _ _) _ _ _ _
    | some line => exact apart2
  · exact apart

/-- What checking elements comes to keeps the partitions apart. -/
def Checks.Apart : Checks → Prop
  | .ok _ s => s.zones.Apart
  | .stop r => Keeps r

/-- What a read of an operand block comes to keeps the partitions apart. -/
def SysRead.Apart : SysRead → Prop
  | .ok _ s => s.zones.Apart
  | .stop r => Keeps r

/-- What elements performed within a step come to keeps the partitions apart. -/
def Local.Apart : Local → Prop
  | .ok _ _ s => s.zones.Apart
  | .trap _ _ _ _ s => s.zones.Apart

@[simp] theorem Local.apart_ok (got : BitVec 512) (w : List Nat) (s : State) : (Local.ok got w s).Apart ↔ s.zones.Apart := Iff.rfl
@[simp] theorem Local.apart_trap (c : Nat) (v : Word) (u : BitVec 14) (w : List Nat) (s : State) :
    (Local.trap c v u w s).Apart ↔ s.zones.Apart := Iff.rfl

section
variable {s : State} (apart : s.zones.Apart)
include apart

theorem State.checkElem_apart (cls : Class) (e : Nat) (misaligned : Bool) (x : Elem) : (s.checkElem cls e misaligned x).Apart := by
  unfold State.checkElem
  dsimp only
  (repeat' split) <;> simp [Checks.Apart, apart, State.trapMe_keeps]

omit apart in
theorem State.checkElems_apart (cls : Class) (e : Nat) (misaligned : Bool) (xs : List Elem) {s : State} (apart : s.zones.Apart) (acc : List Checked) :
    (s.checkElems cls e misaligned xs acc).Apart := by
  induction xs generalizing s acc with
  | nil => exact apart
  | cons x xs ih =>
    have checked := State.checkElem_apart apart cls e misaligned x
    unfold State.checkElems
    split
    · next done => rw [done] at checked; exact ih checked _
    · next done => rw [done] at checked; exact checked

@[simp] theorem State.spread_keeps (cls : Class) (op : AccOp) (e : Nat) (data : BitVec 512) (es : List Checked) (f : Finish) (len : Nat) :
    Keeps (s.spread cls op e data es f len) := by
  have performed := State.regAccesses_apart ((es.filter Checked.reg).map (fun c => c.access s s.nextId s.nextId cls op e data)) apart 0
  unfold State.spread
  dsimp only
  split <;> simpa using performed

@[simp] theorem State.vecAccess_keeps (cls : Class) (op : AccOp) (e : Nat) (misaligned : Bool) (data : BitVec 512) (es : List Elem) (f : Finish) (len : Nat) :
    Keeps (s.vecAccess cls op e misaligned data es f len) := by
  have checked := State.checkElems_apart cls e misaligned es apart []
  unfold State.vecAccess
  split
  · simpa using apart
  · split
    · next done => rw [done] at checked; exact checked
    · next s1 done =>
      rw [done] at checked
      have apart1 : s1.zones.Apart := checked
      dsimp only
      (repeat' split) <;> simp [apart1, State.trapMe_keeps, State.sramAccess_keeps, State.spread_keeps]

theorem State.sysRead_apart (a : Word) (n align : Nat) : (s.sysRead a n align).Apart := by
  unfold State.sysRead
  dsimp only
  (repeat' split) <;> simp [SysRead.Apart, apart, State.trapMe_keeps, State.sramAccess_keeps, State.regAccesses_apart]

omit apart in
theorem State.performNow_apart (as : List Access) {s : State} (apart : s.zones.Apart) (got : BitVec 512) (w : List Nat) :
    (s.performNow as got w).Apart := by
  induction as generalizing s got w with
  | nil => exact apart
  | cons a as ih =>
    have served := State.serve_apart apart (.core a.hart.core) a false
    unfold State.performNow
    split <;> next done => rw [done] at served; simp [ih, show State.zones _ |>.Apart from served]

omit apart in
theorem State.laneNow_apart (as : List Access) {s : State} (apart : s.zones.Apart) (got : BitVec 512) (w : List Nat) :
    (s.laneNow as got w).Apart := by
  induction as generalizing s got w with
  | nil => exact apart
  | cons a as ih =>
    have gathered := State.gatherLane_apart apart a
    unfold State.laneNow
    split <;> next done => rw [done] at gathered; simp [ih, show State.zones _ |>.Apart from gathered]

omit apart in
theorem State.linesNow_apart (ls : List (List Access)) {s : State} (apart : s.zones.Apart) (got : BitVec 512) (w : List Nat) :
    (s.linesNow ls got w).Apart := by
  induction ls generalizing s got w with
  | nil => exact apart
  | cons l ls ih =>
    have now := State.laneNow_apart l apart got w
    unfold State.linesNow
    split
    · split
      · next done => rw [done] at now; exact ih now _ _
      · exact now
    · exact ih (by simpa using apart) _ _

@[simp] theorem State.streamAccess_keeps (op : AccOp) (e : Nat) (gather : Bool) (data : BitVec 512) (es : List Elem) (f : Finish) (len : Nat) :
    Keeps (s.streamAccess op e gather data es f len) := by
  have checked := State.checkElems_apart (if op = .store then .engWrite else .engRead) e false es apart []
  unfold State.streamAccess
  dsimp only
  generalize (if op = .store then Class.engWrite else .engRead) = cls at checked ⊢
  split
  · next done => rw [done] at checked; exact checked
  · next cs s1 done =>
    rw [done] at checked
    generalize seen : State.regAccesses _ _ _ = p
    have apart2 : p.2.zones.Apart := by rw [← seen]; exact State.regAccesses_apart _ (by simpa using show s1.zones.Apart from checked) _
    obtain ⟨got, s2⟩ := p
    generalize performed : (if gather = true then State.linesNow _ _ _ _ else State.performNow _ _ _ _) = r
    have after : r.Apart := by
      rw [← performed]
      split
      · exact State.linesNow_apart _ apart2 _ _
      · exact State.performNow_apart _ apart2 _ _
    split
    · simpa using show State.zones _ |>.Apart from after
    · split <;> simpa using show State.zones _ |>.Apart from after

end

end Sys2Proof.Machine
end

section
/-! SUPPORT. Upkeep, restores and bring-up keep the partitions apart (O56). -/

namespace Sys2Proof.Machine

/-! ## Machines that an operation may leave or not -/

theorem State.lineError_zones {s t : State} {p : Place} {o : BitVec 12} {off : Nat} (e : s.lineError p o off = some t) : t.zones = s.zones := by
  unfold State.lineError at e
  dsimp only at e
  split at e
  · split at e
    · cases e; simp
    · cases e
  · cases e; simp

theorem State.beatErrors_zones {s t : State} {l : List Beat} (e : s.beatErrors l = some t) : t.zones = s.zones := by
  obtain ⟨b, -, found⟩ := List.exists_of_findSome?_eq_some e
  exact State.lineError_zones found

theorem State.roomFor_zones {s t : State} {ctx prio gid : Nat} {recs : List ImageRec} {applied : List Nat} {rs : List Group}
    (e : s.roomFor ctx prio gid recs applied rs = some t) : t.zones = s.zones := by
  simp only [State.roomFor, Option.ite_none_right_eq_some, Option.some.injEq] at e
  obtain ⟨-, -, rfl⟩ := e
  simp

theorem State.groupReady_zones {s t : State} {gid : Nat} {g : Grid} {r : Group} (e : s.groupReady gid g = some (r, t)) : t.zones = s.zones := by
  unfold State.groupReady at e
  split at e
  · cases e
  · obtain ⟨x, -, found⟩ := Option.bind_eq_some_iff.mp e
    obtain ⟨u, room, same⟩ := Option.map_eq_some_iff.mp found
    cases same
    exact State.roomFor_zones room

theorem State.fits_zones {s t : State} {r : Queue} {l : Launch} (e : s.fits r l = some t) : t.zones = s.zones := by
  unfold State.fits at e
  split at e
  · cases e; rfl
  · split at e
    · cases e
    · exact State.roomFor_zones (Option.filter_eq_some_iff.mp e).1

theorem State.boundary_zones {s t : State} {h : Hart} (e : s.boundary h = some t) : t.zones = s.zones := by
  unfold State.boundary at e
  dsimp only at e
  (repeat' split at e) <;> cases e <;> simp

/-! ## Restores (R378, R379) -/

theorem State.putGrids_zones (ctx : Nat) (there : Nat → Bool) (l : List Section) {s t : State} (e : s.putGrids ctx there l = some t) :
    t.zones = s.zones := by
  induction l generalizing s with
  | nil => cases e; rfl
  | cons x l ih =>
    unfold State.putGrids at e
    split at e
    · cases e
    · rw [ih e]
      (repeat' split) <;> simp

theorem State.putThreads_zones (ctx : Nat) (l : List Section) {s t : State} (e : s.putThreads ctx l = some t) : t.zones = s.zones := by
  induction l generalizing s with
  | nil => cases e; rfl
  | cons x l ih =>
    unfold State.putThreads at e
    dsimp only at e
    split at e
    · cases e
    · rw [ih e, State.setThread_zones]

theorem State.putClusters_zones (o : BitVec 12) (l : List Section) {s t : State} {ps : List SavedPark} (e : s.putClusters o l = some (t, ps)) :
    t.zones = s.zones := by
  induction l generalizing s ps with
  | nil => cases e; rfl
  | cons x l ih =>
    unfold State.putClusters at e
    dsimp only at e
    split at e
    · cases e
    · split at e
      · cases e
      · split at e
        · cases e
        · split at e
          · cases e
          · next put => cases e; rw [ih put, State.setCluster_zones]

theorem State.putCores_zones (ctx : Nat) (o : BitVec 12) (root deleg : Word) (l : List Section) {s t : State} {ok : Bool} {ps : List SavedPark}
    (e : s.putCores ctx o root deleg l = some (t, ok, ps)) : t.zones = s.zones := by
  induction l generalizing s ok ps with
  | nil => cases e; rfl
  | cons x l ih =>
    unfold State.putCores at e
    dsimp only at e
    split at e
    · cases e
    · split at e
      · cases e
      · next put => cases e; rw [ih put]; simp

theorem State.putDomains_zones (ctx : Nat) (l : List Section) {s t : State} (e : s.putDomains ctx l = .done t) : t.zones = s.zones := by
  induction l generalizing s with
  | nil => cases e; rfl
  | cons x l ih =>
    unfold State.putDomains at e
    split at e
    · cases e
    · split at e
      · exact ih e
      · split at e
        · split at e
          · split at e
            · cases e
            · rw [ih e]; simp
          · cases e
          · cases e
        · cases e

theorem State.reissueAll_zones (ctx : Nat) (es : List SavedPark) (ks : List Nat) {s t : State} {acc l : List (SavedPark × Access)}
    (e : s.reissueAll ctx es ks acc = .done (l, t)) : t.zones = s.zones := by
  induction ks generalizing s acc with
  | nil => cases e; rfl
  | cons k ks ih =>
    unfold State.reissueAll at e
    dsimp only at e
    split at e
    · cases e
    · cases e
    · split at e
      · cases e
      · rw [ih e]; simp

theorem State.reparkAll_zones {s t : State} {ctx : Nat} {keys : List Nat} {es : List SavedPark} (e : s.reparkAll ctx keys es = .done t) :
    t.zones = s.zones := by
  unfold State.reparkAll at e
  dsimp only at e
  split at e
  · cases e
  · split at e
    · cases e
    · cases e
    · next done => cases e; rw [foldl_zones (fun r x => by simp), State.reissueAll_zones _ _ _ done]

theorem State.rebuild_zones {s t : State} {l : List Section} {part : Nat} (e : s.rebuild l part = .done t) : t.zones = s.zones := by
  unfold State.rebuild at e
  dsimp only at e
  split at e
  · split at e
    · cases e
    · split at e
      · cases e
      · split at e
        · cases e
        · next grids =>
          have k1 := State.putGrids_zones _ _ _ grids
          split at e
          · cases e
          · split at e
            · cases e
            · cases e
            · next domains =>
              have k2 := State.putDomains_zones _ _ domains
              split at e
              · cases e
              · next clusters =>
                have k3 := State.putClusters_zones _ _ clusters
                split at e
                · cases e
                · next cores =>
                  have k4 := State.putCores_zones _ _ _ _ _ cores
                  split at e
                  · cases e
                  · next threads =>
                    have k5 := State.putThreads_zones _ _ threads
                    split at e
                    · cases e
                      simp [k4, k3, k2, k1]
                    · split at e
                      · cases e
                      · split at e
                        · cases e
                        · cases e
                        · next reparked =>
                          cases e
                          simp [State.reparkAll_zones reparked, k5, k4, k3, k2, k1]
  · cases e

@[simp] theorem State.restoreImage_zones (s : State) (image : Word) (part : Nat) : (s.restoreImage image part).zones = s.zones := by
  have read := s.rawImage_zones image
  unfold State.restoreImage
  generalize s.rawImage image = r at read ⊢
  obtain ⟨bs, s1⟩ := r
  dsimp only at read ⊢
  split
  · exact read
  · split
    · split
      · split
        · exact read
        · simpa using read
        · next done => rw [State.rebuild_zones done, read]
      · exact read
    · exact read

@[simp] theorem State.retryRestore_zones (s : State) : s.retryRestore.zones = s.zones := by
  unfold State.retryRestore
  split <;> simp

theorem State.restoreInPlace_zones {s t : State} {ctx : Nat} {c : Ctx} {image : List Byte} (e : s.restoreInPlace ctx c image = .done t) :
    t.zones = s.zones := by
  unfold State.restoreInPlace at e
  split at e
  · cases e
  · split at e
    · cases e
    · cases e
    · next done => cases e; simp [State.rebuild_zones done]

@[simp] theorem State.startReplay_zones (s : State) (ctx : Nat) (c : Ctx) (interval : Nat) (h : Hart) (count : Nat) :
    (s.startReplay ctx c interval h count).zones = s.zones := by
  unfold State.startReplay
  dsimp only
  split
  · split <;> simp
  · split
    · split <;> simp
    · rfl
    · next done => simp [State.restoreInPlace_zones done]

/-! ## Bring-up's repairs (R409) -/

section
variable {s : State} (apart : s.zones.Apart)
include apart

@[simp] theorem State.replaceCore_apart (core : Nat) : (s.replaceCore core).zones.Apart := by
  unfold State.replaceCore
  split <;> simp [apart]

@[simp] theorem State.applyRepair_apart (e : BitVec 32) : (s.applyRepair e).zones.Apart := by
  unfold State.applyRepair
  dsimp only
  split <;> simp [apart]

@[simp] theorem State.replaceUnusable_apart : s.replaceUnusable.zones.Apart := foldl_apart (fun _ _ apart1 => by simp [apart1]) _ apart

@[simp] theorem State.configured_apart (r : ConfigRecord) (list : List (BitVec 32)) (use : Bool) : (s.configured r list use).zones.Apart := by
  have short : ((recordShort r).foldl State.withhold { s with dev := { s.dev with record := r, spareUsed := recordSpares r } }).zones.Apart :=
    foldl_apart (fun _ _ apart1 => by simp [apart1]) _ (by simpa using apart)
  have banks := foldl_apart (fun (x : State) (q : Nat × Nat) apart1 => show (x.failBank q.1 q.2).zones.Apart by simp [apart1]) r.banks short
  unfold State.configured
  dsimp only
  refine State.replaceUnusable_apart ?_
  split
  · exact foldl_apart (fun _ _ apart1 => by simp [apart1]) _ banks
  · exact banks

end

/-- R408: after bring-up no cluster belongs to a partition. -/
theorem State.reset_apart : State.reset.zones.Apart :=
  ⟨fun _ _ _ mine => (List.not_mem_nil mine).elim, fun _ _ mine => (List.not_mem_nil mine).elim⟩

end Sys2Proof.Machine
end

section
/-! SUPPORT. Instructions and device steps keep the partitions apart (O56). Those whose definition is a few calls stand in exec_keeps alone. -/

namespace Sys2Proof.Machine

section
variable {s : State} (apart : s.zones.Apart)
include apart

theorem State.takeDeferred_keeps {r : Result} (e : s.takeDeferred = some r) : Keeps r := by
  unfold State.takeDeferred at e
  dsimp only at e
  split at e
  · cases e
  · cases e; simp [apart]

omit apart in
theorem State.fetchOne_apart (h : Hart) {s : State} (apart : s.zones.Apart) (a : Word) : fetchedApart (s.fetchOne h a) := by
  have first := State.fetchHalves_apart h 1 apart a []
  unfold State.fetchOne
  split
  · next e => rw [e] at first; exact first
  · next lo s1 e =>
    rw [e] at first
    split
    · exact first
    · have second := State.fetchHalves_apart h 1 first (a + 2) []
      split
      · next e => rw [e] at second; exact second
      · next hi s2 e =>
        rw [e] at second
        dsimp only
        generalize (if 32 ≤ _ then 0 else _) = n
        split
        · have third := State.fetchHalves_apart h n second (a + 4) []
          split <;> next e => rw [e] at third; exact third
        · exact second

omit apart in
theorem State.fetchBody_apart (h : Hart) (n : Nat) {s : State} (apart : s.zones.Apart) (a : Word) (acc : List (List Half)) :
    fetchedApart (s.fetchBody h a n acc) := by
  induction n generalizing s a acc with
  | zero => exact apart
  | succ n ih =>
    have first := State.fetchOne_apart h apart a
    unfold State.fetchBody
    split
    · next e => rw [e] at first; exact first
    · next e => rw [e] at first; exact ih first _ _

@[simp] theorem State.illegal_keeps (i : Instr) : Keeps (s.illegal i) := by simp [State.illegal, apart]

@[simp] theorem execGdwdWrite_keeps (n : Fin 64) (v : Word) : Keeps (execGdwdWrite n v s) := by
  simpa [execGdwdWrite, State.writeDev] using State.writeDev_apart apart (.gdwd n.val) v

@[simp] theorem execPartownWrite_keeps (n : Fin 64) (v : Word) : Keeps (execPartownWrite n v s) := by
  simpa [execPartownWrite, State.writeDev] using State.writeDev_apart apart (.partown n.val) v

@[simp] theorem execHaltwdWrite_keeps (n : Fin 64) (v : Word) : Keeps (execHaltwdWrite n v s) := by
  simpa [execHaltwdWrite, State.writeDev] using State.writeDev_apart apart (.haltwd n.val) v

@[simp] theorem execStoreRelease_keeps (d a : Opnd) (scope : Scope) (kind : StKind) : Keeps (execStoreRelease d a scope kind s) := by
  unfold execStoreRelease
  dsimp only
  (repeat' split) <;> simp [apart]

@[simp] theorem execRemoteAccessArrival_keeps (id : Nat) : Keeps (execRemoteAccessArrival id s) := by
  unfold execRemoteAccessArrival
  (repeat' split) <;> simp [apart]

@[simp] theorem execStoreAcknowledge_keeps (id : Nat) (refused : Bool) : Keeps (execStoreAcknowledge id refused s) := by
  unfold execStoreAcknowledge
  (repeat' split) <;> simp [apart]

@[simp] theorem execRemoteAccessReply_keeps (id : Nat) (peer : Option (BitVec 512)) : Keeps (execRemoteAccessReply id peer s) := by
  unfold execRemoteAccessReply
  (repeat' split) <;> simp [apart]

@[simp] theorem execParkRecheck_keeps (place bank : Nat) : Keeps (execParkRecheck place bank s) := by
  unfold execParkRecheck
  dsimp only
  split
  · simpa using apart
  · generalize operated : State.bankOp _ _ _ _ = r
    obtain ⟨r, s1⟩ := r
    have apart1 : s1.zones.Apart := by simpa [apart] using congrArg (·.2.zones.Apart) operated
    cases r with
    | redirect target =>
      dsimp only
      generalize redirected : State.redirected _ _ target = r
      have after : r.Apart := by rw [← redirected]; exact State.redirected_apart (by simpa using apart1) _ target
      cases r <;> simpa using show State.zones _ |>.Apart from after
    | busy => simpa using apart
    | _ => simpa using apart1

@[simp] theorem execHeldAccessRecheck_keeps (id : Nat) : Keeps (execHeldAccessRecheck id s) := by
  unfold execHeldAccessRecheck
  dsimp only
  split
  · simpa using apart
  · next p m _ =>
    split
    · simpa using apart
    · next a _ =>
      split
      · simpa using apart
      · have served := State.serve_apart (s := s.setSram p { m with held := m.held.filter (fun b => decide (b.id ≠ id)) }) (by simpa using apart) p a false
        split
        · next e => rw [e] at served; simpa using served
        · next e => rw [e] at served; exact served
        · exact apart

@[simp] theorem State.csrInstr_keeps (csr : BitVec 12) (i : Instr) (r : Result) (kept0 : Keeps r) : Keeps (s.csrInstr csr i r) := by
  unfold State.csrInstr
  split <;> simp [apart, kept0]

@[simp] theorem State.csrPut_keeps (csr : BitVec 12) (d : Opnd) (f : Word → Word → Word) : Keeps (s.csrPut csr d f) := by simp [State.csrPut, apart]

@[simp] theorem execRegisterWrite_keeps (core th : Nat) (csr : BitVec 12) (v : Word) : Keeps (execRegisterWrite core th csr v s) := by
  unfold execRegisterWrite
  split <;> simp [apart]

@[simp] theorem State.misuse_keeps (reason : Nat) : Keeps (s.misuse reason) := by simp [State.misuse, apart]

@[simp] theorem execMrecv_keeps (d : Fin 32) : Keeps (execMrecv d s) := by
  unfold execMrecv
  dsimp only
  (repeat' split) <;> simp [apart]

@[simp] theorem execMpoll_keeps (d : Fin 32) : Keeps (execMpoll d s) := by
  unfold execMpoll
  split <;> simp [apart]

@[simp] theorem execMcount_keeps (d : Fin 32) : Keeps (execMcount d s) := by
  unfold execMcount
  dsimp only
  (repeat' split) <;> simp [apart]

@[simp] theorem execMsend_keeps (a b : Opnd) : Keeps (execMsend a b s) := by
  unfold execMsend
  dsimp only
  (repeat' split) <;> simp [apart]

@[simp] theorem execInboxArrival_keeps (id : Nat) : Keeps (execInboxArrival id s) := by
  unfold execInboxArrival
  (repeat' split) <;> simp [apart]

@[simp] theorem execSpillWake_keeps (core : Nat) : Keeps (execSpillWake core s) := by
  unfold execSpillWake
  dsimp only
  split
  · simpa using apart
  · split
    · split <;> simp [apart]
    · simp [apart]

@[simp] theorem execFenceX_keeps  : Keeps (execFenceX s) := by
  unfold execFenceX
  split
  · simp [apart]
  · split
    · next taken => exact State.takeDeferred_keeps apart taken
    · split <;> simp [apart]

@[simp] theorem execUserInterruptEntry_keeps (core th : Nat) : Keeps (execUserInterruptEntry core th s) := by
  unfold execUserInterruptEntry
  dsimp only
  (repeat' split) <;> simp [apart]

@[simp] theorem State.engineGate_keeps (f : Result) (kept0 : Keeps f) : Keeps (s.engineGate f) := by
  unfold State.engineGate
  split
  · simp [apart]
  · split
    · next taken => exact State.takeDeferred_keeps apart taken
    · exact kept0

@[simp] theorem State.whenRoom_keeps (f : Result) (kept0 : Keeps f) : Keeps (s.whenRoom f) := by
  unfold State.whenRoom
  split <;> simp [apart, kept0]

@[simp] theorem State.issueCmd_keeps (fail : Option (Nat × Word)) (c : Cmd) : Keeps (s.issueCmd fail c) := by
  unfold State.issueCmd
  split <;> simp [apart]

@[simp] theorem State.issueHeld_keeps (fail : Option (Nat × Word)) (c : Cmd) : Keeps (s.issueHeld fail c) := by
  unfold State.issueHeld
  split <;> simp [apart]

@[simp] theorem execDrainDispatch_keeps (core : Nat) : Keeps (execDrainDispatch core s) := by
  unfold execDrainDispatch
  dsimp only
  (repeat' split) <;> simp [apart]

@[simp] theorem execDret_keeps  : Keeps (execDret s) := by
  unfold execDret
  dsimp only
  (repeat' split) <;> simp [apart]

@[simp] theorem execMatrixCommandStart_keeps (core : Nat) : Keeps (execMatrixCommandStart core s) := by
  unfold execMatrixCommandStart
  dsimp only
  (repeat' split) <;> simp [apart]

@[simp] theorem State.issueAttn_keeps (checks : List (Option (Nat × Word))) (c : Cmd) : Keeps (s.issueAttn checks c) := by
  simp [State.issueAttn, apart]

@[simp] theorem State.issueComet_keeps (c : Cmd) : Keeps (s.issueComet c) := by simp [State.issueComet, apart]

@[simp] theorem execMatrixCommandCompletion_keeps (core : Nat) : Keeps (execMatrixCommandCompletion core s) := by
  unfold execMatrixCommandCompletion
  dsimp only
  (repeat' split) <;> simp [apart]

@[simp] theorem execTransferStart_keeps (cluster : Nat) : Keeps (execTransferStart cluster s) := by
  unfold execTransferStart
  dsimp only
  (repeat' split) <;> simp [apart]

@[simp] theorem execTransferCompletion_keeps (cluster : Nat) (id : BitVec 64) : Keeps (execTransferCompletion cluster id s) := by
  unfold execTransferCompletion
  split
  · simpa using apart
  · next x _ =>
    split
    · simpa using apart
    · split
      · simpa using apart
      · dsimp only
        have moved := EngRun.moveAll_apart (2 * x.elems + 1) (e := ⟨s.turnFuel.2.asLaunched x, x.hart, x.level, .transfer x.id, x.seq, [], [],
          s.turnFuel.1, x.port, false, false⟩) (by simpa using apart) x
        split <;> next e =>
          rw [e] at moved
          have after : State.zones _ |>.Apart := moved
          simp [after, apply_ite State.zones]

@[simp] theorem execXfCancel_keeps (d : Fin 32) (a : Opnd) : Keeps (execXfCancel d a s) := by
  unfold execXfCancel
  dsimp only
  (repeat' split) <;> simp [apart]

@[simp] theorem State.atBoundary_keeps (r : Result) (kept0 : Keeps r) : Keeps (s.atBoundary r) := by
  unfold State.atBoundary
  split
  · simp [apart]
  · split
    · exact kept0
    · next due =>
      have after := State.boundary_zones due
      split
      · split
        · exact kept0
        · simpa [after] using apart
      · simpa [after] using apart

@[simp] theorem execInterruptTake_keeps (core th : Nat) : Keeps (execInterruptTake core th s) := by
  unfold execInterruptTake
  dsimp only
  (repeat' split) <;> simp [apart]

@[simp] theorem execTrapReportDelivery_keeps (hub : Nat) : Keeps (execTrapReportDelivery hub s) := by
  unfold execTrapReportDelivery
  dsimp only
  (repeat' split) <;> simp [apart]

@[simp] theorem execSchedulerTimerExpiry_keeps (core : Nat) : Keeps (execSchedulerTimerExpiry core s) := by
  unfold execSchedulerTimerExpiry
  split <;> simp [apart]

@[simp] theorem State.alu2_keeps (d : Fin 32) (a b : Opnd) (f : Word → Word → Word) : Keeps (s.alu2 d a b f) := by simp [State.alu2, apart]
@[simp] theorem State.alu1_keeps (d : Fin 32) (a : Opnd) (f : Word → Word) : Keeps (s.alu1 d a f) := by simp [State.alu1, apart]

@[simp] theorem State.branch_keeps (a b : Opnd) (off : BitVec 9) (p : Word → Word → Bool) : Keeps (s.branch a b off p) := by
  simp [State.branch, apart, apply_ite Keeps]

@[simp] theorem State.link_keeps (d : Fin 32) (target : Word) (len : Nat) : Keeps (s.link d target len) := by
  simp [State.link, apart, apply_ite Keeps]

@[simp] theorem State.sigMisuse_keeps (reason sig : Nat) : Keeps (s.sigMisuse reason sig) := by simp [State.sigMisuse, apart]

@[simp] theorem State.withSig_keeps (a : Word) (f : Nat → Nat → Domain → Nat → Sig → Result) (kept : ∀ n i d x g, Keeps (f n i d x g)) :
    Keeps (s.withSig a f) := by
  unfold State.withSig
  split
  · simp [apart]
  · split <;> simp [apart, kept]

@[simp] theorem execSigEmit_keeps (a b : Opnd) : Keeps (execSigEmit a b s) := by
  refine State.withSig_keeps apart _ _ fun n i d x g => ?_
  dsimp only
  (repeat' split) <;> simp [apart]

@[simp] theorem execSigSkip_keeps (a : Opnd) : Keeps (execSigSkip a s) := by
  refine State.withSig_keeps apart _ _ fun n i d x g => ?_
  dsimp only
  split <;> simp [apart]

@[simp] theorem State.readSig_keeps (a : Word) (val : Bool) (f : Sig → Result) (kept : ∀ g, Keeps (f g)) : Keeps (s.readSig a val f) := by
  refine State.withSig_keeps apart _ _ fun n i d x g => ?_
  (repeat' split) <;> simp [apart, kept]

@[simp] theorem State.sigBranch_keeps (a b : Opnd) (want : SigStatus) : Keeps (s.sigBranch a b want) := by
  refine State.readSig_keeps apart _ _ _ fun g => ?_
  dsimp only
  (repeat' split) <;> simp [apart]

@[simp] theorem execPause_keeps  : Keeps (execPause s) := by
  unfold execPause
  dsimp only
  (repeat' split) <;> simp [apart]

@[simp] theorem execDset_keeps (d : Fin 16) (b : Opnd) : Keeps (execDset d b s) := by
  unfold execDset
  (repeat' split) <;> simp [apart]

@[simp] theorem execDget_keeps (d : Fin 32) (a : Fin 16) : Keeps (execDget d a s) := by
  unfold execDget
  split <;> simp [apart]

@[simp] theorem execIrec_keeps (d : Fin 32) (b : Opnd) : Keeps (execIrec d b s) := by
  unfold execIrec
  split <;> simp [apart]

@[simp] theorem execCausalityCycle_keeps (dom : Nat) : Keeps (execCausalityCycle dom s) := by
  unfold execCausalityCycle
  dsimp only
  split
  · simpa using apart
  · split
    · simpa using apart
    · refine foldl_apart (fun r m apart1 => ?_) _ (by simpa using apart)
      (repeat' split) <;> simpa using apart1

@[simp] theorem execReactHalfEnd_keeps (dom : Nat) : Keeps (execReactHalfEnd dom s) := by
  unfold execReactHalfEnd
  (repeat' split) <;> simp [apart]

@[simp] theorem execExchangeHalfStart_keeps (dom : Nat) : Keeps (execExchangeHalfStart dom s) := by
  unfold execExchangeHalfStart
  dsimp only
  split
  · simpa using apart
  · split
    · simpa using apart
    · refine foldl_apart (fun r m apart1 => ?_) _ (by simpa using apart)
      split <;> simpa using apart1

@[simp] theorem execXslot_keeps (d : Fin 32) : Keeps (execXslot d s) := by
  unfold execXslot
  split <;> simp [apart]

@[simp] theorem execXsendAt_keeps (a b : Opnd) : Keeps (execXsendAt a b s) := by
  unfold execXsendAt
  dsimp only
  (repeat' split) <;> simp [apart]

@[simp] theorem execXend_keeps  : Keeps (execXend s) := by
  unfold execXend
  dsimp only
  (repeat' split) <;> simp [apart]

@[simp] theorem execExchangeBeatSend_keeps (dom : Nat) : Keeps (execExchangeBeatSend dom s) := by
  unfold execExchangeBeatSend
  dsimp only
  split
  · simpa using apart
  · split
    · simpa using apart
    · split
      · simpa using apart
      · split
        · simpa using apart
        · split
          · next met => simpa [State.beatErrors_zones met] using apart
          · simpa using apart

@[simp] theorem execExchangeArrival_keeps (dom : Nat) : Keeps (execExchangeArrival dom s) := by
  unfold execExchangeArrival
  (repeat' split) <;> try simpa using apart
  · next met => simpa [State.lineError_zones met] using apart

@[simp] theorem State.privileged_keeps (i : Instr) (r : Result) (kept0 : Keeps r) : Keeps (s.privileged i r) := by
  unfold State.privileged
  split <;> simp [apart, kept0]

@[simp] theorem execEcall_keeps  : Keeps (execEcall s) := by
  unfold execEcall
  dsimp only
  (repeat' split) <;> simp [apart]

@[simp] theorem execTlbWr_keeps (k : Bool) (d : Fin 32) (a b : Opnd) : Keeps (execTlbWr k d a b s) := by
  refine State.privileged_keeps apart _ _ ?_
  have read := State.sysRead_apart apart (s.me.opX b) 32 32
  split
  · next e => rw [e] at read; exact read
  · next e =>
    rw [e] at read
    have after : State.zones _ |>.Apart := read
    dsimp only
    (repeat' split) <;> simp [after]

@[simp] theorem execTlbInv_keeps (k : Bool) (d : Fin 32) (a b : Opnd) : Keeps (execTlbInv k d a b s) := by
  unfold execTlbInv
  dsimp only
  (repeat' split) <;> simp [apart]

@[simp] theorem State.engineImageAt_keeps (a : Word) (need : Need) (f : List RawAt → State → Result) (kept : ∀ l t, t.zones.Apart → Keeps (f l t)) :
    Keeps (s.engineImageAt a need f) := by
  unfold State.engineImageAt
  dsimp only
  split
  · simp [apart]
  · split
    · simp [apart]
    · split
      · simp [apart]
      · split
        · next l s1 mapped =>
          have apart1 : s1.zones.Apart := by simpa [apart] using congrArg (·.state.zones.Apart) mapped
          split
          · next met => exact kept _ _ (by simpa [apart1] using congrArg (·.2.zones.Apart) met)
          · next met => simpa [apart1] using congrArg (·.2.zones.Apart) met
        · next mapped => simpa [apart] using congrArg (·.state.zones.Apart) mapped
        · next v s1 mapped =>
          have apart1 : s1.zones.Apart := by simpa [apart] using congrArg (·.state.zones.Apart) mapped
          simp [apart1]

@[simp] theorem execMxSave_keeps (k : Bool) (a : Opnd) : Keeps (execMxSave k a s) := by
  exact State.privileged_keeps apart _ _ (State.engineImageAt_keeps apart _ _ _ fun l t apart1 => by simp [apart1])

@[simp] theorem execMxLoad_keeps (k : Bool) (d : Fin 32) (a : Opnd) : Keeps (execMxLoad k d a s) := by
  exact State.privileged_keeps apart _ _ (State.engineImageAt_keeps apart _ _ _ fun l t apart1 => by simp [apart1])

@[simp] theorem execNexit_keeps  : Keeps (execNexit s) := by
  unfold execNexit
  dsimp only
  split
  · simp [apart]
  · split
    · simp [apart]
    · split
      · next taken => exact State.takeDeferred_keeps apart taken
      · split <;> simp [apart]

@[simp] theorem execPhint_keeps (a b : Opnd) : Keeps (execPhint a b s) := by
  unfold execPhint
  dsimp only
  (repeat' split) <;> simp [apart]

@[simp] theorem execCtxHalt_keeps (k : Bool) (d : Fin 32) (a b : Opnd) : Keeps (execCtxHalt k d a b s) := by
  unfold execCtxHalt
  dsimp only
  (repeat' split) <;> simp [apart]

@[simp] theorem execHaltWatchdog_keeps (ctx : Nat) : Keeps (execHaltWatchdog ctx s) := by
  unfold execHaltWatchdog
  (repeat' split) <;> simp [apart]

@[simp] theorem execCtxSave_keeps (k : Bool) (d : Fin 32) (a b : Opnd) : Keeps (execCtxSave k d a b s) := by
  refine State.privileged_keeps apart _ _ ?_
  have read := State.sysRead_apart apart (s.me.opX b) 64 64
  dsimp only
  split
  · simp [apart]
  · split
    · next e => rw [e] at read; (repeat' split) <;> simp [apart, show Keeps _ from read]
    · next e =>
      rw [e] at read
      have after : State.zones _ |>.Apart := read
      (repeat' split) <;> simp [after]

@[simp] theorem execNotifyScan_keeps (q : Nat) : Keeps (execNotifyScan q s) := by
  unfold execNotifyScan
  dsimp only
  (repeat' split) <;> simp [apart]

@[simp] theorem execPeriodicQueueScan_keeps (q : Nat) : Keeps (execPeriodicQueueScan q s) := by
  unfold execPeriodicQueueScan
  (repeat' split) <;> simp [apart]

@[simp] theorem State.atHead_keeps (q : Nat) (kinds : Nat → Bool) (f : State → Queue → List Word → State)
    (kept : ∀ t r p, t.zones.Apart → (f t r p).zones.Apart) : Keeps (s.atHead q kinds f) := by
  unfold State.atHead
  split
  · simp [apart]
  · split <;> simp [apart, kept]

@[simp] theorem execGridCompletion_keeps (gid : Nat) : Keeps (execGridCompletion gid s) := by
  unfold execGridCompletion
  (repeat' split) <;> simp [apart]

@[simp] theorem execErrorEvent_keeps (gid : Nat) : Keeps (execErrorEvent gid s) := by
  unfold execErrorEvent
  (repeat' split) <;> simp [apart]

@[simp] theorem execGridDeadlock_keeps (gid : Nat) : Keeps (execGridDeadlock gid s) := by
  unfold execGridDeadlock
  dsimp only
  (repeat' split) <;> simp [apart]

@[simp] theorem execRunTimeLimit_keeps (gid : Nat) : Keeps (execRunTimeLimit gid s) := by
  unfold execRunTimeLimit
  dsimp only
  (repeat' split) <;> simp [apart]

@[simp] theorem execGroupDispatch_keeps (gid : Nat) : Keeps (execGroupDispatch gid s) := by
  unfold execGroupDispatch
  dsimp only
  split
  · simpa using apart
  · split
    · simpa using apart
    · next ready => simp [apply_ite Keeps, apart, State.groupReady_zones ready]

@[simp] theorem execPacketLaunch_keeps (q : Nat) : Keeps (execPacketLaunch q s) := by
  refine State.atHead_keeps apart _ _ _ fun t r p apart1 => ?_
  dsimp only
  split
  · simp [apart1]
  · split
    · exact apart1
    · split
      · simp [apart1]
      · split
        · simp [apart1]
        · next fitted => simpa [State.fits_zones fitted] using apart1

@[simp] theorem execPacketNop_keeps (q : Nat) : Keeps (execPacketNop q s) := by
  refine State.atHead_keeps apart _ _ _ fun t r p apart1 => ?_
  (repeat' split) <;> simp [apart1]

@[simp] theorem execPacketMark_keeps (q : Nat) : Keeps (execPacketMark q s) := by
  refine State.atHead_keeps apart _ _ _ fun t r p apart1 => ?_
  dsimp only
  (repeat' split) <;> simp [apart1]

@[simp] theorem execPacketQueueCreate_keeps (q : Nat) : Keeps (execPacketQueueCreate q s) := by
  refine State.atHead_keeps apart _ _ _ fun t r p apart1 => ?_
  dsimp only
  (repeat' split) <;> simp [apart1]

@[simp] theorem execPacketQueueDestroy_keeps (q : Nat) : Keeps (execPacketQueueDestroy q s) := by
  refine State.atHead_keeps apart _ _ _ fun t r p apart1 => ?_
  dsimp only
  (repeat' split) <;> simp [apart1]

@[simp] theorem execSaveEngine_keeps (ctx : Nat) : Keeps (execSaveEngine ctx s) := by
  unfold execSaveEngine
  dsimp only
  split
  · simpa using apart
  · split
    · simpa using apart
    · split
      · simp [apply_ite State.zones, apart]
      · split
        · simpa using apart
        · split
          · simp [apart]
          · split
            · simp [apart]
            · split
              · next l s3 mapped =>
                have apart3 : s3.zones.Apart := by simpa [apart] using congrArg (·.state.zones.Apart) mapped
                split
                · next s4 met =>
                  have apart4 : s4.zones.Apart := by simpa [apart3] using congrArg (·.2.zones.Apart) met
                  simp [apart4]
                · next s4 met =>
                  have apart4 : s4.zones.Apart := by simpa [apart3] using congrArg (·.2.zones.Apart) met
                  simp [apart4]
              · simp [apart]

@[simp] theorem execRestoreRequest_keeps (fn : Nat) (image : Word) (part : Nat) : Keeps (execRestoreRequest fn image part s) := by
  unfold execRestoreRequest
  split <;> simp [apart]

@[simp] theorem execScrubRead_keeps (memory unit off : Nat) : Keeps (execScrubRead memory unit off s) := by
  unfold execScrubRead
  dsimp only
  (repeat' split) <;> simp [apart]

@[simp] theorem execBankFailed_keeps (core bank : Nat) (selfTest : Bool) : Keeps (execBankFailed core bank selfTest s) := by
  unfold execBankFailed
  dsimp only
  split
  · simpa using apart
  · split <;> simp [apart]

@[simp] theorem execKeyLoad_keeps (fn owner : Nat) (wrapped debugKey : BitVec 576) : Keeps (execKeyLoad fn owner wrapped debugKey s) := by
  unfold execKeyLoad
  extract_lets +onlyGivenNames t
  have kept : t.zones.Apart := by simp [t, apart]
  -- The unwrapping gets a name before anything is reduced: the kernel would compute it.
  generalize Aes.kwpUnwrap _ _ = unwrapped
  (repeat' split) <;> simpa using kept

@[simp] theorem State.spdm_keeps (fn code : Nat) (r : Spdm.Fields) (bad : Bool) (f : State → Conn → State)
    (kept : ∀ t c, t.zones.Apart → (f t c).zones.Apart) : Keeps (s.spdm fn code r bad f) := by
  unfold State.spdm
  dsimp only
  (repeat' split) <;> simp [apart, kept]

@[simp] theorem execGetVersion_keeps (fn : Nat) (r : Spdm.Fields) : Keeps (execGetVersion fn r s) := by
  unfold execGetVersion
  dsimp only
  (repeat' split) <;> simp [apart]

@[simp] theorem State.debugObject_keeps (f : State → State) (kept : ∀ t, t.zones.Apart → (f t).zones.Apart) : Keeps (s.debugObject f) := by
  unfold State.debugObject
  split <;> simp [apart, kept]

@[simp] theorem State.debugCtx_keeps (ctx : Nat) (f : State → Ctx → State) (kept : ∀ t c, t.zones.Apart → (f t c).zones.Apart) :
    Keeps (s.debugCtx ctx f) := by
  refine State.debugObject_keeps apart _ fun t apart1 => ?_
  (repeat' split) <;> simp [apart1, kept]

@[simp] theorem execDebugUnlock_keeps (owner : Nat) (nonce : BitVec 256) (signature : BitVec 912) :
    Keeps (execDebugUnlock owner nonce signature s) := by
  unfold execDebugUnlock
  dsimp only
  refine State.debugObject_keeps apart _ fun t apart1 => ?_
  (repeat' split) <;> simp [apart1, State.setConn]

@[simp] theorem execDebugArm_keeps (ctx : Nat) (terms : ArmTerms) : Keeps (execDebugArm ctx terms s) := by
  refine State.debugCtx_keeps apart _ _ fun t c apart1 => ?_
  dsimp only
  (repeat' split) <;> simp [apart1]

@[simp] theorem execDebugStop_keeps (ctx interval thread count : Nat) : Keeps (execDebugStop ctx interval thread count s) := by
  refine State.debugCtx_keeps apart _ _ fun t c apart1 => ?_
  dsimp only
  (repeat' split) <;> simp [apart1]

@[simp] theorem execDebugStopReached_keeps (ctx : Nat) : Keeps (execDebugStopReached ctx s) := by
  unfold execDebugStopReached
  dsimp only
  (repeat' split) <;> simp [apart]

@[simp] theorem execDebugRead_keeps (ctx type key : Nat) : Keeps (execDebugRead ctx type key s) := by
  refine State.debugCtx_keeps apart _ _ fun t c apart1 => ?_
  dsimp only
  (repeat' split) <;> simp [apart1]

@[simp] theorem execDebugResume_keeps (ctx : Nat) : Keeps (execDebugResume ctx s) := by
  refine State.debugCtx_keeps apart _ _ fun t c apart1 => ?_
  dsimp only
  (repeat' split) <;> simp [apart1]

@[simp] theorem execLatch_keeps (dom : Nat) : Keeps (execLatch dom s) := by
  unfold execLatch
  (repeat' split) <;> simp [apart]

@[simp] theorem execFunctionLevelReset_keeps (fn : Nat) : Keeps (execFunctionLevelReset fn s) := by
  unfold execFunctionLevelReset
  dsimp only
  (repeat' split) <;> simp [apart]

@[simp] theorem execBar2Access_keeps (fn addr : Nat) (size : Fin 65) (write : Option (BitVec 512)) : Keeps (execBar2Access fn addr size write s) := by
  unfold execBar2Access
  dsimp only
  (repeat' split) <;> simp [apart]

@[simp] theorem execDevidWrite_keeps (v : Word) : Keeps (execDevidWrite v s) := by
  unfold execDevidWrite
  split <;> simp [apart]

@[simp] theorem execFlitSend_keeps (port vc : Nat) (f : Flit) : Keeps (execFlitSend port vc f s) := by
  unfold execFlitSend
  dsimp only
  (repeat' split) <;> simp [apart]

@[simp] theorem execAuditFlit_keeps (port vc free seq : Nat) : Keeps (execAuditFlit port vc free seq s) := by
  unfold execAuditFlit
  dsimp only
  (repeat' split) <;> simp [apart]

omit apart in
@[simp] theorem execBringUp_keeps (cfg : BringUp) : Keeps (execBringUp cfg s) := by
  have begun : ({ State.reset with agenda := s.agenda, free := s.free, dev := { Device.init with
      boots := s.dev.boots + 1, repairs := s.dev.repairs ++ cfg.repairs, meas := Vector.replicate 8 0 } } : State).zones.Apart := State.reset_apart
  unfold execBringUp
  dsimp only
  generalize ({ State.reset with agenda := s.agenda, free := s.free, dev := { Device.init with
      boots := s.dev.boots + 1, repairs := s.dev.repairs ++ cfg.repairs, meas := Vector.replicate 8 0 } } : State) = s0 at begun ⊢
  (repeat' split) <;> simp [begun]

@[simp] theorem State.fp2_keeps (d : Fin 32) (a b : Opnd) (p : Bool) (f : Fmt → Rm → Nat → Nat → FRes) : Keeps (s.fp2 d a b p f) := by
  simp [State.fp2, apart]

@[simp] theorem State.fp1_keeps (d : Fin 32) (a : Opnd) (p : Bool) (f : Rm → Nat → FRes) : Keeps (s.fp1 d a p f) := by simp [State.fp1, apart]
@[simp] theorem State.streamFault_keeps (reason : Nat) (g : Fin 4) : Keeps (s.streamFault reason g) := by simp [State.streamFault, apart]

@[simp] theorem execSgCfg_keeps (d : Fin 4) (a b : Opnd) : Keeps (execSgCfg d a b s) := by
  unfold execSgCfg
  dsimp only
  (repeat' split) <;> simp [apart]

@[simp] theorem State.repFault_keeps  : Keeps (s.repFault) := by simp [State.repFault, apart]

@[simp] theorem execRep_keeps (a b : Opnd) : Keeps (execRep a b s) := by
  unfold execRep
  dsimp only
  split
  · simp [apart]
  · have fetched := State.fetchBody_apart s.cur (s.me.opX b).toNat apart (s.me.pc + BitVec.ofNat 64 (len2 a b)) []
    split
    · next e => rw [e] at fetched; exact stopFetch_keeps apart fetched
    · next e =>
      rw [e] at fetched
      have after : State.zones _ |>.Apart := fetched
      (repeat' split) <;> simp [after]

@[simp] theorem State.vfp2_keeps (d : Fin 32) (a b : Opnd) (lt : FType) (len : Nat) (f : Fmt → Rm → Nat → Nat → FRes) :
    Keeps (s.vfp2 d a b lt len f) := by
  simp [State.vfp2, apart]

@[simp] theorem State.vfcmp_keeps (d : Fin 8) (a b : Opnd) (lt : FType) (rel : Num → Num → Bool) (ordered : Bool) :
    Keeps (s.vfcmp d a b lt rel ordered) := by
  simp [State.vfcmp, apart]

@[simp] theorem State.vfp1_keeps (d : Fin 32) (a : Opnd) (f : Num → FRes) : Keeps (s.vfp1 d a f) := by simp [State.vfp1, apart]

@[simp] theorem State.vbits_keeps (d : Fin 32) (a : Opnd) (lt : FType) (f : Fmt → Nat → Nat) : Keeps (s.vbits d a lt f) := by
  simp [State.vbits, apart]

@[simp] theorem State.vint2_keeps (d : Fin 32) (a b : Opnd) (w : Width) (len : Nat) (f : Nat → Nat → Nat → Nat) : Keeps (s.vint2 d a b w len f) := by
  simp [State.vint2, apart]

@[simp] theorem State.vicmp_keeps (d : Fin 8) (a b : Opnd) (w : Width) (rel : Nat → Nat → Nat → Bool) : Keeps (s.vicmp d a b w rel) := by
  simp [State.vicmp, apart]

@[simp] theorem State.vint16_keeps (d b : Fin 32) (f : Nat → Nat → Nat → Nat) : Keeps (s.vint16 d b f) := by simp [State.vint16, apart]
@[simp] theorem State.maskOp_keeps (d : Fin 8) (v : Word32) (len : Nat) : Keeps (s.maskOp d v len) := by simp [State.maskOp, apart]

@[simp] theorem State.passed_keeps (r : Result) (kept0 : Keeps r) : Keeps (s.passed r) := by
  unfold State.passed
  dsimp only
  (repeat' split) <;> simp_all

end

end Sys2Proof.Machine
end

section
/-! SUPPORT. Every step keeps the partitions apart (O56). -/

namespace Sys2Proof.Machine

section
variable {s : State} (apart : s.zones.Apart)
include apart

/-- R352, R409: every instruction and every step of the agenda keeps the partitions apart. -/
theorem exec_keeps (i : Instr) : Keeps (exec i s) := by
  cases i <;> simp [exec, apart, apply_ite Keeps, execPartclWrite, execOrbitWrite, execOrbitUpdateApply, execLb, execLbu, execLh, execLhu,
    execLw, execLwu, execLd, execSb, execSh, execSw, execSd, execLoadAcquire, execAmoadd, execAmoand, execAmoor, execAmoxor, execAmomin,
    execAmomax, execAmominu, execAmomaxu, execAmoswap, execAmocas, execAmofadd, execTld, execTst, execTcas, execTtabWr, execTtabRd,
    execTtabSwap, execCsrr, execCsrw, execCsrs, execCsrc, execTagmapWrite, execBankfmtWrite, execInstructionFetchFault, execYield,
    execMxCfg, execMxLdw, execMxSwap, execMxDup, execMxStream, execMxZero, execMxDrain, execAttnQld, execAttnMerge, execAttnSt, execAttnFin,
    execAttnRun, execCmAppend, execCmFill, execCmFree, execCmLookup, execCmShare, execCmInval, execResolveRetry, execResolveSkip,
    execResolveAbort, execMonitorTimerExpiry, execTlbMissMessage, execDirtyNotice, execAdd, execSub, execAnd, execOr, execXor, execAndn,
    execMin, execMax, execMinu, execMaxu, execLi, execMul, execMulh, execMulhu, execDiv, execDivu, execRem, execRemu, execSll, execSrl,
    execSra, execClz, execCtz, execPopc, execExts, execExtz, execBfext, execBfins, execSeq, execSlt, execSltu, execSel, execLea, execApcvt,
    execAptest, execBeq, execBne, execBlt, execBge, execBltu, execBgeu, execJal, execJalr, execJ, execSigTest, execSigVal, execBpres,
    execBabs, execVld, execVst, execVlds, execVsts, execVldx, execVstx, execEbreak, execMret, execSret, execClockStretch,
    execGetCapabilities, execNegotiateAlgorithms, execGetDigests, execGetCertificate, execChallenge, execGetMeasurements, execDebugNonce,
    execDebugDisarm, execFadd, execFsub, execFmul, execFdiv, execFfma, execFsqrt, execFmin, execFmax, execFcmpEq, execFcmpLt, execFcmpLe,
    execFcvtPrecision, execFcvtToInt, execFcvtFromInt, execVcvt, execVpack, execVunpack, execVfadd, execVfsub, execVfmul, execVfmax,
    execVfmin, execVfma, execVfcmpEq, execVfcmpLt, execVfcmpLe, execVfcmpUn, execVfexp2, execVfrcp, execVfrsq, execVflog2, execVfabs,
    execVfneg, execVfadd16, execVfsub16, execVfmul16, execVfmax16, execVfmin16, execVadd, execVsub, execVmul, execVmin, execVmax, execVand,
    execVor, execVxor, execVshl, execVshr, execVshra, execVcmpEq, execVcmpLt, execVsel, execVmov, execVbcast, execVadd16, execVsub16,
    execVmul16, execVand16, execVor16, execVxor16, execVshl16, execVshr16, execVshra16, execVmax16, execVmov16, execVperm, execVshuf,
    execVextr, execVins, execVred, execVscan, execMset, execMand, execMor, execMnot, execMpopc, execMfirst, execFence, execMloop, execUiret,
    execMxWait, execXfGo, execWfi, execXlateDrain, execKeyClear, execSpdmUnsupportedRequest, execRunLengthLogAppend, execFlitReceive,
    execSgIdx, execSgStop, execSread, execSwrite, execVquant, execVdeq]

theorem perform_keeps (i : Instr) : Keeps (perform i s) := by
  unfold perform
  exact exec_keeps (by split <;> simpa using apart) i

omit apart in
theorem logged_keeps {r : Result} (kept : Keeps r) : Keeps (logged s r) := by
  unfold logged
  split
  · simpa using kept
  · exact kept

theorem pass_keeps : Keeps (pass s) := by
  unfold pass
  extract_lets me s0
  have fetched : s0.fetch.Apart := State.fetch_apart (by simpa [s0] using apart)
  split
  · exact apart
  · split
    · next ran =>
      rw [ran] at fetched
      split
      · exact State.passed_keeps apart _ (perform_keeps fetched _)
      · exact apart
    · exact apart

theorem issue_keeps : Keeps (issue s) := by
  unfold issue
  extract_lets me s0
  have fetched : s0.fetch.Apart := State.fetch_apart (by simpa [s0] using apart)
  split
  · exact apart
  · split
    · refine logged_keeps (State.atBoundary_keeps apart _ ?_)
      split
      · next ran => rw [ran] at fetched; exact perform_keeps fetched _
      · next ran => rw [ran] at fetched; exact fetched
    · split
      · simpa using apart
      · split
        · exact logged_keeps (pass_keeps apart)
        · exact apart

theorem turn_keeps : Keeps (turn s) := by
  unfold turn
  split
  · exact issue_keeps apart
  · exact issue_keeps (by simpa using apart)
  · exact issue_keeps (by simpa using apart)
  · simpa using apart
  · simpa using apart
  · simpa using apart
  · simpa using apart
  · simpa using apart
  · simpa using apart
  · exact exec_keeps (by simpa using apart) _

end

/-- Settles O56: only a write of PARTCL, withholding a cluster and bring-up change what the statement speaks of, and each keeps clusters apart. -/
theorem stepKeepsPartitionsApart : Obligations.StepKeepsPartitionsApart := by
  intro s t apart stepped
  rw [State.partitionsApart_iff] at apart ⊢
  have kept : Keeps (step s) := turn_keeps (by simpa using apart)
  rwa [stepped] at kept

/-- Settles O55: after bring-up every partition is empty. -/
theorem resetPartitionsApart : Obligations.ResetPartitionsApart := (State.partitionsApart_iff _).2 State.reset_apart

end Sys2Proof.Machine
end

section
/-! SUPPORT. The machine right after bring-up (R408): O54. -/

namespace Sys2Proof.Machine

theorem Tab.find?_adminQueues (n q : Nat) : Tab.find? (adminQueues n) q = if q < n then some (Queue.admin q) else none := by
  induction n with
  | zero => rfl
  | succ n ih =>
    rw [adminQueues, Tab.find?_append, ih]
    rcases Nat.lt_trichotomy q n with below | rfl | above
    · simp [below, Nat.lt_succ_of_lt below]
    · simp [Tab.find?]
    · simp [Tab.find?, show ¬ q < n by omega, show ¬ q < n + 1 by omega, show q ≠ n by omega]

/-- R408: the queues that bring-up leaves live are the admin queues 0 to 63. -/
theorem reset_liveQueue (q : Nat) : (State.reset.liveQueue q).isSome = decide (q < 64) := by
  by_cases admin : q < 64
  · have cached : q ∈ State.reset.qcache := List.mem_range.2 admin
    simp [State.liveQueue, State.qcb, cached, show State.reset.queues = adminQueues 64 from rfl, Tab.find?_adminQueues, admin, Queue.admin]
  · have uncached : q ∉ State.reset.qcache := fun among => admin (List.mem_range.1 among)
    simp [State.liveQueue, State.qcb, uncached, admin, show State.reset.dram = ⟨[], [], [], [], []⟩ from rfl, Tab.find?]

theorem reset_sram (p : Place) : State.reset.sram p = Sram.init := by cases p <;> rfl

theorem reset_getX (h : Hart) (r : Fin 32) : (State.reset.thread h).getX r = 0 := by
  have thread : State.reset.thread h = Thread.init (startLevel h.core) := rfl
  simp [thread, Thread.getX, Thread.init]

theorem reset_hasKey (o : BitVec 12) : State.reset.hasKey o = decide (o = 0) := by
  have keys : State.reset.dev.keys = [] := rfl
  simp only [State.hasKey, State.keyOf, keys, Tab.find?, Option.map_none]
  split <;> next owner => simpa using owner

/-- Settles O54: every table of State.reset is empty but the admin queues, and what is absent has the value that it starts with. -/
theorem resetState : Obligations.ResetState := by
  refine ⟨fun p a => ?_, fun p w => ?_, fun h => ⟨rfl, rfl, reset_getX h, ?_⟩, fun c => ⟨rfl, rfl, rfl, rfl⟩, rfl, rfl, rfl, rfl, reset_liveQueue,
    reset_hasKey, fun n => ⟨rfl, rfl⟩, fun k => rfl, rfl, rfl⟩
  · rw [State.byteAt, reset_sram]; rfl
  · rw [reset_sram]; exact ⟨rfl, rfl⟩
  · change startLevel h.core = _
    unfold startLevel
    cases kindOf h.core <;> rfl

end Sys2Proof.Machine
end

section
/-! SUPPORT. Signals that are set, and the react half of a domain as its members see it (R271 to R276): O21, O23. -/

namespace Sys2Proof.Machine

/-! ## Members that look again (R41) -/

/-- R41: one member looks again if it is blocked on a signal. -/
def State.wakeReader (r : State) (m : Member) : State :=
  if (r.thread m.hart).status.isSignal then r.setThread m.hart { r.thread m.hart with status := .again } else r

theorem State.wakeReaders_eq (s : State) (d : Domain) : s.wakeReaders d = d.members.foldl State.wakeReader s := rfl

/-- Between s and t some of the members of d that were blocked on a signal have become ready to look again, and nothing else has changed. -/
structure Woken (s : State) (d : Domain) (t : State) : Prop where
  only : t = { s with cores := t.cores }
  memory : SameMemory s t
  threads : ∀ h, t.thread h = s.thread h ∨ s.SignalReader d t h

theorem Woken.refl (s : State) (d : Domain) : Woken s d s := ⟨rfl, SameMemory.refl s, fun _ => .inl rfl⟩

/-- A member that looks again is blocked no longer. -/
theorem Woken.wakeReader {s t : State} {d : Domain} {m : Member} (woken : Woken s d t) (member : m ∈ d.members) : Woken s d (t.wakeReader m) := by
  unfold State.wakeReader
  split
  · next blocked =>
    refine ⟨?_, woken.memory.trans (SameMemory.setThread _ _ _), fun h => ?_⟩
    · rw [woken.only]; rfl
    · by_cases mine : h = m.hart
      · subst mine
        have same : t.thread m.hart = s.thread m.hart := by
          rcases woken.threads m.hart with same | ⟨-, -, again⟩
          · exact same
          · rw [again] at blocked; cases blocked
        rw [same] at blocked ⊢
        exact .inr ⟨⟨m, member, rfl⟩, blocked, State.thread_setThread_same _ _ _⟩
      · have other := State.thread_setThread_other t m.hart { t.thread m.hart with status := .again } h mine
        rw [other]
        rcases woken.threads h with same | ⟨of, was, again⟩
        · exact .inl same
        · exact .inr ⟨of, was, other.trans again⟩
  · exact woken

theorem Woken.wakeReaders (s : State) (d : Domain) : Woken s d (s.wakeReaders d) := by
  rw [State.wakeReaders_eq]
  suffices ∀ l : List Member, (∀ m ∈ l, m ∈ d.members) → ∀ t, Woken s d t → Woken s d (l.foldl State.wakeReader t) from
    this d.members (fun _ member => member) s (Woken.refl s d)
  intro l
  induction l with
  | nil => exact fun _ t woken => woken
  | cons m l ih =>
    exact fun members t woken => ih (fun x hx => members x (List.mem_cons_of_mem _ hx)) _ (woken.wakeReader (members m List.mem_cons_self))

/-! ## A change of one signal -/

theorem State.find?_of_myDomain {s : State} {h : Hart} {n i : Nat} {d : Domain} (hd : s.myDomain h = some (n, i, d)) :
    Tab.find? s.domains n = some d := by
  unfold State.myDomain at hd
  split at hd
  · cases hd
  · split at hd
    · cases hd
    · next found => cases hd; exact found

/-- R271, R273: signal x of domain d, under number n, becomes g', and its readers look again. -/
def State.putSig (s : State) (n : Nat) (d : Domain) (x : Nat) (g' : Sig) : State :=
  (s.setDomain n { d with sigs := d.sigs.set x g', declared := false }).wakeReaders { d with sigs := d.sigs.set x g', declared := false }

theorem State.applySig_eq {s : State} {n x : Nat} {d : Domain} {g : Sig} (hd : Tab.find? s.domains n = some d) (hg : d.sigs[x]? = some g)
    (f : Sig → Sig) : s.applySig n x f = s.putSig n d x (f g) := by
  simp only [State.applySig, hd, modify_eq_set_of_getElem? hg, State.putSig]

/-- What the statement says of a signal that is set: instruction i completes in the state in which signal x of domain d is g'. -/
def SetsSignal (s : State) (n : Nat) (d : Domain) (x : Nat) (i : Instr) (len : Nat) (g' : Sig) : Prop :=
  ∃ t s', exec i s = .next t ∧ Passes s' t len ∧
      s'.domains = Tab.set n { d with sigs := d.sigs.set x g', declared := false } s.domains ∧
      s' = { s with domains := s'.domains, cores := s'.cores } ∧
      ∀ h, s'.thread h = s.thread h ∨ s.SignalReader d s' h

theorem SetsSignal.putSig {s : State} {n x len : Nat} {d : Domain} {i : Instr} {g' : Sig}
    (run : exec i s = .next ((s.putSig n d x g').retire (s.putSig n d x g').me len)) : SetsSignal s n d x i len g' := by
  have woken := Woken.wakeReaders (s.setDomain n { d with sigs := d.sigs.set x g', declared := false })
    { d with sigs := d.sigs.set x g', declared := false }
  refine ⟨_, _, run, Passes.retire _ _, State.domains_wakeReaders _ _, ?_, woken.threads⟩
  rw [State.putSig, State.domains_wakeReaders]
  exact woken.only

section Set

variable {s : State} {n i : Nat} {d : Domain} {g : Sig} {a b : Opnd} (hd : s.myDomain s.cur = some (n, i, d))
  (hg : d.sigs[(s.me.opX a).toNat]? = some g) (hdrain : isDrain s.cur = false) (react : d.exch = false) (emitter : i ∈ g.emitters)
include hd hg hdrain react emitter

theorem exec_sigEmit_waits (kept : i ∉ g.skipped) (present : g.status ≠ .absent) (early : s.outstandingIn s.cur .dev = true) (k : Bool) :
    exec (.sigEmit k a b) s = s.block .fence := by
  change execSigEmit a b s = _
  simp [execSigEmit, State.withSig_eq hd hg, emitMisuse, *]

theorem exec_sigEmit_sets (kept : i ∉ g.skipped) (present : g.status ≠ .absent) (quiet : s.outstandingIn s.cur .dev = false) (k : Bool) :
    SetsSignal s n d (s.me.opX a).toNat (.sigEmit k a b) (len2 a b) (g.emit i (s.me.opX b)) := by
  refine SetsSignal.putSig ?_
  change execSigEmit a b s = _
  simp [execSigEmit, State.withSig_eq hd hg, emitMisuse, State.applySig_eq (State.find?_of_myDomain hd) hg, *]

theorem exec_sigEmit_misuse (gone : i ∈ g.skipped ∨ g.status = .absent) (k : Bool) :
    exec (.sigEmit k a b) s = s.sigMisuse 2 (s.me.opX a).toNat := by
  change execSigEmit a b s = _
  rcases gone with gone | gone <;> simp [execSigEmit, State.withSig_eq hd hg, emitMisuse, *]

theorem exec_sigSkip_sets (k : Bool) : SetsSignal s n d (s.me.opX a).toNat (.sigSkip k a) (len1 a) (g.skip i) := by
  refine SetsSignal.putSig ?_
  change execSigSkip a s = _
  simp [execSigSkip, State.withSig_eq hd hg, emitMisuse, State.applySig_eq (State.find?_of_myDomain hd) hg, *]

end Set

/-- Table 15.12: the value of an emission combined with the signal's. -/
theorem combineOp_eq (op : Nat) (x y : Word) : combineOp op x y = (match op with
    | 0 => x ||| y
    | 1 => x + y
    | 2 => BitVec.ofInt 64 (max x.toInt y.toInt)
    | _ => BitVec.ofInt 64 (min x.toInt y.toInt)) := by
  match op with
  | 0 => rfl
  | 1 => rfl
  | 2 =>
    simp only [combineOp, BitVec.slt]
    rcases Int.lt_or_le x.toInt y.toInt with below | above
    · simp [below, Int.max_eq_right (Int.le_of_lt below)]
    · simp [Int.not_lt.mpr above, Int.max_eq_left above]
  | op + 3 =>
    simp only [combineOp, BitVec.slt]
    rcases Int.lt_or_le y.toInt x.toInt with below | above
    · simp [below, Int.min_eq_right (Int.le_of_lt below)]
    · simp [Int.not_lt.mpr above, Int.min_eq_left above]

/-- Settles O21: the misuse checks pass, so the signal is put back changed and its readers look again. -/
theorem signalsAreSet : Obligations.SignalsAreSet := by
  unfold Obligations.SignalsAreSet
  intro s k a b n i d g hd x y hg hdrain react emitter sets combined others
  refine ⟨fun kept present quiet => ?emits, fun kept present early => ?waits, fun gone => ?misuse, fun out => ?skips, fun out => ?noEffect⟩
  case emits =>
    have emitted := exec_sigEmit_sets (b := b) hd hg hdrain react emitter kept present quiet k
    rw [Sig.emit, combineOp_eq] at emitted
    exact emitted
  case waits =>
    rw [exec_sigEmit_waits hd hg hdrain react emitter kept present early]
    exact Waits.block _ _
  case misuse =>
    rw [exec_sigEmit_misuse hd hg hdrain react emitter gone]
    rfl
  case skips =>
    have skipped := exec_sigSkip_sets hd hg hdrain react emitter k
    rw [Sig.skip, if_pos out, Sig.leave, if_pos out] at skipped
    exact skipped
  case noEffect =>
    have skipped := exec_sigSkip_sets hd hg hdrain react emitter k
    rw [Sig.skip, if_neg out] at skipped
    exact skipped

/-! ## PAUSE, DSET, DGET and IREC (R274 to R276) -/

section React

variable {s : State} {n i : Nat} {d : Domain} (hd : s.myDomain s.cur = some (n, i, d))
include hd

theorem exec_dget {m : Member} (hm : d.members[i]? = some m) (mine : m.hart = s.cur) (k : Bool) (r : Fin 32) (q : Fin 16) :
    exec (.dget k r q) s = .next (s.retire (s.me.setX r s.me.dcur[q.val]) 4) := by
  change execDget r q s = _
  simp only [execDget, hd, hm, mine]
  rfl

theorem exec_irec (k : Bool) (r : Fin 32) (b : Opnd) :
    exec (.irec k r b) s = .next (s.retire (s.me.setX r (d.record.getD (bits (s.me.opX b) 0 2) 0)) (len1 b)) := by
  change execIrec r b s = _
  simp only [execIrec, hd]

variable (hdrain : isDrain s.cur = false)
include hdrain

theorem exec_dset (k : Bool) (q : Fin 16) (b : Opnd) :
    exec (.dset k q b) s = .next (s.retire { s.me with dnext := s.me.dnext.set q.val (s.me.opX b) } (len1 b)) := by
  change execDset q b s = _
  simp [execDset, hd, hdrain]

variable (main : s.me.user.h = false)
include main

theorem exec_pause_exchange (exchange : d.exch = true) (k : Bool) : exec (.pause k) s = s.sigMisuse 4 0 := by
  change execPause s = _
  simp [execPause, hd, hdrain, main, exchange]

variable {m : Member} (hm : d.members[i]? = some m) (react : d.exch = false) (going : m.paused = none)
include hm react going

theorem exec_pause_early (early : s.outstandingIn s.cur .sys = true) (k : Bool) : exec (.pause k) s = s.block .fence := by
  change execPause s = _
  simp [execPause, hd, hdrain, main, react, hm, going, early]

/-- R274: the domain of member i, which pauses. -/
def Domain.pausedBy (d : Domain) (i : Nat) (m : Member) (after : Nat) : Domain :=
  ({ d with members := d.members.set i { m with paused := some after } }).leaveAll i

theorem exec_pause (quiet : s.outstandingIn s.cur .sys = false) (k : Bool) :
    exec (.pause k) s = ((s.setDomain n (d.pausedBy i m ((s.clockOf d).toNat - d.started))).wakeReaders
      (d.pausedBy i m ((s.clockOf d).toNat - d.started))).block .pause := by
  change execPause s = _
  simp [execPause, hd, hdrain, main, react, hm, going, quiet, modify_eq_set_of_getElem? hm, Domain.pausedBy]

end React

/-- A member whose slot in the list has been changed, but not its thread, is a member of the list before. -/
theorem SignalReader.of_set {s t : State} {d d' : Domain} {i : Nat} {m m' : Member} {h : Hart} (hm : d.members[i]? = some m)
    (same : m'.hart = m.hart) (members : d'.members = d.members.set i m') (reader : s.SignalReader d' t h) : s.SignalReader d t h := by
  obtain ⟨⟨x, member, at_⟩, blocked, again⟩ := reader
  refine ⟨?_, blocked, again⟩
  rw [members] at member
  rcases List.mem_or_eq_of_mem_set member with before | rfl
  · exact ⟨x, before, at_⟩
  · exact ⟨m, List.mem_of_getElem? hm, same.symm.trans at_⟩

theorem signals_pausedBy (d : Domain) (i : Nat) (m : Member) (after : Nat) : (d.pausedBy i m after).sigs = d.sigs.map (fun g => g.leave i) := rfl

/-- Settles O23: a pause that waits for nothing leaves every outstanding set, and the members blocked on a signal look again. -/
theorem reactHalf : Obligations.ReactHalf := by
  unfold Obligations.ReactHalf
  intro s k r q b n i d m hd hm mine hdrain
  refine ⟨fun main react going quiet => ?pauses, fun main react going early => ?waits, fun exchange main => ?misuse,
    ⟨_, exec_dset hd hdrain k q b, Passes.retire_with _ _⟩, ⟨_, exec_dget hd hm mine k r q, WritesX.retire0 _ _ _ _⟩,
    ⟨_, exec_irec hd k r b, WritesX.retire0 _ _ _ _⟩⟩
  case pauses =>
    let d' := d.pausedBy i m ((s.clockOf d).toNat - d.started)
    let s1 := (s.setDomain n d').wakeReaders d'
    have woken : Woken (s.setDomain n d') d' s1 := Woken.wakeReaders _ _
    have domains : s1.domains = Tab.set n d' s.domains := State.domains_wakeReaders _ _
    have cur : s1.cur = s.cur := (congrArg (fun r : State => r.cur) woken.only).trans rfl
    refine ⟨s1.setMe { s1.me with status := .pause }, d', exec_pause hd hdrain main hm react going quiet k, ?_, domains, rfl, rfl, rfl, ?_,
      ((SameMemory.setDomain s n d').trans woken.memory).trans (SameMemory.setMe _ _), fun h other => ?_⟩
    · rw [State.me_setMe, State.me, cur]
      rcases woken.threads s.cur with same | ⟨-, -, again⟩
      · rw [same]; rfl
      · rw [again]; rfl
    · rw [State.setMe_domains, domains]
      exact congrArg (fun r : State => { r with cores := (s1.setMe { s1.me with status := .pause }).cores }) woken.only
    · rw [State.SignalReader, State.setMe, cur, State.thread_setThread_other _ _ _ _ other]
      exact (woken.threads h).imp_right (SignalReader.of_set (m' := { m with paused := some _ }) hm rfl rfl)
  case waits =>
    rw [exec_pause_early hd hdrain main hm react going early]
    exact Waits.block _ _
  case misuse =>
    rw [exec_pause_exchange hd hdrain main exchange]
    rfl

end Sys2Proof.Machine
end

section
/-! SUPPORT. Calls, returns and WFI (R325 to R328): O42. -/

namespace Sys2Proof.Machine

/-! ## Calls (R325) -/

theorem callAnswer_eq (n : Word) : callAnswer n = if n = 0 then 0x10000 else 0xFFFFFFFFFFFFFFFF := by
  unfold callAnswer
  split
  · rfl
  · decide

/-- Between u and v the monitor has answered a call with value. -/
structure Thread.Answered (u v : Thread) (cause : Nat) (value : Word) : Prop where
  passed : u.Passed v 4
  written : u.XWritten v 10 value
  epc : v.priv.mepc = u.pc + 4
  cause : v.priv.mcause = causeWord false false false cause
  level : v.level = u.level

theorem Thread.Answered.answerCall (t : Thread) (core cause : Nat) (value : Word) : t.Answered (t.answerCall core cause value) cause value where
  passed := Thread.Passed.advance t _ 4 (Thread.setX_retired ..) (Thread.setX_pc ..) (Thread.setX_rep ..) (Thread.setX_level ..)
    (congrArg UserCsrs.h (Thread.setX_user ..))
  written := by
    let t1 := t.saveM (causeWord false false false cause) 0
    let t2 : Thread := { t1 with priv := { t1.priv with mepc := t.pc + 4 }, rep := t.rep }
    have set := Thread.XWritten.setX (t2.restoreM (lowestLevel core)) 10 value
    have from_t : t.XWritten ((t2.restoreM (lowestLevel core)).setX 10 value) 10 value := ⟨set.value, set.zero, set.others, set.hiddenH, set.hiddenX⟩
    exact from_t.congr (Thread.advance_x ..) (Thread.advance_h ..) (congrArg UserCsrs.h (Thread.advance_user ..))
  epc := by simp [Thread.answerCall, Thread.restoreM]
  cause := by simp [Thread.answerCall, Thread.restoreM, Thread.saveM]
  level := by simp [Thread.answerCall, Thread.restoreM, Thread.saveM]

theorem SameMemory.trapping (s : State) (t : Thread) : SameMemory s ({ s with trapped := true }.setMe t) :=
  have same : SameMemory s ({ s with trapped := true } : State) := SameMemory.of_cores (fun _ => rfl) rfl rfl
  same.trans (SameMemory.setMe _ _)

section Calls

variable {s : State}

theorem exec_ecall_answered (compute : kindOf s.cur.core = .compute) (user : s.cur.th < 4) (low : s.me.level = .u) (other : s.me.getX 10 ≠ 1) (k : Bool) :
    exec (.ecall k) s = .next ({ s with trapped := true }.setMe (s.me.answerCall s.cur.core 8 (callAnswer (s.me.getX 10)))) := by
  change execEcall s = _
  simp only [execEcall, compute, low, isUserThread, user, if_neg other]
  rfl

/-- R325: the thread whose call is forwarded, with the registers of the M level as the call leaves them. -/
def Thread.calling (t : Thread) : Thread :=
  { t.saveM (causeWord false false false 8) 0 with priv := { (t.saveM (causeWord false false false 8) 0).priv with mepc := t.pc + 4 } }

theorem exec_ecall_forwarded (compute : kindOf s.cur.core = .compute) (user : s.cur.th < 4) (low : s.me.level = .u) (node : s.me.getX 10 = 1) (k : Bool) :
    exec (.ecall k) s = .next (({ s with trapped := true }.setMe s.me.calling).forward s.cur 8 0 0 false) := by
  change execEcall s = _
  simp only [execEcall, compute, low, isUserThread, user, node]
  rfl

theorem State.cur_forward (s : State) (h : Hart) (c : Nat) (v : Word) (info : BitVec 14) (nest : Bool) : (s.forward h c v info nest).cur = s.cur := by
  let r := s.reportOf h c v info nest
  obtain ⟨_, _, _, _, posted⟩ := (s.stopEvent r).post_eq (s.hubOf r.grid) r
  rw [State.forward, State.setThread_cur, State.report, posted, s.stopEvent_eq]
  rfl

theorem forwards_ecall (compute : kindOf s.cur.core = .compute) :
    Forwards s (({ s with trapped := true }.setMe s.me.calling).forward s.cur 8 0 0 false) s.cur (s.reportOf s.cur 8 0 0 false) s.me.calling := by
  have forwarded := Forwards.forward compute ({ s with trapped := true }.setMe s.me.calling) 8 0 0 false
  have thread : ({ s with trapped := true }.setMe s.me.calling).thread s.cur = s.me.calling := State.me_setMe _ _
  have report : ({ s with trapped := true }.setMe s.me.calling).reportOf s.cur 8 0 0 false = s.reportOf s.cur 8 0 0 false :=
    State.reportOf_setThread { s with trapped := true } s.cur s.me.calling 8 0 0 false rfl rfl rfl
  rw [thread, report] at forwarded
  obtain ⟨waits, reported, others, sram⟩ := Forwards.of_setThread (s := { s with trapped := true }) compute forwarded
  exact ⟨waits, reported, others, sram.bytes, sram.tags, sram.owners⟩

/-- R325: the thread of a translation or hub core that calls from level U, in the handler at S. -/
def Thread.called (t : Thread) (core : Nat) : Thread :=
  { (t.saveM (causeWord false false false 8) 0).restoreM (lowestLevel core) with rep := t.rep }.enterS (causeWord false false false 8) 0

theorem Thread.called_x (t : Thread) (core : Nat) : (t.called core).x = t.x := rfl

theorem exec_ecall_atS (device : kindOf s.cur.core ≠ .compute) (low : s.me.level = .u) (k : Bool) :
    exec (.ecall k) s = .next ({ s with trapped := true }.setMe (s.me.called s.cur.core)) := by
  change execEcall s = _
  cases kind : kindOf s.cur.core with
  | compute => exact absurd kind device
  | translation => simp only [execEcall, kind, low]; rfl
  | hub => simp only [execEcall, kind, low]; rfl

theorem exec_ecall_system (device : kindOf s.cur.core ≠ .compute) (high : s.me.level ≠ .u) (k : Bool) : ∃ cause,
    exec (.ecall k) s = .next ({ s with trapped := true }.setMe (s.me.answerCall s.cur.core cause (callAnswer (s.me.getX 10)))) := by
  refine ⟨if s.me.level = .u then 8 else if s.me.level = .s then 9 else 11, ?_⟩
  change execEcall s = _
  unfold execEcall
  dsimp only
  split
  · next kind _ => exact absurd kind device
  · next kind _ => exact absurd kind device
  · next level _ => exact absurd level high
  · rfl

end Calls

/-! ## Returns (R326, R327) -/

/-- R326: MSTATUS after MRET: MIE from MPIE, MPIE set, MPP the lowest level. -/
def mretStatus (ms : Word) (lowest : Level) : Word := setBits (setBits (setBits ms 3 1 (bits ms 7 1)) 7 1 1) 11 2 lowest.code

/-- R327: MSTATUS after SRET: SIE from SPIE, SPIE set, SPP clear. -/
def sretStatus (ms : Word) : Word := setBits (setBits (setBits ms 1 1 (bits ms 5 1)) 5 1 1) 8 1 0

/-- A thread that returns to level at target, with status ms. -/
def Thread.returned (t : Thread) (ms : Word) (level : Level) (target : Word) : Thread :=
  ({ t with retired := t.retired + 1, priv := { t.priv with mstatus := ms }, level := level } : Thread).returnTo target

theorem exec_mret {s : State} (level : s.me.level = .m) (k : Bool) : exec (.mret k) s =
    .next (s.setMe (s.me.returned (mretStatus s.me.priv.mstatus (lowestLevel s.cur.core)) (levelOf (bits s.me.priv.mstatus 11 2)) s.me.priv.mepc)) := by
  change execMret k s = _
  simp only [execMret, State.privileged, privOk, level, decide_true, if_true]
  rfl

theorem exec_sret {s : State} (device : kindOf s.cur.core ≠ .compute) (high : s.me.level ≠ .u) (k : Bool) : exec (.sret k) s =
    .next ((s.setMyCore { s.myCore with handling := false }).setMe
      (s.me.returned (sretStatus s.me.priv.mstatus) (levelOf (bits s.me.priv.mstatus 8 1)) s.me.priv.sepc)) := by
  change execSret k s = _
  have me : (s.setMyCore { s.myCore with handling := false }).me = s.me := State.me_setMyCore rfl
  simp only [execSret, State.privileged, privOk, device, high, ne_eq, not_false_eq_true, decide_true, decide_false, Bool.not_false, Bool.and_self,
    if_true, me]
  rfl

/-- Between s and s1 the current thread has returned to level at pc, with status ms; no other thread and no memory has changed. -/
structure Returned (s s1 : State) (pc : Word) (level : Level) (ms : Word) : Prop where
  atPc : s1.me.pc = pc
  atLevel : s1.me.level = level
  status : s1.me.priv.mstatus = ms
  retired : s1.me.retired = s.me.retired + 1
  kept : s1.me = { s.me with pc := pc, level := level, rep := s1.me.rep, retired := s1.me.retired, priv := { s.me.priv with mstatus := s1.me.priv.mstatus } }
  memory : SameMemory s s1
  others : ∀ h, h ≠ s.cur → s1.thread h = s.thread h

theorem Returned.returned {s r : State} (pc : Word) (level : Level) (ms : Word) (memory : SameMemory s r) (cur : r.cur = s.cur)
    (threads : ∀ h, r.thread h = s.thread h) : Returned s (r.setMe (s.me.returned ms level pc)) pc level ms := by
  have kept : s.me.returned ms level pc = _ := Thread.returnTo_kept _ pc
  have me := r.me_setMe (s.me.returned ms level pc)
  constructor
  case memory => exact memory.trans (SameMemory.setMe _ _)
  case others =>
    intro h other
    rw [State.setMe, State.thread_setThread_other _ _ _ _ (cur ▸ other), threads]
  all_goals rw [me, kept]

theorem getLsbD_mretStatus (ms : Word) (lowest : Level) (j : Nat) (hj : j < 64) (h11 : j ≠ 11) (h12 : j ≠ 12) : (mretStatus ms lowest).getLsbD j =
    if j = 3 then ms.getLsbD 7 else if j = 7 then true else ms.getLsbD j := by
  simp only [mretStatus, getLsbD_setBits _ _ _ _ _ hj, show ¬(11 ≤ j ∧ j < 11 + 2) by omega, if_false]
  by_cases h3 : j = 3
  · subst h3; simpa using testBit_bits_one ms 7
  · by_cases h7 : j = 7
    · subst h7; simp
    · simp only [h3, h7, if_false, show ¬(3 ≤ j ∧ j < 3 + 1) by omega, show ¬(7 ≤ j ∧ j < 7 + 1) by omega]

theorem getLsbD_sretStatus (ms : Word) (j : Nat) (hj : j < 64) : (sretStatus ms).getLsbD j =
    if j = 1 then ms.getLsbD 5 else if j = 5 then true else if j = 8 then false else ms.getLsbD j := by
  simp only [sretStatus, getLsbD_setBits _ _ _ _ _ hj]
  by_cases h1 : j = 1
  · subst h1; simpa using testBit_bits_one ms 5
  · by_cases h5 : j = 5
    · subst h5; simp
    · by_cases h8 : j = 8
      · subst h8; simp
      · simp only [h1, h5, h8, if_false, show ¬(1 ≤ j ∧ j < 1 + 1) by omega, show ¬(5 ≤ j ∧ j < 5 + 1) by omega, show ¬(8 ≤ j ∧ j < 8 + 1) by omega]

/-! ## The statement -/

/-- Settles O42: a call is answered, forwarded or taken at S by its kind of core and level; a return restores what its status field holds. -/
theorem callsAndReturns : Obligations.CallsAndReturns := by
  unfold Obligations.CallsAndReturns
  intro s k t ms returns
  refine ⟨rfl, fun compute user low other => ?answers, fun compute user low node => ?forwards, fun device low => ?atS, fun device high => ?system,
    fun level => ?mret, fun device high => ?sret, fun allowed => ?wfi⟩
  case answers =>
    obtain ⟨passed, written, epc, cause, level⟩ := Thread.Answered.answerCall s.me s.cur.core 8 (callAnswer (s.me.getX 10))
    refine ⟨_, exec_ecall_answered compute user low other k, ?_⟩
    rw [State.me_setMe, ← callAnswer_eq]
    exact ⟨passed, written, epc, cause.trans (by decide), level.trans low, SameMemory.trapping _ _, rfl⟩
  case forwards =>
    obtain ⟨thread, reported, -, -⟩ := forwards_ecall (s := s) compute
    have code : causeWord false false true 8 = BitVec.ofNat 64 (8 + 2 ^ 61) := by decide
    have me : State.me _ = _ := (congrArg (State.thread _) (State.cur_forward ..)).trans thread
    refine ⟨_, exec_ecall_forwarded compute user low node k, ?_, ?_, ?_, s.reportOf s.cur 8 0 0 false, reported, rfl, rfl, code, rfl⟩
    · rw [me]
    · rw [me]; rfl
    · rw [me]; rfl
  case atS =>
    refine ⟨_, exec_ecall_atS device low k, ?_⟩
    rw [State.me_setMe]
    have code : causeWord false false false 8 = 8 := by decide
    exact ⟨rfl, rfl, code, rfl, Thread.called_x _ _⟩
  case system =>
    obtain ⟨cause, run⟩ := exec_ecall_system device high k
    have answered := Thread.Answered.answerCall s.me s.cur.core cause (callAnswer (s.me.getX 10))
    refine ⟨_, run, ?_⟩
    rw [State.me_setMe, ← callAnswer_eq]
    exact ⟨answered.passed, answered.level, answered.written⟩
  case mret =>
    obtain ⟨atPc, atLevel, status, retired, kept, memory, others⟩ := Returned.returned s.me.priv.mepc (levelOf (bits s.me.priv.mstatus 11 2))
      (mretStatus s.me.priv.mstatus (lowestLevel s.cur.core)) (SameMemory.refl s) rfl fun _ => rfl
    refine ⟨_, exec_mret level k, atPc, atLevel, ?_, retired, kept, memory, others⟩
    rw [status]
    refine ⟨?_, ?_, bits_setBits_same _ _ _ _ (by decide) (Level.code_lt _), fun j hj h3 h7 h11 h12 => ?_⟩
    · exact getLsbD_mretStatus _ _ 3 (by decide) (by decide) (by decide)
    · exact getLsbD_mretStatus _ _ 7 (by decide) (by decide) (by decide)
    · rw [getLsbD_mretStatus _ _ j hj h11 h12, if_neg h3, if_neg h7]
  case sret =>
    obtain ⟨atPc, atLevel, status, retired, kept, memory, others⟩ := Returned.returned (r := s.setMyCore { s.myCore with handling := false })
      s.me.priv.sepc (levelOf (bits s.me.priv.mstatus 8 1)) (sretStatus s.me.priv.mstatus)
      (SameMemory.of_cores (State.core_setCore_kept Core.sram s s.cur.core _ rfl) rfl rfl) rfl
      fun h => State.thread_congr (State.core_setCore_kept Core.threads s s.cur.core { s.myCore with handling := false } rfl _)
    refine ⟨_, exec_sret device high k, atPc, atLevel, ?_, retired, kept, memory, others⟩
    rw [status]
    refine ⟨?_, ?_, ?_, fun j hj h1 h5 h8 => ?_⟩
    · exact getLsbD_sretStatus _ 1 (by decide)
    · exact getLsbD_sretStatus _ 5 (by decide)
    · exact getLsbD_sretStatus _ 8 (by decide)
    · rw [getLsbD_sretStatus _ j hj, if_neg h1, if_neg h5, if_neg h8]
  case wfi =>
    have run : exec (.wfi k) s = _ := if_pos allowed
    refine ⟨fun due => ⟨_, run.trans (if_pos due), Passes.retire s 4⟩, fun idle => ?_⟩
    rw [run, if_neg (not_not.mpr idle)]
    exact Waits.block s _

end Sys2Proof.Machine
end

section
/-! SUPPORT. The TLB, drain and engine-image instructions (R329 to R333): O43. -/

namespace Sys2Proof.Machine

/-! ## The load of a privileged instruction (R329, R335) -/

/-- R329, R335: the access by which a privileged instruction reads k words from an offset of the own SRAM. -/
def State.wordsAccess (s : State) (addr : Word) (o k : Nat) : Access :=
  mkAccess s s.cur addr .load .load (.sram (.core s.cur.core)) 8 ((List.range k).map (fun i => (o + 8 * i, i))) 0 0 true

theorem wordsOf_wordsAccess {s : State} {addr : Word} {o k : Nat} (aligned : o % 8 = 0) (plain : ∀ i, i < k → PlainWord s 0 (o / 8 + i)) :
    ∀ w ∈ wordsOf (s.wordsAccess addr o k).esize (s.wordsAccess addr o k).elems, PlainWord s 0 w := by
  intro w hw
  obtain ⟨_, mem, low, high⟩ := mem_wordsOf (n := 8) (by decide) hw
  obtain ⟨i, hi, rfl⟩ := List.mem_map.mp mem
  obtain rfl : w = o / 8 + i := by dsimp only at low high; omega
  exact plain i (List.mem_range.mp hi)

theorem lane_wordsAccess (s : State) (addr : Word) (o : Nat) {k i : Nat} (few : k ≤ 8) (hi : i < k) :
    lane (s.myCore.sram.loadLanes (s.wordsAccess addr o k)) 8 i = s.myCore.sram.readFor (s.ownerOfHart s.cur) (o + 8 * i) 8 := by
  have lanes := lane_foldl_placed (w := 8) (fun x => s.myCore.sram.readFor (s.ownerOfHart s.cur) x 8) (fun _ => Sram.readFor_lt_two_pow ..)
    (fun i => o + 8 * i) (l := List.range k) (fun j hj => (List.mem_range.mp hj).trans_le few) 0 (hi.trans_le few)
  rw [lane_zero, Nat.zero_or, if_pos (List.mem_range.mpr hi)] at lanes
  exact lanes

/-- R329: the words that have been read wait in the thread, whose instruction is executed again. -/
theorem State.finishAccess_indices {s r : State} (start : s.me.AtStart) (read : s.Read r) (addr : Word) (o : Nat) {k : Nat} (few : k ≤ 8) (len : Nat) :
    (r.numbered.setMyCore r.myCore).finishAccess s.cur (.indices k 8) (s.myCore.sram.loadLanes (s.wordsAccess addr o k)) len = r.gather o k := by
  obtain ⟨-, noPend, noWords, -⟩ := start
  have cur : r.cur = s.cur := read.cur_eq
  have me : (r.numbered.setMyCore r.myCore).thread s.cur = s.me := by
    rw [← cur, ← read.me]
    exact State.me_setMyCore (s := r.numbered) rfl
  have word (i : Nat) (hi : i < k) : BitVec.ofInt 64 (sext (8 * 8) (lane (s.myCore.sram.loadLanes (s.wordsAccess addr o k)) 8 i)) =
      BitVec.ofNat 64 (r.myCore.sram.readFor (r.ownerOfHart r.cur) (o + 8 * i) 8) := by
    have owner : r.ownerOfHart r.cur = s.ownerOfHart s.cur := by rcases read with rfl | rfl <;> rfl
    rw [lane_wordsAccess s addr o few hi, sext_eq_toInt, read.myCore, owner]
    exact BitVec.ofInt_toInt
  have words := List.map_congr_left (l := List.range k) fun i hi => word i (List.mem_range.mp hi)
  have same := r.numbered.setMe_setMyCore_same { r.me with
    status := .again
    gathered := (List.range k).map (fun i => BitVec.ofNat 64 (r.myCore.sram.readFor (r.ownerOfHart r.cur) (o + 8 * i) 8)) }
  rw [State.finishAccess, me, noWords, List.nil_append, words, State.gather, ← same, ← read.me, ← cur]
  rw [← read.me] at noPend
  rw [← noPend]
  rfl

theorem State.sysRead_gathers {s : State} {addr : Word} {o k align : Nat} (start : s.me.AtStart) (few : k ≤ 8)
    (range : s.resolveRange s.cur addr.toNat (8 * k) = some (.sram (.core s.cur.core) o)) (aligned : addr.toNat % align = 0) (whole : 8 ∣ align)
    (permitted : s.pmpOk s.cur addr.toNat (8 * k) .read = true) (plain : ∀ i, i < k → PlainWord s 0 (o / 8 + i)) :
    ∃ r, s.Read r ∧ s.sysRead addr (8 * k) align = .stop (.next (r.gather o k)) := by
  have inWord : o % 8 = 0 := by
    rw [State.resolveAt_mod (State.resolveRange_resolveAt range)]
    exact Nat.mod_eq_zero_of_dvd (whole.trans (Nat.dvd_of_mod_eq_zero aligned))
  let a := s.wordsAccess addr o k
  obtain ⟨r, q, read, served⟩ := State.serve_own_load (s := s) (a := a) rfl (kindAt_own (a := a) rfl) rfl (wordsOf_wordsAccess inWord plain)
  refine ⟨r, read, ?_⟩
  have answered := State.sramAccess_answered (f := .indices k 8) (len := 0) (a := a) rfl served
  have words : 8 * k / 8 = k := Nat.mul_div_cancel_left k (by decide)
  have ⟨_, _, noWords, _⟩ := start
  simp only [State.sysRead, noWords, range, aligned, permitted, words, ne_eq, not_true_eq_false, Bool.not_true, Bool.false_eq_true, if_false]
  refine congrArg SysRead.stop (answered.trans (congrArg _ ?_))
  exact State.finishAccess_indices start read addr o few 0

theorem State.privileged_allowed {s : State} {i : Instr} (allowed : privOk s.cur.core s.me.level i = true) (r : Result) : s.privileged i r = r :=
  if_pos allowed

/-! ## TLB.WR (R329) -/

theorem mem_dropCovering {e y : TlbEntry} {l : List TlbEntry} (h : y ∈ dropCovering e l) : y ∈ l ∧ ¬ (y.asid = e.asid ∧ y.covers e.va = true) := by
  obtain ⟨before, other⟩ := List.mem_filter.mp h
  exact ⟨before, by simpa only [Bool.not_eq_true', Bool.and_eq_false_iff, decide_eq_false_iff_not, not_and_or, Bool.not_eq_true] using other⟩

theorem State.mem_evict {s : State} {cluster : Nat} {l : List TlbEntry} {y : TlbEntry} (h : y ∈ s.evict cluster l) : y ∈ l := by
  unfold State.evict at h
  split at h
  · exact h
  · split at h
    · exact List.mem_of_mem_erase h
    · exact List.mem_of_mem_tail h

theorem State.length_evict (s : State) (cluster : Nat) (l : List TlbEntry) : (s.evict cluster l).length + 1 ≤ max 128 l.length := by
  unfold State.evict
  split
  · omega
  · split
    · next old found =>
      rw [List.length_erase_of_mem (List.mem_of_find?_eq_some found)]
      omega
    · rw [List.length_tail]
      omega

/-- R329: the TLB of the core in which an entry has been installed. -/
theorem State.tlb_installTlb (s : State) (n : Nat) (e : TlbEntry) :
    ((s.installTlb n e).core n).tlb = s.evict (clusterOf n) (dropCovering e (s.core n).tlb) ++ [e] := by
  have retired (c : Core) : (c.retireMisses e).tlb = c.tlb := by
    unfold Core.retireMisses
    split <;> rfl
  exact (congrArg Core.tlb (State.core_setCore_same s n _)).trans (retired _)

theorem State.core_installTlb_other (s : State) (e : TlbEntry) {n j : Nat} (other : j ≠ n) : (s.installTlb n e).core j = s.core j :=
  State.core_setCore_other s n _ j other

section TlbWr

variable {s s1 : State} {k : Bool} {d : Fin 32} {a b : Opnd} {v : Nat} (allowed : privOk s.cur.core s.me.level (.tlbWr k d a b) = true)
include allowed

theorem exec_tlbWr_reads {r : Result} (read : s.sysRead (s.me.opX b) 32 32 = .stop r) : exec (.tlbWr k d a b) s = r := by
  change execTlbWr k d a b s = _
  rw [execTlbWr, State.privileged_allowed allowed, read]

variable (read : s.sysRead (s.me.opX b) 32 32 = .ok v s1)
include read

theorem exec_tlbWr_installs {e : TlbEntry} (image : tlbImage v = some e) (zero : bits (s.me.opX a) 4 60 = 0) :
    let s2 := s1.installTlb (16 * clusterOf s.cur.core + bits (s.me.opX a) 0 4) e
    exec (.tlbWr k d a b) s = .next (s2.retire (s2.me.setX d 0) (len2 a b)) := by
  change execTlbWr k d a b s = _
  simp [execTlbWr, State.privileged_allowed allowed, read, image, zeroBits, zero]

theorem exec_tlbWr_malformed (bad : tlbImage v = none ∨ bits (s.me.opX a) 4 60 ≠ 0) :
    exec (.tlbWr k d a b) s = .next (s1.retire (s1.me.setX d 1) (len2 a b)) := by
  change execTlbWr k d a b s = _
  rw [execTlbWr, State.privileged_allowed allowed, read]
  cases image : tlbImage v with
  | none => simp [image]
  | some e =>
    have high : bits (s.me.opX a) 4 60 ≠ 0 := bad.resolve_left (by simp [image])
    simp [image, zeroBits, high]

end TlbWr

/-! ## TLB.INV (R330) -/

/-- R330: core n loses the entries that w selects. -/
def State.invalidate (w : Word) (s : State) (n : Nat) : State :=
  s.setCore n { s.core n with tlb := (s.core n).tlb.filter (fun e => !selects w e) }

theorem State.thread_invalidate (w : Word) (s : State) (n : Nat) (h : Hart) : (s.invalidate w n).thread h = s.thread h := by
  refine State.thread_congr (State.core_setCore_kept Core.threads s n _ ?_ h.core)
  rfl

theorem State.thread_foldl_invalidate (w : Word) (l : List Nat) (s : State) (h : Hart) : (l.foldl (State.invalidate w) s).thread h = s.thread h :=
  foldl_kept _ (fun r => r.thread h) (fun r n => r.thread_invalidate w n h) l s

theorem State.tlb_foldl_invalidate (w : Word) {l : List Nat} (distinct : l.Nodup) (s : State) (n : Nat) :
    ((l.foldl (State.invalidate w) s).core n).tlb = if n ∈ l then (s.core n).tlb.filter (fun e => !selects w e) else (s.core n).tlb := by
  induction l generalizing s with
  | nil => rfl
  | cons m l ih =>
    obtain ⟨once, distinct⟩ := List.nodup_cons.mp distinct
    rw [List.foldl_cons, ih distinct]
    by_cases here : n = m
    · subst here
      rw [if_neg once, if_pos (List.mem_cons_self ..), State.invalidate, State.core_setCore_same]
    · rw [State.invalidate, State.core_setCore_other _ _ _ _ here]
      simp only [List.mem_cons, here, false_or]

/-- R330: the state in which TLB.INV completes. -/
def State.invalidated (s : State) (x w : Word) : State :=
  let s1 := (((List.range 16).filter (fun i => bit x i)).map (16 * clusterOf s.cur.core + ·)).foldl (State.invalidate w) s
  if zeroBits x 0 16 then s1 else
    { s1 with walk := s1.walk.filter (fun q => decide (q.1 ≠ clusterOf s.cur.core) || !selects w q.2) }

theorem State.core_invalidated (s : State) (x w : Word) (n : Nat) : (s.invalidated x w).core n =
    ((((List.range 16).filter (fun i => bit x i)).map (16 * clusterOf s.cur.core + ·)).foldl (State.invalidate w) s).core n := by
  unfold State.invalidated
  dsimp only
  split <;> rfl

theorem State.thread_invalidated (s : State) (x w : Word) (h : Hart) : (s.invalidated x w).thread h = s.thread h :=
  (State.thread_congr (congrArg Core.threads (State.core_invalidated s x w h.core))).trans (State.thread_foldl_invalidate ..)

theorem State.tlb_invalidated (s : State) (x w : Word) {i : Nat} (hi : i < 16) : let n := 16 * clusterOf s.cur.core + i
    ((s.invalidated x w).core n).tlb = if x.getLsbD i then (s.core n).tlb.filter (fun e => !selects w e) else (s.core n).tlb := by
  intro n
  have distinct : (((List.range 16).filter (fun i => bit x i)).map (16 * clusterOf s.cur.core + ·)).Nodup :=
    (List.nodup_range.filter _).map fun _ _ h => Nat.add_left_cancel h
  have named : n ∈ ((List.range 16).filter (fun i => bit x i)).map (16 * clusterOf s.cur.core + ·) ↔ x.getLsbD i = true := by
    simp [n, bit, hi]
  rw [State.core_invalidated, State.tlb_foldl_invalidate w distinct]
  simp only [named]

section TlbInv

variable {s : State} {k : Bool} {d : Fin 32} {a b : Opnd} (allowed : privOk s.cur.core s.me.level (.tlbInv k d a b) = true)
include allowed

theorem exec_tlbInv (high : bits (s.me.opX a) 16 48 = 0) (top : bits (s.me.opX b) 56 6 = 0) (middle : bits (s.me.opX b) 12 7 = 0)
    (selector : bits (s.me.opX b) 62 2 ≠ 3) : let s2 := s.invalidated (s.me.opX a) (s.me.opX b)
    exec (.tlbInv k d a b) s = .next (s2.retire (s2.me.setX d 0) (len2 a b)) := by
  change execTlbInv k d a b s = _
  simp only [execTlbInv, State.privileged_allowed allowed, State.invalidated, List.foldl_map]
  simp [zeroBits, high, top, middle, selector]
  rfl

theorem exec_tlbInv_malformed (bad : bits (s.me.opX a) 16 48 ≠ 0 ∨ bits (s.me.opX b) 56 6 ≠ 0 ∨ bits (s.me.opX b) 12 7 ≠ 0 ∨ bits (s.me.opX b) 62 2 = 3) :
    exec (.tlbInv k d a b) s = .next (s.retire (s.me.setX d 1) (len2 a b)) := by
  change execTlbInv k d a b s = _
  rw [execTlbInv, State.privileged_allowed allowed]
  refine if_pos ?_
  simpa [zeroBits, or_assoc] using bad

end TlbInv

/-! ## MX.SAVE and MX.LOAD (R332, R333, R386) -/

section Image

variable {s s0 s1 : State} {a : Word} {need : Need} {l : List RawAt} (range : s.resolveRange s.cur a.toNat 93504 ≠ none) (aligned : a.toNat % 64 = 0)
include range aligned

theorem State.engineImageAt_busy (busy : s.myCore.cmds ≠ []) (f : List RawAt → State → Result) : s.engineImageAt a need f = s.block .engine := by
  obtain ⟨t, range⟩ := Option.ne_none_iff_exists'.mp range
  simp [State.engineImageAt, range, aligned, busy]

theorem State.engineImageAt_idle (idle : s.myCore.cmds = []) (mapped : s.rawMap s.cur s.me.level need a 1461 [] = .ok l s0)
    (clean : s0.rawMeet s0.myCore.mowner (l.map (fun p => (p, decide (need = .write)))) 0 = (none, s1)) (f : List RawAt → State → Result) :
    s.engineImageAt a need f = f l s1 := by
  obtain ⟨t, range⟩ := Option.ne_none_iff_exists'.mp range
  simp only [State.engineImageAt, range, aligned, idle, mapped, clean]
  rfl

end Image

/-! ## The statement -/

/-- Settles O43: the operands are checked, and the entry, the selected entries, the older accesses or the image of the engine are dealt with. -/
theorem translationInstructions : Obligations.TranslationInstructions := by
  unfold Obligations.TranslationInstructions
  intro s k d a b x w cl
  refine ⟨fun o allowed start range aligned permitted plain => ?gathers, fun allowed v s1 read cur => ⟨fun e image zero => ?installs, fun bad => ?malformed⟩,
    fun allowed => ⟨fun high top middle selector => ?invalidates, fun bad => ?noSelector⟩, fun allowed => ?drain, fun allowed range aligned => ?image⟩
  case gathers =>
    obtain ⟨r, read, gathers⟩ := State.sysRead_gathers (k := 4) (align := 32) start (by decide) range aligned (by decide) permitted plain
    exact ⟨r, read, exec_tlbWr_reads allowed gathers⟩
  case installs =>
    have run := exec_tlbWr_installs allowed read image zero
    have tlb := s1.tlb_installTlb (16 * cl + bits x 0 4) e
    refine ⟨_, _, run, WritesX.retire0 _ _ _ _, ?_, fun y hy => ?_, ?_, fun j other => State.core_installTlb_other s1 e other⟩
    · rw [tlb, List.getLast?_concat]
    · rw [tlb, List.dropLast_concat] at hy
      exact mem_dropCovering (State.mem_evict hy)
    · have fits := s1.length_evict (clusterOf (16 * cl + bits x 0 4)) (dropCovering e (s1.core (16 * cl + bits x 0 4)).tlb)
      have fewer : (dropCovering e (s1.core (16 * cl + bits x 0 4)).tlb).length ≤ _ := List.length_filter_le ..
      rw [tlb, List.length_append, List.length_singleton]
      omega
  case malformed => exact ⟨_, exec_tlbWr_malformed allowed read bad, WritesX.retire0 _ _ _ _⟩
  case invalidates =>
    exact ⟨_, _, exec_tlbInv allowed high top middle selector, WritesX.retire0 _ _ _ _, fun i hi => s.tlb_invalidated x w hi, s.thread_invalidated x w⟩
  case noSelector => exact ⟨_, exec_tlbInv_malformed allowed bad, WritesX.retire0 _ _ _ _⟩
  case drain =>
    have run : exec (.xlateDrain k a b) s = _ := State.privileged_allowed allowed _
    exact ⟨fun none => ⟨_, run.trans (if_pos none), Passes.retire_with _ _⟩, fun some => run.trans (if_neg some)⟩
  case image =>
    have save : exec (.mxSave k a) s = _ := State.privileged_allowed allowed _
    have load : exec (.mxLoad k d a) s = _ := State.privileged_allowed (i := .mxLoad k d a) allowed _
    refine ⟨fun idle => ⟨fun l s0 s1 mapped clean => ?_, fun l s0 s1 mapped clean => ?_⟩, fun busy => ?_⟩
    · exact ⟨_, save.trans (State.engineImageAt_idle range aligned idle mapped clean _), Passes.retire _ _⟩
    · exact ⟨_, _, _, load.trans (State.engineImageAt_idle range aligned idle mapped clean _), WritesX.retire0 _ _ _ _⟩
    · rw [save, State.engineImageAt_busy range aligned busy]
      exact Waits.block _ _

end Sys2Proof.Machine
end

section
/-! SUPPORT. What a halt leaves of a thread's system registers (R334): O44. -/

namespace Sys2Proof.Machine

/-! ## What a halt leaves of a thread's system registers (R334) -/

/-- The S and M registers of every thread. -/
def State.privs (s : State) : Hart → PrivCsrs := fun h => (s.thread h).priv

theorem State.privs_of_threads {s t : State} (same : ∀ n, (t.core n).threads = (s.core n).threads) : t.privs = s.privs :=
  funext fun h => congrArg Thread.priv (State.thread_congr (same h.core))

theorem State.privs_setThread {s : State} {h : Hart} {t : Thread} (same : t.priv = (s.thread h).priv) : (s.setThread h t).privs = s.privs := by
  refine funext fun g => ?_
  by_cases here : g = h
  · subst here
    exact (congrArg Thread.priv (State.thread_setThread_same s g t)).trans same
  · exact congrArg Thread.priv (State.thread_setThread_other s h t g here)

theorem State.privs_setCore {s : State} {n : Nat} {c : Core} (same : c.threads = (s.core n).threads) : (s.setCore n c).privs = s.privs :=
  State.privs_of_threads (State.core_setCore_kept Core.threads s n c same)

theorem State.privs_wakeEngine (s : State) (n : Nat) : (s.wakeEngine n).privs = s.privs := by
  refine funext fun h => ?_
  change ((s.wakeEngine n).thread h).priv = (s.thread h).priv
  rcases s.thread_wakeEngine n h with same | ⟨-, -, again⟩
  · rw [same]
  · rw [again]

theorem State.privs_setCore_wakeEngine {s : State} {n : Nat} {c : Core} (same : c.threads = (s.core n).threads) :
    ((s.setCore n c).wakeEngine n).privs = s.privs := (State.privs_wakeEngine _ n).trans (State.privs_setCore same)

theorem State.privs_withdraw (s : State) (ids : List Nat) : (s.withdraw ids).privs = s.privs := by
  refine State.privs_of_threads fun n => ?_
  simp only [State.core, State.withdraw, Tab.find?_map_key (fun q : Nat × Core => { q.2 with sram := q.2.sram.withdraw ids })]
  cases Tab.find? s.cores n <;> rfl

/-- R382: a core once the energy of its context has been settled. -/
def Core.paidTo (ctx : Nat) (c : Core) : Core :=
  if c.ctx? = some ctx then { c with threads := c.threads.map (fun r => (r.1, r.2.paid)) } else c

theorem Core.priv_paidTo (ctx : Nat) (c : Core) (th : Nat) :
    (Tab.find? (c.paidTo ctx).threads th).map Thread.priv = (Tab.find? c.threads th).map Thread.priv := by
  have paid (t : Thread) : t.paid.priv = t.priv := by
    unfold Thread.paid
    split <;> rfl
  unfold Core.paidTo
  split
  · simp only [Tab.find?_map_key (fun r : Nat × Thread => r.2.paid), Option.map_map]
    exact congrArg (Option.map · _) (funext paid)
  · rfl

theorem State.cores_settleEnergy {s : State} {ctx : Nat} {c : Ctx} (found : Tab.find? s.ctxs ctx = some c) :
    (s.settleEnergy ctx).cores = s.cores.map (fun q => (q.1, q.2.paidTo ctx)) := by
  simp only [State.settleEnergy, found, Core.paidTo]
  refine List.map_congr_left fun q _ => ?_
  split <;> rfl

theorem State.privs_settleEnergy (s : State) (ctx : Nat) : (s.settleEnergy ctx).privs = s.privs := by
  cases found : Tab.find? s.ctxs ctx with
  | none => simp only [State.settleEnergy, found]
  | some c =>
    refine funext fun h => ?_
    simp only [State.privs, State.thread, State.core, State.cores_settleEnergy found, Tab.find?_map_key (fun q : Nat × Core => q.2.paidTo ctx)]
    cases Tab.find? s.cores h.core with
    | none => rfl
    | some k =>
      have kept := k.priv_paidTo ctx h.th
      simp only [Option.map_some, Option.getD_some]
      revert kept
      cases Tab.find? (k.paidTo ctx).threads h.th <;> cases Tab.find? k.threads h.th <;> simp

theorem Thread.defer_priv (t : Thread) (f : Deferred) : (t.defer f).priv = t.priv := by
  unfold Thread.defer
  split <;> rfl

theorem State.privs_discardLoading (s : State) (n : Nat) (r : Running) (v : Word) (u : BitVec 14) : (s.discardLoading n r v u).privs = s.privs := by
  refine (State.privs_setThread (Thread.defer_priv _ _)).trans ((State.privs_setCore_wakeEngine ?_).trans (State.privs_withdraw _ _))
  rfl

theorem State.privs_discard (s : State) (n : Nat) (r : Running) (v : Word) (u : BitVec 14) : (s.discard n r v u).privs = s.privs := by
  have drained : State.privs (if r.draining then (s.withdraw (((s.thread ⟨n, 4⟩).pend.map Pend.ids).getD [])).setThread ⟨n, 4⟩
      { (s.thread ⟨n, 4⟩).calmed with status := .idle } else s) = s.privs := by
    split
    · refine (State.privs_setThread ?_).trans (State.privs_withdraw _ _)
      exact (congrFun (s.privs_withdraw _) ⟨n, 4⟩).symm
    · rfl
  refine (State.privs_setThread ?_).trans ((State.privs_setCore_wakeEngine ?_).trans ((State.privs_withdraw _ _).trans drained))
  · split
    · exact Thread.defer_priv _ _
    · exact Thread.defer_priv _ _
  · rfl

theorem State.privs_discardStalled (s : State) (n : Nat) : (s.discardStalled n).privs = s.privs := by
  unfold State.discardStalled
  dsimp only
  split
  · refine (State.privs_discard _ _ _ _ _).trans ?_
    split
    · exact State.privs_discardLoading _ _ _ _ _
    · rfl
  · split
    · exact State.privs_discardLoading _ _ _ _ _
    · rfl

theorem State.privs_stopExchange (s : State) (n : Nat) (d : Domain) : (s.stopExchange n d).privs = s.privs := by
  unfold State.stopExchange
  refine foldl_kept _ State.privs (fun r b => ?_) _ _
  dsimp only
  split
  · exact State.privs_setThread rfl
  · rfl

theorem State.privs_stopHeld (s : State) (h : Hart) : (s.stopHeld h).privs = s.privs := by
  unfold State.stopHeld
  dsimp only
  split
  · refine (State.privs_setThread ?_).trans (State.privs_setCore_wakeEngine ?_) <;> rfl
  · split
    · refine (State.privs_setThread ?_).trans (State.privs_setCore_wakeEngine ?_) <;> rfl
    · rfl

theorem State.privs_haltAccess (s : State) (h : Hart) : (s.haltAccess h).privs = s.privs := by
  unfold State.haltAccess
  dsimp only
  split
  · rfl
  · split
    · refine (State.privs_setThread ?_).trans (State.privs_withdraw _ _)
      rfl
    · split
      · exact State.privs_setThread rfl
      · rfl

theorem State.privs_haltSend (s : State) (h : Hart) : (s.haltSend h).privs = s.privs := by
  unfold State.haltSend
  split
  · rfl
  · split
    · exact State.privs_stopExchange _ _ _
    · rfl

theorem State.privs_abandonMiss (s : State) (h : Hart) (page : Nat) : (s.abandonMiss h page).privs = s.privs := by
  have halted : (s.setThread h (s.thread h).haltFull).privs = s.privs := State.privs_setThread rfl
  unfold State.abandonMiss
  dsimp only
  split
  · exact halted
  · refine (State.privs_setCore ?_).trans halted
    rfl

theorem State.privs_haltThread (s : State) (force : Bool) (h : Hart) : (s.haltThread force h).privs = s.privs := by
  have halted : (s.setThread h (s.thread h).haltFull).privs = s.privs := State.privs_setThread rfl
  unfold State.haltThread
  dsimp only
  split
  · rfl
  · rfl
  · rfl
  · rfl
  · exact s.privs_haltAccess h
  · exact halted
  · exact halted
  · exact s.privs_abandonMiss h _
  · exact s.privs_haltSend h
  · exact s.privs_stopHeld h
  · split
    · exact halted
    · rfl

theorem State.privs_stopTransfers (s : State) (ctx : Nat) : (s.stopTransfers ctx).privs = s.privs := by
  unfold State.stopTransfers
  dsimp only
  split
  · exact State.privs_withdraw _ _
  · rfl

theorem State.privs_settle (s : State) (ctx : Nat) : (s.settle ctx).privs = s.privs := by
  have stopped := s.privs_stopTransfers ctx
  unfold State.settle
  dsimp only
  split
  · exact stopped
  · split
    · exact (State.privs_settleEnergy _ _).trans stopped
    · exact stopped

theorem State.privs_haltThreads (s : State) (ctx : Nat) (force : Bool) : (s.haltThreads ctx force).privs = s.privs :=
  (State.privs_settle _ _).trans (foldl_kept _ State.privs (fun r h => r.privs_haltThread force h) _ _)

theorem State.privs_expire (s : State) (ctx : Nat) (c : Ctx) : (s.expire ctx c).privs = s.privs :=
  (State.privs_haltThreads _ _ _).trans (foldl_kept _ State.privs State.privs_discardStalled _ _)

end Sys2Proof.Machine
end

section
/-! SUPPORT. CTX.HALT and CTX.SAVE (R334, R335): O44. -/

namespace Sys2Proof.Machine

/-! ## CTX.HALT that asks for a halt (R334) -/

/-- The halt of a context has been asked for, with force or without. -/
def State.Halting (s : State) (ctx : Nat) (force : Bool) : Prop := ∀ c, Tab.find? s.ctxs ctx = some c → c.halt ≠ 0 ∧ c.force = force

theorem State.Halting.of_ctxs {s t : State} {ctx : Nat} {force : Bool} (halting : s.Halting ctx force) (same : t.ctxs = s.ctxs) :
    t.Halting ctx force := by
  rw [State.Halting, same]
  exact halting

theorem State.Halting.setCtx (s : State) {ctx : Nat} {c : Ctx} (halt : c.halt ≠ 0) : (s.setCtx ctx c).Halting ctx c.force := by
  intro c' found
  cases (Tab.find?_set_same ctx c s.ctxs).symm.trans found
  exact ⟨halt, rfl⟩

theorem State.ctxs_stopTransfers (s : State) (ctx : Nat) : (s.stopTransfers ctx).ctxs = s.ctxs := State.ctxs_of_rolls (s.rolls_stopTransfers ctx)

theorem State.Halting.settle {s : State} {ctx : Nat} {force : Bool} (halting : s.Halting ctx force) : (s.settle ctx).Halting ctx force := by
  have stopped := halting.of_ctxs (s.ctxs_stopTransfers ctx)
  unfold State.settle
  dsimp only
  split
  · exact stopped
  · next c found =>
    split
    · rw [← (stopped c found).2]
      exact .setCtx _ (show (2 : Nat) ≠ 0 by decide)
    · exact stopped

theorem State.ctxs_settle_other (s : State) {ctx n : Nat} (other : n ≠ ctx) : Tab.find? (s.settle ctx).ctxs n = Tab.find? s.ctxs n := by
  have stopped := congrArg (Tab.find? · n) (s.ctxs_stopTransfers ctx)
  have settled (r : State) : Tab.find? (r.settleEnergy ctx).ctxs n = Tab.find? r.ctxs n := by
    unfold State.settleEnergy
    split
    · rfl
    · exact Tab.find?_set_other _ _ _ _ other
  unfold State.settle
  dsimp only
  split
  · exact stopped
  · split
    · exact (Tab.find?_set_other _ _ _ _ other).trans ((settled _).trans stopped)
    · exact stopped

theorem State.ctxs_foldl_haltThread (force : Bool) (l : List Hart) (s : State) : (l.foldl (fun r h => r.haltThread force h) s).ctxs = s.ctxs :=
  State.ctxs_of_rolls (foldl_kept (fun r h => State.haltThread r force h) State.rolls (fun r h => r.rolls_haltThread force h) l s)

theorem State.ctxs_foldl_discardStalled (l : List Nat) (s : State) : (l.foldl (fun r n => r.discardStalled n) s).ctxs = s.ctxs :=
  State.ctxs_of_rolls (foldl_kept (fun r n => State.discardStalled r n) State.rolls State.rolls_discardStalled l s)

/-- What a request for the halt of a context leaves: the halt has been asked for, the other contexts are as they were, and the monitors of its
cores have an interrupt pending. -/
structure State.HaltAsked (s t : State) (ctx : Nat) (force : Bool) : Prop where
  halting : t.Halting ctx force
  others : ∀ n, n ≠ ctx → Tab.find? t.ctxs n = Tab.find? s.ctxs n
  pending : ∀ n ∈ s.coresOf ctx, (t.thread ⟨n, 0⟩).priv.mip.getLsbD 1 = true

/-- The threads are halted after that. -/
theorem State.HaltAsked.of_setCtx {s r t : State} {ctx : Nat} {c : Ctx} {force : Bool} {l : List Hart} (halt : c.halt ≠ 0) (asks : c.force = force)
    (ctxs : r.ctxs = s.ctxs) (pending : ∀ n ∈ s.coresOf ctx, (r.thread ⟨n, 0⟩).priv.mip.getLsbD 1 = true)
    (after : t.ctxs = (r.setCtx ctx c).ctxs) (privs : t.privs = r.privs) :
    s.HaltAsked ((l.foldl (fun r h => r.haltThread force h) t).settle ctx) ctx force := by
  subst asks
  have same := (State.ctxs_foldl_haltThread c.force l t).trans after
  refine ⟨((State.Halting.setCtx r halt).of_ctxs same).settle, fun n other => ?_, fun n member => ?_⟩
  · rw [State.ctxs_settle_other _ other, same, ← ctxs]
    exact Tab.find?_set_other _ _ _ _ other
  · have kept : State.privs _ = r.privs := (State.privs_settle _ ctx).trans
      ((foldl_kept (fun r h => State.haltThread r c.force h) State.privs (fun r h => r.privs_haltThread c.force h) l t).trans privs)
    exact (congrArg (fun p : Hart → PrivCsrs => (p ⟨n, 0⟩).mip.getLsbD 1) kept).trans (pending n member)

theorem State.getLsbD_mip_driveM (s : State) (n m : Nat) (pending : m = n ∨ (s.thread ⟨m, 0⟩).priv.mip.getLsbD 1 = true) :
    ((s.driveM ⟨n, 0⟩ 65 true).thread ⟨m, 0⟩).priv.mip.getLsbD 1 = true := by
  by_cases here : m = n
  · subst here
    rw [State.thread_driveM, getLsbD_setBits _ _ _ _ _ (by decide)]
    rfl
  · rw [State.driveM, State.thread_setThread_other _ _ _ _ (by simpa using here)]
    exact pending.resolve_left here

theorem State.getLsbD_mip_foldl_driveM (l : List Nat) (s : State) {n : Nat} (pending : n ∈ l ∨ (s.thread ⟨n, 0⟩).priv.mip.getLsbD 1 = true) :
    ((l.foldl (fun r n => r.driveM ⟨n, 0⟩ 65 true) s).thread ⟨n, 0⟩).priv.mip.getLsbD 1 = true := by
  induction l generalizing s with
  | nil => exact pending.resolve_left List.not_mem_nil
  | cons m l ih =>
    refine ih _ ?_
    rcases pending with member | before
    · rcases List.mem_cons.mp member with rfl | later
      · exact .inr (s.getLsbD_mip_driveM n n (.inl rfl))
      · exact .inl later
    · exact .inr (s.getLsbD_mip_driveM m n (.inr before))

theorem State.HaltAsked.requestHalt {s : State} {ctx : Nat} {c : Ctx} (found : Tab.find? s.ctxs ctx = some c) (force : Bool) :
    s.HaltAsked (s.requestHalt ctx force) ctx force := by
  let r := (s.coresOf ctx).foldl (fun r n => r.driveM ⟨n, 0⟩ 65 true) s
  have ctxs : r.ctxs = s.ctxs := foldl_kept (fun r n => State.driveM r ⟨n, 0⟩ 65 true) State.ctxs (fun _ _ => rfl) _ _
  have pending (n : Nat) (member : n ∈ s.coresOf ctx) := State.getLsbD_mip_foldl_driveM (s.coresOf ctx) s (.inl member)
  unfold State.requestHalt
  rw [found]
  dsimp only
  split
  · next forced =>
    subst forced
    exact .of_setCtx (r := r) (c := { c with halt := 1, force := true }) Nat.one_ne_zero rfl ctxs pending (State.ctxs_foldl_discardStalled ..)
      (foldl_kept _ State.privs State.privs_discardStalled _ _)
  · next free =>
    obtain rfl : force = false := by simpa using free
    exact .of_setCtx (r := r) (c := { c with halt := 1, force := false }) Nat.one_ne_zero rfl ctxs pending rfl rfl

/-! ## CTX.HALT that ends a halt -/

theorem State.isHalted_resumed (s : State) (h : Hart) : (s.resumed h).isHalted = false := by
  unfold State.resumed
  dsimp only
  (repeat' split) <;> rfl

theorem State.isHalted_resumeThread (s : State) (h g : Hart) (goes : g = h ∨ (s.thread g).status.isHalted = false) :
    ((s.resumeThread h).thread g).status.isHalted = false := by
  unfold State.resumeThread
  dsimp only
  by_cases here : g = h
  · subst here
    split
    · rw [State.thread_setThread_same]
      exact s.isHalted_resumed g
    · next going => simpa using going
  · split
    · rw [State.thread_setThread_other _ _ _ _ here]
      exact goes.resolve_left here
    · exact goes.resolve_left here

theorem State.isHalted_foldl_resumeThread (l : List Hart) (s : State) {g : Hart} (goes : g ∈ l ∨ (s.thread g).status.isHalted = false) :
    ((l.foldl State.resumeThread s).thread g).status.isHalted = false := by
  induction l generalizing s with
  | nil => exact goes.resolve_left List.not_mem_nil
  | cons h l ih =>
    refine ih _ ?_
    rcases goes with member | before
    · rcases List.mem_cons.mp member with rfl | later
      · exact .inr (s.isHalted_resumeThread g g (.inl rfl))
      · exact .inl later
    · exact .inr (s.isHalted_resumeThread h g (.inr before))

/-- Core n stands in the table for context ctx. -/
theorem State.mem_coresOf {s : State} {ctx n : Nat} : n ∈ s.coresOf ctx ↔ ∃ c, (n, c) ∈ s.cores ∧ kindOf n = .compute ∧ c.ctx? = some ctx := by
  simp [State.coresOf, and_assoc]

/-- An entry of a table stays under its key, unless it is the one that is replaced. -/
theorem Tab.mem_set_of_mem {α : Type} {k j : Nat} {u v : α} {t : Tab α} (mem : (j, u) ∈ t) :
    (j, u) ∈ Tab.set k v t ∨ (j = k ∧ Tab.find? t k = some u ∧ (j, v) ∈ Tab.set k v t) := by
  induction t with
  | nil => cases mem
  | cons q t ih =>
    obtain ⟨i, w⟩ := q
    simp only [Tab.set, Tab.find?]
    split
    · exact .inl (List.mem_cons_of_mem _ mem)
    · split
      · next same =>
        rcases List.mem_cons.mp mem with here | later
        · cases here
          exact .inr ⟨same.symm, rfl, by rw [same]; exact List.mem_cons_self⟩
        · exact .inl (List.mem_cons_of_mem _ later)
      · rcases List.mem_cons.mp mem with here | later
        · cases here
          exact .inl List.mem_cons_self
        · rcases ih later with kept | ⟨at_, found, replaced⟩
          · exact .inl (List.mem_cons_of_mem _ kept)
          · exact .inr ⟨at_, found, List.mem_cons_of_mem _ replaced⟩

theorem State.mem_coresOf_setThread {s : State} {ctx n : Nat} (member : n ∈ s.coresOf ctx) (h : Hart) (t : Thread) :
    n ∈ (s.setThread h t).coresOf ctx := by
  obtain ⟨c, mem, kind, mine⟩ := State.mem_coresOf.mp member
  rw [State.mem_coresOf]
  rcases Tab.mem_set_of_mem (k := h.core) (v := { s.core h.core with threads := Tab.set h.th t (s.core h.core).threads }) mem with kept | ⟨-, found, replaced⟩
  · exact ⟨c, kept, kind, mine⟩
  · have core : s.core h.core = c := by rw [State.core, found, Option.getD_some]
    exact ⟨_, replaced, kind, by rw [← mine, ← core]; rfl⟩

theorem State.mem_coresOf_foldl_driveM {ctx n : Nat} (l : List Nat) {s : State} (member : n ∈ s.coresOf ctx) :
    n ∈ (l.foldl (fun r n => r.driveM ⟨n, 0⟩ 65 false) s).coresOf ctx :=
  foldl_inv _ (fun r => n ∈ r.coresOf ctx) (fun _ _ kept => State.mem_coresOf_setThread kept _ _) l s member

theorem State.mem_userHarts {s : State} {ctx n th : Nat} (member : n ∈ s.coresOf ctx) (user : th < 4) : (⟨n, th⟩ : Hart) ∈ s.userHarts ctx :=
  List.mem_flatMap.mpr ⟨n, member, List.mem_map.mpr ⟨th, List.mem_range.mpr user, rfl⟩⟩

theorem State.halt_resumeCtx {s : State} {ctx : Nat} {c c' : Ctx} (found : Tab.find? s.ctxs ctx = some c)
    (after : Tab.find? (s.resumeCtx ctx).ctxs ctx = some c') : c'.halt = 0 := by
  have resumed (r : State) (h : Hart) : (r.resumeThread h).ctxs = r.ctxs := by
    unfold State.resumeThread
    dsimp only
    split <;> rfl
  unfold State.resumeCtx at after
  rw [found] at after
  dsimp only at after
  rw [foldl_kept State.resumeThread State.ctxs resumed, foldl_kept (fun r n => State.driveM r ⟨n, 0⟩ 65 false) State.ctxs (fun _ _ => rfl),
    State.setCtx, Tab.find?_set_same] at after
  cases after
  rfl

theorem State.isHalted_resumeCtx {s : State} {ctx n th : Nat} {c : Ctx} (found : Tab.find? s.ctxs ctx = some c) (member : n ∈ s.coresOf ctx)
    (user : th < 4) : ((s.resumeCtx ctx).thread ⟨n, th⟩).status.isHalted = false := by
  unfold State.resumeCtx
  rw [found]
  refine State.isHalted_foldl_resumeThread _ _ (.inl (List.mem_append_left _ ?_))
  exact State.mem_userHarts (State.mem_coresOf_foldl_driveM _ (s := s.setCtx ctx _) member) user

/-! ## The codes of CTX.HALT and CTX.SAVE (Table 22.5) -/

/-- A context whose clusters the scheduler has not released (log 94). -/
theorem filter_here {o : Option Ctx} {c : Ctx} (found : o = some c) (here : c.away = false) : o.filter (fun c => !c.away) = some c := by
  rw [found, Option.filter_some_pos (by simp [here])]

section Halt

variable {s : State} {k : Bool} {d : Fin 32} {a b : Opnd} (allowed : privOk s.cur.core s.me.level (.ctxHalt k d a b) = true)
  (reserved : bits (s.me.opX b) 2 62 = 0)
include allowed reserved

theorem exec_ctxHalt_none (none : ∀ y, Tab.find? s.ctxs (bits (s.me.opX a) 0 32) = some y → y.away = true) (free : (s.me.opX b).getLsbD 0 = false)
    (halts : (s.me.opX b).getLsbD 1 = false) : exec (.ctxHalt k d a b) s = .next (s.retire (s.me.setX d 1) (len2 a b)) := by
  have gone : (Tab.find? s.ctxs (bits (s.me.opX a) 0 32)).filter (fun c => !c.away) = .none := by
    simpa [Option.filter_eq_none_iff] using none
  change execCtxHalt k d a b s = _
  rw [execCtxHalt, State.privileged_allowed allowed]
  simp [-BitVec.getLsbD_eq_getElem, gone, State.pick, bit, free, halts, zeroBits, reserved]

/-- R334: a context that is there, and is neither stopped nor being saved. -/
structure Ctx.Plain (c : Ctx) : Prop where
  here : c.away = false
  going : c.dbg.stopped = none ∧ c.dbg.target = none ∧ c.dbg.asked = none
  kept : c.saving = none ∧ c.dbg.mark = none ∧ c.mirroring = none

variable {c : Ctx} (found : Tab.find? s.ctxs (bits (s.me.opX a) 0 32) = some c) (high : bits (s.me.opX a) 32 32 = 0) (plain : c.Plain)
include found high plain

theorem exec_ctxHalt_halts (halts : (s.me.opX b).getLsbD 1 = false) (running : c.halt = 0) :
    let ctx := bits (s.me.opX a) 0 32
    let s1 := (s.setCtx ctx { c with dbg := c.dbg.breakInterval }).requestHalt ctx ((s.me.opX b).getLsbD 0)
    exec (.ctxHalt k d a b) s = .next (s1.retire (s1.me.setX d 0) (len2 a b)) := by
  obtain ⟨here, ⟨h1, h2, h3⟩, h4, h5, h6⟩ := plain
  change execCtxHalt k d a b s = _
  rw [execCtxHalt, State.privileged_allowed allowed]
  have there := filter_here found here
  simp [-BitVec.getLsbD_eq_getElem, there, State.pick, bit, halts, zeroBits, reserved, high, running, h1, h2, h3, h4, h5]

theorem exec_ctxHalt_resumes (free : (s.me.opX b).getLsbD 0 = false) (resumes : (s.me.opX b).getLsbD 1 = true) (halted : c.halt ≠ 0) :
    let s1 := s.resumeCtx (bits (s.me.opX a) 0 32)
    exec (.ctxHalt k d a b) s = .next (s1.retire (s1.me.setX d 0) (len2 a b)) := by
  obtain ⟨here, ⟨h1, h2, h3⟩, h4, h5, h6⟩ := plain
  change execCtxHalt k d a b s = _
  rw [execCtxHalt, State.privileged_allowed allowed]
  have there := filter_here found here
  simp [-BitVec.getLsbD_eq_getElem, there, State.pick, bit, free, resumes, zeroBits, reserved, high, Ctx.latching, halted, h1, h2, h3, h4, h5, h6]

theorem exec_ctxHalt_refused (free : (s.me.opX b).getLsbD 0 = false)
    (wrong : (s.me.opX b).getLsbD 1 = false ∧ c.halt ≠ 0 ∨ (s.me.opX b).getLsbD 1 = true ∧ c.halt = 0) :
    exec (.ctxHalt k d a b) s = .next (s.retire (s.me.setX d 2) (len2 a b)) := by
  obtain ⟨here, ⟨h1, h2, h3⟩, h4, h5, h6⟩ := plain
  change execCtxHalt k d a b s = _
  rw [execCtxHalt, State.privileged_allowed allowed]
  have there := filter_here found here
  rcases wrong with ⟨halts, halted⟩ | ⟨resumes, running⟩
  · simp [-BitVec.getLsbD_eq_getElem, there, State.pick, bit, free, halts, zeroBits, reserved, high, halted, h1, h2, h3]
  · simp [-BitVec.getLsbD_eq_getElem, there, State.pick, bit, free, resumes, zeroBits, reserved, high, running, h1, h2, h3, h4]

end Halt

section Save

variable {s : State} {k : Bool} {d : Fin 32} {a b : Opnd} {c : Ctx} (allowed : privOk s.cur.core s.me.level (.ctxSave k d a b) = true)
  (found : Tab.find? s.ctxs (bits (s.me.opX a) 0 32) = some c) (high : bits (s.me.opX a) 32 32 = 0) (here : c.away = false) (halted : c.halt ≠ 0)
  (kept : c.saving = none ∧ c.dbg.mark = none ∧ c.mirroring = none) (aligned : (s.me.opX b).toNat % 64 = 0)
include allowed found high here halted kept aligned

theorem exec_ctxSave_reads {r : Result} (read : s.sysRead (s.me.opX b) 64 64 = .stop r) : exec (.ctxSave k d a b) s = r := by
  obtain ⟨h1, h2, h3⟩ := kept
  change execCtxSave k d a b s = _
  rw [execCtxSave, State.privileged_allowed allowed]
  have there := filter_here found here
  simp [there, zeroBits, high, halted, Ctx.latching, aligned, read, h1, h2, h3]

theorem exec_ctxSave_saves {v : Nat} {s1 : State} (read : s.sysRead (s.me.opX b) 64 64 = .ok v s1) (fits : v < 256 ^ 32) :
    let s2 := s1.setCtx (bits (s.me.opX a) 0 32)
      { c with saved := false, saving := some ⟨s.cur, s.me.level, s.me.opX b, BitVec.ofNat 64 v, v / 2 ^ 64 % 2 ^ 64⟩ }
    exec (.ctxSave k d a b) s = .next (s2.retire (s2.me.setX d 0) (len2 a b)) := by
  obtain ⟨h1, h2, h3⟩ := kept
  have low : v / 256 ^ 32 = 0 := Nat.div_eq_of_lt fits
  change execCtxSave k d a b s = _
  rw [execCtxSave, State.privileged_allowed allowed]
  have there := filter_here found here
  simp [-Nat.reducePow, there, zeroBits, high, halted, Ctx.latching, aligned, read, low, State.pick, h1, h2, h3]

end Save

/-! ## The statement -/

/-- Settles O44: one row of Table 22.5 applies; a halt that is asked for or ended is carried out over the context's cores and threads. -/
theorem contextInstructions : Obligations.ContextInstructions := by
  unfold Obligations.ContextInstructions
  intro s k d a b c x w ctx plain
  refine ⟨fun allowed found spec => ?halt, fun allowed none reserved free halts => ⟨_, exec_ctxHalt_none allowed reserved none free halts, WritesX.retire0 _ _ _ _⟩,
    fun o allowed start found here high halted h4 h5 h6 range aligned permitted words => ?gathers,
    fun allowed aligned v s1 read cur found high halted h4 h5 h6 here fits => ?saves⟩
  case halt =>
    obtain ⟨high, reserved, h1, h2, h3, h4, h5, h6, here⟩ := spec
    have plain : c.Plain := ⟨here, ⟨h1, h2, h3⟩, h4, h5, h6⟩
    refine ⟨fun halts running => ?_, fun free resumes halted => ?_, fun free wrong => ?_⟩
    · have asked := State.HaltAsked.requestHalt (s := s.setCtx ctx { c with dbg := c.dbg.breakInterval }) (Tab.find?_set_same ctx _ s.ctxs) (w.getLsbD 0)
      exact ⟨_, _, exec_ctxHalt_halts allowed reserved found high plain halts running, WritesX.retire0 _ _ _ _, asked.halting, asked.pending,
        fun n other => (asked.others n other).trans (Tab.find?_set_other _ _ _ _ other)⟩
    · exact ⟨_, _, exec_ctxHalt_resumes allowed reserved found high plain free resumes halted, WritesX.retire0 _ _ _ _,
        fun c' after => State.halt_resumeCtx found after, fun n member th user => State.isHalted_resumeCtx found member user⟩
    · exact ⟨_, exec_ctxHalt_refused allowed reserved found high plain free wrong, WritesX.retire0 _ _ _ _⟩
  case gathers =>
    obtain ⟨r, read, gathers⟩ := State.sysRead_gathers (k := 8) (align := 64) start (by decide) range aligned (by decide) permitted words
    exact ⟨r, read, exec_ctxSave_reads allowed found high here halted ⟨h4, h5, h6⟩ aligned gathers⟩
  case saves =>
    exact ⟨_, exec_ctxSave_saves allowed found high here halted ⟨h4, h5, h6⟩ aligned read fits, WritesX.retire0 _ _ _ _⟩

end Sys2Proof.Machine
end

section
/-! SUPPORT. Reports, their resolution, and translation messages (R315, R316, R342, R343, R345): O48. -/

namespace Sys2Proof.Machine

/-! ## Delivery of a report (R315, R316) -/

section Delivery

variable {s : State} {hub : Hart} {k : Nat} {r : Report} {rest : List (Nat × Report)}

/-- R316: the hub core in the handler of its oldest report, which is away from the queue. -/
def State.handed (s : State) (hub : Hart) (k : Nat) (r : Report) (rest : List (Nat × Report)) : State :=
  let c := s.core hub.core
  let s1 := s.setCore hub.core { c with reports := rest, report := some (k, r), handling := true, reportsHeld := c.reportsHeld.tail }
  let t := (s1.thread hub).enterS r.cause r.value
  s1.setThread hub { t with priv := { t.priv with sreport := virtAddr (reportAt hub.core k) } }

theorem State.takeReport_eq (reports : (s.core hub.core).reports = (k, r) :: rest) : s.takeReport hub = match (s.core hub.core).reportsHeld with
    | [] => s.handed hub k r rest
    | q :: _ => (s.handed hub k r rest).post hub.core q := by
  rw [State.takeReport]
  simp only [reports]
  rfl

theorem State.core_handed : ∃ ts, (s.handed hub k r rest).core hub.core = { s.core hub.core with
    threads := ts, reports := rest, report := some (k, r), handling := true, reportsHeld := (s.core hub.core).reportsHeld.tail } := by
  simp [State.handed, State.setThread]

theorem State.thread_handed : (s.handed hub k r rest).thread hub =
    { (s.thread hub).enterS r.cause r.value with
      priv := { ((s.thread hub).enterS r.cause r.value).priv with sreport := virtAddr (reportAt hub.core k) } } := by
  rw [State.handed]
  dsimp only
  rw [State.thread_setThread_same]
  simp only [State.thread, State.core_setCore_same]

theorem State.thread_post (s : State) (n : Nat) (q : Report) (h : Hart) : (s.post n q).thread h = s.thread h :=
  State.thread_congr (State.core_post Core.threads (fun _ _ _ _ => rfl) s n q _)

/-- Report r, number k, has been delivered to the hub core, which is in its handler. -/
structure State.Delivered (s t : State) (hub : Hart) (k : Nat) (r : Report) : Prop where
  report : (t.core hub.core).report = some (k, r)
  handling : (t.core hub.core).handling = true
  level : (t.thread hub).level = .s
  status : (t.thread hub).status = .run
  pc : (t.thread hub).pc = (s.thread hub).priv.stvec
  cause : (t.thread hub).priv.scause = r.cause
  value : (t.thread hub).priv.sval = r.value
  epc : (t.thread hub).priv.sepc = (s.thread hub).pc
  address : (t.thread hub).priv.sreport = virtAddr (reportAt hub.core k)

theorem State.Delivered.handed : s.Delivered (s.handed hub k r rest) hub k r := by
  obtain ⟨ts, core⟩ := State.core_handed (s := s) (hub := hub) (k := k) (r := r) (rest := rest)
  have thread := State.thread_handed (s := s) (hub := hub) (k := k) (r := r) (rest := rest)
  exact ⟨by rw [core], by rw [core], congrArg Thread.level thread, congrArg Thread.status thread, congrArg Thread.pc thread,
    congrArg (·.priv.scause) thread, congrArg (·.priv.sval) thread, congrArg (·.priv.sepc) thread, congrArg (·.priv.sreport) thread⟩

theorem State.Delivered.post {t : State} (delivered : s.Delivered t hub k r) (q : Report) : s.Delivered (t.post hub.core q) hub k r := by
  have thread := t.thread_post hub.core q hub
  constructor
  case report => exact (State.core_post Core.report (fun _ _ _ _ => rfl) t hub.core q hub.core).trans delivered.report
  case handling => exact (State.core_post Core.handling (fun _ _ _ _ => rfl) t hub.core q hub.core).trans delivered.handling
  all_goals rw [thread]
  · exact delivered.level
  · exact delivered.status
  · exact delivered.pc
  · exact delivered.cause
  · exact delivered.value
  · exact delivered.epc
  · exact delivered.address

theorem State.Delivered.takeReport (reports : (s.core hub.core).reports = (k, r) :: rest) : s.Delivered (s.takeReport hub) hub k r := by
  rw [State.takeReport_eq reports]
  split
  · exact .handed
  · exact State.Delivered.handed.post _

theorem State.takeReport_alone (reports : (s.core hub.core).reports = (k, r) :: rest) (alone : (s.core hub.core).reportsHeld = []) :
    ((s.takeReport hub).core hub.core).reports = rest ∧ (s.takeReport hub).dram = s.dram := by
  rw [State.takeReport_eq reports, alone]
  obtain ⟨ts, core⟩ := State.core_handed (s := s) (hub := hub) (k := k) (r := r) (rest := rest)
  exact ⟨congrArg Core.reports core, rfl⟩

/-- R315: the place of the report that leaves goes to the oldest one that waits. -/
theorem State.takeReport_admits {q : Report} {later : List Report} (reports : (s.core hub.core).reports = (k, r) :: rest)
    (waiting : (s.core hub.core).reportsHeld = q :: later) (room : rest.length < 256) :
    ((s.takeReport hub).core hub.core).reports = rest ++ [((s.core hub.core).reportSeq, q)] ∧
      ((s.takeReport hub).core hub.core).reportsHeld = later ∧
      (s.takeReport hub).dram = s.dram.write 0 (reportAt hub.core (s.core hub.core).reportSeq) 64 q.nat := by
  obtain ⟨ts, core⟩ := State.core_handed (s := s) (hub := hub) (k := k) (r := r) (rest := rest)
  rw [State.takeReport_eq reports, waiting]
  simp only [State.post, core, room, if_true, State.core_setCore_same, waiting, List.tail_cons]
  exact ⟨trivial, trivial, rfl⟩

theorem exec_trapReportDelivery {n : Nat} (reports : (s.core (hubCore n)).reports = (k, r) :: rest) (idle : (s.core (hubCore n)).handling = false)
    (going : (s.thread ⟨hubCore n, 0⟩).status = .run ∨ (s.thread ⟨hubCore n, 0⟩).status = .wfi)
    (open_ : (s.thread ⟨hubCore n, 0⟩).level = .u ∨ (s.thread ⟨hubCore n, 0⟩).level = .s ∧ (s.thread ⟨hubCore n, 0⟩).priv.mstatus.getLsbD 1 = true) :
    exec (.trapReportDelivery n) s = .next (s.takeReport ⟨hubCore n, 0⟩) := by
  have kind : kindOf (hubCore n) = .hub := by simp [kindOf, hubCore]; omega
  have due : s.reportDue ⟨hubCore n, 0⟩ = true := by
    simp only [State.reportDue, kind, idle, reports, bit]
    rcases open_ with level | ⟨level, enabled⟩
    · simp [level]
    · simp [level, enabled]
  change execTrapReportDelivery n s = _
  rcases going with run | wfi
  · simp [execTrapReportDelivery, run, due]
  · simp [execTrapReportDelivery, wfi, due, Status.isWfi]

end Delivery

/-! ## Resolution of a report (R343) -/

section Resolution

variable {s : State} {n k : Nat} {r : Report} (reported : (s.core (hubCore n)).report = some (k, r))
include reported

/-- R343: the hub core holds no report any more. -/
def State.resolved (s : State) (n : Nat) : State := s.setCore (hubCore n) { s.core (hubCore n) with report := none }

theorem State.resolve_stale (stale : s.reportStale r = true) (action : Nat) : s.resolve_ n action = s.resolved n := by
  simp only [State.resolve_, reported, stale, if_true]
  rfl

omit reported in
theorem State.thread_resolved (s : State) (n : Nat) (h : Hart) : (s.resolved n).thread h = s.thread h := by
  refine State.thread_congr (State.core_setCore_kept Core.threads s (hubCore n) _ ?_ h.core)
  rfl

omit reported in
theorem State.report_setThread_resolved {h : Hart} (other : h.core ≠ hubCore n) (t : Thread) :
    (((s.resolved n).setThread h t).core (hubCore n)).report = none := by
  rw [State.core_setThread_other _ _ _ _ other.symm]
  exact congrArg Core.report (State.core_setCore_same s (hubCore n) _)

variable (live : s.reportStale r = false)
include live

theorem State.resolve_retry (waits : (s.thread r.hart).status = .report) (retries : r.action 0 = 0) :
    s.resolve_ n 0 = (s.resolved n).setThread r.hart { (s.thread r.hart).restoreM (lowestLevel r.hart.core) with status := .run } := by
  have same := s.thread_resolved n r.hart
  simp only [State.resolved] at same
  simp only [State.resolve_, reported, live, retries, same, waits, Bool.false_eq_true, if_false, if_true]
  rfl

theorem State.resolve_skip (waits : (s.thread r.hart).status = .report) (skips : r.action 1 = 1) :
    s.resolve_ n 1 = (s.resolved n).setThread r.hart
      { ((s.thread r.hart).restoreM (lowestLevel r.hart.core)).goto ((s.thread r.hart).pc + BitVec.ofNat 64 ((s.resolved n).lengthAt r.hart)) with
        status := .run
        retired := if r.code = 8 then (s.thread r.hart).retired + 1 else (s.thread r.hart).retired } := by
  have same := s.thread_resolved n r.hart
  simp only [State.resolved] at same
  simp only [State.resolve_, reported, live, skips, same, waits, Bool.false_eq_true, if_false, if_true]
  rfl

theorem State.resolve_abort : s.resolve_ n 2 = (s.resolved n).abortGrids [r.grid] (if r.code = 37 then 8 else if r.code = 38 then 3 else 5) := by
  have aborts : r.action 2 = 2 := by
    unfold Report.action
    split
    · rfl
    · exact if_neg (by simp)
  simp only [State.resolve_, reported, live, aborts, Bool.false_eq_true, if_false]
  rfl

end Resolution

/-- R343: the handler's choice is what is done of an exception that is not nested, unless an instruction was to be passed that has not been read. -/
theorem Report.action_eq {r : Report} {action : Nat} (plain : bits r.cause 62 1 = 0) (miss : bits r.cause 0 7 ≠ 37) (trap : bits r.cause 0 7 ≠ 38)
    (fetched : action = 1 → bits r.cause 0 7 ≠ 1 ∧ bits r.cause 0 7 ≠ 12) : r.action action = action := by
  have nest : bit r.cause 62 = false := by
    rw [bit, ← testBit_bits_one, plain]
    rfl
  have own : ¬(bit r.cause 62 = true ∨ r.code = 37 ∨ r.code = 38) := by simp [nest, Report.code, miss, trap]
  rw [Report.action, if_neg own]
  refine if_neg fun ⟨skips, unread⟩ => ?_
  obtain ⟨load, fetch⟩ := fetched skips
  exact unread.elim load fetch

theorem Thread.goto_of_no_repeat {t : Thread} (none : t.repeat? = none) (next : Word) : t.goto next = { t with pc := next } := by
  rw [Thread.goto, none]

/-! ## The threads of a grid that is aborted -/

/-- A thread that stands in the tables of its core hosts a node of grid g. -/
def State.Hosts (s : State) (h : Hart) (g : Nat) : Prop := ∃ c t, Tab.find? s.cores h.core = some c ∧ Tab.find? c.threads h.th = some t ∧ t.grid = g

theorem Tab.find?_of_mem_keys {α : Type} {k : Nat} {t : Tab α} (mem : k ∈ t.map Prod.fst) : ∃ v, Tab.find? t k = some v := by
  induction t with
  | nil => cases mem
  | cons q t ih =>
    obtain ⟨j, v⟩ := q
    simp only [Tab.find?]
    split
    · exact ⟨v, rfl⟩
    · next other => exact ih ((List.mem_cons.mp mem).resolve_left other)

theorem State.Hosts.of_mem {s : State} {h : Hart} (core : h.core ∈ s.cores.map Prod.fst) (thread : h.th ∈ (s.core h.core).threads.map Prod.fst) :
    s.Hosts h (s.thread h).grid := by
  obtain ⟨c, foundCore⟩ := Tab.find?_of_mem_keys core
  have same : s.core h.core = c := by rw [State.core, foundCore, Option.getD_some]
  rw [same] at thread
  obtain ⟨t, found⟩ := Tab.find?_of_mem_keys thread
  refine ⟨c, t, foundCore, found, ?_⟩
  rw [State.thread, same, found, Option.getD_some]

theorem State.Hosts.resolved {s : State} {h : Hart} {g : Nat} (hosts : s.Hosts h g) (n : Nat) : (s.resolved n).Hosts h g := by
  obtain ⟨c, t, foundCore, found, grid⟩ := hosts
  by_cases here : h.core = hubCore n
  · have same : s.core (hubCore n) = c := by rw [State.core, ← here, foundCore, Option.getD_some]
    refine ⟨_, t, by rw [here]; exact Tab.find?_set_same _ _ _, ?_, grid⟩
    rw [same]
    exact found
  · exact ⟨c, t, (Tab.find?_set_other _ _ _ _ here).trans foundCore, found, grid⟩

theorem State.Hosts.settleEnergy {s : State} {h : Hart} {g : Nat} (hosts : s.Hosts h g) (ctx : Nat) : (s.settleEnergy ctx).Hosts h g := by
  obtain ⟨c, t, foundCore, found, grid⟩ := hosts
  have paid : t.paid.grid = g := by
    unfold Thread.paid
    split <;> exact grid
  cases account : Tab.find? s.ctxs ctx with
  | none =>
    simp only [State.settleEnergy, account]
    exact ⟨c, t, foundCore, found, grid⟩
  | some x =>
    have settled : Tab.find? (s.settleEnergy ctx).cores h.core = some (c.paidTo ctx) := by
      rw [State.cores_settleEnergy account, Tab.find?_map_key (fun q : Nat × Core => q.2.paidTo ctx), foundCore, Option.map_some]
    by_cases mine : c.ctx? = some ctx
    · refine ⟨_, t.paid, settled, ?_, paid⟩
      rw [Core.paidTo, if_pos mine, Tab.find?_map_key (fun r : Nat × Thread => r.2.paid), found, Option.map_some]
    · refine ⟨_, t, settled, ?_, grid⟩
      rw [Core.paidTo, if_neg mine, found]

/-- R363: the grid and its children that are neither complete nor aborting. -/
def State.abortedWith (s : State) (gid : Nat) : List Nat :=
  (withChildren s 9 [gid]).filter (fun x => match Tab.find? s.grids x with
    | some r => !r.complete && r.aborting.isNone
    | none => false)

/-- R363: the machine before the grids stop, with the energy of their contexts settled. -/
def State.settledFor (s : State) (all : List Nat) : State := (all.filterMap (fun g => (Tab.find? s.grids g).map Grid.ctx)).foldl State.settleEnergy s

/-- R363: a core without the nodes of the grids, and without the commands of hs. -/
def Core.abortedBy (all : List Nat) (hs : List Hart) (c : Core) : Core :=
  { c.stopCmds hs with
    threads := c.threads.map (fun r => (r.1, if decide (r.2.grid ∈ all) then r.2.stop else r.2))
    sram := c.sram.discard hs }

theorem State.cores_abortGrids (s : State) (gid code : Nat) : ∃ hs, (s.abortGrids [gid] code).cores =
    (s.settledFor (s.abortedWith gid)).cores.map (fun q => (q.1, q.2.abortedBy (s.abortedWith gid) hs)) := ⟨_, rfl⟩

/-- R363: a thread that hosts a node of a grid that is aborted stands idle. -/
theorem State.Hosts.idle_abortGrids {s : State} {h : Hart} {gid : Nat} {g : Grid} (hosts : s.Hosts h gid) (found : Tab.find? s.grids gid = some g)
    (open_ : g.complete = false) (going : g.aborting = none) (code : Nat) : ((s.abortGrids [gid] code).thread h).status = .idle := by
  have named : gid ∈ s.abortedWith gid := List.mem_filter.mpr ⟨mem_withChildren List.mem_cons_self, by simp [found, open_, going]⟩
  obtain ⟨c, t, foundCore, foundThread, grid⟩ : (s.settledFor (s.abortedWith gid)).Hosts h gid :=
    foldl_inv _ (State.Hosts · h gid) (fun _ ctx hosts => hosts.settleEnergy ctx) _ _ hosts
  obtain ⟨hs, cores⟩ := s.cores_abortGrids gid code
  have stopped : decide (t.grid ∈ s.abortedWith gid) = true := decide_eq_true (grid ▸ named)
  rw [State.thread, State.core, cores, Tab.find?_map_key (fun q : Nat × Core => q.2.abortedBy (s.abortedWith gid) hs), foundCore, Option.map_some,
    Option.getD_some]
  simp only [Core.abortedBy, Tab.find?_map_key (fun r : Nat × Thread => if decide (r.2.grid ∈ s.abortedWith gid) then r.2.stop else r.2), foundThread,
    Option.map_some, Option.getD_some, stopped, if_true]
  rfl

/-! ## Translation messages (R342, R345) -/

/-- Table 24.6: the fields of a translation message. -/
theorem bits_missEntry {core : Nat} {m : Miss} (access : m.access < 3) : let e := missEntry core m
    bits e 62 1 = m.dirty.toNat ∧ bits e 30 4 = core % 16 ∧ bits e 0 2 = m.access ∧ bits e 2 16 = m.gen % 65536 ∧ bits e 18 12 = m.asid % 4096 ∧
      bits e 64 56 = m.va % 2 ^ 56 := by
  have dirty : m.dirty.toNat ≤ 1 := Bool.toNat_le _
  simp only [missEntry, bits_eq_div_mod, BitVec.toNat_ofNat]
  generalize m.dirty.toNat = x at *
  generalize m.va = va
  generalize m.gen = gen
  refine ⟨?_, ?_, ?_, ?_, ?_, ?_⟩ <;> omega

section Messages

variable {s : State} {core : Nat} {m : Miss} {later : List Miss} (notes : (s.core core).notes = m :: later)
  (room : (s.core (walkerOf (clusterOf core))).inbox.length < 48)
include notes room

/-- R342: the core whose oldest note leaves, and the translation core to whose inbox it comes. -/
def State.noted (s : State) (core : Nat) (m : Miss) (later : List Miss) : State :=
  let s1 := s.setCore core { s.core core with notes := later }
  let w := walkerOf (clusterOf core)
  s1.setCore w (({ s1.core w with inbox := (s1.core w).inbox ++ [(⟨missEntry core m, false⟩ : Entry)] }).wake Status.isMrecv)

theorem State.sendMiss_eq : s.sendMiss core m.dirty = (s.noted core m later).syncInbox (walkerOf (clusterOf core)) := by
  simp only [State.sendMiss, notes, ne_eq, not_true_eq_false, false_or, if_neg (Nat.not_le_of_lt room)]
  rfl

end Messages

theorem State.sent_noted {s : State} {core : Nat} {m : Miss} {later : List Miss} (compute : core < 4096) :
    let w := walkerOf (clusterOf core)
    let t := (s.noted core m later).syncInbox w
    (t.core w).inbox = (s.core w).inbox ++ [⟨missEntry core m, false⟩] ∧ (t.thread ⟨w, 0⟩).priv.sip.getLsbD 7 = true ∧ (t.core core).notes = later := by
  intro w t
  have cluster : w = 4096 + core / 16 := by simp [w, walkerOf, clusterOf, compute]
  have kind : kindOf w = .translation := by
    rw [cluster, kindOf, if_neg (by omega), if_pos (by omega)]
  have apart : core ≠ w := by omega
  have before : (s.setCore core { s.core core with notes := later }).core w = s.core w := State.core_setCore_other _ _ _ _ apart.symm
  have entered : ((s.noted core m later).core w).inbox = (s.core w).inbox ++ [⟨missEntry core m, false⟩] := by
    rw [State.noted, State.core_setCore_same]
    dsimp only
    rw [before]
    rfl
  have driven : t = (s.noted core m later).driveS ⟨w, 0⟩ 71 true := by
    have some : ((s.noted core m later).core w).inbox.isEmpty = false := by rw [entered]; simp
    rw [show t = (s.noted core m later).syncInbox w from rfl, State.syncInbox]
    simp only [kind, some, Bool.not_false]
  rw [driven]
  refine ⟨?_, ?_, ?_⟩
  · refine (State.core_setCore_kept Core.inbox _ w _ ?_ w).trans entered
    rfl
  · rw [State.thread_driveS, getLsbD_setBits _ _ _ _ _ (by decide)]
    rfl
  · rw [State.driveS, State.core_setThread_other _ _ _ _ apart, State.noted, State.core_setCore_other _ _ _ _ apart, State.core_setCore_same]

/-! ## The statement -/

/-- Settles O48: a report is taken at S and its place given on; a resolution acts on the reporting thread or its grid; a note becomes an entry. -/
theorem reportSteps : Obligations.ReportSteps := by
  unfold Obligations.ReportSteps
  intro s n k r rest core m hub c u t low walker
  refine ⟨fun reports idle going open_ => ?delivery, fun reported stale i named => ?stale, fun reported live nest miss trap waits other => ⟨?retry, fun load fetch none => ?skip⟩,
    fun reported g found complete aborting => ?abort, fun dirty later notes kind compute access room => ?message⟩
  case delivery =>
    obtain ⟨report, handling, level, status, pc, cause, value, epc, address⟩ := State.Delivered.takeReport (s := s) (hub := hub) reports
    exact ⟨_, exec_trapReportDelivery reports idle going open_, report, handling, level, status, pc, cause, value, epc, address,
      State.takeReport_alone reports, fun q later waiting room => State.takeReport_admits reports waiting room⟩
  case stale =>
    simp only [List.mem_cons, List.not_mem_nil, or_false] at named
    rcases named with rfl | rfl | rfl <;> exact congrArg Host.Outcome.next (State.resolve_stale reported stale _)
  case retry =>
    have retries : r.action 0 = 0 := Report.action_eq nest miss trap fun skips => absurd skips (by decide)
    exact ⟨_, congrArg Host.Outcome.next (State.resolve_retry reported live waits retries), State.report_setThread_resolved other _, State.thread_setThread_same ..⟩
  case skip =>
    have skips : r.action 1 = 1 := Report.action_eq nest miss trap fun _ => ⟨load, fetch⟩
    refine ⟨_, congrArg Host.Outcome.next (State.resolve_skip reported live waits skips), State.report_setThread_resolved other _, ?_⟩
    rw [State.thread_setThread_same, Thread.goto_of_no_repeat (t := t.restoreM (lowestLevel r.hart.core)) none]
    rfl
  case abort =>
    have live : s.reportStale r = false := by simp [State.reportStale, found, complete, aborting]
    obtain ⟨g', after, code, -⟩ := State.abortGrids_self found complete aborting (t := s.resolved n) rfl (if r.code = 37 then 8 else if r.code = 38 then 3 else 5)
    refine ⟨_, g', congrArg Host.Outcome.next (State.resolve_abort reported live), after, code, fun h grid onCore onThread => ?_⟩
    have hosts := State.Hosts.of_mem onCore onThread
    rw [grid] at hosts
    exact (hosts.resolved n).idle_abortGrids found complete aborting _
  case message =>
    subst dirty
    have run : exec (if m.dirty then .dirtyNotice core else .tlbMissMessage core) s = .next (s.sendMiss core m.dirty) := by
      cases m.dirty <;> rfl
    obtain ⟨inbox, pending, left⟩ := State.sent_noted (m := m) (later := later) (s := s) compute
    obtain ⟨h1, h2, h3, h4, h5, h6⟩ := bits_missEntry (core := core) access
    exact ⟨_, missEntry core m, run.trans (congrArg _ (State.sendMiss_eq notes room)), inbox, h1, h2, h3, h4, h5, h6, pending, left⟩

end Sys2Proof.Machine
end

section
/-! SUPPORT. The end of a save (R335): O51. -/

namespace Sys2Proof.Machine

/-! ## The end of a save (R335) -/

/-- Context ctx is there with the fields that c has, but its save has been answered. -/
def State.Answered (s : State) (ctx : Nat) (c : Ctx) : Prop :=
  ∃ c', Tab.find? s.ctxs ctx = some c' ∧ c'.saving = none ∧ c'.saved = c.saved ∧ c'.halt = c.halt

section Answered

variable {s t : State} {ctx : Nat} {c : Ctx}

theorem State.Answered.of_ctxs (answered : s.Answered ctx c) (same : t.ctxs = s.ctxs) : t.Answered ctx c := by
  rw [State.Answered, same]
  exact answered

theorem State.Answered.settleEnergy (answered : s.Answered ctx c) (x : Nat) : (s.settleEnergy x).Answered ctx c := by
  obtain ⟨c', found, rest⟩ := answered
  unfold State.settleEnergy
  split
  · exact ⟨c', found, rest⟩
  · next d account =>
    by_cases here : ctx = x
    · subst here
      cases found.symm.trans account
      exact ⟨_, Tab.find?_set_same _ _ _, rest⟩
    · exact ⟨c', (Tab.find?_set_other _ _ _ _ here).trans found, rest⟩

theorem State.Answered.abortGrids (answered : s.Answered ctx c) (gs : List Nat) (code : Nat) : (s.abortGrids gs code).Answered ctx c :=
  State.Answered.of_ctxs (foldl_inv _ (State.Answered · ctx c) (fun _ x kept => State.Answered.settleEnergy kept x) _ _ answered) rfl

theorem State.Answered.noteError (answered : s.Answered ctx c) (kind : Nat) (p : Option Place) (o : BitVec 12) (a : Nat) :
    (s.noteError kind p o a).Answered ctx c := answered.of_ctxs (State.ctxs_of_rolls (s.rolls_noteError kind p o a))

theorem State.ctxs_setSram (s : State) (p : Place) (m : Sram) : (s.setSram p m).ctxs = s.ctxs := by cases p <;> rfl

theorem State.Answered.sramError (answered : s.Answered ctx c) (p : Place) (line : Nat) : (s.sramError p line).Answered ctx c := by
  refine State.Answered.of_ctxs ?_ (State.ctxs_setSram _ p _)
  split
  · exact (answered.noteError _ _ _ _).abortGrids _ _
  · exact (answered.noteError _ _ _ _).abortGrids _ _

theorem State.Answered.mend (answered : s.Answered ctx c) (p : Place) (o : BitVec 12) (lines : List Nat) : (s.mend p o lines).2.Answered ctx c := by
  induction lines generalizing s with
  | nil => exact answered
  | cons line lines ih =>
    have after := answered.sramError p line
    rw [State.mend]
    split
    · exact after
    · exact ih after

theorem State.Answered.correct (answered : s.Answered ctx c) (p : Place) (ws : List Nat) : (s.correct p ws).Answered ctx c := by
  refine foldl_inv _ (State.Answered · ctx c) (fun r w kept => ?_) _ _ answered
  split
  · exact kept
  · next k _ =>
    have cleared : (r.setSram p { r.sram p with soft := Tab.del w (r.sram p).soft }).Answered ctx c := kept.of_ctxs (State.ctxs_setSram r p _)
    have noted := cleared.noteError k (some p) ((r.sram p).ownerOf (8 * w)) (8 * w)
    cases p with
    | core n => exact noted.of_ctxs rfl
    | cluster n => exact noted

theorem State.Answered.rawMeet (answered : s.Answered ctx c) (o : BitVec 12) (l : List (RawAt × Bool)) (i : Nat) :
    (s.rawMeet o l i).2.Answered ctx c := by
  induction l generalizing s i with
  | nil => exact answered
  | cons q l ih =>
    obtain ⟨p, full⟩ := q
    cases p with
    | sram q off =>
      have mended := answered.mend q o (s.badLines q ((List.range 8).map (fun j => off / 8 + j)))
      rw [State.rawMeet]
      split
      · next e => rw [e] at mended; exact mended
      · next e => rw [e] at mended; exact ih (mended.correct q _) _
    | dram k pa =>
      have met : (s.meetLines [pa / 64]).Answered ctx c := answered.of_ctxs (State.ctxs_of_rolls (s.rolls_meetLines _))
      rw [State.rawMeet]
      dsimp only
      split
      · refine ih ?_ _
        exact met.of_ctxs rfl
      · split
        · exact met
        · exact ih met _
    | regs pa => exact ih answered _
    | away => exact ih answered _

theorem State.Answered.of_rawMeet {o : BitVec 12} {l : List (RawAt × Bool)} {i : Nat} {x : Option Nat} (answered : s.Answered ctx c)
    (met : s.rawMeet o l i = (x, t)) : t.Answered ctx c := by
  have after := answered.rawMeet o l i
  rwa [met] at after

/-- An address map that succeeds changes the use order of translations at most. -/
theorem State.ctxs_rawMap {h : Hart} {lv : Level} {need : Need} {a : Word} {n : Nat} {acc l : List RawAt} (mapped : s.rawMap h lv need a n acc = .ok l t) :
    t.ctxs = s.ctxs := by
  induction n generalizing s a acc with
  | zero => cases mapped; rfl
  | succ n ih =>
    rw [State.rawMap] at mapped
    split at mapped
    · cases mapped
    · exact ih mapped
    · split at mapped
      · exact ih mapped
      · split at mapped
        · exact ih mapped
        · cases mapped
    · exact ih mapped
    · split at mapped
      · exact (ih mapped :)
      · cases mapped
      · cases mapped
      · cases mapped

end Answered

theorem exec_saveEngine {s : State} {ctx : Nat} {c : Ctx} {r : SaveReq} (settled : s.settle ctx = s) (found : Tab.find? s.ctxs ctx = some c)
    (halted : c.halt = 2) (quiet : c.latching = false) (asked : c.saving = some r) :
    ∃ (s' : State) (status size : Nat), exec (.saveEngine ctx) s = .next (s'.saveStatus r status size) ∧
      (status = 0 ∨ (status = 1 ∨ status = 2) ∧ size = 0) ∧ s'.Answered ctx { c with saved := c.saved || decide (status = 0) } := by
  let s1 := s.dropCaches ctx
  let s2 := { s1 with free := s1.free + s1.grids.length }.setCtx ctx { c with saving := none }
  have incomplete (status : Nat) (bad : status = 1 ∨ status = 2) (t : State) (answered : t.Answered ctx c)
      (run : exec (.saveEngine ctx) s = .next (t.saveStatus r status 0)) : ∃ (s' : State) (status size : Nat),
        exec (.saveEngine ctx) s = .next (s'.saveStatus r status size) ∧ (status = 0 ∨ (status = 1 ∨ status = 2) ∧ size = 0) ∧
        s'.Answered ctx { c with saved := c.saved || decide (status = 0) } := by
    obtain ⟨c', found, saving, saved, halt⟩ := answered
    refine ⟨t, status, 0, run, .inr ⟨bad, rfl⟩, c', found, saving, saved.trans ?_, halt⟩
    rcases bad with rfl | rfl <;> simp
  have begun : s2.Answered ctx c := ⟨_, Tab.find?_set_same _ _ _, rfl, rfl, rfl⟩
  have run : exec (.saveEngine ctx) s = execSaveEngine ctx s := rfl
  rw [execSaveEngine, settled] at run
  simp only [found, if_neg (not_not.mpr halted), quiet, asked, Bool.false_eq_true, if_false] at run
  split at run
  · exact incomplete 1 (.inl rfl) s2 begun run
  · split at run
    · exact incomplete 2 (.inr rfl) s2 begun run
    · split at run
      · next mapped =>
        have kept := begun.of_ctxs (State.ctxs_rawMap mapped)
        split at run
        · refine ⟨_, 0, _, run, .inl rfl, _, Tab.find?_set_same _ _ _, rfl, ?_, halted.trans halted.symm⟩
          simp
        · next met =>
          exact incomplete 2 (.inr rfl) _ (kept.of_rawMeet met) run
      · exact incomplete 2 (.inr rfl) s2 begun run

end Sys2Proof.Machine
end

section
/-! SUPPORT. Restore requests (R378): O51. -/

namespace Sys2Proof.Machine

/-! ## Restore requests (R378) -/

/-- R378: a mailbox request reaches the two management cores, and changes no memory. -/
theorem State.pending_mailbox (s : State) : (s.mailbox.thread ⟨hubCore 4, 0⟩).priv.sip.getLsbD 8 = true ∧
    (s.mailbox.thread ⟨hubCore 5, 0⟩).priv.sip.getLsbD 8 = true ∧ SameMemory s s.mailbox := by
  have driven (r : State) (h : Hart) : ((r.driveS h 72 true).thread h).priv.sip.getLsbD 8 = true := by
    rw [State.thread_driveS, getLsbD_setBits _ _ _ _ _ (by decide)]
    rfl
  refine ⟨?_, driven _ _, (SameMemory.setThread s _ _).trans (SameMemory.setThread _ _ _)⟩
  rw [State.mailbox, State.driveS, State.thread_setThread_other _ _ _ _ (by decide)]
  exact driven s _

section Restore

variable {s : State} {image : Word} {part : Nat}

theorem exec_restoreRequest_refused {fn : Nat} (other : fn ≠ 0) : exec (.restoreRequest fn image part) s = .next s.mailbox := by
  change execRestoreRequest fn image part s = _
  simp [execRestoreRequest, other]

theorem exec_restoreRequest (up : s.dev.bootOk = true) (low : part < 64) :
    exec (.restoreRequest 0 image part) s = .next (s.mailbox.restoreImage image part) := by
  change execRestoreRequest 0 image part s = _
  simp [execRestoreRequest, up, low]

variable {bs : List Byte} {l : List Section} {x : Section} {s1 : State}

theorem State.restoreImage_eq (read : s.rawImage image = (some bs, s1)) (parsed : parseImage bs = some l) (one : ofKind l 1 = [x])
    (ok : s1.restoreOk l part x.key (BitVec.ofNat 12 (fieldAt x.data 0 8)) = true) :
    (∀ t, s1.rebuild l part = .done t → s.restoreImage image part = t) ∧ (s1.rebuild l part = .refused → s.restoreImage image part = s1) ∧
    (s1.rebuild l part = .waits →
      s.restoreImage image part = { s1 with dev := { s1.dev with restores := s1.dev.restores ++ [(image, part)] } }) := by
  refine ⟨fun t rebuilt => ?_, fun rebuilt => ?_, fun rebuilt => ?_⟩ <;>
    simp only [State.restoreImage, read, Option.bind_some, parsed, one, ok, if_true, rebuilt]

end Restore

end Sys2Proof.Machine
end

section
/-! SUPPORT. The scrubber (R387, R388): O51. -/

namespace Sys2Proof.Machine

/-! ## The scrubber (R387, R388) -/

section Scrub

variable {s : State} {core off : Nat}

/-- R387: the word that the scrubber reads. -/
def scrubbedWord (off : Nat) : Nat := off / 8 % (0x1C0000 / 8)

theorem exec_scrubRead (low : core < 8192) : exec (.scrubRead 0 core off) s =
    .next (if s.scrubSeen core (scrubbedWord off) then s
      else (s.scrubWord (.core core) (scrubbedWord off)).scrubbed core (scrubbedWord off) (0x1C0000 / 8)) := by
  have place : scrubPlace 0 core = core := by simp [scrubPlace, Nat.mod_eq_of_lt low]
  change execScrubRead 0 core off s = _
  rw [execScrubRead, place]
  simp [placeOf, low, show ¬ 16384 ≤ core by omega, Place.words, scrubbedWord]
  rfl

/-- R386: the core once the code has corrected word w. -/
def Core.correctedAt (c : Core) (core w : Nat) : Core :=
  { c with
    sram := { c.sram with soft := Tab.del w c.sram.soft }
    corrected := Tab.set (bankOf (.core core) (8 * w)) (Tab.get 0 c.corrected (bankOf (.core core) (8 * w)) + 1) c.corrected }

/-- R386: an error that is noted changes no core but for threads. -/
theorem State.core_noteError {α : Type} (f : Core → α) (kept : ∀ c ts, f { c with threads := ts } = f c) (s : State) (kind : Nat) (p : Option Place)
    (o : BitVec 12) (a j : Nat) : f ((s.noteError kind p o a).core j) = f (s.core j) := by
  have driven (r : State) (h : Hart) (t : Thread) : f ((r.setThread h t).core j) = f (r.core j) := State.core_setCore_kept f r _ _ (kept _ _) j
  unfold State.noteError
  simp only [List.foldl_cons, List.foldl_nil, driven]
  refine congrArg f (State.core_congr ?_ j)
  split <;> rfl

theorem State.clusters_noteError (s : State) (kind : Nat) (p : Option Place) (o : BitVec 12) (a : Nat) :
    (s.noteError kind p o a).clusters = s.clusters := by
  unfold State.noteError
  simp only [List.foldl_cons, List.foldl_nil]
  split <;> rfl

/-- Table 26.2: the record of an error that has its place in the ring. -/
theorem State.errors_noteError {s : State} (room : s.dev.errors.length < Config.errorRing) {kind : Nat} (code : kind < 256) (n : Nat) (o : BitVec 12)
    (a : Nat) : ∃ e : ErrorRec, (s.noteError kind (some (.core n)) o a).dev.errors = s.dev.errors ++ [e] ∧ bits (e.words.getD 1 0) 0 8 = kind ∧
      e.words.getD 2 0 = BitVec.ofNat 64 a := by
  unfold State.noteError
  simp only [List.foldl_cons, List.foldl_nil, room, if_true]
  refine ⟨_, rfl, ?_, rfl⟩
  simp only [List.getD_cons_succ, List.getD_cons_zero, bits_eq_div_mod, BitVec.toNat_ofNat]
  omega

/-- R388: core n with the counts cs of corrected errors. -/
def State.recount (s : State) (n : Nat) (cs : Tab Nat) : State := s.setCore n { s.core n with corrected := cs }

theorem State.corrected_recount (s : State) (n : Nat) (cs : Tab Nat) : ((s.recount n cs).core n).corrected = cs := by
  rw [State.recount, State.core_setCore_same]

theorem State.sram_recount (s : State) (n : Nat) (cs : Tab Nat) (j : Nat) : ((s.recount n cs).core j).sram = (s.core j).sram :=
  State.core_setCore_kept Core.sram s n _ (by rfl) j

theorem SameSram.recount (s : State) (n : Nat) (cs : Tab Nat) : SameSram s (s.recount n cs) := by
  have kept (p : Place) : (s.recount n cs).sram p = s.sram p := by
    cases p with
    | core j => exact s.sram_recount n cs j
    | cluster j => rfl
  exact ⟨fun p a => by rw [State.byteAt, kept, State.byteAt], fun p j => by rw [kept], fun p l => by rw [kept]⟩

section Corrected

variable (n w : Nat) {kind : Nat} (soft : Tab.find? (s.core n).sram.soft w = some kind)

/-- R386: the error of one word of a core's SRAM noted, once the code has corrected it. -/
def State.notedSoft (s : State) (n w kind : Nat) : State :=
  (s.setSram (.core n) { (s.core n).sram with soft := Tab.del w (s.core n).sram.soft }).noteError kind (some (.core n)) ((s.core n).sram.ownerOf (8 * w)) (8 * w)

theorem State.sram_notedSoft (kind j : Nat) : ((s.notedSoft n w kind).core j).sram = if j = n then ((s.core n).correctedAt n w).sram else (s.core j).sram := by
  rw [State.notedSoft, State.core_noteError Core.sram (fun _ _ => rfl), State.setSram]
  split
  · next here => subst here; rw [State.core_setCore_same]; rfl
  · next other => rw [State.core_setCore_other _ _ _ _ other]

theorem State.corrected_notedSoft (kind : Nat) : ((s.notedSoft n w kind).core n).corrected = (s.core n).corrected := by
  rw [State.notedSoft, State.core_noteError Core.corrected (fun _ _ => rfl), State.setSram, State.core_setCore_same]

theorem State.clusters_notedSoft (kind : Nat) : (s.notedSoft n w kind).clusters = s.clusters := by
  rw [State.notedSoft, State.clusters_noteError]
  rfl

theorem State.errors_notedSoft (kind : Nat) (code : kind < 256) (room : s.dev.errors.length < Config.errorRing) :
    ∃ e : ErrorRec, (s.notedSoft n w kind).dev.errors = s.dev.errors ++ [e] ∧ bits (e.words.getD 1 0) 0 8 = kind ∧
      e.words.getD 2 0 = BitVec.ofNat 64 (8 * w) := by
  refine State.errors_noteError (s := s.setSram (.core n) _) ?_ code n _ _
  exact room

include soft

theorem State.correct_soft : s.correct (.core n) [w] = (s.notedSoft n w kind).recount n ((s.core n).correctedAt n w).corrected := by
  have counts := s.corrected_notedSoft n w kind
  simp only [State.correct, List.foldl_cons, List.foldl_nil, State.sram, soft]
  change (s.notedSoft n w kind).recount n (Tab.set (bankOf (.core n) (8 * w)) (Tab.get 0 ((s.notedSoft n w kind).core n).corrected (bankOf (.core n) (8 * w)) + 1)
      ((s.notedSoft n w kind).core n).corrected) = _
  rw [counts]
  rfl

end Corrected

/-- What the correction of word w of a core's SRAM leaves, but for the count of its bank. -/
structure State.Corrects (s t : State) (n w kind : Nat) : Prop where
  memory : SameSram s t
  soft : Tab.find? (t.core n).sram.soft w = none
  errors : s.dev.errors.length < Config.errorRing → ∃ e : ErrorRec, t.dev.errors = s.dev.errors ++ [e] ∧ bits (e.words.getD 1 0) 0 8 = kind ∧
    e.words.getD 2 0 = BitVec.ofNat 64 (8 * w)

variable {n w kind : Nat}

/-- The memory of a state whose SRAMs are those of another but for words that the code has corrected. -/
theorem SameSram.of_correctedAt {t : State} (sram : ∀ j, (t.core j).sram = if j = n then ((s.core n).correctedAt n w).sram else (s.core j).sram)
    (clusters : t.clusters = s.clusters) : SameSram s t := by
  have kept (p : Place) : (t.sram p).cells = (s.sram p).cells ∧ (t.sram p).tags = (s.sram p).tags ∧ (t.sram p).owners = (s.sram p).owners := by
    cases p with
    | core j =>
      simp only [State.sram, sram]
      split
      · next here => subst here; exact ⟨rfl, rfl, rfl⟩
      · exact ⟨rfl, rfl, rfl⟩
    | cluster j => simp only [State.sram, State.cluster, clusters, and_self]
  refine ⟨fun p a => ?_, fun p j => ?_, fun p l => ?_⟩
  · rw [State.byteAt, (kept p).1, State.byteAt]
  · rw [(kept p).2.1]
  · rw [(kept p).2.2]

theorem State.Corrects.recount {t : State} (corrects : s.Corrects t n w kind) (k : Nat) (cs : Tab Nat) : s.Corrects (t.recount k cs) n w kind where
  memory := corrects.memory.trans (SameSram.recount t k cs)
  soft := by rw [State.sram_recount]; exact corrects.soft
  errors := corrects.errors

theorem State.Corrects.notedSoft (code : kind ≤ 1) : s.Corrects (s.notedSoft n w kind) n w kind where
  memory := SameSram.of_correctedAt (s.sram_notedSoft n w kind) (s.clusters_notedSoft n w kind)
  soft := by rw [State.sram_notedSoft, if_pos rfl]; exact Tab.find?_del_same w _
  errors := s.errors_notedSoft n w kind (by omega)

/-- R388: the pass of the scrubber over a core's SRAM, which ends where it has read every word, clears the counts that are below the limit. -/
theorem State.scrubbed_core (low : n < 8192) (t : State) : ∃ d : Device, d.errors = t.dev.errors ∧ t.scrubbed n w (0x1C0000 / 8) =
    if (insertAsc w (Tab.get [] t.dev.scrubbed n)).length < 0x1C0000 / 8 then { t with dev := d }
    else ({ t with dev := d } : State).recount n ((t.core n).corrected.filter (fun q => decide (256 ≤ q.2))) := by
  by_cases more : (insertAsc w (Tab.get [] t.dev.scrubbed n)).length < 0x1C0000 / 8
  · refine ⟨{ t.dev with scrubbed := Tab.set n (insertAsc w (Tab.get [] t.dev.scrubbed n)) t.dev.scrubbed }, rfl, ?_⟩
    rw [State.scrubbed, if_pos more, if_pos more]
  · refine ⟨{ t.dev with scrubbed := Tab.del n t.dev.scrubbed }, rfl, ?_⟩
    rw [State.scrubbed, if_neg more, if_neg more, if_neg (by omega), State.passEnds, placeOf, if_pos low]
    rfl

theorem State.Corrects.withDev {t : State} (corrects : s.Corrects t n w kind) {d : Device} (errors : d.errors = t.dev.errors) :
    s.Corrects { t with dev := d } n w kind where
  memory := corrects.memory.trans ⟨fun _ _ => rfl, fun _ _ => rfl, fun _ _ => rfl⟩
  soft := corrects.soft
  errors := fun room => by
    obtain ⟨e, listed, rest⟩ := corrects.errors room
    exact ⟨e, errors.trans listed, rest⟩

theorem State.scrubbed_notedSoft : (s.notedSoft n w kind).dev.scrubbed = s.dev.scrubbed := by
  unfold State.notedSoft State.noteError
  simp only [List.foldl_cons, List.foldl_nil]
  split <;> rfl

/-- R387, R388: the scrubber reads a word that the code corrects. -/
theorem exec_scrubRead_corrects (low : n < 8192) (unread : scrubbedWord off ∉ Tab.get [] s.dev.scrubbed n)
    (sound : s.badLines (.core n) [scrubbedWord off] = []) (soft : Tab.find? (s.core n).sram.soft (scrubbedWord off) = some kind) (code : kind ≤ 1) :
    ∃ t, exec (.scrubRead 0 n off) s = .next t ∧ s.Corrects t n (scrubbedWord off) kind ∧ (t.core n).corrected =
      if (insertAsc (scrubbedWord off) (Tab.get [] s.dev.scrubbed n)).length < 0x1C0000 / 8 then ((s.core n).correctedAt n (scrubbedWord off)).corrected
      else ((s.core n).correctedAt n (scrubbedWord off)).corrected.filter (fun q => decide (256 ≤ q.2)) := by
  rw [exec_scrubRead low, if_neg (by simpa [State.scrubSeen] using unread), State.scrubWord, sound]
  generalize scrubbedWord off = w at soft unread ⊢
  refine ⟨_, rfl, ?_⟩
  have corrects := (State.Corrects.notedSoft (s := s) (n := n) (w := w) code).recount n ((s.core n).correctedAt n w).corrected
  rw [← State.correct_soft n w soft] at corrects
  obtain ⟨d, errors, passed⟩ := State.scrubbed_core (w := w) low (s.correct (.core n) [w])
  have seen : (s.correct (.core n) [w]).dev.scrubbed = s.dev.scrubbed := by rw [State.correct_soft n w soft]; exact State.scrubbed_notedSoft
  have counts : ((s.correct (.core n) [w]).core n).corrected = ((s.core n).correctedAt n w).corrected := by
    rw [State.correct_soft n w soft, State.corrected_recount]
  rw [passed, seen, counts]
  split
  · exact ⟨corrects.withDev errors, counts⟩
  · exact ⟨(corrects.withDev errors).recount n _, State.corrected_recount _ _ _⟩

end Scrub

end Sys2Proof.Machine
end

section
/-! SUPPORT. Failed banks (R389): O51. -/

namespace Sys2Proof.Machine

/-! ## Failed banks (R389) -/

/-- The failed banks of cores that are changed each by a function that keeps them. -/
theorem State.failed_of_map {s t : State} (f : Core → Core) (kept : ∀ c, (f c).failed = c.failed)
    (cores : t.cores = s.cores.map (fun q => (q.1, f q.2))) (n : Nat) : (t.core n).failed = (s.core n).failed := by
  rw [State.core, cores, Tab.find?_map_key (fun q : Nat × Core => f q.2), State.core]
  cases Tab.find? s.cores n with
  | none => rfl
  | some c => exact kept c

theorem State.failed_settleEnergy (s : State) (ctx n : Nat) : ((s.settleEnergy ctx).core n).failed = (s.core n).failed := by
  cases found : Tab.find? s.ctxs ctx with
  | none => rw [State.settleEnergy, found]
  | some c =>
    refine State.failed_of_map (Core.paidTo ctx) (fun k => ?_) (State.cores_settleEnergy found) n
    unfold Core.paidTo
    split <;> rfl

/-- R363: grids that are stopped leave the failed banks. -/
theorem State.failed_abortGrids (s : State) (gs : List Nat) (code n : Nat) : ((s.abortGrids gs code).core n).failed = (s.core n).failed := by
  unfold State.abortGrids
  extract_lets live all settled hs
  have paid : (settled.core n).failed = (s.core n).failed :=
    foldl_inv _ (fun r : State => (r.core n).failed = (s.core n).failed) (fun r ctx same => (r.failed_settleEnergy ctx n).trans same) _ _ rfl
  clear_value hs
  exact (State.failed_of_map (s := settled) (Core.abortedBy all hs) (fun _ => rfl) rfl n).trans paid

theorem State.failed_abortCluster (s : State) (k n : Nat) : ((s.abortCluster k).core n).failed = (s.core n).failed := s.failed_abortGrids _ 8 n

section BankFailed

variable {s : State} {core bank : Nat}

/-- R389: the machine once the failed bank of a core has been listed. -/
def State.bankListed (s : State) (core bank : Nat) : State :=
  { (s.setCore core { s.core core with failed := (s.core core).failed ++ [bank] }).noteError 6 (some (.core core)) 0 (0x1C000 * bank) with
    dev := ((s.setCore core { s.core core with failed := (s.core core).failed ++ [bank] }).noteError 6 (some (.core core)) 0 (0x1C000 * bank)).dev.repair 1 bank core }

theorem exec_bankFailed (low : core < 4096) (named : bank < 16) (sound : bank ∉ (s.core core).failed) :
    exec (.bankFailed core bank true) s = .next (if (s.core core).failed = [] then s.bankListed core bank
      else ({ (s.bankListed core bank).abortCluster (core / 16) with
        dev := ((s.bankListed core bank).abortCluster (core / 16)).dev.repair 0 0 core } : State).withhold (core / 16)) := by
  change execBankFailed core bank true s = _
  rw [execBankFailed, if_neg (by simp [sound]; omega)]
  split <;> rfl

theorem State.failed_bankListed : ((s.bankListed core bank).core core).failed = (s.core core).failed ++ [bank] := by
  refine (congrArg Core.failed (State.core_congr (s := (s.setCore core { s.core core with failed := (s.core core).failed ++ [bank] }).noteError 6
    (some (.core core)) 0 (0x1C000 * bank)) ?_ core)).trans ?_
  · rfl
  · rw [State.core_noteError Core.failed (fun _ _ => rfl), State.core_setCore_same]

/-- R389: the bank that fails is the core's second one at least. -/
theorem State.failed_bankListed_withhold (k : Nat) (d : Device) :
    ((({ (s.bankListed core bank).abortCluster k with dev := d } : State).withhold k).core core).failed = (s.core core).failed ++ [bank] := by
  have same : (({ (s.bankListed core bank).abortCluster k with dev := d } : State).withhold k).core core = ((s.bankListed core bank).abortCluster k).core core :=
    State.core_congr rfl core
  rw [same, State.failed_abortCluster, State.failed_bankListed]

theorem State.mem_withheld_withhold (s : State) (k : Nat) : k ∈ (s.withhold k).dev.withheld := by
  unfold State.withhold
  dsimp only
  split
  · assumption
  · exact List.mem_append_right _ List.mem_cons_self

theorem exec_bankFailed_lists (low : core < 4096) (named : bank < 16) (sound : bank ∉ (s.core core).failed) :
    ∃ t, exec (.bankFailed core bank true) s = .next t ∧ (t.core core).failed = (s.core core).failed ++ [bank] ∧
      ((s.core core).failed ≠ [] → core / 16 ∈ t.dev.withheld) := by
  rw [exec_bankFailed low named sound]
  split
  · next first => exact ⟨_, rfl, s.failed_bankListed, fun other => absurd first other⟩
  · exact ⟨_, rfl, State.failed_bankListed_withhold _ _, fun _ => State.mem_withheld_withhold _ _⟩

theorem exec_bankFailed_uncounted (few : Tab.get 0 (s.core core).corrected bank < 256) : exec (.bankFailed core bank false) s = .next s := by
  change execBankFailed core bank false s = _
  rw [execBankFailed, if_pos (by simp [few])]

end BankFailed

end Sys2Proof.Machine
end

section
/-! SUPPORT. The run-length logs (R396): O51. -/

namespace Sys2Proof.Machine

/-! ## The run-length logs (R396) -/

section RunLength

variable {s : State} {core thread run : Nat} {c : Ctx}

theorem State.ringWrite_eq (s : State) (o : BitVec 12) (ctx va n v : Nat) :
    s.ringWrite o ctx va n v = { s with dram := (s.ringWrite o ctx va n v).dram } := by
  unfold State.ringWrite
  split <;> rfl

/-- R396: the entry is the youngest of a ring that holds one at least. -/
theorem getLast?_ring {α : Type} (l : List α) (e : α) {n : Nat} (holds : 0 < n) :
    ((l ++ [e]).drop ((l ++ [e]).length - n)).getLast? = some e := by
  rw [List.getLast?_drop, if_neg (by simp; omega), List.getLast?_concat]

/-- R396: a core of context c whose threads have yet to log the runs of tr, once it has logged entry e. -/
def Core.withEntry (k : Core) (c : Ctx) (tr : List Nat) (e : BitVec 16) : Core :=
  { k with
    trace := tr
    runlog := (k.runlog ++ [e]).drop ((k.runlog ++ [e]).length - c.dbg.logs.entries)
    logged := k.logged + 1 }

theorem State.logEntry_eq (found : s.ctxOf core = some c) (e : BitVec 16) : ∃ d : Dram, s.logEntry core e =
    ({ s with dram := d } : State).setCore core ((s.core core).withEntry c (s.core core).trace e) := by
  obtain ⟨ctx, hosted, -⟩ := Option.bind_eq_some_iff.mp found
  simp only [State.logEntry, found, hosted]
  rw [State.ringWrite_eq]
  generalize State.dram (State.ringWrite _ _ _ _ _ _) = d
  have same : ({ s with dram := d } : State).core core = s.core core := State.core_congr rfl core
  exact ⟨d, congrArg (State.setCore _ core) (by rw [same]; rfl)⟩

/-- R396: the run of a thread that has issued there leaves the trace and enters the log; only the ring in DRAM changes besides. -/
theorem exec_runLengthLogAppend (found : s.ctxOf core = some c) (armed : c.dbg.armed ≠ none) (live : (s.core core).replay = none) (low : thread < 6)
    (pos : 1 ≤ run) (short : run ≤ 8192) (issued : (s.core core).trace.take run = List.replicate run thread) :
    ∃ d : Dram, exec (.runLengthLogAppend core thread run) s = .next (({ s with dram := d } : State).setCore core
      ((s.core core).withEntry c ((s.core core).trace.drop run) (runEntry thread run))) := by
  change ∃ d, execRunLengthLogAppend core thread run s = _
  have guard : ¬ ((!((s.ctxOf core).map (fun x => x.dbg.armed.isSome)).getD false) = true ∨ (s.core core).replay.isSome = true ∨ run = 0 ∨ 8192 < run) := by
    simp [found, Option.isSome_iff_ne_none.mpr armed, live]
    omega
  simp only [execRunLengthLogAppend, if_neg guard, if_neg (show thread ≠ 6 by omega), if_pos (And.intro low issued)]
  generalize runEntry thread run = e
  have after : (s.setCore core { s.core core with trace := (s.core core).trace.drop run }).core core =
    { s.core core with trace := (s.core core).trace.drop run } := State.core_setCore_same _ _ _
  have hosted : (s.setCore core { s.core core with trace := (s.core core).trace.drop run }).ctxOf core = some c := by
    rw [State.ctxOf, after]
    exact found
  obtain ⟨d, logged⟩ := State.logEntry_eq hosted e
  refine ⟨d, congrArg Host.Outcome.next (logged.trans ?_)⟩
  rw [after]
  simp only [State.setCore, Tab.set_set]
  rfl

theorem exec_runLengthLogAppend_other (other : (s.core core).trace.take run ≠ List.replicate run thread) (low : thread < 6) :
    exec (.runLengthLogAppend core thread run) s = .next s := by
  change execRunLengthLogAppend core thread run s = _
  simp only [execRunLengthLogAppend, if_neg (show thread ≠ 6 by omega), other, and_false, if_false, ite_self]

theorem exec_runLengthLogAppend_keeps (found : s.ctxOf core = some c) (armed : c.dbg.armed ≠ none) (live : (s.core core).replay = none) (low : thread < 6)
    (pos : 1 ≤ run) (short : run ≤ 8192) (issued : (s.core core).trace.take run = List.replicate run thread) :
    ∃ t, exec (.runLengthLogAppend core thread run) s = .next t ∧ (t.core core).trace = (s.core core).trace.drop run ∧
      (0 < c.dbg.logs.entries → (t.core core).runlog.getLast? = some (BitVec.ofNat 16 (2 ^ 13 * thread + (run - 1)))) ∧ SameSram s t ∧
      ∀ h, t.thread h = s.thread h := by
  obtain ⟨d, ran⟩ := exec_runLengthLogAppend found armed live low pos short issued
  refine ⟨_, ran, ?_, fun holds => ?_, SameSram.of_cores (fun n => ?_) rfl, State.thread_setCore_kept (s := s) (fun _ _ => rfl) rfl⟩
  · rw [State.core_setCore_same]
    rfl
  · rw [State.core_setCore_same, Core.withEntry, getLast?_ring _ _ holds, runEntry, Nat.add_sub_assoc pos]
  · have same (j : Nat) : ({ s with dram := d } : State).core j = s.core j := State.core_congr rfl j
    rw [State.core_setCore_kept Core.sram _ core _ ?_ n, same]
    rw [same]
    rfl

end RunLength

end Sys2Proof.Machine
end

section
/-! SUPPORT. The reset of a function (R401): O51. -/

namespace Sys2Proof.Machine

/-! ## A function's reset (R401) -/

/-- The queues that the model lists, and the entry cache. -/
def State.entries (s : State) : Tab Queue × List Nat := (s.queues, s.qcache)

theorem State.entries_noteError (s : State) (kind : Nat) (p : Option Place) (o : BitVec 12) (a : Nat) : (s.noteError kind p o a).entries = s.entries := by
  unfold State.noteError
  simp only [List.foldl_cons, List.foldl_nil]
  split <;> rfl

theorem State.entries_meetLines (s : State) (lines : List Nat) : (s.meetLines lines).entries = s.entries := by
  refine foldl_kept _ State.entries (fun r l => ?_) _ _
  dsimp only
  split
  · exact State.entries_noteError _ _ _ _ _
  · split
    · exact State.entries_noteError _ _ _ _ _
    · rfl

theorem State.entries_reap (s : State) (ctx : Nat) : (s.reap ctx).entries = s.entries := by
  have vacated : (s.vacate ctx).entries = s.entries := by
    refine foldl_kept _ State.entries (fun _ _ => ?_) _ _
    rfl
  unfold State.reap
  split
  · rfl
  · exact vacated

theorem State.entries_abortGrids (s : State) (gs : List Nat) (code : Nat) : (s.abortGrids gs code).entries = s.entries := by
  refine foldl_kept _ State.entries (fun r ctx => ?_) _ _
  unfold State.settleEnergy
  split <;> rfl

/-- What a notification and the end of a queue keep of a queue's block. -/
structure Steady (φ : Nat → Queue → Prop) : Prop where
  notified : ∀ k r h, φ k r → φ k { r with hint := h, notified := true }
  ended : ∀ k r, φ k r → φ k { r with live := false, scanning := false }

/-- The entry cache holds the blocks of c, the model lists no other queue, and each listed block is as φ says. -/
structure State.Caches (s : State) (c : List Nat) (φ : Nat → Queue → Prop) : Prop where
  cache : ∀ k, k ∈ s.qcache ↔ k ∈ c
  blocks : ∀ k r, Tab.find? s.queues k = some r → k ∈ c ∧ φ k r

section Caches

variable {s t : State} {c : List Nat} {φ ψ : Nat → Queue → Prop}

theorem State.Caches.of_entries (caches : s.Caches c φ) (same : t.entries = s.entries) : t.Caches c φ := by
  have queues : t.queues = s.queues := congrArg Prod.fst same
  have cache : t.qcache = s.qcache := congrArg Prod.snd same
  exact ⟨fun k => by rw [cache]; exact caches.cache k, fun k r found => caches.blocks k r (queues ▸ found)⟩

theorem State.Caches.qcb_eq (caches : s.Caches c φ) {k : Nat} (mem : k ∈ c) : s.qcb k = Tab.find? s.queues k := by
  rw [State.qcb, if_pos ((caches.cache k).mpr mem)]

theorem State.Caches.of_mem_blocks (caches : s.Caches c φ) {x : Nat × Queue} (mem : x ∈ s.blocks) : x.1 ∈ c ∧ φ x.1 x.2 := by
  obtain ⟨y, listed, block⟩ := List.mem_filterMap.mp mem
  obtain ⟨r, found, rfl⟩ := Option.map_eq_some_iff.mp block
  obtain ⟨v, there⟩ := Option.isSome_iff_exists.mp ((Tab.isSome_find? s.queues y.1).mpr ⟨y, listed, rfl⟩)
  exact caches.blocks y.1 r ((caches.qcb_eq (caches.blocks _ _ there).1).symm.trans found)

theorem State.Caches.mem_blocks (caches : s.Caches c φ) {k : Nat} {r : Queue} (block : s.qcb k = some r) (mem : k ∈ c) : (k, r) ∈ s.blocks := by
  have found := (caches.qcb_eq mem).symm.trans block
  exact List.mem_filterMap.mpr ⟨_, Tab.mem_of_find? found, by rw [block]; rfl⟩

/-- A block that is written takes its place, and every other one stays. -/
theorem State.Caches.setQueue (caches : s.Caches c φ) {k : Nat} {r : Queue} (mem : k ∈ c) (keeps : ∀ j v, j ≠ k → φ j v → ψ j v) (good : ψ k r) :
    (s.setQueue k r).Caches c ψ := by
  have cached : k ∈ s.qcache := (caches.cache k).mpr mem
  have moved : (s.setQueue k r).entries = (Tab.set k r s.queues, s.qcache.filter (fun x => decide (x ≠ k)) ++ [k]) := by
    rw [State.setQueue, State.cacheQueue, if_pos cached]
    rfl
  have queues : (s.setQueue k r).queues = Tab.set k r s.queues := congrArg Prod.fst moved
  have cache : (s.setQueue k r).qcache = s.qcache.filter (fun x => decide (x ≠ k)) ++ [k] := congrArg Prod.snd moved
  refine ⟨fun j => ?_, fun j v found => ?_⟩
  · rw [cache, ← caches.cache j, List.mem_append, List.mem_filter, List.mem_singleton, decide_eq_true_eq]
    by_cases here : j = k
    · simp [here, cached]
    · simp [here]
  · rw [queues] at found
    obtain rfl | other := eq_or_ne j k
    · cases (Tab.find?_set_same _ _ _).symm.trans found
      exact ⟨mem, good⟩
    · have old := caches.blocks j v ((Tab.find?_set_other _ _ _ _ other).symm.trans found)
      exact ⟨old.1, keeps j v other old.2⟩

variable (steady : Steady φ)
include steady

theorem State.Caches.notifyHook (caches : s.Caches c φ) (offs : List Nat) (word : Nat → Word) : (s.notifyHook offs word).Caches c φ := by
  unfold State.notifyHook
  extract_lets place hits
  clear_value place hits
  have listed := fun (x : Nat × Queue) (mem : x ∈ s.blocks) => caches.of_mem_blocks mem
  revert listed
  generalize s.blocks = l
  intro listed
  induction l generalizing s with
  | nil => exact caches
  | cons x l ih =>
    obtain ⟨mem, good⟩ := listed x List.mem_cons_self
    refine ih ?_ (fun y mem => listed y (List.mem_cons_of_mem _ mem))
    dsimp only
    split
    · split
      · exact (caches.setQueue (ψ := φ) mem (fun _ _ _ old => old) (steady.notified _ _ _ good)).of_entries rfl
      · exact caches
    · exact caches

theorem State.Caches.dramOp (caches : s.Caches c φ) (a : Access) : (s.dramOp a).2.Caches c φ := by
  unfold State.dramOp
  split
  · exact caches
  · have met := caches.of_entries (s.entries_meetLines (linesOf a.esize a.elems))
    dsimp only
    split
    · exact met
    · split
      · exact State.Caches.notifyHook steady (by exact met.of_entries rfl) _ _
      · exact State.Caches.notifyHook steady (by exact met.of_entries rfl) _ _
      · exact met

theorem State.Caches.cpStore (caches : s.Caches c φ) (ctx a : Nat) (v : Word) : (s.cpStore ctx a v).Caches c φ := by
  unfold State.cpStore State.cpPut
  split
  · exact caches
  · exact caches.dramOp steady _

theorem State.Caches.signalEvent (caches : s.Caches c φ) (ctx : Nat) (sig : Word) (f : Word → Word) : (s.signalEvent ctx sig f).Caches c φ := by
  unfold State.signalEvent
  split
  · exact caches
  · split
    · split
      · exact caches
      · exact caches.cpStore steady _ _ _
    · exact caches

theorem State.Caches.cancelPackets (caches : s.Caches c φ) (r : Queue) : (s.cancelPackets r).Caches c φ := by
  unfold State.cancelPackets
  split
  · refine foldl_inv _ (State.Caches · c φ) (fun x i kept => ?_) _ _ caches
    split
    · split
      · exact kept.signalEvent steady _ _ _
      · exact kept
    · exact kept
  · exact caches

/-- R365: a queue that is destroyed is no longer live, and every other block stays but for a notification. -/
theorem State.Caches.destroyQueue (caches : s.Caches c φ) {q : Nat} (mem : q ∈ c) :
    (s.destroyQueue q).Caches c (fun k r => φ k r ∧ (k = q → r.live = false)) := by
  unfold State.destroyQueue
  split
  · next dead =>
    refine ⟨caches.cache, fun k r found => ⟨(caches.blocks k r found).1, (caches.blocks k r found).2, fun here => ?_⟩⟩
    subst here
    rw [State.liveQueue, caches.qcb_eq mem, found] at dead
    simpa using dead
  · next d live =>
    have block : s.qcb q = some d := (Option.filter_eq_some_iff.mp live).1
    have good : φ q d := (caches.blocks q d ((caches.qcb_eq mem).symm.trans block)).2
    have cancelled := (caches.of_entries (s.entries_abortGrids ((s.grids.filter (fun g => decide (g.2.queue = q) && !g.2.complete)).map Prod.fst) 4)).cancelPackets
      steady d
    exact (cancelled.setQueue mem (fun j v other old => ⟨old, fun here => absurd here other⟩) ⟨steady.ended _ _ good, fun _ => rfl⟩).of_entries
      (State.entries_reap _ _)

end Caches

theorem State.Caches.mono {s : State} {c : List Nat} {φ ψ : Nat → Queue → Prop} (caches : s.Caches c φ) (weak : ∀ k r, φ k r → ψ k r) : s.Caches c ψ :=
  ⟨caches.cache, fun k r found => ⟨(caches.blocks k r found).1, weak _ _ (caches.blocks k r found).2⟩⟩

theorem State.Caches.foldl_destroyQueue {s : State} {c : List Nat} {φ : Nat → Queue → Prop} (steady : Steady φ) {l : List Nat} (all : ∀ q ∈ l, q ∈ c)
    (caches : s.Caches c φ) : (l.foldl State.destroyQueue s).Caches c (fun k r => φ k r ∧ (k ∈ l → r.live = false)) := by
  induction l generalizing s φ with
  | nil => exact caches.mono fun _ _ good => ⟨good, fun none => nomatch none⟩
  | cons q l ih =>
    have first := caches.destroyQueue steady (all q List.mem_cons_self)
    have both : Steady (fun k r => φ k r ∧ (k = q → r.live = false)) :=
      ⟨fun k r h good => ⟨steady.notified k r h good.1, good.2⟩, fun k r good => ⟨steady.ended k r good.1, fun _ => rfl⟩⟩
    refine (ih both (fun x mem => all x (List.mem_cons_of_mem _ mem)) first).mono fun k r good => ⟨good.1.1, fun mem => ?_⟩
    exact (List.mem_cons.mp mem).elim good.1.2 good.2

/-- R401: a queue of function fn, other than its admin queue. -/
def State.ofFunction (s : State) (fn : Nat) (q : Nat × Queue) : Bool := decide (q.1 ≠ fn) && q.2.live && decide (s.functionOf q.2 = fn)

/-- R401: the queues that the reset of function fn destroys. -/
def State.queuesOf (s : State) (fn : Nat) : List Nat := (s.blocks.filter (s.ofFunction fn)).map Prod.fst

/-- R401: the admin queue of function fn is empty, with READ and WRITE 0. -/
def State.emptyAdmin (s : State) (fn : Nat) : State :=
  match s.qcb fn with
  | none => s
  | some a =>
    ((s.setQueue fn { a with read := 0, step := none }).cpStore a.ctx (virtAddr a.hdr).toNat 0).cpStore a.ctx (virtAddr (a.hdr + 8)).toNat 0

/-- R401: what a reset of function fn leaves: the queues of l are dead, and the admin queue is empty. -/
def ResetOf (l : List Nat) (fn k : Nat) (r : Queue) : Prop := (k ∈ l → r.live = false) ∧ (k = fn → r.read = 0)

theorem ResetOf.steady (l : List Nat) (fn : Nat) : Steady (ResetOf l fn) where
  notified _ _ _ reset := reset
  ended _ _ reset := ⟨fun _ => rfl, reset.2⟩

section Reset

variable {s : State} {fn : Nat}

theorem exec_functionLevelReset (low : fn < 64) (still : s.destroying fn = false) :
    exec (.functionLevelReset fn) s = .next (((s.queuesOf fn).foldl State.destroyQueue s).emptyAdmin fn) := by
  change execFunctionLevelReset fn s = _
  rw [execFunctionLevelReset, if_neg (by simp [still, low])]
  extract_lets mine s1
  change _ = Host.Outcome.next (s1.emptyAdmin fn)
  clear_value s1
  unfold State.emptyAdmin
  cases s1.qcb fn <;> rfl

theorem exec_functionLevelReset_caches (low : fn < 64) (still : s.destroying fn = false) (listed : ∀ x ∈ s.queues, x.1 ∈ s.qcache) (admin : fn ∈ s.qcache) :
    ∃ t : State, exec (.functionLevelReset fn) s = .next t ∧ t.Caches s.qcache (ResetOf (s.queuesOf fn) fn) := by
  have caches : s.Caches s.qcache (fun _ _ => True) :=
    ⟨fun _ => Iff.rfl, fun k r found => ⟨listed _ (Tab.mem_of_find? found), trivial⟩⟩
  have own : ∀ q ∈ s.queuesOf fn, q ∈ s.qcache ∧ q ≠ fn := fun q mem => by
    obtain ⟨x, mine, rfl⟩ := List.mem_map.mp mem
    obtain ⟨block, ours⟩ := List.mem_filter.mp mine
    exact ⟨(caches.of_mem_blocks block).1, fun here => by simp [State.ofFunction, here] at ours⟩
  have dead := caches.foldl_destroyQueue ⟨fun _ _ _ _ => trivial, fun _ _ _ => trivial⟩ (fun q mem => (own q mem).1)
  refine ⟨_, exec_functionLevelReset low still, ?_⟩
  revert dead
  generalize (s.queuesOf fn).foldl State.destroyQueue s = s1
  intro dead
  unfold State.emptyAdmin
  split
  · next none =>
    refine ⟨dead.cache, fun k r found => ⟨(dead.blocks k r found).1, (dead.blocks k r found).2.2, fun here => ?_⟩⟩
    subst here
    rw [dead.qcb_eq admin, found] at none
    cases none
  · next a block =>
    have reset := dead.setQueue (ψ := ResetOf (s.queuesOf fn) fn) (r := { a with read := 0, step := none }) admin
      (fun j v other old => ⟨old.2, fun here => absurd here other⟩) ⟨fun mem => absurd rfl (own fn mem).2, fun _ => rfl⟩
    exact (reset.cpStore (ResetOf.steady _ _) _ _ _).cpStore (ResetOf.steady _ _) _ _ _

/-- R401: the queues of the function are dead after its reset, and its admin queue is empty. -/
theorem State.Caches.reset {t : State} (listed : ∀ x ∈ s.queues, x.1 ∈ s.qcache) (admin : fn ∈ s.qcache)
    (reset : t.Caches s.qcache (ResetOf (s.queuesOf fn) fn)) :
    (∀ q r, q ≠ fn → q ∈ s.qcache → s.liveQueue q = some r → s.functionOf r = fn → t.liveQueue q = none) ∧ ∀ r, t.qcb fn = some r → r.read = 0 := by
  have caches : s.Caches s.qcache (fun _ _ => True) :=
    ⟨fun _ => Iff.rfl, fun k r found => ⟨listed _ (Tab.mem_of_find? found), trivial⟩⟩
  refine ⟨fun q r other cached live ours => ?_, fun r block => ?_⟩
  · obtain ⟨block, alive⟩ := Option.filter_eq_some_iff.mp live
    have mem : q ∈ s.queuesOf fn :=
      List.mem_map.mpr ⟨(q, r), List.mem_filter.mpr ⟨caches.mem_blocks block cached, by simp [State.ofFunction, other, alive, ours]⟩, rfl⟩
    rw [State.liveQueue, reset.qcb_eq cached]
    cases found : Tab.find? t.queues q with
    | none => rfl
    | some v => simp [(reset.blocks q v found).2.1 mem]
  · exact (reset.blocks fn r ((reset.qcb_eq admin).symm.trans block)).2.2 rfl

end Reset

end Sys2Proof.Machine
end

section
/-! SUPPORT. Bring-up and where it stops (R408): O51. -/

namespace Sys2Proof.Machine

/-! ## Bring-up (R408) -/

/-- Table 27.3: measurements taken in the order of bring-up are those of Table 27.3's registers. -/
theorem measures_in_order (f : BitVec 512 → BitVec 512 → BitVec 512) (c : Nat → BitVec 512) (d : BitVec 512) :
    [(0, c 0), (3, c 3), (3, d), (1, c 1), (2, c 2), (4, c 4)].foldl
      (fun (v : Vector (BitVec 512) 8) (q : Fin 8 × BitVec 512) => v.set q.1 (f v[q.1] q.2)) (Vector.replicate 8 0) =
    (((((Vector.replicate 8 (0 : BitVec 512)).set 0 (f 0 (c 0))).set 1 (f 0 (c 1))).set 2 (f 0 (c 2))).set 3 (f (f 0 (c 3)) d)).set 4 (f 0 (c 4)) := by
  rfl

/-- R391: measurements taken in order. -/
def State.measures (s : State) (l : List (Fin 8 × BitVec 512)) : State := l.foldl (fun r q => r.measure q.1 q.2) s

theorem State.measures_eq (s : State) (l : List (Fin 8 × BitVec 512)) : s.measures l =
    { s with dev := { s.dev with meas := l.foldl (fun v q => v.set q.1 (extendMeas v[q.1] q.2)) s.dev.meas } } := by
  induction l generalizing s with
  | nil => rfl
  | cons q l ih => exact ih _

/-- Table 27.3: the components that a bring-up that verifies everything measures, in its order. -/
def bootComponents : List (Fin 8 × BitVec 512) :=
  [(0, Config.component 0), (3, Config.component 3), (3, repairDigest []), (1, Config.component 1), (2, Config.component 2), (4, Config.component 4)]

theorem bootMeas_eq : bootComponents.foldl (fun (v : Vector (BitVec 512) 8) (q : Fin 8 × BitVec 512) => v.set q.1 (extendMeas v[q.1] q.2))
    (Vector.replicate 8 0) = bootMeas [] := by
  rw [bootMeas, bootComponents]
  exact measures_in_order extendMeas Config.component (repairDigest [])

/-- R408: the machine with the configuration record and the spares that it enables. -/
def State.withRecord (s : State) (r : ConfigRecord) : State := { s with dev := { s.dev with record := r, spareUsed := recordSpares r } }

theorem State.withRecord_measure (s : State) (r : ConfigRecord) (i : Fin 8) (d : BitVec 512) :
    (s.measure i d).withRecord r = (s.withRecord r).measure i d := rfl

theorem State.replaceUnusable_eq {s : State} (fresh : s.cores = []) : s.replaceUnusable = s := by
  rw [State.replaceUnusable, fresh]
  rfl

/-- R389, R408: a record that disables too few cores to matter and lists no failed bank, with an empty field-repair list, is all that step 2 leaves. -/
theorem State.configured_eq {s : State} {r : ConfigRecord} (fresh : s.cores = []) (banks : r.banks = []) (enough : recordShort r = []) (use : Bool) :
    s.configured r [] use = s.withRecord r := by
  simp only [State.configured, banks, enough, List.foldl_nil, ite_self]
  exact State.replaceUnusable_eq fresh

section BringUp

variable {s : State} {cfg : BringUp}

/-- R408, log 47: the machine as bring-up begins. -/
def State.bootStart (s : State) (list : List (BitVec 32)) : State :=
  { State.reset with
    agenda := s.agenda
    free := s.free
    dev := { Device.init with boots := s.dev.boots + 1, repairs := list, meas := Vector.replicate 8 0 } }

theorem exec_bringUp (firmware : cfg.firmwareOk = true) (record : cfg.recordOk = true) (good : recordGood cfg.record = true)
    (monitor : cfg.monitorOk = true) (scheduler : cfg.schedulerOk = true) (management : cfg.managementOk = true) (found : cfg.repairs = [])
    (banks : cfg.record.banks = []) (enough : recordShort cfg.record = []) (kept : s.dev.repairs = []) (list : cfg.listOk = true) :
    exec (.bringUp cfg) s = .next (((s.bootStart []).withRecord cfg.record).measures bootComponents) := by
  change execBringUp cfg s = _
  have used : usesList cfg [] = true := by simp [usesList, list]
  simp only [execBringUp, State.startFirmware, firmware, record, good, monitor, scheduler, management, found, kept, List.append_nil, used, Bool.not_true,
    Bool.and_self, Bool.false_eq_true, if_false, if_true]
  rw [State.configured_eq rfl banks enough, State.withRecord_measure, State.withRecord_measure]
  rfl

/-- R408: bring-up that verifies everything leaves the machine as after reset, but for its record and what goes on over it. -/
theorem State.booted_eq (s : State) (r : ConfigRecord) : ((s.bootStart []).withRecord r).measures bootComponents =
    { State.reset with
      agenda := s.agenda
      free := s.free
      dev := { State.reset.dev with boots := s.dev.boots + 1, record := r, spareUsed := recordSpares r } } := by
  have meas : ((s.bootStart []).withRecord r).dev.meas = Vector.replicate 8 0 := rfl
  rw [State.measures_eq, meas, bootMeas_eq]
  rfl

/-- R408: bring-up stops at the step that fails. -/
structure State.StoppedAt (s : State) (step : Nat) : Prop where
  ok : s.dev.bootOk = false
  queues : s.queues = []
  step : s.dev.bootStep = step

theorem State.StoppedAt.stopsAt (s : State) (step : Nat) : (s.stopsAt step).StoppedAt step := ⟨rfl, rfl, rfl⟩

theorem State.StoppedAt.startFirmware (s : State) (fails : cfg.monitorOk = false ∨ cfg.schedulerOk = false ∨ cfg.managementOk = false) :
    (s.startFirmware cfg).StoppedAt 4 := by
  unfold State.startFirmware
  split
  · exact State.StoppedAt.stopsAt _ _
  · dsimp only
    split
    · exact State.StoppedAt.stopsAt _ _
    · split
      · exact State.StoppedAt.stopsAt _ _
      · simp_all

theorem exec_bringUp_fails (fails : cfg.firmwareOk = false ∨ cfg.recordOk = false ∨ recordGood cfg.record = false ∨ cfg.monitorOk = false ∨
      cfg.schedulerOk = false ∨ cfg.managementOk = false) :
    ∃ t, exec (.bringUp cfg) s = .next t ∧ t.StoppedAt
      (if cfg.firmwareOk = false then 1 else if cfg.recordOk = false ∨ recordGood cfg.record = false then 2 else 4) := by
  change ∃ t, execBringUp cfg s = _ ∧ _
  rw [execBringUp]
  cases firmware : cfg.firmwareOk with
  | false => exact ⟨_, rfl, State.StoppedAt.stopsAt _ 1⟩
  | true =>
    simp only [Bool.not_true, Bool.false_eq_true, Bool.true_eq_false, if_false]
    cases record : (cfg.recordOk && recordGood cfg.record) with
    | false =>
      rw [if_pos (show cfg.recordOk = false ∨ recordGood cfg.record = false from Bool.and_eq_false_iff.mp record)]
      exact ⟨_, rfl, State.StoppedAt.stopsAt _ 2⟩
    | true =>
      obtain ⟨listed, good⟩ := Bool.and_eq_true_iff.mp record
      rw [if_neg (show ¬ (cfg.recordOk = false ∨ recordGood cfg.record = false) by simp [listed, good])]
      exact ⟨_, rfl, State.StoppedAt.startFirmware _ (by simpa [firmware, listed, good] using fails)⟩

end BringUp

end Sys2Proof.Machine
end

section
/-! SUPPORT. Save, restore, scrub, bring-up and resets (R335, R378, R386 to R389, R396, R401, R408): O51. -/

namespace Sys2Proof.Machine

/-- Settles O51: each clause is the rule of its instruction or device step. -/
theorem upkeepSteps : Obligations.UpkeepSteps := by
  unfold Obligations.UpkeepSteps
  intro s ctx core off bank c m w seen counted
  refine ⟨fun r settled found halted latched saving => ?_,
    fun fn image part other => exec_restoreRequest_refused other, fun image part bs l x s1 up low read parsed one ok => ?_, State.pending_mailbox s,
    fun low => ⟨fun read => ?_, fun kind unread sound soft code => ?_⟩, fun low sound => ⟨exec_bankFailed_lists low bank.isLt sound, exec_bankFailed_uncounted⟩,
    fun thread run found armed live low pos short => ⟨exec_runLengthLogAppend_keeps found armed live low pos short,
      fun other => exec_runLengthLogAppend_other other low⟩,
    fun fn low still _ _ listed admin => ?_,
    fun cfg firmware record good monitor scheduler management found banks enough kept list => ?_, fun cfg fails => ?_⟩
  · obtain ⟨s', status, size, ran, answer, c', after, answered, saved, halt⟩ := exec_saveEngine settled found halted latched saving
    exact ⟨s', status, size, ran, answer, c', after, answered, saved, halt.trans halted⟩
  · obtain ⟨done, refused, waits⟩ := State.restoreImage_eq read parsed one ok
    rw [exec_restoreRequest up low]
    exact ⟨fun s' rebuilt => by rw [done s' rebuilt], fun rebuilt => by rw [refused rebuilt], fun rebuilt => by rw [waits rebuilt]⟩
  · rw [exec_scrubRead low, if_pos (show s.scrubSeen core (scrubbedWord off) = true from decide_eq_true read)]
  · obtain ⟨t, ran, corrects, counts⟩ := exec_scrubRead_corrects low unread sound soft code
    exact ⟨t, ran, corrects.memory, corrects.soft, counts, corrects.errors⟩
  · obtain ⟨t, ran, caches⟩ := exec_functionLevelReset_caches low still listed admin
    exact ⟨t, ran, caches.reset listed admin⟩
  · rw [exec_bringUp firmware record good monitor scheduler management found banks enough kept list, State.booted_eq]
  · obtain ⟨t, ran, stopped⟩ := exec_bringUp_fails fails
    exact ⟨t, ran, stopped.ok, stopped.queues, stopped.step⟩

end Sys2Proof.Machine
end

section
/-! SUPPORT. The debug connection (R395): O53. -/

namespace Sys2Proof.Machine

/-! ## The debug connection (R395) -/

theorem State.conn_setConn (s : State) (fn : Nat) (c : Conn) : (s.setConn fn c).conn fn = c := by
  simp only [State.conn, State.setConn, Tab.find?_set_same, Option.getD_some]

theorem State.response_debugStatus (s : State) (status : Nat) : ((s.debugStatus status).conn 64).response = [status] :=
  congrArg Conn.response (s.conn_setConn 64 _)

section Connection

variable {s : State} {ctx : Nat} {c : Ctx}

theorem State.debugObject_challenged (challenged : (s.conn 64).challenged = true) (f : State → State) : s.debugObject f = .next (f s.mailbox) := by
  exact congrArg Host.Outcome.next (if_pos challenged)

theorem State.debugObject_unchallenged (refused : (s.conn 64).challenged = false) (f : State → State) :
    s.debugObject f = .next (s.mailbox.debugStatus 1) := by
  exact congrArg Host.Outcome.next (if_neg (show ¬ (s.conn 64).challenged = true by simp [refused]))

theorem State.debugCtx_unchallenged (refused : (s.conn 64).challenged = false) (f : State → Ctx → State) :
    s.debugCtx ctx f = .next (s.mailbox.debugStatus 1) := State.debugObject_unchallenged refused _

theorem State.debugCtx_open (challenged : (s.conn 64).challenged = true) (found : Tab.find? s.ctxs ctx = some c)
    (unlocked : c.owner.toNat ∈ (s.conn 64).unlocked) (f : State → Ctx → State) : s.debugCtx ctx f = .next (f s.mailbox c) := by
  have there : Tab.find? s.mailbox.ctxs ctx = some c := found
  have open_ : c.owner.toNat ∈ (s.mailbox.conn 64).unlocked := unlocked
  rw [State.debugCtx, State.debugObject_challenged challenged, there]
  exact congrArg Host.Outcome.next (if_pos open_)

theorem State.debugCtx_locked (challenged : (s.conn 64).challenged = true) (found : Tab.find? s.ctxs ctx = some c)
    (locked : c.owner.toNat ∉ (s.conn 64).unlocked) (f : State → Ctx → State) : s.debugCtx ctx f = .next (s.mailbox.debugStatus 2) := by
  have there : Tab.find? s.mailbox.ctxs ctx = some c := found
  have closed : c.owner.toNat ∉ (s.mailbox.conn 64).unlocked := locked
  rw [State.debugCtx, State.debugObject_challenged challenged, there]
  exact congrArg Host.Outcome.next (if_neg closed)

/-- R395: NONCE returns a fresh nonce, which the connection then holds. -/
theorem exec_debugNonce (challenged : (s.conn 64).challenged = true) : ∃ t nonce, exec .debugNonce s = .next t ∧ (t.conn 64).response = [0] ∧
    (t.conn 64).nonces = nonce :: (s.conn 64).nonces ∧ (t.conn 64).payload = [nonce.setWidth 512] := by
  have ran : exec .debugNonce s = execDebugNonce s := by rfl
  rw [ran, execDebugNonce]
  generalize Config.freeWord s.free ++ Config.freeWord (s.free + 1) ++ Config.freeWord (s.free + 2) ++ Config.freeWord (s.free + 3) = n
  rw [State.debugObject_challenged challenged]
  refine ⟨_, n, rfl, ?_⟩
  have answered := State.conn_setConn ({ s.mailbox with free := s.mailbox.free + 4 } : State) 64
    { s.conn 64 with response := [0], payload := [n.setWidth 512], nonces := n :: (s.conn 64).nonces }
  exact ⟨congrArg Conn.response answered, congrArg Conn.nonces answered, congrArg Conn.payload answered⟩

variable {owner : Nat} {nonce : BitVec 256} {sg : BitVec 912} {key : BitVec 576}

/-- R395: the connection once a nonce of it has been used. -/
def Conn.spend (c : Conn) (nonce : BitVec 256) : Conn := { c with nonces := c.nonces.filter (fun n => decide (n ≠ nonce)), payload := [] }

theorem Conn.nonces_spend (c : Conn) (nonce : BitVec 256) : nonce ∉ (c.spend nonce).nonces := by simp [Conn.spend]

/-- R395: UNLOCK with a nonce of the connection. -/
theorem exec_debugUnlock (challenged : (s.conn 64).challenged = true) (low : 1 ≤ owner) (high : owner < 4096)
    (found : Tab.find? s.dev.debugKeys owner = some key) (fresh : nonce ∈ (s.conn 64).nonces) :
    exec (.debugUnlock owner nonce sg) s = .next (if Config.signatureOk key owner nonce sg = true then
      (s.mailbox.setConn 64 { (s.conn 64).spend nonce with response := [0], unlocked := owner :: (s.conn 64).unlocked }).measure 7
        (Keccak.shake256 (leBytes 2 owner))
      else s.mailbox.setConn 64 { (s.conn 64).spend nonce with response := [1] }) := by
  have there : Tab.find? s.mailbox.dev.debugKeys owner = some key := found
  have held : nonce ∈ (s.conn debugFn).nonces := fresh
  have ran : exec (.debugUnlock owner nonce sg) s = execDebugUnlock owner nonce sg s := by rfl
  rw [ran, execDebugUnlock, State.debugObject_challenged challenged, if_neg (by omega), there]
  refine congrArg Host.Outcome.next ?_
  by_cases signed : Config.signatureOk key owner nonce sg = true
  · rw [if_pos signed]
    exact if_pos ⟨held, signed⟩
  · rw [if_neg signed]
    exact if_neg (fun both => signed both.2)

theorem exec_debugUnlock_answers (challenged : (s.conn 64).challenged = true) (low : 1 ≤ owner) (high : owner < 4096)
    (found : Tab.find? s.dev.debugKeys owner = some key) (fresh : nonce ∈ (s.conn 64).nonces) :
    ∃ t, exec (.debugUnlock owner nonce sg) s = .next t ∧ nonce ∉ (t.conn 64).nonces ∧
      (if Config.signatureOk key owner nonce sg = true then (t.conn 64).response = [0] ∧ (t.conn 64).unlocked = owner :: (s.conn 64).unlocked ∧
          t.dev.meas[7] = extendMeas s.dev.meas[7] (Keccak.shake256 (leBytes 2 owner))
        else (t.conn 64).response = [1] ∧ (t.conn 64).unlocked = (s.conn 64).unlocked ∧ t.dev.meas[7] = s.dev.meas[7]) := by
  rw [exec_debugUnlock challenged low high found fresh]
  generalize Keccak.shake256 (leBytes 2 owner) = digest
  refine ⟨_, rfl, ?_⟩
  split
  · have answered := State.conn_setConn s.mailbox 64 { (s.conn 64).spend nonce with response := [0], unlocked := owner :: (s.conn 64).unlocked }
    refine ⟨fun mem => Conn.nonces_spend _ _ (congrArg Conn.nonces answered ▸ mem), congrArg Conn.response answered, congrArg Conn.unlocked answered, ?_⟩
    exact Vector.getElem_set_self _
  · have answered := State.conn_setConn s.mailbox 64 { (s.conn 64).spend nonce with response := [1] }
    refine ⟨fun mem => Conn.nonces_spend _ _ (congrArg Conn.nonces answered ▸ mem), congrArg Conn.response answered,
      (congrArg Conn.unlocked answered).trans ?_, ?_⟩ <;> rfl

/-- R395, Table 27.5: objects that name a context. -/
theorem exec_debugObject {i : Instr} (object : i ∈ ([.debugArm ctx ⟨1, ⟨0, 1, 0, 1⟩⟩, .debugStop ctx 0 0 0, .debugRead ctx 1 0, .debugResume ctx,
    .debugDisarm ctx] : List Instr)) : ∃ f, exec i s = s.debugCtx ctx f := by
  simp only [List.mem_cons, List.not_mem_nil, or_false] at object
  rcases object with rfl | rfl | rfl | rfl | rfl
  · exact ⟨_, (rfl : execDebugArm ctx _ s = _)⟩
  · exact ⟨_, (rfl : execDebugStop ctx _ _ _ s = _)⟩
  · exact ⟨_, (rfl : execDebugRead ctx _ _ s = _)⟩
  · exact ⟨_, (rfl : execDebugResume ctx s = _)⟩
  · exact ⟨_, (rfl : execDebugDisarm ctx s = _)⟩

theorem State.debugStatus_eq (s : State) (status : Nat) : s.debugStatus status = { s with dev := (s.debugStatus status).dev } := rfl

end Connection

end Sys2Proof.Machine
end

section
/-! SUPPORT. Halts that keep the debug state of a context (R372, R397): O53. -/

namespace Sys2Proof.Machine

/-! ## Halts that keep the debug state of a context (R372, R397) -/

/-- The halt of context ctx has been asked for, with force or without, and its debug state is d. -/
def State.HaltsWith (s : State) (ctx : Nat) (d : Debug) (force : Bool) : Prop :=
  ∃ c, Tab.find? s.ctxs ctx = some c ∧ c.dbg = d ∧ c.halt ≠ 0 ∧ c.force = force

section Halts

variable {s t : State} {ctx : Nat} {c : Ctx} {d : Debug} {force : Bool}

theorem State.HaltsWith.of_ctxs (halts : s.HaltsWith ctx d force) (same : t.ctxs = s.ctxs) : t.HaltsWith ctx d force := by
  rw [State.HaltsWith, same]
  exact halts

theorem State.HaltsWith.setCtx (s : State) (halt : c.halt ≠ 0) : (s.setCtx ctx c).HaltsWith ctx c.dbg c.force :=
  ⟨c, Tab.find?_set_same _ _ _, rfl, halt, rfl⟩

theorem State.HaltsWith.settle (halts : s.HaltsWith ctx d force) : (s.settle ctx).HaltsWith ctx d force := by
  obtain ⟨c, found, rest⟩ := halts.of_ctxs (s.ctxs_stopTransfers ctx)
  unfold State.settle
  simp only [found]
  split
  · exact ⟨_, Tab.find?_set_same _ _ _, rest.1, Nat.succ_ne_zero 1, rest.2.2⟩
  · exact ⟨c, found, rest⟩

theorem State.HaltsWith.haltThreads (halts : s.HaltsWith ctx d force) (deep : Bool) : (s.haltThreads ctx deep).HaltsWith ctx d force :=
  (halts.of_ctxs (State.ctxs_foldl_haltThread deep _ s)).settle

theorem State.HaltsWith.expire (s : State) (ctx : Nat) (c : Ctx) : (s.expire ctx c).HaltsWith ctx c.dbg true :=
  ((State.HaltsWith.setCtx (c := { c with halt := 1, force := true }) s Nat.one_ne_zero).of_ctxs (State.ctxs_foldl_discardStalled _ _)).haltThreads true

theorem State.HaltsWith.requestHalt (found : Tab.find? s.ctxs ctx = some c) (force : Bool) : (s.requestHalt ctx force).HaltsWith ctx c.dbg force := by
  unfold State.requestHalt
  simp only [found]
  cases force with
  | true =>
    rw [if_pos rfl]
    exact State.HaltsWith.expire _ ctx c
  | false =>
    rw [if_neg Bool.false_ne_true]
    refine State.HaltsWith.haltThreads ?_ false
    exact State.HaltsWith.setCtx (c := { c with halt := 1, force := false }) _ Nat.one_ne_zero

theorem State.resumed_resumeCtx (found : Tab.find? s.ctxs ctx = some c) :
    ∃ c', Tab.find? (s.resumeCtx ctx).ctxs ctx = some c' ∧ c'.dbg = c.dbg ∧ c'.halt = 0 := by
  have resumed (r : State) (h : Hart) : (r.resumeThread h).ctxs = r.ctxs := by
    unfold State.resumeThread
    dsimp only
    split <;> rfl
  unfold State.resumeCtx
  simp only [found]
  rw [foldl_kept State.resumeThread State.ctxs resumed, foldl_kept (fun r n => State.driveM r ⟨n, 0⟩ 65 false) State.ctxs (fun _ _ => rfl)]
  exact ⟨_, Tab.find?_set_same _ _ _, rfl, rfl⟩

end Halts

/-! ## A halt leaves the connections -/

theorem State.dev_stopExchange (s : State) (n : Nat) (d : Domain) : (s.stopExchange n d).dev = s.dev := by
  unfold State.stopExchange
  refine foldl_kept _ State.dev (fun r b => ?_) _ _
  dsimp only
  split <;> rfl

theorem State.dev_haltThread (s : State) (force : Bool) (h : Hart) : (s.haltThread force h).dev = s.dev := by
  unfold State.haltThread
  dsimp only
  split
  · rfl
  · rfl
  · rfl
  · rfl
  · unfold State.haltAccess
    dsimp only
    (repeat' split) <;> rfl
  · rfl
  · rfl
  · unfold State.abandonMiss
    dsimp only
    split <;> rfl
  · unfold State.haltSend
    split
    · rfl
    · split
      · exact State.dev_stopExchange _ _ _
      · rfl
  · unfold State.stopHeld
    dsimp only
    (repeat' split) <;> rfl
  · split <;> rfl

theorem State.dev_discardStalled (s : State) (n : Nat) : (s.discardStalled n).dev = s.dev := by
  have discard (r : State) (x : Running) (v : Word) (u : BitVec 14) : (r.discard n x v u).dev = r.dev := by
    change State.dev (if x.draining then _ else r) = _
    split <;> rfl
  unfold State.discardStalled
  dsimp only
  split
  · rw [discard]
    split <;> rfl
  · split <;> rfl

theorem State.dev_settle (s : State) (ctx : Nat) : (s.settle ctx).dev = s.dev := by
  have stopped : (s.stopTransfers ctx).dev = s.dev := by
    unfold State.stopTransfers
    dsimp only
    split <;> rfl
  have settled (r : State) : (r.settleEnergy ctx).dev = r.dev := by
    unfold State.settleEnergy
    split <;> rfl
  unfold State.settle
  dsimp only
  split
  · exact stopped
  · split
    · exact (settled _).trans stopped
    · exact stopped

theorem State.dev_haltThreads (s : State) (ctx : Nat) (deep : Bool) : (s.haltThreads ctx deep).dev = s.dev :=
  (State.dev_settle _ ctx).trans (foldl_kept (fun r h => State.haltThread r deep h) State.dev (fun r h => r.dev_haltThread deep h) _ s)

theorem State.dev_requestHalt (s : State) (ctx : Nat) (force : Bool) : (s.requestHalt ctx force).dev = s.dev := by
  have driven : ((s.coresOf ctx).foldl (fun r n => r.driveM ⟨n, 0⟩ 65 true) s).dev = s.dev :=
    foldl_kept (fun r n => State.driveM r ⟨n, 0⟩ 65 true) State.dev (fun _ _ => rfl) _ _
  unfold State.requestHalt
  split
  · rfl
  · dsimp only
    split
    · refine (State.dev_haltThreads _ ctx true).trans ((foldl_kept (fun r n => State.discardStalled r n) State.dev State.dev_discardStalled _ _).trans ?_)
      exact driven
    · exact (State.dev_haltThreads _ ctx false).trans driven

end Sys2Proof.Machine
end

section
/-! SUPPORT. Debug objects on a context (R395 to R397): O53. -/

namespace Sys2Proof.Machine

/-! ## Debug objects on a context (R395 to R397) -/

section Objects

variable {s : State} {ctx : Nat} {c : Ctx} (challenged : (s.conn 64).challenged = true) (found : Tab.find? s.ctxs ctx = some c)
  (unlocked : c.owner.toNat ∈ (s.conn 64).unlocked)
include challenged found unlocked

/-- R396: a context whose checkpoints and logs start anew. -/
def Ctx.armedWith (c : Ctx) (period : Nat) (logs : LogBuffers) : Ctx :=
  { c with dbg := { c.dbg with
    armed := some period, logs := logs, interval := 0, taken := 0, checkpoints := [], records := [], recorded := [], broken := [] } }

theorem exec_debugArm {period : Nat} {logs : LogBuffers} (low : 1 ≤ period) (high : period ≤ 256) (entries : logs.entries ≠ 0) (records : logs.records ≠ 0)
    (domain : s.hasDomain ctx = true) : exec (.debugArm ctx ⟨period, logs⟩) s =
      .next (((s.mailbox.clearLogs ctx).setCtx ctx (c.armedWith period logs)).debugStatus 0) := by
  have here : s.mailbox.hasDomain ctx = true := domain
  have ran : exec (.debugArm ctx ⟨period, logs⟩) s = execDebugArm ctx ⟨period, logs⟩ s := by rfl
  rw [ran, execDebugArm, State.debugCtx_open challenged found unlocked]
  refine congrArg Host.Outcome.next ?_
  rw [if_neg (by simp [entries, records]; omega), if_neg (by simp [here])]
  rfl

/-- R396: a context without checkpoints and logs. -/
def Ctx.disarmed (c : Ctx) : Ctx := { c with dbg := { c.dbg with armed := none, checkpoints := [], records := [], recorded := [], broken := [] } }

theorem exec_debugDisarm : exec (.debugDisarm ctx) s = .next (((s.mailbox.clearLogs ctx).setCtx ctx c.disarmed).debugStatus 0) := by
  have ran : exec (.debugDisarm ctx) s = execDebugDisarm ctx s := by rfl
  rw [ran, execDebugDisarm, State.debugCtx_open challenged found unlocked]
  rfl

theorem exec_debugRead_going (going : c.dbg.stopped = none) {type key : Nat} : exec (.debugRead ctx type key) s = .next (s.mailbox.debugStatus 1) := by
  have ran : exec (.debugRead ctx type key) s = execDebugRead ctx type key s := by rfl
  rw [ran, execDebugRead, State.debugCtx_open challenged found unlocked]
  exact congrArg Host.Outcome.next (if_pos (by simp [going]))

theorem exec_debugResume_going (going : c.dbg.stopped = none) : exec (.debugResume ctx) s = .next (s.mailbox.debugStatus 1) := by
  have ran : exec (.debugResume ctx) s = execDebugResume ctx s := by rfl
  rw [ran, execDebugResume, State.debugCtx_open challenged found unlocked]
  exact congrArg Host.Outcome.next (if_pos (by simp [going]))

/-- R395: READ of a section of the stopped state. -/
theorem exec_debugRead {type key : Nat} {x : Section} (stopped : c.dbg.stopped ≠ none) (halted : c.halt = 2)
    (section_ : (s.mailbox.sections ctx c).find? (fun x => decide (x.kind = type) && decide (x.key = key)) = some x) :
    ∃ t, exec (.debugRead ctx type key) s = .next t ∧ (t.conn 64).response = [0] ∧ (t.conn 64).payload = piecesOf64 x.data.length x.data := by
  have ran : exec (.debugRead ctx type key) s = execDebugRead ctx type key s := by rfl
  rw [ran, execDebugRead, State.debugCtx_open challenged found unlocked, if_neg (by simpa using stopped), if_neg (not_not.mpr halted), section_]
  refine ⟨_, rfl, ?_⟩
  have answered := State.conn_setConn ({ s.mailbox.debugStatus 0 with free := s.mailbox.free + s.mailbox.grids.length } : State) 64
    { (s.mailbox.debugStatus 0).conn 64 with payload := piecesOf64 x.data.length x.data }
  exact ⟨(congrArg Conn.response answered).trans (s.mailbox.response_debugStatus 0), congrArg Conn.payload answered⟩

/-- R397: a context whose stop has ended. -/
def Ctx.resumed (c : Ctx) : Ctx :=
  { c with dbg := { (if c.dbg.waiting.isSome then c.dbg.breakInterval else c.dbg) with stopped := none, waiting := none } }

theorem exec_debugResume (stopped : c.dbg.stopped ≠ none) : exec (.debugResume ctx) s = .next
    (c.dbg.waiting.elim (((s.mailbox.setCtx ctx c.resumed).resumeCtx ctx).debugStatus 0)
      ((((s.mailbox.setCtx ctx c.resumed).resumeCtx ctx).debugStatus 0).requestHalt ctx)) := by
  have ran : exec (.debugResume ctx) s = execDebugResume ctx s := by rfl
  rw [ran, execDebugResume, State.debugCtx_open challenged found unlocked, if_neg (by simpa using stopped)]
  change Host.Outcome.next (match c.dbg.waiting with
    | none => ((s.mailbox.setCtx ctx c.resumed).resumeCtx ctx).debugStatus 0
    | some force => (((s.mailbox.setCtx ctx c.resumed).resumeCtx ctx).debugStatus 0).requestHalt ctx force) = _
  cases c.dbg.waiting <;> rfl

theorem exec_debugResume_resumes (stopped : c.dbg.stopped ≠ none) (free : c.dbg.waiting = none) :
    ∃ t, exec (.debugResume ctx) s = .next t ∧ (t.conn 64).response = [0] ∧
      ∃ c', Tab.find? t.ctxs ctx = some c' ∧ c'.dbg.stopped = none ∧ c'.halt = 0 := by
  rw [exec_debugResume challenged found unlocked stopped, free, Option.elim_none]
  obtain ⟨c', after, dbg, halt⟩ := State.resumed_resumeCtx (s := s.mailbox.setCtx ctx c.resumed) (Tab.find?_set_same ctx c.resumed s.mailbox.ctxs)
  exact ⟨_, rfl, State.response_debugStatus _ 0, c', after, by rw [dbg]; rfl, halt⟩

/-- R397: a halt that the scheduler has asked for while the context was stopped begins as its stop ends. -/
theorem exec_debugResume_halts {force : Bool} (stopped : c.dbg.stopped ≠ none) (waits : c.dbg.waiting = some force) :
    ∃ t, exec (.debugResume ctx) s = .next t ∧ (t.conn 64).response = [0] ∧
      ∃ c', Tab.find? t.ctxs ctx = some c' ∧ c'.dbg.stopped = none ∧ c'.dbg.waiting = none ∧ c'.halt ≠ 0 := by
  rw [exec_debugResume challenged found unlocked stopped, waits, Option.elim_some]
  obtain ⟨c', after, dbg, -⟩ := State.resumed_resumeCtx (s := s.mailbox.setCtx ctx c.resumed) (Tab.find?_set_same ctx c.resumed s.mailbox.ctxs)
  have here : Tab.find? (((s.mailbox.setCtx ctx c.resumed).resumeCtx ctx).debugStatus 0).ctxs ctx = some c' := after
  obtain ⟨c2, there, same, halt, -⟩ := State.HaltsWith.requestHalt here force
  refine ⟨_, rfl, ?_, c2, there, by rw [same, dbg]; rfl, by rw [same, dbg]; rfl, halt⟩
  rw [State.conn, State.dev_requestHalt]
  exact State.response_debugStatus _ 0

/-- R397: a context that a STOP has asked to halt. -/
def Ctx.stopAsked (c : Ctx) (interval : Nat) (h : Hart) (count : Nat) : Ctx :=
  { c with dbg := { c.dbg with
    asked := some (interval, h, count)
    mark := none
    waiting := if decide (c.halt = 0) || c.latching then c.dbg.waiting else some c.force } }

theorem exec_debugStop {interval thread count : Nat} {k : Checkpoint} (hosted : (hartOfKey thread).core ∈ s.coresOf ctx) (user : (hartOfKey thread).th < 6)
    (armed : c.dbg.armed ≠ none) (unasked : c.dbg.asked = none) (free : c.dbg.target = none) (going : c.dbg.stopped = none)
    (whole : interval ∉ c.dbg.broken) (taken : k ∈ c.dbg.checkpoints) (number : k.number = interval) :
    ∃ t c', exec (.debugStop ctx interval thread count) s = .next t ∧ Tab.find? t.ctxs ctx = some c' ∧
      c'.dbg.asked = some (interval, hartOfKey thread, count) ∧ c'.halt ≠ 0 ∧ (c.halt ≤ 1 → c'.force = true) := by
  have ran : exec (.debugStop ctx interval thread count) s = execDebugStop ctx interval thread count s := by rfl
  have here : (hartOfKey thread).core ∈ s.mailbox.coresOf ctx := State.mem_coresOf_setThread (State.mem_coresOf_setThread hosted _ _) _ _
  rw [ran, execDebugStop, State.debugCtx_open challenged found unlocked]
  generalize hartOfKey thread = h at here user ⊢
  rw [if_neg (by simp [here]; omega), if_neg (by simp [armed, unasked, free, going]), if_neg whole,
    if_neg (by simpa using ⟨k, taken, number⟩)]
  generalize List.foldl _ s.mailbox _ = s1
  change ∃ t c', Host.Outcome.next (if c.halt = 0 then (s1.setCtx ctx (c.stopAsked interval h count)).requestHalt ctx true
    else if c.halt = 1 then s1.expire ctx (c.stopAsked interval h count) else s1.setCtx ctx (c.stopAsked interval h count)) = Host.Outcome.next t ∧ _
  split
  · obtain ⟨c', after, dbg, halt, force⟩ :=
      State.HaltsWith.requestHalt (s := s1.setCtx ctx (c.stopAsked interval h count)) (Tab.find?_set_same ctx _ s1.ctxs) true
    exact ⟨_, c', rfl, after, by rw [dbg]; rfl, halt, fun _ => force⟩
  · split
    · obtain ⟨c', after, dbg, halt, force⟩ := State.HaltsWith.expire s1 ctx (c.stopAsked interval h count)
      exact ⟨_, c', rfl, after, by rw [dbg]; rfl, halt, fun _ => force⟩
    · next running asked => exact ⟨_, c.stopAsked interval h count, rfl, Tab.find?_set_same ctx _ s1.ctxs, rfl, running, fun low => by omega⟩

end Objects

end Sys2Proof.Machine
end

section
/-! SUPPORT. A stop that is reached (R397, R398): O53. -/

namespace Sys2Proof.Machine

/-! ## A stop that is reached (R397, R398) -/

section StopReached

variable {s : State} {ctx : Nat} {c : Ctx} (settled : s.settle ctx = s) (found : Tab.find? s.ctxs ctx = some c)
include settled found

theorem exec_debugStopReached_asked {n count : Nat} {h : Hart} (asked : c.dbg.asked = some (n, h, count)) (halted : c.halt = 2)
    (quiet : c.mirroring = none) : exec (.debugStopReached ctx) s = .next (s.startReplay ctx c n h count) := by
  have ran : exec (.debugStopReached ctx) s = execDebugStopReached ctx s := by rfl
  rw [ran, execDebugStopReached, settled]
  simp only [found, asked, halted, quiet, Option.isNone_none, and_self, if_true]

theorem exec_debugStopReached_target {h : Hart} {goal : Word} (unasked : c.dbg.asked = none) (target : c.dbg.target = some (h, goal)) :
    exec (.debugStopReached ctx) s = .next (if (s.thread h).retired = goal then s.endReplay ctx c 0
      else if s.diverged ctx then s.endReplay ctx c 4 else s) := by
  have ran : exec (.debugStopReached ctx) s = execDebugStopReached ctx s := by rfl
  rw [ran, execDebugStopReached, settled]
  simp only [found, unasked, target]

omit settled found

variable {n count : Nat} {h : Hart} {k : Checkpoint} (held : c.dbg.checkpoints.find? (fun x => decide (x.number = n)) = some k)
include held

theorem State.startReplay_waits (waits : (s.flushLogs ctx).restoreInPlace ctx c k.image = .waits) : s.startReplay ctx c n h count = s := by
  rw [State.startReplay]
  simp only [held, waits]

/-- R397: the context runs from the checkpoint that is restored in place, up to the count of the thread that STOP names. -/
theorem State.startReplay_done {s1 : State} (done : (s.flushLogs ctx).restoreInPlace ctx c k.image = .done s1) :
    ∃ c', Tab.find? (s.startReplay ctx c n h count).ctxs ctx = some c' ∧ c'.dbg.asked = none ∧ c'.dbg.stopped = none ∧
      c'.dbg.target = some (h, (s1.thread h).retired + BitVec.ofNat 64 count) := by
  rw [State.startReplay]
  simp only [held, done]
  exact ⟨_, Tab.find?_set_same _ _ _, rfl, rfl, rfl⟩

omit held

/-- R397: the context of a replay that has ended halts with FORCE and stays stopped. -/
theorem State.endReplay_stops (s : State) (ctx : Nat) (c : Ctx) (status : Nat) : ((s.endReplay ctx c status).conn 64).response = [status] ∧
    ∃ c', Tab.find? (s.endReplay ctx c status).ctxs ctx = some c' ∧ c'.dbg.stopped = some status ∧ c'.dbg.target = none ∧ c'.halt ≠ 0 ∧
      c'.force = true := by
  refine ⟨State.response_debugStatus _ status, ?_⟩
  obtain ⟨c', after, dbg, halt, force⟩ := State.HaltsWith.requestHalt
    (s := ((s.coresOf ctx).foldl (fun r n => r.setCore n (r.core n).endReplay) s).setCtx ctx
      { c with dbg := { c.dbg with target := none, stopped := some status } }) (Tab.find?_set_same ctx _ _) true
  exact ⟨c', after, by rw [dbg], by rw [dbg], halt, force⟩

end StopReached

end Sys2Proof.Machine
end

section
/-! SUPPORT. Flofer ports (R402 to R404): O53. -/

namespace Sys2Proof.Machine

/-! ## Flofer ports (R402 to R404) -/

theorem State.chan_setChan (s : State) (port vc : Nat) (c : Chan) : (s.setChan port vc c).chan port vc = c := by
  simp only [State.chan, State.setChan, Tab.find?_set_same, Option.getD_some]

theorem State.setChan_eq (s : State) (port vc : Nat) (c : Chan) : s.setChan port vc c = { s with dev := (s.setChan port vc c).dev } := rfl

/-- R402, R403: a port that is trained, and a flit that is well formed. -/
structure State.Trained (s : State) (port : Nat) (f : Flit) : Prop where
  locked : s.dev.devLock = true
  port : port < 16
  vc : f.vc < 4
  ok : flitOk f.vc f = true

theorem State.Trained.of_fields {s : State} {port : Nat} {f : Flit}
    (good : s.dev.devLock = true ∧ port < 16 ∧ f.vc < 4 ∧ f.type < 3 ∧ f.dest < 2 ^ 19 ∧ f.owner < 4096 ∧ f.free ≤ 64) : s.Trained port f := by
  obtain ⟨locked, low, vc, type, dest, owner, free⟩ := good
  exact ⟨locked, low, vc, by simp [-Nat.reducePow, flitOk, type, dest, owner, free]⟩

section Ports

variable {s : State} {port : Nat} {f : Flit}

theorem exec_flitSend_untrained {vc : Nat} (free : s.dev.devLock = false) : exec (.flitSend port vc f) s = .next s := by
  have ran : exec (.flitSend port vc f) s = execFlitSend port vc f s := by rfl
  rw [ran, execFlitSend, if_pos (by simp [free])]

theorem exec_flitReceive_refused (refused : s.dev.devLock = false ∨ tagOk = false) : exec (.flitReceive port f tagOk) s = .next s := by
  have ran : exec (.flitReceive port f tagOk) s = execFlitReceive port f tagOk s := by rfl
  rw [ran, execFlitReceive, if_pos (by rcases refused with h | h <;> simp [h])]

section Trained

variable (trained : s.Trained port f)
include trained

theorem exec_flitSend_stopped (stopped : (s.chan port f.vc).stopped = true) :
    exec (.flitSend port f.vc f) s = .next (s.setChan port f.vc (s.chan port f.vc).retrain) := by
  obtain ⟨locked, low, vc, ok⟩ := trained
  have ran : exec (.flitSend port f.vc f) s = execFlitSend port f.vc f s := by rfl
  rw [ran, execFlitSend, if_neg (by simp [locked, low, vc, ok]), if_pos stopped]

theorem exec_flitSend_again (going : (s.chan port f.vc).stopped = false) (empty : (s.chan port f.vc).again = []) (sent : f ∈ (s.chan port f.vc).unacked) :
    exec (.flitSend port f.vc f) s = .next (s.setChan port f.vc { s.chan port f.vc with wire := (s.chan port f.vc).wire ++ [f] }) := by
  obtain ⟨locked, low, vc, ok⟩ := trained
  have ran : exec (.flitSend port f.vc f) s = execFlitSend port f.vc f s := by rfl
  rw [ran, execFlitSend, if_neg (by simp [locked, low, vc, ok]), if_neg (by simp [going])]
  split
  · next more => cases empty.symm.trans more
  · exact if_pos sent

/-- R403: the next flit of a sequence. -/
theorem exec_flitSend (going : (s.chan port f.vc).stopped = false) (empty : (s.chan port f.vc).again = []) (new : f ∉ (s.chan port f.vc).unacked)
    (credit : 1 ≤ (s.chan port f.vc).credit) (next : f.seq = (s.chan port f.vc).sendSeq) (owed : f.free ≤ (s.chan port f.vc).owed)
    (room : (s.chan port f.vc).unacked.length < 256) (audited : f.type = 0 → (s.chan port f.vc).sentData < 4096)
    (audit : f.type = 1 → f.payload = auditPayload (s.chan port f.vc).credit f.seq) :
    ∃ x : Chan, exec (.flitSend port f.vc f) s = .next (s.setChan port f.vc x) ∧ x.credit = (s.chan port f.vc).credit - 1 ∧
      x.sendSeq = ((s.chan port f.vc).sendSeq + 1) % 2 ^ 64 ∧ x.owed = (s.chan port f.vc).owed - f.free ∧
      x.unacked = (s.chan port f.vc).unacked ++ [f] ∧ x.wire = (s.chan port f.vc).wire ++ [f] := by
  obtain ⟨locked, low, vc, ok⟩ := trained
  have ran : exec (.flitSend port f.vc f) s = execFlitSend port f.vc f s := by rfl
  have sends : ¬ ((s.chan port f.vc).credit = 0 ∨ f.seq ≠ (s.chan port f.vc).sendSeq ∨ (s.chan port f.vc).owed < f.free ∨
      256 ≤ (s.chan port f.vc).unacked.length ∨ (f.type = 0 ∧ 4096 ≤ (s.chan port f.vc).sentData) ∨
      (f.type = 1 ∧ f.payload ≠ auditPayload (s.chan port f.vc).credit f.seq)) := by
    rintro (none | other | few | full | ⟨data, due⟩ | ⟨isAudit, wrong⟩)
    · omega
    · exact other next
    · omega
    · omega
    · exact absurd (audited data) (by omega)
    · exact wrong (audit isAudit)
  rw [ran, execFlitSend, if_neg (by simp [locked, low, vc, ok]), if_neg (by simp [going]), empty]
  exact ⟨_, (if_neg new).trans (if_neg sends), rfl, rfl, rfl, rfl, rfl⟩

theorem exec_flitReceive_other (fresh : (s.chan port f.vc).dups = 0) (other : f.seq ≠ (s.chan port f.vc).recvSeq) :
    exec (.flitReceive port f true) s = .next s := by
  obtain ⟨locked, low, vc, ok⟩ := trained
  have ran : exec (.flitReceive port f true) s = execFlitReceive port f true s := by rfl
  rw [ran, execFlitReceive, if_neg (by simp [locked, low, vc, ok]), if_neg (by simp [fresh]), if_pos other]

/-- R403: the next flit of the far side's sequence. -/
theorem exec_flitReceive (fresh : (s.chan port f.vc).dups = 0) (next : f.seq = (s.chan port f.vc).recvSeq) :
    ∃ x : Chan, exec (.flitReceive port f true) s = .next (s.setChan port f.vc x) ∧ x.recvSeq = ((s.chan port f.vc).recvSeq + 1) % 2 ^ 64 ∧
      x.credit = min 64 ((s.chan port f.vc).credit + f.free) ∧ x.unacked = (s.chan port f.vc).unacked.drop f.free ∧
      (f.type = 1 → x.received = (s.chan port f.vc).received ++ [f]) := by
  obtain ⟨locked, low, vc, ok⟩ := trained
  have ran : exec (.flitReceive port f true) s = execFlitReceive port f true s := by rfl
  rw [ran, execFlitReceive, if_neg (by simp [locked, low, vc, ok]), if_neg (by simp [fresh]), if_neg (not_not.mpr next)]
  exact ⟨_, rfl, rfl, rfl, rfl, fun audit => if_pos audit⟩

end Trained

/-- R404: the audit of a channel, which stops it where the counts do not match. -/
theorem exec_auditFlit {vc n seq : Nat} {a : Flit} {rest : List Flit} (locked : s.dev.devLock = true) (low : port < 16) (channel : vc < 4)
    (received : (s.chan port vc).received = a :: rest) (tells : a.payload = auditPayload n seq) :
    let c := s.chan port vc
    let used := n + (seq + 1 - c.recvSeq) + c.owed + c.received.length
    exec (.auditFlit port vc n seq) s = .next (s.setChan port vc (if used ≤ 64 ∧ 64 ≤ used + (c.unacked.map Flit.free).sum
      then { c with owed := c.owed + 1, received := rest } else { c with stopped := true, owed := c.owed + c.received.length, received := [] })) := by
  intro c used
  have ran : exec (.auditFlit port vc n seq) s = execAuditFlit port vc n seq s := by rfl
  have guard : ¬ (!s.dev.devLock || decide (16 ≤ port) || decide (4 ≤ vc) || decide (a.payload ≠ auditPayload n seq)) = true := by
    simp [locked, low, channel, tells]
  rw [ran, execAuditFlit]
  simp only [received, if_neg guard]
  split
  · next fits => rw [if_pos (by simpa only [used, c, received] using fits)]
  · next wrong => rw [if_neg (by simpa only [used, c, received] using wrong), show c.received = a :: rest from received]

theorem State.find?_setChan_other (s : State) (port vc : Nat) (c : Chan) {k : Nat} (other : k ≠ 4 * port + vc) :
    Tab.find? (s.setChan port vc c).dev.chans k = Tab.find? s.dev.chans k := Tab.find?_set_other _ _ _ _ other

end Ports

end Sys2Proof.Machine
end

section
/-! SUPPORT. Debug objects and the Flofer ports (R395 to R399, R403, R404): O53. -/

namespace Sys2Proof.Machine

/-- Settles O53: each clause is the rule of its debug object or of its flit. -/
theorem debugAndPortSteps : Obligations.DebugAndPortSteps := by
  unfold Obligations.DebugAndPortSteps
  intro s ctx port vc c f d answers ch open_ objects good
  refine ⟨fun challenged => exec_debugNonce challenged,
    fun owner nonce sg key challenged low high found fresh => exec_debugUnlock_answers challenged low high found fresh,
    fun i object => ?refused, fun opened => ?opened, fun settled found => ⟨fun n h count k asked halted quiet held => ?asked, fun h goal unasked target => ?target⟩,
    fun free => ⟨exec_flitSend_untrained free, fun tagOk => exec_flitReceive_refused (.inl free)⟩,
    fun good same going empty new credit next owed room audited audit => ?send, fun good same going empty sent => ?again, fun good same stopped => ?retrain,
    fun good same fresh next => ?receive, fun good => ⟨exec_flitReceive_refused (.inr rfl), fun same fresh other => ?drop⟩,
    fun n seq a rest locked low channel received tells => ?audit⟩
  case refused =>
    obtain ⟨g, ran⟩ := exec_debugObject (s := s) object
    refine ⟨fun unchallenged => ?_, fun challenged found locked => ?_⟩
    · exact ⟨_, ran.trans (State.debugCtx_unchallenged unchallenged g), State.response_debugStatus _ 1, State.debugStatus_eq _ 1⟩
    · exact ⟨_, ran.trans (State.debugCtx_locked challenged found locked g), State.response_debugStatus _ 2, State.debugStatus_eq _ 2⟩
  case opened =>
    obtain ⟨challenged, found, unlocked⟩ := opened
    refine ⟨fun period logs low high entries records domain => ?_, ?_,
      fun interval thread count k hosted user armed unasked free going whole taken number =>
        exec_debugStop challenged found unlocked hosted user armed unasked free going whole taken number, fun going => ⟨?_, ?_⟩,
      fun type key x stopped halted section_ => exec_debugRead challenged found unlocked stopped halted section_,
      fun stopped free => exec_debugResume_resumes challenged found unlocked stopped free,
      fun force stopped waits => exec_debugResume_halts challenged found unlocked stopped waits⟩
    · exact ⟨_, exec_debugArm challenged found unlocked low high entries records domain, State.response_debugStatus _ 0, c.armedWith period logs,
        Tab.find?_set_same _ _ _, rfl, rfl, rfl⟩
    · exact ⟨_, exec_debugDisarm challenged found unlocked, State.response_debugStatus _ 0, c.disarmed, Tab.find?_set_same _ _ _, rfl, rfl⟩
    · exact ⟨_, exec_debugRead_going challenged found unlocked going, State.response_debugStatus _ 1⟩
    · exact ⟨_, exec_debugResume_going challenged found unlocked going, State.response_debugStatus _ 1⟩
  case asked =>
    rw [exec_debugStopReached_asked settled found asked halted quiet]
    refine ⟨fun waits => by rw [State.startReplay_waits held waits], fun s1 done => ?_⟩
    obtain ⟨c', after⟩ := State.startReplay_done (h := h) (count := count) held done
    exact ⟨_, c', rfl, after⟩
  case target =>
    rw [exec_debugStopReached_target settled found unasked target]
    refine ⟨fun short together => by rw [if_neg short, together, if_neg Bool.false_ne_true], fun st status ends => ?_⟩
    subst status
    by_cases reached : (s.thread h).retired = goal
    · obtain ⟨answer, c', stops⟩ := s.endReplay_stops ctx c 0
      rw [if_pos reached, if_pos reached]
      exact ⟨_, c', rfl, answer, stops⟩
    · obtain ⟨answer, c', stops⟩ := s.endReplay_stops ctx c 4
      rw [if_neg reached, if_neg reached, if_pos (ends.resolve_left reached)]
      exact ⟨_, c', rfl, answer, stops⟩
  case send =>
    subst same
    obtain ⟨x, ran, after⟩ := exec_flitSend (.of_fields good) going empty new credit next owed room audited audit
    obtain ⟨credit, sendSeq, owed, unacked, wire⟩ := after
    exact ⟨_, ran, by rw [State.chan_setChan]; exact ⟨credit, sendSeq, owed, unacked, wire, s.setChan_eq port f.vc x⟩⟩
  case again =>
    subst same
    exact exec_flitSend_again (.of_fields good) going empty sent
  case retrain =>
    subst same
    refine ⟨_, exec_flitSend_stopped (.of_fields good) stopped, ?_⟩
    rw [State.chan_setChan]
    exact ⟨rfl, rfl, rfl, rfl⟩
  case receive =>
    subst same
    obtain ⟨x, ran, after⟩ := exec_flitReceive (.of_fields good) fresh next
    obtain ⟨recvSeq, credit, unacked, received⟩ := after
    exact ⟨_, ran, by rw [State.chan_setChan]; exact ⟨recvSeq, credit, unacked, received, s.setChan_eq port f.vc x⟩⟩
  case drop =>
    subst same
    exact exec_flitReceive_other (.of_fields good) fresh other
  case audit =>
    refine ⟨_, exec_auditFlit locked low channel received tells, fun k other => State.find?_setChan_other _ _ _ _ other, ?_⟩
    rw [State.chan_setChan]
    split
    · exact ⟨rfl, rfl⟩
    · exact ⟨rfl, rfl, rfl⟩

end Sys2Proof.Machine
end
